-- ==== Sys2Proof/Word.lean ====
section
/-!
DEFINITION. The word types of the Kryja module and their plainest arithmetic (R4, R36, R54).
Arithmetic whose reading could be wrong stands in Machine/, not here.
-/
namespace Sys2Proof

/-- The smallest addressable unit (R4). -/
abbrev Byte := BitVec 8
/-- A register of a cell (R11). -/
abbrev Word := BitVec 32
/-- An instruction word (R54), a space address (R162), a latch (R60), a register pair (R36). -/
abbrev Word64 := BitVec 64
/-- A view record (R169). -/
abbrev ViewBits := BitVec 256
/-- A segment descriptor (R164). -/
abbrev DescBits := BitVec 128

/-- One bit of a natural number. -/
def natBit (n i : Nat) : Bool := n / 2 ^ i % 2 == 1

/-- Bits `[lo + w - 1 : lo]` of a natural number. -/
def natBits (n lo w : Nat) : Nat := n / 2 ^ lo % 2 ^ w

/-- 1 for true and 0 for false. -/
def boolNat (b : Bool) : Nat := if b then 1 else 0

end Sys2Proof
end

