-- ==== Sys2Proof/Syntax.lean ====
section
/-!
DEFINITION. The syntax: one constructor of `Instr` for each row of spec/opcode_table.json. The first 148 constructors are
the instruction words of R73; their operands are the fields of R54 to R72 after decoding. The others are the machine's own
steps, which no word encodes: their operands say which unit, member, access or command the step concerns, and what the
outside brings with it (log 5).
-/
namespace Sys2Proof

/-- The six directions (R14). -/
inductive Dir | w | e | n | s | l | h
deriving DecidableEq, Repr

/-- A 9-bit operand specifier (R64). -/
inductive Src
  | g (n : BitVec 6)
  | face (f : BitVec 3)
  | latch (b : BitVec 2)
  | const (c : BitVec 4)
  | nbr (d : Dir) (f : BitVec 3)
  | imm (i : BitVec 8)
deriving DecidableEq, Repr

/-- A 7-bit destination code (R67). -/
inductive Dst
  | g (n : BitVec 6)
  | face (f : BitVec 3)
  | pred (p : BitVec 3)
  | none
deriving DecidableEq, Repr

/-- The fields common to every format (R54): timing class, latch-only bit, guard and its sense. -/
structure Common where
  t : BitVec 2
  k : Bool
  guard : BitVec 3
  sense : Bool
deriving DecidableEq, Repr

/-- Rounding modes (R40). -/
inductive Rm | rne | rz | rd | ru
deriving DecidableEq, Repr

/-- Source modifiers of R148: negate and absolute value for A, B and C. -/
structure Mods where
  negA : Bool
  absA : Bool
  negB : Bool
  absB : Bool
  negC : Bool
  absC : Bool
deriving DecidableEq, Repr

/-- Rounding fields of an arithmetic float form (R147). -/
structure FRnd where
  rm : Rm
  fz : Bool
  mods : Mods
deriving DecidableEq, Repr

/-- Memory order of Format M (R70). -/
inductive Order | plain | acq | rel | ar
deriving DecidableEq, Repr

/-- Scopes encoded in Format M (R70). -/
inductive MScope | core | field | module | pod
deriving DecidableEq, Repr

/-- Cache policies (R70). -/
inductive Policy | default | stream | keep | bypass
deriving DecidableEq, Repr

/-- The address part of Format M: view, offset operand, order, scope, policy, token code and displacement (R70). -/
structure MemOp where
  view : BitVec 6
  off : Src
  order : Order
  scope : MScope
  pol : Policy
  tok : BitVec 3
  disp : BitVec 16
deriving DecidableEq, Repr

/-- Six levels of R1, as barrier scopes (R260). -/
inductive Scope | cell | core | quad | field | module | pod
deriving DecidableEq, Repr

/-- Condition codes of the integer compares (R133). -/
inductive Cond | eq | ne | lt | le | gt | ge
deriving DecidableEq, Repr

/-- Condition codes of FCMP (R152). -/
inductive FCond | eq | ne | lt | le | gt | ge | un | or
deriving DecidableEq, Repr

/-- Element formats that a register transfer can name (R35). -/
inductive Fmt | n8 | n16 | n32 | n64 | i8 | i16 | i32 | i64 | fp16 | bf16 | fp32
deriving DecidableEq, Repr

/-- Atomic functions (R193). -/
inductive AtomFn | add | and | or | xor | min | max | xchg | fadd | fmin | fmax
deriving DecidableEq, Repr

/-- Special registers that MOVS and SETS name (R134). -/
inductive SReg
  | cellx | celly | cellz | gridx | gridy | gridz | step | core | quad | field | module | slot | ctx | launch
  | cyc | time | energy | perf | tok
deriving DecidableEq, Repr

/-- Types of CVT (R157). -/
inductive CvtTy | n8 | n16 | n32 | n64 | i8 | i16 | i32 | i64 | fp16 | bf16 | fp32
deriving DecidableEq, Repr

/-- Element types of PACK2 and SPLIT2 (R159). -/
inductive Half | fp16 | bf16 | i16 | n16
deriving DecidableEq, Repr

/-- Formats of the matrix array (R209). -/
inductive MatFmt | se2 | se4 | se7 | bf16
deriving DecidableEq, Repr

/-- Address forms of TLBINV (R288). -/
inductive TlbinvForm | addr | asn | all
deriving DecidableEq, Repr

/-- Where a request from another module comes from, and the channel on which it comes and is answered (R317). -/
structure PeerChannel where
  module : Nat
  channel : Nat
deriving DecidableEq, Repr

/-- A peer request as it arrives (R315): what it asks of the memory. Keeper operations on nodes carry the descriptors under which their
nodes resolve (R195). -/
inductive PeerKind
  | read (size : Nat)
  | write (bytes : List Byte)
  | atomic (fn : AtomFn) (fmt : Fmt) (v : Word64)
  | cas (size : Nat) (old new : Word64)
  | kcas2 (dist : Nat) (old0 old1 new0 new1 : Word)
  | kchunk
  | kenq (descs : Vector DescBits 6) (node : Word64)
  | kdeq (descs : Vector DescBits 6)
  | kchase (descs : Vector DescBits 6) (limit : Word) (word : Nat)
  | sarm (v : Word)
  | sadd (v : Word)
  | swait (gen : Word)
deriving DecidableEq, Repr

/-- How a peer answers a request of this module (R315, R177). -/
inductive PeerAnswer
  | done (v0 v1 : Word64)
  | reject
  | lost
deriving DecidableEq, Repr

/-- The descriptor with which Sernus creates a user queue (R77); `system` marks a queue of Sernus's own launches (R284). -/
structure QueueDesc where
  number : Nat
  ring : Word64
  k : Nat
  widxAddr : Word64
  ridxAddr : Word64
  page : Word64
  root : BitVec 48
  asn : BitVec 16
  system : Bool
deriving DecidableEq, Repr

/-- Who acts from outside an instruction: an access of a context, a neighbour read, a client with its job, source address and port, or the
management bus (R78, R308, R320, R327). -/
inductive Origin
  | access (a : Nat)
  | neighbour (r : Nat)
  | client (job src port : Nat)
  | management
deriving DecidableEq, Repr

/-- What a peer answers for a byte that an engine reads there (R212, R315). -/
inductive PeerRead
  | byte (b : Byte)
  | reject
  | lost
deriving DecidableEq, Repr

/-- What the outside gives for addresses on a peer: aperture, address, answer (R220, R315). -/
abbrev PeerBytes := List (Nat × Nat × PeerRead)

inductive Instr
  -- 0x0 integer (R128, R129)
  | add (c : Common) (d : Dst) (a b : Src) (sat s : Bool)
  | sub (c : Common) (d : Dst) (a b : Src) (sat s : Bool)
  | addc (c : Common) (d : Dst) (a b : Src) (pOut pIn : BitVec 3) (cin : Bool)
  | subb (c : Common) (d : Dst) (a b : Src) (pOut pIn : BitVec 3) (cin : Bool)
  | mul (c : Common) (d : Dst) (a b : Src)
  | mulh (c : Common) (d : Dst) (a b : Src) (s : Bool)
  | mad (c : Common) (d : Dst) (a b e : Src)
  | neg (c : Common) (d : Dst) (a : Src) (sat s : Bool)
  | abs (c : Common) (d : Dst) (a : Src) (sat s : Bool)
  | min (c : Common) (d : Dst) (a b : Src) (s : Bool)
  | max (c : Common) (d : Dst) (a b : Src) (s : Bool)
  | addd (c : Common) (d : Dst) (a b : Src) (sat s : Bool)
  | subd (c : Common) (d : Dst) (a b : Src) (sat s : Bool)
  | mulw (c : Common) (d : Dst) (a b : Src) (s : Bool)
  | sad (c : Common) (d : Dst) (a b e : Src)
  | dot4 (c : Common) (d : Dst) (a b e : Src) (sa sb sat : Bool)
  | addi (c : Common) (d : Dst) (wide : Bool) (r : BitVec 6) (imm : Word)
  | ldi (c : Common) (d : Dst) (wide : Bool) (imm : Word)
  -- 0x1 logic, shift, bit (R130, R131)
  | and (c : Common) (d : Dst) (a b : Src)
  | or (c : Common) (d : Dst) (a b : Src)
  | xor (c : Common) (d : Dst) (a b : Src)
  | andn (c : Common) (d : Dst) (a b : Src)
  | not (c : Common) (d : Dst) (a : Src)
  | shl (c : Common) (d : Dst) (a b : Src)
  | shr (c : Common) (d : Dst) (a b : Src)
  | sar (c : Common) (d : Dst) (a b : Src)
  | rol (c : Common) (d : Dst) (a b : Src)
  | shld (c : Common) (d : Dst) (a b e : Src)
  | shrd (c : Common) (d : Dst) (a b e : Src)
  | clz (c : Common) (d : Dst) (a : Src)
  | popc (c : Common) (d : Dst) (a : Src)
  | brev (c : Common) (d : Dst) (a : Src)
  | bfx (c : Common) (d : Dst) (a b : Src) (s : Bool)
  | bfi (c : Common) (d : Dst) (a b e : Src)
  | perm (c : Common) (d : Dst) (a b e : Src)
  | andi (c : Common) (d : Dst) (r : BitVec 6) (imm : Word)
  | ori (c : Common) (d : Dst) (r : BitVec 6) (imm : Word)
  | xori (c : Common) (d : Dst) (r : BitVec 6) (imm : Word)
  -- 0x2 compare, select, move (R132, R133, R134)
  | cmp (c : Common) (p : BitVec 3) (a b : Src) (cc : Cond) (s wide : Bool)
  | cmps (c : Common) (d : Dst) (a b : Src) (cc : Cond) (s wide : Bool)
  | sel (c : Common) (d : Dst) (a b : Src) (p : BitVec 3) (negate wide : Bool)
  | mov (c : Common) (d : Dst) (a : Src) (wide : Bool)
  | movs (c : Common) (d : Dst) (r : SReg) (wide : Bool)
  | sets (c : Common) (a : Src) (r : SReg) (wide : Bool)
  | pand (c : Common) (p pa pb : BitVec 3) (na nb : Bool)
  | por (c : Common) (p pa pb : BitVec 3) (na nb : Bool)
  | pxor (c : Common) (p pa pb : BitVec 3) (na nb : Bool)
  | pnot (c : Common) (p pa : BitVec 3)
  | pset (c : Common) (p : BitVec 3) (a : Src)
  | pmov (c : Common) (d : Dst) (a : Src) (write : Bool)
  -- 0x3 FP32 (R150 to R154)
  | fadd (c : Common) (d : Dst) (a b : Src) (r : FRnd)
  | fsub (c : Common) (d : Dst) (a b : Src) (r : FRnd)
  | fmul (c : Common) (d : Dst) (a b : Src) (r : FRnd)
  | ffma (c : Common) (d : Dst) (a b e : Src) (r : FRnd)
  | fmin (c : Common) (d : Dst) (a b : Src) (fz : Bool) (m : Mods)
  | fmax (c : Common) (d : Dst) (a b : Src) (fz : Bool) (m : Mods)
  | fcmp (c : Common) (d : Dst) (a b : Src) (cc : FCond) (fz : Bool) (m : Mods)
  | fclass (c : Common) (d : Dst) (a : Src)
  | frcp (c : Common) (d : Dst) (a : Src) (fz : Bool) (m : Mods)
  | frsq (c : Common) (d : Dst) (a : Src) (fz : Bool) (m : Mods)
  | fsqrt (c : Common) (d : Dst) (a : Src) (r : FRnd)
  | fdiv (c : Common) (d : Dst) (a b : Src) (r : FRnd)
  | fexp2 (c : Common) (d : Dst) (a : Src) (fz : Bool) (m : Mods)
  | flog2 (c : Common) (d : Dst) (a : Src) (fz : Bool) (m : Mods)
  | fsin (c : Common) (d : Dst) (a : Src) (fz : Bool) (m : Mods)
  | fcos (c : Common) (d : Dst) (a : Src) (fz : Bool) (m : Mods)
  | ftanh (c : Common) (d : Dst) (a : Src) (fz : Bool) (m : Mods)
  | fscale (c : Common) (d : Dst) (a b : Src) (r : FRnd)
  | ffrac (c : Common) (d : Dst) (a : Src) (fz : Bool) (m : Mods)
  | frnd (c : Common) (d : Dst) (a : Src) (r : FRnd)
  -- 0x4 packed (R155, R156)
  | hadd2 (c : Common) (d : Dst) (a b : Src) (bf : Bool) (r : FRnd)
  | hmul2 (c : Common) (d : Dst) (a b : Src) (bf : Bool) (r : FRnd)
  | hfma2 (c : Common) (d : Dst) (a b e : Src) (bf : Bool) (r : FRnd)
  | hmin2 (c : Common) (d : Dst) (a b : Src) (bf fz : Bool) (m : Mods)
  | hmax2 (c : Common) (d : Dst) (a b : Src) (bf fz : Bool) (m : Mods)
  | hdot2 (c : Common) (d : Dst) (a b e : Src) (bf : Bool) (r : FRnd)
  -- 0x5 convert (R157 to R160)
  | cvt (c : Common) (d : Dst) (a : Src) (dst src : CvtTy) (rm : Rm) (fz sat : Bool)
  | pack2 (c : Common) (d : Dst) (a b : Src) (ty : Half) (s : Bool) (rm : Rm) (fz sat : Bool)
  | split2 (c : Common) (d : Dst) (a : Src) (ty : Half) (fz : Bool)
  | pack4 (c : Common) (d : Dst) (a b : Src) (i8 s sat : Bool)
  | split4 (c : Common) (d : Dst) (a : Src) (hi signed : Bool)
  -- 0x6 control (R135 to R143)
  | bra (c : Common) (off : BitVec 31)
  | jmpi (c : Common) (a : Src)
  | call (c : Common) (link : BitVec 6) (off : BitVec 31)
  | calli (c : Common) (link : BitVec 6) (a : Src)
  | ret (c : Common) (a : Src)
  | relcall (c : Common) (frame : Option (BitVec 6)) (a : Src)
  | tjoin (c : Common)
  | tend (c : Common)
  | exit (c : Common)
  | nop (c : Common)
  | yieldI (c : Common)
  | progress (c : Common)
  -- 0x7 cell and grid (R146, R110, R125, R108)
  | step (c : Common) (mask : BitVec 8)
  | migrate (c : Common) (d : Dst) (a : Src)
  | dqpush (c : Common) (a : Src)
  | dqpop (c : Common) (d : Dst)
  | park (c : Common)
  -- 0x8 memory (R189 to R192)
  | ld (c : Common) (d : Dst) (m : MemOp)
  | st (c : Common) (d : Dst) (m : MemOp)
  | ldx (c : Common) (d : Dst) (w : Fmt) (m : MemOp)
  | stx (c : Common) (d : Dst) (w : Fmt) (m : MemOp)
  | pref (c : Common) (m : MemOp)
  | vset (c : Common) (base view : BitVec 6)
  | vget (c : Common) (base view : BitVec 6)
  | vld (c : Common) (entry : BitVec 6) (m : MemOp)
  -- 0x9 atomics, keeper (R193 to R199)
  | atom (c : Common) (r : BitVec 6) (fn : AtomFn) (m : MemOp)
  | atomr (c : Common) (r : BitVec 6) (fn : AtomFn) (m : MemOp)
  | cas (c : Common) (r : BitVec 6) (m : MemOp)
  | kcas2 (c : Common) (r : BitVec 6) (dist : BitVec 4) (m : MemOp)
  | kenq (c : Common) (r : BitVec 6) (m : MemOp)
  | kdeq (c : Common) (r : BitVec 6) (m : MemOp)
  | kchase (c : Common) (r : BitVec 6) (word : BitVec 4) (m : MemOp)
  | kchunk (c : Common) (r : BitVec 6) (m : MemOp)
  -- 0xA synchronisation (R259, R260, R201)
  | fence (c : Common) (order : Order) (scope : MScope) (tok : BitVec 3)
  | bar (c : Common) (sc : Scope)
  | bara (c : Common) (d : Option (BitVec 6)) (sc : Scope)
  | barw (c : Common) (a : Src) (sc : Scope)
  | sarm (c : Common) (r : BitVec 6) (m : MemOp)
  | swait (c : Common) (r : BitVec 6) (m : MemOp)
  | sadd (c : Common) (r : BitVec 6) (m : MemOp)
  -- 0xB engines (R209 to R231)
  | copy (c : Common) (block : Option (BitVec 6)) (vd vs : BitVec 6) (rm : Rm) (fz sat : Bool) (tok : BitVec 3)
  | copym (c : Common) (block : BitVec 6) (vd vs vb : BitVec 6) (fmt : MatFmt) (rm : Rm) (fz sat : Bool)
      (tok : BitVec 3)
  | mmab (c : Common) (block : BitVec 6) (va vb : BitVec 6) (fmt : MatFmt) (tok : BitVec 3)
  | scacc (c : Common) (block : Option (BitVec 6)) (va vb : BitVec 6) (part acc : BitVec 2) (tok : BitVec 3)
  | mload (c : Common) (block : Option (BitVec 6)) (v : BitVec 6) (acc : BitVec 2) (tok : BitVec 3)
  | mstore (c : Common) (block : Option (BitVec 6)) (v : BitVec 6) (acc : BitVec 2) (rm : Rm) (fz sat : Bool)
      (tok : BitVec 3)
  | mzero (c : Common) (acc : BitVec 2) (tok : BitVec 3)
  | tmma (c : Common) (block : BitVec 6) (v : BitVec 6) (entry : BitVec 9) (tok : BitVec 3)
  | drun (c : Common) (block : BitVec 6) (entry : BitVec 9) (tok : BitVec 3)
  | ecan (c : Common) (mask : BitVec 3) (tok : BitVec 3)
  -- 0xC launch, task (R90, R95)
  | trig (c : Common)
  | spawn (c : Common) (r : BitVec 6) (m : MemOp)
  -- 0xD system (R284 to R292, R306, R325)
  | trap (c : Common) (imm : Word)
  | svc (c : Common) (imm : Word)
  | eret (c : Common)
  | segset (c : Common) (n : BitVec 3) (r : BitVec 6)
  | segget (c : Common) (n : BitVec 3) (r : BitVec 6)
  | tlbinv (c : Common) (form : TlbinvForm) (a b : Src)
  | shoot (c : Common) (d : Dst) (a b e : Src) (g : Bool) (tok : BitVec 3)
  | ldio (c : Common) (d : Dst) (a : Src) (wide : Bool) (tok : BitVec 3)
  | stio (c : Common) (a b : Src) (wide : Bool) (tok : BitVec 3)
  | ctxsave (c : Common) (d : Dst) (a b : Src) (tok : BitVec 3)
  | ctxload (c : Common) (d : Dst) (a b : Src) (tok : BitVec 3)
  | idle (c : Common) (d : Dst) (a : Src)
  | ckpt (c : Common) (d : BitVec 6) (a b : Src) (tok : BitVec 3)
  | ckptRb (c : Common) (d : BitVec 6) (a b : Src) (tok : BitVec 3)
  | setperf (c : Common) (a : Src)
  -- members: steps that end a wait
  | relcallRelease (m : Nat)
  | tendComplete (m : Nat)
  | exitDrainEnd (m : Nat)
  | stepCommit (m : Nat)
  | migrateMove (m : Nat)
  | dqEntryReleased (core : Nat)
  | parkSelf (m : Nat)
  -- accesses at their homes
  | kchaseHop (a : Nat)
  | keeperOperation (a : Nat)
  | atomicAtHome (a : Nat)
  | barrierInstanceComplete (launch : Nat) (sc : Scope) (unit k : Nat)
  | syncWordOperation (a : Nat)
  | swaitReturn (m : Nat)
  -- engines
  | copyCommandRun (core cmd : Nat) (ext : PeerBytes)
  | copySegmentLanded (core cmd seg : Nat)
  | copymFollowOnPlace (core cmd : Nat)
  | arrayCommandRun (core cmd : Nat) (ext : PeerBytes)
  | engineCommandComplete (core cmd : Nat)
  | engineHeldFaultResume (core cmd : Nat)
  | docentProgramStart (core : Nat) (ext : PeerBytes)
  | docentYieldPoint (core : Nat)
  | docentEnd (core : Nat)
  | docentMmab (core : Nat)
  | docentScacc (core : Nat)
  | docentMzero (core : Nat)
  | docentMload (core : Nat)
  | docentMstore (core : Nat)
  | docentCopy (core : Nat)
  | docentLoop (core : Nat)
  | docentSetl (core : Nat)
  | docentSignal (core : Nat)
  -- continuations, services
  | continuationAccept (core rec : Nat)
  | taskCellStart (field rec : Nat)
  | accessionWatchdogExpiry (field launch : Nat)
  | svcComplete (m : Nat) (vals : List Word)
  | shootdownComplete (seq : Nat)
  | idleWake (m : Nat) (timeout : Bool)
  -- fetch, issue, neighbour reads, parking
  | clauseFetch (core launch h : Nat)
  | clauseCacheFill (core launch h : Nat)
  | pick (core idle : Nat)
  | gangSwap (core : Nat)
  | neighbourReadArrival (r : Nat)
  | neighbourReadResume (r : Nat) (v : Word)
  | parkTransferEnd (core launch : Nat)
  | loadComplete (a : Nat)
  | storePerformed (a : Nat)
  | prefLineArrival (a victim : Nat)
  | tlbWalkFill (core walk victim : Nat)
  -- faults, service of faults, switching, watchdog
  | asyncFaultTake (m : Nat)
  | ringRecordWrite
  | actReplay (a : Nat)
  | actDeliver (a : Nat)
  | actAbandon (a : Nat)
  | stopactTerminate (a : Nat)
  | stopactResume (a : Nat)
  | stopactResumeDeliver (a : Nat)
  | contextSwitchOut (launch core : Nat)
  | contextRestore (launch core : Nat)
  | docentOverrunExpiry (core : Nat)
  | watchdogNoProgress (launch core : Nat) (image : Nat)
  | watchdogNoRetire (launch core : Nat) (image : Nat)
  -- packets and launches
  | notifyRegisterWrite (queue : Nat) (widx : Word) (src : Origin)
  | packetAccept (queue : Nat)
  | launchPlacement (launch : Nat)
  | launchStart (launch : Nat)
  | dependantFail (launch : Nat)
  | markerComplete (launch : Nat)
  | launchCompletion (launch : Nat)
  -- the causal fabric
  | causalPacketSend (a : Nat)
  | clockPacketArrival (p : Nat)
  | baseAckArrival (p : Nat)
  | sequencedPacketArrival (p : Nat)
  | readRequestArrival (p : Nat)
  | horizonQueryAnswer (p : Nat)
  | horizonAnswerArrival (p : Nat)
  | nackReceipt (p : Nat)
  | nackResend (field dest : Nat)
  | beaconArrival (p : Nat)
  | beaconAckArrival (p : Nat)
  | finalHorizonArrival (p : Nat)
  | fieldDeath (field : Nat)
  | causalReset
  -- links, peers, spans, clients
  | linkAckTimeout (link : Nat)
  | flitCrcFail (link : Nat)
  | moduleTimeout (module : Nat)
  | podTimeout (module : Nat)
  | poisonRead (granule : Nat) (reader : Origin)
  | peerRequestArrival (peer : PeerChannel) (pa : Nat) (req : PeerKind)
  | peerAckArrival (a : Nat) (ans : PeerAnswer)
  | rangeEntryWrite (a : Nat)
  | spanNeighbourRead (span : Nat) (peer : PeerChannel) (idx : Nat) (face : BitVec 3) (gen : Nat) (isStep : Bool)
  | spanStepReport (span idx step : Nat)
  | podBarrierCount (span module k : Nat)
  | clientRmaWrite (job : Nat) (srcAddr : Nat) (port pa : Nat) (bytes : List Byte)
  | clientRmaRead (job : Nat) (srcAddr : Nat) (port pa size : Nat)
  -- optics
  | reqWrite (a : Nat)
  | heatWrite (a : Nat)
  | evenThreshWrite (a : Nat)
  | flitEnqueue (fibre bundle flit : Nat)
  | flitStart (fibre bundle : Nat)
  | ringLock (fibre bundle wl : Nat)
  | ringParkEnd (fibre bundle wl : Nat)
  | ringLockTimeout (fibre bundle wl : Nat)
  | heaterRetune (fibre bundle wl : Nat) (heat mon : BitVec 16)
  -- budgets, performance, eviction, fields, integrity
  | byteBudgetInterval
  | perfIntervalBoundary
  | perfStepSettle (quad : Nat)
  | evictionGo (src : Origin) (target : Nat)
  | evictionAbort (src : Origin)
  | lrpWrite (a : Nat)
  | evictionQuiesced
  | evictionTransferred
  | evictionTimeout
  | circuitUp (port module : Nat)
  | fieldDrainCommand (a : Nat)
  | fieldForcedOffline (a : Nat)
  | fieldReturnOnline (a : Nat)
  | fieldDrainComplete (field : Nat) (copyBase : Nat)
  | appraiserReplay
  | appraiserSuspectClear (a : Nat)
  | checkpointDue (launch core : Nat)
  | checkpointDuePop (a : Nat)
  | ioRegisterWrite (a : Nat)
  -- module
  | moduleReset
  | bootImageVerify (image signature : List Byte) (version : Nat)
  | pldmFirmwareUpdate (image signature : List Byte) (version : Nat) (store : List (Nat × Byte))
  | spdmGetCertificate
  | spdmChallenge (nonce : List Byte)
  | spdmGetMeasurements
  | gangSwapEnd (core : Nat)
  | migrationResume (m : Nat)
  | heldFetchServiced (core launch h : Nat)
  | processorPageServiced (queue : Nat)
  | queueRestart (queue : Nat)
  | serviceChannelMessage (module : Nat) (kind value : Nat)
  | flitCreditReturn (port channel count : Nat)
  | restripeMarkerArrival (fibre bundle : Nat)
  | latchOpen
  | linkReadmit (member : Nat)
deriving DecidableEq, Repr

end Sys2Proof
end

