-- ==== Sys2Proof/Machine/Float.lean ====
section
/-!
DEFINITION. Floating-point arithmetic: FP32, FP16 and BF16 values (R37 to R42), one rounding of an exact value (R40), the
operations of R151 to R156, the class-2 functions of R153, and conversions (R44, R158). Patterns are natural numbers below
2^width; an exact finite value is ±m·2^e. Everything is integer arithmetic that the kernel evaluates.
-/
namespace Sys2Proof.Machine

/-- A binary format: exponent bits and fraction bits (R37, R42). -/
structure FFmt where
  eb : Nat
  fb : Nat
deriving DecidableEq, Repr

def FFmt.fp32 : FFmt := { eb := 8, fb := 23 }
def FFmt.fp16 : FFmt := { eb := 5, fb := 10 }
def FFmt.bf16 : FFmt := { eb := 8, fb := 7 }

/-- The format of a packed element (R155). -/
def FFmt.packed (bf : Bool) : FFmt := if bf then FFmt.bf16 else FFmt.fp16

def FFmt.width (f : FFmt) : Nat := 1 + f.eb + f.fb
def FFmt.bias (f : FFmt) : Nat := 2 ^ (f.eb - 1) - 1
/-- The exponent of the last place of a denormal. -/
def FFmt.emin (f : FFmt) : Int := 1 - (f.bias : Int) - f.fb
/-- The sign bit's weight. -/
def FFmt.signBit (f : FFmt) : Nat := 2 ^ (f.eb + f.fb)
/-- The pattern of +∞. -/
def FFmt.infBits (f : FFmt) : Nat := (2 ^ f.eb - 1) * 2 ^ f.fb
/-- The canonical NaN (R38). -/
def FFmt.nanBits (f : FFmt) : Nat := f.infBits + 2 ^ (f.fb - 1)
/-- The largest finite value. -/
def FFmt.maxBits (f : FFmt) : Nat := f.infBits - 1

/-- A value of a format. -/
inductive FVal
  | nan
  | inf (neg : Bool)
  | fin (neg : Bool) (m : Nat) (e : Int)
deriving DecidableEq, Repr

/-- The sign bit of a pattern. -/
def FFmt.isNeg (f : FFmt) (x : Nat) : Bool := natBit x (f.eb + f.fb)

/-- The value of a pattern (R37, R42). -/
def FFmt.value (f : FFmt) (x : Nat) : FVal :=
  let ex := natBits x f.fb f.eb
  let fr := natBits x 0 f.fb
  if ex == 2 ^ f.eb - 1 then (if fr == 0 then .inf (f.isNeg x) else .nan)
  else if ex == 0 then .fin (f.isNeg x) fr f.emin
  else .fin (f.isNeg x) (fr + 2 ^ f.fb) (f.emin + ex - 1)

def FFmt.isNan (f : FFmt) (x : Nat) : Bool := f.value x == .nan

/-- A denormal pattern: exponent field zero, fraction not (R37). -/
def FFmt.isDenormal (f : FFmt) (x : Nat) : Bool := natBits x f.fb f.eb == 0 && natBits x 0 f.fb != 0

/-- With `.FZ` a denormal is a zero of the same sign (R39). -/
def FFmt.flush (f : FFmt) (fz : Bool) (x : Nat) : Nat :=
  if fz && f.isDenormal x then (if f.isNeg x then f.signBit else 0) else x

/-- A pattern with a sign. -/
def FFmt.signed (f : FFmt) (neg : Bool) (x : Nat) : Nat := (if neg then f.signBit else 0) + x

/-- The number of bits of a natural number, by halving at most `fuel` times. -/
def bitLenAux : Nat → Nat → Nat
  | 0, _ => 0
  | fuel + 1, n => if n == 0 then 0 else 1 + bitLenAux fuel (n / 2)

/-- The number of bits of a number below 2^1024. -/
def bitLen (n : Nat) : Nat := bitLenAux 1024 n

/-- Whether a value with remainder `rem` of `2 * half` and last bit `odd` rounds away from zero (R40). -/
def roundsUp (rm : Rm) (neg odd : Bool) (rem half : Nat) : Bool :=
  match rm with
  | .rne => rem > half || (rem == half && odd)
  | .rz => false
  | .rd => neg && rem > 0
  | .ru => !neg && rem > 0

/-- `m / 2^k` rounded (R40). -/
def roundShift (rm : Rm) (neg : Bool) (m k : Nat) : Nat :=
  if k == 0 then m
  else
    let q := m / 2 ^ k
    if roundsUp rm neg (q % 2 == 1) (m % 2 ^ k) (2 ^ (k - 1)) then q + 1 else q

/-- The result of an overflow: infinity or the largest finite value (R40, R44). -/
def FFmt.overflow (f : FFmt) (rm : Rm) (neg sat : Bool) : Nat :=
  let toMax := sat || (match rm with | .rne => false | .rz => true | .rd => !neg | .ru => neg)
  f.signed neg (if toMax then f.maxBits else f.infBits)

/-- One rounding of ±m·2^e to the format (R40). A zero keeps its sign. -/
def FFmt.round (f : FFmt) (rm : Rm) (neg : Bool) (m : Nat) (e : Int) (sat : Bool := false) : Nat :=
  if m == 0 then f.signed neg 0
  else
    let len := bitLen m
    let q := max (e + len - (f.fb + 1)) f.emin
    let r := if q ≤ e then m * 2 ^ (e - q).toNat else roundShift rm neg m (min (q - e).toNat (len + 2))
    let (mant, q) := if r == 2 ^ (f.fb + 1) then (2 ^ f.fb, q + 1) else (r, q)
    if mant < 2 ^ f.fb then f.signed neg mant
    else
      let ex := (q - f.emin + 1).toNat
      if ex ≥ 2 ^ f.eb - 1 then f.overflow rm neg sat
      else f.signed neg (ex * 2 ^ f.fb + (mant - 2 ^ f.fb))

/-- ±m·2^e as an integer multiple of 2^lo, for lo ≤ e. -/
def scaleTo (lo : Int) (neg : Bool) (m : Nat) (e : Int) : Int :=
  let v : Int := m * 2 ^ (e - lo).toNat
  if neg then -v else v

/-- The sign of an exact zero sum: that of its terms when they agree, else minus only in RD (R40). -/
def zeroSign (rm : Rm) (na nb : Bool) : Bool := if na == nb then na else rm == .rd

/-- The rounded sum of two finite values (R40, R151). -/
def FFmt.addFin (f : FFmt) (rm : Rm) (na : Bool) (ma : Nat) (ea : Int) (nb : Bool) (mb : Nat) (eb : Int) : Nat :=
  let lo := min ea eb
  let v := scaleTo lo na ma ea + scaleTo lo nb mb eb
  if v == 0 then f.signed (zeroSign rm na nb) 0 else f.round rm (v < 0) v.natAbs lo

/-- The sum of two values (R151). -/
def FFmt.addVal (f : FFmt) (rm : Rm) (x y : FVal) : Nat :=
  match x, y with
  | .nan, _ | _, .nan => f.nanBits
  | .inf a, .inf b => if a == b then f.signed a f.infBits else f.nanBits
  | .inf a, _ => f.signed a f.infBits
  | _, .inf b => f.signed b f.infBits
  | .fin na ma ea, .fin nb mb eb => f.addFin rm na ma ea nb mb eb

/-- The exact product (R151): NaN for 0 × ∞. -/
def mulVal (x y : FVal) : FVal :=
  match x, y with
  | .nan, _ | _, .nan => .nan
  | .inf a, .inf b => .inf (a != b)
  | .inf a, .fin b m _ => if m == 0 then .nan else .inf (a != b)
  | .fin b m _, .inf a => if m == 0 then .nan else .inf (a != b)
  | .fin na ma ea, .fin nb mb eb => .fin (na != nb) (ma * mb) (ea + eb)

/-- A value rounded to a format. -/
def FFmt.roundVal (f : FFmt) (rm : Rm) (sat : Bool) : FVal → Nat
  | .nan => f.nanBits
  | .inf a => f.signed a (if sat then f.maxBits else f.infBits)
  | .fin n m e => f.round rm n m e sat

/-- The negated value. -/
def negVal : FVal → FVal
  | .nan => .nan
  | .inf a => .inf (!a)
  | .fin n m e => .fin (!n) m e

/-- FADD, FSUB, FMUL and FFMA on patterns after modifiers; FZ flushes inputs and result (R39, R151). -/
def FFmt.fadd (f : FFmt) (rm : Rm) (fz : Bool) (x y : Nat) : Nat :=
  f.flush fz (f.addVal rm (f.value (f.flush fz x)) (f.value (f.flush fz y)))

def FFmt.fsub (f : FFmt) (rm : Rm) (fz : Bool) (x y : Nat) : Nat :=
  f.flush fz (f.addVal rm (f.value (f.flush fz x)) (negVal (f.value (f.flush fz y))))

def FFmt.fmul (f : FFmt) (rm : Rm) (fz : Bool) (x y : Nat) : Nat :=
  f.flush fz (f.roundVal rm false (mulVal (f.value (f.flush fz x)) (f.value (f.flush fz y))))

def FFmt.ffma (f : FFmt) (rm : Rm) (fz : Bool) (x y z : Nat) : Nat :=
  f.flush fz (f.addVal rm (mulVal (f.value (f.flush fz x)) (f.value (f.flush fz y))) (f.value (f.flush fz z)))

/-- The rounded quotient (R151): a quotient of at least 2^36 with a sticky last bit, which one rounding then settles. -/
def FFmt.fdiv (f : FFmt) (rm : Rm) (fz : Bool) (x y : Nat) : Nat :=
  f.flush fz <|
  match f.value (f.flush fz x), f.value (f.flush fz y) with
  | .nan, _ | _, .nan => f.nanBits
  | .inf _, .inf _ => f.nanBits
  | .inf a, .fin b _ _ => f.signed (a != b) f.infBits
  | .fin a _ _, .inf b => f.signed (a != b) 0
  | .fin a ma ea, .fin b mb eb =>
    if mb == 0 then (if ma == 0 then f.nanBits else f.signed (a != b) f.infBits)
    else if ma == 0 then f.signed (a != b) 0
    else
      let n := ma * 2 ^ 60
      f.round rm (a != b) (2 * (n / mb) + boolNat (n % mb != 0)) (ea - eb - 61)

/-- The integer square root of `n`, one bit of the root per step from bit `k - 1` down. -/
def isqrtAux (n : Nat) : Nat → Nat → Nat
  | 0, r => r
  | k + 1, r =>
    let t := r + 2 ^ k
    isqrtAux n k (if t * t ≤ n then t else r)

/-- The integer square root of a number below 2^2k. -/
def isqrt (k n : Nat) : Nat := isqrtAux n k 0

/-- The rounded square root (R151). -/
def FFmt.fsqrt (f : FFmt) (rm : Rm) (fz : Bool) (x : Nat) : Nat :=
  f.flush fz <|
  match f.value (f.flush fz x) with
  | .nan => f.nanBits
  | .inf a => if a then f.nanBits else f.infBits
  | .fin a m e =>
    if m == 0 then f.signed a 0
    else if a then f.nanBits
    else
      let k : Nat := if e % 2 == 0 then 100 else 101
      let n := m * 2 ^ k
      let r := isqrt 64 n
      f.round rm false (2 * r + boolNat (r * r != n)) ((e - (k : Int)) / 2 - 1)

/-- The order key of a pattern that is no NaN: −0 counts as less than +0. -/
def FFmt.orderKey (f : FFmt) (x : Nat) : Int :=
  if f.isNeg x then -((x - f.signBit : Nat) : Int) - 1 else x

/-- FMIN and FMAX on patterns after modifiers and flush (R152). -/
def FFmt.fminmax (f : FFmt) (isMax fz : Bool) (x y : Nat) : Nat :=
  let a := f.flush fz x
  let b := f.flush fz y
  if f.isNan a && f.isNan b then f.nanBits
  else if f.isNan a then b
  else if f.isNan b then a
  else if isMax then (if f.orderKey a ≥ f.orderKey b then a else b)
  else if f.orderKey a ≤ f.orderKey b then a else b

/-- The key by which FCMP compares: ±0 are equal. -/
def FFmt.cmpKey (f : FFmt) (x : Nat) : Int :=
  if f.isNeg x then -((x - f.signBit : Nat) : Int) else x

/-- FCMP on patterns after modifiers (R152). -/
def FFmt.fcmp (f : FFmt) (cc : FCond) (fz : Bool) (x y : Nat) : Bool :=
  let a := f.flush fz x
  let b := f.flush fz y
  if f.isNan a || f.isNan b then (match cc with | .un | .ne => true | _ => false)
  else
    let p := f.cmpKey a
    let q := f.cmpKey b
    match cc with
    | .eq => p == q
    | .ne => p != q
    | .lt => p < q
    | .le => p ≤ q
    | .gt => p > q
    | .ge => p ≥ q
    | .un => false
    | .or => true

/-- The mask of FCLASS (R152). -/
def fclassMask (x : Nat) : Nat :=
  let f := FFmt.fp32
  let neg := f.isNeg x
  let ex := natBits x 23 8
  let fr := natBits x 0 23
  let b :=
    if ex == 255 then
      if fr == 0 then (if neg then 0 else 7) else if natBit fr 22 then 9 else 8
    else if ex == 0 then
      if fr == 0 then (if neg then 3 else 4) else if neg then 2 else 5
    else if neg then 1 else 6
  2 ^ b

/-- FSCALE: x·2^n rounded once (R154). The exponent is clamped where every result is already an overflow or below half of
the smallest denormal. -/
def FFmt.fscale (f : FFmt) (rm : Rm) (fz : Bool) (x : Nat) (n : Int) : Nat :=
  f.flush fz <|
  match f.value (f.flush fz x) with
  | .nan => f.nanBits
  | .inf a => f.signed a f.infBits
  | .fin a m e => f.round rm a m (e + max (-700) (min 700 n))

/-- ±m·2^e rounded to an integer magnitude (R154, R158). -/
def roundInt (rm : Rm) (neg : Bool) (m : Nat) (e : Int) : Nat :=
  if e ≥ 0 then m * 2 ^ e.toNat else roundShift rm neg m (min (-e).toNat (bitLen m + 2))

/-- FRND (R154). -/
def FFmt.frnd (f : FFmt) (rm : Rm) (fz : Bool) (x : Nat) : Nat :=
  f.flush fz <|
  match f.value (f.flush fz x) with
  | .nan => f.nanBits
  | .inf a => f.signed a f.infBits
  | .fin a m e => if e ≥ 0 then f.round rm a m e else f.round rm a (roundInt rm a m e) 0

/-- FFRAC: x − Trunc(x), exact, with the sign of x (R154). -/
def FFmt.ffrac (f : FFmt) (fz : Bool) (x : Nat) : Nat :=
  f.flush fz <|
  match f.value (f.flush fz x) with
  | .nan | .inf _ => f.nanBits
  | .fin a m e => if e ≥ 0 then f.signed a 0 else f.round .rne a (m % 2 ^ (-e).toNat) e

/-- HDOT2: z + x0·y0 + x1·y1 with one rounding to FP32 (R156). -/
def hdot2 (rm : Rm) (fz : Bool) (z p0 p1 : FVal) : Nat :=
  let f := FFmt.fp32
  f.flush fz <|
  match z, p0, p1 with
  | .nan, _, _ | _, .nan, _ | _, _, .nan => f.nanBits
  | .fin nz mz ez, .fin n0 m0 e0, .fin n1 m1 e1 =>
    let lo := min ez (min e0 e1)
    let v := scaleTo lo nz mz ez + scaleTo lo n0 m0 e0 + scaleTo lo n1 m1 e1
    if v == 0 then
      f.signed (if nz == n0 && n0 == n1 then nz else rm == .rd) 0
    else f.round rm (v < 0) v.natAbs lo
  | a, b, c =>
    let infs := [a, b, c].filterMap fun v => match v with | .inf s => some s | _ => none
    if infs.all (fun s => s) then f.signed true f.infBits
    else if infs.all (fun s => !s) then f.infBits
    else f.nanBits

/-! ## Class-2 functions (R153)

Each result is rounded once in RNE from a fixed-point value of 256 fraction bits whose error is far below the distance of
any exact result from a rounding boundary (PRESUMED, log 9). -/

/-- Fraction bits of the fixed-point values. -/
def fixW : Nat := 256
/-- ⌊π·2^256⌋. -/
def fixPi : Nat := 0x3243f6a8885a308d313198a2e03707344a4093822299f31d0082efa98ec4e6c89
/-- ⌊ln 2·2^256⌋. -/
def fixLn2 : Nat := 0xb17217f7d1cf79abc9e3b39803f2f6af40f343267298b62d8a0d175b8baafa2b

/-- The sum of the exponential series of y, from term `t` of index `i`. -/
def expSeries (y : Nat) : Nat → Nat → Nat → Nat
  | 0, _, _ => 0
  | fuel + 1, i, t => t + expSeries y fuel (i + 1) (t * y / 2 ^ fixW / (i + 1))

/-- e^y in fixed point, for 0 ≤ y < 1. -/
def fixExp (y : Nat) : Nat := expSeries y 70 0 (2 ^ fixW)

/-- The alternating series of sine (odd = true) or cosine: terms y^i/i! of every second index, from index i. -/
def trigSeries (y2 : Nat) : Nat → Nat → Nat → Int
  | 0, _, _ => 0
  | fuel + 1, i, t => (t : Int) - trigSeries y2 fuel (i + 2) (t * y2 / 2 ^ fixW / ((i + 1) * (i + 2)))

/-- sin and cos of y in fixed point, for 0 ≤ y ≤ π/4. -/
def fixSin (y : Nat) : Nat := (trigSeries (y * y / 2 ^ fixW) 40 1 y).toNat
def fixCos (y : Nat) : Nat := (trigSeries (y * y / 2 ^ fixW) 40 0 (2 ^ fixW)).toNat

/-- The series of 2·atanh z: the sum of z^i/i over odd i, from term power `p` of index `i`. -/
def atanhSeries (z2 : Nat) : Nat → Nat → Nat → Nat
  | 0, _, _ => 0
  | fuel + 1, i, p => p / i + atanhSeries z2 fuel (i + 2) (p * z2 / 2 ^ fixW)

/-- log2 t in fixed point, for t = m / 2^k in [1, 2). -/
def fixLog2 (m k : Nat) : Nat :=
  let z := (m - 2 ^ k) * 2 ^ fixW / (m + 2 ^ k)
  2 * atanhSeries (z * z / 2 ^ fixW) 90 1 z * 2 ^ fixW / fixLn2

/-- A fixed-point value times 2^n that is not exact, rounded to FP32 in RNE. -/
def roundFix (neg : Bool) (v : Nat) (n : Int) : Nat := FFmt.fp32.round .rne neg (2 * v + 1) (n - fixW - 1)

/-- 2^(±v) for a fixed-point v with integer part below 2^9, not an integer, as a rounded FP32. -/
def exp2Fix (neg : Bool) (v : Nat) : Nat :=
  let n := v / 2 ^ fixW
  let fr := v % 2 ^ fixW
  if neg then roundFix false (fixExp ((2 ^ fixW - fr) * fixLn2 / 2 ^ fixW)) (-(n : Int) - 1)
  else roundFix false (fixExp (fr * fixLn2 / 2 ^ fixW)) n

/-- FRCP and FRSQ (R153). -/
def frcp32 (fz : Bool) (x : Nat) : Nat := FFmt.fp32.fdiv .rne fz 0x3F800000 x

def frsq32 (fz : Bool) (x : Nat) : Nat :=
  let f := FFmt.fp32
  f.flush fz <|
  match f.value (f.flush fz x) with
  | .nan => f.nanBits
  | .inf a => if a then f.nanBits else 0
  | .fin a m e =>
    if m == 0 then f.signed a f.infBits
    else if a then f.nanBits
    else
      let m' := if e % 2 == 0 then m else 2 * m
      let e' := if e % 2 == 0 then e else e - 1
      let r := isqrt 64 (2 ^ 128 / m')
      f.round .rne false (2 * r + boolNat (r * r * m' != 2 ^ 128)) (-(e' / 2) - 65)

/-- FEXP2 (R153). -/
def fexp2_32 (fz : Bool) (x : Nat) : Nat :=
  let f := FFmt.fp32
  f.flush fz <|
  match f.value (f.flush fz x) with
  | .nan => f.nanBits
  | .inf a => if a then 0 else f.infBits
  | .fin a m e =>
    if e ≥ 8 then (if m == 0 then 0x3F800000 else if a then 0 else f.infBits)
    else
      let v := m * 2 ^ (e + fixW).toNat
      let n := v / 2 ^ fixW
      if n ≥ 200 then (if a then 0 else f.infBits)
      else if v % 2 ^ fixW == 0 then f.round .rne false 1 (if a then -(n : Int) else n)
      else exp2Fix a v

/-- FLOG2 (R153). -/
def flog2_32 (fz : Bool) (x : Nat) : Nat :=
  let f := FFmt.fp32
  f.flush fz <|
  match f.value (f.flush fz x) with
  | .nan => f.nanBits
  | .inf a => if a then f.nanBits else f.infBits
  | .fin a m e =>
    if m == 0 then f.signed true f.infBits
    else if a then f.nanBits
    else
      let k := bitLen m - 1
      let n := e + k
      if m == 2 ^ k then f.round .rne (n < 0) n.natAbs 0
      else
        let v : Int := n * (2 ^ fixW : Nat) + fixLog2 m k
        roundFix (v < 0) v.natAbs 0

/-- sin(π·y/2^256) of a value in [0, 1/2], not exact there, times 2^256. -/
def sinPiFix (y : Nat) : Nat :=
  if 4 * y ≤ 2 ^ fixW then fixSin (y * fixPi / 2 ^ fixW)
  else fixCos ((2 ^ (fixW - 1) - y) * fixPi / 2 ^ fixW)

/-- sin(π·r) for r = v / 2^256 in [0, 2), rounded; exact zeros take the sign `zs`. -/
def sinPiTurn (zs : Bool) (v : Nat) : Nat :=
  let neg := v ≥ 2 ^ fixW
  let u := v % 2 ^ fixW
  let y := if 2 * u ≤ 2 ^ fixW then u else 2 ^ fixW - u
  if y == 0 then FFmt.fp32.signed zs 0
  else if 2 * y == 2 ^ fixW then FFmt.fp32.signed neg 0x3F800000
  else roundFix neg (sinPiFix y) 0

/-- FSIN (R153): the argument is in half-turns. -/
def fsin32 (fz : Bool) (x : Nat) : Nat :=
  let f := FFmt.fp32
  f.flush fz <|
  match f.value (f.flush fz x) with
  | .nan | .inf _ => f.nanBits
  | .fin a m e =>
    if e ≥ 1 then f.signed a 0
    else
      let v := m * 2 ^ (e + fixW).toNat % 2 ^ (fixW + 1)
      if v % 2 ^ fixW == 0 then f.signed a 0
      else
        let r := sinPiTurn false v
        if a then (if f.isNeg r then r - f.signBit else f.signed true r) else r

/-- FCOS (R153): cos(π·x) is sin(π·(|x| + 1/2)). -/
def fcos32 (fz : Bool) (x : Nat) : Nat :=
  let f := FFmt.fp32
  f.flush fz <|
  match f.value (f.flush fz x) with
  | .nan | .inf _ => f.nanBits
  | .fin _ m e =>
    if e ≥ 1 then 0x3F800000
    else sinPiTurn false ((m * 2 ^ (e + fixW).toNat + 2 ^ (fixW - 1)) % 2 ^ (fixW + 1))

/-- FTANH (R153): (E − 1)/(E + 1) with E = e^(2|x|). -/
def ftanh32 (fz : Bool) (x : Nat) : Nat :=
  let f := FFmt.fp32
  f.flush fz <|
  match f.value (f.flush fz x) with
  | .nan => f.nanBits
  | .inf a => f.signed a 0x3F800000
  | .fin a m e =>
    if m == 0 || (bitLen m : Int) + e ≤ -12 then f.round .rne a m e
    else if (bitLen m : Int) + e > 4 then f.signed a 0x3F800000
    else
      let t := 2 * m * 2 ^ (e + fixW).toNat
      if t ≥ 20 * 2 ^ fixW then f.signed a 0x3F800000
      else
        let v := t * 2 ^ fixW / fixLn2
        let n := v / 2 ^ fixW
        let ex := fixExp (v % 2 ^ fixW * fixLn2 / 2 ^ fixW) * 2 ^ n
        roundFix a ((ex - 2 ^ fixW) * 2 ^ fixW / (ex + 2 ^ fixW)) 0

/-! ## Conversions (R44, R157 to R160) -/

/-- The pattern of a signed integer in `w` bits. -/
def wrapInt (w : Nat) (v : Int) : Nat := (v % (2 ^ w : Nat)).toNat

/-- The signed reading of the low `w` bits. -/
def signedOf (w x : Nat) : Int :=
  let u := x % 2 ^ w
  if natBit u (w - 1) then (u : Int) - (2 ^ w : Nat) else u

/-- The low `w` bits read as I or N. -/
def asType (signed : Bool) (w x : Nat) : Int := if signed then signedOf w x else (x % 2 ^ w : Nat)

/-- The least and greatest value of an integer type. -/
def intMin (signed : Bool) (w : Nat) : Int := if signed then -(2 ^ (w - 1) : Nat) else 0
def intMax (signed : Bool) (w : Nat) : Int := if signed then (2 ^ (w - 1) : Nat) - 1 else (2 ^ w : Nat) - 1

/-- Clamp to the range of an integer type (R36). -/
def clampInt (signed : Bool) (w : Nat) (v : Int) : Int := max (intMin signed w) (min (intMax signed w) v)

/-- Width and sign of the integer types of CVT; none for the floating types. -/
def CvtTyInt : CvtTy → Option (Nat × Bool)
  | .n8 => some (8, false) | .n16 => some (16, false) | .n32 => some (32, false) | .n64 => some (64, false)
  | .i8 => some (8, true) | .i16 => some (16, true) | .i32 => some (32, true) | .i64 => some (64, true)
  | _ => none

/-- The format of the floating types of CVT. -/
def CvtTyFloat : CvtTy → FFmt
  | .fp16 => .fp16
  | .bf16 => .bf16
  | _ => .fp32

/-- The register value of an integer of a CVT destination type: sign- or zero-extended into 32 bits, or 64 (R157). -/
def cvtExtend (w : Nat) (v : Int) : Nat := wrapInt (if w == 64 then 64 else 32) v

/-- A float value converted to an integer type (R158): NaN gives 0, everything else clamps. -/
def floatToInt (rm : Rm) (w : Nat) (signed : Bool) : FVal → Int
  | .nan => 0
  | .inf a => if a then intMin signed w else intMax signed w
  | .fin a m e =>
    if e > 70 then (if m == 0 then 0 else if a then intMin signed w else intMax signed w)
    else
      let k : Int := roundInt rm a m e
      clampInt signed w (if a then -k else k)

/-- CVT on source bits (R158). -/
def cvtBits (dst src : CvtTy) (rm : Rm) (fz sat : Bool) (x : Nat) : Nat :=
  match CvtTyInt src, CvtTyInt dst with
  | none, some (w, sg) =>
    let f := CvtTyFloat src
    cvtExtend w (floatToInt rm w sg (f.value (f.flush fz (x % 2 ^ f.width))))
  | some (ws, ss), some (w, sg) =>
    let v := asType ss ws x
    cvtExtend w (if sat then clampInt sg w v else asType sg w (wrapInt w v))
  | some (ws, ss), none =>
    let f := CvtTyFloat dst
    let v := asType ss ws x
    f.flush fz (f.round rm (v < 0) v.natAbs 0 sat)
  | none, none =>
    let f := CvtTyFloat src
    let g := CvtTyFloat dst
    g.flush fz (g.roundVal rm (sat && dst != .fp32 && dst != src) (f.value (f.flush fz (x % 2 ^ f.width))))

/-- One element of PACK2 (R159). -/
def pack2Elem (ty : Half) (s : Bool) (rm : Rm) (fz sat : Bool) (x : Nat) : Nat :=
  match ty with
  | .fp16 => cvtBits .fp16 .fp32 rm fz sat x
  | .bf16 => cvtBits .bf16 .fp32 rm fz sat x
  | .i16 => wrapInt 16 (if sat then clampInt true 16 (asType s 32 x) else asType s 32 x)
  | .n16 => wrapInt 16 (if sat then clampInt false 16 (asType s 32 x) else asType s 32 x)

/-- One element of SPLIT2 (R159). -/
def split2Elem (ty : Half) (fz : Bool) (x : Nat) : Nat :=
  match ty with
  | .fp16 => cvtBits .fp32 .fp16 .rne fz false x
  | .bf16 => cvtBits .fp32 .bf16 .rne fz false x
  | .i16 => wrapInt 32 (signedOf 16 x)
  | .n16 => x % 2 ^ 16

end Sys2Proof.Machine
end

