-- ==== Sys2Proof/WellFormed.lean ====
section
/-!
DEFINITION. Which instruction terms are words of the machine: the checks of R74 that one word alone decides, each under the
name of its rejection. The checks that need the whole clause (latch producers, transfers, classes) stand with clause fetch.
-/
namespace Sys2Proof

/-- Why a word is not an instruction (R74). Every one of them raises IllegalInstruction at fetch. -/
inductive Reject
  /-- The opcode is not assigned (R73). -/
  | unassigned
  /-- A reserved operand specifier (R64). -/
  | specifier
  /-- A reserved or misplaced destination code (R67). -/
  | destination
  /-- Guard 7 with sense 1 (R55). -/
  | guardSense
  /-- K = 1 on an instruction without such a result (R56). -/
  | latchOnly
  /-- T below the opcode's minimum (R57). -/
  | belowClass
  /-- A token code that is reserved, missing or not admitted (R70, R184). -/
  | token
  /-- c4 to c15 in a 64-bit position (R65). -/
  | wideConstant
  /-- A register block base out of its column (R72, R184). -/
  | block
  /-- An order, scope, code or other field out of its column. -/
  | column
  /-- A nonzero reserved field or unused operand field (R67, R74). -/
  | reserved
  /-- A step of the machine, which no word encodes. -/
  | notAWord
deriving DecidableEq, Repr

/-- A check: whether it passes, and the rejection when it does not. -/
abbrev Check := Bool × Reject

def Src.isFace : Src → Bool
  | .face _ => true
  | _ => false

def Src.isLatch : Src → Bool
  | .latch _ => true
  | _ => false

def Src.isNbr : Src → Bool
  | .nbr _ _ => true
  | _ => false

/-- The checks of every format: T, K and the guard (R55 to R57). -/
def commonChecks (c : Common) (minT : Nat) (kOk : Bool) : List Check :=
  [(minT ≤ c.t.toNat, .belowClass), (kOk || !c.k, .latchOnly), (!(c.guard == 7 && c.sense), .guardSense)]

/-- A destination that takes a result of the arithmetic groups: g, face or predicate (R67). -/
def valueDst (d : Dst) : Check := (d != .none, .destination)

/-- A destination 0 to 71 (R132). -/
def regDst : Dst → Check
  | .g _ | .face _ => (true, .destination)
  | _ => (false, .destination)

/-- A destination 0 to 63. -/
def gDst : Dst → Check
  | .g _ => (true, .destination)
  | _ => (false, .destination)

/-- A destination 0 to 63 or 0x7F. -/
def optGDst : Dst → Check
  | .g _ | .none => (true, .destination)
  | _ => (false, .destination)

def Dst.isPredOrNone : Dst → Bool
  | .pred _ | .none => true
  | _ => false

/-- A source in a 64-bit position is not c4 to c15 (R65). -/
def pairSrc : Src → Check
  | .const n => (n.toNat < 4, .wideConstant)
  | _ => (true, .wideConstant)

/-- A source in a position that is 64 bits wide when `wide`. -/
def widePair (wide : Bool) (a : Src) : Check := if wide then pairSrc a else (true, .wideConstant)

/-- A token code other than 7 (R70). -/
def token (t : BitVec 3) : Check := (t != 7, .token)

/-- The modifiers of B and C are absent (R148, R150). -/
def modsA (m : Mods) : Check := (!(m.negB || m.absB || m.negC || m.absC), .column)

/-- The modifiers of C are absent. -/
def modsAB (m : Mods) : Check := (!(m.negC || m.absC), .column)

/-- All modifiers may stand. -/
def modsABC (_ : Mods) : Check := (true, .column)

/-- The checks of Format M: no scope with plain order, no token 7 (R70, R184). -/
def memOk (m : MemOp) : Check :=
  if m.tok == 7 then (false, .token) else (m.order != .plain || m.scope == .core, .column)

/-- Plain or `.ACQ` (R184). -/
def loadOrder (m : MemOp) : Check := (m.order == .plain || m.order == .acq, .column)

/-- Plain or `.REL` (R184). -/
def storeOrder (m : MemOp) : Check := (m.order == .plain || m.order == .rel, .column)

/-- Plain (R184). -/
def plainOrder (m : MemOp) : Check := (m.order == .plain, .column)

/-- The token is required (R184). -/
def tokenNeeded (m : MemOp) : Check := (m.tok != 6, .token)

/-- No token may be named (R184). -/
def tokenNone (m : MemOp) : Check := (m.tok == 6, .token)

/-- LDX and STX have no view: their view field carries the width code (R190). -/
def rawView (m : MemOp) : Check := (m.view == 0, .column)

/-- The displacement is one of 12 bits (R184). -/
def disp12 (m : MemOp) : Check := (m.disp == (m.disp.extractLsb' 0 12).signExtend 16, .column)

/-- A register block base that is a multiple of 4 (R72). -/
def block4 (b : BitVec 6) : Check := (b.toNat % 4 == 0, .block)

/-- An optional register block. -/
def blockOpt : Option (BitVec 6) → Check
  | some b => block4 b
  | none => (true, .block)

/-- The source types of CVT (R157). -/
def CvtTy.isSource : CvtTy → Bool
  | .n8 | .n16 | .i8 | .i16 => false
  | _ => true

/-- The 64-bit types of CVT (R157). -/
def CvtTy.is64 : CvtTy → Bool
  | .n64 | .i64 => true
  | _ => false

/-- The floating-point targets of PACK2 and element types of SPLIT2 (R159). -/
def Half.isFloat : Half → Bool
  | .fp16 | .bf16 => true
  | _ => false

/-- The checks that each instruction adds to those of R55 to R57: R127, R128, R130, R132, R135, R150, R155, R157 to R161,
R184, R203, R209, R232, R259, R260, R284 to R292, R306, R325. -/
def Instr.checks : Instr → List Check
  | .add c d _ _ sat s => commonChecks c 0 true ++ [valueDst d, (sat || !s, .column)]
  | .sub c d _ _ sat s => commonChecks c 0 true ++ [valueDst d, (sat || !s, .column)]
  | .addc c d _ _ _ pIn cin => commonChecks c 0 true ++ [valueDst d, (cin || pIn == 0, .column)]
  | .subb c d _ _ _ pIn cin => commonChecks c 0 true ++ [valueDst d, (cin || pIn == 0, .column)]
  | .mul c d _ _ => commonChecks c 1 true ++ [valueDst d]
  | .mulh c d _ _ _ => commonChecks c 1 true ++ [valueDst d]
  | .mad c d _ _ _ => commonChecks c 1 true ++ [valueDst d]
  | .neg c d _ sat s => commonChecks c 0 true ++ [valueDst d, (!sat || s, .column)]
  | .abs c d _ sat s => commonChecks c 0 true ++ [valueDst d, (!sat || s, .column)]
  | .min c d _ _ _ => commonChecks c 0 true ++ [valueDst d]
  | .max c d _ _ _ => commonChecks c 0 true ++ [valueDst d]
  | .addd c d a b sat s => commonChecks c 0 true ++ [valueDst d, (sat || !s, .column), pairSrc a, pairSrc b]
  | .subd c d a b sat s => commonChecks c 0 true ++ [valueDst d, (sat || !s, .column), pairSrc a, pairSrc b]
  | .mulw c d _ _ _ => commonChecks c 1 true ++ [valueDst d]
  | .sad c d _ _ _ => commonChecks c 0 true ++ [valueDst d]
  | .dot4 c d _ _ _ _ _ _ => commonChecks c 1 true ++ [valueDst d]
  | .addi c d _ _ _ => commonChecks c 0 true ++ [valueDst d]
  | .ldi c d _ _ => commonChecks c 0 true ++ [valueDst d]
  | .and c d _ _ => commonChecks c 0 true ++ [valueDst d]
  | .or c d _ _ => commonChecks c 0 true ++ [valueDst d]
  | .xor c d _ _ => commonChecks c 0 true ++ [valueDst d]
  | .andn c d _ _ => commonChecks c 0 true ++ [valueDst d]
  | .not c d _ => commonChecks c 0 true ++ [valueDst d]
  | .shl c d _ _ => commonChecks c 0 true ++ [valueDst d]
  | .shr c d _ _ => commonChecks c 0 true ++ [valueDst d]
  | .sar c d _ _ => commonChecks c 0 true ++ [valueDst d]
  | .rol c d _ _ => commonChecks c 0 true ++ [valueDst d]
  | .shld c d _ _ _ => commonChecks c 0 true ++ [valueDst d]
  | .shrd c d _ _ _ => commonChecks c 0 true ++ [valueDst d]
  | .clz c d _ => commonChecks c 0 true ++ [valueDst d]
  | .popc c d _ => commonChecks c 0 true ++ [valueDst d]
  | .brev c d _ => commonChecks c 0 true ++ [valueDst d]
  | .bfx c d _ _ _ => commonChecks c 0 true ++ [valueDst d]
  | .bfi c d _ _ _ => commonChecks c 0 true ++ [valueDst d]
  | .perm c d _ _ _ => commonChecks c 0 true ++ [valueDst d]
  | .andi c d _ _ => commonChecks c 0 true ++ [valueDst d]
  | .ori c d _ _ => commonChecks c 0 true ++ [valueDst d]
  | .xori c d _ _ => commonChecks c 0 true ++ [valueDst d]
  | .cmp c _ a b _ _ wide => commonChecks c 0 true ++ [widePair wide a, widePair wide b]
  | .cmps c d a b _ _ wide => commonChecks c 0 true ++ [regDst d, widePair wide a, widePair wide b]
  | .sel c d a b _ _ wide => commonChecks c 0 true ++ [regDst d, widePair wide a, widePair wide b]
  | .mov c d a wide => commonChecks c 0 true ++ [valueDst d, widePair wide a]
  | .movs c d _ _ => commonChecks c 0 true ++ [regDst d]
  | .sets c a _ wide => commonChecks c 0 false ++ [widePair wide a]
  | .pand c _ _ _ _ _ => commonChecks c 0 true
  | .por c _ _ _ _ _ => commonChecks c 0 true
  | .pxor c _ _ _ _ _ => commonChecks c 0 true
  | .pnot c _ _ => commonChecks c 0 true
  | .pset c _ _ => commonChecks c 0 true
  | .pmov c d a write => commonChecks c 0 true ++ [(if write then d == .none else (regDst d).1 && a == .g 0, .column)]
  | .fadd c d _ _ r => commonChecks c 1 true ++ [valueDst d, modsAB r.mods]
  | .fsub c d _ _ r => commonChecks c 1 true ++ [valueDst d, modsAB r.mods]
  | .fmul c d _ _ r => commonChecks c 1 true ++ [valueDst d, modsAB r.mods]
  | .ffma c d _ _ _ r => commonChecks c 1 true ++ [valueDst d, modsABC r.mods]
  | .fmin c d _ _ _ m => commonChecks c 1 true ++ [valueDst d, modsAB m]
  | .fmax c d _ _ _ m => commonChecks c 1 true ++ [valueDst d, modsAB m]
  | .fcmp c d _ _ _ _ m => commonChecks c 1 true ++ [valueDst d, modsAB m]
  | .fclass c d _ => commonChecks c 1 true ++ [valueDst d]
  | .frcp c d _ _ m => commonChecks c 2 true ++ [valueDst d, modsA m]
  | .frsq c d _ _ m => commonChecks c 2 true ++ [valueDst d, modsA m]
  | .fsqrt c d _ r => commonChecks c 3 true ++ [valueDst d, modsA r.mods]
  | .fdiv c d _ _ r => commonChecks c 3 true ++ [valueDst d, modsAB r.mods]
  | .fexp2 c d _ _ m => commonChecks c 2 true ++ [valueDst d, modsA m]
  | .flog2 c d _ _ m => commonChecks c 2 true ++ [valueDst d, modsA m]
  | .fsin c d _ _ m => commonChecks c 2 true ++ [valueDst d, modsA m]
  | .fcos c d _ _ m => commonChecks c 2 true ++ [valueDst d, modsA m]
  | .ftanh c d _ _ m => commonChecks c 2 true ++ [valueDst d, modsA m]
  | .fscale c d _ _ r => commonChecks c 1 true ++ [valueDst d, modsA r.mods]
  | .ffrac c d _ _ m => commonChecks c 1 true ++ [valueDst d, modsA m]
  | .frnd c d _ r => commonChecks c 1 true ++ [valueDst d, modsA r.mods]
  | .hadd2 c d _ _ _ r => commonChecks c 1 true ++ [valueDst d, modsAB r.mods]
  | .hmul2 c d _ _ _ r => commonChecks c 1 true ++ [valueDst d, modsAB r.mods]
  | .hfma2 c d _ _ _ _ r => commonChecks c 1 true ++ [valueDst d, modsABC r.mods]
  | .hmin2 c d _ _ _ _ m => commonChecks c 1 true ++ [valueDst d, modsAB m]
  | .hmax2 c d _ _ _ _ m => commonChecks c 1 true ++ [valueDst d, modsAB m]
  | .hdot2 c d _ _ _ _ r => commonChecks c 1 true ++ [valueDst d, modsABC r.mods]
  | .cvt c d a _ src _ _ _ => commonChecks c 1 true ++ [valueDst d, (src.isSource, .column), widePair src.is64 a]
  | .pack2 c d _ _ ty s rm fz _ =>
    commonChecks c 1 true ++ [valueDst d, (if ty.isFloat then !s else rm == .rne && !fz, .column)]
  | .split2 c d _ ty fz => commonChecks c 1 true ++ [valueDst d, (ty.isFloat || !fz, .column)]
  | .pack4 c d a b _ _ _ => commonChecks c 1 true ++ [valueDst d, pairSrc a, pairSrc b]
  | .split4 c d _ _ _ => commonChecks c 1 true ++ [valueDst d]
  | .bra c _ => commonChecks c 0 false
  | .jmpi c _ => commonChecks c 0 false
  | .call c _ _ => commonChecks c 0 false
  | .calli c _ _ => commonChecks c 0 false
  | .ret c _ => commonChecks c 0 false
  | .relcall c _ _ => commonChecks c 0 false
  | .tjoin c => commonChecks c 0 false
  | .tend c => commonChecks c 0 false
  | .exit c => commonChecks c 0 false
  | .nop c => commonChecks c 0 false
  | .yieldI c => commonChecks c 0 false
  | .progress c => commonChecks c 0 false
  | .step c _ => commonChecks c 0 false
  | .migrate c d a => commonChecks c 0 false ++ [(d.isPredOrNone, .column), pairSrc a]
  | .dqpush c a => commonChecks c 0 false ++ [(!a.isFace && !a.isNbr, .column)]
  | .dqpop c d => commonChecks c 0 false ++ [regDst d]
  | .park c => commonChecks c 0 false
  | .ld c d m => commonChecks c 0 false ++ [memOk m, regDst d, loadOrder m, tokenNeeded m]
  | .st c d m => commonChecks c 0 false ++ [memOk m, regDst d, storeOrder m]
  | .ldx c d _ m =>
    commonChecks c 0 false ++ [memOk m, regDst d, loadOrder m, tokenNeeded m, rawView m, pairSrc m.off]
  | .stx c d _ m => commonChecks c 0 false ++ [memOk m, regDst d, storeOrder m, rawView m, pairSrc m.off]
  | .pref c m => commonChecks c 0 false ++ [memOk m, plainOrder m]
  | .vset c base _ => commonChecks c 0 false ++ [(base.toNat % 8 == 0, .block)]
  | .vget c base _ => commonChecks c 0 false ++ [(base.toNat % 8 == 0, .block)]
  | .vld c _ m => commonChecks c 0 false ++ [memOk m, plainOrder m, tokenNeeded m]
  | .atom c _ _ m => commonChecks c 0 false ++ [memOk m, disp12 m]
  | .atomr c _ _ m => commonChecks c 0 false ++ [memOk m, disp12 m, tokenNeeded m]
  | .cas c _ m => commonChecks c 0 false ++ [memOk m, (true, .block), tokenNeeded m, disp12 m]
  | .kcas2 c r dist m =>
    commonChecks c 0 false ++ [memOk m, (r.toNat % 4 == 0, .block), tokenNeeded m, (dist != 0, .column), disp12 m]
  | .kenq c r m => commonChecks c 0 false ++ [memOk m, (r.toNat % 2 == 0, .block), tokenNeeded m, disp12 m]
  | .kdeq c r m => commonChecks c 0 false ++ [memOk m, (r.toNat % 2 == 0, .block), tokenNeeded m, disp12 m]
  | .kchase c r _ m => commonChecks c 0 false ++ [memOk m, (r.toNat % 4 == 0, .block), tokenNeeded m, disp12 m]
  | .kchunk c r m => commonChecks c 0 false ++ [memOk m, (r.toNat % 2 == 0, .block), tokenNeeded m, disp12 m]
  | .fence c order _ tok => commonChecks c 0 false ++ [(order != .plain, .column), token tok]
  | .bar c _ => commonChecks c 0 false
  | .bara c _ _ => commonChecks c 0 false
  | .barw c a _ => commonChecks c 0 false ++ [(!a.isFace && !a.isNbr && !a.isLatch, .column)]
  | .sarm c _ m => commonChecks c 0 false ++ [memOk m, storeOrder m, disp12 m]
  | .swait c _ m => commonChecks c 0 false ++ [memOk m, loadOrder m, tokenNone m, disp12 m]
  | .sadd c _ m => commonChecks c 0 false ++ [memOk m, storeOrder m, disp12 m]
  | .copy c block _ _ _ _ _ tok => commonChecks c 0 false ++ [blockOpt block, token tok]
  | .copym c block _ _ _ _ _ _ _ tok => commonChecks c 0 false ++ [block4 block, token tok]
  | .mmab c block _ _ _ tok => commonChecks c 0 false ++ [block4 block, token tok]
  | .scacc c block _ _ _ _ tok => commonChecks c 0 false ++ [blockOpt block, token tok]
  | .mload c block _ _ tok => commonChecks c 0 false ++ [blockOpt block, token tok]
  | .mstore c block _ _ _ _ _ tok => commonChecks c 0 false ++ [blockOpt block, token tok]
  | .mzero c _ tok => commonChecks c 0 false ++ [token tok]
  | .tmma c block _ _ tok => commonChecks c 0 false ++ [block4 block, token tok]
  | .drun c block _ tok => commonChecks c 0 false ++ [block4 block, token tok]
  | .ecan c mask tok => commonChecks c 0 false ++ [(mask != 0, .column), token tok]
  | .trig c => commonChecks c 0 false
  | .spawn c r m =>
    commonChecks c 0 false ++ [memOk m, (decide (r.toNat ≤ 59), .column), storeOrder m, (m.pol == .default, .column)]
  | .trap c _ => commonChecks c 0 false
  | .svc c _ => commonChecks c 0 false
  | .eret c => commonChecks c 0 false
  | .segset c n r => commonChecks c 0 false ++ [(decide (n.toNat ≤ 5), .column), block4 r]
  | .segget c n r => commonChecks c 0 false ++ [(decide (n.toNat ≤ 5), .column), block4 r]
  | .tlbinv c form a b =>
    commonChecks c 0 false ++ [(form == .addr || a == .g 0, .column), (form != .all || b == .g 0, .column), pairSrc a]
  | .shoot c d a _ _ _ tok => commonChecks c 0 false ++ [optGDst d, pairSrc a, token tok]
  | .ldio c d a _ tok => commonChecks c 0 false ++ [gDst d, pairSrc a, token tok, (tok != 6, .column)]
  | .stio c a b wide tok => commonChecks c 0 false ++ [pairSrc a, widePair wide b, token tok]
  | .ctxsave c d a _ tok => commonChecks c 0 false ++ [optGDst d, pairSrc a, token tok]
  | .ctxload c d a _ tok => commonChecks c 0 false ++ [optGDst d, pairSrc a, token tok]
  | .idle c d _ => commonChecks c 0 false ++ [gDst d]
  | .ckpt c _ a _ tok => commonChecks c 0 false ++ [pairSrc a, token tok]
  | .ckptRb c _ a _ tok => commonChecks c 0 false ++ [pairSrc a, token tok]
  | .setperf c _ => commonChecks c 0 false
  | .relcallRelease _ | .tendComplete _ | .exitDrainEnd _ | .stepCommit _ | .migrateMove _ | .dqEntryReleased _
  | .parkSelf _ | .kchaseHop _ | .keeperOperation _ | .atomicAtHome _ | .barrierInstanceComplete _ _ _ _
  | .syncWordOperation _ | .swaitReturn _ | .copyCommandRun _ _ _ | .copySegmentLanded _ _ _
  | .copymFollowOnPlace _ _ | .arrayCommandRun _ _ _ | .engineCommandComplete _ _ | .engineHeldFaultResume _ _
  | .docentProgramStart _ _ | .docentYieldPoint _ | .docentEnd _ | .docentMmab _ | .docentScacc _ | .docentMzero _
  | .docentMload _ | .docentMstore _ | .docentCopy _ | .docentLoop _ | .docentSetl _ | .docentSignal _
  | .continuationAccept _ _ | .taskCellStart _ _ | .accessionWatchdogExpiry _ _ | .svcComplete _ _
  | .shootdownComplete _ | .idleWake _ _ | .clauseFetch _ _ _ | .clauseCacheFill _ _ _ | .pick _ _ | .gangSwap _
  | .neighbourReadArrival _ | .neighbourReadResume _ _ | .parkTransferEnd _ _ | .loadComplete _ | .storePerformed _
  | .prefLineArrival _ _ | .tlbWalkFill _ _ _ | .asyncFaultTake _ | .ringRecordWrite | .actReplay _ | .actDeliver _
  | .actAbandon _ | .stopactTerminate _ | .stopactResume _ | .stopactResumeDeliver _ | .contextSwitchOut _ _
  | .contextRestore _ _ | .docentOverrunExpiry _ | .watchdogNoProgress _ _ _ | .watchdogNoRetire _ _ _
  | .notifyRegisterWrite _ _ _ | .packetAccept _ | .launchPlacement _ | .launchStart _ | .dependantFail _
  | .markerComplete _ | .launchCompletion _ | .causalPacketSend _ | .clockPacketArrival _ | .baseAckArrival _
  | .sequencedPacketArrival _ | .readRequestArrival _ | .horizonQueryAnswer _ | .horizonAnswerArrival _
  | .nackReceipt _ | .nackResend _ _ | .beaconArrival _ | .beaconAckArrival _ | .finalHorizonArrival _
  | .fieldDeath _ | .causalReset | .linkAckTimeout _ | .flitCrcFail _ | .moduleTimeout _ | .podTimeout _
  | .poisonRead _ _ | .peerRequestArrival _ _ _ | .peerAckArrival _ _ | .rangeEntryWrite _
  | .spanNeighbourRead _ _ _ _ _ _ | .spanStepReport _ _ _ | .podBarrierCount _ _ _ | .clientRmaWrite _ _ _ _ _
  | .clientRmaRead _ _ _ _ _ | .reqWrite _ | .heatWrite _ | .evenThreshWrite _ | .flitEnqueue _ _ _
  | .flitStart _ _ | .ringLock _ _ _ | .ringParkEnd _ _ _ | .ringLockTimeout _ _ _ | .heaterRetune _ _ _ _ _
  | .byteBudgetInterval | .perfIntervalBoundary | .perfStepSettle _ | .evictionGo _ _ | .evictionAbort _
  | .lrpWrite _ | .evictionQuiesced | .evictionTransferred | .evictionTimeout | .circuitUp _ _
  | .fieldDrainCommand _ | .fieldForcedOffline _ | .fieldReturnOnline _ | .fieldDrainComplete _ _
  | .appraiserReplay | .appraiserSuspectClear _ | .checkpointDue _ _ | .checkpointDuePop _ | .ioRegisterWrite _
  | .moduleReset | .bootImageVerify _ _ _ | .pldmFirmwareUpdate _ _ _ _ | .spdmGetCertificate | .spdmChallenge _
  | .spdmGetMeasurements | .gangSwapEnd _ | .migrationResume _ | .heldFetchServiced _ _ _
  | .processorPageServiced _ | .queueRestart _ | .serviceChannelMessage _ _ _ | .flitCreditReturn _ _ _
  | .restripeMarkerArrival _ _ | .latchOpen | .linkReadmit _ => [(false, .notAWord)]

/-- The first check that fails. -/
def firstFailure : List Check → Option Reject
  | [] => none
  | (true, _) :: l => firstFailure l
  | (false, r) :: _ => some r

/-- Why a term is not an instruction word, if it is not. -/
def Instr.reject (i : Instr) : Option Reject := firstFailure i.checks

/-- A well-formed instruction word. -/
def Instr.wf (i : Instr) : Bool := i.reject == none

end Sys2Proof
end

