-- ==== Sys2Proof/Decode.lean ====
section
/-!
DEFINITION. Decoding and encoding of the 64-bit instruction words (R54 to R73) and the clause header (R58). A word is decoded
by reading its fields, then held to the checks of R74; a field that the instruction leaves unused must hold zero, which is
checked by encoding the instruction again.
-/
namespace Sys2Proof

/-! ## Codes -/

def Dir.code : Dir → BitVec 3
  | .w => 0 | .e => 1 | .n => 2 | .s => 3 | .l => 4 | .h => 5

def Dir.ofCode (b : BitVec 3) : Except Reject Dir :=
  match b.toNat with
  | 0 => .ok .w | 1 => .ok .e | 2 => .ok .n | 3 => .ok .s | 4 => .ok .l | 5 => .ok .h
  | _ => .error .specifier

/-- The operand specifier of R64. -/
def Src.code : Src → BitVec 9
  | .g n => 0#3 ++ n
  | .face f => 8#6 ++ f
  | .latch b => 18#7 ++ b
  | .const c => 5#5 ++ c
  | .nbr d f => 2#3 ++ d.code ++ f
  | .imm i => 1#1 ++ i

/-- The operand that a specifier names; reserved patterns are rejected (R64). -/
def Src.ofCode (b : BitVec 9) : Except Reject Src :=
  if b.extractLsb' 8 1 == 1#1 then .ok (.imm (b.extractLsb' 0 8))
  else if b.extractLsb' 6 3 == 0#3 then .ok (.g (b.extractLsb' 0 6))
  else if b.extractLsb' 3 6 == 8#6 then .ok (.face (b.extractLsb' 0 3))
  else if b.extractLsb' 2 7 == 18#7 then .ok (.latch (b.extractLsb' 0 2))
  else if b.extractLsb' 4 5 == 5#5 then .ok (.const (b.extractLsb' 0 4))
  else if b.extractLsb' 6 3 == 2#3 then (Dir.ofCode (b.extractLsb' 3 3)).map fun d => .nbr d (b.extractLsb' 0 3)
  else .error .specifier

/-- The destination code of R67. -/
def Dst.code : Dst → BitVec 7
  | .g n => 0#1 ++ n
  | .face f => 8#4 ++ f
  | .pred p => 9#4 ++ p
  | .none => 127

/-- The destination that a code names; 80 to 126 are reserved (R67). -/
def Dst.ofCode (b : BitVec 7) : Except Reject Dst :=
  if b.extractLsb' 6 1 == 0#1 then .ok (.g (b.extractLsb' 0 6))
  else if b.extractLsb' 3 4 == 8#4 then .ok (.face (b.extractLsb' 0 3))
  else if b.extractLsb' 3 4 == 9#4 then .ok (.pred (b.extractLsb' 0 3))
  else if b == 127 then .ok .none
  else .error .destination

/-- Rounding modes (R40). -/
def Rm.code : Rm → BitVec 2
  | .rne => 0 | .rz => 1 | .rd => 2 | .ru => 3

def Rm.ofCode (b : BitVec 2) : Rm :=
  match b.toNat with
  | 0 => .rne | 1 => .rz | 2 => .rd | _ => .ru

/-- Condition codes (R133). -/
def Cond.code : Cond → BitVec 3
  | .eq => 0 | .ne => 1 | .lt => 2 | .le => 3 | .gt => 4 | .ge => 5

def Cond.ofCode (b : BitVec 3) : Except Reject Cond :=
  match b.toNat with
  | 0 => .ok .eq | 1 => .ok .ne | 2 => .ok .lt | 3 => .ok .le | 4 => .ok .gt | 5 => .ok .ge
  | _ => .error .column

/-- Condition codes of FCMP (R152). -/
def FCond.code : FCond → BitVec 3
  | .eq => 0 | .ne => 1 | .lt => 2 | .le => 3 | .gt => 4 | .ge => 5 | .un => 6 | .or => 7

def FCond.ofCode (b : BitVec 3) : FCond :=
  match b.toNat with
  | 0 => .eq | 1 => .ne | 2 => .lt | 3 => .le | 4 => .gt | 5 => .ge | 6 => .un | _ => .or

/-- Register codes of MOVS and SETS (R134). -/
def SReg.code : SReg → BitVec 6
  | .cellx => 0 | .celly => 1 | .cellz => 2 | .gridx => 3 | .gridy => 4 | .gridz => 5 | .step => 6 | .core => 7
  | .quad => 8 | .field => 9 | .module => 10 | .slot => 11 | .ctx => 12 | .launch => 13 | .cyc => 14 | .time => 15
  | .energy => 16 | .perf => 17 | .tok => 18

def SReg.ofCode (b : BitVec 6) : Except Reject SReg :=
  match b.toNat with
  | 0 => .ok .cellx | 1 => .ok .celly | 2 => .ok .cellz | 3 => .ok .gridx | 4 => .ok .gridy | 5 => .ok .gridz
  | 6 => .ok .step | 7 => .ok .core | 8 => .ok .quad | 9 => .ok .field | 10 => .ok .module | 11 => .ok .slot
  | 12 => .ok .ctx | 13 => .ok .launch | 14 => .ok .cyc | 15 => .ok .time | 16 => .ok .energy | 17 => .ok .perf
  | 18 => .ok .tok
  | _ => .error .column

/-- Format codes of R35 that a register transfer names. -/
def Fmt.code : Fmt → BitVec 6
  | .n8 => 0 | .n16 => 1 | .n32 => 2 | .n64 => 3 | .i8 => 4 | .i16 => 5 | .i32 => 6 | .i64 => 7 | .fp16 => 8
  | .bf16 => 9 | .fp32 => 10

def Fmt.ofCode (b : BitVec 6) : Except Reject Fmt :=
  match b.toNat with
  | 0 => .ok .n8 | 1 => .ok .n16 | 2 => .ok .n32 | 3 => .ok .n64 | 4 => .ok .i8 | 5 => .ok .i16 | 6 => .ok .i32
  | 7 => .ok .i64 | 8 => .ok .fp16 | 9 => .ok .bf16 | 10 => .ok .fp32
  | _ => .error .column

/-- Type codes of CVT (R157). -/
def CvtTy.code : CvtTy → BitVec 4
  | .n8 => 0 | .n16 => 1 | .n32 => 2 | .n64 => 3 | .i8 => 4 | .i16 => 5 | .i32 => 6 | .i64 => 7 | .fp16 => 8
  | .bf16 => 9 | .fp32 => 10

def CvtTy.ofCode (b : BitVec 4) : Except Reject CvtTy :=
  match b.toNat with
  | 0 => .ok .n8 | 1 => .ok .n16 | 2 => .ok .n32 | 3 => .ok .n64 | 4 => .ok .i8 | 5 => .ok .i16 | 6 => .ok .i32
  | 7 => .ok .i64 | 8 => .ok .fp16 | 9 => .ok .bf16 | 10 => .ok .fp32
  | _ => .error .column

/-- Element types of PACK2 and SPLIT2 (R159). -/
def Half.code : Half → BitVec 2
  | .fp16 => 0 | .bf16 => 1 | .i16 => 2 | .n16 => 3

def Half.ofCode (b : BitVec 2) : Half :=
  match b.toNat with
  | 0 => .fp16 | 1 => .bf16 | 2 => .i16 | _ => .n16

/-- Orders (R70). -/
def Order.code : Order → BitVec 2
  | .plain => 0 | .acq => 1 | .rel => 2 | .ar => 3

def Order.ofCode (b : BitVec 2) : Order :=
  match b.toNat with
  | 0 => .plain | 1 => .acq | 2 => .rel | _ => .ar

/-- Scopes of Format M (R70). -/
def MScope.code : MScope → BitVec 2
  | .core => 0 | .field => 1 | .module => 2 | .pod => 3

def MScope.ofCode (b : BitVec 2) : MScope :=
  match b.toNat with
  | 0 => .core | 1 => .field | 2 => .module | _ => .pod

/-- Cache policies (R70). -/
def Policy.code : Policy → BitVec 2
  | .default => 0 | .stream => 1 | .keep => 2 | .bypass => 3

def Policy.ofCode (b : BitVec 2) : Policy :=
  match b.toNat with
  | 0 => .default | 1 => .stream | 2 => .keep | _ => .bypass

/-- Atomic functions (R193). -/
def AtomFn.code : AtomFn → BitVec 4
  | .add => 0 | .and => 1 | .or => 2 | .xor => 3 | .min => 4 | .max => 5 | .xchg => 6 | .fadd => 7 | .fmin => 8
  | .fmax => 9

def AtomFn.ofCode (b : BitVec 4) : Except Reject AtomFn :=
  match b.toNat with
  | 0 => .ok .add | 1 => .ok .and | 2 => .ok .or | 3 => .ok .xor | 4 => .ok .min | 5 => .ok .max | 6 => .ok .xchg
  | 7 => .ok .fadd | 8 => .ok .fmin | 9 => .ok .fmax
  | _ => .error .column

/-- Barrier scopes (R260). -/
def Scope.code : Scope → BitVec 3
  | .cell => 0 | .core => 1 | .quad => 2 | .field => 3 | .module => 4 | .pod => 5

def Scope.ofCode (b : BitVec 3) : Except Reject Scope :=
  match b.toNat with
  | 0 => .ok .cell | 1 => .ok .core | 2 => .ok .quad | 3 => .ok .field | 4 => .ok .module | 5 => .ok .pod
  | _ => .error .column

/-- Matrix formats (R209). -/
def MatFmt.code : MatFmt → BitVec 2
  | .se2 => 0 | .se4 => 1 | .se7 => 2 | .bf16 => 3

def MatFmt.ofCode (b : BitVec 2) : MatFmt :=
  match b.toNat with
  | 0 => .se2 | 1 => .se4 | 2 => .se7 | _ => .bf16

/-- Forms of TLBINV (R288). -/
def TlbinvForm.code : TlbinvForm → BitVec 2
  | .addr => 0 | .asn => 1 | .all => 2

def TlbinvForm.ofCode (b : BitVec 2) : Except Reject TlbinvForm :=
  match b.toNat with
  | 0 => .ok .addr | 1 => .ok .asn | 2 => .ok .all
  | _ => .error .column

/-! ## Fields of a word -/

/-- Bit `i` of a word. -/
def bit (w : Word64) (i : Nat) : Bool := w.getLsbD i
def f2 (w : Word64) (lo : Nat) : BitVec 2 := w.extractLsb' lo 2
def f3 (w : Word64) (lo : Nat) : BitVec 3 := w.extractLsb' lo 3
def f4 (w : Word64) (lo : Nat) : BitVec 4 := w.extractLsb' lo 4
def f6 (w : Word64) (lo : Nat) : BitVec 6 := w.extractLsb' lo 6
def f8 (w : Word64) (lo : Nat) : BitVec 8 := w.extractLsb' lo 8
def f9 (w : Word64) (lo : Nat) : BitVec 9 := w.extractLsb' lo 9

/-- The common fields (R54). -/
def fldCommon (w : Word64) : Common := { t := f2 w 52, k := bit w 51, guard := f3 w 48, sense := bit w 47 }
/-- Sources A, B, C of Format A; source A is the target of Format B (R68, R71). -/
def fldA (w : Word64) : BitVec 9 := f9 w 31
def fldB (w : Word64) : BitVec 9 := f9 w 22
def fldC (w : Word64) : BitVec 9 := f9 w 13
/-- The g register and immediate of Format I (R69). -/
def fldG (w : Word64) : BitVec 6 := f6 w 32
def fldImm (w : Word64) : Word := w.extractLsb' 0 32
/-- The offset of Format B (R71). -/
def fldOff31 (w : Word64) : BitVec 31 := w.extractLsb' 0 31
/-- The view, order and scope of Format M (R70). -/
def fldView (w : Word64) : BitVec 6 := f6 w 34
def fldOrder (w : Word64) : Order := Order.ofCode (f2 w 23)
def fldScope (w : Word64) : MScope := MScope.ofCode (f2 w 21)
/-- The block and views of Format E (R72). -/
def fldBlk (w : Word64) : BitVec 6 := f6 w 40
def fldVA (w : Word64) : BitVec 6 := f6 w 34
def fldVB (w : Word64) : BitVec 6 := f6 w 28
def fldVC (w : Word64) : BitVec 6 := f6 w 22
def fldRm (w : Word64) : Rm := Rm.ofCode (f2 w 11)
/-- The source modifiers of R148. -/
def fldMods (w : Word64) : Mods :=
  { negA := bit w 0, absA := bit w 1, negB := bit w 2, absB := bit w 3, negC := bit w 4, absC := bit w 5 }
def fldRnd (w : Word64) : FRnd := { rm := fldRm w, fz := bit w 10, mods := fldMods w }

def srcOf (b : BitVec 9) : Except Reject Src := Src.ofCode b
/-- The destination field (R67). -/
def dstOf (w : Word64) : Except Reject Dst := Dst.ofCode (w.extractLsb' 40 7)

/-- A destination field that names a predicate. -/
def predOf (w : Word64) : Except Reject (BitVec 3) := do
  match ← dstOf w with
  | .pred p => return p
  | _ => .error .destination

/-- A data or link field that names a g register. -/
def gOf (w : Word64) : Except Reject (BitVec 6) := do
  match ← dstOf w with
  | .g n => return n
  | _ => .error .destination

/-- A field that names a g register or 0x7F. -/
def optRegOf (w : Word64) : Except Reject (Option (BitVec 6)) := do
  match ← dstOf w with
  | .g n => return some n
  | .none => return none
  | _ => .error .destination

/-- The block of a command whose flag R marks it as used (R209). -/
def optBlockOf (w : Word64) : Option (BitVec 6) := if bit w 8 then some (fldBlk w) else none

/-- The address part of Format M (R70). -/
def memOf (w : Word64) : Except Reject MemOp := do
  let off ← srcOf (f9 w 25)
  return { view := fldView w, off := off, order := fldOrder w, scope := fldScope w, pol := Policy.ofCode (f2 w 19),
           tok := f3 w 16, disp := w.extractLsb' 0 16 }

/-- The address part of LDX and STX, whose view field carries the width (R190). -/
def memRawOf (w : Word64) : Except Reject MemOp := (memOf w).map fun m => { m with view := 0 }

/-- The address part with a 12-bit displacement (R184). -/
def mem12Of (w : Word64) : Except Reject MemOp :=
  (memOf w).map fun m => { m with disp := (w.extractLsb' 0 12).signExtend 16 }

/-! ## Building a word -/

/-- Opcode, common fields and body (R54). -/
def word (op : Nat) (c : Common) (body : BitVec 47) : Word64 :=
  BitVec.ofNat 10 op ++ c.t ++ BitVec.ofBool c.k ++ c.guard ++ BitVec.ofBool c.sense ++ body

/-- Format A (R68). -/
def bodyA (d : BitVec 7) (a b c : BitVec 9) (rm : BitVec 2) (fz sat : Bool) (op : BitVec 9) : BitVec 47 :=
  d ++ a ++ b ++ c ++ rm ++ BitVec.ofBool fz ++ BitVec.ofBool sat ++ op

/-- Format I (R69). -/
def bodyI (d : BitVec 7) (md : BitVec 2) (g : BitVec 6) (imm : Word) : BitVec 47 := d ++ md ++ g ++ imm

/-- Format B (R71). -/
def bodyB (link : BitVec 7) (target : BitVec 9) (off : BitVec 31) : BitVec 47 := link ++ target ++ off

/-- Format M (R70). -/
def bodyM (d : BitVec 7) (m : MemOp) : BitVec 47 :=
  d ++ m.view ++ m.off.code ++ m.order.code ++ m.scope.code ++ m.pol.code ++ m.tok ++ m.disp

/-- Format E (R72). -/
def bodyE (blk : BitVec 7) (va vb vc sel : BitVec 6) (tok : BitVec 3) (rm : BitVec 2) (fz sat : Bool) (op : BitVec 9) :
    BitVec 47 :=
  blk ++ va ++ vb ++ vc ++ sel ++ tok ++ rm ++ BitVec.ofBool fz ++ BitVec.ofBool sat ++ op

/-- op[0] of a form with one flag. -/
def flag (s : Bool) : BitVec 9 := 0#8 ++ BitVec.ofBool s
/-- op[1] and op[0]. -/
def op2 (hi lo : Bool) : BitVec 9 := 0#7 ++ BitVec.ofBool hi ++ BitVec.ofBool lo
/-- The modifier of ADDI and LDI: 01 for a pair (R128). -/
def mod2 (wide : Bool) : BitVec 2 := 0#1 ++ BitVec.ofBool wide
/-- op of ADDC and SUBB (R128). -/
def opCarry (pOut pIn : BitVec 3) (cin : Bool) : BitVec 9 := 0#2 ++ BitVec.ofBool cin ++ pIn ++ pOut
/-- op of CMP and CMPS (R132). -/
def opCmp (cc : Cond) (s wide : Bool) : BitVec 9 := 0#4 ++ BitVec.ofBool wide ++ BitVec.ofBool s ++ cc.code
/-- op of SEL (R132). -/
def opSel (p : BitVec 3) (negate wide : Bool) : BitVec 9 := 0#4 ++ BitVec.ofBool wide ++ BitVec.ofBool negate ++ p
/-- op of MOVS and SETS (R134). -/
def opSReg (r : SReg) (wide : Bool) : BitVec 9 := 0#2 ++ BitVec.ofBool wide ++ r.code
/-- op of the predicate forms (R132). -/
def opPred (pa pb : BitVec 3) (na nb : Bool) : BitVec 9 := 0#1 ++ BitVec.ofBool nb ++ BitVec.ofBool na ++ pb ++ pa
/-- op of the float forms: F or the high bit of cc, then cc or zero, then the modifiers (R148, R152, R155). -/
def opMods (bf : Bool) (cc : BitVec 3) (m : Mods) : BitVec 9 :=
  (cc ||| (BitVec.ofBool bf ++ 0#2)) ++ BitVec.ofBool m.absC ++ BitVec.ofBool m.negC ++ BitVec.ofBool m.absB ++
    BitVec.ofBool m.negB ++ BitVec.ofBool m.absA ++ BitVec.ofBool m.negA
/-- op of CVT (R157). -/
def opCvt (dst src : CvtTy) : BitVec 9 := 0#1 ++ src.code ++ dst.code
/-- op of PACK2 and SPLIT2 (R159). -/
def opHalf (ty : Half) (s : Bool) : BitVec 9 := 0#6 ++ BitVec.ofBool s ++ ty.code
/-- op of the barriers (R260). -/
def opScope (sc : Scope) : BitVec 9 := 0#6 ++ sc.code
/-- op with a token and one flag above it (R288, R290, R306). -/
def opTokFlag (tok : BitVec 3) (f : Bool) : BitVec 9 := 0#5 ++ BitVec.ofBool f ++ tok
/-- op of LDIO and STIO (R289). -/
def opIo (wide : Bool) (tok : BitVec 3) : BitVec 9 := 0#5 ++ tok ++ BitVec.ofBool wide
/-- A field that names a g register or 0x7F. -/
def optReg (r : Option (BitVec 6)) : BitVec 7 :=
  match r with
  | some n => 0#1 ++ n
  | none => 127
/-- The block field of a command, zero where no block is used (R209). -/
def optBlock (b : Option (BitVec 6)) : BitVec 7 :=
  match b with
  | some n => 0#1 ++ n
  | none => 0
/-- The flag R of R209. -/
def optFlag (b : Option (BitVec 6)) : BitVec 9 := BitVec.ofBool b.isSome ++ 0#8

/-- The address part with another view field. -/
def MemOp.withView (m : MemOp) (v : BitVec 6) : MemOp := { m with view := v }
/-- The address part with a function code above a 12-bit displacement (R184). -/
def MemOp.withCode (m : MemOp) (code : BitVec 4) : MemOp := { m with disp := code ++ m.disp.extractLsb' 0 12 }
/-- The address part of VSET and VGET: only the view is used (R184). -/
def MemOp.bare (view : BitVec 6) : MemOp :=
  { view := view, off := .g 0, order := .plain, scope := .core, pol := .default, tok := 6, disp := 0 }
/-- The address part of FENCE (R259). -/
def MemOp.fence (order : Order) (scope : MScope) (tok : BitVec 3) : MemOp :=
  { view := 0, off := .g 0, order := order, scope := scope, pol := .default, tok := tok, disp := 0 }

/-- The word of an instruction, from the encoding tables of the chapters; the machine's own steps have none. -/
def Instr.encode : Instr → Option Word64
  | .add c d a b sat s => some (word 0 c (bodyA d.code a.code b.code 0 0 false sat (flag s)))
  | .sub c d a b sat s => some (word 1 c (bodyA d.code a.code b.code 0 0 false sat (flag s)))
  | .addc c d a b pOut pIn cin => some (word 2 c (bodyA d.code a.code b.code 0 0 false false (opCarry pOut pIn cin)))
  | .subb c d a b pOut pIn cin => some (word 3 c (bodyA d.code a.code b.code 0 0 false false (opCarry pOut pIn cin)))
  | .mul c d a b => some (word 4 c (bodyA d.code a.code b.code 0 0 false false 0))
  | .mulh c d a b s => some (word 5 c (bodyA d.code a.code b.code 0 0 false false (flag s)))
  | .mad c d a b e => some (word 6 c (bodyA d.code a.code b.code e.code 0 false false 0))
  | .neg c d a sat s => some (word 7 c (bodyA d.code a.code 0 0 0 false sat (flag s)))
  | .abs c d a sat s => some (word 8 c (bodyA d.code a.code 0 0 0 false sat (flag s)))
  | .min c d a b s => some (word 9 c (bodyA d.code a.code b.code 0 0 false false (flag s)))
  | .max c d a b s => some (word 10 c (bodyA d.code a.code b.code 0 0 false false (flag s)))
  | .addd c d a b sat s => some (word 11 c (bodyA d.code a.code b.code 0 0 false sat (flag s)))
  | .subd c d a b sat s => some (word 12 c (bodyA d.code a.code b.code 0 0 false sat (flag s)))
  | .mulw c d a b s => some (word 13 c (bodyA d.code a.code b.code 0 0 false false (flag s)))
  | .sad c d a b e => some (word 14 c (bodyA d.code a.code b.code e.code 0 false false 0))
  | .dot4 c d a b e sa sb sat => some (word 15 c (bodyA d.code a.code b.code e.code 0 false sat (op2 sb sa)))
  | .addi c d wide r imm => some (word 16 c (bodyI d.code (mod2 wide) r imm))
  | .ldi c d wide imm => some (word 17 c (bodyI d.code (mod2 wide) 0 imm))
  | .and c d a b => some (word 64 c (bodyA d.code a.code b.code 0 0 false false 0))
  | .or c d a b => some (word 65 c (bodyA d.code a.code b.code 0 0 false false 0))
  | .xor c d a b => some (word 66 c (bodyA d.code a.code b.code 0 0 false false 0))
  | .andn c d a b => some (word 67 c (bodyA d.code a.code b.code 0 0 false false 0))
  | .not c d a => some (word 68 c (bodyA d.code a.code 0 0 0 false false 0))
  | .shl c d a b => some (word 69 c (bodyA d.code a.code b.code 0 0 false false 0))
  | .shr c d a b => some (word 70 c (bodyA d.code a.code b.code 0 0 false false 0))
  | .sar c d a b => some (word 71 c (bodyA d.code a.code b.code 0 0 false false 0))
  | .rol c d a b => some (word 72 c (bodyA d.code a.code b.code 0 0 false false 0))
  | .shld c d a b e => some (word 73 c (bodyA d.code a.code b.code e.code 0 false false 0))
  | .shrd c d a b e => some (word 74 c (bodyA d.code a.code b.code e.code 0 false false 0))
  | .clz c d a => some (word 75 c (bodyA d.code a.code 0 0 0 false false 0))
  | .popc c d a => some (word 76 c (bodyA d.code a.code 0 0 0 false false 0))
  | .brev c d a => some (word 77 c (bodyA d.code a.code 0 0 0 false false 0))
  | .bfx c d a b s => some (word 78 c (bodyA d.code a.code b.code 0 0 false false (flag s)))
  | .bfi c d a b e => some (word 79 c (bodyA d.code a.code b.code e.code 0 false false 0))
  | .perm c d a b e => some (word 80 c (bodyA d.code a.code b.code e.code 0 false false 0))
  | .andi c d r imm => some (word 81 c (bodyI d.code 0 r imm))
  | .ori c d r imm => some (word 82 c (bodyI d.code 0 r imm))
  | .xori c d r imm => some (word 83 c (bodyI d.code 0 r imm))
  | .cmp c p a b cc s wide =>
    some (word 128 c (bodyA (Dst.pred p).code a.code b.code 0 0 false false (opCmp cc s wide)))
  | .cmps c d a b cc s wide => some (word 129 c (bodyA d.code a.code b.code 0 0 false false (opCmp cc s wide)))
  | .sel c d a b p negate wide => some (word 130 c (bodyA d.code a.code b.code 0 0 false false (opSel p negate wide)))
  | .mov c d a wide => some (word 131 c (bodyA d.code a.code 0 0 0 false false (flag wide)))
  | .movs c d r wide => some (word 132 c (bodyA d.code 0 0 0 0 false false (opSReg r wide)))
  | .sets c a r wide => some (word 133 c (bodyA 127 a.code 0 0 0 false false (opSReg r wide)))
  | .pand c p pa pb na nb => some (word 134 c (bodyA (Dst.pred p).code 0 0 0 0 false false (opPred pa pb na nb)))
  | .por c p pa pb na nb => some (word 135 c (bodyA (Dst.pred p).code 0 0 0 0 false false (opPred pa pb na nb)))
  | .pxor c p pa pb na nb => some (word 136 c (bodyA (Dst.pred p).code 0 0 0 0 false false (opPred pa pb na nb)))
  | .pnot c p pa => some (word 137 c (bodyA (Dst.pred p).code 0 0 0 0 false false (opPred pa 0 false false)))
  | .pset c p a => some (word 138 c (bodyA (Dst.pred p).code a.code 0 0 0 false false 0))
  | .pmov c d a write => some (word 139 c (bodyA d.code a.code 0 0 0 false false (flag write)))
  | .fadd c d a b r => some (word 192 c (bodyA d.code a.code b.code 0 r.rm.code r.fz false (opMods false 0 r.mods)))
  | .fsub c d a b r => some (word 193 c (bodyA d.code a.code b.code 0 r.rm.code r.fz false (opMods false 0 r.mods)))
  | .fmul c d a b r => some (word 194 c (bodyA d.code a.code b.code 0 r.rm.code r.fz false (opMods false 0 r.mods)))
  | .ffma c d a b e r =>
    some (word 195 c (bodyA d.code a.code b.code e.code r.rm.code r.fz false (opMods false 0 r.mods)))
  | .fmin c d a b fz m => some (word 196 c (bodyA d.code a.code b.code 0 0 fz false (opMods false 0 m)))
  | .fmax c d a b fz m => some (word 197 c (bodyA d.code a.code b.code 0 0 fz false (opMods false 0 m)))
  | .fcmp c d a b cc fz m => some (word 198 c (bodyA d.code a.code b.code 0 0 fz false (opMods false cc.code m)))
  | .fclass c d a => some (word 199 c (bodyA d.code a.code 0 0 0 false false 0))
  | .frcp c d a fz m => some (word 200 c (bodyA d.code a.code 0 0 0 fz false (opMods false 0 m)))
  | .frsq c d a fz m => some (word 201 c (bodyA d.code a.code 0 0 0 fz false (opMods false 0 m)))
  | .fsqrt c d a r => some (word 202 c (bodyA d.code a.code 0 0 r.rm.code r.fz false (opMods false 0 r.mods)))
  | .fdiv c d a b r => some (word 203 c (bodyA d.code a.code b.code 0 r.rm.code r.fz false (opMods false 0 r.mods)))
  | .fexp2 c d a fz m => some (word 204 c (bodyA d.code a.code 0 0 0 fz false (opMods false 0 m)))
  | .flog2 c d a fz m => some (word 205 c (bodyA d.code a.code 0 0 0 fz false (opMods false 0 m)))
  | .fsin c d a fz m => some (word 206 c (bodyA d.code a.code 0 0 0 fz false (opMods false 0 m)))
  | .fcos c d a fz m => some (word 207 c (bodyA d.code a.code 0 0 0 fz false (opMods false 0 m)))
  | .ftanh c d a fz m => some (word 208 c (bodyA d.code a.code 0 0 0 fz false (opMods false 0 m)))
  | .fscale c d a b r => some (word 209 c (bodyA d.code a.code b.code 0 r.rm.code r.fz false (opMods false 0 r.mods)))
  | .ffrac c d a fz m => some (word 210 c (bodyA d.code a.code 0 0 0 fz false (opMods false 0 m)))
  | .frnd c d a r => some (word 211 c (bodyA d.code a.code 0 0 r.rm.code r.fz false (opMods false 0 r.mods)))
  | .hadd2 c d a b bf r => some (word 256 c (bodyA d.code a.code b.code 0 r.rm.code r.fz false (opMods bf 0 r.mods)))
  | .hmul2 c d a b bf r => some (word 257 c (bodyA d.code a.code b.code 0 r.rm.code r.fz false (opMods bf 0 r.mods)))
  | .hfma2 c d a b e bf r =>
    some (word 258 c (bodyA d.code a.code b.code e.code r.rm.code r.fz false (opMods bf 0 r.mods)))
  | .hmin2 c d a b bf fz m => some (word 259 c (bodyA d.code a.code b.code 0 0 fz false (opMods bf 0 m)))
  | .hmax2 c d a b bf fz m => some (word 260 c (bodyA d.code a.code b.code 0 0 fz false (opMods bf 0 m)))
  | .hdot2 c d a b e bf r =>
    some (word 261 c (bodyA d.code a.code b.code e.code r.rm.code r.fz false (opMods bf 0 r.mods)))
  | .cvt c d a dst src rm fz sat => some (word 320 c (bodyA d.code a.code 0 0 rm.code fz sat (opCvt dst src)))
  | .pack2 c d a b ty s rm fz sat => some (word 321 c (bodyA d.code a.code b.code 0 rm.code fz sat (opHalf ty s)))
  | .split2 c d a ty fz => some (word 322 c (bodyA d.code a.code 0 0 0 fz false (opHalf ty false)))
  | .pack4 c d a b i8 s sat => some (word 323 c (bodyA d.code a.code b.code 0 0 false sat (op2 s i8)))
  | .split4 c d a hi signed => some (word 324 c (bodyA d.code a.code 0 0 0 false false (op2 signed hi)))
  | .bra c off => some (word 384 c (bodyB 127 0 off))
  | .jmpi c a => some (word 385 c (bodyB 127 a.code 0))
  | .call c link off => some (word 386 c (bodyB (Dst.g link).code 0 off))
  | .calli c link a => some (word 387 c (bodyB (Dst.g link).code a.code 0))
  | .ret c a => some (word 388 c (bodyB 127 a.code 0))
  | .relcall c frame a => some (word 389 c (bodyB (optReg frame) a.code 0))
  | .tjoin c => some (word 390 c (bodyB 127 0 0))
  | .tend c => some (word 391 c (bodyB 127 0 0))
  | .exit c => some (word 392 c (bodyB 127 0 0))
  | .nop c => some (word 393 c (bodyB 127 0 0))
  | .yieldI c => some (word 394 c (bodyB 127 0 0))
  | .progress c => some (word 395 c (bodyB 127 0 0))
  | .step c mask => some (word 448 c (bodyA 127 0 0 0 0 false false (0#1 ++ mask)))
  | .migrate c d a => some (word 449 c (bodyA d.code a.code 0 0 0 false false 0))
  | .dqpush c a => some (word 450 c (bodyA 127 a.code 0 0 0 false false 0))
  | .dqpop c d => some (word 451 c (bodyA d.code 0 0 0 0 false false 0))
  | .park c => some (word 452 c (bodyA 127 0 0 0 0 false false 0))
  | .ld c d m => some (word 512 c (bodyM d.code m))
  | .st c d m => some (word 513 c (bodyM d.code m))
  | .ldx c d fm m => some (word 514 c (bodyM d.code (m.withView fm.code)))
  | .stx c d fm m => some (word 515 c (bodyM d.code (m.withView fm.code)))
  | .pref c m => some (word 516 c (bodyM 127 m))
  | .vset c base view => some (word 517 c (bodyM (Dst.g base).code (MemOp.bare view)))
  | .vget c base view => some (word 518 c (bodyM (Dst.g base).code (MemOp.bare view)))
  | .vld c entry m => some (word 519 c (bodyM (Dst.g entry).code m))
  | .atom c r fn m => some (word 576 c (bodyM (Dst.g r).code (m.withCode fn.code)))
  | .atomr c r fn m => some (word 577 c (bodyM (Dst.g r).code (m.withCode fn.code)))
  | .cas c r m => some (word 578 c (bodyM (Dst.g r).code (m.withCode 0)))
  | .kcas2 c r dist m => some (word 579 c (bodyM (Dst.g r).code (m.withCode dist)))
  | .kenq c r m => some (word 580 c (bodyM (Dst.g r).code (m.withCode 0)))
  | .kdeq c r m => some (word 581 c (bodyM (Dst.g r).code (m.withCode 0)))
  | .kchase c r fw m => some (word 582 c (bodyM (Dst.g r).code (m.withCode fw)))
  | .kchunk c r m => some (word 583 c (bodyM (Dst.g r).code (m.withCode 0)))
  | .fence c order scope tok => some (word 640 c (bodyM 127 (MemOp.fence order scope tok)))
  | .bar c sc => some (word 641 c (bodyA 127 0 0 0 0 false false (opScope sc)))
  | .bara c d sc => some (word 642 c (bodyA (optReg d) 0 0 0 0 false false (opScope sc)))
  | .barw c a sc => some (word 643 c (bodyA 127 a.code 0 0 0 false false (opScope sc)))
  | .sarm c r m => some (word 644 c (bodyM (Dst.g r).code (m.withCode 0)))
  | .swait c r m => some (word 645 c (bodyM (Dst.g r).code (m.withCode 0)))
  | .sadd c r m => some (word 646 c (bodyM (Dst.g r).code (m.withCode 0)))
  | .copy c block vd vs rm fz sat tok =>
    some (word 704 c (bodyE (optBlock block) vd vs 0 0 tok rm.code fz sat (optFlag block)))
  | .copym c block vd vs vb fmt rm fz sat tok =>
    some (word 705 c (bodyE (0#1 ++ block) vd vs vb 16 tok rm.code fz sat (0#7 ++ fmt.code)))
  | .mmab c block va vb fmt tok =>
    some (word 706 c (bodyE (0#1 ++ block) va vb 0 0 tok 0 false false (0#7 ++ fmt.code)))
  | .scacc c block va vb part acc tok =>
    some (word 707 c (bodyE (optBlock block) va vb 0 (0#2 ++ acc ++ part) tok 0 false false (optFlag block)))
  | .mload c block v acc tok =>
    some (word 708 c (bodyE (optBlock block) v 0 0 (0#2 ++ acc ++ 0#2) tok 0 false false (optFlag block)))
  | .mstore c block v acc rm fz sat tok =>
    some (word 709 c (bodyE (optBlock block) v 0 0 (0#2 ++ acc ++ 0#2) tok rm.code fz sat (optFlag block)))
  | .mzero c acc tok => some (word 710 c (bodyE 0 0 0 0 (0#2 ++ acc ++ 0#2) tok 0 false false 0))
  | .tmma c block v entry tok => some (word 711 c (bodyE (0#1 ++ block) v 0 0 0 tok 0 false false entry))
  | .drun c block entry tok => some (word 712 c (bodyE (0#1 ++ block) 0 0 0 0 tok 0 false false entry))
  | .ecan c mask tok => some (word 713 c (bodyE 0 0 0 0 (0#3 ++ mask) tok 0 false false 0))
  | .trig c => some (word 768 c (bodyA 127 0 0 0 0 false false 0))
  | .spawn c r m => some (word 769 c (bodyM (Dst.g r).code m))
  | .trap c imm => some (word 832 c (bodyI 127 0 0 imm))
  | .svc c imm => some (word 833 c (bodyI 127 0 0 imm))
  | .eret c => some (word 834 c (bodyA 127 0 0 0 0 false false 0))
  | .segset c n r => some (word 835 c (bodyA 127 (Src.g r).code 0 0 0 false false (0#6 ++ n)))
  | .segget c n r => some (word 836 c (bodyA (Dst.g r).code 0 0 0 0 false false (0#6 ++ n)))
  | .tlbinv c form a b => some (word 837 c (bodyA 127 a.code b.code 0 0 false false (0#7 ++ form.code)))
  | .shoot c d a b e g tok => some (word 838 c (bodyA d.code a.code b.code e.code 0 false false (opTokFlag tok g)))
  | .ldio c d a wide tok => some (word 839 c (bodyA d.code a.code 0 0 0 false false (opIo wide tok)))
  | .stio c a b wide tok => some (word 840 c (bodyA 127 a.code b.code 0 0 false false (opIo wide tok)))
  | .ctxsave c d a b tok => some (word 841 c (bodyA d.code a.code b.code 0 0 false false (opTokFlag tok false)))
  | .ctxload c d a b tok => some (word 842 c (bodyA d.code a.code b.code 0 0 false false (opTokFlag tok false)))
  | .idle c d a => some (word 843 c (bodyA d.code a.code 0 0 0 false false 0))
  | .ckpt c d a b tok => some (word 844 c (bodyA (Dst.g d).code a.code b.code 0 0 false false (opTokFlag tok false)))
  | .ckptRb c d a b tok => some (word 844 c (bodyA (Dst.g d).code a.code b.code 0 0 false false (opTokFlag tok true)))
  | .setperf c a => some (word 845 c (bodyA 127 a.code 0 0 0 false false 0))
  | .relcallRelease _ | .tendComplete _ | .exitDrainEnd _ | .stepCommit _ | .migrateMove _ | .dqEntryReleased _
  | .parkSelf _ | .kchaseHop _ | .keeperOperation _ | .atomicAtHome _ | .barrierInstanceComplete _ _ _ _
  | .syncWordOperation _ | .swaitReturn _ | .copyCommandRun _ _ _ | .copySegmentLanded _ _ _
  | .copymFollowOnPlace _ _ | .arrayCommandRun _ _ _ | .engineCommandComplete _ _ | .engineHeldFaultResume _ _
  | .docentProgramStart _ _ | .docentYieldPoint _ | .docentEnd _ | .docentMmab _ | .docentScacc _ | .docentMzero _
  | .docentMload _ | .docentMstore _ | .docentCopy _ | .docentLoop _ | .docentSetl _ | .docentSignal _
  | .continuationAccept _ _ | .taskCellStart _ _ | .accessionWatchdogExpiry _ _ | .svcComplete _ _
  | .shootdownComplete _ | .idleWake _ _ | .clauseFetch _ _ _ | .clauseCacheFill _ _ _ | .pick _ _ | .gangSwap _
  | .neighbourReadArrival _ | .neighbourReadResume _ _ | .parkTransferEnd _ _ | .loadComplete _ | .storePerformed _
  | .prefLineArrival _ _ | .tlbWalkFill _ _ _ | .asyncFaultTake _ | .ringRecordWrite | .actReplay _ | .actDeliver _
  | .actAbandon _ | .stopactTerminate _ | .stopactResume _ | .stopactResumeDeliver _ | .contextSwitchOut _ _
  | .contextRestore _ _ | .docentOverrunExpiry _ | .watchdogNoProgress _ _ _ | .watchdogNoRetire _ _ _
  | .notifyRegisterWrite _ _ _ | .packetAccept _ | .launchPlacement _ | .launchStart _ | .dependantFail _
  | .markerComplete _ | .launchCompletion _ | .causalPacketSend _ | .clockPacketArrival _ | .baseAckArrival _
  | .sequencedPacketArrival _ | .readRequestArrival _ | .horizonQueryAnswer _ | .horizonAnswerArrival _
  | .nackReceipt _ | .nackResend _ _ | .beaconArrival _ | .beaconAckArrival _ | .finalHorizonArrival _
  | .fieldDeath _ | .causalReset | .linkAckTimeout _ | .flitCrcFail _ | .moduleTimeout _ | .podTimeout _
  | .poisonRead _ _ | .peerRequestArrival _ _ _ | .peerAckArrival _ _ | .rangeEntryWrite _
  | .spanNeighbourRead _ _ _ _ _ _ | .spanStepReport _ _ _ | .podBarrierCount _ _ _ | .clientRmaWrite _ _ _ _ _
  | .clientRmaRead _ _ _ _ _ | .reqWrite _ | .heatWrite _ | .evenThreshWrite _ | .flitEnqueue _ _ _
  | .flitStart _ _ | .ringLock _ _ _ | .ringParkEnd _ _ _ | .ringLockTimeout _ _ _ | .heaterRetune _ _ _ _ _
  | .byteBudgetInterval | .perfIntervalBoundary | .perfStepSettle _ | .evictionGo _ _ | .evictionAbort _
  | .lrpWrite _ | .evictionQuiesced | .evictionTransferred | .evictionTimeout | .circuitUp _ _
  | .fieldDrainCommand _ | .fieldForcedOffline _ | .fieldReturnOnline _ | .fieldDrainComplete _ _
  | .appraiserReplay | .appraiserSuspectClear _ | .checkpointDue _ _ | .checkpointDuePop _ | .ioRegisterWrite _
  | .moduleReset | .bootImageVerify _ _ _ | .pldmFirmwareUpdate _ _ _ _ | .spdmGetCertificate | .spdmChallenge _
  | .spdmGetMeasurements | .gangSwapEnd _ | .migrationResume _ | .heldFetchServiced _ _ _
  | .processorPageServiced _ | .queueRestart _ | .serviceChannelMessage _ _ _ | .flitCreditReturn _ _ _
  | .restripeMarkerArrival _ _ | .latchOpen | .linkReadmit _ => none

/-- The candidate instruction of group 0x0 integer (R128). -/
def candInt (w : Word64) (c : Common) : Nat → Except Reject Instr
  | 0 => do
    let d ← dstOf w
    let a ← srcOf (fldA w)
    let b ← srcOf (fldB w)
    return .add c d a b (bit w 9) (bit w 0)
  | 1 => do
    let d ← dstOf w
    let a ← srcOf (fldA w)
    let b ← srcOf (fldB w)
    return .sub c d a b (bit w 9) (bit w 0)
  | 2 => do
    let d ← dstOf w
    let a ← srcOf (fldA w)
    let b ← srcOf (fldB w)
    return .addc c d a b (f3 w 0) (f3 w 3) (bit w 6)
  | 3 => do
    let d ← dstOf w
    let a ← srcOf (fldA w)
    let b ← srcOf (fldB w)
    return .subb c d a b (f3 w 0) (f3 w 3) (bit w 6)
  | 4 => do
    let d ← dstOf w
    let a ← srcOf (fldA w)
    let b ← srcOf (fldB w)
    return .mul c d a b
  | 5 => do
    let d ← dstOf w
    let a ← srcOf (fldA w)
    let b ← srcOf (fldB w)
    return .mulh c d a b (bit w 0)
  | 6 => do
    let d ← dstOf w
    let a ← srcOf (fldA w)
    let b ← srcOf (fldB w)
    let e ← srcOf (fldC w)
    return .mad c d a b e
  | 7 => do
    let d ← dstOf w
    let a ← srcOf (fldA w)
    return .neg c d a (bit w 9) (bit w 0)
  | 8 => do
    let d ← dstOf w
    let a ← srcOf (fldA w)
    return .abs c d a (bit w 9) (bit w 0)
  | 9 => do
    let d ← dstOf w
    let a ← srcOf (fldA w)
    let b ← srcOf (fldB w)
    return .min c d a b (bit w 0)
  | 10 => do
    let d ← dstOf w
    let a ← srcOf (fldA w)
    let b ← srcOf (fldB w)
    return .max c d a b (bit w 0)
  | 11 => do
    let d ← dstOf w
    let a ← srcOf (fldA w)
    let b ← srcOf (fldB w)
    return .addd c d a b (bit w 9) (bit w 0)
  | 12 => do
    let d ← dstOf w
    let a ← srcOf (fldA w)
    let b ← srcOf (fldB w)
    return .subd c d a b (bit w 9) (bit w 0)
  | 13 => do
    let d ← dstOf w
    let a ← srcOf (fldA w)
    let b ← srcOf (fldB w)
    return .mulw c d a b (bit w 0)
  | 14 => do
    let d ← dstOf w
    let a ← srcOf (fldA w)
    let b ← srcOf (fldB w)
    let e ← srcOf (fldC w)
    return .sad c d a b e
  | 15 => do
    let d ← dstOf w
    let a ← srcOf (fldA w)
    let b ← srcOf (fldB w)
    let e ← srcOf (fldC w)
    return .dot4 c d a b e (bit w 0) (bit w 1) (bit w 9)
  | 16 => do
    let d ← dstOf w
    return .addi c d (bit w 38) (fldG w) (fldImm w)
  | 17 => do
    let d ← dstOf w
    return .ldi c d (bit w 38) (fldImm w)
  | _ => .error .unassigned

/-- The candidate instruction of group 0x1 logic, shift, bit (R130). -/
def candLogic (w : Word64) (c : Common) : Nat → Except Reject Instr
  | 0 => do
    let d ← dstOf w
    let a ← srcOf (fldA w)
    let b ← srcOf (fldB w)
    return .and c d a b
  | 1 => do
    let d ← dstOf w
    let a ← srcOf (fldA w)
    let b ← srcOf (fldB w)
    return .or c d a b
  | 2 => do
    let d ← dstOf w
    let a ← srcOf (fldA w)
    let b ← srcOf (fldB w)
    return .xor c d a b
  | 3 => do
    let d ← dstOf w
    let a ← srcOf (fldA w)
    let b ← srcOf (fldB w)
    return .andn c d a b
  | 4 => do
    let d ← dstOf w
    let a ← srcOf (fldA w)
    return .not c d a
  | 5 => do
    let d ← dstOf w
    let a ← srcOf (fldA w)
    let b ← srcOf (fldB w)
    return .shl c d a b
  | 6 => do
    let d ← dstOf w
    let a ← srcOf (fldA w)
    let b ← srcOf (fldB w)
    return .shr c d a b
  | 7 => do
    let d ← dstOf w
    let a ← srcOf (fldA w)
    let b ← srcOf (fldB w)
    return .sar c d a b
  | 8 => do
    let d ← dstOf w
    let a ← srcOf (fldA w)
    let b ← srcOf (fldB w)
    return .rol c d a b
  | 9 => do
    let d ← dstOf w
    let a ← srcOf (fldA w)
    let b ← srcOf (fldB w)
    let e ← srcOf (fldC w)
    return .shld c d a b e
  | 10 => do
    let d ← dstOf w
    let a ← srcOf (fldA w)
    let b ← srcOf (fldB w)
    let e ← srcOf (fldC w)
    return .shrd c d a b e
  | 11 => do
    let d ← dstOf w
    let a ← srcOf (fldA w)
    return .clz c d a
  | 12 => do
    let d ← dstOf w
    let a ← srcOf (fldA w)
    return .popc c d a
  | 13 => do
    let d ← dstOf w
    let a ← srcOf (fldA w)
    return .brev c d a
  | 14 => do
    let d ← dstOf w
    let a ← srcOf (fldA w)
    let b ← srcOf (fldB w)
    return .bfx c d a b (bit w 0)
  | 15 => do
    let d ← dstOf w
    let a ← srcOf (fldA w)
    let b ← srcOf (fldB w)
    let e ← srcOf (fldC w)
    return .bfi c d a b e
  | 16 => do
    let d ← dstOf w
    let a ← srcOf (fldA w)
    let b ← srcOf (fldB w)
    let e ← srcOf (fldC w)
    return .perm c d a b e
  | 17 => do
    let d ← dstOf w
    return .andi c d (fldG w) (fldImm w)
  | 18 => do
    let d ← dstOf w
    return .ori c d (fldG w) (fldImm w)
  | 19 => do
    let d ← dstOf w
    return .xori c d (fldG w) (fldImm w)
  | _ => .error .unassigned

/-- The candidate instruction of group 0x2 compare, select, move (R132). -/
def candMove (w : Word64) (c : Common) : Nat → Except Reject Instr
  | 0 => do
    let p ← predOf w
    let a ← srcOf (fldA w)
    let b ← srcOf (fldB w)
    let cc ← Cond.ofCode (f3 w 0)
    return .cmp c p a b cc (bit w 3) (bit w 4)
  | 1 => do
    let d ← dstOf w
    let a ← srcOf (fldA w)
    let b ← srcOf (fldB w)
    let cc ← Cond.ofCode (f3 w 0)
    return .cmps c d a b cc (bit w 3) (bit w 4)
  | 2 => do
    let d ← dstOf w
    let a ← srcOf (fldA w)
    let b ← srcOf (fldB w)
    return .sel c d a b (f3 w 0) (bit w 3) (bit w 4)
  | 3 => do
    let d ← dstOf w
    let a ← srcOf (fldA w)
    return .mov c d a (bit w 0)
  | 4 => do
    let d ← dstOf w
    let r ← SReg.ofCode (f6 w 0)
    return .movs c d r (bit w 6)
  | 5 => do
    let a ← srcOf (fldA w)
    let r ← SReg.ofCode (f6 w 0)
    return .sets c a r (bit w 6)
  | 6 => do
    let p ← predOf w
    return .pand c p (f3 w 0) (f3 w 3) (bit w 6) (bit w 7)
  | 7 => do
    let p ← predOf w
    return .por c p (f3 w 0) (f3 w 3) (bit w 6) (bit w 7)
  | 8 => do
    let p ← predOf w
    return .pxor c p (f3 w 0) (f3 w 3) (bit w 6) (bit w 7)
  | 9 => do
    let p ← predOf w
    return .pnot c p (f3 w 0)
  | 10 => do
    let p ← predOf w
    let a ← srcOf (fldA w)
    return .pset c p a
  | 11 => do
    let d ← dstOf w
    let a ← srcOf (fldA w)
    return .pmov c d a (bit w 0)
  | _ => .error .unassigned

/-- The candidate instruction of group 0x3 FP32 (R150). -/
def candFp (w : Word64) (c : Common) : Nat → Except Reject Instr
  | 0 => do
    let d ← dstOf w
    let a ← srcOf (fldA w)
    let b ← srcOf (fldB w)
    return .fadd c d a b (fldRnd w)
  | 1 => do
    let d ← dstOf w
    let a ← srcOf (fldA w)
    let b ← srcOf (fldB w)
    return .fsub c d a b (fldRnd w)
  | 2 => do
    let d ← dstOf w
    let a ← srcOf (fldA w)
    let b ← srcOf (fldB w)
    return .fmul c d a b (fldRnd w)
  | 3 => do
    let d ← dstOf w
    let a ← srcOf (fldA w)
    let b ← srcOf (fldB w)
    let e ← srcOf (fldC w)
    return .ffma c d a b e (fldRnd w)
  | 4 => do
    let d ← dstOf w
    let a ← srcOf (fldA w)
    let b ← srcOf (fldB w)
    return .fmin c d a b (bit w 10) (fldMods w)
  | 5 => do
    let d ← dstOf w
    let a ← srcOf (fldA w)
    let b ← srcOf (fldB w)
    return .fmax c d a b (bit w 10) (fldMods w)
  | 6 => do
    let d ← dstOf w
    let a ← srcOf (fldA w)
    let b ← srcOf (fldB w)
    return .fcmp c d a b (FCond.ofCode (f3 w 6)) (bit w 10) (fldMods w)
  | 7 => do
    let d ← dstOf w
    let a ← srcOf (fldA w)
    return .fclass c d a
  | 8 => do
    let d ← dstOf w
    let a ← srcOf (fldA w)
    return .frcp c d a (bit w 10) (fldMods w)
  | 9 => do
    let d ← dstOf w
    let a ← srcOf (fldA w)
    return .frsq c d a (bit w 10) (fldMods w)
  | 10 => do
    let d ← dstOf w
    let a ← srcOf (fldA w)
    return .fsqrt c d a (fldRnd w)
  | 11 => do
    let d ← dstOf w
    let a ← srcOf (fldA w)
    let b ← srcOf (fldB w)
    return .fdiv c d a b (fldRnd w)
  | 12 => do
    let d ← dstOf w
    let a ← srcOf (fldA w)
    return .fexp2 c d a (bit w 10) (fldMods w)
  | 13 => do
    let d ← dstOf w
    let a ← srcOf (fldA w)
    return .flog2 c d a (bit w 10) (fldMods w)
  | 14 => do
    let d ← dstOf w
    let a ← srcOf (fldA w)
    return .fsin c d a (bit w 10) (fldMods w)
  | 15 => do
    let d ← dstOf w
    let a ← srcOf (fldA w)
    return .fcos c d a (bit w 10) (fldMods w)
  | 16 => do
    let d ← dstOf w
    let a ← srcOf (fldA w)
    return .ftanh c d a (bit w 10) (fldMods w)
  | 17 => do
    let d ← dstOf w
    let a ← srcOf (fldA w)
    let b ← srcOf (fldB w)
    return .fscale c d a b (fldRnd w)
  | 18 => do
    let d ← dstOf w
    let a ← srcOf (fldA w)
    return .ffrac c d a (bit w 10) (fldMods w)
  | 19 => do
    let d ← dstOf w
    let a ← srcOf (fldA w)
    return .frnd c d a (fldRnd w)
  | _ => .error .unassigned

/-- The candidate instruction of group 0x4 packed (R155). -/
def candPacked (w : Word64) (c : Common) : Nat → Except Reject Instr
  | 0 => do
    let d ← dstOf w
    let a ← srcOf (fldA w)
    let b ← srcOf (fldB w)
    return .hadd2 c d a b (bit w 8) (fldRnd w)
  | 1 => do
    let d ← dstOf w
    let a ← srcOf (fldA w)
    let b ← srcOf (fldB w)
    return .hmul2 c d a b (bit w 8) (fldRnd w)
  | 2 => do
    let d ← dstOf w
    let a ← srcOf (fldA w)
    let b ← srcOf (fldB w)
    let e ← srcOf (fldC w)
    return .hfma2 c d a b e (bit w 8) (fldRnd w)
  | 3 => do
    let d ← dstOf w
    let a ← srcOf (fldA w)
    let b ← srcOf (fldB w)
    return .hmin2 c d a b (bit w 8) (bit w 10) (fldMods w)
  | 4 => do
    let d ← dstOf w
    let a ← srcOf (fldA w)
    let b ← srcOf (fldB w)
    return .hmax2 c d a b (bit w 8) (bit w 10) (fldMods w)
  | 5 => do
    let d ← dstOf w
    let a ← srcOf (fldA w)
    let b ← srcOf (fldB w)
    let e ← srcOf (fldC w)
    return .hdot2 c d a b e (bit w 8) (fldRnd w)
  | _ => .error .unassigned

/-- The candidate instruction of group 0x5 convert (R157 to R160). -/
def candConvert (w : Word64) (c : Common) : Nat → Except Reject Instr
  | 0 => do
    let d ← dstOf w
    let a ← srcOf (fldA w)
    let dst ← CvtTy.ofCode (f4 w 0)
    let src ← CvtTy.ofCode (f4 w 4)
    return .cvt c d a dst src (fldRm w) (bit w 10) (bit w 9)
  | 1 => do
    let d ← dstOf w
    let a ← srcOf (fldA w)
    let b ← srcOf (fldB w)
    return .pack2 c d a b (Half.ofCode (f2 w 0)) (bit w 2) (fldRm w) (bit w 10) (bit w 9)
  | 2 => do
    let d ← dstOf w
    let a ← srcOf (fldA w)
    return .split2 c d a (Half.ofCode (f2 w 0)) (bit w 10)
  | 3 => do
    let d ← dstOf w
    let a ← srcOf (fldA w)
    let b ← srcOf (fldB w)
    return .pack4 c d a b (bit w 0) (bit w 1) (bit w 9)
  | 4 => do
    let d ← dstOf w
    let a ← srcOf (fldA w)
    return .split4 c d a (bit w 0) (bit w 1)
  | _ => .error .unassigned

/-- The candidate instruction of group 0x6 control (R135). -/
def candControl (w : Word64) (c : Common) : Nat → Except Reject Instr
  | 0 => .ok (.bra c (fldOff31 w))
  | 1 => do
    let a ← srcOf (fldA w)
    return .jmpi c a
  | 2 => do
    let link ← gOf w
    return .call c link (fldOff31 w)
  | 3 => do
    let link ← gOf w
    let a ← srcOf (fldA w)
    return .calli c link a
  | 4 => do
    let a ← srcOf (fldA w)
    return .ret c a
  | 5 => do
    let frame ← optRegOf w
    let a ← srcOf (fldA w)
    return .relcall c frame a
  | 6 => .ok (.tjoin c)
  | 7 => .ok (.tend c)
  | 8 => .ok (.exit c)
  | 9 => .ok (.nop c)
  | 10 => .ok (.yieldI c)
  | 11 => .ok (.progress c)
  | _ => .error .unassigned

/-- The candidate instruction of group 0x7 cell and grid (R108, R110, R125, R146). -/
def candCell (w : Word64) (c : Common) : Nat → Except Reject Instr
  | 0 => .ok (.step c (f8 w 0))
  | 1 => do
    let d ← dstOf w
    let a ← srcOf (fldA w)
    return .migrate c d a
  | 2 => do
    let a ← srcOf (fldA w)
    return .dqpush c a
  | 3 => do
    let d ← dstOf w
    return .dqpop c d
  | 4 => .ok (.park c)
  | _ => .error .unassigned

/-- The candidate instruction of group 0x8 memory (R184). -/
def candMem (w : Word64) (c : Common) : Nat → Except Reject Instr
  | 0 => do
    let d ← dstOf w
    let m ← memOf w
    return .ld c d m
  | 1 => do
    let d ← dstOf w
    let m ← memOf w
    return .st c d m
  | 2 => do
    let d ← dstOf w
    let fm ← Fmt.ofCode (fldView w)
    let m ← memRawOf w
    return .ldx c d fm m
  | 3 => do
    let d ← dstOf w
    let fm ← Fmt.ofCode (fldView w)
    let m ← memRawOf w
    return .stx c d fm m
  | 4 => do
    let m ← memOf w
    return .pref c m
  | 5 => do
    let base ← gOf w
    return .vset c base (fldView w)
  | 6 => do
    let base ← gOf w
    return .vget c base (fldView w)
  | 7 => do
    let entry ← gOf w
    let m ← memOf w
    return .vld c entry m
  | _ => .error .unassigned

/-- The candidate instruction of group 0x9 atomics, keeper (R184). -/
def candAtomic (w : Word64) (c : Common) : Nat → Except Reject Instr
  | 0 => do
    let r ← gOf w
    let fn ← AtomFn.ofCode (f4 w 12)
    let m ← mem12Of w
    return .atom c r fn m
  | 1 => do
    let r ← gOf w
    let fn ← AtomFn.ofCode (f4 w 12)
    let m ← mem12Of w
    return .atomr c r fn m
  | 2 => do
    let r ← gOf w
    let m ← mem12Of w
    return .cas c r m
  | 3 => do
    let r ← gOf w
    let m ← mem12Of w
    return .kcas2 c r (f4 w 12) m
  | 4 => do
    let r ← gOf w
    let m ← mem12Of w
    return .kenq c r m
  | 5 => do
    let r ← gOf w
    let m ← mem12Of w
    return .kdeq c r m
  | 6 => do
    let r ← gOf w
    let m ← mem12Of w
    return .kchase c r (f4 w 12) m
  | 7 => do
    let r ← gOf w
    let m ← mem12Of w
    return .kchunk c r m
  | _ => .error .unassigned

/-- The candidate instruction of group 0xA synchronisation (R184, R259, R260). -/
def candSync (w : Word64) (c : Common) : Nat → Except Reject Instr
  | 0 => .ok (.fence c (fldOrder w) (fldScope w) (f3 w 16))
  | 1 => do
    let sc ← Scope.ofCode (f3 w 0)
    return .bar c sc
  | 2 => do
    let d ← optRegOf w
    let sc ← Scope.ofCode (f3 w 0)
    return .bara c d sc
  | 3 => do
    let a ← srcOf (fldA w)
    let sc ← Scope.ofCode (f3 w 0)
    return .barw c a sc
  | 4 => do
    let r ← gOf w
    let m ← mem12Of w
    return .sarm c r m
  | 5 => do
    let r ← gOf w
    let m ← mem12Of w
    return .swait c r m
  | 6 => do
    let r ← gOf w
    let m ← mem12Of w
    return .sadd c r m
  | _ => .error .unassigned

/-- The candidate instruction of group 0xB engines (R209). -/
def candEngine (w : Word64) (c : Common) : Nat → Except Reject Instr
  | 0 => .ok (.copy c (optBlockOf w) (fldVA w) (fldVB w) (fldRm w) (bit w 10) (bit w 9) (f3 w 13))
  | 1 => .ok (.copym c (fldBlk w) (fldVA w) (fldVB w) (fldVC w) (MatFmt.ofCode (f2 w 0)) (fldRm w) (bit w 10) (bit w 9) (f3 w 13))
  | 2 => .ok (.mmab c (fldBlk w) (fldVA w) (fldVB w) (MatFmt.ofCode (f2 w 0)) (f3 w 13))
  | 3 => .ok (.scacc c (optBlockOf w) (fldVA w) (fldVB w) (f2 w 16) (f2 w 18) (f3 w 13))
  | 4 => .ok (.mload c (optBlockOf w) (fldVA w) (f2 w 18) (f3 w 13))
  | 5 => .ok (.mstore c (optBlockOf w) (fldVA w) (f2 w 18) (fldRm w) (bit w 10) (bit w 9) (f3 w 13))
  | 6 => .ok (.mzero c (f2 w 18) (f3 w 13))
  | 7 => .ok (.tmma c (fldBlk w) (fldVA w) (f9 w 0) (f3 w 13))
  | 8 => .ok (.drun c (fldBlk w) (f9 w 0) (f3 w 13))
  | 9 => .ok (.ecan c (f3 w 16) (f3 w 13))
  | _ => .error .unassigned

/-- The candidate instruction of group 0xC launch, task (R90, R95). -/
def candLaunch (w : Word64) (c : Common) : Nat → Except Reject Instr
  | 0 => .ok (.trig c)
  | 1 => do
    let r ← gOf w
    let m ← memOf w
    return .spawn c r m
  | _ => .error .unassigned

/-- The candidate instruction of group 0xD system (R284 to R291, R306, R325). -/
def candSystem (w : Word64) (c : Common) : Nat → Except Reject Instr
  | 0 => .ok (.trap c (fldImm w))
  | 1 => .ok (.svc c (fldImm w))
  | 2 => .ok (.eret c)
  | 3 => .ok (.segset c (f3 w 0) (f6 w 31))
  | 4 => do
    let r ← gOf w
    return .segget c (f3 w 0) r
  | 5 => do
    let a ← srcOf (fldA w)
    let b ← srcOf (fldB w)
    let form ← TlbinvForm.ofCode (f2 w 0)
    return .tlbinv c form a b
  | 6 => do
    let d ← dstOf w
    let a ← srcOf (fldA w)
    let b ← srcOf (fldB w)
    let e ← srcOf (fldC w)
    return .shoot c d a b e (bit w 3) (f3 w 0)
  | 7 => do
    let d ← dstOf w
    let a ← srcOf (fldA w)
    return .ldio c d a (bit w 0) (f3 w 1)
  | 8 => do
    let a ← srcOf (fldA w)
    let b ← srcOf (fldB w)
    return .stio c a b (bit w 0) (f3 w 1)
  | 9 => do
    let d ← dstOf w
    let a ← srcOf (fldA w)
    let b ← srcOf (fldB w)
    return .ctxsave c d a b (f3 w 0)
  | 10 => do
    let d ← dstOf w
    let a ← srcOf (fldA w)
    let b ← srcOf (fldB w)
    return .ctxload c d a b (f3 w 0)
  | 11 => do
    let d ← dstOf w
    let a ← srcOf (fldA w)
    return .idle c d a
  | 12 => do
    let d ← gOf w
    let a ← srcOf (fldA w)
    let b ← srcOf (fldB w)
    return if bit w 3 then .ckptRb c d a b (f3 w 0) else .ckpt c d a b (f3 w 0)
  | 13 => do
    let a ← srcOf (fldA w)
    return .setperf c a
  | _ => .error .unassigned

/-- The instruction that a word's fields name, before the checks of R74: group in [63:60], operation in [59:54]. -/
def candidate (w : Word64) : Except Reject Instr :=
  match (w.extractLsb' 60 4).toNat with
  | 0 => candInt w (fldCommon w) (w.extractLsb' 54 6).toNat
  | 1 => candLogic w (fldCommon w) (w.extractLsb' 54 6).toNat
  | 2 => candMove w (fldCommon w) (w.extractLsb' 54 6).toNat
  | 3 => candFp w (fldCommon w) (w.extractLsb' 54 6).toNat
  | 4 => candPacked w (fldCommon w) (w.extractLsb' 54 6).toNat
  | 5 => candConvert w (fldCommon w) (w.extractLsb' 54 6).toNat
  | 6 => candControl w (fldCommon w) (w.extractLsb' 54 6).toNat
  | 7 => candCell w (fldCommon w) (w.extractLsb' 54 6).toNat
  | 8 => candMem w (fldCommon w) (w.extractLsb' 54 6).toNat
  | 9 => candAtomic w (fldCommon w) (w.extractLsb' 54 6).toNat
  | 10 => candSync w (fldCommon w) (w.extractLsb' 54 6).toNat
  | 11 => candEngine w (fldCommon w) (w.extractLsb' 54 6).toNat
  | 12 => candLaunch w (fldCommon w) (w.extractLsb' 54 6).toNat
  | 13 => candSystem w (fldCommon w) (w.extractLsb' 54 6).toNat
  | _ => .error .unassigned

/-- The instruction of a word, or why there is none (R74). -/
def decodeWord (w : Word64) : Except Reject Instr :=
  match candidate w with
  | .error r => .error r
  | .ok i =>
    match i.reject with
    | some r => .error r
    | none => if i.encode = some w then .ok i else .error .reserved

/-- The instruction that the decoder reads from a word of the opcode table; every row has 64 bits. -/
def decodeTableWord (nbits w : Nat) : Option Instr :=
  match decodeWord (BitVec.ofNat 64 (w % 2 ^ nbits)) with
  | .ok i => some i
  | .error _ => none

/-! ## Clause headers -/

/-- The engine classes of R58. -/
inductive EClass | arith | memory | engine | system
deriving DecidableEq, Repr

/-- A clause header (R58). -/
structure Header where
  count : BitVec 4
  cls : BitVec 2
  eng : EClass
  wait : BitVec 6
  yield : Bool
deriving DecidableEq, Repr

def EClass.code : EClass → BitVec 2
  | .arith => 0 | .memory => 1 | .engine => 2 | .system => 3

def EClass.ofCode (b : BitVec 2) : EClass :=
  match b.toNat with
  | 0 => .arith | 1 => .memory | 2 => .engine | _ => .system

/-- The word of a header (R58). -/
def Header.encode (h : Header) : Word64 :=
  12#4 ++ h.count ++ h.cls ++ h.eng.code ++ h.wait ++ BitVec.ofBool h.yield ++ 0#45

/-- The header in a word; the marker and the zero bits are checked (R58, R74). -/
def Header.decode (w : Word64) : Option Header :=
  if w.extractLsb' 60 4 == 12#4 && w.extractLsb' 0 45 == 0#45 then
    some { count := f4 w 56, cls := f2 w 54, eng := EClass.ofCode (f2 w 52), wait := f6 w 46, yield := bit w 45 }
  else none

/-- The engine class of a group; control is admitted in every class (R62, R73). -/
def Instr.engineClass (i : Instr) : Option EClass :=
  match i.encode with
  | none => none
  | some w =>
    match (w.extractLsb' 60 4).toNat with
    | 6 => none
    | 8 | 9 | 10 => some .memory
    | 11 => some .engine
    | 12 | 13 => some .system
    | _ => some .arith

end Sys2Proof
end

