-- ==== Sys2Proof/Config.lean ====
section
/-!
DEFINITION. What an implementation fixes and the manual does not: the free values (opaque constants without a body, so
that no proof can know a value of one), and the fixed sizes of the module that several files use. Each free value is named
in the assumption log.
-/
namespace Sys2Proof.Config

/-- A free byte for each draw: bytes the manual leaves unspecified (R143, R216; log 6). -/
opaque freeByte : Nat → Byte
/-- A free word for each draw: a value the manual leaves unspecified (log 6). -/
opaque freeWord : Nat → Word
/-- A free choice among `n` alternatives for each draw, taken modulo `n` by its users (log 6). -/
opaque freeChoice : Nat → Nat
/-- Whether the matrix array of a core computes as the rules say (R302; log 6). -/
opaque arraySound : Nat → Bool
/-- Whether an image's ML-DSA-87 signature over its SHA3-512 digest verifies against the fused key (R329; log 8). -/
opaque signatureVerifies : List Byte → List Byte → Bool
/-- The SHA3-512 digest of an image (R329; log 8). -/
opaque digest : List Byte → List Byte
/-- The identity key's answer to an SPDM challenge with a nonce (R328; log 8). -/
opaque challengeAnswer : List Byte → List Byte

/-- Fields of the module (R2). -/
def fieldCount : Nat := 64
/-- Cores of one field (R1). -/
def coresPerField : Nat := 64
/-- Cell slots of one core (R11). -/
def cellSlots : Nat := 1024
/-- Gangs of one core (R29). -/
def gangs : Nat := 16
/-- Gangs that may issue at any instant (R29). -/
def activeGangs : Nat := 8
/-- Tail slots of one core (R24). -/
def tailSlots : Nat := 64
/-- Annex slots of one core (R109). -/
def annexSlots : Nat := 8
/-- Contexts one core holds (R119). -/
def maxContexts : Nat := 16
/-- Entries of a decision queue (R124). -/
def dqDepth : Nat := 16
/-- Entries of an operand log (R181). -/
def logDepth : Nat := 64
/-- Records of a core's outbound buffer (R95). -/
def outboundDepth : Nat := 8
/-- Live launches of the module (R80). -/
def launchTable : Nat := 1024
/-- Largest count of a token (R185). -/
def tokenMax : Nat := 255

end Sys2Proof.Config
end

