-- ==== Sys2Proof/Machine/State.lean ====
section
/-!
DEFINITION. The state of the module, as plain data, and the state after reset. Everything the manual gives the machine is
here; units that nothing has touched are not listed and read as their reset value. INVENTORY.md lists every piece with the
rule that names it.
-/
namespace Sys2Proof.Machine

/-- A table keyed by number: pairs in rising order of their keys. -/
abbrev Tab (α : Type) := List (Nat × α)

/-- Module-local physical memory (R167) as (address, byte) pairs in rising order of address, none of them the byte that an
unlisted address reads as. -/
abbrev Memory := List Host.Cell

/-- What an address reads as that memory does not list. DESIGN CHOICE, unsafe (log 1): the manual gives no contents after
power-on. -/
def unlistedByte : Byte := 0

/-- The order attribute of a page or region (R178). -/
inductive OrderAttr | strong | release | unordered
deriving DecidableEq, Repr

/-- Where a translated access goes: module-local memory, or a peer's memory behind an aperture (R177). -/
inductive Target
  | loc (pa : Nat)
  | peer (ap pa : Nat)
deriving DecidableEq, Repr

/-- The kinds of member of a context (R11, R24, R27, R94). -/
inductive Kind | grid | task | tail | curator
deriving DecidableEq, Repr

/-- Where a member sits (R134): the number is that of %slot; a member that is switched out knows whether it sat in an annex slot
(R278). -/
inductive Place
  | slot (n : Nat)
  | annex (n : Nat)
  | tailSlot (n : Nat)
  | curatorSlot
  | parked
  | transit
  | out (annex : Bool)
  | gone
deriving DecidableEq, Repr

/-- What a member does once its tokens and its drain count are empty (R118). -/
inductive After
  | exit
  | tend
  | eret
  | relcall (ret : Word) (top : Option Word)
  | park
  | migrate (core annex : Nat)
deriving DecidableEq, Repr

/-- Why a member is not ready (R103, R113, R118, R278). -/
inductive Wait
  | ready
  | step (mask : BitVec 8)
  | nbr (d : Dir) (f : BitVec 3)
  | barrier (sc : Scope) (unit k : Nat)
  | swait (acc : Nat)
  | dqpop (d : Dst)
  | dqpush
  | drain (after : After)
  | frameJoin (tails : List Nat)
  | tjoin
  | svc (n : Word) (sent : Bool)
  | idle (d : Dst) (until_ : Option Nat)
  | held (acc : Nat)
  | heldSlot (cause : Nat) (va : Word64)
  | behindFull
  | outbound
  | logFull
  | recordFull
  | heldFetch
  | park
  | stopped
  | inactive
deriving DecidableEq, Repr

/-- What an engine's fault names beside its command word and detail (R212): the operand whose view failed (0, 1, 2 for A, B, C; 3, 4, 5 for
their scale views), the element or block index in it, and beneath details 6 and 7 the cause and its own DETAIL, which tells a denied
page from one without memory or malformed (R268). The layout of R273 has no bytes for them (log 60). -/
structure EngNote where
  view : Nat
  index : Nat
  under : Nat
  underDetail : Nat := 0
deriving DecidableEq, Repr

/-- A fault on its way to a member (R268, R273): its cause, detail, the word and address involved, the header and slot, the
flags, the clause that led to a fetch-stage fault, whether Sernus has delivered it, so that ROUTE is not consulted (R276), what an engine's
fault names, and the token that its delivery clears (R212). -/
structure FaultInfo where
  cause : Nat
  detail : Nat
  word : Word64
  addr : Word64
  fetchStage : Bool
  async : Bool
  slot : Nat
  from_ : Option Nat
  direct : Bool := false
  engine : Option EngNote := none
  tok : Option Nat := none
deriving DecidableEq, Repr

/-- A trap record or service record (R273, R283); `extra` holds g4 and g5 of an SvcRequest (R285; log 34), 0 in every other. -/
structure Record where
  word : Word64
  addr : Word64
  pc : Word
  slot : Nat
  cause : Nat
  pred : BitVec 7
  detail : Word
  gsave : List Word
  lat : List Word64
  time : Nat
  flags : Nat
  from_ : Word
  who : Word
  extra : Word64
  engine : Option EngNote := none
deriving DecidableEq, Repr

/-- An open FENCE, or the fence of a TRIG or barrier arrival, of a member (R90, R259, R260): its place in program order, its kind,
the accesses that it waits for at its scope, the reads among its accesses, its token, whether a TRIG counts when it ends, whether
it covers I/O accesses (R289), the barrier instance whose arrival it releases, and the sequences that its context may have observed
and that a cumulative release waits for (R257). -/
structure FenceRec where
  seq : Nat
  rel : Bool
  acq : Bool
  waits : List Nat
  reads : List Nat
  tok : Option Nat
  trig : Bool
  io : Bool
  bar : Option (Scope × Nat)
  need : List Nat := []
deriving DecidableEq, Repr

/-- Registers, working faces and predicates (R11). -/
structure Regs where
  g : Vector Word 64
  f : Vector Word 8
  p : BitVec 7
deriving DecidableEq, Repr

/-- What a clause has asked for at its end, kept while its member is in the handler that it has entered from the clause (R108, R110, R143,
R272): a park, a move with the annex slot reserved for it, and frame joins. -/
structure PutOff where
  park : Bool := false
  move : Option (Nat × Nat) := none
  joins : List Nat := []
deriving DecidableEq, Repr

/-- A cell, task cell, tail or curator (R11, R24, R27, R94). `entered` lists (slot, entry cycle) of the slots of its clause that it has
issued, for the interlocks of a clause that it resumes (R61, R121), and `clear` is the cycle from which no instruction of its
previous clause is in E1 to E4 (R113). `owed` is a vector of sequences that have to be applied before its next access is performed
(R257, R265; log 25), `seen` one that its next acquire FENCE adds to `owed`, and `frame` the park frame that it uses (R101, R103). -/
structure Member where
  kind : Kind
  launch : Nat
  core : Nat
  home : Nat
  index : Nat
  linear : Nat
  coord : Nat × Nat × Nat
  place : Place
  pc : Nat
  slot : Nat
  count : Nat
  next : Option Nat
  cameFrom : Option Nat
  r : Regs
  lat : Vector Word64 4
  pub0 : Vector Word 8
  pub1 : Vector Word 8
  done : Nat
  int0 : Option Nat
  int1 : Option Nat
  tok : Vector Nat 6
  drain : Nat
  rp : Word
  rd : Word
  trapMode : Bool
  trapRec : Word
  holdTop : Word
  releaser : Option Nat
  departed : Bool
  triggered : Bool
  stopRec : Option FaultInfo
  wait : Wait
  nbrVals : List (Dir × BitVec 3 × Word)
  arrivals : Vector Word 6
  base0 : Vector Nat 6
  async : List FaultInfo
  demanded : Bool
  ptime : Nat
  unparkTime : Nat
  readySince : Nat
  stackBase : Nat
  seq : Nat
  fences : List FenceRec
  moveTo : Option (Nat × Nat)
  parkWish : Bool
  joinTails : List Nat
  terminating : Bool
  entered : List (Nat × Nat) := []
  clear : Nat := 0
  owed : List Nat := []
  seen : List Nat := []
  frame : Nat := 0
  heard : Nat := 0
  put : PutOff := {}
deriving DecidableEq, Repr

/-- The packet of a launch after the checks of R88 (R82, R83). -/
structure LaunchPkt where
  marker : Bool
  acq : Bool
  rel : Bool
  prio : Nat
  persistent : Bool
  early : Bool
  edges : Nat
  window : Nat
  entry : Nat
  curator : Option Nat
  slots : Nat
  interval : Nat
  grid : Nat × Nat × Nat
  block : Nat × Nat × Nat
  stride : Nat
  complVal : Nat
  dep : Option Nat
  arg : Word64
  seg : Word64
  affBase : Word64
  complAddr : Word64
deriving DecidableEq, Repr

/-- Where a launch stands. -/
inductive LaunchPhase | accepted | placed | running | completed | killed | failed
deriving DecidableEq, Repr

/-- One module's range of a spanning grid (R319). -/
structure SpanRange where
  first : Nat
  count : Nat
  module : Nat
deriving DecidableEq, Repr

/-- A launch (R80 to R91). -/
structure Launch where
  pkt : LaunchPkt
  queue : Nat
  qindex : Nat
  phase : LaunchPhase
  system : Bool
  desc : Vector DescBits 6
  stackSize : Nat
  vwFirst : Nat
  vwCount : Nat
  bFirst : Nat
  bCount : Nat
  spanId : Nat
  span : List SpanRange
  argFirst : Nat
  argViews : List ViewBits
  trigCount : Nat
  startTime : Nat
  archived : Bool
  remoteSteps : List (Nat × Nat)
  stepWatchers : List (Nat × Nat)
  remoteArrivals : List (Nat × Nat)
  barriers : List (Scope × Nat × Nat)
  blocked : Bool
deriving DecidableEq, Repr

/-- What became of a packet of a queue (R84, R89). -/
inductive Fate
  | live (launch : Nat)
  | finished (launch : Nat)
  | killed (launch : Nat)
  | rejected
  | failed
deriving DecidableEq, Repr

/-- A user queue (R77, R78): `pageWait` while Sernus makes a page present (R348), `stall` until the next notify (R80). -/
structure Queue where
  desc : QueueDesc
  notified : Nat
  ridx : Nat
  err : Bool
  cause : Nat
  failIdx : Word
  fates : List (Nat × Fate)
  pageWait : Bool
  stall : Bool
deriving DecidableEq, Repr

/-- The access kinds of groups 0x8, 0x9, 0xA, LDIO and STIO, of the engines, and of the keepers: the node stores and reads of an
operation at other homes than its own (R195). -/
inductive AccKind
  | load
  | store
  | atom (fn : AtomFn) (ret : Bool)
  | cas
  | kcas2
  | kenq
  | kdeq
  | kchase
  | kchunk
  | sarm
  | sadd
  | swait
  | vld
  | pref
  | ioRead (wide : Bool)
  | ioWrite (wide : Bool)
  | nodeStore (op : Nat)
  | nodeRead (op : Nat)
  | engineWrite (cmd seg : Nat)
  | advance (cmd : Nat)
  | completion (launch : Nat)
deriving DecidableEq, Repr

/-- Where an access stands between issue and completion (R185, R186): at its core, in the operand log, sent through a causal
port, waiting at its home, with its value on the way back, performed, with keeper stores or hops at other homes to come (R195,
R198), registered at a sync word (R201). -/
inductive AccPhase
  | issued
  | logged
  | sent
  | buffered
  | returning
  | performed
  | spreading
  | registered
deriving DecidableEq, Repr

/-- An access that has been issued and is not complete. `descs` are the segment descriptors at its issue, which it keeps (R287);
`bad` is the cause and detail of a routed fault whose check failed before translation (R275); `frame` is the hold top that the
member had lowered g63 below in the clause of its issue, 0 where it had not (R143). `need` is what a release that takes no sequence
waits for (R257), `origin` the field whose port an access leaves that its issuing core does not send (R195), `fetched` the node that
another keeper has read for a keeper operation and `spot` where that keeper's word lies (R197, R198), and `responded` says that the
values are on the way back with their stamp (R239). -/
structure Access where
  kind : AccKind
  member : Nat
  launch : Nat
  core : Nat
  seq : Nat
  word : Word64
  addr : Word64
  tgt : Target
  size : Nat
  fmt : Fmt
  data : Word64
  data2 : Word64
  bytes : List (Nat × Byte)
  dest : Dst
  attr : OrderAttr
  acq : Bool
  rel : Bool
  scope : MScope
  pol : Policy
  relSet : List Nat
  tok : Nat
  pc : Nat
  slot : Nat
  phase : AccPhase
  value : Word64
  value2 : Word64
  hops : Nat
  param : Nat
  stamp : List Nat
  heldCause : Nat
  bad : Option (Nat × Nat)
  descs : Vector DescBits 6
  frame : Nat := 0
  need : List Nat := []
  origin : Option Nat := none
  fetched : Option Word64 := none
  spot : Nat := 0
  responded : Bool := false
  /-- Sent back for translation, with no operand-log entry free for its held fault (R180). -/
  stale : Bool := false
  /-- What an acquire has met at its home, which what comes behind it has to see applied (R186, R257, R258; log 67). -/
  met : List Nat := []
deriving DecidableEq, Repr

/-- An operand-log entry (R181); `acc` is the access it keeps, `waiting` the WAITING bit of R276, `disposed` the disposition that Sernus
gave while its context was out, to be taken at the restore (R279), `detail` the DETAIL of its fault (R268). -/
structure LogEntry where
  acc : Nat
  member : Nat
  word : Word64
  addr : Word64
  data : Word64
  data2 : Word64
  pc : Word
  slot : Nat
  token : Nat
  cause : Nat
  who : Word
  time : Nat
  waiting : Bool
  disposed : Option Nat
  detail : Nat
  /-- What the disposition releases to the replay (R294). -/
  need : List Nat := []
deriving DecidableEq, Repr

/-- A TLB entry (R179): the leaf, the virtual range it covers, its tag. -/
structure TlbEntry where
  va : Nat
  bits : Nat
  asn : Nat
  leaf : Word64
deriving DecidableEq, Repr

/-- A walk in flight (R180), tagged with the shoot-down number current when it began. -/
structure Walk where
  ahead : Bool
  tag : Nat
  root : Nat
  asn : Nat
  va : Nat
  entry : Option TlbEntry
deriving DecidableEq, Repr

/-- A fetched clause (R112): its words, the fault its checks found, and the core cycle from which it is there (R115). -/
structure ClauseEntry where
  launch : Nat
  h : Nat
  words : List Word64
  fault : Option FaultInfo
  missing : Bool
  lines : List Nat
  at_ : Nat := 0
deriving DecidableEq, Repr

/-- The issue group of a core (R115, R117). `entered` lists (slot, entry cycle) of the slots already issued (R121); `atPick` the launches
that were runnable at the pick, until its cycle has passed (R119). -/
structure Issue where
  launch : Nat
  h : Nat
  slot : Nat
  words : List Word64
  members : List Nat
  todo : List Nat
  entered : List (Nat × Nat)
  started : Bool
  atPick : Option (List Nat) := none
deriving DecidableEq, Repr

/-- A park/unpark transfer of one launch (R204). -/
structure Transfer where
  launch : Nat
  parking : Option Nat
  unparking : Nat
  slot : Nat
deriving DecidableEq, Repr

/-- An entry of the decision queue (R124, R125). -/
structure DqEntry where
  value : Word
  held : Bool
  pusher : Nat
  waits : List Nat
deriving DecidableEq, Repr

/-- A continuation record (R93) with the spawner's member and token, and the release it waits for (R95). -/
structure Cont where
  target : Word64
  field : Nat
  core : Option Nat
  entry : Word
  source : Nat
  args : List Word
  launch : Nat
  member : Nat
  tok : Nat
  waits : List Nat
  postedAt : Nat
  need : List Nat := []
deriving DecidableEq, Repr

/-- A 16 by 16 plane in row order. -/
abbrev Plane := List Int

/-- State of a partial plane (R220). -/
inductive PlaneState
  | empty
  | full (fmt : MatFmt)
  | lost
deriving DecidableEq, Repr

/-- The kinds of engine command (R207); `voided` stands in engine order for a cancelled command whose partial planes are to be empty
(R231). -/
inductive CmdKind
  | copy
  | copym (fmt : MatFmt)
  | mmab (fmt : MatFmt)
  | scacc (part acc : Nat)
  | mload (acc : Nat)
  | mstore (acc : Nat)
  | mzero (acc : Nat)
  | tmma (entry : Nat)
  | drun (entry : Nat)
  | ecan (mask : BitVec 3)
  | voided (planes : List Nat)
deriving DecidableEq, Repr

/-- Progress of an engine command. -/
inductive CmdPhase | queued | running | held | stopped
deriving DecidableEq, Repr

/-- A segment of a copy, or the tile of an MSTORE (R218): its element bytes and the accesses that write them. -/
structure Segment where
  bytes : Nat
  accs : List Nat
  landed : Bool
  counted : Bool
deriving DecidableEq, Repr

/-- An engine command a core has accepted (R207, R208). `regs` and the views were captured at issue (R209); `reads` and `writes`
are the byte ranges of its footprint (R213) and `rplanes`, `wplanes` the planes (0 to 3 partial, 4 to 7 accumulators); `unread`
says that its sources are not read yet. -/
structure Cmd where
  kind : CmdKind
  order : Nat
  member : Nat
  launch : Nat
  word : Word64
  regs : List Word
  va : ViewBits
  vb : ViewBits
  vc : ViewBits
  sa : ViewBits
  sb : ViewBits
  rm : Rm
  fz : Bool
  sat : Bool
  tok : Nat
  docent : Bool
  followOf : Option Nat
  e0 : Nat
  count : Nat
  sync : Word64
  reads : List (Word64 × Nat)
  writes : List (Word64 × Nat)
  rplanes : List Nat
  wplanes : List Nat
  unread : Bool
  after : List Nat
  descs : Vector DescBits 6
  phase : CmdPhase
  segs : List Segment
  followPlaced : Bool
  need : List Nat := []
  before : List Nat := []
  sc : ViewBits := 0
  follow : List (Word64 × Nat) := []
  /-- The place in its context's program order, that of the DRUN for a step of a program (R186, R245). -/
  seq : Nat := 0
deriving DecidableEq, Repr

/-- What a command of a captured unit has read (R301): the command, its first element and count, and the values in the order of the
reads. -/
structure CapStep where
  cmd : Cmd
  e0 : Nat
  n : Nat
  vals : List Nat
deriving DecidableEq, Repr

/-- Why a context is out: its module's eviction and its field's drain restore it themselves (R313, R327). -/
inductive OutFor | sernus | evict | drain
deriving DecidableEq, Repr

/-- One launch's members on one core (R119). `switching` says that its switch-out has begun (R277), at `switchAt`; `carved` are the
runs of slice (false) or B-die (true) bytes of its vitrine and park pool (R101); `closed`, `closedLogs` and `closedCmds` are
its members, logged accesses and docent commands at the last close (R306), `dueSent` says that the interval's checkpoint-due entry is
pushed (R303), `trapSince` is when it entered trap mode (R282), `listCount` the length of its step list; `want` and `written` are the
requests of the present interval (R325). `image` is the image of
a context that is out, with the docent commands that wait for its restore, its lost planes and the reason for which it is out;
`retireAge` is then how long it has retired nothing (R282), and `savedDq` is its decision queue with what its entries wait for (R125), at the
last close `closedDq`. `origin` is the core whose slice holds its vitrine and park pool (R101), `closeCore` the core on which it stood at the
last close; `listHome` is the assignment core of the member whose TMMA read its list, with the list's length, and both at the last close in
`closedList`. -/
structure Ctx where
  number : Nat
  desc : Vector DescBits 6
  stackSize : Nat
  vwFirst : Nat
  vwCount : Nat
  trapEntry : Word
  route : BitVec 16
  cells : Nat
  grant : Nat
  gangs : List Nat
  credit : Rat
  lastMark : Nat
  lastRetire : Nat
  switching : Bool
  switchAt : Nat
  isOut : Bool
  req : Nat
  archived : Bool
  interval : Nat
  escaped : Bool
  unlogged : Bool
  lastClose : Nat
  carved : List (Bool × Nat × Nat)
  closed : List (Nat × Member)
  closedLogs : List (Nat × Access × LogEntry)
  closedCmds : List (Nat × Cmd)
  dueSent : Bool
  trapSince : Nat
  listCount : Nat
  want : Nat
  written : Bool
  image : List Byte
  savedCmds : List (Nat × Cmd)
  lost : List Nat
  outFor : OutFor
  retireAge : Nat := 0
  savedDq : List DqEntry := []
  closedDq : List DqEntry := []
  origin : Nat := 0
  closeCore : Nat := 0
  listHome : Nat := 0
  closedList : Nat × Nat := (0, 0)
deriving DecidableEq, Repr

/-- The running program of a docent (R225, R227). A captured unit counts the bytes of its capture (`room`), what it has written by
engine order, and the counters and accumulators at its start (R301). -/
structure Program where
  cmd : Nat
  pc : Nat
  ending : Bool
  yielded : Bool
  steps : List Nat
  captured : Bool
  room : Nat
  written : List (Nat × List Byte)
  start : List Word × List (List Word)
  planes : List Plane × List PlaneState := ([], [])
  views : List ViewBits := []
  inputs : List CapStep := []
deriving DecidableEq, Repr

/-- Engines of a core (R207 to R231); `owner` is the launch whose context holds the array (R221), `listHome` the assignment core of the member
whose TMMA has read the list in docent memory (R225, R230). -/
structure Engines where
  nextOrder : Nat
  cmds : Tab Cmd
  owner : Option Nat
  parts : List Plane
  partState : List PlaneState
  accs : List (List Word)
  docMem : List Word64
  loops : List Word
  listAddr : Word64
  listLaunch : Option Nat
  prog : Option Program
  listHome : Nat := 0
  docPoison : List Nat := []
deriving DecidableEq, Repr

/-- An instruction of a member that has entered E1 and retires when it leaves E4 (R297): the cycle of that, its launch, its energy
category (none for the commands of the engines, which their units charge) and its width code (R299). -/
structure Retiring where
  cycle : Nat
  launch : Nat
  cat : Option Nat
  width : Nat
deriving DecidableEq, Repr

/-- A core unit (R112 to R125, R179, R181, R188, R276). `swappedIn` holds the cycle in which a gang last came in (R115). -/
structure CoreUnit where
  cyc : Nat
  ticks : Nat
  pipe : List Nat
  views : Tab ViewBits
  clauses : List ClauseEntry
  codeLines : List Nat
  tlb : List TlbEntry
  ahead : List TlbEntry
  walks : Tab Walk
  lines : List (Nat × Nat × Nat)
  dq : List DqEntry
  dqWaiters : List Nat
  curatorOf : Option Nat
  affClass : Option Nat
  affTimer : Nat
  yielded : List Nat
  active : List Nat
  lastIssued : Tab Nat
  swapping : Option (Nat × Nat)
  transfers : List Transfer
  issue : Option Issue
  log : Tab LogEntry
  stopName : Nat
  outbound : Tab Cont
  energy : Word64
  eng : Engines
  quarantined : Bool
  retiring : List Retiring := []
  swappedIn : Tab Nat := []
  /-- Lines whose copies are on the way to the line cache: the name of the line and the load that brings it (R188). -/
  filling : List (Nat × Nat) := []
deriving DecidableEq, Repr

/-- A sequenced vector (R236): 64 entries of 20 bits, in field order. -/
abbrev Vec := List Nat

/-- A compressed stamp (R239). -/
structure Stamp where
  bn : Nat
  entries : List (Nat × Nat)
deriving DecidableEq, Repr

/-- What travels between two fields (R238 to R250); a NACK carries the packet that it refuses (R244). -/
inductive Body
  | write (acc seq blink : Nat) (first : Bool) (st : Stamp)
  | read (acc : Nat) (st : Stamp)
  | response (acc : Nat) (st : Stamp)
  | clock (bn count : Nat) (vec : Vec)
  | baseAck (bn : Nat)
  | query (r : Nat)
  | answer (r s : Nat)
  | nack (refused : Body)
  | beacon (b blink : Nat)
  | beaconAck (b : Nat)
  | finalHorizon (w blink : Nat)
deriving DecidableEq, Repr

/-- A packet in flight between two fields, in one causal generation. -/
structure Pkt where
  src : Nat
  dst : Nat
  gen : Nat
  body : Body
deriving DecidableEq, Repr

/-- A waiting packet or read request at a home, with its decoded vector (R241, R242). -/
structure Waiting where
  src : Nat
  acc : Nat
  seq : Nat
  blink : Nat
  first : Bool
  vec : Vec
deriving DecidableEq, Repr

/-- A beacon that has been applied and waits to be acknowledged (R249): its number, and what the port still held back as it was applied, the
refused packets and the responses that had not left. -/
structure AckDue where
  beacon : Nat
  refused : List Body
  responses : List Nat
deriving DecidableEq, Repr

/-- The bases of one pair, as its sender and its receiver hold them (R239); `rxLast` is the sequence of the last packet of the pair that
has been applied (R241), `acksDue` the beacons that wait for their acknowledgement (R249). -/
structure PairState where
  txBases : Tab Vec
  txCur : Nat
  txCount : Nat
  unacked : List Nat
  rxBases : Tab Vec
  rxCount : Tab Nat
  rxWant : Tab Nat
  lastSent : Nat
  sentAny : Bool
  nacked : List Body
  queryOut : Bool
  beaconAcked : Nat
  frozen : Bool
  dead : Bool
  rxLast : Nat := 0
  acksDue : List AckDue := []
deriving DecidableEq, Repr

/-- States of a field (R312). -/
inductive FieldState | online | draining | drainBlocked | offline | dead
deriving DecidableEq, Repr

/-- A causal port and the other field registers (R93, R236, R247, R312). -/
structure FieldUnit where
  w : Nat
  know : Vec
  horizon : Vec
  pairs : Tab PairState
  stamps : Tab Vec
  early : List Waiting
  pending : List Waiting
  undecoded : List Nat
  gen : Nat
  merges : Nat
  state : FieldState
  spare : Bool
  noRoom : Bool
  accession : Tab Cont
  accAge : Tab Nat
deriving DecidableEq, Repr

/-- A quad's performance step, and the faster step still settling (R324, R326). -/
structure QuadUnit where
  step : Nat
  settling : Option Nat
  spent : Nat
  budget : Word
  idleCyc : Nat := 0
  idleTicks : Nat := 0
deriving DecidableEq, Repr

/-- A bundle of an optics unit (R321, R322, R331). -/
structure Bundle where
  req : BitVec 8
  state : Nat
  fail : BitVec 8
  lock : BitVec 8
  act : BitVec 8
  even : Bool
  thresh : BitVec 13
  auto : BitVec 8
  mon : List (BitVec 16)
  heat : List (BitVec 16)
  waiting : Option (BitVec 8)
  waking : BitVec 8
  parking : BitVec 8
  joining : BitVec 8
  queued : List Nat
  sent : List (Nat × List (Nat × Nat))
  rxAct : BitVec 8
  markers : List (BitVec 8)
  busyUntil : Nat
  wakeAt : Nat := 0
  failAt : Nat := 0
deriving DecidableEq, Repr

/-- An aperture entry (R314). -/
structure Aperture where
  v : Bool
  lost : Bool
  keep : Bool
  atom : Bool
  module : BitVec 6
deriving DecidableEq, Repr

/-- A permitted range (R315). -/
structure Range where
  base : BitVec 36
  v : Bool
  a : Bool
  w : Bool
  rd : Bool
  last : BitVec 36
deriving DecidableEq, Repr

/-- A client-table entry (R320). -/
structure Client where
  job : BitVec 24
  ports : BitVec 8
  db : Bool
  v : Bool
  src : BitVec 128
deriving DecidableEq, Repr

/-- A port to a peer (R317), its circuit and the flits of its pool by channel. -/
structure Port where
  circuit : Option Nat
  pool : Tab Nat
deriving DecidableEq, Repr

/-- A link (R310): how often in a row its acknowledgement has not come, and whether it is dead and so disabled (R311). -/
structure Link where
  replays : Nat
  dead : Bool
deriving DecidableEq, Repr

/-- An archive entry (R304): the line, the time, whose write it is and in which interval, whether it has escaped, the line before the
write, the context's number, and the place of its 288 bytes in the partition. -/
structure ArchEntry where
  line : Nat
  time : Nat
  launch : Nat
  core : Nat
  esc : Bool
  interval : Nat
  old : List Byte
  ctx : Nat := 0
  field : Nat := 0
  pos : Nat := 0
deriving DecidableEq, Repr

/-- A captured work unit (R301). -/
structure Unit301 where
  core : Nat
  launch : Nat
  steps : List Word64
  loops : List Word
  accs : List (List Word)
  size : Nat
  signature : Nat
  at_ : Nat := 0
  planes : List Plane × List PlaneState := ([], [])
  views : List ViewBits := []
  inputs : List CapStep := []
deriving DecidableEq, Repr

/-- A shoot-down in progress (R180, R288): `waits` is its release, and once it has `started` the accesses on their way. -/
structure Shoot where
  seq : Nat
  lo : Nat
  pages : Nat
  asn : Nat
  all : Bool
  member : Nat
  tok : Nat
  waits : List Nat
  started : Bool
deriving DecidableEq, Repr

/-- Where a context image lies (R278): at a physical address, or at a space address under the descriptors of the member that named
it. -/
structure ImgAt where
  phys : Bool
  addr : Nat
  descs : Vector DescBits 6
  core : Nat
  home : Nat
deriving DecidableEq, Repr

/-- Why a context is switched out or restored: by CTXSAVE, CTXLOAD, CKPT or CKPT.RB (R290, R306), by the watchdog with a detail (R282),
by poison (R308), by the quarantine of its core (R302), by the module's eviction (R327) or its field's drain (R313). -/
inductive JobKind
  | save | load | close | rollback
  | watchdog (detail : Nat)
  | poison | quarantine | evict | drain
deriving DecidableEq, Repr

/-- A switch-out or restore that is under way: the context, its image, and the instruction that asked for it. -/
structure Job where
  kind : JobKind
  launch : Nat
  core : Nat
  target : Nat
  image : ImgAt
  member : Nat
  tok : Nat
  dst : Dst
  word : Word64
  restoring : Bool
  status : Word
deriving DecidableEq, Repr

/-- States of the eviction handshake (R327). -/
inductive Evict | idle | quiescing | transferring | draining | released | failed
deriving DecidableEq, Repr

/-- What the module sends outside: to peers, clients, the management bus and Sernus's peers; what an eviction moves to its target is a
context's image with its parked members' records, and the pages (R327). -/
inductive Answer
  | peer (module channel : Nat) (ans : PeerAnswer) (bytes : List Byte)
  | clientAck (port : Nat)
  | clientData (port : Nat) (bytes : List Byte)
  | clientError (port : Nat)
  | spanRead (module channel span idx : Nat) (v : Word)
  | spanStep (module span idx step : Nat)
  | certificate (bytes : List Byte)
  | challenge (bytes : List Byte)
  | measurements (digests : List (List Byte))
  | store (bytes : List Byte)
  | neighbourAsk (module channel span idx : Nat) (face : BitVec 3) (gen : Nat)
  | stepAsk (module channel span idx step : Nat)
  | podArrivals (span k : Nat)
  | moveImage (target launch core : Nat) (image : List Byte) (parked : List (List Byte))
  | movePages (target : Nat) (cells : List Host.Cell)
  | repoint (module target : Nat)
deriving DecidableEq, Repr

/-- A span read that waits for a generation of a local cell (R319). -/
structure SpanWait where
  module : Nat
  channel : Nat
  span : Nat
  linear : Nat
  face : BitVec 3
  gen : Nat
  isStep : Bool
deriving DecidableEq, Repr

/-- The module unit and the module-wide registers. -/
structure ModuleUnit where
  number : Nat
  time : Nat
  launchCount : Nat
  shootSeq : Nat
  shoots : List Shoot
  wdPeriod : Word
  rbase : BitVec 41
  rk : BitVec 4
  rd : Word
  wr : Word
  recBuf : List Record
  rate : BitVec 4
  abuf : BitVec 52
  asize : Word
  mismatch : BitVec 16
  skipped : BitVec 24
  sampled : BitVec 24
  suspect : Option (Nat × Nat × Nat)
  unitCount : Nat
  units : List Unit301
  replay : Option Nat := none
  archEn : Tab (Bool × Word)
  archBase : BitVec 52
  part : Word
  period : Word
  due : List (Nat × Nat)
  archive : List ArchEntry
  allow : Vector Nat 8
  capStep : Nat
  evTarget : BitVec 6
  lrp : Bool
  evict : Evict
  evictAt : Nat
  apertures : Tab Aperture
  ranges : Tab Range
  clients : Tab Client
  clientRanges : Tab Range
  refused : Word
  energyTab : Tab (BitVec 16)
  errCount : Nat
  corrected : Nat
  poison : List Nat
  redirect : List (Nat × Nat)
  group : List Nat
  links : Tab Link
  fenced : List Nat := []
  events : List Nat
  identity : Tab Byte
  minVersion : Nat
  recovery : Bool
  booted : Nat
  measurements : List (List Byte)
  latchOpen : Bool
  latchCycles : Nat := 0
  answers : List Answer
  service : List (Nat × Nat × Nat)
  spanWaits : List SpanWait
  spanPast : List (Nat × Member) := []
  jobs : List Job
  lastQueue : Nat
deriving DecidableEq, Repr

/-- A neighbour read in flight (R20, R350): who reads, of which cell, where it stands. -/
structure NbrRead where
  reader : Nat
  dir : Dir
  face : BitVec 3
  target : Option Nat
  gen : Nat
  arrived : Bool
  value : Option Word
deriving DecidableEq, Repr

/-- Who issues now (the model's own register; log 4): the core, the member, the header, the slot, the word and the clause's
count, whether the guard is off, and whether the group is to wait at this slot with a bubble (R185, R207). -/
structure Cur where
  core : Nat
  member : Nat
  h : Nat
  slot : Nat
  word : Word64
  count : Nat
  off : Bool
  hold : Bool
deriving DecidableEq, Repr

/-- One turn of the machine (log 4): a core issues its next slot for one member, a step of the table happens, Sernus creates a
queue (R77), kills a launch (R92, R281), or clears the redirection of a field (R313); and what the outside does to the module that no
step of the table names: a link's acknowledgement comes (R310), a stored bit error is corrected, or a clause line fails its parity (R307),
a client's request of a kind that the ports do not support comes (R320). -/
inductive Turn
  | issue (core : Nat)
  | happen (i : Instr)
  | createQueue (q : QueueDesc)
  | kill (launch : Nat)
  | clearRedirect (field : Nat)
  | linkAck (link : Nat)
  | corrected
  | clauseParity (core line : Nat)
  | docError (core granule : Nat)
  | clientOther (port : Nat)
  | readStore (first count : Nat)
deriving DecidableEq, Repr

/-- The model's own fields: what happens next, and the counters of free values and keys (log 4, 5, 6). -/
structure Sched where
  turns : List Turn
  drawn : Nat
  nextId : Nat
  free : Nat
  cur : Option Cur
deriving DecidableEq, Repr

/-- The module. -/
structure State where
  mem : Memory
  mod : ModuleUnit
  queues : Tab Queue
  launches : Tab Launch
  ctxs : Tab Ctx
  members : Tab Member
  cores : Tab CoreUnit
  fields : Tab FieldUnit
  quads : Tab QuadUnit
  accs : Tab Access
  nbrs : Tab NbrRead
  pkts : Tab Pkt
  optics : Tab Bundle
  ports : Tab Port
  keepers : Tab (List TlbEntry)
  sched : Sched
deriving DecidableEq, Repr

/-- Why the model stops. Every fault of the manual is a next state (a trap entry, a log entry, a stop with a record); these
stand for terms that the machine never forms. -/
inductive Fault
  /-- Raised by every instruction meaning where no member is issuing, or the issuing member is not listed: the machine issues
  an instruction only for a member. Safe: nothing is claimed of such a state. -/
  | noMember
  /-- Raised by `step` where the word at the issuing slot is not an instruction: the checks of R74 keep such a clause from
  issuing. Safe. -/
  | notAnInstruction
deriving DecidableEq, Repr

/-- Why the model gives no meaning. -/
inductive Refusal
  /-- Raised by the arms of `exec` that have no meaning yet. Safe. -/
  | notModelled (mnemonic : String)
deriving DecidableEq, Repr

/-- The outcome of a step of this machine. -/
abbrev Result := Host.Outcome State Fault Refusal

/-- Turns drawn when nothing is waiting (log 4): which agent of the module moves next is not fixed by the manual. -/
opaque nextTurns : Nat → List Turn

def Engines.reset : Engines :=
  { nextOrder := 0, cmds := [], owner := none, parts := [], partState := [], accs := [], docMem := [], loops := [],
    listAddr := 0, listLaunch := none, prog := none }

/-- A core unit after module reset (R116, R123). -/
def CoreUnit.reset : CoreUnit :=
  { cyc := 0, ticks := 0, pipe := [], views := [], clauses := [], codeLines := [], tlb := [], ahead := [], walks := [],
    lines := [], dq := [], dqWaiters := [], curatorOf := none, affClass := none, affTimer := 0, yielded := [],
    active := [], lastIssued := [], swapping := none, transfers := [], issue := none, log := [], stopName := 0,
    outbound := [], energy := 0, eng := Engines.reset, quarantined := false }

/-- The zero vector (R236). -/
def Vec.zero : Vec := List.replicate 64 0

/-- A pair after a causal reset: only base 0 exists and it is the zero vector (R239). -/
def PairState.reset : PairState :=
  { txBases := [(0, Vec.zero)], txCur := 0, txCount := 0, unacked := [], rxBases := [(0, Vec.zero)], rxCount := [],
    rxWant := [], lastSent := 0, sentAny := false, nacked := [],
    queryOut := false, beaconAcked := 0, frozen := false, dead := false }

/-- A field after module reset (R236, R312). -/
def FieldUnit.reset : FieldUnit :=
  { w := 0, know := Vec.zero, horizon := Vec.zero, pairs := [], stamps := [], early := [], pending := [],
    undecoded := [], gen := 0, merges := 0, state := .online, spare := false, noRoom := false, accession := [],
    accAge := [] }

/-- A quad after module reset: full performance (log 2). -/
def QuadUnit.reset : QuadUnit := { step := 0, settling := none, spent := 0, budget := 0 }

/-- A bundle after module reset (R321). -/
def Bundle.reset : Bundle :=
  { req := 0xFF, state := 0, fail := 0, lock := 0xFF, act := 0xFF, even := false, thresh := 0, auto := 0xFF,
    mon := List.replicate 8 0, heat := List.replicate 8 0, waiting := none, waking := 0, parking := 0, joining := 0,
    queued := [], sent := [], rxAct := 0xFF, markers := [], busyUntil := 0 }

def Port.reset : Port := { circuit := none, pool := [] }
def Link.reset : Link := { replays := 0, dead := false }
def Aperture.reset : Aperture := { v := false, lost := false, keep := false, atom := false, module := 0 }
def Range.reset : Range := { base := 0, v := false, a := false, w := false, rd := false, last := 0 }
def Client.reset : Client := { job := 0, ports := 0, db := false, v := false, src := 0 }

/-- The module unit after module reset (R283, R300, R303, R325, R327). -/
def ModuleUnit.reset : ModuleUnit :=
  { number := 0, time := 0, launchCount := 1, shootSeq := 0, shoots := [], wdPeriod := 100000, rbase := 0, rk := 0,
    rd := 0, wr := 0, recBuf := [], rate := 10, abuf := 0, asize := 0, mismatch := 0, skipped := 0, sampled := 0,
    suspect := none, unitCount := 0, units := [], archEn := [], archBase := 0, part := 0, period := 20000, due := [],
    archive := [], allow := Vector.replicate 8 7, capStep := 0, evTarget := 0, lrp := false, evict := .idle, evictAt := 0,
    apertures := [], ranges := [], clients := [], clientRanges := [], refused := 0, energyTab := [], errCount := 0,
    corrected := 0, poison := [], redirect := [], group := [], links := [], events := [],
    identity := [(4, 0x4B), (5, 0x4A), (6, 0x36), (7, 0x30), (8, 0x57), (9, 0x2D), (10, 0x41)], minVersion := 0,
    recovery := false, booted := 0, measurements := [], latchOpen := false, answers := [], service := [],
    spanWaits := [], jobs := [], lastQueue := 0 }

def Sched.reset : Sched := { turns := [], drawn := 0, nextId := 0, free := 0, cur := none }

/-- The machine right after reset: no queue, no launch, every register at its reset value. -/
def State.reset : State :=
  { mem := [], mod := ModuleUnit.reset, queues := [], launches := [], ctxs := [], members := [], cores := [],
    fields := [], quads := [], accs := [], nbrs := [], pkts := [], optics := [], ports := [], keepers := [], sched := Sched.reset }

end Sys2Proof.Machine
end

