-- ==== Sys2Proof/Machine/Ops.lean ====
section
/-!
DEFINITION. The named operations that every meaning uses: tables, memory, the units of the module, members and issue
groups, tokens, records, taking an exception (R272) and returning from it (R286).
-/
namespace Sys2Proof.Machine

/-! ## Tables -/

def tabGet {α : Type} : Tab α → Nat → Option α
  | [], _ => none
  | (j, v) :: r, k => if j = k then some v else tabGet r k

def tabPut {α : Type} : Tab α → Nat → α → Tab α
  | [], k, v => [(k, v)]
  | (j, w) :: r, k, v =>
    if k < j then (k, v) :: (j, w) :: r else if k = j then (k, v) :: r else (j, w) :: tabPut r k v

def tabDrop {α : Type} : Tab α → Nat → Tab α
  | [], _ => []
  | (j, w) :: r, k => if j = k then r else (j, w) :: tabDrop r k

/-- The entry under a key changed, if it is there. -/
def tabUpd {α : Type} (t : Tab α) (k : Nat) (f : α → α) : Tab α :=
  match tabGet t k with
  | some v => tabPut t k (f v)
  | none => t

def tabAny {α : Type} (t : Tab α) (p : Nat → α → Bool) : Bool := t.any fun e => p e.1 e.2

/-- The lowest number below `n` from `i` on that is no key of the table. -/
def firstFree {α : Type} (t : Tab α) : Nat → Nat → Nat
  | 0, i => i
  | n + 1, i => if (tabGet t i).isSome then firstFree t n (i + 1) else i

/-- The element of a list that is best under a strict order. -/
def bestBy {α : Type} (lt : α → α → Bool) : List α → Option α
  | [] => none
  | x :: r =>
    match bestBy lt r with
    | none => some x
    | some y => if lt y x then some y else some x

/-- Insertion into a list sorted by a strict order, after equals. -/
def insertBy {α : Type} (lt : α → α → Bool) (x : α) : List α → List α
  | [] => [x]
  | y :: r => if lt x y then x :: y :: r else y :: insertBy lt x r

/-- A stable sort. -/
def sortBy {α : Type} (lt : α → α → Bool) (l : List α) : List α := l.foldl (fun acc x => insertBy lt x acc) []

/-- Lexicographic order on lists of numbers. -/
def lexLt : List Int → List Int → Bool
  | [], [] => false
  | [], _ => true
  | _, [] => false
  | a :: r, b :: t => if a = b then lexLt r t else a < b

/-! ## Memory -/

/-- Addresses strictly rising from `lo`, no entry equal to the unlisted byte. -/
def memWfFrom (lo : Nat) : Memory → Bool
  | [] => true
  | (a, b) :: r => lo ≤ a && b != unlistedByte && memWfFrom (a + 1) r

/-- The canonical form of memory. -/
def Memory.wf (m : Memory) : Bool := memWfFrom 0 m

/-- The byte at an address. -/
def memRead : Memory → Nat → Byte
  | [], _ => unlistedByte
  | (a, b) :: r, x => if x = a then b else memRead r x

/-- A byte listed at its place. -/
def memPut : Memory → Nat → Byte → Memory
  | [], x, v => [(x, v)]
  | (a, b) :: r, x, v => if x < a then (x, v) :: (a, b) :: r else if x = a then (x, v) :: r else (a, b) :: memPut r x v

/-- An address listed no more. -/
def memErase : Memory → Nat → Memory
  | [], _ => []
  | (a, b) :: r, x => if x = a then memErase r x else (a, b) :: memErase r x

/-- A write of one byte; the byte that unlisted addresses read as removes the entry. -/
def memWrite (m : Memory) (x : Nat) (v : Byte) : Memory := if v = unlistedByte then memErase m x else memPut m x v

def memReadN (m : Memory) (a : Nat) : Nat → List Byte
  | 0 => []
  | n + 1 => memRead m a :: memReadN m (a + 1) n

def memWriteN (m : Memory) (a : Nat) : List Byte → Memory
  | [] => m
  | b :: r => memWriteN (memWrite m a b) (a + 1) r

/-- Little-endian bytes of a number (R4). -/
def bytesOf : Nat → Nat → List Byte
  | 0, _ => []
  | n + 1, v => BitVec.ofNat 8 (v % 256) :: bytesOf n (v / 256)

/-- The number that little-endian bytes hold (R4). -/
def natOfBytes : List Byte → Nat
  | [] => 0
  | b :: r => b.toNat + 256 * natOfBytes r

/-! ## Units of the module (R1, R2) -/

/-- Fields 0, 7, 56 and 63 do not exist (R2). -/
def fieldExists (f : Nat) : Bool := f < 64 && f != 0 && f != 7 && f != 56 && f != 63

def coreExists (g : Nat) : Bool := g < 4096 && fieldExists (g / 64)
/-- The field of a core (R2). -/
def fieldOf (core : Nat) : Nat := core / 64
/-- The quad of a core within its field, and its number in the module (R2, R134). -/
def quadOf (core : Nat) : Nat := core % 64 / 4
def globalQuad (core : Nat) : Nat := core / 4

/-- The service cores: quad 0 of fields 3 and 60 (R97). -/
def isService (core : Nat) : Bool := (fieldOf core == 3 || fieldOf core == 60) && quadOf core == 0

def fieldIds : List Nat := (List.range 64).filter fieldExists
/-- The cores of a field in rising order. -/
def coresOf (f : Nat) : List Nat := (List.range 64).map (f * 64 + ·)

/-- Where a pa lies (R167). -/
inductive Region
  | slice (core : Nat)
  | bdie (core : Nat)
  | doorbell (queue : Nat)
  | hbm (stack : Nat)
  | nothing
deriving DecidableEq, Repr

/-- The region of a module-local physical address (R167, R168). -/
def regionOf (pa : Nat) : Region :=
  if pa < 0x100000000 then (if coreExists (pa / 0x100000) then .slice (pa / 0x100000) else .nothing)
  else if pa < 0x500000000 then
    (if coreExists ((pa - 0x100000000) / 0x400000) then .bdie ((pa - 0x100000000) / 0x400000) else .nothing)
  else if 0x600000000 ≤ pa && pa < 0x610000000 then .doorbell ((pa - 0x600000000) / 0x1000)
  else if 0x800000000000 ≤ pa && pa < 0x81E000000000 then .hbm ((pa - 0x800000000000) / 256 % 40)
  else .nothing

def sliceBase (core : Nat) : Nat := core * 0x100000
def bdieBase (core : Nat) : Nat := 0x100000000 + core * 0x400000

/-- The home fields of the HBM4 stacks, in stack order (R168). -/
def stackFields : List Nat :=
  [1, 2, 2, 3, 3, 4, 4, 5, 5, 6, 15, 23, 23, 31, 31, 39, 39, 47, 47, 55] ++
  [62, 61, 61, 60, 60, 59, 59, 58, 58, 57, 48, 40, 40, 32, 32, 24, 24, 16, 16, 8]

def quadAt (s : State) (q : Nat) : QuadUnit := (tabGet s.quads q).getD QuadUnit.reset
def updQuad (s : State) (q : Nat) (g : QuadUnit → QuadUnit) : State :=
  { s with quads := tabPut s.quads q (g (quadAt s q)) }

/-- A core that nothing has touched yet: as after reset, but for its clock, which its quad keeps (R123). -/
def idleCore (s : State) (g : Nat) : CoreUnit :=
  { CoreUnit.reset with cyc := (quadAt s (globalQuad g)).idleCyc, ticks := (quadAt s (globalQuad g)).idleTicks }

def coreAt (s : State) (g : Nat) : CoreUnit := (tabGet s.cores g).getD (idleCore s g)
def setCore (s : State) (g : Nat) (u : CoreUnit) : State := { s with cores := tabPut s.cores g u }
def updCore (s : State) (g : Nat) (f : CoreUnit → CoreUnit) : State := setCore s g (f (coreAt s g))

def fieldAt (s : State) (f : Nat) : FieldUnit := (tabGet s.fields f).getD FieldUnit.reset
def updField (s : State) (f : Nat) (g : FieldUnit → FieldUnit) : State :=
  { s with fields := tabPut s.fields f (g (fieldAt s f)) }

def updMod (s : State) (g : ModuleUnit → ModuleUnit) : State := { s with mod := g s.mod }

def memberAt (s : State) (id : Nat) : Option Member := tabGet s.members id
def updMember (s : State) (id : Nat) (f : Member → Member) : State := { s with members := tabUpd s.members id f }

/-- The key of one launch's context on one core (R119). -/
def ctxKey (launch core : Nat) : Nat := launch * 4096 + core
def ctxAt (s : State) (launch core : Nat) : Option Ctx := tabGet s.ctxs (ctxKey launch core)
def updCtx (s : State) (launch core : Nat) (f : Ctx → Ctx) : State :=
  { s with ctxs := tabUpd s.ctxs (ctxKey launch core) f }

def launchAt (s : State) (l : Nat) : Option Launch := tabGet s.launches l
def updLaunch (s : State) (l : Nat) (f : Launch → Launch) : State := { s with launches := tabUpd s.launches l f }
def updQueue (s : State) (q : Nat) (f : Queue → Queue) : State := { s with queues := tabUpd s.queues q f }
def updAcc (s : State) (a : Nat) (f : Access → Access) : State := { s with accs := tabUpd s.accs a f }

def updPair (s : State) (f d : Nat) (g : PairState → PairState) : State :=
  updField s f fun u => { u with pairs := tabPut u.pairs d (g ((tabGet u.pairs d).getD PairState.reset)) }
def pairAt (s : State) (f d : Nat) : PairState := (tabGet (fieldAt s f).pairs d).getD PairState.reset

/-- A fresh key for a member, access, record or read (log 5). -/
def freshId (s : State) : Nat × State :=
  (s.sched.nextId, { s with sched := { s.sched with nextId := s.sched.nextId + 1 } })

/-- The number of the next free value (log 6). -/
def drawFree (s : State) : Nat × State :=
  (s.sched.free, { s with sched := { s.sched with free := s.sched.free + 1 } })

/-- A field whose ranges accesses reach no more: forced offline or dead (R310, R313). -/
def fieldGone (s : State) (f : Nat) : Bool :=
  match (fieldAt s f).state with
  | .offline | .dead => true
  | _ => false

/-- The size of the pieces in which the ranges of a drained field are redirected (R313; log 10). -/
def pieceSize : Nat := 0x100000

/-- The physical byte that serves an address: a drained field's slices and B-dies are served from their copies (R313). -/
def physOf (s : State) (pa : Nat) : Nat :=
  match tabGet s.mod.redirect (pa / pieceSize) with
  | some b => b + pa % pieceSize
  | none => pa

/-- Whether a run of bytes lies in one piece of memory as it stands. -/
def oneRun (s : State) (pa n : Nat) : Bool := pa % pieceSize + n ≤ pieceSize || s.mod.redirect.isEmpty

/-- The runs of physical bytes that serve a run of addresses: start, offset in the run, and length. -/
def runsOf (s : State) (pa n : Nat) : List (Nat × Nat × Nat) :=
  if oneRun s pa n then [(physOf s pa, 0, n)]
  else (List.range ((pa + n - 1) / pieceSize + 1 - pa / pieceSize)).map fun i =>
    let lo := max pa ((pa / pieceSize + i) * pieceSize)
    let hi := min (pa + n) ((pa / pieceSize + i + 1) * pieceSize)
    (physOf s lo, lo - pa, hi - lo)

/-- The home field of a physical address (R96); the copy of a drained field is homed where it lies. -/
def homeField (s : State) (pa : Nat) : Option Nat :=
  match regionOf (physOf s pa) with
  | .slice c | .bdie c => some (fieldOf c)
  | .doorbell _ => some 3
  | .hbm k => stackFields[k]?
  | .nothing => none

/-- Whether memory answers at an address (R167, R310, R313). -/
def holdsMemory (s : State) (pa : Nat) : Bool :=
  match regionOf (physOf s pa) with
  | .slice c | .bdie c => !fieldGone s (fieldOf c)
  | .hbm k => (fieldAt s (stackFields.getD k 1)).state != .dead
  | _ => false

def readByte (s : State) (pa : Nat) : Byte := memRead s.mem (physOf s pa)
def readBytes (s : State) (pa n : Nat) : List Byte :=
  if oneRun s pa n then memReadN s.mem (physOf s pa) n
  else (runsOf s pa n).flatMap fun r => memReadN s.mem r.1 r.2.2
/-- A little-endian number of `n` bytes in physical memory. -/
def readNat (s : State) (pa n : Nat) : Nat := natOfBytes (readBytes s pa n)

/-- The clause-cache lines that hold an address are invalidated by a store to it (R112). -/
def dropClauses (lo n : Nat) (u : CoreUnit) : CoreUnit :=
  if u.codeLines.any (fun l => lo / 64 ≤ l && l ≤ (lo + n - 1) / 64) then
    { u with
      clauses := u.clauses.filter fun e => !e.lines.any fun l => lo / 64 ≤ l && l ≤ (lo + n - 1) / 64
      codeLines := u.codeLines.filter fun l => !(lo / 64 ≤ l && l ≤ (lo + n - 1) / 64) }
  else u

/-- A write of a run of bytes to physical memory: the bytes change, covered clause lines are invalidated, and a granule
written whole is no longer poisoned (R112, R308). -/
def writeBytes (s : State) (pa : Nat) (bytes : List Byte) : State :=
  let rs := runsOf s pa bytes.length
  { s with
    mem := rs.foldl (fun m r => memWriteN m r.1 ((bytes.drop r.2.1).take r.2.2)) s.mem
    cores := s.cores.map fun e => (e.1, rs.foldl (fun u r => dropClauses r.1 r.2.2 u) e.2)
    mod := { s.mod with poison := s.mod.poison.filter fun g => !rs.any fun r => r.1 ≤ g && g + 8 ≤ r.1 + r.2.2 } }

/-- Whether a run of bytes meets a poisoned granule (R308). -/
def isPoisoned (s : State) (pa n : Nat) : Bool :=
  (runsOf s pa n).any fun r => s.mod.poison.any fun g => g < r.1 + r.2.2 && r.1 < g + 8

/-! ## Segment descriptors (R164) -/

def Desc.base (d : DescBits) : Nat := (d.extractLsb' 0 64).toNat
def Desc.limit (d : DescBits) : Nat := (d.extractLsb' 64 32).toNat
def Desc.space (d : DescBits) : Nat := (d.extractLsb' 96 4).toNat
def Desc.v (d : DescBits) : Bool := d.getLsbD 100
def Desc.r (d : DescBits) : Bool := d.getLsbD 101
def Desc.w (d : DescBits) : Bool := d.getLsbD 102
def Desc.x (d : DescBits) : Bool := d.getLsbD 103
def Desc.o (d : DescBits) : Nat := (d.extractLsb' 104 2).toNat
def Desc.pol (d : DescBits) : Nat := (d.extractLsb' 106 2).toNat
def Desc.asn (d : DescBits) : Nat := (d.extractLsb' 112 16).toNat

/-- Whether descriptor `n` may hold these bits (R164, R167): SPACE, reserved bits, order 11, the ASN outside VIRT, the
alignment of the root table, and the size of the slice or B-die. -/
def Desc.legal (n : Nat) (d : DescBits) : Bool :=
  d.extractLsb' 108 4 == 0#4 && Desc.o d != 3 &&
  (if n == 5 then Desc.space d == 2 || Desc.space d == 4 else Desc.space d == n) &&
  (n == 4 || Desc.asn d == 0) &&
  (n != 4 || Desc.base d % 64 == 0) &&
  (if n == 0 || n == 1 then Desc.base d + Desc.limit d ≤ 0x100000
   else if n == 3 then Desc.base d + Desc.limit d ≤ 0x400000 else true)

/-- Order attributes by code (R164, R174). -/
def orderAttr (o : Nat) : OrderAttr :=
  if o == 0 then .strong else if o == 1 then .release else .unordered

/-! ## Page tables and translation (R173 to R177) -/

/-- What an access needs of descriptor and leaf, and whether it is refused where remote atomics are (R172, R177). -/
structure Need where
  r : Bool
  w : Bool
  x : Bool
  atomic : Bool
  /-- A fetch under a VIRT descriptor without X (R347). -/
  noX : Bool := false
deriving DecidableEq, Repr

def Need.load : Need := { r := true, w := false, x := false, atomic := false }
def Need.store : Need := { r := false, w := true, x := false, atomic := false }
def Need.atom : Need := { r := true, w := true, x := false, atomic := true }
/-- SWAIT asks R only (R200). -/
def Need.swait : Need := { r := true, w := false, x := false, atomic := true }
def Need.fetch : Need := { r := false, w := false, x := true, atomic := false }
/-- SPAWN and MIGRATE need a valid translation only (R95, R110). -/
def Need.none : Need := { r := false, w := false, x := false, atomic := false }

/-- A translated access. -/
structure Resolved where
  tgt : Target
  attr : OrderAttr
  pol : Nat
deriving DecidableEq, Repr

/-- The outcome of the checks of an address: where it goes, a held cause (1 to 4), or a delivered cause with its detail. -/
inductive Tr
  | ok (r : Resolved)
  | held (c : Nat)
  | bad (cause detail : Nat)
deriving DecidableEq, Repr

/-- The fields of a page-table entry (R174). -/
def Pte.v (e : Nat) : Bool := natBit e 0
def Pte.r (e : Nat) : Bool := natBit e 1
def Pte.w (e : Nat) : Bool := natBit e 2
def Pte.x (e : Nat) : Bool := natBit e 3
def Pte.g (e : Nat) : Bool := natBit e 5
def Pte.a (e : Nat) : Bool := natBit e 6
def Pte.d (e : Nat) : Bool := natBit e 7
def Pte.span (e : Nat) : Bool := natBit e 8
def Pte.o (e : Nat) : Nat := natBits e 9 2
def Pte.rap (e : Nat) : Bool := natBit e 11
def Pte.pol (e : Nat) : Nat := natBits e 12 2
/-- The physical address of the page or next table. -/
def Pte.addr (e : Nat) : Nat := natBits e 14 36 * 4096
def Pte.ap (e : Nat) : Nat := natBits e 52 6
def Pte.isPointer (e : Nat) : Bool := !Pte.r e && !Pte.w e && !Pte.x e
def Pte.reservedBits (e : Nat) : Bool := natBits e 58 6 != 0 || natBits e 50 2 != 0 || natBit e 4

/-- The lowest index bit of a level (R173). -/
def levelShift : Nat → Nat
  | 0 => 57 | 1 => 48 | 2 => 39 | 3 => 30 | 4 => 21 | _ => 12

/-- The address of the entry of a level. -/
def pteAddr (table level va : Nat) : Nat :=
  table + 8 * natBits va (levelShift level) (if level == 0 then 3 else 9)

/-- Whether a leaf is malformed at a level (R174). -/
def leafMalformed (level e : Nat) : Bool :=
  level ≤ 1 || (Pte.w e && !Pte.r e) || Pte.o e == 3 || Pte.reservedBits e ||
  (Pte.span e && level != 5 && level != 3) || Pte.addr e % 2 ^ levelShift level != 0

/-- What a walk finds: a leaf with its offset bits, an absent entry, or a malformed one. -/
inductive Walked
  | leaf (e bits : Nat)
  | absent
  | malformed
deriving DecidableEq, Repr

/-- An entry as a walker reads it: those of the service cores ignore bits 62 to 52 (R174). -/
def Pte.seen (svc : Bool) (e : Nat) : Nat := if svc then e % 2 ^ 52 + natBits e 63 1 * 2 ^ 63 else e

/-- The leaf of a span group that an access uses (R175): its own where the group agrees, else a free choice among the entries;
it is read as one page of the group's size. An entry with V = 0 is a page that is not present (R177); a pointer is malformed
(log 62). -/
def spanLeaf (s : State) (svc : Bool) (choice table level va e : Nat) : Walked :=
  let k := if level == 5 then 4 else 2
  let sh := levelShift level
  let base := table + 8 * (natBits va sh 9 / 2 ^ k * 2 ^ k)
  let es := (List.range (2 ^ k)).map fun i => Pte.seen svc (readNat s (base + 8 * i) 8)
  let i := natBits va sh 9 % 2 ^ k
  let agree := es.zipIdx.all fun p => p.1 + i * 2 ^ (sh + 2) == e + p.2 * 2 ^ (sh + 2)
  let c := if agree then e else es.getD (choice % 2 ^ k) e
  if !Pte.v c then .absent
  else if !Pte.isPointer c && !leafMalformed level c then .leaf c (sh + k) else .malformed

/-- A walk from a table at a level (R173, R174). An entry that lies where no memory is reads 0, so that its page is not present
(log 68). -/
def walkFrom (s : State) (svc : Bool) (choice va : Nat) : Nat → Nat → Nat → Walked
  | 0, _, _ => .malformed
  | fuel + 1, level, table =>
    let e := Pte.seen svc (readNat s (pteAddr table level va) 8)
    if !Pte.v e then .absent
    else if Pte.isPointer e then
      if level == 5 || Pte.reservedBits e || Pte.span e then .malformed
      else walkFrom s svc choice va fuel (level + 1) (Pte.addr e)
    else if leafMalformed level e then .malformed
    else if Pte.span e then spanLeaf s svc choice table level va e
    else .leaf e (levelShift level)

/-- A walk of the six levels from the root table at physical address `root`. -/
def walkTables (s : State) (svc : Bool) (root va : Nat) : Walked :=
  walkFrom s svc (Config.freeChoice s.sched.free) va 6 0 root

/-- The table entries that a walk reads (R173). -/
def walkPath (s : State) (svc : Bool) (va : Nat) : Nat → Nat → Nat → List Nat
  | 0, _, _ => []
  | fuel + 1, level, table =>
    let a := pteAddr table level va
    let e := Pte.seen svc (readNat s a 8)
    a :: (if Pte.v e && Pte.isPointer e then walkPath s svc va fuel (level + 1) (Pte.addr e) else [])

/-- Whether an eviction is under way (R327 states 1 to 4): no packet is accepted, and no context comes in. -/
def evicting (s : State) : Bool := s.mod.evict != .idle && s.mod.evict != .failed

/-- Whether a module has been declared dead and is fenced (R311). -/
def isFenced (s : State) (module : Nat) : Bool := s.mod.fenced.contains module

/-- Whether an aperture reaches no module: it is marked lost, or its module is outside the connected group (R314, R318). -/
def Aperture.lostNow (s : State) (t : Aperture) : Bool :=
  t.lost || !(t.module.toNat == s.mod.number || s.mod.group.contains t.module.toNat)

/-- The physical address a leaf gives. -/
def leafPa (e bits va : Nat) : Nat := Pte.addr e / 2 ^ bits * 2 ^ bits + va % 2 ^ bits

/-- Steps 3 to 5 of R177 on a leaf: permission, aperture, A and D. -/
def checkLeaf (s : State) (need : Need) (e bits va : Nat) : Tr :=
  if (need.r && !Pte.r e) || (need.w && !Pte.w e) || (need.x && (!Pte.x e || need.noX)) then .bad 0x06 0
  else
    let ap := Pte.ap e
    let t := (tabGet s.mod.apertures ap).getD Aperture.reset
    if ap != 0 && need.atomic && !Pte.rap e then .bad 0x07 ap
    else if ap != 0 && !t.v then .bad 0x06 2
    else if ap != 0 && t.lostNow s then .bad 0x09 ap
    else if !Pte.a e then .held 2
    else if need.w && !Pte.d e then .held 3
    else if ap != 0 then .ok { tgt := .peer ap (leafPa e bits va), attr := orderAttr (Pte.o e), pol := Pte.pol e }
    else if !holdsMemory s (leafPa e bits va) && (match regionOf (leafPa e bits va) with | .doorbell _ => false | _ => true)
    then .bad 0x06 1
    else .ok { tgt := .loc (leafPa e bits va), attr := orderAttr (Pte.o e), pol := Pte.pol e }

/-- Whether a TLB entry serves an address under an ASN (R179). -/
def TlbEntry.hits (t : TlbEntry) (asn va : Nat) : Bool :=
  va / 2 ^ t.bits == t.va / 2 ^ t.bits && (Pte.g t.leaf.toNat || t.asn == asn)

/-- The entry of a TLB that an access may use: one with D = 0 never serves a store or atomic (R176). -/
def tlbFind (l : List TlbEntry) (asn va : Nat) (need : Need) : Option TlbEntry :=
  l.find? fun t => t.hits asn va && (Pte.d t.leaf.toNat || !need.w)

/-- Translation of a virtual address (R177). A miss walks the tables and leaves a walk in flight whose fill comes later, if
one of the walker's four walks is free (R179, R180); a leaf with A = 0 is never filled (R176). -/
def translateVirt (s : State) (core : Nat) (ahead : Bool) (root asn : Nat) (need : Need) (va : Nat) : Tr × State :=
  let u := coreAt s core
  match tlbFind (if ahead then u.ahead else u.tlb) asn va need with
  | some t => (checkLeaf s need t.leaf.toNat t.bits va, s)
  | none =>
    match walkTables s (isService core) root va with
    | .absent => (.held 1, s)
    | .malformed => (.bad 0x06 2, s)
    | .leaf e bits =>
      let (_, s1) := drawFree s
      let entry : TlbEntry := { va := va / 2 ^ bits * 2 ^ bits, bits := bits, asn := asn, leaf := BitVec.ofNat 64 e }
      let (id, s2) := freshId s1
      let w : Walk := { ahead := ahead, tag := s.mod.shootSeq, root := root, asn := asn, va := va, entry := some entry }
      let s3 := if Pte.a e && u.walks.length < 4 then
          updCore s2 core fun v => { v with walks := tabPut v.walks id w }
        else s2
      (checkLeaf s need e bits va, s3)

/-- Steps 4 and 5 of R172 on a space address: segment, then translation, under segment descriptors. `home` is the assignment
core (CELL), `core` the core where the access issues. -/
def resolveIn (s : State) (descs : Vector DescBits 6) (core home : Nat) (ahead : Bool) (need : Need) (addr : Word64)
    (size : Nat) : Tr × State :=
  let sp := addr.toNat / 2 ^ 60
  let off := addr.toNat % 2 ^ 60
  if sp > 4 then (.bad 0x03 sp, s)
  else
    let d := descs.toList.getD sp 0
    if !Desc.v d || (sp != 4 && off + size > Desc.limit d) then (.bad 0x03 sp, s)
    else if (need.r && !Desc.r d) || (need.w && !Desc.w d) then (.bad 0x06 0, s)
    else if sp == 4 then translateVirt s core ahead (Desc.base d) (Desc.asn d) need off
    else
      let pa :=
        if sp == 0 then sliceBase home + Desc.base d + off
        else if sp == 1 then sliceBase core + Desc.base d + off
        else if sp == 2 then Desc.base d + off
        else bdieBase core + Desc.base d + off
      if (sp == 2 && (match regionOf pa with | .slice _ => false | _ => true)) || !holdsMemory s pa then
        (.bad 0x06 1, s)
      else (.ok { tgt := .loc pa, attr := orderAttr (Desc.o d), pol := Desc.pol d }, s)

/-- The checks under a context's present descriptors. -/
def resolve (s : State) (ctx : Ctx) (core home : Nat) (ahead : Bool) (need : Need) (addr : Word64) (size : Nat) :
    Tr × State := resolveIn s ctx.desc core home ahead need addr size

/-- a ≤ b in serial order (R237). -/
def serLe (a b : Nat) : Bool := (b + 2 ^ 20 - a) % 2 ^ 20 < 2 ^ 19
def serMax (a b : Nat) : Nat := if serLe a b then b else a

/-- The later value of each entry of two vectors; the empty vector asks for nothing. -/
def joinVec (a b : List Nat) : List Nat :=
  if a.isEmpty then b else if b.isEmpty then a else (a.zip b).map fun p => serMax p.1 p.2

/-- The sequence of a packet (R238). -/
def Body.seq : Body → Option Nat
  | .write _ seq _ _ _ => some seq
  | .nack b => b.seq
  | _ => none

/-- The sequenced packets that have left their ports and are not applied: their origins and sequences. -/
def openPackets (s : State) : List (Nat × Nat) :=
  (s.pkts.filterMap fun e => match e.2.body with
    | .write _ n _ _ _ => some (e.2.src, n)
    | .nack b => b.seq.map fun n => (e.2.dst, n)
    | _ => none) ++
  s.fields.flatMap fun e =>
    (e.2.early.map fun w => (w.src, w.seq)) ++
    e.2.pairs.flatMap fun p => p.2.nacked.filterMap fun b => b.seq.map fun n => (e.1, n)

/-- Every sequenced packet up to a vector has been applied at its home. -/
def applied (s : State) (v : List Nat) : Bool :=
  v.isEmpty || (openPackets s).all fun p => !serLe p.2 (v.getD p.1 0)


/-! ## The archive log (R304, R305) -/

/-- The 256-byte lines of a run of bytes. -/
def linesOf (pa n : Nat) : List Nat := (List.range ((pa + n + 255) / 256 - pa / 256)).map fun i => (pa / 256 + i) * 256

/-- Where the entry at a position of a field's partition lies (R303, R304). -/
def archAddr (s : State) (f pos : Nat) : Nat :=
  s.mod.archBase.toNat * 4096 + f * s.mod.part.toNat * 4096 + 288 * pos

/-- The 288 bytes of an archive entry (R304). -/
def archBytes (e : ArchEntry) : List Byte :=
  bytesOf 8 e.line ++ bytesOf 6 e.time ++ bytesOf 2 e.core ++ bytesOf 1 e.ctx ++ bytesOf 1 (boolNat e.esc) ++ bytesOf 2 0 ++
  bytesOf 4 e.interval ++ bytesOf 8 0 ++ e.old

/-- A party other than the contexts that logged a line touches it: they have escaped (R305). -/
def touchLines (s : State) (who : Option (Nat × Nat)) (pa n : Nat) : State :=
  let hit (e : ArchEntry) : Bool := who != some (e.launch, e.core) && (linesOf pa n).contains e.line
  let s1 := (s.mod.archive.filter hit).foldl
    (fun t e => updCtx t e.launch e.core fun c => if c.interval == e.interval then { c with escaped := true } else c) s
  let s2 := (s.mod.archive.filter hit).foldl (fun t e => writeBytes t (archAddr t e.field e.pos + 17) (bytesOf 1 1)) s1
  updMod s2 fun m => { m with archive := m.archive.map fun e => if hit e then { e with esc := true } else e }

/-- The entries of a field's partition, and how many it holds (R303): 288 bytes each (R304). -/
def archOf (s : State) (f : Nat) : List ArchEntry := s.mod.archive.filter fun e => e.field == f
def archRoom (s : State) (f : Nat) : Bool := (archOf s f).length < s.mod.part.toNat * 4096 / 288

/-- The lowest place of a partition that holds no entry: where an entry goes the manual leaves open (log 47). -/
def archPos (s : State) (f : Nat) : Nat :=
  let l := archOf s f
  ((List.range (l.length + 1)).find? fun n => !l.any fun e => e.pos == n).getD 0

/-- An I/O event is raised (R291). -/
def raiseEvent (s : State) (unit : Nat) : State :=
  updMod s fun m => { m with events := m.events ++ [unit] }

/-- Codes of the units that raise events: the module unit is 0, the optics unit of fibre f is 1 + f. -/
def moduleEvent : Nat := 0

/-- A detected error that nothing corrects: the module unit's error count rises and an I/O event is raised (R308). -/
def countError (s : State) : State := raiseEvent (updMod s fun m => { m with errCount := m.errCount + 1 }) moduleEvent

/-- The home logs an archived context's first write of an interval to a line, before it is performed (R304); a full partition marks the
context unlogged. -/
def logLine (s : State) (launch core line : Nat) : State :=
  match ctxAt s launch core with
  | none => s
  | some c =>
    let f := (homeField s line).getD 0
    if !c.archived ||
      s.mod.archive.any (fun e => e.launch == launch && e.core == core && e.interval == c.interval && e.line == line) then s
    else if archRoom s f then
      let e : ArchEntry :=
        { line := line, time := s.mod.time % 2 ^ 48, launch := launch, core := core, esc := false, interval := c.interval,
          old := readBytes s line 256, ctx := c.number, field := f, pos := archPos s f }
      updMod (writeBytes s (archAddr s f e.pos) (archBytes e)) fun m => { m with archive := m.archive ++ [e] }
    else raiseEvent (updCtx s launch core fun c => { c with unlogged := true, escaped := true }) moduleEvent

/-- The lines of a run of bytes that a context writes are logged. -/
def logRun (s : State) (launch core pa n : Nat) : State := (linesOf pa n).foldl (fun t x => logLine t launch core x) s

/-- Copies of written lines are withdrawn from the line caches of other cores before the write is performed, those on their way among
them (R188). -/
def withdrawLines (s : State) (who : Option (Nat × Nat)) (pa n : Nat) : State :=
  let ls := linesOf pa n
  { s with cores := s.cores.map fun e =>
      if who.map (·.2) == some e.1 || !(e.2.lines.any (fun l => ls.contains l.1) || e.2.filling.any fun l => ls.contains l.1) then e
      else (e.1, { e.2 with lines := e.2.lines.filter fun l => !ls.contains l.1
                            filling := e.2.filling.filter fun l => !ls.contains l.1 }) }

/-- A write of memory at its home: other parties' logged lines escape, copies are withdrawn, the line is logged, the bytes are written
(R112, R188, R304, R305, R308). -/
def storeAt (s : State) (who : Option (Nat × Nat)) (pa : Nat) (bytes : List Byte) : State :=
  let s1 := withdrawLines (touchLines s who pa bytes.length) who pa bytes.length
  let s2 := match who with
    | some (l, c) => logRun s1 l c pa bytes.length
    | none => s1
  writeBytes s2 pa bytes

/-! ## Stamps of lines (R236, R246) -/

/-- The stamp that a local write records for its line: the vector it was checked against, with the field's own entry (R246). -/
def ownStamp (s : State) (f : Nat) : Vec :=
  let u := fieldAt s f
  u.know.zipIdx.map fun p => if p.2 == f then u.w else p.1

/-- The stamp cache holds 256 lines; which line gives way is left open (R236; log 6). -/
def putStamp (s : State) (f line : Nat) (v : Vec) : State :=
  let u := fieldAt s f
  if u.stamps.length < 256 || (tabGet u.stamps line).isSome then
    updField s f fun u => { u with stamps := tabPut u.stamps line v }
  else
    let (n, s1) := drawFree s
    updField s1 f fun u =>
      { u with stamps := tabPut (tabDrop u.stamps ((u.stamps.getD (Config.freeChoice n % 256) (0, [])).1)) line v }

/-- The lines of a run of bytes take a stamp (R236, R241, R246). -/
def putStamps (s : State) (f pa n : Nat) (v : Vec) : State := (linesOf pa n).foldl (fun t l => putStamp t f l v) s

/-- A store of the core for a member to its CELL space, at a physical address that the checks have given: a trap record or a resume
record (R140, R272). On a strong region its lines take the stamp of its field (R246). -/
def memberStore (s : State) (m : Member) (pa : Nat) (bytes : List Byte) : State :=
  let s1 := storeAt s (some (m.launch, m.core)) pa bytes
  let strong := ((ctxAt s m.launch m.core).map fun c => Desc.o (c.desc.toList.getD 0 0) == 0).getD false
  match homeField s pa with
  | some f => if strong && f == fieldOf m.core then putStamps s1 f pa bytes.length (ownStamp s1 f) else s1
  | none => s1

/-! ## Code (R59, R347) -/

/-- Code word indices count modulo 2^57: a byte offset has 60 bits (R11; log 11). -/
def wrapIdx (i : Int) : Nat := (i % (2 ^ 57 : Nat)).toNat

/-- Whether the header word at an index lies inside the code segment (R347). -/
def codeInside (ctx : Ctx) (i : Nat) : Bool := 8 * i + 8 ≤ Desc.limit (ctx.desc.toList.getD 5 0)

/-- Resolution of a code word (R347, steps 1, 2 and 4): its physical address, or the failure. The space is the one that SPACE names; a
code base with a reserved space code is invalid (R163; log 62). -/
def resolveCode (s : State) (ctx : Ctx) (core i : Nat) : Tr × State :=
  let d := ctx.desc.toList.getD 5 0
  if !Desc.v d || !codeInside ctx i || Desc.base d / 2 ^ 60 > 4 then (.bad 0x03 5, s)
  else if !Desc.x d then (.bad 0x06 0, s)
  else
    let a := Desc.base d % 2 ^ 60 + 8 * i
    if Desc.space d == 4 then
      let v := ctx.desc.toList.getD 4 0
      if !Desc.v v then (.bad 0x03 4, s)
      else translateVirt s core false (Desc.base v) (Desc.asn v) { Need.fetch with noX := !Desc.x v } (a % 2 ^ 60)
    else if (match regionOf a with | .slice _ => holdsMemory s a | _ => false) then
      (.ok { tgt := .loc a, attr := .strong, pol := 0 }, s)
    else (.bad 0x06 1, s)

/-- The code word at an index, where it resolves to memory of this module. -/
def codeWord (s : State) (ctx : Ctx) (core i : Nat) : Option Word64 :=
  match (resolveCode s ctx core i).1 with
  | .ok { tgt := .loc pa, .. } => some (BitVec.ofNat 64 (readNat s pa 8))
  | _ => none

/-! ## Members and registers (R11) -/

def Regs.getG (r : Regs) (n : BitVec 6) : Word := r.g[n.toNat]'n.isLt
def Regs.setG (r : Regs) (n : BitVec 6) (v : Word) : Regs := { r with g := r.g.set n.toNat v n.isLt }
def Regs.getF (r : Regs) (n : BitVec 3) : Word := r.f[n.toNat]'n.isLt
def Regs.setF (r : Regs) (n : BitVec 3) (v : Word) : Regs := { r with f := r.f.set n.toNat v n.isLt }
/-- p7 reads true (R11). -/
def Regs.getP (r : Regs) (n : BitVec 3) : Bool := n == 7 || r.p.getLsbD n.toNat
/-- Writes to p7 are discarded (R11). -/
def Regs.setP (r : Regs) (n : BitVec 3) (v : Bool) : Regs :=
  if n == 7 then r
  else { r with p := (r.p &&& ~~~(1#7 <<< n.toNat)) ||| (if v then 1#7 <<< n.toNat else 0) }
/-- The pair g(n), g(n+1) of an even n (R36). -/
def Regs.pair (r : Regs) (n : BitVec 6) : Word64 := r.getG (n + 1) ++ r.getG n
/-- Registers g(n) to g(n+k−1). -/
def Regs.block (r : Regs) (n : BitVec 6) (k : Nat) : List Word :=
  (List.range k).map fun i => r.getG (n + BitVec.ofNat 6 i)
/-- Registers from n on set to a list of words. -/
def Regs.setBlock (r : Regs) (n : BitVec 6) : List Word → Regs
  | [] => r
  | v :: l => (r.setG n v).setBlock (n + 1) l

/-- The slot code of %slot (R134). -/
def slotCode (m : Member) : Nat :=
  match m.place with
  | .slot n => n
  | .annex n => 0x4000 + n
  | .tailSlot n => 0x8000 + n
  | .curatorSlot => 0xC000
  | _ => 0

/-- WHO of a record (R181): slot code and context number. -/
def whoOf (s : State) (m : Member) : Word :=
  BitVec.ofNat 32 (slotCode m + 0x10000 * ((ctxAt s m.launch m.core).map (·.number)).getD 0)

/-- The count of a token code: 0 to 5 tokens, 6 the drain count (R185). -/
def tokCount (m : Member) (code : Nat) : Nat := if code < 6 then m.tok.toList.getD code 0 else m.drain

def Member.setTok (m : Member) (code v : Nat) : Member :=
  if h : code < 6 then { m with tok := m.tok.set code v h } else { m with drain := v }

/-- No token has an outstanding instruction and the drain count is 0 (R185). -/
def drained (m : Member) : Bool := m.tok.toList.all (· == 0) && m.drain == 0

/-- No token has an outstanding instruction (R105). -/
def tokensClear (m : Member) : Bool := m.tok.toList.all (· == 0)

/-- A token that the header's wait mask names has an outstanding instruction (R58). -/
def maskWaits (m : Member) (hw : Word64) : Bool := (List.range 6).any fun i => hw.getLsbD (46 + i) && tokCount m i != 0

/-- A fetched clause of a launch at a header. -/
def clauseOf (u : CoreUnit) (launch h : Nat) : Option ClauseEntry := u.clauses.find? fun e => e.launch == launch && e.h == h

/-- The cycle in which the last instruction of its clause that a member has issued has left E4 (R113, R120). -/
def Member.leavesE4 (m : Member) : Nat := (m.entered.map fun e => e.2 + 4).foldl max m.clear

/-- The member leaves its clause: its next one waits until the instructions of this one have left E4 (R61, R113). -/
def Member.leftClause (m : Member) : Member := { m with clear := m.leavesE4, entered := [] }

/-- A member whose launch still runs it: not departed, ended or killed. -/
def isLive (m : Member) : Bool := m.place != .gone

/-- A grid cell, task cell in released mode and so on (R140). -/
def releasedMode (m : Member) : Bool := m.rd != 0
def isTail (m : Member) : Bool := m.kind == .tail
def isCurator (m : Member) : Bool := m.kind == .curator
/-- A cell or task cell. -/
def isCell (m : Member) : Bool := m.kind == .grid || m.kind == .task

/-- The live tails that a member released (R142). -/
def liveTails (s : State) (id : Nat) : List (Nat × Member) :=
  s.members.filter fun e => e.2.kind == .tail && e.2.releaser == some id && isLive e.2

/-- The live tails whose hold top lies above a value written to g63; raising g63 never joins (R143). -/
def joinSet (s : State) (id : Nat) (v : Word) : List Nat :=
  match memberAt s id with
  | none => []
  | some m =>
    if (m.r.getG 63).toNat < v.toNat then []
    else ((liveTails s id).filter fun e => v.toNat < e.2.holdTop.toNat).map (·.1)

/-- A write of a register; g63 may bring a frame join (R143). -/
def writeG (s : State) (id : Nat) (n : BitVec 6) (v : Word) : State :=
  let js := if n == 63 then joinSet s id v else []
  updMember s id fun m => { m with r := m.r.setG n v, joinTails := m.joinTails ++ js }

/-- A write of a register pair, low word first (R36). -/
def writePair (s : State) (id : Nat) (n : BitVec 6) (v : Word64) : State :=
  writeG (writeG s id n (v.extractLsb' 0 32)) id (n + 1) (v.extractLsb' 32 32)

/-! ## Issue groups (R117) -/

/-- A member leaves the group that is issuing. -/
def dropFromGroup (id : Nat) (u : CoreUnit) : CoreUnit :=
  { u with issue := u.issue.map fun g =>
      { g with members := g.members.filter (· != id), todo := g.todo.filter (· != id) } }

/-- A member leaves its group at a slot with a wait; its position is that slot (R117). -/
def leaveGroup (s : State) (id slot : Nat) (w : Wait) : State :=
  match memberAt s id with
  | none => s
  | some m =>
    let u := coreAt s m.core
    updMember (setCore s m.core (dropFromGroup id u)) id fun m =>
      { m with slot := slot, wait := w, next := none, readySince := u.cyc }

/-- The member waits no more; its wait count starts now (R115). -/
def wake (s : State) (id : Nat) : State :=
  match memberAt s id with
  | none => s
  | some m => updMember s id fun m' => { m' with wait := .ready, readySince := (coreAt s m.core).cyc }

/-! ## Records (R273, R283) -/

/-- The time that a record holds: the low 48 bits of %time (R273). -/
def recTime (s : State) (core : Nat) : Nat := (coreAt s core).ticks % 2 ^ 48

/-- A record reaches the module buffer (R283). -/
def sendRecord (s : State) (r : Record) : State := updMod s fun m => { m with recBuf := m.recBuf ++ [r] }

/-- The module buffer behind the ring holds 16 records (R283). -/
def recordRoom (old new : State) : Bool := new.mod.recBuf.length ≤ max 16 old.mod.recBuf.length

/-- The flags of a record: fetch-stage, asynchronous, tail, curator (R273). -/
def recFlags (m : Member) (fi : FaultInfo) : Nat :=
  boolNat fi.fetchStage + 2 * boolNat fi.async + 4 * boolNat (isTail m) + 8 * boolNat (isCurator m)

/-- The record of a fault at a member's position (R273). -/
def faultRecord (s : State) (m : Member) (fi : FaultInfo) (cause detail : Nat) : Record :=
  { word := fi.word, addr := fi.addr, pc := BitVec.ofNat 32 m.pc, slot := fi.slot, cause := cause, pred := m.r.p,
    detail := BitVec.ofNat 32 detail, gsave := m.r.block 0 4, lat := m.lat.toList, time := recTime s m.core,
    flags := recFlags m fi,
    from_ := match fi.from_ with | some f => BitVec.ofNat 32 f | none => 0xFFFFFFFF,
    who := whoOf s m, extra := 0, engine := fi.engine }

/-- An asynchronous fault waits for its member's next clause boundary; a member that has left sends its record to Sernus (R212,
R270). -/
def queueFault (s : State) (id : Nat) (fi : FaultInfo) : State :=
  match memberAt s id with
  | none => s
  | some m =>
    if m.place == .gone || m.wait == .inactive then sendRecord s (faultRecord s m fi fi.cause fi.detail)
    else updMember s id fun v => { v with async := v.async ++ [fi] }

/-- A record that no member's fault makes: only cause, detail and the image, packet or element address (R283). -/
def plainRecord (cause detail addr time : Nat) : Record :=
  { word := 0, addr := BitVec.ofNat 64 addr, pc := 0, slot := 0, cause := cause, pred := 0,
    detail := BitVec.ofNat 32 detail, gsave := [0, 0, 0, 0], lat := [0, 0, 0, 0], time := time % 2 ^ 48, flags := 0,
    from_ := 0xFFFFFFFF, who := 0, extra := 0 }

/-- The 128 bytes of a record (R273); RESUME and TARGET are written 0. -/
def recordBytes (r : Record) : List Byte :=
  bytesOf 8 r.word.toNat ++ bytesOf 8 r.addr.toNat ++ bytesOf 4 r.pc.toNat ++ bytesOf 1 (r.slot % 16) ++
  bytesOf 1 r.cause ++ bytesOf 1 0 ++ bytesOf 1 r.pred.toNat ++ bytesOf 4 r.detail.toNat ++ bytesOf 4 0 ++
  (r.gsave.map fun w => bytesOf 4 w.toNat).flatten ++ (r.lat.map fun w => bytesOf 8 w.toNat).flatten ++
  bytesOf 6 r.time ++ bytesOf 1 r.flags ++ bytesOf 1 0 ++ bytesOf 4 r.from_.toNat ++ bytesOf 4 r.who.toNat ++
  bytesOf 8 r.extra.toNat ++ bytesOf 24 0

/-! ## Taking an exception (R272 to R275) -/

/-- The latches of a member that goes on in the middle of a clause after a fault or switch are lost (R60, R75): free values (log 6). -/
def loseLatches (s : State) (id : Nat) : State :=
  let n := s.sched.free
  updMember { s with sched := { s.sched with free := n + 8 } } id fun m =>
    { m with lat := Vector.ofFn fun i => Config.freeWord (n + 2 * i.val) ++ Config.freeWord (n + 2 * i.val + 1) }

/-- The member stops, with the fault kept for a disposition of Sernus (R274, R276). -/
def stopMember (s : State) (id : Nat) (fi : FaultInfo) : State :=
  updMember (leaveGroup s id fi.slot .stopped) id fun m => { m with stopRec := some fi }

/-- A record goes to Sernus and the member stops. -/
def stopWithRecord (s : State) (id : Nat) (m : Member) (fi : FaultInfo) (cause detail : Nat) : State :=
  stopMember (sendRecord s (faultRecord s m fi cause detail)) id fi

/-- The context's trap entry and route mask (R271); none of a context that is not listed. -/
def trapEntryOf (s : State) (m : Member) : Word := ((ctxAt s m.launch m.core).map (·.trapEntry)).getD 0xFFFFFFFF
def isRouted (s : State) (m : Member) (cause : Nat) : Bool :=
  ((ctxAt s m.launch m.core).map (·.route.getLsbD cause)).getD false || trapEntryOf s m == 0xFFFFFFFF

/-- The address of the trap record (R272). -/
def trapAddr (m : Member) : Nat := (((m.r.getG 63).toNat + 2 ^ 32 - 128) % 2 ^ 32) / 16 * 16

/-- The check of the record's write in the CELL segment: the failed check's cause, if any (R272). -/
def trapWriteFails (s : State) (m : Member) : Option Nat :=
  match ctxAt s m.launch m.core with
  | none => some 0x03
  | some c =>
    let d := c.desc.toList.getD 0 0
    if !Desc.v d || trapAddr m + 128 > Desc.limit d then some 0x03
    else if !Desc.w d then some 0x06
    else if !holdsMemory s (sliceBase m.home + Desc.base d + trapAddr m) then some 0x06
    else none

/-- The physical address of a CELL offset of a member. -/
def cellPa (s : State) (m : Member) (off : Nat) : Nat :=
  sliceBase m.home + Desc.base (((ctxAt s m.launch m.core).map (·.desc.toList.getD 0 0)).getD 0) + off

/-- Registers after trap entry: g63, g0 and g1 locate the record, g2 and g3 hold cause and detail (R272). -/
def trapRegs (r : Regs) (a : Word) (cause detail : Nat) : Regs :=
  ((((r.setG 63 a).setG 0 a).setG 1 0).setG 2 (BitVec.ofNat 32 cause)).setG 3 (BitVec.ofNat 32 detail)

/-- Whether a member of a context is in trap mode. -/
def ctxTrapped (s : State) (launch core : Nat) : Bool :=
  s.members.any fun e => e.2.launch == launch && e.2.core == core && e.2.trapMode && isLive e.2

/-- Time in trap mode counts toward no watchdog limit (R282): it begins when the first member enters. -/
def beginTrapTime (s : State) (m : Member) : State :=
  if ctxTrapped s m.launch m.core then s else updCtx s m.launch m.core fun c => { c with trapSince := s.mod.time }

/-- And it ends when the last member has left. -/
def endTrapTime (s : State) (m : Member) : State :=
  if ctxTrapped s m.launch m.core then s
  else updCtx s m.launch m.core fun c =>
    let d := s.mod.time - c.trapSince
    { c with lastMark := min s.mod.time (c.lastMark + d), lastRetire := min s.mod.time (c.lastRetire + d) }

/-- Entry of the handler: the record is written, the registers point at it, trap mode is set, and the member is ready at the
handler's first slot (R272). A TRAP is a transfer from its clause (R63, R75). A park, a move or a frame join that the clause has asked for
waits for the clause's own end (R108, R110, R143). -/
def enterHandler (s : State) (id : Nat) (m : Member) (fi : FaultInfo) : State :=
  let a := BitVec.ofNat 32 (trapAddr m)
  let s1 := memberStore (beginTrapTime s m) m (cellPa s m (trapAddr m)) (recordBytes (faultRecord s m fi fi.cause fi.detail))
  updMember (leaveGroup s1 id 0 .ready) id fun m =>
    { m with r := trapRegs m.r a fi.cause fi.detail, trapMode := true, trapRec := a, pc := (trapEntryOf s m).toNat,
             cameFrom := if fi.cause == 0x0E then some m.pc else none, lat := Vector.replicate 4 0, nbrVals := [],
             clear := m.leavesE4, entered := [], parkWish := false, moveTo := none, joinTails := [],
             put := { park := m.parkWish, move := m.moveTo, joins := m.joinTails } }

/-- A delivered fault that is not routed (R272): a DoubleFault in trap mode, without room for the record, or where the
record's write fails; otherwise entry of the handler. -/
def deliverFault (s : State) (id : Nat) (m : Member) (fi : FaultInfo) : State :=
  if m.trapMode then stopWithRecord s id m fi 0x20 fi.cause
  else if trapAddr m < m.stackBase || (m.r.getG 63).toNat < 128 then stopWithRecord s id m fi 0x20 0x0C
  else
    match trapWriteFails s m with
    | some c => stopWithRecord s id m fi 0x20 c
    | none => enterHandler s id m fi

/-- Taking an exception (R272): in trap mode a DoubleFault; routed, the member stops and Sernus receives a Routed record
(R275); otherwise it is delivered. -/
def takeFault (s : State) (id : Nat) (fi : FaultInfo) : State :=
  match memberAt s id with
  | none => s
  | some m =>
    if m.trapMode then deliverFault s id m fi
    else if isRouted s m fi.cause then stopWithRecord s id m fi 0x26 fi.cause
    else deliverFault s id m fi

/-- Delivery of an operand-log entry or of a stopped member's fault: ROUTE is not consulted; without a handler the member
stops and Sernus receives a Routed record whose DETAIL has bit 8 set (R276). -/
def deliverEntry (s : State) (id : Nat) (fi : FaultInfo) : State :=
  match memberAt s id with
  | none => s
  | some m =>
    if !m.trapMode && trapEntryOf s m == 0xFFFFFFFF then stopWithRecord s id m fi 0x26 (fi.cause + 256)
    else deliverFault s id m fi

/-- A synchronous fault at the issuing slot. -/
def issueFault (k : Cur) (cause detail : Nat) (addr : Word64) : FaultInfo :=
  { cause := cause, detail := detail, word := k.word, addr := addr, fetchStage := false, async := false, slot := k.slot,
    from_ := none }

/-- The issuing member takes a synchronous fault at its slot (R75, R270). -/
def trap (s : State) (k : Cur) (cause detail : Nat) (addr : Word64 := 0) : State :=
  takeFault s k.member (issueFault k cause detail addr)

/-- The instruction word at a member's slot, as its core has fetched it. -/
def wordAtSlot (s : State) (m : Member) : Word64 :=
  match clauseOf (coreAt s m.core) m.launch m.pc with
  | some e => e.words.getD (m.slot + 1) 0
  | none => ((ctxAt s m.launch m.core).bind fun c => codeWord s c m.core (m.pc + 1 + m.slot)).getD 0

/-- A synchronous fault of a member that stands at its slot outside an issuing group. -/
def slotFault (s : State) (m : Member) (cause detail : Nat) (addr : Word64) : FaultInfo :=
  { cause := cause, detail := detail, word := wordAtSlot s m, addr := addr, fetchStage := false, async := false, slot := m.slot,
    from_ := none }

/-! ## Clause boundaries -/

/-- What a member waits for at a clause boundary (R110, R118, R143): its move, the tails of a frame join, its park, or nothing. A cell
that has become a released context is not parkable (R140). -/
def Member.boundaryWait (m : Member) (tails : List Nat) : Wait :=
  match m.moveTo with
  | some (c, a) => .drain (.migrate c a)
  | none =>
    if !tails.isEmpty then .frameJoin tails else if m.parkWish && !releasedMode m then .drain .park else .ready

/-- The tails of a frame join that still live (R143). -/
def openJoins (s : State) (m : Member) : List Nat :=
  m.joinTails.filter fun t => ((memberAt s t).map isLive).getD false

/-- A member stands at a clause boundary: the next clause waits for what the ended ones left (R113); the tails of a frame join are
kept until it has ended (R110, R143). -/
def settle (s : State) (id : Nat) : State :=
  match memberAt s id with
  | none => s
  | some m => updMember s id fun v =>
      { v with wait := m.boundaryWait (openJoins s m), joinTails := openJoins s m, readySince := (coreAt s m.core).cyc }

/-! ## Return from a trap (R286) -/

/-- The position after a clause's slot: the next slot, or the fall-through (R286). Where the header cannot be read here, as on a peer, the
slot that follows is named, and the pick finds whether the clause has one (PICK). -/
def nextPos (s : State) (m : Member) (pc slot : Nat) : Nat × Nat :=
  match (ctxAt s m.launch m.core).bind fun c => codeWord s c m.core pc with
  | some w => if slot ≥ (w.extractLsb' 56 4).toNat then (wrapIdx (pc + (w.extractLsb' 56 4).toNat + 2), 0) else (pc, slot + 1)
  | none => (pc, slot + 1)

/-- The return from a trap, once the member has drained (R286). What the clause that it came from has asked for at its end is owed again, and
acts at once where no slot of it is left (R108, R110, R143). -/
def returnFromTrap (s : State) (id : Nat) : State :=
  match memberAt s id with
  | none => s
  | some m =>
    let b := readBytes s (cellPa s m m.trapRec.toNat) 128
    let field (o n : Nat) : Nat := natOfBytes ((b.drop o).take n)
    let pc := field 16 4
    let slot := field 20 1 % 16
    let fl := field 86 1
    let resume := field 22 1
    let r0 := m.r.setBlock 0 ((List.range 4).map fun i => BitVec.ofNat 32 (field (32 + 4 * i) 4))
    let r1 := { (r0.setG 63 (BitVec.ofNat 32 (m.trapRec.toNat + 128))) with p := BitVec.ofNat 7 (field 23 1) }
    if resume == 3 then
      stopWithRecord (updMember s id fun v => { v with r := r1 }) id { m with r := r1 } (slotFault s m 0x01 m.slot 0) 0x20 0x01
    else
      let pos :=
        if resume == 1 then (if natBit fl 0 then (pc, 0) else nextPos s m pc slot)
        else if resume == 2 then (field 28 4, 0)
        else (pc, if natBit fl 0 || natBit fl 1 then 0 else slot)
      let inside := pos.1 == pc && pos.2 > 0
      let lat := if inside then (Vector.range 4).map fun i => BitVec.ofNat 64 (field (48 + 8 * i) 8)
        else Vector.replicate 4 0
      let s1 := updMember s id fun m =>
        { m.leftClause with r := r1, pc := pos.1, slot := pos.2, lat := lat, trapMode := false, trapRec := 0,
                            cameFrom := some m.pc, parkWish := m.parkWish || m.put.park, moveTo := m.moveTo.or m.put.move,
                            joinTails := m.joinTails ++ m.put.joins, put := {} }
      endTrapTime (if pos.2 == 0 then settle s1 id else wake s1 id) m

/-- The end of an ERET whose member has drained: where its record finds no room, the member waits (R283, R286). -/
def endEret (s : State) (id : Nat) : State :=
  let t := returnFromTrap s id
  if recordRoom s t then t else s

/-! ## Tokens (R185) -/

/-- One instruction more is outstanding under a token code. -/
def tokInc (s : State) (id code : Nat) : State :=
  updMember s id fun m => m.setTok code (tokCount m code + 1)

/-- Whether a member becomes ready as a token's last instruction completes: the wait mask of its next clause names that token (R58,
R113). -/
def maskClears (s : State) (m : Member) (code : Nat) : Bool :=
  m.wait == .ready && m.slot == 0 && code < 6 && tokCount m code == 0 &&
  (clauseOf (coreAt s m.core) m.launch m.pc).any fun e => (e.words.getD 0 0).getLsbD (46 + code)

/-- An instruction under a token code has completed; a member that waits to return from its trap does so when it has
drained (R118, R286), and the wait of a candidate whose mask clears counts from now (R115). -/
def tokDec (s : State) (id code : Nat) : State :=
  let s1 := updMember s id fun m => m.setTok code (tokCount m code - 1)
  match memberAt s1 id with
  | some m =>
    if m.wait == .drain .eret && drained m then endEret s1 id
    else if maskClears s1 m code then wake s1 id
    else s1
  | none => s1

end Sys2Proof.Machine
end

