-- ==== Sys2Proof/Machine/Operands.lean ====
section
/-!
DEFINITION. Operands: constants, immediates, registers, faces, latches and neighbour faces (R14, R20, R64 to R66, R350), the
issue-stage checks that operand and destination forms bring with them (R17, R25, R27, R36, R94, R140), and leaving the
group at a neighbour read (R117).
-/
namespace Sys2Proof.Machine

/-- The type in which a position is read (R66, R126). -/
inductive Ty
  | w32
  | w64
  | f32
  | packed (bf : Bool)
deriving DecidableEq, Repr

/-- The constants (R65). -/
def constBits (c : BitVec 4) : Word :=
  match c.toNat with
  | 0 => 0x00000000 | 1 => 0x00000001 | 2 => 0xFFFFFFFF | 3 => 0x00000002
  | 4 => 0x3F000000 | 5 => 0x3F800000 | 6 => 0x40000000 | 7 => 0xBF800000
  | 8 => 0x40800000 | 9 => 0x3E800000 | 10 => 0x3FB8AA3B | 11 => 0x3F317218
  | 12 => 0x40490FDB | 13 => 0x3EA2F983 | 14 => 0x7F800000 | _ => 0x80000000

/-- A constant in a position: sign-extended where 64 bits are read (R65). -/
def constOf (t : Ty) (c : BitVec 4) : Word64 :=
  if t == .w64 then (constBits c).signExtend 64 else (constBits c).zeroExtend 64

/-- The exactly equal value of a small integer in a floating format (R66). -/
def immFloat (f : FFmt) (i : BitVec 8) : Nat := f.round .rne i.msb i.toInt.natAbs 0

/-- An immediate in a position (R66). -/
def immOf (t : Ty) (i : BitVec 8) : Word64 :=
  match t with
  | .w32 => (i.signExtend 32).zeroExtend 64
  | .w64 => i.signExtend 64
  | .f32 => BitVec.ofNat 64 (if i == 0 then 0 else immFloat .fp32 i)
  | .packed bf => BitVec.ofNat 64 (if i == 0 then 0 else immFloat (.packed bf) i * 65537)

/-- The step count of a cell: its completed steps are generations 1 to `done` (R19). -/
def pubAt (m : Member) (gen : Nat) (f : BitVec 3) : Word :=
  (if gen % 2 == 0 then m.pub0 else m.pub1)[f.toNat]'f.isLt

/-! ## Directions and edges (R13 to R15) -/

/-- The linear index of a coordinate (R13). -/
def linearOf (g : Nat × Nat × Nat) (c : Nat × Nat × Nat) : Nat := c.1 + g.1 * (c.2.1 + g.2.1 * c.2.2)

/-- One axis: the coordinate named, or none where the edge reads as zero (R14). Policy 0 ZERO, 1 CLAMP, 2 WRAP (R83). -/
def axisOf (extent policy x : Nat) (up : Bool) : Option Nat :=
  if up then
    if x + 1 < extent then some (x + 1)
    else if policy == 0 then none else if policy == 1 then some x else some 0
  else if 0 < x then some (x - 1)
  else if policy == 0 then none else if policy == 1 then some x else some (extent - 1)

/-- The coordinate that a direction names (R14). -/
def nbrCoord (g : Nat × Nat × Nat) (edges : Nat) (c : Nat × Nat × Nat) : Dir → Option (Nat × Nat × Nat)
  | .w => (axisOf g.1 (edges % 4) c.1 false).map fun x => (x, c.2.1, c.2.2)
  | .e => (axisOf g.1 (edges % 4) c.1 true).map fun x => (x, c.2.1, c.2.2)
  | .n => (axisOf g.2.1 (edges / 4 % 4) c.2.1 false).map fun y => (c.1, y, c.2.2)
  | .s => (axisOf g.2.1 (edges / 4 % 4) c.2.1 true).map fun y => (c.1, y, c.2.2)
  | .l => (axisOf g.2.2 (edges / 16 % 4) c.2.2 false).map fun z => (c.1, c.2.1, z)
  | .h => (axisOf g.2.2 (edges / 16 % 4) c.2.2 true).map fun z => (c.1, c.2.1, z)

def allDirs : List Dir := [.w, .e, .n, .s, .l, .h]

/-- The linear index that a direction names for a cell of a launch (R14). -/
def nbrLinear (l : Launch) (m : Member) (d : Dir) : Option Nat :=
  (nbrCoord l.pkt.grid l.pkt.edges m.coord d).map (linearOf l.pkt.grid)

/-- The neighbour set: the distinct other cells that any direction names (R15). -/
def nbrSet (l : Launch) (m : Member) : List Nat :=
  (allDirs.filterMap (nbrLinear l m)).eraseDups.filter (· != m.linear)

/-- The cell of a launch with a linear index; departed cells stay listed until the launch completes (R23). -/
def cellAt (s : State) (launch lin : Nat) : Option (Nat × Member) :=
  s.members.find? fun e => e.2.kind == .grid && e.2.launch == launch && e.2.linear == lin

/-- The generation that a read of a cell returns to a reader that has completed `g` steps (R20). -/
def readGen (d : Member) (g : Nat) : Nat := if d.departed then min g d.done else g

/-- Whether a cell can serve generation `g` (R20). -/
def published (d : Member) (g : Nat) : Bool := d.departed || g ≤ d.done

/-- Where a cell's vitrine entry lies (R18, R101): 64 bytes in the area that its context has carved for it in the slice of its assignment core.
A migrated cell commits at its annex core, where no area is carved for it (R111). -/
def vitrineEntry (s : State) (m : Member) : Option Nat :=
  match ctxAt s m.launch m.core with
  | some c => if c.origin == m.home then (c.carved.head?).map fun r => sliceBase m.home + r.2.1 + 64 * m.index else none
  | none => none

/-- The granule of a cell's vitrine entry that holds both slots of a face (R18, R278). -/
def faceSlot (s : State) (m : Member) (f : BitVec 3) : Option Nat := (vitrineEntry s m).map fun pa => physOf s (pa + 8 * f.toNat)

/-- Whether a read of a cell's face meets poison (R308). -/
def faceBad (s : State) (m : Member) (f : BitVec 3) : Bool := (faceSlot s m f).any s.mod.poison.contains

/-- What a neighbour operand gives at its slot (R20, R350). -/
inductive NbrNow
  | value (v : Word)
  | waits (target : Option Nat) (arrived : Bool)
deriving DecidableEq, Repr

/-- A neighbour operand of a member (R20, R350): ZERO edges, the cell itself and published values of the core's own vitrine
are served in the operand read; a value that has already travelled is taken; every other read leaves the group, one that meets poison too
(R308). The vitrine entry of a cell stays on its home core where its context comes back on another (R313; log 62). -/
def nbrNow (s : State) (m : Member) (d : Dir) (f : BitVec 3) : NbrNow :=
  match m.nbrVals.find? fun e => e.1 == d && e.2.1 == f with
  | some e => .value e.2.2
  | none =>
    match launchAt s m.launch with
    | none => .value 0
    | some l =>
      match nbrLinear l m d with
      | none => .value 0
      | some lin =>
        if lin == m.linear then
          if faceBad s m f then .waits ((cellAt s m.launch lin).map (·.1)) true else .value (pubAt m m.done f)
        else
          match cellAt s m.launch lin with
          | none => .waits none false
          | some (id, t) =>
            let here := t.home == m.core && t.core == t.home
            if here && published t m.done && !faceBad s t f then .value (pubAt t (readGen t m.done) f)
            else .waits (some id) here

/-! ## Reading -/

/-- An operand read: a value, or a neighbour read that leaves the group. -/
inductive Rd
  | val (v : Word64)
  | away (d : Dir) (f : BitVec 3) (target : Option Nat) (arrived : Bool)
deriving DecidableEq, Repr

/-- The operand of a specifier (R64). A 64-bit g operand is a pair. A latch whose result has 32 bits reads zero above them in a 64-bit
position (R60; log 62). -/
def readSrc (s : State) (m : Member) (t : Ty) : Src → Rd
  | .g n => .val (if t == .w64 then m.r.pair n else (m.r.getG n).zeroExtend 64)
  | .face f => .val ((m.r.getF f).zeroExtend 64)
  | .latch b =>
    let v := m.lat[b.toNat]'b.isLt
    .val (if t == .w64 then v else (v.extractLsb' 0 32).zeroExtend 64)
  | .const c => .val (constOf t c)
  | .imm i => .val (immOf t i)
  | .nbr d f =>
    match nbrNow s m d f with
    | .value v => .val (v.zeroExtend 64)
    | .waits tg a => .away d f tg a

/-- All operands of a form, or the first neighbour read that leaves the group. -/
def readAll (s : State) (m : Member) : List (Ty × Src) → List Word64 → Rd ⊕ List Word64
  | [], acc => .inr acc.reverse
  | (t, x) :: r, acc =>
    match readSrc s m t x with
    | .val v => readAll s m r (v :: acc)
    | a => .inl a

/-- A member leaves its group at a neighbour read: the read travels, or waits in the core's own vitrine, where it demands a
parked cell (R106, R117, R350). -/
def leaveForNbr (s : State) (k : Cur) (m : Member) (d : Dir) (f : BitVec 3) (target : Option Nat) (arrived : Bool) :
    State :=
  let (id, s1) := freshId s
  let r : NbrRead := { reader := k.member, dir := d, face := f, target := target, gen := m.done, arrived := arrived,
                       value := none }
  let s2 := { s1 with nbrs := tabPut s1.nbrs id r }
  let s3 := match arrived, target with
    | true, some t => updMember s2 t fun v => if v.place == .parked && !published v m.done then { v with demanded := true }
        else v
    | _, _ => s2
  leaveGroup s3 k.member k.slot (.nbr d f)

/-! ## Issue-stage checks of forms -/

/-- Uses that tails, task cells and contexts in released mode may not make: faces, STEP, MIGRATE and barriers (R25, R94,
R140). -/
def noGrid (m : Member) : Bool := m.kind == .tail || m.kind == .task || releasedMode m

/-- The cause that a face brings in a member that has none: IllegalInstruction in the curator (R27), TailMisuse in a tail,
task cell or released context. -/
def faceUse (m : Member) : Option Nat :=
  if isCurator m then some 0x01 else if noGrid m then some 0x0B else none

/-- The check of a source at issue (R17, R25, R27, R36). -/
def srcFault (m : Member) (t : Ty) : Src → Option Nat
  | .g n => if t == .w64 && n.getLsbD 0 then some 0x01 else none
  | .face _ | .nbr _ _ =>
    match faceUse m with
    | some c => some c
    | none => if t == .w64 then some 0x01 else none
  | _ => none

/-- The check of a destination at issue (R17, R25, R27, R36). -/
def dstFault (m : Member) (wide : Bool) : Dst → Option Nat
  | .g n => if wide && n.getLsbD 0 then some 0x01 else none
  | .face _ =>
    match faceUse m with
    | some c => some c
    | none => if wide then some 0x01 else none
  | _ => none

/-- The first check that fails among a form's operands and destination. -/
def formFault (m : Member) (d : Dst) (wide : Bool) (ops : List (Ty × Src)) : Option Nat :=
  match ops.findSome? fun p => srcFault m p.1 p.2 with
  | some c => some c
  | none => dstFault m wide d

/-! ## The issuing member -/

/-- The issuing core's position and member, which every instruction meaning acts on. -/
def onIssuing (s : State) (f : Cur → Member → Result) : Result :=
  match s.sched.cur with
  | none => .fault .noMember
  | some k =>
    match memberAt s k.member with
    | none => .fault .noMember
    | some m => f k m

/-- A form after its checks: `checks` is the first cause that fails, if any; guarded off the `off` effect happens; otherwise
the operands are read, and the effect `run` takes their values (R55, R117, R126). -/
def runForm (s : State) (c : Common) (checks : Member → Option Nat) (ops : List (Ty × Src)) (off : Cur → Member → State)
    (run : Cur → Member → List Word64 → State) : Result :=
  onIssuing s fun k m =>
    match checks m with
    | some cause => .next (trap s k cause (if cause == 0x01 then k.slot else 0))
    | none =>
      if m.r.getP c.guard == c.sense then .next (off k m)
      else
        match readAll s m ops [] with
        | .inl (.away d f t a) => .next (leaveForNbr s k m d f t a)
        | .inl (.val _) => .next s
        | .inr vs => .next (run k m vs)

end Sys2Proof.Machine
end

