-- ==== Sys2Proof/Machine/Flags.lean ====
section
/-!
DEFINITION. Results and flags: the destination write, the latch (R56, R60, R67), the guard's old value (R60), predicates
(R132, R133), carry and borrow (R129), conditions (R133), and the shape of every instruction of the arithmetic groups (R126).
-/
namespace Sys2Proof.Machine

/-- The predicate set as PMOV reads it: p0 to p6, and bit 7 for p7 (R133). -/
def predSet (m : Member) : Word64 := (1#1 ++ m.r.p).zeroExtend 64

/-- The value a destination holds (R60). -/
def dstValue (m : Member) (wide : Bool) : Dst → Word64
  | .g n => if wide then m.r.pair n else (m.r.getG n).zeroExtend 64
  | .face f => (m.r.getF f).zeroExtend 64
  | .pred p => if m.r.getP p then 1 else 0
  | .none => predSet m

/-- The latch of the issuing slot (R60). -/
def setLatch (s : State) (k : Cur) (v : Word64) : State :=
  updMember s k.member fun m => { m with lat := m.lat.set (k.slot % 4) v (Nat.mod_lt _ (by decide)) }

/-- A predicate of the issuing member. -/
def setPred (s : State) (id : Nat) (p : BitVec 3) (v : Bool) : State :=
  updMember s id fun m => { m with r := m.r.setP p v }

/-- A result at its destination (R67): a pair where it has 64 bits, the low bit in a predicate. -/
def writeDst (s : State) (id : Nat) (wide : Bool) (v : Word64) : Dst → State
  | .g n => if wide then writePair s id n v else writeG s id n (v.extractLsb' 0 32)
  | .face f => updMember s id fun m => { m with r := m.r.setF f (v.extractLsb' 0 32) }
  | .pred p => setPred s id p (v.getLsbD 0)
  | .none => s

/-- The result of an instruction: the latch always takes it, the destination unless K is set (R56, R60). -/
def result (s : State) (k : Cur) (c : Common) (d : Dst) (wide : Bool) (v : Word64) : State :=
  setLatch (if c.k then s else writeDst s k.member wide v d) k v

/-- A guarded-off producer: its latch takes the destination's old value (R60). -/
def guardedOff (s : State) (d : Dst) (wide : Bool) (k : Cur) (m : Member) : State := setLatch s k (dstValue m wide d)

/-- An instruction of the arithmetic groups with one result (R126, R147). -/
def valueInstr (s : State) (c : Common) (d : Dst) (wide : Bool) (ops : List (Ty × Src)) (f : List Word64 → Word64) :
    Result :=
  runForm s c (fun m => formFault m d wide ops) ops (guardedOff s d wide)
    fun k _ vs => result s k c d wide (f vs)

/-- A value of 32 bits in an operand position. -/
def lo32 (v : Word64) : Word := v.extractLsb' 0 32
/-- A 32-bit result as a 64-bit value. -/
def ext (v : Word) : Word64 := v.zeroExtend 64

/-- One, two and three 32-bit operands. -/
def unary (f : Word → Word) : List Word64 → Word64
  | [a] => ext (f (lo32 a))
  | _ => 0
def binary (f : Word → Word → Word) : List Word64 → Word64
  | [a, b] => ext (f (lo32 a) (lo32 b))
  | _ => 0
def ternary (f : Word → Word → Word → Word) : List Word64 → Word64
  | [a, b, c] => ext (f (lo32 a) (lo32 b) (lo32 c))
  | _ => 0

/-- Carry out of ADDC and borrow out of SUBB (R129). -/
def carryOut (a b : Word) (cin : Bool) : Bool := a.toNat + b.toNat + boolNat cin ≥ 2 ^ 32
def borrowOut (a b : Word) (bin : Bool) : Bool := a.toNat < b.toNat + boolNat bin

/-- A condition on two operands of width `w` (R133): EQ and NE compare bits, the others compare as S says. -/
def condHolds (cc : Cond) (signed : Bool) (w : Nat) (a b : Word64) : Bool :=
  let x := asType signed w a.toNat
  let y := asType signed w b.toNat
  match cc with
  | .eq => x == y
  | .ne => x != y
  | .lt => x < y
  | .le => x ≤ y
  | .gt => x > y
  | .ge => x ≥ y

/-- The type of an operand position that is wide or not. -/
def tyOf (wide : Bool) : Ty := if wide then .w64 else .w32
/-- The width that a wide bit gives. -/
def widthOf (wide : Bool) : Nat := if wide then 64 else 32

/-- A predicate source with its negation (R132). -/
def predSrc (m : Member) (p : BitVec 3) (negate : Bool) : Bool := m.r.getP p != negate

/-- A predicate instruction without operands (R132). -/
def predInstr (s : State) (c : Common) (p : BitVec 3) (f : Member → Bool) : Result :=
  runForm s c (fun _ => none) [] (guardedOff s (.pred p) false)
    fun k m _ => result s k c (.pred p) false (if f m then 1 else 0)

end Sys2Proof.Machine
end

