-- ==== Sys2Proof/Machine/Info.lean ====
section
/-!
DEFINITION. What the words of a clause say about one another: operand specifiers, latch producers, blocking and transfer
instructions (R60, R63, R104), register interlocks (R61, R121), and the energy entry of an instruction (R299).
-/
namespace Sys2Proof


def guardReg (c : Common) : List Nat := if c.guard == 7 then [] else [72 + c.guard.toNat]
/-- The codes of a run of registers. -/
def blockRegs (n : Nat) (r : BitVec 6) : List Nat := (List.range n).map (r.toNat + ·)
def optReg1 : Option (BitVec 6) → List Nat
  | some r => [r.toNat]
  | none => [63]
def optBlockRegs : Option (BitVec 6) → List Nat
  | some r => blockRegs 4 r
  | none => []
def predRegs : List Nat := (List.range 7).map (72 + ·)
/-- The codes that a source reads. -/
def srcRegs (wide : Bool) : Src → List Nat
  | .g n => blockRegs (if wide then 2 else 1) n
  | .face f => [64 + f.toNat]
  | _ => []
/-- The codes of a destination or data register. -/
def dstRegs (wide : Bool) : Dst → List Nat
  | .g n => blockRegs (if wide then 2 else 1) n
  | .face f => [64 + f.toNat]
  | .pred p => [72 + p.toNat]
  | .none => []

/-- The width code of an element: 0 for 8 or 16 bits, 1 for 32, 2 for 64 (R299). -/
def fmtWidthCode : Fmt → Nat
  | .n8 | .i8 | .n16 | .i16 | .fp16 | .bf16 => 0
  | .n64 | .i64 => 2
  | _ => 1

/-- The width code of a type of CVT (R299). -/
def cvtTyWidth : CvtTy → Nat
  | .n8 | .i8 | .n16 | .i16 | .fp16 | .bf16 => 0
  | .n64 | .i64 => 2
  | _ => 1

/-- The width code of a conversion: that of its result, or 64 bits where its source has them (R299; log 59). -/
def cvtWidthCode (dst src : CvtTy) : Nat := if src.is64 then 2 else cvtTyWidth dst

/-- The operand specifiers of an instruction (R64). -/
def Instr.sources : Instr → List Src
  | .add _ _ a b _ _ => [a, b]
  | .sub _ _ a b _ _ => [a, b]
  | .addc _ _ a b _ _ _ => [a, b]
  | .subb _ _ a b _ _ _ => [a, b]
  | .mul _ _ a b => [a, b]
  | .mulh _ _ a b _ => [a, b]
  | .mad _ _ a b e => [a, b, e]
  | .neg _ _ a _ _ => [a]
  | .abs _ _ a _ _ => [a]
  | .min _ _ a b _ => [a, b]
  | .max _ _ a b _ => [a, b]
  | .addd _ _ a b _ _ => [a, b]
  | .subd _ _ a b _ _ => [a, b]
  | .mulw _ _ a b _ => [a, b]
  | .sad _ _ a b e => [a, b, e]
  | .dot4 _ _ a b e _ _ _ => [a, b, e]
  | .and _ _ a b => [a, b]
  | .or _ _ a b => [a, b]
  | .xor _ _ a b => [a, b]
  | .andn _ _ a b => [a, b]
  | .not _ _ a => [a]
  | .shl _ _ a b => [a, b]
  | .shr _ _ a b => [a, b]
  | .sar _ _ a b => [a, b]
  | .rol _ _ a b => [a, b]
  | .shld _ _ a b e => [a, b, e]
  | .shrd _ _ a b e => [a, b, e]
  | .clz _ _ a => [a]
  | .popc _ _ a => [a]
  | .brev _ _ a => [a]
  | .bfx _ _ a b _ => [a, b]
  | .bfi _ _ a b e => [a, b, e]
  | .perm _ _ a b e => [a, b, e]
  | .cmp _ _ a b _ _ _ => [a, b]
  | .cmps _ _ a b _ _ _ => [a, b]
  | .sel _ _ a b _ _ _ => [a, b]
  | .mov _ _ a _ => [a]
  | .sets _ a _ _ => [a]
  | .pset _ _ a => [a]
  | .pmov _ _ a _ => [a]
  | .fadd _ _ a b _ => [a, b]
  | .fsub _ _ a b _ => [a, b]
  | .fmul _ _ a b _ => [a, b]
  | .ffma _ _ a b e _ => [a, b, e]
  | .fmin _ _ a b _ _ => [a, b]
  | .fmax _ _ a b _ _ => [a, b]
  | .fcmp _ _ a b _ _ _ => [a, b]
  | .fclass _ _ a => [a]
  | .frcp _ _ a _ _ => [a]
  | .frsq _ _ a _ _ => [a]
  | .fsqrt _ _ a _ => [a]
  | .fdiv _ _ a b _ => [a, b]
  | .fexp2 _ _ a _ _ => [a]
  | .flog2 _ _ a _ _ => [a]
  | .fsin _ _ a _ _ => [a]
  | .fcos _ _ a _ _ => [a]
  | .ftanh _ _ a _ _ => [a]
  | .fscale _ _ a b _ => [a, b]
  | .ffrac _ _ a _ _ => [a]
  | .frnd _ _ a _ => [a]
  | .hadd2 _ _ a b _ _ => [a, b]
  | .hmul2 _ _ a b _ _ => [a, b]
  | .hfma2 _ _ a b e _ _ => [a, b, e]
  | .hmin2 _ _ a b _ _ _ => [a, b]
  | .hmax2 _ _ a b _ _ _ => [a, b]
  | .hdot2 _ _ a b e _ _ => [a, b, e]
  | .cvt _ _ a _ _ _ _ _ => [a]
  | .pack2 _ _ a b _ _ _ _ _ => [a, b]
  | .split2 _ _ a _ _ => [a]
  | .pack4 _ _ a b _ _ _ => [a, b]
  | .split4 _ _ a _ _ => [a]
  | .jmpi _ a => [a]
  | .calli _ _ a => [a]
  | .ret _ a => [a]
  | .relcall _ _ a => [a]
  | .migrate _ _ a => [a]
  | .dqpush _ a => [a]
  | .ld _ _ m => [m.off]
  | .st _ _ m => [m.off]
  | .ldx _ _ _ m => [m.off]
  | .stx _ _ _ m => [m.off]
  | .pref _ m => [m.off]
  | .vld _ _ m => [m.off]
  | .atom _ _ _ m => [m.off]
  | .atomr _ _ _ m => [m.off]
  | .cas _ _ m => [m.off]
  | .kcas2 _ _ _ m => [m.off]
  | .kenq _ _ m => [m.off]
  | .kdeq _ _ m => [m.off]
  | .kchase _ _ _ m => [m.off]
  | .kchunk _ _ m => [m.off]
  | .barw _ a _ => [a]
  | .sarm _ _ m => [m.off]
  | .swait _ _ m => [m.off]
  | .sadd _ _ m => [m.off]
  | .spawn _ _ m => [m.off]
  | .tlbinv _ _ a b => [a, b]
  | .shoot _ _ a b e _ _ => [a, b, e]
  | .ldio _ _ a _ _ => [a]
  | .stio _ a b _ _ => [a, b]
  | .ctxsave _ _ a b _ => [a, b]
  | .ctxload _ _ a b _ => [a, b]
  | .idle _ _ a => [a]
  | .ckpt _ _ a b _ => [a, b]
  | .ckptRb _ _ a b _ => [a, b]
  | .setperf _ a => [a]
  | _ => []

/-- The destination that an instruction of groups 0x0 to 0x5 and 0x7 names as a latch producer (R60). -/
def Instr.latchDst : Instr → Option Dst
  | .add _ d _ _ _ _ => some d
  | .sub _ d _ _ _ _ => some d
  | .addc _ d _ _ _ _ _ => some d
  | .subb _ d _ _ _ _ _ => some d
  | .mul _ d _ _ => some d
  | .mulh _ d _ _ _ => some d
  | .mad _ d _ _ _ => some d
  | .neg _ d _ _ _ => some d
  | .abs _ d _ _ _ => some d
  | .min _ d _ _ _ => some d
  | .max _ d _ _ _ => some d
  | .addd _ d _ _ _ _ => some d
  | .subd _ d _ _ _ _ => some d
  | .mulw _ d _ _ _ => some d
  | .sad _ d _ _ _ => some d
  | .dot4 _ d _ _ _ _ _ _ => some d
  | .addi _ d _ _ _ => some d
  | .ldi _ d _ _ => some d
  | .and _ d _ _ => some d
  | .or _ d _ _ => some d
  | .xor _ d _ _ => some d
  | .andn _ d _ _ => some d
  | .not _ d _ => some d
  | .shl _ d _ _ => some d
  | .shr _ d _ _ => some d
  | .sar _ d _ _ => some d
  | .rol _ d _ _ => some d
  | .shld _ d _ _ _ => some d
  | .shrd _ d _ _ _ => some d
  | .clz _ d _ => some d
  | .popc _ d _ => some d
  | .brev _ d _ => some d
  | .bfx _ d _ _ _ => some d
  | .bfi _ d _ _ _ => some d
  | .perm _ d _ _ _ => some d
  | .andi _ d _ _ => some d
  | .ori _ d _ _ => some d
  | .xori _ d _ _ => some d
  | .cmp _ p _ _ _ _ _ => some (.pred p)
  | .cmps _ d _ _ _ _ _ => some d
  | .sel _ d _ _ _ _ _ => some d
  | .mov _ d _ _ => some d
  | .movs _ d _ _ => some d
  | .pand _ p _ _ _ _ => some (.pred p)
  | .por _ p _ _ _ _ => some (.pred p)
  | .pxor _ p _ _ _ _ => some (.pred p)
  | .pnot _ p _ => some (.pred p)
  | .pset _ p _ => some (.pred p)
  | .pmov _ d _ _ => some d
  | .fadd _ d _ _ _ => some d
  | .fsub _ d _ _ _ => some d
  | .fmul _ d _ _ _ => some d
  | .ffma _ d _ _ _ _ => some d
  | .fmin _ d _ _ _ _ => some d
  | .fmax _ d _ _ _ _ => some d
  | .fcmp _ d _ _ _ _ _ => some d
  | .fclass _ d _ => some d
  | .frcp _ d _ _ _ => some d
  | .frsq _ d _ _ _ => some d
  | .fsqrt _ d _ _ => some d
  | .fdiv _ d _ _ _ => some d
  | .fexp2 _ d _ _ _ => some d
  | .flog2 _ d _ _ _ => some d
  | .fsin _ d _ _ _ => some d
  | .fcos _ d _ _ _ => some d
  | .ftanh _ d _ _ _ => some d
  | .fscale _ d _ _ _ => some d
  | .ffrac _ d _ _ _ => some d
  | .frnd _ d _ _ => some d
  | .hadd2 _ d _ _ _ _ => some d
  | .hmul2 _ d _ _ _ _ => some d
  | .hfma2 _ d _ _ _ _ _ => some d
  | .hmin2 _ d _ _ _ _ _ => some d
  | .hmax2 _ d _ _ _ _ _ => some d
  | .hdot2 _ d _ _ _ _ _ => some d
  | .cvt _ d _ _ _ _ _ _ => some d
  | .pack2 _ d _ _ _ _ _ _ _ => some d
  | .split2 _ d _ _ _ => some d
  | .pack4 _ d _ _ _ _ _ => some d
  | .split4 _ d _ _ _ => some d
  | .migrate _ d _ => some d
  | .dqpop _ d => some d
  | _ => none

/-- The register codes (R67) that an instruction reads by name: g 0 to 63, faces 64 to 71, predicates 72 to 78. -/
def Instr.regReads : Instr → List Nat
  | .add c _ a b _ _ => guardReg c ++ srcRegs false a ++ srcRegs false b
  | .sub c _ a b _ _ => guardReg c ++ srcRegs false a ++ srcRegs false b
  | .addc c _ a b _ pIn cin => guardReg c ++ srcRegs false a ++ srcRegs false b ++ (if cin then [72 + pIn.toNat] else [])
  | .subb c _ a b _ pIn cin => guardReg c ++ srcRegs false a ++ srcRegs false b ++ (if cin then [72 + pIn.toNat] else [])
  | .mul c _ a b => guardReg c ++ srcRegs false a ++ srcRegs false b
  | .mulh c _ a b _ => guardReg c ++ srcRegs false a ++ srcRegs false b
  | .mad c _ a b e => guardReg c ++ srcRegs false a ++ srcRegs false b ++ srcRegs false e
  | .neg c _ a _ _ => guardReg c ++ srcRegs false a
  | .abs c _ a _ _ => guardReg c ++ srcRegs false a
  | .min c _ a b _ => guardReg c ++ srcRegs false a ++ srcRegs false b
  | .max c _ a b _ => guardReg c ++ srcRegs false a ++ srcRegs false b
  | .addd c _ a b _ _ => guardReg c ++ srcRegs true a ++ srcRegs true b
  | .subd c _ a b _ _ => guardReg c ++ srcRegs true a ++ srcRegs true b
  | .mulw c _ a b _ => guardReg c ++ srcRegs false a ++ srcRegs false b
  | .sad c _ a b e => guardReg c ++ srcRegs false a ++ srcRegs false b ++ srcRegs false e
  | .dot4 c _ a b e _ _ _ => guardReg c ++ srcRegs false a ++ srcRegs false b ++ srcRegs false e
  | .addi c _ wide r _ => guardReg c ++ blockRegs (if wide then 2 else 1) r
  | .ldi c _ _ _ => guardReg c
  | .and c _ a b => guardReg c ++ srcRegs false a ++ srcRegs false b
  | .or c _ a b => guardReg c ++ srcRegs false a ++ srcRegs false b
  | .xor c _ a b => guardReg c ++ srcRegs false a ++ srcRegs false b
  | .andn c _ a b => guardReg c ++ srcRegs false a ++ srcRegs false b
  | .not c _ a => guardReg c ++ srcRegs false a
  | .shl c _ a b => guardReg c ++ srcRegs false a ++ srcRegs false b
  | .shr c _ a b => guardReg c ++ srcRegs false a ++ srcRegs false b
  | .sar c _ a b => guardReg c ++ srcRegs false a ++ srcRegs false b
  | .rol c _ a b => guardReg c ++ srcRegs false a ++ srcRegs false b
  | .shld c _ a b e => guardReg c ++ srcRegs false a ++ srcRegs false b ++ srcRegs false e
  | .shrd c _ a b e => guardReg c ++ srcRegs false a ++ srcRegs false b ++ srcRegs false e
  | .clz c _ a => guardReg c ++ srcRegs false a
  | .popc c _ a => guardReg c ++ srcRegs false a
  | .brev c _ a => guardReg c ++ srcRegs false a
  | .bfx c _ a b _ => guardReg c ++ srcRegs false a ++ srcRegs false b
  | .bfi c _ a b e => guardReg c ++ srcRegs false a ++ srcRegs false b ++ srcRegs false e
  | .perm c _ a b e => guardReg c ++ srcRegs false a ++ srcRegs false b ++ srcRegs false e
  | .andi c _ r _ => guardReg c ++ blockRegs 1 r
  | .ori c _ r _ => guardReg c ++ blockRegs 1 r
  | .xori c _ r _ => guardReg c ++ blockRegs 1 r
  | .cmp c _ a b _ _ wide => guardReg c ++ srcRegs wide a ++ srcRegs wide b
  | .cmps c _ a b _ _ wide => guardReg c ++ srcRegs wide a ++ srcRegs wide b
  | .sel c _ a b p _ wide => guardReg c ++ srcRegs wide a ++ srcRegs wide b ++ [72 + p.toNat]
  | .mov c _ a wide => guardReg c ++ srcRegs wide a
  | .movs c _ _ _ => guardReg c
  | .sets c a _ wide => guardReg c ++ srcRegs wide a
  | .pand c _ pa pb _ _ => guardReg c ++ [72 + pa.toNat, 72 + pb.toNat]
  | .por c _ pa pb _ _ => guardReg c ++ [72 + pa.toNat, 72 + pb.toNat]
  | .pxor c _ pa pb _ _ => guardReg c ++ [72 + pa.toNat, 72 + pb.toNat]
  | .pnot c _ pa => guardReg c ++ [72 + pa.toNat]
  | .pset c _ a => guardReg c ++ srcRegs false a
  | .pmov c _ a write => guardReg c ++ srcRegs false a ++ (if write then [] else predRegs)
  | .fadd c _ a b _ => guardReg c ++ srcRegs false a ++ srcRegs false b
  | .fsub c _ a b _ => guardReg c ++ srcRegs false a ++ srcRegs false b
  | .fmul c _ a b _ => guardReg c ++ srcRegs false a ++ srcRegs false b
  | .ffma c _ a b e _ => guardReg c ++ srcRegs false a ++ srcRegs false b ++ srcRegs false e
  | .fmin c _ a b _ _ => guardReg c ++ srcRegs false a ++ srcRegs false b
  | .fmax c _ a b _ _ => guardReg c ++ srcRegs false a ++ srcRegs false b
  | .fcmp c _ a b _ _ _ => guardReg c ++ srcRegs false a ++ srcRegs false b
  | .fclass c _ a => guardReg c ++ srcRegs false a
  | .frcp c _ a _ _ => guardReg c ++ srcRegs false a
  | .frsq c _ a _ _ => guardReg c ++ srcRegs false a
  | .fsqrt c _ a _ => guardReg c ++ srcRegs false a
  | .fdiv c _ a b _ => guardReg c ++ srcRegs false a ++ srcRegs false b
  | .fexp2 c _ a _ _ => guardReg c ++ srcRegs false a
  | .flog2 c _ a _ _ => guardReg c ++ srcRegs false a
  | .fsin c _ a _ _ => guardReg c ++ srcRegs false a
  | .fcos c _ a _ _ => guardReg c ++ srcRegs false a
  | .ftanh c _ a _ _ => guardReg c ++ srcRegs false a
  | .fscale c _ a b _ => guardReg c ++ srcRegs false a ++ srcRegs false b
  | .ffrac c _ a _ _ => guardReg c ++ srcRegs false a
  | .frnd c _ a _ => guardReg c ++ srcRegs false a
  | .hadd2 c _ a b _ _ => guardReg c ++ srcRegs false a ++ srcRegs false b
  | .hmul2 c _ a b _ _ => guardReg c ++ srcRegs false a ++ srcRegs false b
  | .hfma2 c _ a b e _ _ => guardReg c ++ srcRegs false a ++ srcRegs false b ++ srcRegs false e
  | .hmin2 c _ a b _ _ _ => guardReg c ++ srcRegs false a ++ srcRegs false b
  | .hmax2 c _ a b _ _ _ => guardReg c ++ srcRegs false a ++ srcRegs false b
  | .hdot2 c _ a b e _ _ => guardReg c ++ srcRegs false a ++ srcRegs false b ++ srcRegs false e
  | .cvt c _ a _ src _ _ _ => guardReg c ++ srcRegs src.is64 a
  | .pack2 c _ a b _ _ _ _ _ => guardReg c ++ srcRegs false a ++ srcRegs false b
  | .split2 c _ a _ _ => guardReg c ++ srcRegs false a
  | .pack4 c _ a b _ _ _ => guardReg c ++ srcRegs true a ++ srcRegs true b
  | .split4 c _ a _ _ => guardReg c ++ srcRegs false a
  | .bra c _ => guardReg c
  | .jmpi c a => guardReg c ++ srcRegs false a
  | .call c _ _ => guardReg c
  | .calli c _ a => guardReg c ++ srcRegs false a
  | .ret c a => guardReg c ++ srcRegs false a
  | .relcall c frame a => guardReg c ++ srcRegs false a ++ optReg1 frame
  | .tjoin c => guardReg c
  | .tend c => guardReg c
  | .exit c => guardReg c
  | .nop c => guardReg c
  | .yieldI c => guardReg c
  | .progress c => guardReg c
  | .step c _ => guardReg c
  | .migrate c _ a => guardReg c ++ srcRegs true a
  | .dqpush c a => guardReg c ++ srcRegs false a
  | .dqpop c _ => guardReg c
  | .park c => guardReg c
  | .ld c _ m => guardReg c ++ srcRegs false m.off
  | .st c d m => guardReg c ++ srcRegs false m.off ++ dstRegs true d
  | .ldx c _ _ m => guardReg c ++ srcRegs true m.off
  | .stx c d _ m => guardReg c ++ srcRegs true m.off ++ dstRegs true d
  | .pref c m => guardReg c ++ srcRegs false m.off
  | .vset c base _ => guardReg c ++ blockRegs 8 base
  | .vget c _ _ => guardReg c
  | .vld c _ m => guardReg c ++ srcRegs false m.off
  | .atom c r _ m => guardReg c ++ srcRegs false m.off ++ blockRegs 2 r
  | .atomr c r _ m => guardReg c ++ srcRegs false m.off ++ blockRegs 2 r
  | .cas c r m => guardReg c ++ srcRegs false m.off ++ blockRegs 4 r
  | .kcas2 c r _ m => guardReg c ++ srcRegs false m.off ++ blockRegs 4 r
  | .kenq c r m => guardReg c ++ srcRegs false m.off ++ blockRegs 2 r
  | .kdeq c _ m => guardReg c ++ srcRegs false m.off
  | .kchase c r _ m => guardReg c ++ srcRegs false m.off ++ blockRegs 1 r
  | .kchunk c _ m => guardReg c ++ srcRegs false m.off
  | .fence c _ _ _ => guardReg c
  | .bar c _ => guardReg c
  | .bara c _ _ => guardReg c
  | .barw c a _ => guardReg c ++ srcRegs false a
  | .sarm c r m => guardReg c ++ srcRegs false m.off ++ blockRegs 2 r
  | .swait c r m => guardReg c ++ srcRegs false m.off ++ blockRegs 2 r
  | .sadd c r m => guardReg c ++ srcRegs false m.off ++ blockRegs 2 r
  | .copy c block _ _ _ _ _ _ => guardReg c ++ optBlockRegs block
  | .copym c block _ _ _ _ _ _ _ _ => guardReg c ++ blockRegs 4 block
  | .mmab c block _ _ _ _ => guardReg c ++ blockRegs 4 block
  | .scacc c block _ _ _ _ _ => guardReg c ++ optBlockRegs block
  | .mload c block _ _ _ => guardReg c ++ optBlockRegs block
  | .mstore c block _ _ _ _ _ _ => guardReg c ++ optBlockRegs block
  | .mzero c _ _ => guardReg c
  | .tmma c block _ _ _ => guardReg c ++ blockRegs 4 block
  | .drun c block _ _ => guardReg c ++ blockRegs 4 block
  | .ecan c _ _ => guardReg c
  | .trig c => guardReg c
  | .spawn c r m => guardReg c ++ srcRegs false m.off ++ blockRegs 5 r
  | .trap c _ => guardReg c
  | .svc c _ => guardReg c
  | .eret c => guardReg c
  | .segset c _ r => guardReg c ++ blockRegs 4 r
  | .segget c _ _ => guardReg c
  | .tlbinv c form a b => guardReg c ++ srcRegs (form == .addr) a ++ srcRegs false b
  | .shoot c _ a b e _ _ => guardReg c ++ srcRegs true a ++ srcRegs false b ++ srcRegs false e
  | .ldio c _ a _ _ => guardReg c ++ srcRegs true a
  | .stio c a b wide _ => guardReg c ++ srcRegs true a ++ srcRegs wide b
  | .ctxsave c _ a b _ => guardReg c ++ srcRegs true a ++ srcRegs false b
  | .ctxload c _ a b _ => guardReg c ++ srcRegs true a ++ srcRegs false b
  | .idle c _ a => guardReg c ++ srcRegs false a
  | .ckpt c _ a b _ => guardReg c ++ srcRegs true a ++ srcRegs false b
  | .ckptRb c _ a b _ => guardReg c ++ srcRegs true a ++ srcRegs false b
  | .setperf c a => guardReg c ++ srcRegs false a
  | _ => []

/-- The register codes that an arithmetic-type result writes (R61); with K = 1 only the carry. -/
def Instr.regWrites : Instr → List Nat
  | .add c d _ _ _ _ => (if c.k then [] else dstRegs false d)
  | .sub c d _ _ _ _ => (if c.k then [] else dstRegs false d)
  | .addc c d _ _ pOut _ _ => (if c.k then [] else dstRegs false d) ++ [72 + pOut.toNat]
  | .subb c d _ _ pOut _ _ => (if c.k then [] else dstRegs false d) ++ [72 + pOut.toNat]
  | .mul c d _ _ => (if c.k then [] else dstRegs false d)
  | .mulh c d _ _ _ => (if c.k then [] else dstRegs false d)
  | .mad c d _ _ _ => (if c.k then [] else dstRegs false d)
  | .neg c d _ _ _ => (if c.k then [] else dstRegs false d)
  | .abs c d _ _ _ => (if c.k then [] else dstRegs false d)
  | .min c d _ _ _ => (if c.k then [] else dstRegs false d)
  | .max c d _ _ _ => (if c.k then [] else dstRegs false d)
  | .addd c d _ _ _ _ => (if c.k then [] else dstRegs true d)
  | .subd c d _ _ _ _ => (if c.k then [] else dstRegs true d)
  | .mulw c d _ _ _ => (if c.k then [] else dstRegs true d)
  | .sad c d _ _ _ => (if c.k then [] else dstRegs false d)
  | .dot4 c d _ _ _ _ _ _ => (if c.k then [] else dstRegs false d)
  | .addi c d wide _ _ => (if c.k then [] else dstRegs wide d)
  | .ldi c d wide _ => (if c.k then [] else dstRegs wide d)
  | .and c d _ _ => (if c.k then [] else dstRegs false d)
  | .or c d _ _ => (if c.k then [] else dstRegs false d)
  | .xor c d _ _ => (if c.k then [] else dstRegs false d)
  | .andn c d _ _ => (if c.k then [] else dstRegs false d)
  | .not c d _ => (if c.k then [] else dstRegs false d)
  | .shl c d _ _ => (if c.k then [] else dstRegs false d)
  | .shr c d _ _ => (if c.k then [] else dstRegs false d)
  | .sar c d _ _ => (if c.k then [] else dstRegs false d)
  | .rol c d _ _ => (if c.k then [] else dstRegs false d)
  | .shld c d _ _ _ => (if c.k then [] else dstRegs false d)
  | .shrd c d _ _ _ => (if c.k then [] else dstRegs false d)
  | .clz c d _ => (if c.k then [] else dstRegs false d)
  | .popc c d _ => (if c.k then [] else dstRegs false d)
  | .brev c d _ => (if c.k then [] else dstRegs false d)
  | .bfx c d _ _ _ => (if c.k then [] else dstRegs false d)
  | .bfi c d _ _ _ => (if c.k then [] else dstRegs false d)
  | .perm c d _ _ _ => (if c.k then [] else dstRegs false d)
  | .andi c d _ _ => (if c.k then [] else dstRegs false d)
  | .ori c d _ _ => (if c.k then [] else dstRegs false d)
  | .xori c d _ _ => (if c.k then [] else dstRegs false d)
  | .cmp c p _ _ _ _ _ => (if c.k then [] else [72 + p.toNat])
  | .cmps c d _ _ _ _ _ => (if c.k then [] else dstRegs false d)
  | .sel c d _ _ _ _ wide => (if c.k then [] else dstRegs wide d)
  | .mov c d _ wide => (if c.k then [] else dstRegs wide d)
  | .movs c d _ wide => (if c.k then [] else dstRegs wide d)
  | .pand c p _ _ _ _ => (if c.k then [] else [72 + p.toNat])
  | .por c p _ _ _ _ => (if c.k then [] else [72 + p.toNat])
  | .pxor c p _ _ _ _ => (if c.k then [] else [72 + p.toNat])
  | .pnot c p _ => (if c.k then [] else [72 + p.toNat])
  | .pset c p _ => (if c.k then [] else [72 + p.toNat])
  | .pmov c d _ write => if c.k then [] else if write then predRegs else dstRegs false d
  | .fadd c d _ _ _ => (if c.k then [] else dstRegs false d)
  | .fsub c d _ _ _ => (if c.k then [] else dstRegs false d)
  | .fmul c d _ _ _ => (if c.k then [] else dstRegs false d)
  | .ffma c d _ _ _ _ => (if c.k then [] else dstRegs false d)
  | .fmin c d _ _ _ _ => (if c.k then [] else dstRegs false d)
  | .fmax c d _ _ _ _ => (if c.k then [] else dstRegs false d)
  | .fcmp c d _ _ _ _ _ => (if c.k then [] else dstRegs false d)
  | .fclass c d _ => (if c.k then [] else dstRegs false d)
  | .frcp c d _ _ _ => (if c.k then [] else dstRegs false d)
  | .frsq c d _ _ _ => (if c.k then [] else dstRegs false d)
  | .fsqrt c d _ _ => (if c.k then [] else dstRegs false d)
  | .fdiv c d _ _ _ => (if c.k then [] else dstRegs false d)
  | .fexp2 c d _ _ _ => (if c.k then [] else dstRegs false d)
  | .flog2 c d _ _ _ => (if c.k then [] else dstRegs false d)
  | .fsin c d _ _ _ => (if c.k then [] else dstRegs false d)
  | .fcos c d _ _ _ => (if c.k then [] else dstRegs false d)
  | .ftanh c d _ _ _ => (if c.k then [] else dstRegs false d)
  | .fscale c d _ _ _ => (if c.k then [] else dstRegs false d)
  | .ffrac c d _ _ _ => (if c.k then [] else dstRegs false d)
  | .frnd c d _ _ => (if c.k then [] else dstRegs false d)
  | .hadd2 c d _ _ _ _ => (if c.k then [] else dstRegs false d)
  | .hmul2 c d _ _ _ _ => (if c.k then [] else dstRegs false d)
  | .hfma2 c d _ _ _ _ _ => (if c.k then [] else dstRegs false d)
  | .hmin2 c d _ _ _ _ _ => (if c.k then [] else dstRegs false d)
  | .hmax2 c d _ _ _ _ _ => (if c.k then [] else dstRegs false d)
  | .hdot2 c d _ _ _ _ _ => (if c.k then [] else dstRegs false d)
  | .cvt c d _ dst _ _ _ _ => (if c.k then [] else dstRegs dst.is64 d)
  | .pack2 c d _ _ _ _ _ _ _ => (if c.k then [] else dstRegs false d)
  | .split2 c d _ _ _ => (if c.k then [] else dstRegs true d)
  | .pack4 c d _ _ _ _ _ => (if c.k then [] else dstRegs false d)
  | .split4 c d _ _ _ => (if c.k then [] else dstRegs true d)
  | .migrate _ d _ => dstRegs false d
  | .dqpop _ d => dstRegs false d
  | .vget _ base _ => (List.range 8).map fun i => (base.toNat + i) % 64
  | .segget _ _ r => (List.range 4).map fun i => (r.toNat + i) % 64
  | .bara _ d _ => (d.map fun g => g.toNat).toList
  | _ => []

/-- Energy category and width code of an instruction (R299); a guarded-off instruction is category 15. -/
def Instr.energy : Instr → Nat × Nat
  | .add _ _ _ _ _ _ => (0, 1)
  | .sub _ _ _ _ _ _ => (0, 1)
  | .addc _ _ _ _ _ _ _ => (0, 1)
  | .subb _ _ _ _ _ _ _ => (0, 1)
  | .mul _ _ _ _ => (1, 1)
  | .mulh _ _ _ _ _ => (1, 1)
  | .mad _ _ _ _ _ => (1, 1)
  | .neg _ _ _ _ _ => (0, 1)
  | .abs _ _ _ _ _ => (0, 1)
  | .min _ _ _ _ _ => (0, 1)
  | .max _ _ _ _ _ => (0, 1)
  | .addd _ _ _ _ _ _ => (0, 2)
  | .subd _ _ _ _ _ _ => (0, 2)
  | .mulw _ _ _ _ _ => (1, 2)
  | .sad _ _ _ _ _ => (0, 1)
  | .dot4 _ _ _ _ _ _ _ _ => (1, 1)
  | .addi _ _ wide _ _ => (0, (if wide then 2 else 1))
  | .ldi _ _ wide _ => (0, (if wide then 2 else 1))
  | .and _ _ _ _ => (0, 1)
  | .or _ _ _ _ => (0, 1)
  | .xor _ _ _ _ => (0, 1)
  | .andn _ _ _ _ => (0, 1)
  | .not _ _ _ => (0, 1)
  | .shl _ _ _ _ => (0, 1)
  | .shr _ _ _ _ => (0, 1)
  | .sar _ _ _ _ => (0, 1)
  | .rol _ _ _ _ => (0, 1)
  | .shld _ _ _ _ _ => (0, 1)
  | .shrd _ _ _ _ _ => (0, 1)
  | .clz _ _ _ => (0, 1)
  | .popc _ _ _ => (0, 1)
  | .brev _ _ _ => (0, 1)
  | .bfx _ _ _ _ _ => (0, 1)
  | .bfi _ _ _ _ _ => (0, 1)
  | .perm _ _ _ _ _ => (0, 1)
  | .andi _ _ _ _ => (0, 1)
  | .ori _ _ _ _ => (0, 1)
  | .xori _ _ _ _ => (0, 1)
  | .cmp _ _ _ _ _ _ wide => (0, (if wide then 2 else 1))
  | .cmps _ _ _ _ _ _ wide => (0, (if wide then 2 else 1))
  | .sel _ _ _ _ _ _ wide => (0, (if wide then 2 else 1))
  | .mov _ _ _ wide => (0, (if wide then 2 else 1))
  | .movs _ _ _ wide => (0, (if wide then 2 else 1))
  | .sets _ _ _ wide => (0, (if wide then 2 else 1))
  | .pand _ _ _ _ _ _ => (0, 1)
  | .por _ _ _ _ _ _ => (0, 1)
  | .pxor _ _ _ _ _ _ => (0, 1)
  | .pnot _ _ _ => (0, 1)
  | .pset _ _ _ => (0, 1)
  | .pmov _ _ _ _ => (0, 1)
  | .fadd _ _ _ _ _ => (2, 1)
  | .fsub _ _ _ _ _ => (2, 1)
  | .fmul _ _ _ _ _ => (2, 1)
  | .ffma _ _ _ _ _ _ => (2, 1)
  | .fmin _ _ _ _ _ _ => (2, 1)
  | .fmax _ _ _ _ _ _ => (2, 1)
  | .fcmp _ _ _ _ _ _ _ => (2, 1)
  | .fclass _ _ _ => (2, 1)
  | .frcp _ _ _ _ _ => (5, 1)
  | .frsq _ _ _ _ _ => (5, 1)
  | .fsqrt _ _ _ _ => (6, 1)
  | .fdiv _ _ _ _ _ => (6, 1)
  | .fexp2 _ _ _ _ _ => (5, 1)
  | .flog2 _ _ _ _ _ => (5, 1)
  | .fsin _ _ _ _ _ => (5, 1)
  | .fcos _ _ _ _ _ => (5, 1)
  | .ftanh _ _ _ _ _ => (5, 1)
  | .fscale _ _ _ _ _ => (2, 1)
  | .ffrac _ _ _ _ _ => (2, 1)
  | .frnd _ _ _ _ => (2, 1)
  | .hadd2 _ _ _ _ _ _ => (3, 1)
  | .hmul2 _ _ _ _ _ _ => (3, 1)
  | .hfma2 _ _ _ _ _ _ _ => (3, 1)
  | .hmin2 _ _ _ _ _ _ _ => (3, 1)
  | .hmax2 _ _ _ _ _ _ _ => (3, 1)
  | .hdot2 _ _ _ _ _ _ _ => (3, 1)
  | .cvt _ _ _ dst src _ _ _ => (4, cvtWidthCode dst src)
  | .pack2 _ _ _ _ _ _ _ _ _ => (4, 1)
  | .split2 _ _ _ _ _ => (4, 2)
  | .pack4 _ _ _ _ _ _ _ => (4, 1)
  | .split4 _ _ _ _ _ => (4, 2)
  | .bra _ _ => (7, 1)
  | .jmpi _ _ => (7, 1)
  | .call _ _ _ => (7, 1)
  | .calli _ _ _ => (7, 1)
  | .ret _ _ => (7, 1)
  | .relcall _ _ _ => (7, 1)
  | .tjoin _ => (7, 1)
  | .tend _ => (7, 1)
  | .exit _ => (7, 1)
  | .nop _ => (7, 1)
  | .yieldI _ => (7, 1)
  | .progress _ => (7, 1)
  | .step _ _ => (7, 1)
  | .migrate _ _ _ => (7, 1)
  | .dqpush _ _ => (7, 1)
  | .dqpop _ _ => (7, 1)
  | .park _ => (7, 1)
  | .ld _ _ _ => (8, 1)
  | .st _ _ _ => (9, 1)
  | .ldx _ _ fm _ => (8, fmtWidthCode fm)
  | .stx _ _ fm _ => (9, fmtWidthCode fm)
  | .pref _ _ => (8, 1)
  | .vset _ _ _ => (8, 3)
  | .vget _ _ _ => (8, 3)
  | .vld _ _ _ => (8, 3)
  | .atom _ _ _ _ => (10, 1)
  | .atomr _ _ _ _ => (10, 1)
  | .cas _ _ _ => (10, 1)
  | .kcas2 _ _ _ _ => (10, 2)
  | .kenq _ _ _ => (10, 3)
  | .kdeq _ _ _ => (10, 3)
  | .kchase _ _ _ _ => (10, 3)
  | .kchunk _ _ _ => (10, 3)
  | .fence _ _ _ _ => (7, 1)
  | .bar _ _ => (7, 1)
  | .bara _ _ _ => (7, 1)
  | .barw _ _ _ => (7, 1)
  | .sarm _ _ _ => (10, 1)
  | .swait _ _ _ => (10, 1)
  | .sadd _ _ _ => (10, 1)
  | .copy _ _ _ _ _ _ _ _ => (12, 0)
  | .copym _ _ _ _ _ _ _ _ _ _ => (12, 0)
  | .mmab _ _ _ _ _ _ => (13, 0)
  | .scacc _ _ _ _ _ _ _ => (13, 0)
  | .mload _ _ _ _ _ => (13, 0)
  | .mstore _ _ _ _ _ _ _ _ => (13, 0)
  | .mzero _ _ _ => (13, 0)
  | .tmma _ _ _ _ _ => (11, 1)
  | .drun _ _ _ _ => (11, 1)
  | .ecan _ _ _ => (11, 1)
  | .trig _ => (11, 1)
  | .spawn _ _ _ => (11, 3)
  | .trap _ _ => (11, 1)
  | .svc _ _ => (11, 1)
  | .eret _ => (11, 1)
  | .segset _ _ _ => (11, 1)
  | .segget _ _ _ => (11, 3)
  | .tlbinv _ _ _ _ => (11, 1)
  | .shoot _ _ _ _ _ _ _ => (11, 1)
  | .ldio _ _ _ wide _ => (11, (if wide then 2 else 1))
  | .stio _ _ _ wide _ => (11, (if wide then 2 else 1))
  | .ctxsave _ _ _ _ _ => (11, 1)
  | .ctxload _ _ _ _ _ => (11, 1)
  | .idle _ _ _ => (11, 1)
  | .ckpt _ _ _ _ _ => (11, 1)
  | .ckptRb _ _ _ _ _ => (11, 1)
  | .setperf _ _ => (11, 1)
  | _ => (11, 1)

/-- Engine commands are charged as their unit does the work, not at retirement (R299). -/
def Instr.chargedByUnit : Instr → Bool
  | .copy .. | .copym .. | .mmab .. | .scacc .. | .mload .. | .mstore .. | .mzero .. => true
  | _ => false

/-- The instruction names a neighbour operand. -/
def Instr.namesNbr (i : Instr) : Bool := i.sources.any Src.isNbr

/-- The blocking instructions (R104, R285, R291). -/
def Instr.blocks (i : Instr) : Bool :=
  i.namesNbr || match i with
    | .step .. | .bar .. | .barw .. | .swait .. | .dqpop .. | .dqpush .. | .svc .. | .idle .. => true
    | _ => false

/-- The instructions that may stand only in the last slot: the control group, TRAP, SVC and ERET (R63). -/
def Instr.isTransfer : Instr → Bool
  | .bra .. | .jmpi .. | .call .. | .calli .. | .ret .. | .relcall .. | .tjoin .. | .tend .. | .exit .. | .nop ..
  | .yieldI .. | .progress .. | .trap .. | .svc .. | .eret .. => true
  | _ => false

/-- A latch producer: an instruction of the arithmetic, logic, compare, FP32, packed, convert or cell-and-grid groups that
names a destination; PMOV's write form names the predicate set (R60). -/
def Instr.producesLatch (i : Instr) : Bool :=
  match i with
  | .pmov .. => true
  | _ => match i.latchDst with
    | some d => d != .none
    | none => false

/-- The common fields of an instruction word. -/
def Instr.common (i : Instr) : Common :=
  match i.encode with
  | some w => fldCommon w
  | none => { t := 0, k := false, guard := 7, sense := false }

/-- The latch numbers that an instruction reads. -/
def Instr.latchReads (i : Instr) : List Nat :=
  i.sources.filterMap fun s => match s with | .latch b => some b.toNat | _ => none

/-- The slot of the latest producer of latch `n` before slot `i` (R60). -/
def producerSlot (n : Nat) : Nat → Option Nat
  | 0 => none
  | i + 1 => if i % 4 == n then some i else producerSlot n i

/-- A latch read in slot `i` has a producer with no blocking instruction after it (R60, R104). -/
def latchOk (is : List Instr) (i n : Nat) : Bool :=
  match producerSlot n i with
  | none => false
  | some j =>
    (match is[j]? with | some p => p.producesLatch | none => false) &&
    !((is.drop (j + 1)).take (i - j)).any Instr.blocks

/-- Whether slot `i` of a clause of `n` words breaks a check of R62, R63 or R104. -/
def slotBad (h : Header) (n : Nat) (is : List Instr) (i : Nat) (x : Instr) : Bool :=
  (match x.engineClass with | some e => e != h.eng | none => false) ||
  (x.isTransfer && i + 1 != n) ||
  x.latchReads.any fun n => !latchOk is i n

/-- Decoding of the words of a clause up to the first that is no instruction. -/
def decodeSlots : List Word64 → List Instr × Bool
  | [] => ([], true)
  | w :: r =>
    match decodeWord w with
    | .ok i => let (l, ok) := decodeSlots r; (i :: l, ok)
    | .error _ => ([], false)

/-- The first offending slot of a clause whose header word is `hw`: 15 for a header fault, none for a legal clause (R74,
R75). A single control instruction is legal with any engine class (R62). An offending instruction comes before a class that does not
match (log 62). -/
def clauseFault (hw : Word64) (words : List Word64) : Option Nat :=
  match Header.decode hw with
  | none => some 15
  | some h =>
    let (is, ok) := decodeSlots words
    match is.zipIdx.findSome? fun p => if slotBad h words.length is p.2 p.1 then some p.2 else none with
    | some i => some i
    | none =>
      if !ok then some is.length
      else if (is.map fun i => i.common.t.toNat).foldl max 0 != h.cls.toNat then some 15
      else none

/-- The cycles that must pass before slot `i` may enter E1 after the cycle in which slot `i - 1` did (R61, R121): a register
read waits for its producer to leave E4, a latch read for the end of the stage of the producer's class. `entered` holds
(slot, cycle) of the earlier slots. -/
def earliestEntry (is : List Instr) (entered : List (Nat × Nat)) (i : Nat) : Nat :=
  match is[i]? with
  | none => 0
  | some x =>
    let regs := x.regReads
    let lats := x.latchReads.filterMap fun n => producerSlot n i
    (entered.map fun e =>
      match is[e.1]? with
      | none => 0
      | some p =>
        let byReg := if p.regWrites.any (regs.contains ·) then e.2 + 4 else 0
        let byLat := if lats.contains e.1 then e.2 + 1 + p.common.t.toNat else 0
        max byReg byLat).foldl max 0

end Sys2Proof
end

