-- ==== Sys2Proof/Machine/Issue.lean ====
section
/-!
DEFINITION. Issue of a clause slot by slot: the length of a cycle (R120, R324), bubbles (R121), the members of a slot in turn
(R117), the fences that releases and acquires leave (R259), the end of a slot and of a clause, and retirement (R297, R299).
-/
namespace Sys2Proof.Machine

/-- Ticks of a cycle of a class at a performance step (R120, R324). -/
def cycleTicks (step cls : Nat) : Nat :=
  (match step with
    | 0 => [3, 4, 6, 8] | 1 => [4, 5, 7, 10] | 2 => [4, 6, 8, 11] | 3 => [5, 7, 10, 13]
    | 4 => [6, 8, 12, 16] | 5 => [7, 10, 14, 19] | 6 => [9, 12, 18, 24] | _ => [12, 16, 24, 32]).getD cls 3

/-- One core cycle: an instruction of class `cls` enters E1; 0 also stands for an empty stage (R120, R123). -/
def cycleCore (step cls : Nat) (u : CoreUnit) : CoreUnit :=
  let pipe := cls :: u.pipe.take 3
  { u with cyc := u.cyc + 1, ticks := u.ticks + cycleTicks step (pipe.foldl max 0), pipe := pipe,
           affTimer := u.affTimer + 1 }

/-- `n` cycles in which nothing enters E1. -/
def idleCycles (step : Nat) : Nat → CoreUnit → CoreUnit
  | 0, u => u
  | n + 1, u => idleCycles step n (cycleCore step 0 u)

def stepOf (s : State) (core : Nat) : Nat := (quadAt s (globalQuad core)).step

/-- `n` empty cycles at once: after three of them the stages are empty, and each is as long as the next. -/
def emptyCycles (step n : Nat) (u : CoreUnit) : CoreUnit :=
  let v := idleCycles step (min n 3) u
  { v with cyc := v.cyc + (n - 3), ticks := v.ticks + (n - 3) * cycleTicks step 0, affTimer := v.affTimer + (n - 3) }

/-- The empty cycles after which a clock has reached a time. -/
def cyclesUntil (step now : Nat) (u : CoreUnit) : Nat :=
  match (List.range 4).find? fun n => now ≤ (idleCycles step n u).ticks with
  | some n => n
  | none => 3 + (now - (idleCycles step 3 u).ticks + cycleTicks step 0 - 1) / cycleTicks step 0

/-- The empty cycles that a core in which no group issues is behind the module's time (R123). -/
def cyclesBehind (s : State) (core : Nat) : Nat :=
  if (coreAt s core).issue.isSome then 0 else cyclesUntil (stepOf s core) s.mod.time (coreAt s core)

/-- %cyc and %time of a core as they stand once its clock has reached the module's time (R123). -/
def cycNow (s : State) (core : Nat) : Nat := (coreAt s core).cyc + cyclesBehind s core
def ticksNow (s : State) (core : Nat) : Nat := (emptyCycles (stepOf s core) (cyclesBehind s core) (coreAt s core)).ticks

/-- The module tick count is the latest that a core has reached (log 7). -/
def syncTime (s : State) (core : Nat) : State :=
  updMod s fun m => { m with time := max m.time (coreAt s core).ticks }

/-! ## Retirement (R297, R299) -/

/-- The entry of the energy table (R299). -/
def energyEntry (s : State) (cat width step : Nat) : Nat :=
  ((tabGet s.mod.energyTab (32 * cat + 8 * width + step)).getD 0).toNat

/-- A core's energy accumulator grows by `n` entries of a category (R299). -/
def chargeEnergy (s : State) (core cat width n : Nat) : State :=
  let e := n * energyEntry s cat width (stepOf s core)
  updCore s core fun u => { u with energy := u.energy + BitVec.ofNat 64 e }

/-- An instruction of a launch's member on a core retires: energy is charged, and the watchdog's retirement count starts anew (R282,
R297). -/
def retireEntry (s : State) (core launch : Nat) (cat : Option Nat) (width : Nat) : State :=
  let s1 := match cat with | some c => chargeEnergy s core c width 1 | none => s
  updCtx s1 launch core fun c => { c with lastRetire := s.mod.time }

/-- The energy category of an instruction as it retires: 15 where it is guarded off, none where an engine charges it (R299). -/
def retireCat (guardedOff : Bool) (i : Instr) : Option Nat :=
  if guardedOff then some 15 else if i.chargedByUnit then none else some i.energy.1

/-- A member retires an instruction (R297, R299). -/
def retire (s : State) (m : Member) (guardedOff : Bool) (i : Instr) : State :=
  retireEntry s m.core m.launch (retireCat guardedOff i) i.energy.2

/-- Instructions that have left E4 retire (R297). -/
def flushRetired (s : State) (core : Nat) : State :=
  let u := coreAt s core
  if u.retiring.any fun r => r.cycle ≤ u.cyc then
    (u.retiring.filter fun r => r.cycle ≤ u.cyc).foldl (fun t r => retireEntry t core r.launch r.cat r.width)
      (updCore s core fun v => { v with retiring := v.retiring.filter fun r => u.cyc < r.cycle })
  else s

/-- An instruction that is in E1 in the present cycle will retire as it leaves E4 (R120, R297). -/
def retireLater (s : State) (core launch : Nat) (cat : Option Nat) (width : Nat) : State :=
  updCore s core fun u => { u with retiring := u.retiring ++ [{ cycle := u.cyc + 4, launch := launch, cat := cat, width := width }] }

/-- A member is executing the word at its slot on a core: the instruction is in E1. -/
def inSlot (s : State) (core : Nat) : Bool := s.sched.cur.any fun k => k.core == core

/-- The core's clock runs `n` empty cycles. -/
def runIdle (s : State) (core n : Nat) : State :=
  flushRetired (syncTime (updCore s core (idleCycles (stepOf s core) n)) core) core

/-- The core's clock runs the cycle in which an instruction of a class enters E1. -/
def runCycle (s : State) (core cls : Nat) : State :=
  flushRetired (syncTime (updCore s core (cycleCore (stepOf s core) cls)) core) core

/-- The class field of an instruction word (R54). -/
def wordClass (w : Word64) : Nat := (f2 w 52).toNat

/-! ## A slot and its members -/

/-- A slot begins: the bubbles of the interlocks pass, and its entry into E1 is noted (R61, R115, R121). -/
def startSlot (s : State) (core : Nat) (g : Issue) : State × Issue :=
  if g.started then (s, g)
  else
    let at_ := earliestEntry (decodeSlots (g.words.drop 1)).1 g.entered g.slot
    let s1 := runIdle s core (at_ - (coreAt s core).cyc)
    let es := (g.entered.filter fun e => e.1 != g.slot) ++ [(g.slot, (coreAt s1 core).cyc)]
    (g.members.foldl (fun t id => updMember t id fun m => { m with entered := es }) s1, { g with started := true, entered := es })

/-- Whether a member's guard evaluates false for a word (R55). -/
def guardIsOff (s : State) (id : Nat) (w : Word64) : Bool :=
  match memberAt s id with
  | some m => m.r.getP (fldCommon w).guard == (fldCommon w).sense
  | none => false

/-- The gang of a member in a slot (R29). -/
def gangOf (m : Member) : Option Nat :=
  match m.place with
  | .slot n => some (n / 64)
  | _ => none

/-- A member's gang issues in the present cycle of its core (R114). -/
def noteGang (s : State) (core id : Nat) : State :=
  match (memberAt s id).bind gangOf with
  | some g => updCore s core fun u => { u with lastIssued := tabPut u.lastIssued g u.cyc }
  | none => s

/-- The next member of the issuing group takes its turn at the slot. -/
def beginMember (s : State) (core : Nat) : Option State :=
  match (coreAt s core).issue with
  | none => none
  | some g0 =>
    let (s1, g) := startSlot s core g0
    match g.todo with
    | [] => none
    | id :: rest =>
      let k : Cur :=
        { core := core, member := id, h := g.h, slot := g.slot, word := g.words.getD (g.slot + 1) 0,
          count := g.words.length - 2, off := guardIsOff s1 id (g.words.getD (g.slot + 1) 0), hold := false }
      some { updCore (noteGang s1 core id) core (fun u => { u with issue := some { g with todo := rest } }) with
        sched := { s1.sched with cur := some k } }

/-- Whether a token code names a token. -/
def namesToken (tok : BitVec 3) : Bool := tok.toNat < 6

/-- The token code that an instruction of the memory group, LDIO or STIO names. -/
def accessTok : Instr → Option (BitVec 3)
  | .ld _ _ m | .st _ _ m | .ldx _ _ _ m | .stx _ _ _ m | .pref _ m | .vld _ _ m | .atom _ _ _ m | .atomr _ _ _ m | .cas _ _ m
  | .kcas2 _ _ _ m | .kenq _ _ m | .kdeq _ _ m | .kchase _ _ _ m | .kchunk _ _ m | .sarm _ _ m | .sadd _ _ m => some m.tok
  | .ldio _ _ _ _ t | .stio _ _ _ _ t => some t
  | _ => none

/-- Whether an instruction retires not as it leaves E4 but as the count of its token is taken away (R297); SWAIT, which blocks,
retires as its wait ends. -/
def retiresLater (i : Instr) : Bool :=
  match i with
  | .swait .. => true
  | .ld .. | .st .. | .ldx .. | .stx .. | .pref .. | .vld .. | .atom .. | .atomr .. | .cas .. | .kcas2 .. | .kenq ..
  | .kdeq .. | .kchase .. | .kchunk .. | .sarm .. | .sadd .. | .ldio .. | .stio .. => (accessTok i).any namesToken
  | .fence _ _ _ t | .copy _ _ _ _ _ _ _ t | .copym _ _ _ _ _ _ _ _ _ t | .mmab _ _ _ _ _ t | .scacc _ _ _ _ _ _ t
  | .mload _ _ _ _ t | .mstore _ _ _ _ _ _ _ t | .mzero _ _ t | .tmma _ _ _ _ t | .drun _ _ _ t | .ecan _ _ t
  | .spawn _ _ ⟨_, _, _, _, _, t, _⟩ | .shoot _ _ _ _ _ _ t | .ctxsave _ _ _ _ t | .ctxload _ _ _ _ t
  | .ckpt _ _ _ _ t | .ckptRb _ _ _ _ t => namesToken t
  | _ => false

/-! ## The end of a slot and of a clause -/

/-- A member's position after a clause with header `h` and `count` more instructions: its branch target or the fall-through;
latches are lost (R59, R60). -/
def Member.afterClause (m : Member) (h count : Nat) : Member :=
  { m.leftClause with pc := m.next.getD (wrapIdx (h + count + 2)), slot := 0, next := none, cameFrom := some h,
                      lat := Vector.replicate 4 0, nbrVals := [], parkWish := m.parkWish && !releasedMode m }

/-- One retiring member (R282, R297, R299): where its instruction is still at its slot it retires as it leaves E4. -/
def retireAs (s : State) (id cat width : Nat) : State :=
  match memberAt s id with
  | none => s
  | some m => if inSlot s m.core then retireLater s m.core m.launch (some cat) width else retireEntry s m.core m.launch (some cat) width

/-- A tail has ended: its releaser's TJOIN and frame join end with their last tail (R142, R143, R298). -/
def releaseJoins (s : State) (rel : Nat) : State :=
  match memberAt s rel with
  | none => s
  | some m =>
    match m.wait with
    | .tjoin =>
      if (liveTails s rel).isEmpty then
        settle (updMember (retireAs s rel 7 1) rel fun v => v.afterClause v.pc v.count) rel
      else s
    | .frameJoin ts =>
      if ts.any fun t => ((memberAt s t).map isLive).getD false then s else settle s rel
    | _ => s

/-! ## Fences (R259) -/

/-- Accesses of a member that are not complete, in program order. -/
def ownAccs (s : State) (id : Nat) : List (Nat × Access) := s.accs.filter fun e => e.2.member == id

/-- Kinds that count as accesses of a context for FENCE and releases: all but PREF and the engines' own (R191, R214, R289). -/
def AccKind.fenced : AccKind → Bool
  | .pref | .engineWrite .. | .advance _ | .completion _ | .nodeStore _ | .nodeRead _ => false
  | _ => true

/-- Whether an access is an I/O access (R289). -/
def AccKind.isIo : AccKind → Bool
  | .ioRead _ | .ioWrite _ => true
  | _ => false

/-- Loads, atomics and keeper operations (R259). -/
def AccKind.reads : AccKind → Bool
  | .load | .vld | .atom .. | .cas | .kcas2 | .kenq | .kdeq | .kchase | .kchunk | .swait | .ioRead _ | .nodeRead _ => true
  | _ => false

/-- Kinds whose response brings a value, and with it a stamp (R235). -/
def AccKind.returnsValue : AccKind → Bool
  | .atom _ ret => ret
  | k => k.reads

/-- Stores, atomics, keeper and sync-word operations (R259). -/
def AccKind.writes : AccKind → Bool
  | .store | .atom .. | .cas | .kcas2 | .kenq | .kdeq | .kchase | .kchunk | .sarm | .sadd | .swait | .ioWrite _
  | .engineWrite .. | .advance _ | .completion _ | .nodeStore _ => true
  | _ => false

/-- Whether an access is performed: its value is fixed or taken (R186). -/
def Access.performed (a : Access) : Bool := a.phase == .performed || a.phase == .returning

/-- Whether an access is a peer's SWAIT, which no member made (R315): a member's stands under number 6, that of no token. -/
def Access.peerWait (a : Access) : Bool := a.kind == .swait && a.tok == 7

/-- Whether an access goes to a peer. -/
def Access.onPeer (a : Access) : Bool :=
  match a.tgt with
  | .peer .. => true
  | .loc _ => false

/-- An access is held by a fault, or replayed and not yet performed (R182, R183). -/
def isHeld (s : State) (ide : Nat) (e : Access) : Bool :=
  e.phase == .logged || ((coreAt s e.core).log.any fun x => x.2.acc == ide) && !e.performed

/-- The accesses that a FENCE or release covers (R186, R259): earlier accesses of the member that are not performed, but for those
whose token is outstanding; I/O accesses count at `.module` and `.pod` (R289); an access held by a fault is waited for whatever
its token, until its replay is performed (R183). -/
def fenceAll (s : State) (id : Nat) (scope : MScope) : List (Nat × Access) :=
  (ownAccs s id).filter fun e =>
    e.2.kind.fenced && !e.2.performed && (e.2.tok == 6 || isHeld s e.1 e.2) &&
    (!e.2.kind.isIo || scope == .module || scope == .pod)

/-- Those of them that a release at a scope waits for: homes on a peer only at `.pod` (R256). -/
def fenceSet (s : State) (id : Nat) (scope : MScope) : List (Nat × Access) :=
  (fenceAll s id scope).filter fun e => !e.2.onPeer || scope == .pod

/-- What a release at a scope waits for beside its member's own accesses, since it is cumulative (R257): the sequences that its context may
have observed. Parties of one field share their knowledge, so a narrower scope needs none (log 67). -/
def releaseNeed (s : State) (m : Member) (scope : MScope) : List Nat :=
  let v := joinVec (fieldAt s (fieldOf m.core)).know m.owed
  if !(scope == .module || scope == .pod) || (m.seq == 0 && m.owed.isEmpty) || applied s v then [] else v

/-- A TRIG counts once (R90). -/
def countTrig (s : State) (id : Nat) : State :=
  match memberAt s id with
  | none => s
  | some m =>
    if m.triggered then s
    else updMember (updLaunch s m.launch fun l => { l with trigCount := l.trigCount + 1 }) id fun v =>
      { v with triggered := true }

/-- A fence's own set is empty: its token clears, and what an acquire's loads have met is owed by what comes behind it (R257, R259). -/
def clearFence (s : State) (id : Nat) (f : FenceRec) : State :=
  let s1 := match f.tok with | some t => tokDec (retireAs s id 7 1) id t | none => s
  if f.acq then updMember s1 id fun v => { v with owed := joinVec v.owed v.seen, seen := [] } else s1

/-- A fence of a member ends: its TRIG counts. -/
def endFence (s : State) (id : Nat) (f : FenceRec) : State :=
  let s1 := clearFence s id f
  if f.trig then countTrig s1 id else s1

/-- The fences of a member after the accesses that have been performed are struck off (R259): one whose own accesses are done has
cleared its token, and ends once the sequences that it waits for have been applied. -/
def settleFences (s : State) (id : Nat) : State :=
  match memberAt s id with
  | none => s
  | some m =>
    let still (a : Nat) : Bool := ((tabGet s.accs a).map fun x => !x.performed).getD false
    let merged (a : Nat) : Bool := (tabGet s.accs a).isSome
    let fs := m.fences.map fun f =>
      { f with waits := f.waits.filter still, reads := f.reads.filter merged, need := if applied s f.need then [] else f.need }
    let own (f : FenceRec) : Bool := f.waits.isEmpty && f.reads.isEmpty
    let kept := (fs.filter fun f => !(own f && f.need.isEmpty)).map fun f => if own f then { f with tok := none, acq := false } else f
    (fs.filter own).foldl (fun t f => if f.need.isEmpty then endFence t id f else clearFence t id f)
      (updMember s id fun v => { v with fences := kept })

/-- The releases that wait for sequences are looked at anew (R257), and what has been applied is owed no more. -/
def settleNeeds (s : State) : State :=
  let paid (v : List Nat) : List Nat := if applied s v then [] else v
  let s1 : State := { s with members := s.members.map fun e =>
    (e.1, if e.2.owed.isEmpty && e.2.seen.isEmpty then e.2 else { e.2 with owed := paid e.2.owed, seen := paid e.2.seen }) }
  (s1.members.filter fun e => e.2.fences.any fun f => !f.need.isEmpty && applied s f.need).foldl (fun t e => settleFences t e.1) s1

/-- A fence of a member at a scope (R259). A barrier's or TRIG's release comes behind the releases that are open (R90, R264). -/
def fence (s : State) (id : Nat) (rel acq : Bool) (scope : MScope) (tok : Option Nat) (trig : Bool)
    (bar : Option (Scope × Nat) := none) : State :=
  match memberAt s id with
  | none => s
  | some m =>
    let open_ := if trig || bar.isSome then m.fences.filter (·.rel) else []
    let f : FenceRec :=
      { seq := m.seq, rel := rel, acq := acq,
        waits := ((fenceSet s id scope).map (·.1)) ++ open_.flatMap (·.waits),
        reads := if acq then ((fenceAll s id scope).filter fun x => x.2.kind.reads).map (·.1) else [], tok := tok, trig := trig,
        io := scope == .module || scope == .pod, bar := bar,
        need := open_.foldl (fun v x => joinVec v x.need) (if rel then releaseNeed s m scope else []) }
    let s1 := match tok with | some t => tokInc s id t | none => s
    settleFences (updMember s1 id fun v => { v with fences := v.fences ++ [f] }) id

/-- ReleaseFence and AcquireFence (R125, R260). -/
def releaseFence (s : State) (id : Nat) (scope : MScope) : State := fence s id true false scope none false
def acquireFence (s : State) (id : Nat) (scope : MScope) : State := fence s id false true scope none false

/-! ## Leaving -/

/-- What a departing grid cell counts for (R89, R90): its departure is its TRIG where it has none, and releases as a TRIG does; it counts
once that release, and that of a TRIG still open, have ended. -/
def countDeparture (s : State) (id : Nat) (m : Member) : State :=
  if m.triggered then s else fence s id true false .pod none true

/-- Reports of a cell's steps to peers that wait on it (R319): `step` completed steps. -/
def reportSteps (s : State) (m : Member) (step : Nat) : State :=
  match launchAt s m.launch with
  | none => s
  | some l =>
    let peers := (l.stepWatchers.filter fun w => w.2 == m.linear).map (·.1)
    updMod s fun u => { u with answers := u.answers ++ peers.map fun p => .spanStep p l.spanId m.linear step }

/-- A generation of a cell reaches another context: the committing context has escaped if it is archived and committed it in its
present interval (R305). -/
def escapeFace (s : State) (m : Member) (gen : Nat) : State :=
  updCtx s m.launch m.core fun c =>
    if c.archived && (if gen % 2 == 0 then m.int0 else m.int1) == some c.interval then { c with escaped := true } else c

/-- Answers to the reads from peers that waited on a cell of a span, each on the channel on which it came (R20, R317, R319). -/
def answerSpan (s : State) (span : Nat) (m : Member) : State :=
  let mine (w : SpanWait) : Bool := !w.isStep && w.span == span && span != 0 && w.linear == m.linear && (m.departed || w.gen ≤ m.done)
  let ans := (s.mod.spanWaits.filter mine).map fun w =>
    Answer.spanRead w.module w.channel w.span w.linear (pubAt m (if m.departed then min w.gen m.done else w.gen) w.face)
  let s1 := (s.mod.spanWaits.filter mine).foldl
    (fun t w => escapeFace t m (if m.departed then min w.gen m.done else w.gen)) s
  updMod s1 fun u => { u with answers := u.answers ++ ans, spanWaits := u.spanWaits.filter fun w => !mine w }

/-- Answers to the reads from peers that waited on a cell here. -/
def serveSpanReads (s : State) (m : Member) : State :=
  match launchAt s m.launch with
  | none => s
  | some l => answerSpan s l.spanId m

/-- The number that a departed cell reports as its completed steps: beyond every step that a neighbour asks for (R19; log 22). -/
def departedSteps : Nat := 2 ^ 64

/-- Asynchronous faults that a leaving member has not taken go to Sernus (R212, R270). -/
def strandFaults (s : State) (id : Nat) (m : Member) : State :=
  updMember (m.async.foldl (fun t fi => sendRecord t (faultRecord t m fi fi.cause fi.detail)) s) id fun v => { v with async := [] }

/-- A member that leaves waits at no sync word any more (R201, R281). -/
def dropSwait (s : State) (id : Nat) : State :=
  { s with accs := s.accs.filter fun e =>
      !(e.2.kind == .swait && e.2.member == id && (e.2.phase == .registered || e.2.phase == .returning)) }

/-- A member leaves (R23, R28, R94, R138, R141): a grid cell departs; a task cell or tail ends and frees its slot; a curator
goes idle and keeps its slot. -/
def leaveMember (s : State) (id : Nat) : State :=
  match memberAt s id with
  | none => s
  | some m =>
    let s1 := updCore (dropSwait s id) m.core fun u => { dropFromGroup id u with dqWaiters := u.dqWaiters.filter (· != id) }
    let s2 := strandFaults { s1 with nbrs := s1.nbrs.filter fun e => e.2.reader != id } id m
    let s2 := if m.trapMode then endTrapTime (updMember s2 id fun v => { v with trapMode := false }) m else s2
    match m.kind with
    | .grid =>
      let s3 := updMember s2 id fun m =>
        { m with departed := true, place := .gone, wait := .inactive, terminating := false, moveTo := none, put := {} }
      serveSpanReads (reportSteps (countDeparture s3 id m) m departedSteps) { m with departed := true }
    | .curator => updMember s2 id fun m => { m with wait := .inactive, terminating := false, moveTo := none, put := {} }
    | .task => updMember s2 id fun m => { m with place := .gone, wait := .inactive, terminating := false, moveTo := none, put := {} }
    | .tail =>
      releaseJoins (updMember s2 id fun m => { m with place := .gone, wait := .inactive, terminating := false, moveTo := none, put := {} })
        (m.releaser.getD id)

/-- A member ends the clause with header `h` and `count` more instructions (R59, R60, R118, R143); a member that was terminated
while its group issued goes no further, and leaves as the turn ends (R281). -/
def endClause (s : State) (id h count : Nat) : State :=
  match memberAt s id with
  | none => s
  | some m =>
    if m.terminating then s
    else settle (updMember s id fun v => v.afterClause h count) id

/-- A member that left its group at a slot goes on behind it: at the next slot, or past the clause (R104, R117). -/
def passSlot (s : State) (id : Nat) : State :=
  match memberAt s id with
  | none => s
  | some m =>
    if m.slot ≥ m.count then endClause s id m.pc m.count
    else wake (updMember s id fun m => { m with slot := m.slot + 1, nbrVals := [] }) id

/-- The slot is done: its cycle passes; the group goes on to the next slot, or its members end the clause. -/
def endSlot (s : State) (k : Cur) (g : Issue) : State :=
  let s1 := runCycle s k.core (wordClass k.word)
  if g.members.isEmpty then updCore s1 k.core fun u => { u with issue := none }
  else if g.slot ≥ k.count then
    g.members.foldl (fun t id => endClause t id g.h k.count)
      (updCore s1 k.core fun u =>
        { u with issue := none, yielded := if (g.words.getD 0 0).getLsbD 45 then u.yielded ++ g.members else u.yielded })
  else updCore s1 k.core fun u =>
    { u with issue := some { g with slot := g.slot + 1, todo := g.members, started := false } }

/-- The format of a code that a register transfer can name. -/
def fmtOfCode (n : Nat) : Option Fmt :=
  match n with
  | 0 => some .n8 | 1 => some .n16 | 2 => some .n32 | 3 => some .n64 | 4 => some .i8 | 5 => some .i16 | 6 => some .i32
  | 7 => some .i64 | 8 => some .fp16 | 9 => some .bf16 | 10 => some .fp32 | _ => none

/-- The format code of a view record (R169). -/
def View.fmt (v : ViewBits) : Nat := (v.extractLsb' 208 8).toNat

/-- The width code of an instruction that retires at its slot (R299): of its view's element where it takes its width from one. -/
def retireWidth (s : State) (core : Nat) (i : Instr) : Nat :=
  match i with
  | .ld _ _ o | .st _ _ o | .pref _ o | .atom _ _ _ o | .atomr _ _ _ o | .cas _ _ o =>
    fmtWidthCode ((fmtOfCode (View.fmt ((tabGet (coreAt s core).views o.view.toNat).getD 0))).getD .n32)
  | _ => i.energy.2

/-- The member has had its turn. If it must wait at its slot with the group, a bubble passes and it tries again (R185,
R207); otherwise, the group's last member ends the slot. -/
def endMember (i : Instr) (s : State) : State :=
  match s.sched.cur with
  | none => s
  | some k =>
    let s0 : State := { s with sched := { s.sched with cur := none } }
    match (coreAt s0 k.core).issue with
    | none => s0
    | some g =>
      if k.hold then
        runIdle (updCore s0 k.core fun u => { u with issue := some { g with todo := k.member :: g.todo, started := false } }) k.core 1
      else
        let stays := g.members.contains k.member
        let s1 := if stays then updMember s0 k.member fun m => { m with nbrVals := [] } else s0
        let s2 := match memberAt s1 k.member with
          | some m =>
            if stays && (k.off || !retiresLater i) then retireLater s1 m.core m.launch (retireCat k.off i) (retireWidth s1 m.core i) else s1
          | none => s1
        if g.todo.isEmpty then endSlot s2 k g else s2

/-- The core that issues next: of those that have a group the one whose clock is furthest behind, ties to the lowest number, so that the
clocks of the module agree (R123; log 4). -/
def issuingCore (s : State) : Option Nat :=
  (bestBy (fun a b => a.2.ticks < b.2.ticks || (a.2.ticks == b.2.ticks && a.1 < b.1))
    (s.cores.filter fun e => e.2.issue.isSome)).map (·.1)

/-- The core that issues in a turn of `core`: one whose clock is behind it goes first (R123). -/
def dueCore (s : State) (core : Nat) : Nat :=
  match issuingCore s with
  | some c => if (coreAt s c).ticks < (coreAt s core).ticks then c else core
  | none => core

end Sys2Proof.Machine
end

