-- ==== Sys2Proof/Machine/Units.lean ====
section
/-!
DEFINITION. New units: members (R11, R24, R27, R94, R166), contexts (R119, R271), user queues (R77), and the views that a
context brings to a core (R86).
-/
namespace Sys2Proof.Machine

/-- A member with zero registers but g63 (R11). -/
def newMember (kind : Kind) (launch core home index linear : Nat) (coord : Nat × Nat × Nat) (place : Place)
    (pc stackBase g63 : Nat) (now cyc : Nat) : Member :=
  { kind := kind, launch := launch, core := core, home := home, index := index, linear := linear, coord := coord,
    place := place, pc := pc, slot := 0, count := 0, next := none, cameFrom := none,
    r := { g := (Vector.replicate 64 0).set 63 (BitVec.ofNat 32 g63), f := Vector.replicate 8 0, p := 0 },
    lat := Vector.replicate 4 0, pub0 := Vector.replicate 8 0, pub1 := Vector.replicate 8 0, done := 0,
    int0 := none, int1 := none, tok := Vector.replicate 6 0, drain := 0, rp := 0, rd := 0, trapMode := false, trapRec := 0, holdTop := 0,
    releaser := none, departed := false, triggered := false, stopRec := none, wait := .ready, nbrVals := [],
    arrivals := Vector.replicate 6 0, base0 := Vector.replicate 6 0, async := [], demanded := false, ptime := now,
    unparkTime := now, readySince := cyc, stackBase := stackBase, seq := 0, fences := [], moveTo := none,
    parkWish := false, joinTails := [], terminating := false }

/-- A grid cell with assignment index `index`: stack index and g63 as R166 gives. -/
def newCell (l : Launch) (launch core index linear : Nat) (coord : Nat × Nat × Nat) (place : Place) : Member :=
  newMember .grid launch core core index linear coord place l.pkt.entry (index * l.stackSize)
    ((index + 1) * l.stackSize) l.startTime 0

/-- The ceiling of a context's performance request (R325). -/
def allowOf (s : State) (prio : Nat) : Nat := s.mod.allow.toList.getD prio 7

/-- A context of a launch on a core (R119, R271). -/
def newCtx (l : Launch) (number cells grant : Nat) (gangs : List Nat) (now : Nat) (req : Nat := 7) : Ctx :=
  { number := number, desc := l.desc, stackSize := l.stackSize, vwFirst := l.vwFirst, vwCount := l.vwCount,
    trapEntry := 0xFFFFFFFF, route := 0, cells := cells, grant := grant, gangs := gangs, credit := 0, lastMark := now,
    lastRetire := now, switching := false, switchAt := 0, isOut := false, req := req,
    archived := l.archived, interval := 0, escaped := false, unlogged := false, lastClose := now, carved := [],
    closed := [], closedLogs := [], closedCmds := [], dueSent := false,
    trapSince := now, listCount := 0, want := 0, written := false, image := [], savedCmds := [], lost := [],
    outFor := .sernus }

/-- The contexts of a core that are in. -/
def ctxsOf (s : State) (core : Nat) : List (Nat × Ctx) :=
  s.ctxs.filter fun e => e.1 % 4096 == core && !e.2.isOut

/-- The lowest context number that no other context on the core holds (R119). -/
def freeNumber (s : State) (core : Nat) : Option Nat :=
  (List.range Config.maxContexts).find? fun n => !(ctxsOf s core).any fun e => e.2.number == n

/-- Launches without a context on a core of which a member is about to move there (R110, R119). -/
def comingTo (s : State) (core : Nat) : List Nat :=
  ((s.members.filter fun e => (e.2.moveTo.any fun x => x.1 == core) || (e.2.put.move.any fun x => x.1 == core)).map fun e =>
    e.2.launch).dedup.filter fun l => (ctxAt s l core).isNone

/-- Whether a core has a context number for a launch that no other context holds and no move has reserved (R119). -/
def numberOpen (s : State) (launch core : Nat) : Bool :=
  (ctxsOf s core).length + ((comingTo s core).filter (· != launch)).length < Config.maxContexts

/-- The argument block's views enter the core's view table from entry 0 of the window (R86). A record whose index would pass 63, which
software is to avoid, goes to the entry modulo 64 (log 68). -/
def loadViews (s : State) (l : Launch) (core : Nat) : State :=
  updCore s core fun u =>
    { u with views := l.argViews.zipIdx.foldl (fun t p => tabPut t ((l.argFirst + p.2) % 64) p.1) u.views }

/-- The view record of an entry (R169); entries that nothing has written read 0 (log 2). -/
def viewAt (s : State) (core entry : Nat) : ViewBits := (tabGet (coreAt s core).views entry).getD 0

/-- Whether a descriptor is one that a queue may have (R77, R167): the size and alignments, and a number with a doorbell page. -/
def queueLegal (q : QueueDesc) : Bool :=
  4 ≤ q.k && q.k ≤ 16 && q.ring.toNat % 64 == 0 && q.page.toNat % 4096 == 0 && q.root.toNat % 64 == 0 && q.number < 65536

/-- Sernus creates a user queue (R77) under a number that no queue has. Its read index and its notified index begin at 0, whatever the
counters in memory hold (log 62). -/
def createQueue (s : State) (q : QueueDesc) : State :=
  if !queueLegal q || (tabGet s.queues q.number).isSome then s else
  let u : Queue :=
    { desc := q, notified := 0, ridx := 0, err := false, cause := 0, failIdx := 0, fates := [], pageWait := false,
      stall := false }
  { s with queues := tabPut s.queues q.number u }

end Sys2Proof.Machine
end

