-- ==== Sys2Proof/Machine/Control.lean ====
section
/-!
DEFINITION. The control group 0x6 (R135 to R145): branches, calls, release, joins, ends and picker hints, with the steps that
end the waits of EXIT, RELCALL and TEND (R118).
-/
namespace Sys2Proof.Machine

/-- The target of a branch by words from the header (R136). -/
def branchTarget (h : Nat) (off : BitVec 31) : Nat := wrapIdx ((h : Int) + off.toInt)

/-- The member's next position (R136). -/
def jumpTo (s : State) (id target : Nat) : State := updMember s id fun m => { m with next := some target }

/-- The return index of CALL and CALLI (R136). -/
def returnIndex (k : Cur) : Word := BitVec.ofNat 32 (wrapIdx ((k.h : Int) + k.count + 2))

/-- A control form without operands and without results (R135). -/
def controlInstr (s : State) (c : Common) (checks : Member → Option Nat) (run : Cur → Member → State) : Result :=
  runForm s c checks [] (fun _ _ => s) fun k m _ => run k m

/-- A transfer to a word index that an operand gives (R136). -/
def indexInstr (s : State) (c : Common) (a : Src) (run : Cur → Member → Word → State) : Result :=
  runForm s c (fun m => srcFault m .w32 a) [(.w32, a)] (fun _ _ => s) fun k m vs =>
    match vs with
    | [x] => run k m (lo32 x)
    | _ => s

/-- A member passes its last slot: it stands behind its clause (R118). -/
def passClause (s : State) (id : Nat) : State :=
  match memberAt s id with
  | none => s
  | some m => endClause s id m.pc m.count

/-- One free number of a list; which one the manual leaves open (log 6). -/
def chooseFrom (s : State) (l : List Nat) : Option (Nat × State) :=
  if l.isEmpty then none
  else
    let (n, s1) := drawFree s
    some (l.getD (Config.freeChoice n % l.length) 0, s1)

/-! ## Branches and calls (R136) -/

/-- BRA (R136). -/
def execBra (c : Common) (off : BitVec 31) (st : State) : Result :=
  controlInstr st c (fun _ => none) fun k _ => jumpTo st k.member (branchTarget k.h off)

/-- JMPI (R136). -/
def execJmpi (c : Common) (a : Src) (st : State) : Result :=
  indexInstr st c a fun k _ t => jumpTo st k.member t.toNat

/-- CALL (R136). -/
def execCall (c : Common) (link : BitVec 6) (off : BitVec 31) (st : State) : Result :=
  controlInstr st c (fun _ => none) fun k _ =>
    jumpTo (writeG st k.member link (returnIndex k)) k.member (branchTarget k.h off)

/-- CALLI reads its operand before it writes the link (R136). -/
def execCalli (c : Common) (link : BitVec 6) (a : Src) (st : State) : Result :=
  indexInstr st c a fun k _ t => jumpTo (writeG st k.member link (returnIndex k)) k.member t.toNat

/-- RET (R136). -/
def execRet (c : Common) (a : Src) (st : State) : Result :=
  indexInstr st c a fun k _ t => jumpTo st k.member t.toNat

/-! ## RELCALL (R139, R140) -/

/-- The bytes of a resume record (R140). -/
def resumeBytes (r : Regs) (ret prior : Word) : List Byte :=
  ((r.g.toList.map fun w => bytesOf 4 w.toNat).flatten) ++ bytesOf 1 r.p.toNat ++ bytesOf 3 0 ++
    bytesOf 4 ret.toNat ++ bytesOf 4 prior.toNat ++ bytesOf 4 0

/-- A CELL access of the core for a member (R139 to R141, R172). -/
def cellCheck (s : State) (m : Member) (off size : Nat) (need : Need) : Tr :=
  match ctxAt s m.launch m.core with
  | none => .bad 0x03 0
  | some c => (resolve s c m.core m.home false need (BitVec.ofNat 64 off) size).1

/-- The tail slots of a core that no tail holds (R24). -/
def freeTailSlots (s : State) (core : Nat) : List Nat :=
  (List.range Config.tailSlots).filter fun n =>
    !s.members.any fun e => e.2.core == core && e.2.place == .tailSlot n

/-- The new tail of a release (R24, R139, R145). -/
def newTail (m : Member) (releaser slot cyc : Nat) (top : Word) : Member :=
  { m with
    kind := .tail, place := .tailSlot slot, pc := wrapIdx ((m.pc : Int) + m.count + 2), slot := 0, next := none,
    cameFrom := some m.pc, r := m.r.setG 63 (m.r.getG 63 - 272), lat := Vector.replicate 4 0, done := 0,
    tok := Vector.replicate 6 0, drain := 0, rp := 0, rd := 0, trapMode := false, trapRec := 0, holdTop := top,
    releaser := some releaser, triggered := false, stopRec := none, wait := .ready, nbrVals := [],
    arrivals := Vector.replicate 6 0, base0 := Vector.replicate 6 0, async := [], demanded := false, readySince := cyc,
    fences := [], moveTo := none, parkWish := false, joinTails := [], terminating := false, entered := [], clear := 0 }

/-- The release with a free tail slot (R139): the tail starts behind the RELCALL, and the caller goes on at `ret`. -/
def releaseToTail (s : State) (id slot : Nat) (m : Member) (ret top : Word) : State :=
  let (tid, s1) := freshId s
  let s2 := { s1 with members := tabPut s1.members tid (newTail m id slot (coreAt s m.core).cyc top) }
  passClause (jumpTo (writeG s2 id 63 top) id ret.toNat) id

/-- The degenerate release (R139): a resume record is written and the same context goes on behind the RELCALL. -/
def releaseInPlace (s : State) (id : Nat) (m : Member) (ret top : Word) : State :=
  let a := m.r.getG 63 - 272
  match cellCheck s m a.toNat 272 Need.store with
  | .ok { tgt := .loc pa, .. } =>
    let s1 := memberStore s m pa (resumeBytes (m.r.setG 63 top) ret m.rp)
    passClause (updMember (writeG s1 id 63 a) id fun v => { v with rp := a, rd := v.rd + 1 }) id
  | .bad c d => takeFault s id (slotFault s m c d (BitVec.ofNat 64 a.toNat))
  | _ => s

/-- The release once the tokens have drained (R139). -/
def release (s : State) (id : Nat) (ret : Word) (top : Option Word) : State :=
  match memberAt s id with
  | none => s
  | some m =>
    let t := top.getD (m.r.getG 63)
    let s1 := retireAs s id 7 1
    if isCell m && !releasedMode m then
      match chooseFrom s1 (freeTailSlots s m.core) with
      | some (n, s2) => releaseToTail s2 id n m ret t
      | none => releaseInPlace s1 id m ret t
    else releaseInPlace s1 id m ret t

/-- RELCALL (R139): the stack check comes before any effect; the member then leaves its group and drains. -/
def execRelcall (c : Common) (frame : Option (BitVec 6)) (a : Src) (st : State) : Result :=
  runForm st c (fun m => if isCurator m then some 0x01 else srcFault m .w32 a) [(.w32, a)] (fun _ _ => st)
    fun k m vs =>
      match vs with
      | [x] =>
        let top := frame.map m.r.getG
        if (m.r.getG 63).toNat < m.stackBase + 272 then trap st k 0x0C 0
        else
          let s1 := leaveGroup st k.member k.slot (.drain (.relcall (lo32 x) top))
          if drained m then release s1 k.member (lo32 x) top else s1
      | _ => st

/-- The drain of a RELCALL ends and the release takes place (R118, R139). -/
def execRelcallRelease (m : Nat) (st : State) : Result :=
  match memberAt st m with
  | some v =>
    match v.wait with
    | .drain (.relcall ret top) => .next (if drained v then release st m ret top else st)
    | _ => .next st
  | none => .next st

/-! ## TJOIN, TEND, EXIT (R138, R141, R142) -/

/-- Uses that are not open to a tail or in released mode, and not to the curator (R25, R27, R140). -/
def notInTail (m : Member) : Option Nat :=
  if isCurator m then some 0x01 else if isTail m || releasedMode m then some 0x0B else none

/-- TJOIN (R142). -/
def execTjoin (c : Common) (st : State) : Result :=
  controlInstr st c notInTail fun k _ =>
    if (liveTails st k.member).isEmpty then st else leaveGroup st k.member k.slot .tjoin

/-- The registers that a resume record holds (R140). -/
def resumeRegs (r : Regs) (b : List Byte) : Regs :=
  { r with g := Vector.ofFn fun (i : Fin 64) => BitVec.ofNat 32 (natOfBytes ((b.drop (4 * i.val)).take 4)),
           p := BitVec.ofNat 7 (natOfBytes ((b.drop 256).take 1)) }

/-- The end of a degenerate release (R141): the caller resumes from its resume record. -/
def resumeCaller (s : State) (id : Nat) (m : Member) : State :=
  match cellCheck s m m.rp.toNat 272 Need.load with
  | .ok { tgt := .loc pa, .. } =>
    let b := readBytes s pa 272
    let r := resumeRegs m.r b
    let js := joinSet s id (r.getG 63)
    passClause (updMember s id fun v =>
      { v with r := r, rp := BitVec.ofNat 32 (natOfBytes ((b.drop 264).take 4)), rd := v.rd - 1,
               next := some (natOfBytes ((b.drop 260).take 4)), joinTails := v.joinTails ++ js }) id
  | .bad c d => takeFault s id (slotFault s m c d (BitVec.ofNat 64 m.rp.toNat))
  | _ => s

/-- TEND once the tokens have drained (R141, R298). -/
def tendNow (s : State) (id : Nat) : State :=
  match memberAt s id with
  | none => s
  | some m =>
    let s1 := retireAs s id 7 1
    if releasedMode m then resumeCaller s1 id m else leaveMember s1 id

/-- TEND (R141). -/
def execTend (c : Common) (st : State) : Result :=
  controlInstr st c
    (fun m => if isCurator m then some 0x01 else if isTail m || releasedMode m then none else some 0x0B) fun k m =>
    let s1 := leaveGroup st k.member k.slot (.drain .tend)
    if drained m then tendNow s1 k.member else s1

/-- TEND_COMPLETE (R141). -/
def execTendComplete (m : Nat) (st : State) : Result :=
  match memberAt st m with
  | some v => .next (if v.wait == .drain .tend && drained v then tendNow st m else st)
  | none => .next st

/-- EXIT once the tokens have drained (R138). -/
def exitNow (s : State) (id : Nat) : State := leaveMember (retireAs s id 7 1) id

/-- EXIT (R138). -/
def execExit (c : Common) (st : State) : Result :=
  controlInstr st c (fun m => if isTail m || releasedMode m then some 0x0B else none) fun k m =>
    let s1 := leaveGroup st k.member k.slot (.drain .exit)
    if drained m then exitNow s1 k.member else s1

/-- EXIT_DRAIN_END (R138). -/
def execExitDrainEnd (m : Nat) (st : State) : Result :=
  match memberAt st m with
  | some v => .next (if v.wait == .drain .exit && drained v then exitNow st m else st)
  | none => .next st

/-! ## NOP, YIELD, PROGRESS (R137) -/

/-- NOP (R137). -/
def execNop (c : Common) (st : State) : Result := controlInstr st c (fun _ => none) fun _ _ => st

/-- YIELD (R137). -/
def execYieldI (c : Common) (st : State) : Result :=
  controlInstr st c (fun _ => none) fun k m => updCore st m.core fun u => { u with yielded := k.member :: u.yielded }

/-- A progress mark of a context (R282). -/
def markProgress (s : State) (m : Member) : State :=
  updCtx s m.launch m.core fun c => { c with lastMark := s.mod.time }

/-- PROGRESS (R137). -/
def execProgress (c : Common) (st : State) : Result :=
  controlInstr st c (fun _ => none) fun _ m => markProgress st m

end Sys2Proof.Machine
end

