-- ==== Sys2Proof/Machine/Cell.lean ====
section
/-!
DEFINITION. The cell and grid group 0x7: STEP (R19, R146), MIGRATE (R110, R111), the decision queue (R124, R125) and PARK (R108);
with them the waits of members (R113) and the step phase.
-/
namespace Sys2Proof.Machine

/-! ## The step phase (R19, R20) -/

/-- The steps that a neighbour on another module is known to have completed (R319). -/
def remoteDone (l : Launch) (lin : Nat) : Nat := ((l.remoteSteps.find? fun e => e.1 == lin).map (·.2)).getD 0

/-- Whether a neighbour has completed `n` steps or has departed (R19). -/
def neighbourDone (s : State) (m : Member) (l : Launch) (n lin : Nat) : Bool :=
  match cellAt s m.launch lin with
  | some (_, d) => published d n
  | none => n ≤ remoteDone l lin

/-- Whether an access still writes a face of the member (R146). -/
def writesFace (a : Access) : Bool :=
  match a.dest with
  | .face _ => a.kind.reads
  | _ => false

/-- Whether STEP may commit: neighbours have completed the previous step and no face is still being loaded (R19, R146). -/
def stepReady (s : State) (id : Nat) (m : Member) : Bool :=
  match launchAt s m.launch with
  | none => true
  | some l => (nbrSet l m).all (neighbourDone s m l m.done) && !(ownAccs s id).any fun e => writesFace e.2

/-- The published slots after step `k` (R19): faces in the mask take the working copy, the others carry on. -/
def publish (m : Member) (mask : BitVec 8) : Vector Word 8 :=
  Vector.ofFn fun (i : Fin 8) => if mask.getLsbD i.val then m.r.f[i] else pubAt m m.done (BitVec.ofFin i)

/-- A member after its commit (R19); `interval` is the archive interval in which it commits (R305). -/
def Member.commit (m : Member) (mask : BitVec 8) (interval : Option Nat) : Member :=
  if (m.done + 1) % 2 == 0 then { m with pub0 := publish m mask, done := m.done + 1, int0 := interval }
  else { m with pub1 := publish m mask, done := m.done + 1, int1 := interval }

/-- The archive interval of a member's context, if it is archived (R303). -/
def archInterval (s : State) (m : Member) : Option Nat :=
  match ctxAt s m.launch m.core with
  | some c => if c.archived then some c.interval else none
  | none => none

/-- The commit of a step writes the cell's vitrine entry, which an archived context logs (R304). -/
def logVitrine (s : State) (m : Member) : State :=
  match vitrineEntry s m with
  | some pa => logRun s m.launch m.core pa 64
  | none => s

/-- The commit of a step (R19, R282, R319): all slots change at once, %step advances, a progress mark is recorded, and peers
that wait on the cell are answered. -/
def commitStep (s : State) (id : Nat) (mask : BitVec 8) : State :=
  match memberAt s id with
  | none => s
  | some m =>
    let m1 := m.commit mask (archInterval s m)
    let s1 := updMember (logVitrine s m) id fun v => v.commit mask (archInterval s m)
    serveSpanReads (reportSteps (markProgress s1 m) m1 m1.done) m1

/-- The module of a span that places a linear index (R319): by the block of the index. -/
def spanModule (l : Launch) (lin : Nat) : Option Nat :=
  let g := l.pkt.grid
  let b := l.pkt.block
  let x := lin % g.1
  let y := lin / g.1 % g.2.1
  let z := lin / (g.1 * g.2.1)
  let nb (e k : Nat) : Nat := (e + k - 1) / k
  let blk := x / b.1 + nb g.1 b.1 * (y / b.2.1 + nb g.2.1 b.2.1 * (z / b.2.2))
  (l.span.find? fun r => r.first ≤ blk && blk < r.first + r.count).map (·.module)

/-- Whether the module that places a cell of a span is fenced (R311). -/
def farFenced (s : State) (l : Launch) (idx : Nat) : Bool := (spanModule l idx).any (isFenced s)

/-- Whether a member's neighbour in a direction lies on a module that is fenced (R311). -/
def nbrFenced (s : State) (m : Member) (d : Dir) : Bool :=
  (launchAt s m.launch).any fun l => (nbrLinear l m d).any (farFenced s l)

/-- The STEP waits that travel to other modules, on the channel of the issuing field (R317, R319). -/
def askRemoteSteps (s : State) (m : Member) : State :=
  match launchAt s m.launch with
  | none => s
  | some l =>
    let far := (nbrSet l m).filter fun lin => (cellAt s m.launch lin).isNone && !(m.done ≤ remoteDone l lin)
    updMod s fun u => { u with answers := u.answers ++ far.map fun lin => .stepAsk ((spanModule l lin).getD 0) (fieldOf m.core) l.spanId lin m.done }

/-- STEP (R19, R146). -/
def execStep (c : Common) (mask : BitVec 8) (st : State) : Result :=
  runForm st c faceUse [] (fun _ _ => st) fun k m _ =>
    if stepReady st k.member m then commitStep st k.member mask
    else leaveGroup (askRemoteSteps st m) k.member k.slot (.step mask)

/-- Whether a member sits where it can issue: not parked, in transit, out or gone (R113). -/
def seated (m : Member) : Bool :=
  match m.place with
  | .slot _ | .annex _ | .tailSlot _ | .curatorSlot => true
  | _ => false

/-- STEP_COMMIT (R19). -/
def execStepCommit (m : Nat) (st : State) : Result :=
  match memberAt st m with
  | some v =>
    match v.wait with
    | .step mask =>
      .next (if seated v && stepReady st m v then passSlot (retireAs (commitStep st m mask) m 7 1) m else st)
    | _ => .next st
  | none => .next st

/-! ## The decision queue (R124, R125) -/

/-- A popped value reaches a waiting member, which goes on behind its DQPOP after an acquire (R125). -/
def deliverDq (s : State) (id : Nat) (v : Word) : State :=
  match memberAt s id with
  | none => s
  | some m =>
    match m.wait with
    | .dqpop d =>
      let s1 := updMember (writeDst s id false (ext v) d) id fun w =>
        { w with lat := w.lat.set (w.slot % 4) (ext v) (Nat.mod_lt _ (by decide)) }
      passSlot (acquireFence (retireAs s1 id 7 1) id .core) id
    | _ => s

/-- An entry left the queue: a curator blocked in DQPUSH is ready again (R125). -/
def wakePusher (s : State) (core : Nat) : State :=
  match s.members.find? fun e => e.2.core == core && e.2.wait == .dqpush && seated e.2 with
  | some e => wake s e.1
  | none => s

/-- Delivery of released entries to the waiters, in the order in which they blocked (R125); `n` bounds the entries. -/
def serveDq (s : State) (core : Nat) : Nat → State
  | 0 => s
  | n + 1 =>
    let u := coreAt s core
    match u.dq, u.dqWaiters with
    | e :: rest, w :: ws =>
      if e.held then s
      else serveDq (wakePusher (deliverDq (updCore s core fun u => { u with dq := rest, dqWaiters := ws }) w e.value) core)
        core n
    | _, _ => s

/-- Whether a core's queue belongs to a launch (R28, R124). -/
def dqLaunch (s : State) (m : Member) : Bool := (coreAt s m.core).curatorOf == some m.launch

/-- Whether an instruction is guarded off (R55). -/
def isOff (c : Common) (m : Member) : Bool := m.r.getP c.guard == c.sense

/-- DQPUSH (R125): the entry is appended at once and held until the release of the curator's earlier accesses completes. Guarded off it has
no effect in any member (R55, R74). -/
def execDqpush (c : Common) (a : Src) (st : State) : Result :=
  runForm st c (fun m => if isCurator m then srcFault m .w32 a else if isOff c m then none else some 0x01) [(.w32, a)] (fun _ _ => st)
    fun k m vs =>
      match vs with
      | [x] =>
        if (coreAt st m.core).dq.length ≥ Config.dqDepth then leaveGroup st k.member k.slot .dqpush
        else
          let w := (fenceSet st k.member .core).map (·.1)
          let s1 := releaseFence st k.member .core
          let s2 := updCore s1 m.core fun u =>
            { u with dq := u.dq ++ [{ value := lo32 x, held := !w.isEmpty, pusher := k.member, waits := w }] }
          serveDq s2 m.core Config.dqDepth
      | _ => st

/-- Whether none of a list of accesses is still to be performed. -/
def allPerformed (s : State) (l : List Nat) : Bool :=
  l.all fun a => ((tabGet s.accs a).map Access.performed).getD true

/-- Pushed entries whose release has completed are held no longer and reach their waiters (R125). -/
def execDqEntryReleased (core : Nat) (st : State) : Result :=
  let s1 := updCore st core fun u =>
    { u with dq := u.dq.map fun e => if allPerformed st e.waits then { e with held := false, waits := [] } else e }
  .next (serveDq s1 core Config.dqDepth)

/-- DQPOP (R27, R125): not open to the curator; guarded off it has no effect where the launch has no curator on the core (R55, R74). -/
def execDqpop (c : Common) (d : Dst) (st : State) : Result :=
  runForm st c (fun m => if isCurator m || (!dqLaunch st m && !isOff c m) then some 0x01 else dstFault m false d) []
    (guardedOff st d false) fun k m _ =>
      let u := coreAt st m.core
      match u.dq, u.dqWaiters with
      | e :: rest, [] =>
        if e.held then
          leaveGroup (updCore st m.core fun u => { u with dqWaiters := [k.member] }) k.member k.slot (.dqpop d)
        else
          let s1 := updCore st m.core fun u => { u with dq := rest }
          wakePusher (acquireFence (result s1 k c d false (ext e.value)) k.member .core) m.core
      | _, ws =>
        leaveGroup (updCore st m.core fun u => { u with dqWaiters := ws ++ [k.member] }) k.member k.slot (.dqpop d)

/-! ## MIGRATE (R109 to R111) -/

/-- The annex slots of a core that no member holds and no migration has reserved (R109, R110). -/
def freeAnnex (s : State) (core : Nat) : List Nat :=
  (List.range Config.annexSlots).filter fun a => !s.members.any fun e =>
    (e.2.core == core && e.2.place == .annex a && isLive e.2) || e.2.moveTo == some (core, a) || e.2.put.move == some (core, a)

/-- Whether a core can give a launch an annex slot: a free slot, and a context of the launch or room for one (R119, R166); a
service core takes members of Sernus's launches only (R97). Where the launch's context is switched out it has none to give (log 68). -/
def annexOpen (s : State) (launch core : Nat) : Bool :=
  !(freeAnnex s core).isEmpty && (match ctxAt s launch core with | some c => !c.isOut | none => numberOpen s launch core) &&
  (!isService core || ((launchAt s launch).map (·.system)).getD false)

/-- The core that ReserveAnnex and an accession queue choose in a field for a target (R93, R110): the core that owns the slice
of the target if it has a free annex slot, else the core with the most, ties to the lowest number. -/
def annexCore (s : State) (launch field pa : Nat) : Option Nat :=
  let owner := match regionOf pa with
    | .slice c => if fieldOf c == field && annexOpen s launch c then some c else none
    | _ => none
  match owner with
  | some c => some c
  | none =>
    bestBy (fun a b => (freeAnnex s a).length > (freeAnnex s b).length) ((coresOf field).filter (annexOpen s launch))

/-- Whether a field is online (R312). -/
def isOnline (s : State) (f : Nat) : Bool :=
  fieldExists f && ((fieldAt s f).state == .online || (fieldAt s f).state == .drainBlocked)

/-- Whether a field takes cells that migrate: a drain-blocked one takes none (R111). -/
def takesCells (s : State) (f : Nat) : Bool := isOnline s f && (fieldAt s f).state != .drainBlocked

/-- The decision of MIGRATE for a resolved address: the annex slot that is reserved, if the cell moves (R110). -/
def reserveAnnex (s : State) (m : Member) (t : Target) : Option (Nat × Nat × State) :=
  match t with
  | .peer .. => none
  | .loc pa =>
    match homeField s pa with
    | none => none
    | some f =>
      if f == fieldOf m.core || !takesCells s f then none
      else
        match annexCore s m.launch f (physOf s pa) with
        | none => none
        | some c => (chooseFrom s (freeAnnex s c)).map fun p => (c, p.1, p.2)

/-- The record of a held cause that keeps a member at its slot (R95; for MIGRATE, log 24). -/
def holdAtSlot (s : State) (k : Cur) (m : Member) (cause : Nat) (va : Word64) : State :=
  leaveGroup (sendRecord s (faultRecord s m (issueFault k (cause + 0x0F) cause va) (cause + 0x0F) cause)) k.member k.slot
    (.heldSlot cause va)

/-- The translation of MIGRATE (R110): no permission is needed, and a field that is offline or dead is no failure here, since MIGRATE
makes no access and only asks whether the field is online (log 35). -/
def migrateTarget (s : State) (ctx : Ctx) (core home : Nat) (a : Word64) : Tr × State :=
  let (r, s1) := resolve { s with fields := [] } ctx core home false Need.none a 1
  (r, { s1 with fields := s.fields })

/-- MIGRATE's decision at issue (R110); a second MIGRATE of a clause gives its reservation anew. -/
def migrateDecide (s : State) (k : Cur) (m : Member) (c : Common) (d : Dst) (a : Word64) : State :=
  match ctxAt s m.launch m.core with
  | none => s
  | some ctx =>
    match migrateTarget s ctx m.core m.home a with
    | (.bad cause detail, s1) => trap s1 k cause detail a
    | (.held cause, s1) => holdAtSlot s1 k m cause a
    | (.ok r, s1) =>
      match reserveAnnex (updMember s1 k.member fun v => { v with moveTo := none }) m r.tgt with
      | none => result (updMember s1 k.member fun v => { v with moveTo := none }) k c d false 0
      | some (core, slot, s2) =>
        result (updMember s2 k.member fun v => { v with moveTo := some (core, slot) }) k c d false 1

/-- MIGRATE (R110). -/
def execMigrate (c : Common) (d : Dst) (a : Src) (st : State) : Result :=
  runForm st c (fun m => match faceUse m with | some x => some x | none => srcFault m .w64 a) [(.w64, a)]
    (guardedOff st d false) fun k m vs =>
      match vs with
      | [x] => migrateDecide st k m c d x
      | _ => st

/-- The number of a scope's unit that a core lies in (R31). -/
def scopeUnit (s : State) (sc : Scope) (id core : Nat) : Nat :=
  match sc with
  | .cell => id
  | .core => core
  | .quad => globalQuad core
  | .field => fieldOf core
  | .module => s.mod.number
  | .pod => 0

def scopeIndex : Scope → Fin 6
  | .cell => 0 | .core => 1 | .quad => 2 | .field => 3 | .module => 4 | .pod => 5

/-- The highest instance of a unit that has completed (R260). -/
def barDone (l : Launch) (sc : Scope) (unit : Nat) : Nat :=
  ((l.barriers.find? fun b => b.1 == sc && b.2.1 == unit).map (·.2.2)).getD 0

/-- Whether a member has arrived at an instance of its core, quad or field that is not complete (R110). -/
def openBarrier (s : State) (id : Nat) (m : Member) : Bool :=
  match launchAt s m.launch with
  | none => false
  | some l => [Scope.core, .quad, .field].any fun sc =>
      let j := m.arrivals[scopeIndex sc].toNat
      m.base0[scopeIndex sc] < j && barDone l sc (scopeUnit s sc id m.core) < j

/-- The move of a cell whose tokens have drained (R110): it leaves its slot and is in transit. -/
def execMigrateMove (m : Nat) (st : State) : Result :=
  match memberAt st m with
  | some v =>
    match v.wait with
    | .drain (.migrate _ _) =>
      .next (if drained v && !openBarrier st m v then updMember st m fun w => { w with place := .transit } else st)
    | _ => .next st
  | none => .next st

/-- The launch's context on a core, formed if there is none (R119, R166). -/
def ensureCtx (s : State) (launch core : Nat) : State :=
  match ctxAt s launch core, launchAt s launch with
  | none, some l =>
    let n := (freeNumber s core).getD 0
    let c := { newCtx l n 0 0 [] s.mod.time (allowOf s l.pkt.prio) with origin := core }
    loadViews { s with ctxs := tabPut s.ctxs (ctxKey launch core) c } l core
  | _, _ => s

/-- What a member that goes on in another field has to see applied before its next access, so that its program order holds: what its old
field had observed (R248, R257, R265; log 25). -/
def owedAfter (s : State) (m : Member) (src dst : Nat) : List Nat :=
  if src == dst then m.owed else joinVec m.owed (fieldAt s src).know

/-- The resumption of a migrated cell in its annex slot (R110, R111, R260): it takes part in the barriers of its new units from
its next arrival on; a PARK of the same clause has no effect in an annex slot (R108). -/
def resumeMigrated (s : State) (id core slot : Nat) (m : Member) : State :=
  let s1 := ensureCtx s m.launch core
  settle (updMember s1 id fun v =>
    { v with core := core, place := .annex slot, moveTo := none, parkWish := false, clear := 0, entered := [],
             owed := owedAfter s m (fieldOf m.core) (fieldOf core),
             base0 := Vector.ofFn fun (i : Fin 6) => if 1 ≤ i.val && i.val ≤ 3 then v.arrivals[i].toNat else v.base0[i] }) id

/-- MIGRATION_RESUME (R111). -/
def execMigrationResume (m : Nat) (st : State) : Result :=
  match memberAt st m with
  | some v =>
    match v.place, v.moveTo with
    | .transit, some (core, slot) => .next (resumeMigrated st m core slot v)
    | _, _ => .next st
  | none => .next st

/-! ## PARK (R108) -/

/-- The check of PARK: tails and released contexts raise TailMisuse, the curator IllegalInstruction (R108, R140). -/
def execPark (c : Common) (st : State) : Result :=
  runForm st c notInTail [] (fun _ _ => st) fun k m _ =>
    match m.place with
    | .annex _ => st
    | _ => updMember st k.member fun v => { v with parkWish := true }

end Sys2Proof.Machine
end

