-- ==== Sys2Proof/Machine/Views.lean ====
section
/-!
DEFINITION. View records (R169, R170), element addresses (R171), element formats in memory (R35, R46), and the bytes of SE blocks
and scale bytes (R216).
-/
namespace Sys2Proof.Machine

/-! ## Formats (R35) -/

/-- The SE format of a code. -/
def seOfCode (n : Nat) : Option MatFmt :=
  match n with
  | 0x10 => some .se2 | 0x11 => some .se4 | 0x12 => some .se7 | _ => none

def fmtSize : Fmt → Nat
  | .n8 | .i8 => 1
  | .n16 | .i16 | .fp16 | .bf16 => 2
  | .n32 | .i32 | .fp32 => 4
  | .n64 | .i64 => 8

/-- Magnitude bits of an SE format (R45). -/
def seBits : MatFmt → Nat
  | .se2 => 2 | .se4 => 4 | .se7 => 7 | .bf16 => 0

/-- Bytes of an SE block (R46). -/
def blockSize (f : MatFmt) : Nat := 1 + 2 * (1 + seBits f)

/-- The register value of loaded bytes (R35). -/
def widen (f : Fmt) (v : Nat) : Word64 :=
  match f with
  | .i8 => ((BitVec.ofNat 8 v).signExtend 32).zeroExtend 64
  | .i16 => ((BitVec.ofNat 16 v).signExtend 32).zeroExtend 64
  | _ => BitVec.ofNat 64 v

/-- The low bytes that a store writes (R35). -/
def narrow (f : Fmt) (v : Word64) : Nat := v.toNat % 2 ^ (8 * fmtSize f)

/-! ## View records (R169) -/

def View.base (v : ViewBits) : Nat := (v.extractLsb' 0 64).toNat
def View.dim0 (v : ViewBits) : Nat := (v.extractLsb' 64 32).toNat
def View.dim1 (v : ViewBits) : Nat := (v.extractLsb' 96 32).toNat
def View.stride1 (v : ViewBits) : Nat := (v.extractLsb' 128 32).toNat
def View.stride2 (v : ViewBits) : Nat := (v.extractLsb' 160 32).toNat
def View.dim2 (v : ViewBits) : Nat := (v.extractLsb' 192 16).toNat
def View.bounds (v : ViewBits) : Nat := (v.extractLsb' 216 2).toNat
def View.colslice (v : ViewBits) : Bool := v.getLsbD 218
def View.scale (v : ViewBits) : Nat := (v.extractLsb' 224 16).toNat
def View.space (v : ViewBits) : Nat := View.base v / 2 ^ 60
/-- The element count of a view (R216). -/
def View.count (v : ViewBits) : Nat := View.dim0 v * View.dim1 v * View.dim2 v

/-- Whether a view is valid (R170). -/
def View.valid (v : ViewBits) : Bool :=
  View.dim0 v != 0 && View.dim1 v != 0 && View.dim2 v != 0 &&
  ((fmtOfCode (View.fmt v)).isSome || (seOfCode (View.fmt v)).isSome) &&
  v.extractLsb' 219 5 == 0#5 && v.extractLsb' 240 16 == 0#16 && View.space v ≤ 4 &&
  (!View.colslice v || (View.space v == 3 && natBits (View.base v) 18 4 == 0)) &&
  (View.scale v < 64 || View.scale v == 0xFFFF)

/-- What an element index gives (R171): an address, no element, or a fault with its detail. -/
inductive Elem
  | addr (a : Word64)
  | outside
  | bad (cause detail : Nat)
deriving DecidableEq, Repr

/-- The offset of coordinates in a view, for elements or blocks of a size (R171, R216). -/
def viewOff (v : ViewBits) (size i0 i1 i2 : Nat) : Nat :=
  View.base v % 2 ^ 60 + i0 * size + i2 * View.stride2 v +
    if View.colslice v then i1 % 16 * 0x40000 + i1 / 16 * View.stride1 v else i1 * View.stride1 v

/-- A space address at an offset; offsets of 2^60 and more leave every segment (R171). -/
def spaceAddr (space off : Nat) : Elem :=
  if off ≥ 2 ^ 60 then .bad 0x03 space else .addr (BitVec.ofNat 64 (space * 2 ^ 60 + off))

/-- The address of an element of a view of elements of a size, the index being inside. -/
def elementAt (v : ViewBits) (size e : Nat) : Elem :=
  spaceAddr (View.space v)
    (viewOff v size (e % View.dim0 v) (e / View.dim0 v % View.dim1 v) (e / (View.dim0 v * View.dim1 v)))

/-- ElementAddress (R171), for a valid view. -/
def elementAddress (v : ViewBits) (size : Nat) (e : Int) : Elem :=
  let n := View.count v
  if e < 0 || e ≥ n then
    if View.bounds v == 0 then .bad 0x04 (BitVec.ofInt 32 e).toNat
    else if View.bounds v == 1 then elementAt v size (if e < 0 then 0 else n - 1)
    else if View.bounds v == 2 then .outside
    else elementAt v size (e % (n : Int)).toNat
  else elementAt v size e.toNat

/-- Size of the elements of a view in bytes. -/
def View.size (v : ViewBits) : Nat :=
  match fmtOfCode (View.fmt v) with
  | some f => fmtSize f
  | none => ((seOfCode (View.fmt v)).map blockSize).getD 1

/-- The blocks of 16 elements along dimension 0 of an SE view (R47). -/
def View.blocks0 (v : ViewBits) : Nat := View.dim0 v / 16

/-- The offset of an SE block (R216). -/
def blockAddr (v : ViewBits) (size k i1 i2 : Nat) : Elem := spaceAddr (View.space v) (viewOff v size k i1 i2)

/-- The address of a block's scale byte in the scale view (R216). -/
def scaleAddr (v sc : ViewBits) (k i1 i2 : Nat) : Elem :=
  elementAt sc 1 (k + View.blocks0 v * (i1 + View.dim1 v * i2))

/-! ## SE blocks (R45, R46) -/

/-- A block in memory: group codes and element codes, as numbers. -/
structure SeBlock where
  groups : List Nat
  codes : List Nat
deriving DecidableEq, Repr

/-- Reading of a block's bytes, least significant bit first (R46). -/
def seBlockOf (m : Nat) (bytes : List Byte) : SeBlock :=
  let n := natOfBytes bytes
  { groups := (List.range 4).map fun j => natBits n (2 * j) 2,
    codes := (List.range 16).map fun i => natBits n (8 + i * (m + 1)) (m + 1) }

/-- The bytes of a block (R46). -/
def seBytes (m : Nat) (b : SeBlock) : List Byte :=
  bytesOf (1 + 2 * (1 + m))
    ((b.groups.zipIdx.map fun p => p.1 * 2 ^ (2 * p.2)).sum + (b.codes.zipIdx.map fun p => p.1 * 2 ^ (8 + p.2 * (m + 1))).sum)

/-- The FP32 bits of an element of a block with shared exponent `e`; exact (R48). -/
def seDecode (m e : Nat) (b : SeBlock) (i : Nat) : Nat :=
  if e == 0xFF then FFmt.fp32.nanBits
  else
    let c := b.codes.getD i 0
    let mag := c % 2 ^ m
    let neg := c / 2 ^ m % 2 == 1
    FFmt.fp32.round .rne neg mag ((e : Int) - 127 + b.groups.getD (i / 4) 0 - m - 2)

end Sys2Proof.Machine
end

