-- ==== Sys2Proof/Machine/Queues.lean ====
section
/-!
DEFINITION. Doorbell pages (R78): the notify register and the status register of a user queue; QUEUE_RESTART.
-/
namespace Sys2Proof.Machine

/-- The queue stops with a cause and the index that stopped it; Sernus receives a LaunchRejected record (R78, R88). Its ADDR is 0 where
no packet failed, as with cause 11 (log 68). -/
def stopQueue (s : State) (q cause failIdx : Nat) (addr : Nat := 0) : State :=
  sendRecord (updQueue s q fun u => { u with err := true, cause := cause, failIdx := BitVec.ofNat 32 failIdx })
    (plainRecord 0x22 cause addr s.mod.time)

/-- The 64-bit index that a WIDX announces: the nearest at or above the read index with these low bits (R78). -/
def extendWidx (ridx w : Nat) : Nat := ridx + (w + 2 ^ 32 - ridx % 2 ^ 32) % 2 ^ 32

/-- A write of the notify register (R78): an index that is not above the highest notified is ignored, one that lies more than a
ring above the read index stops the queue with cause 11; a queue that is stopped already keeps its first cause and index and sends no
second record (log 68). Every write lets the processor read a header of type 0 again (R80). While the module quiesces, queues take no
packet (R327), but they may be notified. -/
def notifyQueue (s : State) (q : Nat) (widx : Word) : State :=
  match tabGet s.queues q with
  | none => s
  | some u =>
    let s1 := updQueue s q fun v => { v with stall := false }
    let i := extendWidx u.ridx widx.toNat
    if i ≤ u.notified then s1
    else if i > u.ridx + 2 ^ u.desc.k then (if u.err then s1 else stopQueue s1 q 11 widx.toNat)
    else updQueue s1 q fun v => { v with notified := i }

/-- The bytes of a doorbell page (R78): the write-only WIDX reads 0, and so does every byte that is no register (log 26). -/
def doorbellBytes (s : State) (q : Nat) : List Byte :=
  match tabGet s.queues q with
  | none => bytesOf 16 0
  | some u => bytesOf 8 0 ++ bytesOf 8 (u.cause % 128 + 128 * boolNat u.err + 256 * u.failIdx.toNat)

/-- A read of a doorbell page. -/
def doorbellRead (s : State) (q off n : Nat) : List Byte :=
  (List.range n).map fun i => (doorbellBytes s q).getD (off + i) 0

/-- A write of a doorbell page: one that carries the whole of WIDX notifies the queue; every other write is ignored
(R78; log 26). -/
def doorbellWrite (s : State) (q off : Nat) (bytes : List Byte) : State :=
  if off == 0 && bytes.length ≥ 4 then notifyQueue s q (BitVec.ofNat 32 (natOfBytes (bytes.take 4))) else s

/-- Sernus restarts a stopped queue (R78): the error, its cause and its index are cleared, and the processor reads again from the read
index, so the slot of a packet that it rejected is read anew (log 68). -/
def execQueueRestart (queue : Nat) (st : State) : Result :=
  .next (updQueue st queue fun u => { u with err := false, cause := 0, failIdx := 0 })

end Sys2Proof.Machine
end

