-- ==== Sys2Proof/Machine/Access.lean ====
section
/-!
DEFINITION. Accesses between issue and completion: which access may be performed next (R183, R186, R214, R235, R245, R246, R255,
R259), the archive log (R304, R305), what an access does at its home (R187, R193 to R201), and completion (R185).
-/
namespace Sys2Proof.Machine

/-! ## Homes and orders -/

/-- The field whose causal port an access leaves: that of its issuing core, or of the keeper that makes it (R195). -/
def Access.field (a : Access) : Nat := a.origin.getD (fieldOf a.core)

/-- The home field of an access on this module (R96). -/
def accHome (s : State) (a : Access) : Option Nat :=
  match a.tgt with
  | .loc pa => homeField s pa
  | .peer .. => none

/-- The local physical address of an access. -/
def Access.pa (a : Access) : Nat :=
  match a.tgt with
  | .loc pa => pa
  | .peer _ pa => pa

/-- Whether an access is of a kind that R235 sequences when its home lies in another field. -/
def Access.sequencedKind (a : Access) : Bool :=
  match a.kind with
  | .advance _ | .completion _ => !a.onPeer
  | .engineWrite .. => !a.onPeer && a.attr != .unordered
  | k => k.writes && !k.isIo && !a.onPeer && (a.attr == .strong || (a.attr == .release && a.rel))

/-- Whether an access is a load that carries a requirement (R235). -/
def Access.requires (a : Access) : Bool :=
  !a.onPeer && (match a.kind with | .load | .vld | .nodeRead _ => true | _ => false) &&
  (a.attr == .strong || (a.attr == .release && a.acq))

/-- The name of a line in a line cache: its address, above every local one for a peer's. -/
def lineKey (t : Target) : Nat :=
  match t with
  | .loc pa => pa / 256 * 256
  | .peer ap pa => 2 ^ 48 * ap + pa / 256 * 256

/-- Whether the line cache of a core may hold a line (R188): WAFER lines homed in other slices, and VIRT lines. -/
def cacheable (core : Nat) (addr : Word64) (t : Target) : Bool :=
  match addr.toNat / 2 ^ 60, t with
  | 2, .loc pa => (match regionOf pa with | .slice c => c != core | _ => false)
  | 4, _ => true
  | _, _ => false

/-- A load of a space that the line cache serves finds a copy of its line there (R188): one that carries a requirement only where the field's
merge count has not moved since a fill that brought a stamp (R247). -/
def cachedLoad (s : State) (a : Access) : Bool :=
  (a.kind == .load || a.kind == .vld) && a.pol != .bypass && cacheable a.core a.addr a.tgt &&
  (coreAt s a.core).lines.any fun l => l.1 == lineKey a.tgt && (!a.requires || l.2.2 == (fieldAt s a.field).merges)

/-- Whether an access travels through the causal fabric: a kind of R235 whose home lies in another field, with no copy at hand. -/
def crosses (s : State) (a : Access) : Bool :=
  (a.sequencedKind || a.requires) && (match accHome s a with | some f => f != a.field | none => false) && !cachedLoad s a

/-- A merge of knowledge (R240, R247): entries rise to the later value; the merge count rises when another field's entry does. -/
def mergeVec (s : State) (f : Nat) (v : Vec) : State :=
  updField s f fun u =>
    let k := (u.know.zip v).zipIdx.map fun p => if p.2 == f then p.1.1 else serMax p.1.1 p.1.2
    { u with know := k, merges := if k == u.know then u.merges else (u.merges + 1) % 2 ^ 16 }

/-! ## Packets and stamps (R238, R239) -/

/-- A packet leaves for another field. -/
def sendPkt (s : State) (src dst : Nat) (b : Body) : State :=
  let (n, s1) := freshId s
  { s1 with pkts := tabPut s1.pkts n { src := src, dst := dst, gen := (fieldAt s src).gen, body := b } }

def dropPkt (s : State) (p : Nat) : State := { s with pkts := tabDrop s.pkts p }

/-- A packet that reaches its destination in its generation (R252). -/
def arriving (s : State) (p : Nat) : Option Pkt :=
  match tabGet s.pkts p with
  | some x => if x.gen == (fieldAt s x.dst).gen then some x else none
  | none => none

/-- The entries in which a vector differs from a base, in ascending order (R239). -/
def stampEntries (base v : Vec) : List (Nat × Nat) :=
  ((base.zip v).zipIdx.filter fun p => p.1.1 != p.1.2).map fun p => (p.2, p.1.2)

/-- The vector that a stamp names against its base (R239). -/
def applyStamp (base : Vec) (st : Stamp) : Vec := st.entries.foldl (fun v e => v.set e.1 e.2) base

/-- Compression of a vector for a destination (R239): against the current base where at most six entries differ; else a clock packet
goes first, unless the next base number names a base that is not acknowledged, and then nothing goes. -/
def stampFor (s : State) (f d : Nat) (v : Vec) : Option (Stamp × State) :=
  let p := pairAt s f d
  let es := stampEntries ((tabGet p.txBases p.txCur).getD Vec.zero) v
  if es.length ≤ 6 then
    some ({ bn := p.txCur, entries := es }, updPair s f d fun q => { q with txCount := q.txCount + 1 })
  else
    let next := (p.txCur + 1) % 4
    if p.unacked.contains next then none
    else
      let s1 := sendPkt s f d (.clock next p.txCount v)
      some ({ bn := next, entries := [] }, updPair s1 f d fun q =>
        { q with txBases := tabPut q.txBases next v, txCur := next, txCount := 1, unacked := q.unacked ++ [p.txCur] })

/-- A stamp of a pair has been received and taken in: a base counts its distinct stamps (R239). -/
def countStamp (s : State) (d g bn : Nat) : State :=
  updPair s d g fun p => { p with rxCount := tabPut p.rxCount bn ((tabGet p.rxCount bn).getD 0 + 1) }

/-- A packet that names a base has not been decoded or taken in yet. -/
def namesBase (bn : Nat) : Body → Bool
  | .write _ _ _ _ st | .read _ st | .response _ st => st.bn == bn
  | .nack b => namesBase bn b
  | _ => false

/-- A base that has a successor and all its stamps is retired, and acknowledged to its sender (R239). `rxWant` holds the count that the
successor's clock packet has brought. -/
def retireBase (s : State) (d g bn : Nat) : State :=
  let p := pairAt s d g
  match tabGet p.rxBases bn, tabGet p.rxWant bn with
  | some _, some c =>
    if c ≤ (tabGet p.rxCount bn).getD 0 then
      sendPkt (updPair s d g fun q => { q with
        rxBases := tabDrop q.rxBases bn, rxWant := tabDrop q.rxWant bn, rxCount := tabDrop q.rxCount bn }) d g (.baseAck bn)
    else s
  | _, _ => s

/-- The header flit of a compressed stamp (R239): from bit 255 down the generation, the origin, the sequence, the back-link, FIRST, the
mask, the count of entries, the entries, the kind and the base number. -/
def headerFlit (gen origin seq blink : Nat) (first clock : Bool) (st : Stamp) : BitVec 256 :=
  let mask := st.entries.foldl (fun n e => n ||| 2 ^ e.1) 0
  let ent := st.entries.zipIdx.foldl (fun n p => n + p.1.2 % 2 ^ 20 * 2 ^ (118 - 20 * p.2)) 0
  BitVec.ofNat 256 (gen % 16 * 2 ^ 252 + origin % 64 * 2 ^ 246 + seq % 2 ^ 20 * 2 ^ 226 + blink % 2 ^ 20 * 2 ^ 206 +
    boolNat first * 2 ^ 205 + mask % 2 ^ 64 * 2 ^ 141 + st.entries.length % 8 * 2 ^ 138 + ent + boolNat clock * 2 ^ 16 + st.bn % 4 * 2 ^ 14)

/-- The five flits of a full vector (R239): 64 entries of 20 bits in ascending field order, the lowest in the lowest bits. -/
def vectorFlits (v : Vec) : List (BitVec 256) :=
  let n := (v.take 64).zipIdx.foldl (fun n p => n + p.1 % 2 ^ 20 * 2 ^ (20 * p.2)) 0
  (List.range 5).map fun i => BitVec.ofNat 256 (n / 2 ^ (256 * i))

/-- The flits in which a stamped packet's stamp or a clock packet travels (R239). -/
def flitsOf (x : Pkt) : List (BitVec 256) :=
  match x.body with
  | .write _ seq blink first st => [headerFlit x.gen x.src seq blink first false st]
  | .read _ st | .response _ st => [headerFlit x.gen x.src 0 0 false false st]
  | .clock bn c v => headerFlit x.gen x.src c 0 false true { bn := bn, entries := [] } :: vectorFlits v
  | _ => []

/-- Fields whose entries a port compares: those that are neither absent nor dead, nor frozen beyond their final horizon (R236,
R250, R251). A dead entry is still compared: what exceeds its horizon is released (R251). -/
def compared (f x : Nat) : Bool := fieldExists x && x != f

/-- A requirement is met at a field (R241, R242, R246): every entry but those of `skip` lies within the applied horizon. -/
def meets (s : State) (f : Nat) (skip : Nat) (v : Vec) : Bool :=
  let h := (fieldAt s f).horizon
  v.zipIdx.all fun p => !compared f p.2 || p.2 == skip || serLe p.1 (h.getD p.2 0)

/-! ## Byte ranges -/

/-- Whether two runs of bytes meet. -/
def runsMeet (a n b k : Nat) : Bool := a < b + k && b < a + n

def targetsMeet (t : Target) (n : Nat) (u : Target) (k : Nat) : Bool :=
  match t, u with
  | .loc a, .loc b => runsMeet a n b k
  | .peer p a, .peer q b => p == q && runsMeet a n b k
  | _, _ => false

/-- The run of a space that an access covers; a held KCAS2 may touch its whole block (R196). -/
def Access.run (a : Access) : Nat × Nat :=
  if a.kind == .kcas2 && a.phase == .logged then (a.addr.toNat / 256 * 256, 256) else (a.addr.toNat, a.size)

/-- Operations that touch nodes which only their keepers will know (R197, R198). -/
def AccKind.touchesNodes : AccKind → Bool
  | .kenq | .kdeq | .kchase => true
  | _ => false

/-- Whether two accesses of one context may touch the same bytes (R186); one that a fault holds is known by its space address, and the
nodes of a list operation or chase, which its keeper alone will know, may be any bytes of its module, and of any module while a fault
holds one of the two (log 59). -/
def accsMeet (a b : Access) : Bool :=
  let held := a.phase == .logged || b.phase == .logged
  if a.kind.touchesNodes || b.kind.touchesNodes then held || a.onPeer == b.onPeer
  else if held then runsMeet a.run.1 a.run.2 b.run.1 b.run.2
  else targetsMeet a.tgt a.size b.tgt b.size

/-- Where a space address lies under segment descriptors, without checks. -/
def spaceTarget (s : State) (descs : Vector DescBits 6) (core home : Nat) (a : Nat) : Option Target :=
  let off := a % 2 ^ 60
  let base (n : Nat) : Nat := Desc.base (descs.toList.getD n 0)
  match a / 2 ^ 60 with
  | 0 => some (.loc (sliceBase home + base 0 + off))
  | 1 => some (.loc (sliceBase core + base 1 + off))
  | 2 => some (.loc (base 2 + off))
  | 3 => some (.loc (bdieBase core + base 3 + off))
  | 4 => match walkTables s (isService core) (base 4) off with
    | .leaf e bits => some (if Pte.ap e == 0 then .loc (leafPa e bits off) else .peer (Pte.ap e) (leafPa e bits off))
    | _ => none
  | _ => none

/-- The 4 KiB pieces of a run of a space: start and length. -/
def pagePieces (a n : Nat) : List (Nat × Nat) :=
  (List.range ((a + n + 4095) / 4096 - a / 4096)).map fun i =>
    let lo := max a ((a / 4096 + i) * 4096)
    let hi := min (a + n) ((a / 4096 + i + 1) * 4096)
    (lo, hi - lo)

/-- The runs of bytes at their places that a run of a space covers. -/
def rangePieces (s : State) (descs : Vector DescBits 6) (core home : Nat) (r : Word64 × Nat) : List (Target × Nat) :=
  let a := r.1.toNat
  if a / 2 ^ 60 == 4 then
    (pagePieces a r.2).filterMap fun p => (spaceTarget s descs core home p.1).map fun u => (u, p.2)
  else
    match spaceTarget s descs core home a with
    | some u => [(u, r.2)]
    | none => []

/-- Whether a run of a space touches the bytes of a target (R213, R214). -/
def rangeMeets (s : State) (descs : Vector DescBits 6) (core home : Nat) (r : Word64 × Nat) (t : Target) (n : Nat) : Bool :=
  (rangePieces s descs core home r).any fun p => targetsMeet p.1 p.2 t n

/-- The assignment core of a member. -/
def homeOf (s : State) (id core : Nat) : Nat := ((memberAt s id).map (·.home)).getD core

/-- What a command has still to read: its own read part, and that of a follow-on that has not been placed (R213, R214, R219). -/
def Cmd.openReads (x : Cmd) : List (Word64 × Nat) :=
  (if x.unread then x.reads else []) ++ if x.followPlaced then [] else x.follow

/-- Whether a command's read part holds an access back (R214): stores and atomics of the core, issued after the command was
accepted, while the engine has not read its sources. -/
def engineHolds (s : State) (id : Nat) (a : Access) : Bool :=
  a.kind.writes && !a.kind.isIo && (match a.kind with | .engineWrite .. | .advance _ | .completion _ | .nodeStore _ => false | _ => true) &&
  (coreAt s a.core).eng.cmds.any fun e =>
    e.2.followOf.getD e.1 < id &&
    e.2.openReads.any fun r => rangeMeets s e.2.descs a.core (homeOf s e.2.member a.core) r a.tgt a.size

/-! ## The order of a context's accesses -/

/-- The home of an access lies in the field whose port it would leave (R246). -/
def homedHere (s : State) (a : Access) : Bool := accHome s a == some a.field

/-- What holds a sequenced write behind an earlier access of its context (R245): a strong or acquiring read that is not merged, and a
sequenced packet that has not left its port. -/
def fabricBlocks (s : State) (e a : Access) : Bool :=
  a.sequencedKind && crosses s a &&
  ((e.kind.returnsValue && e.phase != .registered && (e.attr == .strong || e.acq) && !e.onPeer) ||
   ((e.phase == .issued || e.phase == .logged) && e.sequencedKind && crosses s e))

/-- Whether an earlier access `e` of the same context keeps `a` from being performed or sent (R183, R186, R235, R245, R255): same bytes; an
acquire before; a release that covers it, at `.pod` until it is performed, since a peer reads no stamps; a held fault before a strong or
releasing access; an unmerged strong or acquiring read, or a sequenced packet that has not left, before a sequenced write; accesses
that their field's own port checks, in program order; and strong accesses in program order, where a write waits for an earlier
packet only until it has left the port. -/
def orderBlocks (s : State) (ide : Nat) (e a : Access) : Bool :=
  if e.kind == .pref || a.kind == .pref then false
  else if e.kind.isIo || a.kind.isIo then e.kind.isIo && a.kind.isIo && !e.performed
  else
    let left := (e.phase == .sent || e.phase == .buffered) && !e.kind.returnsValue
    let done := e.performed || e.phase == .registered
    let unmerged := e.kind.returnsValue && e.phase != .registered
    let sends := a.sequencedKind && crosses s a
    (!done && accsMeet e a && !(left && sends && accHome s e == accHome s a)) ||
    (e.acq && (!done || a.sequencedKind || a.requires)) ||
    (!done && a.relSet.contains ide && !(left && sends && a.scope != .pod)) ||
    (isHeld s ide e && (a.attr == .strong || a.rel)) ||
    fabricBlocks s e a ||
    (!done && homedHere s e && homedHere s a && (e.sequencedKind || e.requires) && (a.sequencedKind || a.requires)) ||
    (e.attr == .strong && a.attr == .strong && !e.onPeer && !a.onPeer &&
      (if e.kind.returnsValue then unmerged else !done && !(left && a.sequencedKind)))

/-- Whether the fences of a member let an access pass (R259, R289). -/
def fencesPass (m : Member) (a : Access) : Bool :=
  m.fences.all fun f =>
    a.seq < f.seq || (a.kind.isIo && !f.io) || a.kind == .pref ||
    ((!f.rel || !a.kind.writes || (f.waits.isEmpty && f.need.isEmpty)) && (!f.acq || f.reads.isEmpty) &&
     (!(f.rel && f.acq) || f.waits.isEmpty))

/-- Whether two accesses are writes of one engine command. -/
def sameCommand (a b : AccKind) : Bool :=
  match a, b with
  | .engineWrite c _, .engineWrite d _ => c == d
  | _, _ => false

/-- Writes of one command to one location keep their order (R215). -/
def commandPasses (s : State) (id : Nat) (a : Access) : Bool :=
  s.accs.all fun e => e.1 ≥ id || !sameCommand e.2.kind a.kind || e.2.performed || !accsMeet e.2 a ||
    ((e.2.phase == .sent || e.2.phase == .buffered) && crosses s a && accHome s e.2 == accHome s a)

/-- What came before an engine's write or count in its context (R245): the packets and reads that were open when the command was issued. -/
def beforePasses (s : State) (a : Access) (l : List Nat) : Bool :=
  l.all fun i =>
    match tabGet s.accs i with
    | some e => !fabricBlocks s e a
    | none => true

/-- What was open before a command when it was issued (R245). -/
def cmdBeforeOf (s : State) (core cmd : Nat) : List Nat := ((tabGet (coreAt s core).eng.cmds cmd).map (·.before)).getD []

/-- Accesses that an engine makes. -/
def AccKind.ofEngine : AccKind → Bool
  | .engineWrite .. | .advance _ => true
  | _ => false

/-- Whether an access comes before another of its context in program order; an engine's stands where its command does (R186, R245). -/
def comesBefore (e a : Access) : Bool := e.seq < a.seq || (e.seq == a.seq && e.kind.ofEngine && !a.kind.ofEngine)

/-- Whether what came before lets an access be performed or sent. -/
def orderPasses (s : State) (id : Nat) (a : Access) : Bool :=
  !a.stale && applied s a.need &&
  match a.kind with
  | .nodeStore _ | .nodeRead _ | .completion _ => true
  | .engineWrite .. => commandPasses s id a && beforePasses s a a.relSet
  | .advance cmd => allPerformed s a.relSet && beforePasses s a (cmdBeforeOf s a.core cmd)
  | _ =>
    (match memberAt s a.member with | some m => applied s m.owed && fencesPass m a | none => true) &&
    ((ownAccs s a.member).all fun e => !comesBefore e.2 a || e.1 == id || !orderBlocks s e.1 e.2 a) &&
    !engineHolds s id a

/-- Whether an access is held behind a replay or a fence, for the limit of 8 (R183, R259). -/
def isHeldBehind (s : State) (m : Member) (a : Access) : Bool :=
  a.phase == .issued && !a.kind.isIo &&
  (!fencesPass m a || ((a.attr == .strong || a.rel) &&
    (ownAccs s a.member).any fun e => e.2.seq < a.seq && isHeld s e.1 e.2))

/-! ## Byte budgets and poison (R308, R323) -/

/-- Kinds that read the bytes at their home, so that poison stops them (R308): those of R259, and the counts of sync words. -/
def AccKind.meetsPoison : AccKind → Bool
  | .sadd | .advance _ | .completion _ => true
  | k => k.reads

/-- Whether the quad's budget admits an access in this interval; a request larger than a whole budget passes alone (R323;
log 27). -/
def budgetAdmits (s : State) (core size pa : Nat) : Bool :=
  let q := quadAt s (globalQuad core)
  match regionOf (physOf s pa) with
  | .slice _ | .hbm _ => q.budget == 0 || q.spent == 0 || q.spent + size ≤ q.budget.toNat
  | _ => true

def spendBudget (s : State) (core size pa : Nat) : State :=
  match regionOf (physOf s pa) with
  | .slice _ | .hbm _ => updQuad s (globalQuad core) fun q => { q with spent := q.spent + size }
  | _ => s

/-- A write at its home: a doorbell takes it, or memory (R78, R304). -/
def homeWrite (s : State) (who : Option (Nat × Nat)) (pa : Nat) (bytes : List Byte) : State :=
  match regionOf pa with
  | .doorbell q => doorbellWrite s q (pa % 4096) bytes
  | _ => storeAt s who pa bytes

/-- A read at its home. -/
def homeRead (s : State) (pa n : Nat) : List Byte :=
  match regionOf pa with
  | .doorbell q => doorbellRead s q (pa % 4096) n
  | _ => readBytes s pa n

def homeNat (s : State) (pa n : Nat) : Nat := natOfBytes (homeRead s pa n)

/-! ## Atomic functions (R193) -/

/-- The formats that an atomic function accepts. -/
def atomAccepts (fn : AtomFn) (f : Fmt) : Bool :=
  match fn, f with
  | .add, .i32 | .add, .n32 | .add, .i64 | .add, .n64 => true
  | .min, .i32 | .min, .n32 | .min, .i64 | .min, .n64 => true
  | .max, .i32 | .max, .n32 | .max, .i64 | .max, .n64 => true
  | .and, f | .or, f | .xor, f | .xchg, f => fmtSize f ≥ 4
  | .fadd, .fp32 | .fmin, .fp32 | .fmax, .fp32 => true
  | _, _ => false

/-- The new value of an element (R193). -/
def atomApply (fn : AtomFn) (f : Fmt) (old v : Nat) : Nat :=
  let w := 8 * fmtSize f
  let sg := f == .i32 || f == .i64
  match fn with
  | .add => (old + v) % 2 ^ w
  | .and => old &&& v
  | .or => old ||| v
  | .xor => old ^^^ v
  | .min => if asType sg w old ≤ asType sg w v then old else v
  | .max => if asType sg w old ≤ asType sg w v then v else old
  | .xchg => v
  | .fadd => FFmt.fp32.fadd .rne false old v
  | .fmin => FFmt.fp32.fminmax false false old v
  | .fmax => FFmt.fp32.fminmax true false old v

/-! ## Sync words (R201) -/

/-- What an acquire meets at its home (R186, R257): all that the field of the home knows, which names every write that was applied
there before what it reads (log 67). -/
def homeKnows (s : State) (pa : Nat) : List Nat := ((homeField s pa).map (ownStamp s)).getD []

/-- All waiters of a sync word wake with its new generation and the stamp of the Advance (R201, R240); an acquiring one has met what the home
knows (R202). -/
def wakeAll (s : State) (pa : Nat) (gen : Nat) (stamp : Vec) : State :=
  { s with accs := s.accs.map fun e =>
      if e.2.kind == .swait && e.2.phase == .registered && e.2.tgt == .loc pa then
        (e.1, { e.2 with phase := .returning, value := BitVec.ofNat 64 gen, stamp := stamp, responded := false,
                         met := if e.2.acq then homeKnows s pa else [] })
      else e }

/-- Advance to an exact sum (R201). -/
def advanceTo (s : State) (who : Option (Nat × Nat)) (pa c : Nat) (stamp : Vec) : State :=
  let target := homeNat s pa 4
  if target == 0 then homeWrite s who (pa + 4) (bytesOf 4 (c % 2 ^ 32))
  else
    let n := c / target
    let gen := (homeNat s (pa + 8) 4 + n) % 2 ^ 32
    let s1 := homeWrite s who (pa + 4) (bytesOf 4 (c % target))
    if n > 0 then
      let w := homeNat s (pa + 12) 4
      wakeAll (homeWrite s1 who (pa + 8) (bytesOf 8 (gen + (w - w % 2) * 2 ^ 32))) pa gen stamp
    else s1

/-- The Advance of an amount (R201, R218). -/
def advanceBy (s : State) (who : Option (Nat × Nat)) (pa amount : Nat) (stamp : Vec) : State :=
  advanceTo s who pa (homeNat s (pa + 4) 4 + amount) stamp

/-! ## Keeper nodes (R195) -/

/-- A status word (R195). -/
def statusWord (cc : Nat) : Word64 := BitVec.ofNat 64 (0xF000000000000000 + cc)

/-- The keeper at a physical address: that of the slice port of a core, or of an HBM4 controller (R195). -/
def keeperOf (s : State) (pa : Nat) : Nat :=
  match regionOf (physOf s pa) with
  | .slice c | .bdie c => c
  | .hbm k => 4096 + k
  | _ => 8192

/-- Translation of a node at a keeper for a context, through its 32-entry TLB (R176, R195), with the lines of the tables that it reads (R305);
which entry gives way is left open (log 6). -/
def keeperWalk (s : State) (who : Option (Nat × Nat)) (keeper root asn : Nat) (need : Need) (va : Nat) : Walked × State :=
  let l := (tabGet s.keepers keeper).getD []
  match tlbFind l asn va need with
  | some t => (.leaf t.leaf.toNat t.bits, s)
  | none =>
    let s := (walkPath s false va 6 0 root).foldl (fun t a => touchLines t who a 8) s
    match walkTables s false root va with
    | .leaf e bits =>
      let t : TlbEntry := { va := va / 2 ^ bits * 2 ^ bits, bits := bits, asn := asn, leaf := BitVec.ofNat 64 e }
      let (n, s1) := drawFree s
      let l1 := if l.length < 32 then l else l.eraseIdx (Config.freeChoice n % 32)
      (.leaf e bits, if Pte.a e then { s1 with keepers := tabPut s1.keepers keeper (t :: l1) } else s1)
    | w => (w, s)

/-- A node as its keeper resolves it: its physical address, or the status code of the check that failed (R195). A WAFER node
counts from the WAFER base as every WAFER offset does (R167; log 28). -/
def nodeAddr (s : State) (who : Option (Nat × Nat)) (keeper : Nat) (descs : Vector DescBits 6) (need : Need) (p : Word64) : (Nat ⊕ Nat) × State :=
  let sp := p.toNat / 2 ^ 60
  if p == 0 || (sp != 2 && sp != 4) then (.inr 1, s)
  else if p.toNat % 8 != 0 then (.inr 2, s)
  else if sp == 2 then
    let pa := Desc.base (descs.toList.getD 2 0) + p.toNat % 2 ^ 60
    (match regionOf pa with
      | .slice _ => if holdsMemory s pa then .inl pa else .inr 6
      | _ => .inr 6, s)
  else
    let d := descs.toList.getD 4 0
    match keeperWalk s who keeper (Desc.base d) (Desc.asn d) need (p.toNat % 2 ^ 60) with
    | (.absent, s1) | (.malformed, s1) => (.inr 3, s1)
    | (.leaf e bits, s1) =>
      (if (need.r && !(Pte.r e && Desc.r d)) || (need.w && !(Pte.w e && Desc.w d)) then .inr 4
       else if Pte.ap e != 0 then .inr 5
       else if !Desc.v d || !Pte.a e || (need.w && !Pte.d e) then .inr 3
       else if holdsMemory s (leafPa e bits (p.toNat % 2 ^ 60)) then .inl (leafPa e bits (p.toNat % 2 ^ 60))
       else .inr 6, s1)

/-! ## What an access does at its home -/

/-- The outcome at the home: the state, the values that return, what is still to be written at other homes, whether a SWAIT has
registered, whether a pointer chase goes on, the node that KDEQ has to read at another home before it can take place, and the node words
that have been written and those that have been read here. -/
structure AtHome where
  st : State
  v : Word64
  v2 : Word64
  later : List (Nat × Byte)
  registered : Bool
  chasing : Bool
  reading : Option Nat := none
  wrote : List Nat := []
  nodesRead : List Nat := []

def AtHome.done (s : State) (v : Word64 := 0) (v2 : Word64 := 0) : AtHome :=
  { st := s, v := v, v2 := v2, later := [], registered := false, chasing := false }

/-- Bytes of a 64-bit word with their addresses. -/
def wordCells (pa : Nat) (v : Word64) : List (Nat × Byte) := (bytesOf 8 v.toNat).zipIdx.map fun p => (pa + p.2, p.1)

/-- Node stores of a keeper operation: those at its own home at once, those at other homes later (R195). -/
def nodeStores (s : State) (who : Option (Nat × Nat)) (home : Option Nat) (l : List (Nat × Word64)) :
    State × List (Nat × Byte) :=
  l.foldl (fun acc x =>
    if homeField acc.1 x.1 == home then (homeWrite acc.1 who x.1 (bytesOf 8 x.2.toNat), acc.2)
    else (acc.1, acc.2 ++ wordCells x.1 x.2)) (s, [])

/-- KENQ at the home of the list header (R197). -/
def kenqAt (s : State) (who : Option (Nat × Nat)) (node : State → Word64 → (Nat ⊕ Nat) × State) (pa : Nat) (p : Word64) :
    AtHome :=
  let t : Word64 := BitVec.ofNat 64 (homeNat s (pa + 8) 8)
  let (np, sa) := node s p
  let (nt, s) := if t == 0 then (.inl 0, sa) else node sa t
  match np, nt with
  | .inr cc, _ | _, .inr cc => .done (touchLines s who pa 16) (statusWord cc)
  | .inl np, .inl nt =>
    let here := [np, nt].filter fun n => n != 0 && homeField s n == homeField s pa
    let (s1, late) := nodeStores s who (homeField s pa) ([(np, 0)] ++ if t == 0 then [] else [(nt, p)])
    let s2 := if t == 0 then homeWrite s1 who pa (bytesOf 8 p.toNat) else s1
    { AtHome.done (homeWrite s2 who (pa + 8) (bytesOf 8 p.toNat)) t with later := late, wrote := here }

/-- KDEQ takes the head of a list whose node holds `n` (R197). -/
def kdeqTake (s : State) (who : Option (Nat × Nat)) (pa n : Nat) : State :=
  let s1 := homeWrite s who pa (bytesOf 8 n)
  if n == 0 then homeWrite s1 who (pa + 8) (bytesOf 8 0) else s1

/-- KDEQ at the home of the list header (R197). The node of another home has been read before, as `fetched` says; the read holds as long as
the header names that node, so that what KDEQ does at its own home is one step (R195). -/
def kdeqAt (s : State) (who : Option (Nat × Nat)) (node : State → Word64 → (Nat ⊕ Nat) × State) (pa : Nat) (fetched : Option (Nat × Word64)) :
    AtHome :=
  let h : Word64 := BitVec.ofNat 64 (homeNat s pa 8)
  if h == 0 then .done (touchLines s who pa 16) 0
  else
    match node s h with
    | (.inr cc, s) => .done (touchLines s who pa 16) (statusWord cc)
    | (.inl nh, s) =>
      if homeField s nh == homeField s pa then
        { AtHome.done (kdeqTake (touchLines s who nh 8) who pa (homeNat s nh 8)) h with nodesRead := [nh] }
      else
        match fetched with
        | some (p, n) => if p == nh then .done (kdeqTake s who pa n.toNat) h else { AtHome.done s h with reading := some nh }
        | none => { AtHome.done s h with reading := some nh }

/-- KCHUNK at the home of its object (R199). -/
def kchunkAt (s : State) (who : Option (Nat × Nat)) (pa : Nat) : AtHome :=
  let next := homeNat s pa 4
  let end_ := homeNat s (pa + 4) 4
  let r := end_ - next
  let div := max (homeNat s (pa + 12) 4) 1
  let c := min (max (homeNat s (pa + 8) 4) ((r + div - 1) / div)) r
  .done (homeWrite s who pa (bytesOf 4 ((next + c) % 2 ^ 32))) (BitVec.ofNat 64 (next + c * 2 ^ 32))

/-- The hop limit of KCHASE (R198). -/
def chaseLimit (g : Word64) : Nat :=
  let n := (lo32 g).toNat
  if n == 0 || n > 16 then 16 else n

/-- KCAS2 at the home of its words (R196). -/
def kcas2At (s : State) (who : Option (Nat × Nat)) (pa pb : Nat) (old new : Word64) : AtHome :=
  let x : Word64 := BitVec.ofNat 64 (homeNat s pa 4 + homeNat s pb 4 * 2 ^ 32)
  if x == old then
    .done (homeWrite (homeWrite s who pa (bytesOf 4 (lo32 new).toNat)) who pb (bytesOf 4 (new.extractLsb' 32 32).toNat)) x
  else .done (touchLines (touchLines s who pa 4) who pb 4) x

/-- SWAIT at the home of its sync word (R201). -/
def swaitAt (s : State) (who : Option (Nat × Nat)) (pa : Nat) (x : Word64) : AtHome :=
  let gen := homeNat s (pa + 8) 4
  let s1 := touchLines s who pa 16
  if gen != (lo32 x).toNat then .done s1 (BitVec.ofNat 64 gen)
  else
    let w := homeNat s (pa + 12) 4
    { AtHome.done (homeWrite s1 who (pa + 12) (bytesOf 4 (w / 2 * 2 + 1))) with registered := true }

/-- The one indivisible step of an access at its home (R187, R193 to R201). `stamp` is the vector that an Advance carries; `who` is the
context that it belongs to, none for a peer's (R315). -/
def atHome (s : State) (a : Access) (stamp : Vec) (who : Option (Nat × Nat) := some (a.launch, a.core)) : AtHome :=
  let pa := a.pa
  let node (t : State) (p : Word64) : (Nat ⊕ Nat) × State :=
    nodeAddr t who (keeperOf s pa) a.descs (if a.kind == .kenq then Need.atom else Need.load) p
  match a.kind with
  | .load | .vld => .done (touchLines s who pa a.size) (BitVec.ofNat 64 (homeNat s pa a.size))
  | .store => .done (homeWrite s who pa (bytesOf a.size a.data.toNat))
  | .engineWrite .. => .done (homeWrite s who pa (a.bytes.map (·.2)))
  | .atom fn _ =>
    let old := homeNat s pa a.size
    .done (homeWrite s who pa (bytesOf a.size (atomApply fn a.fmt old (a.data.toNat % 2 ^ (8 * a.size))))) (BitVec.ofNat 64 old)
  | .cas =>
    let old := homeNat s pa a.size
    if old == a.data.toNat % 2 ^ (8 * a.size) then
      .done (homeWrite s who pa (bytesOf a.size a.data2.toNat)) (BitVec.ofNat 64 old)
    else .done (touchLines s who pa a.size) (BitVec.ofNat 64 old)
  | .kcas2 => kcas2At s who (pa + a.param / 256) (pa + a.param % 256) a.data a.data2
  | .kenq => kenqAt s who node pa a.data
  | .kdeq => kdeqAt s who node pa (a.fetched.map fun v => (a.spot, v))
  | .kchase =>
    let p := homeNat s pa 8
    if p == 0 then .done (touchLines s who pa 8) 0 (BitVec.ofNat 64 (2 ^ 32))
    else { AtHome.done (touchLines s who pa 8) (BitVec.ofNat 64 p) with chasing := true }
  | .kchunk => kchunkAt s who pa
  | .sarm => .done (homeWrite s who pa (bytesOf 8 (lo32 a.data).toNat))
  | .sadd | .completion _ => .done (advanceBy s who pa (lo32 a.data).toNat stamp)
  | .advance _ => .done (advanceBy s who pa a.data.toNat stamp)
  | .swait => swaitAt s who pa a.data
  | .nodeStore _ => .done (homeWrite s who pa (bytesOf 8 a.data.toNat))
  | .nodeRead _ => .done (touchLines s who pa 8) (BitVec.ofNat 64 (homeNat s pa 8))
  | .pref | .ioRead _ | .ioWrite _ => .done s

/-! ## Completion (R185) -/

/-- The registers that an access writes when it completes (R189, R193, R196 to R201). -/
def writeBack (s : State) (a : Access) : State :=
  let lo : Word := lo32 a.value
  let hi : Word := a.value.extractLsb' 32 32
  match a.kind, a.dest with
  | .load, d => writeDst s a.member (a.size == 8) (widen a.fmt a.value.toNat) d
  | .atom _ true, d | .cas, d => writeDst s a.member (a.size == 8) a.value d
  | .kcas2, .g b | .kenq, .g b | .kdeq, .g b | .kchunk, .g b => writeG (writeG s a.member b lo) a.member (b + 1) hi
  | .kchase, .g b =>
    let s1 := writeG (writeG s a.member b lo) a.member (b + 1) hi
    writeG (writeG s1 a.member (b + 2) (lo32 a.value2)) a.member (b + 3) (a.value2.extractLsb' 32 32)
  | .swait, .g b => writeG s a.member b lo
  | .ioRead wide, d => writeDst s a.member wide (if wide then a.value else ext lo) d
  | _, _ => s

/-- A write of g63 that arrives while the member stands at a clause boundary brings its frame join at once (R143). -/
def lateJoin (s : State) (id : Nat) : State :=
  match memberAt s id with
  | none => s
  | some m =>
    if m.wait == .ready && m.slot == 0 && !m.joinTails.isEmpty && !((coreAt s m.core).issue.any fun g => g.members.contains id)
    then settle s id else s

/-- The token code under which an access counts, if it counts under one (R185, R214). -/
def accToken (a : Access) : Option Nat :=
  match a.kind with
  | .engineWrite .. | .advance _ | .completion _ | .nodeStore _ | .nodeRead _ => none
  | _ => some a.tok

/-- A log entry frees: members that found no free entry try again (R182). -/
def wakeLogWaiters (s : State) (core : Nat) : State :=
  (s.members.filter fun e => e.2.core == core && e.2.wait == .logFull).foldl (fun t e => wake t e.1) s

/-- What an access has read belongs to what the releases that cover it carry (R257): those that hold no sequence, or speak to peers, wait
for it too. -/
def carryNeeds (s : State) (id : Nat) (a : Access) : State :=
  if !a.kind.returnsValue then s
  else
    let wide (sc : MScope) : Bool := sc == .module || sc == .pod
    let v := joinVec (fieldAt s a.field).know a.stamp
    let grown (n : List Nat) : List Nat := let w := joinVec n v; if applied s w then [] else w
    let s1 := updMember s a.member fun m => { m with
      fences := m.fences.map fun f => if f.rel && f.io && f.waits.contains id then { f with need := grown f.need } else f }
    { s1 with accs := s1.accs.map fun e =>
        if e.2.member == a.member && wide e.2.scope && (!e.2.sequencedKind || e.2.scope == .pod) && e.2.relSet.contains id
        then (e.1, { e.2 with need := grown e.2.need }) else e }

/-- An access is complete: it is struck off, its log entry frees, its token counts down, fences and held accesses of the member
are looked at anew (R182, R183, R185, R259), and its retirement counts (R297). -/
def finishAcc (s : State) (id : Nat) : State :=
  match tabGet s.accs id with
  | none => s
  | some a =>
    let s1 : State := { s with accs := tabDrop s.accs id }
    let held := (coreAt s1 a.core).log.any fun e => e.2.acc == id
    let s2 := if held then
        wakeLogWaiters (updCore s1 a.core fun u => { u with log := u.log.filter fun e => e.2.acc != id }) a.core
      else s1
    let s3 := match accToken a with
      | some t => tokDec s2 a.member t
      | none => s2
    let s4 := settleFences (carryNeeds s3 id a) a.member
    match memberAt s4 a.member with
    | some m => if m.wait == .behindFull then wake s4 a.member else s4
    | none => s4

/-- An access has been performed and its value, if any, is on the way back (R186). -/
def markPerformed (s : State) (id : Nat) (f : Access → Access) : State :=
  match tabGet s.accs id with
  | none => s
  | some a => settleFences (carryNeeds (updAcc s id f) id (f a)) a.member

/-- The width code of an element's size (R299). -/
def sizeCode (n : Nat) : Nat := if n > 8 then 3 else if n == 8 then 2 else if n == 4 then 1 else 0

/-- Energy of an instruction that retires with its token (R297, R299): by its element's size where it takes its width from a view,
else by its word. One without a token has retired as it left E4; SWAIT, which blocks, retires here. -/
def retireAcc (s : State) (a : Access) : State :=
  if a.tok ≥ 6 && a.kind != .swait then s
  else
  match a.kind with
  | .load | .pref => retireAs s a.member 8 (sizeCode a.size)
  | .store => retireAs s a.member 9 (sizeCode a.size)
  | .atom .. | .cas => retireAs s a.member 10 (sizeCode a.size)
  | .engineWrite .. | .advance _ | .completion _ | .nodeStore _ | .nodeRead _ => s
  | _ =>
    match decodeWord a.word with
    | .ok i => retireAs s a.member i.energy.1 i.energy.2
    | .error _ => s

/-- The entries of a full line cache among which the next victim is (R188): STREAM lines first; KEEP lines only where they fill more than
half of it or no other is there. -/
def lineVictims (l : List (Nat × Nat × Nat)) : List Nat :=
  let idx (p : Nat → Bool) : List Nat := (l.zipIdx.filter fun e => p e.1.2.1).map (·.2)
  let stream := idx (· == 1)
  let plain := idx (· != 2)
  if !stream.isEmpty then stream
  else if plain.isEmpty || (idx (· == 2)).length > 256 then idx fun _ => true
  else plain

/-- A line enters the line cache of 512 lines, in the place of one of its victims, with the merge count of its field (R188, R247); a copy
that was filled before a merge is filled anew. One that came without a stamp records a count that no field has, so that it serves plain
loads alone (log 48). -/
def allocLine (s : State) (a : Access) (victim : Nat) : State :=
  if cacheable a.core a.addr a.tgt && a.pol != .bypass then
    let e : Nat × Nat × Nat :=
      (lineKey a.tgt, (match a.pol with | .stream => 1 | .keep => 2 | _ => 0),
        if a.requires then (fieldAt s a.field).merges else 2 ^ 16)
    updCore s a.core fun u =>
      let others := u.lines.filter fun l => l.1 != e.1
      let vs := lineVictims others
      { u with lines := (if others.length < 512 then others else others.eraseIdx (vs.getD (victim % max 1 vs.length) 0)) ++ [e] }
  else s

/-- A copy of a line is on its way to the core of a load (R188): it is withdrawn there with the copies that have arrived. -/
def sendLine (s : State) (id : Nat) (a : Access) : State :=
  if (a.kind == .load || a.kind == .vld) && cacheable a.core a.addr a.tgt && a.pol != .bypass
  then updCore s a.core fun u => { u with filling := u.filling ++ [(lineKey a.tgt, id)] } else s

/-- A load leaves its line in the line cache, unless its copy was withdrawn on the way; which line gives way is left open (R188; log 6). -/
def cacheLoad (s : State) (id : Nat) (a : Access) : State :=
  let here := (coreAt s a.core).filling.contains (lineKey a.tgt, id)
  let s0 := if here then updCore s a.core fun u => { u with filling := u.filling.filter fun l => l.2 != id } else s
  if (a.kind == .load || a.kind == .vld) && !cachedLoad s0 a && (here || a.phase != .returning) then
    let (n, s1) := drawFree s0
    allocLine s1 a (Config.freeChoice n)
  else s0

/-- The word of a VLD that has arrived waits for the others of its record; the last writes the entry whole (R192). `hops` names
the group, `param` is 4 times the entry plus the word. -/
def finishVld (s : State) (id : Nat) (a : Access) (v : Word64) : State :=
  let s1 := markPerformed s id fun x => { x with phase := .performed, value := v }
  let grp := s1.accs.filter fun e => e.2.kind == .vld && e.2.member == a.member && e.2.hops == a.hops
  if grp.all fun e => e.2.phase == .performed then
    let rec_ := grp.foldl (fun n e => n + e.2.value.toNat * 2 ^ (64 * (e.2.param % 4))) 0
    let s2 := updCore s1 a.core fun u =>
      { u with views := tabPut u.views (a.param / 4) (BitVec.ofNat 256 rec_)
               log := u.log.map fun e => if grp.any (fun g => g.1 == e.2.acc) then (e.1, { e.2 with acc := id }) else e }
    let s3 : State := { s2 with accs := (s2.accs.filter fun e => !(grp.any fun g => g.1 == e.1 && g.1 != id)) }
    finishAcc (retireAcc s3 a) id
  else s1

/-- The stamp that came back with an access is merged into its field's knowledge (R240). -/
def mergeStamp (s : State) (a : Access) : State := if a.stamp.isEmpty then s else mergeVec s a.field a.stamp

/-- A read of CELL space below the hold top of a tail that its member's frame join waits for: its data are unspecified (R143). -/
def Access.belowFrame (a : Access) : Bool :=
  (match a.kind with
    | .load | .vld | .atom _ true | .cas | .kcas2 | .kenq | .kdeq | .kchase | .kchunk | .swait => true
    | _ => false) && !a.onPeer && a.addr.toNat / 2 ^ 60 == 0 && decide (a.addr.toNat < a.frame)

/-- What an access has read, with a free value in place of unspecified data (R143; log 6). -/
def freeRead (s : State) (a : Access) : Access × State :=
  if a.belowFrame then
    let (n, s1) := drawFree s
    let (k, s2) := drawFree s1
    let v : Word64 := Config.freeWord n ++ Config.freeWord k
    ({ a with value := BitVec.ofNat 64 (v.toNat % 2 ^ (8 * a.size)), value2 := v }, s2)
  else (a, s)

/-- The response that brings an access's values and their stamp (R235, R239). -/
def responseOf (s : State) (id : Nat) : Option (Nat × Pkt) :=
  s.pkts.find? fun e => match e.2.body with | .response a _ => a == id | _ => false

/-- The field whose keeper or home answers an access: that of its element, or of the word that a chase has read last (R195, R198). -/
def responder (s : State) (a : Access) : Option Nat := if a.kind == .kchase then homeField s a.spot else accHome s a

/-- The values of an access go back with their stamp, compressed against a base of the pair (R239); they wait where the stamp may not go
yet. A stamp that stays in its field, or none, needs no packet. -/
def respond (s : State) (id : Nat) : State :=
  match tabGet s.accs id with
  | none => s
  | some a =>
    if a.phase != .returning || a.responded || a.stamp.isEmpty then s
    else
      match responder s a with
      | none => s
      | some d =>
        if d == a.field then s
        else
          match stampFor s d a.field a.stamp with
          | none => s
          | some (st, s1) => updAcc (sendPkt s1 d a.field (.response id st)) id fun x => { x with responded := true }

/-- Responses that had to wait are looked at anew. -/
def respondAll (s : State) : State :=
  (s.accs.filter fun e => e.2.phase == .returning && !e.2.responded && !e.2.stamp.isEmpty).foldl (fun t e => respond t e.1) s

/-- The response of an access arrives and its stamp is decoded (R239); none while its base has not been installed. -/
def takeResponse (s : State) (id : Nat) (a : Access) : Option State :=
  if a.stamp.isEmpty || responder s a == some a.field then some s
  else
    match responseOf s id with
    | none => none
    | some (p, x) =>
      match x.body with
      | .response _ st =>
        (match tabGet (pairAt s x.dst x.src).rxBases st.bn with
          | none => none
          | some base =>
            some (retireBase (countStamp (updAcc (dropPkt s p) id fun v => { v with stamp := applyStamp base st }) x.dst x.src st.bn)
              x.dst x.src st.bn))
      | _ => none

/-- What takes the failure of an access: a node access leaves it to the operation that makes it (R195). -/
def blamed (s : State) (id : Nat) : Nat × State :=
  match tabGet s.accs id with
  | some a =>
    (match a.kind with
      | .nodeStore op | .nodeRead op => (op, { s with accs := tabDrop s.accs id })
      | _ => (id, s))
  | none => (id, s)

/-- A node that another keeper has read reaches the operation that asked for it (R197, R198). -/
def deliverNode (s : State) (op : Nat) (a : Access) : State :=
  updAcc s op fun x =>
    { x with fetched := some a.value, spot := a.pa, stamp := joinVec x.stamp a.stamp, met := joinVec x.met a.met }

/-- What an acquire has met is owed by what comes behind it (R186, R257; log 67), and a command that waited for an access requires what its
context has met with it (R214, R257). -/
def takeMet (s : State) (id : Nat) (a : Access) : State :=
  let s1 := if applied s a.met then s else updMember s a.member fun m => { m with owed := joinVec m.owed a.met }
  match memberAt s1 a.member with
  | some m =>
    if !a.kind.returnsValue || !((coreAt s1 a.core).eng.cmds.any fun c => c.2.after.contains id) then s1
    else
      let v := joinVec (fieldAt s1 a.field).know (joinVec m.owed m.seen)
      let grow (c : Nat × Cmd) : Nat × Cmd := if c.2.after.contains id then (c.1, { c.2 with need := joinVec c.2.need v }) else c
      updCore s1 a.core fun u => { u with eng := { u.eng with cmds := u.eng.cmds.map grow } }
  | none => s1

/-- An access completes: the stamp that came with its values is merged, registers are written, and it is struck off (R185, R240). -/
def completeAcc (s : State) (id : Nat) : State :=
  match tabGet s.accs id with
  | none => s
  | some a =>
    let (x, s0) := freeRead (mergeStamp s a) a
    match a.kind with
    | .nodeRead op => finishAcc (deliverNode s0 op a) id
    | .vld => finishVld (takeMet (cacheLoad s0 id a) id a) id a x.value
    | _ => lateJoin (finishAcc (retireAcc (writeBack (takeMet (cacheLoad s0 id a) id a) x) a) id) a.member

/-- The values of an access are back: it completes once the stamp that came with them is decoded (R239, R240). -/
def completeReturned (s : State) (id : Nat) : State :=
  match tabGet s.accs id with
  | none => s
  | some a => ((takeResponse s id a).map fun t => completeAcc t id).getD s

/-- Whether a member waits on an access: a SWAIT of a member that has left wakes nobody (R281). -/
def waitsOn (s : State) (id m : Nat) : Bool := ((memberAt s m).map fun v => v.wait == .swait id).getD false

/-- An acquire keeps what its home knows as it is performed (R186, R257; log 67). -/
def noteMet (s : State) (id : Nat) (a : Access) (pa : Nat) : State :=
  if a.acq && !a.onPeer then updAcc s id fun x => { x with met := joinVec x.met (homeKnows s pa) } else s

/-- What follows the step at the home: what is left at other homes or hops, a registered waiter, or the way back. Where the
response needs no journey through the causal fabric the access completes at once. -/
def afterHome (id : Nat) (a : Access) (o : AtHome) (returns : Bool) : State :=
  let s := noteMet o.st id a a.pa
  if a.kind == .swait && !waitsOn s id a.member then finishAcc s id
  else if o.registered then markPerformed s id fun x => { x with phase := .registered }
  else if o.chasing then
    updAcc s id fun x => { x with phase := .spreading, value := o.v, hops := 0, spot := a.pa, fetched := none }
  else if !o.later.isEmpty then updAcc s id fun x => { x with phase := .spreading, value := o.v, bytes := o.later }
  else if returns || a.kind == .swait then
    respond (markPerformed s id fun x => { x with phase := .returning, value := o.v, value2 := o.v2, spot := a.pa }) id
  else completeAcc (updAcc s id fun x => { x with phase := .performed, value := o.v, value2 := o.v2 }) id

/-- The kinds that a keeper performs under R195. -/
def AccKind.isKeeper : AccKind → Bool
  | .kcas2 | .kenq | .kdeq | .kchase | .kchunk => true
  | _ => false

/-- Node accesses that keepers make for an operation (R195). -/
def AccKind.isNode : AccKind → Bool
  | .nodeStore _ | .nodeRead _ => true
  | _ => false

/-- A node access of an operation is under way. -/
def nodeOpen (s : State) (id : Nat) : Bool := s.accs.any fun e => e.2.kind == .nodeStore id || e.2.kind == .nodeRead id

/-- An operation on a list has begun and is not over: it has work left at other homes, or KDEQ has read its node (R195). -/
def keeperBusy (s : State) (id : Nat) (a : Access) : Bool :=
  (a.kind == .kenq && a.phase == .spreading) || (a.kind == .kdeq && (a.fetched.isSome || nodeOpen s id))

/-- No other operation on the same header has begun where a keeper is to operate on it (R195). -/
def keeperFree (s : State) (id : Option Nat) (a : Access) : Bool :=
  !a.kind.isKeeper || !(s.accs.any fun e => id != some e.1 && keeperBusy s e.1 e.2 && targetsMeet e.2.tgt e.2.size a.tgt a.size)

/-- The node at another home that a KDEQ has to read before it can take place (R195, R197). -/
def nodeWanted (s : State) (a : Access) : Option Nat := if a.kind == .kdeq then (atHome s a []).reading else none

/-- A keeper makes a node access at another home (R195 to R198): it leaves the field of the keeper, in the operation's order and under the
node's own address, and a read requires what the operation requires and has met so far. -/
def spawnNode (s : State) (a : Access) (kind : AccKind) (from_ pa : Nat) (addr data : Word64) : State :=
  let f := (homeField s from_).getD a.field
  let c : Access := { a with
    kind := kind, tgt := .loc pa, addr := addr, size := 8, data := data, bytes := [], phase := .issued, relSet := [], need := [],
    origin := some f, fetched := none, responded := false, stamp := [], met := [] }
  let v := if c.requires then joinVec (joinVec a.need a.stamp) (fieldAt s f).know else []
  let (n, s1) := freshId s
  { s1 with accs := tabPut s1.accs n { c with stamp := v } }

/-- The bytes that an access moves at its home (R323): those of its element, and of the node words there. -/
def homeBytes (s : State) (a : Access) : Nat :=
  match a.kind with
  | .kenq | .kdeq => let o := atHome s a []; a.size + 8 * (o.wrote.length + o.nodesRead.length)
  | _ => a.size

/-- What an access reads at its home meets poison (R308): its element, and the node there that KDEQ reads. -/
def readsPoison (s : State) (a : Access) : Bool :=
  a.kind.meetsPoison &&
  (isPoisoned s a.pa a.size || (a.kind == .kdeq && (atHome s a []).nodesRead.any fun n => isPoisoned s n 8))

/-- Whether an access may be performed in the field where it issues: nothing before it, its budget and the field's own causal
port admit it, and its bytes are readable (R183, R186, R246, R308, R323). -/
def mayPerform (s : State) (id : Nat) (a : Access) : Bool :=
  a.phase == .issued && !a.onPeer && !crosses s a && orderPasses s id a && budgetAdmits s a.core (homeBytes s a) a.pa &&
  (!(a.sequencedKind || a.requires) || cachedLoad s a || meets s a.field a.field (fieldAt s a.field).know) &&
  !readsPoison s a && keeperFree s (some id) a && !nodeOpen s id

/-- The horizon that a port has applied, with its own entry (R242). -/
def ownHorizon (s : State) (f : Nat) : Vec := (fieldAt s f).horizon.set f (fieldAt s f).w

/-- The field whose ranges an address lies in, where they are redirected (R313). -/
def drainedOf (s : State) (pa : Nat) : Option Nat :=
  match regionOf pa with
  | .slice c | .bdie c => if (tabGet s.mod.redirect (pa / pieceSize)).isSome then some (fieldOf c) else none
  | _ => none

/-- The stamp of the value that a line holds (R242): on a miss the home's applied horizon, and for a drained field's line also what that
field had applied (log 25). -/
def lineStamp (s : State) (d pa : Nat) : Vec :=
  match tabGet (fieldAt s d).stamps (pa / 256 * 256), drainedOf s pa with
  | some v, _ => v
  | none, none => ownHorizon s d
  | none, some f => (ownHorizon s d).zip (ownHorizon s f) |>.map fun p => serMax p.1 p.2

/-- The lines that an access has written at its home take a stamp: those of its element and of the nodes there (R236, R241, R246). -/
def stampAccess (s : State) (f : Nat) (a : Access) (nodes : List Nat) (v : Vec) : State :=
  nodes.foldl (fun t n => putStamps t f n 8 v) (putStamps s f a.pa a.size v)

/-- What a plain load of a release page meets, which its context's next acquire FENCE takes up (R257): the stamp of the line, where a
releasing write may have left one. -/
def noteSeen (s : State) (a : Access) : State :=
  if a.kind.returnsValue && a.attr == .release && !a.onPeer && !a.sequencedKind && !a.requires then
    match accHome s a with
    | some d => updMember s a.member fun m => { m with seen := joinVec m.seen (lineStamp s d a.pa) }
    | none => s
  else s

/-- An access is performed where it needs no journey: the step at its home, and its lines' stamp (R246). An Advance that R235 does not
sequence carries no stamp. -/
def performHere (s : State) (id : Nat) (a : Access) : State :=
  let f := a.field
  let v := ownStamp s f
  let o := atHome (spendBudget (noteSeen s a) a.core (homeBytes s a) a.pa) a (if a.sequencedKind then v else [])
  let st := if a.sequencedKind && accHome s a == some f then stampAccess o.st f a o.wrote v else o.st
  afterHome id a { o with st := st } false

/-- A KDEQ takes place, or first has its node read at another home (R195, R197). -/
def performOrRead (s : State) (id : Nat) (a : Access) : State :=
  match nodeWanted s a with
  | some n => spawnNode s a (.nodeRead id) a.pa n (BitVec.ofNat 64 (homeNat s a.pa 8)) 0
  | none => performHere s id a

/-- An event performs an access of the kinds it is for, where the access may be performed. -/
def performEvent (s : State) (id : Nat) (kinds : AccKind → Bool) : Result :=
  match tabGet s.accs id with
  | some a => .next (if kinds a.kind && mayPerform s id a then performOrRead s id a else s)
  | none => .next s

end Sys2Proof.Machine
end

