-- ==== Sys2Proof/Machine/Memory.lean ====
section
/-!
DEFINITION. The memory group 0x8 (R189 to R192) and what every Format M access shares: the checks of R172, held and routed faults
and the operand log (R181 to R183, R275), tokens (R185), and the steps at which loads, stores and prefetches are done.
-/
namespace Sys2Proof.Machine

/-! ## An access at issue -/

/-- The highest hold top among the live tails that the member's frame join waits for, 0 where it waits for none (R143). -/
def frameBound (s : State) (m : Member) : Nat :=
  ((m.joinTails.filterMap (memberAt s)).filter isLive).foldl (fun n t => max n t.holdTop.toNat) 0

/-- An access of the issuing member before its address is known. -/
def draftAccess (s : State) (k : Cur) (m : Member) (kind : AccKind) (ord : Order) (scope : MScope) (pol : Policy) (tok : Nat) :
    Access :=
  { kind := kind, member := k.member, launch := m.launch, core := m.core, seq := m.seq, word := k.word, addr := 0,
    tgt := .loc 0, size := 1, fmt := .n8, data := 0, data2 := 0, bytes := [], dest := .none, attr := .strong,
    acq := ord == .acq || ord == .ar, rel := ord == .rel || ord == .ar, scope := scope, pol := pol,
    relSet := if ord == .rel || ord == .ar
      then ((fenceSet s k.member scope).filter fun e => !e.2.kind.isIo).map (·.1) else [],
    tok := tok, pc := k.h, slot := k.slot, phase := .issued, value := 0, value2 := 0, hops := 0, param := 0, stamp := [],
    heldCause := 0, bad := none,
    descs := ((ctxAt s m.launch m.core).map (·.desc)).getD (Vector.replicate 6 0), frame := frameBound s m }

/-- The access of a Format M instruction. -/
def draftM (s : State) (k : Cur) (m : Member) (kind : AccKind) (o : MemOp) : Access :=
  draftAccess s k m kind o.order o.scope o.pol o.tok.toNat

/-- The issue group waits at this slot with a bubble (R185, R207). -/
def holdGroup (s : State) : State :=
  { s with sched := { s.sched with cur := s.sched.cur.map fun k => { k with hold := true } } }

/-- Accesses of a member that are held behind a replay or a fence (R183, R259). -/
def heldCount (s : State) (id : Nat) (m : Member) : Nat := ((ownAccs s id).filter fun e => isHeldBehind s m e.2).length

/-- Accesses of one instruction enter; the token counts it once (R185). -/
def enterAccs (s : State) (k : Cur) (tok : Nat) (l : List (Nat × Access)) : State :=
  let s1 := tokInc { s with accs := l.foldl (fun t e => tabPut t e.1 e.2) s.accs } k.member tok
  let s2 := updMember s1 k.member fun m => { m with seq := m.seq + 1 }
  match l with
  | [e] => if e.2.kind == .swait then leaveGroup s2 k.member k.slot (.swait e.1) else s2
  | _ => s2

/-- A releasing access that takes no sequence carries no vector, and a peer reads none: it waits for what its context may have observed
(R256, R257). -/
def Access.withNeed (s : State) (m : Member) (a : Access) : Access :=
  if a.rel && (!a.sequencedKind || a.scope == .pod) then { a with need := releaseNeed s m a.scope } else a

/-- The accesses of an instruction that passed every check issue (R183, R185): a count at its limit holds the group; a member
that already holds 8 accesses behind a replay or fence waits. -/
def issueAccs (s : State) (k : Cur) (l : List Access) : State :=
  match memberAt s k.member, l with
  | some m, a :: _ =>
    if tokCount m a.tok ≥ Config.tokenMax then holdGroup s
    else if l.any (isHeldBehind s m) && heldCount s k.member m ≥ 8 then leaveGroup s k.member k.slot .behindFull
    else
      let r := l.foldl (fun (p : State × List (Nat × Access)) x => let (n, t) := freshId p.1; (t, p.2 ++ [(n, x.withNeed s m)])) (s, [])
      enterAccs r.1 k a.tok r.2
  | _, _ => s

def issueAcc (s : State) (k : Cur) (a : Access) : State := issueAccs s k [a]

/-- The operand-log entry of an access (R181). -/
def logEntryOf (s : State) (m : Member) (acc : Nat) (a : Access) (detail : Nat) : LogEntry :=
  { acc := acc, member := a.member, word := a.word, addr := a.addr, data := a.data, data2 := a.data2,
    pc := BitVec.ofNat 32 a.pc, slot := a.slot, token := a.tok, cause := a.heldCause, who := whoOf s m,
    time := recTime s a.core, waiting := true, disposed := none, detail := detail }

/-- A held or routed fault of an access (R181, R182, R275): an entry of the operand log and a record for Sernus; the context
goes on. Without a free entry the member waits at its slot. Further accesses of the same instruction (VLD) wait with it; the
entry holds the address that failed. -/
def logAccess (s : State) (k : Cur) (a : Access) (rest : List Access) (addr : Word64) (cause detail own : Nat) : State :=
  match memberAt s k.member with
  | none => s
  | some m =>
    if tokCount m a.tok ≥ Config.tokenMax then holdGroup s
    else
      let u := coreAt s m.core
      let i := firstFree u.log Config.logDepth 0
      if i ≥ Config.logDepth then leaveGroup s k.member k.slot .logFull
      else
        let (id, s1) := freshId s
        let s2 := sendRecord s1 (faultRecord s m (issueFault k cause detail addr) cause detail)
        let s3 := updCore s2 m.core fun v => { v with log := tabPut v.log i (logEntryOf s m id { a with addr := addr } own) }
        let r := rest.foldl (fun (p : State × List (Nat × Access)) x =>
          let (n, t) := freshId p.1; (t, p.2 ++ [(n, { x with phase := .logged })])) (s3, [])
        enterAccs r.1 k a.tok ((id, { a with phase := .logged }) :: r.2)

/-- The access of an instruction with one access takes the address that failed. -/
def Access.failedAt (a : Access) (rest : List Access) (addr : Word64) : Access :=
  if rest.isEmpty then { a with addr := addr } else a

/-- A held fault of an access (R181). -/
def holdAccess (s : State) (k : Cur) (a : Access) (rest : List Access) (c : Nat) (addr : Word64) : State :=
  logAccess s k { a.failedAt rest addr with heldCause := c } rest addr (c + 0x0F) c 0

/-- A delivered fault of an access (R272, R275): routed, it takes a log entry with cause 0x80 + x; otherwise it is taken. `early`
says that the failing check comes before translation, so that a replay meets it again. -/
def failAccess (s : State) (k : Cur) (a : Access) (rest : List Access) (cause detail : Nat) (addr : Word64) (early : Bool) :
    State :=
  match memberAt s k.member with
  | none => s
  | some m =>
    if !m.trapMode && isRouted s m cause then
      logAccess s k
        { a.failedAt rest addr with heldCause := 0x80 + cause, bad := if early then some (cause, detail) else none } rest addr
        0x26 cause detail
    else trap s k cause detail addr

/-! ## Where an access goes (R172) -/

/-- The outcome of the checks of one element. -/
inductive Aim
  | to (addr : Word64) (r : Resolved)
  | outside
  | held (c : Nat) (addr : Word64)
  | bad (cause detail : Nat) (addr : Word64) (early : Bool)
deriving DecidableEq, Repr

/-- Steps 3 to 5 of R172: alignment, segment, translation. -/
def aimAt (s : State) (m : Member) (need : Need) (size align : Nat) (addr : Word64) : Aim × State :=
  if addr.toNat % align != 0 then (.bad 0x05 0 addr true, s)
  else
    match ctxAt s m.launch m.core with
    | none => (.bad 0x03 0 addr false, s)
    | some c =>
      match resolve s c m.core m.home false need addr size with
      | (.ok r, s1) => (.to addr r, s1)
      | (.held h, s1) => (.held h addr, s1)
      | (.bad x d, s1) => (.bad x d addr false, s1)

/-- All steps of R172 for element `e` of a valid view with elements of `esz` bytes; the access covers `size` bytes. -/
def aimElement (s : State) (m : Member) (v : ViewBits) (need : Need) (esz size align : Nat) (e : Int) : Aim × State :=
  match elementAddress v esz e with
  | .outside => (.outside, s)
  | .bad x d => (.bad x d 0 true, s)
  | .addr a => aimAt s m need size align a

/-- The element format of a view that a per-lane form uses: step 1 of R172, and what the form accepts. -/
def viewFmt (v : ViewBits) (accepts : Fmt → Bool) : Option Fmt :=
  if View.valid v then
    match fmtOfCode (View.fmt v) with
    | some f => if accepts f then some f else none
    | none => none
  else none

/-- Size of the elements that a view's format code names, for the register checks at issue; 0 of a code that is no per-lane
format. -/
def viewElemSize (v : ViewBits) : Nat := ((fmtOfCode (View.fmt v)).map fmtSize).getD 0

/-- The policy of an access: the instruction's, else the leaf's or descriptor's (R178). -/
def policyOf (p : Policy) (d : Nat) : Policy :=
  if p != .default then p else if d == 1 then .stream else if d == 2 then .keep else if d == 3 then .bypass else .default

/-- An access that found its place. -/
def Access.aimed (a : Access) (addr : Word64) (r : Resolved) : Access :=
  { a with addr := addr, tgt := r.tgt, attr := r.attr, pol := policyOf a.pol r.pol }

/-- A Format M form (R172, R275): `checks` are the issue-stage checks, which hold whatever the guard says (R55); then the guard,
the offset operand, and the access itself. -/
def accessForm (s : State) (c : Common) (ty : Ty) (off : Src) (checks : Member → Option Nat) (draft : Cur → Member → Access)
    (run : Cur → Member → Access → Word64 → State) : Result :=
  onIssuing s fun k m =>
    match (match srcFault m ty off with | some x => some x | none => checks m) with
    | some cause => .next (failAccess s k (draft k m) [] cause (if cause == 0x01 then k.slot else 0) 0 true)
    | none =>
      if m.r.getP c.guard == c.sense then .next s
      else
        match readSrc s m ty off with
        | .away d f t a => .next (leaveForNbr s k m d f t a)
        | .val v => .next (run k m (draft k m) v)

/-- The element index of a view form (R171). -/
def elementIndex (off : Word64) (disp : Int) : Int := (lo32 off).toInt + disp

/-- One access to one element of a view: what it finds, and what an element outside gives. -/
def accessElement (s : State) (k : Cur) (m : Member) (v : ViewBits) (accepts : Fmt → Bool) (need : Need)
    (span : Nat → Nat × Nat) (e : Int) (a : Access) (fill : Access → Access) : State :=
  match viewFmt v accepts with
  | none => failAccess s k a [] 0x04 0 0 true
  | some f =>
    let (size, align) := span (fmtSize f)
    let b := fill { a with fmt := f, size := size }
    match aimElement s m v need (fmtSize f) size align e with
    | (.to addr r, s1) => issueAcc s1 k (b.aimed addr r)
    | (.outside, s1) => retireAcc (writeBack s1 b) b
    | (.held c addr, s1) => holdAccess s1 k b [] c addr
    | (.bad x d addr early, s1) => failAccess s1 k b [] x d addr early

/-- The format by which an access is logged that fails before its own is known: what the view's code names, else a whole register
(R181). -/
def draftFmt (v : ViewBits) : Fmt := (fmtOfCode (View.fmt v)).getD .n32

/-- A view form on the view that its word names. -/
def viewForm (s : State) (c : Common) (o : MemOp) (disp : Int) (kind : AccKind) (checks : Member → ViewBits → Option Nat)
    (accepts : Fmt → Bool) (need : Need) (span : Nat → Nat × Nat) (fill : Member → Access → Access) : Result :=
  accessForm s c .w32 o.off (fun m => checks m (viewAt s m.core o.view.toNat))
    (fun k m => fill m { draftM s k m kind o with fmt := draftFmt (viewAt s m.core o.view.toNat) })
    fun k m a off =>
      accessElement s k m (viewAt s m.core o.view.toNat) accepts need span (elementIndex off disp) a (fill m)

/-! ## LD, ST, LDX, STX (R189, R190) -/

/-- LD (R189). -/
def execLd (c : Common) (d : Dst) (o : MemOp) (st : State) : Result :=
  viewForm st c o o.disp.toInt .load (fun m v => dstFault m (viewElemSize v == 8) d) (fun _ => true) Need.load
    (fun n => (n, n)) fun _ a => { a with dest := d }

/-- The data register of a store, read at issue (R187, R189). -/
def storeData (m : Member) (f : Fmt) (d : Dst) : Word64 :=
  BitVec.ofNat 64 (narrow f (dstValue m (fmtSize f == 8) d))

/-- ST (R189). -/
def execSt (c : Common) (d : Dst) (o : MemOp) (st : State) : Result :=
  viewForm st c o o.disp.toInt .store (fun m v => dstFault m (viewElemSize v == 8) d) (fun _ => true) Need.store
    (fun n => (n, n)) fun m a => { a with data := storeData m a.fmt d }

/-- A raw-address form: the checks of R172 from step 3 (R190). -/
def rawForm (s : State) (c : Common) (w : Fmt) (d : Dst) (o : MemOp) (kind : AccKind) (need : Need)
    (fill : Member → Access → Access) : Result :=
  accessForm s c .w64 o.off (fun m => dstFault m (fmtSize w == 8) d)
    (fun k m => fill m { draftM s k m kind o with fmt := w, size := fmtSize w }) fun k m a base =>
      match aimAt s m need (fmtSize w) (fmtSize w) (base + o.disp.signExtend 64) with
      | (.to addr r, s1) => issueAcc s1 k (a.aimed addr r)
      | (.outside, s1) => s1
      | (.held h addr, s1) => holdAccess s1 k a [] h addr
      | (.bad x e addr early, s1) => failAccess s1 k a [] x e addr early

/-- LDX (R190). -/
def execLdx (c : Common) (d : Dst) (w : Fmt) (o : MemOp) (st : State) : Result :=
  rawForm st c w d o .load Need.load fun _ a => { a with dest := d }

/-- STX (R190). -/
def execStx (c : Common) (d : Dst) (w : Fmt) (o : MemOp) (st : State) : Result :=
  rawForm st c w d o .store Need.store fun m a => { a with data := storeData m a.fmt d }

/-! ## PREF (R188, R191) -/

/-- PREF (R191): no check of its access faults, whatever would fail drops it, and so does a line that is not cached. A face or latch that
its member may not name is refused at issue as in every instruction (R25, R27; log 64). -/
def execPref (c : Common) (o : MemOp) (st : State) : Result :=
  onIssuing st fun k m =>
    match srcFault m .w32 o.off with
    | some cause => .next (trap st k cause (if cause == 0x01 then k.slot else 0))
    | none =>
    if m.r.getP c.guard == c.sense then .next st
    else
      match readSrc st m .w32 o.off with
      | .away d f t a => .next (leaveForNbr st k m d f t a)
      | .val off =>
        let v := viewAt st m.core o.view.toNat
        let a := draftM st k m .pref o
        match viewFmt v fun _ => true with
        | none => .next (retireAcc st a)
        | some f =>
          match aimElement st m v Need.load (fmtSize f) (fmtSize f) (fmtSize f) (elementIndex off o.disp.toInt) with
          | (.to addr r, s1) =>
            let b := { a with fmt := f, size := fmtSize f }.aimed addr r
            .next (if cacheable m.core addr r.tgt && b.pol != .bypass then issueAcc s1 k b else retireAcc s1 b)
          | (_, s1) => .next (retireAcc s1 { a with size := fmtSize f })

/-! ## View-table instructions (R192) -/

/-- The window check: an entry outside the context's view window raises PrivilegeViolation (R192). -/
def windowFault (s : State) (m : Member) (entry : BitVec 6) : Option Nat :=
  match ctxAt s m.launch m.core with
  | some c => if c.vwFirst ≤ entry.toNat && entry.toNat < c.vwFirst + c.vwCount then none else some 0x02
  | none => some 0x02

/-- The record in a block of eight registers, first register lowest (R192). -/
def recordOf (l : List Word) : ViewBits := BitVec.ofNat 256 (l.foldr (fun w n => w.toNat + 2 ^ 32 * n) 0)

/-- VSET (R192). -/
def execVset (c : Common) (base view : BitVec 6) (st : State) : Result :=
  runForm st c (fun m => windowFault st m view) [] (fun _ _ => st) fun _ m _ =>
    updCore st m.core fun u => { u with views := tabPut u.views view.toNat (recordOf (m.r.block base 8)) }

/-- VGET (R192). -/
def execVget (c : Common) (base view : BitVec 6) (st : State) : Result :=
  runForm st c (fun m => windowFault st m view) [] (fun _ _ => st) fun k m _ =>
    (List.range 8).foldl
      (fun s i => writeG s k.member (base + BitVec.ofNat 6 i) ((viewAt st m.core view.toNat).extractLsb' (32 * i) 32)) st

/-- The four words of a VLD are checked as four loads (R192): the accesses so far, and the check that failed, if any. A word
outside the view makes no access; it has size 0. -/
def vldAims (s : State) (m : Member) (v : ViewBits) (a : Access) (e : Int) :
    Nat → State × List Access × Option Aim → State × List Access × Option Aim
  | 0, p => p
  | n + 1, (s0, l, bad) =>
    let i := 3 - n
    let b := { a with param := a.param + i }
    let (aim, s1) := aimElement s0 m v Need.load 8 8 (if i == 0 then 32 else 8) (e + i)
    vldAims s m v a e n <|
      match aim with
      | .to addr r => (s1, l ++ [b.aimed addr r], bad)
      | .outside => (s1, l ++ [{ b with phase := .performed, size := 0 }], bad)
      | .held _ addr | .bad _ _ addr _ => (s1, l ++ [{ b with addr := addr }], bad.or (some aim))

/-- VLD (R192). A group of which no element has an address writes a record of zeros at once. -/
def execVld (c : Common) (entry : BitVec 6) (o : MemOp) (st : State) : Result :=
  accessForm st c .w32 o.off (fun m => windowFault st m entry)
    (fun k m => { draftM st k m .vld o with fmt := .n64, size := 8, param := 4 * entry.toNat, hops := m.seq })
    fun k m a off =>
      let v := viewAt st m.core o.view.toNat
      match viewFmt v fun f => fmtSize f == 8 with
      | none => failAccess st k a [] 0x04 0 0 true
      | some f =>
        match vldAims st m v { a with fmt := f } (elementIndex off o.disp.toInt) 4 (st, [], none) with
        | (s1, l, none) =>
          if l.all fun x => x.phase == .performed then
            retireAcc (updCore s1 m.core fun u => { u with views := tabPut u.views entry.toNat 0 }) a
          else issueAccs s1 k l
        | (s1, l, some (.bad x d addr early)) =>
          failAccess s1 k (l.headD a) (l.drop 1) x d addr early
        | (s1, l, some (.held h addr)) => holdAccess s1 k (l.headD a) (l.drop 1) h addr
        | (s1, _, _) => s1

/-! ## The steps that end accesses (R185, R186, R191) -/

/-- A store takes its place in the order of its location (R186, R187). -/
def execStorePerformed (a : Nat) (st : State) : Result :=
  performEvent st a fun k => match k with | .store | .engineWrite .. => true | _ => false

/-- The line arrives in the line cache of 512 lines (R188, R191); which line gives way is left to the step (log 6). -/
def execPrefLineArrival (a victim : Nat) (st : State) : Result :=
  match tabGet st.accs a with
  | none => .next st
  | some x =>
    if x.kind == .pref && x.phase == .issued then
      let s1 := allocLine st x victim
      .next (completeAcc s1 a)
    else .next st

end Sys2Proof.Machine
end

