-- ==== Sys2Proof/Machine/Atomics.lean ====
section
/-!
DEFINITION. The atomic and keeper group 0x9 (R193 to R199), and the steps of their accesses at the homes.
-/
namespace Sys2Proof.Machine

/-! ## Forms -/

/-- The displacement of groups 0x9 and 0xA: bits [11:0], signed (R184). -/
def funcDisp (o : MemOp) : Int := (o.disp.extractLsb' 0 12).toInt

/-- Formats of 4 and of 8 bytes. -/
def wide4 (f : Fmt) : Bool := fmtSize f == 4
def wide8 (f : Fmt) : Bool := fmtSize f == 8
/-- Integer formats of 4 bytes. -/
def int4 (f : Fmt) : Bool := f == .n32 || f == .i32

/-- An 8-byte element needs an even data register (R193). -/
def evenFault (v : ViewBits) (r : BitVec 6) : Option Nat := if viewElemSize v == 8 && r.getLsbD 0 then some 0x01 else none

/-- The block base of CAS: even for 4-byte elements, a multiple of 4 for 8-byte ones (R193). -/
def casFault (v : ViewBits) (r : BitVec 6) : Option Nat :=
  if (viewElemSize v == 4 && r.getLsbD 0) || (viewElemSize v == 8 && r.toNat % 4 != 0) then some 0x01 else none

/-- A register, or a pair of an 8-byte element. -/
def dataOf (m : Member) (f : Fmt) (r : BitVec 6) : Word64 := if fmtSize f == 8 then m.r.pair r else ext (m.r.getG r)

/-! ## ATOM, ATOMR, CAS (R193) -/

/-- ATOM (R193). -/
def execAtom (c : Common) (r : BitVec 6) (fn : AtomFn) (o : MemOp) (st : State) : Result :=
  viewForm st c o (funcDisp o) (.atom fn false) (fun _ v => evenFault v r) (atomAccepts fn) Need.atom (fun n => (n, n))
    fun m a => { a with data := dataOf m a.fmt r }

/-- ATOMR (R193). -/
def execAtomr (c : Common) (r : BitVec 6) (fn : AtomFn) (o : MemOp) (st : State) : Result :=
  viewForm st c o (funcDisp o) (.atom fn true) (fun _ v => evenFault v r) (atomAccepts fn) Need.atom (fun n => (n, n))
    fun m a => { a with data := dataOf m a.fmt r, dest := .g r }

/-- CAS (R193). -/
def execCas (c : Common) (r : BitVec 6) (o : MemOp) (st : State) : Result :=
  viewForm st c o (funcDisp o) .cas (fun _ v => casFault v r) (fun f => fmtSize f ≥ 4) Need.atom (fun n => (n, n))
    fun m a => { a with data := dataOf m a.fmt r, data2 := dataOf m a.fmt (if fmtSize a.fmt == 8 then r + 2 else r + 1),
                        dest := .g r }

/-! ## Keeper operations (R195 to R199) -/

/-- The second word of a KCAS2, once the first lies at `a0` (R196): both words in one aligned 256-byte block. -/
def kcas2Second (s : State) (k : Cur) (m : Member) (v : ViewBits) (e1 : Int) (a : Access) (a0 : Word64) (r0 : Resolved) :
    State :=
  match elementAddress v 4 e1 with
  | .outside => retireAcc (writeBack s a) a
  | .bad x d => failAccess s k a [] x d 0 true
  | .addr a1 =>
    if a0.toNat / 256 != a1.toNat / 256 then failAccess s k a [] 0x05 0 a1 true
    else
      match aimAt s m Need.atom 4 4 a1 with
      | (.to _ r1, s1) =>
        let pa (t : Target) : Nat := match t with | .loc p => p | .peer _ p => p
        let lo := min (pa r0.tgt) (pa r1.tgt)
        let tgt := match r0.tgt with | .loc _ => Target.loc lo | .peer ap _ => Target.peer ap lo
        issueAcc s1 k { a.aimed a0 { r0 with tgt := tgt } with
          size := max (pa r0.tgt) (pa r1.tgt) + 4 - lo, param := (pa r0.tgt - lo) * 256 + (pa r1.tgt - lo),
          value := 0, value2 := 0 }
      | (.held h addr, s1) => holdAccess s1 k a [] h addr
      | (.bad x d addr early, s1) => failAccess s1 k a [] x d addr early
      | (.outside, s1) => s1

/-- KCAS2 (R196): both element addresses are formed, each with its own faults, before one outside its view ends it. -/
def execKcas2 (c : Common) (r : BitVec 6) (dist : BitVec 4) (o : MemOp) (st : State) : Result :=
  accessForm st c .w32 o.off (fun _ => none)
    (fun k m => { draftM st k m .kcas2 o with
      fmt := .n32, size := 4, dest := .g r, data := m.r.pair r, data2 := m.r.pair (r + 2), param := dist.toNat })
    fun k m a off =>
      let v := viewAt st m.core o.view.toNat
      let e := elementIndex off (funcDisp o)
      match viewFmt v wide4 with
      | none => failAccess st k a [] 0x04 0 0 true
      | some f =>
        let b := { a with fmt := f }
        match elementAddress v 4 e, elementAddress v 4 (e + dist.toNat) with
        | .bad x d, _ | .outside, .bad x d => failAccess st k b [] x d 0 true
        | .outside, _ => retireAcc (writeBack st b) b
        | .addr a0, .addr a1 =>
          if a0.toNat / 256 != a1.toNat / 256 then failAccess st k b [] 0x05 0 a0 true
          else
            let b := { b with value := a0, value2 := a1 }
            match aimAt st m Need.atom 4 4 a0 with
            | (.to addr r0, s1) => kcas2Second s1 k m v (e + dist.toNat) b addr r0
            | (.held h addr, s1) => holdAccess s1 k b [] h addr
            | (.bad x d addr early, s1) => failAccess s1 k b [] x d addr early
            | (.outside, s1) => s1
        | .addr a0, _ => kcas2Second st k m v (e + dist.toNat) b a0 { tgt := .loc 0, attr := .strong, pol := 0 }

/-- A keeper form on a list header (16 bytes) or object (R197, R199), or on the word of a start pointer (R198). -/
def keeperForm (s : State) (c : Common) (o : MemOp) (kind : AccKind) (accepts : Fmt → Bool) (size : Nat)
    (fill : Member → Access → Access) : Result :=
  viewForm s c o (funcDisp o) kind (fun _ _ => none) accepts Need.atom (fun _ => (size, size)) fill

/-- KENQ (R197). -/
def execKenq (c : Common) (r : BitVec 6) (o : MemOp) (st : State) : Result :=
  keeperForm st c o .kenq wide8 16 fun m a => { a with dest := .g r, data := m.r.pair r }

/-- KDEQ (R197). -/
def execKdeq (c : Common) (r : BitVec 6) (o : MemOp) (st : State) : Result :=
  keeperForm st c o .kdeq wide8 16 fun _ a => { a with dest := .g r }

/-- KCHASE (R198): the hop limit is read at issue. -/
def execKchase (c : Common) (r : BitVec 6) (word : BitVec 4) (o : MemOp) (st : State) : Result :=
  keeperForm st c o .kchase wide8 8 fun m a => { a with dest := .g r, data := ext (m.r.getG r), param := word.toNat }

/-- KCHUNK (R199). -/
def execKchunk (c : Common) (r : BitVec 6) (o : MemOp) (st : State) : Result :=
  keeperForm st c o .kchunk int4 16 fun _ a => { a with dest := .g r }

/-! ## Their steps at the homes -/

/-- An atomic is performed at its home as one indivisible step (R193, R194), or its value arrives. -/
def execAtomicAtHome (a : Nat) (st : State) : Result :=
  match tabGet st.accs a with
  | none => .next st
  | some x =>
    match x.kind with
    | .atom .. | .cas => if x.phase == .returning then .next (completeReturned st a) else performEvent st a fun _ => true
    | _ => .next st

/-- The work of an operation at other homes is done: its values go back, or it completes where no stamp has to travel. -/
def endSpread (s : State) (id : Nat) : State :=
  match tabGet s.accs id with
  | none => s
  | some a =>
    if a.stamp.isEmpty || responder s a == some a.field then completeAcc (updAcc s id fun x => { x with phase := .performed }) id
    else respond (markPerformed s id fun x => { x with phase := .returning }) id

/-- The next of KENQ's node stores at other homes, one at a time (R195, R197): that of the new node clears its NEXT, that of the tail
names the new node. -/
def spreadNext (s : State) (id : Nat) (a : Access) : State :=
  if nodeOpen s id then s
  else
    match a.bytes with
    | [] => endSpread s id
    | b :: r =>
      let v : Word64 := BitVec.ofNat 64 (natOfBytes ((a.bytes.take 8).map (·.2)))
      spawnNode (updAcc s id fun x => { x with bytes := r.drop 7 }) a (.nodeStore id) a.pa b.1 (if v == 0 then a.data else a.value) v

/-- A keeper performs an operation at its own home, or the next of its accesses at other homes, or such an access, or values arrive
(R195). -/
def execKeeperOperation (a : Nat) (st : State) : Result :=
  match tabGet st.accs a with
  | none => .next st
  | some x =>
    if !(x.kind.isKeeper || x.kind.isNode) then .next st
    else
      match x.phase with
      | .spreading => .next (if x.kind == .kchase then st else spreadNext st a x)
      | .returning => .next (completeReturned st a)
      | _ => performEvent st a fun _ => true

/-- A chase ends: the pointer or status word, the hops, and why (R198). -/
def endChase (s : State) (id : Nat) (p : Word64) (hops why : Nat) : State :=
  endSpread (updAcc s id fun x => { x with value := p, value2 := BitVec.ofNat 64 (hops + why * 2 ^ 32) }) id

/-- A chase has read the word `q` at `pa`, where the operation goes on (R198). -/
def chaseOn (s : State) (id : Nat) (x : Access) (pa : Nat) (q : Word64) : State :=
  let s1 := updAcc s id fun v => { v with spot := pa, fetched := none }
  if q == 0 then endChase s1 id x.value x.hops 1
  else if x.hops + 1 ≥ chaseLimit x.data then endChase s1 id q (x.hops + 1) 0
  else updAcc s1 id fun v => { v with value := q, hops := x.hops + 1 }

/-- A keeper has read the next word of a chase in its own field: in a field other than the chase's own the stamp of the word goes back with
the others (R235, R248). -/
def chaseHere (s : State) (id : Nat) (x : Access) (pa : Nat) : State :=
  let st := match homeField s pa with
    | some d => if x.sequencedKind && d != x.field then lineStamp s d pa else []
    | none => []
  let s1 := updAcc (spendBudget (touchLines s (some (x.launch, x.core)) pa 8) x.core 8 pa) id fun v => { v with stamp := joinVec v.stamp st }
  chaseOn (noteMet s1 id x pa) id x pa (BitVec.ofNat 64 (homeNat s pa 8))

/-- The word in its own field that the keeper of a chase reads next (R198). -/
def hopWord (s : State) (id : Nat) (x : Access) : Option Nat :=
  if x.kind != .kchase || x.phase != .spreading || x.fetched.isSome || nodeOpen s id || x.hops ≥ chaseLimit x.data then none
  else
    match (nodeAddr s (some (x.launch, x.core)) (keeperOf s x.spot) x.descs Need.load (x.value + BitVec.ofNat 64 (8 * x.param))).1 with
    | .inl pa => if homeField s pa == homeField s x.spot then some pa else none
    | .inr _ => none

/-- One hop of a KCHASE (R198): the keeper where the operation stands translates the node, and the keeper at the home of the word reads
it, where its budget admits it and it meets no poison (R308, R323); in another field as a node access. -/
def execKchaseHop (a : Nat) (st : State) : Result :=
  match tabGet st.accs a with
  | none => .next st
  | some x =>
    if x.kind != .kchase || x.phase != .spreading || nodeOpen st a then .next st
    else if x.hops ≥ chaseLimit x.data then .next (endChase st a x.value x.hops 0)
    else
      match x.fetched with
      | some q => .next (chaseOn st a x x.spot q)
      | none =>
        let p := x.value + BitVec.ofNat 64 (8 * x.param)
        let (n, s1) := nodeAddr st (some (x.launch, x.core)) (keeperOf st x.spot) x.descs Need.load p
        match n with
        | .inr cc => .next (endChase s1 a (statusWord cc) x.hops 2)
        | .inl pa =>
          .next (if homeField s1 pa != homeField s1 x.spot then spawnNode s1 x (.nodeRead a) x.spot pa p 0
            else if isPoisoned s1 pa 8 || !budgetAdmits s1 x.core 8 pa then st
            else chaseHere s1 a x pa)

end Sys2Proof.Machine
end

