-- ==== Sys2Proof/Machine/Sync.lean ====
section
/-!
DEFINITION. The synchronisation group 0xA: FENCE (R259), the barriers (R260), and the sync-word instructions (R200, R201), with
the steps that complete barrier instances and sync-word operations.
-/
namespace Sys2Proof.Machine

/-! ## FENCE (R259) -/

def Order.releases (o : Order) : Bool := o == .rel || o == .ar
def Order.acquires (o : Order) : Bool := o == .acq || o == .ar

/-- FENCE (R259). -/
def execFence (c : Common) (order : Order) (scope : MScope) (tok : BitVec 3) (st : State) : Result :=
  runForm st c (fun _ => none) [] (fun _ _ => st) fun k m _ =>
    if tok.toNat < 6 && tokCount m tok.toNat ≥ Config.tokenMax then holdGroup st
    else fence st k.member (Order.releases order) (Order.acquires order) scope
      (if tok.toNat < 6 then some tok.toNat else none) false

/-! ## Barriers (R260) -/

/-- The scope of a barrier's fences (R260): `.cell` uses `.core`; FENCE has no `.quad`, whose fence is that of `.field`, the next
wider scope, and waits for the same accesses. -/
def fenceScope : Scope → MScope
  | .cell | .core => .core
  | .quad | .field => .field
  | .module => .module
  | .pod => .pod

/-- The arrival of a member (R260): its release, and its arrival count. -/
def arrive (s : State) (id : Nat) (sc : Scope) : State :=
  match memberAt s id with
  | none => s
  | some m =>
    let k := m.arrivals[scopeIndex sc] + 1
    updMember (fence s id true false (fenceScope sc) none false (some (sc, k.toNat))) id fun v =>
      { v with arrivals := v.arrivals.set (scopeIndex sc) k }

/-- Whether an instance of a member's unit has completed; a `.cell` instance completes when the cell arrives. -/
def instanceDone (s : State) (m : Member) (id : Nat) (sc : Scope) (k : Nat) : Bool :=
  sc == .cell || ((launchAt s m.launch).map fun l => decide (k ≤ barDone l sc (scopeUnit s sc id m.core))).getD false

/-- The wait of BAR and BARW for an instance: it goes on after an acquire, or leaves its group (R117, R260). -/
def waitInstance (s : State) (k : Cur) (sc : Scope) (n : Nat) : State :=
  match memberAt s k.member with
  | none => s
  | some m =>
    if instanceDone s m k.member sc n then acquireFence s k.member (fenceScope sc)
    else leaveGroup s k.member k.slot (.barrier sc (scopeUnit s sc k.member m.core) n)

/-- BAR (R260). -/
def execBar (c : Common) (sc : Scope) (st : State) : Result :=
  runForm st c faceUse [] (fun _ _ => st) fun k m _ =>
    waitInstance (arrive st k.member sc) k sc (m.arrivals[scopeIndex sc] + 1).toNat

/-- BARA (R260). -/
def execBara (c : Common) (d : Option (BitVec 6)) (sc : Scope) (st : State) : Result :=
  runForm st c faceUse [] (fun _ _ => st) fun k m _ =>
    let s1 := arrive st k.member sc
    match d with
    | some r => writeG s1 k.member r (m.arrivals[scopeIndex sc] + 1)
    | none => s1

/-- BARW (R260). -/
def execBarw (c : Common) (a : Src) (sc : Scope) (st : State) : Result :=
  runForm st c faceUse [(.w32, a)] (fun _ _ => st) fun k m vs =>
    match vs with
    | [x] =>
      let n := lo32 x
      if n == 0 || m.arrivals[scopeIndex sc].toNat < n.toNat then trap st k 0x01 k.slot else waitInstance st k sc n.toNat
    | _ => st

/-- The grid cells of a launch in a unit (R31). -/
def unitCells (s : State) (launch : Nat) (sc : Scope) (unit : Nat) : List (Nat × Member) :=
  s.members.filter fun e =>
    e.2.kind == .grid && e.2.launch == launch && !e.2.departed && scopeUnit s sc e.1 e.2.core == unit

/-- Whether a cell no longer holds an instance back (R260): it came to the unit with that many arrivals, or it has arrived and the
release of its arrival is complete. -/
def hasArrived (m : Member) (sc : Scope) (k : Nat) : Bool :=
  k ≤ m.base0[scopeIndex sc] ||
  (k ≤ m.arrivals[scopeIndex sc].toNat && !m.fences.any fun f =>
    match f.bar with | some (t, j) => t == sc && j ≤ k | none => false)

/-- A waiter of a completed instance that sits in a slot goes on behind its instruction after an acquire (R260, R297). -/
def passBarrier (s : State) (id : Nat) : State :=
  match memberAt s id with
  | none => s
  | some m =>
    match m.wait with
    | .barrier sc unit n =>
      if seated m && ((launchAt s m.launch).map fun l => decide (n ≤ barDone l sc unit)).getD false then
        passSlot (acquireFence (retireAs s id 7 1) id (fenceScope sc)) id
      else s
    | _ => s

/-- The highest pod instance that a module has reported (R319). -/
def podReached (l : Launch) (module : Nat) : Nat :=
  ((l.remoteArrivals.find? fun e => e.1 == module).map (·.2)).getD 0

def setPodReached (l : Launch) (module k : Nat) : Launch :=
  { l with remoteArrivals := (l.remoteArrivals.filter fun e => e.1 != module) ++ [(module, max k (podReached l module))] }

/-- Instance `k` of a unit completes: the waiters seated in slots go on (R260). -/
def completeInstance (s : State) (launch : Nat) (sc : Scope) (unit k : Nat) : State :=
  let s1 := updLaunch s launch fun l =>
    { l with barriers := (l.barriers.filter fun b => !(b.1 == sc && b.2.1 == unit)) ++ [(sc, unit, k)] }
  (s1.members.filter fun e => e.2.launch == launch).foldl (fun t e => passBarrier t e.1) s1

/-- BARRIER_INSTANCE_COMPLETE (R260, R319): every cell that is then a member of the unit has arrived or departed; at `.pod`, this
module reports its cells, which may all have departed (R23), and the instance completes when every module of the span has reported. -/
def execBarrierInstanceComplete (launch : Nat) (sc : Scope) (unit k : Nat) (st : State) : Result :=
  match launchAt st launch with
  | none => .next st
  | some l =>
    let cells := unitCells st launch sc unit
    let departed := sc == .pod && l.phase == .running && cells.isEmpty && !l.span.isEmpty
    if (sc == .pod && unit != 0) || !(departed || cells.any fun e => k ≤ e.2.arrivals[scopeIndex sc].toNat) ||
      !(cells.all fun e => hasArrived e.2 sc k) || k ≤ barDone l sc unit then .next st
    else if sc != .pod then .next (completeInstance st launch sc unit k)
    else
      let own := st.mod.number
      let s1 := if l.span.isEmpty || k ≤ podReached l own then st
        else updMod (updLaunch st launch fun l => setPodReached l own k) fun u =>
          { u with answers := u.answers ++ [.podArrivals l.spanId k] }
      .next (if l.span.all fun r => r.module == own || k ≤ podReached l r.module then completeInstance s1 launch sc unit k
        else s1)

/-! ## Sync words (R200, R201) -/

/-- A sync-word form: an element of a 4-byte integer format that names 16 aligned bytes (R200). -/
def syncForm (s : State) (c : Common) (o : MemOp) (kind : AccKind) (need : Need) (fill : Member → Access → Access) : Result :=
  viewForm s c o (funcDisp o) kind (fun _ _ => none) int4 need (fun _ => (16, 16)) fill

/-- SARM (R201). -/
def execSarm (c : Common) (r : BitVec 6) (o : MemOp) (st : State) : Result :=
  syncForm st c o .sarm Need.atom fun m a => { a with data := ext (m.r.getG r) }

/-- SADD (R201). -/
def execSadd (c : Common) (r : BitVec 6) (o : MemOp) (st : State) : Result :=
  syncForm st c o .sadd Need.atom fun m a => { a with data := ext (m.r.getG r) }

/-- SWAIT (R201). -/
def execSwait (c : Common) (r : BitVec 6) (o : MemOp) (st : State) : Result :=
  syncForm st c o .swait Need.swait fun m a => { a with data := ext (m.r.getG r), dest := .g r }

/-- The home keeper performs SARM, SADD, SWAIT, the count of a segment or a launch's completion as one indivisible step (R91, R201,
R218). -/
def execSyncWordOperation (a : Nat) (st : State) : Result :=
  match tabGet st.accs a with
  | none => .next st
  | some x =>
    match x.kind with
    | .sarm | .sadd | .swait | .advance _ | .completion _ => performEvent st a fun _ => true
    | _ => .next st

/-- A SWAIT returns: the waiter takes the generation and goes on behind it (R201, R202); a parked or pre-empted waiter takes it once
it is seated again. -/
def execSwaitReturn (m : Nat) (st : State) : Result :=
  match memberAt st m with
  | none => .next st
  | some v =>
    match v.wait with
    | .swait a =>
      match tabGet st.accs a with
      | some x =>
        .next (if seated v && x.phase == .returning then ((takeResponse st a x).map fun t => passSlot (completeAcc t a) m).getD st
          else st)
      | none => .next st
    | _ => .next st

end Sys2Proof.Machine
end

