-- ==== Sys2Proof/Machine/Parking.lean ====
section
/-!
DEFINITION. Parking (R103 to R108, R204, R205) and neighbour reads on their way (R20, R111, R350). A park frame and a vitrine entry
are the parked member's own fields; they lie outside every segment (R18, R101; log 29).
-/
namespace Sys2Proof.Machine

/-! ## Waits -/

/-- The pending neighbour read of a member. -/
def pendingRead (s : State) (id : Nat) : Option NbrRead := (s.nbrs.find? fun e => e.2.reader == id).map (·.2)

/-- Whether a neighbour read can be served (R20): its generation is published, or its value has come from another module. -/
def readServed (s : State) (r : NbrRead) : Bool :=
  match r.target with
  | some t => ((memberAt s t).map fun d => published d r.gen).getD true
  | none => r.value.isSome

/-- Whether the wait of a member that holds no slot is satisfied (R106). -/
def waitMet (s : State) (id : Nat) (m : Member) : Bool :=
  match m.wait with
  | .ready | .park => true
  | .step _ => stepReady s id m
  | .nbr _ _ => ((pendingRead s id).map (readServed s)).getD true
  | .barrier sc unit k => ((launchAt s m.launch).map fun l => decide (k ≤ barDone l sc unit)).getD true
  | .swait a => ((tabGet s.accs a).map fun x => x.phase == .returning).getD true
  | _ => false

/-- The kinds of wait in which a cell may be parked (R105); a SWAIT held by a fault is a held fault. -/
def blockedForPark (s : State) (m : Member) : Bool :=
  match m.wait with
  | .step _ | .nbr _ _ | .barrier _ _ _ => true
  | .swait a => ((tabGet s.accs a).map fun x => x.phase != .logged).getD false
  | .drain .park => drained m
  | _ => false

/-- Whether a cell is parkable (R105, R140, R274): blocked in its slot, or at its PARK, with no token outstanding. -/
def parkable (s : State) (id : Nat) (m : Member) : Bool :=
  (match m.place with | .slot _ => true | _ => false) && isCell m && !releasedMode m &&
  blockedForPark s m && tokensClear m && !waitMet s id m

/-! ## Candidates and slots (R102, R106) -/

/-- The slots of a context's grant (R102). -/
def grantSlots (c : Ctx) : List Nat := (c.gangs.flatMap fun g => (List.range 64).map (g * 64 + ·)).take c.grant

/-- Slots of a grant that neither a member holds nor a transfer has taken. -/
def freeSlots (s : State) (c : Ctx) (core : Nat) : List Nat :=
  (grantSlots c).filter fun n =>
    !(s.members.any fun e => e.2.core == core && e.2.place == .slot n) &&
    !((coreAt s core).transfers.any fun t => t.slot == n)

/-- %step (R12): the number of the step that a grid cell is in, 0 in a task cell. -/
def stepNumber (m : Member) : Nat := if m.kind == .grid then m.done + 1 else 0

/-- The order of unparking (R106): demanded, lowest step, oldest park time, lowest index. -/
def candidateKey (m : Member) : List Int := [if m.demanded then 0 else 1, stepNumber m, m.ptime, m.index]

/-- The first candidate for unparking of a launch on a core (R106). -/
def firstCandidate (s : State) (launch core : Nat) : Option (Nat × Member) :=
  bestBy (fun a b => lexLt (candidateKey a.2) (candidateKey b.2))
    (s.members.filter fun e =>
      e.2.launch == launch && e.2.core == core && e.2.place == .parked && (e.2.demanded || waitMet s e.1 e.2))

/-- The occupant that parks (R106): highest step, then latest unpark time, then highest index. -/
def firstVictim (s : State) (launch core : Nat) : Option (Nat × Member) :=
  bestBy (fun a b => lexLt [-stepNumber a.2, -a.2.unparkTime, -a.2.index] [-stepNumber b.2, -b.2.unparkTime, -b.2.index])
    (s.members.filter fun e => e.2.launch == launch && e.2.core == core && parkable s e.1 e.2)

def inTransfer (s : State) (launch core : Nat) : Bool := (coreAt s core).transfers.any fun t => t.launch == launch

/-- A parked cell that executed PARK is ready (R108). -/
def parkedWait (w : Wait) : Wait :=
  match w with
  | .drain .park => .park
  | _ => w

/-- A transfer begins (R204): its cells are in transit. A PARK of the clause in which the cell parks at a blocking slot is then over
(R108; log 68). -/
def startTransfer (s : State) (core : Nat) (t : Transfer) : State :=
  let s1 := updMember s t.unparking fun m => { m with place := .transit }
  let s2 := match t.parking with
    | some v => updMember s1 v fun m => { m with place := .transit, wait := parkedWait m.wait, parkWish := false }
    | none => s1
  updCore s2 core fun u => { u with transfers := u.transfers ++ [t] }

def slotNumber (m : Member) : Nat := match m.place with | .slot n => n | _ => 0

/-- The decision of a core for one launch: one iteration of the loop of R106 (R204). Which free slot is used the manual leaves
open (log 6). -/
def decideTransfer (s : State) (launch core : Nat) : State :=
  match ctxAt s launch core with
  | none => s
  | some c =>
    if c.isOut || inTransfer s launch core then s
    else
      match firstCandidate s launch core with
      | none => s
      | some (u, _) =>
        match chooseFrom s (freeSlots s c core) with
        | some (n, s1) => startTransfer s1 core { launch := launch, parking := none, unparking := u, slot := n }
        | none =>
          match firstVictim s launch core with
          | some (v, m) => startTransfer s core { launch := launch, parking := some v, unparking := u, slot := slotNumber m }
          | none => s

/-- A core stands inside a slot cycle: some members of its group have had their turn at the slot and others have not (R117). -/
def midSlot (u : CoreUnit) : Bool := u.issue.any (·.started)

/-- Every core decides for every launch between its slot cycles, once each (R204); nothing happens where no cell is parked. -/
def decideParking (s : State) : State :=
  if s.members.any fun e => e.2.place == .parked then
    s.ctxs.foldl (fun t e =>
      if midSlot (coreAt s (e.1 % 4096)) then t else decideTransfer t (e.1 / 4096) (e.1 % 4096)) s
  else s

/-! ## The end of a transfer (R204, R205) -/

/-- A member seated again looks at its wait anew (R106, R280). -/
def reevaluate (s : State) (id : Nat) : State :=
  match memberAt s id with
  | none => s
  | some m =>
    match m.wait with
    | .ready | .park => wake s id
    | .barrier _ _ _ => passBarrier s id
    | _ => s

/-- A read that waits on a cell raises its demand (R106, R205). -/
def isDemanded (s : State) (id : Nat) (m : Member) : Bool :=
  (s.nbrs.any fun e => e.2.target == some id && e.2.arrived && !published m e.2.gen) ||
  (match launchAt s m.launch with
    | some l => l.spanId != 0 && s.mod.spanWaits.any fun w => !w.isStep && w.span == l.spanId && w.linear == m.linear
    | none => false)

/-- Where frame `j` of a park pool lies: its runs in the slice and in the B-die hold frames of 320 bytes (R101). -/
def frameIn (core : Nat) : List (Bool × Nat × Nat) → Nat → Option Nat
  | [], _ => none
  | (die, lo, hi) :: r, j =>
    let k := (hi - lo) / 320
    if j < k then some ((if die then bdieBase core else sliceBase core) + lo + 320 * j) else frameIn core r (j - k)

/-- The write of a cell's park frame, which an archived context logs (R304; log 29). -/
def logFrame (s : State) (m : Member) : State :=
  match (ctxAt s m.launch m.core).bind fun c => frameIn c.origin (c.carved.drop 1) m.frame with
  | some pa => logRun s m.launch m.core pa 320
  | none => s

/-- The park of a cell ends, in the frame that its partner leaves (R204). -/
def endPark (s : State) (id frame : Nat) : State :=
  match memberAt s id with
  | none => s
  | some m => updMember (logFrame s { m with frame := frame }) id fun v =>
      { v with place := .parked, ptime := (coreAt s m.core).ticks, demanded := isDemanded s id m, frame := frame }

/-- The unpark of a cell ends. -/
def endUnpark (s : State) (id slot : Nat) : State :=
  match memberAt s id with
  | none => s
  | some m => reevaluate (updMember s id fun v =>
      { v with place := .slot slot, demanded := false, unparkTime := (coreAt s m.core).ticks }) id

/-- PARK_TRANSFER_END: the park and the unpark of a launch's transfer have ended (R204). The core's next decision follows in the same
step. -/
def execParkTransferEnd (core launch : Nat) (st : State) : Result :=
  match (coreAt st core).transfers.find? fun t => t.launch == launch with
  | none => .next st
  | some t =>
    let s1 := updCore st core fun u => { u with transfers := u.transfers.filter fun x => x.launch != launch }
    let s2 := match t.parking with | some v => endPark s1 v (((memberAt s1 t.unparking).map (·.frame)).getD 0) | none => s1
    .next (endUnpark s2 t.unparking t.slot)

/-- PARK_SELF: the tokens of a cell that executed PARK have drained (R108). A frame join that a load has brought meanwhile comes first
(R143). Without a candidate the cell goes on. -/
def execParkSelf (m : Nat) (st : State) : Result :=
  match memberAt st m with
  | none => .next st
  | some v =>
    if v.wait != .drain .park || !drained v then .next st
    else if !(openJoins st v).isEmpty then .next (settle st m)
    else
      match firstCandidate st v.launch v.core with
      | none => .next (settle (updMember st m fun w => { w with parkWish := false }) m)
      | some (u, _) =>
        if inTransfer st v.launch v.core then .next st
        else
          .next (startTransfer (updMember st m fun w => { w with parkWish := false, wait := .park }) v.core
            { launch := v.launch, parking := some m, unparking := u, slot := slotNumber v })

/-! ## Neighbour reads on their way (R20, R111, R319, R350) -/

/-- A neighbour read reaches the core where the named cell is, by way of its origin core if it has migrated, or goes out to the
module that places the cell (R111, R319); a read of a parked cell that has not completed the step raises a demand (R106). -/
def execNeighbourReadArrival (r : Nat) (st : State) : Result :=
  match tabGet st.nbrs r with
  | none => .next st
  | some x =>
    if x.arrived then .next st
    else
      let s1 : State := { st with nbrs := tabPut st.nbrs r { x with arrived := true } }
      match x.target, memberAt st x.reader with
      | some t, _ => .next (updMember s1 t fun d =>
          if d.place == .parked && !published d x.gen then { d with demanded := true } else d)
      | none, some m =>
        match launchAt st m.launch with
        | some l => .next (updMod s1 fun u =>
            let lin := (nbrLinear l m x.dir).getD 0
            { u with answers := u.answers ++ [.neighbourAsk ((spanModule l lin).getD 0) (fieldOf m.core) l.spanId lin x.face x.gen] })
        | none => .next s1
      | none, none => .next s1

/-- The value of a read that can be served: of a cell of this module, or as another module answered (`v`). A face that goes to
another context escapes (R305). -/
def readValue (s : State) (m : Member) (x : NbrRead) (v : Word) : Word × State :=
  match x.target with
  | none => (v, s)
  | some t =>
    match memberAt s t with
    | none => (0, s)
    | some d =>
      let g := readGen d x.gen
      (pubAt d g x.face, if d.core == m.core then s else escapeFace s d g)

/-- The granule of the named cell's vitrine entry that a read takes its value from (R18, R278). -/
def faceGranule (s : State) (x : NbrRead) : Option Nat := (x.target.bind (memberAt s)).bind fun m => faceSlot s m x.face

/-- Whether a read meets poison (R308). -/
def facePoisoned (s : State) (x : NbrRead) : Bool := (x.target.bind (memberAt s)).any fun m => faceBad s m x.face

/-- The value of a neighbour read reaches its reader, which becomes ready at the same slot (R20, R117, R350). `v` is the value that
another module has answered with, and counts only for a cell of another module; it is kept for a reader that is parked or out. -/
def execNeighbourReadResume (r : Nat) (v : Word) (st : State) : Result :=
  match tabGet st.nbrs r with
  | none => .next st
  | some x =>
    match memberAt st x.reader with
    | none => .next st
    | some m =>
      if !x.arrived || !(x.target.isNone || readServed st x) || (x.target.isNone && nbrFenced st m x.dir) || facePoisoned st x ||
        m.wait != .nbr x.dir x.face then .next st
      else if !seated m then
        .next (if x.target.isNone then { st with nbrs := tabPut st.nbrs r { x with value := some (x.value.getD v) } } else st)
      else
        let (w, s1) := readValue st m x (x.value.getD v)
        let s2 : State := { s1 with nbrs := tabDrop s1.nbrs r }
        .next (wake (updMember s2 x.reader fun n => { n with nbrVals := n.nbrVals ++ [(x.dir, x.face, w)] }) x.reader)

end Sys2Proof.Machine
end

