-- ==== Sys2Proof/Machine/EngineMath.lean ====
section
/-!
DEFINITION. What the engines compute (R45 to R52, R217, R222 to R224): SE blocks, conversions between element formats, block
products, the scaled addition, the BF16 sum, and accumulator tiles.
-/
namespace Sys2Proof.Machine

/-! ## SE blocks (R45, R49) -/

/-- The exponent of an SE step: Step(E, k) = 2^(E − 127 + k − m − 2) (R49). -/
def seStep (m e k : Nat) : Int := (e : Int) - 127 + k - m - 2

/-- The rounded quotient of a finite FP32 value by a step, as a magnitude (R49). -/
def seQuot (rm : Rm) (m e k x : Nat) : Nat :=
  match FFmt.fp32.value x with
  | .fin neg mant ex => roundInt rm neg mant (ex - seStep m e k)
  | _ => 0

/-- Fits (R49). -/
def seFits (rm : Rm) (m e k x : Nat) : Bool := seQuot rm m e k x ≤ 2 ^ m - 1

/-- The pattern of the largest value of an SE format (R49). -/
def seMaxBits (m : Nat) : Nat := FFmt.fp32.round .rz false (2 ^ m - 1) (128 - (m : Int))

/-- Floor(Log2(a)) of a positive finite FP32 pattern. -/
def floorLog2 (x : Nat) : Int :=
  match FFmt.fp32.value x with
  | .fin _ mant ex => ex + bitLen mant - 1
  | _ => 0

/-- The NaN block: E is 0xFF and every element byte 0 (R49). -/
def nanBlock : Nat × SeBlock := (0xFF, { groups := List.replicate 4 0, codes := List.replicate 16 0 })

/-- The finest code at which a group fits (R49). -/
def groupCode (rm : Rm) (m e : Nat) (xs : List Nat) : Nat :=
  [2, 1, 0].foldl (fun g k => if xs.all (seFits rm m e k) then k else g) 3

/-- An input of a block after `.SAT` and `.FZ` (R49). -/
def seInput (m : Nat) (fz : Bool) (x : Nat) : Nat :=
  match FFmt.fp32.value x with
  | .inf neg => FFmt.fp32.signed neg (seMaxBits m)
  | _ => FFmt.fp32.flush fz x

/-- The shared exponent of a block of finite inputs (R49). -/
def seExponent (rm : Rm) (m : Nat) (xs : List Nat) : Nat :=
  let a := (xs.map (· % 2 ^ 31)).foldl max 0
  let e := if a == 0 then 0 else (max 0 (min 254 (floorLog2 a + 127))).toNat
  if e < 254 && !xs.all (seFits rm m e 3) then e + 1 else e

/-- The encoding of 16 FP32 patterns: shared exponent and block (R49). -/
def seEncode (m : Nat) (rm : Rm) (fz sat : Bool) (inputs : List Nat) : Nat × SeBlock :=
  if inputs.any fun x => FFmt.fp32.value x == .nan ||
      (!sat && match FFmt.fp32.value x with | .inf _ => true | _ => false) then nanBlock
  else
    let xs := inputs.map (seInput m fz)
    let e := seExponent rm m xs
    let gs := (List.range 4).map fun j => groupCode rm m e ((xs.drop (4 * j)).take 4)
    let qs := xs.zipIdx.map fun p => seQuot rm m e (gs.getD (p.2 / 4) 0) p.1
    if !sat && qs.any (· > 2 ^ m - 1) then nanBlock
    else
      (e, { groups := gs,
            codes := (qs.zip xs).map fun p => min p.1 (2 ^ m - 1) + (if FFmt.fp32.isNeg p.2 then 2 ^ m else 0) })

/-! ## Conversions (R217) -/

/-- The conversion type of a plain format code. -/
def cvtTyOf : Fmt → CvtTy
  | .n8 => .n8 | .n16 => .n16 | .n32 => .n32 | .n64 => .n64 | .i8 => .i8 | .i16 => .i16 | .i32 => .i32 | .i64 => .i64
  | .fp16 => .fp16 | .bf16 => .bf16 | .fp32 => .fp32

def isFloatFmt (f : Fmt) : Bool := f == .fp16 || f == .bf16 || f == .fp32

/-- Whether COPY admits a pair of format codes, source first (R217). -/
def copyPairOk (src dst : Nat) : Bool :=
  match fmtOfCode src, seOfCode src, fmtOfCode dst, seOfCode dst with
  | some _, _, some _, _ => true
  | some f, _, none, some _ => isFloatFmt f
  | none, some _, some g, _ => isFloatFmt g
  | none, some _, none, some _ => true
  | _, _, _, _ => false

/-- An element of a plain format converted to another (R217): a copy within one format, CVT otherwise. -/
def convertElem (src dst : Fmt) (rm : Rm) (fz sat : Bool) (x : Nat) : Nat :=
  if src == dst then x else cvtBits (cvtTyOf dst) (cvtTyOf src) rm fz sat x % 2 ^ (8 * fmtSize dst)

/-- An element widened exactly to FP32 (R49). -/
def toFp32 (src : Fmt) (x : Nat) : Nat := cvtBits .fp32 (cvtTyOf src) .rne false false x

/-! ## Planes (R220) -/

def planeAt (p : Plane) (r c : Nat) : Int := p.getD (16 * r + c) 0
/-- A plane from its elements. -/
def planeOf (f : Nat → Nat → Int) : Plane := (List.range 256).map fun i => f (i / 16) (i % 16)

def accTileAt (a : List Word) (r c : Nat) : Word := a.getD (16 * r + c) 0
def accOf (f : Nat → Nat → Word) : List Word := (List.range 256).map fun i => f (i / 16) (i % 16)

/-- A list with element `i` set; shorter lists are filled up. -/
def listPut {α : Type} (d : α) (n : Nat) (l : List α) (i : Nat) (v : α) : List α :=
  (List.range n).map fun j => if j == i then v else l.getD j d

def partOf (e : Engines) (p : Nat) : Plane := e.parts.getD p []
def partStateOf (e : Engines) (p : Nat) : PlaneState := e.partState.getD p .empty
def accumOf (e : Engines) (c : Nat) : List Word := e.accs.getD c []
def setPart (e : Engines) (p : Nat) (v : Plane) (st : PlaneState) : Engines :=
  { e with parts := listPut [] 4 e.parts p v, partState := listPut .empty 4 e.partState p st }
def setAccum (e : Engines) (c : Nat) (v : List Word) : Engines := { e with accs := listPut [] 4 e.accs c v }

/-! ## Products (R50, R51, R222) -/

/-- Signed magnitude of an element with its group's weight (R50). -/
def seTerm (m : Nat) (b : SeBlock) (i : Nat) : Int :=
  let c := b.codes.getD i 0
  let v : Int := c % 2 ^ m * 2 ^ b.groups.getD (i / 4) 0
  if c / 2 ^ m % 2 == 1 then -v else v

/-- The block product (R50). -/
def blockProduct (m : Nat) (a b : SeBlock) : Int :=
  (List.range 16).foldl (fun s i => s + seTerm m a i * seTerm m b i) 0

/-- The scaled addition (R51). -/
def scaledAdd (m : Nat) (acc : Nat) (p : Int) (ea eb : Nat) : Nat :=
  if ea == 0xFF || eb == 0xFF || FFmt.fp32.isNan acc then FFmt.fp32.nanBits
  else FFmt.fp32.addVal .rne (FFmt.fp32.value acc)
    (.fin (p < 0) p.natAbs ((ea : Int) + eb - 254 - 2 * ((m : Int) - 1) - 6))

/-- The exact sum of values with one rounding in RNE (R222): NaN where one is, or where infinities disagree; an exact zero is +0
unless every term is −0. -/
def sumRound (l : List FVal) : Nat :=
  if l.contains .nan || (l.contains (.inf true) && l.contains (.inf false)) then FFmt.fp32.nanBits
  else if l.contains (.inf true) then FFmt.fp32.signed true FFmt.fp32.infBits
  else if l.contains (.inf false) then FFmt.fp32.infBits
  else
    let lo := l.foldl (fun a v => match v with | .fin _ _ e => min a e | _ => a) 0
    let v : Int := l.foldl (fun s v => match v with | .fin n m e => s + scaleTo lo n m e | _ => s) 0
    if v == 0 then FFmt.fp32.signed (l.all fun v => match v with | .fin n _ _ => n | _ => false) 0
    else FFmt.fp32.round .rne (v < 0) v.natAbs lo

/-- One accumulator element of a BF16 MMAB (R222). -/
def bf16Element (acc : Nat) (as bs : List Nat) : Nat :=
  sumRound (FFmt.fp32.value acc :: (as.zip bs).map fun p => mulVal (FFmt.bf16.value p.1) (FFmt.bf16.value p.2))

/-! ## Accumulator tiles (R224) -/

/-- MLOAD: an element widened to an accumulator element. -/
def tileIn (f : Fmt) (x : Nat) : Word := BitVec.ofNat 32 (if f == .fp32 then x else toFp32 f x)

/-- MSTORE: an accumulator element narrowed to an element. -/
def tileOut (f : Fmt) (rm : Rm) (fz sat : Bool) (x : Word) : Nat := convertElem .fp32 f rm fz sat x.toNat

end Sys2Proof.Machine
end

