-- ==== Sys2Proof/Machine/Engines.lean ====
section
/-!
DEFINITION. The engine group 0xB at issue (R207 to R211, R213, R216 to R225, R231): the checks, the claim on the array, the
queues, the engine order and the footprints of commands.
-/
namespace Sys2Proof.Machine

/-! ## Views of commands -/

/-- The matrix format's magnitude bits are those of `seBits`; its block size `blockSize`. -/
def isSe (f : MatFmt) : Bool := f != .bf16

/-- Whether an SE view agrees with its scale view (R47). -/
def scaleOk (v sc : ViewBits) : Bool :=
  (seOfCode (View.fmt v)).isSome && View.dim0 v % 16 == 0 && View.scale v < 64 && View.valid sc && View.fmt sc == 0 &&
  View.dim0 sc == View.blocks0 v && View.dim1 sc == View.dim1 v && View.dim2 sc == View.dim2 v

/-- The scale view of a view, captured with it. -/
def scaleViewOf (s : State) (core : Nat) (v : ViewBits) : ViewBits :=
  if View.scale v < 64 then viewAt s core (View.scale v) else 0

/-- A command as it is captured at issue (R209). -/
def newCmd (s : State) (core : Nat) (kind : CmdKind) (member launch : Nat) (word : Word64) (regs : List Word)
    (va vb vc : ViewBits) (rm : Rm) (fz sat : Bool) (tok : Nat) : Cmd :=
  { kind := kind, order := 0, member := member, launch := launch, word := word, regs := regs, va := va, vb := vb, vc := vc,
    sa := scaleViewOf s core va, sb := scaleViewOf s core vb, sc := scaleViewOf s core vc,
    rm := rm, fz := fz, sat := sat, tok := tok, docent := false,
    followOf := none, e0 := 0, count := 0, sync := 0, reads := [], writes := [], rplanes := [], wplanes := [],
    unread := true, after := [],
    descs := ((ctxAt s launch core).map (·.desc)).getD (Vector.replicate 6 0), phase := .queued, segs := [],
    followPlaced := false }

/-- The registers of a command's block; a command without one uses zeros (R210). -/
def blockOf (m : Member) : Option (BitVec 6) → List Word
  | some r => m.r.block r 4
  | none => [0, 0, 0, 0]

def Cmd.reg (x : Cmd) (i : Nat) : Nat := (x.regs.getD i 0).toNat

/-! ## Checks (R211) -/

/-- The shape rules of MMAB (R222). -/
def mmabShape (f : MatFmt) (a b sa sb : ViewBits) : Bool :=
  (View.space a == 1 || View.space a == 2) && View.space b == 3 && View.colslice b &&
  View.dim0 a % 16 == 0 && View.dim0 b % 16 == 0 &&
  (if isSe f then scaleOk a sa && scaleOk b sb else View.fmt a == 9 && View.fmt b == 9)

/-- The limits of the matrix parameter block (R210). -/
def mmabLimits (f : MatFmt) (x : Cmd) (a b : ViewBits) : Bool :=
  x.reg 0 < 4 && (f != .se2 || x.reg 0 % 2 == 0) && x.reg 1 < View.dim0 a / 16 && x.reg 1 < View.dim0 b / 16 &&
  x.reg 2 < View.dim1 a && x.reg 3 % 16 == 0 && x.reg 3 < View.dim1 b

/-- The number of elements that a COPY moves (R216). -/
def copyCount (x : Cmd) : Nat := if x.reg 3 == 0 then View.count x.vb - x.reg 2 else x.reg 3

/-- The limits of a COPY's block (R216): view A is the destination, B the source. -/
def copyLimits (x : Cmd) : Bool :=
  x.reg 2 < View.count x.vb && x.reg 2 + copyCount x ≤ View.count x.va && x.reg 2 + copyCount x ≤ View.count x.vb &&
  (((seOfCode (View.fmt x.va)).isNone && (seOfCode (View.fmt x.vb)).isNone) ||
    (x.reg 2 % 16 == 0 && copyCount x % 16 == 0))

/-- The shape rules of a COPY (R47, R217). -/
def copyShape (x : Cmd) : Bool :=
  copyPairOk (View.fmt x.vb) (View.fmt x.va) && ((seOfCode (View.fmt x.va)).isNone || scaleOk x.va x.sa) &&
  ((seOfCode (View.fmt x.vb)).isNone || scaleOk x.vb x.sb)

/-- The formats of an accumulator tile (R224). -/
def tileFmt (v : ViewBits) : Option Fmt :=
  match fmtOfCode (View.fmt v) with
  | some .fp32 => some .fp32
  | some .fp16 => some .fp16
  | some .bf16 => some .bf16
  | _ => none

/-- Views that a command names. -/
def Cmd.views (x : Cmd) : List ViewBits :=
  match x.kind with
  | .copy | .mmab _ | .scacc _ _ => [x.va, x.vb]
  | .copym _ => [x.va, x.vb, x.vc]
  | .mload _ | .mstore _ | .tmma _ => [x.va]
  | .mzero _ | .drun _ | .ecan _ | .voided _ => []

/-- The shape rules of a command: step 2 of R211. -/
def Cmd.shapeOk (x : Cmd) (sc : ViewBits) : Bool :=
  match x.kind with
  | .copy => copyShape x
  | .copym f => copyShape x && mmabShape f x.va x.vc x.sa sc
  | .mmab f => mmabShape f x.va x.vb x.sa x.sb
  | .scacc _ _ => mmabShape .se2 x.va x.vb x.sa x.sb
  | .mload _ | .mstore _ => (tileFmt x.va).isSome
  | .tmma _ => View.fmt x.va == 3 || View.fmt x.va == 7
  | .mzero _ | .drun _ | .ecan _ | .voided _ => true

/-- The limits of the register values: step 3 of R211. The copy part of a COPYM has no block of its own (R219). -/
def Cmd.limitsOk (x : Cmd) : Bool :=
  match x.kind with
  | .copy => copyLimits x
  | .copym f => copyLimits { x with regs := [0, 0, 0, 0] } && mmabLimits f x x.va x.vc
  | .mmab f => mmabLimits f x x.va x.vb
  | .scacc _ _ => mmabLimits .se4 { x with regs := 0 :: x.regs.drop 1 } x.va x.vb
  | .mload _ | .mstore _ => x.reg 2 < View.dim1 x.va && x.reg 3 < View.dim0 x.va
  | .tmma e => View.count x.va ≤ 512 && e < View.count x.va
  | .mzero _ | .drun _ | .ecan _ | .voided _ => true

/-- Commands that use planes (R221). -/
def CmdKind.usesPlanes : CmdKind → Bool
  | .copy | .ecan _ | .voided _ => false
  | _ => true

/-- The first check of R211 that fails: cause and detail. -/
def cmdFault (s : State) (core : Nat) (x : Cmd) : Option (Nat × Nat) :=
  if !x.views.all View.valid || !x.shapeOk x.sc then some (0x04, 0)
  else if !x.limitsOk then some (0x0D, 1)
  else if x.kind.usesPlanes && (match (coreAt s core).eng.owner with | some l => l != x.launch | none => false)
  then some (0x0D, 2)
  else none

/-! ## Queues and order (R207, R208) -/

/-- The unit whose queue a command takes. -/
inductive EUnit | copy | array | docent | none
deriving DecidableEq, Repr

def CmdKind.unit : CmdKind → EUnit
  | .copy | .copym _ => .copy
  | .tmma _ | .drun _ => .docent
  | .ecan _ | .voided _ => .none
  | _ => .array

def EUnit.depth : EUnit → Nat
  | .copy => 16 | .array => 32 | .docent => 4 | .none => 0

/-- Commands in a unit's queue; a COPYM whose follow-on stands in the array queue has left the copy engine (R219). -/
def inQueue (e : Engines) (u : EUnit) : Nat := (e.cmds.filter fun x => x.2.kind.unit == u && !x.2.followPlaced).length

/-- A full queue holds a command; while the array of a core replays a captured unit, a plane command waits there as if the queue were full
(R207, R302). -/
def queueFull (s : State) (core : Nat) (k : CmdKind) : Bool :=
  (k.unit != .none && inQueue (coreAt s core).eng k.unit ≥ k.unit.depth) || (k.usesPlanes && s.mod.replay == some core)

/-! ## Footprints (R213) -/

/-- The range from the lowest to the highest byte of a list of elements of a size. -/
def rangeOf (l : List Elem) (size : Nat) : List (Word64 × Nat) :=
  let as := l.filterMap fun x => match x with | .addr a => some a.toNat | _ => none
  match as with
  | [] => []
  | a :: r =>
    let lo := r.foldl min a
    [(BitVec.ofNat 64 lo, r.foldl max a + size - lo)]

/-- The elements of a plain view from `e0` on. -/
def elemsOf (v : ViewBits) (size e0 n : Nat) : List Elem := (List.range n).map fun i => elementAt v size (e0 + i)

/-- Coordinates of the block that holds element `e` of an SE view: along dimension 0, then 1 and 2. -/
def blockCoords (v : ViewBits) (e : Nat) : Nat × Nat × Nat :=
  (e % View.dim0 v / 16, e / View.dim0 v % View.dim1 v, e / (View.dim0 v * View.dim1 v))

/-- The blocks of an SE view that hold elements `e0` to `e0 + n - 1`. -/
def blocksOf (v : ViewBits) (e0 n : Nat) : List (Nat × Nat × Nat) :=
  (List.range (n / 16)).map fun i => blockCoords v (e0 + 16 * i)

/-- The byte ranges of a run of elements of a view and of its scale view. -/
def viewRanges (v sc : ViewBits) (e0 n : Nat) : List (Word64 × Nat) :=
  match seOfCode (View.fmt v) with
  | none => rangeOf (elemsOf v (View.size v) e0 n) (View.size v)
  | some f =>
    let bs := blocksOf v e0 n
    rangeOf (bs.map fun b => blockAddr v (blockSize f) b.1 b.2.1 b.2.2) (blockSize f) ++
    rangeOf (bs.map fun b => scaleAddr v sc b.1 b.2.1 b.2.2) 1

/-- Rows of a matrix operand from `r0`: those inside the view. -/
def rowsOf (v : ViewBits) (r0 n : Nat) : List Nat := (List.range n).filterMap fun r => if r0 + r < View.dim1 v then some (r0 + r) else none

/-- The bytes of K-block `b` of rows of a matrix operand (R222). -/
def operandRange (f : MatFmt) (v : ViewBits) (b : Nat) (rows : List Nat) : List (Word64 × Nat) :=
  if isSe f then rangeOf (rows.map fun i => blockAddr v (blockSize f) b i 0) (blockSize f)
  else rangeOf (rows.map fun i => spaceAddr (View.space v) (viewOff v 2 (16 * b) i 0)) 32

/-- The scale bytes of K-block `b` of rows. -/
def scaleRange (v sc : ViewBits) (b : Nat) (rows : List Nat) : List (Word64 × Nat) :=
  rangeOf (rows.map fun i => scaleAddr v sc b i 0) 1

/-- Columns that an MMAB writes (R222). -/
def mmabCols (f : MatFmt) : Nat := if f == .se2 then 32 else 16

/-- The elements of an accumulator tile that lie inside its view: row, column, element index (R224). -/
def tileElems (v : ViewBits) (r0 c0 : Nat) : List (Nat × Nat × Nat) :=
  (List.range 256).filterMap fun i =>
    if c0 + i % 16 < View.dim0 v && r0 + i / 16 < View.dim1 v then
      some (i / 16, i % 16, c0 + i % 16 + View.dim0 v * (r0 + i / 16))
    else none

/-- The planes that an MMAB writes, as numbers 0 to 7. -/
def mmabPlanes (f : MatFmt) (p : Nat) : List Nat :=
  match f with
  | .se2 => [p, p + 1]
  | .bf16 => [4 + p]
  | _ => [p]

/-- The number of docent memory among the planes of a footprint (R213). -/
def docPlane : Nat := 8

/-- The bytes that an MMAB reads in an operand, with the scale bytes of SE blocks (R213, R222). -/
def operandReads (f : MatFmt) (v sc : ViewBits) (b : Nat) (rows : List Nat) : List (Word64 × Nat) :=
  operandRange f v b rows ++ if isSe f then scaleRange v sc b rows else []

/-- The bytes that the follow-on of a COPYM reads: its operand B, and the copy as operand A (R219). -/
def followReads (f : MatFmt) (x : Cmd) : List (Word64 × Nat) :=
  operandReads f x.va x.sa (x.reg 1) (rowsOf x.va (x.reg 2) 16) ++
  operandReads f x.vc x.sc (x.reg 1) (rowsOf x.vc (x.reg 3) (mmabCols f))

/-- A command with its footprint (R213); a COPYM holds that of its follow-on too, which stands directly behind it (R208). -/
def Cmd.withFootprint (x : Cmd) : Cmd :=
  match x.kind with
  | .copy =>
    let y := { x with e0 := x.reg 2, count := copyCount x, sync := (x.regs.getD 1 0) ++ (x.regs.getD 0 0) }
    { y with reads := viewRanges x.vb x.sb y.e0 y.count, writes := viewRanges x.va x.sa y.e0 y.count }
  | .copym f =>
    let y := { x with count := View.count x.vb }
    { y with
      reads := viewRanges x.vb x.sb 0 y.count, follow := followReads f x,
      writes := viewRanges x.va x.sa 0 y.count, rplanes := mmabPlanes f (x.reg 0), wplanes := mmabPlanes f (x.reg 0) }
  | .mmab f =>
    { x with
      reads := operandReads f x.va x.sa (x.reg 1) (rowsOf x.va (x.reg 2) 16) ++
        operandReads f x.vb x.sb (x.reg 1) (rowsOf x.vb (x.reg 3) (mmabCols f)),
      rplanes := if isSe f then [] else mmabPlanes f (x.reg 0), wplanes := mmabPlanes f (x.reg 0) }
  | .scacc p c =>
    { x with
      reads := scaleRange x.va x.sa (x.reg 1) (rowsOf x.va (x.reg 2) 16) ++
        scaleRange x.vb x.sb (x.reg 1) (rowsOf x.vb (x.reg 3) 16),
      rplanes := [p, 4 + c], wplanes := [p, 4 + c] }
  | .mload c =>
    { x with reads := rangeOf ((tileElems x.va (x.reg 2) (x.reg 3)).map fun t => elementAt x.va (View.size x.va) t.2.2)
                        (View.size x.va), wplanes := [4 + c] }
  | .mstore c =>
    { x with writes := rangeOf ((tileElems x.va (x.reg 2) (x.reg 3)).map fun t => elementAt x.va (View.size x.va) t.2.2)
                         (View.size x.va), rplanes := [4 + c] }
  | .mzero c => { x with wplanes := [4 + c] }
  | .tmma _ => { x with reads := viewRanges x.va 0 0 (View.count x.va), wplanes := [docPlane] }
  | .drun _ => { x with rplanes := [docPlane] }
  | .ecan _ => { x with unread := false }
  | .voided l => { x with unread := false, wplanes := l }

/-! ## Acceptance -/

/-- The claim of the array by a launch's context: partial planes empty, accumulators +0 (R221). -/
def claimArray (e : Engines) (launch : Nat) : Engines :=
  if e.owner.isSome then e else { e with owner := some launch, parts := [], partState := [], accs := [] }

/-- What a command waits for of its context's earlier accesses: open fences, and acquires until they are merged (R186, R214, R259). -/
def cmdAfter (s : State) (id : Nat) (m : Member) : List Nat :=
  (m.fences.flatMap fun f => (if f.rel then f.waits else []) ++ (if f.acq then f.reads else [])) ++
  ((ownAccs s id).filter fun e => e.2.acq && (!e.2.performed || e.2.kind.returnsValue)).map (·.1)

/-- What a command's reads require (R245, R257): all that its context may have observed has been applied where the command reads, as
its writes carry it. -/
def cmdNeed (s : State) (m : Member) : List Nat :=
  let v := joinVec (fieldAt s (fieldOf m.core)).know (m.fences.foldl (fun v f => joinVec v f.need) m.owed)
  if applied s v then [] else v

/-- What an engine's sequenced writes must follow of their context's earlier accesses (R245): reads that are not merged, packets that have not
left. -/
def cmdBefore (s : State) (id : Nat) : List Nat :=
  ((ownAccs s id).filter fun e => e.2.kind.fenced && !e.2.kind.isIo).map (·.1)

/-- Acceptance (R208): the command takes its place in engine order, a COPYM with the next place for its follow-on. Answers its
key. -/
def acceptCmd (s : State) (core : Nat) (x : Cmd) : Nat × State :=
  let (id, s1) := freshId s
  let y := x.withFootprint
  let (after, need, seq) := match memberAt s x.member with
    | some m => (cmdAfter s x.member m, cmdNeed s m, m.seq)
    | none => ([], [], 0)
  (id, updCore s1 core fun u =>
    let e := if x.kind.usesPlanes then claimArray u.eng x.launch else u.eng
    { u with eng := { e with nextOrder := e.nextOrder + 2, cmds := tabPut e.cmds id { y with
      order := e.nextOrder, after := after, need := need, before := cmdBefore s x.member, seq := seq } } })

/-- A direct command (R211): the checks, the queue, the token, acceptance. -/
def issueCmd (s : State) (k : Cur) (m : Member) (x : Cmd) : State :=
  match cmdFault s m.core x with
  | some (c, d) => trap s k c d
  | none =>
    if queueFull s m.core x.kind || (x.tok < 6 && tokCount m x.tok ≥ Config.tokenMax) then holdGroup s
    else
      let (_, s1) := acceptCmd s m.core x
      if x.tok < 6 then tokInc s1 k.member x.tok else s1

/-- A command of group 0xB; guarded off it has no effect and none of its checks (R55, R211). -/
def cmdForm (s : State) (c : Common) (kind : CmdKind) (block : Option (BitVec 6)) (va vb vc : Option (BitVec 6)) (rm : Rm)
    (fz sat : Bool) (tok : BitVec 3) : Result :=
  runForm s c (fun _ => none) [] (fun _ _ => s) fun k m _ =>
    let view (v : Option (BitVec 6)) : ViewBits := match v with | some n => viewAt s m.core n.toNat | none => 0
    issueCmd s k m
      (newCmd s m.core kind k.member m.launch k.word (blockOf m block) (view va) (view vb) (view vc) rm fz sat tok.toNat)

/-- COPY (R216). -/
def execCopy (c : Common) (block : Option (BitVec 6)) (vd vs : BitVec 6) (rm : Rm) (fz sat : Bool) (tok : BitVec 3)
    (st : State) : Result := cmdForm st c .copy block (some vd) (some vs) none rm fz sat tok

/-- COPYM (R219). -/
def execCopym (c : Common) (block : BitVec 6) (vd vs vb : BitVec 6) (fmt : MatFmt) (rm : Rm) (fz sat : Bool) (tok : BitVec 3)
    (st : State) : Result := cmdForm st c (.copym fmt) (some block) (some vd) (some vs) (some vb) rm fz sat tok

/-- MMAB (R222). -/
def execMmab (c : Common) (block : BitVec 6) (va vb : BitVec 6) (fmt : MatFmt) (tok : BitVec 3) (st : State) : Result :=
  cmdForm st c (.mmab fmt) (some block) (some va) (some vb) none .rne false false tok

/-- SCACC (R223). -/
def execScacc (c : Common) (block : Option (BitVec 6)) (va vb : BitVec 6) (part acc : BitVec 2) (tok : BitVec 3) (st : State) :
    Result := cmdForm st c (.scacc part.toNat acc.toNat) block (some va) (some vb) none .rne false false tok

/-- MLOAD (R224). -/
def execMload (c : Common) (block : Option (BitVec 6)) (v : BitVec 6) (acc : BitVec 2) (tok : BitVec 3) (st : State) : Result :=
  cmdForm st c (.mload acc.toNat) block (some v) none none .rne false false tok

/-- MSTORE (R224). -/
def execMstore (c : Common) (block : Option (BitVec 6)) (v : BitVec 6) (acc : BitVec 2) (rm : Rm) (fz sat : Bool) (tok : BitVec 3)
    (st : State) : Result := cmdForm st c (.mstore acc.toNat) block (some v) none none rm fz sat tok

/-- MZERO (R224). -/
def execMzero (c : Common) (acc : BitVec 2) (tok : BitVec 3) (st : State) : Result :=
  cmdForm st c (.mzero acc.toNat) none none none none .rne false false tok

/-- TMMA (R225). -/
def execTmma (c : Common) (block : BitVec 6) (v : BitVec 6) (entry : BitVec 9) (tok : BitVec 3) (st : State) : Result :=
  cmdForm st c (.tmma entry.toNat) (some block) (some v) none none .rne false false tok

/-- DRUN (R225). -/
def execDrun (c : Common) (block : BitVec 6) (entry : BitVec 9) (tok : BitVec 3) (st : State) : Result :=
  cmdForm st c (.drun entry.toNat) (some block) none none none .rne false false tok

/-! ## The end of commands, and ECAN (R214, R231) -/

/-- A command that was issued with a token retires as the token counts it; TMMA, DRUN and ECAN, which no unit charges, are charged then
(R297, R299). -/
def retireCmd (s : State) (core launch : Nat) (word : Word64) : State :=
  retireEntry s core launch (match decodeWord word with | .ok (.tmma ..) | .ok (.drun ..) | .ok (.ecan ..) => some 11 | _ => none) 1

/-- A command is struck off; its token counts down where `clears` says so, and the command retires with it (R212, R214, R297). -/
def strikeCmd (s : State) (core id : Nat) (clears : Bool) : State :=
  match tabGet (coreAt s core).eng.cmds id with
  | none => s
  | some x =>
    let s1 := updCore s core fun u => { u with eng := { u.eng with cmds := tabDrop u.eng.cmds id } }
    if clears && x.tok < 6 && !x.docent then tokDec (retireCmd s1 core x.launch x.word) x.member x.tok else s1

/-- A command is struck off and its token counts down (R214, R297). -/
def dropCmd (s : State) (core id : Nat) : State := strikeCmd s core id true

/-- The partial planes that a stopped or dropped command leaves empty: those of an SE MMAB, and of a COPYM that has not placed its
follow-on (R231). -/
def planesLost (x : Cmd) : List Nat :=
  match x.kind with
  | .mmab f | .copym f => if isSe f && !x.followPlaced then mmabPlanes f (x.reg 0) else []
  | .voided l => l
  | _ => []

/-- Partial planes become empty. -/
def emptyPlanes (e : Engines) (l : List Nat) : Engines := l.foldl (fun t p => setPart t p [] .empty) e

/-- Writes of a command that have not left yet are not performed: their elements stay old (R231). -/
def dropWrites (s : State) (cmd : Nat) : State :=
  { s with accs := s.accs.filter fun e => match e.2.kind with
      | .engineWrite c _ => !(c == cmd && e.2.phase == .issued)
      | _ => true }

/-- Writes and counts of a command that still travel. -/
def openWrites (s : State) (cmd : Nat) : List Nat :=
  (s.accs.filter fun e => match e.2.kind with | .engineWrite c _ => c == cmd | .advance c => c == cmd | _ => false).map (·.1)

/-- A command stops where it stands (R212, R231): what it has not written stays old, and its partial planes are empty. -/
def haltCmd (s : State) (core id : Nat) (clears : Bool) : State :=
  match tabGet (coreAt s core).eng.cmds id with
  | none => s
  | some x =>
    strikeCmd (dropWrites (updCore s core fun u => { u with eng := emptyPlanes u.eng (planesLost x) }) id) core id clears

/-- A command ends that has not come to its place in engine order: its planes become empty there, behind the commands before it that still
read them (R213, R231). -/
def voidCmd (s : State) (core id : Nat) (clears : Bool) : State :=
  match tabGet (coreAt s core).eng.cmds id with
  | none => s
  | some x =>
    let v : Cmd := { x with
      kind := .voided (planesLost x), tok := 7, followOf := none, reads := [], follow := [], writes := [], rplanes := [], wplanes := planesLost x,
      unread := false, after := [], need := [], before := [], phase := .queued, segs := [] }
    updCore (strikeCmd (dropWrites s id) core id clears) core fun u => { u with eng := { u.eng with cmds := tabPut u.eng.cmds id v } }

/-- A command ends before its end (R212, R231): at once where it has come to its place or loses no planes. -/
def endEarly (s : State) (core id : Nat) (atPlace : Cmd → Bool) (clears : Bool) : State :=
  match tabGet (coreAt s core).eng.cmds id with
  | none => s
  | some x => if (planesLost x).isEmpty || atPlace x then haltCmd s core id clears else voidCmd s core id clears

/-- One command is cancelled (R231). -/
def cancelCmd (s : State) (core id : Nat) : State := endEarly s core id (fun x => !x.unread && x.kind.unit == .array) true

/-- Whether an ECAN cancels a command (R231): one of the issuing member on a unit of the mask, accepted before; a docent's step only
with the docent, and only if it has not started. -/
def isCancelled (member : Nat) (mask : BitVec 3) (x : Cmd) : Bool :=
  x.member == member &&
  (match x.kind.unit with
    | .copy => if x.followPlaced then false else mask.getLsbD 0
    | .array => mask.getLsbD 1
    | .docent => mask.getLsbD 2
    | .none => false) &&
  (!x.docent || (mask.getLsbD 2 && x.phase == .queued))

/-- ECAN (R231): it takes its place in engine order; its token clears when nothing of the cancelled work will be performed any
more. A running program of the member stops with the docent in the mask. -/
def cancelWork (s : State) (core member : Nat) (mask : BitVec 3) : State × List Nat :=
  let e := (coreAt s core).eng
  let ids := (e.cmds.filter fun x => isCancelled member mask x.2).map (·.1)
  -- a COPYM whose follow-on is cancelled ends with it
  let owners := ids.filterMap fun i => (tabGet e.cmds i).bind (·.followOf)
  let s1 := (ids ++ owners).foldl (fun t i => cancelCmd t core i) s
  let s2 := updCore s1 core fun u => { u with eng := { u.eng with prog :=
    match u.eng.prog with
    | some p => if (tabGet u.eng.cmds p.cmd).isSome then some p else none
    | none => none } }
  (s2, (ids ++ owners).flatMap fun i => openWrites s2 i)

/-- ECAN (R231). -/
def execEcan (c : Common) (mask : BitVec 3) (tok : BitVec 3) (st : State) : Result :=
  runForm st c (fun _ => none) [] (fun _ _ => st) fun k m _ =>
    if tok.toNat < 6 && tokCount m tok.toNat ≥ Config.tokenMax then holdGroup st
    else
      let (s1, left) := cancelWork st m.core k.member mask
      let x := newCmd s1 m.core (.ecan mask) k.member m.launch k.word [] 0 0 0 .rne false false tok.toNat
      let (id, s2) := acceptCmd s1 m.core x
      let s3 := updCore s2 m.core fun u => { u with eng := { u.eng with cmds := tabUpd u.eng.cmds id fun y =>
        { y with after := left, phase := .running } } }
      if tok.toNat < 6 then tokInc s3 k.member tok.toNat else s3

end Sys2Proof.Machine
end

