-- ==== Sys2Proof/Machine/EngineRun.lean ====
section
/-!
DEFINITION. Running engine commands (R212 to R220, R222 to R224): reads and writes through the walk-ahead TLB, held faults and
stops, segments and their counts, and the ends of commands.
-/
namespace Sys2Proof.Machine

/-! ## Accesses of an engine -/

/-- A failure of a command (R212): the detail, the address involved, and what the fault names beside them. -/
structure EngFail where
  detail : Nat
  addr : Word64 := 0
  note : EngNote := { view := 0, index := 0, under := 0 }

/-- What an engine's accesses find: their values, a held cause with the address that meets it, a failure, or bytes of a peer that have not
come. -/
inductive EngRes (α : Type)
  | ok (v : α)
  | held (c : Nat) (addr : Word64)
  | fail (f : EngFail)
  | missing

/-- What follows accesses that succeed. -/
def EngRes.then {α β : Type} (p : EngRes α × State) (f : α → State → EngRes β × State) : EngRes β × State :=
  match p.1 with
  | .ok v => f v p.2
  | .held c a => (.held c a, p.2)
  | .fail x => (.fail x, p.2)
  | .missing => (.missing, p.2)

/-- The detail under which a failed check is reported (R212). -/
def engineDetail (cause : Nat) : Nat := if cause == 0x08 || cause == 0x09 then 7 else 6

/-- An element, block or scale byte that an engine reads: the operand and the index that a fault names, its place and its size. -/
structure EngElem where
  view : Nat
  index : Nat
  place : Elem
  size : Nat

/-- The answers of a peer for a run of bytes, as far as they have come. -/
def peerAnswers (ext : PeerBytes) (ap pa n : Nat) : List (Option PeerRead) :=
  (List.range n).map fun i => (ext.find? fun e => e.1 == ap && e.2.1 == pa + i).map (·.2.2)

/-- What an engine finds on a peer (R212): its bytes, a rejection or loss under PeerReject or PeerLost, or bytes that have not come. -/
def peerBytesAt (ext : PeerBytes) (ap pa n : Nat) (w : Word64) (view index : Nat) : EngRes (List Byte) :=
  let l := peerAnswers ext ap pa n
  let bad (cause : Nat) : EngRes (List Byte) :=
    .fail { detail := 7, addr := w, note := { view := view, index := index, under := cause, underDetail := ap } }
  if l.contains (some .reject) then bad 0x08
  else if l.contains (some .lost) then bad 0x09
  else if l.contains none then .missing
  else .ok (l.filterMap fun x => match x with | some (.byte b) => some b | _ => none)

/-- The pieces of a run that are translated each for itself: VIRT is mapped page by page (R177, R178). -/
def aimPieces (w : Word64) (n : Nat) : List (Word64 × Nat) :=
  if w.toNat / 2 ^ 60 == 4 then (pagePieces w.toNat n).map fun p => (BitVec.ofNat 64 p.1, p.2) else [(w, n)]

/-- Where an engine's access to a run of a space goes, piece by piece (R178, R179, R212). -/
def engineAims (s : State) (core : Nat) (x : Cmd) (need : Need) (view index : Nat) :
    List (Word64 × Nat) → EngRes (List (Resolved × Word64 × Nat)) × State
  | [] => (.ok [], s)
  | (w, n) :: r =>
    match resolveIn s x.descs core (homeOf s x.member core) true need w n with
    | (.held c, s1) => (.held c w, s1)
    | (.bad cause d, s1) =>
      (.fail { detail := engineDetail cause, addr := w, note := { view := view, index := index, under := cause, underDetail := d } }, s1)
    | (.ok t, s1) => EngRes.then (engineAims s1 core x need view index r) fun l s2 => (.ok ((t, w, n) :: l), s2)

/-- An engine reads one piece of an element at its place (R308, R323). -/
def readPiece (s : State) (core : Nat) (x : Cmd) (ext : PeerBytes) (e : EngElem) (p : Resolved × Word64 × Nat) : EngRes (List Byte) × State :=
  match p.1.tgt with
  | .loc pa =>
    if isPoisoned s pa p.2.2 then
      (.fail { detail := 6, addr := p.2.1, note := { view := e.view, index := e.index, under := 0 } }, countError s)
    else
      let s1 := spendBudget s core p.2.2 pa
      (.ok (homeRead s1 pa p.2.2), touchLines s1 (some (x.launch, core)) pa p.2.2)
  | .peer ap pa => (peerBytesAt ext ap pa p.2.2 p.2.1 e.view e.index, s)

/-- An engine reads the pieces of an element; the first that fails decides. -/
def readPieces (s : State) (core : Nat) (x : Cmd) (ext : PeerBytes) (e : EngElem) : List (Resolved × Word64 × Nat) → EngRes (List Byte) × State
  | [] => (.ok [], s)
  | p :: r =>
    EngRes.then (readPiece s core x ext e p) fun b s1 =>
      EngRes.then (readPieces s1 core x ext e r) fun l s2 => (.ok (b ++ l), s2)

/-- An engine reads an element (R179, R212, R308), and its quad's budget counts the bytes (R323). -/
def engineRead (s : State) (core : Nat) (x : Cmd) (ext : PeerBytes) (e : EngElem) : EngRes (List Byte) × State :=
  match e.place with
  | .outside | .bad _ _ => (.fail { detail := 6, note := { view := e.view, index := e.index, under := 0x04 } }, s)
  | .addr w =>
    EngRes.then (engineAims s core x Need.load e.view e.index (aimPieces w e.size)) fun l s1 => readPieces s1 core x ext e l

/-- An engine reads a list of elements; the first that fails decides. -/
def engineReads (s : State) (core : Nat) (x : Cmd) (ext : PeerBytes) : List EngElem → EngRes (List Nat) × State
  | [] => (.ok [], s)
  | a :: r =>
    EngRes.then (engineRead s core x ext a) fun b s1 =>
      EngRes.then (engineReads s1 core x ext r) fun l s2 => (.ok (natOfBytes b :: l), s2)

/-- What an engine has read in one step would take its quad past the budget of the interval: it waits for the next (R323; log 27). -/
def overBudget (s t : State) (core : Nat) : Bool :=
  let q := quadAt s (globalQuad core)
  let spent := (quadAt t (globalQuad core)).spent
  q.budget != 0 && q.spent != 0 && spent != q.spent && decide (q.budget.toNat < spent)

/-- An element, block or scale byte that an engine writes, with the operand and the index that a fault names. -/
structure EngineStore where
  addr : Elem
  bytes : List Byte
  view : Nat := 0
  index : Nat := 0
deriving DecidableEq, Repr

/-- An access of an engine for its command, at the place of the command in its context's program order (R245). -/
def engineAccess (kind : AccKind) (core : Nat) (x : Cmd) (w : Word64) (r : Resolved) (size : Nat) (data : Word64) : Access :=
  { kind := kind, member := x.member, launch := x.launch, core := core, seq := x.seq, word := x.word, addr := w, tgt := r.tgt,
    size := size, fmt := .n8, data := data, data2 := 0, bytes := [], dest := .none, attr := r.attr, acq := false, rel := false,
    scope := .core, pol := .default, relSet := [], tok := 7, pc := 0, slot := 0, phase := .issued, value := 0, value2 := 0,
    hops := 0, param := 0, stamp := [], heldCause := 0, bad := none, descs := x.descs }

/-- The strongest of the order attributes of an access's pieces (R178): strong, then release, then unordered. -/
def strongestOf (l : List (Resolved × Word64 × Nat)) : OrderAttr :=
  if l.any fun p => p.1.attr == .strong then .strong else if l.any fun p => p.1.attr == .release then .release else .unordered

/-- The write of an element as the accesses of its pieces, which keep the operand and the index for a fault (R178, R212, R215). -/
def storePieces (core cmd seg : Nat) (x : Cmd) (e : EngineStore) (l : List (Resolved × Word64 × Nat)) : List Access :=
  l.map fun p =>
    let at_ := (l.takeWhile fun q => q.2.1 != p.2.1).foldl (fun n q => n + q.2.2) 0
    let b := (e.bytes.drop at_).take p.2.2
    { engineAccess (.engineWrite cmd seg) core x p.2.1 p.1 p.2.2 0 with
      bytes := b.zipIdx.map fun q => (q.2, q.1), param := e.index, hops := e.view, relSet := x.before, attr := strongestOf l }

/-- The accesses of an engine's writes (R215): writes that the core's field originates, in no order among themselves. -/
def engineStores (s : State) (core cmd seg : Nat) (x : Cmd) : List EngineStore → EngRes (List Access) × State
  | [] => (.ok [], s)
  | e :: r =>
    match e.addr with
    | .outside | .bad _ _ => (.fail { detail := 6, note := { view := e.view, index := e.index, under := 0x04 } }, s)
    | .addr w =>
      EngRes.then (engineAims s core x Need.store e.view e.index (aimPieces w e.bytes.length)) fun t s1 =>
        EngRes.then (engineStores s1 core cmd seg x r) fun l s2 => (.ok (storePieces core cmd seg x e t ++ l), s2)

/-- Accesses enter under fresh keys. -/
def addAccs (s : State) (l : List Access) : List Nat × State :=
  l.foldl (fun p a => let (n, t) := freshId p.2; (p.1 ++ [n], { t with accs := tabPut t.accs n a })) ([], s)

def updCmd (s : State) (core id : Nat) (f : Cmd → Cmd) : State :=
  updCore s core fun u => { u with eng := { u.eng with cmds := tabUpd u.eng.cmds id f } }

def cmdAt (s : State) (core id : Nat) : Option Cmd := tabGet (coreAt s core).eng.cmds id

/-! ## Stops (R212) -/

/-- The fault of a command at its issuing member (R212): asynchronous, and its delivery clears the token; a member that has left sends its
record to Sernus. -/
def engineFault (s : State) (member : Nat) (word : Word64) (f : EngFail) (tok : Option Nat) : State :=
  queueFault s member
    { cause := 0x0D, detail := f.detail, word := word, addr := f.addr, fetchStage := false, async := true, slot := 0, from_ := none,
      engine := some f.note, tok := tok }

/-- The token of a failed command clears, and the command retires with it (R212, R297). -/
def clearFaultTok (s : State) (id : Nat) (word : Word64) (tok : Nat) : State :=
  match memberAt s id with
  | some m => tokDec (retireCmd s m.core m.launch word) id tok
  | none => s

/-- The token that the delivery of a command's fault clears. -/
def Cmd.faultTok (x : Cmd) : Option Nat := if x.tok < 6 && !x.docent then some x.tok else none

/-- A command ends with its fault (R212). -/
def failCmd (s : State) (core id : Nat) (x : Cmd) (f : EngFail) : State :=
  strikeCmd (engineFault s x.member x.word f x.faultTok) core id false

/-- A docent program stops (R212, R227, R301): the fault under its TMMA or DRUN with the step index in bits [31:16]; a captured unit is
skipped. -/
def stopProgram (s : State) (core : Nat) (f : EngFail) (step : Nat) : State :=
  match (coreAt s core).eng.prog with
  | none => s
  | some p =>
    let s1 := updCore s core fun u => { u with eng := { u.eng with prog := none } }
    let s2 := if p.captured then updMod s1 fun m => { m with skipped := m.skipped + 1 } else s1
    match cmdAt s2 core p.cmd with
    | none => s2
    | some x => failCmd s2 core p.cmd x { f with detail := f.detail + step * 2 ^ 16 }

/-- The step of the docent program that issued a command. -/
def isProgramStep (s : State) (core id : Nat) : Bool :=
  ((coreAt s core).eng.prog.map fun p => p.steps.contains id).getD false

/-- A command stops (R212): a follow-on reports under its COPYM (R219), a docent step stops its program. A COPYM that stops in its copy part
empties the planes of its follow-on at their place in engine order (R213). -/
def stopCmd (s : State) (core id : Nat) (f : EngFail) : State :=
  match cmdAt s core id with
  | none => s
  | some x =>
    let s1 := endEarly s core id (fun y => y.kind.unit == .array) false
    if x.docent then if isProgramStep s core id then stopProgram s1 core f (x.reg 4) else s1
    else
      match x.followOf with
      | some o =>
        match cmdAt s core o with
        | some y => failCmd s1 core o y f
        | none => s1
      | none => engineFault s1 x.member x.word f x.faultTok

/-- A held fault on a command (R179, R212): Sernus receives its record; the command waits. -/
def holdCmd (s : State) (core id c : Nat) (addr : Word64) : State :=
  match cmdAt s core id with
  | none => s
  | some x =>
    let s1 := updCmd s core id fun y => { y with phase := .held }
    match memberAt s x.member with
    | none => s1
    | some m => sendRecord s1 (faultRecord s m
        { cause := c + 0x0F, detail := c, word := x.word, addr := addr, fetchStage := false, async := true, slot := 0,
          from_ := none } (c + 0x0F) c)

/-- What a command does with what its accesses find: it goes on with their values, is held, or stops (R212). -/
def settleCmd {α : Type} (s : State) (core id : Nat) (p : EngRes α × State) (go : α → State → State) : State :=
  match p.1 with
  | .missing => s
  | .held c a => holdCmd p.2 core id c a
  | .fail f => stopCmd p.2 core id f
  | .ok v => if overBudget s p.2 core then s else go v p.2

/-! ## Conflicts (R213, R214) -/

/-- Whether two lists of ranges of two commands meet. -/
def rangesConflict (s : State) (core : Nat) (x y : Cmd) (rx ry : List (Word64 × Nat)) : Bool :=
  rx.any fun r => (rangePieces s x.descs core (homeOf s x.member core) r).any fun p =>
    ry.any fun q => rangeMeets s y.descs core (homeOf s y.member core) q p.1 p.2

/-- Whether an earlier command keeps a later one from running: what one has still to write meets any part of the other (R213). The copy
part of a COPYM does not touch the planes of its follow-on. -/
def cmdsConflict (s : State) (core : Nat) (early late : Cmd) : Bool :=
  let l : List Nat × List Nat := match late.kind with | .copym _ => ([], []) | _ => (late.rplanes, late.wplanes)
  early.wplanes.any (fun p => l.1.contains p || l.2.contains p) || l.2.any (fun p => early.rplanes.contains p) ||
  rangesConflict s core early late early.writes late.writes || rangesConflict s core early late early.writes late.reads ||
  rangesConflict s core early late early.openReads late.writes

/-- An earlier command has not finished with what a later one touches (R213). A COPYM has finished once its follow-on is placed, which
has a place of its own; a TMMA has for later commands once its list is read, and the steps of programs never wait for it. -/
def blocksLater (s : State) (core id : Nat) (x : Cmd) (e : Nat × Cmd) : Bool :=
  e.1 != id && e.2.order < x.order && x.followOf != some e.1 && !e.2.followPlaced &&
  (match e.2.kind with
    | .tmma _ | .drun _ =>
      !x.docent && (if x.kind.unit == .docent then cmdsConflict s core e.2 x else rangesConflict s core e.2 x e.2.openReads x.writes)
    | _ => cmdsConflict s core e.2 x)

/-- A held docent step holds the later steps of its program in the same unit (R227). -/
def heldBefore (s : State) (core id : Nat) (x : Cmd) : Bool :=
  x.docent && isProgramStep s core id && (coreAt s core).eng.cmds.any fun e =>
    e.2.docent && e.2.phase == .held && e.2.order < x.order && e.2.kind.unit == x.kind.unit

/-- Whether an access writes bytes that a command reads (R214): one that a fault holds is known by its space address. -/
def writesInto (s : State) (core : Nat) (x : Cmd) (a : Access) : Bool :=
  x.reads.any fun r =>
    if a.phase == .logged then runsMeet a.run.1 a.run.2 r.1.toNat r.2
    else rangeMeets s x.descs core (homeOf s x.member core) r a.tgt a.size

/-- Whether what fences and acquires put before a command is done: writes are performed, and what reads have brought is merged (R257,
R259). -/
def afterDone (s : State) (l : List Nat) : Bool :=
  l.all fun i => match tabGet s.accs i with
    | some e => e.performed && !e.kind.returnsValue
    | none => true

/-- Whether a command may run now (R213, R214, R257, R259): no conflict with an earlier command, its context's earlier writes to the bytes
that it reads are performed, and so is what fences, acquires and the context's knowledge put before it. -/
def cmdReady (s : State) (core id : Nat) (x : Cmd) : Bool :=
  !((coreAt s core).eng.cmds.any (blocksLater s core id x)) && !heldBefore s core id x && afterDone s x.after && applied s x.need &&
  !((ownAccs s x.member).any fun e => e.1 < x.followOf.getD id && e.2.kind.writes && !e.2.performed && writesInto s core x e.2)

/-! ## COPY (R216 to R218) -/

/-- The elements, or blocks, of one segment: its first element and its count (R218). -/
def segmentOf (x : Cmd) (i : Nat) : Nat × Nat :=
  let per := match seOfCode (View.fmt x.va) with
    | some f => 4096 / blockSize f * 16
    | none => 4096 / View.size x.va
  (x.e0 + i * per, min per (x.count - i * per))

/-- A run of plain elements of an operand. -/
def plainElems (view : Nat) (v : ViewBits) (e0 n : Nat) : List EngElem :=
  (List.range n).map fun i => { view := view, index := e0 + i, place := elementAt v (View.size v) (e0 + i), size := View.size v }

/-- What a COPY reads for a run of elements: the elements of a plain source; of an SE source the blocks and their scale bytes (R216). -/
def copyReads (x : Cmd) (e0 n : Nat) : List EngElem :=
  match seOfCode (View.fmt x.vb) with
  | none => plainElems 1 x.vb e0 n
  | some f =>
    let bs := (blocksOf x.vb e0 n).zipIdx
    (bs.map fun b => { view := 1, index := e0 / 16 + b.2, place := blockAddr x.vb (blockSize f) b.1.1 b.1.2.1 b.1.2.2, size := blockSize f }) ++
    bs.map fun b => { view := 4, index := e0 / 16 + b.2, place := scaleAddr x.vb x.sb b.1.1 b.1.2.1 b.1.2.2, size := 1 }

/-- The blocks of an SE source from the values read: scale byte and block. -/
def sourceBlocks (f : MatFmt) (vals : List Nat) : List (Nat × SeBlock) :=
  let n := vals.length / 2
  (vals.drop n).zip ((vals.take n).map fun v => seBlockOf (seBits f) (bytesOf (blockSize f) v))

/-- The source elements as FP32 patterns. -/
def sourceFp32 (x : Cmd) (vals : List Nat) : List Nat :=
  match fmtOfCode (View.fmt x.vb), seOfCode (View.fmt x.vb) with
  | some f, _ => vals.map (toFp32 f)
  | none, some f => (sourceBlocks f vals).flatMap fun b => (List.range 16).map (seDecode (seBits f) b.1 b.2)
  | none, none => []

/-- The next 16 elements of a list and so on. -/
def chunks16 : Nat → List Nat → List (List Nat)
  | 0, _ => []
  | n + 1, l => l.take 16 :: chunks16 n (l.drop 16)

/-- A decoded element of an SE block as a plain float (R217): rounded, and under FZ flushed, also where the destination is FP32. -/
def narrowSe (x : Cmd) (g : Fmt) (v : Nat) : Nat :=
  if g == .fp32 then FFmt.fp32.flush x.fz v else convertElem .fp32 g x.rm x.fz x.sat v

/-- The writes of a run of elements from the values read: for an SE destination blocks and scale bytes (R217). -/
def copyStores (x : Cmd) (e0 n : Nat) (vals : List Nat) : List EngineStore :=
  match seOfCode (View.fmt x.va), fmtOfCode (View.fmt x.va) with
  | some f, _ =>
    let blocks := if View.fmt x.va == View.fmt x.vb then sourceBlocks f vals
      else (chunks16 (n / 16) (sourceFp32 x vals)).map (seEncode (seBits f) x.rm x.fz x.sat)
    ((blocksOf x.va e0 n).zip blocks).zipIdx.flatMap fun p =>
      let b := p.1.1
      [{ addr := blockAddr x.va (blockSize f) b.1 b.2.1 b.2.2, bytes := seBytes (seBits f) p.1.2.2, index := e0 / 16 + p.2 },
       { addr := scaleAddr x.va x.sa b.1 b.2.1 b.2.2, bytes := bytesOf 1 p.1.2.1, view := 3, index := e0 / 16 + p.2 }]
  | none, some g =>
    let out := match fmtOfCode (View.fmt x.vb) with
      | some f => vals.map (convertElem f g x.rm x.fz x.sat)
      | none => (sourceFp32 x vals).map (narrowSe x g)
    ((plainElems 0 x.va e0 n).zip out).map fun p => { addr := p.1.place, bytes := bytesOf (fmtSize g) p.2, index := p.1.index }
  | none, none => []

/-- The bytes of a command's source, run by run. -/
def sourceRuns (s : State) (core : Nat) (x : Cmd) : List (Target × Nat) :=
  (copyReads x x.e0 x.count).flatMap fun e =>
    match e.place with
    | .addr a => rangePieces s x.descs core (homeOf s x.member core) (a, e.size)
    | _ => []

/-- The bytes of a command's source and destination that are the same become free values (R216; log 6). -/
def freeOverlap (s : State) (core : Nat) (x : Cmd) (l : List Access) : List Access × State :=
  if !rangesConflict s core x x x.reads x.writes then (l, s)
  else
    let srcs := sourceRuns s core x
    l.foldl (fun p a =>
      let r := a.bytes.foldl (fun (q : List (Nat × Byte) × State) b =>
        let here : Target := match a.tgt with | .loc pa => .loc (pa + b.1) | .peer ap pa => .peer ap (pa + b.1)
        if srcs.any fun t => targetsMeet t.1 t.2 here 1 then
          let (n, t) := drawFree q.2
          (q.1 ++ [(b.1, Config.freeByte n)], t)
        else (q.1 ++ [b], q.2)) ([], p.2)
      (p.1 ++ [{ a with bytes := r.1 }], r.2)) ([], s)

/-- The bytes of an engine's writes in ascending address. -/
def storeBytes (l : List EngineStore) : List Byte :=
  let addr (e : EngineStore) : Nat := match e.addr with | .addr a => a.toNat | _ => 0
  (sortBy (fun a b => addr a < addr b) l).flatMap (·.bytes)

/-- Free bytes of the capture buffer (R300, R301). -/
def captureRoom (s : State) : Nat := s.mod.asize.toNat * 4096 - (s.mod.units.foldl (fun n u => n + u.size) 0)

/-- A captured unit grows by `n` bytes; one that no longer fits is skipped (R301). -/
def captureGrow (s : State) (core n : Nat) (f : Program → Program) : State :=
  match (coreAt s core).eng.prog with
  | none => s
  | some p =>
    if !p.captured then s
    else
      let fits := p.room + n ≤ captureRoom s
      updMod (updCore s core fun u => { u with eng := { u.eng with prog := some { f p with captured := fits, room := p.room + n } } })
        fun m => if fits then m else { m with skipped := m.skipped + 1 }

/-- What a step of a captured work unit has read is kept, and what it writes enters its signature, in ascending address (R301). The plane
commands that its context issued beside it are kept too, since the replay is to find the same planes (R302; log 31). -/
def captureRun (s : State) (core : Nat) (x : Cmd) (e0 n : Nat) (reads : List EngElem) (vals : List Nat) (w : List EngineStore) : State :=
  if !x.docent && x.kind.unit != .array then s
  else
    captureGrow s core (reads.foldl (fun k e => k + e.size) 0) fun p =>
      { p with
        inputs := p.inputs ++ [{ cmd := x, e0 := e0, n := n, vals := vals }]
        written := if x.docent then p.written ++ [(x.order, storeBytes w)] else p.written }

/-- The walk-ahead TLB translates the next pages of a command's views, at most 8, before their use; what would fail is not raised yet
(R179). -/
def walkAhead (s : State) (core : Nat) (x : Cmd) (l : List (Elem × Need)) : State :=
  let pages := (l.filterMap fun e => match e.1 with
    | .addr a => if a.toNat / 2 ^ 60 == 4 then some (a.toNat / 4096 * 4096, e.2) else none
    | _ => none).eraseDups
  (pages.take 8).foldl (fun t p => (resolveIn t x.descs core (homeOf s x.member core) true p.2 (BitVec.ofNat 64 p.1) 1).2) s

/-- What a copy reads and writes in a segment to come. -/
def segmentElems (x : Cmd) (i : Nat) : List (Elem × Need) :=
  let (e0, n) := segmentOf x i
  (copyReads x e0 n).map (fun e => (e.place, Need.load)) ++
  match seOfCode (View.fmt x.va) with
  | some f => (blocksOf x.va e0 n).map fun b => (blockAddr x.va (blockSize f) b.1 b.2.1 b.2.2, Need.store)
  | none => (plainElems 0 x.va e0 n).map fun e => (e.place, Need.store)

/-- The element bytes of a segment (R218). -/
def segmentBytes (x : Cmd) (n : Nat) : Nat :=
  match seOfCode (View.fmt x.va) with
  | some f => n / 16 * blockSize f
  | none => n * View.size x.va

/-- The copy engine reads the next segment of a command and sends its writes (R216, R218). A held fault leaves the command where it
stopped; a failure stops it. -/
def copySegment (s : State) (core id : Nat) (x : Cmd) (ext : PeerBytes) : State :=
  let i := x.segs.length
  let (e0, n) := segmentOf x i
  settleCmd s core id (engineReads s core x ext (copyReads x e0 n)) fun vals s1 =>
    let w := copyStores x e0 n vals
    settleCmd s core id (engineStores s1 core id i x w) fun l s2 =>
      let (l2, s3) := freeOverlap s2 core x l
      let (ids, s4) := addAccs (captureRun s3 core x e0 n (copyReads x e0 n) vals w) l2
      let bytes := segmentBytes x n
      let last := x.count ≤ (i + 1) * (segmentOf x 0).2 || (segmentOf x 0).2 == 0
      let s5 := chargeEnergy s4 core 12 0 ((bytes + 127) / 128)
      let s6 := if last then s5 else walkAhead s5 core x (segmentElems x (i + 1))
      updCmd s6 core id fun y =>
        { y with phase := .running, unread := !last, segs := y.segs ++ [{ bytes := bytes, accs := ids, landed := false, counted := false }] }

/-- COPY_COMMAND_RUN: the copy engine starts a command, or reads its next segment (R213, R216). -/
def execCopyCommandRun (core cmd : Nat) (ext : PeerBytes) (st : State) : Result :=
  match cmdAt st core cmd with
  | none => .next st
  | some x =>
    if x.kind.unit != .copy || !x.unread then .next st
    else
      match x.phase with
      | .queued => .next (if cmdReady st core cmd x then copySegment st core cmd x ext else st)
      | .running => .next (if heldBefore st core cmd x then st else copySegment st core cmd x ext)
      | _ => .next st

/-- Whether every access of a list is performed. -/
def accsDone (s : State) (l : List Nat) : Bool := allPerformed s l

/-- The count of a landed segment into the command's sync word (R200, R218): the sync word is checked at its first count. -/
def countSegment (s : State) (core id seg : Nat) (x : Cmd) (g : Segment) : State :=
  let land (t : State) (l : List Nat) : State := updCmd t core id fun y =>
    { y with segs := y.segs.zipIdx.map fun p => if p.2 == seg then { p.1 with landed := true, counted := true, accs := l } else p.1 }
  let bad : EngFail := { detail := 8, addr := x.sync }
  if x.sync == 0 then land s []
  else if x.sync.toNat % 16 != 0 then stopCmd s core id bad
  else
    match resolveIn s x.descs core (homeOf s x.member core) true Need.atom x.sync 16 with
    | (.held c, s1) => holdCmd s1 core id c x.sync
    | (.bad cause d, s1) => stopCmd s1 core id { bad with note := { bad.note with under := cause, underDetail := d } }
    | (.ok r, s1) =>
      let (ids, s2) := addAccs s1 [{ engineAccess (.advance id) core x x.sync r 16 (BitVec.ofNat 64 g.bytes) with fmt := .n32 }]
      land s2 ids

/-- COPY_SEGMENT_LANDED: a segment's bytes have been performed, and the keeper counts them (R218). -/
def execCopySegmentLanded (core cmd seg : Nat) (st : State) : Result :=
  match cmdAt st core cmd with
  | none => .next st
  | some x =>
    match x.segs[seg]? with
    | none => .next st
    | some g =>
      .next (if x.phase == .running && !g.landed && accsDone st g.accs then countSegment st core cmd seg x g else st)

/-- Whether the copy part of a command has been performed. -/
def copyDone (s : State) (x : Cmd) : Bool :=
  !x.unread && x.segs.all fun g => g.landed && accsDone s g.accs

/-- The follow-on of a COPYM (R219), with the place behind it (R208). -/
def followOn (cmd : Nat) (x : Cmd) (f : MatFmt) : Cmd :=
  { x with
    kind := .mmab f, vb := x.vc, sb := x.sc, tok := 7, followOf := some cmd, order := x.order + 1, reads := [], follow := [],
    writes := [], rplanes := [], wplanes := [], unread := true, phase := .queued, segs := [], after := [], need := [] }.withFootprint

/-- COPYM_FOLLOW_ON_PLACE: the copy part is performed, and the MMAB enters the array queue with the place behind the COPYM (R208,
R219). -/
def execCopymFollowOnPlace (core cmd : Nat) (st : State) : Result :=
  match cmdAt st core cmd with
  | none => .next st
  | some x =>
    match x.kind with
    | .copym f =>
      if x.followPlaced || !copyDone st x || queueFull st core (.mmab f) then .next st
      else
        let (id, s1) := freshId st
        .next (updCore s1 core fun u => { u with eng := { u.eng with
          cmds := tabPut (tabUpd u.eng.cmds cmd fun z => { z with followPlaced := true }) id (followOn cmd x f) } })
    | _ => .next st

/-! ## The matrix array (R222 to R224) -/

/-- K-block `b` of rows of a matrix operand: SE blocks, or 16 BF16 elements (R222). -/
def operandElems (f : MatFmt) (view : Nat) (v : ViewBits) (b : Nat) (rows : List Nat) : List EngElem :=
  rows.map fun i =>
    if isSe f then { view := view, index := b + View.dim0 v / 16 * i, place := blockAddr v (blockSize f) b i 0, size := blockSize f }
    else { view := view, index := 16 * b + View.dim0 v * i, place := spaceAddr (View.space v) (viewOff v 2 (16 * b) i 0), size := 32 }

/-- The scale bytes of K-block `b` of rows. -/
def scaleElems (view : Nat) (v sc : ViewBits) (b : Nat) (rows : List Nat) : List EngElem :=
  rows.map fun i => { view := view, index := b + View.dim0 v / 16 * i, place := scaleAddr v sc b i 0, size := 1 }

/-- The rows of operand A and of operand B, or of their scale views, that a command takes. -/
def rowsA (x : Cmd) : List Nat := rowsOf x.va (x.reg 2) 16
def rowsB (x : Cmd) : List Nat :=
  rowsOf x.vb (x.reg 3) (match x.kind with | .mmab f => mmabCols f | _ => 16)

/-- What an array command reads, in the order of its values (R222 to R224). -/
def arrayReads (x : Cmd) : List EngElem :=
  match x.kind with
  | .mmab f => operandElems f 0 x.va (x.reg 1) (rowsA x) ++ operandElems f 1 x.vb (x.reg 1) (rowsB x)
  | .scacc _ _ => scaleElems 3 x.va x.sa (x.reg 1) (rowsA x) ++ scaleElems 4 x.vb x.sb (x.reg 1) (rowsB x)
  | .mload _ => (tileElems x.va (x.reg 2) (x.reg 3)).map fun t =>
      { view := 0, index := t.2.2, place := elementAt x.va (View.size x.va) t.2.2, size := View.size x.va }
  | _ => []

/-- The 16 BF16 elements of 32 bytes. -/
def bf16Row (n : Nat) : List Nat := (List.range 16).map fun i => natBits n (16 * i) 16

/-- An MMAB on SE blocks overwrites its planes (R222). -/
def mmabPlanesOf (f : MatFmt) (p : Nat) (as bs : List SeBlock) (e : Engines) : Engines :=
  (mmabPlanes f p).zipIdx.foldl (fun t q =>
    setPart t q.1 (planeOf fun r c =>
      match as[r]?, bs[c + 16 * q.2]? with
      | some a, some b => blockProduct (seBits f) a b
      | _, _ => 0) (.full f)) e

/-- A BF16 MMAB adds into its accumulator (R222). -/
def mmabAccum (c : Nat) (as bs : List (List Nat)) (e : Engines) : Engines :=
  setAccum e c (accOf fun r col =>
    match as[r]?, bs[col]? with
    | some a, some b => BitVec.ofNat 32 (bf16Element (accTileAt (accumOf e c) r col).toNat a b)
    | _, _ => accTileAt (accumOf e c) r col)

/-- SCACC on a full plane (R223). -/
def scaccApply (f : MatFmt) (p c : Nat) (eas ebs : List Nat) (e : Engines) : Engines :=
  setPart (setAccum e c (accOf fun r col =>
    match eas[r]?, ebs[col]? with
    | some ea, some eb =>
      BitVec.ofNat 32 (scaledAdd (seBits f) (accTileAt (accumOf e c) r col).toNat (planeAt (partOf e p) r col) ea eb)
    | _, _ => accTileAt (accumOf e c) r col)) p (partOf e p) .empty

/-- MLOAD of a tile (R224). -/
def mloadApply (c : Nat) (f : Fmt) (tile : List ((Nat × Nat × Nat) × Nat)) (e : Engines) : Engines :=
  setAccum e c (accOf fun r col =>
    match tile.find? fun t => t.1.1 == r && t.1.2.1 == col with
    | some t => tileIn f t.2
    | none => 0)

/-- MSTORE of a tile (R224). -/
def mstoreTile (c : Nat) (x : Cmd) (e : Engines) : List EngineStore :=
  let f := (tileFmt x.va).getD .fp32
  (tileElems x.va (x.reg 2) (x.reg 3)).map fun t =>
    { addr := elementAt x.va (fmtSize f) t.2.2, index := t.2.2,
      bytes := bytesOf (fmtSize f) (tileOut f x.rm x.fz x.sat (accTileAt (accumOf e c) t.1 t.2.1)) }

/-- SCACC runs on a full plane only (R223). -/
def arrayBad (e : Engines) (x : Cmd) : Bool :=
  match x.kind with
  | .scacc p _ => (match partStateOf e p with | .full _ => false | _ => true)
  | _ => false

/-- The effect of an array command on the values that it has read: the planes, and what it writes to memory (R222 to R224). -/
def arrayApply (x : Cmd) (vals : List Nat) (e : Engines) : Engines × List EngineStore :=
  let a := vals.take (rowsA x).length
  let b := vals.drop (rowsA x).length
  let block (f : MatFmt) (v : Nat) : SeBlock := seBlockOf (seBits f) (bytesOf (blockSize f) v)
  match x.kind with
  | .mmab .bf16 => (mmabAccum (x.reg 0) (a.map bf16Row) (b.map bf16Row) e, [])
  | .mmab f => (mmabPlanesOf f (x.reg 0) (a.map (block f)) (b.map (block f)) e, [])
  | .scacc p c => (match partStateOf e p with | .full f => scaccApply f p c a b e | _ => e, [])
  | .mload c => (mloadApply c ((tileFmt x.va).getD .fp32) ((tileElems x.va (x.reg 2) (x.reg 3)).zip vals) e, [])
  | .mstore c => (e, mstoreTile c x e)
  | .mzero c => (setAccum e c (List.replicate 256 0), [])
  | _ => (e, [])

/-- The width code of an array step's energy entry (R299). -/
def matWidth : MatFmt → Nat
  | .se2 => 0 | .se4 => 1 | .se7 => 2 | .bf16 => 3

def arrayWidth (e : Engines) (x : Cmd) : Nat :=
  match x.kind with
  | .mmab f => matWidth f
  | .scacc p _ => (match partStateOf e p with | .full f => matWidth f | _ => 0)
  | _ => 0

/-- The array starts a queued plane command once no earlier command conflicts, and does its work (R213, R222 to R224). -/
def runArray (s : State) (core id : Nat) (x : Cmd) (ext : PeerBytes) : State :=
  if arrayBad (coreAt s core).eng x then stopCmd s core id { detail := 3 }
  else
    settleCmd s core id (engineReads s core x ext (arrayReads x)) fun vals s1 =>
      let (e, w) := arrayApply x vals (coreAt s1 core).eng
      settleCmd s core id (engineStores s1 core id 0 x w) fun l s2 =>
        let (ids, s3) := addAccs (captureRun s2 core x 0 0 (arrayReads x) vals w) l
        let s4 := updCore s3 core fun u => { u with eng := { u.eng with parts := e.parts, partState := e.partState, accs := e.accs } }
        updCmd (chargeEnergy s4 core 13 (arrayWidth (coreAt s core).eng x) 1) core id fun y =>
          { y with phase := .running, unread := false,
                   segs := if ids.isEmpty then [] else [{ bytes := 0, accs := ids, landed := true, counted := true }] }

/-- ARRAY_COMMAND_RUN (R213); a cancelled command empties its planes at its place in the order (R231). -/
def execArrayCommandRun (core cmd : Nat) (ext : PeerBytes) (st : State) : Result :=
  match cmdAt st core cmd with
  | none => .next st
  | some x =>
    if x.phase != .queued || !cmdReady st core cmd x then .next st
    else
      match x.kind with
      | .voided _ => .next (haltCmd st core cmd false)
      | _ => .next (if x.kind.unit == .array then runArray st core cmd x ext else st)

/-! ## Ends (R214, R219, R231) -/

/-- ENGINE_COMMAND_COMPLETE: everything of a command has been performed, and its token clears; a COPYM ends with its follow-on, an ECAN
when nothing of what it cancelled will be performed any more (R214, R219, R231). -/
def execEngineCommandComplete (core cmd : Nat) (st : State) : Result :=
  match cmdAt st core cmd with
  | none => .next st
  | some x =>
    let done :=
      match x.kind with
      | .ecan _ => allPerformed st x.after
      | .tmma _ | .drun _ => false
      | .copym _ => x.followPlaced && !((coreAt st core).eng.cmds.any fun e => e.2.followOf == some cmd)
      | .copy => copyDone st x
      | _ => !x.unread && x.segs.all fun g => accsDone st g.accs
    .next (if x.phase == .running && done then dropCmd st core cmd else st)

/-- ENGINE_HELD_FAULT_RESUME: Sernus has serviced the cause; the unit resumes the command where it stopped (R179, R212). -/
def execEngineHeldFaultResume (core cmd : Nat) (st : State) : Result :=
  .next (updCmd st core cmd fun x =>
    if x.phase == .held then
      { x with phase := if x.segs.isEmpty && ((coreAt st core).eng.prog.map (·.cmd)) != some cmd then .queued else .running }
    else x)

end Sys2Proof.Machine
end

