-- ==== Sys2Proof/Machine/Docent.lean ====
section
/-!
DEFINITION. The docent (R225 to R229) and the capture of work units (R301): programs start, step words, their expressions and their
steps.
-/
namespace Sys2Proof.Machine

/-! ## The start of a program (R225, R301) -/

/-- The docent command that starts next: the first in engine order of those that wait, when no program runs (R225). -/
def nextProgram (e : Engines) : Option (Nat × Cmd) :=
  if e.prog.isSome then none
  else bestBy (fun a b => a.2.order < b.2.order)
    (e.cmds.filter fun x => x.2.kind.unit == .docent && x.2.phase == .queued)

def CmdKind.entry : CmdKind → Nat
  | .tmma e | .drun e => e
  | _ => 0

/-- Bytes that the capture of a work unit takes at its start: the step list, the counters and the accumulators (R301; log 31). -/
def captureSize (e : Engines) : Nat := 8 * e.docMem.length + 16 + 4096

/-- Whether the appraiser chooses the unit that starts now (R300, R301): every 2^RATE-th; RATE or ASIZE 0 turns sampling off. -/
def isChosen (s : State) : Bool :=
  s.mod.rate != 0 && s.mod.asize != 0 && (s.mod.unitCount + 1) % 2 ^ s.mod.rate.toNat == 0

/-- The docent reads the step at a position: one that meets poison stops the program (R307, R308). -/
def readStep (s : State) (core pc : Nat) : State :=
  if (coreAt s core).eng.docPoison.contains pc then stopProgram (countError s) core { detail := 6 } pc else s

/-- The program of a command starts at its entry with its counters (R225), and may be captured (R301). -/
def startProgram (s : State) (core id : Nat) (x : Cmd) : State :=
  let chosen := isChosen s
  let e0 := (coreAt s core).eng
  let fits := captureSize e0 ≤ captureRoom s
  let loops := x.regs.take 4
  let p : Program :=
    { cmd := id, pc := x.kind.entry, ending := false, yielded := false, steps := [], captured := chosen && fits,
      room := captureSize e0, written := [], start := (loops, e0.accs),
      planes := (e0.parts, e0.partState) }
  let s1 := updMod s fun m =>
    { m with unitCount := m.unitCount + 1, skipped := if chosen && !fits then m.skipped + 1 else m.skipped }
  readStep (updCore s1 core fun u => { u with eng := { u.eng with
    loops := loops, prog := some p, cmds := tabUpd u.eng.cmds id fun y => { y with phase := .running, unread := false } } }) core p.pc

/-- TMMA reads its list into docent memory (R225). -/
def loadList (s : State) (core id : Nat) (x : Cmd) (ext : PeerBytes) : State :=
  settleCmd s core id (engineReads s core x ext (plainElems 0 x.va 0 (View.count x.va))) fun l s1 =>
    startProgram (updCore s1 core fun u => { u with eng := { u.eng with
      docMem := l.map (BitVec.ofNat 64), docPoison := [], listAddr := BitVec.ofNat 64 (View.base x.va), listLaunch := some x.launch,
      listHome := homeOf s x.member core } }) core id x

/-- DOCENT_PROGRAM_START (R225). -/
def execDocentProgramStart (core : Nat) (ext : PeerBytes) (st : State) : Result :=
  let e := (coreAt st core).eng
  match nextProgram e with
  | none => .next st
  | some (id, x) =>
    if !cmdReady st core id x then .next st
    else
      match x.kind with
      | .tmma _ => .next (loadList st core id x ext)
      | _ =>
        if e.listLaunch == some x.launch then .next (startProgram st core id x)
        else .next (failCmd st core id x { detail := 5 })

/-! ## Step words (R226) -/

/-- Whether bits `[hi:lo]` of a step word are zero. -/
def stepZero (w : Word64) (lo n : Nat) : Bool := natBits w.toNat lo n == 0

def stepKind (w : Word64) : Nat := natBits w.toNat 60 4
def stepY (w : Word64) : Bool := natBit w.toNat 59

/-- Whether a step word is a reserved step or holds a nonzero reserved field or a reserved value (R226). -/
def stepReserved (w : Word64) : Bool :=
  match stepKind w with
  | 0 => !stepZero w 0 60
  | 1 => !stepZero w 0 7
  | 2 => !stepZero w 0 7
  | 3 => !(stepZero w 55 2 && stepZero w 0 55)
  | 4 => !(stepZero w 55 2 && stepZero w 31 18 && stepZero w 0 7)
  | 5 => !(stepZero w 55 2 && stepZero w 31 18 && stepZero w 0 3)
  | 6 => !(stepZero w 55 4 && stepZero w 7 36 && stepZero w 0 3)
  | 7 => stepZero w 41 16 || !stepZero w 0 32
  | 8 => !stepZero w 32 25
  | 9 => !(stepZero w 55 4 && stepZero w 43 6 && stepZero w 0 15)
  | _ => true

/-- The value of an expression (R226). -/
def exprValue (loops : List Word) (e : Nat) : Word :=
  let m := [0, 1, 16, 32].getD (natBits e 8 2) 0
  loops.getD (natBits e 10 2) 0 * BitVec.ofNat 32 m + BitVec.ofNat 32 (natBits e 0 8)

/-- The rounding fields of an MSTORE or COPY step. -/
def stepRm (w : Word64) : Rm :=
  match natBits w.toNat 5 2 with
  | 0 => .rne | 1 => .rz | 2 => .rd | _ => .ru

/-! ## The program's step -/

/-- The word at a program's position; steps beyond the list read as END (R225). -/
def stepWord (e : Engines) (p : Program) : Word64 := e.docMem.getD p.pc 0

/-- Whether every step that a program has issued has completed. -/
def stepsDone (s : State) (core : Nat) (p : Program) : Bool :=
  p.steps.all fun i => (tabGet (coreAt s core).eng.cmds i).isNone && (tabGet s.accs i).isNone

/-- Whether a switch of a launch's context is under way. -/
def isSwitching (s : State) (launch core : Nat) : Bool :=
  ((ctxAt s launch core).map fun c => c.switching || c.isOut).getD false

/-- Whether other programs of a launch wait: their tokens drain before its context goes out, so the running one does not stop at a yield
point for a switch (R230, R277; log 61). -/
def othersWait (s : State) (launch core cmd : Nat) : Bool :=
  (coreAt s core).eng.cmds.any fun e => e.1 != cmd && e.2.launch == launch && e.2.kind.unit == .docent

/-- The running program with its command, where the command runs. -/
def runningProgram (s : State) (core : Nat) : Option (Program × Cmd) :=
  match (coreAt s core).eng.prog with
  | none => none
  | some p =>
    match cmdAt s core p.cmd with
    | some x => if x.phase == .running then some (p, x) else none
    | none => none

/-- The step that the docent may execute now: its yield point is behind it, and no switch takes effect there (R229). -/
def stepNow (s : State) (core : Nat) : Option (Program × Cmd × Word64) :=
  match runningProgram s core with
  | none => none
  | some (p, x) =>
    let w := stepWord (coreAt s core).eng p
    let stays := stepY w && (!p.yielded || isSwitching s x.launch core && !othersWait s x.launch core p.cmd)
    if stepReserved w || stays then none else some (p, x, w)

/-- A granule of docent memory holds a detected error that nothing corrects (R307): it stays poisoned until a list is loaded, and a program
that stands at it stops. -/
def docentError (s : State) (core g : Nat) : State :=
  let s1 := updCore s core fun u => { u with eng := { u.eng with docPoison := g :: u.eng.docPoison.filter (· != g) } }
  match runningProgram s core with
  | some (p, _) => if p.pc == g then readStep s1 core g else s1
  | none => s1

/-- The docent goes to a step; one past the last stops the program (R227). -/
def goToStep (s : State) (core pc : Nat) : State :=
  if pc ≥ 512 then stopProgram s core { detail := 5 } pc
  else
    readStep (updCore s core fun u =>
      { u with eng := { u.eng with prog := u.eng.prog.map fun p => { p with pc := pc, yielded := false } } }) core pc

/-- An executed step: its energy, and the next one (R227, R299). -/
def nextStep (s : State) (core : Nat) (p : Program) : State := goToStep (chargeEnergy s core 14 0 1) core (p.pc + 1)

/-- DOCENT_YIELD_POINT: every issued step has completed; a full partial plane stops the program; then a pending switch takes effect
or the step is executed (R229). -/
def execDocentYieldPoint (core : Nat) (st : State) : Result :=
  match runningProgram st core with
  | none => .next st
  | some (p, _) =>
    let e := (coreAt st core).eng
    let w := stepWord e p
    if stepReserved w || !stepY w || p.yielded || !stepsDone st core p then .next st
    else if e.partState.any fun q => match q with | .full _ => true | _ => false then .next (stopProgram st core { detail := 4 } p.pc)
    else .next (updCore st core fun u => { u with eng := { u.eng with prog := some { p with yielded := true } } })

/-! ## The end of a program (R225, R301) -/

/-- One byte more in a CRC-64 (R301): polynomial 0x42F0E1EBA9EA3693, no reflection. -/
def crc64Byte (crc : Nat) (b : Byte) : Nat :=
  (List.range 8).foldl (fun c _ => if natBit c 63 then c * 2 % 2 ^ 64 ^^^ 0x42F0E1EBA9EA3693 else c * 2)
    (crc ^^^ b.toNat * 2 ^ 56)

/-- The CRC-64 of bytes, initial value 0 (R301). -/
def crc64 (l : List Byte) : Nat := l.foldl crc64Byte 0

/-- The bytes of the accumulators C0 to C3. -/
def accsBytes (l : List (List Word)) : List Byte :=
  (List.range 4).flatMap fun c => (List.range 256).flatMap fun i => bytesOf 4 ((l.getD c []).getD i 0).toNat

/-- The bytes that a step of a captured unit has read. -/
def capBytes (c : CapStep) : List Byte :=
  let reads := match c.cmd.kind with | .copy | .copym _ => copyReads c.cmd c.e0 c.n | _ => arrayReads c.cmd
  (reads.zip c.vals).flatMap fun p => bytesOf p.1.size p.2

/-- The bytes of a captured unit in the buffer: the list, the counters and accumulators at its start, the views, the bytes read (R301;
log 31). -/
def unitBytes (u : Unit301) : List Byte :=
  (u.steps.flatMap fun w => bytesOf 8 w.toNat) ++ (u.loops.flatMap fun w => bytesOf 4 w.toNat) ++ accsBytes u.accs ++
  (u.views.flatMap fun v => bytesOf 32 v.toNat) ++ u.inputs.flatMap capBytes

/-- A captured unit enters the buffer behind the last one, which it uses as a ring (R300, R301; log 31). -/
def storeUnit (s : State) (u : Unit301) : State :=
  let cap := s.mod.asize.toNat * 4096
  let start := ((s.mod.units.getLast?).map fun l => (l.at_ + l.size) % max 1 cap).getD 0
  let base := s.mod.abuf.toNat * 4096
  let b := unitBytes u
  let put (t : State) (pa : Nat) (l : List Byte) : State :=
    if l.isEmpty || !holdsMemory t pa || !holdsMemory t (pa + l.length - 1) then t
    else writeBytes (withdrawLines t none pa l.length) pa l
  let s1 := put (put s (base + start) (b.take (cap - start))) base (b.drop (cap - start))
  updMod s1 fun m => { m with units := m.units ++ [{ u with at_ := start }] }

/-- The signature of a captured unit at END (R301). -/
def unitSignature (e : Engines) (p : Program) : Nat :=
  crc64 (((sortBy (fun a b => a.1 < b.1) p.written).flatMap (·.2)) ++ accsBytes e.accs)

/-- A program has reached END and its steps have completed: its token clears, and a captured unit waits for its replay. -/
def finishProgram (s : State) (core : Nat) (p : Program) (x : Cmd) : State :=
  let e := (coreAt s core).eng
  let s1 := if p.captured then
      storeUnit s { core := core, launch := x.launch, steps := e.docMem, loops := p.start.1, accs := p.start.2, size := p.room,
                    signature := unitSignature e p, planes := p.planes, views := p.views, inputs := p.inputs }
    else s
  let s2 := updCore s1 core fun u => { u with eng := { u.eng with prog := none } }
  dropCmd (chargeEnergy s2 core 14 0 1) core p.cmd

/-- DOCENT_END: an END waits for every issued step and finishes the program; a reserved step stops it (R226, R227). -/
def execDocentEnd (core : Nat) (st : State) : Result :=
  match runningProgram st core with
  | none => .next st
  | some (p, x) =>
    let w := stepWord (coreAt st core).eng p
    if stepReserved w then .next (stopProgram st core { detail := 5 } p.pc)
    else if stepKind w == 0 && stepsDone st core p then .next (finishProgram st core p x)
    else .next st

/-! ## Steps that are commands (R227) -/

/-- A captured unit keeps the view records of a step as the docent reads them (R301). -/
def captureViews (s : State) (core : Nat) (l : List ViewBits) : State :=
  captureGrow s core (32 * l.length) fun p => { p with views := p.views ++ l }

/-- A step that is a command: the views are read now, the checks of the direct command stop the program with detail 5, a full queue
keeps the step, and an accepted one takes its place in engine order; among its context's accesses it stands where its DRUN does
(R208, R227, R245). -/
def issueStep (s : State) (core : Nat) (p : Program) (x : Cmd) (kind : CmdKind) (regs : List Word) (va vb : Option Nat) (w : Word64) :
    State :=
  let view (v : Option Nat) : ViewBits := match v with | some n => viewAt s core n | none => 0
  let y := { newCmd s core kind x.member x.launch x.word (regs ++ [BitVec.ofNat 32 p.pc]) (view va) (view vb) 0 (stepRm w)
               (natBit w.toNat 4) (natBit w.toNat 3) 7 with docent := true, descs := x.descs }
  if (cmdFault s core y).isSome then stopProgram s core { detail := 5 } p.pc
  else if queueFull s core kind then s
  else
    let (id, s1) := acceptCmd s core y
    let s2 := updCore s1 core fun u => { u with eng := { u.eng with
      cmds := tabUpd u.eng.cmds id fun z => { z with after := [], before := x.before, seq := x.seq }
      prog := u.eng.prog.map fun q => { q with steps := q.steps ++ [id] } } }
    nextStep (captureViews s2 core y.views) core p

/-- A command step of a kind. -/
def commandStep (core kind : Nat) (st : State) (run : Program → Cmd → Word64 → State) : Result :=
  match stepNow st core with
  | some (p, x, w) => .next (if stepKind w == kind then run p x w else st)
  | none => .next st

/-- The three expressions b, r0 and c0 of a step. -/
def stepBlock (s : State) (core : Nat) (w : Word64) (plane : Nat) : List Word :=
  let l := (coreAt s core).eng.loops
  [BitVec.ofNat 32 plane, exprValue l (natBits w.toNat 31 12), exprValue l (natBits w.toNat 19 12),
   exprValue l (natBits w.toNat 7 12)]

/-- DOCENT_MMAB (R227). -/
def execDocentMmab (core : Nat) (st : State) : Result :=
  commandStep core 1 st fun p x w =>
    issueStep st core p x (.mmab (MatFmt.ofCode (BitVec.ofNat 2 (natBits w.toNat 57 2))))
      (stepBlock st core w (natBits w.toNat 55 2)) (some (natBits w.toNat 49 6)) (some (natBits w.toNat 43 6)) 0

/-- DOCENT_SCACC (R227). -/
def execDocentScacc (core : Nat) (st : State) : Result :=
  commandStep core 2 st fun p x w =>
    issueStep st core p x (.scacc (natBits w.toNat 55 2) (natBits w.toNat 57 2)) (stepBlock st core w 0)
      (some (natBits w.toNat 49 6)) (some (natBits w.toNat 43 6)) 0

/-- DOCENT_MZERO (R227). -/
def execDocentMzero (core : Nat) (st : State) : Result :=
  commandStep core 3 st fun p x w =>
    issueStep st core p x (.mzero (natBits w.toNat 57 2)) [0, 0, 0, 0] none none 0

/-- DOCENT_MLOAD (R227). -/
def execDocentMload (core : Nat) (st : State) : Result :=
  commandStep core 4 st fun p x w =>
    issueStep st core p x (.mload (natBits w.toNat 57 2)) (stepBlock st core w 0) (some (natBits w.toNat 49 6)) none 0

/-- DOCENT_MSTORE (R227). -/
def execDocentMstore (core : Nat) (st : State) : Result :=
  commandStep core 5 st fun p x w =>
    issueStep st core p x (.mstore (natBits w.toNat 57 2)) (stepBlock st core w 0) (some (natBits w.toNat 49 6)) none w

/-- A COPY step copies the whole source view, with no sync word (R227). -/
def execDocentCopy (core : Nat) (st : State) : Result :=
  commandStep core 6 st fun p x w =>
    issueStep st core p x .copy [0, 0, 0, 0] (some (natBits w.toNat 49 6)) (some (natBits w.toNat 43 6)) w

/-! ## LOOP, SETL, SIGNAL (R227) -/

def setLoop (s : State) (core i : Nat) (v : Word) : State :=
  updCore s core fun u => { u with eng := { u.eng with loops := listPut 0 4 u.eng.loops i v } }

/-- DOCENT_LOOP (R227). -/
def execDocentLoop (core : Nat) (st : State) : Result :=
  commandStep core 7 st fun p _ w =>
    let i := natBits w.toNat 57 2
    let v := (coreAt st core).eng.loops.getD i 0 + 1
    if v.toNat < natBits w.toNat 41 16 then
      goToStep (chargeEnergy (setLoop st core i v) core 14 0 1) core (natBits w.toNat 32 9)
    else nextStep (setLoop st core i 0) core p

/-- DOCENT_SETL (R227). -/
def execDocentSetl (core : Nat) (st : State) : Result :=
  commandStep core 8 st fun p _ w =>
    nextStep (setLoop st core (natBits w.toNat 57 2) (BitVec.ofNat 32 (natBits w.toNat 0 32))) core p

/-- The advance of a SIGNAL at a resolved sync word: it follows the release at `.module` of what its context had issued before the program
(R227). -/
def signalAccess (s : State) (core : Nat) (p : Program) (x : Cmd) (a : Word64) (r : Resolved) (amount : Nat) : Access :=
  { engineAccess (.advance p.cmd) core x a r 16 (BitVec.ofNat 64 amount) with
    fmt := .n32, relSet := ((fenceSet s x.member .module).filter fun e => decide (e.2.seq < x.seq)).map (·.1),
    need := match memberAt s x.member with | some m => releaseNeed s m .module | none => [] }

/-- A SIGNAL on the sync word at an address (R200, R227). -/
def signalAt (s : State) (core : Nat) (p : Program) (x : Cmd) (a : Word64) (amount : Nat) : State :=
  if a.toNat % 16 != 0 then stopProgram s core { detail := 8, addr := a } p.pc
  else
    match resolveIn s x.descs core (homeOf s x.member core) true Need.atom a 16 with
    | (.held c, s1) => holdCmd s1 core p.cmd c a
    | (.bad cause d, s1) =>
      stopProgram s1 core { detail := 8, addr := a, note := { view := 0, index := 0, under := cause, underDetail := d } } p.pc
    | (.ok r, s1) =>
      let (ids, s2) := addAccs s1 [signalAccess s1 core p x a r amount]
      nextStep (updCore s2 core fun u => { u with eng := { u.eng with
        prog := u.eng.prog.map fun q => { q with steps := q.steps ++ ids } } }) core p

/-- SIGNAL waits until every earlier step has completed (R227); a view that names no sync word stops the program with detail 5. -/
def execDocentSignal (core : Nat) (st : State) : Result :=
  commandStep core 9 st fun p x w =>
    if !stepsDone st core p then st
    else
      let v := viewAt st core (natBits w.toNat 49 6)
      let e := (exprValue (coreAt st core).eng.loops (natBits w.toNat 31 12)).toNat
      if !View.valid v || !(viewFmt v (fun f => f == .n32 || f == .i32)).isSome then stopProgram st core { detail := 5 } p.pc
      else
        match elementAddress v 4 e with
        | .addr a => signalAt (captureViews st core [v]) core p x a (natBits w.toNat 15 16)
        | _ => stopProgram st core { detail := 5 } p.pc

end Sys2Proof.Machine
end

