-- ==== Sys2Proof/Machine/Launch.lean ====
section
/-!
DEFINITION. The packet processor (R77 to R92, R348): queues, packets and their checks, dependences, completion, and the end of
launches that Sernus kills (R281).
-/
namespace Sys2Proof.Machine

/-! ## Addresses of the processor (R348) -/

/-- The core beside which the processor sits: core 0 of field 3 (R96). -/
def procCore : Nat := 192

/-- A resolution of the processor, with no descriptor; its walker is none of a service core (R174, R348). -/
def procResolve (s : State) (q : QueueDesc) (addr : Nat) (need : Need) : Tr :=
  let off := addr % 2 ^ 60
  match addr / 2 ^ 60 with
  | 2 => if (match regionOf off with | .slice _ => holdsMemory s off | _ => false)
      then .ok { tgt := .loc off, attr := .strong, pol := 0 } else .bad 0x06 1
  | 4 =>
    match walkTables s false q.root.toNat off with
    | .absent => .held 1
    | .malformed => .bad 0x06 2
    | .leaf e bits =>
      match checkLeaf s need e bits off with
      | .ok r => (match r.tgt with
          | .loc pa => if holdsMemory s pa then .ok r else .bad 0x06 1
          | .peer .. => .ok r)
      | other => other
  | _ => .bad 0x06 1

/-- What the processor writes needs R and W (R348). -/
def Need.procWrite : Need := { r := true, w := true, x := false, atomic := false }
/-- The completion signal acts as SADD does, so that a peer's leaf must also grant remote atomics (R91, R177). -/
def Need.procSignal : Need := { r := true, w := true, x := false, atomic := true }

/-- An outcome of the processor's accesses: done, a page to be made present, or an unusable address with its PagePermission detail. -/
inductive Proc (α : Type)
  | ok (v : α)
  | held (c : Nat)
  | bad (detail : Nat)

/-- The PagePermission detail of an unusable address (R92). A page that is not to be had for another reason, through a lost aperture or
one without remote atomics, is told as denied (log 62). -/
def procDetail (cause detail : Nat) : Nat := if cause == 0x06 then detail else 0

/-- `n` free bytes: those that a peer holds are the peer's (log 6). -/
def freeBytes (s : State) : Nat → List Byte × State
  | 0 => ([], s)
  | n + 1 =>
    let (k, s1) := drawFree s
    let (l, s2) := freeBytes s1 n
    (Config.freeByte k :: l, s2)

/-- The processor reads the pieces of a run, whose lines it touches (R305). -/
def procReads (s : State) (q : QueueDesc) : List (Nat × Nat) → Proc (List Byte) × State
  | [] => (.ok [], s)
  | (a, n) :: r =>
    match procResolve s q a Need.load with
    | .held c => (.held c, s)
    | .bad c d => (.bad (procDetail c d), s)
    | .ok t =>
      let (b, s1) := match t.tgt with
        | .loc pa => (readBytes s pa n, touchLines s none pa n)
        | .peer .. => freeBytes s n
      match procReads s1 q r with
      | (.ok l, s2) => (.ok (b ++ l), s2)
      | other => other

def procRead (s : State) (q : QueueDesc) (addr n : Nat) : Proc (List Byte) × State := procReads s q (pagePieces addr n)

/-- An access of a module unit that no member makes. -/
def moduleAccess (kind : AccKind) (launch : Nat) (tgt : Target) (addr : Word64) (size data : Nat) (member : Nat) : Access :=
  { kind := kind, member := member, launch := launch, core := procCore, seq := 0, word := 0, addr := addr, tgt := tgt, size := size,
    fmt := .n32, data := BitVec.ofNat 64 data, data2 := 0, bytes := [], dest := .none, attr := .strong, acq := false, rel := false,
    scope := .core, pol := .default, relSet := [], tok := 7, pc := 0, slot := 0, phase := .issued, value := 0, value2 := 0,
    hops := 0, param := 0, stamp := [], heldCause := 0, bad := none, descs := Vector.replicate 6 0 }

/-- The processor writes a word that it has found usable: here at once, at a peer by a request. -/
def procWrite (s : State) (q : QueueDesc) (addr n v : Nat) : State :=
  match procResolve s q addr Need.procWrite with
  | .ok { tgt := .loc pa, .. } => homeWrite s none pa (bytesOf n v)
  | .ok { tgt := .peer ap pa, .. } =>
    let (id, s1) := freshId s
    { s1 with accs := tabPut s1.accs id (moduleAccess .store 0 (.peer ap pa) (BitVec.ofNat 64 addr) n v id) }
  | _ => s

/-- The first unusable one of a list of addresses with sizes and needs. -/
def procUsable (s : State) (q : QueueDesc) : List (Nat × Need) → Proc Unit
  | [] => .ok ()
  | (a, need) :: r =>
    match procResolve s q a need with
    | .held c => .held c
    | .bad c d => .bad (procDetail c d)
    | .ok _ => procUsable s q r

/-! ## Packets (R82, R83) -/

def byteAt (b : List Byte) (o n : Nat) : Nat := natOfBytes ((b.drop o).take n)

/-- The address of packet `i` of a queue (R77). -/
def packetAddr (q : QueueDesc) (i : Nat) : Nat := q.ring.toNat + 64 * (i % 2 ^ q.k)

/-- The index of a dependence: the nearest below packet `i` with these low bits (R82, R88). Where no packet below has them, the field
names none that R88 allows, and `i` itself stands for it. -/
def depIndex (i d : Nat) : Nat :=
  let back := (i + 2 ^ 32 - d % 2 ^ 32) % 2 ^ 32
  if back > i then i else i - back

/-- A packet as it was read (R82, R83). -/
def packetOf (b : List Byte) (i : Nat) : LaunchPkt :=
  let h := byteAt b 0 2
  let cur := byteAt b 8 4
  let d := byteAt b 28 4
  { marker := natBits h 12 4 == 2, acq := natBit h 11, rel := natBit h 10, prio := natBits h 7 3, persistent := natBit h 6,
    early := natBit h 5, edges := byteAt b 2 1, window := byteAt b 3 1, entry := byteAt b 4 4,
    curator := if cur == 0xFFFFFFFF then none else some cur, slots := byteAt b 12 2, interval := byteAt b 14 2,
    grid := (byteAt b 16 2, byteAt b 18 2, byteAt b 20 2), block := (byteAt b 22 1, byteAt b 23 1, byteAt b 24 1),
    stride := byteAt b 25 1, complVal := byteAt b 26 2, dep := if d == 0xFFFFFFFF then none else some (depIndex i d),
    arg := BitVec.ofNat 64 (byteAt b 32 8), seg := BitVec.ofNat 64 (byteAt b 40 8), affBase := BitVec.ofNat 64 (byteAt b 48 8),
    complAddr := BitVec.ofNat 64 (byteAt b 56 8) }

/-! ## The segment configuration block and the argument block (R86, R165) -/

/-- The segment configuration block (R165). -/
structure SegCfg where
  desc : Vector DescBits 6
  stack : Nat
  vwFirst : Nat
  vwCount : Nat
  bFirst : Nat
  bCount : Nat
  span : Nat
deriving DecidableEq, Repr

/-- Blocks along an axis (R85). -/
def blocksAlong (e k : Nat) : Nat := (e + k - 1) / k

/-- Blocks of a grid (R85). -/
def blockCount (p : LaunchPkt) : Nat :=
  blocksAlong p.grid.1 p.block.1 * blocksAlong p.grid.2.1 p.block.2.1 * blocksAlong p.grid.2.2 p.block.2.2

/-- A segment configuration block, if it is valid (R165, R167). -/
def segCfgOf (p : LaunchPkt) (b : List Byte) : Option SegCfg :=
  let desc : Vector DescBits 6 := Vector.ofFn fun (i : Fin 6) => BitVec.ofNat 128 (byteAt b (16 * i.val) 16)
  let c : SegCfg :=
    { desc := desc, stack := byteAt b 96 4, vwFirst := byteAt b 100 1, vwCount := byteAt b 101 1, bFirst := byteAt b 104 8,
      bCount := byteAt b 112 8, span := byteAt b 120 8 }
  if (desc.toList.zipIdx.all fun d => Desc.legal d.2 d.1) && c.stack % 16 == 0 && 256 ≤ c.stack && c.stack ≤ 65536 &&
    1 ≤ c.vwCount && c.vwFirst + c.vwCount ≤ 64 && byteAt b 102 2 == 0 &&
    (if c.bCount == 0 then c.bFirst == 0 && c.span == 0 else c.bFirst + c.bCount ≤ blockCount p) then some c
  else none

/-- The span table's ranges (R319): ascending, covering every block once, naming distinct modules of the group, one of them this
module's part. -/
def spanOf (s : State) (p : LaunchPkt) (c : SegCfg) (b : List Byte) : Option (Nat × List SpanRange) :=
  let n := byteAt b 4 1
  let l : List SpanRange := (List.range n).map fun j =>
    { first := byteAt b (16 + 16 * j) 8, count := byteAt b (24 + 16 * j) 6, module := byteAt b (30 + 16 * j) 1 }
  let covers := l.foldl (fun (at_ : Option Nat) r =>
    match at_ with | some x => if r.first == x && 0 < r.count then some (x + r.count) else none | none => none) (some 0)
  if 2 ≤ n && n ≤ 9 && byteAt b 5 11 == 0 && ((List.range n).all fun j => byteAt b (31 + 16 * j) 1 == 0) &&
    covers == some (blockCount p) && (l.map (·.module)).eraseDups.length == n &&
    (l.all fun r => r.module == s.mod.number || s.mod.group.contains r.module) &&
    (l.any fun r => r.first == c.bFirst && r.count == c.bCount && r.module == s.mod.number) then
    some (byteAt b 0 4, l)
  else none

/-- What acceptance has read of a launch beside its packet. -/
structure PktCfg where
  cfg : SegCfg
  spanId : Nat
  span : List SpanRange
  argFirst : Nat
  views : List ViewBits
deriving DecidableEq, Repr

/-- The outcome of reading the blocks of a packet: `bad` stands for cause 10. -/
def readSpan (s : State) (q : QueueDesc) (p : LaunchPkt) (c : SegCfg) : Proc (Nat × List SpanRange) × State :=
  if c.bCount == 0 then (.ok (0, []), s)
  else if c.span % 64 != 0 then (.bad 0, s)
  else
    match procRead s q c.span 160 with
    | (.ok b, s1) => (match spanOf s p c b with | some r => (.ok r, s1) | none => (.bad 0, s1))
    | (.held h, s1) => (.held h, s1)
    | (.bad d, s1) => (.bad d, s1)

def readArgs (s : State) (q : QueueDesc) (p : LaunchPkt) : Proc (Nat × List ViewBits) × State :=
  match procRead s q p.arg.toNat 32 with
  | (.held h, s1) => (.held h, s1)
  | (.bad d, s1) => (.bad d, s1)
  | (.ok b, s1) =>
    let n := byteAt b 0 2
    if n > 64 || (b.drop 4).any (· != 0) then (.bad 0, s1)
    else
      match procRead s1 q (p.arg.toNat + 32) (32 * n) with
      | (.ok v, s2) =>
        (.ok (byteAt b 2 2, (List.range n).map fun i => BitVec.ofNat 256 (byteAt v (32 * i) 32)), s2)
      | (.held h, s2) => (.held h, s2)
      | (.bad d, s2) => (.bad d, s2)

/-- The blocks of a LAUNCH packet (R86, R88, R165, R319). -/
def readBlocksOf (s : State) (q : QueueDesc) (p : LaunchPkt) : Proc PktCfg × State :=
  if p.seg.toNat % 64 != 0 then (.bad 0, s)
  else
    match procRead s q p.seg.toNat 128 with
    | (.held h, s1) => (.held h, s1)
    | (.bad d, s1) => (.bad d, s1)
    | (.ok b, s1) =>
      match segCfgOf p b with
      | none => (.bad 0, s1)
      | some c =>
        match readSpan s1 q p c with
        | (.held h, s2) => (.held h, s2)
        | (.bad d, s2) => (.bad d, s2)
        | (.ok sp, s2) =>
          match readArgs s2 q p with
          | (.held h, s3) => (.held h, s3)
          | (.bad d, s3) => (.bad d, s3)
          | (.ok a, s3) => (.ok { cfg := c, spanId := sp.1, span := sp.2, argFirst := a.1, views := a.2 }, s3)

/-! ## Dependences (R84, R89) -/

/-- The fate of a packet index. -/
def fateOf (q : Queue) (i : Nat) : Option Fate := (q.fates.find? fun e => e.1 == i).map (·.2)

def setFate (s : State) (queue i : Nat) (f : Fate) : State :=
  updQueue s queue fun u => { u with fates := (u.fates.filter fun e => e.1 != i) ++ [(i, f)] }

/-- Whether a packet makes its dependants fail (R89). -/
def fateFails : Option Fate → Bool
  | some (.killed _) | some .rejected | some .failed => true
  | _ => false

/-- Accesses and engine commands of a launch. -/
def launchAccs (s : State) (l : Nat) : Bool := s.accs.any fun e => e.2.launch == l
def launchCmds (s : State) (l : Nat) : Bool :=
  (s.cores.any fun c => c.2.eng.cmds.any fun e => e.2.launch == l) || s.ctxs.any fun e => e.1 / 4096 == l && !e.2.savedCmds.isEmpty

/-- Whether a member has ended: a curator ends by going idle (R28). -/
def hasEnded (m : Member) : Bool := m.place == .gone || (m.kind == .curator && m.wait == .inactive)

/-- Continuation records of a launch that no task cell has taken (R91, R93). -/
def launchConts (s : State) (l : Nat) : Bool :=
  (s.fields.any fun f => f.2.accession.any fun e => e.2.launch == l) ||
  (s.cores.any fun c => c.2.outbound.any fun e => e.2.launch == l)

/-- Nothing of a launch is left but its entry (R91, R281). -/
def launchEmpty (s : State) (l : Nat) : Bool :=
  (s.members.all fun e => e.2.launch != l || hasEnded e.2) && !launchAccs s l && !launchCmds s l && !launchConts s l

/-- Whether a packet has finished (R84). -/
def fateFinished (s : State) : Fate → Bool
  | .live _ => false
  | .finished _ | .rejected | .failed => true
  | .killed l => (launchAt s l).isNone

/-- Whether the waits of a launch are over (R84, R89): ACQ, and its dependence. -/
def waitsOver (s : State) (l : Launch) : Bool :=
  match tabGet s.queues l.queue with
  | none => true
  | some q =>
    (!l.pkt.acq || q.fates.all fun e => e.1 ≥ l.qindex || fateFinished s e.2) &&
    (match l.pkt.dep with
      | none => true
      | some d =>
        match fateOf q d with
        | some (.finished _) => true
        | some (.live x) =>
          l.pkt.early && ((launchAt s x).map fun p =>
            p.phase == .running &&
              decide (p.trigCount ≥ (s.members.filter fun e => e.2.launch == x && e.2.kind == .grid).length)).getD false
        | _ => false)

/-! ## Acceptance (R80, R81, R88) -/

/-- Fixed checks of a packet, causes 1 to 9 under a code LIMIT (R87, R88). P does not bear on a MARKER, which starts no work (log 62). -/
def packetCause (b : List Byte) (p : LaunchPkt) (i lim : Nat) : Nat :=
  let h := byteAt b 0 2
  let ty := natBits h 12 4
  let mk := ty == 2
  let ext (x : Nat) : Bool := x == 0
  if ty != 1 && ty != 2 then 1
  else if natBits h 0 5 != 0 || natBits p.edges 6 2 != 0 ||
    (mk && ((((b.drop 2).take 24) ++ ((b.drop 32).take 24)).any (· != 0))) then 2
  else if !mk && (ext p.grid.1 || ext p.grid.2.1 || ext p.grid.2.2 || ext p.block.1 || ext p.block.2.1 || ext p.block.2.2 ||
    p.block.1 * p.block.2.1 * p.block.2.2 > 262144) then 3
  else if !mk && (p.slots == 0 || p.slots > 1024) then 4
  else if !mk && ([0, 2, 4].any fun o => natBits p.edges o 2 == 3) then 5
  else if !mk && (8 * p.entry + 8 > lim || (match p.curator with | some c => 8 * c + 8 > lim | none => false)) then 6
  else if !mk && (p.persistent != (p.interval != 0)) then 7
  else if !mk && 60 ≤ p.stride && p.stride ≤ 254 then 8
  else
    match p.dep with
    | none => if p.early then 9 else 0
    | some d => if d ≥ i || i > d + 256 then 9 else 0

/-- A LIMIT under which cause 6 does not hold. -/
def anyLimit : Nat := 2 ^ 40

/-- The LIMIT that cause 6 tests against, or the page that must first be made present; a block that cannot be read is left to
cause 10. -/
def codeLimit (s : State) (q : QueueDesc) (p : LaunchPkt) : Proc Nat :=
  if p.marker || p.seg.toNat % 64 != 0 then .ok anyLimit
  else
    match (procRead s q (p.seg.toNat + 88) 4).1 with
    | .ok b => .ok (natOfBytes b)
    | .held c => .held c
    | .bad _ => .ok anyLimit

/-- A launch table entry of a packet that passed its checks (R80). -/
def newLaunch (s : State) (q : Queue) (i : Nat) (p : LaunchPkt) (c : PktCfg) : Launch :=
  { pkt := p, queue := q.desc.number, qindex := i, phase := .accepted, system := q.desc.system, desc := c.cfg.desc,
    stackSize := c.cfg.stack, vwFirst := c.cfg.vwFirst, vwCount := c.cfg.vwCount, bFirst := c.cfg.bFirst,
    bCount := c.cfg.bCount, spanId := c.spanId, span := c.span, argFirst := c.argFirst, argViews := c.views, trigCount := 0,
    startTime := 0,
    archived := s.mod.archEn.any fun e => e.2.1 && e.2.2.toNat == q.desc.number,
    remoteSteps := [], stepWatchers := [], remoteArrivals := [], barriers := [], blocked := false }

/-- The configuration that a MARKER has. -/
def markerCfg : PktCfg :=
  { cfg := { desc := Vector.replicate 6 0, stack := 256, vwFirst := 0, vwCount := 1, bFirst := 0, bCount := 0, span := 0 },
    spanId := 0, span := [], argFirst := 0, views := [] }

/-- The count after a launch count (R80). -/
def nextCount (n : Nat) : Nat := if n ≥ 0xFFFFFFFF then 1 else n + 1

/-- Acceptance (R80): the launch takes its identifier, the header is written back with type 0, and the read index advances. -/
def acceptPacket (s : State) (q : Queue) (i : Nat) (b : List Byte) (p : LaunchPkt) (c : PktCfg) : State :=
  let id := s.mod.launchCount
  let s1 : State := { s with launches := tabPut s.launches id (newLaunch s q i p c) }
  let s2 := updMod s1 fun m => { m with launchCount := nextCount id, lastQueue := q.desc.number,
                                        spanPast := m.spanPast.filter fun e => e.1 != c.spanId }
  let s3 := procWrite s2 q.desc (packetAddr q.desc i) 2 (byteAt b 0 2 % 0x1000)
  let s4 := procWrite s3 q.desc q.desc.ridxAddr.toNat 8 (i + 1)
  setFate (updQueue s4 q.desc.number fun u => { u with ridx := i + 1 }) q.desc.number i (.live id)

/-- A packet that fails a check (R88): the queue stops. -/
def rejectPacket (s : State) (q : Queue) (i cause : Nat) : State :=
  setFate (stopQueue s q.desc.number cause i (packetAddr q.desc i)) q.desc.number i .rejected

/-- The processor waits for a page (R348): Sernus receives the record of the held cause. -/
def waitForPage (s : State) (q : Queue) (c addr : Nat) : State :=
  sendRecord (updQueue s q.desc.number fun u => { u with pageWait := true }) (plainRecord (c + 0x0F) c addr s.mod.time)

/-- The addresses that acceptance needs beside the blocks (R348). -/
def queueAddrs (q : QueueDesc) (i : Nat) : List (Nat × Need) :=
  [(packetAddr q i, Need.procWrite), (q.widxAddr.toNat, Need.load), (q.ridxAddr.toNat, Need.procWrite)]

/-- The checks from cause 6 on, under the code LIMIT, and the acceptance. -/
def takeChecked (s : State) (q : Queue) (i : Nat) (b : List Byte) (p : LaunchPkt) (lim : Nat) : State :=
  let cause := packetCause b p i lim
  if cause != 0 then rejectPacket s q i cause
  else
    match procUsable s q.desc (queueAddrs q.desc i) with
    | .held c => waitForPage s q c (packetAddr q.desc i)
    | .bad _ => rejectPacket s q i 10
    | .ok _ =>
      match (if p.marker then (.ok markerCfg, s) else readBlocksOf s q.desc p) with
      | (.held c, s1) => waitForPage s1 q c p.seg.toNat
      | (.bad _, s1) => rejectPacket s1 q i 10
      | (.ok c, s1) =>
        if (match p.dep with | some d => fateFails (fateOf q d) | none => false) then rejectPacket s1 q i 12
        else acceptPacket s1 q i b p c

/-- The checks and the acceptance of a packet that has been read (R88): first failing check in table order. The record of a page that the
processor waits for names the packet's address for an index page, and the segment block's for a page of the blocks (R348; log 62). -/
def takePacket (s : State) (q : Queue) (i : Nat) (b : List Byte) : State :=
  let p := packetOf b i
  let first := packetCause b p i anyLimit
  if 1 ≤ first && first ≤ 5 then rejectPacket s q i first
  else
    match codeLimit s q.desc p with
    | .held c => waitForPage s q c p.seg.toNat
    | .ok lim => takeChecked s q i b p lim
    | .bad _ => takeChecked s q i b p anyLimit

/-- Whether a queue has a packet announced and may be served (R80, R327). -/
def queueLooks (s : State) (q : Queue) : Bool :=
  !q.err && !q.pageWait && !q.stall && q.ridx < q.notified && s.launches.length < Config.launchTable &&
  !evicting s && !s.mod.recovery

/-- The processor reads a header with acquire, in field 3 (R79, R96, R242): all that its field has observed, the notify register's own
stamp among it, has been applied, so that it sees what was stored before the header's release, and so do the launch's members (R84). -/
def procAcquires (s : State) : Bool := applied s (joinVec (fieldAt s 3).know (ownStamp s 3))

/-- The priority of a queue's next packet where its header shows one (R81). -/
def readyPrio (s : State) (q : Queue) : Option Nat :=
  if !queueLooks s q || !procAcquires s then none
  else
    match procRead s q.desc (packetAddr q.desc q.ridx) 2 with
    | (.ok b, _) => if natBits (natOfBytes b) 12 4 == 0 then none else some (natBits (natOfBytes b) 7 3)
    | _ => none

/-- How far a queue stands behind the one last served, in rotation (R81). -/
def rotation (s : State) (queue : Nat) : Nat := (queue + 2 ^ 32 - (s.mod.lastQueue + 1) % 2 ^ 32) % 2 ^ 32

/-- Whether another queue is served before one with a ready packet (R81). -/
def servedBefore (s : State) (queue prio : Nat) : Bool :=
  s.queues.any fun e => e.1 != queue && match readyPrio s e.2 with
    | some p => prio < p || (p == prio && rotation s e.1 < rotation s queue)
    | none => false

/-- PACKET_ACCEPT (R79, R80, R81, R88): the processor reads the queue's next header; a type of 0 makes it wait for the next notify. -/
def execPacketAccept (queue : Nat) (st : State) : Result :=
  match tabGet st.queues queue with
  | none => .next st
  | some q =>
    if !queueLooks st q || !procAcquires st then .next st
    else
      match procRead st q.desc (packetAddr q.desc q.ridx) 64 with
      | (.held c, s1) => .next (waitForPage s1 q c (packetAddr q.desc q.ridx))
      | (.bad _, s1) => .next (stopQueue s1 queue 10 q.ridx (packetAddr q.desc q.ridx))
      | (.ok b, s1) =>
        let h := byteAt b 0 2
        if natBits h 12 4 == 0 then .next (updQueue s1 queue fun u => { u with stall := true })
        else if servedBefore st queue (natBits h 7 3) then .next st
        else .next (takePacket s1 q q.ridx b)

/-- PROCESSOR_PAGE_SERVICED (R92, R348): the processor resumes what waited for the page. -/
def execProcessorPageServiced (queue : Nat) (st : State) : Result :=
  let s1 := updQueue st queue fun u => { u with pageWait := false }
  .next { s1 with launches := s1.launches.map fun e =>
    (e.1, if e.2.queue == queue then { e.2 with blocked := false } else e.2) }

/-! ## The end of a launch (R91, R92, R281) -/

/-- The vitrine entries of a part's departed cells, which are kept until the spanning launch completes (R23, R33, R319). -/
def keepSpan (s : State) (l : Nat) : ModuleUnit :=
  match launchAt s l with
  | some x =>
    if x.spanId == 0 then s.mod
    else { s.mod with spanPast := s.mod.spanPast ++
        (s.members.filter fun e => e.2.launch == l && e.2.kind == .grid).map fun e => (x.spanId, { e.2 with departed := true }) }
  | none => s.mod

/-- A launch's members, contexts, slots and entry are freed (R91 step 4, R221, R303). The departed cells of a part of a spanning grid keep
their vitrine entries, from which later reads and STEP waits of other modules are answered (R23, R33, R319). -/
def freeLaunch (s : State) (l : Nat) : State :=
  let mine (g : Nat) : Bool := g == l
  { s with
    mod := keepSpan s l
    launches := tabDrop s.launches l
    ctxs := s.ctxs.filter fun e => e.1 / 4096 != l
    members := s.members.filter fun e => e.2.launch != l
    nbrs := s.nbrs.filter fun e => ((memberAt s e.2.reader).map fun m => m.launch != l).getD true
    cores := s.cores.map fun e => (e.1, { e.2 with
      curatorOf := if e.2.curatorOf == some l then none else e.2.curatorOf
      dq := if e.2.curatorOf == some l then [] else e.2.dq
      dqWaiters := e.2.dqWaiters.filter fun w => ((memberAt s w).map fun m => m.launch != l).getD true
      clauses := e.2.clauses.filter fun c => !mine c.launch
      transfers := e.2.transfers.filter fun t => !mine t.launch
      issue := match e.2.issue with | some g => if mine g.launch then none else some g | none => none
      eng := if e.2.eng.owner == some l then { e.2.eng with owner := none } else e.2.eng }) }

/-- A launch that is removed before it starts gives back its placement. -/
def dropUnstarted (s : State) (l : Nat) : State := freeLaunch s l

/-- An entry of the operand log is abandoned (R276): the access is not performed and its token clears. -/
def abandonAcc (s : State) (id : Nat) : State :=
  match tabGet s.accs id with
  | none => s
  | some a =>
    let s1 : State := if a.kind == .vld then
        { s with accs := s.accs.filter fun e => e.1 == id || !(e.2.kind == .vld && e.2.member == a.member && e.2.hops == a.hops) }
      else s
    finishAcc (retireAcc s1 a) id

/-- The operand-log entries of a leaving member are abandoned (R281). -/
def abandonLogs (s : State) (id : Nat) : State :=
  (s.cores.flatMap fun c => (c.2.log.filter fun e => e.2.member == id).map fun e => e.2.acc).foldl abandonAcc s

/-- Whether a member is issuing with a group. -/
def inGroup (s : State) (id core : Nat) : Bool := (coreAt s core).issue.any fun g => g.members.contains id

/-- Termination of a member (R281): one whose group issues leaves at its clause boundary, any other at once. -/
def terminate (s : State) (id : Nat) : State :=
  match memberAt s id with
  | none => s
  | some m =>
    if hasEnded m then s
    else if inGroup s id m.core then updMember s id fun v => { v with terminating := true }
    else leaveMember (abandonLogs s id) id

/-- The records of a killed launch leave the accession queues and outbound buffers. -/
def dropConts (s : State) (l : Nat) : State :=
  { s with
    fields := s.fields.map fun e => (e.1, { e.2 with accession := e.2.accession.filter fun c => c.2.launch != l })
    cores := s.cores.map fun e => (e.1, { e.2 with outbound := e.2.outbound.filter fun c => c.2.launch != l }) }

/-- The result of an instruction that waits for the module, at its destination (R290, R306). -/
def writeLate (s : State) (id : Nat) (d : Dst) (v : Word) : State := lateJoin (writeDst s id false (ext v) d) id

/-- A job of CTXSAVE, CTXLOAD or CKPT ends with a value: its register is written and its token clears. -/
def endJob (s : State) (j : Job) (v : Word) : State :=
  let s1 := updMod s fun m => { m with jobs := m.jobs.filter (· != j) }
  match j.kind with
  | .save | .load | .close | .rollback =>
    tokDec (writeLate (if j.tok < 6 then retireAs s1 j.member 11 1 else s1) j.member j.dst v) j.member j.tok
  | _ => s1

/-- Jobs on the contexts of a killed launch end (R290, R306): no context is left to save, the launch is no longer live to a restore. -/
def endJobs (s : State) (l : Nat) : State :=
  (s.mod.jobs.filter fun j => j.launch == l).foldl
    (fun t j => endJob t j (match j.kind with | .load => 3 | .rollback => 1 | _ => 0xFFFFFFFF)) s

/-- Sernus or the module kills a launch (R92, R281): every member is terminated; it never completes. -/
def killLaunch (s : State) (l : Nat) : State :=
  match launchAt s l with
  | none => s
  | some x =>
    if x.phase == .killed then s
    else
      let s1 := setFate s x.queue x.qindex (.killed l)
      if x.phase == .accepted || x.phase == .placed then dropUnstarted s1 l
      else
        let s2 := endJobs (dropConts (updLaunch s1 l fun v => { v with phase := .killed }) l) l
        let s3 : State := { s2 with
          accs := s2.accs.filter fun e => e.2.kind != .completion l
          ctxs := s2.ctxs.map fun e => (e.1, if e.1 / 4096 == l then { e.2 with savedCmds := [] } else e.2) }
        (s3.members.filter fun e => e.2.launch == l).foldl (fun t e => terminate t e.1) s3

/-- A killed launch is freed when its last member has left and its accesses are performed (R281). -/
def sweepKilled (s : State) : State :=
  (s.launches.filter fun e => e.2.phase == .killed && launchEmpty s e.1).foldl (fun t e => freeLaunch t e.1) s

/-- The completion signal was given, or is not: the launch is marked complete and its resources are freed (R91 steps 3 and 4).
Its cells have all departed, so that they hold back no barrier of the other modules (R23, R319). -/
def finishLaunch (s : State) (l : Nat) (x : Launch) : State :=
  let s1 := freeLaunch (setFate s x.queue x.qindex (.finished l)) l
  if x.span.isEmpty then s1
  else updMod s1 fun u => { u with answers := u.answers ++ [.podArrivals x.spanId departedSteps] }

/-- The record of a completion address that cannot be used (R92). -/
def completionFault (s : State) (a : Word64) (cause detail : Nat) : State :=
  sendRecord s (plainRecord 0x23 (cause + 256 * detail) a.toNat s.mod.time)

/-- What the completion of a launch releases (R84, R91): its own accesses have all been performed, and what its members may have observed
in their fields must have been applied too (R257). -/
def launchNeed (s : State) (l : Nat) : List Nat :=
  (s.ctxs.filter fun e => e.1 / 4096 == l).foldl (fun v e => joinVec v (fieldAt s (fieldOf (e.1 % 4096))).know) []

/-- The signal of a launch (R91 step 2, R92): as SADD does, by the sync word's keeper. -/
def signalLaunch (s : State) (l : Nat) (x : Launch) (q : Queue) : State :=
  let a := x.pkt.complAddr
  if a == 0 then finishLaunch s l x
  else if a.toNat % 16 != 0 then finishLaunch (completionFault s a 0x05 0) l x
  else
    match procResolve s q.desc a.toNat Need.procSignal with
    | .held c => sendRecord (updLaunch s l fun v => { v with blocked := true }) (plainRecord (c + 0x0F) c a.toNat s.mod.time)
    | .bad c d => finishLaunch (completionFault s a 0x06 (procDetail c d)) l x
    | .ok r =>
      let (id, s1) := freshId s
      let acc := moduleAccess (.completion l) l r.tgt a 16 x.pkt.complVal id
      updLaunch { s1 with accs := tabPut s1.accs id acc } l fun v => { v with phase := .completed }

/-- Whether a launch has nothing left to do, and its release has ended (R91 step 1). -/
def mayComplete (s : State) (l : Nat) (x : Launch) : Bool :=
  x.phase == .running && !x.blocked && launchEmpty s l && applied s (launchNeed s l)

/-- LAUNCH_COMPLETION (R91): the signal of an empty launch is sent; once it has been performed, the launch is complete. -/
def execLaunchCompletion (launch : Nat) (st : State) : Result :=
  match launchAt st launch with
  | none => .next st
  | some x =>
    if x.pkt.marker then .next st
    else if x.phase == .completed then .next (if launchAccs st launch then st else finishLaunch st launch x)
    else if !mayComplete st launch x then .next st
    else
      match tabGet st.queues x.queue with
      | some q => .next (signalLaunch st launch x q)
      | none => .next (finishLaunch st launch x)

/-- MARKER_COMPLETE (R87): the waits of a MARKER are over, and it completes at once. -/
def execMarkerComplete (launch : Nat) (st : State) : Result :=
  match launchAt st launch with
  | none => .next st
  | some x =>
    if !x.pkt.marker then .next st
    else if x.phase == .completed then .next (if launchAccs st launch then st else finishLaunch st launch x)
    else if x.phase != .accepted || x.blocked || !waitsOver st x then .next st
    else
      match tabGet st.queues x.queue with
      | some q => .next (signalLaunch st launch x q)
      | none => .next (finishLaunch st launch x)

/-- DEPENDANT_FAIL (R89): the dependence of a waiting launch was killed, rejected or failed itself. -/
def execDependantFail (launch : Nat) (st : State) : Result :=
  match launchAt st launch with
  | none => .next st
  | some x =>
    if x.phase != .accepted && x.phase != .placed then .next st
    else
      match x.pkt.dep, tabGet st.queues x.queue with
      | some d, some q =>
        if fateFails (fateOf q d) then
          let s1 := setFate st x.queue x.qindex .failed
          .next (dropUnstarted (sendRecord s1 (plainRecord 0x22 12 x.qindex s1.mod.time)) launch)
        else .next st
      | _, _ => .next st

end Sys2Proof.Machine
end

