-- ==== Sys2Proof/Machine/Move.lean ====
section
/-!
DEFINITION. The compare, select, move and predicate group 0x2 (R132 to R134).
-/
namespace Sys2Proof.Machine

/-- Whether a member's launch runs with system privilege (R284). -/
def privileged (s : State) (m : Member) : Bool := ((launchAt s m.launch).map (·.system)).getD false

/-- The extents of a member's launch (R12). -/
def extents (s : State) (m : Member) : Nat × Nat × Nat := ((launchAt s m.launch).map (·.pkt.grid)).getD (0, 0, 0)

/-- %tok: bit i while token i has an outstanding instruction (R134). -/
def tokBits (m : Member) : Nat :=
  (List.range 6).foldl (fun acc i => acc + boolNat (tokCount m i != 0) * 2 ^ i) 0

/-- The value of a special register (R12, R123, R134). -/
def sregValue (s : State) (m : Member) : SReg → Word64
  | .cellx => BitVec.ofNat 64 m.coord.1
  | .celly => BitVec.ofNat 64 m.coord.2.1
  | .cellz => BitVec.ofNat 64 m.coord.2.2
  | .gridx => BitVec.ofNat 64 (extents s m).1
  | .gridy => BitVec.ofNat 64 (extents s m).2.1
  | .gridz => BitVec.ofNat 64 (extents s m).2.2
  | .step => BitVec.ofNat 64 (if m.kind == .grid then (m.done + 1) % 2 ^ 32 else 0)
  | .core => BitVec.ofNat 64 m.core
  | .quad => BitVec.ofNat 64 (quadOf m.core)
  | .field => BitVec.ofNat 64 (fieldOf m.core)
  | .module => BitVec.ofNat 64 s.mod.number
  | .slot => BitVec.ofNat 64 (slotCode m)
  | .ctx => BitVec.ofNat 64 (((ctxAt s m.launch m.core).map (·.number)).getD 0)
  | .launch => BitVec.ofNat 64 m.launch
  | .cyc => BitVec.ofNat 64 (coreAt s m.core).cyc
  | .time => BitVec.ofNat 64 (coreAt s m.core).ticks
  | .energy => (coreAt s m.core).energy
  | .perf => BitVec.ofNat 64 (stepOf s m.core + 256 * ((ctxAt s m.launch m.core).map (·.req)).getD 0)
  | .tok => BitVec.ofNat 64 (tokBits m)

/-- The check of SETS: only %energy is writable, and only with privilege (R134). -/
def setsFault (s : State) (m : Member) (a : Src) (r : SReg) (wide : Bool) : Option Nat :=
  if r != .energy then some 0x01
  else if !privileged s m then some 0x02
  else formFault m .none false [(tyOf wide, a)]

/-- A write of %energy. With W = 0 the low word is written; the manual does not say what the high word becomes, so it is a
free value (R134; log 12). -/
def writeEnergy (s : State) (core : Nat) (wide : Bool) (v : Word64) : State :=
  if wide then updCore s core fun u => { u with energy := v }
  else
    let (n, s1) := drawFree s
    updCore s1 core fun u => { u with energy := Config.freeWord n ++ lo32 v }

/-- The check of a form whose only operands are 32 or 64 bits wide. -/
def compareInstr (c : Common) (d : Dst) (a b : Src) (cc : Cond) (sg wide : Bool) (st : State) : Result :=
  valueInstr st c d false [(tyOf wide, a), (tyOf wide, b)] fun vs =>
    match vs with
    | [x, y] => if condHolds cc sg (widthOf wide) x y then 1 else 0
    | _ => 0

/-- CMP (R133). -/
def execCmp (c : Common) (p : BitVec 3) (a b : Src) (cc : Cond) (sg wide : Bool) (st : State) : Result :=
  compareInstr c (.pred p) a b cc sg wide st

/-- CMPS (R133). -/
def execCmps (c : Common) (d : Dst) (a b : Src) (cc : Cond) (sg wide : Bool) (st : State) : Result :=
  compareInstr c d a b cc sg wide st

/-- SEL (R133). -/
def execSel (c : Common) (d : Dst) (a b : Src) (p : BitVec 3) (negate wide : Bool) (st : State) : Result :=
  let ops := [(tyOf wide, a), (tyOf wide, b)]
  runForm st c (fun m => formFault m d wide ops) ops (guardedOff st d wide) fun k m vs =>
    match vs with
    | [x, y] => result st k c d wide (if predSrc m p negate then x else y)
    | _ => st

/-- MOV (R133). -/
def execMov (c : Common) (d : Dst) (a : Src) (wide : Bool) (st : State) : Result :=
  valueInstr st c d wide [(tyOf wide, a)] fun vs =>
    match vs with
    | [x] => x
    | _ => 0

/-- MOVS (R134). -/
def execMovs (c : Common) (d : Dst) (r : SReg) (wide : Bool) (st : State) : Result :=
  runForm st c (fun m => formFault m d wide []) [] (guardedOff st d wide) fun k m _ =>
    let v := sregValue st m r
    result st k c d wide (if wide then v else ext (lo32 v))

/-- SETS (R134). -/
def execSets (c : Common) (a : Src) (r : SReg) (wide : Bool) (st : State) : Result :=
  runForm st c (fun m => setsFault st m a r wide) [(tyOf wide, a)] (fun _ _ => st) fun _ m vs =>
    match vs with
    | [x] => writeEnergy st m.core wide x
    | _ => st

/-- PAND (R133). -/
def execPand (c : Common) (p pa pb : BitVec 3) (na nb : Bool) (st : State) : Result :=
  predInstr st c p fun m => predSrc m pa na && predSrc m pb nb

/-- POR (R133). -/
def execPor (c : Common) (p pa pb : BitVec 3) (na nb : Bool) (st : State) : Result :=
  predInstr st c p fun m => predSrc m pa na || predSrc m pb nb

/-- PXOR (R133). -/
def execPxor (c : Common) (p pa pb : BitVec 3) (na nb : Bool) (st : State) : Result :=
  predInstr st c p fun m => predSrc m pa na != predSrc m pb nb

/-- PNOT (R133). -/
def execPnot (c : Common) (p pa : BitVec 3) (st : State) : Result :=
  predInstr st c p fun m => !m.r.getP pa

/-- PSET (R133). -/
def execPset (c : Common) (p : BitVec 3) (a : Src) (st : State) : Result :=
  valueInstr st c (.pred p) false [(.w32, a)] fun vs =>
    match vs with
    | [x] => if lo32 x != 0 then 1 else 0
    | _ => 0

/-- PMOV reads the predicate set, or writes p0 to p6 from the low bits of a; the latch of the write form holds the bits
written (R133; log 13). -/
def execPmov (c : Common) (d : Dst) (a : Src) (write : Bool) (st : State) : Result :=
  if write then
    let ops := [(Ty.w32, a)]
    runForm st c (fun m => formFault m .none false ops) ops (guardedOff st .none false) fun k _ vs =>
      match vs with
      | [x] =>
        let p : BitVec 7 := x.extractLsb' 0 7
        let s1 := if c.k then st else updMember st k.member fun m => { m with r := { m.r with p := p } }
        setLatch s1 k (p.zeroExtend 64)
      | _ => st
  else
    runForm st c (fun m => formFault m d false []) [] (guardedOff st d false) fun k m _ =>
      result st k c d false (predSet m)

end Sys2Proof.Machine
end

