-- ==== Sys2Proof/Machine/Place.lean ====
section
/-!
DEFINITION. Placement (R85, R96 to R102, R166), the start of launches (R84, R89, R102), TRIG (R90), and continuations: SPAWN (R95),
accession queues and task cells (R93, R94).
-/
namespace Sys2Proof.Machine

/-! ## Blocks (R85) -/

/-- The coordinates of block `b` in blocks. -/
def blockCoord (p : LaunchPkt) (b : Nat) : Nat × Nat × Nat :=
  let nx := blocksAlong p.grid.1 p.block.1
  let ny := blocksAlong p.grid.2.1 p.block.2.1
  (b % nx, b / nx % ny, b / (nx * ny))

/-- The cells of block `b` in linear index order: a block at a high edge holds those inside the grid (R85, R98). -/
def blockCells (p : LaunchPkt) (b : Nat) : List (Nat × Nat × Nat) :=
  let c := blockCoord p b
  let along (i k e : Nat) : List Nat := (List.range (min k (e - i * k))).map (i * k + ·)
  (along c.2.2 p.block.2.2 p.grid.2.2).flatMap fun z =>
    (along c.2.1 p.block.2.1 p.grid.2.1).flatMap fun y =>
      (along c.1 p.block.1 p.grid.1).map fun x => (x, y, z)

/-- The blocks that this module places (R100, R165). -/
def ownBlocks (l : Launch) : List Nat :=
  if l.bCount == 0 then List.range (blockCount l.pkt) else (List.range l.bCount).map (l.bFirst + ·)

/-- The affinity address of a block (R85). -/
def affinityAddr (p : LaunchPkt) (b : Nat) : Nat :=
  p.affBase.toNat / 2 ^ 60 * 2 ^ 60 + (p.affBase.toNat % 2 ^ 60 + b * 2 ^ p.stride) % 2 ^ 60

/-- Placement's own walker, which is none of a service core: a number that no core has, so that no core's TLB serves it (log 62). -/
def placeCore : Nat := 4096

/-- The home field that a block's affinity names, if any (R85, R96). An address is denied where its descriptor or leaf lacks R, and a
page with A = 0 is not mapped (log 62). A launch that waits has its affinity translated anew at each attempt (log 68). -/
def blockHome (s : State) (l : Launch) (b : Nat) : Option Nat :=
  let a := affinityAddr l.pkt b
  if l.pkt.stride == 0xFF || !(a / 2 ^ 60 == 2 || a / 2 ^ 60 == 4) then none
  else
    match (resolveIn s l.desc placeCore placeCore false Need.load (BitVec.ofNat 64 a) 1).1 with
    | .ok { tgt := .loc pa, .. } => homeField s pa
    | _ => none

/-! ## Carving (R101) -/

def rangesMeetAny (lo hi : Nat) (l : List (Nat × Nat)) : Bool := l.any fun r => lo < r.2 && r.1 < hi

/-- The highest run of `n` bytes below `size` that is free of the taken runs (R101). -/
def highestRun (size n : Nat) (taken : List (Nat × Nat)) : Option Nat :=
  bestBy (fun a b => a > b)
    ((size :: taken.map (·.1)).filterMap fun e =>
      if n ≤ e && e ≤ size && !rangesMeetAny (e - n) e taken then some (e - n) else none)

/-- The runs of a slice (false) or B-die (true) that descriptors give (R167). -/
def descRuns (d : Vector DescBits 6) (die : Bool) : List (Nat × Nat) :=
  let run (n : Nat) : List (Nat × Nat) :=
    let x := d.toList.getD n 0
    if Desc.v x && Desc.limit x > 0 then [(Desc.base x, Desc.base x + Desc.limit x)] else []
  if die then run 3 else run 0 ++ run 1

/-- Carved areas of a core. -/
def carvedOn (s : State) (core : Nat) (die : Bool) : List (Nat × Nat) :=
  (s.ctxs.filter fun e => e.1 % 4096 == core).flatMap fun e =>
    (e.2.carved.filter fun r => r.1 == die).map fun r => (r.2.1, r.2.2)

/-- Runs of every context of a core. -/
def ctxRuns (s : State) (core : Nat) (die : Bool) : List (Nat × Nat) :=
  (s.ctxs.filter fun e => e.1 % 4096 == core).flatMap fun e => descRuns e.2.desc die

/-- The most frames of 320 bytes, up to `n`, that a free run of the slice holds. -/
def mostFrames (taken : List (Nat × Nat)) : Nat → Nat
  | 0 => 0
  | n + 1 => if (highestRun 0x100000 (320 * (n + 1)) taken).isSome then n + 1 else mostFrames taken n

/-- What placement carves on a core for `c` cells of a grant of `g` (R101): none in a slice that holds a drained field's copy (R313). -/
def carve (s : State) (l : Launch) (core c g : Nat) : Option (List (Bool × Nat × Nat)) :=
  let copies := s.mod.redirect.any fun e => e.2 / pieceSize == core
  let own := copies || [false, true].any fun die => (descRuns l.desc die).any fun r => rangesMeetAny r.1 r.2 (carvedOn s core die)
  let taken := ctxRuns s core false ++ carvedOn s core false ++ descRuns l.desc false
  if own then none
  else
    match highestRun 0x100000 (64 * c) taken with
    | none => none
    | some v =>
      let t1 := (v, v + 64 * c) :: taken
      let need := c - g
      let k := mostFrames t1 need
      let inSlice := if k == 0 then [] else
        match highestRun 0x100000 (320 * k) t1 with | some a => [(false, a, a + 320 * k)] | none => []
      if k == need then some ((false, v, v + 64 * c) :: inSlice)
      else
        match highestRun 0x400000 (320 * (need - k)) (ctxRuns s core true ++ carvedOn s core true ++ descRuns l.desc true) with
        | some a => some ((false, v, v + 64 * c) :: inSlice ++ [(true, a, a + 320 * (need - k))])
        | none => none

/-! ## Assignment (R97 to R99) -/

/-- Cells assigned so far by core, in the order of assignment. -/
abbrev Plan := Tab (List (Nat × Nat × Nat))

def planned (p : Plan) (core : Nat) : List (Nat × Nat × Nat) := (tabGet p core).getD []

/-- The gangs of a core that no context holds (R29, R102). -/
def freeGangs (s : State) (core : Nat) : List Nat :=
  (List.range Config.gangs).filter fun g => !(ctxsOf s core).any fun e => e.2.gangs.contains g

/-- Gangs that a grant takes (R102). -/
def grantGangs (l : Launch) : Nat := (l.pkt.slots + 63) / 64

/-- Whether a core takes cells of a launch: a service core those of Sernus's own launches alone, which compute cores take as well
(R97, R293; log 49). -/
def takesLaunch (l : Launch) (core : Nat) : Bool := l.system || !isService core

/-- Whether a core qualifies for `n` more cells of a launch (R98, R119). -/
def qualifies (s : State) (l : Launch) (p : Plan) (core n : Nat) : Bool :=
  let have_ := (planned p core).length
  isOnline s (fieldOf core) && takesLaunch l core && !(coreAt s core).quarantined &&
  (have_ > 0 || ((freeGangs s core).length ≥ grantGangs l && numberOpen s 0 core)) &&
  have_ + n ≤ 4096 && (l.pkt.curator.isNone || (coreAt s core).curatorOf.isNone) &&
  (carve s l core (have_ + n) l.pkt.slots).isSome

/-- The most cells, up to `n`, for which a core qualifies. -/
def capacity (s : State) (l : Launch) (p : Plan) (core : Nat) : Nat → Nat
  | 0 => 0
  | n + 1 => if qualifies s l p core (n + 1) then n + 1 else capacity s l p core n

/-- Free cell slots of a core while a plan is made: those of gangs that no context holds and the plan does not take (R97; log 33). -/
def freeSlotCount (s : State) (l : Launch) (p : Plan) (core : Nat) : Nat :=
  64 * ((freeGangs s core).length - if (planned p core).isEmpty then 0 else grantGangs l)

/-- The order in which the scheduler prefers cores (R98). -/
def coreRank (s : State) (l : Launch) (p : Plan) (core : Nat) : List Int :=
  let have_ := (planned p core).length
  if have_ > 0 then [0, have_, core] else [1, -(freeSlotCount s l p core : Int), core]

/-- The runs of a list of cells in one field (R98): the whole rest on one qualifying core, else what cores can hold. Answers the plan
and the cells that are left. -/
def assignField (s : State) (l : Launch) (f : Nat) : Nat → Plan → List (Nat × Nat × Nat) → Plan × List (Nat × Nat × Nat)
  | 0, p, cells => (p, cells)
  | n + 1, p, cells =>
    if cells.isEmpty then (p, [])
    else
      let whole := (coresOf f).filter fun c => qualifies s l p c cells.length
      let some_ := if whole.isEmpty then (coresOf f).filter fun c => qualifies s l p c 1 else whole
      match bestBy (fun a b => lexLt (coreRank s l p a) (coreRank s l p b)) some_ with
      | none => (p, cells)
      | some c =>
        let k := capacity s l p c (min cells.length 4096)
        assignField s l f n (tabPut p c (planned p c ++ cells.take k)) (cells.drop k)

/-- Distance between fields (R98). -/
def fieldDistance (a b : Nat) : Nat :=
  (a / 8 - b / 8) + (b / 8 - a / 8) + (a % 8 - b % 8) + (b % 8 - a % 8)

/-- The field of a block without affinity: the online field with the most free cell slots, of cores that take the launch (R97). -/
def loadField (s : State) (l : Launch) (p : Plan) : Nat :=
  let free (f : Nat) : Int := (((coresOf f).filter (takesLaunch l)).map (freeSlotCount s l p)).sum
  (bestBy (fun a b => lexLt [-free a, a] [-free b, b]) (fieldIds.filter (isOnline s))).getD 1

/-- A block over the fields in order of distance from its home field (R98). -/
def assignFields (s : State) (l : Launch) : List Nat → Plan → List (Nat × Nat × Nat) → Plan × List (Nat × Nat × Nat)
  | [], p, cells => (p, cells)
  | f :: r, p, cells =>
    let (p1, rest) := assignField s l f 64 p cells
    if rest.isEmpty then (p1, []) else assignFields s l r p1 rest

/-- The plan of every block, all or nothing (R99). -/
def assignBlocks (s : State) (l : Launch) : List Nat → Plan → Option Plan
  | [], p => some p
  | b :: r, p =>
    let h := (blockHome s l b).getD (loadField s l p)
    let fs := sortBy (fun a b => lexLt [fieldDistance a h, a] [fieldDistance b h, b]) (fieldIds.filter (isOnline s))
    match assignFields s l fs p (blockCells l.pkt b) with
    | (p1, []) => assignBlocks s l r p1
    | _ => none

/-- The module with nothing placed on its non-service cores, for the test of R99. -/
def emptied (s : State) : State :=
  { s with
    ctxs := s.ctxs.filter fun e => isService (e.1 % 4096)
    members := s.members.map fun e => (e.1, { e.2 with moveTo := none, put := { e.2.put with move := none } })
    cores := s.cores.map fun e => (e.1, if isService e.1 then e.2 else { e.2 with curatorOf := none }) }

/-- Whether a launch was taken before another, by their identifiers, which wrap (R80). -/
def takenBefore (a b : Nat) : Bool := a != b && (b + 2 ^ 32 - a) % 2 ^ 32 < 2 ^ 31

/-- Whether a launch holds back another (R99): an accepted launch of higher priority, or of equal priority and taken earlier, whose
own waits are over. -/
def holdsBack (s : State) (l : Nat) (x : Launch) : Bool :=
  s.launches.any fun e => e.1 != l && e.2.phase == .accepted && !e.2.pkt.marker && waitsOver s e.2 &&
    (x.pkt.prio < e.2.pkt.prio || (x.pkt.prio == e.2.pkt.prio && takenBefore e.1 l))

/-- The members of a launch on one core (R102, R166): the S cells of lowest linear index hold slots, the others begin parked; they
issue from the launch's start. -/
def placeCells (s : State) (id : Nat) (l : Launch) (core : Nat) (gangs : List Nat) (cells : List (Nat × Nat × Nat)) : State :=
  let slots := (gangs.flatMap fun g => (List.range 64).map (g * 64 + ·)).take l.pkt.slots
  let lin := sortBy (fun a b => a < b) (cells.map (linearOf l.pkt.grid))
  (cells.zipIdx).foldl (fun t c =>
    let n := linearOf l.pkt.grid c.1
    let place := match slots[lin.idxOf n]? with | some k => Place.slot k | none => .parked
    let (mid, t1) := freshId t
    let m : Member := { newCell l id core c.2 n c.1 place with wait := .inactive, frame := lin.idxOf n - slots.length }
    { t1 with members := tabPut t1.members mid m }) s

/-- The curator of a launch on a core (R27, R28, R124, R166). -/
def placeCurator (s : State) (id : Nat) (l : Launch) (core c : Nat) : State :=
  match l.pkt.curator with
  | none => s
  | some entry =>
    let k := c + l.pkt.slots
    let (mid, s1) := freshId s
    let m := { newMember .curator id core core 0 0 (0, 0, 0) .curatorSlot entry (k * l.stackSize) ((k + 1) * l.stackSize) 0 0 with
               wait := .inactive }
    updCore { s1 with members := tabPut s1.members mid m } core fun u =>
      { u with curatorOf := some id, dq := [], dqWaiters := [] }

/-- A launch is placed on one core of its plan (R86, R98, R101, R102, R119). -/
def placeOn (s : State) (id : Nat) (l : Launch) (core : Nat) (cells : List (Nat × Nat × Nat)) : State :=
  let gangs := (freeGangs s core).take (grantGangs l)
  let ctx := { newCtx l ((freeNumber s core).getD 0) cells.length l.pkt.slots gangs s.mod.time (allowOf s l.pkt.prio) with
    origin := core,
               carved := (carve s l core cells.length l.pkt.slots).getD [] }
  let s1 := loadViews { s with ctxs := tabPut s.ctxs (ctxKey id core) ctx } l core
  placeCurator (placeCells s1 id l core gangs cells) id l core cells.length

/-- LAUNCH_PLACEMENT (R81, R99, R327): once its waits are over (ACQ and a dependence keep a launch from being placed), the launch is placed
at once, waits, or is killed where no free module could place it. -/
def execLaunchPlacement (launch : Nat) (st : State) : Result :=
  match launchAt st launch with
  | none => .next st
  | some x =>
    if x.phase != .accepted || x.pkt.marker || evicting st || !waitsOver st x || holdsBack st launch x then .next st
    else
      match assignBlocks st x (ownBlocks x) [] with
      | some plan =>
        .next (updLaunch (plan.foldl (fun t e => placeOn t launch x e.1 e.2) st) launch fun v => { v with phase := .placed })
      | none =>
        if (assignBlocks (emptied st) x (ownBlocks x) []).isSome then .next st
        else .next (killLaunch (sendRecord st (plainRecord 0x24 0 0 st.mod.time)) launch)

/-- LAUNCH_START (R84, R89, R102): the waits of a placed launch are over, and its members begin to issue. -/
def execLaunchStart (launch : Nat) (st : State) : Result :=
  match launchAt st launch with
  | none => .next st
  | some x =>
    if x.phase != .placed || !waitsOver st x then .next st
    else
      let now := st.mod.time
      let s1 := updLaunch st launch fun v => { v with phase := .running, startTime := now }
      .next { s1 with
        members := s1.members.map (fun e => (e.1,
          if e.2.launch == launch then
            { e.2 with wait := .ready, ptime := ticksNow st e.2.core, unparkTime := ticksNow st e.2.core,
                       readySince := cycNow st e.2.core }
          else e.2))
        ctxs := s1.ctxs.map (fun e => (e.1,
          if e.1 / 4096 == launch then { e.2 with lastMark := now, lastRetire := now, lastClose := now } else e.2)) }

/-! ## TRIG (R90) -/

/-- TRIG (R90): a release at `.pod`, which counts when it ends; in a tail, task cell or curator it has no effect. -/
def execTrig (c : Common) (st : State) : Result :=
  controlInstr st c (fun _ => none) fun k m =>
    if m.kind == .grid then fence st k.member true false .pod none true else st

/-! ## SPAWN (R95) -/

/-- A continuation record as it is captured at issue (R93, R95). A release waits for the accesses that it covers and for what it carries;
every SPAWN comes behind its member's open releases (R257, R259). -/
def contOf (s : State) (k : Cur) (m : Member) (o : MemOp) (r : BitVec 6) (a : Word64) (pa field : Nat) : Cont :=
  let rel := o.order == .rel || o.order == .ar
  { target := a, field := field,
    core := match regionOf (physOf s pa) with | .slice c => some c | _ => none,
    entry := m.r.getG r, source := m.core, args := m.r.block (r + 1) 4, launch := m.launch, member := k.member, tok := o.tok.toNat,
    waits := (if rel then (fenceSet s k.member o.scope).map (·.1) else []) ++ (m.fences.filter (·.rel)).flatMap (·.waits),
    postedAt := s.mod.time,
    need := (m.fences.filter (·.rel)).foldl (fun v f => joinVec v f.need) (if rel then releaseNeed s m o.scope else []) }

/-- The record takes its entry of the outbound buffer of 8, and counts on its token; a member that finds the buffer full waits off the
port (R95, R118, R185). -/
def postCont (s : State) (k : Cur) (m : Member) (x : Cont) : State :=
  if tokCount m x.tok ≥ Config.tokenMax then holdGroup s
  else if (coreAt s m.core).outbound.length ≥ Config.outboundDepth then leaveGroup s k.member k.slot .outbound
  else
    let (id, s1) := freshId s
    tokInc (updCore s1 m.core fun u => { u with outbound := tabPut u.outbound id x }) k.member x.tok

/-- SPAWN on an element's address: only a valid translation is needed (R95, R172, R177). -/
def spawnAt (s : State) (k : Cur) (m : Member) (o : MemOp) (r : BitVec 6) (size : Nat) (a : Word64) : State :=
  if a.toNat % size != 0 then trap s k 0x05 0 a
  else
    match ctxAt s m.launch m.core with
    | none => trap s k 0x03 0 a
    | some ctx =>
      match resolve s ctx m.core m.home false Need.none a size with
      | (.held c, s1) => holdAtSlot s1 k m c a
      | (.bad cause detail, s1) => trap s1 k cause detail a
      | (.ok t, s1) =>
        match t.tgt with
        | .peer ap _ => trap s1 k 0x08 ap a
        | .loc pa =>
          match homeField s1 pa with
          | none => trap s1 k 0x06 1 a
          | some f => postCont s1 k m (contOf s1 k m o r a pa f)

/-- SPAWN (R95): an invalid or SE view raises ViewBounds; an element outside a zero-fill view posts nothing. -/
def execSpawn (c : Common) (r : BitVec 6) (o : MemOp) (st : State) : Result :=
  runForm st c (fun m => if isCurator m then some 0x01 else if isTail m then some 0x0B else srcFault m .w32 o.off)
    [(.w32, o.off)] (fun _ _ => st) fun k m vs =>
    match vs with
    | [x] =>
      let v := viewAt st m.core o.view.toNat
      (match viewFmt v (fun _ => true) with
        | none => trap st k 0x04 0
        | some f =>
          match elementAddress v (fmtSize f) (elementIndex x o.disp.toInt) with
          | .outside => st
          | .bad cause d => trap st k cause d
          | .addr a => spawnAt st k m o r (fmtSize f) a)
    | _ => st

/-! ## Accession and task cells (R93, R94, R95) -/

/-- Members that wait for room in an outbound buffer look again. -/
def wakeOutbound (s : State) (core : Nat) : State :=
  (s.members.filter fun e => e.2.core == core && e.2.wait == .outbound).foldl (fun t e => wake t e.1) s

/-- CONTINUATION_ACCEPT (R95): a posted record whose release has ended enters the accession queue of its field, if that has room, and
the spawner's token clears. Records of one launch from one core to one field go in the order of their posts (R93). -/
def execContinuationAccept (core rec : Nat) (st : State) : Result :=
  match tabGet (coreAt st core).outbound rec with
  | none => .next st
  | some x =>
    let f := fieldAt st x.field
    let earlier := (coreAt st core).outbound.any fun e => e.1 < rec && e.2.launch == x.launch && e.2.field == x.field
    if f.accession.length ≥ 256 || !allPerformed st x.waits || !applied st x.need || earlier || fieldGone st x.field then .next st
    else
      let s1 := updCore st core fun u => { u with outbound := tabDrop u.outbound rec }
      let s2 := updField s1 x.field fun u =>
        { u with accession := tabPut u.accession rec { x with postedAt := st.mod.time }
                 accAge := if (u.accession.any fun e => e.2.launch == x.launch) then u.accAge else tabPut u.accAge x.launch st.mod.time }
      let s3 := if x.tok < 6 then retireAs s2 x.member 11 3 else s2
      .next (wakeOutbound (tokDec s3 x.member x.tok) core)

/-- Free slots of a launch's grants in a field: core and count. -/
def launchSlots (s : State) (launch field : Nat) : List (Nat × Nat) :=
  (coresOf field).filterMap fun c =>
    match ctxAt s launch c with
    | some x =>
      let n := (freeSlots s x c).length
      if x.isOut || n == 0 then none else some (c, n)
    | none => none

/-- The slot of a new task cell (R93): of the launch, on the core that owns the target's slice or with the most free slots; else an
annex slot by the same order. Answers the core and the place. -/
def taskPlace (s : State) (field : Nat) (x : Cont) : Option (Nat × Place × State) :=
  let ls := launchSlots s x.launch field
  let own := x.core.bind fun c => ls.find? fun e => e.1 == c
  let best := match own with
    | some e => some e
    | none => bestBy (fun a b => lexLt [-(a.2 : Int), a.1] [-(b.2 : Int), b.1]) ls
  match best with
  | some (c, _) =>
    match ctxAt s x.launch c with
    | some ctx => (chooseFrom s (freeSlots s ctx c)).map fun p => (c, .slot p.1, p.2)
    | none => none
  | none =>
    let pa := match x.core with | some c => sliceBase c | none => 2 ^ 63
    match annexCore s x.launch field pa with
    | some c => (chooseFrom s (freeAnnex s c)).map fun p => (c, .annex p.1, p.2)
    | none => none

/-- The stack index of a task cell (R166). -/
def taskIndex (c : Ctx) (p : Place) : Nat :=
  match p with
  | .slot n => c.cells + (grantSlots c).idxOf n
  | .annex a => c.cells + c.grant + 1 + a
  | _ => 0

/-- A task cell of a record (R94). -/
def newTask (s : State) (l : Launch) (x : Cont) (core : Nat) (c : Ctx) (p : Place) : Member :=
  let i := taskIndex c p
  let m := newMember .task x.launch core core i 0 (0, 0, 0) p x.entry.toNat (i * l.stackSize) ((i + 1) * l.stackSize) (ticksNow s core)
    (cycNow s core)
  { m with r := (m.r.setBlock 0 x.args).setBlock 4 [lo32 x.target, x.target.extractLsb' 32 32] }

/-- Whether a record is the first of its launch in an accession queue (R93). -/
def firstOfLaunch (f : FieldUnit) (rec : Nat) (x : Cont) : Bool :=
  !(f.accession.any fun e => e.2.launch == x.launch && (e.2.postedAt < x.postedAt || (e.2.postedAt == x.postedAt && e.1 < rec)))

/-- TASK_CELL_START (R93, R94, R166): the first waiting record of its launch starts where a slot is free. -/
def execTaskCellStart (field rec : Nat) (st : State) : Result :=
  let f := fieldAt st field
  match tabGet f.accession rec with
  | none => .next st
  | some x =>
    if !firstOfLaunch f rec x then .next st
    else
      match taskPlace st field x, launchAt st x.launch with
      | some (core, p, s1), some l =>
        let s2 := ensureCtx s1 x.launch core
        match ctxAt s2 x.launch core with
        | none => .next st
        | some c =>
          let (id, s3) := freshId s2
          let s4 : State := { s3 with members := tabPut s3.members id (newTask s3 l x core c p) }
          .next (updField s4 field fun u =>
            { u with accession := tabDrop u.accession rec, accAge := tabPut u.accAge x.launch st.mod.time })
      | _, _ => .next st

/-- The watchdog period in ticks of 208.33 ps: 4,800 to the microsecond (R120, R283). -/
def watchdogTicks (s : State) : Nat := (max s.mod.wdPeriod.toNat 1) * 4800

/-- ACCESSION_WATCHDOG_EXPIRY (R93, R282): no record of the launch has started for the watchdog period. -/
def execAccessionWatchdogExpiry (field launch : Nat) (st : State) : Result :=
  let f := fieldAt st field
  if !(f.accession.any fun e => e.2.launch == launch) then .next st
  else
    match tabGet f.accAge launch with
    | none => .next st
    | some t =>
      if st.mod.time < t + watchdogTicks st then .next st
      else
        .next (sendRecord (updField st field fun u => { u with accAge := tabPut u.accAge launch st.mod.time })
          (plainRecord 0x21 2 field st.mod.time))

end Sys2Proof.Machine
end

