-- ==== Sys2Proof/Machine/Io.lean ====
section
/-!
DEFINITION. The I/O space (R289) and the registers of its units: cores (R276), fields (R312), optics (R321), the module (R283, R299,
R300, R303, R314, R315, R320, R323, R325, R327); LDIO and STIO, and the steps that perform them.
-/
namespace Sys2Proof.Machine

/-! ## Units (R289) -/

/-- The unit of an I/O address. -/
inductive IoUnit
  | core (g : Nat)
  | field (f : Nat)
  | optics (f : Nat)
  | hbm (k : Nat)
  | module
  | management
deriving DecidableEq, Repr

/-- The unit that an I/O address names, if it is present (R289). -/
def ioUnitOf (a : Word64) : Option IoUnit :=
  let n := a.toNat
  if natBits n 48 16 != 0 then none
  else
    match natBits n 44 4 with
    | 0 => if coreExists (natBits n 32 12) then some (.core (natBits n 32 12)) else none
    | 1 => if fieldExists (natBits n 32 8) then some (.field (natBits n 32 8)) else none
    | 2 => if natBits n 32 7 < 64 then some (.optics (natBits n 32 7)) else none
    | 3 => if natBits n 32 6 < 40 then some (.hbm (natBits n 32 6)) else none
    | 4 => some .module
    | 5 => some .management
    | _ => none

def ioOffset (a : Word64) : Nat := natBits a.toNat 0 32
/-- The register of 64 bits that an offset lies in. -/
def ioReg (a : Word64) : Nat := ioOffset a / 8 * 8

/-! ## Core and field registers -/

/-- The 64 bytes of an operand-log entry (R181). -/
def logBytes (e : LogEntry) : List Byte :=
  bytesOf 8 e.word.toNat ++ bytesOf 8 e.addr.toNat ++ bytesOf 8 e.data.toNat ++ bytesOf 8 e.data2.toNat ++
  bytesOf 4 e.pc.toNat ++ bytesOf 1 (e.slot % 16) ++ bytesOf 1 (e.token % 8) ++ bytesOf 1 e.cause ++ bytesOf 1 0 ++
  bytesOf 4 e.who.toNat ++ bytesOf 4 0 ++ bytesOf 6 e.time ++ bytesOf 10 0

/-- WAITING (R276). -/
def waitingBits (u : CoreUnit) : Nat := u.log.foldl (fun n e => if e.2.waiting && e.1 < 64 then n + 2 ^ e.1 else n) 0

def coreReg (u : CoreUnit) (off : Nat) : Nat :=
  if off == 0 then waitingBits u
  else if 0x1000 ≤ off && off < 0x2000 then
    match tabGet u.log ((off - 0x1000) / 64) with
    | some e => natOfBytes (((logBytes e).drop (off % 64)).take 8)
    | none => 0
  else 0

def fieldStateCode : FieldState → Nat
  | .online => 0 | .draining => 1 | .drainBlocked => 2 | .offline => 3 | .dead => 4

def fieldReg (u : FieldUnit) (off : Nat) : Nat :=
  if off == 0 then fieldStateCode u.state
  else if off == 0x10 then boolNat u.spare
  else if off == 0x18 then boolNat u.noRoom
  else 0

/-! ## Optics registers (R321) -/

/-- The key of a bundle. -/
def bundleKey (fibre bundle : Nat) : Nat := 8 * fibre + bundle
def bundleAt (s : State) (k : Nat) : Bundle := (tabGet s.optics k).getD Bundle.reset
def updBundle (s : State) (k : Nat) (f : Bundle → Bundle) : State := { s with optics := tabPut s.optics k (f (bundleAt s k)) }

/-- Flits queued whose first bit is not on the fibre (R331). -/
def Bundle.depth (b : Bundle) : Nat := b.queued.length

def bundleReg (b : Bundle) (o : Nat) : Nat :=
  if o == 0 then b.req.toNat
  else if o == 8 then b.state * 2 ^ 24 + b.fail.toNat * 2 ^ 16 + b.lock.toNat * 2 ^ 8 + b.act.toNat
  else if o == 0x10 then b.depth % 2 ^ 13
  else if o == 0x18 then boolNat b.even * 2 ^ 16 + b.thresh.toNat
  else if 0x40 ≤ o && o < 0x80 then
    let w := (o - 0x40) / 8
    boolNat (b.auto.getLsbD w) * 2 ^ 32 + (b.mon.getD w 0).toNat * 2 ^ 16 + (b.heat.getD w 0).toNat
  else 0

/-- The I/O event of a bundle stands (R330). -/
def bundleEvent (b : Bundle) : Bool := (b.even && b.thresh.toNat ≤ b.depth) || b.state == 3

/-! ## Module registers -/

def evictCode : Evict → Nat
  | .idle => 0 | .quiescing => 1 | .transferring => 2 | .draining => 3 | .released => 4 | .failed => 5

/-- Ports with a circuit up (R327). -/
def circuits (s : State) : Nat := (s.ports.filter fun p => p.2.circuit.isSome).length

def apertureBits (a : Aperture) : Nat :=
  boolNat a.v * 2 ^ 31 + boolNat a.lost * 2 ^ 30 + boolNat a.keep * 2 ^ 29 + boolNat a.atom * 2 ^ 28 + a.module.toNat

/-- A word of a range entry (R315). -/
def rangeBits (r : Range) (second : Bool) : Nat :=
  if second then r.last.toNat * 2 ^ 12
  else r.base.toNat * 2 ^ 12 + boolNat r.v * 8 + boolNat r.a * 4 + boolNat r.w * 2 + boolNat r.rd

def rangeAt (t : Tab Range) (k : Nat) : Range := (tabGet t k).getD Range.reset

/-- A word of a client entry (R320). -/
def clientBits (c : Client) (word : Nat) : Nat :=
  if word == 0 then c.job.toNat * 2 ^ 32 + c.ports.toNat * 2 ^ 16 + boolNat c.db * 2 + boolNat c.v
  else if word == 1 then c.src.toNat % 2 ^ 64
  else if word == 2 then c.src.toNat / 2 ^ 64
  else 0

def suspectBits (m : ModuleUnit) : Nat :=
  match m.suspect with
  | some (o, r, l) => 2 ^ 63 + o * 2 ^ 48 + r * 2 ^ 32 + l % 2 ^ 32
  | none => 0

/-- The checkpoint-due register (R303). -/
def dueBits (m : ModuleUnit) : Nat :=
  match m.due with
  | (g, c) :: _ => 2 ^ 63 + c * 2 ^ 12 + g
  | [] => 0

/-- The energy-table entries of a register (R299). -/
def energyBits (m : ModuleUnit) (i : Nat) : Nat :=
  (List.range 4).foldl (fun n j => n + ((tabGet m.energyTab (4 * i + j)).getD 0).toNat * 2 ^ (16 * j)) 0

def archEnBits (m : ModuleUnit) (i : Nat) : Nat :=
  match tabGet m.archEn i with
  | some (en, q) => boolNat en * 2 ^ 32 + q.toNat
  | none => 0

def allowBits (m : ModuleUnit) : Nat := (m.allow.toList.zipIdx.map fun p => p.1 * 2 ^ (3 * p.2)).sum

/-- The module unit's registers below 0x400. -/
def moduleLow (s : State) (off : Nat) : Nat :=
  let m := s.mod
  match off with
  | 0x000 => m.wdPeriod.toNat
  | 0x008 => m.rbase.toNat * 2 ^ 7 + m.rk.toNat
  | 0x010 => m.rd.toNat * 2 ^ 32 + m.wr.toNat
  | 0x100 => m.rate.toNat
  | 0x108 => m.abuf.toNat * 2 ^ 12
  | 0x110 => m.asize.toNat
  | 0x118 => m.mismatch.toNat * 2 ^ 48 + m.skipped.toNat * 2 ^ 24 + m.sampled.toNat
  | 0x120 => suspectBits m
  | 0x280 => m.archBase.toNat * 2 ^ 12
  | 0x288 => m.part.toNat
  | 0x290 => m.period.toNat
  | 0x298 => dueBits m
  | 0x300 => allowBits m
  | 0x310 => m.capStep
  | 0x380 => m.evTarget.toNat
  | 0x388 => circuits s * 2 ^ 16 + boolNat m.lrp * 2 ^ 4 + evictCode m.evict
  | _ => if 0x200 ≤ off && off < 0x280 then archEnBits m ((off - 0x200) / 8) else 0

def moduleReg (s : State) (off : Nat) : Nat :=
  let m := s.mod
  if off < 0x400 then moduleLow s off
  else if off < 0x600 then (if off == 0x400 then 0 else apertureBits ((tabGet m.apertures ((off - 0x400) / 8)).getD Aperture.reset))
  else if 0x1000 ≤ off && off < 0x1400 then energyBits m ((off - 0x1000) / 8)
  else if 0x2000 ≤ off && off < 0x4000 then
    (if fieldExists ((off - 0x2000) / 128) then (quadAt s ((off - 0x2000) / 8)).budget.toNat else 0)
  else if 0x4000 ≤ off && off < 0x8000 then rangeBits (rangeAt m.ranges ((off - 0x4000) / 16)) (off % 16 == 8)
  else if 0x8000 ≤ off && off < 0xA000 then
    clientBits ((tabGet m.clients ((off - 0x8000) / 32)).getD Client.reset) (off % 32 / 8)
  else if off == 0xA000 then m.refused.toNat
  else if 0x10000 ≤ off && off < 0x20000 then rangeBits (rangeAt m.clientRanges ((off - 0x10000) / 16)) (off % 16 == 8)
  else 0

/-- A register of 64 bits as LDIO reads it (R289): reserved offsets read 0. -/
def ioRead64 (s : State) (u : IoUnit) (off : Nat) : Nat :=
  match u with
  | .core g => coreReg (coreAt s g) off
  | .field f => fieldReg (fieldAt s f) off
  | .optics f => if off / 0x1000 < 8 then bundleReg (bundleAt s (bundleKey f (off / 0x1000))) (off % 0x1000) else 0
  | .module => moduleReg s off
  | .hbm _ | .management => 0

/-- The value that an LDIO of a width gets. -/
def ioValue (s : State) (a : Word64) (wide : Bool) : Word64 :=
  match ioUnitOf a with
  | none => 0
  | some u =>
    let v := ioRead64 s u (ioReg a)
    BitVec.ofNat 64 (if wide then v else if ioOffset a % 8 == 4 then v / 2 ^ 32 else v % 2 ^ 32)

/-! ## Plain writes -/

/-- What a write of a width carries for its register of 64 bits: the value in place, and the written bits. -/
def ioLanes (a : Word64) (wide : Bool) (v : Word64) : Nat × Nat :=
  if wide then (v.toNat, 2 ^ 64 - 1)
  else if ioOffset a % 8 == 4 then (v.toNat % 2 ^ 32 * 2 ^ 32, (2 ^ 32 - 1) * 2 ^ 32)
  else (v.toNat % 2 ^ 32, 2 ^ 32 - 1)

/-- A register's value after a write: written bits replace the old ones. -/
def ioMerge (old : Nat) (l : Nat × Nat) : Nat := (old &&& (2 ^ 64 - 1 - l.2)) ||| (l.1 &&& l.2)

def apertureOf (n : Nat) : Aperture :=
  { v := natBit n 31, lost := natBit n 30, keep := natBit n 29, atom := natBit n 28, module := BitVec.ofNat 6 n }

/-- A range entry after one of its words is written; `client` entries have no A bit (R320). -/
def rangeWith (r : Range) (second client : Bool) (n : Nat) : Range :=
  if second then { r with last := BitVec.ofNat 36 (natBits n 12 36) }
  else { r with base := BitVec.ofNat 36 (natBits n 12 36), v := natBit n 3, a := natBit n 2 && !client, w := natBit n 1,
                rd := natBit n 0 }

def clientWith (c : Client) (word n : Nat) : Client :=
  if word == 0 then
    { c with job := BitVec.ofNat 24 (natBits n 32 24), ports := BitVec.ofNat 8 (natBits n 16 8), db := natBit n 1, v := natBit n 0 }
  else if word == 1 then { c with src := BitVec.ofNat 128 (c.src.toNat / 2 ^ 64 * 2 ^ 64 + n) }
  else if word == 2 then { c with src := BitVec.ofNat 128 (n * 2 ^ 64 + c.src.toNat % 2 ^ 64) }
  else c

def allowOfBits (n : Nat) : Vector Nat 8 := Vector.ofFn fun (i : Fin 8) => natBits n (3 * i.val) 3

/-- Plain writes of the module unit below 0x400; `n` is the register after the merge. Read-only fields keep their values, and the
write-only ones act through steps of their own. -/
def moduleLowWith (m : ModuleUnit) (off n : Nat) : ModuleUnit :=
  match off with
  | 0x000 => { m with wdPeriod := BitVec.ofNat 32 n }
  | 0x008 => { m with rbase := BitVec.ofNat 41 (natBits n 7 41), rk := BitVec.ofNat 4 n }
  | 0x010 => { m with rd := BitVec.ofNat 32 (n / 2 ^ 32) }
  | 0x100 => { m with rate := BitVec.ofNat 4 n }
  | 0x108 => { m with abuf := BitVec.ofNat 52 (n / 2 ^ 12) }
  | 0x110 => { m with asize := BitVec.ofNat 32 n }
  | 0x280 => { m with archBase := BitVec.ofNat 52 (n / 2 ^ 12) }
  | 0x288 => { m with part := BitVec.ofNat 32 n }
  | 0x290 => { m with period := BitVec.ofNat 32 n }
  | 0x300 => { m with allow := allowOfBits n }
  | 0x310 => { m with capStep := n % 8 }
  | 0x380 => { m with evTarget := BitVec.ofNat 6 n }
  | _ => if 0x200 ≤ off && off < 0x280 then
      { m with archEn := tabPut m.archEn ((off - 0x200) / 8) (natBit n 32, BitVec.ofNat 32 n) }
    else m

def energyWith (t : Tab (BitVec 16)) (i n : Nat) : Tab (BitVec 16) :=
  (List.range 4).foldl (fun t j => tabPut t (4 * i + j) (BitVec.ofNat 16 (n / 2 ^ (16 * j)))) t

/-- A plain write of a module register (R289). -/
def moduleWrite (s : State) (off n : Nat) : State :=
  if off < 0x400 then updMod s fun m => moduleLowWith m off n
  else if off < 0x600 then
    (if off == 0x400 then s else updMod s fun m => { m with apertures := tabPut m.apertures ((off - 0x400) / 8) (apertureOf n) })
  else if 0x1000 ≤ off && off < 0x1400 then updMod s fun m => { m with energyTab := energyWith m.energyTab ((off - 0x1000) / 8) n }
  else if 0x2000 ≤ off && off < 0x4000 then
    (if fieldExists ((off - 0x2000) / 128) then updQuad s ((off - 0x2000) / 8) fun q => { q with budget := BitVec.ofNat 32 n } else s)
  else if 0x4000 ≤ off && off < 0x8000 then
    updMod s fun m =>
      let k := (off - 0x4000) / 16
      { m with ranges := tabPut m.ranges k (rangeWith (rangeAt m.ranges k) (off % 16 == 8) false n) }
  else if 0x8000 ≤ off && off < 0xA000 then
    updMod s fun m =>
      let k := (off - 0x8000) / 32
      { m with clients := tabPut m.clients k (clientWith ((tabGet m.clients k).getD Client.reset) (off % 32 / 8) n) }
  else if 0x10000 ≤ off && off < 0x20000 then
    updMod s fun m =>
      let k := (off - 0x10000) / 16
      { m with clientRanges := tabPut m.clientRanges k (rangeWith (rangeAt m.clientRanges k) (off % 16 == 8) true n) }
  else s

/-- A write without behaviour of its own (R289); reserved offsets ignore it. `l` is the value in place and the written bits. -/
def plainWrite (s : State) (u : IoUnit) (off : Nat) (l : Nat × Nat) : State :=
  match u with
  | .core g => if off == 0x10 && natBit l.2 0 then updCore s g fun c => { c with stopName := l.1 % 2 ^ 20 } else s
  | .field f => if off == 0x10 then updField s f fun u => { u with spare := natBit (ioMerge (boolNat u.spare) l) 0 } else s
  | .module => moduleWrite s off (ioMerge (moduleReg s off) l)
  | .optics _ | .hbm _ | .management => s

/-! ## LDIO and STIO (R289) -/

/-- The checks of an I/O address: misaligned, or no unit. -/
def ioFault (a : Word64) (wide : Bool) : Option (Nat × Nat) :=
  if ioOffset a % (if wide then 8 else 4) != 0 then some (0x05, 0)
  else if (ioUnitOf a).isNone then some (0x06, 1)
  else none

/-- The check that a privileged instruction makes, whatever its guard says (R55, R284), and then those of its operands. -/
def needsPrivilege (s : State) (m : Member) (r : Option Nat) : Option Nat := if privileged s m then r else some 0x02

/-- The first check that fails among sources and a destination. -/
def firstFault (l : List (Option Nat)) : Option Nat := l.findSome? id

/-- An I/O access at issue. -/
def ioAccess (s : State) (k : Cur) (m : Member) (kind : AccKind) (a : Word64) (tok : Nat) (d : Dst) (v : Word64) : State :=
  match kind, ioFault a (match kind with | .ioRead w | .ioWrite w => w | _ => false) with
  | _, some (c, x) => trap s k c x a
  | _, none =>
    issueAcc s k { draftAccess s k m kind .plain .core .default tok with addr := a, dest := d, data := v, size := 8 }

/-- LDIO (R289). -/
def execLdio (c : Common) (d : Dst) (a : Src) (wide : Bool) (tok : BitVec 3) (st : State) : Result :=
  runForm st c (fun m => needsPrivilege st m (firstFault [srcFault m .w64 a, dstFault m wide d])) [(.w64, a)] (fun _ _ => st)
    fun k m vs =>
    match vs with
    | [x] => ioAccess st k m (.ioRead wide) x tok.toNat d 0
    | _ => st

/-- STIO (R289). -/
def execStio (c : Common) (a b : Src) (wide : Bool) (tok : BitVec 3) (st : State) : Result :=
  runForm st c (fun m => needsPrivilege st m (firstFault [srcFault m .w64 a, srcFault m (tyOf wide) b]))
    [(.w64, a), (tyOf wide, b)] (fun _ _ => st) fun k m vs =>
    match vs with
    | [x, y] => ioAccess st k m (.ioWrite wide) x tok.toNat .none y
    | _ => st

/-! ## Performing them -/

/-- Whether an I/O access may be performed: in program order among those of its context, and after what fences put before it (R289). -/
def ioReady (s : State) (id : Nat) (a : Access) : Bool := a.phase == .issued && orderPasses s id a

/-- The unit, register and lanes of a write that waits. -/
def ioWriteOf (s : State) (id : Nat) : Option (Access × IoUnit × Nat × Nat × Nat) :=
  match tabGet s.accs id with
  | none => none
  | some a =>
    match a.kind, ioUnitOf a.addr with
    | .ioWrite wide, some u =>
      if ioReady s id a then
        let l := ioLanes a.addr wide a.data
        some (a, u, ioReg a.addr, l.1, l.2)
      else none
    | _, _ => none

/-- A step that performs a write of a register with behaviour of its own: `act` gives the effect where the write is of that kind. -/
def ioStep (s : State) (id : Nat) (act : IoUnit → Nat → Nat × Nat → Option State) : Result :=
  match ioWriteOf s id with
  | none => .next s
  | some (_, u, off, v, w) =>
    match act u off (v, w) with
    | some s1 => .next (completeAcc s1 id)
    | none => .next s

/-- Whether a write acts through a step of its own (R182, R276, R300, R312, R316, R321, R322, R327). -/
def actsItself (u : IoUnit) (off : Nat) (l : Nat × Nat) : Bool :=
  match u with
  | .core _ => (off == 8 && natBit l.2 0 && natBits l.1 6 2 != 3) || (off == 0x18 && natBit l.2 0 && natBits l.1 0 2 != 3)
  | .field _ => off == 8 && natBit l.2 0 && natBits l.1 0 2 != 0
  | .optics _ => off / 0x1000 < 8 && (off % 0x1000 == 0 || off % 0x1000 == 0x18 || (0x40 ≤ off % 0x1000 && off % 0x1000 < 0x80))
  | .module => (off == 0x120 && natBit (l.1 &&& l.2) 63) || (off == 0x380 && natBits (l.1 &&& l.2) 8 2 != 0) || off == 0x388 ||
      (0x4000 ≤ off && off < 0x8000)
  | .hbm _ | .management => false

/-- IO_REGISTER_WRITE (R289): a write without behaviour of its own updates its field. -/
def execIoRegisterWrite (a : Nat) (st : State) : Result :=
  ioStep st a fun u off l => if actsItself u off l then none else some (plainWrite st u off l)

/-- RANGE_ENTRY_WRITE (R316): the write takes effect between the requests checked before it and those checked after it. -/
def execRangeEntryWrite (a : Nat) (st : State) : Result :=
  ioStep st a fun u off l =>
    if u == .module && 0x4000 ≤ off && off < 0x8000 then some (plainWrite st u off l) else none

/-- APPRAISER_SUSPECT_CLEAR (R300, R302): writing 1 to V clears the suspect and lifts every quarantine. DESIGN CHOICE (log 62): ORIG, REPL
and LAUNCH then read 0 with it. -/
def execAppraiserSuspectClear (a : Nat) (st : State) : Result :=
  ioStep st a fun u off l =>
    if u == .module && off == 0x120 && natBit (l.1 &&& l.2) 63 then
      let s1 : State := { st with cores := st.cores.map fun e => (e.1, { e.2 with quarantined := false }) }
      some (updMod s1 fun m => { m with suspect := none })
    else none

/-- CHECKPOINT_DUE_POP (R303): a read of the checkpoint-due register pops its entry. -/
def execCheckpointDuePop (a : Nat) (st : State) : Result :=
  match tabGet st.accs a with
  | none => .next st
  | some x =>
    match x.kind with
    | .ioRead wide =>
      if ioUnitOf x.addr == some .module && ioReg x.addr == 0x298 && ioReady st a x then
        let s1 := updAcc st a fun y => { y with value := ioValue st x.addr wide }
        .next (completeAcc (updMod s1 fun m => { m with due := m.due.drop 1 }) a)
      else .next st
    | _ => .next st

/-- LOAD_COMPLETE: a load is performed, or its value arrives (R186, R240): the stamp that came with it is merged, the register is
written and the token counts down. An LDIO reads its register (R289). -/
def execLoadComplete (a : Nat) (st : State) : Result :=
  match tabGet st.accs a with
  | none => .next st
  | some x =>
    match x.kind with
    | .load | .vld =>
      if x.phase == .returning then .next (completeReturned st a)
      else performEvent st a fun _ => true
    | .ioRead wide =>
      if ioReady st a x && !(ioUnitOf x.addr == some .module && ioReg x.addr == 0x298) then
        .next (completeAcc (updAcc st a fun y => { y with value := ioValue st x.addr wide }) a)
      else .next st
    | _ => .next st

end Sys2Proof.Machine
end

