-- ==== Sys2Proof/Machine/Service.lean ====
section
/-!
DEFINITION. The system instructions of R285 to R288, R291 and R325, and the service of faults: accesses that fail after their issue
(R270), the operand log's dispositions (R182, R276), stopped members (R276, R281), the record ring (R283), and shoot-downs (R180).
-/
namespace Sys2Proof.Machine

/-! ## Faults after issue (R270, R275) -/

/-- The asynchronous fault of an access. -/
def accFault (a : Access) (cause detail : Nat) (addr : Word64) : FaultInfo :=
  { cause := cause, detail := detail, word := a.word, addr := addr, fetchStage := false, async := true, slot := a.slot,
    from_ := none }

/-- A member that waits in the SWAIT of an access goes on behind it once the access is abandoned (R276). -/
def releaseSwait (s : State) (id : Nat) (a : Access) : State :=
  match memberAt s a.member with
  | some m => if m.wait == .swait id then passSlot s a.member else s
  | none => s

/-- An access is given up: it is not performed and its token clears (R270, R276). -/
def dropAccess (s : State) (id : Nat) (a : Access) : State := releaseSwait (abandonAcc s id) id a

/-- The accesses of the instruction of an access: the words of a VLD count as one (R192). -/
def accGroup (s : State) (id : Nat) (a : Access) : List (Nat × Access) :=
  if a.kind == .vld then s.accs.filter fun e => e.2.kind == .vld && e.2.member == a.member && e.2.hops == a.hops
  else [(id, a)]

/-- An access that had issued takes an operand-log entry (R180, R275); its companions wait with it. None where no entry is free. -/
def logIssued (s : State) (id : Nat) (a : Access) (held cause detail own : Nat) (addr : Word64) : Option State :=
  match memberAt s a.member with
  | none => none
  | some m =>
    let i := firstFree (coreAt s a.core).log Config.logDepth 0
    if i ≥ Config.logDepth then none
    else
      let fi := { accFault a cause detail addr with async := false }
      let b := { a with heldCause := held, addr := if a.kind == .vld then a.addr else addr }
      let s1 := sendRecord s (faultRecord s m fi cause detail)
      let s2 := updCore s1 a.core fun u => { u with log := tabPut u.log i (logEntryOf s m id { b with addr := addr } own) }
      some ((accGroup s id a).foldl (fun t e => updAcc t e.1 fun x => { x with phase := .logged, fetched := none })
        (updAcc s2 id fun _ => b))

/-- A PREF is dropped by what would fail another access (R191). -/
def dropPref (s : State) (id : Nat) (a : Access) : State := finishAcc (retireAcc s a) id

/-- A delivered fault of an access that had issued (R270, R275): routed, it takes an operand-log entry; otherwise the fault is
asynchronous and the access is given up. -/
def failIssued (s : State) (id cause detail : Nat) (addr : Word64) : State :=
  let (id, s) := blamed s id
  match tabGet s.accs id with
  | none => s
  | some a =>
    if a.kind == .pref then dropPref s id a else
    let plain := queueFault (dropAccess s id a) a.member (accFault a cause detail addr)
    match memberAt s a.member with
    | none => dropAccess s id a
    | some m =>
      if !m.trapMode && isRouted s m cause then (logIssued s id a (0x80 + cause) 0x26 cause detail addr).getD plain else plain

/-- ASYNC_FAULT_TAKE (R270): a member at a clause boundary takes its oldest asynchronous fault; the delivery clears the token of a failed
command (R212). -/
def execAsyncFaultTake (m : Nat) (st : State) : Result :=
  match memberAt st m with
  | none => .next st
  | some v =>
    match v.async with
    | [] => .next st
    | fi :: rest =>
      if v.wait != .ready || v.slot != 0 || !seated v || inGroup st m v.core ||
          ((ctxAt st v.launch v.core).map fun c => c.switching || c.isOut).getD true then .next st
      else
        let s0 := updMember st m fun w => { w with async := rest }
        let s1 := match fi.tok with | some t => clearFaultTok s0 m fi.word t | none => s0
        let f := { fi with slot := 0 }
        .next (if fi.direct then deliverEntry s1 m f else takeFault s1 m f)

/-! ## TRAP, SVC, ERET (R285, R286) -/

/-- TRAP (R285). -/
def execTrap (c : Common) (imm : Word) (st : State) : Result :=
  controlInstr st c (fun _ => none) fun k _ => trap st k 0x0E imm.toNat

/-- SVC at issue (R285): FENCE.AR at `.module`; the member waits. -/
def execSvc (c : Common) (imm : Word) (st : State) : Result :=
  controlInstr st c (fun _ => none) fun k _ =>
    leaveGroup (fence st k.member true true .module none false) k.member k.slot (.svc imm false)

/-- The SvcRequest record (R283, R285; log 34): g0 to g3 in GSAVE, g4 and g5 behind WHO. -/
def svcRecord (s : State) (m : Member) (n : Word) : Record :=
  { faultRecord s m (slotFault s m 0x25 n.toNat 0) 0x25 n.toNat with extra := m.r.getG 5 ++ m.r.getG 4 }

/-- Whether no FENCE.AR of a member without a token is open, nor a release that waits for sequences: that of its SVC is over (R257, R259,
R285). -/
def svcFenceOver (m : Member) : Bool := !m.fences.any fun f => f.rel && f.tok.isNone && (f.acq || !f.need.isEmpty)

/-- The effects of the services defined for the device (R285, R347): the new state and g0. -/
def deviceService (s : State) (m : Member) (n : Nat) : State × Word :=
  let g0 := m.r.getG 0
  if n == 1 then
    if g0 == 0xFFFFFFFF || ((ctxAt s m.launch m.core).map fun c => codeInside c g0.toNat).getD false then
      (updCtx s m.launch m.core fun c => { c with trapEntry := g0 }, 0)
    else (s, 1)
  else if n == 2 then (updCtx s m.launch m.core fun c => { c with route := (g0.extractLsb' 0 16) &&& 0x7FFE }, 0)
  else (s, 0xFFFFFFFF)

/-- The registers that Sernus writes for its own services: `vals` are g0 to g5, as many as it writes. -/
def writeService (s : State) (id : Nat) (vals : List Word) : State :=
  (vals.take 6).zipIdx.foldl (fun t p => writeG t id (BitVec.ofNat 6 p.2) p.1) s

/-- SVC_COMPLETE (R285): when the fence is over, Sernus receives the request; when the service is done, the registers are written and
the member goes on behind a second FENCE.AR. -/
def execSvcComplete (m : Nat) (vals : List Word) (st : State) : Result :=
  match memberAt st m with
  | none => .next st
  | some v =>
    match v.wait with
    | .svc n sent =>
      if !seated v || !svcFenceOver v then .next st
      else if !sent then
        .next (sendRecord (updMember st m fun w => { w with wait := .svc n true }) (svcRecord st v n))
      else
        let s1 := if n.toNat < 0x100 then
            let (t, g0) := deviceService st v n.toNat
            writeG t m 0 g0
          else writeService st m vals
        .next (passSlot (fence (retireAs s1 m 11 1) m true true .module none false) m)
    | _ => .next st

/-- ERET (R286, R292): the member drains and then returns from its trap. -/
def execEret (c : Common) (st : State) : Result :=
  controlInstr st c (fun m => if m.trapMode || privileged st m then none else some 0x02) fun k m =>
    if !m.trapMode then trap st k 0x01 k.slot
    else
      let s1 := retireAs (leaveGroup st k.member k.slot (.drain .eret)) k.member 11 1
      if drained m then returnFromTrap s1 k.member else s1

/-! ## SEGSET, SEGGET (R287) -/

/-- A descriptor in a block of four registers, first register lowest. -/
def descOf (l : List Word) : DescBits := BitVec.ofNat 128 (l.foldr (fun w n => w.toNat + 2 ^ 32 * n) 0)

/-- Clauses of a context on a core are fetched anew: its code lies elsewhere now (R287). -/
def refetchCode (s : State) (launch core : Nat) : State :=
  updCore s core fun u => { u with clauses := u.clauses.filter fun e => e.launch != launch }

/-- SEGSET (R287). -/
def execSegset (c : Common) (n : BitVec 3) (r : BitVec 6) (st : State) : Result :=
  runForm st c (fun m => needsPrivilege st m none) [] (fun _ _ => st) fun k m _ =>
    let d := descOf (m.r.block r 4)
    if !Desc.legal n.toNat d then trap st k 0x01 k.slot
    else
      let s1 := updCtx st m.launch m.core fun x => { x with desc := x.desc.set (n.toNat % 6) d (Nat.mod_lt _ (by decide)) }
      if n.toNat ≥ 4 then refetchCode s1 m.launch m.core else s1

/-- SEGGET (R287). -/
def execSegget (c : Common) (n : BitVec 3) (r : BitVec 6) (st : State) : Result :=
  runForm st c (fun m => needsPrivilege st m none) [] (fun _ _ => st) fun k m _ =>
    let d := ((ctxAt st m.launch m.core).map fun x => x.desc.toList.getD n.toNat 0).getD 0
    (List.range 4).foldl (fun s i => writeG s k.member (r + BitVec.ofNat 6 i) (d.extractLsb' (32 * i) 32)) st

/-! ## TLBINV (R180, R288) -/

/-- A walk begins again from the tables as they stand, tagged with the present sequence number (R180). -/
def restartWalk (s : State) (core : Nat) (w : Walk) : Walk :=
  match walkTables s (isService core) w.root w.va with
  | .leaf e bits =>
    { w with tag := s.mod.shootSeq,
             entry := if Pte.a e then some { va := w.va / 2 ^ bits * 2 ^ bits, bits := bits, asn := w.asn, leaf := BitVec.ofNat 64 e }
               else none }
  | _ => { w with tag := s.mod.shootSeq, entry := none }

/-- Whether code of a context lies in VIRT (R347). -/
def codeInVirt (s : State) (launch core : Nat) : Bool :=
  ((ctxAt s launch core).map fun c => Desc.space (c.desc.toList.getD 5 0) == 4).getD false

/-- Clauses that were fetched through a TLB are fetched through it anew. -/
def refetchVirt (s : State) (core : Nat) : State :=
  updCore s core fun u => { u with clauses := u.clauses.filter fun e => !codeInVirt s e.launch core }

/-- The entries that TLBINV matches (R288). -/
def tlbinvHits (form : TlbinvForm) (va asn : Nat) (t : TlbEntry) : Bool :=
  match form with
  | .addr => va / 2 ^ t.bits == t.va / 2 ^ t.bits && (t.asn == asn || Pte.g t.leaf.toNat)
  | .asn => t.asn == asn && !Pte.g t.leaf.toNat
  | .all => true

/-- TLBINV (R288). -/
def execTlbinv (c : Common) (form : TlbinvForm) (a b : Src) (st : State) : Result :=
  runForm st c (fun m => needsPrivilege st m (firstFault [srcFault m .w64 a, srcFault m .w32 b])) [(.w64, a), (.w32, b)]
    (fun _ _ => st) fun _ m vs =>
    match vs with
    | [x, y] =>
      let hit := tlbinvHits form (x.toNat % 2 ^ 60) (y.toNat % 2 ^ 16)
      refetchVirt (updCore st m.core fun u =>
        { u with tlb := u.tlb.filter fun t => !hit t
                 ahead := u.ahead.filter fun t => !hit t
                 walks := u.walks.map fun w => (w.1, restartWalk st m.core w.2) }) m.core
    | _ => st

/-! ## SHOOT (R180, R288) -/

/-- Whether a shoot-down covers a run of 2^`bits` addresses under an ASN. -/
def Shoot.covers (x : Shoot) (va bits asn : Nat) (global : Bool) : Bool :=
  (x.all || (x.asn == asn && !global)) && (x.pages == 0 || runsMeet va (2 ^ bits) x.lo (4096 * x.pages))

def Shoot.coversEntry (x : Shoot) (t : TlbEntry) : Bool := x.covers t.va t.bits t.asn (Pte.g t.leaf.toNat)

/-- SHOOT at issue: its number, and its release (R288). -/
def execShoot (c : Common) (d : Dst) (a b e : Src) (g : Bool) (tok : BitVec 3) (st : State) : Result :=
  runForm st c
    (fun m => needsPrivilege st m (firstFault [srcFault m .w64 a, srcFault m .w32 b, srcFault m .w32 e, dstFault m false d]))
    [(.w64, a), (.w32, b), (.w32, e)] (fun _ _ => st) fun k m vs =>
    match vs with
    | [x, y, z] =>
      if tokCount m tok.toNat ≥ Config.tokenMax then holdGroup st
      else
        let seq := (st.mod.shootSeq + 1) % 2 ^ 32
        let w := (fenceSet st k.member .module).map (·.1)
        let sh : Shoot :=
          { seq := seq, lo := x.toNat % 2 ^ 60 / 4096 * 4096, pages := (lo32 y).toNat, asn := z.toNat % 2 ^ 16, all := g,
            member := k.member, tok := tok.toNat, waits := w, started := false }
        let s1 := fence st k.member true false .module none false
        let s2 := updMod s1 fun u => { u with shootSeq := seq, shoots := u.shoots ++ [sh] }
        result (tokInc s2 k.member tok.toNat) k c d false (ext (BitVec.ofNat 32 seq))
    | _ => st

/-- What an access needs, by kind (R172, R200). -/
def AccKind.need : AccKind → Need
  | .load | .vld | .pref => Need.load
  | .store | .engineWrite .. => Need.store
  | .swait => Need.swait
  | _ => Need.atom

/-- What the checks of an access find when they are made again (R182): the access with its place, a held cause, or a failure. -/
inductive Again
  | ok (a : Access)
  | held (c : Nat) (addr : Word64)
  | bad (cause detail : Nat) (addr : Word64)
deriving DecidableEq, Repr

/-- The address of a target. -/
def Target.pa : Target → Nat
  | .loc p => p
  | .peer _ p => p

def Target.at (t : Target) (p : Nat) : Target :=
  match t with
  | .loc _ => .loc p
  | .peer ap _ => .peer ap p

/-- The checks of one run made again, under the descriptors that the access keeps (R182, R287). -/
def againAt (s : State) (a : Access) (addr : Word64) (size : Nat) : Tr × State :=
  resolveIn s a.descs a.core (homeOf s a.member a.core) false a.kind.need addr size

/-- The policy that an access's instruction names (R70, R178). -/
def wordPolicy (a : Access) : Policy := Policy.ofCode (f2 a.word 19)

/-- The checks of an access made again; a KCAS2 that was held checks both of its words (R196). -/
def again (s : State) (a : Access) : Again × State :=
  if a.size == 0 then (.ok { a with phase := .performed }, s)
  else if a.kind == .kcas2 && a.phase == .logged && a.value2 != 0 then
    match againAt s a a.value 4 with
    | (.held c, s1) => (.held c a.value, s1)
    | (.bad x d, s1) => (.bad x d a.value, s1)
    | (.ok r0, s1) =>
      match againAt s1 a a.value2 4 with
      | (.held c, s2) => (.held c a.value2, s2)
      | (.bad x d, s2) => (.bad x d a.value2, s2)
      | (.ok r1, s2) =>
        let lo := min r0.tgt.pa r1.tgt.pa
        (.ok { a with tgt := r0.tgt.at lo, attr := r0.attr, pol := policyOf (wordPolicy a) r0.pol, size := max r0.tgt.pa r1.tgt.pa + 4 - lo,
                      param := (r0.tgt.pa - lo) * 256 + (r1.tgt.pa - lo), value := 0, value2 := 0, phase := .issued }, s2)
  else
    match againAt s a a.addr (if a.kind == .kcas2 then 4 else a.size) with
    | (.held c, s1) => (.held c a.addr, s1)
    | (.bad x d, s1) => (.bad x d a.addr, s1)
    | (.ok r, s1) =>
      let back := if a.kind == .kcas2 then a.param / 256 else 0
      (.ok { a with tgt := r.tgt.at (r.tgt.pa - back), attr := r.attr, pol := policyOf (wordPolicy a) r.pol, phase := .issued }, s1)

/-- Whether a shoot-down covers an address of VIRT that an access uses: its own bytes, or an entry or walk of its core, or for a node an
entry of a keeper, through which it may have been translated. -/
def Shoot.coversAddr (s : State) (x : Shoot) (a : Access) (addr : Word64) : Bool :=
  let va := addr.toNat % 2 ^ 60
  let asn := Desc.asn (a.descs.toList.getD 4 0)
  let u := coreAt s a.core
  let by_ (t : TlbEntry) : Bool := x.coversEntry t && t.hits asn va
  addr.toNat / 2 ^ 60 == 4 &&
  (x.covers va 8 asn false || u.tlb.any by_ || u.ahead.any by_ || (u.walks.any fun w => w.2.entry.any by_) ||
    ((a.kind.isNode || a.kind == .kenq) && s.keepers.any fun k => k.2.any by_))

/-- Whether a shoot-down covers an access: its element, or the nodes that a KENQ has still to write (R180, R195). -/
def Shoot.coversAccess (s : State) (x : Shoot) (a : Access) : Bool :=
  x.coversAddr s a a.addr ||
  (a.kind == .kenq && a.phase == .spreading && (x.coversAddr s a a.data || x.coversAddr s a a.value))

/-- The accesses that were translated through an entry that a shoot-down covers and are not performed. -/
def shootAccs (s : State) (x : Shoot) : List (Nat × Access) :=
  s.accs.filter fun e =>
    !e.2.performed && e.2.phase != .logged && e.2.phase != .registered && !e.2.kind.isIo && x.coversAccess s e.2

/-- Accesses that a shoot-down lets be performed: those under way, those of keepers, and those of units without a member's position. -/
def Access.underWay (a : Access) : Bool :=
  a.phase != .issued ||
  match a.kind with | .engineWrite .. | .advance _ | .completion _ | .nodeStore _ | .nodeRead _ => true | _ => false

/-- An access is sent back for translation (R180); one that is held and finds no entry of the operand log waits for it in translation. -/
def retranslate (s : State) (id : Nat) : State :=
  match tabGet s.accs id with
  | none => s
  | some a =>
    if a.underWay then s
    else
      match again s a with
      | (.ok b, s1) => updAcc s1 id fun _ => { b with stale := false }
      | (.held c addr, s1) =>
        if a.kind == .pref then dropPref s1 id a
        else (logIssued s1 id { a with stale := false } c (c + 0x0F) c 0 addr).getD (updAcc s1 id fun y => { y with stale := true })
      | (.bad x d addr, s1) => failIssued s1 id x d addr

/-- Accesses that wait in translation are translated again. -/
def retranslateStale (s : State) : State := (s.accs.filter fun e => e.2.stale).foldl (fun t e => retranslate t e.1) s

/-- Every TLB of the module drops what a shoot-down covers, and covered walks begin again (R180, R195). -/
def dropCovered (s : State) (x : Shoot) : State :=
  let keep (l : List TlbEntry) : List TlbEntry := l.filter fun t => !x.coversEntry t
  let s1 : State := { s with
    keepers := s.keepers.map fun e => (e.1, keep e.2)
    cores := s.cores.map fun e => (e.1, { e.2 with
      tlb := keep e.2.tlb
      ahead := keep e.2.ahead
      walks := e.2.walks.map fun w => (w.1,
        if x.all || x.covers w.2.va 12 w.2.asn false || w.2.entry.any x.coversEntry then restartWalk s e.1 w.2 else w.2) }) }
  s1.cores.foldl (fun t e => refetchVirt t e.1) s1

/-- The first part of a shoot-down, once its release is complete (R180, R288). -/
def startShoot (s : State) (x : Shoot) : State :=
  let ids := (shootAccs s x).map (·.1)
  let s2 := ids.foldl retranslate (dropCovered s x)
  let w := (s2.accs.filter fun e => ids.contains e.1 && !e.2.performed && e.2.phase != .logged && e.2.underWay).map (·.1)
  updMod s2 fun u => { u with shoots := u.shoots.map fun y => if y.seq == x.seq then { y with started := true, waits := w } else y }

/-- The token of a SHOOT clears (R180). -/
def endShoot (s : State) (x : Shoot) : State :=
  let s1 := updMod s fun u => { u with shoots := u.shoots.filter fun y => y.seq != x.seq }
  tokDec (if x.tok < 6 then retireAs s1 x.member 11 1 else s1) x.member x.tok

/-- SHOOTDOWN_COMPLETE (R180, R288): the TLBs drop the covered entries once the release is complete; when the accesses that were under
way are performed, the token clears. -/
def execShootdownComplete (seq : Nat) (st : State) : Result :=
  match st.mod.shoots.find? fun x => x.seq == seq with
  | none => .next st
  | some x =>
    if !allPerformed st x.waits then .next st
    else if !x.started then .next (startShoot st x)
    else .next (endShoot st x)

/-- An entry enters a TLB of `n` entries in the place of `victim` (R179). -/
def fillTlb (l : List TlbEntry) (n victim : Nat) (t : TlbEntry) : List TlbEntry :=
  let l1 := l.filter fun e => !(e.va == t.va && e.bits == t.bits && e.asn == t.asn)
  t :: (if l1.length < n then l1 else l1.eraseIdx (victim % n))

/-- Whether a sequence number is older than another, in serial order of 32 bits. -/
def seqBefore (a b : Nat) : Bool := a != b && (b + 2 ^ 32 - a) % 2 ^ 32 < 2 ^ 31

/-- The context whose walk a core makes: that of its contexts whose VIRT root it walks from (R164, R179). -/
def walkOwner (s : State) (core : Nat) (w : Walk) : Option (Nat × Nat) :=
  ((ctxsOf s core).find? fun e => Desc.base (e.2.desc.toList.getD 4 0) == w.root).map fun e => (e.1 / 4096, core)

/-- A walk has read its table entries, whose lines it touches (R305). -/
def touchWalk (s : State) (core : Nat) (w : Walk) : State :=
  (walkPath s (isService core) w.va 6 0 w.root).foldl (fun t a => touchLines t (walkOwner s core w) a 8) s

/-- Whether a shoot-down covers a walk: the page that it was for, or the whole of the leaf that it found (R180). -/
def Shoot.coversWalk (x : Shoot) (w : Walk) : Bool := x.all || x.covers w.va 12 w.asn false || w.entry.any x.coversEntry

/-- TLB_WALK_FILL (R180): a walk fills its TLB, or begins again where a later shoot-down covers it. -/
def execTlbWalkFill (core walk victim : Nat) (st : State) : Result :=
  match tabGet (coreAt st core).walks walk with
  | none => .next st
  | some w =>
    if st.mod.shoots.any fun x => seqBefore w.tag x.seq && x.coversWalk w then
      .next (updCore st core fun u => { u with walks := tabPut u.walks walk (restartWalk st core w) })
    else
      .next (updCore (touchWalk st core w) core fun u =>
        let v := { u with walks := tabDrop u.walks walk }
        match w.entry with
        | none => v
        | some t => if w.ahead then { v with ahead := fillTlb v.ahead 64 victim t } else { v with tlb := fillTlb v.tlb 512 victim t })

/-! ## IDLE (R291) -/

/-- IDLE (R291): a timeout of n µs passes 4,800 n ticks of 208.33 ps after its issue (R120). -/
def execIdle (c : Common) (d : Dst) (a : Src) (st : State) : Result :=
  runForm st c (fun m => needsPrivilege st m (firstFault [srcFault m .w32 a, dstFault m false d])) [(.w32, a)] (fun _ _ => st)
    fun k m vs =>
    match vs with
    | [x] => leaveGroup st k.member k.slot (.idle d (if lo32 x == 0 then none else some (ticksNow st m.core + 4800 * (lo32 x).toNat)))
    | _ => st

/-- Whether a unit has raised an I/O event for a member (R291, R330): a bundle's event stands while its condition does; the module unit's
are pulses, of which a member has heard those that came before its last IDLE that returned 3 (log 68). -/
def eventStands (s : State) (v : Member) : Bool :=
  v.heard < s.mod.events.length || s.optics.any fun b => bundleEvent b.2

/-- What an IDLE wakes with: 1 a ring record, 2 the timeout, 3 an I/O event; the lowest that holds (R291). -/
def idleCode (s : State) (v : Member) (until_ : Option Nat) : Option Nat :=
  if s.mod.wr != s.mod.rd then some 1
  else if until_.any fun t => decide (t ≤ ticksNow s v.core) then some 2
  else if eventStands s v then some 3 else none

/-- IDLE_WAKE (R291, R330): it consumes nothing of a unit. `timeout` says that the wake is by the timeout, which must have passed. -/
def execIdleWake (m : Nat) (timeout : Bool) (st : State) : Result :=
  match memberAt st m with
  | none => .next st
  | some v =>
    match v.wait with
    | .idle d until_ =>
      match idleCode st v until_ with
      | none => .next st
      | some n =>
        if !seated v || (timeout && !until_.any fun t => decide (t ≤ ticksNow st v.core)) then .next st
        else
          let s1 := if n == 3 then updMember st m fun v => { v with heard := st.mod.events.length } else st
          .next (passSlot (retireAs (writeDst s1 m false (BitVec.ofNat 64 n) d) m 11 1) m)
    | _ => .next st

/-! ## SETPERF (R325) -/

/-- SETPERF (R325). -/
def execSetperf (c : Common) (a : Src) (st : State) : Result :=
  runForm st c (fun m => srcFault m .w32 a) [(.w32, a)] (fun _ _ => st) fun _ m vs =>
    match vs with
    | [x] => updCtx st m.launch m.core fun x' => { x' with written := true, want := max x'.want (min (lo32 x).toNat 7) }
    | _ => st

/-! ## The record ring (R283) -/

/-- Records that the ring holds unread. -/
def ringUsed (m : ModuleUnit) : Nat := (m.wr - m.rd).toNat
def ringSize (m : ModuleUnit) : Nat := 2 ^ (m.rk.toNat + 4)

/-- RING_RECORD_WRITE (R283): the oldest record of the buffer enters the ring, which has room. -/
def execRingRecordWrite (st : State) : Result :=
  match st.mod.recBuf with
  | [] => .next st
  | r :: rest =>
    if ringUsed st.mod ≥ ringSize st.mod then .next st
    else
      let a := st.mod.rbase.toNat * 128 + 128 * (st.mod.wr.toNat % ringSize st.mod)
      .next (updMod (homeWrite st none a (recordBytes r)) fun m => { m with recBuf := rest, wr := m.wr + 1 })

/-! ## Dispositions of operand-log entries (R182, R276) -/

/-- The entry frees: members that found none try again (R182). -/
def freeEntry (s : State) (core i : Nat) : State :=
  wakeLogWaiters (updCore s core fun u => { u with log := tabDrop u.log i }) core

/-- The checks of an instruction's accesses made again, in order; the first that fails decides. -/
def againAll (s : State) : List (Nat × Access) → State × List (Nat × Access) × Option Again
  | [] => (s, [], none)
  | e :: r =>
    match again s e.2 with
    | (.ok b, s1) =>
      let (s2, l, bad) := againAll s1 r
      (s2, (e.1, b) :: l, bad)
    | (f, s1) => (s1, [], some f)

/-- Replay of an entry (R182, R276): the checks are made again and the access is on its way, an acquire of what its disposition releases
(R294); the entry stays until the access has been performed and its token clears. A held cause takes an entry again, any other
failure is a new fault. -/
def replayEntry (s : State) (core i : Nat) (e : LogEntry) (a : Access) : State :=
  match a.bad with
  | some (x, d) => failIssued (freeEntry s core i) e.acc x d e.addr
  | none =>
    match againAll s (accGroup s e.acc a) with
    | (s1, l, none) =>
      l.foldl (fun t p => updAcc t p.1 fun _ => { p.2 with heldCause := 0, acq := true, need := joinVec p.2.need e.need })
        (updCore s1 core fun u => { u with log := tabPut u.log i { e with waiting := false } })
    | (s1, _, some (.held c addr)) => (logIssued (freeEntry s1 core i) e.acc a c (c + 0x0F) c 0 addr).getD s
    | (s1, _, some (.bad x d addr)) => failIssued (freeEntry s1 core i) e.acc x d addr
    | (s1, _, _) => freeEntry s1 core i

/-- The cause that an entry delivers (R276). -/
def entryCause (e : LogEntry) : Nat := if e.cause ≥ 0x80 then e.cause - 0x80 else e.cause + 0x0F

/-- Delivery of an entry: an asynchronous fault for which ROUTE is not consulted; the token clears (R270, R276). -/
def deliverLog (s : State) (e : LogEntry) (a : Access) : State :=
  queueFault (dropAccess s e.acc a) e.member
    { accFault a (entryCause e) (if e.cause ≥ 0x80 then e.detail else e.cause) e.addr with direct := true }

/-- A disposition takes effect: 0 replay, 1 deliver, 2 abandon (R276). -/
def applyAct (s : State) (core i act : Nat) : State :=
  match tabGet (coreAt s core).log i with
  | none => s
  | some e =>
    match tabGet s.accs e.acc with
    | none => freeEntry s core i
    | some a =>
      if act == 0 then replayEntry s core i e a
      else if act == 1 then deliverLog s e a
      else dropAccess s e.acc a

/-- Whether a member is switched out. -/
def isOutMember (m : Member) : Bool := match m.place with | .out _ => true | _ => false

/-- Sernus's disposition of an entry from a field, whose knowledge it releases (R294); that of a context that is out is taken at its
restore (R279). -/
def disposeEntry (s : State) (from_ core i act : Nat) : State :=
  match tabGet (coreAt s core).log i with
  | none => s
  | some e =>
    if !e.waiting then s
    else
      let out := ((memberAt s e.member).map isOutMember).getD false
      let e1 : LogEntry :=
        { e with need := (fieldAt s from_).know, waiting := !out, disposed := if out then some act else e.disposed }
      let s1 := updCore s core fun u => { u with log := tabPut u.log i e1 }
      if out then s1 else applyAct s1 core i act

/-- The field from which an I/O access comes. -/
def ioField (s : State) (a : Nat) : Nat := ((tabGet s.accs a).map (·.field)).getD 3

/-- A write of ACT with a code (R276). -/
def actWrite (st : State) (a act : Nat) : Result :=
  ioStep st a fun u off l =>
    match u with
    | .core g => if off == 8 && natBit l.2 0 && natBits l.1 6 2 == act then some (disposeEntry st (ioField st a) g (natBits l.1 0 6) act) else none
    | _ => none

/-- ACT_REPLAY (R182). -/
def execActReplay (a : Nat) (st : State) : Result := actWrite st a 0
/-- ACT_DELIVER (R276). -/
def execActDeliver (a : Nat) (st : State) : Result := actWrite st a 1
/-- ACT_ABANDON (R276). -/
def execActAbandon (a : Nat) (st : State) : Result := actWrite st a 2

/-! ## Stopped members (R276, R281) -/

/-- The member that the last write of 0x0010 names: slot code and context number (R276). -/
def namedMember (s : State) (core : Nat) : Option (Nat × Member) :=
  let n := (coreAt s core).stopName
  s.members.find? fun e => e.2.core == core && seated e.2 && slotCode e.2 == n % 2 ^ 16 &&
    ((ctxAt s e.2.launch core).map fun c => !c.isOut && c.number == n / 2 ^ 16).getD false

/-- A write of STOPACT with a code (R276): its effect on the named member. -/
def stopWrite (st : State) (a act : Nat) (run : Nat → Member → State) : Result :=
  ioStep st a fun u off l =>
    match u with
    | .core g =>
      if off == 0x18 && natBit l.2 0 && natBits l.1 0 2 == act then
        some (match namedMember st g with | some (id, m) => run id m | none => st)
      else none
    | _ => none

/-- STOPACT 0 (R281). -/
def execStopactTerminate (a : Nat) (st : State) : Result := stopWrite st a 0 fun id _ => terminate st id

/-- STOPACT 1 (R276): a stopped member goes on at its record's position, with its latches lost (R75); a SPAWN or MIGRATE that waits at its
slot issues again. -/
def execStopactResume (a : Nat) (st : State) : Result :=
  stopWrite st a 1 fun id m =>
    match m.wait with
    | .stopped =>
      let first := (m.stopRec.map fun f => f.fetchStage || f.async).getD false
      wake (updMember (loseLatches st id) id fun v => { v with stopRec := none, slot := if first then 0 else v.slot }) id
    | .heldSlot _ _ => wake st id
    | _ => st

/-- A fault that Sernus delivers to a member that has stopped or is held enters its handler; one whose record finds no room waits (R276,
R283). -/
def deliverStopped (s : State) (id : Nat) (fi : FaultInfo) : State :=
  let t := deliverEntry (updMember s id fun v => { v with stopRec := none }) id fi
  if recordRoom s t then t else updMember s id fun v => { v with wait := .recordFull, stopRec := some fi }

/-- STOPACT 2 (R276): the fault of a stopped member, or the cause that holds a SPAWN, enters the handler; ROUTE is not consulted. -/
def execStopactResumeDeliver (a : Nat) (st : State) : Result :=
  stopWrite st a 2 fun id m =>
    match m.wait, m.stopRec with
    | .stopped, some fi => deliverStopped st id fi
    | .heldSlot c va, _ => deliverStopped st id (slotFault st m (c + 0x0F) c va)
    | _, _ => st

end Sys2Proof.Machine
end

