-- ==== Sys2Proof/Machine/Switch.lean ====
section
/-!
DEFINITION. Pre-emption: context images (R278), switch-out (R277, R230) and restore (R280), CTXSAVE and CTXLOAD (R290), CKPT and its
rollback (R306), the watchdog (R282), poison (R308), and checkpoint-due events (R303).
-/
namespace Sys2Proof.Machine

/-! ## Where an image lies -/

/-- Pieces of a run of a space under descriptors, page by page; none where an address resolves to nothing. -/
def imgPieces (s : State) (i : ImgAt) (off n : Nat) : List (Option Target × Nat) :=
  if i.phys then [(some (.loc (i.addr + off)), n)]
  else (pagePieces (i.addr + off) n).map fun p => (spaceTarget s i.descs i.core i.home p.1, p.2)

/-- A write of an image transfer (R305): it touches no archive entry. -/
def rawWrite (s : State) (pa : Nat) (b : List Byte) : State :=
  if holdsMemory s pa && holdsMemory s (pa + b.length - 1) then writeBytes (withdrawLines s none pa b.length) pa b else s

/-- Bytes of an image go to their places; those that resolve to no memory of this module are not written. -/
def imgWritePieces (s : State) : List (Option Target × Nat) → List Byte → State
  | [], _ => s
  | (some (.loc pa), n) :: r, b => imgWritePieces (rawWrite s pa (b.take n)) r (b.drop n)
  | (_, n) :: r, b => imgWritePieces s r (b.drop n)

def imgWrite (s : State) (i : ImgAt) (b : List Byte) : State := imgWritePieces s (imgPieces s i 0 b.length) b

/-- Bytes of an image; those that lie at no memory of this module are free (log 6). -/
def imgReadPieces (s : State) : List (Option Target × Nat) → List Byte × State
  | [] => ([], s)
  | (t, n) :: r =>
    let (b, s1) := match t with
      | some (.loc pa) => (readBytes s pa n, s)
      | _ => freeBytes s n
    let (l, s2) := imgReadPieces s1 r
    (b ++ l, s2)

def imgRead (s : State) (i : ImgAt) (off n : Nat) : List Byte × State := imgReadPieces s (imgPieces s i off n)

/-- The image that a member's address pair names. -/
def imageAtOf (s : State) (m : Member) (a : Word64) : ImgAt :=
  { phys := false, addr := a.toNat, descs := ((ctxAt s m.launch m.core).map (·.desc)).getD (Vector.replicate 6 0), core := m.core,
    home := m.home }

/-- An image at a physical address. -/
def physImage (a : Nat) : ImgAt := { phys := true, addr := a, descs := Vector.replicate 6 0, core := 0, home := 0 }

/-- Where an image goes whose place the manual does not say (log 6). -/
def freeImage (s : State) : ImgAt × State :=
  let (n, s1) := drawFree s
  (physImage (Config.freeChoice n % 2 ^ 42 * 64), s1)

/-! ## The image (R278) -/

/-- WAIT of a record (R103, R278). A wait that the table does not list resumes at its slot. -/
def waitCode (w : Wait) : Nat :=
  match w with
  | .step _ => 1
  | .nbr _ _ => 2
  | .barrier _ _ _ => 3
  | .swait _ => 4
  | .park | .drain .park => 5
  | .dqpop _ => 6
  | .frameJoin _ => 7
  | .tjoin => 8
  | .svc _ _ => 9
  | .stopped => 10
  | _ => 0

/-- The layout of DETAIL is left open: a free value where the wait has one (log 6). -/
def waitDetail (w : Wait) (free : Nat) : Nat :=
  match w with
  | .nbr _ _ | .barrier _ _ _ => (Config.freeWord free).toNat % 2 ^ 16
  | _ => 0

/-- The sync word of a SWAIT. -/
def waitAddr (s : State) (w : Wait) : Nat :=
  match w with
  | .swait a => ((tabGet s.accs a).map fun x => x.addr.toNat).getD 0
  | _ => 0

/-- The 320 bytes of a frame (R103). -/
def frameBytes (s : State) (m : Member) (free : Nat) : List Byte :=
  (m.r.g.toList.flatMap fun w => bytesOf 4 w.toNat) ++ (m.r.f.toList.flatMap fun w => bytesOf 4 w.toNat) ++
  bytesOf 4 (m.pc % 2 ^ 32) ++ bytesOf 1 (m.slot % 16) ++ bytesOf 1 m.r.p.toNat ++ bytesOf 1 (waitCode m.wait) ++
  bytesOf 1 (boolNat m.demanded) ++ bytesOf 4 (if m.kind == .grid then (m.done + 1) % 2 ^ 32 else 0) ++ bytesOf 2 m.index ++
  bytesOf 2 (waitDetail m.wait free) ++ bytesOf 6 (m.ptime % 2 ^ 48) ++ bytesOf 2 0 ++ bytesOf 8 (waitAddr s m.wait)

/-- The published slots: face i, slot j at 8i + 4j (R278). -/
def pubBytes (m : Member) : List Byte :=
  (List.range 8).flatMap fun i => bytesOf 4 (m.pub0.toList.getD i 0).toNat ++ bytesOf 4 (m.pub1.toList.getD i 0).toNat

def kindCode : Kind → Nat
  | .grid => 0 | .task => 1 | .tail => 2 | .curator => 3

def isAnnex (m : Member) : Bool := match m.place with | .annex _ => true | _ => false

/-- A record of 512 bytes (R278). -/
def recordOfMember (s : State) (m : Member) (free : Nat) : List Byte :=
  let rel := (m.releaser.bind fun r => (memberAt s r).map (·.index)).getD 0
  frameBytes s m free ++ pubBytes m ++ bytesOf 1 (kindCode m.kind) ++ bytesOf 1 (boolNat m.trapMode + 2 * boolNat (isAnnex m)) ++
  bytesOf 2 0 ++ bytesOf 4 m.rp.toNat ++ bytesOf 4 (if m.trapMode then m.trapRec.toNat else 0) ++
  bytesOf 4 (if m.kind == .tail then m.holdTop.toNat else 0) ++ bytesOf 4 (if m.kind == .tail then rel else 0) ++
  (m.arrivals.toList.flatMap fun w => bytesOf 4 w.toNat) ++ bytesOf 4 m.rd.toNat ++ bytesOf 80 0

/-- The occupants of a context's slots, in the order of %slot. -/
def occupants (s : State) (launch core : Nat) : List (Nat × Member) :=
  sortBy (fun a b => slotCode a.2 < slotCode b.2)
    (s.members.filter fun e => e.2.launch == launch && e.2.core == core && seated e.2)

/-- The operand-log entries of a context. -/
def ctxLogs (s : State) (launch core : Nat) : List (Nat × LogEntry) :=
  (coreAt s core).log.filter fun e => ((memberAt s e.2.member).map fun m => m.launch == launch).getD false

/-- Whether a core's running or waiting docent programs are of a launch. -/
def docentCmds (s : State) (launch core : Nat) : List (Nat × Cmd) :=
  (coreAt s core).eng.cmds.filter fun e => e.2.launch == launch && e.2.kind.unit == .docent

/-- The step of a launch's running program. -/
def programStep (s : State) (launch core : Nat) : Option Nat :=
  ((coreAt s core).eng.prog.filter fun p => (docentCmds s launch core).any fun c => c.1 == p.cmd).map (·.pc)

def hasDocentBlock (s : State) (launch core : Nat) : Bool :=
  (coreAt s core).eng.owner == some launch || (programStep s launch core).isSome

/-- The docent block (R230, R278). -/
def docentBytes (s : State) (launch core : Nat) : List Byte :=
  let e := (coreAt s core).eng
  bytesOf 8 (if e.listLaunch == some launch then e.listAddr.toNat else 0) ++ bytesOf 4 ((programStep s launch core).getD 0) ++
  ((List.range 4).flatMap fun i => bytesOf 4 (e.loops.getD i 0).toNat) ++ bytesOf 36 0 ++
  ((List.range 4).flatMap fun c => (List.range 256).flatMap fun i => bytesOf 4 ((accumOf e c).getD i 0).toNat)

/-- The time that a context has now been in trap mode, which counts toward no limit (R282). -/
def trapTime (s : State) (launch core : Nat) (c : Ctx) : Nat := if ctxTrapped s launch core then s.mod.time - c.trapSince else 0

/-- The header (R278). -/
def headerBytes (s : State) (launch core : Nat) (c : Ctx) (nrec nlog : Nat) : List Byte :=
  let u := coreAt s core
  let mine := u.curatorOf == some launch
  let pers := ((launchAt s launch).map (·.pkt.persistent)).getD false
  let dq := if mine then u.dq else []
  bytesOf 4 launch ++ bytesOf 2 core ++ bytesOf 1 c.number ++
  bytesOf 1 (boolNat mine + 2 * boolNat (hasDocentBlock s launch core) + 4 * boolNat (u.eng.owner == some launch) + 8 * boolNat pers) ++
  bytesOf 2 nrec ++ bytesOf 1 nlog ++ bytesOf 1 c.vwCount ++ bytesOf 4 c.trapEntry.toNat ++ bytesOf 2 c.route.toNat ++ bytesOf 2 0 ++
  bytesOf 4 ((s.mod.time - c.lastMark - trapTime s launch core c) / 4800 % 2 ^ 32) ++ bytesOf 6 (u.ticks % 2 ^ 48) ++ bytesOf 2 0 ++
  (c.desc.toList.flatMap fun d => bytesOf 16 d.toNat) ++
  ((List.range 16).flatMap fun i => bytesOf 4 (((dq[i]?).map fun e => e.value.toNat).getD 0)) ++ bytesOf 1 dq.length ++
  bytesOf 1 c.vwFirst ++ bytesOf 62 0

/-- The image of a context (R278); the free values of its details come from the present counter on. -/
def imageOf (s : State) (launch core : Nat) (c : Ctx) : List Byte :=
  let ms := occupants s launch core
  let ls := ctxLogs s launch core
  headerBytes s launch core c ms.length ls.length ++
  ((List.range c.vwCount).flatMap fun i => bytesOf 32 (viewAt s core ((c.vwFirst + i) % 64)).toNat) ++
  (ms.zipIdx.flatMap fun p => recordOfMember s p.1.2 (s.sched.free + p.2)) ++ (ls.flatMap fun e => logBytes e.2) ++
  if hasDocentBlock s launch core then docentBytes s launch core else []

/-! ## Switch-out (R277) -/

/-- A switch-out of a context begins: its candidates are picked no more. -/
def beginSwitch (s : State) (launch core : Nat) : State :=
  updCtx s launch core fun c => if c.isOut || c.switching then c else { c with switching := true, switchAt := s.mod.time }

def addJob (s : State) (j : Job) : State := updMod s fun m => { m with jobs := m.jobs ++ [j] }

/-- A context that an eviction has switched out is to be restored where it was (R327 state 5). -/
def restoreHere (s : State) (launch core : Nat) : State :=
  addJob s { kind := .evict, launch := launch, core := core, target := core, image := physImage 0, member := 0, tok := 7,
             dst := .none, word := 0, restoring := true, status := 0 }

/-- A switch-out for the module's own reasons, with its image. -/
def switchFor (s : State) (kind : JobKind) (launch core : Nat) (image : ImgAt) : State :=
  addJob (beginSwitch s launch core)
    { kind := kind, launch := launch, core := core, target := core, image := image, member := 0, tok := 7, dst := .none, word := 0,
      restoring := false, status := 0 }

/-- The running program of a launch with its command's key (R230). -/
def programOf (s : State) (launch core : Nat) : Option Program :=
  (coreAt s core).eng.prog.filter fun p => (docentCmds s launch core).any fun c => c.1 == p.cmd

/-- Instructions of a member whose tokens need not drain: those of operand-log entries (R277), a SWAIT that waits at its slot, a context
job for the member's own context, the docent program that goes on after the restore (R230), and failed commands whose fault has not
been delivered (R212). -/
def undrained (s : State) (id : Nat) (m : Member) : Nat :=
  let accs := ((ownAccs s id).filter fun e =>
    (e.2.phase == .logged || (e.2.kind == .swait && (e.2.phase == .registered || e.2.phase == .returning)))).map fun e =>
      if e.2.kind == .vld then 1000000 + e.2.hops else e.1
  accs.eraseDups.length +
  (s.mod.jobs.filter fun j => j.member == id && j.dst != .none && j.launch == m.launch && j.core == m.core).length +
  ((docentCmds s m.launch m.core).filter fun e =>
    e.2.member == id && e.2.tok < 6 && (programOf s m.launch m.core).any fun p => p.cmd == e.1).length +
  (m.async.filter fun f => f.tok.isSome).length

/-- The tokens of a member have drained for a switch-out. -/
def drainedForSwitch (s : State) (id : Nat) (m : Member) : Bool := m.tok.toList.sum + m.drain ≤ undrained s id m

/-- The docent stands at a yield point of a launch's last program, or the launch has none (R230, R277). -/
def docentYielded (s : State) (launch core : Nat) : Bool :=
  (docentCmds s launch core).isEmpty ||
  match programOf s launch core with
  | some p => p.yielded && stepsDone s core p && !othersWait s launch core p.cmd
  | none => false

/-- Whether a switch-out may take place: groups have finished, tokens and direct commands are done, the docent has yielded, and nothing
of the context is in transit (R277). -/
def switchReady (s : State) (launch core : Nat) : Bool :=
  let u := coreAt s core
  !(u.issue.any fun g => g.launch == launch) &&
  (s.members.all fun e => e.2.launch != launch || e.2.core != core || !isLive e.2 || drainedForSwitch s e.1 e.2) &&
  !(s.members.any fun e => e.2.launch == launch && e.2.place == .transit && (e.2.core == core || (e.2.moveTo.map (·.1)) == some core)) &&
  !(u.transfers.any fun t => t.launch == launch) && u.swapping.isNone &&
  !(u.eng.cmds.any fun e => e.2.launch == launch && e.2.kind.unit != .docent) && docentYielded s launch core

/-- The partial planes that are full or lost, when their context goes out (R230). -/
def lostPlanes (e : Engines) : List Nat :=
  (List.range 4).filter fun p => match partStateOf e p with | .empty => false | _ => true

/-- The engines when a context goes out: its programs wait for the restore, its claim ends (R230). -/
def enginesOut (e : Engines) (launch : Nat) (mine : List (Nat × Cmd)) : Engines :=
  { e with
    owner := if e.owner == some launch then none else e.owner
    cmds := e.cmds.filter fun c => !mine.any fun d => d.1 == c.1
    prog := e.prog.bind fun p => if mine.any (fun d => d.1 == p.cmd) then none else some p
    listLaunch := if e.listLaunch == some launch then none else e.listLaunch }

/-- A captured unit that is switched out is skipped (R301). -/
def skipCaptured (s : State) (launch core : Nat) : State :=
  match (coreAt s core).eng.prog with
  | some p => if (programStep s launch core).isSome && p.captured then updMod s fun m => { m with skipped := m.skipped + 1 } else s
  | none => s

/-- A context leaves its core with its image kept: slots, tail slots, annex slots and the curator slot are freed (R277, R279). -/
def takeOut (s : State) (launch core : Nat) (c : Ctx) (why : OutFor) : State :=
  let img := imageOf s launch core c
  let n := (occupants s launch core).length
  let u := coreAt s core
  let cmds := docentCmds s launch core
  let lost := if u.eng.owner == some launch then lostPlanes u.eng else []
  let s0 := skipCaptured s launch core
  let s1 := updCore s0 core fun u => { u with
    curatorOf := if u.curatorOf == some launch then none else u.curatorOf
    dq := if u.curatorOf == some launch then [] else u.dq
    dqWaiters := u.dqWaiters.filter fun w => ((memberAt s w).map fun m => m.launch != launch).getD true
    clauses := u.clauses.filter fun e => e.launch != launch
    eng := enginesOut u.eng launch cmds }
  let s2 : State := { s1 with
    members := s1.members.map fun e =>
      (e.1, if e.2.launch == launch && e.2.core == core && seated e.2 then { e.2 with place := .out (isAnnex e.2) } else e.2)
    sched := { s1.sched with free := s1.sched.free + n } }
  updCtx s2 launch core fun c => { c with
    isOut := true, switching := false, credit := 0, image := img, savedCmds := cmds, lost := lost, outFor := why,
    listCount := if u.eng.listLaunch == some launch then u.eng.docMem.length else 0, listHome := u.eng.listHome,
    retireAge := s.mod.time - c.lastRetire - trapTime s launch core c,
    savedDq := if u.curatorOf == some launch then u.dq else [] }

/-! ## Restore (R280) -/

/-- The number of bytes of an image by its header. -/
def imageSize (b : List Byte) : Nat :=
  256 + 32 * byteAt b 11 1 + 512 * byteAt b 8 2 + 64 * byteAt b 10 1 + if natBit (byteAt b 7 1) 1 then 4160 else 0

/-- Whether a header is well formed (R278, R290). -/
def headerOk (b : List Byte) : Bool :=
  byteAt b 4 2 < 4096 && byteAt b 6 1 < 16 && byteAt b 7 1 < 16 && byteAt b 10 1 ≤ 64 && byteAt b 18 2 == 0 && byteAt b 30 2 == 0 &&
  1 ≤ byteAt b 11 1 && byteAt b 193 1 + byteAt b 11 1 ≤ 64 && byteAt b 192 1 ≤ 16 && ((b.drop 194).take 62).all (· == 0) &&
  ((List.range 6).all fun i => Desc.legal i (BitVec.ofNat 128 (byteAt b (32 + 16 * i) 16)))

def headerDescs (b : List Byte) : Vector DescBits 6 := Vector.ofFn fun (i : Fin 6) => BitVec.ofNat 128 (byteAt b (32 + 16 * i.val) 16)

/-- Record `i` of an image. -/
def imageRecord (b : List Byte) (i : Nat) : List Byte := (b.drop (256 + 32 * byteAt b 11 1 + 512 * i)).take 512

/-- Whether a record is that of a member: its kind and INDEX, and for a tail its releaser (R278). -/
def recordFits (s : State) (r : List Byte) (m : Member) : Bool :=
  byteAt r 384 1 == kindCode m.kind && byteAt r 300 2 == m.index % 2 ^ 16 &&
  (m.kind != .tail || byteAt r 400 4 == (m.releaser.bind fun x => (memberAt s x).map (·.index)).getD 0)

/-- The members of a context that is out, each with its record, in the order of the records; none where they do not match. -/
def matchRecords (s : State) : List (List Byte) → List (Nat × Member) → Option (List (Nat × Member × List Byte))
  | [], [] => some []
  | [], _ => none
  | r :: rs, ms =>
    match ms.find? fun e => recordFits s r e.2 with
    | none => none
    | some e => (matchRecords s rs (ms.filter fun x => x.1 != e.1)).map fun l => (e.1, e.2, r) :: l

/-- A member as its record gives it (R278): the registers, the position, the wait where the record names another, the published
slots, and the release and trap state. -/
def memberFromRecord (m : Member) (r : List Byte) : Member :=
  let w (o i : Nat) : Word := BitVec.ofNat 32 (byteAt r (o + 4 * i) 4)
  { m with
    r := { g := Vector.ofFn fun (i : Fin 64) => w 0 i.val, f := Vector.ofFn fun (i : Fin 8) => w 256 i.val, p := BitVec.ofNat 7 (byteAt r 293 1) }
    pc := byteAt r 288 4, slot := byteAt r 292 1 % 16,
    wait := if byteAt r 294 1 == waitCode m.wait then m.wait else .ready,
    done := if m.kind == .grid && byteAt r 296 4 != (m.done + 1) % 2 ^ 32 then byteAt r 296 4 - 1 else m.done,
    pub0 := Vector.ofFn fun (i : Fin 8) => BitVec.ofNat 32 (byteAt r (320 + 8 * i.val) 4),
    pub1 := Vector.ofFn fun (i : Fin 8) => BitVec.ofNat 32 (byteAt r (324 + 8 * i.val) 4),
    trapMode := natBit (byteAt r 385 1) 0, rp := w 388 0, trapRec := w 392 0, holdTop := w 396 0,
    arrivals := Vector.ofFn fun (i : Fin 6) => w 404 i.val, rd := w 428 0, lat := Vector.replicate 4 0, nbrVals := [] }

/-- A response on its way no longer belongs to its access: it only counts as it arrives (R239). -/
def detachResponse (s : State) (a : Nat) : State :=
  let (n, s1) := freshId s
  { s1 with pkts := s1.pkts.map fun e => (e.1, match e.2.body with
      | .response b st => if b == a then { e.2 with body := .response n st } else e.2
      | _ => e.2) }

/-- A wait that its restored member meets anew (R280): a SWAIT registers again, and what an Advance had sent it before is not its answer any
more (R240). -/
def rewait (s : State) (m : Member) : State :=
  match m.wait with
  | .swait a =>
    updAcc (detachResponse s a) a fun x =>
      if x.phase == .registered || x.phase == .returning then { x with phase := .issued, responded := false, stamp := [], met := [] } else x
  | _ => s

/-- The slot list in which a restore places records (R280). -/
structure Seats where
  slots : List Nat
  annex : List Nat
  tails : List Nat
deriving DecidableEq, Repr

/-- The next place for a record; none where the core lacks it. -/
def Seats.take (p : Seats) (m : Member) (annex : Bool) : Option (Place × Seats) :=
  match m.kind with
  | .curator => some (.curatorSlot, p)
  | .tail => (match p.tails with | n :: r => some (.tailSlot n, { p with tails := r }) | [] => none)
  | _ => if annex then (match p.annex with | n :: r => some (.annex n, { p with annex := r }) | [] => none)
    else (match p.slots with | n :: r => some (.slot n, { p with slots := r }) | [] => none)

/-- Records take their places in ascending INDEX order (R280). -/
def seatAll : Seats → List (Nat × Member × List Byte) → Option (List (Nat × Member))
  | _, [] => some []
  | p, (id, m, r) :: rest =>
    match p.take m (natBit (byteAt r 385 1) 1) with
    | none => none
    | some (pl, q) => (seatAll q rest).map fun l => (id, { memberFromRecord m r with place := pl }) :: l

/-- Members of a context that are out. -/
def outMembers (s : State) (launch core : Nat) : List (Nat × Member) :=
  s.members.filter fun e => e.2.launch == launch && e.2.core == core && isOutMember e.2

/-- Free operand-log entries of a core. -/
def freeLogs (s : State) (core : Nat) : List Nat :=
  (List.range Config.logDepth).filter fun i => (tabGet (coreAt s core).log i).isNone

/-- The context moves to another core (R280, R313): its table entry, members, logged accesses, log entries, and whose its archived lines
are (R305, R306). -/
def rekeyCtx (s : State) (launch src dst : Nat) : State :=
  if src == dst then s
  else
    match ctxAt s launch src with
    | none => s
    | some c =>
      let ls := ctxLogs s launch src
      let free := freeLogs s dst
      let s1 := updCore s src fun u => { u with log := u.log.filter fun e => !ls.any fun x => x.1 == e.1 }
      let s2 := updCore s1 dst fun u => { u with log := (ls.zip free).foldl (fun t p => tabPut t p.2 p.1.2) u.log }
      let mine (e : ArchEntry) : Bool := e.launch == launch && e.core == src
      { s2 with
        ctxs := tabPut (tabDrop s2.ctxs (ctxKey launch src)) (ctxKey launch dst) c
        mod := { s2.mod with archive := s2.mod.archive.map fun e => if mine e then { e with core := dst } else e }
        members := s2.members.map fun e => (e.1, if e.2.launch == launch && e.2.core == src && isLive e.2 then { e.2 with core := dst } else e.2)
        accs := s2.accs.map fun e => (e.1, if e.2.launch == launch && e.2.core == src then { e.2 with core := dst } else e.2) }

/-- A restore's outcome: done, a status, or a wait for log entries. -/
inductive Restored
  | ok (s : State)
  | no (status : Nat)
  | waits
deriving DecidableEq, Repr

/-- The docent and array of a restored context (R230): the claim is taken again, the accumulators and the list are reloaded, the list from
where its TMMA read it, and the program resumes at its saved step; the partial planes are empty but for the lost ones. -/
def enginesBack (s : State) (launch core : Nat) (c : Ctx) (b : List Byte) : State :=
  let flags := byteAt b 7 1
  let d := (b.drop (imageSize b - 4160))
  let addr := byteAt d 0 8
  let running := c.savedCmds.find? fun e => e.2.phase != .queued
  let (list, s1) := imgRead s { phys := false, addr := addr, descs := c.desc, core := core, home := c.listHome } 0 (8 * c.listCount)
  updCore s1 core fun u =>
    let e0 := { u.eng with cmds := c.savedCmds.foldl (fun t x => tabPut t x.1 x.2) u.eng.cmds }
    let e1 := if natBit flags 2 then
        { e0 with
          owner := some launch
          partState := (List.range 4).map fun p => if c.lost.contains p then .lost else .empty
          parts := []
          accs := (List.range 4).map fun k => (List.range 256).map fun i => BitVec.ofNat 32 (byteAt d (64 + 1024 * k + 4 * i) 4) }
      else e0
    let e2 := if natBit flags 1 && c.listCount != 0 then
        { e1 with docPoison := [], docMem := (List.range c.listCount).map (fun i => BitVec.ofNat 64 (byteAt list (8 * i) 8)),
                  listAddr := BitVec.ofNat 64 addr, listLaunch := some launch, listHome := c.listHome }
      else e1
    let e3 := match running with
      | some x => { e2 with
          loops := (List.range 4).map fun i => BitVec.ofNat 32 (byteAt d (12 + 4 * i) 4)
          prog := some { cmd := x.1, pc := byteAt d 8 4, ending := false, yielded := false, steps := [], captured := false, room := 0,
                         written := [], start := ([], []) } }
      | none => e2
    { u with eng := e3 }

/-- The decision queue of a restored context (R124, R125, R280): its entries, with what they still wait for, and its waiters, who pop
again, in ascending index (log 68). -/
def dqBack (s : State) (core : Nat) (saved : List DqEntry) (b : List Byte) (ms : List (Nat × Member)) : State :=
  if !natBit (byteAt b 7 1) 0 then s
  else
    let vals := (List.range (byteAt b 192 1)).map fun i => BitVec.ofNat 32 (byteAt b (128 + 4 * i) 4)
    let waiters := (ms.filter fun e => match e.2.wait with | .dqpop _ => true | _ => false).map (·.1)
    serveDq (updCore s core fun u =>
      { u with dq := vals.zipIdx.map fun p => match saved[p.2]? with
                 | some e => { e with value := p.1 }
                 | none => { value := p.1, held := false, pusher := 0, waits := [] },
               dqWaiters := waiters }) core Config.dqDepth

/-- A member that is seated again, where nothing of it is in E1 to E4 (R113, R121): an instance that it waits for and that is not
complete is its new unit's (R31, R260), and what its old field had observed comes before its next access (R265). -/
def reseat (s : State) (src dst : Nat) (id : Nat) (m : Member) : Member :=
  { m with
    core := dst, clear := 0, entered := []
    owed := owedAfter s m (fieldOf src) (fieldOf dst)
    wait := match m.wait with
      | .barrier sc unit k =>
        if ((launchAt s m.launch).map fun l => decide (k ≤ barDone l sc unit)).getD false then m.wait
        else .barrier sc (scopeUnit s sc id dst) k
      | w => w }

/-- Members whose wait is met go on (R280). -/
def rejoin (s : State) (ids : List Nat) : State := ids.foldl (fun t i => releaseJoins (reevaluate t i) i) s

/-- Dispositions that Sernus gave meanwhile are taken (R279). -/
def takeDispositions (s : State) (launch core : Nat) : State :=
  (ctxLogs s launch core).foldl (fun t e =>
    match e.2.disposed with
    | some a => applyAct t core e.1 a
    | none => t) s

/-- The context's own fields of a restored image (R278, R280). -/
def ctxBack (c : Ctx) (b : List Byte) (number : Nat) (gangs : List Nat) (now req : Nat) : Ctx :=
  { c with
    number := number, gangs := gangs, desc := headerDescs b, trapEntry := BitVec.ofNat 32 (byteAt b 12 4),
    route := BitVec.ofNat 16 (byteAt b 16 2), vwFirst := byteAt b 193 1, lastMark := now - 4800 * byteAt b 20 4, lastRetire := now - c.retireAge,
    trapSince := now, credit := 0, req := req, want := 0, written := false, isOut := false, switching := false, image := [],
    savedCmds := [], lost := [], outFor := .sernus, savedDq := [] }

/-- The views of an image enter the core's table. -/
def viewsBack (s : State) (core : Nat) (b : List Byte) : State :=
  updCore s core fun u => { u with views := (List.range (byteAt b 11 1)).foldl (fun t i =>
    tabPut t ((byteAt b 193 1 + i) % 64) (BitVec.ofNat 256 (byteAt b (256 + 32 * i) 32))) u.views }

/-- CTXLOAD's work (R280): a context that is out comes back on a core from an image. -/
def putBack (s : State) (launch src dst : Nat) (b : List Byte) : Restored :=
  match ctxAt s launch src, launchAt s launch with
  | some c, some l =>
    let u := coreAt s dst
    let recs := (List.range (byteAt b 8 2)).map (imageRecord b)
    match matchRecords s recs (outMembers s launch src), (if numberOpen s launch dst then freeNumber s dst else none) with
    | none, _ => .no 1
    | _, none => .no 2
    | some ms, some number =>
      let gangs := (freeGangs s dst).take c.gangs.length
      let seats : Seats :=
        { slots := (gangs.flatMap fun g => (List.range 64).map (g * 64 + ·)).take c.grant, annex := freeAnnex s dst, tails := freeTailSlots s dst }
      let order := sortBy (fun a b => a.2.1.index < b.2.1.index) ms
      if gangs.length < c.gangs.length || (natBit (byteAt b 7 1) 0 && u.curatorOf.isSome) || (natBit (byteAt b 7 1) 2 && u.eng.owner.isSome) ||
        ((programStep s launch dst).isNone && (c.savedCmds.any fun e => e.2.phase != .queued) && u.eng.prog.isSome) then .no 2
      else
        match seatAll seats order with
        | none => .no 2
        | some placed =>
          if src != dst && (freeLogs s dst).length < (ctxLogs s launch src).length then .waits
          else
            let s1 := rekeyCtx s launch src dst
            let s2 : State := { s1 with members := placed.foldl (fun t e => tabUpd t e.1 fun _ =>
              { reseat s src dst e.1 e.2 with readySince := u.cyc }) s1.members }
            let req := allowOf s l.pkt.prio
            let s3 := updCtx s2 launch dst fun x => ctxBack x b number gangs s.mod.time req
            let s4 := updCore (viewsBack s3 dst b) dst fun v =>
              { v with curatorOf := if natBit (byteAt b 7 1) 0 then some launch else v.curatorOf }
            let s5 := enginesBack s4 launch dst { c with desc := headerDescs b } b
            let s6 := placed.foldl (fun t e => rewait t e.2) (dqBack s5 dst c.savedDq b placed)
            let s7 := (placed.filter fun e => e.2.slot != 0).foldl (fun t e => loseLatches t e.1) s6
            .ok (takeDispositions (rejoin s7 (placed.map (·.1))) launch dst)
  | _, _ => .no 3

/-! ## CTXSAVE, CTXLOAD (R290) -/

/-- The context on a core with a number (R119). -/
def ctxNamed (s : State) (core number : Nat) : Option (Nat × Ctx) :=
  ((ctxsOf s core).find? fun e => e.2.number == number).map fun e => (e.1 / 4096, e.2)

/-- The checks of the context instructions. -/
def ctxChecks (s : State) (d : Dst) (a b : Src) (m : Member) : Option Nat :=
  needsPrivilege s m (firstFault [srcFault m .w64 a, srcFault m .w32 b, dstFault m false d])

/-- A context instruction's result where nothing is to be done: written at once. -/
def resultNow (s : State) (k : Cur) (d : Dst) (tok : Nat) (v : Word) : State :=
  let s1 := writeLate s k.member d v
  if tok < 6 then retireAs s1 k.member 11 1 else s1

/-- A context instruction: its image must be aligned, and its token counts it. -/
def ctxForm (s : State) (c : Common) (d : Dst) (a b : Src) (tok : Nat) (run : Cur → Member → Word64 → Word → State) : Result :=
  runForm s c (ctxChecks s d a b) [(.w64, a), (.w32, b)] (fun _ _ => s) fun k m vs =>
    match vs with
    | [x, y] =>
      if x.toNat % 64 != 0 then trap s k 0x05 0 x
      else if tokCount m tok ≥ Config.tokenMax then holdGroup s
      else run k m x (lo32 y)
    | _ => s

def jobOf (s : State) (k : Cur) (m : Member) (kind : JobKind) (launch core target : Nat) (img : Word64) (tok : Nat) (d : Dst) : Job :=
  { kind := kind, launch := launch, core := core, target := target, image := imageAtOf s m img, member := k.member, tok := tok, dst := d,
    word := k.word, restoring := false, status := 0 }

/-- CTXSAVE (R290). -/
def execCtxsave (c : Common) (d : Dst) (a b : Src) (tok : BitVec 3) (st : State) : Result :=
  ctxForm st c d a b tok.toNat fun k m img y =>
    let core := y.toNat % 4096
    match ctxNamed st core (y.toNat / 4096 % 16) with
    | none => resultNow st k d tok.toNat 0xFFFFFFFF
    | some (l, _) =>
      if l == m.launch && core == m.core then trap st k 0x01 k.slot
      else addJob (tokInc (beginSwitch st l core) k.member tok.toNat) (jobOf st k m .save l core core img tok.toNat d)

/-- CTXLOAD (R290): the launch is read from the image; the restore is a step of its own. -/
def execCtxload (c : Common) (d : Dst) (a b : Src) (tok : BitVec 3) (st : State) : Result :=
  ctxForm st c d a b tok.toNat fun k m img y =>
    let target := y.toNat % 4096
    let (h, s1) := imgRead st (imageAtOf st m img) 0 6
    let j := { jobOf st k m .load (byteAt h 0 4) (byteAt h 4 2) target img tok.toNat d with restoring := true }
    addJob (tokInc s1 k.member tok.toNat) j

/-! ## CKPT (R306) -/

/-- The archived context that CKPT names; one that is out is known by the number it had. -/
def ckptCtx (s : State) (core number : Nat) : Option Nat :=
  match ctxNamed s core number with
  | some (l, c) => if c.archived then some l else none
  | none => (s.ctxs.find? fun e => e.1 % 4096 == core && e.2.isOut && e.2.archived && e.2.number == number).map fun e => e.1 / 4096

def ckptForm (st : State) (c : Common) (d : BitVec 6) (a b : Src) (tok : BitVec 3) (kind : JobKind) : Result :=
  ctxForm st c (.g d) a b tok.toNat fun k m img y =>
    let core := y.toNat % 4096
    match ckptCtx st core (y.toNat / 4096 % 16) with
    | none => resultNow st k (.g d) tok.toNat 0xFFFFFFFF
    | some l => addJob (tokInc (beginSwitch st l core) k.member tok.toNat) (jobOf st k m kind l core core img tok.toNat (.g d))

/-- CKPT (R306). -/
def execCkpt (c : Common) (d : BitVec 6) (a b : Src) (tok : BitVec 3) (st : State) : Result := ckptForm st c d a b tok .close
/-- CKPT_RB (R306). -/
def execCkptRb (c : Common) (d : BitVec 6) (a b : Src) (tok : BitVec 3) (st : State) : Result := ckptForm st c d a b tok .rollback

/-- A job's fields changed. -/
def setJob (s : State) (j j' : Job) : State := updMod s fun m => { m with jobs := m.jobs.map fun x => if x == j then j' else x }

/-- Entries of a context in its interval. -/
def ownEntry (launch core interval : Nat) (e : ArchEntry) : Bool := e.launch == launch && e.core == core && e.interval == interval

def discardEntries (s : State) (launch core interval : Nat) : State :=
  updMod s fun m => { m with archive := m.archive.filter fun e => !ownEntry launch core interval e }

/-- What a rollback needs of a context beside its image: its members, logged accesses and docent commands (R306). -/
def snapshot (s : State) (launch core : Nat) (c : Ctx) : Ctx :=
  { c with
    closed := s.members.filter fun e => e.2.launch == launch && e.2.core == core
    closedLogs := (ctxLogs s launch core).filterMap fun e => (tabGet s.accs e.2.acc).map fun a => (e.2.acc, a, e.2)
    closedCmds := c.savedCmds
    closedDq := c.savedDq
    closeCore := core
    closedList := (c.listHome, c.listCount) }

/-- CKPT closes an interval (R306): the image is written, the entries are discarded, and the next interval begins. -/
def closeInterval (s : State) (j : Job) (c : Ctx) : State :=
  let s1 := discardEntries (imgWrite s j.image c.image) j.launch j.core c.interval
  let s2 := updCtx s1 j.launch j.core fun x =>
    { snapshot s j.launch j.core x with interval := x.interval + 1, escaped := false, unlogged := false, lastClose := s.mod.time,
                                        dueSent := false }
  setJob s2 j { j with restoring := true, status := BitVec.ofNat 32 c.image.length }

/-- Every line of the context's interval takes its old bytes again, latest first (R306). -/
def undoLines (s : State) (launch core interval : Nat) : State :=
  let es := s.mod.archive.filter (ownEntry launch core interval)
  es.reverse.foldl (fun t e => rawWrite t e.line e.old) s

/-- A member as it was at the last close, on its context's present core: the instructions whose tokens outlive a switch-out are counted anew,
and of its fences those hold that stand behind an access kept by a fault (R183, R265) or wait for a sequence (R257); a TRIG whose accesses
the switch-out has drained counts (R90). -/
def Member.atClose (m : Member) (core : Nat) (kept : List Nat) : Member :=
  let behind (l : List Nat) : List Nat := l.filter kept.contains
  let fs := m.fences.map fun f => { f with waits := behind f.waits, reads := behind f.reads, tok := none }
  let stands (f : FenceRec) : Bool := !(f.waits.isEmpty && f.reads.isEmpty && f.need.isEmpty)
  { m with
    core := core, tok := Vector.replicate 6 0, drain := 0,
    fences := fs.filter stands
    triggered := m.triggered || fs.any fun f => f.trig && !stands f
    wait := match m.wait with | .swait _ | .nbr _ _ => .ready | .svc n _ => .svc n false | w => w }

/-- The members, logged accesses and commands of the last close come back (R306). Grid cells that have moved here since stay as they
are; tails and task cells that have begun since are no more. -/
def membersBack (s : State) (launch core : Nat) (c : Ctx) : State :=
  let keep (e : Nat × Member) : Bool := e.2.launch != launch || e.2.core != core ||
    (e.2.kind == .grid && !c.closed.any fun x => x.1 == e.1)
  let trig (l : List (Nat × Member)) : Nat := (l.filter fun e => e.2.kind == .grid && e.2.triggered).length
  let now := s.members.filter fun e => !keep e
  let gone := now.map (·.1)
  let back := c.closed.map fun e => (e.1, e.2.atClose core (c.closedLogs.map (·.1)))
  let s1 : State := { s with
    members := back.foldl (fun t e => tabPut t e.1 e.2) (s.members.filter keep)
    nbrs := s.nbrs.filter fun e => !gone.contains e.2.reader
    accs := s.accs.filter fun e => !gone.contains e.2.member }
  let s2 := updCore s1 core fun u => { u with
    log := (c.closedLogs.zip ((List.range Config.logDepth).filter fun i =>
        (tabGet (u.log.filter fun e => !gone.contains e.2.member) i).isNone)).foldl (fun t p => tabPut t p.2 p.1.2.2)
      (u.log.filter fun e => !gone.contains e.2.member) }
  let s3 : State := { s2 with accs := c.closedLogs.foldl (fun t e => tabPut t e.1 { e.2.1 with core := core }) s2.accs }
  let s4 := c.closedLogs.foldl (fun t e => tokInc t e.2.1.member e.2.1.tok) s3
  let s5 := (c.closedCmds.filter fun e => e.2.tok < 6).foldl (fun t e => tokInc t e.2.member e.2.tok) s4
  updCtx (updLaunch s5 launch fun l => { l with trigCount := l.trigCount - trig now + trig back }) launch core fun x =>
    { x with savedCmds := c.closedCmds, savedDq := c.closedDq, lost := [], listHome := c.closedList.1, listCount := c.closedList.2 }

/-- Whether an image is a well-formed one of a context as it was at its last close (R278, R306): its header is legal and names the
context, the core on which it stood and its views, and its records and operand-log entries are those of the context's members then. -/
def imageOk (s : State) (b : List Byte) (launch core : Nat) (c : Ctx) : Bool :=
  let t := membersBack s launch core c
  headerOk b && byteAt b 0 4 == launch && byteAt b 4 2 == c.closeCore && byteAt b 11 1 == c.vwCount && byteAt b 193 1 == c.vwFirst &&
  byteAt b 10 1 == c.closedLogs.length &&
  (matchRecords t ((List.range (byteAt b 8 2)).map (imageRecord b)) (outMembers t launch core)).isSome

/-- CKPT.RB once the context is out (R306). -/
def rollBack (s : State) (j : Job) (c : Ctx) : State :=
  if c.interval == 0 then setJob s j { j with restoring := true, status := 2 }
  else
    let (h, s1) := imgRead s j.image 0 256
    let (b, s2) := imgRead s1 j.image 0 (imageSize h)
    if !imageOk s2 b j.launch j.core c then endJob s2 j 3
    else if c.escaped then endJob (killLaunch { s2 with mod := { s2.mod with jobs := s2.mod.jobs.filter (· != j) } } j.launch) j 1
    else
      let s3 := discardEntries (undoLines s2 j.launch j.core c.interval) j.launch j.core c.interval
      setJob (updCtx (membersBack s3 j.launch j.core c) j.launch j.core fun x => { x with image := b }) j
        { j with restoring := true, status := 0 }

/-! ## The steps (R277, R280) -/

/-- What follows a switch-out, by its reason (R282, R290, R306, R313, R327). -/
def afterOut (s : State) (j : Job) (c : Ctx) : State :=
  match j.kind with
  | .save => endJob (imgWrite s j.image c.image) j (BitVec.ofNat 32 c.image.length)
  | .close => closeInterval s j c
  | .rollback => rollBack s j c
  | .watchdog d =>
    let s1 := imgWrite s j.image c.image
    endJob (sendRecord s1 (plainRecord 0x21 d j.image.addr s.mod.time)) j 0
  | .evict =>
    let s1 := endJob (imgWrite s j.image c.image) j 0
    if evicting s then s1 else restoreHere s1 j.launch j.core
  | _ => endJob (imgWrite s j.image c.image) j 0

def outReason : JobKind → OutFor
  | .evict => .evict
  | .drain => .drain
  | _ => .sernus

/-- CONTEXT_SWITCH_OUT (R277): once its drains have ended, the context's image is written and its slots are freed. -/
def execContextSwitchOut (launch core : Nat) (st : State) : Result :=
  match st.mod.jobs.find? fun j => j.launch == launch && j.core == core && !j.restoring, ctxAt st launch core with
  | some j, some c =>
    if c.isOut then .next (afterOut st j c)
    else if !c.switching || !switchReady st launch core then .next st
    else
      let s1 := takeOut st launch core c (outReason j.kind)
      match ctxAt s1 launch core with
      | some x => .next (afterOut s1 j x)
      | none => .next s1
  | _, _ => .next st

/-- The core on which a launch's context that is out can be restored: the core that holds its vitrine and park pool (R280), or, where
that core's field has been drained or a context holds no pool, any other (R313). -/
def poolHeld (s : State) (c : Ctx) (src dst : Nat) : Bool :=
  src == dst || (tabGet s.mod.redirect src).isSome || c.cells == 0

/-- A restore that CTXLOAD asked for (R280, R290). -/
def loadJob (s : State) (j : Job) : State :=
  let (h, s1) := imgRead s j.image 0 256
  let src := byteAt h 4 2
  if !headerOk h then endJob s1 j 1
  else if ((launchAt s1 j.launch).map fun l => l.phase != .running).getD true then endJob s1 j 3
  else
    match ctxAt s1 j.launch src with
    | none => endJob s1 j 1
    | some c =>
      if !c.isOut || byteAt h 0 4 != j.launch then endJob s1 j 1
      else if !poolHeld s1 c src j.target || !coreExists j.target || fieldGone s1 (fieldOf j.target) then endJob s1 j 2
      else
        let (b, s2) := imgRead s1 j.image 0 (imageSize h)
        match putBack s2 j.launch src j.target b with
        | .ok s3 => endJob s3 j 0
        | .no n => endJob s2 j (BitVec.ofNat 32 n)
        | .waits => s

/-- CONTEXT_RESTORE (R280, R327): a context that is out comes back, while no eviction is under way. A restore of CKPT, of a drain or
of an eviction waits for its room; a drained one comes back on any core of a field that is online (R313). -/
def execContextRestore (launch core : Nat) (st : State) : Result :=
  match st.mod.jobs.find? fun j => j.launch == launch && j.restoring && (j.target == core || j.kind == .drain) with
  | none => .next st
  | some j =>
    if evicting st then .next st
    else if j.kind == .load then .next (loadJob st j)
    else if j.kind == .drain && (!coreExists core || !isOnline st (fieldOf core)) then .next st
    else
      match ctxAt st launch j.core with
      | none => .next (endJob st j 0)
      | some c =>
        match putBack st launch j.core core c.image with
        | .ok s1 => .next (endJob s1 j j.status)
        | _ => .next st

/-! ## The watchdog (R277, R282) -/

/-- A running program is stopped as ECAN stops it (R231, R277): its steps that have not started are dropped, it ends at its next step, and its
issuer takes EngineFault with detail 5 and step index 512. -/
def stopOverrun (s : State) (core : Nat) (p : Program) (x : Cmd) : State :=
  let waiting := p.steps.filter fun i => (cmdAt s core i).any fun y => y.phase == .queued
  let s1 := haltCmd (waiting.foldl (fun t i => cancelCmd t core i) s) core p.cmd false
  let s2 := updCore s1 core fun u => { u with eng := { u.eng with prog := none } }
  let s3 := if p.captured then updMod s2 fun m => { m with skipped := m.skipped + 1 } else s2
  engineFault s3 x.member x.word { detail := 5 + 512 * 2 ^ 16 } x.faultTok

/-- DOCENT_OVERRUN_EXPIRY (R277): 1 ms after the drains of a switch began the docent has reached no yield point: its program is stopped. -/
def execDocentOverrunExpiry (core : Nat) (st : State) : Result :=
  match (coreAt st core).eng.prog with
  | none => .next st
  | some p =>
    match cmdAt st core p.cmd with
    | none => .next st
    | some x =>
      match ctxAt st x.launch core with
      | none => .next st
      | some c =>
        if !c.switching || docentYielded st x.launch core || (coreAt st core).issue.any (fun g => g.launch == x.launch) ||
          st.mod.time < c.switchAt + 4800000 then .next st
        else
          .next (sendRecord (stopOverrun st core p x) (plainRecord 0x21 3 0 st.mod.time))

/-- Whether the watchdog looks at a context: it is in, a member of it has not ended, and none is in trap mode (R282). -/
def watched (s : State) (launch core : Nat) (c : Ctx) : Bool :=
  !c.isOut && !c.switching && ((launchAt s launch).map fun l => l.phase == .running).getD false && !ctxTrapped s launch core &&
  s.members.any fun e => e.2.launch == launch && e.2.core == core && !hasEnded e.2

/-- The watchdog switches a context out (R277, R282); where the image goes is the module's choice. -/
def watchdogOut (s : State) (launch core detail image : Nat) : State :=
  switchFor s (.watchdog detail) launch core (physImage (image / 64 * 64))

/-- WATCHDOG_NO_PROGRESS (R101, R282): a persistent launch's interval is in units of 16 µs. -/
def execWatchdogNoProgress (launch core image : Nat) (st : State) : Result :=
  match ctxAt st launch core, launchAt st launch with
  | some c, some l =>
    .next (if l.pkt.persistent && watched st launch core c && c.lastMark + l.pkt.interval * 16 * 4800 ≤ st.mod.time
      then watchdogOut st launch core 1 image else st)
  | _, _ => .next st

/-- WATCHDOG_NO_RETIRE (R282). -/
def execWatchdogNoRetire (launch core image : Nat) (st : State) : Result :=
  match ctxAt st launch core, launchAt st launch with
  | some c, some l =>
    .next (if !l.pkt.persistent && watched st launch core c && c.lastRetire + watchdogTicks st ≤ st.mod.time
      then watchdogOut st launch core 2 image else st)
  | _, _ => .next st

/-! ## Poison and checkpoints (R303, R308) -/

/-- An access that meets poison is kept as an operand-log entry of CAUSE 1 (R308). -/
def logPoisoned (s : State) (id : Nat) (a : Access) : Option State :=
  match memberAt s a.member with
  | none => none
  | some m =>
    let i := firstFree (coreAt s a.core).log Config.logDepth 0
    if i ≥ Config.logDepth then none
    else
      let b := { a with heldCause := 1 }
      let s1 := updCore s a.core fun u => { u with log := tabPut u.log i (logEntryOf s m id b 0) }
      some ((accGroup s id a).foldl (fun t e => updAcc t e.1 fun x => { x with phase := .logged, fetched := none })
        (updAcc s1 id fun _ => b))

/-- The access of a context meets poison: the module's error count rises, and the context is switched out with its access kept
(R308). Nothing happens where the log has no entry free. -/
def poisonAccess (s : State) (id : Nat) (a : Access) : State :=
  let (op, t) := blamed s id
  match logPoisoned t op ((tabGet t.accs op).getD a) with
  | none => s
  | some s2 =>
    let (img, s3) := freeImage (countError s2)
    switchFor s3 .poison a.launch a.core img

/-- An access meets poison at its home (R308): that of a context is kept and its context goes out; the count of a copy or SIGNAL stops its
command. A launch's completion, of which the rule does not speak, waits until its sync word is rewritten (log 68). -/
def meetPoison (s : State) (id : Nat) (a : Access) : State :=
  match a.kind with
  | .advance cmd =>
    stopCmd { countError s with accs := tabDrop s.accs id } a.core cmd { detail := 6, addr := a.addr }
  | .completion _ => updAcc (countError s) id fun x => { x with phase := .issued }
  | _ => poisonAccess s id a

/-- A neighbour read meets poison in the vitrine entry of the named cell (R308): the reader's context is switched out, and the read waits. -/
def poisonFace (s : State) (g r : Nat) : State :=
  match tabGet s.nbrs r with
  | none => s
  | some x =>
    match memberAt s x.reader with
    | none => s
    | some m =>
      if !x.arrived || !readServed s x || m.wait != .nbr x.dir x.face || !seated m || !facePoisoned s x || faceGranule s x != some g then s
      else
        let (img, s1) := freeImage (countError s)
        switchFor s1 .poison m.launch m.core img

/-- POISON_READ (R307, R308): a read meets a granule with a detected uncorrectable error. The reader's context is switched out with
its access kept; readers of other kinds leave the granule poisoned for their own checks. -/
def execPoisonRead (granule : Nat) (reader : Origin) (st : State) : Result :=
  let g := physOf st (granule / 8 * 8)
  let s1 := updMod st fun m => { m with poison := if m.poison.contains g then m.poison else m.poison ++ [g] }
  match reader with
  | .access id =>
    (match tabGet st.accs id with
      | none => .next st
      | some a =>
        if a.phase == .buffered && readsPoison s1 a then .next s1
        else if (hopWord s1 id a).any fun pa => isPoisoned s1 pa 8 then .next (poisonAccess s1 id a)
        else if a.phase != .issued || a.onPeer || crosses st a || !readsPoison s1 a || !orderPasses st id a then .next st
        else .next (meetPoison s1 id a))
  | .neighbour r => .next (poisonFace s1 g r)
  | .client .. | .management => .next (countError s1)

/-- CHECKPOINT_DUE (R303): PERIOD after a context's last close an entry is pushed and an I/O event raised; interval 0 has had no close. -/
def execCheckpointDue (launch core : Nat) (st : State) : Result :=
  match ctxAt st launch core with
  | none => .next st
  | some c =>
    if !c.archived || c.dueSent || c.interval == 0 || st.mod.time < c.lastClose + st.mod.period.toNat * 4800 then .next st
    else
      let s1 := updCtx st launch core fun x => { x with dueSent := true }
      .next (raiseEvent (updMod s1 fun m => { m with due := m.due ++ [(core, c.number)] }) moduleEvent)

end Sys2Proof.Machine
end

