-- ==== Sys2Proof/Machine/Fetch.lean ====
section
/-!
DEFINITION. Fetch and issue: the clauses that a core fetches and checks (R74, R75, R112, R347), the candidates that are ready (R113), the
picker and its shares (R115, R116, R119), and the swapping of gangs (R29, R114).
-/
namespace Sys2Proof.Machine

/-! ## Fetch of a clause (R112, R347) -/

/-- One word of code: its value and the lines of memory that hold it, or the failure. -/
inductive CodeRead
  | ok (w : Word64) (lines : List Nat)
  | held (c : Nat)
  | bad (cause detail : Nat)
deriving DecidableEq, Repr

/-- The read of a code word by a context, which touches its line (R305); a word on a peer is a free value (log 6). -/
def readCode (s : State) (ctx : Ctx) (launch core i : Nat) : CodeRead × State :=
  match resolveCode s ctx core i with
  | (.ok r, s1) =>
    (match r.tgt with
      | .loc pa =>
        let p := physOf s1 pa
        (.ok (BitVec.ofNat 64 (readNat s1 pa 8)) [p / 64, physOf s1 (pa + 7) / 64], touchLines s1 (some (launch, core)) pa 8)
      | .peer _ _ =>
        let (n, s2) := drawFree s1
        let (k, s3) := drawFree s2
        (.ok (Config.freeWord n ++ Config.freeWord k) [], s3))
  | (.held c, s1) => (.held c, s1)
  | (.bad c d, s1) => (.bad c d, s1)

/-- What the fetch of a clause finds: its words with their lines, a held fault, or the fault that its members take. -/
inductive Loaded
  | clause (words : List Word64) (lines : List Nat)
  | held (c : Nat)
  | bad (f : FaultInfo) (lines : List Nat)
deriving DecidableEq, Repr

/-- The space address of a code word (R59). -/
def codeAddr (ctx : Ctx) (i : Nat) : Word64 :=
  let d := ctx.desc.toList.getD 5 0
  BitVec.ofNat 64 (Desc.space d * 2 ^ 60 + (Desc.base d % 2 ^ 60 + 8 * i) % 2 ^ 60)

/-- A fetch-stage fault (R75, R273). -/
def fetchFault (cause detail slot : Nat) (header addr : Word64) : FaultInfo :=
  { cause := cause, detail := detail, word := header, addr := addr, fetchStage := true, async := false, slot := slot,
    from_ := none }

/-- The words behind the header, up to the first that does not resolve, with that slot's failure. -/
def readCodeN (s : State) (ctx : Ctx) (launch core : Nat) : Nat → Nat → Nat → (List Word64 × List Nat × Option (Nat × CodeRead)) × State
  | 0, _, _ => (([], [], none), s)
  | n + 1, i, slot =>
    match readCode s ctx launch core i with
    | (.ok w ls, s1) =>
      let ((ws, lines, e), s2) := readCodeN s1 ctx launch core n (i + 1) (slot + 1)
      ((w :: ws, ls ++ lines, e), s2)
    | (r, s1) => (([], [], some (slot, r)), s1)

/-- The fetch of the clause at a header, with the checks of R347 in their order and then those of R74. -/
def loadClause (s : State) (ctx : Ctx) (launch core h : Nat) : Loaded × State :=
  match readCode s ctx launch core h with
  | (.held c, s1) => (.held c, s1)
  | (.bad c d, s1) => (.bad (fetchFault c d 15 0 (codeAddr ctx h)) [], s1)
  | (.ok hw ls, s1) =>
    let n := (f4 hw 56).toNat
    if hw.extractLsb' 60 4 != 12#4 then (.bad (fetchFault 0x01 15 15 hw 0) ls, s1)
    else if 8 * (h + n + 2) > Desc.limit (ctx.desc.toList.getD 5 0) then
      (.bad (fetchFault 0x03 5 15 hw (codeAddr ctx h)) ls, s1)
    else
      match readCodeN s1 ctx launch core (n + 1) (h + 1) 0 with
      | ((ws, lines, none), s2) =>
        (match clauseFault hw ws with
          | some k => (.bad (fetchFault 0x01 k k hw 0) (ls ++ lines), s2)
          | none => (.clause (hw :: ws) (ls ++ lines), s2))
      | ((_, _, some (_, .held c)), s2) => (.held c, s2)
      | ((_, lines, some (k, .bad c d)), s2) => (.bad (fetchFault c d k hw (codeAddr ctx (h + 1 + k))) (ls ++ lines), s2)
      | ((_, lines, some (_, .ok _ _)), s2) => (.clause [hw] (ls ++ lines), s2)

def dropClause (launch h : Nat) (u : CoreUnit) : CoreUnit :=
  { u with clauses := u.clauses.filter fun e => !(e.launch == launch && e.h == h) }

/-- Members that stand at a header and wait for nothing else. -/
def standAt (s : State) (core launch h : Nat) : List (Nat × Member) :=
  s.members.filter fun e =>
    e.2.core == core && e.2.launch == launch && seated e.2 && e.2.wait == .ready && e.2.pc == h && !inGroup s e.1 core

/-- A core fetches the clause at a member's program counter and the fall-through clause of the group that issues (R112). -/
def mayFetch (s : State) (core launch h : Nat) : Bool :=
  !(standAt s core launch h).isEmpty ||
  (coreAt s core).issue.any fun g => g.launch == launch && wrapIdx (g.h + g.words.length) == h

/-- Lines of code enter the clause cache, which holds 64 KiB (R112). Which lines leave it has no effect that a program sees. -/
def addLines (lines : List Nat) (u : CoreUnit) : CoreUnit :=
  let all := (lines ++ u.codeLines).dedup
  let kept := all.take 1024
  let gone := all.drop 1024
  { u with codeLines := kept, clauses := u.clauses.filter fun e => !e.lines.any gone.contains }

/-- A held fault on a fetch (R347): no operand-log entry; Sernus receives one record, and the candidates at the header wait. -/
def holdFetch (s : State) (ctx : Ctx) (core launch h c : Nat) : State :=
  let ms := standAt s core launch h
  match bestBy (fun a b => slotCode a.2 < slotCode b.2) ms with
  | none => s
  | some (_, m) =>
    let known := s.members.any fun e => e.2.core == core && e.2.launch == launch && e.2.pc == h && e.2.wait == .heldFetch
    let fi := { fetchFault (c + 0x0F) c 15 0 (codeAddr ctx h) with from_ := m.cameFrom }
    let s1 := if known then s else sendRecord s (faultRecord s m fi fi.cause c)
    ms.foldl (fun t e => updMember t e.1 fun v => { v with wait := .heldFetch }) s1

/-- What was loaded enters the cache. A fault is kept only for a member that stands at the header (R75). -/
def keepClause (s : State) (core launch h : Nat) (missing : Bool) (words : List Word64) (lines : List Nat) (fault : Option FaultInfo) :
    State :=
  if fault.isSome && (standAt s core launch h).isEmpty then updCore s core (dropClause launch h)
  else
    updCore s core fun u =>
      let v := if missing then u else addLines lines u
      let w := dropClause launch h v
      { w with clauses := w.clauses ++
          [{ launch := launch, h := h, words := words, fault := fault, missing := missing, lines := lines, at_ := w.cyc }] }

/-- CLAUSE_FETCH (R112, R347): the clause is fetched and checked; where a line is not cached, it is there after the fill. -/
def execClauseFetch (core launch h : Nat) (st : State) : Result :=
  match ctxAt st launch core with
  | none => .next st
  | some ctx =>
    if ctx.isOut || ctx.switching || (clauseOf (coreAt st core) launch h).isSome || !mayFetch st core launch h then .next st
    else
      let miss (lines : List Nat) : Bool := lines.any fun l => !(coreAt st core).codeLines.contains l
      match loadClause st ctx launch core h with
      | (.held c, s1) => .next (holdFetch s1 ctx core launch h c)
      | (.bad f lines, s1) => .next (keepClause s1 core launch h (miss lines) [f.word] lines (some f))
      | (.clause ws lines, s1) => .next (keepClause s1 core launch h (miss lines) ws lines none)

/-- CLAUSE_CACHE_FILL (R112): the lines of a missed clause have come, and the clause is checked as its words now are (R76). -/
def execClauseCacheFill (core launch h : Nat) (st : State) : Result :=
  match ctxAt st launch core, clauseOf (coreAt st core) launch h with
  | some ctx, some e =>
    if !e.missing then .next st
    else
      match loadClause st ctx launch core h with
      | (.held c, s1) => .next (holdFetch (updCore s1 core (dropClause launch h)) ctx core launch h c)
      | (.bad f lines, s1) => .next (keepClause s1 core launch h false [f.word] lines (some f))
      | (.clause ws lines, s1) => .next (keepClause s1 core launch h false ws lines none)
  | _, _ => .next st

/-- HELD_FETCH_SERVICED (R347): Sernus has serviced the page of a held fetch; the members at the header fetch again. -/
def execHeldFetchServiced (core launch h : Nat) (st : State) : Result :=
  .next ((st.members.filter fun e => e.2.core == core && e.2.launch == launch && e.2.pc == h && e.2.wait == .heldFetch).foldl
    (fun t e => wake t e.1) st)

/-! ## Gangs (R29, R114) -/

/-- The gangs that contexts hold on a core (R102). -/
def heldGangs (s : State) (core : Nat) : List Nat := (ctxsOf s core).flatMap fun e => e.2.gangs

/-- The active set: 8 gangs; the set of the last swap, filled up with the lowest gangs that are held. -/
def activeSet (s : State) (core : Nat) : List Nat :=
  let u := coreAt s core
  let held := heldGangs s core
  let base := u.active.filter held.contains
  let comes : List Nat := match u.swapping with | some (_, i) => [i] | none => []
  let more := (List.range Config.gangs).filter fun g => held.contains g && !base.contains g && !comes.contains g
  (base ++ more).take Config.activeGangs

/-- The gangs that may issue: those of a running swap do not (R114). -/
def issuingGangs (s : State) (core : Nat) : List Nat :=
  match (coreAt s core).swapping with
  | some (o, i) => (activeSet s core).filter fun g => g != o && g != i
  | none => activeSet s core

/-! ## Ready candidates (R113) -/

/-- The clause of a member is fetched and checked, its mask is clear, and its accesses behind a replay leave room (R113, R183). -/
def clauseReady (s : State) (id : Nat) (m : Member) : Bool :=
  match clauseOf (coreAt s m.core) m.launch m.pc with
  | none => false
  | some e =>
    !e.missing &&
    (e.fault.isSome ||
      (!(m.slot == 0 && maskWaits m (e.words.getD 0 0)) &&
       !(f2 (e.words.getD 0 0) 52 == 1 && heldCount s id m ≥ 8)))

/-- Whether a member's context may issue. -/
def ctxIssues (s : State) (m : Member) : Bool :=
  ((ctxAt s m.launch m.core).map fun c => !c.isOut && !c.switching).getD false &&
  ((launchAt s m.launch).map fun l => l.phase == .running).getD false

/-- Ready but for its gang and for the clause that it has left (R113). -/
def readyBut (s : State) (id : Nat) (m : Member) : Bool :=
  seated m && m.wait == .ready && !m.terminating && !inGroup s id m.core &&
  !(m.slot == 0 && !m.async.isEmpty) && ctxIssues s m && clauseReady s id m

/-- Ready but for its gang: the instructions of its previous clause have left E4 too. -/
def readyApart (s : State) (id : Nat) (m : Member) : Bool := readyBut s id m && m.clear ≤ (coreAt s m.core).cyc

/-- The members of a core that are ready or will be as soon as their previous clauses have drained. -/
def nearlyReady (s : State) (core : Nat) : List (Nat × Member) :=
  let gs := issuingGangs s core
  s.members.filter fun e =>
    e.2.core == core && (match gangOf e.2 with | some g => gs.contains g | none => true) && readyBut s e.1 e.2

/-- The ready candidates of a core (R113). -/
def readyList (s : State) (core : Nat) : List (Nat × Member) :=
  (nearlyReady s core).filter fun e => e.2.clear ≤ (coreAt s core).cyc

/-! ## Shares (R119) -/

/-- The contexts of a core that are runnable in a cycle, by launch (R119). -/
def runnableAt (near : List (Nat × Member)) (cyc : Nat) : List Nat :=
  ((near.filter fun e => e.2.clear ≤ cyc).map fun e => e.2.launch).dedup

/-- The runnable contexts of a core by launch (R119). -/
def runnable (s : State) (core : Nat) : List Nat := runnableAt (nearlyReady s core) (coreAt s core).cyc

def shareWeight (s : State) (launch : Nat) : Rat := (((launchAt s launch).map (·.pkt.prio)).getD 0 : Nat) + 1

/-- The share of one of the runnable contexts (R119). -/
def shareOf (s : State) (run : List Nat) (launch : Nat) : Rat :=
  1 / 16 + (1 - (run.length : Rat) / 16) * shareWeight s launch / (run.map (shareWeight s)).sum

def clampCredit (c : Rat) : Rat := max (-16) (min 16 c)

/-- `n` cycles of credit: runnable contexts gain their share in each, the others stand at 0 (R119). -/
def accrue (s : State) (core n : Nat) (run : List Nat) : State :=
  let credit (l : Nat) (c : Rat) : Rat := if run.contains l then clampCredit (c + n * shareOf s run l) else 0
  let one (e : Nat × Ctx) : Nat × Ctx :=
    if e.1 % 4096 != core || e.2.isOut then e
    else (e.1, { e.2 with credit := credit (e.1 / 4096) e.2.credit })
  if n == 0 then s else { s with ctxs := s.ctxs.map one }

/-- Credits of `n` cycles from `cyc` on, each by the contexts that are runnable in it (R119); after the first four only time passes,
since every clause that was left before has drained (R113). -/
def accrueCycles (s : State) (core : Nat) (near : List (Nat × Member)) : Nat → Nat → Nat → State
  | 0, n, cyc => accrue s core n (runnableAt near cyc)
  | f + 1, n, cyc => if n == 0 then s else accrueCycles (accrue s core 1 (runnableAt near cyc)) core near f (n - 1) (cyc + 1)

/-- Credits for the cycles that a core's clock ran in a step: in that of the pick the contexts gain that were runnable at it (R119). -/
def accrueStep (old new : State) (core : Nat) : State :=
  let cyc := (coreAt old core).cyc
  let n := (coreAt new core).cyc - cyc
  let near := nearlyReady old core
  if n == 0 then new
  else
    match (coreAt old core).issue.bind (·.atPick) with
    | some run =>
      let s1 := updCore (accrue new core 1 run) core fun u => { u with issue := u.issue.map fun g => { g with atPick := none } }
      accrueCycles s1 core near 4 (n - 1) (cyc + 1)
    | none => accrueCycles new core near 4 n cyc

/-- One cycle in which no pick can be made. -/
def emptyCycle (s : State) (core : Nat) : State := accrueStep s (runIdle s core 1) core

/-- The empty cycles, at most `n`, before a core has a ready candidate for a pick (R113, R115). -/
def cyclesFree (s : State) (core n : Nat) : Nat :=
  (nearlyReady s core).foldl (fun k e => min k (e.2.clear - (coreAt s core).cyc)) n

/-- A core in which no group issues runs empty cycles up to the module's time, or up to the cycle in which it can make its pick (R115,
R119, R123). -/
def catchUp (s : State) (core : Nat) : State :=
  let b := cyclesBehind s core
  let n := if b == 0 then 0 else cyclesFree s core b
  if n == 0 then s else accrueStep s (flushRetired (updCore s core (emptyCycles (stepOf s core) n)) core) core

/-- The clocks of the module agree (R123): no core that has nothing to issue stays behind. -/
def catchUpAll (s : State) : State := (s.cores.map (·.1)).foldl catchUp s

/-- Cycles pass until a candidate is ready, at most `n`. -/
def idleUntil (s : State) (core : Nat) : Nat → State
  | 0 => s
  | n + 1 => if (readyList s core).isEmpty then idleUntil (emptyCycle s core) core n else s

/-! ## The pick (R115) -/

/-- The cycle from which a candidate is ready: its wait is over, its previous clause has drained, its clause is there, its gang is in
(R113, R115). -/
def readyFrom (s : State) (m : Member) : Nat :=
  let u := coreAt s m.core
  [m.clear, ((clauseOf u m.launch m.pc).map (·.at_)).getD 0,
   match gangOf m with | some g => (tabGet u.swappedIn g).getD 0 | none => 0].foldl max m.readySince

/-- How long a candidate has been ready and unissued. -/
def waited (s : State) (m : Member) : Nat := (coreAt s m.core).cyc - readyFrom s m

/-- Longest wait first, then lowest slot number. -/
def waitsLonger (s : State) (a b : Nat × Member) : Bool :=
  lexLt [-(waited s a.2 : Int), slotCode a.2, a.1] [-(waited s b.2 : Int), slotCode b.2, b.1]

/-- The context that the pick serves: that of the oldest candidate in trap mode, else ShareChoice (R115, R119). Of candidates in trap
mode that have waited equally long it is the one with the lowest slot number, then the lowest key (log 68). -/
def chooseContext (s : State) (core : Nat) (cands : List (Nat × Member)) : Option Nat :=
  match bestBy (waitsLonger s) (cands.filter fun e => e.2.trapMode) with
  | some e => some e.2.launch
  | none =>
    let credit (l : Nat) : Rat := ((ctxAt s l core).map (·.credit)).getD 0
    bestBy (fun a b => credit b < credit a || (credit a == credit b && a < b)) (cands.map fun e => e.2.launch).dedup

/-- The class-affinity window of a launch (R116). -/
def affWindow (s : State) (launch : Nat) : Nat :=
  match launchAt s launch with
  | some l => if l.pkt.window == 0 then 32 else l.pkt.window
  | none => 32

/-- The class of a fetched clause. -/
def classOf (s : State) (core launch h : Nat) : Option Nat :=
  (clauseOf (coreAt s core) launch h).map fun e => (f2 (e.words.getD 0 0) 54).toNat

/-- The rank of a position: the members that hold it, its header and slot (R115). -/
def rank (s : State) (core launch : Nat) (ms : List (Nat × Member)) (h slot : Nat) : List Int :=
  let u := coreAt s core
  let fits := u.affClass.isSome && classOf s core launch h == u.affClass && u.affTimer < affWindow s launch
  [if ms.any fun e => e.2.trapMode then 0 else 1,
   if ms.any fun e => waited s e.2 > 1024 then 0 else 1,
   if ms.any fun e => u.yielded.contains e.1 then 1 else 0,
   if fits then 0 else 1,
   h, slot,
   -(((ms.map fun e => waited s e.2).foldl max 0 : Nat) : Int)]

def holdersOf (cands : List (Nat × Member)) (p : Nat × Nat) : List (Nat × Member) :=
  cands.filter fun e => e.2.pc == p.1 && e.2.slot == p.2

/-- The position that the pick takes among the candidates of one context. -/
def choosePosition (s : State) (core launch : Nat) (cands : List (Nat × Member)) : Option (Nat × Nat) :=
  bestBy (fun a b => lexLt (rank s core launch (holdersOf cands a) a.1 a.2) (rank s core launch (holdersOf cands b) b.1 b.2))
    (cands.map fun e => (e.2.pc, e.2.slot)).dedup

/-- The issue group at a position: at most 64, the curator alone, in ascending slot number (R115, R117). -/
def groupAt (s : State) (ms : List (Nat × Member)) : List (Nat × Member) :=
  match sortBy (waitsLonger s) ms with
  | [] => []
  | e :: r =>
    if isCurator e.2 then [e]
    else sortBy (fun a b => slotCode a.2 < slotCode b.2) ((e :: r.filter fun x => !isCurator x.2).take 64)

/-- Each member of a group that reaches an offending clause takes its fault (R75). The group was picked for it: the pick changes neither
affinity nor credit and uses one cycle of the issue port, in which no slot issues (log 68). -/
def faultGroup (s : State) (core launch h : Nat) (f : FaultInfo) (ms : List (Nat × Member)) : State :=
  runIdle (ms.foldl (fun t e => takeFault t e.1 { f with from_ := e.2.cameFrom }) (updCore s core (dropClause launch h))) core 1

/-- The chosen group holds the issue port; affinity and credit follow (R115, R116, R119). -/
def startGroup (s : State) (core launch h slot : Nat) (words : List Word64) (ms : List (Nat × Member)) : State :=
  let ids := ms.map (·.1)
  let n := words.length - 1 - slot
  let cls := classOf s core launch h
  let s1 := ids.foldl (fun t i => updMember t i fun m => { m with count := words.length - 2 }) s
  let s2 := updCtx s1 launch core fun c => { c with credit := clampCredit (c.credit - n) }
  updCore s2 core fun u =>
    { u with
      issue := some { launch := launch, h := h, slot := slot, words := words, members := ids, todo := ids,
                      entered := if slot == 0 then [] else ms.flatMap fun e => e.2.entered, started := false,
                      atPick := some (runnable s core) }
      affClass := cls
      affTimer := if u.affClass == cls then u.affTimer else 0 }

/-- PICK (R115): where the issue port is free, up to `idle` cycles pass until a candidate is ready, and one pick is made. Members whose slot
lies behind their clause's last go on at the fall-through (R286). -/
def execPick (core idle : Nat) (st : State) : Result :=
  if !coreExists core || (coreAt st core).issue.isSome then .next st
  else
    let s0 := idleUntil st core idle
    let cands := readyList s0 core
    match chooseContext s0 core cands with
    | none => .next s0
    | some x =>
      let mine := cands.filter fun e => e.2.launch == x
      match choosePosition s0 core x mine with
      | none => .next s0
      | some (h, slot) =>
        let ms := groupAt s0 (holdersOf mine (h, slot))
        let s1 := updCore s0 core fun u => { u with yielded := [], active := activeSet s0 core }
        match clauseOf (coreAt s0 core) x h with
        | none => .next s0
        | some e =>
          match e.fault with
          | some f => .next (accrueStep s1 (faultGroup s1 core x h f ms) core)
          | none =>
            if e.words.length < slot + 2 then .next (ms.foldl (fun t v => endClause t v.1 h (e.words.length - 2)) s0)
            else .next (startGroup s1 core x h slot e.words ms)

/-- A core whose pick is due: no group issues, a candidate is ready, and its clock is behind the module's time and behind that of every core
that issues (R115, R123). -/
def pickDue (s : State) : Option Nat :=
  let first := (issuingCore s).map fun c => (coreAt s c).ticks
  (s.cores.find? fun e => e.2.issue.isNone && e.2.ticks < s.mod.time && (first.all fun t => e.2.ticks ≤ t) &&
    !(readyList s e.1).isEmpty).map (·.1)

/-! ## Gang swaps (R114) -/

/-- A cell waits on a long-latency event (R29): a token, a neighbour read, STEP, a barrier, SWAIT or an empty decision queue. -/
def longWait (s : State) (m : Member) : Bool :=
  match m.wait with
  | .nbr .. | .step _ | .barrier .. | .swait _ | .dqpop _ => true
  | .drain _ => !drained m
  | .ready =>
    (match clauseOf (coreAt s m.core) m.launch m.pc with
      | some e => m.slot == 0 && e.fault.isNone && maskWaits m (e.words.getD 0 0)
      | none => false)
  | _ => false

def cellsOfGang (s : State) (core g : Nat) : List (Nat × Member) :=
  s.members.filter fun e => e.2.core == core && gangOf e.2 == some g

/-- The active gang that leaves: all its cells wait, and it has not issued for longest (R114); among equals the lowest number
(log 68). -/
def gangOut (s : State) (core : Nat) : Option Nat :=
  let last (g : Nat) : Nat := (tabGet (coreAt s core).lastIssued g).getD 0
  bestBy (fun a b => last a < last b || (last a == last b && a < b))
    ((activeSet s core).filter fun g =>
      (cellsOfGang s core g).all fun e => longWait s e.2 && !inGroup s e.1 core)

/-- The context of a core with the highest credit. -/
def richest (s : State) (core : Nat) : Option Nat :=
  (bestBy (fun a b => b.2.credit < a.2.credit || (a.2.credit == b.2.credit && a.1 < b.1)) (ctxsOf s core)).map (·.1 / 4096)

/-- The pending gang that comes in, by the tests of R114. -/
def gangIn (s : State) (core : Nat) : Option Nat :=
  let act := activeSet s core
  let pend := (heldGangs s core).filter fun g => !act.contains g && (cellsOfGang s core g).any fun e => readyApart s e.1 e.2
  let key (g : Nat) : List Int :=
    let ms := cellsOfGang s core g
    [if ms.any fun e => e.2.trapMode then 0 else 1,
     if ms.any fun e => some e.2.launch == richest s core && (readyApart s e.1 e.2 || e.2.demanded) then 0 else 1, g]
  bestBy (fun a b => lexLt (key a) (key b)) pend

/-- GANG_SWAP (R114): a swap begins; its two gangs issue nothing. -/
def execGangSwap (core : Nat) (st : State) : Result :=
  if (coreAt st core).swapping.isSome then .next st
  else
    match gangOut st core, gangIn st core with
    | some o, some i => .next (updCore st core fun u => { u with swapping := some (o, i), active := activeSet st core })
    | _, _ => .next st

/-- GANG_SWAP_END (R114): the two gangs have exchanged places. -/
def execGangSwapEnd (core : Nat) (st : State) : Result :=
  match (coreAt st core).swapping with
  | none => .next st
  | some (o, i) =>
    .next (updCore st core fun u =>
      { u with swapping := none, active := (u.active.filter (· != o)) ++ [i], swappedIn := tabPut u.swappedIn i u.cyc })

end Sys2Proof.Machine
end

