-- ==== Sys2Proof/Machine/Causal.lean ====
section
/-!
DEFINITION. The causal ports of the fields (R235 to R252): stamps and bases, sequenced packets and read requests, the early and
pending-read buffers, horizon queries, NACKs, beacons, final horizons, and the causal reset. A packet is in `pkts` from the moment it has
left its port until its arrival event takes it.
-/
namespace Sys2Proof.Machine

/-! ## Leaving the port (R238, R244, R245, R249) -/

/-- The window (R249): sequence b + 2^18 waits for every live field's acknowledgement of beacon b. -/
def windowOpen (s : State) (f next : Nat) : Bool :=
  next % 2 ^ 16 != 0 ||
  fieldIds.all fun d => d == f || fieldGone s d || serLe ((next + 2 ^ 20 - 2 ^ 18) % 2 ^ 20) (pairAt s f d).beaconAcked

/-- Beacons to every other live field (R249). -/
def sendBeacons (s : State) (f : Nat) : State :=
  let w := (fieldAt s f).w
  if w % 2 ^ 16 != 0 then s
  else (fieldIds.filter fun d => d != f && !fieldGone s d).foldl
    (fun t d => sendPkt t f d (.beacon w (pairAt t f d).lastSent)) s

/-- A sequenced packet leaves: its sequence, back-link and vector are taken now (R238). None where its stamp may not go (R239). -/
def sendSequenced (s : State) (f d acc : Nat) : Option State :=
  let u := fieldAt s f
  let w := (u.w + 1) % 2 ^ 20
  let v := u.know.set f w
  let p := pairAt s f d
  match stampFor s f d v with
  | none => none
  | some (st, s1) =>
    let s2 := sendPkt s1 f d (.write acc w p.lastSent (!p.sentAny) st)
    let s3 := updPair s2 f d fun q => { q with lastSent := w, sentAny := true }
    let s4 := updField s3 f fun u => { u with w := w, know := v, horizon := u.horizon.set f w }
    some (sendBeacons (updAcc s4 acc fun a => { a with phase := .sent }) f)

/-- A read request leaves with K_F as its requirement (R238); that of a keeper, with what its operation has met before (R198). -/
def sendRequest (s : State) (f d acc : Nat) : Option State :=
  match stampFor s f d (joinVec (fieldAt s f).know (((tabGet s.accs acc).map (·.stamp)).getD [])) with
  | none => none
  | some (st, s1) => some (updAcc (sendPkt s1 f d (.read acc st)) acc fun a => { a with phase := .sent })

/-- Whether the port lets a sequenced packet go (R244, R249, R250). -/
def portOpen (s : State) (f d : Nat) : Bool :=
  !fieldGone s f && !(pairAt s d f).dead && (pairAt s f d).nacked.isEmpty && windowOpen s f (((fieldAt s f).w + 1) % 2 ^ 20)

/-! ## The home (R241 to R243) -/

/-- The first field that is dead and whose horizon a requirement exceeds (R251). -/
def lostEntry (s : State) (f skip : Nat) (v : Vec) : Option Nat :=
  fieldIds.find? fun x =>
    x != f && x != skip && (pairAt s f x).dead && !serLe (v.getD x 0) ((fieldAt s f).horizon.getD x 0)

/-- H_D[G] rises (R241, R243, R249). -/
def raiseHorizon (s : State) (d g v : Nat) : State :=
  updField s d fun u => { u with horizon := u.horizon.set g (serMax (u.horizon.getD g 0) v) }

/-- Whether a waiting packet's place in its pair's chain has come: the packet that its back-link names is the last that was applied
(R241). -/
def chainReady (s : State) (d : Nat) (w : Waiting) : Bool := w.first || w.blink == (pairAt s d w.src).rxLast

/-- A packet takes its place in its pair's chain: H_D[G] rises to its sequence (R241, R251). -/
def closePlace (s : State) (d : Nat) (w : Waiting) : State :=
  updPair (raiseHorizon s d w.src w.seq) d w.src fun q => { q with rxLast := w.seq }

/-- The back-link of a beacon `b` or of a final horizon has been applied (R249, R250): it is the last packet of the pair, or lies at or
below what is applied, which a later packet may have raised beyond the beacon. -/
def linkApplied (s : State) (d g b blink : Nat) : Bool :=
  let h := (fieldAt s d).horizon.getD g 0
  blink == (pairAt s d g).rxLast || serLe blink h || serLe b h

/-- A read of a poisoned granule switches its context out (R308); it waits while the core's log has no entry free. -/
def poisonWaits (s : State) (id : Nat) (a : Access) : Bool :=
  (match a.kind with | .advance _ | .completion _ => false | _ => true) && readsPoison s a && (logPoisoned s id a).isNone

/-- An access is released without effect by a requirement on a dead field (R251); one that a fault keeps already is left to its entry. -/
def releaseLost (s : State) (acc f : Nat) : State :=
  match tabGet s.accs acc with
  | some a => if a.phase == .logged then s else failIssued s acc 0x0A f a.addr
  | none => s

/-- A sequenced packet is applied in one step (R241): its access is performed at its home, its line and K_D take its vector, H_D[G] rises. The
stamp of what it returns joins those of the nodes that were read for it, and what it requires goes on with its further accesses (R195,
R235). One whose access has gone, or is held by a fault that its node has met, leaves its place alone. -/
def applyPacket (s : State) (d : Nat) (w : Waiting) : State :=
  match tabGet s.accs w.acc with
  | none => closePlace s d w
  | some a =>
    if a.phase == .logged then closePlace s d w
    else if readsPoison s a then meetPoison (closePlace s d w) w.acc a
    else
      let back := if a.kind.returnsValue then lineStamp s d a.pa else []
      let o := atHome (updAcc (mergeVec (closePlace s d w) d w.vec) w.acc fun x =>
        { x with stamp := joinVec x.stamp back, need := if x.kind.isKeeper then w.vec else x.need }) a w.vec
      afterHome w.acc a { o with st := stampAccess o.st d a o.wrote w.vec } a.kind.returnsValue

/-- A read request is served (R242): its value is fixed, and the stamp of the value goes back with it. -/
def serveRequest (s : State) (d : Nat) (w : Waiting) : State :=
  match tabGet s.accs w.acc with
  | none => s
  | some a =>
    if isPoisoned s a.pa a.size then poisonAccess s w.acc a
    else
      let s1 := updAcc s w.acc fun x => { x with stamp := lineStamp s d a.pa }
      sendLine (afterHome w.acc a (atHome s1 a w.vec) true) w.acc a

/-- What a waiting packet or request can do now: it is released for a dead field, or it is applied or served; none while it waits. -/
def takeWaiting (s : State) (d : Nat) (w : Waiting) (write : Bool) : Option State :=
  let skip := if write then w.src else d
  if write && !chainReady s d w then none
  else
    match lostEntry s d skip w.vec with
    | some x =>
      let s1 := releaseLost s w.acc x
      some (if write then closePlace s1 d w else s1)
    | none =>
      if !meets s d skip w.vec then none
      else if ((tabGet s.accs w.acc).map fun a => a.phase != .logged &&
        (poisonWaits s w.acc a || !keeperFree s (some w.acc) a || nodeOpen s w.acc || (nodeWanted s a).isSome)).getD false then none
      else some (if write then applyPacket s d w else serveRequest s d w)

/-- The first of a buffer that can go, with the rest. -/
def firstGo (s : State) (d : Nat) (write : Bool) : List Waiting → Option (State × Waiting)
  | [] => none
  | w :: r =>
    match takeWaiting s d w write with
    | some t => some (t, w)
    | none => firstGo s d write r

/-- A home re-examines its buffers until nothing can go (R241, R242). -/
def pump (d : Nat) : Nat → State → State
  | 0, s => s
  | n + 1, s =>
    match firstGo s d true (fieldAt s d).early with
    | some (t, w) => pump d n (updField t d fun u => { u with early := u.early.erase w })
    | none =>
      match firstGo s d false (fieldAt s d).pending with
      | some (t, w) => pump d n (updField t d fun u => { u with pending := u.pending.erase w })
      | none => s

/-- KDEQs that wait for nothing but their node have it read at its home; the read requires what their packets do (R195, R197, R241). -/
def startReads (s : State) (d : Nat) : State :=
  (fieldAt s d).early.foldl (fun t w =>
    match tabGet t.accs w.acc with
    | none => t
    | some a =>
      if a.phase == .logged || !chainReady t d w || (lostEntry t d w.src w.vec).isSome || !meets t d w.src w.vec ||
        !keeperFree t (some w.acc) a || nodeOpen t w.acc || poisonWaits t w.acc a then t
      else
        match nodeWanted t a with
        | some n => spawnNode t { a with need := w.vec } (.nodeRead w.acc) a.pa n (BitVec.ofNat 64 (homeNat t a.pa 8)) 0
        | none => t) s

/-- Accesses of a field's own that its causal port keeps waiting for the horizon (R246). -/
def localWaits (s : State) (f : Nat) (writes : Bool) : List (Nat × Access) :=
  s.accs.filter fun e =>
    e.2.field == f && e.2.phase == .issued && (if writes then e.2.sequencedKind else e.2.requires) && accHome s e.2 == some f &&
    !meets s f f (fieldAt s f).know && orderPasses s e.1 e.2

/-- The entries in use of the early buffer and of the pending-read buffer (R236, R246), stamps without a base included (R239). -/
def bufferUse (s : State) (d : Nat) (writes : Bool) : Nat :=
  let u := fieldAt s d
  let kind (p : Nat) : Bool :=
    match tabGet s.pkts p with
    | some x => (match x.body with | .write .. => writes | .read .. => !writes | _ => false)
    | none => false
  (if writes then u.early.length else u.pending.length) + (u.undecoded.filter kind).length + (localWaits s d writes).length

def bufferSize (writes : Bool) : Nat := if writes then 512 else 256

/-- The highest requirement on a field that something at a home is short of (R243). -/
def shortOf (s : State) (d g : Nat) : Option Nat :=
  let u := fieldAt s d
  let h := u.horizon.getD g 0
  let vs := ((u.early.filter fun w => w.src != g).map (·.vec)) ++ u.pending.map (·.vec) ++
    (if (localWaits s d true).isEmpty && (localWaits s d false).isEmpty then [] else [u.know])
  let need := (vs.map fun v => v.getD g 0).filter fun x => !serLe x h
  if need.isEmpty then none else some (need.foldl serMax h)

/-- A packet that waits for its base is a sequenced one of a field. -/
def isWriteFrom (s : State) (g p : Nat) : Bool :=
  match tabGet s.pkts p with
  | some x => x.src == g && (match x.body with | .write .. => true | _ => false)
  | none => false

/-- Horizon queries for what is short (R243): none while a packet of that field waits or a query to it is out, and none to a frozen or
dead field (R250, R251). -/
def sendQueries (s : State) (d : Nat) : State :=
  fieldIds.foldl (fun t g =>
    if g == d || (pairAt t d g).queryOut || (pairAt t d g).frozen || (pairAt t d g).dead || fieldGone t g ||
      ((fieldAt t d).early.any fun w => w.src == g) || ((fieldAt t d).undecoded.any (isWriteFrom t g)) then t
    else
      match shortOf t d g with
      | some r => updPair (sendPkt t d g (.query r)) d g fun p => { p with queryOut := true }
      | none => t) s

/-- A home after its horizon or its buffers have changed. -/
def reexamine (s : State) (d : Nat) : State :=
  sendQueries (startReads (pump d ((fieldAt s d).early.length + (fieldAt s d).pending.length) s) d) d

/-! ## The events of the port -/

/-- CAUSAL_PACKET_SEND (R238, R239, R244 to R246, R249): a held packet or request leaves the port. An access of the field's own that
the port keeps waiting brings its query, or is released where it waits for a dead field (R246, R251). -/
def execCausalPacketSend (a : Nat) (st : State) : Result :=
  match tabGet st.accs a with
  | none => .next st
  | some x =>
    if x.phase != .issued || x.onPeer || !(x.sequencedKind || x.requires) || !orderPasses st a x then .next st
    else
      match accHome st x with
      | none => .next st
      | some d =>
        let f := x.field
        if d == f then
          match lostEntry st f f (fieldAt st f).know with
          | some g => .next (releaseLost st a g)
          | none => .next (sendQueries st f)
        else if !budgetAdmits st x.core (homeBytes st x) x.pa then .next st
        else
          let s1 := spendBudget st x.core (homeBytes st x) x.pa
          let sent := if x.sequencedKind then (if portOpen st f d then sendSequenced s1 f d a else none)
            else if fieldGone st f || (pairAt st d f).dead then none else sendRequest s1 f d a
          .next (sent.getD st)

/-- A packet whose buffer is full goes back (R244). -/
def refuse (s : State) (p : Nat) (x : Pkt) : State :=
  let s1 := updField (dropPkt s p) x.dst fun u => { u with undecoded := u.undecoded.erase p }
  sendPkt s1 x.dst x.src (.nack x.body)

/-- A stamped packet enters its buffer, decoded or to wait for its base, or is refused (R239, R241, R242, R244). A stamp counts when its
packet is taken in, so a base stays while a refused or an undecoded packet still names it. -/
def letIn (s : State) (p : Nat) (x : Pkt) (write : Bool) (st : Stamp) (w : Waiting) : State :=
  let d := x.dst
  let known := (fieldAt s d).undecoded.contains p
  let full := !known && bufferUse s d write ≥ bufferSize write
  let keep (t : State) (v : Waiting) : State :=
    updAcc (updField (dropPkt t p) d fun u =>
      { u with undecoded := u.undecoded.erase p
               early := if write then u.early ++ [v] else u.early
               pending := if write then u.pending else u.pending ++ [v] }) w.acc fun a =>
      if a.phase == .sent then { a with phase := .buffered } else a
  match tabGet (pairAt s d x.src).rxBases st.bn with
  | none =>
    if known then s
    else if full then refuse s p x
    else updField s d fun u => { u with undecoded := u.undecoded ++ [p] }
  | some base =>
    let v := { w with vec := applyStamp base st }
    if full && (takeWaiting s d v write).isNone then refuse s p x
    else reexamine (retireBase (countStamp (keep s v) d x.src st.bn) d x.src st.bn) d

/-- SEQUENCED_PACKET_ARRIVAL (R241, R244). A packet of an older generation is refused (R252). -/
def execSequencedPacketArrival (p : Nat) (st : State) : Result :=
  match arriving st p with
  | some x =>
    (match x.body with
      | .write acc seq blink first e =>
        .next (letIn st p x true e { src := x.src, acc := acc, seq := seq, blink := blink, first := first, vec := [] })
      | _ => .next st)
  | none => .next st

/-- READ_REQUEST_ARRIVAL (R242, R244). -/
def execReadRequestArrival (p : Nat) (st : State) : Result :=
  match arriving st p with
  | some x =>
    (match x.body with
      | .read acc e =>
        .next (letIn st p x false e { src := x.src, acc := acc, seq := 0, blink := 0, first := true, vec := [] })
      | _ => .next st)
  | none => .next st

/-- CLOCK_PACKET_ARRIVAL (R239): the base is installed, and the base before it is retired once all its stamps have come. -/
def execClockPacketArrival (p : Nat) (st : State) : Result :=
  match arriving st p with
  | some x =>
    (match x.body with
      | .clock bn c v =>
        let old := (bn + 3) % 4
        let s1 := updPair (dropPkt st p) x.dst x.src fun q =>
          { q with rxBases := tabPut q.rxBases bn v, rxWant := tabPut q.rxWant old c }
        .next (retireBase s1 x.dst x.src old)
      | _ => .next st)
  | none => .next st

/-- BASE_ACK_ARRIVAL (R239): the base number may be used again. -/
def execBaseAckArrival (p : Nat) (st : State) : Result :=
  match arriving st p with
  | some x =>
    (match x.body with
      | .baseAck bn => .next (updPair (dropPkt st p) x.dst x.src fun q =>
          { q with unacked := q.unacked.erase bn, txBases := tabDrop q.txBases bn })
      | _ => .next st)
  | none => .next st

/-- The sequences that a field sent to another and that are not applied yet. -/
def openSeqs (s : State) (g d : Nat) : List Nat :=
  ((s.pkts.filter fun e => e.2.src == g && e.2.dst == d || (e.2.src == d && e.2.dst == g)).filterMap fun e =>
      match e.2.body with
      | .write _ seq _ _ _ => if e.2.src == g then some seq else none
      | .nack b => if e.2.src == d then b.seq else none
      | _ => none) ++
  (pairAt s g d).nacked.filterMap Body.seq ++
  ((fieldAt s d).early.filter fun w => w.src == g).map (·.seq)

/-- HORIZON_QUERY_ANSWER (R243): a field answers once every packet up to `r` has left toward the asker. Where everything up to `r` is
applied, the last sequence that it sent lies at or below the asker's horizon. -/
def execHorizonQueryAnswer (p : Nat) (st : State) : Result :=
  match arriving st p with
  | some x =>
    (match x.body with
      | .query r =>
        let g := x.dst
        let d := x.src
        if (pairAt st g d).nacked.any fun b => (b.seq.map fun n => serLe n r).getD false then .next st
        else
          let last := ((openSeqs st g d).filter fun n => serLe n r).foldl (fun m n => some ((m.map (serMax n)).getD n)) none
          .next (sendPkt (dropPkt st p) g d (.answer r (last.getD ((fieldAt st d).horizon.getD g 0))))
      | _ => .next st)
  | none => .next st

/-- HORIZON_ANSWER_ARRIVAL (R243): once every packet up to `n` is applied, H_D[G] rises to `r`. -/
def execHorizonAnswerArrival (p : Nat) (st : State) : Result :=
  match arriving st p with
  | some x =>
    (match x.body with
      | .answer r n =>
        let d := x.dst
        if !serLe n ((fieldAt st d).horizon.getD x.src 0) then .next st
        else
          let s1 := updPair (dropPkt st p) d x.src fun q => { q with queryOut := false }
          .next (reexamine (raiseHorizon s1 d x.src r) d)
      | _ => .next st)
  | none => .next st

/-- NACK_RECEIPT (R244): the source keeps the packet, and stops sending sequenced packets to that home. -/
def execNackReceipt (p : Nat) (st : State) : Result :=
  match arriving st p with
  | some x =>
    (match x.body with
      | .nack b => .next (updPair (dropPkt st p) x.dst x.src fun q => { q with nacked := q.nacked ++ [b] })
      | _ => .next st)
  | none => .next st

/-- The refused packet that goes next (R244): a read request, which holds no sequence, where it came back first; else the write of the
earliest sequence. -/
def nextResend (l : List Body) : Option Body :=
  let key (b : Body) : Nat := b.seq.getD 0
  match l with
  | [] => none
  | b :: _ => if b.seq.isNone then some b else bestBy (fun x y => key x != key y && serLe (key x) (key y)) (l.filter fun x => x.seq.isSome)

/-- NACK_RESEND (R244): refused packets go again in sequence order, with the same sequence, back-link and stamp; none goes from a dead field
or to one (R251). -/
def execNackResend (field dest : Nat) (st : State) : Result :=
  if (fieldAt st field).state == .dead || (pairAt st field dest).dead then .next st
  else
    match nextResend (pairAt st field dest).nacked with
    | none => .next st
    | some b => .next (sendPkt (updPair st field dest fun q => { q with nacked := q.nacked.erase b }) field dest b)

/-- What a field holds about another rises to a beacon (R249, step 2). -/
def liftEntry (f b : Nat) (v : Vec) : Vec := v.set f (serMax (v.getD f 0) b)

/-- Steps 1 and 2 of a beacon (R249). -/
def takeBeacon (s : State) (d f b : Nat) : State :=
  updField (raiseHorizon s d f b) d fun u =>
    { u with know := liftEntry f b u.know
             stamps := u.stamps.map fun e => (e.1, liftEntry f b e.2)
             early := u.early.map fun w => { w with vec := liftEntry f b w.vec }
             pending := u.pending.map fun w => { w with vec := liftEntry f b w.vec } }

/-- Responses that have not left the port of a field (R239). -/
def unsentResponses (s : State) (d : Nat) : List Nat :=
  (s.accs.filter fun e => e.2.phase == .returning && !e.2.responded && !e.2.stamp.isEmpty && responder s e.2 == some d && e.2.field != d).map (·.1)

/-- What a port holds back (R239, R244), for the acknowledgement of a beacon. -/
def heldBack (s : State) (d b : Nat) : AckDue :=
  { beacon := b, refused := (fieldAt s d).pairs.flatMap fun p => p.2.nacked, responses := unsentResponses s d }

/-- Whether what a port held back as a beacon was applied has left since. -/
def AckDue.drained (s : State) (d : Nat) (x : AckDue) : Bool :=
  (x.refused.all fun b => !(fieldAt s d).pairs.any fun p => p.2.nacked.contains b) &&
  x.responses.all fun a => !(unsentResponses s d).contains a

/-- Beacons of a field are acknowledged by another once the queues have drained past them (R249, step 4); the first one after a return
unfreezes the entry (R250). -/
def ackBeacons (s : State) (d g : Nat) : State :=
  let p := pairAt s d g
  let (now, later) := p.acksDue.partition (AckDue.drained s d)
  if now.isEmpty then s
  else now.foldl (fun t x => sendPkt t d g (.beaconAck x.beacon)) (updPair s d g fun q => { q with acksDue := later, frozen := false })

/-- Every port's acknowledgements are looked at anew. -/
def ackAll (s : State) : State :=
  s.fields.foldl (fun t e => (e.2.pairs.filter fun p => !p.2.acksDue.isEmpty).foldl (fun u p => ackBeacons u e.1 p.1) t) s

/-- Responses of accesses that are no more are taken in for their bases' counts (R239). -/
def sweepResponses (s : State) : State :=
  s.pkts.foldl (fun t e =>
    match e.2.body with
    | .response a st =>
      if (tabGet t.accs a).isSome || (tabGet (pairAt t e.2.dst e.2.src).rxBases st.bn).isNone then t
      else retireBase (countStamp (dropPkt t e.1) e.2.dst e.2.src st.bn) e.2.dst e.2.src st.bn
    | _ => t) s

/-- BEACON_ARRIVAL (R249): it waits for its back-link; then the entries rise, and it is acknowledged once what had been held back has
left. -/
def execBeaconArrival (p : Nat) (st : State) : Result :=
  match arriving st p with
  | some x =>
    (match x.body with
      | .beacon b blink =>
        let d := x.dst
        if !linkApplied st d x.src b blink then .next st
        else
          let s1 := updPair (takeBeacon (dropPkt st p) d x.src b) d x.src fun q => { q with acksDue := q.acksDue ++ [heldBack st d b] }
          .next (ackBeacons (reexamine s1 d) d x.src)
      | _ => .next st)
  | none => .next st

/-- BEACON_ACK_ARRIVAL (R249). -/
def execBeaconAckArrival (p : Nat) (st : State) : Result :=
  match arriving st p with
  | some x =>
    (match x.body with
      | .beaconAck b => .next (updPair (dropPkt st p) x.dst x.src fun q => { q with beaconAcked := serMax q.beaconAcked b })
      | _ => .next st)
  | none => .next st

/-- FINAL_HORIZON_ARRIVAL (R250): applied as a beacon, it freezes the entry and answers a query that is out. -/
def execFinalHorizonArrival (p : Nat) (st : State) : Result :=
  match arriving st p with
  | some x =>
    (match x.body with
      | .finalHorizon w blink =>
        let d := x.dst
        if !linkApplied st d x.src w blink then .next st
        else
          let s1 := updPair (takeBeacon (dropPkt st p) d x.src w) d x.src fun q => { q with frozen := true, queryOut := false }
          .next (reexamine s1 d)
      | _ => .next st)
  | none => .next st

/-! ## The causal reset (R252) -/

/-- The entries of fields that are still dead when a causal reset comes; those of fields that are online become live (R252). -/
def deadPairs (s : State) : Tab PairState :=
  (fieldIds.filter fun x => (fieldAt s x).state == .dead).map fun x => (x, { PairState.reset with dead := true })

/-- A port after a causal reset: a new generation, and everything it held cleared (R236, R252). -/
def FieldUnit.causalReset (u : FieldUnit) (dead : Tab PairState) : FieldUnit :=
  { u with w := 0, know := Vec.zero, horizon := Vec.zero, pairs := dead, stamps := [], early := [], pending := [], undecoded := [],
           gen := (u.gen + 1) % 16 }

/-- Accesses that a causal reset completes with CausalLost (R252): those on their way, in a buffer, or held by a port. -/
def resetVictims (s : State) : List Nat :=
  ((s.accs.filter fun e => e.2.phase == .sent || e.2.phase == .buffered) ++
    fieldIds.flatMap fun f => localWaits s f true ++ localWaits s f false).map (·.1)

/-- CAUSAL_RESET (R252), as one step: nothing is sent meanwhile. Values on their way back arrive without their stamp, and what releases
and acquires had taken up of the old generation's sequences holds no longer. -/
def execCausalReset (st : State) : Result :=
  let s1 := (resetVictims st).foldl (fun t a => releaseLost t a 0xFF) st
  .next { s1 with
    pkts := []
    accs := s1.accs.map fun e => (e.1, { e.2 with stamp := [], need := [], met := [] })
    members := s1.members.map fun e => (e.1, { e.2 with
      owed := [], seen := [], fences := e.2.fences.map fun f => { f with need := [] } })
    cores := s1.cores.map fun e => (e.1, { e.2 with
      outbound := e.2.outbound.map fun x => (x.1, { x.2 with need := [] })
      eng := { e.2.eng with cmds := e.2.eng.cmds.map fun c => (c.1, { c.2 with need := [] }) } })
    fields := fieldIds.map fun f => (f, (fieldAt s1 f).causalReset (deadPairs s1)) }

end Sys2Proof.Machine
end

