-- ==== Sys2Proof/Machine/Fields.lean ====
section
/-!
DEFINITION. Fields and links that leave the module and come back (R250, R251, R310 to R313), the appraiser's replay (R302), and the errors
that are corrected (R307).
-/
namespace Sys2Proof.Machine

/-! ## Failing accesses of every kind -/

/-- A delivered failure of an access that had issued (R212, R251, R270): that of an engine's own write stops its command. -/
def failAny (s : State) (id cause detail : Nat) : State :=
  match tabGet s.accs id with
  | none => s
  | some a =>
    let stop (cmd : Nat) : State := stopCmd { s with accs := tabDrop s.accs id } a.core cmd
      { detail := engineDetail cause, addr := a.addr, note := { view := a.hops, index := a.param, under := cause, underDetail := detail } }
    match a.kind with
    | .engineWrite cmd _ | .advance cmd => if cause == 0x0A then failIssued s id cause detail a.addr else stop cmd
    | _ => failIssued s id cause detail a.addr

/-- Accesses homed in a field that are not complete (R251, R313). -/
def homedIn (s : State) (f : Nat) : List Nat :=
  (s.accs.filter fun e => accHome s e.2 == some f && e.2.phase != .logged && !e.2.kind.isIo).map (·.1)

/-- Packets and buffered entries of accesses that exist no more, and those to or from a field that is gone, are discarded. -/
def purgePackets (s : State) (f : Nat) : State :=
  let live (w : Waiting) : Bool := w.src != f
  { s with
    pkts := s.pkts.filter fun e => e.2.src != f && e.2.dst != f
    fields := s.fields.map fun e => (e.1,
      if e.1 == f then { e.2 with
        early := [], pending := [], undecoded := [], pairs := e.2.pairs.map fun p => (p.1, { p.2 with nacked := [], acksDue := [] }) }
      else { e.2 with
        early := e.2.early.filter live, pending := e.2.pending.filter live,
        undecoded := e.2.undecoded.filter fun p => ((tabGet s.pkts p).map fun x => x.src != f).getD false,
        pairs := tabUpd e.2.pairs f fun q => { q with nacked := [], queryOut := false, acksDue := [] } }) }

/-! ## Field death (R251, R310, R311) -/

/-- The launches with a context on a field. -/
def launchesOn (s : State) (f : Nat) : List Nat := ((s.ctxs.filter fun e => fieldOf (e.1 % 4096) == f).map (·.1 / 4096)).dedup

/-- The units of a field stop where they stand: its members leave, its commands and accesses are no more. -/
def haltField (s : State) (f : Nat) : State :=
  let s1 : State := { s with
    cores := s.cores.map fun e =>
      (e.1, if fieldOf e.1 != f then e.2
        else { e.2 with issue := none, eng := { e.2.eng with cmds := [], prog := none }, transfers := [], swapping := none, log := [] })
    accs := s.accs.filter fun e => fieldOf e.2.core != f || (match e.2.kind with | .completion _ => true | .swait => e.2.peerWait | _ => false) }
  (s1.members.filter fun e => fieldOf e.2.core == f && !hasEnded e.2).foldl
    (fun t e => leaveMember (updMember t e.1 fun m => { m with terminating := false }) e.1) s1

/-- FIELD_DEATH (R251, R310, R311): the field timeout declares a field dead. Its launches are killed, accesses homed there take
PagePermission with detail 1, its packets are discarded, and every other port's entry of it is dead, so that what exceeds it is released
with CausalLost. What waits in the dead field itself takes PagePermission too, against one row of R267 (log 65). -/
def execFieldDeath (field : Nat) (st : State) : Result :=
  if !fieldExists field || (fieldAt st field).state == .dead then .next st
  else
    let s1 := (launchesOn st field).foldl killLaunch st
    let s2 := (homedIn s1 field).foldl (fun t a => failAny t a 0x06 1) (haltField s1 field)
    let s3 := purgePackets s2 field
    let s4 := updField s3 field fun u => { u with state := .dead }
    let others := fieldIds.filter fun d => d != field
    let s5 := others.foldl (fun t d => updPair t d field fun q => { q with dead := true, queryOut := false }) s4
    .next (others.foldl reexamine s5)

/-! ## Links (R307, R310, R311) -/

/-- Links 0 to 63 are those of the optical ports, the others those of the module's own mesh. -/
def updLink (s : State) (k : Nat) (f : Link → Link) : State :=
  updMod s fun m => { m with links := tabPut m.links k (f ((tabGet m.links k).getD Link.reset)) }

def linkDead (s : State) (k : Nat) : Bool := ((tabGet s.mod.links k).map (·.dead)).getD false

/-- Apertures to a module are marked lost (R310, R314). -/
def loseModule (s : State) (module : Nat) : State :=
  updMod s fun m => { m with apertures := m.apertures.map fun e =>
    (e.1, if e.2.module.toNat == module then { e.2 with lost := true } else e.2) }

/-- Every port that routes to a module is dead: its apertures are lost (R314). -/
def checkRoutes (s : State) : State :=
  ((s.ports.filterMap fun p => p.2.circuit).dedup).foldl (fun t m =>
    if s.ports.all fun p => p.2.circuit != some m || linkDead s p.1 then loseModule t m else t) s

/-- Modules that no circuit reaches any more have left the connected group, and their apertures are lost (R314, R317). -/
def regroup (s : State) : State :=
  let gone := s.mod.group.filter fun m => !s.ports.any fun p => p.2.circuit == some m
  checkRoutes (gone.foldl loseModule (updMod s fun m => { m with group := m.group.filter fun x => !gone.contains x }))

/-- A module that has been declared dead is fenced: the ranges granted to it are cleared, and what it sends is discarded (R311). -/
def fenceModule (s : State) (module : Nat) : State :=
  updMod s fun m => { m with
    ranges := m.ranges.map fun e => (e.1, if e.1 / 16 == module then { e.2 with v := false } else e.2)
    fenced := if m.fenced.contains module then m.fenced else m.fenced ++ [module] }

/-- Circuits to a module are torn down (R310). -/
def dropCircuits (s : State) (module : Nat) : State :=
  { s with ports := s.ports.map fun p => (p.1, if p.2.circuit == some module then { p.2 with circuit := none } else p.2) }

/-- LINK_ACK_TIMEOUT (R310): 4 µs without acknowledgement: the link replays. The first timeout starts the first replay, and each later one
means that a replay has failed: the sixteenth failed replay marks the link dead, and it is disabled (R311). -/
def execLinkAckTimeout (link : Nat) (st : State) : Result :=
  if linkDead st link then .next st
  else
    let s1 := updLink st link fun l => { replays := l.replays + 1, dead := 17 ≤ l.replays + 1 }
    .next (if linkDead s1 link then checkRoutes s1 else s1)

/-- A link's acknowledgement comes (R310): a replay has succeeded, and failures are counted anew. -/
def linkAcked (s : State) (link : Nat) : State := if linkDead s link then s else updLink s link fun l => { l with replays := 0 }

/-- FLIT_CRC_FAIL (R307): the flit is replayed, and the correction counted. -/
def execFlitCrcFail (link : Nat) (st : State) : Result :=
  .next (if linkDead st link then st else updMod st fun m => { m with corrected := m.corrected + 1 })

/-- MODULE_TIMEOUT (R310, R311): a silent peer's apertures are lost, circuits through it are torn down, and it is fenced. -/
def execModuleTimeout (module : Nat) (st : State) : Result :=
  .next (fenceModule (regroup (dropCircuits (loseModule st module) module)) module)

/-- POD_TIMEOUT (R310, R311, R314): a module silent for 200 ms leaves the connected group, circuits to it are torn down, its apertures are
lost, and it is fenced. -/
def execPodTimeout (module : Nat) (st : State) : Result :=
  let s1 := dropCircuits (loseModule (updMod st fun m => { m with group := m.group.filter (· != module) }) module) module
  .next (fenceModule (regroup s1) module)

/-- The reset of a dead field before its readmission (R311): its cores and its field unit stand as after reset, but for the clocks, which
count from module reset, and for the causal entries, which stay as they are until a causal reset (R252). -/
def resetField (s : State) (f : Nat) : State :=
  let s1 : State := { s with cores := s.cores.map fun e =>
    (e.1, if fieldOf e.1 == f then { CoreUnit.reset with cyc := e.2.cyc, ticks := e.2.ticks } else e.2) }
  updField s1 f fun u => { u with state := .online, spare := false, noRoom := false, accession := [], accAge := [] }

/-- LINK_READMIT (R311): Sernus readmits a member, which is reset first: a link by its number, a dead field as 65,536 plus its number, a
fenced module as 131,072 plus its number. -/
def execLinkReadmit (member : Nat) (st : State) : Result :=
  if member < 65536 then .next (updLink st member fun _ => Link.reset)
  else if member < 131072 then
    .next (if (fieldAt st (member - 65536)).state == .dead then resetField st (member - 65536) else st)
  else .next (updMod st fun m => { m with fenced := m.fenced.filter (· != member - 131072) })

/-! ## Drain and return (R250, R312, R313) -/

/-- A write of CMD of a field unit with a code (R312). -/
def fieldCommand (st : State) (a cmd : Nat) (run : Nat → State) : Result :=
  ioStep st a fun u off l =>
    match u with
    | .field f => if off == 8 && natBit l.2 0 && natBits l.1 0 2 == cmd then some (run f) else none
    | _ => none

/-- Contexts of a field that are in. -/
def ctxsOnField (s : State) (f : Nat) : List (Nat × Ctx) := s.ctxs.filter fun e => fieldOf (e.1 % 4096) == f && !e.2.isOut

/-- Whether a leaf of page tables maps a page into a predicate's region: the tables from one on, level by level (R173, R174). -/
def mapsInto (s : State) (hit : Nat → Nat → Bool) : Nat → Nat → Nat → Bool
  | 0, _, _ => false
  | fuel + 1, level, table =>
    (List.range (if level == 0 then 8 else 512)).any fun i =>
      let e := readNat s (table + 8 * i) 8
      Pte.v e &&
      (if Pte.isPointer e then level < 5 && mapsInto s hit fuel (level + 1) (Pte.addr e)
       else Pte.ap e == 0 && hit (Pte.addr e) (2 ^ levelShift level))

/-- Whether a context reaches memory of a region: by its WAFER or code segment, or by a mapped page. -/
def reaches (s : State) (hit : Nat → Nat → Bool) (c : Ctx) : Bool :=
  let d (i : Nat) : DescBits := c.desc.toList.getD i 0
  (Desc.v (d 2) && hit (Desc.base (d 2)) (Desc.limit (d 2))) ||
  (Desc.v (d 5) && Desc.space (d 5) == 2 && hit (Desc.base (d 5) % 2 ^ 60) (Desc.limit (d 5))) ||
  (Desc.v (d 4) && mapsInto s hit 6 0 (Desc.base (d 4)))

/-- The runs of memory that the module itself uses: the record ring, the archive and the capture buffer (R283, R301, R303). -/
def moduleRuns (s : State) : List (Nat × Nat) :=
  let m := s.mod
  (m.rbase.toNat * 128, 2 ^ (m.rk.toNat + 11)) :: (m.archBase.toNat * 4096, 64 * m.part.toNat * 4096) :: [(m.abuf.toNat * 4096, m.asize.toNat * 4096)]

/-- Whether a run of memory is free: no context reaches it, the module does not use it, and no copy stands there (R313; log 10). -/
def isFree (s : State) (a n : Nat) : Bool :=
  !((moduleRuns s).any fun r => runsMeet r.1 r.2 a n) && !(s.mod.redirect.any fun e => runsMeet e.2 pieceSize a n) &&
  !(s.ctxs.any fun e => reaches s (fun b k => runsMeet b k a n) e.2)

/-- The free slices of the fields with SPARE set, in ascending order: those of cores on which no context has memory (R312, R313). -/
def spareSlices (s : State) (f : Nat) : List Nat :=
  let fields := fieldIds.filter fun g => g != f && isOnline s g && (fieldAt s g).spare
  ((fields.flatMap coresOf).filter fun c =>
    (ctxsOf s c).isEmpty && (tabGet s.mod.redirect c).isNone && isFree s (sliceBase c) pieceSize).map sliceBase

/-- The pieces of a field's ranges: its slices in core order, and then its B-dies. -/
def fieldPieces (f : Nat) : List Nat :=
  (List.range 64).map (f * 64 + ·) ++ (List.range 256).map (4096 + f * 256 + ·)

/-- How much of HBM4 a drain needs beside the slices of SPARE fields, in pieces (R313). -/
def overflow (s : State) (f : Nat) : Nat := (fieldPieces f).length - (spareSlices s f).length

/-- Whether the redirection of a field stands (R313). -/
def isMoved (s : State) (f : Nat) : Bool := (tabGet s.mod.redirect (f * 64)).isSome

/-- FIELD_DRAIN_COMMAND (R313): where the space holds everything, the contexts of the field are switched out; else the drain is refused.
Where the SPARE fields cannot hold it, a free value says whether HBM4, which Sernus gives out, has room for the rest (log 10). -/
def execFieldDrainCommand (a : Nat) (st : State) : Result :=
  fieldCommand st a 1 fun f =>
    if !isOnline st f then st
    else
      let (n, s1) := drawFree st
      if Config.freeChoice n % 2 == 0 && !isMoved st f && overflow st f != 0 then
        updField s1 f fun u => { u with state := .drainBlocked, noRoom := true }
      else
        let s2 := updField s1 f fun u => { u with state := .draining, noRoom := false }
        (ctxsOnField s2 f).foldl (fun t e =>
          let (img, t1) := freeImage t
          switchFor t1 .drain (e.1 / 4096) (e.1 % 4096) img) s2

/-- Final horizons to every live field (R250). -/
def sendFinal (s : State) (f : Nat) : State :=
  (fieldIds.filter fun d => d != f && !fieldGone s d).foldl
    (fun t d => sendPkt t f d (.finalHorizon (fieldAt t f).w (pairAt t f d).lastSent)) s

/-- The place of each piece of a field's copy: first the free slices of SPARE fields, then HBM4 from a base on (R313). -/
def copyPlan (s : State) (f base : Nat) : List (Nat × Nat) :=
  let spare := spareSlices s f
  (fieldPieces f).zipIdx.map fun p => (p.1, spare.getD p.2 (base + (p.2 - spare.length) * pieceSize))

/-- Whether what SPARE fields do not hold may stand in HBM4 from a base on: memory that is free (R313). -/
def copyFits (s : State) (f base : Nat) : Bool :=
  let n := overflow s f * pieceSize
  n == 0 || (match regionOf base, regionOf (base + n - 1) with
    | .hbm _, .hbm _ => base % pieceSize == 0 && isFree s base n
    | _, _ => false)

/-- Memory once the pieces of a plan are copied to their places. -/
def copyPieces (m : Memory) (plan : List (Nat × Nat)) : Memory :=
  let clean := m.filter fun c => !plan.any fun p => p.2 ≤ c.1 && c.1 < p.2 + pieceSize
  m.foldl (fun acc c => match tabGet plan (c.1 / pieceSize) with
    | some b => memWrite acc (b + c.1 % pieceSize) c.2
    | none => acc) clean

/-- Poison goes with its bytes (R308): marks of a piece that is copied stand at its copy, and what the copy overwrites has none. -/
def copyPoison (l : List Nat) (plan : List (Nat × Nat)) : List Nat :=
  (l.filter fun g => (tabGet plan (g / pieceSize)).isNone && !plan.any fun p => p.2 ≤ g && g < p.2 + pieceSize) ++
  l.filterMap fun g => (tabGet plan (g / pieceSize)).map fun b => b + g % pieceSize

/-- The redirections once the pieces of a plan stand at their places: copies of other fields that lay there have moved with them. -/
def redirected (r plan : List (Nat × Nat)) : List (Nat × Nat) :=
  plan.foldl (fun t p => tabPut t p.1 p.2)
    (r.map fun e => match tabGet plan (e.2 / pieceSize) with | some b => (e.1, b + e.2 % pieceSize) | none => e)

/-- The field has nothing more to copy or send: its contexts are out, and nothing of it waits for its port (R250, R313). -/
def drainDone (s : State) (f : Nat) : Bool :=
  (ctxsOnField s f).isEmpty && !(s.accs.any fun e => e.2.field == f && e.2.phase == .issued && crosses s e.2) &&
  (fieldAt s f).pairs.all fun p => p.2.nacked.isEmpty

/-- Drained contexts are to be restored on other cores (R313). -/
def restoreDrained (s : State) (f : Nat) : State :=
  (s.ctxs.filter fun e => fieldOf (e.1 % 4096) == f && e.2.isOut && e.2.outFor == .drain).foldl (fun t e =>
    addJob t { kind := .drain, launch := e.1 / 4096, core := e.1 % 4096, target := e.1 % 4096, image := physImage 0, member := 0, tok := 7,
               dst := .none, word := 0, restoring := true, status := 0 }) s

/-- FIELD_DRAIN_COMPLETE (R313): the copy stands, the field's ranges are redirected to it, its contexts come back elsewhere, and it goes
offline with its final horizon (R250). Clauses are fetched anew from where they lie. -/
def execFieldDrainComplete (field copyBase : Nat) (st : State) : Result :=
  let moved := isMoved st field
  if (fieldAt st field).state != .draining || !drainDone st field || !(moved || copyFits st field copyBase) then .next st
  else
    let s1 : State := if moved then st else
      { st with
        mem := copyPieces st.mem (copyPlan st field copyBase)
        mod := { st.mod with
          redirect := redirected st.mod.redirect (copyPlan st field copyBase)
          poison := copyPoison st.mod.poison (copyPlan st field copyBase) }
        cores := st.cores.map fun e => (e.1, { e.2 with clauses := [], codeLines := [] }) }
    let s2 := sendFinal (restoreDrained s1 field) field
    .next (updField s2 field fun u => { u with state := .offline })

/-- Whether a run of physical addresses meets a field's slices or B-dies, or ranges whose copy lies there. -/
def meetsField (s : State) (f a n : Nat) : Bool :=
  (!isMoved s f && (runsMeet a n (f * 0x4000000) 0x4000000 || runsMeet a n (0x100000000 + f * 0x10000000) 0x10000000)) ||
  s.mod.redirect.any fun e => runsMeet e.2 pieceSize (f * 0x4000000) 0x4000000 && runsMeet a n (e.1 * pieceSize) pieceSize

/-- Whether a launch has data in a field's ranges (R313): a context there, a WAFER or code segment over them, or a mapped page. -/
def dataIn (s : State) (f : Nat) (e : Nat × Ctx) : Bool := fieldOf (e.1 % 4096) == f || reaches s (meetsField s f) e.2

/-- FIELD_FORCED_OFFLINE (R313): without a copy, launches with a context on the field or data in its ranges are killed, and accesses there
take PagePermission with detail 1. -/
def execFieldForcedOffline (a : Nat) (st : State) : Result :=
  fieldCommand st a 2 fun f =>
    if fieldGone st f then st
    else
      let hit := st.ctxs.filter (dataIn st f)
      let s1 := ((hit.map (·.1 / 4096)).dedup).foldl killLaunch st
      let s2 := (homedIn s1 f).foldl (fun t x => failAny t x 0x06 1) (haltField s1 f)
      updField (sendFinal s2 f) f fun u => { u with state := .offline }

/-- FIELD_RETURN_ONLINE (R250, R313): the field resumes from its final horizon; while its redirection stands, the copy serves its ranges. -/
def execFieldReturnOnline (a : Nat) (st : State) : Result :=
  fieldCommand st a 3 fun f =>
    if (fieldAt st f).state == .offline then updField st f fun u => { u with state := .online } else st

/-- Sernus clears the redirection of a field's ranges (R313); clauses are fetched anew. -/
def clearRedirect (s : State) (f : Nat) : State :=
  { s with mod := { s.mod with redirect := s.mod.redirect.filter fun e => !(fieldPieces f).contains e.1 }
           cores := s.cores.map fun e => (e.1, { e.2 with clauses := [], codeLines := [] }) }

/-! ## The appraiser (R302) -/

/-- The core that replays a unit: the unclaimed one of lowest number in another field. -/
def replayCore (s : State) (origin : Nat) : Option Nat :=
  (fieldIds.flatMap coresOf).find? fun g =>
    fieldOf g != fieldOf origin && isOnline s (fieldOf g) && (coreAt s g).eng.owner.isNone

/-- The contexts of a quarantined core are switched out (R302). -/
def quarantine (s : State) (core : Nat) : State :=
  (ctxsOf s core).foldl (fun t e =>
      let (img, t1) := freeImage t
      switchFor t1 .quarantine (e.1 / 4096) core img)
    (updCore s core fun u => { u with quarantined := true })

/-- A command of a captured unit on the replay core: what it has read stands in place of memory (R302). -/
def replayStep (p : Engines × List Byte) (c : CapStep) : Engines × List Byte :=
  let (e, w) := match c.cmd.kind with
    | .copy => (p.1, copyStores c.cmd c.e0 c.n c.vals)
    | _ => arrayApply c.cmd c.vals p.1
  (e, if c.cmd.docent then p.2 ++ storeBytes w else p.2)

/-- The signature that a sound array gives a unit in its replay, in engine order (R302). -/
def replaySignature (u : Unit301) : Nat :=
  let start : Engines := { Engines.reset with accs := u.accs, parts := u.planes.1, partState := u.planes.2 }
  let (e, w) := (sortBy (fun a b => a.cmd.order < b.cmd.order) u.inputs).foldl replayStep (start, [])
  crc64 (w ++ accsBytes e.accs)

/-- A replay has ended (R302): between sound arrays the signatures agree bit for bit; where one of the two is not sound, what its signature
is, is left open (log 6). -/
def endReplay (s : State) (u : Unit301) (rest : List Unit301) (r : Nat) : State :=
  let (n, s1) := drawFree (updMod s fun m => { m with units := rest, sampled := m.sampled + 1, replay := none })
  let agrees := if Config.arraySound u.core && Config.arraySound r then replaySignature u == u.signature
    else Config.freeChoice n % 2 == 0
  if agrees then s1
  else
    let s2 := updMod s1 fun m => { m with mismatch := m.mismatch + 1, suspect := m.suspect.or (some (u.core, r, u.launch)) }
    quarantine (raiseEvent s2 moduleEvent) u.core

/-- APPRAISER_REPLAY (R302): the replay of the oldest captured unit begins on its core, or ends there. -/
def execAppraiserReplay (st : State) : Result :=
  match st.mod.units, st.mod.replay with
  | [], _ => .next st
  | u :: rest, some r => .next (endReplay st u rest r)
  | u :: _, none =>
    match replayCore st u.core with
    | none => .next st
    | some r => .next (updMod st fun m => { m with replay := some r })

end Sys2Proof.Machine
end

