-- ==== Sys2Proof/Machine/Fp32.lean ====
section
/-!
DEFINITION. The FP32 group 0x3 (R147 to R154): source modifiers, then one operation of Float.lean on the patterns.
-/
namespace Sys2Proof.Machine

/-- A source modifier on the sign bit: absolute value, then negation (R148). -/
def modBits (f : FFmt) (neg ab : Bool) (x : Nat) : Nat :=
  let a := if ab then x % f.signBit else x
  if neg then (if f.isNeg a then a - f.signBit else a + f.signBit) else a

def Mods.a (f : FFmt) (m : Mods) (x : Nat) : Nat := modBits f m.negA m.absA x
def Mods.b (f : FFmt) (m : Mods) (x : Nat) : Nat := modBits f m.negB m.absB x
def Mods.c (f : FFmt) (m : Mods) (x : Nat) : Nat := modBits f m.negC m.absC x

/-- The pattern of an FP32 operand. -/
def fpBits (v : Word64) : Nat := (lo32 v).toNat

/-- FP32 forms with one, two and three sources, after modifiers. -/
def fp1 (c : Common) (d : Dst) (a : Src) (m : Mods) (f : Nat → Nat) (st : State) : Result :=
  valueInstr st c d false [(.f32, a)] fun vs =>
    match vs with
    | [x] => BitVec.ofNat 64 (f (Mods.a .fp32 m (fpBits x)))
    | _ => 0

def fp2 (c : Common) (d : Dst) (a b : Src) (m : Mods) (f : Nat → Nat → Nat) (st : State) : Result :=
  valueInstr st c d false [(.f32, a), (.f32, b)] fun vs =>
    match vs with
    | [x, y] => BitVec.ofNat 64 (f (Mods.a .fp32 m (fpBits x)) (Mods.b .fp32 m (fpBits y)))
    | _ => 0

/-- FADD (R151). -/
def execFadd (c : Common) (d : Dst) (a b : Src) (r : FRnd) (st : State) : Result :=
  fp2 c d a b r.mods (FFmt.fp32.fadd r.rm r.fz) st

/-- FSUB (R151). -/
def execFsub (c : Common) (d : Dst) (a b : Src) (r : FRnd) (st : State) : Result :=
  fp2 c d a b r.mods (FFmt.fp32.fsub r.rm r.fz) st

/-- FMUL (R151). -/
def execFmul (c : Common) (d : Dst) (a b : Src) (r : FRnd) (st : State) : Result :=
  fp2 c d a b r.mods (FFmt.fp32.fmul r.rm r.fz) st

/-- FDIV (R151). -/
def execFdiv (c : Common) (d : Dst) (a b : Src) (r : FRnd) (st : State) : Result :=
  fp2 c d a b r.mods (FFmt.fp32.fdiv r.rm r.fz) st

/-- FFMA (R151). -/
def execFfma (c : Common) (d : Dst) (a b e : Src) (r : FRnd) (st : State) : Result :=
  valueInstr st c d false [(.f32, a), (.f32, b), (.f32, e)] fun vs =>
    match vs with
    | [x, y, z] => BitVec.ofNat 64 (FFmt.fp32.ffma r.rm r.fz (Mods.a .fp32 r.mods (fpBits x))
        (Mods.b .fp32 r.mods (fpBits y)) (Mods.c .fp32 r.mods (fpBits z)))
    | _ => 0

/-- FMIN (R152). -/
def execFmin (c : Common) (d : Dst) (a b : Src) (fz : Bool) (m : Mods) (st : State) : Result :=
  fp2 c d a b m (FFmt.fp32.fminmax false fz) st

/-- FMAX (R152). -/
def execFmax (c : Common) (d : Dst) (a b : Src) (fz : Bool) (m : Mods) (st : State) : Result :=
  fp2 c d a b m (FFmt.fp32.fminmax true fz) st

/-- FCMP (R152). -/
def execFcmp (c : Common) (d : Dst) (a b : Src) (cc : FCond) (fz : Bool) (m : Mods) (st : State) : Result :=
  fp2 c d a b m (fun x y => boolNat (FFmt.fp32.fcmp cc fz x y)) st

/-- FCLASS reads the unmodified pattern (R152). -/
def execFclass (c : Common) (d : Dst) (a : Src) (st : State) : Result :=
  valueInstr st c d false [(.f32, a)] fun vs =>
    match vs with
    | [x] => BitVec.ofNat 64 (fclassMask (fpBits x))
    | _ => 0

/-- FRCP (R153). -/
def execFrcp (c : Common) (d : Dst) (a : Src) (fz : Bool) (m : Mods) (st : State) : Result :=
  fp1 c d a m (frcp32 fz) st

/-- FRSQ (R153). -/
def execFrsq (c : Common) (d : Dst) (a : Src) (fz : Bool) (m : Mods) (st : State) : Result :=
  fp1 c d a m (frsq32 fz) st

/-- FEXP2 (R153). -/
def execFexp2 (c : Common) (d : Dst) (a : Src) (fz : Bool) (m : Mods) (st : State) : Result :=
  fp1 c d a m (fexp2_32 fz) st

/-- FLOG2 (R153). -/
def execFlog2 (c : Common) (d : Dst) (a : Src) (fz : Bool) (m : Mods) (st : State) : Result :=
  fp1 c d a m (flog2_32 fz) st

/-- FSIN (R153). -/
def execFsin (c : Common) (d : Dst) (a : Src) (fz : Bool) (m : Mods) (st : State) : Result :=
  fp1 c d a m (fsin32 fz) st

/-- FCOS (R153). -/
def execFcos (c : Common) (d : Dst) (a : Src) (fz : Bool) (m : Mods) (st : State) : Result :=
  fp1 c d a m (fcos32 fz) st

/-- FTANH (R153). -/
def execFtanh (c : Common) (d : Dst) (a : Src) (fz : Bool) (m : Mods) (st : State) : Result :=
  fp1 c d a m (ftanh32 fz) st

/-- FFRAC (R154). -/
def execFfrac (c : Common) (d : Dst) (a : Src) (fz : Bool) (m : Mods) (st : State) : Result :=
  fp1 c d a m (FFmt.fp32.ffrac fz) st

/-- FSQRT (R151). -/
def execFsqrt (c : Common) (d : Dst) (a : Src) (r : FRnd) (st : State) : Result :=
  fp1 c d a r.mods (FFmt.fp32.fsqrt r.rm r.fz) st

/-- FRND (R154). -/
def execFrnd (c : Common) (d : Dst) (a : Src) (r : FRnd) (st : State) : Result :=
  fp1 c d a r.mods (FFmt.fp32.frnd r.rm r.fz) st

/-- FSCALE (R154). -/
def execFscale (c : Common) (d : Dst) (a b : Src) (r : FRnd) (st : State) : Result :=
  valueInstr st c d false [(.f32, a), (.w32, b)] fun vs =>
    match vs with
    | [x, y] => BitVec.ofNat 64 (FFmt.fp32.fscale r.rm r.fz (Mods.a .fp32 r.mods (fpBits x)) (lo32 y).toInt)
    | _ => 0

end Sys2Proof.Machine
end

