-- ==== Sys2Proof/Machine/Integer.lean ====
section
/-!
DEFINITION. The integer group 0x0 (R126 to R129): each result as exact integers, then wrapped or clamped.
-/
namespace Sys2Proof.Machine

/-- Exact sum or difference, clamped to the named type with SAT, else wrapped (R129). -/
def addSub (w : Nat) (isSub sat sg : Bool) (a b : Nat) : Nat :=
  let x := asType sg w a
  let y := asType sg w b
  let v := if isSub then x - y else x + y
  wrapInt w (if sat then clampInt sg w v else v)

/-- ADD, SUB, ADDD and SUBD (R129). -/
def addSubInstr (wide isSub : Bool) (c : Common) (d : Dst) (a b : Src) (sat sg : Bool) (st : State) : Result :=
  valueInstr st c d wide [(tyOf wide, a), (tyOf wide, b)] fun vs =>
    match vs with
    | [x, y] => BitVec.ofNat 64 (addSub (widthOf wide) isSub sat sg x.toNat y.toNat)
    | _ => 0

/-- ADDC and SUBB: the carry or borrow predicate is written after the destination, whatever K (R56, R129). -/
def carryInstr (isSub : Bool) (c : Common) (d : Dst) (a b : Src) (pOut pIn : BitVec 3) (cin : Bool) (st : State) :
    Result :=
  let ops := [(Ty.w32, a), (Ty.w32, b)]
  runForm st c (fun m => formFault m d false ops) ops (guardedOff st d false) fun k m vs =>
    match vs with
    | [x, y] =>
      let ci := cin && m.r.getP pIn
      let v := wrapInt 32 (if isSub then (lo32 x).toNat - (lo32 y).toNat - (boolNat ci : Int)
        else (lo32 x).toNat + (lo32 y).toNat + (boolNat ci : Int))
      let co := if isSub then borrowOut (lo32 x) (lo32 y) ci else carryOut (lo32 x) (lo32 y) ci
      setPred (result st k c d false (BitVec.ofNat 64 v)) k.member pOut co
    | _ => st

/-- The 64-bit product of two words read as S says (R129). -/
def product (sg : Bool) (a b : Word) : Word64 := BitVec.ofInt 64 (asType sg 32 a.toNat * asType sg 32 b.toNat)

/-- NEG and ABS of an I32, wrapped or clamped (R129). -/
def negInt (sat : Bool) (a : Word) : Word := BitVec.ofInt 32 (if sat then clampInt true 32 (-a.toInt) else -a.toInt)
def absInt (sat : Bool) (a : Word) : Word :=
  BitVec.ofInt 32 (if sat then min (a.toInt.natAbs : Int) (2 ^ 31 - 1) else a.toInt.natAbs)

/-- MIN and MAX read as S says; the bits of the chosen source (R129). -/
def minMaxInt (isMax sg : Bool) (a b : Word) : Word :=
  let less := asType sg 32 a.toNat ≤ asType sg 32 b.toNat
  if isMax then (if less then b else a) else if less then a else b

/-- Byte `i` of a word. -/
def byteOf (v : Word) (i : Nat) : Nat := natBits v.toNat (8 * i) 8

/-- The sum of absolute differences of four unsigned bytes (R129). -/
def sadSum (a b c : Word) : Word :=
  BitVec.ofNat 32 (c.toNat + ((List.range 4).map fun i =>
    ((byteOf a i : Int) - byteOf b i).natAbs).foldl (· + ·) 0)

/-- The dot product of four bytes added to an I32 (R129). -/
def dot4Sum (sa sb sat : Bool) (a b c : Word) : Word :=
  let x := c.toInt + ((List.range 4).map fun i => asType sa 8 (byteOf a i) * asType sb 8 (byteOf b i)).foldl (· + ·) 0
  BitVec.ofInt 32 (if sat then clampInt true 32 x else x)

/-- A form of Format I with a g source and an immediate (R128, R130). -/
def immInstr (c : Common) (d : Dst) (wide : Bool) (r : BitVec 6) (f : Word64 → Word64) (st : State) : Result :=
  valueInstr st c d wide [(tyOf wide, .g r)] fun vs =>
    match vs with
    | [x] => f x
    | _ => 0

/-- ADD (R129). -/
def execAdd (c : Common) (d : Dst) (a b : Src) (sat sg : Bool) (st : State) : Result :=
  addSubInstr false false c d a b sat sg st

/-- SUB (R129). -/
def execSub (c : Common) (d : Dst) (a b : Src) (sat sg : Bool) (st : State) : Result :=
  addSubInstr false true c d a b sat sg st

/-- ADDC (R129). -/
def execAddc (c : Common) (d : Dst) (a b : Src) (pOut pIn : BitVec 3) (cin : Bool) (st : State) : Result :=
  carryInstr false c d a b pOut pIn cin st

/-- SUBB (R129). -/
def execSubb (c : Common) (d : Dst) (a b : Src) (pOut pIn : BitVec 3) (cin : Bool) (st : State) : Result :=
  carryInstr true c d a b pOut pIn cin st

/-- MUL (R129). -/
def execMul (c : Common) (d : Dst) (a b : Src) (st : State) : Result :=
  valueInstr st c d false [(.w32, a), (.w32, b)] (binary fun x y => x * y)

/-- MULH (R129). -/
def execMulh (c : Common) (d : Dst) (a b : Src) (sg : Bool) (st : State) : Result :=
  valueInstr st c d false [(.w32, a), (.w32, b)] (binary fun x y => (product sg x y).extractLsb' 32 32)

/-- MAD (R129). -/
def execMad (c : Common) (d : Dst) (a b e : Src) (st : State) : Result :=
  valueInstr st c d false [(.w32, a), (.w32, b), (.w32, e)] (ternary fun x y z => x * y + z)

/-- NEG (R129). -/
def execNeg (c : Common) (d : Dst) (a : Src) (sat _sg : Bool) (st : State) : Result :=
  valueInstr st c d false [(.w32, a)] (unary (negInt sat))

/-- ABS (R129). -/
def execAbs (c : Common) (d : Dst) (a : Src) (sat _sg : Bool) (st : State) : Result :=
  valueInstr st c d false [(.w32, a)] (unary (absInt sat))

/-- MIN (R129). -/
def execMin (c : Common) (d : Dst) (a b : Src) (sg : Bool) (st : State) : Result :=
  valueInstr st c d false [(.w32, a), (.w32, b)] (binary (minMaxInt false sg))

/-- MAX (R129). -/
def execMax (c : Common) (d : Dst) (a b : Src) (sg : Bool) (st : State) : Result :=
  valueInstr st c d false [(.w32, a), (.w32, b)] (binary (minMaxInt true sg))

/-- ADDD (R129). -/
def execAddd (c : Common) (d : Dst) (a b : Src) (sat sg : Bool) (st : State) : Result :=
  addSubInstr true false c d a b sat sg st

/-- SUBD (R129). -/
def execSubd (c : Common) (d : Dst) (a b : Src) (sat sg : Bool) (st : State) : Result :=
  addSubInstr true true c d a b sat sg st

/-- MULW (R129). -/
def execMulw (c : Common) (d : Dst) (a b : Src) (sg : Bool) (st : State) : Result :=
  valueInstr st c d true [(.w32, a), (.w32, b)] fun vs =>
    match vs with
    | [x, y] => product sg (lo32 x) (lo32 y)
    | _ => 0

/-- SAD (R129). -/
def execSad (c : Common) (d : Dst) (a b e : Src) (st : State) : Result :=
  valueInstr st c d false [(.w32, a), (.w32, b), (.w32, e)] (ternary sadSum)

/-- DOT4 (R129). -/
def execDot4 (c : Common) (d : Dst) (a b e : Src) (sa sb sat : Bool) (st : State) : Result :=
  valueInstr st c d false [(.w32, a), (.w32, b), (.w32, e)] (ternary (dot4Sum sa sb sat))

/-- ADDI (R129). -/
def execAddi (c : Common) (d : Dst) (wide : Bool) (r : BitVec 6) (imm : Word) (st : State) : Result :=
  immInstr c d wide r (fun x => if wide then x + imm.signExtend 64 else ext (lo32 x + imm)) st

/-- LDI (R129). -/
def execLdi (c : Common) (d : Dst) (wide : Bool) (imm : Word) (st : State) : Result :=
  valueInstr st c d wide [] fun _ => if wide then imm.signExtend 64 else ext imm

end Sys2Proof.Machine
end

