-- ==== Sys2Proof/Machine/Logic.lean ====
section
/-!
DEFINITION. The logic, shift and bit group 0x1 (R130, R131).
-/
namespace Sys2Proof.Machine

/-- Shifts by a count of 32 or more give 0, or the sign (R131). -/
def shlW (a n : Word) : Word := if n.toNat ≥ 32 then 0 else a <<< n.toNat
def shrW (a n : Word) : Word := if n.toNat ≥ 32 then 0 else a >>> n.toNat
def sarW (a n : Word) : Word := if n.toNat ≥ 32 then (if a.msb then 0xFFFFFFFF else 0) else a.sshiftRight n.toNat
def rolW (a n : Word) : Word := a.rotateLeft (n.toNat % 32)
/-- Funnel shifts by the count modulo 32 (R131). -/
def shldW (hi lo n : Word) : Word := ((hi ++ lo) <<< (n.toNat % 32)).extractLsb' 32 32
def shrdW (hi lo n : Word) : Word := ((hi ++ lo) >>> (n.toNat % 32)).extractLsb' 0 32

/-- Leading zeros (R131). -/
def clzW (a : Word) : Word := BitVec.ofNat 32 (32 - bitLen a.toNat)
/-- One bits (R131). -/
def popcW (a : Word) : Word := BitVec.ofNat 32 ((List.range 32).map fun i => boolNat (a.getLsbD i)).sum
/-- Bit reversal (R131). -/
def brevW (a : Word) : Word := a.reverse

/-- The position and clipped length of a field descriptor, if it selects any bit (R131). -/
def fieldOfDesc (desc : Word) : Option (Nat × Nat) :=
  let pos := natBits desc.toNat 0 8
  let len := natBits desc.toNat 8 8
  if pos ≥ 32 || len == 0 then none else some (pos, min len (32 - pos))

/-- BFX (R131). -/
def bfxW (sg : Bool) (a desc : Word) : Word :=
  match fieldOfDesc desc with
  | none => 0
  | some (pos, len) => BitVec.ofInt 32 (asType sg len (natBits a.toNat pos len))

/-- BFI (R131). -/
def bfiW (a base desc : Word) : Word :=
  match fieldOfDesc desc with
  | none => base
  | some (pos, len) =>
    let mask : Word := BitVec.ofNat 32 ((2 ^ len - 1) * 2 ^ pos)
    (base &&& ~~~mask) ||| ((a <<< pos) &&& mask)

/-- One byte of PERM (R131). -/
def permByte (a b sel : Word) (i : Nat) : Nat :=
  let s := natBits sel.toNat (4 * i) 4
  let v := if s % 8 < 4 then byteOf a (s % 4) else byteOf b (s % 4)
  if s ≥ 8 then (if v ≥ 128 then 255 else 0) else v

/-- PERM (R131). -/
def permW (a b sel : Word) : Word :=
  BitVec.ofNat 32 (permByte a b sel 0 + 256 * permByte a b sel 1 + 65536 * permByte a b sel 2 +
    16777216 * permByte a b sel 3)

/-- AND (R131). -/
def execAnd (c : Common) (d : Dst) (a b : Src) (st : State) : Result :=
  valueInstr st c d false [(.w32, a), (.w32, b)] (binary (fun x y => x &&& y))

/-- OR (R131). -/
def execOr (c : Common) (d : Dst) (a b : Src) (st : State) : Result :=
  valueInstr st c d false [(.w32, a), (.w32, b)] (binary (fun x y => x ||| y))

/-- XOR (R131). -/
def execXor (c : Common) (d : Dst) (a b : Src) (st : State) : Result :=
  valueInstr st c d false [(.w32, a), (.w32, b)] (binary (fun x y => x ^^^ y))

/-- ANDN (R131). -/
def execAndn (c : Common) (d : Dst) (a b : Src) (st : State) : Result :=
  valueInstr st c d false [(.w32, a), (.w32, b)] (binary (fun x y => x &&& ~~~y))

/-- NOT (R131). -/
def execNot (c : Common) (d : Dst) (a : Src) (st : State) : Result :=
  valueInstr st c d false [(.w32, a)] (unary (fun x => ~~~x))

/-- SHL (R131). -/
def execShl (c : Common) (d : Dst) (a b : Src) (st : State) : Result :=
  valueInstr st c d false [(.w32, a), (.w32, b)] (binary shlW)

/-- SHR (R131). -/
def execShr (c : Common) (d : Dst) (a b : Src) (st : State) : Result :=
  valueInstr st c d false [(.w32, a), (.w32, b)] (binary shrW)

/-- SAR (R131). -/
def execSar (c : Common) (d : Dst) (a b : Src) (st : State) : Result :=
  valueInstr st c d false [(.w32, a), (.w32, b)] (binary sarW)

/-- ROL (R131). -/
def execRol (c : Common) (d : Dst) (a b : Src) (st : State) : Result :=
  valueInstr st c d false [(.w32, a), (.w32, b)] (binary rolW)

/-- SHLD (R131). -/
def execShld (c : Common) (d : Dst) (a b e : Src) (st : State) : Result :=
  valueInstr st c d false [(.w32, a), (.w32, b), (.w32, e)] (ternary shldW)

/-- SHRD (R131). -/
def execShrd (c : Common) (d : Dst) (a b e : Src) (st : State) : Result :=
  valueInstr st c d false [(.w32, a), (.w32, b), (.w32, e)] (ternary shrdW)

/-- CLZ (R131). -/
def execClz (c : Common) (d : Dst) (a : Src) (st : State) : Result :=
  valueInstr st c d false [(.w32, a)] (unary clzW)

/-- POPC (R131). -/
def execPopc (c : Common) (d : Dst) (a : Src) (st : State) : Result :=
  valueInstr st c d false [(.w32, a)] (unary popcW)

/-- BREV (R131). -/
def execBrev (c : Common) (d : Dst) (a : Src) (st : State) : Result :=
  valueInstr st c d false [(.w32, a)] (unary brevW)

/-- BFX (R131). -/
def execBfx (c : Common) (d : Dst) (a b : Src) (sg : Bool) (st : State) : Result :=
  valueInstr st c d false [(.w32, a), (.w32, b)] (binary (bfxW sg))

/-- BFI (R131). -/
def execBfi (c : Common) (d : Dst) (a b e : Src) (st : State) : Result :=
  valueInstr st c d false [(.w32, a), (.w32, b), (.w32, e)] (ternary bfiW)

/-- PERM (R131). -/
def execPerm (c : Common) (d : Dst) (a b e : Src) (st : State) : Result :=
  valueInstr st c d false [(.w32, a), (.w32, b), (.w32, e)] (ternary permW)

/-- ANDI (R131). -/
def execAndi (c : Common) (d : Dst) (r : BitVec 6) (imm : Word) (st : State) : Result :=
  immInstr c d false r (fun x => ext (lo32 x &&& imm)) st

/-- ORI (R131). -/
def execOri (c : Common) (d : Dst) (r : BitVec 6) (imm : Word) (st : State) : Result :=
  immInstr c d false r (fun x => ext (lo32 x ||| imm)) st

/-- XORI (R131). -/
def execXori (c : Common) (d : Dst) (r : BitVec 6) (imm : Word) (st : State) : Result :=
  immInstr c d false r (fun x => ext (lo32 x ^^^ imm)) st

end Sys2Proof.Machine
end

