-- ==== Sys2Proof/Machine/Peers.lean ====
section
/-!
DEFINITION. The module among others: requests of peers (R315), their answers to this module's accesses (R318), grids that span modules
(R319), client ports (R320), and the service channel (R317).
-/
namespace Sys2Proof.Machine

def addAnswer (s : State) (a : Answer) : State := updMod s fun m => { m with answers := m.answers ++ [a] }

/-! ## Requests of peers (R315) -/

/-- The access that a peer request makes at its home, with the number of bytes that it covers. -/
def peerAccess (pa : Nat) (r : PeerKind) : Access × Nat :=
  let a (k : AccKind) (size : Nat) : Access := moduleAccess k 0 (.loc pa) 0 size 0 0
  let w (x : Word) : Word64 := x.zeroExtend 64
  match r with
  | .read n => (a .load n, n)
  | .write b => ({ a (.engineWrite 0 0) b.length with bytes := b.map fun x => (0, x) }, b.length)
  | .atomic fn f v => ({ a (.atom fn true) (fmtSize f) with fmt := f, data := v }, fmtSize f)
  | .cas n x y => ({ a .cas n with data := x, data2 := y }, n)
  | .kcas2 d x0 x1 y0 y1 => ({ a .kcas2 (4 * d + 4) with data := x1 ++ x0, data2 := y1 ++ y0, param := 4 * d }, 4 * d + 4)
  | .kchunk => (a .kchunk 16, 16)
  | .kenq ds p => ({ a .kenq 16 with data := p, descs := ds }, 16)
  | .kdeq ds => ({ a .kdeq 16 with descs := ds }, 16)
  | .kchase ds n f => ({ a .kchase 8 with data := w n, param := f, descs := ds }, 8)
  | .sarm v => ({ a .sarm 16 with data := w v }, 16)
  | .sadd v => ({ a .sadd 16 with data := w v }, 16)
  | .swait v => ({ a .swait 16 with data := w v }, 16)

/-- Whether a range entry grants what a request needs (R315). -/
def Range.grants (r : Range) (k : PeerKind) : Bool :=
  r.v && (match k with | .read _ => r.rd | .write _ => r.w | _ => r.a)

/-- Whether a range covers a run of bytes. -/
def Range.covers (r : Range) (pa n : Nat) : Bool :=
  let last := pa + (n - 1)
  r.base.toNat ≤ pa / 4096 && pa / 4096 ≤ r.last.toNat && r.base.toNat ≤ last / 4096 && last / 4096 ≤ r.last.toNat

/-- Whether one of the 16 entries of a source module admits a request (R315). -/
def admits (s : State) (module pa n : Nat) (k : PeerKind) : Bool :=
  (List.range 16).any fun i =>
    let r := rangeAt s.mod.ranges (16 * module + i)
    r.grants k && r.covers pa n

/-- Whether a home answers on a whole run of bytes. -/
def hasHome (s : State) (pa n : Nat) : Bool :=
  let home (x : Nat) : Bool := holdsMemory s x || (match regionOf x with | .doorbell _ => true | _ => false)
  home pa && home (pa + (n - 1))

/-- The rest of a pointer chase of a peer, hop by hop (R198): each node is resolved by the keeper where the word before it lies. -/
def peerChase (s : State) (a : Access) (spot : Nat) : Nat → Nat → Word64 → (Word64 × Nat × Nat) × State
  | 0, h, p => ((p, h, 0), s)
  | n + 1, h, p =>
    match nodeAddr s none (keeperOf s spot) a.descs Need.load (p + BitVec.ofNat 64 (8 * a.param)) with
    | (.inr cc, s1) => ((statusWord cc, h, 2), s1)
    | (.inl pa, s1) =>
      let q : Word64 := BitVec.ofNat 64 (homeNat s1 pa 8)
      let s2 := touchLines s1 none pa 8
      if q == 0 then ((p, h, 1), s2) else peerChase s2 a pa n (h + 1) q

/-- An admitted request is performed at its home as an access of no context, and carries no stamp (R254, R315): its state and the values
that return. Its node accesses at other homes follow in the same step (log 63). -/
def performPeer (s : State) (a : Access) : State × Word64 × Word64 :=
  let o := atHome s a [] none
  if o.chasing then
    let ((p, h, why), s1) := peerChase o.st a a.pa (chaseLimit a.data) 0 o.v
    (s1, p, BitVec.ofNat 64 (h + why * 2 ^ 32))
  else
    match o.reading with
    | some n => (kdeqTake (touchLines o.st none n 8) none a.pa (homeNat o.st n 8), o.v, o.v2)
    | none => (o.later.foldl (fun t c => homeWrite t none c.1 [c.2]) o.st, o.v, o.v2)

/-- A SWAIT of a peer (R201, R315): answered with another generation at once, else registered as an access of no member, whose `param` and
`seq` name the peer and its channel. -/
def peerSwait (s : State) (module channel : Nat) (a : Access) : State :=
  let o := atHome s a [] none
  if o.registered then
    let (id, s1) := freshId o.st
    { s1 with accs := tabPut s1.accs id { a with member := id, phase := .registered, param := module, seq := channel } }
  else addAnswer o.st (.peer module channel (.done o.v 0) [])

/-- Peers whose SWAIT an Advance has woken are answered with the new generation (R201, R315). -/
def answerPeers (s : State) : State :=
  (s.accs.filter fun e => e.2.peerWait && e.2.phase == .returning).foldl
    (fun t e => addAnswer { t with accs := tabDrop t.accs e.1 } (.peer e.2.param e.2.seq (.done e.2.value 0) [])) s

/-- PEER_REQUEST_ARRIVAL (R315, R316): checked against the entries of its source; what is not admitted is answered with PeerReject and
performs nothing. The response goes back on the channel of the request (R317). -/
def execPeerRequestArrival (peer : PeerChannel) (pa : Nat) (req : PeerKind) (st : State) : Result :=
  let (a, n) := peerAccess pa req
  if n == 0 || !admits st peer.module pa n req || !hasHome st pa n then .next (addAnswer st (.peer peer.module peer.channel .reject []))
  else
    match req with
    | .read k => .next (addAnswer (touchLines st none pa k) (.peer peer.module peer.channel (.done 0 0) (homeRead st pa k)))
    | .swait _ => .next (peerSwait st peer.module peer.channel a)
    | _ =>
      if !keeperFree st none a then .next st
      else
        let (s1, v, v2) := performPeer st a
        .next (addAnswer s1 (.peer peer.module peer.channel (.done v v2) []))

/-! ## Answers of peers (R314, R318) -/

/-- Whether an aperture is lost, or leads outside the connected group (R314, R318). -/
def isLost (s : State) (ap : Nat) : Bool := ((tabGet s.mod.apertures ap).getD Aperture.reset).lostNow s

/-- An archived context that performs a store, atomic, keeper operation or engine write through a nonzero aperture has escaped (R305). -/
def escapePeer (s : State) (a : Access) : State :=
  if a.kind.writes then updCtx s a.launch a.core fun c => { c with escaped := c.escaped || c.archived } else s

/-- PEER_ACK_ARRIVAL (R305, R318): a peer has performed an access, and its values return, or it has rejected or lost it (R177, R314). Nothing
comes any more through an aperture that is lost: the access takes PeerLost (R311, R318). In which order answers come on a channel is the
events' (R317; log 66). -/
def execPeerAckArrival (a : Nat) (ans : PeerAnswer) (st : State) : Result :=
  match tabGet st.accs a with
  | none => .next st
  | some x =>
    match x.tgt with
    | .loc _ => .next st
    | .peer ap _ =>
      if x.phase != .issued || !orderPasses st a x then .next st
      else
        match if isLost st ap then PeerAnswer.lost else ans with
        | .reject => .next (failAny st a 0x08 ap)
        | .lost => .next (failAny st a 0x09 ap)
        | .done v v2 =>
          let size := if x.kind == .load then x.size else 8
          let s1 := updAcc (escapePeer st x) a fun y => { y with value := BitVec.ofNat 64 (v.toNat % 2 ^ (8 * size)), value2 := v2 }
          if x.kind == .swait then
            .next (if waitsOn s1 a x.member then markPerformed s1 a fun y => { y with phase := .returning } else finishAcc s1 a)
          else .next (completeAcc (updAcc s1 a fun y => { y with phase := .performed }) a)

/-! ## Grids across modules (R319) -/

/-- The launch of a span, as long as it is listed (R319). -/
def spanLaunch (s : State) (span : Nat) : Option (Nat × Launch) :=
  s.launches.find? fun e => e.2.spanId == span && span != 0 &&
    (e.2.phase == .running || e.2.phase == .placed || e.2.phase == .completed)

/-- A departed cell of a part of a span that has completed here (R23, R319). -/
def pastCell (s : State) (span linear : Nat) : Option Member :=
  (s.mod.spanPast.find? fun e => e.1 == span && e.2.linear == linear).map (·.2)

/-- A module that waits for steps of a cell here is told of those that it has completed, and of each one to come (R319). -/
def watchSteps (s : State) (id : Nat) (w : SpanWait) : State :=
  let s1 := updLaunch s id fun l =>
    { l with stepWatchers := if l.stepWatchers.contains (w.module, w.linear) then l.stepWatchers else l.stepWatchers ++ [(w.module, w.linear)] }
  match cellAt s id w.linear with
  | some (_, d) =>
    let done := if d.departed then departedSteps else d.done
    if done == 0 then s1 else addAnswer s1 (.spanStep w.module w.span w.linear done)
  | none => s1

/-- A read of a departed cell of a completed part is answered from its vitrine entry, and a STEP wait on it ends (R19, R23). -/
def servePast (s : State) (w : SpanWait) : State :=
  match pastCell s w.span w.linear with
  | none => s
  | some d =>
    if w.isStep then
      addAnswer (updMod s fun m => { m with spanWaits := m.spanWaits.filter (· != w) }) (.spanStep w.module w.span w.linear departedSteps)
    else answerSpan s w.span d

/-- Reads and STEP waits from peers that came before their launch, or wait for a step, are answered as far as their cells allow (R319). -/
def serveSpans (s : State) : State :=
  s.mod.spanWaits.foldl (fun t w =>
    match spanLaunch t w.span with
    | none => servePast t w
    | some (id, _) =>
      if w.isStep then watchSteps (updMod t fun m => { m with spanWaits := m.spanWaits.filter (· != w) }) id w
      else match cellAt t id w.linear with
        | some (_, d) => serveSpanReads t d
        | none => t) s

/-- SPAN_NEIGHBOUR_READ (R319): a read of a cell here, or a STEP wait on it, from another module; a fenced one is not heard (R311). -/
def execSpanNeighbourRead (span : Nat) (peer : PeerChannel) (idx : Nat) (face : BitVec 3) (gen : Nat) (isStep : Bool) (st : State) : Result :=
  let w : SpanWait := { module := peer.module, channel := peer.channel, span := span, linear := idx, face := face, gen := gen, isStep := isStep }
  if isFenced st peer.module then .next st else
  match spanLaunch st span with
  | none => .next (servePast (updMod st fun m => { m with spanWaits := m.spanWaits ++ [w] }) w)
  | some (id, _) =>
    let c := cellAt st id idx
    if isStep then .next (watchSteps st id w)
    else
      let s1 := updMod st fun m => { m with spanWaits := m.spanWaits ++ [w] }
      match c with
      | some (k, d) =>
        let s2 := updMember s1 k fun v => if v.place == .parked && !published v gen then { v with demanded := true } else v
        .next (serveSpanReads s2 d)
      | none => .next s1

/-- SPAN_STEP_REPORT (R319): a cell of another module has completed steps. -/
def execSpanStepReport (span idx step : Nat) (st : State) : Result :=
  match spanLaunch st span with
  | none => .next st
  | some (id, l) => if farFenced st l idx then .next st else .next (updLaunch st id fun l =>
      { l with remoteSteps := (l.remoteSteps.filter fun e => e.1 != idx) ++ [(idx, max step (remoteDone l idx))] })

/-- POD_BARRIER_COUNT (R260, R319): the members of another module have arrived or departed; with this module's and all others' the
instance completes. -/
def execPodBarrierCount (span module k : Nat) (st : State) : Result :=
  match spanLaunch st span with
  | none => .next st
  | some (id, l) =>
    if isFenced st module then .next st else
    let l1 := setPodReached l module k
    let s1 := updLaunch st id fun _ => l1
    .next (if k > barDone l1 .pod 0 && !l1.span.isEmpty && l1.span.all (fun r => k ≤ podReached l1 r.module)
      then completeInstance s1 id .pod 0 k else s1)

/-! ## Client ports (R320) -/

/-- Whether a client request is admitted: an entry for its job, source and port, and one of its ranges. -/
def clientAdmits (s : State) (job src port pa n : Nat) (write : Bool) : Bool :=
  n != 0 && s.mod.clients.any fun c =>
    c.2.v && c.2.job.toNat == job && c.2.src.toNat == src && port < 8 && c.2.ports.getLsbD port &&
    (!write || c.2.db || !(match regionOf pa with | .doorbell _ => true | _ => false)) &&
    (List.range 16).any fun i =>
      let r := rangeAt s.mod.clientRanges (16 * c.1 + i)
      r.v && (if write then r.w else r.rd) && r.covers pa n

def refuseClient (s : State) (port : Nat) : State :=
  addAnswer (updMod s fun m => { m with refused := m.refused + 1 }) (.clientError port)

/-- CLIENT_RMA_WRITE (R320): performed at its home as an access of no context, and then acknowledged; or refused and counted. -/
def execClientRmaWrite (job srcAddr port pa : Nat) (bytes : List Byte) (st : State) : Result :=
  if clientAdmits st job srcAddr port pa bytes.length true && hasHome st pa bytes.length then
    .next (addAnswer (homeWrite st none pa bytes) (.clientAck port))
  else .next (refuseClient st port)

/-- CLIENT_RMA_READ (R320). -/
def execClientRmaRead (job srcAddr port pa size : Nat) (st : State) : Result :=
  if clientAdmits st job srcAddr port pa size false && hasHome st pa size then
    .next (addAnswer (touchLines st none pa size) (.clientData port (homeRead st pa size)))
  else .next (refuseClient st port)

/-- NOTIFY_REGISTER_WRITE (R78, R320): a store of a context to the notify register is performed, or a client's write arrives, which is
admitted and acknowledged, or refused and counted, as every write of a client is. -/
def execNotifyRegisterWrite (queue : Nat) (widx : Word) (src : Origin) (st : State) : Result :=
  match src with
  | .access a =>
    (match tabGet st.accs a with
      | some x => if regionOf x.pa == .doorbell queue && x.pa % 4096 == 0 then performEvent st a fun k => k == .store else .next st
      | none => .next st)
  | .client job srcAddr port =>
    let pa := 0x600000000 + queue * 0x1000
    .next (if clientAdmits st job srcAddr port pa 4 true && hasHome st pa 4 then
        addAnswer (notifyQueue st queue widx) (.clientAck port)
      else refuseClient st port)
  | .neighbour _ | .management => .next st

/-! ## Channels (R317) -/

/-- SERVICE_CHANNEL_MESSAGE (R311, R317): a message of the Sernus of a peer that is not fenced comes on channel 63. What it asks is Sernus's
to do. -/
def execServiceChannelMessage (module kind value : Nat) (st : State) : Result :=
  .next (if isFenced st module then st else updMod st fun m => { m with service := m.service ++ [(module, kind, value)] })

def portAt (s : State) (p : Nat) : Port := (tabGet s.ports p).getD Port.reset
def updPort (s : State) (p : Nat) (f : Port → Port) : State := { s with ports := tabPut s.ports p (f (portAt s p)) }

/-- FLIT_CREDIT_RETURN (R311, R317): flits of a channel have left the peer's pool; a disabled link brings none. -/
def execFlitCreditReturn (port channel count : Nat) (st : State) : Result :=
  .next (if linkDead st port then st else updPort st port fun p => { p with pool := tabPut p.pool channel (((tabGet p.pool channel).getD 0) - count) })

/-- Whether a channel may send a flit (R317): its reserved flit of the peer's pool is free, or one of the shared ones. -/
def hasCredit (p : Port) (channel : Nat) : Bool :=
  (tabGet p.pool channel).getD 0 == 0 ||
  (p.pool.foldl (fun n e => n + (e.2 - 1)) 0) < 4096 - 64

end Sys2Proof.Machine
end

