-- ==== Sys2Proof/Machine/Optics.lean ====
section
/-!
DEFINITION. Optical bundles (R321, R322, R330 to R332): requests, parks and wakes of wavelengths, heaters, and flits.
-/
namespace Sys2Proof.Machine

/-! ## Wavelengths -/

/-- STATE of a bundle (R322, R331): 3 while a ring has failed to lock, 2 while a relock runs or a locked ring has not joined, 1 while a
park runs, else 0. -/
def Bundle.stateNow (b : Bundle) : Nat :=
  if b.fail != 0 then 3 else if b.waking != 0 || b.joining != 0 then 2 else if b.parking != 0 then 1 else 0

/-- A transition begins (R322): the wavelengths that leave REQ park, those that enter it wake; a new write forgets earlier failures. -/
def Bundle.start (b : Bundle) (now : Nat) (v : BitVec 8) : Bundle :=
  let c := { b with
    req := v, fail := 0, waiting := none, wakeAt := now,
    joining := b.joining &&& v,
    waking := v &&& ~~~b.act &&& ~~~b.joining,
    parking := (b.parking ||| b.act ||| b.joining ||| b.waking) &&& ~~~v }
  { c with state := c.stateNow }

/-- A flit boundary (R322, R331): parking wavelengths have left ACT, locked ones join; the receiver follows by a marker. -/
def Bundle.boundary (b : Bundle) : Bundle :=
  let act := (b.act &&& ~~~b.parking) ||| b.joining
  let c := { b with act := act, joining := 0, markers := if act == b.act then b.markers else b.markers ++ [act] }
  { c with state := c.stateNow }

/-- A write that waited takes effect when the running transition has ended (R322, R332), a flit in progress or not. Where a ring has failed
it is taken once time has passed, so that STATE 3 stands (log 68). -/
def Bundle.takeWaiting (b : Bundle) (now : Nat) : Bundle :=
  match b.waiting with
  | some v =>
    if b.waking == 0 && b.joining == 0 && b.parking == 0 && (b.fail == 0 || b.failAt < now) then b.start now v else b
  | none => b

/-- The boundary of a flit, where no flit is in progress: it is immediate (R331). -/
def Bundle.boundaryAt (b : Bundle) (now : Nat) : Bundle :=
  if now < b.busyUntil then { b with state := b.stateNow } else b.boundary

/-- What happens at once: the boundary, then a write that waited, then the boundary of what it began (R331, R332). -/
def Bundle.settle (b : Bundle) (now : Nat) : Bundle :=
  let c := (b.boundaryAt now).takeWaiting now
  if c.waiting == b.waiting then c else c.boundaryAt now

/-- A bundle changes, and settles. -/
def changeBundle (s : State) (k : Nat) (f : Bundle → Bundle) : State := updBundle s k fun b => (f b).settle s.mod.time

/-- Bundles whose flit has ended meanwhile reach their boundary. -/
def settleBundles (s : State) : State :=
  if s.optics.all fun e => e.2.settle s.mod.time == e.2 then s
  else { s with optics := s.optics.map fun e => (e.1, e.2.settle s.mod.time) }

/-! ## Register writes (R321) -/

/-- A write of a bundle's register that acts itself: the bundle, the offset within it, and the lanes. -/
def bundleWrite (st : State) (a : Nat) (act : Nat → Nat → Nat × Nat → Option State) : Result :=
  ioStep st a fun u off l =>
    match u with
    | .optics f => if off / 0x1000 < 8 then act (bundleKey f (off / 0x1000)) (off % 0x1000) l else none
    | _ => none

/-- REQ_WRITE (R321, R322): 0 is ignored; while a transition runs the write waits, and the latest one stands. -/
def execReqWrite (a : Nat) (st : State) : Result :=
  bundleWrite st a fun k o l =>
    if o != 0 then none
    else
      let v := BitVec.ofNat 8 (ioMerge (bundleAt st k).req.toNat l)
      if !natBit l.2 0 || v == 0 then some st
      else if (bundleAt st k).state == 1 || (bundleAt st k).state == 2 then some (updBundle st k fun b => { b with waiting := some v })
      else some (changeBundle st k fun b => b.start st.mod.time v)

/-- Whether a mask names a wavelength. -/
def hasWl (m : BitVec 8) (wl : Nat) : Bool := wl < 8 && m.getLsbD wl
def wlMask (wl : Nat) : BitVec 8 := 1#8 <<< wl

/-- HEAT_WRITE (R321): HEAT is taken only where AUTO is 0 in the same write. -/
def execHeatWrite (a : Nat) (st : State) : Result :=
  bundleWrite st a fun k o l =>
    if o < 0x40 || 0x80 ≤ o then none
    else
      let w := (o - 0x40) / 8
      let n := ioMerge (bundleReg (bundleAt st k) o) l
      some (updBundle st k fun b =>
        { b with
          auto := if natBit n 32 then b.auto ||| wlMask w else b.auto &&& ~~~wlMask w
          heat := if natBit n 32 then b.heat else b.heat.set w (BitVec.ofNat 16 n) })

/-- EVEN_THRESH_WRITE (R321, R330, R332). -/
def execEvenThreshWrite (a : Nat) (st : State) : Result :=
  bundleWrite st a fun k o l =>
    if o != 0x18 then none
    else
      let n := ioMerge (bundleReg (bundleAt st k) o) l
      some (updBundle st k fun b => { b with even := natBit n 16, thresh := BitVec.ofNat 13 n })

/-! ## Rings -/

/-- The ticks after which a ring that has not locked fails: 10 µs (R120, R322). -/
def lockLimit : Nat := 48000

/-- RING_LOCK (R322, R331): a waking ring locks at once, within 10 µs of the write, and joins ACT at the next flit boundary. -/
def execRingLock (fibre bundle wl : Nat) (st : State) : Result :=
  let k := bundleKey fibre bundle
  if 64 ≤ fibre || 8 ≤ bundle || !hasWl (bundleAt st k).waking wl || (bundleAt st k).wakeAt + lockLimit ≤ st.mod.time then .next st
  else .next (changeBundle st k fun b =>
    { b with waking := b.waking &&& ~~~wlMask wl, lock := b.lock ||| wlMask wl, joining := b.joining ||| wlMask wl })

/-- RING_PARK_END (R331): a parked ring clears its LOCK bit; it has left ACT. -/
def execRingParkEnd (fibre bundle wl : Nat) (st : State) : Result :=
  let k := bundleKey fibre bundle
  let b := bundleAt st k
  if 64 ≤ fibre || 8 ≤ bundle || !hasWl b.parking wl || hasWl b.act wl then .next st
  else .next (changeBundle st k fun b => { b with parking := b.parking &&& ~~~wlMask wl, lock := b.lock &&& ~~~wlMask wl })

/-- RING_LOCK_TIMEOUT (R322, R330): a ring that has not locked 10 µs after the write sets its FAIL bit; the bundle is in fault until REQ is
written, and its I/O event stands as long as STATE is 3. -/
def execRingLockTimeout (fibre bundle wl : Nat) (st : State) : Result :=
  let k := bundleKey fibre bundle
  if 64 ≤ fibre || 8 ≤ bundle || !hasWl (bundleAt st k).waking wl || st.mod.time < (bundleAt st k).wakeAt + lockLimit then .next st
  else .next (changeBundle st k fun b =>
    { b with waking := b.waking &&& ~~~wlMask wl, lock := b.lock &&& ~~~wlMask wl, fail := b.fail ||| wlMask wl, failAt := st.mod.time })

/-- HEATER_RETUNE (R321): the monitor reads as it reads, and the service loop retunes a heater whose AUTO is set. -/
def execHeaterRetune (fibre bundle wl : Nat) (heat mon : BitVec 16) (st : State) : Result :=
  let k := bundleKey fibre bundle
  if 64 ≤ fibre || 8 ≤ bundle || 8 ≤ wl then .next st
  else .next (updBundle st k fun b => { b with heat := if hasWl b.auto wl then b.heat.set wl heat else b.heat, mon := b.mon.set wl mon })

/-! ## Flits (R317, R322, R331) -/

/-- The channel of a flit, which rides the bundle of its number modulo 8 (R317). -/
def flitChannel (flit : Nat) : Nat := flit % 64

/-- FLIT_ENQUEUE (R317, R331): a flit of one of the bundle's channels is queued; DEPTH counts at most 8,191. -/
def execFlitEnqueue (fibre bundle flit : Nat) (st : State) : Result :=
  let k := bundleKey fibre bundle
  if 64 ≤ fibre || 8 ≤ bundle || linkDead st fibre || flitChannel flit % 8 != bundle || 8191 ≤ (bundleAt st k).depth then .next st
  else .next (updBundle st k fun b => { b with queued := b.queued ++ [flit] })

/-- The wavelengths of a mask, in ascending order. -/
def wlList (m : BitVec 8) : List Nat := (List.range 8).filter fun i => m.getLsbD i

/-- How the 256 bits of a flit are striped across the wavelengths of ACT (R322, R331): the first `256 mod n` carry one bit more than the
others. -/
def flitStripes (act : BitVec 8) : List (Nat × Nat) :=
  let l := wlList act
  l.zipIdx.map fun p => (p.1, 256 / l.length + if p.2 < 256 % l.length then 1 else 0)

/-- The ticks that a flit lasts on `n` wavelengths: ⌈256/n⌉ / 32 ns at 4.8 ticks each, rounded up (R120, R331). -/
def flitTicks (n : Nat) : Nat := (((256 + n - 1) / n) * 3 + 19) / 20

/-- How many wavelengths a mask holds. -/
def wlCount (m : BitVec 8) : Nat := (wlList m).length

/-- FLIT_START (R311, R317, R322, R331): once the flit before has left, at the boundary, pending changes of ACT take effect, and the first
flit starts, striped across ACT as it then stands, against credit of its channel. -/
def execFlitStart (fibre bundle : Nat) (st : State) : Result :=
  let k := bundleKey fibre bundle
  let b := (bundleAt st k).boundary
  match b.queued with
  | [] => .next st
  | f :: rest =>
    if 64 ≤ fibre || 8 ≤ bundle || st.mod.time < b.busyUntil || linkDead st fibre || b.act == 0 ||
      !hasCredit (portAt st fibre) (flitChannel f) then .next st
    else
      let c := { b with queued := rest, sent := b.sent ++ [(f, flitStripes b.act)], busyUntil := st.mod.time + flitTicks (wlCount b.act) }
      .next (updPort (updBundle st k fun _ => c) fibre fun p =>
        { p with pool := tabPut p.pool (flitChannel f) ((tabGet p.pool (flitChannel f)).getD 0 + 1) })

/-- RESTRIPE_MARKER_ARRIVAL (R311, R322): the receiver follows the next change of ACT, on a link that is not disabled. -/
def execRestripeMarkerArrival (fibre bundle : Nat) (st : State) : Result :=
  let k := bundleKey fibre bundle
  match (bundleAt st k).markers with
  | [] => .next st
  | a :: rest => .next (if linkDead st fibre then st else updBundle st k fun b => { b with rxAct := a, markers := rest })

end Sys2Proof.Machine
end

