-- ==== Sys2Proof/Machine/Packed.lean ====
section
/-!
DEFINITION. The packed 16-bit group 0x4 and the convert group 0x5 (R155 to R160).
-/
namespace Sys2Proof.Machine

/-- Element `i` of a packed pattern (R43). -/
def elem16 (x i : Nat) : Nat := natBits x (16 * i) 16

/-- Both elements of a packed result (R156). -/
def pack16 (g : Nat → Nat) : Word64 := BitVec.ofNat 64 (g 0 % 65536 + 65536 * (g 1 % 65536))

/-- A packed form with two sources (R156). -/
def packed2 (c : Common) (d : Dst) (a b : Src) (bf : Bool) (m : Mods) (g : FFmt → Nat → Nat → Nat) (st : State) :
    Result :=
  let f := FFmt.packed bf
  valueInstr st c d false [(.packed bf, a), (.packed bf, b)] fun vs =>
    match vs with
    | [x, y] => pack16 fun i => g f (Mods.a f m (elem16 (fpBits x) i)) (Mods.b f m (elem16 (fpBits y) i))
    | _ => 0

/-- HADD2 (R156). -/
def execHadd2 (c : Common) (d : Dst) (a b : Src) (bf : Bool) (r : FRnd) (st : State) : Result :=
  packed2 c d a b bf r.mods (fun f x y => f.fadd r.rm r.fz x y) st

/-- HMUL2 (R156). -/
def execHmul2 (c : Common) (d : Dst) (a b : Src) (bf : Bool) (r : FRnd) (st : State) : Result :=
  packed2 c d a b bf r.mods (fun f x y => f.fmul r.rm r.fz x y) st

/-- HMIN2 (R156). -/
def execHmin2 (c : Common) (d : Dst) (a b : Src) (bf fz : Bool) (m : Mods) (st : State) : Result :=
  packed2 c d a b bf m (fun f x y => f.fminmax false fz x y) st

/-- HMAX2 (R156). -/
def execHmax2 (c : Common) (d : Dst) (a b : Src) (bf fz : Bool) (m : Mods) (st : State) : Result :=
  packed2 c d a b bf m (fun f x y => f.fminmax true fz x y) st

/-- HFMA2 (R156). -/
def execHfma2 (c : Common) (d : Dst) (a b e : Src) (bf : Bool) (r : FRnd) (st : State) : Result :=
  let f := FFmt.packed bf
  valueInstr st c d false [(.packed bf, a), (.packed bf, b), (.packed bf, e)] fun vs =>
    match vs with
    | [x, y, z] => pack16 fun i => f.ffma r.rm r.fz (Mods.a f r.mods (elem16 (fpBits x) i))
        (Mods.b f r.mods (elem16 (fpBits y) i)) (Mods.c f r.mods (elem16 (fpBits z) i))
    | _ => 0

/-- The product of element `i` of two packed sources after modifiers and flush, exact (R156). -/
def dotTerm (f : FFmt) (m : Mods) (fz : Bool) (x y i : Nat) : FVal :=
  mulVal (f.value (f.flush fz (Mods.a f m (elem16 x i)))) (f.value (f.flush fz (Mods.b f m (elem16 y i))))

/-- HDOT2 (R156). -/
def execHdot2 (c : Common) (d : Dst) (a b e : Src) (bf : Bool) (r : FRnd) (st : State) : Result :=
  let f := FFmt.packed bf
  valueInstr st c d false [(.packed bf, a), (.packed bf, b), (.f32, e)] fun vs =>
    match vs with
    | [x, y, z] =>
      let zv := FFmt.fp32.value (FFmt.fp32.flush r.fz (Mods.c .fp32 r.mods (fpBits z)))
      BitVec.ofNat 64 (hdot2 r.rm r.fz zv (dotTerm f r.mods r.fz (fpBits x) (fpBits y) 0)
        (dotTerm f r.mods r.fz (fpBits x) (fpBits y) 1))
    | _ => 0

/-- The type in which CVT reads its source (R66, R157): an immediate is converted to it. -/
def cvtReadTy : CvtTy → Ty
  | .fp32 => .f32
  | .fp16 => .packed false
  | .bf16 => .packed true
  | .n64 | .i64 => .w64
  | _ => .w32

/-- CVT (R158). -/
def execCvt (c : Common) (d : Dst) (a : Src) (dst src : CvtTy) (rm : Rm) (fz sat : Bool) (st : State) : Result :=
  valueInstr st c d dst.is64 [(cvtReadTy src, a)] fun vs =>
    match vs with
    | [x] => BitVec.ofNat 64 (cvtBits dst src rm fz sat (if src.is64 then x.toNat else (lo32 x).toNat))
    | _ => 0

/-- PACK2 (R159). -/
def execPack2 (c : Common) (d : Dst) (a b : Src) (ty : Half) (sg : Bool) (rm : Rm) (fz sat : Bool) (st : State) : Result :=
  let t : Ty := if ty.isFloat then .f32 else .w32
  valueInstr st c d false [(t, a), (t, b)] fun vs =>
    match vs with
    | [x, y] => pack16 fun i => pack2Elem ty sg rm fz sat (if i == 0 then fpBits x else fpBits y)
    | _ => 0

/-- The type that SPLIT2 reads: an immediate of a floating element type stands in both elements (R66). -/
def splitTy : Half → Ty
  | .fp16 => .packed false
  | .bf16 => .packed true
  | .i16 | .n16 => .w32

/-- SPLIT2 (R159). -/
def execSplit2 (c : Common) (d : Dst) (a : Src) (ty : Half) (fz : Bool) (st : State) : Result :=
  valueInstr st c d true [(splitTy ty, a)] fun vs =>
    match vs with
    | [x] => BitVec.ofNat 64 (split2Elem ty fz (elem16 (fpBits x) 0) + 2 ^ 32 * split2Elem ty fz (elem16 (fpBits x) 1))
    | _ => 0

/-- One byte of PACK4 (R160). -/
def pack4Byte (i8 sg sat : Bool) (x : Nat) : Nat :=
  wrapInt 8 (if sat then clampInt i8 8 (asType sg 32 x) else asType sg 32 x)

/-- PACK4 (R160). -/
def execPack4 (c : Common) (d : Dst) (a b : Src) (i8 sg sat : Bool) (st : State) : Result :=
  valueInstr st c d false [(.w64, a), (.w64, b)] fun vs =>
    match vs with
    | [x, y] =>
      let e (v : Word64) (i : Nat) : Nat := pack4Byte i8 sg sat (natBits v.toNat (32 * i) 32)
      BitVec.ofNat 64 (e x 0 + 2 ^ 8 * e x 1 + 2 ^ 16 * e y 0 + 2 ^ 24 * e y 1)
    | _ => 0

/-- SPLIT4 (R160). -/
def execSplit4 (c : Common) (d : Dst) (a : Src) (hi signed : Bool) (st : State) : Result :=
  valueInstr st c d true [(.w32, a)] fun vs =>
    match vs with
    | [x] =>
      let e (i : Nat) : Nat := wrapInt 32 (asType signed 8 (byteOf (lo32 x) (2 * boolNat hi + i)))
      BitVec.ofNat 64 (e 0 + 2 ^ 32 * e 1)
    | _ => 0

end Sys2Proof.Machine
end

