-- ==== Sys2Proof/Machine/Power.lean ====
section
/-!
DEFINITION. Byte budgets (R323), performance steps (R324 to R326), eviction and the latch (R327), identity, attestation and boot (R328,
R329), and the module reset.
-/
namespace Sys2Proof.Machine

/-! ## Budgets and performance -/

/-- BYTE_BUDGET_INTERVAL (R323): a 1 µs interval begins; unused budget is not carried over. -/
def execByteBudgetInterval (st : State) : Result :=
  .next { st with quads := st.quads.map fun e => (e.1, { e.2 with spent := 0 }) }

/-- A context's request at an interval boundary (R325). -/
def boundaryReq (s : State) (launch : Nat) (c : Ctx) : Ctx :=
  let r := if c.written then c.want else c.req
  { c with req := min r (allowOf s (((launchAt s launch).map (·.pkt.prio)).getD 0)), written := false, want := 0 }

/-- The contexts that are in on a quad. -/
def ctxsOfQuad (s : State) (q : Nat) : List (Nat × Ctx) := s.ctxs.filter fun e => globalQuad (e.1 % 4096) == q && !e.2.isOut

/-- The step that a quad's requests give (R325). -/
def quadStep (s : State) (q : Nat) : Nat :=
  max (7 - ((ctxsOfQuad s q).map fun e => e.2.req).foldl max 0) s.mod.capStep

/-- The clock of a quad's untouched cores runs at its present step up to the module's time (R123). -/
def QuadUnit.catchUp (u : QuadUnit) (now : Nat) : QuadUnit :=
  let c : CoreUnit := { CoreUnit.reset with cyc := u.idleCyc, ticks := u.idleTicks }
  let d := emptyCycles u.step (cyclesUntil u.step now c) c
  { u with idleCyc := d.cyc, idleTicks := d.ticks }

/-- A slower step takes effect at once, a faster one when the voltage has settled (R326). -/
def QuadUnit.toStep (u : QuadUnit) (n : Nat) : QuadUnit :=
  if n < u.step then { u with settling := some n } else { u with step := n, settling := none }

/-- The quads of the module. -/
def quadIds : List Nat := fieldIds.flatMap fun f => (List.range 16).map (f * 16 + ·)

/-- PERF_INTERVAL_BOUNDARY (R325, R326): every request is taken and clamped, and every quad's step is chosen. -/
def execPerfIntervalBoundary (st : State) : Result :=
  let s1 : State := { st with ctxs := st.ctxs.map fun e => (e.1, if e.2.isOut then e.2 else boundaryReq st (e.1 / 4096) e.2) }
  .next (quadIds.foldl (fun t q => updQuad t q fun u => (u.catchUp st.mod.time).toStep (quadStep t q)) s1)

/-- PERF_STEP_SETTLE (R326). -/
def execPerfStepSettle (quad : Nat) (st : State) : Result :=
  match (quadAt st quad).settling with
  | none => .next st
  | some n => .next (updQuad st quad fun u => { u.catchUp st.mod.time with step := n, settling := none })

/-! ## Eviction (R327) -/

/-- Contexts are switched out for the eviction. -/
def evictCtxs (s : State) (l : List (Nat × Ctx)) : State :=
  l.foldl (fun t e =>
    let (img, t1) := freeImage t
    switchFor t1 .evict (e.1 / 4096) (e.1 % 4096) img) s

/-- The eviction starts: queues take no more packets, and every context is switched out. -/
def startEviction (s : State) : State :=
  if s.mod.evict != .idle then s
  else
    let s1 := updMod s fun m => { m with evict := .quiescing, evictAt := m.time }
    evictCtxs s1 (s1.ctxs.filter fun e => !e.2.isOut)

/-- State 5: contexts that have not moved are restored here, and the queues reopen. One that is still switching out is restored when it is
out (CONTEXT_SWITCH_OUT). -/
def failEviction (s : State) : State :=
  let s1 := updMod s fun m => { m with evict := .failed }
  (s1.ctxs.filter fun e => e.2.isOut && e.2.outFor == .evict).foldl (fun t e => restoreHere t (e.1 / 4096) (e.1 % 4096)) s1

/-- Whether 30 s have passed since GO, at 4.8 ticks to the nanosecond (R327). -/
def evictionLate (s : State) : Bool := decide (s.mod.evictAt + 144000000000 ≤ s.mod.time)

/-- ABORT: in states 1 to 3 the eviction fails; a failed one returns to idle. -/
def abortEviction (s : State) : State :=
  match s.mod.evict with
  | .quiescing | .transferring | .draining => failEviction s
  | .failed => updMod s fun m => { m with evict := .idle }
  | _ => s

/-- A write of the eviction register (R327): TARGET is taken, and `run` follows where the named bit is carried. -/
def evictWrite (st : State) (a : Nat) (abort : Bool) (run : State → State) : Result :=
  ioStep st a fun u off l =>
    let v := l.1 &&& l.2
    if u == .module && off == 0x380 && (if abort then natBit v 9 else natBit v 8 && !natBit v 9) then
      some (run (plainWrite st u off l))
    else none

/-- EVICTION_GO (R327): from Sernus by a write, or from the management bus with its target. -/
def execEvictionGo (src : Origin) (target : Nat) (st : State) : Result :=
  match src with
  | .access a => evictWrite st a false startEviction
  | .management => .next (startEviction (updMod st fun m => { m with evTarget := BitVec.ofNat 6 target }))
  | .client .. | .neighbour _ => .next st

/-- EVICTION_ABORT (R327). -/
def execEvictionAbort (src : Origin) (st : State) : Result :=
  match src with
  | .access a => evictWrite st a true abortEviction
  | .management => .next (abortEviction st)
  | .client .. | .neighbour _ => .next st

/-- LRP_WRITE (R327): 1 is discarded while a circuit is up or an entry is valid; once the routes are drained it releases the module, within
30 s of GO. -/
def execLrpWrite (a : Nat) (st : State) : Result :=
  ioStep st a fun u off l =>
    if u != .module || off != 0x388 then none
    else if !natBit l.2 4 then some st
    else if !natBit l.1 4 then some (updMod st fun m => { m with lrp := false })
    else if circuits st != 0 || (st.mod.apertures.any fun e => e.2.v) || (st.mod.ranges.any fun e => e.2.v) then some st
    else
      let s1 := updMod st fun m => { m with lrp := true }
      some (if st.mod.evict != .draining then s1
        else if evictionLate st then failEviction s1 else updMod s1 fun m => { m with evict := .released })

/-- EVICTION_QUIESCED (R327): every context is out; one that has come in since GO is switched out too. -/
def execEvictionQuiesced (st : State) : Result :=
  if st.mod.evict != .quiescing then .next st
  else
    let late := st.ctxs.filter fun e => !e.2.isOut && !e.2.switching
    .next (if st.ctxs.all fun e => e.2.isOut then updMod st fun m => { m with evict := .transferring }
      else evictCtxs st late)

/-- Whether a page that some context maps, or an area carved for one, holds an address (R101, R173). -/
def isMapped (s : State) (pa : Nat) : Bool :=
  s.ctxs.any fun e =>
    let d := e.2.desc.toList.getD 4 0
    (Desc.v d && mapsInto s (fun a n => a ≤ pa && pa < a + n) 6 0 (Desc.base d)) ||
    e.2.carved.any fun r =>
      let a := (if r.1 then bdieBase (e.1 % 4096) else sliceBase (e.1 % 4096)) + r.2.1
      a ≤ pa && pa < a + r.2.2

/-- What an eviction sends to its target (R327): every context's image with the records of its parked members, whose published faces are
their vitrine entries, and the bytes of mapped pages; the peers are told where the apertures point now. -/
def evictionMoves (s : State) : List Answer :=
  let t := s.mod.evTarget.toNat
  let parked (e : Nat × Ctx) : List (List Byte) :=
    (s.members.filter fun m => m.2.launch == e.1 / 4096 && m.2.core == e.1 % 4096 && !seated m.2 && !isOutMember m.2).map fun m =>
      recordOfMember s m.2 s.sched.free
  ((s.ctxs.filter fun e => e.2.outFor == .evict).map fun e => Answer.moveImage t (e.1 / 4096) (e.1 % 4096) e.2.image (parked e)) ++
  [Answer.movePages t (s.mem.filter fun c => isMapped s c.1)] ++ s.mod.group.map fun m => Answer.repoint m t

/-- EVICTION_TRANSFERRED (R314, R327): the state has been copied to TARGET, whose contexts they now are; circuits are torn down, with which
every peer has left the connected group. -/
def execEvictionTransferred (st : State) : Result :=
  if st.mod.evict != .transferring then .next st
  else
    .next (regroup { updMod st fun m => { m with evict := .draining, answers := m.answers ++ evictionMoves st } with
      ctxs := st.ctxs.map fun e => (e.1, if e.2.outFor == .evict then { e.2 with outFor := .sernus } else e.2)
      ports := st.ports.map fun p => (p.1, { p.2 with circuit := none }) })

/-- EVICTION_TIMEOUT (R327): 30 s without release. -/
def execEvictionTimeout (st : State) : Result :=
  if !evictionLate st then .next st
  else
    match st.mod.evict with
    | .quiescing | .transferring | .draining => .next (failEviction st)
    | _ => .next st

/-- Whether a port may carry a circuit to a module (R3, R311, R317): another module of the pod that is not fenced, in a connected group of
at most 9 modules with this one. -/
def mayConnect (s : State) (port module : Nat) : Bool :=
  port < 64 && module < 64 && module != s.mod.number && !isFenced s module &&
  (s.mod.group.contains module || s.mod.group.length < 8)

/-- CIRCUIT_UP (R314, R317, R318, R327): a port's circuit to a module of the group comes up, and LRP is cleared; a module that has lost its
last circuit by it has left the group. -/
def execCircuitUp (port module : Nat) (st : State) : Result :=
  let s0 := regroup (updPort st port fun p => { p with circuit := none })
  if !mayConnect s0 port module then .next st
  else
    let s1 := updPort st port fun p => { p with circuit := some module }
    .next (regroup (updMod s1 fun m =>
      { m with lrp := false, group := if m.group.contains module then m.group else m.group ++ [module] }))

/-! ## Identity, attestation, boot (R328, R329) -/

/-- A byte of the identity store (R328): bytes 36 to 39 show the latch's own count, and only a PLDM update writes the others (log 68). -/
def storeByte (s : State) (i : Nat) : Byte :=
  if 36 ≤ i && i < 40 then (bytesOf 4 s.mod.latchCycles).getD (i - 36) 0 else (tabGet s.mod.identity i).getD 0
def storeNat (s : State) (i n : Nat) : Nat := natOfBytes ((List.range n).map fun j => storeByte s (i + j))

/-- LATCH_OPEN (R327, R328): the latch reads LRP, and counts a cycle, which bytes 36 to 39 of the store show. -/
def execLatchOpen (st : State) : Result :=
  .next (if !st.mod.lrp || st.mod.latchOpen then st
    else updMod st fun m => { m with latchOpen := true, latchCycles := (m.latchCycles + 1) % 2 ^ 32 })

/-- A read of the identity store at I3C static address 0x50 (R328). -/
def readStore (s : State) (i n : Nat) : State :=
  addAnswer s (.store ((List.range (min n (65536 - i))).map fun j => storeByte s (i + j)))

/-- SPDM_GET_CERTIFICATE (R328): the chain at the offset and length that the store names. -/
def execSpdmGetCertificate (st : State) : Result :=
  let off := storeNat st 2632 4
  .next (addAnswer st (.certificate ((List.range (min (storeNat st 2636 4) 65536)).map fun i => storeByte st (off + i))))

/-- SPDM_CHALLENGE (R328): answered with the identity key, a free value of the nonce (log 8). -/
def execSpdmChallenge (nonce : List Byte) (st : State) : Result := .next (addAnswer st (.challenge (Config.challengeAnswer nonce)))

/-- SPDM_GET_MEASUREMENTS (R328, R329). -/
def execSpdmGetMeasurements (st : State) : Result := .next (addAnswer st (.measurements st.mod.measurements))

/-- Whether an image is accepted (R329): its signature and its version. -/
def imageAccepted (s : State) (image signature : List Byte) (version : Nat) : Bool :=
  Config.signatureVerifies image signature && s.mod.minVersion ≤ version

/-- An accepted image raises the fused minimum and is recorded as a measurement (R329). -/
def acceptImage (s : State) (image : List Byte) (version : Nat) : State :=
  updMod s fun m => { m with minVersion := max m.minVersion version, measurements := m.measurements ++ [Config.digest image] }

/-- BOOT_IMAGE_VERIFY (R329): first the loader, then Sernus; an image that fails leaves the module in recovery. -/
def execBootImageVerify (image signature : List Byte) (version : Nat) (st : State) : Result :=
  if st.mod.recovery || 2 ≤ st.mod.booted then .next st
  else if imageAccepted st image signature version then
    .next (updMod (acceptImage st image version) fun m => { m with booted := m.booted + 1 })
  else .next (updMod st fun m => { m with recovery := true })

/-- PLDM_FIRMWARE_UPDATE (R328, R329): the way out of recovery, and the one way in which the store is written, but for bytes 4 to 2,631. -/
def execPldmFirmwareUpdate (image signature : List Byte) (version : Nat) (store : List (Nat × Byte)) (st : State) : Result :=
  if !imageAccepted st image signature version then .next st
  else
    .next (updMod (acceptImage st image version) fun m =>
      { m with recovery := false,
               identity := (store.filter fun p => (p.1 < 4 || 2632 ≤ p.1) && p.1 < 65536).foldl (fun t p => tabPut t p.1 p.2) m.identity })

/-! ## Module reset -/

/-- MODULE_RESET (R80, R123, R283, R300, R316): registers, counters and the launch count take their reset values. Memory, the identity
store, the fused version and the module's number stay, and the model's own counters go on (log 2, 6). -/
def execModuleReset (st : State) : Result :=
  .next { State.reset with
    mem := st.mem
    mod := { ModuleUnit.reset with
      number := st.mod.number, identity := st.mod.identity, latchCycles := st.mod.latchCycles, minVersion := st.mod.minVersion,
      poison := st.mod.poison }
    sched := { st.sched with cur := none } }

end Sys2Proof.Machine
end

