-- ==== Sys2Proof/Machine/Dispatch.lean ====
section
/-!
DEFINITION. The dispatch: one arm per constructor of `Instr`, each a call of its meaning.
-/
namespace Sys2Proof.Machine

def exec (i : Instr) (s : State) : Host.Outcome State Fault Refusal :=
  match i with
  | .add c d a b sat sg => Sys2Proof.Machine.execAdd c d a b sat sg s
  | .sub c d a b sat sg => Sys2Proof.Machine.execSub c d a b sat sg s
  | .addc c d a b pOut pIn cin => Sys2Proof.Machine.execAddc c d a b pOut pIn cin s
  | .subb c d a b pOut pIn cin => Sys2Proof.Machine.execSubb c d a b pOut pIn cin s
  | .mul c d a b => Sys2Proof.Machine.execMul c d a b s
  | .mulh c d a b sg => Sys2Proof.Machine.execMulh c d a b sg s
  | .mad c d a b e => Sys2Proof.Machine.execMad c d a b e s
  | .neg c d a sat sg => Sys2Proof.Machine.execNeg c d a sat sg s
  | .abs c d a sat sg => Sys2Proof.Machine.execAbs c d a sat sg s
  | .min c d a b sg => Sys2Proof.Machine.execMin c d a b sg s
  | .max c d a b sg => Sys2Proof.Machine.execMax c d a b sg s
  | .addd c d a b sat sg => Sys2Proof.Machine.execAddd c d a b sat sg s
  | .subd c d a b sat sg => Sys2Proof.Machine.execSubd c d a b sat sg s
  | .mulw c d a b sg => Sys2Proof.Machine.execMulw c d a b sg s
  | .sad c d a b e => Sys2Proof.Machine.execSad c d a b e s
  | .dot4 c d a b e sa sb sat => Sys2Proof.Machine.execDot4 c d a b e sa sb sat s
  | .addi c d wide r imm => Sys2Proof.Machine.execAddi c d wide r imm s
  | .ldi c d wide imm => Sys2Proof.Machine.execLdi c d wide imm s
  | .and c d a b => Sys2Proof.Machine.execAnd c d a b s
  | .or c d a b => Sys2Proof.Machine.execOr c d a b s
  | .xor c d a b => Sys2Proof.Machine.execXor c d a b s
  | .andn c d a b => Sys2Proof.Machine.execAndn c d a b s
  | .not c d a => Sys2Proof.Machine.execNot c d a s
  | .shl c d a b => Sys2Proof.Machine.execShl c d a b s
  | .shr c d a b => Sys2Proof.Machine.execShr c d a b s
  | .sar c d a b => Sys2Proof.Machine.execSar c d a b s
  | .rol c d a b => Sys2Proof.Machine.execRol c d a b s
  | .shld c d a b e => Sys2Proof.Machine.execShld c d a b e s
  | .shrd c d a b e => Sys2Proof.Machine.execShrd c d a b e s
  | .clz c d a => Sys2Proof.Machine.execClz c d a s
  | .popc c d a => Sys2Proof.Machine.execPopc c d a s
  | .brev c d a => Sys2Proof.Machine.execBrev c d a s
  | .bfx c d a b sg => Sys2Proof.Machine.execBfx c d a b sg s
  | .bfi c d a b e => Sys2Proof.Machine.execBfi c d a b e s
  | .perm c d a b e => Sys2Proof.Machine.execPerm c d a b e s
  | .andi c d r imm => Sys2Proof.Machine.execAndi c d r imm s
  | .ori c d r imm => Sys2Proof.Machine.execOri c d r imm s
  | .xori c d r imm => Sys2Proof.Machine.execXori c d r imm s
  | .cmp c p a b cc sg wide => Sys2Proof.Machine.execCmp c p a b cc sg wide s
  | .cmps c d a b cc sg wide => Sys2Proof.Machine.execCmps c d a b cc sg wide s
  | .sel c d a b p negate wide => Sys2Proof.Machine.execSel c d a b p negate wide s
  | .mov c d a wide => Sys2Proof.Machine.execMov c d a wide s
  | .movs c d r wide => Sys2Proof.Machine.execMovs c d r wide s
  | .sets c a r wide => Sys2Proof.Machine.execSets c a r wide s
  | .pand c p pa pb na nb => Sys2Proof.Machine.execPand c p pa pb na nb s
  | .por c p pa pb na nb => Sys2Proof.Machine.execPor c p pa pb na nb s
  | .pxor c p pa pb na nb => Sys2Proof.Machine.execPxor c p pa pb na nb s
  | .pnot c p pa => Sys2Proof.Machine.execPnot c p pa s
  | .pset c p a => Sys2Proof.Machine.execPset c p a s
  | .pmov c d a write => Sys2Proof.Machine.execPmov c d a write s
  | .fadd c d a b r => Sys2Proof.Machine.execFadd c d a b r s
  | .fsub c d a b r => Sys2Proof.Machine.execFsub c d a b r s
  | .fmul c d a b r => Sys2Proof.Machine.execFmul c d a b r s
  | .ffma c d a b e r => Sys2Proof.Machine.execFfma c d a b e r s
  | .fmin c d a b fz m => Sys2Proof.Machine.execFmin c d a b fz m s
  | .fmax c d a b fz m => Sys2Proof.Machine.execFmax c d a b fz m s
  | .fcmp c d a b cc fz m => Sys2Proof.Machine.execFcmp c d a b cc fz m s
  | .fclass c d a => Sys2Proof.Machine.execFclass c d a s
  | .frcp c d a fz m => Sys2Proof.Machine.execFrcp c d a fz m s
  | .frsq c d a fz m => Sys2Proof.Machine.execFrsq c d a fz m s
  | .fsqrt c d a r => Sys2Proof.Machine.execFsqrt c d a r s
  | .fdiv c d a b r => Sys2Proof.Machine.execFdiv c d a b r s
  | .fexp2 c d a fz m => Sys2Proof.Machine.execFexp2 c d a fz m s
  | .flog2 c d a fz m => Sys2Proof.Machine.execFlog2 c d a fz m s
  | .fsin c d a fz m => Sys2Proof.Machine.execFsin c d a fz m s
  | .fcos c d a fz m => Sys2Proof.Machine.execFcos c d a fz m s
  | .ftanh c d a fz m => Sys2Proof.Machine.execFtanh c d a fz m s
  | .fscale c d a b r => Sys2Proof.Machine.execFscale c d a b r s
  | .ffrac c d a fz m => Sys2Proof.Machine.execFfrac c d a fz m s
  | .frnd c d a r => Sys2Proof.Machine.execFrnd c d a r s
  | .hadd2 c d a b bf r => Sys2Proof.Machine.execHadd2 c d a b bf r s
  | .hmul2 c d a b bf r => Sys2Proof.Machine.execHmul2 c d a b bf r s
  | .hfma2 c d a b e bf r => Sys2Proof.Machine.execHfma2 c d a b e bf r s
  | .hmin2 c d a b bf fz m => Sys2Proof.Machine.execHmin2 c d a b bf fz m s
  | .hmax2 c d a b bf fz m => Sys2Proof.Machine.execHmax2 c d a b bf fz m s
  | .hdot2 c d a b e bf r => Sys2Proof.Machine.execHdot2 c d a b e bf r s
  | .cvt c d a dst src rm fz sat => Sys2Proof.Machine.execCvt c d a dst src rm fz sat s
  | .pack2 c d a b ty sg rm fz sat => Sys2Proof.Machine.execPack2 c d a b ty sg rm fz sat s
  | .split2 c d a ty fz => Sys2Proof.Machine.execSplit2 c d a ty fz s
  | .pack4 c d a b i8 sg sat => Sys2Proof.Machine.execPack4 c d a b i8 sg sat s
  | .split4 c d a hi signed => Sys2Proof.Machine.execSplit4 c d a hi signed s
  | .bra c off => Sys2Proof.Machine.execBra c off s
  | .jmpi c a => Sys2Proof.Machine.execJmpi c a s
  | .call c link off => Sys2Proof.Machine.execCall c link off s
  | .calli c link a => Sys2Proof.Machine.execCalli c link a s
  | .ret c a => Sys2Proof.Machine.execRet c a s
  | .relcall c frame a => Sys2Proof.Machine.execRelcall c frame a s
  | .tjoin c => Sys2Proof.Machine.execTjoin c s
  | .tend c => Sys2Proof.Machine.execTend c s
  | .exit c => Sys2Proof.Machine.execExit c s
  | .nop c => Sys2Proof.Machine.execNop c s
  | .yieldI c => Sys2Proof.Machine.execYieldI c s
  | .progress c => Sys2Proof.Machine.execProgress c s
  | .step c mask => Sys2Proof.Machine.execStep c mask s
  | .migrate c d a => Sys2Proof.Machine.execMigrate c d a s
  | .dqpush c a => Sys2Proof.Machine.execDqpush c a s
  | .dqpop c d => Sys2Proof.Machine.execDqpop c d s
  | .park c => Sys2Proof.Machine.execPark c s
  | .ld c d m => Sys2Proof.Machine.execLd c d m s
  | .st c d m => Sys2Proof.Machine.execSt c d m s
  | .ldx c d w m => Sys2Proof.Machine.execLdx c d w m s
  | .stx c d w m => Sys2Proof.Machine.execStx c d w m s
  | .pref c m => Sys2Proof.Machine.execPref c m s
  | .vset c base view => Sys2Proof.Machine.execVset c base view s
  | .vget c base view => Sys2Proof.Machine.execVget c base view s
  | .vld c entry m => Sys2Proof.Machine.execVld c entry m s
  | .atom c r fn m => Sys2Proof.Machine.execAtom c r fn m s
  | .atomr c r fn m => Sys2Proof.Machine.execAtomr c r fn m s
  | .cas c r m => Sys2Proof.Machine.execCas c r m s
  | .kcas2 c r dist m => Sys2Proof.Machine.execKcas2 c r dist m s
  | .kenq c r m => Sys2Proof.Machine.execKenq c r m s
  | .kdeq c r m => Sys2Proof.Machine.execKdeq c r m s
  | .kchase c r word m => Sys2Proof.Machine.execKchase c r word m s
  | .kchunk c r m => Sys2Proof.Machine.execKchunk c r m s
  | .fence c order scope tok => Sys2Proof.Machine.execFence c order scope tok s
  | .bar c sc => Sys2Proof.Machine.execBar c sc s
  | .bara c d sc => Sys2Proof.Machine.execBara c d sc s
  | .barw c a sc => Sys2Proof.Machine.execBarw c a sc s
  | .sarm c r m => Sys2Proof.Machine.execSarm c r m s
  | .swait c r m => Sys2Proof.Machine.execSwait c r m s
  | .sadd c r m => Sys2Proof.Machine.execSadd c r m s
  | .copy c block vd vs rm fz sat tok => Sys2Proof.Machine.execCopy c block vd vs rm fz sat tok s
  | .copym c block vd vs vb fmt rm fz sat tok => Sys2Proof.Machine.execCopym c block vd vs vb fmt rm fz sat tok s
  | .mmab c block va vb fmt tok => Sys2Proof.Machine.execMmab c block va vb fmt tok s
  | .scacc c block va vb part acc tok => Sys2Proof.Machine.execScacc c block va vb part acc tok s
  | .mload c block v acc tok => Sys2Proof.Machine.execMload c block v acc tok s
  | .mstore c block v acc rm fz sat tok => Sys2Proof.Machine.execMstore c block v acc rm fz sat tok s
  | .mzero c acc tok => Sys2Proof.Machine.execMzero c acc tok s
  | .tmma c block v entry tok => Sys2Proof.Machine.execTmma c block v entry tok s
  | .drun c block entry tok => Sys2Proof.Machine.execDrun c block entry tok s
  | .ecan c mask tok => Sys2Proof.Machine.execEcan c mask tok s
  | .trig c => Sys2Proof.Machine.execTrig c s
  | .spawn c r m => Sys2Proof.Machine.execSpawn c r m s
  | .trap c imm => Sys2Proof.Machine.execTrap c imm s
  | .svc c imm => Sys2Proof.Machine.execSvc c imm s
  | .eret c => Sys2Proof.Machine.execEret c s
  | .segset c n r => Sys2Proof.Machine.execSegset c n r s
  | .segget c n r => Sys2Proof.Machine.execSegget c n r s
  | .tlbinv c form a b => Sys2Proof.Machine.execTlbinv c form a b s
  | .shoot c d a b e g tok => Sys2Proof.Machine.execShoot c d a b e g tok s
  | .ldio c d a wide tok => Sys2Proof.Machine.execLdio c d a wide tok s
  | .stio c a b wide tok => Sys2Proof.Machine.execStio c a b wide tok s
  | .ctxsave c d a b tok => Sys2Proof.Machine.execCtxsave c d a b tok s
  | .ctxload c d a b tok => Sys2Proof.Machine.execCtxload c d a b tok s
  | .idle c d a => Sys2Proof.Machine.execIdle c d a s
  | .ckpt c d a b tok => Sys2Proof.Machine.execCkpt c d a b tok s
  | .ckptRb c d a b tok => Sys2Proof.Machine.execCkptRb c d a b tok s
  | .setperf c a => Sys2Proof.Machine.execSetperf c a s
  | .relcallRelease m => Sys2Proof.Machine.execRelcallRelease m s
  | .tendComplete m => Sys2Proof.Machine.execTendComplete m s
  | .exitDrainEnd m => Sys2Proof.Machine.execExitDrainEnd m s
  | .stepCommit m => Sys2Proof.Machine.execStepCommit m s
  | .migrateMove m => Sys2Proof.Machine.execMigrateMove m s
  | .dqEntryReleased core => Sys2Proof.Machine.execDqEntryReleased core s
  | .parkSelf m => Sys2Proof.Machine.execParkSelf m s
  | .kchaseHop a => Sys2Proof.Machine.execKchaseHop a s
  | .keeperOperation a => Sys2Proof.Machine.execKeeperOperation a s
  | .atomicAtHome a => Sys2Proof.Machine.execAtomicAtHome a s
  | .barrierInstanceComplete launch sc unit k => Sys2Proof.Machine.execBarrierInstanceComplete launch sc unit k s
  | .syncWordOperation a => Sys2Proof.Machine.execSyncWordOperation a s
  | .swaitReturn m => Sys2Proof.Machine.execSwaitReturn m s
  | .copyCommandRun core cmd ext => Sys2Proof.Machine.execCopyCommandRun core cmd ext s
  | .copySegmentLanded core cmd seg => Sys2Proof.Machine.execCopySegmentLanded core cmd seg s
  | .copymFollowOnPlace core cmd => Sys2Proof.Machine.execCopymFollowOnPlace core cmd s
  | .arrayCommandRun core cmd ext => Sys2Proof.Machine.execArrayCommandRun core cmd ext s
  | .engineCommandComplete core cmd => Sys2Proof.Machine.execEngineCommandComplete core cmd s
  | .engineHeldFaultResume core cmd => Sys2Proof.Machine.execEngineHeldFaultResume core cmd s
  | .docentProgramStart core ext => Sys2Proof.Machine.execDocentProgramStart core ext s
  | .docentYieldPoint core => Sys2Proof.Machine.execDocentYieldPoint core s
  | .docentEnd core => Sys2Proof.Machine.execDocentEnd core s
  | .docentMmab core => Sys2Proof.Machine.execDocentMmab core s
  | .docentScacc core => Sys2Proof.Machine.execDocentScacc core s
  | .docentMzero core => Sys2Proof.Machine.execDocentMzero core s
  | .docentMload core => Sys2Proof.Machine.execDocentMload core s
  | .docentMstore core => Sys2Proof.Machine.execDocentMstore core s
  | .docentCopy core => Sys2Proof.Machine.execDocentCopy core s
  | .docentLoop core => Sys2Proof.Machine.execDocentLoop core s
  | .docentSetl core => Sys2Proof.Machine.execDocentSetl core s
  | .docentSignal core => Sys2Proof.Machine.execDocentSignal core s
  | .continuationAccept core rec => Sys2Proof.Machine.execContinuationAccept core rec s
  | .taskCellStart field rec => Sys2Proof.Machine.execTaskCellStart field rec s
  | .accessionWatchdogExpiry field launch => Sys2Proof.Machine.execAccessionWatchdogExpiry field launch s
  | .svcComplete m vals => Sys2Proof.Machine.execSvcComplete m vals s
  | .shootdownComplete seq => Sys2Proof.Machine.execShootdownComplete seq s
  | .idleWake m timeout => Sys2Proof.Machine.execIdleWake m timeout s
  | .clauseFetch core launch h => Sys2Proof.Machine.execClauseFetch core launch h s
  | .clauseCacheFill core launch h => Sys2Proof.Machine.execClauseCacheFill core launch h s
  | .pick core idle => Sys2Proof.Machine.execPick core idle s
  | .gangSwap core => Sys2Proof.Machine.execGangSwap core s
  | .neighbourReadArrival r => Sys2Proof.Machine.execNeighbourReadArrival r s
  | .neighbourReadResume r v => Sys2Proof.Machine.execNeighbourReadResume r v s
  | .parkTransferEnd core launch => Sys2Proof.Machine.execParkTransferEnd core launch s
  | .loadComplete a => Sys2Proof.Machine.execLoadComplete a s
  | .storePerformed a => Sys2Proof.Machine.execStorePerformed a s
  | .prefLineArrival a victim => Sys2Proof.Machine.execPrefLineArrival a victim s
  | .tlbWalkFill core walk victim => Sys2Proof.Machine.execTlbWalkFill core walk victim s
  | .asyncFaultTake m => Sys2Proof.Machine.execAsyncFaultTake m s
  | .ringRecordWrite => Sys2Proof.Machine.execRingRecordWrite s
  | .actReplay a => Sys2Proof.Machine.execActReplay a s
  | .actDeliver a => Sys2Proof.Machine.execActDeliver a s
  | .actAbandon a => Sys2Proof.Machine.execActAbandon a s
  | .stopactTerminate a => Sys2Proof.Machine.execStopactTerminate a s
  | .stopactResume a => Sys2Proof.Machine.execStopactResume a s
  | .stopactResumeDeliver a => Sys2Proof.Machine.execStopactResumeDeliver a s
  | .contextSwitchOut launch core => Sys2Proof.Machine.execContextSwitchOut launch core s
  | .contextRestore launch core => Sys2Proof.Machine.execContextRestore launch core s
  | .docentOverrunExpiry core => Sys2Proof.Machine.execDocentOverrunExpiry core s
  | .watchdogNoProgress launch core image => Sys2Proof.Machine.execWatchdogNoProgress launch core image s
  | .watchdogNoRetire launch core image => Sys2Proof.Machine.execWatchdogNoRetire launch core image s
  | .notifyRegisterWrite queue widx src => Sys2Proof.Machine.execNotifyRegisterWrite queue widx src s
  | .packetAccept queue => Sys2Proof.Machine.execPacketAccept queue s
  | .launchPlacement launch => Sys2Proof.Machine.execLaunchPlacement launch s
  | .launchStart launch => Sys2Proof.Machine.execLaunchStart launch s
  | .dependantFail launch => Sys2Proof.Machine.execDependantFail launch s
  | .markerComplete launch => Sys2Proof.Machine.execMarkerComplete launch s
  | .launchCompletion launch => Sys2Proof.Machine.execLaunchCompletion launch s
  | .causalPacketSend a => Sys2Proof.Machine.execCausalPacketSend a s
  | .clockPacketArrival p => Sys2Proof.Machine.execClockPacketArrival p s
  | .baseAckArrival p => Sys2Proof.Machine.execBaseAckArrival p s
  | .sequencedPacketArrival p => Sys2Proof.Machine.execSequencedPacketArrival p s
  | .readRequestArrival p => Sys2Proof.Machine.execReadRequestArrival p s
  | .horizonQueryAnswer p => Sys2Proof.Machine.execHorizonQueryAnswer p s
  | .horizonAnswerArrival p => Sys2Proof.Machine.execHorizonAnswerArrival p s
  | .nackReceipt p => Sys2Proof.Machine.execNackReceipt p s
  | .nackResend field dest => Sys2Proof.Machine.execNackResend field dest s
  | .beaconArrival p => Sys2Proof.Machine.execBeaconArrival p s
  | .beaconAckArrival p => Sys2Proof.Machine.execBeaconAckArrival p s
  | .finalHorizonArrival p => Sys2Proof.Machine.execFinalHorizonArrival p s
  | .fieldDeath field => Sys2Proof.Machine.execFieldDeath field s
  | .causalReset => Sys2Proof.Machine.execCausalReset s
  | .linkAckTimeout link => Sys2Proof.Machine.execLinkAckTimeout link s
  | .flitCrcFail link => Sys2Proof.Machine.execFlitCrcFail link s
  | .moduleTimeout module => Sys2Proof.Machine.execModuleTimeout module s
  | .podTimeout module => Sys2Proof.Machine.execPodTimeout module s
  | .poisonRead granule reader => Sys2Proof.Machine.execPoisonRead granule reader s
  | .peerRequestArrival peer pa req => Sys2Proof.Machine.execPeerRequestArrival peer pa req s
  | .peerAckArrival a ans => Sys2Proof.Machine.execPeerAckArrival a ans s
  | .rangeEntryWrite a => Sys2Proof.Machine.execRangeEntryWrite a s
  | .spanNeighbourRead span peer idx face gen isStep => Sys2Proof.Machine.execSpanNeighbourRead span peer idx face gen isStep s
  | .spanStepReport span idx step => Sys2Proof.Machine.execSpanStepReport span idx step s
  | .podBarrierCount span module k => Sys2Proof.Machine.execPodBarrierCount span module k s
  | .clientRmaWrite job srcAddr port pa bytes => Sys2Proof.Machine.execClientRmaWrite job srcAddr port pa bytes s
  | .clientRmaRead job srcAddr port pa size => Sys2Proof.Machine.execClientRmaRead job srcAddr port pa size s
  | .reqWrite a => Sys2Proof.Machine.execReqWrite a s
  | .heatWrite a => Sys2Proof.Machine.execHeatWrite a s
  | .evenThreshWrite a => Sys2Proof.Machine.execEvenThreshWrite a s
  | .flitEnqueue fibre bundle flit => Sys2Proof.Machine.execFlitEnqueue fibre bundle flit s
  | .flitStart fibre bundle => Sys2Proof.Machine.execFlitStart fibre bundle s
  | .ringLock fibre bundle wl => Sys2Proof.Machine.execRingLock fibre bundle wl s
  | .ringParkEnd fibre bundle wl => Sys2Proof.Machine.execRingParkEnd fibre bundle wl s
  | .ringLockTimeout fibre bundle wl => Sys2Proof.Machine.execRingLockTimeout fibre bundle wl s
  | .heaterRetune fibre bundle wl heat mon => Sys2Proof.Machine.execHeaterRetune fibre bundle wl heat mon s
  | .byteBudgetInterval => Sys2Proof.Machine.execByteBudgetInterval s
  | .perfIntervalBoundary => Sys2Proof.Machine.execPerfIntervalBoundary s
  | .perfStepSettle quad => Sys2Proof.Machine.execPerfStepSettle quad s
  | .evictionGo src target => Sys2Proof.Machine.execEvictionGo src target s
  | .evictionAbort src => Sys2Proof.Machine.execEvictionAbort src s
  | .lrpWrite a => Sys2Proof.Machine.execLrpWrite a s
  | .evictionQuiesced => Sys2Proof.Machine.execEvictionQuiesced s
  | .evictionTransferred => Sys2Proof.Machine.execEvictionTransferred s
  | .evictionTimeout => Sys2Proof.Machine.execEvictionTimeout s
  | .circuitUp port module => Sys2Proof.Machine.execCircuitUp port module s
  | .fieldDrainCommand a => Sys2Proof.Machine.execFieldDrainCommand a s
  | .fieldForcedOffline a => Sys2Proof.Machine.execFieldForcedOffline a s
  | .fieldReturnOnline a => Sys2Proof.Machine.execFieldReturnOnline a s
  | .fieldDrainComplete field copyBase => Sys2Proof.Machine.execFieldDrainComplete field copyBase s
  | .appraiserReplay => Sys2Proof.Machine.execAppraiserReplay s
  | .appraiserSuspectClear a => Sys2Proof.Machine.execAppraiserSuspectClear a s
  | .checkpointDue launch core => Sys2Proof.Machine.execCheckpointDue launch core s
  | .checkpointDuePop a => Sys2Proof.Machine.execCheckpointDuePop a s
  | .ioRegisterWrite a => Sys2Proof.Machine.execIoRegisterWrite a s
  | .moduleReset => Sys2Proof.Machine.execModuleReset s
  | .bootImageVerify image signature version => Sys2Proof.Machine.execBootImageVerify image signature version s
  | .pldmFirmwareUpdate image signature version store => Sys2Proof.Machine.execPldmFirmwareUpdate image signature version store s
  | .spdmGetCertificate => Sys2Proof.Machine.execSpdmGetCertificate s
  | .spdmChallenge nonce => Sys2Proof.Machine.execSpdmChallenge nonce s
  | .spdmGetMeasurements => Sys2Proof.Machine.execSpdmGetMeasurements s
  | .gangSwapEnd core => Sys2Proof.Machine.execGangSwapEnd core s
  | .migrationResume m => Sys2Proof.Machine.execMigrationResume m s
  | .heldFetchServiced core launch h => Sys2Proof.Machine.execHeldFetchServiced core launch h s
  | .processorPageServiced queue => Sys2Proof.Machine.execProcessorPageServiced queue s
  | .queueRestart queue => Sys2Proof.Machine.execQueueRestart queue s
  | .serviceChannelMessage module kind value => Sys2Proof.Machine.execServiceChannelMessage module kind value s
  | .flitCreditReturn port channel count => Sys2Proof.Machine.execFlitCreditReturn port channel count s
  | .restripeMarkerArrival fibre bundle => Sys2Proof.Machine.execRestripeMarkerArrival fibre bundle s
  | .latchOpen => Sys2Proof.Machine.execLatchOpen s
  | .linkReadmit member => Sys2Proof.Machine.execLinkReadmit member s

end Sys2Proof.Machine
end

