-- ==== Sys2Proof/Machine/Turn.lean ====
section
/-!
DEFINITION. The turns of the machine (log 4): a core issues its next slot for its next member, a step of the table happens,
Sernus acts with no instruction; what follows at once after every turn; and the placing of one instruction word (log 3).
-/
namespace Sys2Proof.Machine

/-- An outcome whose next state is changed. -/
def mapNext (f : State → State) : Result → Result
  | .next s => .next (f s)
  | .fault r => .fault r
  | .refused r => .refused r

/-! ## Room for records (R283) -/

/-- Steps in which a member writes a record at its slot or at its header: without room for it they do not take place yet (R283). -/
def writesForMember : Instr → Bool
  | .pick .. | .asyncFaultTake .. | .svcComplete .. | .clauseFetch .. | .relcallRelease .. | .tendComplete .. => true
  | _ => false

/-- A member that would write a record waits at its slot; nothing else of its instruction has happened (R283). -/
def waitForRecord (s : State) : State :=
  match s.sched.cur with
  | none => s
  | some k => leaveGroup s k.member k.slot .recordFull

/-- A member that waits for room goes on: at its slot, with the fault that Sernus has delivered, or with the end of its ERET. -/
def retryRecord (s : State) (id : Nat) (m : Member) : State :=
  match m.wait, m.stopRec with
  | .recordFull, none => wake s id
  | .recordFull, some fi => deliverStopped s id fi
  | .drain .eret, _ => if drained m then endEret s id else s
  | _, _ => s

/-- Members that wait for room try again when there is some. -/
def wakeRecordWaiters (s : State) : State :=
  if s.mod.recBuf.length < 16 then
    (s.members.filter fun e => e.2.wait == .recordFull || e.2.wait == .drain .eret).foldl (fun t e => retryRecord t e.1 e.2) s
  else s

/-! ## What follows a turn at once -/

/-- A terminated member that is no longer in a group that issues leaves (R281). -/
def sweepTerminated (s : State) : State :=
  (s.members.filter fun e => e.2.terminating && !inGroup s e.1 e.2.core).foldl
    (fun t e => leaveMember (abandonLogs t e.1) e.1) s

/-- A member that waits for room behind a replay or fence goes on when there is some (R183, R259). -/
def wakeHeldWaiters (s : State) : State :=
  (s.members.filter fun e => e.2.wait == .behindFull && heldCount s e.1 e.2 < 8).foldl (fun t e => wake t e.1) s

/-- A member that drains has no clause boundary left before its drain ends: the tokens of failed commands whose faults wait for that boundary
clear now, and the faults stay to be taken (R118, R212; log 61). -/
def settleOwed (s : State) : State :=
  (s.members.filter fun e => (match e.2.wait with | .drain _ => true | _ => false) && e.2.async.any fun f => f.tok.isSome).foldl
    (fun t e => (e.2.async.filterMap fun f => f.tok.map fun k => (f.word, k)).foldl (fun u k => clearFaultTok u e.1 k.1 k.2)
      (updMember t e.1 fun v => { v with async := v.async.map fun f => { f with tok := none } })) s

/-- The drains of a switch begin when the groups that were issuing have finished (R277): until then the start of step 2 moves on. -/
def beginDrains (s : State) : State :=
  { s with ctxs := s.ctxs.map fun e =>
      (e.1, if e.2.switching && (coreAt s (e.1 % 4096)).issue.any (fun g => g.launch == e.1 / 4096)
        then { e.2 with switchAt := s.mod.time } else e.2) }

/-- Homes look anew at what waits in their early and pending buffers (R241, R242). -/
def reexamineAll (s : State) : State :=
  (s.fields.filter fun e => !e.2.early.isEmpty || !e.2.pending.isEmpty).foldl (fun t e => reexamine t e.1) s

/-- What follows at once for members, contexts and launches: terminated members leave, killed launches are freed, waits for room end,
drains go on, and releases whose sequences have been applied end. -/
def settleMembers (s : State) : State :=
  settleNeeds (beginDrains (settleOwed (wakeRecordWaiters (wakeHeldWaiters (retranslateStale (sweepKilled (sweepTerminated s)))))))

/-- What follows at once at homes and toward peers: buffered packets and reads from peers are looked at anew, values take their way back,
peers whose wait has ended are answered, and flits reach their boundary. -/
def settleHomes (s : State) : State :=
  settleBundles (answerPeers (serveSpans (ackAll (respondAll (sweepResponses (reexamineAll s))))))

/-- What follows every turn: what its members and the homes do at once, the cores' decisions on parking, and the clocks of cores that
issue nothing, which reach the module's time. -/
def afterTurn (s : State) : State := catchUpAll (decideParking (settleHomes (settleMembers s)))

/-! ## Turns -/

/-- The instruction of the slot's word is executed for the member whose turn it is; one whose record finds no room waits. -/
def issueWord (s : State) (w : Word64) : Result :=
  match decodeWord w with
  | .ok i =>
    (match exec i s with
      | .next t => .next (endMember i (if recordRoom s t then t else waitForRecord s))
      | .fault r => .fault r
      | .refused r => .refused r)
  | .error _ => .fault .notAnInstruction

/-- A core issues its next slot for its next member: the word at the slot is decoded and executed (R115, R117). -/
def issueOne (s : State) (core : Nat) : Result :=
  match beginMember s core with
  | none => .next (updCore s core fun u => { u with issue := none })
  | some s1 =>
    match s1.sched.cur with
    | none => .fault .noMember
    | some k => mapNext (accrueStep s · core) (issueWord s1 k.word)

/-- A step of the machine itself happens. -/
def happen (i : Instr) (s : State) : Result :=
  match exec i s with
  | .next t => .next (if writesForMember i && !recordRoom s t then s else t)
  | .fault r => .fault r
  | .refused r => .refused r

/-- A turn of the machine. -/
def takeTurn (s : State) : Turn → Result
  | .issue core => issueOne s (dueCore s core)
  | .happen i => happen i s
  | .createQueue q => .next (createQueue s q)
  | .kill l => .next (killLaunch s l)
  | .clearRedirect f => .next (clearRedirect s f)
  | .linkAck l => .next (linkAcked s l)
  | .corrected => .next (updMod s fun m => { m with corrected := m.corrected + 1 })
  | .docError core g => .next (docentError s core g)
  | .clauseParity core line => .next (updCore s core (dropClauses (line * 64) 64))
  | .clientOther port => .next (refuseClient s port)
  | .readStore i n => .next (readStore s i n)

/-- A pick that is due is made, unless a record that it would write finds no room (R115, R283). -/
def pickNow (s : State) : Option State :=
  match (pickDue s).map fun core => execPick core 0 s with
  | some (.next t) => if recordRoom s t then some t else none
  | _ => none

/-- The turn that waits first, else a pick that is due, else the next slot of an issuing core, else a draw of the turns that come next (log 4). -/
def nextTurn (s : State) : Result :=
  match s.sched.turns with
  | t :: rest => mapNext afterTurn (takeTurn { s with sched := { s.sched with turns := rest } } t)
  | [] =>
    match pickNow s, issuingCore s with
    | some t, _ => .next (afterTurn t)
    | none, some core => mapNext afterTurn (issueOne s core)
    | none, none => .next { s with sched := { s.sched with turns := nextTurns s.sched.drawn, drawn := s.sched.drawn + 1 } }

/-! ## One instruction word, placed to be the next (log 3) -/

/-- The engine class code of a word's group (R62, R73). -/
def wordEngine (w : Word64) : EClass :=
  match (w.extractLsb' 60 4).toNat with
  | 8 | 9 | 10 => .memory
  | 11 => .engine
  | 12 | 13 => .system
  | _ => .arith

/-- The header of a clause of one instruction. -/
def headerFor (w : Word64) : Word64 :=
  Header.encode { count := 0, cls := f2 w 52, eng := wordEngine w, wait := 0, yield := false }

/-- The core on which the word is placed: core 0 of field 1. -/
def fetchCore : Nat := 64

/-- A CODE descriptor over 16 KiB of the slice of the fetch core, and data descriptors over its slice. -/
def fetchDesc : Vector DescBits 6 :=
  let d (flags space limit base : Nat) : DescBits := BitVec.ofNat 128 (flags * 2 ^ 100 + space * 2 ^ 96 + limit * 2 ^ 64 + base)
  #v[d 7 0 0x10000 0x20000, d 7 1 0x10000 0x40000, d 7 2 0x100000 (sliceBase fetchCore), d 7 3 0x10000 0, 0,
     d 9 2 0x4000 (sliceBase fetchCore)]

def fetchPacket : LaunchPkt :=
  { marker := false, acq := false, rel := false, prio := 0, persistent := false, early := false, edges := 0, window := 0,
    entry := 0, curator := none, slots := 1, interval := 0, grid := (1, 1, 1), block := (1, 1, 1), stride := 0xFF,
    complVal := 0, dep := none, arg := 0, seg := 0, affBase := 0, complAddr := 0 }

def fetchLaunch : Launch :=
  { pkt := fetchPacket, queue := 0, qindex := 0, phase := .running, system := false, desc := fetchDesc, stackSize := 256,
    vwFirst := 0, vwCount := 64, bFirst := 0, bCount := 0, spanId := 0, span := [], argFirst := 0, argViews := [],
    trigCount := 0, startTime := 0, archived := false, remoteSteps := [], stepWatchers := [], remoteArrivals := [],
    barriers := [], blocked := false }

def fetchCtx : Ctx := { newCtx fetchLaunch 0 1 1 [0] 0 with origin := fetchCore }

/-- The launch of one cell, its context and its clause in memory, with its group at the slot (log 3). -/
def placeWord (s : State) (word : Word64) : State :=
  let s1 := writeBytes s (sliceBase fetchCore) (bytesOf 8 (headerFor word).toNat ++ bytesOf 8 word.toNat)
  let m := newCell fetchLaunch 1 fetchCore 0 0 (0, 0, 0) (.slot 0)
  let g : Issue :=
    { launch := 1, h := 0, slot := 0, words := [headerFor word, word], members := [0], todo := [0], entered := [],
      started := false }
  { updCore s1 fetchCore fun u => { u with issue := some g } with
    launches := tabPut s.launches 1 fetchLaunch
    ctxs := tabPut s.ctxs (ctxKey 1 fetchCore) fetchCtx
    members := tabPut s.members 0 m
    sched := { s.sched with turns := [.issue fetchCore], cur := none, nextId := max s.sched.nextId 1 } }

end Sys2Proof.Machine
end

