-- ==== Sys2Proof/Machine/Step.lean ====
section
/-!
DEFINITION. One step of the module, and the placing of one instruction word for a step to run.
-/
namespace Sys2Proof.Machine

/-- One step of the module: the next turn and what follows it (Machine/Turn.lean; log 4). -/
def step (s : State) : Host.Outcome State Fault Refusal := nextTurn s

/-- The state with the instruction word placed where the next step issues it: a launch of one cell on the fetch core, its
clause in memory and fetched, and its group at the slot. A program is otherwise loaded from outside through a queue (R77);
this stands for that load (log 3). -/
def State.withFetchWord (s : State) (nbits w : Nat) : State := placeWord s (BitVec.ofNat 64 (w % 2 ^ nbits))

end Sys2Proof.Machine
end

