-- ==== Sys2Proof/Laws/Encoding.lean ====
section
/-!
SUPPORT. The fields of a word that the encoder builds are the fields that the decoder reads, and every code names what it was made
from.
-/
namespace Sys2Proof.Laws
set_option linter.unusedSimpArgs false

/-! ## Codes -/

@[simp] theorem srcOf_code (a : Src) : srcOf a.code = .ok a := by
  cases a with
  | nbr d f => cases d <;> revert f <;> decide
  | _ => rename_i n; revert n; decide

@[simp] theorem dst_ofCode_code (d : Dst) : Dst.ofCode d.code = .ok d := by
  cases d with
  | none => decide
  | _ => rename_i n; revert n; decide

@[simp] theorem rm_ofCode_code (x : Rm) : Rm.ofCode x.code = x := by cases x <;> rfl
@[simp] theorem cond_ofCode_code (x : Cond) : Cond.ofCode x.code = .ok x := by cases x <;> rfl
@[simp] theorem fcond_ofCode_code (x : FCond) : FCond.ofCode x.code = x := by cases x <;> rfl
@[simp] theorem sreg_ofCode_code (x : SReg) : SReg.ofCode x.code = .ok x := by cases x <;> rfl
@[simp] theorem fmt_ofCode_code (x : Fmt) : Fmt.ofCode x.code = .ok x := by cases x <;> rfl
@[simp] theorem cvtTy_ofCode_code (x : CvtTy) : CvtTy.ofCode x.code = .ok x := by cases x <;> rfl
@[simp] theorem half_ofCode_code (x : Half) : Half.ofCode x.code = x := by cases x <;> rfl
@[simp] theorem order_ofCode_code (x : Order) : Order.ofCode x.code = x := by cases x <;> rfl
@[simp] theorem mscope_ofCode_code (x : MScope) : MScope.ofCode x.code = x := by cases x <;> rfl
@[simp] theorem policy_ofCode_code (x : Policy) : Policy.ofCode x.code = x := by cases x <;> rfl
@[simp] theorem atomFn_ofCode_code (x : AtomFn) : AtomFn.ofCode x.code = .ok x := by cases x <;> rfl
@[simp] theorem scope_ofCode_code (x : Scope) : Scope.ofCode x.code = .ok x := by cases x <;> rfl
@[simp] theorem matFmt_ofCode_code (x : MatFmt) : MatFmt.ofCode x.code = x := by cases x <;> rfl
@[simp] theorem tlbinvForm_ofCode_code (x : TlbinvForm) : TlbinvForm.ofCode x.code = .ok x := by cases x <;> rfl

/-! ## The fields of a word -/

/-- A field of the low part of two parts side by side. -/
theorem extract_low {v w : Nat} (x : BitVec v) (y : BitVec w) (lo n : Nat) (h : lo + n ≤ w) :
    (x ++ y).extractLsb' lo n = y.extractLsb' lo n := by
  ext i hi
  simp only [BitVec.getElem_extractLsb', BitVec.getLsbD_append]
  rw [if_pos (by omega)]

/-- A field of the high part. -/
theorem extract_high {v w : Nat} (x : BitVec v) (y : BitVec w) (lo n : Nat) (h : w ≤ lo) :
    (x ++ y).extractLsb' lo n = x.extractLsb' (lo - w) n := by
  ext i hi
  simp only [BitVec.getElem_extractLsb', BitVec.getLsbD_append]
  rw [if_neg (by omega)]
  congr 1
  omega

theorem extract_all {w : Nat} (x : BitVec w) : x.extractLsb' 0 w = x := by
  ext i hi
  simp

theorem getLsbD_ofBool (b : Bool) : (BitVec.ofBool b).getLsbD 0 = b := by cases b <;> rfl

/-- A field below the common fields is a field of the body. -/
theorem word_low (op : Nat) (c : Common) (body : BitVec 47) (lo n : Nat) (h : lo + n ≤ 47) :
    (word op c body).extractLsb' lo n = body.extractLsb' lo n := extract_low _ _ _ _ h

/-- A bit is a field of width 1. -/
theorem bit_eq (w : Word64) (i : Nat) : bit w i = (w.extractLsb' i 1).getLsbD 0 := by
  simp [bit]

theorem word_field (op : Nat) (c : Common) (body : BitVec 47) (lo n : Nat) :
    (word op c body).extractLsb' lo n = BitVec.extractLsb' (n := 10 + 2 + 1 + 3 + 1 + 47) lo n
      (BitVec.ofNat 10 op ++ c.t ++ BitVec.ofBool c.k ++ c.guard ++ BitVec.ofBool c.sense ++ body) := rfl

@[simp] theorem word_common (op : Nat) (c : Common) (body : BitVec 47) : fldCommon (word op c body) = c := by
  obtain ⟨t, k, g, s⟩ := c
  simp only [fldCommon, f2, f3, bit_eq, word_field]
  simp (disch := omega) only [extract_low, extract_high, -Nat.reduceAdd, Nat.reduceSub]
  simp

@[simp] theorem word_group (op : Nat) (c : Common) (body : BitVec 47) :
    (word op c body).extractLsb' 60 4 = (BitVec.ofNat 10 op).extractLsb' 6 4 := by
  simp only [word_field]
  simp (disch := omega) only [extract_high, -Nat.reduceAdd, Nat.reduceSub]

@[simp] theorem word_op (op : Nat) (c : Common) (body : BitVec 47) :
    (word op c body).extractLsb' 54 6 = (BitVec.ofNat 10 op).extractLsb' 0 6 := by
  simp only [word_field]
  simp (disch := omega) only [extract_high, -Nat.reduceAdd, Nat.reduceSub]

/-! ## The fields of a body -/

theorem bodyA_field (d : BitVec 7) (a b c : BitVec 9) (rm : BitVec 2) (fz sat : Bool) (op : BitVec 9) (lo n : Nat) :
    (bodyA d a b c rm fz sat op).extractLsb' lo n = BitVec.extractLsb' (n := 7 + 9 + 9 + 9 + 2 + 1 + 1 + 9) lo n
      (d ++ a ++ b ++ c ++ rm ++ BitVec.ofBool fz ++ BitVec.ofBool sat ++ op) := rfl

@[simp] theorem bodyA_40_7 (d : BitVec 7) (a b c : BitVec 9) (rm : BitVec 2) (fz sat : Bool) (op : BitVec 9) :
    (bodyA d a b c rm fz sat op).extractLsb' 40 7 = d := by
  simp only [bodyA_field]
  simp (disch := omega) only [extract_low, extract_high, extract_all, -Nat.reduceAdd, Nat.reduceSub]

@[simp] theorem bodyA_31_9 (d : BitVec 7) (a b c : BitVec 9) (rm : BitVec 2) (fz sat : Bool) (op : BitVec 9) :
    (bodyA d a b c rm fz sat op).extractLsb' 31 9 = a := by
  simp only [bodyA_field]
  simp (disch := omega) only [extract_low, extract_high, extract_all, -Nat.reduceAdd, Nat.reduceSub]

@[simp] theorem bodyA_31_6 (d : BitVec 7) (a b c : BitVec 9) (rm : BitVec 2) (fz sat : Bool) (op : BitVec 9) :
    (bodyA d a b c rm fz sat op).extractLsb' 31 6 = a.extractLsb' 0 6 := by
  simp only [bodyA_field]
  simp (disch := omega) only [extract_low, extract_high, extract_all, -Nat.reduceAdd, Nat.reduceSub]

@[simp] theorem bodyA_22_9 (d : BitVec 7) (a b c : BitVec 9) (rm : BitVec 2) (fz sat : Bool) (op : BitVec 9) :
    (bodyA d a b c rm fz sat op).extractLsb' 22 9 = b := by
  simp only [bodyA_field]
  simp (disch := omega) only [extract_low, extract_high, extract_all, -Nat.reduceAdd, Nat.reduceSub]

@[simp] theorem bodyA_13_9 (d : BitVec 7) (a b c : BitVec 9) (rm : BitVec 2) (fz sat : Bool) (op : BitVec 9) :
    (bodyA d a b c rm fz sat op).extractLsb' 13 9 = c := by
  simp only [bodyA_field]
  simp (disch := omega) only [extract_low, extract_high, extract_all, -Nat.reduceAdd, Nat.reduceSub]

@[simp] theorem bodyA_11_2 (d : BitVec 7) (a b c : BitVec 9) (rm : BitVec 2) (fz sat : Bool) (op : BitVec 9) :
    (bodyA d a b c rm fz sat op).extractLsb' 11 2 = rm := by
  simp only [bodyA_field]
  simp (disch := omega) only [extract_low, extract_high, extract_all, -Nat.reduceAdd, Nat.reduceSub]

@[simp] theorem bodyA_10_1 (d : BitVec 7) (a b c : BitVec 9) (rm : BitVec 2) (fz sat : Bool) (op : BitVec 9) :
    (bodyA d a b c rm fz sat op).extractLsb' 10 1 = BitVec.ofBool fz := by
  simp only [bodyA_field]
  simp (disch := omega) only [extract_low, extract_high, extract_all, -Nat.reduceAdd, Nat.reduceSub]

@[simp] theorem bodyA_9_1 (d : BitVec 7) (a b c : BitVec 9) (rm : BitVec 2) (fz sat : Bool) (op : BitVec 9) :
    (bodyA d a b c rm fz sat op).extractLsb' 9 1 = BitVec.ofBool sat := by
  simp only [bodyA_field]
  simp (disch := omega) only [extract_low, extract_high, extract_all, -Nat.reduceAdd, Nat.reduceSub]

/-- A field of op in Format A. -/
theorem bodyA_op (d : BitVec 7) (a b c : BitVec 9) (rm : BitVec 2) (fz sat : Bool) (op : BitVec 9) (lo n : Nat)
    (h : lo + n ≤ 9) : (bodyA d a b c rm fz sat op).extractLsb' lo n = op.extractLsb' lo n := by
  simp only [bodyA_field]
  simp (disch := omega) only [extract_low, -Nat.reduceAdd]

theorem bodyI_field (d : BitVec 7) (md : BitVec 2) (g : BitVec 6) (imm : Word) (lo n : Nat) :
    (bodyI d md g imm).extractLsb' lo n = BitVec.extractLsb' (n := 7 + 2 + 6 + 32) lo n
      (d ++ md ++ g ++ imm) := rfl

@[simp] theorem bodyI_40_7 (d : BitVec 7) (md : BitVec 2) (g : BitVec 6) (imm : Word) :
    (bodyI d md g imm).extractLsb' 40 7 = d := by
  simp only [bodyI_field]
  simp (disch := omega) only [extract_low, extract_high, extract_all, -Nat.reduceAdd, Nat.reduceSub]

@[simp] theorem bodyI_38_1 (d : BitVec 7) (md : BitVec 2) (g : BitVec 6) (imm : Word) :
    (bodyI d md g imm).extractLsb' 38 1 = md.extractLsb' 0 1 := by
  simp only [bodyI_field]
  simp (disch := omega) only [extract_low, extract_high, extract_all, -Nat.reduceAdd, Nat.reduceSub]

@[simp] theorem bodyI_38_2 (d : BitVec 7) (md : BitVec 2) (g : BitVec 6) (imm : Word) :
    (bodyI d md g imm).extractLsb' 38 2 = md := by
  simp only [bodyI_field]
  simp (disch := omega) only [extract_low, extract_high, extract_all, -Nat.reduceAdd, Nat.reduceSub]

@[simp] theorem bodyI_32_6 (d : BitVec 7) (md : BitVec 2) (g : BitVec 6) (imm : Word) :
    (bodyI d md g imm).extractLsb' 32 6 = g := by
  simp only [bodyI_field]
  simp (disch := omega) only [extract_low, extract_high, extract_all, -Nat.reduceAdd, Nat.reduceSub]

@[simp] theorem bodyI_0_32 (d : BitVec 7) (md : BitVec 2) (g : BitVec 6) (imm : Word) :
    (bodyI d md g imm).extractLsb' 0 32 = imm := by
  simp only [bodyI_field]
  simp (disch := omega) only [extract_low, extract_high, extract_all, -Nat.reduceAdd, Nat.reduceSub]

theorem bodyB_field (link : BitVec 7) (target : BitVec 9) (off : BitVec 31) (lo n : Nat) :
    (bodyB link target off).extractLsb' lo n = BitVec.extractLsb' (n := 7 + 9 + 31) lo n
      (link ++ target ++ off) := rfl

@[simp] theorem bodyB_40_7 (link : BitVec 7) (target : BitVec 9) (off : BitVec 31) :
    (bodyB link target off).extractLsb' 40 7 = link := by
  simp only [bodyB_field]
  simp (disch := omega) only [extract_low, extract_high, extract_all, -Nat.reduceAdd, Nat.reduceSub]

@[simp] theorem bodyB_31_9 (link : BitVec 7) (target : BitVec 9) (off : BitVec 31) :
    (bodyB link target off).extractLsb' 31 9 = target := by
  simp only [bodyB_field]
  simp (disch := omega) only [extract_low, extract_high, extract_all, -Nat.reduceAdd, Nat.reduceSub]

@[simp] theorem bodyB_0_31 (link : BitVec 7) (target : BitVec 9) (off : BitVec 31) :
    (bodyB link target off).extractLsb' 0 31 = off := by
  simp only [bodyB_field]
  simp (disch := omega) only [extract_low, extract_high, extract_all, -Nat.reduceAdd, Nat.reduceSub]

theorem bodyM_field (d : BitVec 7) (m : MemOp) (lo n : Nat) :
    (bodyM d m).extractLsb' lo n = BitVec.extractLsb' (n := 7 + 6 + 9 + 2 + 2 + 2 + 3 + 16) lo n
      (d ++ m.view ++ m.off.code ++ m.order.code ++ m.scope.code ++ m.pol.code ++ m.tok ++ m.disp) := rfl

@[simp] theorem bodyM_40_7 (d : BitVec 7) (m : MemOp) :
    (bodyM d m).extractLsb' 40 7 = d := by
  simp only [bodyM_field]
  simp (disch := omega) only [extract_low, extract_high, extract_all, -Nat.reduceAdd, Nat.reduceSub]

@[simp] theorem bodyM_34_6 (d : BitVec 7) (m : MemOp) :
    (bodyM d m).extractLsb' 34 6 = m.view := by
  simp only [bodyM_field]
  simp (disch := omega) only [extract_low, extract_high, extract_all, -Nat.reduceAdd, Nat.reduceSub]

@[simp] theorem bodyM_25_9 (d : BitVec 7) (m : MemOp) :
    (bodyM d m).extractLsb' 25 9 = m.off.code := by
  simp only [bodyM_field]
  simp (disch := omega) only [extract_low, extract_high, extract_all, -Nat.reduceAdd, Nat.reduceSub]

@[simp] theorem bodyM_23_2 (d : BitVec 7) (m : MemOp) :
    (bodyM d m).extractLsb' 23 2 = m.order.code := by
  simp only [bodyM_field]
  simp (disch := omega) only [extract_low, extract_high, extract_all, -Nat.reduceAdd, Nat.reduceSub]

@[simp] theorem bodyM_21_2 (d : BitVec 7) (m : MemOp) :
    (bodyM d m).extractLsb' 21 2 = m.scope.code := by
  simp only [bodyM_field]
  simp (disch := omega) only [extract_low, extract_high, extract_all, -Nat.reduceAdd, Nat.reduceSub]

@[simp] theorem bodyM_19_2 (d : BitVec 7) (m : MemOp) :
    (bodyM d m).extractLsb' 19 2 = m.pol.code := by
  simp only [bodyM_field]
  simp (disch := omega) only [extract_low, extract_high, extract_all, -Nat.reduceAdd, Nat.reduceSub]

@[simp] theorem bodyM_16_3 (d : BitVec 7) (m : MemOp) :
    (bodyM d m).extractLsb' 16 3 = m.tok := by
  simp only [bodyM_field]
  simp (disch := omega) only [extract_low, extract_high, extract_all, -Nat.reduceAdd, Nat.reduceSub]

@[simp] theorem bodyM_0_16 (d : BitVec 7) (m : MemOp) :
    (bodyM d m).extractLsb' 0 16 = m.disp := by
  simp only [bodyM_field]
  simp (disch := omega) only [extract_low, extract_high, extract_all, -Nat.reduceAdd, Nat.reduceSub]

@[simp] theorem bodyM_0_12 (d : BitVec 7) (m : MemOp) :
    (bodyM d m).extractLsb' 0 12 = m.disp.extractLsb' 0 12 := by
  simp only [bodyM_field]
  simp (disch := omega) only [extract_low, extract_high, extract_all, -Nat.reduceAdd, Nat.reduceSub]

@[simp] theorem bodyM_12_4 (d : BitVec 7) (m : MemOp) :
    (bodyM d m).extractLsb' 12 4 = m.disp.extractLsb' 12 4 := by
  simp only [bodyM_field]
  simp (disch := omega) only [extract_low, extract_high, extract_all, -Nat.reduceAdd, Nat.reduceSub]

theorem bodyE_field (blk : BitVec 7) (va vb vc sel : BitVec 6) (tok : BitVec 3) (rm : BitVec 2) (fz sat : Bool) (op : BitVec 9) (lo n : Nat) :
    (bodyE blk va vb vc sel tok rm fz sat op).extractLsb' lo n = BitVec.extractLsb' (n := 7 + 6 + 6 + 6 + 6 + 3 + 2 + 1 + 1 + 9) lo n
      (blk ++ va ++ vb ++ vc ++ sel ++ tok ++ rm ++ BitVec.ofBool fz ++ BitVec.ofBool sat ++ op) := rfl

@[simp] theorem bodyE_40_6 (blk : BitVec 7) (va vb vc sel : BitVec 6) (tok : BitVec 3) (rm : BitVec 2) (fz sat : Bool) (op : BitVec 9) :
    (bodyE blk va vb vc sel tok rm fz sat op).extractLsb' 40 6 = blk.extractLsb' 0 6 := by
  simp only [bodyE_field]
  simp (disch := omega) only [extract_low, extract_high, extract_all, -Nat.reduceAdd, Nat.reduceSub]

@[simp] theorem bodyE_34_6 (blk : BitVec 7) (va vb vc sel : BitVec 6) (tok : BitVec 3) (rm : BitVec 2) (fz sat : Bool) (op : BitVec 9) :
    (bodyE blk va vb vc sel tok rm fz sat op).extractLsb' 34 6 = va := by
  simp only [bodyE_field]
  simp (disch := omega) only [extract_low, extract_high, extract_all, -Nat.reduceAdd, Nat.reduceSub]

@[simp] theorem bodyE_28_6 (blk : BitVec 7) (va vb vc sel : BitVec 6) (tok : BitVec 3) (rm : BitVec 2) (fz sat : Bool) (op : BitVec 9) :
    (bodyE blk va vb vc sel tok rm fz sat op).extractLsb' 28 6 = vb := by
  simp only [bodyE_field]
  simp (disch := omega) only [extract_low, extract_high, extract_all, -Nat.reduceAdd, Nat.reduceSub]

@[simp] theorem bodyE_22_6 (blk : BitVec 7) (va vb vc sel : BitVec 6) (tok : BitVec 3) (rm : BitVec 2) (fz sat : Bool) (op : BitVec 9) :
    (bodyE blk va vb vc sel tok rm fz sat op).extractLsb' 22 6 = vc := by
  simp only [bodyE_field]
  simp (disch := omega) only [extract_low, extract_high, extract_all, -Nat.reduceAdd, Nat.reduceSub]

@[simp] theorem bodyE_16_2 (blk : BitVec 7) (va vb vc sel : BitVec 6) (tok : BitVec 3) (rm : BitVec 2) (fz sat : Bool) (op : BitVec 9) :
    (bodyE blk va vb vc sel tok rm fz sat op).extractLsb' 16 2 = sel.extractLsb' 0 2 := by
  simp only [bodyE_field]
  simp (disch := omega) only [extract_low, extract_high, extract_all, -Nat.reduceAdd, Nat.reduceSub]

@[simp] theorem bodyE_18_2 (blk : BitVec 7) (va vb vc sel : BitVec 6) (tok : BitVec 3) (rm : BitVec 2) (fz sat : Bool) (op : BitVec 9) :
    (bodyE blk va vb vc sel tok rm fz sat op).extractLsb' 18 2 = sel.extractLsb' 2 2 := by
  simp only [bodyE_field]
  simp (disch := omega) only [extract_low, extract_high, extract_all, -Nat.reduceAdd, Nat.reduceSub]

@[simp] theorem bodyE_16_3 (blk : BitVec 7) (va vb vc sel : BitVec 6) (tok : BitVec 3) (rm : BitVec 2) (fz sat : Bool) (op : BitVec 9) :
    (bodyE blk va vb vc sel tok rm fz sat op).extractLsb' 16 3 = sel.extractLsb' 0 3 := by
  simp only [bodyE_field]
  simp (disch := omega) only [extract_low, extract_high, extract_all, -Nat.reduceAdd, Nat.reduceSub]

@[simp] theorem bodyE_13_3 (blk : BitVec 7) (va vb vc sel : BitVec 6) (tok : BitVec 3) (rm : BitVec 2) (fz sat : Bool) (op : BitVec 9) :
    (bodyE blk va vb vc sel tok rm fz sat op).extractLsb' 13 3 = tok := by
  simp only [bodyE_field]
  simp (disch := omega) only [extract_low, extract_high, extract_all, -Nat.reduceAdd, Nat.reduceSub]

@[simp] theorem bodyE_11_2 (blk : BitVec 7) (va vb vc sel : BitVec 6) (tok : BitVec 3) (rm : BitVec 2) (fz sat : Bool) (op : BitVec 9) :
    (bodyE blk va vb vc sel tok rm fz sat op).extractLsb' 11 2 = rm := by
  simp only [bodyE_field]
  simp (disch := omega) only [extract_low, extract_high, extract_all, -Nat.reduceAdd, Nat.reduceSub]

@[simp] theorem bodyE_10_1 (blk : BitVec 7) (va vb vc sel : BitVec 6) (tok : BitVec 3) (rm : BitVec 2) (fz sat : Bool) (op : BitVec 9) :
    (bodyE blk va vb vc sel tok rm fz sat op).extractLsb' 10 1 = BitVec.ofBool fz := by
  simp only [bodyE_field]
  simp (disch := omega) only [extract_low, extract_high, extract_all, -Nat.reduceAdd, Nat.reduceSub]

@[simp] theorem bodyE_9_1 (blk : BitVec 7) (va vb vc sel : BitVec 6) (tok : BitVec 3) (rm : BitVec 2) (fz sat : Bool) (op : BitVec 9) :
    (bodyE blk va vb vc sel tok rm fz sat op).extractLsb' 9 1 = BitVec.ofBool sat := by
  simp only [bodyE_field]
  simp (disch := omega) only [extract_low, extract_high, extract_all, -Nat.reduceAdd, Nat.reduceSub]

@[simp] theorem bodyE_8_1 (blk : BitVec 7) (va vb vc sel : BitVec 6) (tok : BitVec 3) (rm : BitVec 2) (fz sat : Bool) (op : BitVec 9) :
    (bodyE blk va vb vc sel tok rm fz sat op).extractLsb' 8 1 = op.extractLsb' 8 1 := by
  simp only [bodyE_field]
  simp (disch := omega) only [extract_low, extract_high, extract_all, -Nat.reduceAdd, Nat.reduceSub]

@[simp] theorem bodyE_0_2 (blk : BitVec 7) (va vb vc sel : BitVec 6) (tok : BitVec 3) (rm : BitVec 2) (fz sat : Bool) (op : BitVec 9) :
    (bodyE blk va vb vc sel tok rm fz sat op).extractLsb' 0 2 = op.extractLsb' 0 2 := by
  simp only [bodyE_field]
  simp (disch := omega) only [extract_low, extract_high, extract_all, -Nat.reduceAdd, Nat.reduceSub]

@[simp] theorem bodyE_0_9 (blk : BitVec 7) (va vb vc sel : BitVec 6) (tok : BitVec 3) (rm : BitVec 2) (fz sat : Bool) (op : BitVec 9) :
    (bodyE blk va vb vc sel tok rm fz sat op).extractLsb' 0 9 = op := by
  simp only [bodyE_field]
  simp (disch := omega) only [extract_low, extract_high, extract_all, -Nat.reduceAdd, Nat.reduceSub]

/-! ## The fields of op -/

theorem flag_field (s : Bool) (lo n : Nat) :
    (flag s).extractLsb' lo n = BitVec.extractLsb' (n := 8 + 1) lo n
      (0#8 ++ BitVec.ofBool s) := rfl

@[simp] theorem flag_0_1 (s : Bool) :
    (flag s).extractLsb' 0 1 = BitVec.ofBool s := by
  simp only [flag_field]
  simp (disch := omega) only [extract_low, extract_high, extract_all, -Nat.reduceAdd, Nat.reduceSub]

theorem op2_field (hi lo' : Bool) (lo n : Nat) :
    (op2 hi lo').extractLsb' lo n = BitVec.extractLsb' (n := 7 + 1 + 1) lo n
      (0#7 ++ BitVec.ofBool hi ++ BitVec.ofBool lo') := rfl

@[simp] theorem op2_0_1 (hi lo' : Bool) :
    (op2 hi lo').extractLsb' 0 1 = BitVec.ofBool lo' := by
  simp only [op2_field]
  simp (disch := omega) only [extract_low, extract_high, extract_all, -Nat.reduceAdd, Nat.reduceSub]

@[simp] theorem op2_1_1 (hi lo' : Bool) :
    (op2 hi lo').extractLsb' 1 1 = BitVec.ofBool hi := by
  simp only [op2_field]
  simp (disch := omega) only [extract_low, extract_high, extract_all, -Nat.reduceAdd, Nat.reduceSub]

theorem mod2_field (wide : Bool) (lo n : Nat) :
    (mod2 wide).extractLsb' lo n = BitVec.extractLsb' (n := 1 + 1) lo n
      (0#1 ++ BitVec.ofBool wide) := rfl

@[simp] theorem mod2_0_1 (wide : Bool) :
    (mod2 wide).extractLsb' 0 1 = BitVec.ofBool wide := by
  simp only [mod2_field]
  simp (disch := omega) only [extract_low, extract_high, extract_all, -Nat.reduceAdd, Nat.reduceSub]

theorem opCarry_field (pOut pIn : BitVec 3) (cin : Bool) (lo n : Nat) :
    (opCarry pOut pIn cin).extractLsb' lo n = BitVec.extractLsb' (n := 2 + 1 + 3 + 3) lo n
      (0#2 ++ BitVec.ofBool cin ++ pIn ++ pOut) := rfl

@[simp] theorem opCarry_0_3 (pOut pIn : BitVec 3) (cin : Bool) :
    (opCarry pOut pIn cin).extractLsb' 0 3 = pOut := by
  simp only [opCarry_field]
  simp (disch := omega) only [extract_low, extract_high, extract_all, -Nat.reduceAdd, Nat.reduceSub]

@[simp] theorem opCarry_3_3 (pOut pIn : BitVec 3) (cin : Bool) :
    (opCarry pOut pIn cin).extractLsb' 3 3 = pIn := by
  simp only [opCarry_field]
  simp (disch := omega) only [extract_low, extract_high, extract_all, -Nat.reduceAdd, Nat.reduceSub]

@[simp] theorem opCarry_6_1 (pOut pIn : BitVec 3) (cin : Bool) :
    (opCarry pOut pIn cin).extractLsb' 6 1 = BitVec.ofBool cin := by
  simp only [opCarry_field]
  simp (disch := omega) only [extract_low, extract_high, extract_all, -Nat.reduceAdd, Nat.reduceSub]

theorem opCmp_field (cc : Cond) (s wide : Bool) (lo n : Nat) :
    (opCmp cc s wide).extractLsb' lo n = BitVec.extractLsb' (n := 4 + 1 + 1 + 3) lo n
      (0#4 ++ BitVec.ofBool wide ++ BitVec.ofBool s ++ cc.code) := rfl

@[simp] theorem opCmp_0_3 (cc : Cond) (s wide : Bool) :
    (opCmp cc s wide).extractLsb' 0 3 = cc.code := by
  simp only [opCmp_field]
  simp (disch := omega) only [extract_low, extract_high, extract_all, -Nat.reduceAdd, Nat.reduceSub]

@[simp] theorem opCmp_3_1 (cc : Cond) (s wide : Bool) :
    (opCmp cc s wide).extractLsb' 3 1 = BitVec.ofBool s := by
  simp only [opCmp_field]
  simp (disch := omega) only [extract_low, extract_high, extract_all, -Nat.reduceAdd, Nat.reduceSub]

@[simp] theorem opCmp_4_1 (cc : Cond) (s wide : Bool) :
    (opCmp cc s wide).extractLsb' 4 1 = BitVec.ofBool wide := by
  simp only [opCmp_field]
  simp (disch := omega) only [extract_low, extract_high, extract_all, -Nat.reduceAdd, Nat.reduceSub]

theorem opSel_field (p : BitVec 3) (negate wide : Bool) (lo n : Nat) :
    (opSel p negate wide).extractLsb' lo n = BitVec.extractLsb' (n := 4 + 1 + 1 + 3) lo n
      (0#4 ++ BitVec.ofBool wide ++ BitVec.ofBool negate ++ p) := rfl

@[simp] theorem opSel_0_3 (p : BitVec 3) (negate wide : Bool) :
    (opSel p negate wide).extractLsb' 0 3 = p := by
  simp only [opSel_field]
  simp (disch := omega) only [extract_low, extract_high, extract_all, -Nat.reduceAdd, Nat.reduceSub]

@[simp] theorem opSel_3_1 (p : BitVec 3) (negate wide : Bool) :
    (opSel p negate wide).extractLsb' 3 1 = BitVec.ofBool negate := by
  simp only [opSel_field]
  simp (disch := omega) only [extract_low, extract_high, extract_all, -Nat.reduceAdd, Nat.reduceSub]

@[simp] theorem opSel_4_1 (p : BitVec 3) (negate wide : Bool) :
    (opSel p negate wide).extractLsb' 4 1 = BitVec.ofBool wide := by
  simp only [opSel_field]
  simp (disch := omega) only [extract_low, extract_high, extract_all, -Nat.reduceAdd, Nat.reduceSub]

theorem opSReg_field (r : SReg) (wide : Bool) (lo n : Nat) :
    (opSReg r wide).extractLsb' lo n = BitVec.extractLsb' (n := 2 + 1 + 6) lo n
      (0#2 ++ BitVec.ofBool wide ++ r.code) := rfl

@[simp] theorem opSReg_0_6 (r : SReg) (wide : Bool) :
    (opSReg r wide).extractLsb' 0 6 = r.code := by
  simp only [opSReg_field]
  simp (disch := omega) only [extract_low, extract_high, extract_all, -Nat.reduceAdd, Nat.reduceSub]

@[simp] theorem opSReg_6_1 (r : SReg) (wide : Bool) :
    (opSReg r wide).extractLsb' 6 1 = BitVec.ofBool wide := by
  simp only [opSReg_field]
  simp (disch := omega) only [extract_low, extract_high, extract_all, -Nat.reduceAdd, Nat.reduceSub]

theorem opPred_field (pa pb : BitVec 3) (na nb : Bool) (lo n : Nat) :
    (opPred pa pb na nb).extractLsb' lo n = BitVec.extractLsb' (n := 1 + 1 + 1 + 3 + 3) lo n
      (0#1 ++ BitVec.ofBool nb ++ BitVec.ofBool na ++ pb ++ pa) := rfl

@[simp] theorem opPred_0_3 (pa pb : BitVec 3) (na nb : Bool) :
    (opPred pa pb na nb).extractLsb' 0 3 = pa := by
  simp only [opPred_field]
  simp (disch := omega) only [extract_low, extract_high, extract_all, -Nat.reduceAdd, Nat.reduceSub]

@[simp] theorem opPred_3_3 (pa pb : BitVec 3) (na nb : Bool) :
    (opPred pa pb na nb).extractLsb' 3 3 = pb := by
  simp only [opPred_field]
  simp (disch := omega) only [extract_low, extract_high, extract_all, -Nat.reduceAdd, Nat.reduceSub]

@[simp] theorem opPred_6_1 (pa pb : BitVec 3) (na nb : Bool) :
    (opPred pa pb na nb).extractLsb' 6 1 = BitVec.ofBool na := by
  simp only [opPred_field]
  simp (disch := omega) only [extract_low, extract_high, extract_all, -Nat.reduceAdd, Nat.reduceSub]

@[simp] theorem opPred_7_1 (pa pb : BitVec 3) (na nb : Bool) :
    (opPred pa pb na nb).extractLsb' 7 1 = BitVec.ofBool nb := by
  simp only [opPred_field]
  simp (disch := omega) only [extract_low, extract_high, extract_all, -Nat.reduceAdd, Nat.reduceSub]

theorem opMods_field (bf : Bool) (cc : BitVec 3) (m : Mods) (lo n : Nat) :
    (opMods bf cc m).extractLsb' lo n = BitVec.extractLsb' (n := 3 + 1 + 1 + 1 + 1 + 1 + 1) lo n
      ((cc ||| (BitVec.ofBool bf ++ 0#2)) ++ BitVec.ofBool m.absC ++ BitVec.ofBool m.negC ++ BitVec.ofBool m.absB ++ BitVec.ofBool m.negB ++ BitVec.ofBool m.absA ++ BitVec.ofBool m.negA) := rfl

@[simp] theorem opMods_0_1 (bf : Bool) (cc : BitVec 3) (m : Mods) :
    (opMods bf cc m).extractLsb' 0 1 = BitVec.ofBool m.negA := by
  simp only [opMods_field]
  simp (disch := omega) only [extract_low, extract_high, extract_all, -Nat.reduceAdd, Nat.reduceSub]

@[simp] theorem opMods_1_1 (bf : Bool) (cc : BitVec 3) (m : Mods) :
    (opMods bf cc m).extractLsb' 1 1 = BitVec.ofBool m.absA := by
  simp only [opMods_field]
  simp (disch := omega) only [extract_low, extract_high, extract_all, -Nat.reduceAdd, Nat.reduceSub]

@[simp] theorem opMods_2_1 (bf : Bool) (cc : BitVec 3) (m : Mods) :
    (opMods bf cc m).extractLsb' 2 1 = BitVec.ofBool m.negB := by
  simp only [opMods_field]
  simp (disch := omega) only [extract_low, extract_high, extract_all, -Nat.reduceAdd, Nat.reduceSub]

@[simp] theorem opMods_3_1 (bf : Bool) (cc : BitVec 3) (m : Mods) :
    (opMods bf cc m).extractLsb' 3 1 = BitVec.ofBool m.absB := by
  simp only [opMods_field]
  simp (disch := omega) only [extract_low, extract_high, extract_all, -Nat.reduceAdd, Nat.reduceSub]

@[simp] theorem opMods_4_1 (bf : Bool) (cc : BitVec 3) (m : Mods) :
    (opMods bf cc m).extractLsb' 4 1 = BitVec.ofBool m.negC := by
  simp only [opMods_field]
  simp (disch := omega) only [extract_low, extract_high, extract_all, -Nat.reduceAdd, Nat.reduceSub]

@[simp] theorem opMods_5_1 (bf : Bool) (cc : BitVec 3) (m : Mods) :
    (opMods bf cc m).extractLsb' 5 1 = BitVec.ofBool m.absC := by
  simp only [opMods_field]
  simp (disch := omega) only [extract_low, extract_high, extract_all, -Nat.reduceAdd, Nat.reduceSub]

@[simp] theorem opMods_6_3 (bf : Bool) (cc : BitVec 3) (m : Mods) :
    (opMods bf cc m).extractLsb' 6 3 = (cc ||| (BitVec.ofBool bf ++ 0#2)) := by
  simp only [opMods_field]
  simp (disch := omega) only [extract_low, extract_high, extract_all, -Nat.reduceAdd, Nat.reduceSub]

@[simp] theorem opMods_8_1 (bf : Bool) (cc : BitVec 3) (m : Mods) :
    (opMods bf cc m).extractLsb' 8 1 = (cc ||| (BitVec.ofBool bf ++ 0#2)).extractLsb' 2 1 := by
  simp only [opMods_field]
  simp (disch := omega) only [extract_low, extract_high, extract_all, -Nat.reduceAdd, Nat.reduceSub]

theorem opCvt_field (dst src : CvtTy) (lo n : Nat) :
    (opCvt dst src).extractLsb' lo n = BitVec.extractLsb' (n := 1 + 4 + 4) lo n
      (0#1 ++ src.code ++ dst.code) := rfl

@[simp] theorem opCvt_0_4 (dst src : CvtTy) :
    (opCvt dst src).extractLsb' 0 4 = dst.code := by
  simp only [opCvt_field]
  simp (disch := omega) only [extract_low, extract_high, extract_all, -Nat.reduceAdd, Nat.reduceSub]

@[simp] theorem opCvt_4_4 (dst src : CvtTy) :
    (opCvt dst src).extractLsb' 4 4 = src.code := by
  simp only [opCvt_field]
  simp (disch := omega) only [extract_low, extract_high, extract_all, -Nat.reduceAdd, Nat.reduceSub]

theorem opHalf_field (ty : Half) (s : Bool) (lo n : Nat) :
    (opHalf ty s).extractLsb' lo n = BitVec.extractLsb' (n := 6 + 1 + 2) lo n
      (0#6 ++ BitVec.ofBool s ++ ty.code) := rfl

@[simp] theorem opHalf_0_2 (ty : Half) (s : Bool) :
    (opHalf ty s).extractLsb' 0 2 = ty.code := by
  simp only [opHalf_field]
  simp (disch := omega) only [extract_low, extract_high, extract_all, -Nat.reduceAdd, Nat.reduceSub]

@[simp] theorem opHalf_2_1 (ty : Half) (s : Bool) :
    (opHalf ty s).extractLsb' 2 1 = BitVec.ofBool s := by
  simp only [opHalf_field]
  simp (disch := omega) only [extract_low, extract_high, extract_all, -Nat.reduceAdd, Nat.reduceSub]

theorem opScope_field (sc : Scope) (lo n : Nat) :
    (opScope sc).extractLsb' lo n = BitVec.extractLsb' (n := 6 + 3) lo n
      (0#6 ++ sc.code) := rfl

@[simp] theorem opScope_0_3 (sc : Scope) :
    (opScope sc).extractLsb' 0 3 = sc.code := by
  simp only [opScope_field]
  simp (disch := omega) only [extract_low, extract_high, extract_all, -Nat.reduceAdd, Nat.reduceSub]

theorem opTokFlag_field (tok : BitVec 3) (f : Bool) (lo n : Nat) :
    (opTokFlag tok f).extractLsb' lo n = BitVec.extractLsb' (n := 5 + 1 + 3) lo n
      (0#5 ++ BitVec.ofBool f ++ tok) := rfl

@[simp] theorem opTokFlag_0_3 (tok : BitVec 3) (f : Bool) :
    (opTokFlag tok f).extractLsb' 0 3 = tok := by
  simp only [opTokFlag_field]
  simp (disch := omega) only [extract_low, extract_high, extract_all, -Nat.reduceAdd, Nat.reduceSub]

@[simp] theorem opTokFlag_3_1 (tok : BitVec 3) (f : Bool) :
    (opTokFlag tok f).extractLsb' 3 1 = BitVec.ofBool f := by
  simp only [opTokFlag_field]
  simp (disch := omega) only [extract_low, extract_high, extract_all, -Nat.reduceAdd, Nat.reduceSub]

theorem opIo_field (wide : Bool) (tok : BitVec 3) (lo n : Nat) :
    (opIo wide tok).extractLsb' lo n = BitVec.extractLsb' (n := 5 + 3 + 1) lo n
      (0#5 ++ tok ++ BitVec.ofBool wide) := rfl

@[simp] theorem opIo_0_1 (wide : Bool) (tok : BitVec 3) :
    (opIo wide tok).extractLsb' 0 1 = BitVec.ofBool wide := by
  simp only [opIo_field]
  simp (disch := omega) only [extract_low, extract_high, extract_all, -Nat.reduceAdd, Nat.reduceSub]

@[simp] theorem opIo_1_3 (wide : Bool) (tok : BitVec 3) :
    (opIo wide tok).extractLsb' 1 3 = tok := by
  simp only [opIo_field]
  simp (disch := omega) only [extract_low, extract_high, extract_all, -Nat.reduceAdd, Nat.reduceSub]


/-! ## Fields of instructions -/

@[simp] theorem bit_word (op : Nat) (c : Common) (body : BitVec 47) (i : Nat) (h : i + 1 ≤ 47) :
    bit (word op c body) i = (body.extractLsb' i 1).getLsbD 0 := by rw [bit_eq, word_low _ _ _ _ _ h]

@[simp] theorem high_flag (b : Bool) : (BitVec.ofBool b ++ 0#2)[2] = b := by cases b <;> rfl
@[simp] theorem optFlag_bit (b : Option (BitVec 6)) : (optFlag b)[8] = b.isSome := by
  cases b with
  | none => rfl
  | some n => show (BitVec.ofBool true ++ 0#8)[8] = true; decide
@[simp] theorem optBlock_low (b : Option (BitVec 6)) : (optBlock b).extractLsb' 0 6 = b.getD 0 := by
  cases b with
  | none => rfl
  | some n => revert n; decide
@[simp] theorem block_low (b : BitVec 6) : (0#1 ++ b).extractLsb' 0 6 = b := by revert b; decide
@[simp] theorem optional_getD (b : Option (BitVec 6)) : (if b.isSome = true then some (b.getD 0#6) else none) = b := by
  cases b <;> rfl
@[simp] theorem ofCode_optReg (r : Option (BitVec 6)) :
    Dst.ofCode (optReg r) = .ok (match r with | some n => .g n | none => .none) := by
  cases r with
  | none => rfl
  | some n => exact dst_ofCode_code (.g n)
@[simp] theorem regCode_low (r : BitVec 6) : (Src.g r).code.extractLsb' 0 6 = r := by revert r; decide
@[simp] theorem sel_part (acc part : BitVec 2) : (0#2 ++ acc ++ part).extractLsb' 0 2 = part := by
  revert acc part; decide
@[simp] theorem sel_acc (acc part : BitVec 2) : (0#2 ++ acc ++ part).extractLsb' 2 2 = acc := by revert acc part; decide
@[simp] theorem sel_mask (mask : BitVec 3) : (0#3 ++ mask).extractLsb' 0 3 = mask := by revert mask; decide
@[simp] theorem op_three (n : BitVec 3) : (0#6 ++ n).extractLsb' 0 3 = n := by revert n; decide
@[simp] theorem op_two (n : BitVec 2) : (0#7 ++ n).extractLsb' 0 2 = n := by revert n; decide
@[simp] theorem op_eight (n : BitVec 8) : (0#1 ++ n).extractLsb' 0 8 = n := by revert n; decide

theorem withCode_field (m : MemOp) (code : BitVec 4) (lo n : Nat) :
    (m.withCode code).disp.extractLsb' lo n =
      BitVec.extractLsb' (n := 4 + 12) lo n (code ++ m.disp.extractLsb' 0 12) := rfl

@[simp] theorem withCode_code (m : MemOp) (code : BitVec 4) : (m.withCode code).disp.extractLsb' 12 4 = code := by
  simp only [withCode_field]
  simp (disch := omega) only [extract_high, extract_all, -Nat.reduceAdd, Nat.reduceSub]

@[simp] theorem withCode_low (m : MemOp) (code : BitVec 4) :
    (m.withCode code).disp.extractLsb' 0 12 = m.disp.extractLsb' 0 12 := by
  simp only [withCode_field]
  simp (disch := omega) only [extract_low, extract_all, -Nat.reduceAdd, Nat.reduceSub]

/-- No check fails where every check passes. -/
theorem firstFailure_none (l : List Check) : firstFailure l = none ↔ ∀ x ∈ l, x.1 = true := by
  induction l with
  | nil => simp [firstFailure]
  | cons x r ih =>
    obtain ⟨b, e⟩ := x
    cases b <;> simp [firstFailure, ih]

/-- Every check of a well-formed instruction passes. -/
theorem wf_checks {i : Instr} (h : i.wf = true) : ∀ x ∈ i.checks, x.1 = true := by
  rw [← firstFailure_none]
  simpa [Instr.wf, Instr.reject] using h

/-- An address part with a 12-bit displacement is what its fields give. -/
theorem mem12_eq {m : MemOp} (h : (disp12 m).1 = true) : (m.disp.extractLsb' 0 12).signExtend 16 = m.disp := by
  simp only [disp12, beq_iff_eq] at h
  exact h.symm

theorem rawView_eq {m : MemOp} (h : (rawView m).1 = true) : m.view = 0#6 := by simpa [rawView] using h

/-- A candidate that is well-formed and has the word is what the word decodes to. -/
theorem decode_of_candidate {w : Word64} {i : Instr} (h : candidate w = .ok i) (hw : i.wf = true)
    (he : i.encode = some w) : decodeWord w = .ok i := by
  have hr : i.reject = none := by simpa [Instr.wf] using hw
  simp [decodeWord, h, hr, he]

end Sys2Proof.Laws
end

