-- ==== Sys2Proof/Laws/PerInstr.lean ====
section
/-!
SUPPORT. Statements made per instruction: the decoder reads every word of the encoder as the instruction that it was made from.
-/
namespace Sys2Proof.Laws
set_option linter.unusedSimpArgs false
set_option Elab.async false

/-- The word of a well-formed instruction decodes to that instruction. -/
def RoundTrip.Statement (i : Instr) : Prop := ∀ w, i.encode = some w → i.wf = true → decodeWord w = .ok i

theorem RoundTrip.add (c : Common) (d : Dst) (a : Src) (b : Src) (sat : Bool) (s : Bool) : RoundTrip.Statement (.add c d a b sat s) := by
  intro x h hw
  simp only [Instr.encode, Option.some.injEq] at h
  subst h
  refine decode_of_candidate ?_ hw rfl
  simp (disch := omega) [candidate, candInt, fldA, fldB, fldC, fldG, fldImm, fldOff31, fldView, fldOrder, fldScope, fldBlk, fldVA,
    fldVB, fldVC, fldRm, fldMods, fldRnd, f2, f3, f4, f6, f8, f9, dstOf, predOf, gOf, optRegOf, optBlockOf, memOf, memRawOf, mem12Of,
    word_low, bodyA_op, MemOp.withView, MemOp.bare, MemOp.fence, bind, Except.bind, pure, Except.pure, Except.map]

theorem RoundTrip.sub (c : Common) (d : Dst) (a : Src) (b : Src) (sat : Bool) (s : Bool) : RoundTrip.Statement (.sub c d a b sat s) := by
  intro x h hw
  simp only [Instr.encode, Option.some.injEq] at h
  subst h
  refine decode_of_candidate ?_ hw rfl
  simp (disch := omega) [candidate, candInt, fldA, fldB, fldC, fldG, fldImm, fldOff31, fldView, fldOrder, fldScope, fldBlk, fldVA,
    fldVB, fldVC, fldRm, fldMods, fldRnd, f2, f3, f4, f6, f8, f9, dstOf, predOf, gOf, optRegOf, optBlockOf, memOf, memRawOf, mem12Of,
    word_low, bodyA_op, MemOp.withView, MemOp.bare, MemOp.fence, bind, Except.bind, pure, Except.pure, Except.map]

theorem RoundTrip.addc (c : Common) (d : Dst) (a : Src) (b : Src) (pOut : BitVec 3) (pIn : BitVec 3) (cin : Bool) : RoundTrip.Statement (.addc c d a b pOut pIn cin) := by
  intro x h hw
  simp only [Instr.encode, Option.some.injEq] at h
  subst h
  refine decode_of_candidate ?_ hw rfl
  simp (disch := omega) [candidate, candInt, fldA, fldB, fldC, fldG, fldImm, fldOff31, fldView, fldOrder, fldScope, fldBlk, fldVA,
    fldVB, fldVC, fldRm, fldMods, fldRnd, f2, f3, f4, f6, f8, f9, dstOf, predOf, gOf, optRegOf, optBlockOf, memOf, memRawOf, mem12Of,
    word_low, bodyA_op, MemOp.withView, MemOp.bare, MemOp.fence, bind, Except.bind, pure, Except.pure, Except.map]

theorem RoundTrip.subb (c : Common) (d : Dst) (a : Src) (b : Src) (pOut : BitVec 3) (pIn : BitVec 3) (cin : Bool) : RoundTrip.Statement (.subb c d a b pOut pIn cin) := by
  intro x h hw
  simp only [Instr.encode, Option.some.injEq] at h
  subst h
  refine decode_of_candidate ?_ hw rfl
  simp (disch := omega) [candidate, candInt, fldA, fldB, fldC, fldG, fldImm, fldOff31, fldView, fldOrder, fldScope, fldBlk, fldVA,
    fldVB, fldVC, fldRm, fldMods, fldRnd, f2, f3, f4, f6, f8, f9, dstOf, predOf, gOf, optRegOf, optBlockOf, memOf, memRawOf, mem12Of,
    word_low, bodyA_op, MemOp.withView, MemOp.bare, MemOp.fence, bind, Except.bind, pure, Except.pure, Except.map]

theorem RoundTrip.mul (c : Common) (d : Dst) (a : Src) (b : Src) : RoundTrip.Statement (.mul c d a b) := by
  intro x h hw
  simp only [Instr.encode, Option.some.injEq] at h
  subst h
  refine decode_of_candidate ?_ hw rfl
  simp (disch := omega) [candidate, candInt, fldA, fldB, fldC, fldG, fldImm, fldOff31, fldView, fldOrder, fldScope, fldBlk, fldVA,
    fldVB, fldVC, fldRm, fldMods, fldRnd, f2, f3, f4, f6, f8, f9, dstOf, predOf, gOf, optRegOf, optBlockOf, memOf, memRawOf, mem12Of,
    word_low, bodyA_op, MemOp.withView, MemOp.bare, MemOp.fence, bind, Except.bind, pure, Except.pure, Except.map]

theorem RoundTrip.mulh (c : Common) (d : Dst) (a : Src) (b : Src) (s : Bool) : RoundTrip.Statement (.mulh c d a b s) := by
  intro x h hw
  simp only [Instr.encode, Option.some.injEq] at h
  subst h
  refine decode_of_candidate ?_ hw rfl
  simp (disch := omega) [candidate, candInt, fldA, fldB, fldC, fldG, fldImm, fldOff31, fldView, fldOrder, fldScope, fldBlk, fldVA,
    fldVB, fldVC, fldRm, fldMods, fldRnd, f2, f3, f4, f6, f8, f9, dstOf, predOf, gOf, optRegOf, optBlockOf, memOf, memRawOf, mem12Of,
    word_low, bodyA_op, MemOp.withView, MemOp.bare, MemOp.fence, bind, Except.bind, pure, Except.pure, Except.map]

theorem RoundTrip.mad (c : Common) (d : Dst) (a : Src) (b : Src) (e : Src) : RoundTrip.Statement (.mad c d a b e) := by
  intro x h hw
  simp only [Instr.encode, Option.some.injEq] at h
  subst h
  refine decode_of_candidate ?_ hw rfl
  simp (disch := omega) [candidate, candInt, fldA, fldB, fldC, fldG, fldImm, fldOff31, fldView, fldOrder, fldScope, fldBlk, fldVA,
    fldVB, fldVC, fldRm, fldMods, fldRnd, f2, f3, f4, f6, f8, f9, dstOf, predOf, gOf, optRegOf, optBlockOf, memOf, memRawOf, mem12Of,
    word_low, bodyA_op, MemOp.withView, MemOp.bare, MemOp.fence, bind, Except.bind, pure, Except.pure, Except.map]

theorem RoundTrip.neg (c : Common) (d : Dst) (a : Src) (sat : Bool) (s : Bool) : RoundTrip.Statement (.neg c d a sat s) := by
  intro x h hw
  simp only [Instr.encode, Option.some.injEq] at h
  subst h
  refine decode_of_candidate ?_ hw rfl
  simp (disch := omega) [candidate, candInt, fldA, fldB, fldC, fldG, fldImm, fldOff31, fldView, fldOrder, fldScope, fldBlk, fldVA,
    fldVB, fldVC, fldRm, fldMods, fldRnd, f2, f3, f4, f6, f8, f9, dstOf, predOf, gOf, optRegOf, optBlockOf, memOf, memRawOf, mem12Of,
    word_low, bodyA_op, MemOp.withView, MemOp.bare, MemOp.fence, bind, Except.bind, pure, Except.pure, Except.map]

theorem RoundTrip.abs (c : Common) (d : Dst) (a : Src) (sat : Bool) (s : Bool) : RoundTrip.Statement (.abs c d a sat s) := by
  intro x h hw
  simp only [Instr.encode, Option.some.injEq] at h
  subst h
  refine decode_of_candidate ?_ hw rfl
  simp (disch := omega) [candidate, candInt, fldA, fldB, fldC, fldG, fldImm, fldOff31, fldView, fldOrder, fldScope, fldBlk, fldVA,
    fldVB, fldVC, fldRm, fldMods, fldRnd, f2, f3, f4, f6, f8, f9, dstOf, predOf, gOf, optRegOf, optBlockOf, memOf, memRawOf, mem12Of,
    word_low, bodyA_op, MemOp.withView, MemOp.bare, MemOp.fence, bind, Except.bind, pure, Except.pure, Except.map]

theorem RoundTrip.min (c : Common) (d : Dst) (a : Src) (b : Src) (s : Bool) : RoundTrip.Statement (.min c d a b s) := by
  intro x h hw
  simp only [Instr.encode, Option.some.injEq] at h
  subst h
  refine decode_of_candidate ?_ hw rfl
  simp (disch := omega) [candidate, candInt, fldA, fldB, fldC, fldG, fldImm, fldOff31, fldView, fldOrder, fldScope, fldBlk, fldVA,
    fldVB, fldVC, fldRm, fldMods, fldRnd, f2, f3, f4, f6, f8, f9, dstOf, predOf, gOf, optRegOf, optBlockOf, memOf, memRawOf, mem12Of,
    word_low, bodyA_op, MemOp.withView, MemOp.bare, MemOp.fence, bind, Except.bind, pure, Except.pure, Except.map]

theorem RoundTrip.max (c : Common) (d : Dst) (a : Src) (b : Src) (s : Bool) : RoundTrip.Statement (.max c d a b s) := by
  intro x h hw
  simp only [Instr.encode, Option.some.injEq] at h
  subst h
  refine decode_of_candidate ?_ hw rfl
  simp (disch := omega) [candidate, candInt, fldA, fldB, fldC, fldG, fldImm, fldOff31, fldView, fldOrder, fldScope, fldBlk, fldVA,
    fldVB, fldVC, fldRm, fldMods, fldRnd, f2, f3, f4, f6, f8, f9, dstOf, predOf, gOf, optRegOf, optBlockOf, memOf, memRawOf, mem12Of,
    word_low, bodyA_op, MemOp.withView, MemOp.bare, MemOp.fence, bind, Except.bind, pure, Except.pure, Except.map]

theorem RoundTrip.addd (c : Common) (d : Dst) (a : Src) (b : Src) (sat : Bool) (s : Bool) : RoundTrip.Statement (.addd c d a b sat s) := by
  intro x h hw
  simp only [Instr.encode, Option.some.injEq] at h
  subst h
  refine decode_of_candidate ?_ hw rfl
  simp (disch := omega) [candidate, candInt, fldA, fldB, fldC, fldG, fldImm, fldOff31, fldView, fldOrder, fldScope, fldBlk, fldVA,
    fldVB, fldVC, fldRm, fldMods, fldRnd, f2, f3, f4, f6, f8, f9, dstOf, predOf, gOf, optRegOf, optBlockOf, memOf, memRawOf, mem12Of,
    word_low, bodyA_op, MemOp.withView, MemOp.bare, MemOp.fence, bind, Except.bind, pure, Except.pure, Except.map]

theorem RoundTrip.subd (c : Common) (d : Dst) (a : Src) (b : Src) (sat : Bool) (s : Bool) : RoundTrip.Statement (.subd c d a b sat s) := by
  intro x h hw
  simp only [Instr.encode, Option.some.injEq] at h
  subst h
  refine decode_of_candidate ?_ hw rfl
  simp (disch := omega) [candidate, candInt, fldA, fldB, fldC, fldG, fldImm, fldOff31, fldView, fldOrder, fldScope, fldBlk, fldVA,
    fldVB, fldVC, fldRm, fldMods, fldRnd, f2, f3, f4, f6, f8, f9, dstOf, predOf, gOf, optRegOf, optBlockOf, memOf, memRawOf, mem12Of,
    word_low, bodyA_op, MemOp.withView, MemOp.bare, MemOp.fence, bind, Except.bind, pure, Except.pure, Except.map]

theorem RoundTrip.mulw (c : Common) (d : Dst) (a : Src) (b : Src) (s : Bool) : RoundTrip.Statement (.mulw c d a b s) := by
  intro x h hw
  simp only [Instr.encode, Option.some.injEq] at h
  subst h
  refine decode_of_candidate ?_ hw rfl
  simp (disch := omega) [candidate, candInt, fldA, fldB, fldC, fldG, fldImm, fldOff31, fldView, fldOrder, fldScope, fldBlk, fldVA,
    fldVB, fldVC, fldRm, fldMods, fldRnd, f2, f3, f4, f6, f8, f9, dstOf, predOf, gOf, optRegOf, optBlockOf, memOf, memRawOf, mem12Of,
    word_low, bodyA_op, MemOp.withView, MemOp.bare, MemOp.fence, bind, Except.bind, pure, Except.pure, Except.map]

theorem RoundTrip.sad (c : Common) (d : Dst) (a : Src) (b : Src) (e : Src) : RoundTrip.Statement (.sad c d a b e) := by
  intro x h hw
  simp only [Instr.encode, Option.some.injEq] at h
  subst h
  refine decode_of_candidate ?_ hw rfl
  simp (disch := omega) [candidate, candInt, fldA, fldB, fldC, fldG, fldImm, fldOff31, fldView, fldOrder, fldScope, fldBlk, fldVA,
    fldVB, fldVC, fldRm, fldMods, fldRnd, f2, f3, f4, f6, f8, f9, dstOf, predOf, gOf, optRegOf, optBlockOf, memOf, memRawOf, mem12Of,
    word_low, bodyA_op, MemOp.withView, MemOp.bare, MemOp.fence, bind, Except.bind, pure, Except.pure, Except.map]

theorem RoundTrip.dot4 (c : Common) (d : Dst) (a : Src) (b : Src) (e : Src) (sa : Bool) (sb : Bool) (sat : Bool) : RoundTrip.Statement (.dot4 c d a b e sa sb sat) := by
  intro x h hw
  simp only [Instr.encode, Option.some.injEq] at h
  subst h
  refine decode_of_candidate ?_ hw rfl
  simp (disch := omega) [candidate, candInt, fldA, fldB, fldC, fldG, fldImm, fldOff31, fldView, fldOrder, fldScope, fldBlk, fldVA,
    fldVB, fldVC, fldRm, fldMods, fldRnd, f2, f3, f4, f6, f8, f9, dstOf, predOf, gOf, optRegOf, optBlockOf, memOf, memRawOf, mem12Of,
    word_low, bodyA_op, MemOp.withView, MemOp.bare, MemOp.fence, bind, Except.bind, pure, Except.pure, Except.map]

theorem RoundTrip.addi (c : Common) (d : Dst) (wide : Bool) (r : BitVec 6) (imm : Word) : RoundTrip.Statement (.addi c d wide r imm) := by
  intro x h hw
  simp only [Instr.encode, Option.some.injEq] at h
  subst h
  refine decode_of_candidate ?_ hw rfl
  simp (disch := omega) [candidate, candInt, fldA, fldB, fldC, fldG, fldImm, fldOff31, fldView, fldOrder, fldScope, fldBlk, fldVA,
    fldVB, fldVC, fldRm, fldMods, fldRnd, f2, f3, f4, f6, f8, f9, dstOf, predOf, gOf, optRegOf, optBlockOf, memOf, memRawOf, mem12Of,
    word_low, bodyA_op, MemOp.withView, MemOp.bare, MemOp.fence, bind, Except.bind, pure, Except.pure, Except.map]

theorem RoundTrip.ldi (c : Common) (d : Dst) (wide : Bool) (imm : Word) : RoundTrip.Statement (.ldi c d wide imm) := by
  intro x h hw
  simp only [Instr.encode, Option.some.injEq] at h
  subst h
  refine decode_of_candidate ?_ hw rfl
  simp (disch := omega) [candidate, candInt, fldA, fldB, fldC, fldG, fldImm, fldOff31, fldView, fldOrder, fldScope, fldBlk, fldVA,
    fldVB, fldVC, fldRm, fldMods, fldRnd, f2, f3, f4, f6, f8, f9, dstOf, predOf, gOf, optRegOf, optBlockOf, memOf, memRawOf, mem12Of,
    word_low, bodyA_op, MemOp.withView, MemOp.bare, MemOp.fence, bind, Except.bind, pure, Except.pure, Except.map]

theorem RoundTrip.and (c : Common) (d : Dst) (a : Src) (b : Src) : RoundTrip.Statement (.and c d a b) := by
  intro x h hw
  simp only [Instr.encode, Option.some.injEq] at h
  subst h
  refine decode_of_candidate ?_ hw rfl
  simp (disch := omega) [candidate, candLogic, fldA, fldB, fldC, fldG, fldImm, fldOff31, fldView, fldOrder, fldScope, fldBlk, fldVA,
    fldVB, fldVC, fldRm, fldMods, fldRnd, f2, f3, f4, f6, f8, f9, dstOf, predOf, gOf, optRegOf, optBlockOf, memOf, memRawOf, mem12Of,
    word_low, bodyA_op, MemOp.withView, MemOp.bare, MemOp.fence, bind, Except.bind, pure, Except.pure, Except.map]

theorem RoundTrip.or (c : Common) (d : Dst) (a : Src) (b : Src) : RoundTrip.Statement (.or c d a b) := by
  intro x h hw
  simp only [Instr.encode, Option.some.injEq] at h
  subst h
  refine decode_of_candidate ?_ hw rfl
  simp (disch := omega) [candidate, candLogic, fldA, fldB, fldC, fldG, fldImm, fldOff31, fldView, fldOrder, fldScope, fldBlk, fldVA,
    fldVB, fldVC, fldRm, fldMods, fldRnd, f2, f3, f4, f6, f8, f9, dstOf, predOf, gOf, optRegOf, optBlockOf, memOf, memRawOf, mem12Of,
    word_low, bodyA_op, MemOp.withView, MemOp.bare, MemOp.fence, bind, Except.bind, pure, Except.pure, Except.map]

theorem RoundTrip.xor (c : Common) (d : Dst) (a : Src) (b : Src) : RoundTrip.Statement (.xor c d a b) := by
  intro x h hw
  simp only [Instr.encode, Option.some.injEq] at h
  subst h
  refine decode_of_candidate ?_ hw rfl
  simp (disch := omega) [candidate, candLogic, fldA, fldB, fldC, fldG, fldImm, fldOff31, fldView, fldOrder, fldScope, fldBlk, fldVA,
    fldVB, fldVC, fldRm, fldMods, fldRnd, f2, f3, f4, f6, f8, f9, dstOf, predOf, gOf, optRegOf, optBlockOf, memOf, memRawOf, mem12Of,
    word_low, bodyA_op, MemOp.withView, MemOp.bare, MemOp.fence, bind, Except.bind, pure, Except.pure, Except.map]

theorem RoundTrip.andn (c : Common) (d : Dst) (a : Src) (b : Src) : RoundTrip.Statement (.andn c d a b) := by
  intro x h hw
  simp only [Instr.encode, Option.some.injEq] at h
  subst h
  refine decode_of_candidate ?_ hw rfl
  simp (disch := omega) [candidate, candLogic, fldA, fldB, fldC, fldG, fldImm, fldOff31, fldView, fldOrder, fldScope, fldBlk, fldVA,
    fldVB, fldVC, fldRm, fldMods, fldRnd, f2, f3, f4, f6, f8, f9, dstOf, predOf, gOf, optRegOf, optBlockOf, memOf, memRawOf, mem12Of,
    word_low, bodyA_op, MemOp.withView, MemOp.bare, MemOp.fence, bind, Except.bind, pure, Except.pure, Except.map]

theorem RoundTrip.not (c : Common) (d : Dst) (a : Src) : RoundTrip.Statement (.not c d a) := by
  intro x h hw
  simp only [Instr.encode, Option.some.injEq] at h
  subst h
  refine decode_of_candidate ?_ hw rfl
  simp (disch := omega) [candidate, candLogic, fldA, fldB, fldC, fldG, fldImm, fldOff31, fldView, fldOrder, fldScope, fldBlk, fldVA,
    fldVB, fldVC, fldRm, fldMods, fldRnd, f2, f3, f4, f6, f8, f9, dstOf, predOf, gOf, optRegOf, optBlockOf, memOf, memRawOf, mem12Of,
    word_low, bodyA_op, MemOp.withView, MemOp.bare, MemOp.fence, bind, Except.bind, pure, Except.pure, Except.map]

theorem RoundTrip.shl (c : Common) (d : Dst) (a : Src) (b : Src) : RoundTrip.Statement (.shl c d a b) := by
  intro x h hw
  simp only [Instr.encode, Option.some.injEq] at h
  subst h
  refine decode_of_candidate ?_ hw rfl
  simp (disch := omega) [candidate, candLogic, fldA, fldB, fldC, fldG, fldImm, fldOff31, fldView, fldOrder, fldScope, fldBlk, fldVA,
    fldVB, fldVC, fldRm, fldMods, fldRnd, f2, f3, f4, f6, f8, f9, dstOf, predOf, gOf, optRegOf, optBlockOf, memOf, memRawOf, mem12Of,
    word_low, bodyA_op, MemOp.withView, MemOp.bare, MemOp.fence, bind, Except.bind, pure, Except.pure, Except.map]

theorem RoundTrip.shr (c : Common) (d : Dst) (a : Src) (b : Src) : RoundTrip.Statement (.shr c d a b) := by
  intro x h hw
  simp only [Instr.encode, Option.some.injEq] at h
  subst h
  refine decode_of_candidate ?_ hw rfl
  simp (disch := omega) [candidate, candLogic, fldA, fldB, fldC, fldG, fldImm, fldOff31, fldView, fldOrder, fldScope, fldBlk, fldVA,
    fldVB, fldVC, fldRm, fldMods, fldRnd, f2, f3, f4, f6, f8, f9, dstOf, predOf, gOf, optRegOf, optBlockOf, memOf, memRawOf, mem12Of,
    word_low, bodyA_op, MemOp.withView, MemOp.bare, MemOp.fence, bind, Except.bind, pure, Except.pure, Except.map]

theorem RoundTrip.sar (c : Common) (d : Dst) (a : Src) (b : Src) : RoundTrip.Statement (.sar c d a b) := by
  intro x h hw
  simp only [Instr.encode, Option.some.injEq] at h
  subst h
  refine decode_of_candidate ?_ hw rfl
  simp (disch := omega) [candidate, candLogic, fldA, fldB, fldC, fldG, fldImm, fldOff31, fldView, fldOrder, fldScope, fldBlk, fldVA,
    fldVB, fldVC, fldRm, fldMods, fldRnd, f2, f3, f4, f6, f8, f9, dstOf, predOf, gOf, optRegOf, optBlockOf, memOf, memRawOf, mem12Of,
    word_low, bodyA_op, MemOp.withView, MemOp.bare, MemOp.fence, bind, Except.bind, pure, Except.pure, Except.map]

theorem RoundTrip.rol (c : Common) (d : Dst) (a : Src) (b : Src) : RoundTrip.Statement (.rol c d a b) := by
  intro x h hw
  simp only [Instr.encode, Option.some.injEq] at h
  subst h
  refine decode_of_candidate ?_ hw rfl
  simp (disch := omega) [candidate, candLogic, fldA, fldB, fldC, fldG, fldImm, fldOff31, fldView, fldOrder, fldScope, fldBlk, fldVA,
    fldVB, fldVC, fldRm, fldMods, fldRnd, f2, f3, f4, f6, f8, f9, dstOf, predOf, gOf, optRegOf, optBlockOf, memOf, memRawOf, mem12Of,
    word_low, bodyA_op, MemOp.withView, MemOp.bare, MemOp.fence, bind, Except.bind, pure, Except.pure, Except.map]

theorem RoundTrip.shld (c : Common) (d : Dst) (a : Src) (b : Src) (e : Src) : RoundTrip.Statement (.shld c d a b e) := by
  intro x h hw
  simp only [Instr.encode, Option.some.injEq] at h
  subst h
  refine decode_of_candidate ?_ hw rfl
  simp (disch := omega) [candidate, candLogic, fldA, fldB, fldC, fldG, fldImm, fldOff31, fldView, fldOrder, fldScope, fldBlk, fldVA,
    fldVB, fldVC, fldRm, fldMods, fldRnd, f2, f3, f4, f6, f8, f9, dstOf, predOf, gOf, optRegOf, optBlockOf, memOf, memRawOf, mem12Of,
    word_low, bodyA_op, MemOp.withView, MemOp.bare, MemOp.fence, bind, Except.bind, pure, Except.pure, Except.map]

theorem RoundTrip.shrd (c : Common) (d : Dst) (a : Src) (b : Src) (e : Src) : RoundTrip.Statement (.shrd c d a b e) := by
  intro x h hw
  simp only [Instr.encode, Option.some.injEq] at h
  subst h
  refine decode_of_candidate ?_ hw rfl
  simp (disch := omega) [candidate, candLogic, fldA, fldB, fldC, fldG, fldImm, fldOff31, fldView, fldOrder, fldScope, fldBlk, fldVA,
    fldVB, fldVC, fldRm, fldMods, fldRnd, f2, f3, f4, f6, f8, f9, dstOf, predOf, gOf, optRegOf, optBlockOf, memOf, memRawOf, mem12Of,
    word_low, bodyA_op, MemOp.withView, MemOp.bare, MemOp.fence, bind, Except.bind, pure, Except.pure, Except.map]

theorem RoundTrip.clz (c : Common) (d : Dst) (a : Src) : RoundTrip.Statement (.clz c d a) := by
  intro x h hw
  simp only [Instr.encode, Option.some.injEq] at h
  subst h
  refine decode_of_candidate ?_ hw rfl
  simp (disch := omega) [candidate, candLogic, fldA, fldB, fldC, fldG, fldImm, fldOff31, fldView, fldOrder, fldScope, fldBlk, fldVA,
    fldVB, fldVC, fldRm, fldMods, fldRnd, f2, f3, f4, f6, f8, f9, dstOf, predOf, gOf, optRegOf, optBlockOf, memOf, memRawOf, mem12Of,
    word_low, bodyA_op, MemOp.withView, MemOp.bare, MemOp.fence, bind, Except.bind, pure, Except.pure, Except.map]

theorem RoundTrip.popc (c : Common) (d : Dst) (a : Src) : RoundTrip.Statement (.popc c d a) := by
  intro x h hw
  simp only [Instr.encode, Option.some.injEq] at h
  subst h
  refine decode_of_candidate ?_ hw rfl
  simp (disch := omega) [candidate, candLogic, fldA, fldB, fldC, fldG, fldImm, fldOff31, fldView, fldOrder, fldScope, fldBlk, fldVA,
    fldVB, fldVC, fldRm, fldMods, fldRnd, f2, f3, f4, f6, f8, f9, dstOf, predOf, gOf, optRegOf, optBlockOf, memOf, memRawOf, mem12Of,
    word_low, bodyA_op, MemOp.withView, MemOp.bare, MemOp.fence, bind, Except.bind, pure, Except.pure, Except.map]

theorem RoundTrip.brev (c : Common) (d : Dst) (a : Src) : RoundTrip.Statement (.brev c d a) := by
  intro x h hw
  simp only [Instr.encode, Option.some.injEq] at h
  subst h
  refine decode_of_candidate ?_ hw rfl
  simp (disch := omega) [candidate, candLogic, fldA, fldB, fldC, fldG, fldImm, fldOff31, fldView, fldOrder, fldScope, fldBlk, fldVA,
    fldVB, fldVC, fldRm, fldMods, fldRnd, f2, f3, f4, f6, f8, f9, dstOf, predOf, gOf, optRegOf, optBlockOf, memOf, memRawOf, mem12Of,
    word_low, bodyA_op, MemOp.withView, MemOp.bare, MemOp.fence, bind, Except.bind, pure, Except.pure, Except.map]

theorem RoundTrip.bfx (c : Common) (d : Dst) (a : Src) (b : Src) (s : Bool) : RoundTrip.Statement (.bfx c d a b s) := by
  intro x h hw
  simp only [Instr.encode, Option.some.injEq] at h
  subst h
  refine decode_of_candidate ?_ hw rfl
  simp (disch := omega) [candidate, candLogic, fldA, fldB, fldC, fldG, fldImm, fldOff31, fldView, fldOrder, fldScope, fldBlk, fldVA,
    fldVB, fldVC, fldRm, fldMods, fldRnd, f2, f3, f4, f6, f8, f9, dstOf, predOf, gOf, optRegOf, optBlockOf, memOf, memRawOf, mem12Of,
    word_low, bodyA_op, MemOp.withView, MemOp.bare, MemOp.fence, bind, Except.bind, pure, Except.pure, Except.map]

theorem RoundTrip.bfi (c : Common) (d : Dst) (a : Src) (b : Src) (e : Src) : RoundTrip.Statement (.bfi c d a b e) := by
  intro x h hw
  simp only [Instr.encode, Option.some.injEq] at h
  subst h
  refine decode_of_candidate ?_ hw rfl
  simp (disch := omega) [candidate, candLogic, fldA, fldB, fldC, fldG, fldImm, fldOff31, fldView, fldOrder, fldScope, fldBlk, fldVA,
    fldVB, fldVC, fldRm, fldMods, fldRnd, f2, f3, f4, f6, f8, f9, dstOf, predOf, gOf, optRegOf, optBlockOf, memOf, memRawOf, mem12Of,
    word_low, bodyA_op, MemOp.withView, MemOp.bare, MemOp.fence, bind, Except.bind, pure, Except.pure, Except.map]

theorem RoundTrip.perm (c : Common) (d : Dst) (a : Src) (b : Src) (e : Src) : RoundTrip.Statement (.perm c d a b e) := by
  intro x h hw
  simp only [Instr.encode, Option.some.injEq] at h
  subst h
  refine decode_of_candidate ?_ hw rfl
  simp (disch := omega) [candidate, candLogic, fldA, fldB, fldC, fldG, fldImm, fldOff31, fldView, fldOrder, fldScope, fldBlk, fldVA,
    fldVB, fldVC, fldRm, fldMods, fldRnd, f2, f3, f4, f6, f8, f9, dstOf, predOf, gOf, optRegOf, optBlockOf, memOf, memRawOf, mem12Of,
    word_low, bodyA_op, MemOp.withView, MemOp.bare, MemOp.fence, bind, Except.bind, pure, Except.pure, Except.map]

theorem RoundTrip.andi (c : Common) (d : Dst) (r : BitVec 6) (imm : Word) : RoundTrip.Statement (.andi c d r imm) := by
  intro x h hw
  simp only [Instr.encode, Option.some.injEq] at h
  subst h
  refine decode_of_candidate ?_ hw rfl
  simp (disch := omega) [candidate, candLogic, fldA, fldB, fldC, fldG, fldImm, fldOff31, fldView, fldOrder, fldScope, fldBlk, fldVA,
    fldVB, fldVC, fldRm, fldMods, fldRnd, f2, f3, f4, f6, f8, f9, dstOf, predOf, gOf, optRegOf, optBlockOf, memOf, memRawOf, mem12Of,
    word_low, bodyA_op, MemOp.withView, MemOp.bare, MemOp.fence, bind, Except.bind, pure, Except.pure, Except.map]

theorem RoundTrip.ori (c : Common) (d : Dst) (r : BitVec 6) (imm : Word) : RoundTrip.Statement (.ori c d r imm) := by
  intro x h hw
  simp only [Instr.encode, Option.some.injEq] at h
  subst h
  refine decode_of_candidate ?_ hw rfl
  simp (disch := omega) [candidate, candLogic, fldA, fldB, fldC, fldG, fldImm, fldOff31, fldView, fldOrder, fldScope, fldBlk, fldVA,
    fldVB, fldVC, fldRm, fldMods, fldRnd, f2, f3, f4, f6, f8, f9, dstOf, predOf, gOf, optRegOf, optBlockOf, memOf, memRawOf, mem12Of,
    word_low, bodyA_op, MemOp.withView, MemOp.bare, MemOp.fence, bind, Except.bind, pure, Except.pure, Except.map]

theorem RoundTrip.xori (c : Common) (d : Dst) (r : BitVec 6) (imm : Word) : RoundTrip.Statement (.xori c d r imm) := by
  intro x h hw
  simp only [Instr.encode, Option.some.injEq] at h
  subst h
  refine decode_of_candidate ?_ hw rfl
  simp (disch := omega) [candidate, candLogic, fldA, fldB, fldC, fldG, fldImm, fldOff31, fldView, fldOrder, fldScope, fldBlk, fldVA,
    fldVB, fldVC, fldRm, fldMods, fldRnd, f2, f3, f4, f6, f8, f9, dstOf, predOf, gOf, optRegOf, optBlockOf, memOf, memRawOf, mem12Of,
    word_low, bodyA_op, MemOp.withView, MemOp.bare, MemOp.fence, bind, Except.bind, pure, Except.pure, Except.map]

theorem RoundTrip.cmp (c : Common) (p : BitVec 3) (a : Src) (b : Src) (cc : Cond) (s : Bool) (wide : Bool) : RoundTrip.Statement (.cmp c p a b cc s wide) := by
  intro x h hw
  simp only [Instr.encode, Option.some.injEq] at h
  subst h
  refine decode_of_candidate ?_ hw rfl
  simp (disch := omega) [candidate, candMove, fldA, fldB, fldC, fldG, fldImm, fldOff31, fldView, fldOrder, fldScope, fldBlk, fldVA,
    fldVB, fldVC, fldRm, fldMods, fldRnd, f2, f3, f4, f6, f8, f9, dstOf, predOf, gOf, optRegOf, optBlockOf, memOf, memRawOf, mem12Of,
    word_low, bodyA_op, MemOp.withView, MemOp.bare, MemOp.fence, bind, Except.bind, pure, Except.pure, Except.map]

theorem RoundTrip.cmps (c : Common) (d : Dst) (a : Src) (b : Src) (cc : Cond) (s : Bool) (wide : Bool) : RoundTrip.Statement (.cmps c d a b cc s wide) := by
  intro x h hw
  simp only [Instr.encode, Option.some.injEq] at h
  subst h
  refine decode_of_candidate ?_ hw rfl
  simp (disch := omega) [candidate, candMove, fldA, fldB, fldC, fldG, fldImm, fldOff31, fldView, fldOrder, fldScope, fldBlk, fldVA,
    fldVB, fldVC, fldRm, fldMods, fldRnd, f2, f3, f4, f6, f8, f9, dstOf, predOf, gOf, optRegOf, optBlockOf, memOf, memRawOf, mem12Of,
    word_low, bodyA_op, MemOp.withView, MemOp.bare, MemOp.fence, bind, Except.bind, pure, Except.pure, Except.map]

theorem RoundTrip.sel (c : Common) (d : Dst) (a : Src) (b : Src) (p : BitVec 3) (negate : Bool) (wide : Bool) : RoundTrip.Statement (.sel c d a b p negate wide) := by
  intro x h hw
  simp only [Instr.encode, Option.some.injEq] at h
  subst h
  refine decode_of_candidate ?_ hw rfl
  simp (disch := omega) [candidate, candMove, fldA, fldB, fldC, fldG, fldImm, fldOff31, fldView, fldOrder, fldScope, fldBlk, fldVA,
    fldVB, fldVC, fldRm, fldMods, fldRnd, f2, f3, f4, f6, f8, f9, dstOf, predOf, gOf, optRegOf, optBlockOf, memOf, memRawOf, mem12Of,
    word_low, bodyA_op, MemOp.withView, MemOp.bare, MemOp.fence, bind, Except.bind, pure, Except.pure, Except.map]

theorem RoundTrip.mov (c : Common) (d : Dst) (a : Src) (wide : Bool) : RoundTrip.Statement (.mov c d a wide) := by
  intro x h hw
  simp only [Instr.encode, Option.some.injEq] at h
  subst h
  refine decode_of_candidate ?_ hw rfl
  simp (disch := omega) [candidate, candMove, fldA, fldB, fldC, fldG, fldImm, fldOff31, fldView, fldOrder, fldScope, fldBlk, fldVA,
    fldVB, fldVC, fldRm, fldMods, fldRnd, f2, f3, f4, f6, f8, f9, dstOf, predOf, gOf, optRegOf, optBlockOf, memOf, memRawOf, mem12Of,
    word_low, bodyA_op, MemOp.withView, MemOp.bare, MemOp.fence, bind, Except.bind, pure, Except.pure, Except.map]

theorem RoundTrip.movs (c : Common) (d : Dst) (r : SReg) (wide : Bool) : RoundTrip.Statement (.movs c d r wide) := by
  intro x h hw
  simp only [Instr.encode, Option.some.injEq] at h
  subst h
  refine decode_of_candidate ?_ hw rfl
  simp (disch := omega) [candidate, candMove, fldA, fldB, fldC, fldG, fldImm, fldOff31, fldView, fldOrder, fldScope, fldBlk, fldVA,
    fldVB, fldVC, fldRm, fldMods, fldRnd, f2, f3, f4, f6, f8, f9, dstOf, predOf, gOf, optRegOf, optBlockOf, memOf, memRawOf, mem12Of,
    word_low, bodyA_op, MemOp.withView, MemOp.bare, MemOp.fence, bind, Except.bind, pure, Except.pure, Except.map]

theorem RoundTrip.sets (c : Common) (a : Src) (r : SReg) (wide : Bool) : RoundTrip.Statement (.sets c a r wide) := by
  intro x h hw
  simp only [Instr.encode, Option.some.injEq] at h
  subst h
  refine decode_of_candidate ?_ hw rfl
  simp (disch := omega) [candidate, candMove, fldA, fldB, fldC, fldG, fldImm, fldOff31, fldView, fldOrder, fldScope, fldBlk, fldVA,
    fldVB, fldVC, fldRm, fldMods, fldRnd, f2, f3, f4, f6, f8, f9, dstOf, predOf, gOf, optRegOf, optBlockOf, memOf, memRawOf, mem12Of,
    word_low, bodyA_op, MemOp.withView, MemOp.bare, MemOp.fence, bind, Except.bind, pure, Except.pure, Except.map]

theorem RoundTrip.pand (c : Common) (p : BitVec 3) (pa : BitVec 3) (pb : BitVec 3) (na : Bool) (nb : Bool) : RoundTrip.Statement (.pand c p pa pb na nb) := by
  intro x h hw
  simp only [Instr.encode, Option.some.injEq] at h
  subst h
  refine decode_of_candidate ?_ hw rfl
  simp (disch := omega) [candidate, candMove, fldA, fldB, fldC, fldG, fldImm, fldOff31, fldView, fldOrder, fldScope, fldBlk, fldVA,
    fldVB, fldVC, fldRm, fldMods, fldRnd, f2, f3, f4, f6, f8, f9, dstOf, predOf, gOf, optRegOf, optBlockOf, memOf, memRawOf, mem12Of,
    word_low, bodyA_op, MemOp.withView, MemOp.bare, MemOp.fence, bind, Except.bind, pure, Except.pure, Except.map]

theorem RoundTrip.por (c : Common) (p : BitVec 3) (pa : BitVec 3) (pb : BitVec 3) (na : Bool) (nb : Bool) : RoundTrip.Statement (.por c p pa pb na nb) := by
  intro x h hw
  simp only [Instr.encode, Option.some.injEq] at h
  subst h
  refine decode_of_candidate ?_ hw rfl
  simp (disch := omega) [candidate, candMove, fldA, fldB, fldC, fldG, fldImm, fldOff31, fldView, fldOrder, fldScope, fldBlk, fldVA,
    fldVB, fldVC, fldRm, fldMods, fldRnd, f2, f3, f4, f6, f8, f9, dstOf, predOf, gOf, optRegOf, optBlockOf, memOf, memRawOf, mem12Of,
    word_low, bodyA_op, MemOp.withView, MemOp.bare, MemOp.fence, bind, Except.bind, pure, Except.pure, Except.map]

theorem RoundTrip.pxor (c : Common) (p : BitVec 3) (pa : BitVec 3) (pb : BitVec 3) (na : Bool) (nb : Bool) : RoundTrip.Statement (.pxor c p pa pb na nb) := by
  intro x h hw
  simp only [Instr.encode, Option.some.injEq] at h
  subst h
  refine decode_of_candidate ?_ hw rfl
  simp (disch := omega) [candidate, candMove, fldA, fldB, fldC, fldG, fldImm, fldOff31, fldView, fldOrder, fldScope, fldBlk, fldVA,
    fldVB, fldVC, fldRm, fldMods, fldRnd, f2, f3, f4, f6, f8, f9, dstOf, predOf, gOf, optRegOf, optBlockOf, memOf, memRawOf, mem12Of,
    word_low, bodyA_op, MemOp.withView, MemOp.bare, MemOp.fence, bind, Except.bind, pure, Except.pure, Except.map]

theorem RoundTrip.pnot (c : Common) (p : BitVec 3) (pa : BitVec 3) : RoundTrip.Statement (.pnot c p pa) := by
  intro x h hw
  simp only [Instr.encode, Option.some.injEq] at h
  subst h
  refine decode_of_candidate ?_ hw rfl
  simp (disch := omega) [candidate, candMove, fldA, fldB, fldC, fldG, fldImm, fldOff31, fldView, fldOrder, fldScope, fldBlk, fldVA,
    fldVB, fldVC, fldRm, fldMods, fldRnd, f2, f3, f4, f6, f8, f9, dstOf, predOf, gOf, optRegOf, optBlockOf, memOf, memRawOf, mem12Of,
    word_low, bodyA_op, MemOp.withView, MemOp.bare, MemOp.fence, bind, Except.bind, pure, Except.pure, Except.map]

theorem RoundTrip.pset (c : Common) (p : BitVec 3) (a : Src) : RoundTrip.Statement (.pset c p a) := by
  intro x h hw
  simp only [Instr.encode, Option.some.injEq] at h
  subst h
  refine decode_of_candidate ?_ hw rfl
  simp (disch := omega) [candidate, candMove, fldA, fldB, fldC, fldG, fldImm, fldOff31, fldView, fldOrder, fldScope, fldBlk, fldVA,
    fldVB, fldVC, fldRm, fldMods, fldRnd, f2, f3, f4, f6, f8, f9, dstOf, predOf, gOf, optRegOf, optBlockOf, memOf, memRawOf, mem12Of,
    word_low, bodyA_op, MemOp.withView, MemOp.bare, MemOp.fence, bind, Except.bind, pure, Except.pure, Except.map]

theorem RoundTrip.pmov (c : Common) (d : Dst) (a : Src) (write : Bool) : RoundTrip.Statement (.pmov c d a write) := by
  intro x h hw
  simp only [Instr.encode, Option.some.injEq] at h
  subst h
  refine decode_of_candidate ?_ hw rfl
  simp (disch := omega) [candidate, candMove, fldA, fldB, fldC, fldG, fldImm, fldOff31, fldView, fldOrder, fldScope, fldBlk, fldVA,
    fldVB, fldVC, fldRm, fldMods, fldRnd, f2, f3, f4, f6, f8, f9, dstOf, predOf, gOf, optRegOf, optBlockOf, memOf, memRawOf, mem12Of,
    word_low, bodyA_op, MemOp.withView, MemOp.bare, MemOp.fence, bind, Except.bind, pure, Except.pure, Except.map]

theorem RoundTrip.fadd (c : Common) (d : Dst) (a : Src) (b : Src) (r : FRnd) : RoundTrip.Statement (.fadd c d a b r) := by
  intro x h hw
  simp only [Instr.encode, Option.some.injEq] at h
  subst h
  refine decode_of_candidate ?_ hw rfl
  simp (disch := omega) [candidate, candFp, fldA, fldB, fldC, fldG, fldImm, fldOff31, fldView, fldOrder, fldScope, fldBlk, fldVA,
    fldVB, fldVC, fldRm, fldMods, fldRnd, f2, f3, f4, f6, f8, f9, dstOf, predOf, gOf, optRegOf, optBlockOf, memOf, memRawOf, mem12Of,
    word_low, bodyA_op, MemOp.withView, MemOp.bare, MemOp.fence, bind, Except.bind, pure, Except.pure, Except.map]

theorem RoundTrip.fsub (c : Common) (d : Dst) (a : Src) (b : Src) (r : FRnd) : RoundTrip.Statement (.fsub c d a b r) := by
  intro x h hw
  simp only [Instr.encode, Option.some.injEq] at h
  subst h
  refine decode_of_candidate ?_ hw rfl
  simp (disch := omega) [candidate, candFp, fldA, fldB, fldC, fldG, fldImm, fldOff31, fldView, fldOrder, fldScope, fldBlk, fldVA,
    fldVB, fldVC, fldRm, fldMods, fldRnd, f2, f3, f4, f6, f8, f9, dstOf, predOf, gOf, optRegOf, optBlockOf, memOf, memRawOf, mem12Of,
    word_low, bodyA_op, MemOp.withView, MemOp.bare, MemOp.fence, bind, Except.bind, pure, Except.pure, Except.map]

theorem RoundTrip.fmul (c : Common) (d : Dst) (a : Src) (b : Src) (r : FRnd) : RoundTrip.Statement (.fmul c d a b r) := by
  intro x h hw
  simp only [Instr.encode, Option.some.injEq] at h
  subst h
  refine decode_of_candidate ?_ hw rfl
  simp (disch := omega) [candidate, candFp, fldA, fldB, fldC, fldG, fldImm, fldOff31, fldView, fldOrder, fldScope, fldBlk, fldVA,
    fldVB, fldVC, fldRm, fldMods, fldRnd, f2, f3, f4, f6, f8, f9, dstOf, predOf, gOf, optRegOf, optBlockOf, memOf, memRawOf, mem12Of,
    word_low, bodyA_op, MemOp.withView, MemOp.bare, MemOp.fence, bind, Except.bind, pure, Except.pure, Except.map]

theorem RoundTrip.ffma (c : Common) (d : Dst) (a : Src) (b : Src) (e : Src) (r : FRnd) : RoundTrip.Statement (.ffma c d a b e r) := by
  intro x h hw
  simp only [Instr.encode, Option.some.injEq] at h
  subst h
  refine decode_of_candidate ?_ hw rfl
  simp (disch := omega) [candidate, candFp, fldA, fldB, fldC, fldG, fldImm, fldOff31, fldView, fldOrder, fldScope, fldBlk, fldVA,
    fldVB, fldVC, fldRm, fldMods, fldRnd, f2, f3, f4, f6, f8, f9, dstOf, predOf, gOf, optRegOf, optBlockOf, memOf, memRawOf, mem12Of,
    word_low, bodyA_op, MemOp.withView, MemOp.bare, MemOp.fence, bind, Except.bind, pure, Except.pure, Except.map]

theorem RoundTrip.fmin (c : Common) (d : Dst) (a : Src) (b : Src) (fz : Bool) (m : Mods) : RoundTrip.Statement (.fmin c d a b fz m) := by
  intro x h hw
  simp only [Instr.encode, Option.some.injEq] at h
  subst h
  refine decode_of_candidate ?_ hw rfl
  simp (disch := omega) [candidate, candFp, fldA, fldB, fldC, fldG, fldImm, fldOff31, fldView, fldOrder, fldScope, fldBlk, fldVA,
    fldVB, fldVC, fldRm, fldMods, fldRnd, f2, f3, f4, f6, f8, f9, dstOf, predOf, gOf, optRegOf, optBlockOf, memOf, memRawOf, mem12Of,
    word_low, bodyA_op, MemOp.withView, MemOp.bare, MemOp.fence, bind, Except.bind, pure, Except.pure, Except.map]

theorem RoundTrip.fmax (c : Common) (d : Dst) (a : Src) (b : Src) (fz : Bool) (m : Mods) : RoundTrip.Statement (.fmax c d a b fz m) := by
  intro x h hw
  simp only [Instr.encode, Option.some.injEq] at h
  subst h
  refine decode_of_candidate ?_ hw rfl
  simp (disch := omega) [candidate, candFp, fldA, fldB, fldC, fldG, fldImm, fldOff31, fldView, fldOrder, fldScope, fldBlk, fldVA,
    fldVB, fldVC, fldRm, fldMods, fldRnd, f2, f3, f4, f6, f8, f9, dstOf, predOf, gOf, optRegOf, optBlockOf, memOf, memRawOf, mem12Of,
    word_low, bodyA_op, MemOp.withView, MemOp.bare, MemOp.fence, bind, Except.bind, pure, Except.pure, Except.map]

theorem RoundTrip.fcmp (c : Common) (d : Dst) (a : Src) (b : Src) (cc : FCond) (fz : Bool) (m : Mods) : RoundTrip.Statement (.fcmp c d a b cc fz m) := by
  intro x h hw
  simp only [Instr.encode, Option.some.injEq] at h
  subst h
  refine decode_of_candidate ?_ hw rfl
  simp (disch := omega) [candidate, candFp, fldA, fldB, fldC, fldG, fldImm, fldOff31, fldView, fldOrder, fldScope, fldBlk, fldVA,
    fldVB, fldVC, fldRm, fldMods, fldRnd, f2, f3, f4, f6, f8, f9, dstOf, predOf, gOf, optRegOf, optBlockOf, memOf, memRawOf, mem12Of,
    word_low, bodyA_op, MemOp.withView, MemOp.bare, MemOp.fence, bind, Except.bind, pure, Except.pure, Except.map]

theorem RoundTrip.fclass (c : Common) (d : Dst) (a : Src) : RoundTrip.Statement (.fclass c d a) := by
  intro x h hw
  simp only [Instr.encode, Option.some.injEq] at h
  subst h
  refine decode_of_candidate ?_ hw rfl
  simp (disch := omega) [candidate, candFp, fldA, fldB, fldC, fldG, fldImm, fldOff31, fldView, fldOrder, fldScope, fldBlk, fldVA,
    fldVB, fldVC, fldRm, fldMods, fldRnd, f2, f3, f4, f6, f8, f9, dstOf, predOf, gOf, optRegOf, optBlockOf, memOf, memRawOf, mem12Of,
    word_low, bodyA_op, MemOp.withView, MemOp.bare, MemOp.fence, bind, Except.bind, pure, Except.pure, Except.map]

theorem RoundTrip.frcp (c : Common) (d : Dst) (a : Src) (fz : Bool) (m : Mods) : RoundTrip.Statement (.frcp c d a fz m) := by
  intro x h hw
  simp only [Instr.encode, Option.some.injEq] at h
  subst h
  refine decode_of_candidate ?_ hw rfl
  simp (disch := omega) [candidate, candFp, fldA, fldB, fldC, fldG, fldImm, fldOff31, fldView, fldOrder, fldScope, fldBlk, fldVA,
    fldVB, fldVC, fldRm, fldMods, fldRnd, f2, f3, f4, f6, f8, f9, dstOf, predOf, gOf, optRegOf, optBlockOf, memOf, memRawOf, mem12Of,
    word_low, bodyA_op, MemOp.withView, MemOp.bare, MemOp.fence, bind, Except.bind, pure, Except.pure, Except.map]

theorem RoundTrip.frsq (c : Common) (d : Dst) (a : Src) (fz : Bool) (m : Mods) : RoundTrip.Statement (.frsq c d a fz m) := by
  intro x h hw
  simp only [Instr.encode, Option.some.injEq] at h
  subst h
  refine decode_of_candidate ?_ hw rfl
  simp (disch := omega) [candidate, candFp, fldA, fldB, fldC, fldG, fldImm, fldOff31, fldView, fldOrder, fldScope, fldBlk, fldVA,
    fldVB, fldVC, fldRm, fldMods, fldRnd, f2, f3, f4, f6, f8, f9, dstOf, predOf, gOf, optRegOf, optBlockOf, memOf, memRawOf, mem12Of,
    word_low, bodyA_op, MemOp.withView, MemOp.bare, MemOp.fence, bind, Except.bind, pure, Except.pure, Except.map]

theorem RoundTrip.fsqrt (c : Common) (d : Dst) (a : Src) (r : FRnd) : RoundTrip.Statement (.fsqrt c d a r) := by
  intro x h hw
  simp only [Instr.encode, Option.some.injEq] at h
  subst h
  refine decode_of_candidate ?_ hw rfl
  simp (disch := omega) [candidate, candFp, fldA, fldB, fldC, fldG, fldImm, fldOff31, fldView, fldOrder, fldScope, fldBlk, fldVA,
    fldVB, fldVC, fldRm, fldMods, fldRnd, f2, f3, f4, f6, f8, f9, dstOf, predOf, gOf, optRegOf, optBlockOf, memOf, memRawOf, mem12Of,
    word_low, bodyA_op, MemOp.withView, MemOp.bare, MemOp.fence, bind, Except.bind, pure, Except.pure, Except.map]

theorem RoundTrip.fdiv (c : Common) (d : Dst) (a : Src) (b : Src) (r : FRnd) : RoundTrip.Statement (.fdiv c d a b r) := by
  intro x h hw
  simp only [Instr.encode, Option.some.injEq] at h
  subst h
  refine decode_of_candidate ?_ hw rfl
  simp (disch := omega) [candidate, candFp, fldA, fldB, fldC, fldG, fldImm, fldOff31, fldView, fldOrder, fldScope, fldBlk, fldVA,
    fldVB, fldVC, fldRm, fldMods, fldRnd, f2, f3, f4, f6, f8, f9, dstOf, predOf, gOf, optRegOf, optBlockOf, memOf, memRawOf, mem12Of,
    word_low, bodyA_op, MemOp.withView, MemOp.bare, MemOp.fence, bind, Except.bind, pure, Except.pure, Except.map]

theorem RoundTrip.fexp2 (c : Common) (d : Dst) (a : Src) (fz : Bool) (m : Mods) : RoundTrip.Statement (.fexp2 c d a fz m) := by
  intro x h hw
  simp only [Instr.encode, Option.some.injEq] at h
  subst h
  refine decode_of_candidate ?_ hw rfl
  simp (disch := omega) [candidate, candFp, fldA, fldB, fldC, fldG, fldImm, fldOff31, fldView, fldOrder, fldScope, fldBlk, fldVA,
    fldVB, fldVC, fldRm, fldMods, fldRnd, f2, f3, f4, f6, f8, f9, dstOf, predOf, gOf, optRegOf, optBlockOf, memOf, memRawOf, mem12Of,
    word_low, bodyA_op, MemOp.withView, MemOp.bare, MemOp.fence, bind, Except.bind, pure, Except.pure, Except.map]

theorem RoundTrip.flog2 (c : Common) (d : Dst) (a : Src) (fz : Bool) (m : Mods) : RoundTrip.Statement (.flog2 c d a fz m) := by
  intro x h hw
  simp only [Instr.encode, Option.some.injEq] at h
  subst h
  refine decode_of_candidate ?_ hw rfl
  simp (disch := omega) [candidate, candFp, fldA, fldB, fldC, fldG, fldImm, fldOff31, fldView, fldOrder, fldScope, fldBlk, fldVA,
    fldVB, fldVC, fldRm, fldMods, fldRnd, f2, f3, f4, f6, f8, f9, dstOf, predOf, gOf, optRegOf, optBlockOf, memOf, memRawOf, mem12Of,
    word_low, bodyA_op, MemOp.withView, MemOp.bare, MemOp.fence, bind, Except.bind, pure, Except.pure, Except.map]

theorem RoundTrip.fsin (c : Common) (d : Dst) (a : Src) (fz : Bool) (m : Mods) : RoundTrip.Statement (.fsin c d a fz m) := by
  intro x h hw
  simp only [Instr.encode, Option.some.injEq] at h
  subst h
  refine decode_of_candidate ?_ hw rfl
  simp (disch := omega) [candidate, candFp, fldA, fldB, fldC, fldG, fldImm, fldOff31, fldView, fldOrder, fldScope, fldBlk, fldVA,
    fldVB, fldVC, fldRm, fldMods, fldRnd, f2, f3, f4, f6, f8, f9, dstOf, predOf, gOf, optRegOf, optBlockOf, memOf, memRawOf, mem12Of,
    word_low, bodyA_op, MemOp.withView, MemOp.bare, MemOp.fence, bind, Except.bind, pure, Except.pure, Except.map]

theorem RoundTrip.fcos (c : Common) (d : Dst) (a : Src) (fz : Bool) (m : Mods) : RoundTrip.Statement (.fcos c d a fz m) := by
  intro x h hw
  simp only [Instr.encode, Option.some.injEq] at h
  subst h
  refine decode_of_candidate ?_ hw rfl
  simp (disch := omega) [candidate, candFp, fldA, fldB, fldC, fldG, fldImm, fldOff31, fldView, fldOrder, fldScope, fldBlk, fldVA,
    fldVB, fldVC, fldRm, fldMods, fldRnd, f2, f3, f4, f6, f8, f9, dstOf, predOf, gOf, optRegOf, optBlockOf, memOf, memRawOf, mem12Of,
    word_low, bodyA_op, MemOp.withView, MemOp.bare, MemOp.fence, bind, Except.bind, pure, Except.pure, Except.map]

theorem RoundTrip.ftanh (c : Common) (d : Dst) (a : Src) (fz : Bool) (m : Mods) : RoundTrip.Statement (.ftanh c d a fz m) := by
  intro x h hw
  simp only [Instr.encode, Option.some.injEq] at h
  subst h
  refine decode_of_candidate ?_ hw rfl
  simp (disch := omega) [candidate, candFp, fldA, fldB, fldC, fldG, fldImm, fldOff31, fldView, fldOrder, fldScope, fldBlk, fldVA,
    fldVB, fldVC, fldRm, fldMods, fldRnd, f2, f3, f4, f6, f8, f9, dstOf, predOf, gOf, optRegOf, optBlockOf, memOf, memRawOf, mem12Of,
    word_low, bodyA_op, MemOp.withView, MemOp.bare, MemOp.fence, bind, Except.bind, pure, Except.pure, Except.map]

theorem RoundTrip.fscale (c : Common) (d : Dst) (a : Src) (b : Src) (r : FRnd) : RoundTrip.Statement (.fscale c d a b r) := by
  intro x h hw
  simp only [Instr.encode, Option.some.injEq] at h
  subst h
  refine decode_of_candidate ?_ hw rfl
  simp (disch := omega) [candidate, candFp, fldA, fldB, fldC, fldG, fldImm, fldOff31, fldView, fldOrder, fldScope, fldBlk, fldVA,
    fldVB, fldVC, fldRm, fldMods, fldRnd, f2, f3, f4, f6, f8, f9, dstOf, predOf, gOf, optRegOf, optBlockOf, memOf, memRawOf, mem12Of,
    word_low, bodyA_op, MemOp.withView, MemOp.bare, MemOp.fence, bind, Except.bind, pure, Except.pure, Except.map]

theorem RoundTrip.ffrac (c : Common) (d : Dst) (a : Src) (fz : Bool) (m : Mods) : RoundTrip.Statement (.ffrac c d a fz m) := by
  intro x h hw
  simp only [Instr.encode, Option.some.injEq] at h
  subst h
  refine decode_of_candidate ?_ hw rfl
  simp (disch := omega) [candidate, candFp, fldA, fldB, fldC, fldG, fldImm, fldOff31, fldView, fldOrder, fldScope, fldBlk, fldVA,
    fldVB, fldVC, fldRm, fldMods, fldRnd, f2, f3, f4, f6, f8, f9, dstOf, predOf, gOf, optRegOf, optBlockOf, memOf, memRawOf, mem12Of,
    word_low, bodyA_op, MemOp.withView, MemOp.bare, MemOp.fence, bind, Except.bind, pure, Except.pure, Except.map]

theorem RoundTrip.frnd (c : Common) (d : Dst) (a : Src) (r : FRnd) : RoundTrip.Statement (.frnd c d a r) := by
  intro x h hw
  simp only [Instr.encode, Option.some.injEq] at h
  subst h
  refine decode_of_candidate ?_ hw rfl
  simp (disch := omega) [candidate, candFp, fldA, fldB, fldC, fldG, fldImm, fldOff31, fldView, fldOrder, fldScope, fldBlk, fldVA,
    fldVB, fldVC, fldRm, fldMods, fldRnd, f2, f3, f4, f6, f8, f9, dstOf, predOf, gOf, optRegOf, optBlockOf, memOf, memRawOf, mem12Of,
    word_low, bodyA_op, MemOp.withView, MemOp.bare, MemOp.fence, bind, Except.bind, pure, Except.pure, Except.map]

theorem RoundTrip.hadd2 (c : Common) (d : Dst) (a : Src) (b : Src) (bf : Bool) (r : FRnd) : RoundTrip.Statement (.hadd2 c d a b bf r) := by
  intro x h hw
  simp only [Instr.encode, Option.some.injEq] at h
  subst h
  refine decode_of_candidate ?_ hw rfl
  simp (disch := omega) [candidate, candPacked, fldA, fldB, fldC, fldG, fldImm, fldOff31, fldView, fldOrder, fldScope, fldBlk, fldVA,
    fldVB, fldVC, fldRm, fldMods, fldRnd, f2, f3, f4, f6, f8, f9, dstOf, predOf, gOf, optRegOf, optBlockOf, memOf, memRawOf, mem12Of,
    word_low, bodyA_op, MemOp.withView, MemOp.bare, MemOp.fence, bind, Except.bind, pure, Except.pure, Except.map]

theorem RoundTrip.hmul2 (c : Common) (d : Dst) (a : Src) (b : Src) (bf : Bool) (r : FRnd) : RoundTrip.Statement (.hmul2 c d a b bf r) := by
  intro x h hw
  simp only [Instr.encode, Option.some.injEq] at h
  subst h
  refine decode_of_candidate ?_ hw rfl
  simp (disch := omega) [candidate, candPacked, fldA, fldB, fldC, fldG, fldImm, fldOff31, fldView, fldOrder, fldScope, fldBlk, fldVA,
    fldVB, fldVC, fldRm, fldMods, fldRnd, f2, f3, f4, f6, f8, f9, dstOf, predOf, gOf, optRegOf, optBlockOf, memOf, memRawOf, mem12Of,
    word_low, bodyA_op, MemOp.withView, MemOp.bare, MemOp.fence, bind, Except.bind, pure, Except.pure, Except.map]

theorem RoundTrip.hfma2 (c : Common) (d : Dst) (a : Src) (b : Src) (e : Src) (bf : Bool) (r : FRnd) : RoundTrip.Statement (.hfma2 c d a b e bf r) := by
  intro x h hw
  simp only [Instr.encode, Option.some.injEq] at h
  subst h
  refine decode_of_candidate ?_ hw rfl
  simp (disch := omega) [candidate, candPacked, fldA, fldB, fldC, fldG, fldImm, fldOff31, fldView, fldOrder, fldScope, fldBlk, fldVA,
    fldVB, fldVC, fldRm, fldMods, fldRnd, f2, f3, f4, f6, f8, f9, dstOf, predOf, gOf, optRegOf, optBlockOf, memOf, memRawOf, mem12Of,
    word_low, bodyA_op, MemOp.withView, MemOp.bare, MemOp.fence, bind, Except.bind, pure, Except.pure, Except.map]

theorem RoundTrip.hmin2 (c : Common) (d : Dst) (a : Src) (b : Src) (bf : Bool) (fz : Bool) (m : Mods) : RoundTrip.Statement (.hmin2 c d a b bf fz m) := by
  intro x h hw
  simp only [Instr.encode, Option.some.injEq] at h
  subst h
  refine decode_of_candidate ?_ hw rfl
  simp (disch := omega) [candidate, candPacked, fldA, fldB, fldC, fldG, fldImm, fldOff31, fldView, fldOrder, fldScope, fldBlk, fldVA,
    fldVB, fldVC, fldRm, fldMods, fldRnd, f2, f3, f4, f6, f8, f9, dstOf, predOf, gOf, optRegOf, optBlockOf, memOf, memRawOf, mem12Of,
    word_low, bodyA_op, MemOp.withView, MemOp.bare, MemOp.fence, bind, Except.bind, pure, Except.pure, Except.map]

theorem RoundTrip.hmax2 (c : Common) (d : Dst) (a : Src) (b : Src) (bf : Bool) (fz : Bool) (m : Mods) : RoundTrip.Statement (.hmax2 c d a b bf fz m) := by
  intro x h hw
  simp only [Instr.encode, Option.some.injEq] at h
  subst h
  refine decode_of_candidate ?_ hw rfl
  simp (disch := omega) [candidate, candPacked, fldA, fldB, fldC, fldG, fldImm, fldOff31, fldView, fldOrder, fldScope, fldBlk, fldVA,
    fldVB, fldVC, fldRm, fldMods, fldRnd, f2, f3, f4, f6, f8, f9, dstOf, predOf, gOf, optRegOf, optBlockOf, memOf, memRawOf, mem12Of,
    word_low, bodyA_op, MemOp.withView, MemOp.bare, MemOp.fence, bind, Except.bind, pure, Except.pure, Except.map]

theorem RoundTrip.hdot2 (c : Common) (d : Dst) (a : Src) (b : Src) (e : Src) (bf : Bool) (r : FRnd) : RoundTrip.Statement (.hdot2 c d a b e bf r) := by
  intro x h hw
  simp only [Instr.encode, Option.some.injEq] at h
  subst h
  refine decode_of_candidate ?_ hw rfl
  simp (disch := omega) [candidate, candPacked, fldA, fldB, fldC, fldG, fldImm, fldOff31, fldView, fldOrder, fldScope, fldBlk, fldVA,
    fldVB, fldVC, fldRm, fldMods, fldRnd, f2, f3, f4, f6, f8, f9, dstOf, predOf, gOf, optRegOf, optBlockOf, memOf, memRawOf, mem12Of,
    word_low, bodyA_op, MemOp.withView, MemOp.bare, MemOp.fence, bind, Except.bind, pure, Except.pure, Except.map]

theorem RoundTrip.cvt (c : Common) (d : Dst) (a : Src) (dst : CvtTy) (src : CvtTy) (rm : Rm) (fz : Bool) (sat : Bool) : RoundTrip.Statement (.cvt c d a dst src rm fz sat) := by
  intro x h hw
  simp only [Instr.encode, Option.some.injEq] at h
  subst h
  refine decode_of_candidate ?_ hw rfl
  simp (disch := omega) [candidate, candConvert, fldA, fldB, fldC, fldG, fldImm, fldOff31, fldView, fldOrder, fldScope, fldBlk, fldVA,
    fldVB, fldVC, fldRm, fldMods, fldRnd, f2, f3, f4, f6, f8, f9, dstOf, predOf, gOf, optRegOf, optBlockOf, memOf, memRawOf, mem12Of,
    word_low, bodyA_op, MemOp.withView, MemOp.bare, MemOp.fence, bind, Except.bind, pure, Except.pure, Except.map]

theorem RoundTrip.pack2 (c : Common) (d : Dst) (a : Src) (b : Src) (ty : Half) (s : Bool) (rm : Rm) (fz : Bool) (sat : Bool) : RoundTrip.Statement (.pack2 c d a b ty s rm fz sat) := by
  intro x h hw
  simp only [Instr.encode, Option.some.injEq] at h
  subst h
  refine decode_of_candidate ?_ hw rfl
  simp (disch := omega) [candidate, candConvert, fldA, fldB, fldC, fldG, fldImm, fldOff31, fldView, fldOrder, fldScope, fldBlk, fldVA,
    fldVB, fldVC, fldRm, fldMods, fldRnd, f2, f3, f4, f6, f8, f9, dstOf, predOf, gOf, optRegOf, optBlockOf, memOf, memRawOf, mem12Of,
    word_low, bodyA_op, MemOp.withView, MemOp.bare, MemOp.fence, bind, Except.bind, pure, Except.pure, Except.map]

theorem RoundTrip.split2 (c : Common) (d : Dst) (a : Src) (ty : Half) (fz : Bool) : RoundTrip.Statement (.split2 c d a ty fz) := by
  intro x h hw
  simp only [Instr.encode, Option.some.injEq] at h
  subst h
  refine decode_of_candidate ?_ hw rfl
  simp (disch := omega) [candidate, candConvert, fldA, fldB, fldC, fldG, fldImm, fldOff31, fldView, fldOrder, fldScope, fldBlk, fldVA,
    fldVB, fldVC, fldRm, fldMods, fldRnd, f2, f3, f4, f6, f8, f9, dstOf, predOf, gOf, optRegOf, optBlockOf, memOf, memRawOf, mem12Of,
    word_low, bodyA_op, MemOp.withView, MemOp.bare, MemOp.fence, bind, Except.bind, pure, Except.pure, Except.map]

theorem RoundTrip.pack4 (c : Common) (d : Dst) (a : Src) (b : Src) (i8 : Bool) (s : Bool) (sat : Bool) : RoundTrip.Statement (.pack4 c d a b i8 s sat) := by
  intro x h hw
  simp only [Instr.encode, Option.some.injEq] at h
  subst h
  refine decode_of_candidate ?_ hw rfl
  simp (disch := omega) [candidate, candConvert, fldA, fldB, fldC, fldG, fldImm, fldOff31, fldView, fldOrder, fldScope, fldBlk, fldVA,
    fldVB, fldVC, fldRm, fldMods, fldRnd, f2, f3, f4, f6, f8, f9, dstOf, predOf, gOf, optRegOf, optBlockOf, memOf, memRawOf, mem12Of,
    word_low, bodyA_op, MemOp.withView, MemOp.bare, MemOp.fence, bind, Except.bind, pure, Except.pure, Except.map]

theorem RoundTrip.split4 (c : Common) (d : Dst) (a : Src) (hi : Bool) (signed : Bool) : RoundTrip.Statement (.split4 c d a hi signed) := by
  intro x h hw
  simp only [Instr.encode, Option.some.injEq] at h
  subst h
  refine decode_of_candidate ?_ hw rfl
  simp (disch := omega) [candidate, candConvert, fldA, fldB, fldC, fldG, fldImm, fldOff31, fldView, fldOrder, fldScope, fldBlk, fldVA,
    fldVB, fldVC, fldRm, fldMods, fldRnd, f2, f3, f4, f6, f8, f9, dstOf, predOf, gOf, optRegOf, optBlockOf, memOf, memRawOf, mem12Of,
    word_low, bodyA_op, MemOp.withView, MemOp.bare, MemOp.fence, bind, Except.bind, pure, Except.pure, Except.map]

theorem RoundTrip.bra (c : Common) (off : BitVec 31) : RoundTrip.Statement (.bra c off) := by
  intro x h hw
  simp only [Instr.encode, Option.some.injEq] at h
  subst h
  refine decode_of_candidate ?_ hw rfl
  simp (disch := omega) [candidate, candControl, fldA, fldB, fldC, fldG, fldImm, fldOff31, fldView, fldOrder, fldScope, fldBlk, fldVA,
    fldVB, fldVC, fldRm, fldMods, fldRnd, f2, f3, f4, f6, f8, f9, dstOf, predOf, gOf, optRegOf, optBlockOf, memOf, memRawOf, mem12Of,
    word_low, bodyA_op, MemOp.withView, MemOp.bare, MemOp.fence, bind, Except.bind, pure, Except.pure, Except.map]

theorem RoundTrip.jmpi (c : Common) (a : Src) : RoundTrip.Statement (.jmpi c a) := by
  intro x h hw
  simp only [Instr.encode, Option.some.injEq] at h
  subst h
  refine decode_of_candidate ?_ hw rfl
  simp (disch := omega) [candidate, candControl, fldA, fldB, fldC, fldG, fldImm, fldOff31, fldView, fldOrder, fldScope, fldBlk, fldVA,
    fldVB, fldVC, fldRm, fldMods, fldRnd, f2, f3, f4, f6, f8, f9, dstOf, predOf, gOf, optRegOf, optBlockOf, memOf, memRawOf, mem12Of,
    word_low, bodyA_op, MemOp.withView, MemOp.bare, MemOp.fence, bind, Except.bind, pure, Except.pure, Except.map]

theorem RoundTrip.call (c : Common) (link : BitVec 6) (off : BitVec 31) : RoundTrip.Statement (.call c link off) := by
  intro x h hw
  simp only [Instr.encode, Option.some.injEq] at h
  subst h
  refine decode_of_candidate ?_ hw rfl
  simp (disch := omega) [candidate, candControl, fldA, fldB, fldC, fldG, fldImm, fldOff31, fldView, fldOrder, fldScope, fldBlk, fldVA,
    fldVB, fldVC, fldRm, fldMods, fldRnd, f2, f3, f4, f6, f8, f9, dstOf, predOf, gOf, optRegOf, optBlockOf, memOf, memRawOf, mem12Of,
    word_low, bodyA_op, MemOp.withView, MemOp.bare, MemOp.fence, bind, Except.bind, pure, Except.pure, Except.map]

theorem RoundTrip.calli (c : Common) (link : BitVec 6) (a : Src) : RoundTrip.Statement (.calli c link a) := by
  intro x h hw
  simp only [Instr.encode, Option.some.injEq] at h
  subst h
  refine decode_of_candidate ?_ hw rfl
  simp (disch := omega) [candidate, candControl, fldA, fldB, fldC, fldG, fldImm, fldOff31, fldView, fldOrder, fldScope, fldBlk, fldVA,
    fldVB, fldVC, fldRm, fldMods, fldRnd, f2, f3, f4, f6, f8, f9, dstOf, predOf, gOf, optRegOf, optBlockOf, memOf, memRawOf, mem12Of,
    word_low, bodyA_op, MemOp.withView, MemOp.bare, MemOp.fence, bind, Except.bind, pure, Except.pure, Except.map]

theorem RoundTrip.ret (c : Common) (a : Src) : RoundTrip.Statement (.ret c a) := by
  intro x h hw
  simp only [Instr.encode, Option.some.injEq] at h
  subst h
  refine decode_of_candidate ?_ hw rfl
  simp (disch := omega) [candidate, candControl, fldA, fldB, fldC, fldG, fldImm, fldOff31, fldView, fldOrder, fldScope, fldBlk, fldVA,
    fldVB, fldVC, fldRm, fldMods, fldRnd, f2, f3, f4, f6, f8, f9, dstOf, predOf, gOf, optRegOf, optBlockOf, memOf, memRawOf, mem12Of,
    word_low, bodyA_op, MemOp.withView, MemOp.bare, MemOp.fence, bind, Except.bind, pure, Except.pure, Except.map]

theorem RoundTrip.relcall (c : Common) (frame : Option (BitVec 6)) (a : Src) : RoundTrip.Statement (.relcall c frame a) := by
  intro x h hw
  cases frame
  all_goals simp only [Instr.encode, Option.some.injEq] at h
  all_goals subst h
  all_goals refine decode_of_candidate ?_ hw rfl
  all_goals simp (disch := omega) [candidate, candControl, fldA, fldB, fldC, fldG, fldImm, fldOff31, fldView, fldOrder, fldScope, fldBlk, fldVA,
    fldVB, fldVC, fldRm, fldMods, fldRnd, f2, f3, f4, f6, f8, f9, dstOf, predOf, gOf, optRegOf, optBlockOf, memOf, memRawOf, mem12Of,
    word_low, bodyA_op, MemOp.withView, MemOp.bare, MemOp.fence, bind, Except.bind, pure, Except.pure, Except.map]

theorem RoundTrip.tjoin (c : Common) : RoundTrip.Statement (.tjoin c) := by
  intro x h hw
  simp only [Instr.encode, Option.some.injEq] at h
  subst h
  refine decode_of_candidate ?_ hw rfl
  simp (disch := omega) [candidate, candControl, fldA, fldB, fldC, fldG, fldImm, fldOff31, fldView, fldOrder, fldScope, fldBlk, fldVA,
    fldVB, fldVC, fldRm, fldMods, fldRnd, f2, f3, f4, f6, f8, f9, dstOf, predOf, gOf, optRegOf, optBlockOf, memOf, memRawOf, mem12Of,
    word_low, bodyA_op, MemOp.withView, MemOp.bare, MemOp.fence, bind, Except.bind, pure, Except.pure, Except.map]

theorem RoundTrip.tend (c : Common) : RoundTrip.Statement (.tend c) := by
  intro x h hw
  simp only [Instr.encode, Option.some.injEq] at h
  subst h
  refine decode_of_candidate ?_ hw rfl
  simp (disch := omega) [candidate, candControl, fldA, fldB, fldC, fldG, fldImm, fldOff31, fldView, fldOrder, fldScope, fldBlk, fldVA,
    fldVB, fldVC, fldRm, fldMods, fldRnd, f2, f3, f4, f6, f8, f9, dstOf, predOf, gOf, optRegOf, optBlockOf, memOf, memRawOf, mem12Of,
    word_low, bodyA_op, MemOp.withView, MemOp.bare, MemOp.fence, bind, Except.bind, pure, Except.pure, Except.map]

theorem RoundTrip.exit (c : Common) : RoundTrip.Statement (.exit c) := by
  intro x h hw
  simp only [Instr.encode, Option.some.injEq] at h
  subst h
  refine decode_of_candidate ?_ hw rfl
  simp (disch := omega) [candidate, candControl, fldA, fldB, fldC, fldG, fldImm, fldOff31, fldView, fldOrder, fldScope, fldBlk, fldVA,
    fldVB, fldVC, fldRm, fldMods, fldRnd, f2, f3, f4, f6, f8, f9, dstOf, predOf, gOf, optRegOf, optBlockOf, memOf, memRawOf, mem12Of,
    word_low, bodyA_op, MemOp.withView, MemOp.bare, MemOp.fence, bind, Except.bind, pure, Except.pure, Except.map]

theorem RoundTrip.nop (c : Common) : RoundTrip.Statement (.nop c) := by
  intro x h hw
  simp only [Instr.encode, Option.some.injEq] at h
  subst h
  refine decode_of_candidate ?_ hw rfl
  simp (disch := omega) [candidate, candControl, fldA, fldB, fldC, fldG, fldImm, fldOff31, fldView, fldOrder, fldScope, fldBlk, fldVA,
    fldVB, fldVC, fldRm, fldMods, fldRnd, f2, f3, f4, f6, f8, f9, dstOf, predOf, gOf, optRegOf, optBlockOf, memOf, memRawOf, mem12Of,
    word_low, bodyA_op, MemOp.withView, MemOp.bare, MemOp.fence, bind, Except.bind, pure, Except.pure, Except.map]

theorem RoundTrip.yieldI (c : Common) : RoundTrip.Statement (.yieldI c) := by
  intro x h hw
  simp only [Instr.encode, Option.some.injEq] at h
  subst h
  refine decode_of_candidate ?_ hw rfl
  simp (disch := omega) [candidate, candControl, fldA, fldB, fldC, fldG, fldImm, fldOff31, fldView, fldOrder, fldScope, fldBlk, fldVA,
    fldVB, fldVC, fldRm, fldMods, fldRnd, f2, f3, f4, f6, f8, f9, dstOf, predOf, gOf, optRegOf, optBlockOf, memOf, memRawOf, mem12Of,
    word_low, bodyA_op, MemOp.withView, MemOp.bare, MemOp.fence, bind, Except.bind, pure, Except.pure, Except.map]

theorem RoundTrip.progress (c : Common) : RoundTrip.Statement (.progress c) := by
  intro x h hw
  simp only [Instr.encode, Option.some.injEq] at h
  subst h
  refine decode_of_candidate ?_ hw rfl
  simp (disch := omega) [candidate, candControl, fldA, fldB, fldC, fldG, fldImm, fldOff31, fldView, fldOrder, fldScope, fldBlk, fldVA,
    fldVB, fldVC, fldRm, fldMods, fldRnd, f2, f3, f4, f6, f8, f9, dstOf, predOf, gOf, optRegOf, optBlockOf, memOf, memRawOf, mem12Of,
    word_low, bodyA_op, MemOp.withView, MemOp.bare, MemOp.fence, bind, Except.bind, pure, Except.pure, Except.map]

theorem RoundTrip.step (c : Common) (mask : BitVec 8) : RoundTrip.Statement (.step c mask) := by
  intro x h hw
  simp only [Instr.encode, Option.some.injEq] at h
  subst h
  refine decode_of_candidate ?_ hw rfl
  simp (disch := omega) [candidate, candCell, fldA, fldB, fldC, fldG, fldImm, fldOff31, fldView, fldOrder, fldScope, fldBlk, fldVA,
    fldVB, fldVC, fldRm, fldMods, fldRnd, f2, f3, f4, f6, f8, f9, dstOf, predOf, gOf, optRegOf, optBlockOf, memOf, memRawOf, mem12Of,
    word_low, bodyA_op, MemOp.withView, MemOp.bare, MemOp.fence, bind, Except.bind, pure, Except.pure, Except.map]

theorem RoundTrip.migrate (c : Common) (d : Dst) (a : Src) : RoundTrip.Statement (.migrate c d a) := by
  intro x h hw
  simp only [Instr.encode, Option.some.injEq] at h
  subst h
  refine decode_of_candidate ?_ hw rfl
  simp (disch := omega) [candidate, candCell, fldA, fldB, fldC, fldG, fldImm, fldOff31, fldView, fldOrder, fldScope, fldBlk, fldVA,
    fldVB, fldVC, fldRm, fldMods, fldRnd, f2, f3, f4, f6, f8, f9, dstOf, predOf, gOf, optRegOf, optBlockOf, memOf, memRawOf, mem12Of,
    word_low, bodyA_op, MemOp.withView, MemOp.bare, MemOp.fence, bind, Except.bind, pure, Except.pure, Except.map]

theorem RoundTrip.dqpush (c : Common) (a : Src) : RoundTrip.Statement (.dqpush c a) := by
  intro x h hw
  simp only [Instr.encode, Option.some.injEq] at h
  subst h
  refine decode_of_candidate ?_ hw rfl
  simp (disch := omega) [candidate, candCell, fldA, fldB, fldC, fldG, fldImm, fldOff31, fldView, fldOrder, fldScope, fldBlk, fldVA,
    fldVB, fldVC, fldRm, fldMods, fldRnd, f2, f3, f4, f6, f8, f9, dstOf, predOf, gOf, optRegOf, optBlockOf, memOf, memRawOf, mem12Of,
    word_low, bodyA_op, MemOp.withView, MemOp.bare, MemOp.fence, bind, Except.bind, pure, Except.pure, Except.map]

theorem RoundTrip.dqpop (c : Common) (d : Dst) : RoundTrip.Statement (.dqpop c d) := by
  intro x h hw
  simp only [Instr.encode, Option.some.injEq] at h
  subst h
  refine decode_of_candidate ?_ hw rfl
  simp (disch := omega) [candidate, candCell, fldA, fldB, fldC, fldG, fldImm, fldOff31, fldView, fldOrder, fldScope, fldBlk, fldVA,
    fldVB, fldVC, fldRm, fldMods, fldRnd, f2, f3, f4, f6, f8, f9, dstOf, predOf, gOf, optRegOf, optBlockOf, memOf, memRawOf, mem12Of,
    word_low, bodyA_op, MemOp.withView, MemOp.bare, MemOp.fence, bind, Except.bind, pure, Except.pure, Except.map]

theorem RoundTrip.park (c : Common) : RoundTrip.Statement (.park c) := by
  intro x h hw
  simp only [Instr.encode, Option.some.injEq] at h
  subst h
  refine decode_of_candidate ?_ hw rfl
  simp (disch := omega) [candidate, candCell, fldA, fldB, fldC, fldG, fldImm, fldOff31, fldView, fldOrder, fldScope, fldBlk, fldVA,
    fldVB, fldVC, fldRm, fldMods, fldRnd, f2, f3, f4, f6, f8, f9, dstOf, predOf, gOf, optRegOf, optBlockOf, memOf, memRawOf, mem12Of,
    word_low, bodyA_op, MemOp.withView, MemOp.bare, MemOp.fence, bind, Except.bind, pure, Except.pure, Except.map]

theorem RoundTrip.ld (c : Common) (d : Dst) (m : MemOp) : RoundTrip.Statement (.ld c d m) := by
  intro x h hw
  simp only [Instr.encode, Option.some.injEq] at h
  subst h
  refine decode_of_candidate ?_ hw rfl
  simp (disch := omega) [candidate, candMem, fldA, fldB, fldC, fldG, fldImm, fldOff31, fldView, fldOrder, fldScope, fldBlk, fldVA,
    fldVB, fldVC, fldRm, fldMods, fldRnd, f2, f3, f4, f6, f8, f9, dstOf, predOf, gOf, optRegOf, optBlockOf, memOf, memRawOf, mem12Of,
    word_low, bodyA_op, MemOp.withView, MemOp.bare, MemOp.fence, bind, Except.bind, pure, Except.pure, Except.map]

theorem RoundTrip.st (c : Common) (d : Dst) (m : MemOp) : RoundTrip.Statement (.st c d m) := by
  intro x h hw
  simp only [Instr.encode, Option.some.injEq] at h
  subst h
  refine decode_of_candidate ?_ hw rfl
  simp (disch := omega) [candidate, candMem, fldA, fldB, fldC, fldG, fldImm, fldOff31, fldView, fldOrder, fldScope, fldBlk, fldVA,
    fldVB, fldVC, fldRm, fldMods, fldRnd, f2, f3, f4, f6, f8, f9, dstOf, predOf, gOf, optRegOf, optBlockOf, memOf, memRawOf, mem12Of,
    word_low, bodyA_op, MemOp.withView, MemOp.bare, MemOp.fence, bind, Except.bind, pure, Except.pure, Except.map]

theorem RoundTrip.ldx (c : Common) (d : Dst) (w : Fmt) (m : MemOp) : RoundTrip.Statement (.ldx c d w m) := by
  intro x h hw
  have hm := rawView_eq (m := m) (wf_checks hw _ (by simp [Instr.checks]))
  obtain ⟨view, off, order, scope, pol, tok, disp⟩ := m
  simp only at hm
  subst hm
  simp only [Instr.encode, Option.some.injEq] at h
  subst h
  refine decode_of_candidate ?_ hw rfl
  simp (disch := omega) [candidate, candMem, fldA, fldB, fldC, fldG, fldImm, fldOff31, fldView, fldOrder, fldScope, fldBlk, fldVA,
    fldVB, fldVC, fldRm, fldMods, fldRnd, f2, f3, f4, f6, f8, f9, dstOf, predOf, gOf, optRegOf, optBlockOf, memOf, memRawOf, mem12Of,
    word_low, bodyA_op, MemOp.withView, MemOp.bare, MemOp.fence, bind, Except.bind, pure, Except.pure, Except.map]

theorem RoundTrip.stx (c : Common) (d : Dst) (w : Fmt) (m : MemOp) : RoundTrip.Statement (.stx c d w m) := by
  intro x h hw
  have hm := rawView_eq (m := m) (wf_checks hw _ (by simp [Instr.checks]))
  obtain ⟨view, off, order, scope, pol, tok, disp⟩ := m
  simp only at hm
  subst hm
  simp only [Instr.encode, Option.some.injEq] at h
  subst h
  refine decode_of_candidate ?_ hw rfl
  simp (disch := omega) [candidate, candMem, fldA, fldB, fldC, fldG, fldImm, fldOff31, fldView, fldOrder, fldScope, fldBlk, fldVA,
    fldVB, fldVC, fldRm, fldMods, fldRnd, f2, f3, f4, f6, f8, f9, dstOf, predOf, gOf, optRegOf, optBlockOf, memOf, memRawOf, mem12Of,
    word_low, bodyA_op, MemOp.withView, MemOp.bare, MemOp.fence, bind, Except.bind, pure, Except.pure, Except.map]

theorem RoundTrip.pref (c : Common) (m : MemOp) : RoundTrip.Statement (.pref c m) := by
  intro x h hw
  simp only [Instr.encode, Option.some.injEq] at h
  subst h
  refine decode_of_candidate ?_ hw rfl
  simp (disch := omega) [candidate, candMem, fldA, fldB, fldC, fldG, fldImm, fldOff31, fldView, fldOrder, fldScope, fldBlk, fldVA,
    fldVB, fldVC, fldRm, fldMods, fldRnd, f2, f3, f4, f6, f8, f9, dstOf, predOf, gOf, optRegOf, optBlockOf, memOf, memRawOf, mem12Of,
    word_low, bodyA_op, MemOp.withView, MemOp.bare, MemOp.fence, bind, Except.bind, pure, Except.pure, Except.map]

theorem RoundTrip.vset (c : Common) (base : BitVec 6) (view : BitVec 6) : RoundTrip.Statement (.vset c base view) := by
  intro x h hw
  simp only [Instr.encode, Option.some.injEq] at h
  subst h
  refine decode_of_candidate ?_ hw rfl
  simp (disch := omega) [candidate, candMem, fldA, fldB, fldC, fldG, fldImm, fldOff31, fldView, fldOrder, fldScope, fldBlk, fldVA,
    fldVB, fldVC, fldRm, fldMods, fldRnd, f2, f3, f4, f6, f8, f9, dstOf, predOf, gOf, optRegOf, optBlockOf, memOf, memRawOf, mem12Of,
    word_low, bodyA_op, MemOp.withView, MemOp.bare, MemOp.fence, bind, Except.bind, pure, Except.pure, Except.map]

theorem RoundTrip.vget (c : Common) (base : BitVec 6) (view : BitVec 6) : RoundTrip.Statement (.vget c base view) := by
  intro x h hw
  simp only [Instr.encode, Option.some.injEq] at h
  subst h
  refine decode_of_candidate ?_ hw rfl
  simp (disch := omega) [candidate, candMem, fldA, fldB, fldC, fldG, fldImm, fldOff31, fldView, fldOrder, fldScope, fldBlk, fldVA,
    fldVB, fldVC, fldRm, fldMods, fldRnd, f2, f3, f4, f6, f8, f9, dstOf, predOf, gOf, optRegOf, optBlockOf, memOf, memRawOf, mem12Of,
    word_low, bodyA_op, MemOp.withView, MemOp.bare, MemOp.fence, bind, Except.bind, pure, Except.pure, Except.map]

theorem RoundTrip.vld (c : Common) (entry : BitVec 6) (m : MemOp) : RoundTrip.Statement (.vld c entry m) := by
  intro x h hw
  simp only [Instr.encode, Option.some.injEq] at h
  subst h
  refine decode_of_candidate ?_ hw rfl
  simp (disch := omega) [candidate, candMem, fldA, fldB, fldC, fldG, fldImm, fldOff31, fldView, fldOrder, fldScope, fldBlk, fldVA,
    fldVB, fldVC, fldRm, fldMods, fldRnd, f2, f3, f4, f6, f8, f9, dstOf, predOf, gOf, optRegOf, optBlockOf, memOf, memRawOf, mem12Of,
    word_low, bodyA_op, MemOp.withView, MemOp.bare, MemOp.fence, bind, Except.bind, pure, Except.pure, Except.map]

theorem RoundTrip.atom (c : Common) (r : BitVec 6) (fn : AtomFn) (m : MemOp) : RoundTrip.Statement (.atom c r fn m) := by
  intro x h hw
  have hm := mem12_eq (m := m) (wf_checks hw _ (by simp [Instr.checks]))
  simp only [Instr.encode, Option.some.injEq] at h
  subst h
  refine decode_of_candidate ?_ hw rfl
  simp (disch := omega) [candidate, candAtomic, fldA, fldB, fldC, fldG, fldImm, fldOff31, fldView, fldOrder, fldScope, fldBlk, fldVA,
    fldVB, fldVC, fldRm, fldMods, fldRnd, f2, f3, f4, f6, f8, f9, dstOf, predOf, gOf, optRegOf, optBlockOf, memOf, memRawOf, mem12Of,
    word_low, bodyA_op, MemOp.withView, MemOp.bare, MemOp.fence, bind, Except.bind, pure, Except.pure, Except.map]
  simp [MemOp.withCode, hm]

theorem RoundTrip.atomr (c : Common) (r : BitVec 6) (fn : AtomFn) (m : MemOp) : RoundTrip.Statement (.atomr c r fn m) := by
  intro x h hw
  have hm := mem12_eq (m := m) (wf_checks hw _ (by simp [Instr.checks]))
  simp only [Instr.encode, Option.some.injEq] at h
  subst h
  refine decode_of_candidate ?_ hw rfl
  simp (disch := omega) [candidate, candAtomic, fldA, fldB, fldC, fldG, fldImm, fldOff31, fldView, fldOrder, fldScope, fldBlk, fldVA,
    fldVB, fldVC, fldRm, fldMods, fldRnd, f2, f3, f4, f6, f8, f9, dstOf, predOf, gOf, optRegOf, optBlockOf, memOf, memRawOf, mem12Of,
    word_low, bodyA_op, MemOp.withView, MemOp.bare, MemOp.fence, bind, Except.bind, pure, Except.pure, Except.map]
  simp [MemOp.withCode, hm]

theorem RoundTrip.cas (c : Common) (r : BitVec 6) (m : MemOp) : RoundTrip.Statement (.cas c r m) := by
  intro x h hw
  have hm := mem12_eq (m := m) (wf_checks hw _ (by simp [Instr.checks]))
  simp only [Instr.encode, Option.some.injEq] at h
  subst h
  refine decode_of_candidate ?_ hw rfl
  simp (disch := omega) [candidate, candAtomic, fldA, fldB, fldC, fldG, fldImm, fldOff31, fldView, fldOrder, fldScope, fldBlk, fldVA,
    fldVB, fldVC, fldRm, fldMods, fldRnd, f2, f3, f4, f6, f8, f9, dstOf, predOf, gOf, optRegOf, optBlockOf, memOf, memRawOf, mem12Of,
    word_low, bodyA_op, MemOp.withView, MemOp.bare, MemOp.fence, bind, Except.bind, pure, Except.pure, Except.map]
  simp [MemOp.withCode, hm]

theorem RoundTrip.kcas2 (c : Common) (r : BitVec 6) (dist : BitVec 4) (m : MemOp) : RoundTrip.Statement (.kcas2 c r dist m) := by
  intro x h hw
  have hm := mem12_eq (m := m) (wf_checks hw _ (by simp [Instr.checks]))
  simp only [Instr.encode, Option.some.injEq] at h
  subst h
  refine decode_of_candidate ?_ hw rfl
  simp (disch := omega) [candidate, candAtomic, fldA, fldB, fldC, fldG, fldImm, fldOff31, fldView, fldOrder, fldScope, fldBlk, fldVA,
    fldVB, fldVC, fldRm, fldMods, fldRnd, f2, f3, f4, f6, f8, f9, dstOf, predOf, gOf, optRegOf, optBlockOf, memOf, memRawOf, mem12Of,
    word_low, bodyA_op, MemOp.withView, MemOp.bare, MemOp.fence, bind, Except.bind, pure, Except.pure, Except.map]
  simp [MemOp.withCode, hm]

theorem RoundTrip.kenq (c : Common) (r : BitVec 6) (m : MemOp) : RoundTrip.Statement (.kenq c r m) := by
  intro x h hw
  have hm := mem12_eq (m := m) (wf_checks hw _ (by simp [Instr.checks]))
  simp only [Instr.encode, Option.some.injEq] at h
  subst h
  refine decode_of_candidate ?_ hw rfl
  simp (disch := omega) [candidate, candAtomic, fldA, fldB, fldC, fldG, fldImm, fldOff31, fldView, fldOrder, fldScope, fldBlk, fldVA,
    fldVB, fldVC, fldRm, fldMods, fldRnd, f2, f3, f4, f6, f8, f9, dstOf, predOf, gOf, optRegOf, optBlockOf, memOf, memRawOf, mem12Of,
    word_low, bodyA_op, MemOp.withView, MemOp.bare, MemOp.fence, bind, Except.bind, pure, Except.pure, Except.map]
  simp [MemOp.withCode, hm]

theorem RoundTrip.kdeq (c : Common) (r : BitVec 6) (m : MemOp) : RoundTrip.Statement (.kdeq c r m) := by
  intro x h hw
  have hm := mem12_eq (m := m) (wf_checks hw _ (by simp [Instr.checks]))
  simp only [Instr.encode, Option.some.injEq] at h
  subst h
  refine decode_of_candidate ?_ hw rfl
  simp (disch := omega) [candidate, candAtomic, fldA, fldB, fldC, fldG, fldImm, fldOff31, fldView, fldOrder, fldScope, fldBlk, fldVA,
    fldVB, fldVC, fldRm, fldMods, fldRnd, f2, f3, f4, f6, f8, f9, dstOf, predOf, gOf, optRegOf, optBlockOf, memOf, memRawOf, mem12Of,
    word_low, bodyA_op, MemOp.withView, MemOp.bare, MemOp.fence, bind, Except.bind, pure, Except.pure, Except.map]
  simp [MemOp.withCode, hm]

theorem RoundTrip.kchase (c : Common) (r : BitVec 6) (word : BitVec 4) (m : MemOp) : RoundTrip.Statement (.kchase c r word m) := by
  intro x h hw
  have hm := mem12_eq (m := m) (wf_checks hw _ (by simp [Instr.checks]))
  simp only [Instr.encode, Option.some.injEq] at h
  subst h
  refine decode_of_candidate ?_ hw rfl
  simp (disch := omega) [candidate, candAtomic, fldA, fldB, fldC, fldG, fldImm, fldOff31, fldView, fldOrder, fldScope, fldBlk, fldVA,
    fldVB, fldVC, fldRm, fldMods, fldRnd, f2, f3, f4, f6, f8, f9, dstOf, predOf, gOf, optRegOf, optBlockOf, memOf, memRawOf, mem12Of,
    word_low, bodyA_op, MemOp.withView, MemOp.bare, MemOp.fence, bind, Except.bind, pure, Except.pure, Except.map]
  simp [MemOp.withCode, hm]

theorem RoundTrip.kchunk (c : Common) (r : BitVec 6) (m : MemOp) : RoundTrip.Statement (.kchunk c r m) := by
  intro x h hw
  have hm := mem12_eq (m := m) (wf_checks hw _ (by simp [Instr.checks]))
  simp only [Instr.encode, Option.some.injEq] at h
  subst h
  refine decode_of_candidate ?_ hw rfl
  simp (disch := omega) [candidate, candAtomic, fldA, fldB, fldC, fldG, fldImm, fldOff31, fldView, fldOrder, fldScope, fldBlk, fldVA,
    fldVB, fldVC, fldRm, fldMods, fldRnd, f2, f3, f4, f6, f8, f9, dstOf, predOf, gOf, optRegOf, optBlockOf, memOf, memRawOf, mem12Of,
    word_low, bodyA_op, MemOp.withView, MemOp.bare, MemOp.fence, bind, Except.bind, pure, Except.pure, Except.map]
  simp [MemOp.withCode, hm]

theorem RoundTrip.fence (c : Common) (order : Order) (scope : MScope) (tok : BitVec 3) : RoundTrip.Statement (.fence c order scope tok) := by
  intro x h hw
  simp only [Instr.encode, Option.some.injEq] at h
  subst h
  refine decode_of_candidate ?_ hw rfl
  simp (disch := omega) [candidate, candSync, fldA, fldB, fldC, fldG, fldImm, fldOff31, fldView, fldOrder, fldScope, fldBlk, fldVA,
    fldVB, fldVC, fldRm, fldMods, fldRnd, f2, f3, f4, f6, f8, f9, dstOf, predOf, gOf, optRegOf, optBlockOf, memOf, memRawOf, mem12Of,
    word_low, bodyA_op, MemOp.withView, MemOp.bare, MemOp.fence, bind, Except.bind, pure, Except.pure, Except.map]

theorem RoundTrip.bar (c : Common) (sc : Scope) : RoundTrip.Statement (.bar c sc) := by
  intro x h hw
  simp only [Instr.encode, Option.some.injEq] at h
  subst h
  refine decode_of_candidate ?_ hw rfl
  simp (disch := omega) [candidate, candSync, fldA, fldB, fldC, fldG, fldImm, fldOff31, fldView, fldOrder, fldScope, fldBlk, fldVA,
    fldVB, fldVC, fldRm, fldMods, fldRnd, f2, f3, f4, f6, f8, f9, dstOf, predOf, gOf, optRegOf, optBlockOf, memOf, memRawOf, mem12Of,
    word_low, bodyA_op, MemOp.withView, MemOp.bare, MemOp.fence, bind, Except.bind, pure, Except.pure, Except.map]

theorem RoundTrip.bara (c : Common) (d : Option (BitVec 6)) (sc : Scope) : RoundTrip.Statement (.bara c d sc) := by
  intro x h hw
  cases d
  all_goals simp only [Instr.encode, Option.some.injEq] at h
  all_goals subst h
  all_goals refine decode_of_candidate ?_ hw rfl
  all_goals simp (disch := omega) [candidate, candSync, fldA, fldB, fldC, fldG, fldImm, fldOff31, fldView, fldOrder, fldScope, fldBlk, fldVA,
    fldVB, fldVC, fldRm, fldMods, fldRnd, f2, f3, f4, f6, f8, f9, dstOf, predOf, gOf, optRegOf, optBlockOf, memOf, memRawOf, mem12Of,
    word_low, bodyA_op, MemOp.withView, MemOp.bare, MemOp.fence, bind, Except.bind, pure, Except.pure, Except.map]

theorem RoundTrip.barw (c : Common) (a : Src) (sc : Scope) : RoundTrip.Statement (.barw c a sc) := by
  intro x h hw
  simp only [Instr.encode, Option.some.injEq] at h
  subst h
  refine decode_of_candidate ?_ hw rfl
  simp (disch := omega) [candidate, candSync, fldA, fldB, fldC, fldG, fldImm, fldOff31, fldView, fldOrder, fldScope, fldBlk, fldVA,
    fldVB, fldVC, fldRm, fldMods, fldRnd, f2, f3, f4, f6, f8, f9, dstOf, predOf, gOf, optRegOf, optBlockOf, memOf, memRawOf, mem12Of,
    word_low, bodyA_op, MemOp.withView, MemOp.bare, MemOp.fence, bind, Except.bind, pure, Except.pure, Except.map]

theorem RoundTrip.sarm (c : Common) (r : BitVec 6) (m : MemOp) : RoundTrip.Statement (.sarm c r m) := by
  intro x h hw
  have hm := mem12_eq (m := m) (wf_checks hw _ (by simp [Instr.checks]))
  simp only [Instr.encode, Option.some.injEq] at h
  subst h
  refine decode_of_candidate ?_ hw rfl
  simp (disch := omega) [candidate, candSync, fldA, fldB, fldC, fldG, fldImm, fldOff31, fldView, fldOrder, fldScope, fldBlk, fldVA,
    fldVB, fldVC, fldRm, fldMods, fldRnd, f2, f3, f4, f6, f8, f9, dstOf, predOf, gOf, optRegOf, optBlockOf, memOf, memRawOf, mem12Of,
    word_low, bodyA_op, MemOp.withView, MemOp.bare, MemOp.fence, bind, Except.bind, pure, Except.pure, Except.map]
  simp [MemOp.withCode, hm]

theorem RoundTrip.swait (c : Common) (r : BitVec 6) (m : MemOp) : RoundTrip.Statement (.swait c r m) := by
  intro x h hw
  have hm := mem12_eq (m := m) (wf_checks hw _ (by simp [Instr.checks]))
  simp only [Instr.encode, Option.some.injEq] at h
  subst h
  refine decode_of_candidate ?_ hw rfl
  simp (disch := omega) [candidate, candSync, fldA, fldB, fldC, fldG, fldImm, fldOff31, fldView, fldOrder, fldScope, fldBlk, fldVA,
    fldVB, fldVC, fldRm, fldMods, fldRnd, f2, f3, f4, f6, f8, f9, dstOf, predOf, gOf, optRegOf, optBlockOf, memOf, memRawOf, mem12Of,
    word_low, bodyA_op, MemOp.withView, MemOp.bare, MemOp.fence, bind, Except.bind, pure, Except.pure, Except.map]
  simp [MemOp.withCode, hm]

theorem RoundTrip.sadd (c : Common) (r : BitVec 6) (m : MemOp) : RoundTrip.Statement (.sadd c r m) := by
  intro x h hw
  have hm := mem12_eq (m := m) (wf_checks hw _ (by simp [Instr.checks]))
  simp only [Instr.encode, Option.some.injEq] at h
  subst h
  refine decode_of_candidate ?_ hw rfl
  simp (disch := omega) [candidate, candSync, fldA, fldB, fldC, fldG, fldImm, fldOff31, fldView, fldOrder, fldScope, fldBlk, fldVA,
    fldVB, fldVC, fldRm, fldMods, fldRnd, f2, f3, f4, f6, f8, f9, dstOf, predOf, gOf, optRegOf, optBlockOf, memOf, memRawOf, mem12Of,
    word_low, bodyA_op, MemOp.withView, MemOp.bare, MemOp.fence, bind, Except.bind, pure, Except.pure, Except.map]
  simp [MemOp.withCode, hm]

theorem RoundTrip.copy (c : Common) (block : Option (BitVec 6)) (vd : BitVec 6) (vs : BitVec 6) (rm : Rm) (fz : Bool) (sat : Bool) (tok : BitVec 3) : RoundTrip.Statement (.copy c block vd vs rm fz sat tok) := by
  intro x h hw
  simp only [Instr.encode, Option.some.injEq] at h
  subst h
  refine decode_of_candidate ?_ hw rfl
  simp (disch := omega) [candidate, candEngine, fldA, fldB, fldC, fldG, fldImm, fldOff31, fldView, fldOrder, fldScope, fldBlk, fldVA,
    fldVB, fldVC, fldRm, fldMods, fldRnd, f2, f3, f4, f6, f8, f9, dstOf, predOf, gOf, optRegOf, optBlockOf, memOf, memRawOf, mem12Of,
    word_low, bodyA_op, MemOp.withView, MemOp.bare, MemOp.fence, bind, Except.bind, pure, Except.pure, Except.map]

theorem RoundTrip.copym (c : Common) (block : BitVec 6) (vd : BitVec 6) (vs : BitVec 6) (vb : BitVec 6) (fmt : MatFmt) (rm : Rm) (fz : Bool) (sat : Bool) (tok : BitVec 3) : RoundTrip.Statement (.copym c block vd vs vb fmt rm fz sat tok) := by
  intro x h hw
  simp only [Instr.encode, Option.some.injEq] at h
  subst h
  refine decode_of_candidate ?_ hw rfl
  simp (disch := omega) [candidate, candEngine, fldA, fldB, fldC, fldG, fldImm, fldOff31, fldView, fldOrder, fldScope, fldBlk, fldVA,
    fldVB, fldVC, fldRm, fldMods, fldRnd, f2, f3, f4, f6, f8, f9, dstOf, predOf, gOf, optRegOf, optBlockOf, memOf, memRawOf, mem12Of,
    word_low, bodyA_op, MemOp.withView, MemOp.bare, MemOp.fence, bind, Except.bind, pure, Except.pure, Except.map]

theorem RoundTrip.mmab (c : Common) (block : BitVec 6) (va : BitVec 6) (vb : BitVec 6) (fmt : MatFmt) (tok : BitVec 3) : RoundTrip.Statement (.mmab c block va vb fmt tok) := by
  intro x h hw
  simp only [Instr.encode, Option.some.injEq] at h
  subst h
  refine decode_of_candidate ?_ hw rfl
  simp (disch := omega) [candidate, candEngine, fldA, fldB, fldC, fldG, fldImm, fldOff31, fldView, fldOrder, fldScope, fldBlk, fldVA,
    fldVB, fldVC, fldRm, fldMods, fldRnd, f2, f3, f4, f6, f8, f9, dstOf, predOf, gOf, optRegOf, optBlockOf, memOf, memRawOf, mem12Of,
    word_low, bodyA_op, MemOp.withView, MemOp.bare, MemOp.fence, bind, Except.bind, pure, Except.pure, Except.map]

theorem RoundTrip.scacc (c : Common) (block : Option (BitVec 6)) (va : BitVec 6) (vb : BitVec 6) (part : BitVec 2) (acc : BitVec 2) (tok : BitVec 3) : RoundTrip.Statement (.scacc c block va vb part acc tok) := by
  intro x h hw
  simp only [Instr.encode, Option.some.injEq] at h
  subst h
  refine decode_of_candidate ?_ hw rfl
  simp (disch := omega) [candidate, candEngine, fldA, fldB, fldC, fldG, fldImm, fldOff31, fldView, fldOrder, fldScope, fldBlk, fldVA,
    fldVB, fldVC, fldRm, fldMods, fldRnd, f2, f3, f4, f6, f8, f9, dstOf, predOf, gOf, optRegOf, optBlockOf, memOf, memRawOf, mem12Of,
    word_low, bodyA_op, MemOp.withView, MemOp.bare, MemOp.fence, bind, Except.bind, pure, Except.pure, Except.map]

theorem RoundTrip.mload (c : Common) (block : Option (BitVec 6)) (v : BitVec 6) (acc : BitVec 2) (tok : BitVec 3) : RoundTrip.Statement (.mload c block v acc tok) := by
  intro x h hw
  simp only [Instr.encode, Option.some.injEq] at h
  subst h
  refine decode_of_candidate ?_ hw rfl
  simp (disch := omega) [candidate, candEngine, fldA, fldB, fldC, fldG, fldImm, fldOff31, fldView, fldOrder, fldScope, fldBlk, fldVA,
    fldVB, fldVC, fldRm, fldMods, fldRnd, f2, f3, f4, f6, f8, f9, dstOf, predOf, gOf, optRegOf, optBlockOf, memOf, memRawOf, mem12Of,
    word_low, bodyA_op, MemOp.withView, MemOp.bare, MemOp.fence, bind, Except.bind, pure, Except.pure, Except.map]

theorem RoundTrip.mstore (c : Common) (block : Option (BitVec 6)) (v : BitVec 6) (acc : BitVec 2) (rm : Rm) (fz : Bool) (sat : Bool) (tok : BitVec 3) : RoundTrip.Statement (.mstore c block v acc rm fz sat tok) := by
  intro x h hw
  simp only [Instr.encode, Option.some.injEq] at h
  subst h
  refine decode_of_candidate ?_ hw rfl
  simp (disch := omega) [candidate, candEngine, fldA, fldB, fldC, fldG, fldImm, fldOff31, fldView, fldOrder, fldScope, fldBlk, fldVA,
    fldVB, fldVC, fldRm, fldMods, fldRnd, f2, f3, f4, f6, f8, f9, dstOf, predOf, gOf, optRegOf, optBlockOf, memOf, memRawOf, mem12Of,
    word_low, bodyA_op, MemOp.withView, MemOp.bare, MemOp.fence, bind, Except.bind, pure, Except.pure, Except.map]

theorem RoundTrip.mzero (c : Common) (acc : BitVec 2) (tok : BitVec 3) : RoundTrip.Statement (.mzero c acc tok) := by
  intro x h hw
  simp only [Instr.encode, Option.some.injEq] at h
  subst h
  refine decode_of_candidate ?_ hw rfl
  simp (disch := omega) [candidate, candEngine, fldA, fldB, fldC, fldG, fldImm, fldOff31, fldView, fldOrder, fldScope, fldBlk, fldVA,
    fldVB, fldVC, fldRm, fldMods, fldRnd, f2, f3, f4, f6, f8, f9, dstOf, predOf, gOf, optRegOf, optBlockOf, memOf, memRawOf, mem12Of,
    word_low, bodyA_op, MemOp.withView, MemOp.bare, MemOp.fence, bind, Except.bind, pure, Except.pure, Except.map]

theorem RoundTrip.tmma (c : Common) (block : BitVec 6) (v : BitVec 6) (entry : BitVec 9) (tok : BitVec 3) : RoundTrip.Statement (.tmma c block v entry tok) := by
  intro x h hw
  simp only [Instr.encode, Option.some.injEq] at h
  subst h
  refine decode_of_candidate ?_ hw rfl
  simp (disch := omega) [candidate, candEngine, fldA, fldB, fldC, fldG, fldImm, fldOff31, fldView, fldOrder, fldScope, fldBlk, fldVA,
    fldVB, fldVC, fldRm, fldMods, fldRnd, f2, f3, f4, f6, f8, f9, dstOf, predOf, gOf, optRegOf, optBlockOf, memOf, memRawOf, mem12Of,
    word_low, bodyA_op, MemOp.withView, MemOp.bare, MemOp.fence, bind, Except.bind, pure, Except.pure, Except.map]

theorem RoundTrip.drun (c : Common) (block : BitVec 6) (entry : BitVec 9) (tok : BitVec 3) : RoundTrip.Statement (.drun c block entry tok) := by
  intro x h hw
  simp only [Instr.encode, Option.some.injEq] at h
  subst h
  refine decode_of_candidate ?_ hw rfl
  simp (disch := omega) [candidate, candEngine, fldA, fldB, fldC, fldG, fldImm, fldOff31, fldView, fldOrder, fldScope, fldBlk, fldVA,
    fldVB, fldVC, fldRm, fldMods, fldRnd, f2, f3, f4, f6, f8, f9, dstOf, predOf, gOf, optRegOf, optBlockOf, memOf, memRawOf, mem12Of,
    word_low, bodyA_op, MemOp.withView, MemOp.bare, MemOp.fence, bind, Except.bind, pure, Except.pure, Except.map]

theorem RoundTrip.ecan (c : Common) (mask : BitVec 3) (tok : BitVec 3) : RoundTrip.Statement (.ecan c mask tok) := by
  intro x h hw
  simp only [Instr.encode, Option.some.injEq] at h
  subst h
  refine decode_of_candidate ?_ hw rfl
  simp (disch := omega) [candidate, candEngine, fldA, fldB, fldC, fldG, fldImm, fldOff31, fldView, fldOrder, fldScope, fldBlk, fldVA,
    fldVB, fldVC, fldRm, fldMods, fldRnd, f2, f3, f4, f6, f8, f9, dstOf, predOf, gOf, optRegOf, optBlockOf, memOf, memRawOf, mem12Of,
    word_low, bodyA_op, MemOp.withView, MemOp.bare, MemOp.fence, bind, Except.bind, pure, Except.pure, Except.map]

theorem RoundTrip.trig (c : Common) : RoundTrip.Statement (.trig c) := by
  intro x h hw
  simp only [Instr.encode, Option.some.injEq] at h
  subst h
  refine decode_of_candidate ?_ hw rfl
  simp (disch := omega) [candidate, candLaunch, fldA, fldB, fldC, fldG, fldImm, fldOff31, fldView, fldOrder, fldScope, fldBlk, fldVA,
    fldVB, fldVC, fldRm, fldMods, fldRnd, f2, f3, f4, f6, f8, f9, dstOf, predOf, gOf, optRegOf, optBlockOf, memOf, memRawOf, mem12Of,
    word_low, bodyA_op, MemOp.withView, MemOp.bare, MemOp.fence, bind, Except.bind, pure, Except.pure, Except.map]

theorem RoundTrip.spawn (c : Common) (r : BitVec 6) (m : MemOp) : RoundTrip.Statement (.spawn c r m) := by
  intro x h hw
  simp only [Instr.encode, Option.some.injEq] at h
  subst h
  refine decode_of_candidate ?_ hw rfl
  simp (disch := omega) [candidate, candLaunch, fldA, fldB, fldC, fldG, fldImm, fldOff31, fldView, fldOrder, fldScope, fldBlk, fldVA,
    fldVB, fldVC, fldRm, fldMods, fldRnd, f2, f3, f4, f6, f8, f9, dstOf, predOf, gOf, optRegOf, optBlockOf, memOf, memRawOf, mem12Of,
    word_low, bodyA_op, MemOp.withView, MemOp.bare, MemOp.fence, bind, Except.bind, pure, Except.pure, Except.map]

theorem RoundTrip.trap (c : Common) (imm : Word) : RoundTrip.Statement (.trap c imm) := by
  intro x h hw
  simp only [Instr.encode, Option.some.injEq] at h
  subst h
  refine decode_of_candidate ?_ hw rfl
  simp (disch := omega) [candidate, candSystem, fldA, fldB, fldC, fldG, fldImm, fldOff31, fldView, fldOrder, fldScope, fldBlk, fldVA,
    fldVB, fldVC, fldRm, fldMods, fldRnd, f2, f3, f4, f6, f8, f9, dstOf, predOf, gOf, optRegOf, optBlockOf, memOf, memRawOf, mem12Of,
    word_low, bodyA_op, MemOp.withView, MemOp.bare, MemOp.fence, bind, Except.bind, pure, Except.pure, Except.map]

theorem RoundTrip.svc (c : Common) (imm : Word) : RoundTrip.Statement (.svc c imm) := by
  intro x h hw
  simp only [Instr.encode, Option.some.injEq] at h
  subst h
  refine decode_of_candidate ?_ hw rfl
  simp (disch := omega) [candidate, candSystem, fldA, fldB, fldC, fldG, fldImm, fldOff31, fldView, fldOrder, fldScope, fldBlk, fldVA,
    fldVB, fldVC, fldRm, fldMods, fldRnd, f2, f3, f4, f6, f8, f9, dstOf, predOf, gOf, optRegOf, optBlockOf, memOf, memRawOf, mem12Of,
    word_low, bodyA_op, MemOp.withView, MemOp.bare, MemOp.fence, bind, Except.bind, pure, Except.pure, Except.map]

theorem RoundTrip.eret (c : Common) : RoundTrip.Statement (.eret c) := by
  intro x h hw
  simp only [Instr.encode, Option.some.injEq] at h
  subst h
  refine decode_of_candidate ?_ hw rfl
  simp (disch := omega) [candidate, candSystem, fldA, fldB, fldC, fldG, fldImm, fldOff31, fldView, fldOrder, fldScope, fldBlk, fldVA,
    fldVB, fldVC, fldRm, fldMods, fldRnd, f2, f3, f4, f6, f8, f9, dstOf, predOf, gOf, optRegOf, optBlockOf, memOf, memRawOf, mem12Of,
    word_low, bodyA_op, MemOp.withView, MemOp.bare, MemOp.fence, bind, Except.bind, pure, Except.pure, Except.map]

theorem RoundTrip.segset (c : Common) (n : BitVec 3) (r : BitVec 6) : RoundTrip.Statement (.segset c n r) := by
  intro x h hw
  simp only [Instr.encode, Option.some.injEq] at h
  subst h
  refine decode_of_candidate ?_ hw rfl
  simp (disch := omega) [candidate, candSystem, fldA, fldB, fldC, fldG, fldImm, fldOff31, fldView, fldOrder, fldScope, fldBlk, fldVA,
    fldVB, fldVC, fldRm, fldMods, fldRnd, f2, f3, f4, f6, f8, f9, dstOf, predOf, gOf, optRegOf, optBlockOf, memOf, memRawOf, mem12Of,
    word_low, bodyA_op, MemOp.withView, MemOp.bare, MemOp.fence, bind, Except.bind, pure, Except.pure, Except.map]

theorem RoundTrip.segget (c : Common) (n : BitVec 3) (r : BitVec 6) : RoundTrip.Statement (.segget c n r) := by
  intro x h hw
  simp only [Instr.encode, Option.some.injEq] at h
  subst h
  refine decode_of_candidate ?_ hw rfl
  simp (disch := omega) [candidate, candSystem, fldA, fldB, fldC, fldG, fldImm, fldOff31, fldView, fldOrder, fldScope, fldBlk, fldVA,
    fldVB, fldVC, fldRm, fldMods, fldRnd, f2, f3, f4, f6, f8, f9, dstOf, predOf, gOf, optRegOf, optBlockOf, memOf, memRawOf, mem12Of,
    word_low, bodyA_op, MemOp.withView, MemOp.bare, MemOp.fence, bind, Except.bind, pure, Except.pure, Except.map]

theorem RoundTrip.tlbinv (c : Common) (form : TlbinvForm) (a : Src) (b : Src) : RoundTrip.Statement (.tlbinv c form a b) := by
  intro x h hw
  simp only [Instr.encode, Option.some.injEq] at h
  subst h
  refine decode_of_candidate ?_ hw rfl
  simp (disch := omega) [candidate, candSystem, fldA, fldB, fldC, fldG, fldImm, fldOff31, fldView, fldOrder, fldScope, fldBlk, fldVA,
    fldVB, fldVC, fldRm, fldMods, fldRnd, f2, f3, f4, f6, f8, f9, dstOf, predOf, gOf, optRegOf, optBlockOf, memOf, memRawOf, mem12Of,
    word_low, bodyA_op, MemOp.withView, MemOp.bare, MemOp.fence, bind, Except.bind, pure, Except.pure, Except.map]

theorem RoundTrip.shoot (c : Common) (d : Dst) (a : Src) (b : Src) (e : Src) (g : Bool) (tok : BitVec 3) : RoundTrip.Statement (.shoot c d a b e g tok) := by
  intro x h hw
  simp only [Instr.encode, Option.some.injEq] at h
  subst h
  refine decode_of_candidate ?_ hw rfl
  simp (disch := omega) [candidate, candSystem, fldA, fldB, fldC, fldG, fldImm, fldOff31, fldView, fldOrder, fldScope, fldBlk, fldVA,
    fldVB, fldVC, fldRm, fldMods, fldRnd, f2, f3, f4, f6, f8, f9, dstOf, predOf, gOf, optRegOf, optBlockOf, memOf, memRawOf, mem12Of,
    word_low, bodyA_op, MemOp.withView, MemOp.bare, MemOp.fence, bind, Except.bind, pure, Except.pure, Except.map]

theorem RoundTrip.ldio (c : Common) (d : Dst) (a : Src) (wide : Bool) (tok : BitVec 3) : RoundTrip.Statement (.ldio c d a wide tok) := by
  intro x h hw
  simp only [Instr.encode, Option.some.injEq] at h
  subst h
  refine decode_of_candidate ?_ hw rfl
  simp (disch := omega) [candidate, candSystem, fldA, fldB, fldC, fldG, fldImm, fldOff31, fldView, fldOrder, fldScope, fldBlk, fldVA,
    fldVB, fldVC, fldRm, fldMods, fldRnd, f2, f3, f4, f6, f8, f9, dstOf, predOf, gOf, optRegOf, optBlockOf, memOf, memRawOf, mem12Of,
    word_low, bodyA_op, MemOp.withView, MemOp.bare, MemOp.fence, bind, Except.bind, pure, Except.pure, Except.map]

theorem RoundTrip.stio (c : Common) (a : Src) (b : Src) (wide : Bool) (tok : BitVec 3) : RoundTrip.Statement (.stio c a b wide tok) := by
  intro x h hw
  simp only [Instr.encode, Option.some.injEq] at h
  subst h
  refine decode_of_candidate ?_ hw rfl
  simp (disch := omega) [candidate, candSystem, fldA, fldB, fldC, fldG, fldImm, fldOff31, fldView, fldOrder, fldScope, fldBlk, fldVA,
    fldVB, fldVC, fldRm, fldMods, fldRnd, f2, f3, f4, f6, f8, f9, dstOf, predOf, gOf, optRegOf, optBlockOf, memOf, memRawOf, mem12Of,
    word_low, bodyA_op, MemOp.withView, MemOp.bare, MemOp.fence, bind, Except.bind, pure, Except.pure, Except.map]

theorem RoundTrip.ctxsave (c : Common) (d : Dst) (a : Src) (b : Src) (tok : BitVec 3) : RoundTrip.Statement (.ctxsave c d a b tok) := by
  intro x h hw
  simp only [Instr.encode, Option.some.injEq] at h
  subst h
  refine decode_of_candidate ?_ hw rfl
  simp (disch := omega) [candidate, candSystem, fldA, fldB, fldC, fldG, fldImm, fldOff31, fldView, fldOrder, fldScope, fldBlk, fldVA,
    fldVB, fldVC, fldRm, fldMods, fldRnd, f2, f3, f4, f6, f8, f9, dstOf, predOf, gOf, optRegOf, optBlockOf, memOf, memRawOf, mem12Of,
    word_low, bodyA_op, MemOp.withView, MemOp.bare, MemOp.fence, bind, Except.bind, pure, Except.pure, Except.map]

theorem RoundTrip.ctxload (c : Common) (d : Dst) (a : Src) (b : Src) (tok : BitVec 3) : RoundTrip.Statement (.ctxload c d a b tok) := by
  intro x h hw
  simp only [Instr.encode, Option.some.injEq] at h
  subst h
  refine decode_of_candidate ?_ hw rfl
  simp (disch := omega) [candidate, candSystem, fldA, fldB, fldC, fldG, fldImm, fldOff31, fldView, fldOrder, fldScope, fldBlk, fldVA,
    fldVB, fldVC, fldRm, fldMods, fldRnd, f2, f3, f4, f6, f8, f9, dstOf, predOf, gOf, optRegOf, optBlockOf, memOf, memRawOf, mem12Of,
    word_low, bodyA_op, MemOp.withView, MemOp.bare, MemOp.fence, bind, Except.bind, pure, Except.pure, Except.map]

theorem RoundTrip.idle (c : Common) (d : Dst) (a : Src) : RoundTrip.Statement (.idle c d a) := by
  intro x h hw
  simp only [Instr.encode, Option.some.injEq] at h
  subst h
  refine decode_of_candidate ?_ hw rfl
  simp (disch := omega) [candidate, candSystem, fldA, fldB, fldC, fldG, fldImm, fldOff31, fldView, fldOrder, fldScope, fldBlk, fldVA,
    fldVB, fldVC, fldRm, fldMods, fldRnd, f2, f3, f4, f6, f8, f9, dstOf, predOf, gOf, optRegOf, optBlockOf, memOf, memRawOf, mem12Of,
    word_low, bodyA_op, MemOp.withView, MemOp.bare, MemOp.fence, bind, Except.bind, pure, Except.pure, Except.map]

theorem RoundTrip.ckpt (c : Common) (d : BitVec 6) (a : Src) (b : Src) (tok : BitVec 3) : RoundTrip.Statement (.ckpt c d a b tok) := by
  intro x h hw
  simp only [Instr.encode, Option.some.injEq] at h
  subst h
  refine decode_of_candidate ?_ hw rfl
  simp (disch := omega) [candidate, candSystem, fldA, fldB, fldC, fldG, fldImm, fldOff31, fldView, fldOrder, fldScope, fldBlk, fldVA,
    fldVB, fldVC, fldRm, fldMods, fldRnd, f2, f3, f4, f6, f8, f9, dstOf, predOf, gOf, optRegOf, optBlockOf, memOf, memRawOf, mem12Of,
    word_low, bodyA_op, MemOp.withView, MemOp.bare, MemOp.fence, bind, Except.bind, pure, Except.pure, Except.map]

theorem RoundTrip.ckptRb (c : Common) (d : BitVec 6) (a : Src) (b : Src) (tok : BitVec 3) : RoundTrip.Statement (.ckptRb c d a b tok) := by
  intro x h hw
  simp only [Instr.encode, Option.some.injEq] at h
  subst h
  refine decode_of_candidate ?_ hw rfl
  simp (disch := omega) [candidate, candSystem, fldA, fldB, fldC, fldG, fldImm, fldOff31, fldView, fldOrder, fldScope, fldBlk, fldVA,
    fldVB, fldVC, fldRm, fldMods, fldRnd, f2, f3, f4, f6, f8, f9, dstOf, predOf, gOf, optRegOf, optBlockOf, memOf, memRawOf, mem12Of,
    word_low, bodyA_op, MemOp.withView, MemOp.bare, MemOp.fence, bind, Except.bind, pure, Except.pure, Except.map]

theorem RoundTrip.setperf (c : Common) (a : Src) : RoundTrip.Statement (.setperf c a) := by
  intro x h hw
  simp only [Instr.encode, Option.some.injEq] at h
  subst h
  refine decode_of_candidate ?_ hw rfl
  simp (disch := omega) [candidate, candSystem, fldA, fldB, fldC, fldG, fldImm, fldOff31, fldView, fldOrder, fldScope, fldBlk, fldVA,
    fldVB, fldVC, fldRm, fldMods, fldRnd, f2, f3, f4, f6, f8, f9, dstOf, predOf, gOf, optRegOf, optBlockOf, memOf, memRawOf, mem12Of,
    word_low, bodyA_op, MemOp.withView, MemOp.bare, MemOp.fence, bind, Except.bind, pure, Except.pure, Except.map]

theorem RoundTrip.relcallRelease (m : Nat) : RoundTrip.Statement (.relcallRelease m) := by
  intro w h; simp [Instr.encode] at h

theorem RoundTrip.tendComplete (m : Nat) : RoundTrip.Statement (.tendComplete m) := by
  intro w h; simp [Instr.encode] at h

theorem RoundTrip.exitDrainEnd (m : Nat) : RoundTrip.Statement (.exitDrainEnd m) := by
  intro w h; simp [Instr.encode] at h

theorem RoundTrip.stepCommit (m : Nat) : RoundTrip.Statement (.stepCommit m) := by
  intro w h; simp [Instr.encode] at h

theorem RoundTrip.migrateMove (m : Nat) : RoundTrip.Statement (.migrateMove m) := by
  intro w h; simp [Instr.encode] at h

theorem RoundTrip.dqEntryReleased (core : Nat) : RoundTrip.Statement (.dqEntryReleased core) := by
  intro w h; simp [Instr.encode] at h

theorem RoundTrip.parkSelf (m : Nat) : RoundTrip.Statement (.parkSelf m) := by
  intro w h; simp [Instr.encode] at h

theorem RoundTrip.kchaseHop (a : Nat) : RoundTrip.Statement (.kchaseHop a) := by
  intro w h; simp [Instr.encode] at h

theorem RoundTrip.keeperOperation (a : Nat) : RoundTrip.Statement (.keeperOperation a) := by
  intro w h; simp [Instr.encode] at h

theorem RoundTrip.atomicAtHome (a : Nat) : RoundTrip.Statement (.atomicAtHome a) := by
  intro w h; simp [Instr.encode] at h

theorem RoundTrip.barrierInstanceComplete (launch : Nat) (sc : Scope) (unit : Nat) (k : Nat) : RoundTrip.Statement (.barrierInstanceComplete launch sc unit k) := by
  intro w h; simp [Instr.encode] at h

theorem RoundTrip.syncWordOperation (a : Nat) : RoundTrip.Statement (.syncWordOperation a) := by
  intro w h; simp [Instr.encode] at h

theorem RoundTrip.swaitReturn (m : Nat) : RoundTrip.Statement (.swaitReturn m) := by
  intro w h; simp [Instr.encode] at h

theorem RoundTrip.copyCommandRun (core : Nat) (cmd : Nat) (ext : PeerBytes) : RoundTrip.Statement (.copyCommandRun core cmd ext) := by
  intro w h; simp [Instr.encode] at h

theorem RoundTrip.copySegmentLanded (core : Nat) (cmd : Nat) (seg : Nat) : RoundTrip.Statement (.copySegmentLanded core cmd seg) := by
  intro w h; simp [Instr.encode] at h

theorem RoundTrip.copymFollowOnPlace (core : Nat) (cmd : Nat) : RoundTrip.Statement (.copymFollowOnPlace core cmd) := by
  intro w h; simp [Instr.encode] at h

theorem RoundTrip.arrayCommandRun (core : Nat) (cmd : Nat) (ext : PeerBytes) : RoundTrip.Statement (.arrayCommandRun core cmd ext) := by
  intro w h; simp [Instr.encode] at h

theorem RoundTrip.engineCommandComplete (core : Nat) (cmd : Nat) : RoundTrip.Statement (.engineCommandComplete core cmd) := by
  intro w h; simp [Instr.encode] at h

theorem RoundTrip.engineHeldFaultResume (core : Nat) (cmd : Nat) : RoundTrip.Statement (.engineHeldFaultResume core cmd) := by
  intro w h; simp [Instr.encode] at h

theorem RoundTrip.docentProgramStart (core : Nat) (ext : PeerBytes) : RoundTrip.Statement (.docentProgramStart core ext) := by
  intro w h; simp [Instr.encode] at h

theorem RoundTrip.docentYieldPoint (core : Nat) : RoundTrip.Statement (.docentYieldPoint core) := by
  intro w h; simp [Instr.encode] at h

theorem RoundTrip.docentEnd (core : Nat) : RoundTrip.Statement (.docentEnd core) := by
  intro w h; simp [Instr.encode] at h

theorem RoundTrip.docentMmab (core : Nat) : RoundTrip.Statement (.docentMmab core) := by
  intro w h; simp [Instr.encode] at h

theorem RoundTrip.docentScacc (core : Nat) : RoundTrip.Statement (.docentScacc core) := by
  intro w h; simp [Instr.encode] at h

theorem RoundTrip.docentMzero (core : Nat) : RoundTrip.Statement (.docentMzero core) := by
  intro w h; simp [Instr.encode] at h

theorem RoundTrip.docentMload (core : Nat) : RoundTrip.Statement (.docentMload core) := by
  intro w h; simp [Instr.encode] at h

theorem RoundTrip.docentMstore (core : Nat) : RoundTrip.Statement (.docentMstore core) := by
  intro w h; simp [Instr.encode] at h

theorem RoundTrip.docentCopy (core : Nat) : RoundTrip.Statement (.docentCopy core) := by
  intro w h; simp [Instr.encode] at h

theorem RoundTrip.docentLoop (core : Nat) : RoundTrip.Statement (.docentLoop core) := by
  intro w h; simp [Instr.encode] at h

theorem RoundTrip.docentSetl (core : Nat) : RoundTrip.Statement (.docentSetl core) := by
  intro w h; simp [Instr.encode] at h

theorem RoundTrip.docentSignal (core : Nat) : RoundTrip.Statement (.docentSignal core) := by
  intro w h; simp [Instr.encode] at h

theorem RoundTrip.continuationAccept (core : Nat) (rec : Nat) : RoundTrip.Statement (.continuationAccept core rec) := by
  intro w h; simp [Instr.encode] at h

theorem RoundTrip.taskCellStart (field : Nat) (rec : Nat) : RoundTrip.Statement (.taskCellStart field rec) := by
  intro w h; simp [Instr.encode] at h

theorem RoundTrip.accessionWatchdogExpiry (field : Nat) (launch : Nat) : RoundTrip.Statement (.accessionWatchdogExpiry field launch) := by
  intro w h; simp [Instr.encode] at h

theorem RoundTrip.svcComplete (m : Nat) (vals : List Word) : RoundTrip.Statement (.svcComplete m vals) := by
  intro w h; simp [Instr.encode] at h

theorem RoundTrip.shootdownComplete (seq : Nat) : RoundTrip.Statement (.shootdownComplete seq) := by
  intro w h; simp [Instr.encode] at h

theorem RoundTrip.idleWake (m : Nat) (timeout : Bool) : RoundTrip.Statement (.idleWake m timeout) := by
  intro w h; simp [Instr.encode] at h

theorem RoundTrip.clauseFetch (core : Nat) (launch : Nat) (h : Nat) : RoundTrip.Statement (.clauseFetch core launch h) := by
  intro w h; simp [Instr.encode] at h

theorem RoundTrip.clauseCacheFill (core : Nat) (launch : Nat) (h : Nat) : RoundTrip.Statement (.clauseCacheFill core launch h) := by
  intro w h; simp [Instr.encode] at h

theorem RoundTrip.pick (core : Nat) (idle : Nat) : RoundTrip.Statement (.pick core idle) := by
  intro w h; simp [Instr.encode] at h

theorem RoundTrip.gangSwap (core : Nat) : RoundTrip.Statement (.gangSwap core) := by
  intro w h; simp [Instr.encode] at h

theorem RoundTrip.neighbourReadArrival (r : Nat) : RoundTrip.Statement (.neighbourReadArrival r) := by
  intro w h; simp [Instr.encode] at h

theorem RoundTrip.neighbourReadResume (r : Nat) (v : Word) : RoundTrip.Statement (.neighbourReadResume r v) := by
  intro w h; simp [Instr.encode] at h

theorem RoundTrip.parkTransferEnd (core : Nat) (launch : Nat) : RoundTrip.Statement (.parkTransferEnd core launch) := by
  intro w h; simp [Instr.encode] at h

theorem RoundTrip.loadComplete (a : Nat) : RoundTrip.Statement (.loadComplete a) := by
  intro w h; simp [Instr.encode] at h

theorem RoundTrip.storePerformed (a : Nat) : RoundTrip.Statement (.storePerformed a) := by
  intro w h; simp [Instr.encode] at h

theorem RoundTrip.prefLineArrival (a : Nat) (victim : Nat) : RoundTrip.Statement (.prefLineArrival a victim) := by
  intro w h; simp [Instr.encode] at h

theorem RoundTrip.tlbWalkFill (core : Nat) (walk : Nat) (victim : Nat) : RoundTrip.Statement (.tlbWalkFill core walk victim) := by
  intro w h; simp [Instr.encode] at h

theorem RoundTrip.asyncFaultTake (m : Nat) : RoundTrip.Statement (.asyncFaultTake m) := by
  intro w h; simp [Instr.encode] at h

theorem RoundTrip.ringRecordWrite : RoundTrip.Statement (.ringRecordWrite) := by
  intro w h; simp [Instr.encode] at h

theorem RoundTrip.actReplay (a : Nat) : RoundTrip.Statement (.actReplay a) := by
  intro w h; simp [Instr.encode] at h

theorem RoundTrip.actDeliver (a : Nat) : RoundTrip.Statement (.actDeliver a) := by
  intro w h; simp [Instr.encode] at h

theorem RoundTrip.actAbandon (a : Nat) : RoundTrip.Statement (.actAbandon a) := by
  intro w h; simp [Instr.encode] at h

theorem RoundTrip.stopactTerminate (a : Nat) : RoundTrip.Statement (.stopactTerminate a) := by
  intro w h; simp [Instr.encode] at h

theorem RoundTrip.stopactResume (a : Nat) : RoundTrip.Statement (.stopactResume a) := by
  intro w h; simp [Instr.encode] at h

theorem RoundTrip.stopactResumeDeliver (a : Nat) : RoundTrip.Statement (.stopactResumeDeliver a) := by
  intro w h; simp [Instr.encode] at h

theorem RoundTrip.contextSwitchOut (launch : Nat) (core : Nat) : RoundTrip.Statement (.contextSwitchOut launch core) := by
  intro w h; simp [Instr.encode] at h

theorem RoundTrip.contextRestore (launch : Nat) (core : Nat) : RoundTrip.Statement (.contextRestore launch core) := by
  intro w h; simp [Instr.encode] at h

theorem RoundTrip.docentOverrunExpiry (core : Nat) : RoundTrip.Statement (.docentOverrunExpiry core) := by
  intro w h; simp [Instr.encode] at h

theorem RoundTrip.watchdogNoProgress (launch : Nat) (core : Nat) (image : Nat) : RoundTrip.Statement (.watchdogNoProgress launch core image) := by
  intro w h; simp [Instr.encode] at h

theorem RoundTrip.watchdogNoRetire (launch : Nat) (core : Nat) (image : Nat) : RoundTrip.Statement (.watchdogNoRetire launch core image) := by
  intro w h; simp [Instr.encode] at h

theorem RoundTrip.notifyRegisterWrite (queue : Nat) (widx : Word) (src : Origin) : RoundTrip.Statement (.notifyRegisterWrite queue widx src) := by
  intro w h; simp [Instr.encode] at h

theorem RoundTrip.packetAccept (queue : Nat) : RoundTrip.Statement (.packetAccept queue) := by
  intro w h; simp [Instr.encode] at h

theorem RoundTrip.launchPlacement (launch : Nat) : RoundTrip.Statement (.launchPlacement launch) := by
  intro w h; simp [Instr.encode] at h

theorem RoundTrip.launchStart (launch : Nat) : RoundTrip.Statement (.launchStart launch) := by
  intro w h; simp [Instr.encode] at h

theorem RoundTrip.dependantFail (launch : Nat) : RoundTrip.Statement (.dependantFail launch) := by
  intro w h; simp [Instr.encode] at h

theorem RoundTrip.markerComplete (launch : Nat) : RoundTrip.Statement (.markerComplete launch) := by
  intro w h; simp [Instr.encode] at h

theorem RoundTrip.launchCompletion (launch : Nat) : RoundTrip.Statement (.launchCompletion launch) := by
  intro w h; simp [Instr.encode] at h

theorem RoundTrip.causalPacketSend (a : Nat) : RoundTrip.Statement (.causalPacketSend a) := by
  intro w h; simp [Instr.encode] at h

theorem RoundTrip.clockPacketArrival (p : Nat) : RoundTrip.Statement (.clockPacketArrival p) := by
  intro w h; simp [Instr.encode] at h

theorem RoundTrip.baseAckArrival (p : Nat) : RoundTrip.Statement (.baseAckArrival p) := by
  intro w h; simp [Instr.encode] at h

theorem RoundTrip.sequencedPacketArrival (p : Nat) : RoundTrip.Statement (.sequencedPacketArrival p) := by
  intro w h; simp [Instr.encode] at h

theorem RoundTrip.readRequestArrival (p : Nat) : RoundTrip.Statement (.readRequestArrival p) := by
  intro w h; simp [Instr.encode] at h

theorem RoundTrip.horizonQueryAnswer (p : Nat) : RoundTrip.Statement (.horizonQueryAnswer p) := by
  intro w h; simp [Instr.encode] at h

theorem RoundTrip.horizonAnswerArrival (p : Nat) : RoundTrip.Statement (.horizonAnswerArrival p) := by
  intro w h; simp [Instr.encode] at h

theorem RoundTrip.nackReceipt (p : Nat) : RoundTrip.Statement (.nackReceipt p) := by
  intro w h; simp [Instr.encode] at h

theorem RoundTrip.nackResend (field : Nat) (dest : Nat) : RoundTrip.Statement (.nackResend field dest) := by
  intro w h; simp [Instr.encode] at h

theorem RoundTrip.beaconArrival (p : Nat) : RoundTrip.Statement (.beaconArrival p) := by
  intro w h; simp [Instr.encode] at h

theorem RoundTrip.beaconAckArrival (p : Nat) : RoundTrip.Statement (.beaconAckArrival p) := by
  intro w h; simp [Instr.encode] at h

theorem RoundTrip.finalHorizonArrival (p : Nat) : RoundTrip.Statement (.finalHorizonArrival p) := by
  intro w h; simp [Instr.encode] at h

theorem RoundTrip.fieldDeath (field : Nat) : RoundTrip.Statement (.fieldDeath field) := by
  intro w h; simp [Instr.encode] at h

theorem RoundTrip.causalReset : RoundTrip.Statement (.causalReset) := by
  intro w h; simp [Instr.encode] at h

theorem RoundTrip.linkAckTimeout (link : Nat) : RoundTrip.Statement (.linkAckTimeout link) := by
  intro w h; simp [Instr.encode] at h

theorem RoundTrip.flitCrcFail (link : Nat) : RoundTrip.Statement (.flitCrcFail link) := by
  intro w h; simp [Instr.encode] at h

theorem RoundTrip.moduleTimeout (module : Nat) : RoundTrip.Statement (.moduleTimeout module) := by
  intro w h; simp [Instr.encode] at h

theorem RoundTrip.podTimeout (module : Nat) : RoundTrip.Statement (.podTimeout module) := by
  intro w h; simp [Instr.encode] at h

theorem RoundTrip.poisonRead (granule : Nat) (reader : Origin) : RoundTrip.Statement (.poisonRead granule reader) := by
  intro w h; simp [Instr.encode] at h

theorem RoundTrip.peerRequestArrival (peer : PeerChannel) (pa : Nat) (req : PeerKind) : RoundTrip.Statement (.peerRequestArrival peer pa req) := by
  intro w h; simp [Instr.encode] at h

theorem RoundTrip.peerAckArrival (a : Nat) (ans : PeerAnswer) : RoundTrip.Statement (.peerAckArrival a ans) := by
  intro w h; simp [Instr.encode] at h

theorem RoundTrip.rangeEntryWrite (a : Nat) : RoundTrip.Statement (.rangeEntryWrite a) := by
  intro w h; simp [Instr.encode] at h

theorem RoundTrip.spanNeighbourRead (span : Nat) (peer : PeerChannel) (idx : Nat) (face : BitVec 3) (gen : Nat) (isStep : Bool) : RoundTrip.Statement (.spanNeighbourRead span peer idx face gen isStep) := by
  intro w h; simp [Instr.encode] at h

theorem RoundTrip.spanStepReport (span : Nat) (idx : Nat) (step : Nat) : RoundTrip.Statement (.spanStepReport span idx step) := by
  intro w h; simp [Instr.encode] at h

theorem RoundTrip.podBarrierCount (span : Nat) (module : Nat) (k : Nat) : RoundTrip.Statement (.podBarrierCount span module k) := by
  intro w h; simp [Instr.encode] at h

theorem RoundTrip.clientRmaWrite (job : Nat) (srcAddr : Nat) (port : Nat) (pa : Nat) (bytes : List Byte) : RoundTrip.Statement (.clientRmaWrite job srcAddr port pa bytes) := by
  intro w h; simp [Instr.encode] at h

theorem RoundTrip.clientRmaRead (job : Nat) (srcAddr : Nat) (port : Nat) (pa : Nat) (size : Nat) : RoundTrip.Statement (.clientRmaRead job srcAddr port pa size) := by
  intro w h; simp [Instr.encode] at h

theorem RoundTrip.reqWrite (a : Nat) : RoundTrip.Statement (.reqWrite a) := by
  intro w h; simp [Instr.encode] at h

theorem RoundTrip.heatWrite (a : Nat) : RoundTrip.Statement (.heatWrite a) := by
  intro w h; simp [Instr.encode] at h

theorem RoundTrip.evenThreshWrite (a : Nat) : RoundTrip.Statement (.evenThreshWrite a) := by
  intro w h; simp [Instr.encode] at h

theorem RoundTrip.flitEnqueue (fibre : Nat) (bundle : Nat) (flit : Nat) : RoundTrip.Statement (.flitEnqueue fibre bundle flit) := by
  intro w h; simp [Instr.encode] at h

theorem RoundTrip.flitStart (fibre : Nat) (bundle : Nat) : RoundTrip.Statement (.flitStart fibre bundle) := by
  intro w h; simp [Instr.encode] at h

theorem RoundTrip.ringLock (fibre : Nat) (bundle : Nat) (wl : Nat) : RoundTrip.Statement (.ringLock fibre bundle wl) := by
  intro w h; simp [Instr.encode] at h

theorem RoundTrip.ringParkEnd (fibre : Nat) (bundle : Nat) (wl : Nat) : RoundTrip.Statement (.ringParkEnd fibre bundle wl) := by
  intro w h; simp [Instr.encode] at h

theorem RoundTrip.ringLockTimeout (fibre : Nat) (bundle : Nat) (wl : Nat) : RoundTrip.Statement (.ringLockTimeout fibre bundle wl) := by
  intro w h; simp [Instr.encode] at h

theorem RoundTrip.heaterRetune (fibre : Nat) (bundle : Nat) (wl : Nat) (heat : BitVec 16) (mon : BitVec 16) : RoundTrip.Statement (.heaterRetune fibre bundle wl heat mon) := by
  intro w h; simp [Instr.encode] at h

theorem RoundTrip.byteBudgetInterval : RoundTrip.Statement (.byteBudgetInterval) := by
  intro w h; simp [Instr.encode] at h

theorem RoundTrip.perfIntervalBoundary : RoundTrip.Statement (.perfIntervalBoundary) := by
  intro w h; simp [Instr.encode] at h

theorem RoundTrip.perfStepSettle (quad : Nat) : RoundTrip.Statement (.perfStepSettle quad) := by
  intro w h; simp [Instr.encode] at h

theorem RoundTrip.evictionGo (src : Origin) (target : Nat) : RoundTrip.Statement (.evictionGo src target) := by
  intro w h; simp [Instr.encode] at h

theorem RoundTrip.evictionAbort (src : Origin) : RoundTrip.Statement (.evictionAbort src) := by
  intro w h; simp [Instr.encode] at h

theorem RoundTrip.lrpWrite (a : Nat) : RoundTrip.Statement (.lrpWrite a) := by
  intro w h; simp [Instr.encode] at h

theorem RoundTrip.evictionQuiesced : RoundTrip.Statement (.evictionQuiesced) := by
  intro w h; simp [Instr.encode] at h

theorem RoundTrip.evictionTransferred : RoundTrip.Statement (.evictionTransferred) := by
  intro w h; simp [Instr.encode] at h

theorem RoundTrip.evictionTimeout : RoundTrip.Statement (.evictionTimeout) := by
  intro w h; simp [Instr.encode] at h

theorem RoundTrip.circuitUp (port : Nat) (module : Nat) : RoundTrip.Statement (.circuitUp port module) := by
  intro w h; simp [Instr.encode] at h

theorem RoundTrip.fieldDrainCommand (a : Nat) : RoundTrip.Statement (.fieldDrainCommand a) := by
  intro w h; simp [Instr.encode] at h

theorem RoundTrip.fieldForcedOffline (a : Nat) : RoundTrip.Statement (.fieldForcedOffline a) := by
  intro w h; simp [Instr.encode] at h

theorem RoundTrip.fieldReturnOnline (a : Nat) : RoundTrip.Statement (.fieldReturnOnline a) := by
  intro w h; simp [Instr.encode] at h

theorem RoundTrip.fieldDrainComplete (field : Nat) (copyBase : Nat) : RoundTrip.Statement (.fieldDrainComplete field copyBase) := by
  intro w h; simp [Instr.encode] at h

theorem RoundTrip.appraiserReplay : RoundTrip.Statement (.appraiserReplay) := by
  intro w h; simp [Instr.encode] at h

theorem RoundTrip.appraiserSuspectClear (a : Nat) : RoundTrip.Statement (.appraiserSuspectClear a) := by
  intro w h; simp [Instr.encode] at h

theorem RoundTrip.checkpointDue (launch : Nat) (core : Nat) : RoundTrip.Statement (.checkpointDue launch core) := by
  intro w h; simp [Instr.encode] at h

theorem RoundTrip.checkpointDuePop (a : Nat) : RoundTrip.Statement (.checkpointDuePop a) := by
  intro w h; simp [Instr.encode] at h

theorem RoundTrip.ioRegisterWrite (a : Nat) : RoundTrip.Statement (.ioRegisterWrite a) := by
  intro w h; simp [Instr.encode] at h

theorem RoundTrip.moduleReset : RoundTrip.Statement (.moduleReset) := by
  intro w h; simp [Instr.encode] at h

theorem RoundTrip.bootImageVerify (image : List Byte) (signature : List Byte) (version : Nat) : RoundTrip.Statement (.bootImageVerify image signature version) := by
  intro w h; simp [Instr.encode] at h

theorem RoundTrip.pldmFirmwareUpdate (image : List Byte) (signature : List Byte) (version : Nat) (store : List (Nat × Byte)) : RoundTrip.Statement (.pldmFirmwareUpdate image signature version store) := by
  intro w h; simp [Instr.encode] at h

theorem RoundTrip.spdmGetCertificate : RoundTrip.Statement (.spdmGetCertificate) := by
  intro w h; simp [Instr.encode] at h

theorem RoundTrip.spdmChallenge (nonce : List Byte) : RoundTrip.Statement (.spdmChallenge nonce) := by
  intro w h; simp [Instr.encode] at h

theorem RoundTrip.spdmGetMeasurements : RoundTrip.Statement (.spdmGetMeasurements) := by
  intro w h; simp [Instr.encode] at h

theorem RoundTrip.gangSwapEnd (core : Nat) : RoundTrip.Statement (.gangSwapEnd core) := by
  intro w h; simp [Instr.encode] at h

theorem RoundTrip.migrationResume (m : Nat) : RoundTrip.Statement (.migrationResume m) := by
  intro w h; simp [Instr.encode] at h

theorem RoundTrip.heldFetchServiced (core : Nat) (launch : Nat) (h : Nat) : RoundTrip.Statement (.heldFetchServiced core launch h) := by
  intro w h; simp [Instr.encode] at h

theorem RoundTrip.processorPageServiced (queue : Nat) : RoundTrip.Statement (.processorPageServiced queue) := by
  intro w h; simp [Instr.encode] at h

theorem RoundTrip.queueRestart (queue : Nat) : RoundTrip.Statement (.queueRestart queue) := by
  intro w h; simp [Instr.encode] at h

theorem RoundTrip.serviceChannelMessage (module : Nat) (kind : Nat) (value : Nat) : RoundTrip.Statement (.serviceChannelMessage module kind value) := by
  intro w h; simp [Instr.encode] at h

theorem RoundTrip.flitCreditReturn (port : Nat) (channel : Nat) (count : Nat) : RoundTrip.Statement (.flitCreditReturn port channel count) := by
  intro w h; simp [Instr.encode] at h

theorem RoundTrip.restripeMarkerArrival (fibre : Nat) (bundle : Nat) : RoundTrip.Statement (.restripeMarkerArrival fibre bundle) := by
  intro w h; simp [Instr.encode] at h

theorem RoundTrip.latchOpen : RoundTrip.Statement (.latchOpen) := by
  intro w h; simp [Instr.encode] at h

theorem RoundTrip.linkReadmit (member : Nat) : RoundTrip.Statement (.linkReadmit member) := by
  intro w h; simp [Instr.encode] at h

end Sys2Proof.Laws
end

