-- ==== Sys2Proof/Safety.lean ====
section
/-!
DEFINITION. The terms in which the statements speak: a well-kept memory, the member that issues, what an instruction writes and
what it leaves as it was.
-/
namespace Sys2Proof.Safety
open Sys2Proof.Machine

/-- Memory is in its canonical form: addresses rising, no byte that an unlisted address reads as. -/
abbrev MemOk (s : State) : Prop := s.mem.wf = true

/-- A step goes on: it answers a next state. -/
def Completes (s : State) : Prop := ∃ t, step s = .next t

/-- Every byte of memory reads in `t` as it read in `s`. -/
def SameMemory (s t : State) : Prop := ∀ a, memRead t.mem a = memRead s.mem a

/-- A byte of an entry of the archive log that stands in `t`: the log lies in memory, and accesses to lines of archived contexts write it
(R303 to R305). -/
def InArchive (s t : State) (x : Nat) : Prop :=
  ∃ e ∈ t.mod.archive, ∃ i, i < 288 ∧ x = physOf s (archAddr s e.field e.pos + i)

/-- Every byte but those of the archive log reads in `t` as it read in `s`; without an entry in the log, every byte. -/
def SameButArchive (s t : State) : Prop := ∀ x, ¬ InArchive s t x → memRead t.mem x = memRead s.mem x

/-- Every byte outside the `n` bytes from `a`, and outside the archive log, reads in `t` as it read in `s`. -/
def SameOutside (s t : State) (a n : Nat) : Prop :=
  ∀ x, ¬ (a ≤ x ∧ x < a + n) → ¬ InArchive s t x → memRead t.mem x = memRead s.mem x

/-- The member `m` issues, at the position `k`. -/
structure Issuing (s : State) (k : Cur) (m : Member) : Prop where
  cur : s.sched.cur = some k
  member : memberAt s k.member = some m

/-- The guard of an instruction holds for a member (R55). -/
abbrev Runs (m : Member) (c : Common) : Prop := m.r.getP c.guard ≠ c.sense

/-- The guard evaluates false: the instruction is guarded off (R55). -/
abbrev Off (m : Member) (c : Common) : Prop := m.r.getP c.guard = c.sense

/-- From `s` to `t` one member alone changes, and it becomes `m'`: memory, every core, queue, launch and context, every other
member and every special register stay. -/
structure OnlyMember (s t : State) (id : Nat) (m' : Member) : Prop where
  rest : t = { s with members := t.members }
  member : memberAt t id = some m'
  others : ∀ n, n ≠ id → memberAt t n = memberAt s n
  memory : SameMemory s t

/-- Registers after a result of the arithmetic groups has been written to a destination (R36, R67): a word, a pair with the low word
in the even register, a face, the low bit in a predicate; p7 discards it. -/
def afterResult (r : Regs) (d : Dst) (wide : Bool) (v : Word64) : Regs :=
  match d with
  | .g n => if wide then (r.setG n (lo32 v)).setG (n + 1) (v.extractLsb' 32 32) else r.setG n (lo32 v)
  | .face f => r.setF f (lo32 v)
  | .pred p => if p = 7 then r else r.setP p (v.getLsbD 0)
  | .none => r

/-- A result: the latch of the slot takes it whole; the destination takes it unless K is set; every other register, face, predicate
and latch, and all the rest of the member and of the machine, stay. Only a write of g63 may add to the frame join that the member
takes at its next boundary (R56, R60, R67, R143). -/
def Writes (s t : State) (k : Cur) (m : Member) (kOnly : Bool) (d : Dst) (wide : Bool) (v : Word64)
    (also : Regs → Regs := id) : Prop :=
  ∃ m' : Member, OnlyMember s t k.member m' ∧
    m' = { m with r := m'.r, lat := m'.lat, joinTails := m'.joinTails } ∧
    m'.r = also (if kOnly then m.r else afterResult m.r d wide v) ∧
    m'.lat = m.lat.set (k.slot % 4) v (Nat.mod_lt _ (by decide)) ∧
    ((kOnly = true ∨ (∀ n, d = .g n → n ≠ 63 ∧ (wide = true → n + 1 ≠ 63))) → m'.joinTails = m.joinTails)

/-- An instruction of the arithmetic groups with destination `d` and operands `ops`: a check that fails traps with its cause; guarded
off, the latch takes the destination's old value and nothing else changes; a neighbour read that cannot be served takes the
member out of its group; otherwise the instruction completes, with the result `f`, and with `also` done to the registers behind
the destination's write. -/
def ValueFormAlso (mk : Common → Instr) (d : Dst) (wide : Bool) (ops : List (Ty × Src))
    (f : State → Member → List Word64 → Word64) (also : Bool → Member → List Word64 → Regs → Regs) : Prop :=
  ∀ (s : State) (k : Cur) (m : Member) (c : Common), Issuing s k m →
    (∀ x, formFault m d wide ops = some x → exec (mk c) s = .next (trap s k x (if x = 0x01 then k.slot else 0))) ∧
    (formFault m d wide ops = none →
      (Off m c → ∃ t, exec (mk c) s = .next t ∧ Writes s t k m true d wide (dstValue m wide d)) ∧
      (Runs m c →
        (∀ vs, readAll s m ops [] = .inr vs →
          ∃ t, exec (mk c) s = .next t ∧ Writes s t k m c.k d wide (f s m vs) (also c.k m vs)) ∧
        (∀ e g tg a, readAll s m ops [] = .inl (.away e g tg a) → exec (mk c) s = .next (leaveForNbr s k m e g tg a))))

/-- An instruction of the arithmetic groups whose only results are its destination and its latch. -/
def ValueForm (mk : Common → Instr) (d : Dst) (wide : Bool) (ops : List (Ty × Src))
    (f : State → Member → List Word64 → Word64) : Prop :=
  ValueFormAlso mk d wide ops f fun _ _ _ r => r

/-- Results of one, two and three operands. -/
def of1 (f : Word64 → Word64) (_ : State) (_ : Member) : List Word64 → Word64
  | [a] => f a
  | _ => 0
def of2 (f : Word64 → Word64 → Word64) (_ : State) (_ : Member) : List Word64 → Word64
  | [a, b] => f a b
  | _ => 0
def of3 (f : Word64 → Word64 → Word64 → Word64) (_ : State) (_ : Member) : List Word64 → Word64
  | [a, b, c] => f a b c
  | _ => 0

/-- Results of 32-bit operands, as words. -/
def words1 (f : Word → Word) : State → Member → List Word64 → Word64 := of1 fun a => ext (f (lo32 a))
def words2 (f : Word → Word → Word) : State → Member → List Word64 → Word64 := of2 fun a b => ext (f (lo32 a) (lo32 b))
def words3 (f : Word → Word → Word → Word) : State → Member → List Word64 → Word64 :=
  of3 fun a b c => ext (f (lo32 a) (lo32 b) (lo32 c))

/-- An integer operand read as S says: signed or not, at a width (R129). -/
def read32 (sg : Bool) (a : Word) : Int := if sg then a.toInt else a.toNat
def read64 (sg : Bool) (a : Word64) : Int := if sg then a.toInt else a.toNat

/-- The clamp of an exact integer to 32 or 64 bits (R36). -/
def clamp32 (sg : Bool) (x : Int) : Word :=
  BitVec.ofInt 32 (if sg then max (-2 ^ 31) (min (2 ^ 31 - 1) x) else max 0 (min (2 ^ 32 - 1) x))
def clamp64 (sg : Bool) (x : Int) : Word64 :=
  BitVec.ofInt 64 (if sg then max (-2 ^ 63) (min (2 ^ 63 - 1) x) else max 0 (min (2 ^ 64 - 1) x))

/-- Byte `i` of a word, read with a sign or not. -/
def byteAs (sg : Bool) (a : Word) (i : Nat) : Int :=
  if sg then (a.extractLsb' (8 * i) 8).toInt else (a.extractLsb' (8 * i) 8).toNat

/-- The sum of four terms. -/
def sum4 (f : Nat → Int) : Int := f 0 + f 1 + f 2 + f 3

/-- A field descriptor (R131): position in bits 7 to 0, length in bits 15 to 8, clipped to the word; `none` where it selects no bit. -/
def fieldSpec (desc : Word) (none_ : Word) (f : Nat → Nat → Word) : Word :=
  let pos := (desc.extractLsb' 0 8).toNat
  let len := (desc.extractLsb' 8 8).toNat
  if pos ≥ 32 ∨ len = 0 then none_ else f pos (min len (32 - pos))

/-- Byte `i` of PERM (R131): the nibble of the selector names a byte of b:a; its bit 3 asks for that byte's sign. -/
def permByteSpec (a b sel : Word) (i : Nat) : Byte :=
  let n := sel.extractLsb' (4 * i) 4
  let v := (b ++ a).extractLsb' (8 * (n.toNat % 8)) 8
  if n.getLsbD 3 then (if v.msb then 255 else 0) else v

/-- A condition code on two exact integers (R133). -/
def condSpec (cc : Cond) (x y : Int) : Bool :=
  match cc with
  | .eq => x = y
  | .ne => x ≠ y
  | .lt => x < y
  | .le => x ≤ y
  | .gt => y < x
  | .ge => y ≤ x

/-- 1 for true and 0 for false. -/
def bitWord (b : Bool) : Word64 := if b then 1 else 0

/-! ## Instructions that are no producers, and steps of the machine -/

/-- From `s` to `t` one core alone changes, and it becomes `u`. -/
structure OnlyCore (s t : State) (g : Nat) (u : CoreUnit) : Prop where
  rest : t = { s with cores := t.cores }
  core : coreAt t g = u
  others : ∀ h, h ≠ g → coreAt t h = coreAt s h

/-- From `s` to `t` one field's registers alone change, and they become `u`. -/
structure OnlyField (s t : State) (f : Nat) (u : FieldUnit) : Prop where
  rest : t = { s with fields := t.fields }
  field : fieldAt t f = u
  others : ∀ h, h ≠ f → fieldAt t h = fieldAt s h

/-- From `s` to `t` the module's registers alone change, and they become `u`. -/
def OnlyMod (s t : State) (u : ModuleUnit) : Prop := t = { s with mod := u }

/-- From `s` to `t` the context of a launch on a core alone changes, as `f` says; one that is not listed stays so. -/
structure OnlyCtx (s t : State) (launch core : Nat) (f : Ctx → Ctx) : Prop where
  rest : t = { s with ctxs := t.ctxs }
  ctx : ctxAt t launch core = (ctxAt s launch core).map f
  others : ∀ n, n ≠ ctxKey launch core → tabGet t.ctxs n = tabGet s.ctxs n

/-- The member leaves its group at its slot with a wait (R117): nothing else of it changes, and its core's group goes on without it. -/
structure Leaves (s t : State) (k : Cur) (m : Member) (w : Wait) : Prop where
  rest : t = { s with members := t.members, cores := t.cores }
  member : memberAt t k.member =
    some { m with slot := k.slot, wait := w, next := none, readySince := (coreAt s m.core).cyc }
  others : ∀ n, n ≠ k.member → memberAt t n = memberAt s n
  core : coreAt t m.core = dropFromGroup k.member (coreAt s m.core)
  cores : ∀ h, h ≠ m.core → coreAt t h = coreAt s h

/-- An instruction that is no producer, whose check may ask whether it is guarded off: a check that fails traps with its cause; guarded
off nothing changes (R55); a neighbour read that cannot be served takes the member out of its group; otherwise the instruction
completes in a state of which `P` holds. -/
def ActFormOff (mk : Common → Instr) (check : State → Member → Common → Option Nat) (ops : List (Ty × Src))
    (P : State → Cur → Member → List Word64 → State → Prop) : Prop :=
  ∀ (s : State) (k : Cur) (m : Member) (c : Common), Issuing s k m →
    (∀ x, check s m c = some x → exec (mk c) s = .next (trap s k x (if x = 0x01 then k.slot else 0))) ∧
    (check s m c = none →
      (Off m c → exec (mk c) s = .next s) ∧
      (Runs m c →
        (∀ vs, readAll s m ops [] = .inr vs → ∃ t, exec (mk c) s = .next t ∧ P s k m vs t) ∧
        (∀ e g tg a, readAll s m ops [] = .inl (.away e g tg a) → exec (mk c) s = .next (leaveForNbr s k m e g tg a))))

/-- An instruction that is no producer, whose check does not ask for the guard. -/
def ActForm (mk : Common → Instr) (check : State → Member → Option Nat) (ops : List (Ty × Src))
    (P : State → Cur → Member → List Word64 → State → Prop) : Prop :=
  ActFormOff mk (fun s m _ => check s m) ops P

/-- What a producer outside the arithmetic groups does: as `ActFormOff`, but guarded off its latch takes the destination's old value
(R60). -/
def ProducerFormOff (mk : Common → Instr) (check : State → Member → Common → Option Nat) (d : Dst) (wide : Bool) (ops : List (Ty × Src))
    (P : State → Cur → Member → Common → List Word64 → State → Prop) : Prop :=
  ∀ (s : State) (k : Cur) (m : Member) (c : Common), Issuing s k m →
    (∀ x, check s m c = some x → exec (mk c) s = .next (trap s k x (if x = 0x01 then k.slot else 0))) ∧
    (check s m c = none →
      (Off m c → ∃ t, exec (mk c) s = .next t ∧ Writes s t k m true d wide (dstValue m wide d)) ∧
      (Runs m c →
        (∀ vs, readAll s m ops [] = .inr vs → ∃ t, exec (mk c) s = .next t ∧ P s k m c vs t) ∧
        (∀ e g tg a, readAll s m ops [] = .inl (.away e g tg a) → exec (mk c) s = .next (leaveForNbr s k m e g tg a))))

/-- A producer outside the arithmetic groups whose check does not ask for the guard. -/
def ProducerForm (mk : Common → Instr) (check : State → Member → Option Nat) (d : Dst) (wide : Bool) (ops : List (Ty × Src))
    (P : State → Cur → Member → Common → List Word64 → State → Prop) : Prop :=
  ProducerFormOff mk (fun s m _ => check s m) d wide ops P

/-- Effects of no operand, of one and of two. -/
def arg0 (P : State → Cur → Member → State → Prop) (s : State) (k : Cur) (m : Member) : List Word64 → State → Prop
  | [], t => P s k m t
  | _, _ => False
def arg1 (P : State → Cur → Member → Word64 → State → Prop) (s : State) (k : Cur) (m : Member) : List Word64 → State → Prop
  | [x], t => P s k m x t
  | _, _ => False
def arg2 (P : State → Cur → Member → Word64 → Word64 → State → Prop) (s : State) (k : Cur) (m : Member) :
    List Word64 → State → Prop
  | [x, y], t => P s k m x y t
  | _, _ => False

/-- A step of the machine that finds nothing to do changes nothing. -/
def Idle (i : Instr) (s : State) : Prop := exec i s = .next s

/-- The departure of a member has nothing to release (R89, R90): no earlier access, no open fence, and no sequence that its field has
observed (log 67). -/
def NothingToRelease (s : State) (id : Nat) (m : Member) : Prop :=
  m.fences = [] ∧ fenceSet s id .pod = [] ∧ releaseNeed s m .pod = []

/-- What the departure or end of a member leaves (R23, R28, R94, R138): it does nothing more; a grid cell has departed, and counts as
having triggered where it had triggered before or has nothing to release (R89, R90); a task cell has freed its slot, a curator keeps
its own; registers, published faces and memory stay, and so does every other member. -/
structure Left (s t : State) (id : Nat) (m : Member) : Prop where
  memory : SameMemory s t
  others : ∀ n, n ≠ id → memberAt t n = memberAt s n
  member : ∃ v, memberAt t id = some v ∧ v.wait = .inactive ∧ v.kind = m.kind ∧ v.r = m.r ∧ v.pub0 = m.pub0 ∧
    v.pub1 = m.pub1 ∧ v.done = m.done ∧ v.place = (if m.kind = .curator then m.place else .gone) ∧
    (m.kind = .grid → v.departed = true ∧ (m.triggered = true ∨ NothingToRelease s id m → v.triggered = true))

/-- What the end of a tail leaves (R141): its slot is free, and only its releaser may have been waiting for it. -/
structure TailEnded (s t : State) (id : Nat) (m : Member) : Prop where
  memory : SameMemory s t
  others : ∀ n, n ≠ id → m.releaser ≠ some n → memberAt t n = memberAt s n
  member : ∃ v, memberAt t id = some v ∧ v.wait = .inactive ∧ v.place = .gone ∧ v.r = m.r

/-- An access to the CELL space of a member that the checks let pass, in one run of memory (R164, R172, R313). -/
def CellAllows (s : State) (m : Member) (off size : Nat) (r w : Bool) : Prop :=
  ∃ c, ctxAt s m.launch m.core = some c ∧ Desc.v c.desc[0] = true ∧ off + size ≤ Desc.limit c.desc[0] ∧
    (r = true → Desc.r c.desc[0] = true) ∧ (w = true → Desc.w c.desc[0] = true) ∧ holdsMemory s (cellPa s m off) = true ∧
    oneRun s (cellPa s m off) size = true

/-- A little-endian number of `n` bytes from a physical byte on. -/
def memNat (s : State) (p n : Nat) : Nat := natOfBytes (memReadN s.mem p n)

/-- What the release of a RELCALL leaves where a tail slot is free (R139): a new tail behind the RELCALL with g63 lowered by 272, and the
caller at the word index that its operand named, with g63 at the frame top. -/
structure ReleasedToTail (s t : State) (id : Nat) (m : Member) (ret top : Word) : Prop where
  memory : SameMemory s t
  tail : ∃ v n, memberAt t s.sched.nextId = some v ∧ v.kind = .tail ∧ v.place = .tailSlot n ∧ v.core = m.core ∧
    v.launch = m.launch ∧ v.releaser = some id ∧ v.holdTop = top ∧ v.pc = (m.pc + m.count + 2) % 2 ^ 57 ∧ v.slot = 0 ∧
    v.r = m.r.setG 63 (m.r.getG 63 - 272) ∧ v.wait = .ready
  caller : ∃ v, memberAt t id = some v ∧ v.r = m.r.setG 63 top ∧ v.pc = ret.toNat ∧ v.slot = 0 ∧ v.rd = m.rd ∧ v.rp = m.rp

/-- What the release of a RELCALL leaves in the degenerate form (R139, R140): a resume record of 272 bytes in the member's own space, and
the member behind the RELCALL in released mode. -/
structure ReleasedInPlace (s t : State) (id : Nat) (m : Member) (ret top : Word) : Prop where
  record : memReadN t.mem (physOf s (cellPa s m (m.r.getG 63 - 272).toNat)) 272 =
    (m.r.setG 63 top).g.toList.flatMap (fun w => bytesOf 4 w.toNat) ++ [m.r.p.zeroExtend 8, 0, 0, 0] ++ bytesOf 4 ret.toNat ++
      bytesOf 4 m.rp.toNat ++ [0, 0, 0, 0]
  memory : SameOutside s t (physOf s (cellPa s m (m.r.getG 63 - 272).toNat)) 272
  member : ∃ v, memberAt t id = some v ∧ v.r = m.r.setG 63 (m.r.getG 63 - 272) ∧ v.rp = m.r.getG 63 - 272 ∧ v.rd = m.rd + 1 ∧
    v.pc = (m.pc + m.count + 2) % 2 ^ 57 ∧ v.slot = 0

/-- The release of a member that has drained (R139): to a tail, or in place. -/
def Released (s t : State) (id : Nat) (m : Member) (ret top : Word) : Prop :=
  let toTail := (m.kind = .grid ∨ m.kind = .task) ∧ m.rd = 0 ∧ freeTailSlots s m.core ≠ []
  (toTail → memberAt s s.sched.nextId = none → ReleasedToTail s t id m ret top) ∧
  (¬ toTail → CellAllows s m (m.r.getG 63 - 272).toNat 272 false true → ReleasedInPlace s t id m ret top)

/-- The return of a degenerate release (R141): registers, predicates, RP and the position come from the resume record. -/
structure Resumed (s t : State) (id : Nat) (m : Member) (p : Nat) : Prop where
  memory : SameMemory s t
  others : ∀ n, n ≠ id → memberAt t n = memberAt s n
  member : ∃ v, memberAt t id = some v ∧ v.rd = m.rd - 1 ∧ v.rp = BitVec.ofNat 32 (memNat s (p + 264) 4) ∧
    v.pc = memNat s (p + 260) 4 ∧ v.slot = 0 ∧ v.r.p = BitVec.ofNat 7 (memNat s (p + 256) 1) ∧
    (∀ i : BitVec 6, v.r.getG i = BitVec.ofNat 32 (memNat s (p + 4 * i.toNat) 4)) ∧ v.r.f = m.r.f

/-! ## Slots, results and steps -/

/-- A member that left its group at a slot stands behind it (R104, R117): at the next slot, or at the clause's end. -/
def PassedSlot (m v : Member) : Prop :=
  (m.slot < m.count → v.pc = m.pc ∧ v.slot = m.slot + 1 ∧ v.wait = .ready) ∧
  (m.count ≤ m.slot → v.pc = m.next.getD ((m.pc + m.count + 2) % 2 ^ 57) ∧ v.slot = 0 ∧ v.cameFrom = some m.pc)

/-- A result at its destination and in the latch of a slot (R56, R60, R67). -/
def Wrote (m v : Member) (slot : Nat) (kOnly : Bool) (d : Dst) (wide : Bool) (x : Word64) : Prop :=
  v.r = (if kOnly then m.r else afterResult m.r d wide x) ∧ v.lat = m.lat.set (slot % 4) x (Nat.mod_lt _ (by decide))

/-- STEP may commit (R19, R146): every neighbour has completed the step before or has departed, and no access of the cell is still to
load a face. -/
def StepDue (s : State) (id : Nat) (m : Member) : Prop :=
  ∀ l, launchAt s m.launch = some l →
    (∀ n ∈ nbrSet l m,
      match cellAt s m.launch n with
      | some (_, d) => d.departed = true ∨ m.done ≤ d.done
      | none => m.done ≤ remoteDone l n) ∧
    ∀ e ∈ s.accs, e.2.member = id → ∀ f, e.2.dest = .face f → e.2.kind.reads = false

/-- The commit of a step (R19): the cell has completed one step more; a face in the mask publishes its working copy, every other face
carries its value on, and the faces of the step before stay readable. -/
structure Committed (s t : State) (id : Nat) (m : Member) (mask : BitVec 8) : Prop where
  memory : SameButArchive s t
  others : ∀ n, n ≠ id → memberAt t n = memberAt s n
  member : ∃ v, memberAt t id = some v ∧ v.done = m.done + 1 ∧ v.r = m.r ∧
    (∀ f : BitVec 3, pubAt v (m.done + 1) f = if mask.getLsbD f.toNat then m.r.getF f else pubAt m m.done f) ∧
    (∀ f : BitVec 3, pubAt v m.done f = pubAt m m.done f)

/-! ## Accesses -/

/-- The keys of a table rise: each names one entry. -/
abbrev Keyed {α : Type} (t : Tab α) : Prop := (t.map (·.1)).Pairwise (· < ·)

/-- A run of bytes that memory serves in order, no doorbell among them (R78, R167, R313). -/
def InMemory (s : State) (pa n : Nat) : Prop :=
  ∀ i, i < n → physOf s (pa + i) = physOf s pa + i ∧ ∀ q, regionOf (pa + i) ≠ .doorbell q

/-- An access enters (R185): it is outstanding, its token counts it, and nothing else of the member's registers, of the other members
or of memory changes. -/
def Enters (s t : State) (k : Cur) (m : Member) (tok : Nat) (want : Nat → Member → Access → Prop) : Prop :=
  SameMemory s t ∧ (∀ n, n ≠ k.member → memberAt t n = memberAt s n) ∧
  ∃ id a v, tabGet t.accs id = some a ∧ (∀ n, n ≠ id → tabGet t.accs n = tabGet s.accs n) ∧
    a.member = k.member ∧ a.launch = m.launch ∧ a.core = m.core ∧ a.tok = tok ∧ a.slot = k.slot ∧
    memberAt t k.member = some v ∧ v.r = m.r ∧ v.lat = m.lat ∧ v.seq = m.seq + 1 ∧ tokCount v tok = tokCount m tok + 1 ∧
    (∀ n, n < 6 → n ≠ tok → tokCount v n = tokCount m n) ∧ want id v a

/-- An access that a fault keeps (R181, R275): it has the lowest free entry of its core's operand log, with the address and the cause
`cause`, Sernus gets a record with `recCause` and `detail`, and the token counts it. -/
def LoggedAs (s t : State) (k : Cur) (m : Member) (tok cause recCause detail : Nat) (addr : Word64) : Prop :=
  Enters s t k m tok (fun id _ a => a.phase = .logged ∧ a.heldCause = cause ∧ a.addr = addr ∧
    ∃ e, (coreAt t m.core).log = tabPut (coreAt s m.core).log (firstFree (coreAt s m.core).log 64 0) e ∧ e.acc = id ∧
      e.member = k.member ∧ e.addr = addr ∧ e.cause = cause ∧ e.waiting = true) ∧
  ∃ r, t.mod.recBuf = s.mod.recBuf ++ [r] ∧ r.cause = recCause ∧ r.detail = BitVec.ofNat 32 detail ∧ r.addr = addr ∧ r.word = k.word

/-- An access that a held fault keeps (R181). -/
def Logged (s t : State) (k : Cur) (m : Member) (tok cause : Nat) (addr : Word64) : Prop :=
  LoggedAs s t k m tok cause (cause + 0x0F) cause addr

/-- What comes of a delivered fault of an access at issue (R272, R275), `u` being the state once the check has been made: outside trap mode
a cause that ROUTE names, or any cause of a context without a trap entry, enters the operand log as 0x80 + cause, and the member goes
on; any other is taken as a trap. -/
structure CheckFails (s u : State) (k : Cur) (m : Member) (tok cause detail : Nat) (addr : Word64)
    (out : Host.Outcome State Fault Refusal) : Prop where
  taken : m.trapMode = true ∨ isRouted s m cause = false → out = .next (trap u k cause detail addr)
  routed : m.trapMode = false → isRouted s m cause = true → tokCount m tok < 255 → firstFree (coreAt s m.core).log 64 0 < 64 →
    ∃ t, out = .next t ∧ LoggedAs s t k m tok (0x80 + cause) 0x26 cause addr

/-- An instruction on an element outside a view that reads as zero makes no access (R171): its registers are as `regs` says, no token
counts it, and memory and the other members stay. -/
def NoAccess (s t : State) (k : Cur) (m : Member) (regs : Regs → Regs) : Prop :=
  SameMemory s t ∧ t.accs = s.accs ∧ (∀ n, n ≠ k.member → memberAt t n = memberAt s n) ∧
  ∃ v, memberAt t k.member = some v ∧ v.r = regs m.r ∧ v.tok = m.tok ∧ v.wait = m.wait

/-- What the translation of an address leads to at issue (R172, R173, R181, R275): a held fault enters the operand log, a failed check is
refused, and a place is the access's. -/
structure Resolves (s : State) (k : Cur) (m : Member) (ctx : Ctx) (tok : Nat) (need : Need) (addr : Word64) (size : Nat)
    (out : Host.Outcome State Fault Refusal) (enters : Resolved → State → Prop) : Prop where
  bad : ∀ cause detail, (resolve s ctx m.core m.home false need addr size).1 = .bad cause detail →
    CheckFails s (resolve s ctx m.core m.home false need addr size).2 k m tok cause detail addr out
  held : ∀ cause, (resolve s ctx m.core m.home false need addr size).1 = .held cause → tokCount m tok < 255 →
    firstFree (coreAt s m.core).log 64 0 < 64 → ∃ t, out = .next t ∧ Logged s t k m tok cause addr
  found : ∀ r, (resolve s ctx m.core m.home false need addr size).1 = .ok r → tokCount m tok < 255 → heldCount s k.member m < 8 →
    ∃ t, out = .next t ∧ enters r t

/-- What an access carries when it enters, beside what `Enters` says. -/
structure Aimed (o : MemOp) (addr : Word64) (r : Resolved) (f : Fmt) (size : Nat) (kind : AccKind) (a : Access) : Prop where
  kind : a.kind = kind
  addr : a.addr = addr
  tgt : a.tgt = r.tgt
  attr : a.attr = r.attr
  fmt : a.fmt = f
  size : a.size = size
  phase : a.phase = .issued
  acq : a.acq = (o.order == .acq || o.order == .ar)
  rel : a.rel = (o.order == .rel || o.order == .ar)
  scope : a.scope = o.scope

/-- An access to an element of a view (R55, R171, R172, R181, R185, R275): guarded off it makes no access; a check at issue that fails is
refused; a view that is invalid or has a format that the instruction does not take raises ViewBounds; an element outside a view that
reads as zero gives the registers `zeros`; an address that is not aligned raises Misaligned; and an aligned one is translated. -/
def ViewAccess (mk : Common → Instr) (o : MemOp) (disp : Int) (kind : AccKind) (check : Member → ViewBits → Option Nat)
    (accepts : Fmt → Bool) (need : Need) (span : Nat → Nat × Nat) (want : Cur → Member → Fmt → Nat → Member → Access → Prop)
    (zeros : Fmt → Regs → Regs) : Prop :=
  ∀ (s : State) (k : Cur) (m : Member) (c : Common), Issuing s k m →
    let v := viewAt s m.core o.view.toNat
    let tok := o.tok.toNat
    let first := match srcFault m .w32 o.off with | some x => some x | none => check m v
    (∀ x, first = some x → CheckFails s s k m tok x (if x = 0x01 then k.slot else 0) 0 (exec (mk c) s)) ∧
    (first = none → Off m c → exec (mk c) s = .next s) ∧
    (first = none → Runs m c → ∀ x, readSrc s m .w32 o.off = .val x →
      ((∀ f, View.valid v = true → fmtOfCode (View.fmt v) = some f → accepts f = false) →
        CheckFails s s k m tok 0x04 0 0 (exec (mk c) s)) ∧
      (∀ f, View.valid v = true → fmtOfCode (View.fmt v) = some f → accepts f = true →
        let size := (span (fmtSize f)).1
        let e := elementAddress v (fmtSize f) ((lo32 x).toInt + disp)
        (e = .outside → ∃ t, exec (mk c) s = .next t ∧ NoAccess s t k m (zeros f)) ∧
        (∀ cause detail, e = .bad cause detail → CheckFails s s k m tok cause detail 0 (exec (mk c) s)) ∧
        (∀ addr, e = .addr addr →
          (addr.toNat % (span (fmtSize f)).2 ≠ 0 → CheckFails s s k m tok 0x05 0 addr (exec (mk c) s)) ∧
          (addr.toNat % (span (fmtSize f)).2 = 0 → ∀ ctx, ctxAt s m.launch m.core = some ctx →
            Resolves s k m ctx tok need addr size (exec (mk c) s) fun r t =>
              Enters s t k m tok (fun id v a => Aimed o addr r f size kind a ∧ want k m f id v a)))))

/-- An access has completed (R185): it is outstanding no more, its token counts one less, and the registers are as `regs` says. -/
def Completed (s t : State) (id : Nat) (a : Access) (regs : Regs → Regs) : Prop :=
  (Keyed s.accs → tabGet t.accs id = none) ∧
  ∀ m, memberAt s a.member = some m → m.fences = [] → m.wait ≠ .drain .eret →
    ∃ v, memberAt t a.member = some v ∧ v.r = regs m.r ∧ tokCount v a.tok = tokCount m a.tok - 1

/-- An access that reads has completed, with the value that it has read; one that reads CELL space below a frame that waits to be
reclaimed has completed with data that the manual leaves open, which change its destination alone (R143; log 6). -/
def CompletedRead (s t : State) (id : Nat) (a : Access) (regs : Regs → Regs) : Prop :=
  (a.belowFrame = false → Completed s t id a regs) ∧
  (a.belowFrame = true → ∃ f : Regs → Regs, Completed s t id a f ∧ ∀ r,
    (∀ b, a.dest = .g b → (f r).f = r.f ∧ (f r).p = r.p ∧ ∀ n, 4 ≤ (n - b).toNat → (f r).getG n = r.getG n) ∧
    (∀ x, a.dest = .face x → (f r).g = r.g ∧ (f r).p = r.p ∧ ∀ y, y ≠ x → (f r).getF y = r.getF y))

/-- The values of an operation that has ended at the home `home` go back: where no stamp has to travel it completes, and otherwise its
response
is on its way (R195, R239). -/
def GoesBack (s t : State) (id : Nat) (a : Access) (home : Option Nat) (v v2 : Word64) (regs : Regs → Regs) : Prop :=
  (a.stamp = [] ∨ home = some a.field → CompletedRead s t id a regs) ∧
  (a.stamp ≠ [] → home ≠ some a.field → ∃ b, tabGet t.accs id = some b ∧ b.phase = .returning ∧ b.value = v ∧ b.value2 = v2)

/-- None of `n` bytes from `p` is a byte of the archive log. -/
def NotArchived (s t : State) (p n : Nat) : Prop := ∀ x, p ≤ x → x < p + n → ¬ InArchive s t x

/-- The new value of an element under an atomic function (R193). -/
def atomSpec (fn : AtomFn) (f : Fmt) (old v : Nat) : Nat :=
  let w := 8 * fmtSize f
  let num := fun x : Nat => if f = .i32 ∨ f = .i64 then (BitVec.ofNat w x).toInt else (x : Int)
  match fn with
  | .add => (old + v) % 2 ^ w
  | .and => old &&& v
  | .or => old ||| v
  | .xor => old ^^^ v
  | .min => if num old ≤ num v then old else v
  | .max => if num old ≤ num v then v else old
  | .xchg => v
  | .fadd => FFmt.fp32.fadd .rne false old v
  | .fmin => FFmt.fp32.fminmax false false old v
  | .fmax => FFmt.fp32.fminmax true false old v

/-! ## Engines -/

/-- The commands that a core's engines hold. -/
def cmdsOf (s : State) (core : Nat) : Tab Cmd := (coreAt s core).eng.cmds

/-- A command is accepted (R207 to R209, R221): it takes its place in engine order with what was captured, a plane command claims the
array, its token counts it, and nothing else of the members or of memory changes. -/
def Accepted (s t : State) (k : Cur) (m : Member) (x : Cmd) : Prop :=
  SameMemory s t ∧ (∀ n, n ≠ k.member → memberAt t n = memberAt s n) ∧
  (∃ id y, cmdsOf t m.core = tabPut (cmdsOf s m.core) id y ∧ y.order = (coreAt s m.core).eng.nextOrder ∧
    y = { x.withFootprint with order := y.order, after := y.after, need := y.need, before := y.before, seq := m.seq }) ∧
  (coreAt t m.core).eng.nextOrder = (coreAt s m.core).eng.nextOrder + 2 ∧
  (coreAt t m.core).eng.owner =
    (if x.kind.usesPlanes then some ((coreAt s m.core).eng.owner.getD m.launch) else (coreAt s m.core).eng.owner) ∧
  ∃ v, memberAt t k.member = some v ∧ v.r = m.r ∧ v.lat = m.lat ∧
    (x.tok < 6 → tokCount v x.tok = tokCount m x.tok + 1) ∧ (6 ≤ x.tok → v = m)

/-- A command of group 0xB (R55, R207, R209, R211): guarded off it has no effect; its registers and views are captured when it issues; a
check that fails traps; where its queue is full or its token's count is at its limit the group waits at the slot; and otherwise
it is accepted. -/
def CommandForm (mk : Common → Instr) (kind : CmdKind) (block va vb vc : Option (BitVec 6)) (rm : Rm) (fz sat : Bool)
    (tok : BitVec 3) : Prop :=
  ActForm mk (fun _ _ => none) [] (arg0 fun s k m t =>
    let view := fun v : Option (BitVec 6) => (v.map fun n => viewAt s m.core n.toNat).getD 0
    let scale := fun v : ViewBits => if View.scale v < 64 then viewAt s m.core (View.scale v) else 0
    let regs := (block.map fun r => [m.r.getG r, m.r.getG (r + 1), m.r.getG (r + 2), m.r.getG (r + 3)]).getD [0, 0, 0, 0]
    ∃ x : Cmd, x.kind = kind ∧ x.member = k.member ∧ x.launch = m.launch ∧ x.word = k.word ∧ x.regs = regs ∧ x.va = view va ∧
      x.vb = view vb ∧ x.vc = view vc ∧ x.sa = scale (view va) ∧ x.sb = scale (view vb) ∧ x.sc = scale (view vc) ∧ x.rm = rm ∧ x.fz = fz ∧ x.sat = sat ∧
      x.tok = tok.toNat ∧ x.phase = .queued ∧ x.docent = false ∧
      (∀ c d, cmdFault s m.core x = some (c, d) → t = trap s k c d) ∧
      (cmdFault s m.core x = none →
        let full := queueFull s m.core kind = true ∨ (tok.toNat < 6 ∧ 255 ≤ tokCount m tok.toNat)
        (full → t = { s with sched := { s.sched with cur := some { k with hold := true } } }) ∧
        (¬ full → Accepted s t k m x)))

/-- The docent executes the step word `w` of the running program `p` of a command (R225, R227, R229). -/
structure Stepping (s : State) (core : Nat) (p : Program) (x : Cmd) (w : Word64) : Prop where
  prog : (coreAt s core).eng.prog = some p
  cmd : tabGet (cmdsOf s core) p.cmd = some x
  running : x.phase = .running
  word : (coreAt s core).eng.docMem.getD p.pc 0 = w
  legal : stepReserved w = false
  passed : stepY w = true → p.yielded = true ∧ (isSwitching s x.launch core = false ∨ othersWait s x.launch core p.cmd = true)

/-- The step of a core's docent memory at an index holds no detected error (R307). -/
def StepClean (s : State) (core pc : Nat) : Prop := (coreAt s core).eng.docPoison.contains pc = false

/-- The program goes to another step. -/
def GoesTo (t : State) (core : Nat) (p : Program) (pc : Nat) : Prop :=
  ∃ q, (coreAt t core).eng.prog = some q ∧ q.cmd = p.cmd ∧ q.pc = pc ∧ q.yielded = false

/-! ## Exceptions -/

/-- A member stops with a fault, and Sernus receives its record with a cause and a detail (R274, R283). -/
structure StopsWith (s t : State) (id : Nat) (m : Member) (fi : FaultInfo) (cause detail : Nat) : Prop where
  memory : SameMemory s t
  others : ∀ n, n ≠ id → memberAt t n = memberAt s n
  member : memberAt t id = some
    { m with slot := fi.slot, wait := .stopped, next := none, readySince := (coreAt s m.core).cyc, stopRec := some fi }
  record : t.mod = { s.mod with recBuf := t.mod.recBuf } ∧ ∃ r, t.mod.recBuf = s.mod.recBuf ++ [r] ∧ r.cause = cause ∧
    r.detail = BitVec.ofNat 32 detail ∧ r.word = fi.word ∧ r.addr = fi.addr ∧ r.pc = BitVec.ofNat 32 m.pc ∧ r.slot = fi.slot

/-- The 128 bytes of a trap record of a fault of a member (R273). -/
structure TrapRecord (s t : State) (m : Member) (fi : FaultInfo) (p : Nat) : Prop where
  word : memNat t p 8 = fi.word.toNat
  addr : memNat t (p + 8) 8 = fi.addr.toNat
  pc : memNat t (p + 16) 4 = m.pc % 2 ^ 32
  slot : memNat t (p + 20) 1 = fi.slot % 16
  cause : memNat t (p + 21) 1 = fi.cause % 2 ^ 8
  resume : memNat t (p + 22) 1 = 0
  pred : memNat t (p + 23) 1 = m.r.p.toNat
  detail : memNat t (p + 24) 4 = fi.detail % 2 ^ 32
  target : memNat t (p + 28) 4 = 0
  gsave : ∀ i : Fin 4, memNat t (p + 32 + 4 * i) 4 = (m.r.getG (BitVec.ofNat 6 i)).toNat
  latch : ∀ i : Fin 4, memNat t (p + 48 + 8 * i) 8 = m.lat[i].toNat
  time : memNat t (p + 80) 6 = (coreAt s m.core).ticks % 2 ^ 48
  flags : memNat t (p + 86) 1 = (if fi.fetchStage then 1 else 0) + (if fi.async then 2 else 0) +
    (if m.kind = .tail then 4 else 0) + (if m.kind = .curator then 8 else 0)
  zero : memNat t (p + 87) 1 = 0
  from_ : memNat t (p + 88) 4 = (fi.from_.map (· % 2 ^ 32)).getD 0xFFFFFFFF
  who : memNat t (p + 92) 4 = (whoOf s m).toNat
  rest : memNat t (p + 96) 32 = 0

/-- The member is in its handler (R272): registers, mode, saved address and position; everything else of it stays as it stood, but for the
latches of the clause that it has left. TRAP is a transfer from its clause (R63, R75); a park, a move and frame joins that the clause has
asked for are put off to its return (R108, R110, R143; log 68). -/
structure InHandler (s t : State) (id : Nat) (m : Member) (fi : FaultInfo) (a entry : Word) : Prop where
  others : ∀ n, n ≠ id → memberAt t n = memberAt s n
  member : ∃ v, memberAt t id = some v ∧ v.trapMode = true ∧ v.trapRec = a ∧ v.pc = entry.toNat ∧ v.slot = 0 ∧ v.wait = .ready ∧
    v = { m with r := v.r, trapMode := true, trapRec := a, pc := v.pc, slot := 0, wait := .ready, next := none,
                 cameFrom := if fi.cause = 0x0E then some m.pc else none, lat := v.lat, nbrVals := [], readySince := v.readySince,
                 clear := v.clear, entered := [], parkWish := false, moveTo := none, joinTails := [],
                 put := { park := m.parkWish, move := m.moveTo, joins := m.joinTails } } ∧
    v.r.f = m.r.f ∧ v.r.p = m.r.p ∧
    ∀ i : BitVec 6, v.r.getG i = if i = 63 ∨ i = 0 then a else if i = 1 then 0 else if i = 2 then BitVec.ofNat 32 fi.cause
      else if i = 3 then BitVec.ofNat 32 fi.detail else m.r.getG i

/-- The registers that a return from a trap restores from the record at `p` (R286). -/
structure Restored (s : State) (m : Member) (p : Nat) (r : Regs) : Prop where
  faces : r.f = m.r.f
  preds : r.p = BitVec.ofNat 7 (memNat s (p + 23) 1)
  words : ∀ i : BitVec 6, r.getG i = if i = 63 then m.trapRec + 128
    else if i.toNat < 4 then BitVec.ofNat 32 (memNat s (p + 32 + 4 * i.toNat) 4) else m.r.getG i

/-- The member is back from its handler (R286), with what the record at `p` holds: a park, a move and frame joins that were put off are owed
again, and at a clause boundary it waits for them (R108, R110, R143; log 68). -/
structure BackFromTrap (s t : State) (id : Nat) (m : Member) (p pc slot : Nat) : Prop where
  memory : SameMemory s t
  others : ∀ n, n ≠ id → memberAt t n = memberAt s n
  member : ∃ v, memberAt t id = some v ∧ v.trapMode = false ∧ v.trapRec = 0 ∧ v.pc = pc ∧ v.slot = slot ∧ v.cameFrom = some m.pc ∧
    v.parkWish = (m.parkWish || m.put.park) ∧ v.moveTo = m.moveTo.or m.put.move ∧ v.put = {} ∧
    v.wait = (if 0 < slot then .ready else v.boundaryWait v.joinTails) ∧
    Restored s m p v.r ∧
    (∀ i : Fin 4, v.lat[i] = if pc = memNat s (p + 16) 4 ∧ 0 < slot then BitVec.ofNat 64 (memNat s (p + 48 + 8 * i) 8) else 0)

/-- The reads that an acquire of a member covers (R259). -/
def fenceReads (s : State) (id : Nat) (scope : MScope) : List Nat :=
  ((fenceAll s id scope).filter fun x => x.2.kind.reads).map (·.1)

/-- What a fence of a member that has no other leaves (R257, R259): nothing where it has nothing to wait for; itself, without its token and
its acquire, where it waits only for sequences that a release carries; and itself as it was asked for where accesses are open. -/
def FenceLeft (s : State) (id : Nat) (m v : Member) (rel acq : Bool) (scope : MScope) (tok : Option Nat) : Prop :=
  let w := (fenceSet s id scope).map (·.1)
  let rd := if acq then fenceReads s id scope else []
  let nd := if rel then releaseNeed s m scope else []
  (w = [] → rd = [] → (∀ n, n < 6 → tokCount v n = tokCount m n) ∧
    (nd = [] → v.fences = []) ∧
    (nd ≠ [] → ∃ f, v.fences = [f] ∧ f.seq = m.seq ∧ f.rel = rel ∧ f.waits = [] ∧ f.reads = [] ∧ f.need = nd ∧ f.tok = none)) ∧
  (w ≠ [] ∨ rd ≠ [] → Keyed s.accs → (∀ n, tok = some n → tokCount v n = tokCount m n + 1) ∧
    ∃ f, v.fences = [f] ∧ f.seq = m.seq ∧ f.rel = rel ∧ f.acq = acq ∧ f.waits = w ∧ f.reads = rd ∧ f.need = nd ∧ f.tok = tok)

/-- As `ActForm`, for an instruction whose effect asks for its common fields (K). -/
def ActFormK (mk : Common → Instr) (check : State → Member → Option Nat) (ops : List (Ty × Src))
    (P : State → Cur → Member → Bool → List Word64 → State → Prop) : Prop :=
  ∀ b : Bool, ∀ (s : State) (k : Cur) (m : Member) (c : Common), Issuing s k m → c.k = b →
    (∀ x, check s m = some x → exec (mk c) s = .next (trap s k x (if x = 0x01 then k.slot else 0))) ∧
    (check s m = none →
      (Off m c → exec (mk c) s = .next s) ∧
      (Runs m c →
        (∀ vs, readAll s m ops [] = .inr vs → ∃ t, exec (mk c) s = .next t ∧ P s k m b vs t) ∧
        (∀ e g tg a, readAll s m ops [] = .inl (.away e g tg a) → exec (mk c) s = .next (leaveForNbr s k m e g tg a))))

/-- The check of a privileged instruction (R55, R284): privilege first, then its operands. -/
def needsSystem (rest : Member → Option Nat) (s : State) (m : Member) : Option Nat :=
  if (launchAt s m.launch).map (·.system) = some true then rest m else some 0x02

/-- The first of two checks that fails. -/
def orElse (a b : Option Nat) : Option Nat := match a with | some x => some x | none => b

/-- Only what the contexts hold changes. -/
def OnlyCtxs (s t : State) : Prop := t = { s with ctxs := t.ctxs }

/-! ## Registers of units -/

/-- An STIO stands at its register and may be performed (R289): the unit, the register's offset, and the lanes that it writes. -/
structure IoWriting (s : State) (id : Nat) (a : Access) (wide : Bool) (u : IoUnit) (off : Nat) (l : Nat × Nat) : Prop where
  acc : tabGet s.accs id = some a
  kind : a.kind = .ioWrite wide
  unit : ioUnitOf a.addr = some u
  ready : ioReady s id a = true
  off : off = ioReg a.addr
  lanes : l = ioLanes a.addr wide a.data

/-- An event performs an I/O write that is for it, and the write completes; other writes it leaves alone. -/
def IoEvent (ev : Nat → Instr) (isFor : IoUnit → Nat → Nat × Nat → Prop) (P : State → IoUnit → Nat → Nat × Nat → State → Prop) :
    Prop :=
  ∀ s id a wide u off l, IoWriting s id a wide u off l →
    (¬ isFor u off l → Idle (ev id) s) ∧
    (isFor u off l → ∃ t, exec (ev id) s = .next t ∧ SameMemory s t ∧ (Keyed s.accs → tabGet t.accs id = none) ∧ P s u off l t)

/-- The bundle that an optics register belongs to, and the offset within it (R321). -/
def bundleReg? (u : IoUnit) (off : Nat) : Option (Nat × Nat) :=
  match u with
  | .optics f => if off / 0x1000 < 8 then some (8 * f + off / 0x1000, off % 0x1000) else none
  | _ => none

/-- One bundle alone changes. -/
def OnlyBundle (s t : State) (k : Nat) : Prop := ∀ n, n ≠ k → bundleAt t n = bundleAt s n

/-! ## Contexts -/

/-- One context on a core that is in holds a number (R119). -/
def Named (s : State) (core number launch : Nat) (c : Ctx) : Prop :=
  ctxAt s launch core = some c ∧ c.number = number ∧ c.isOut = false ∧
  ∀ e ∈ s.ctxs, e.1 % 4096 = core → e.2.isOut = false → e.2.number = number → e.1 = ctxKey launch core

/-- No context on a core that is in holds a number. -/
def Unnamed (s : State) (core number : Nat) : Prop :=
  ∀ e ∈ s.ctxs, e.1 % 4096 = core → e.2.isOut = false → e.2.number ≠ number

/-- A job on a context is asked for (R290, R306): the switch of the context begins, and the instruction's token counts it. -/
structure Requested (s t : State) (k : Cur) (m : Member) (tok : Nat) (j : Job) : Prop where
  memory : SameMemory s t
  jobs : t.mod.jobs = s.mod.jobs ++ [j]
  switching : ∀ c, ctxAt s j.launch j.core = some c → j.restoring = false → c.isOut = false →
    ∃ c', ctxAt t j.launch j.core = some c' ∧ c'.switching = true
  others : ∀ n, n ≠ k.member → memberAt t n = memberAt s n
  member : ∃ v, memberAt t k.member = some v ∧ v.r = m.r ∧ tokCount v tok = tokCount m tok + 1
  asked : j.member = k.member ∧ j.tok = tok ∧ j.word = k.word

/-- Nothing is to be done: the result is written at once and no token counts it. -/
structure Answered (s t : State) (k : Cur) (m : Member) (d : Dst) (x : Word) : Prop where
  memory : SameMemory s t
  mod : t.mod = s.mod
  others : ∀ n, n ≠ k.member → memberAt t n = memberAt s n
  member : ∃ v, memberAt t k.member = some v ∧ v.r = afterResult m.r d false (x.zeroExtend 64) ∧ v.tok = m.tok

/-- A context instruction (R284, R290, R306): privilege and operands, an image address of 64-byte alignment, and a token that is not full. -/
def ContextForm (mk : Common → Instr) (d : Dst) (a b : Src) (tok : BitVec 3)
    (P : State → Cur → Member → Word64 → Nat → Nat → State → Prop) : Prop :=
  ActForm mk (needsSystem fun m => orElse (srcFault m .w64 a) (orElse (srcFault m .w32 b) (dstFault m false d)))
    [(.w64, a), (.w32, b)] (arg2 fun s k m x y t =>
      (x.toNat % 64 ≠ 0 → t = trap s k 0x05 0 x) ∧
      (x.toNat % 64 = 0 → 255 ≤ tokCount m tok.toNat → t = { s with sched := { s.sched with cur := some { k with hold := true } } }) ∧
      (x.toNat % 64 = 0 → tokCount m tok.toNat < 255 → P s k m x ((lo32 y).toNat % 4096) ((lo32 y).toNat / 4096 % 16) t))

/-! ## The causal ports -/

/-- The entries, of 64, in which a vector differs from a base (R239). -/
def differing (base v : Vec) : List Nat := (List.range 64).filter fun i => base.getD i 0 != v.getD i 0

/-- A vector compressed against a base is stamped with the base's number and the entries that differ, at most six (R239). -/
def Stamps (base v : Vec) (bn : Nat) (st : Stamp) : Prop := st.bn = bn ∧ st.entries.length ≤ 6 ∧ applyStamp base st = v

/-- A packet has come that the port of its destination takes in its generation (R252): it is on its way no more. -/
structure Arrives (s : State) (p : Nat) (src dst : Nat) (b : Body) : Prop where
  pkt : tabGet s.pkts p = some { src := src, dst := dst, gen := (fieldAt s dst).gen, body := b }
  keyed : Keyed s.pkts
  old : p < s.sched.nextId

/-- A packet that is new on its way from a field to another. -/
def NewPacket (s t : State) (src dst : Nat) (b : Body) : Prop :=
  ∃ n, s.sched.nextId ≤ n ∧ tabGet t.pkts n = some { src := src, dst := dst, gen := (fieldAt s src).gen, body := b }

/-- A packet leaves a causal port with a vector (R238, R239): its stamp is against the pair's current base, or a clock packet with the
whole vector goes before it and is the base from then on. Without a base number that is free nothing leaves. -/
def LeavesPort (ev : Instr) (s : State) (f d : Nat) (v : Vec) (body : Stamp → Body) (P : State → Prop) : Prop :=
  let p := pairAt s f d
  let base := (tabGet p.txBases p.txCur).getD Vec.zero
  let next := (p.txCur + 1) % 4
  base.length = 64 → v.length = 64 →
    ((differing base v).length ≤ 6 → ∃ t st, exec ev s = .next t ∧ Stamps base v p.txCur st ∧ NewPacket s t f d (body st) ∧
      (pairAt t f d).txCount = p.txCount + 1 ∧ P t) ∧
    (6 < (differing base v).length → next ∈ p.unacked → Idle ev s) ∧
    (6 < (differing base v).length → next ∉ p.unacked → ∃ t, exec ev s = .next t ∧ NewPacket s t f d (.clock next p.txCount v) ∧
      NewPacket s t f d (body { bn := next, entries := [] }) ∧ (pairAt t f d).txCur = next ∧ (pairAt t f d).txCount = 1 ∧
      tabGet (pairAt t f d).txBases next = some v ∧ (pairAt t f d).unacked = p.unacked ++ [p.txCur] ∧ P t)

/-! ## Requests from outside -/

/-- The module has one answer more for the world outside. -/
def AnswersWith (s t : State) (a : Answer) : Prop := t.mod.answers = s.mod.answers ++ [a]

/-- A range covers the first and the last of `n` bytes (R315). -/
def CoversRun (r : Range) (pa n : Nat) : Prop :=
  r.v = true ∧ r.base.toNat ≤ pa / 4096 ∧ pa / 4096 ≤ r.last.toNat ∧ r.base.toNat ≤ (pa + n - 1) / 4096 ∧
  (pa + n - 1) / 4096 ≤ r.last.toNat

/-- One of the 16 entries of a source module covers a request and grants its bit (R315). -/
def Admitted (s : State) (module pa n : Nat) (bit : Range → Bool) : Prop :=
  ∃ i, i < 16 ∧ CoversRun (rangeAt s.mod.ranges (16 * module + i)) pa n ∧ bit (rangeAt s.mod.ranges (16 * module + i)) = true

/-- An entry of the client table matches a request, and one of its ranges covers it and grants its bit (R320). -/
def ClientAdmitted (s : State) (job src port pa n : Nat) (bit : Range → Bool) : Prop :=
  ∃ c ∈ s.mod.clients, c.2.v = true ∧ c.2.job.toNat = job ∧ c.2.src.toNat = src ∧ port < 8 ∧ c.2.ports.getLsbD port = true ∧
    ∃ i, i < 16 ∧ CoversRun (rangeAt s.mod.clientRanges (16 * c.1 + i)) pa n ∧
      bit (rangeAt s.mod.clientRanges (16 * c.1 + i)) = true

/-- A delivered fault of a member outside trap mode whose context has a handler (R272): without room for the record, or where its write
fails, the member stops with a DoubleFault; otherwise it is in its handler and the record is written. -/
def Delivered (s t : State) (id : Nat) (m : Member) (c : Ctx) (fi : FaultInfo) : Prop :=
  let a := (m.r.getG 63 - 128) &&& ~~~(0xF : Word)
  let d := c.desc[0]
  let p := physOf s (m.home * 0x100000 + Desc.base d + a.toNat)
  ((m.r.getG 63).toNat < 128 ∨ a.toNat < m.stackBase → StopsWith s t id m fi 0x20 0x0C) ∧
  (128 ≤ (m.r.getG 63).toNat → m.stackBase ≤ a.toNat →
    (Desc.v d = false ∨ Desc.limit d < a.toNat + 128 → StopsWith s t id m fi 0x20 0x03) ∧
    (Desc.v d = true → a.toNat + 128 ≤ Desc.limit d → Desc.w d = false → StopsWith s t id m fi 0x20 0x06) ∧
    (Desc.v d = true → a.toNat + 128 ≤ Desc.limit d → Desc.w d = true →
      holdsMemory s (m.home * 0x100000 + Desc.base d + a.toNat) = true →
      oneRun s (m.home * 0x100000 + Desc.base d + a.toNat) 128 = true →
      InHandler s t id m fi a c.trapEntry ∧ TrapRecord s t m fi p ∧ SameOutside s t p 128))

/-- A write of an operand-log disposition of a core unit, or of its STOPACT, with a code (R276). -/
def actCmd (off code : Nat) (u : IoUnit) (o : Nat) (l : Nat × Nat) : Prop :=
  (∃ g, u = .core g) ∧ o = off ∧ natBit l.2 0 = true ∧ (if off = 8 then natBits l.1 6 2 else natBits l.1 0 2) = code

/-- An entry of the operand log of a core that keeps an access of a member that is in (R181, R276). -/
structure Waits (s : State) (g i : Nat) (e : LogEntry) (a : Access) (m : Member) : Prop where
  entry : tabGet (coreAt s g).log i = some e
  keyed : Keyed (coreAt s g).log ∧ Keyed s.accs
  waiting : e.waiting = true
  acc : tabGet s.accs e.acc = some a
  kind : a.kind = .load ∨ a.kind = .store
  here : a.core = g ∧ a.member = e.member ∧ a.phase = .logged
  member : memberAt s e.member = some m
  inside : isOutMember m = false ∧ m.place ≠ .gone ∧ m.wait = .ready ∧ m.fences = []

/-- The access of an entry is given up, and the entry is free (R276). -/
def GivenUp (t : State) (g : Nat) (e : LogEntry) : Prop :=
  tabGet t.accs e.acc = none ∧ ∀ x ∈ (coreAt t g).log, x.2.acc ≠ e.acc

/-! ## Words and clauses -/

/-- A pattern of a binary format with `eb` exponent and `fb` fraction bits has the value of a small integer, exactly (R37, R42). -/
def IsSmall (eb fb x : Nat) (i : Int) : Prop :=
  (i = 0 → x = 0) ∧
  (i ≠ 0 → x < 2 ^ (1 + eb + fb) ∧ ∃ k f, f < 2 ^ fb ∧ (2 ^ fb + f) * 2 ^ k = i.natAbs * 2 ^ fb ∧
    x = (if i < 0 then 2 ^ (eb + fb) else 0) + (2 ^ (eb - 1) - 1 + k) * 2 ^ fb + f)

/-- Ticks of a cycle by performance step and class (R120, R324). -/
def ticksTable : List (List Nat) :=
  [[3, 4, 6, 8], [4, 5, 7, 10], [4, 6, 8, 11], [5, 7, 10, 13], [6, 8, 12, 16], [7, 10, 14, 19], [9, 12, 18, 24], [12, 16, 24, 32]]

/-- The command that a step word gives (R208, R227): of the program's member and launch, with the views read now, its counters and
expressions in the registers behind which the step's index stands, no token and no sync word. -/
def stepCmd (s : State) (core : Nat) (p : Program) (x : Cmd) (w : Word64) (kind : CmdKind) (regs : List Word) (va vb : Option Nat) : Cmd :=
  let view := fun v : Option Nat => (v.map fun lo => viewAt s core (natBits w.toNat lo 6)).getD 0
  { newCmd s core kind x.member x.launch x.word (regs ++ [BitVec.ofNat 32 p.pc]) (view va) (view vb) 0 (stepRm w) (natBit w.toNat 4)
      (natBit w.toNat 3) 7 with docent := true, descs := x.descs }

/-- A step word that is a command (R208, R226, R227): its views are read when it is executed. Where the checks pass and the unit's queue has
room the step completes: the command takes its place in engine order and the docent goes to the next step. A check that fails stops the
program with detail 5, and a full queue keeps the step. -/
def StepCommand (mk : Nat → Instr) (code : Nat) (kind : Nat → CmdKind) (regs : State → Nat → Nat → List Word)
    (va vb : Option Nat) : Prop :=
  ∀ s core p x w, Stepping s core p x w → stepKind w = code →
    let y := stepCmd s core p x w (kind w.toNat) (regs s core w.toNat) va vb
    (cmdFault s core y = none → queueFull s core y.kind = false → p.pc < 511 → StepClean s core (p.pc + 1) →
      ∃ t id q z, exec (mk core) s = .next t ∧ SameMemory s t ∧ tabGet (cmdsOf t core) id = some z ∧
        z = { y.withFootprint with
          order := (coreAt s core).eng.nextOrder, after := [], need := z.need, before := x.before, seq := x.seq } ∧
        (coreAt t core).eng.prog = some q ∧ q.cmd = p.cmd ∧ q.pc = p.pc + 1 ∧ q.yielded = false ∧ q.steps = p.steps ++ [id]) ∧
    (cmdFault s core y ≠ none → exec (mk core) s = .next (stopProgram s core { detail := 5 } p.pc)) ∧
    (cmdFault s core y = none → queueFull s core y.kind = true → Idle (mk core) s)

/-- A write of a field unit's command register with a command (R312). -/
def fieldCmd (c : Nat) (u : IoUnit) (off : Nat) (l : Nat × Nat) : Prop :=
  (∃ f, u = .field f) ∧ off = 8 ∧ natBit l.2 0 = true ∧ natBits l.1 0 2 = c

end Sys2Proof.Safety
end

