-- ==== Sys2Proof/Certificates/Slice0/Obligations.lean ====
section
/-!
DEFINITION. The statements for the provers: what each instruction and each step of the machine does, in the terms of
Sys2Proof/Safety.lean.
-/
set_option linter.constructorNameAsVariable false
open Sys2Proof Sys2Proof.Machine Sys2Proof.Safety

/-- R129, the carry forms apart: the results of the integer group. Each instruction completes with the result that R129 computes on
exact integers, and otherwise traps or waits as every form of R126 does.

R129, the carry forms: the sum or difference with the carry or borrow that p[op[5:3]] gives where op[6] is set; the carry or borrow
predicate is written after the destination, whatever K.

Constructors of `Instr` whose completion this states: add, sub, addc, subb, mul, mulh, mad, neg, abs, min, max, addd, subd, mulw, sad, dot4,
addi, ldi. -/
def Obligations.IntegerResults : Prop :=
  (∀ (d : Dst) (a b e : Src) (sg sat sa sb : Bool),
    ValueForm (.add · d a b sat sg) d false [(.w32, a), (.w32, b)]
      (words2 fun x y => if sat then clamp32 sg (read32 sg x + read32 sg y) else x + y) ∧
    ValueForm (.sub · d a b sat sg) d false [(.w32, a), (.w32, b)]
      (words2 fun x y => if sat then clamp32 sg (read32 sg x - read32 sg y) else x - y) ∧
    ValueForm (.addd · d a b sat sg) d true [(.w64, a), (.w64, b)]
      (of2 fun x y => if sat then clamp64 sg (read64 sg x + read64 sg y) else x + y) ∧
    ValueForm (.subd · d a b sat sg) d true [(.w64, a), (.w64, b)]
      (of2 fun x y => if sat then clamp64 sg (read64 sg x - read64 sg y) else x - y) ∧
    ValueForm (.mul · d a b) d false [(.w32, a), (.w32, b)] (words2 fun x y => x * y) ∧
    ValueForm (.mulh · d a b sg) d false [(.w32, a), (.w32, b)]
      (words2 fun x y => BitVec.ofInt 32 (read32 sg x * read32 sg y / 2 ^ 32)) ∧
    ValueForm (.mulw · d a b sg) d true [(.w32, a), (.w32, b)]
      (of2 fun x y => BitVec.ofInt 64 (read32 sg (lo32 x) * read32 sg (lo32 y))) ∧
    ValueForm (.mad · d a b e) d false [(.w32, a), (.w32, b), (.w32, e)] (words3 fun x y z => x * y + z) ∧
    ValueForm (.neg · d a sat sg) d false [(.w32, a)] (words1 fun x => if sat then clamp32 true (-x.toInt) else -x) ∧
    ValueForm (.abs · d a sat sg) d false [(.w32, a)]
      (words1 fun x => if sat then clamp32 true |x.toInt| else BitVec.ofInt 32 |x.toInt|) ∧
    ValueForm (.min · d a b sg) d false [(.w32, a), (.w32, b)]
      (words2 fun x y => BitVec.ofInt 32 (min (read32 sg x) (read32 sg y))) ∧
    ValueForm (.max · d a b sg) d false [(.w32, a), (.w32, b)]
      (words2 fun x y => BitVec.ofInt 32 (max (read32 sg x) (read32 sg y))) ∧
    ValueForm (.sad · d a b e) d false [(.w32, a), (.w32, b), (.w32, e)]
      (words3 fun x y z => BitVec.ofInt 32 (z.toNat + sum4 fun i => |byteAs false x i - byteAs false y i|)) ∧
    ValueForm (.dot4 · d a b e sa sb sat) d false [(.w32, a), (.w32, b), (.w32, e)]
      (words3 fun x y z =>
        let v := z.toInt + sum4 fun i => byteAs sa x i * byteAs sb y i
        if sat then clamp32 true v else BitVec.ofInt 32 v) ∧
    (∀ r imm, ValueForm (.addi · d false r imm) d false [(.w32, .g r)] (words1 fun x => x + imm) ∧
      ValueForm (.addi · d true r imm) d true [(.w64, .g r)] (of1 fun x => x + imm.signExtend 64) ∧
      ValueForm (.ldi · d false imm) d false [] (fun _ _ _ => ext imm) ∧
      ValueForm (.ldi · d true imm) d true [] (fun _ _ _ => imm.signExtend 64))) ∧
  (∀ (d : Dst) (a b : Src) (pOut pIn : BitVec 3) (cin : Bool),
    ValueFormAlso (.addc · d a b pOut pIn cin) d false [(.w32, a), (.w32, b)]
      (fun s m => words2 (fun x y => x + y + (if cin && m.r.getP pIn then 1 else 0)) s m)
      (fun _ m vs r => match vs with
        | [x, y] => if pOut = 7 then r else
            r.setP pOut (2 ^ 32 ≤ (lo32 x).toNat + (lo32 y).toNat + (if cin && m.r.getP pIn then 1 else 0))
        | _ => r) ∧
    ValueFormAlso (.subb · d a b pOut pIn cin) d false [(.w32, a), (.w32, b)]
      (fun s m => words2 (fun x y => x - y - (if cin && m.r.getP pIn then 1 else 0)) s m)
      (fun _ m vs r => match vs with
        | [x, y] => if pOut = 7 then r else
            r.setP pOut ((lo32 x).toNat < (lo32 y).toNat + (if cin && m.r.getP pIn then 1 else 0))
        | _ => r))

/-- R131: the results of the logic, shift and bit group.

Constructors of `Instr` whose completion this states: and, or, xor, andn, not, shl, shr, sar, rol, shld, shrd, clz, popc, brev, bfx, bfi,
perm, andi, ori, xori. -/
def Obligations.LogicResults : Prop := ∀ (d : Dst) (a b e : Src),
  ValueForm (.and · d a b) d false [(.w32, a), (.w32, b)] (words2 fun x y => x &&& y) ∧
  ValueForm (.or · d a b) d false [(.w32, a), (.w32, b)] (words2 fun x y => x ||| y) ∧
  ValueForm (.xor · d a b) d false [(.w32, a), (.w32, b)] (words2 fun x y => x ^^^ y) ∧
  ValueForm (.andn · d a b) d false [(.w32, a), (.w32, b)] (words2 fun x y => x &&& ~~~y) ∧
  ValueForm (.not · d a) d false [(.w32, a)] (words1 fun x => ~~~x) ∧
  ValueForm (.shl · d a b) d false [(.w32, a), (.w32, b)] (words2 fun x n => x <<< n.toNat) ∧
  ValueForm (.shr · d a b) d false [(.w32, a), (.w32, b)] (words2 fun x n => x >>> n.toNat) ∧
  ValueForm (.sar · d a b) d false [(.w32, a), (.w32, b)] (words2 fun x n => x.sshiftRight n.toNat) ∧
  ValueForm (.rol · d a b) d false [(.w32, a), (.w32, b)]
    (words2 fun x n => (x <<< (n.toNat % 32)) ||| (x >>> (32 - n.toNat % 32))) ∧
  ValueForm (.shld · d a b e) d false [(.w32, a), (.w32, b), (.w32, e)]
    (words3 fun hi lo n => (hi <<< (n.toNat % 32)) ||| (lo >>> (32 - n.toNat % 32))) ∧
  ValueForm (.shrd · d a b e) d false [(.w32, a), (.w32, b), (.w32, e)]
    (words3 fun hi lo n => (lo >>> (n.toNat % 32)) ||| (hi <<< (32 - n.toNat % 32))) ∧
  ValueForm (.clz · d a) d false [(.w32, a)] (words1 fun x => if x = 0 then 32 else BitVec.ofNat 32 (31 - x.toNat.log2)) ∧
  ValueForm (.popc · d a) d false [(.w32, a)]
    (words1 fun x => BitVec.ofNat 32 (((List.range 32).filter fun i => x.getLsbD i).length)) ∧
  ValueForm (.brev · d a) d false [(.w32, a)] (words1 fun x => x.reverse) ∧
  ValueForm (.bfx · d a b false) d false [(.w32, a), (.w32, b)]
    (words2 fun x desc => fieldSpec desc 0 fun pos len => (x.extractLsb' pos len).zeroExtend 32) ∧
  ValueForm (.bfx · d a b true) d false [(.w32, a), (.w32, b)]
    (words2 fun x desc => fieldSpec desc 0 fun pos len => (x.extractLsb' pos len).signExtend 32) ∧
  ValueForm (.bfi · d a b e) d false [(.w32, a), (.w32, b), (.w32, e)]
    (words3 fun x base desc => fieldSpec desc base fun pos len =>
      (base &&& ~~~((BitVec.allOnes 32 >>> (32 - len)) <<< pos)) |||
        ((x &&& (BitVec.allOnes 32 >>> (32 - len))) <<< pos)) ∧
  ValueForm (.perm · d a b e) d false [(.w32, a), (.w32, b), (.w32, e)]
    (words3 fun x y sel => permByteSpec x y sel 3 ++ permByteSpec x y sel 2 ++ permByteSpec x y sel 1 ++ permByteSpec x y sel 0) ∧
  (∀ r imm, ValueForm (.andi · d r imm) d false [(.w32, .g r)] (words1 fun x => x &&& imm) ∧
    ValueForm (.ori · d r imm) d false [(.w32, .g r)] (words1 fun x => x ||| imm) ∧
    ValueForm (.xori · d r imm) d false [(.w32, .g r)] (words1 fun x => x ^^^ imm))

/-- R132 and R133: compares, SEL and MOV. A condition other than EQ and NE reads its operands as S says, at the width that D gives.

R132 and R133: predicate instructions; PMOV reads the set with p7 as bit 7, and writes p0 to p6 from the low seven bits of its
operand. That the latch of the write form holds those seven bits is the model's reading (log 13).

Constructors of `Instr` whose completion this states: cmp, cmps, sel, mov, pand, por, pxor, pnot, pset, pmov. -/
def Obligations.CompareAndPredicateResults : Prop :=
  (∀ (p q : BitVec 3) (d : Dst) (a b : Src) (cc : Cond) (sg neg : Bool),
    ValueForm (.cmp · p a b cc sg false) (.pred p) false [(.w32, a), (.w32, b)]
      (of2 fun x y => bitWord (condSpec cc (read32 sg (lo32 x)) (read32 sg (lo32 y)))) ∧
    ValueForm (.cmp · p a b cc sg true) (.pred p) false [(.w64, a), (.w64, b)]
      (of2 fun x y => bitWord (condSpec cc (read64 sg x) (read64 sg y))) ∧
    ValueForm (.cmps · d a b cc sg false) d false [(.w32, a), (.w32, b)]
      (of2 fun x y => bitWord (condSpec cc (read32 sg (lo32 x)) (read32 sg (lo32 y)))) ∧
    ValueForm (.cmps · d a b cc sg true) d false [(.w64, a), (.w64, b)]
      (of2 fun x y => bitWord (condSpec cc (read64 sg x) (read64 sg y))) ∧
    ValueForm (.sel · d a b q neg false) d false [(.w32, a), (.w32, b)]
      (fun s m => of2 (fun x y => if m.r.getP q != neg then x else y) s m) ∧
    ValueForm (.sel · d a b q neg true) d true [(.w64, a), (.w64, b)]
      (fun s m => of2 (fun x y => if m.r.getP q != neg then x else y) s m) ∧
    ValueForm (.mov · d a false) d false [(.w32, a)] (of1 id) ∧
    ValueForm (.mov · d a true) d true [(.w64, a)] (of1 id)) ∧
  (∀ (p pa pb : BitVec 3) (na nb : Bool) (d : Dst) (a : Src),
    ValueForm (.pand · p pa pb na nb) (.pred p) false [] (fun _ m _ => bitWord ((m.r.getP pa != na) && (m.r.getP pb != nb))) ∧
    ValueForm (.por · p pa pb na nb) (.pred p) false [] (fun _ m _ => bitWord ((m.r.getP pa != na) || (m.r.getP pb != nb))) ∧
    ValueForm (.pxor · p pa pb na nb) (.pred p) false [] (fun _ m _ => bitWord ((m.r.getP pa != na) != (m.r.getP pb != nb))) ∧
    ValueForm (.pnot · p pa) (.pred p) false [] (fun _ m _ => bitWord (!m.r.getP pa)) ∧
    ValueForm (.pset · p a) (.pred p) false [(.w32, a)] (of1 fun x => bitWord (lo32 x != 0)) ∧
    ValueForm (.pmov · d a false) d false [] (fun _ m _ => BitVec.ofNat 64 (128 + m.r.p.toNat)) ∧
    ValueFormAlso (.pmov · d a true) .none false [(.w32, a)] (of1 fun x => (x.extractLsb' 0 7).zeroExtend 64)
      (fun kOnly _ vs r => match vs with
        | [x] => if kOnly then r else { r with p := x.extractLsb' 0 7 }
        | _ => r))

/-- R147 to R154: the results of the FP32 group. Each instruction completes with the operation of Machine/Float.lean on the patterns of
its operands, after the source modifiers of R148 (absolute value, then negation), under its rounding mode and flush bit; FCLASS reads
the unmodified pattern, and FSCALE takes its second operand as a signed integer. The accuracy of the class 2 functions is the
model's reading (log 9).

R157 to R160: the convert group. CVT reads and writes a pair where a type has 64 bits; SPLIT2 and SPLIT4 write a pair; PACK4 takes the
four elements of two pairs, element 0 lowest, each wrapped to a byte or clamped to the named 8-bit type.

Constructors of `Instr` whose completion this states: fadd, fsub, fmul, ffma, fmin, fmax, fcmp, fclass, frcp, frsq, fsqrt, fdiv, fexp2,
flog2, fsin, fcos, ftanh, fscale, ffrac, frnd, cvt, pack2, split2, pack4, split4. -/
def Obligations.Fp32AndConvertResults : Prop :=
  (∀ (d : Dst) (a b e : Src) (r : FRnd) (fz : Bool) (q : Mods) (cc : FCond),
    let A := fun x : Word64 => Mods.a .fp32 q (lo32 x).toNat
    let B := fun x : Word64 => Mods.b .fp32 q (lo32 x).toNat
    let A' := fun x : Word64 => Mods.a .fp32 r.mods (lo32 x).toNat
    let B' := fun x : Word64 => Mods.b .fp32 r.mods (lo32 x).toNat
    let C' := fun x : Word64 => Mods.c .fp32 r.mods (lo32 x).toNat
    let one := fun (mk : Common → Instr) (f : Nat → Nat) => ValueForm mk d false [(.f32, a)] (of1 fun x => BitVec.ofNat 64 (f (A x)))
    let oneR := fun (mk : Common → Instr) (f : Nat → Nat) => ValueForm mk d false [(.f32, a)] (of1 fun x => BitVec.ofNat 64 (f (A' x)))
    let two := fun (mk : Common → Instr) (f : Nat → Nat → Nat) =>
      ValueForm mk d false [(.f32, a), (.f32, b)] (of2 fun x y => BitVec.ofNat 64 (f (A x) (B y)))
    let twoR := fun (mk : Common → Instr) (f : Nat → Nat → Nat) =>
      ValueForm mk d false [(.f32, a), (.f32, b)] (of2 fun x y => BitVec.ofNat 64 (f (A' x) (B' y)))
    twoR (.fadd · d a b r) (FFmt.fp32.fadd r.rm r.fz) ∧ twoR (.fsub · d a b r) (FFmt.fp32.fsub r.rm r.fz) ∧
    twoR (.fmul · d a b r) (FFmt.fp32.fmul r.rm r.fz) ∧ twoR (.fdiv · d a b r) (FFmt.fp32.fdiv r.rm r.fz) ∧
    ValueForm (.ffma · d a b e r) d false [(.f32, a), (.f32, b), (.f32, e)]
      (of3 fun x y z => BitVec.ofNat 64 (FFmt.fp32.ffma r.rm r.fz (A' x) (B' y) (C' z))) ∧
    two (.fmin · d a b fz q) (FFmt.fp32.fminmax false fz) ∧ two (.fmax · d a b fz q) (FFmt.fp32.fminmax true fz) ∧
    two (.fcmp · d a b cc fz q) (fun x y => if FFmt.fp32.fcmp cc fz x y then 1 else 0) ∧
    ValueForm (.fclass · d a) d false [(.f32, a)] (of1 fun x => BitVec.ofNat 64 (fclassMask (lo32 x).toNat)) ∧
    oneR (.fsqrt · d a r) (FFmt.fp32.fsqrt r.rm r.fz) ∧ oneR (.frnd · d a r) (FFmt.fp32.frnd r.rm r.fz) ∧
    ValueForm (.fscale · d a b r) d false [(.f32, a), (.w32, b)]
      (of2 fun x y => BitVec.ofNat 64 (FFmt.fp32.fscale r.rm r.fz (A' x) (lo32 y).toInt)) ∧
    one (.ffrac · d a fz q) (FFmt.fp32.ffrac fz) ∧ one (.frcp · d a fz q) (frcp32 fz) ∧ one (.frsq · d a fz q) (frsq32 fz) ∧
    one (.fexp2 · d a fz q) (fexp2_32 fz) ∧ one (.flog2 · d a fz q) (flog2_32 fz) ∧ one (.fsin · d a fz q) (fsin32 fz) ∧
    one (.fcos · d a fz q) (fcos32 fz) ∧ one (.ftanh · d a fz q) (ftanh32 fz)) ∧
  (∀ (d : Dst) (a b : Src) (dst src : CvtTy) (ty : Half) (rm : Rm)
      (fz sat i8 sg hi signed : Bool),
    let el := fun (x : Word64) (i : Nat) => (x.extractLsb' (16 * i) 16).toNat
    let el32 := fun (x : Word64) (i : Nat) => x.extractLsb' (32 * i) 32
    ValueForm (.cvt · d a dst src rm fz sat) d dst.is64 [(cvtReadTy src, a)]
      (of1 fun x => BitVec.ofNat 64 (cvtBits dst src rm fz sat (if src.is64 then x.toNat else (lo32 x).toNat))) ∧
    ValueForm (.pack2 · d a b ty sg rm fz sat) d false
      [(if ty.isFloat then .f32 else .w32, a), (if ty.isFloat then .f32 else .w32, b)]
      (of2 fun x y => 0#32 ++ BitVec.ofNat 16 (pack2Elem ty sg rm fz sat (lo32 y).toNat) ++
        BitVec.ofNat 16 (pack2Elem ty sg rm fz sat (lo32 x).toNat)) ∧
    ValueForm (.split2 · d a ty fz) d true [(if ty.isFloat then .packed (ty == .bf16) else .w32, a)]
      (of1 fun x => BitVec.ofNat 32 (split2Elem ty fz (el x 1)) ++ BitVec.ofNat 32 (split2Elem ty fz (el x 0))) ∧
    ValueForm (.pack4 · d a b i8 sg sat) d false [(.w64, a), (.w64, b)]
      (of2 fun x y =>
        let byte := fun w : Word =>
          let v := read32 sg w
          BitVec.ofInt 8 (if sat then (if i8 then max (-128) (min 127 v) else max 0 (min 255 v)) else v)
        0#32 ++ byte (el32 y 1) ++ byte (el32 y 0) ++ byte (el32 x 1) ++ byte (el32 x 0)) ∧
    ValueForm (.split4 · d a hi signed) d true [(.w32, a)]
      (of1 fun x =>
        let e := fun i => BitVec.ofInt 32 (byteAs signed (lo32 x) (2 * (if hi then 1 else 0) + i))
        e 1 ++ e 0))

/-- R155 and R156: the packed group works on both 16-bit elements of its operands alone; HDOT2 adds the two exact products to an FP32
and rounds once.

Constructors of `Instr` whose completion this states: hadd2, hmul2, hfma2, hmin2, hmax2, hdot2. -/
def Obligations.PackedResults : Prop := ∀ (d : Dst) (a b e : Src) (bf fz : Bool) (r : FRnd) (q : Mods),
  let F := FFmt.packed bf
  let el := fun (x : Word64) (i : Nat) => (x.extractLsb' (16 * i) 16).toNat
  let both := fun g : Nat → Nat => (0#32 ++ BitVec.ofNat 16 (g 1) ++ BitVec.ofNat 16 (g 0) : Word64)
  let two := fun (mk : Common → Instr) (n : Mods) (f : Nat → Nat → Nat) =>
    ValueForm mk d false [(.packed bf, a), (.packed bf, b)]
      (of2 fun x y => both fun i => f (Mods.a F n (el x i)) (Mods.b F n (el y i)))
  two (.hadd2 · d a b bf r) r.mods (F.fadd r.rm r.fz) ∧ two (.hmul2 · d a b bf r) r.mods (F.fmul r.rm r.fz) ∧
  two (.hmin2 · d a b bf fz q) q (F.fminmax false fz) ∧ two (.hmax2 · d a b bf fz q) q (F.fminmax true fz) ∧
  ValueForm (.hfma2 · d a b e bf r) d false [(.packed bf, a), (.packed bf, b), (.packed bf, e)]
    (of3 fun x y z => both fun i =>
      F.ffma r.rm r.fz (Mods.a F r.mods (el x i)) (Mods.b F r.mods (el y i)) (Mods.c F r.mods (el z i))) ∧
  ValueForm (.hdot2 · d a b e bf r) d false [(.packed bf, a), (.packed bf, b), (.f32, e)]
    (of3 fun x y z =>
      let t := fun i => mulVal (F.value (F.flush r.fz (Mods.a F r.mods (el x i)))) (F.value (F.flush r.fz (Mods.b F r.mods (el y i))))
      BitVec.ofNat 64
        (hdot2 r.rm r.fz (FFmt.fp32.value (FFmt.fp32.flush r.fz (Mods.c .fp32 r.mods (lo32 z).toNat))) (t 0) (t 1)))

/-- R12, R119, R123, R134: MOVS writes the value that the table of R134 gives for the register: the pair where W is set, with a zero high
word for a register of 32 bits, and the low word otherwise.

R134: SETS to a register that it cannot write is illegal, and %energy asks for privilege; in a system launch the core's accumulator
takes the operand: all of it where W is set, and its low word otherwise. What the high word becomes then is open (log 12).

Constructors of `Instr` whose completion this states: movs, sets. -/
def Obligations.SpecialRegisters : Prop :=
  (∀ (d : Dst) (r : SReg) (wide : Bool),
    ValueForm (.movs · d r wide) d wide [] fun s m _ =>
      let grid := ((launchAt s m.launch).map (·.pkt.grid)).getD (0, 0, 0)
      let ctx := ctxAt s m.launch m.core
      let n : Nat → Word64 := BitVec.ofNat 64
      let v : Word64 := match r with
        | .cellx => n m.coord.1 | .celly => n m.coord.2.1 | .cellz => n m.coord.2.2
        | .gridx => n grid.1 | .gridy => n grid.2.1 | .gridz => n grid.2.2
        | .step => if m.kind = .grid then n ((m.done + 1) % 2 ^ 32) else 0
        | .core => n m.core | .quad => n (m.core % 64 / 4) | .field => n (m.core / 64) | .module => n s.mod.number
        | .slot => n (match m.place with | .annex i => 0x4000 + i | .tailSlot i => 0x8000 + i | .curatorSlot => 0xC000
                                         | .slot i => i | _ => 0)
        | .ctx => n ((ctx.map (·.number)).getD 0)
        | .launch => n m.launch
        | .cyc => n (coreAt s m.core).cyc | .time => n (coreAt s m.core).ticks
        | .energy => (coreAt s m.core).energy
        | .perf => n ((quadAt s (m.core / 4)).step + 2 ^ 8 * (ctx.map (·.req)).getD 0)
        | .tok => n (((List.range 6).map fun i => if tokCount m i ≠ 0 then 2 ^ i else 0).sum)
      if wide then v else (lo32 v).zeroExtend 64) ∧
  (∀ (a : Src) (r : SReg) (wide : Bool),
    ActForm (.sets · a r wide)
      (fun s m => if r ≠ .energy then some 0x01
        else if (launchAt s m.launch).map (·.system) ≠ some true then some 0x02
        else srcFault m (if wide then .w64 else .w32) a)
      [(if wide then .w64 else .w32, a)]
      (arg1 fun s _ m x t => ∃ v : Word64,
        OnlyCore { s with sched := t.sched } t m.core { coreAt s m.core with energy := v } ∧
        t.sched = { s.sched with free := t.sched.free } ∧ lo32 v = lo32 x ∧ (wide = true → v = x)))

/-- R136: transfers. The target of BRA and CALL is the header plus the offset, that of the others the operand; CALL and CALLI write
g(L) alone, with the word index behind the clause, and CALLI reads its operand first. That the target of BRA and CALL is taken modulo
2^57 is the model's reading (log 11).

R137: NOP has no effect; YIELD marks the member for the pick that follows; PROGRESS records a progress mark of its context.

Constructors of `Instr` whose completion this states: bra, jmpi, call, calli, ret, nop, yieldI, progress. -/
def Obligations.TransfersAndHints : Prop :=
  (∀ (off : BitVec 31) (link : BitVec 6) (a : Src),
    let near := fun k : Cur => (((k.h : Int) + off.toInt) % 2 ^ 57).toNat
    let linked := fun (s : State) (k : Cur) (m : Member) (target : Nat) (t : State) =>
      ∃ m', OnlyMember s t k.member m' ∧
        m' = { m with next := some target, r := m.r.setG link (BitVec.ofNat 32 (k.h + k.count + 2)), joinTails := m'.joinTails } ∧
        (link ≠ 63 → m'.joinTails = m.joinTails)
    let at_ := fun (s : State) (k : Cur) (m : Member) (target : Nat) (t : State) =>
      OnlyMember s t k.member { m with next := some target }
    ActForm (.bra · off) (fun _ _ => none) [] (arg0 fun s k m t => at_ s k m (near k) t) ∧
    ActForm (.jmpi · a) (fun _ m => srcFault m .w32 a) [(.w32, a)] (arg1 fun s k m x t => at_ s k m (lo32 x).toNat t) ∧
    ActForm (.ret · a) (fun _ m => srcFault m .w32 a) [(.w32, a)] (arg1 fun s k m x t => at_ s k m (lo32 x).toNat t) ∧
    ActForm (.call · link off) (fun _ _ => none) [] (arg0 fun s k m t => linked s k m (near k) t) ∧
    ActForm (.calli · link a) (fun _ m => srcFault m .w32 a) [(.w32, a)] (arg1 fun s k m x t => linked s k m (lo32 x).toNat t)) ∧
  (ActForm .nop (fun _ _ => none) [] (arg0 fun s _ _ t => t = s) ∧
    ActForm .yieldI (fun _ _ => none) [] (arg0 fun s k m t =>
      OnlyCore s t m.core { coreAt s m.core with yielded := k.member :: (coreAt s m.core).yielded }) ∧
    ActForm .progress (fun _ _ => none) [] (arg0 fun s _ m t =>
      OnlyCtx s t m.launch m.core fun c => { c with lastMark := s.mod.time }))

/-- R138: EXIT of a tail or of a context in released mode is a TailMisuse; one with outstanding tokens leaves its group and drains, and
one that has drained leaves. EXIT_DRAIN_END ends the wait.

R142: TJOIN of a context with no live tails does not wait; with live tails the context leaves its group until they have ended. The
curator cannot use it, and a tail or a context in released mode misuses it.

Constructors of `Instr` whose completion this states: tjoin, exit, exitDrainEnd. -/
def Obligations.ExitsAndJoins : Prop :=
  (ActForm .exit (fun _ m => if m.kind = .tail ∨ m.rd ≠ 0 then some 0x0B else none) []
      (arg0 fun s k m t => if drained m then Left s t k.member m else Leaves s t k m (.drain .exit)) ∧
    ∀ s id m, memberAt s id = some m → m.kind ≠ .tail →
      (m.wait = .drain .exit → drained m = true → ∃ t, exec (.exitDrainEnd id) s = .next t ∧ Left s t id m) ∧
      (m.wait ≠ .drain .exit ∨ drained m = false → Idle (.exitDrainEnd id) s)) ∧
  (ActForm .tjoin
      (fun _ m => if m.kind = .curator then some 0x01 else if m.kind = .tail ∨ m.rd ≠ 0 then some 0x0B else none) []
      (arg0 fun s k m t =>
        let live := s.members.filter fun e => e.2.kind == .tail && e.2.releaser == some k.member && e.2.place != .gone
        if live = [] then t = s else Leaves s t k m .tjoin))

/-- R139, R140: RELCALL. The stack check comes before any effect; a member with outstanding tokens leaves its group and drains, and one
that has drained is released. RELCALL_RELEASE ends the wait.

R141: TEND is for a tail or a context in released mode; it drains first. A tail ends and frees its slot; a context in released mode
goes on from its latest resume record. TEND_COMPLETE ends the wait.

Constructors of `Instr` whose completion this states: relcall, tend, relcallRelease, tendComplete. -/
def Obligations.Releases : Prop :=
  (∀ (frame : Option (BitVec 6)) (a : Src),
    ActForm (.relcall · frame a) (fun _ m => if m.kind = .curator then some 0x01 else srcFault m .w32 a) [(.w32, a)]
      (arg1 fun s k m x t =>
        let top := frame.map m.r.getG
        if (m.r.getG 63).toNat < m.stackBase + 272 then t = trap s k 0x0C 0
        else if drained m then m.terminating = false → Released s t k.member m (lo32 x) (top.getD (m.r.getG 63))
        else Leaves s t k m (.drain (.relcall (lo32 x) top))) ∧
    ∀ s id m ret top, memberAt s id = some m → m.wait = .drain (.relcall ret top) → m.next = none → m.terminating = false →
      (drained m = false → Idle (.relcallRelease id) s) ∧
      (drained m = true → ∃ t, exec (.relcallRelease id) s = .next t ∧ Released s t id m ret (top.getD (m.r.getG 63)))) ∧
  (ActForm .tend (fun _ m => if m.kind = .curator then some 0x01 else if m.kind = .tail ∨ m.rd ≠ 0 then none else some 0x0B) []
      (arg0 fun s k m t =>
        (drained m = false → Leaves s t k m (.drain .tend)) ∧
        (drained m = true → m.kind = .tail → m.rd = 0 → TailEnded s t k.member m) ∧
        (drained m = true → m.rd ≠ 0 → m.terminating = false → CellAllows s m m.rp.toNat 272 true false →
          Resumed s t k.member m (physOf s (cellPa s m m.rp.toNat)))) ∧
    ∀ s id m, memberAt s id = some m →
      (m.wait ≠ .drain .tend ∨ drained m = false → Idle (.tendComplete id) s) ∧
      (m.wait = .drain .tend → drained m = true → ∃ t, exec (.tendComplete id) s = .next t ∧
        (m.kind = .tail → m.rd = 0 → TailEnded s t id m) ∧
        (m.rd ≠ 0 → m.terminating = false → CellAllows s m m.rp.toNat 272 true false →
          Resumed s t id m (physOf s (cellPa s m m.rp.toNat)))))

/-- R19, R27, R146: STEP commits where its neighbours allow it and no face is still being loaded, and otherwise leaves its group at its
slot. A tail, task cell or context in released mode misuses it; in the curator it is illegal. STEP_COMMIT ends the wait.
That published faces stand in the cell and no byte of memory changes with a commit is the model's choice (log 29).

Constructors of `Instr` whose completion this states: step, stepCommit. -/
def Obligations.StepEffects : Prop := ∀ mask : BitVec 8,
  ActForm (.step · mask)
    (fun _ m => if m.kind = .curator then some 0x01 else if m.kind = .tail ∨ m.kind = .task ∨ m.rd ≠ 0 then some 0x0B else none)
    [] (arg0 fun s k m t =>
      (StepDue s k.member m → Committed s t k.member m mask) ∧
      (¬ StepDue s k.member m → Leaves { s with mod := t.mod } t k m (.step mask))) ∧
  ∀ s id m, memberAt s id = some m → m.wait = .step mask →
    (seated m = true → StepDue s id m → m.terminating = false → ∃ t, exec (.stepCommit id) s = .next t ∧
      Committed s t id m mask ∧ ∃ v, memberAt t id = some v ∧ PassedSlot m v) ∧
    (seated m = false ∨ ¬ StepDue s id m → Idle (.stepCommit id) s)

/-- R124, R125: DQPUSH appends its entry, which is held while accesses of the curator have still to be performed, and waits where the
queue of 16 is full; it is for the curator alone.

R124, R125: DQPOP takes the oldest entry that is not held where nobody waits before it, and otherwise joins the waiters in their
order. It is for members of the launch that owns the core's curator. DQ_ENTRY_RELEASED frees an entry whose release is complete,
and the first waiter takes it and goes on behind its DQPOP.

R55, R74: guarded off, neither has an effect in a member that is not allowed it.

Constructors of `Instr` whose completion this states: dqpush, dqpop, dqEntryReleased. -/
def Obligations.DecisionQueue : Prop :=
  (∀ a : Src,
    ActFormOff (.dqpush · a)
      (fun _ m c => if m.kind = .curator then srcFault m .w32 a else if m.r.getP c.guard = c.sense then none else some 0x01) [(.w32, a)]
      (arg1 fun s k m x t =>
        let u := coreAt s m.core
        let w := (fenceSet s k.member .core).map (·.1)
        (16 ≤ u.dq.length → Leaves s t k m .dqpush) ∧
        (u.dq.length < 16 → u.dqWaiters = [] → m.fences = [] →
          SameMemory s t ∧
          OnlyCore { s with members := t.members } t m.core
            { u with dq := u.dq ++ [{ value := lo32 x, held := !w.isEmpty, pusher := k.member, waits := w }] } ∧
          (∃ v, memberAt t k.member = some v ∧ v.r = m.r ∧ v.lat = m.lat ∧ v.wait = m.wait) ∧
          ∀ n, n ≠ k.member → memberAt t n = memberAt s n))) ∧
  (∀ d : Dst,
    ProducerFormOff (.dqpop · d)
      (fun s m c => if m.kind = .curator ∨ ((coreAt s m.core).curatorOf ≠ some m.launch ∧ m.r.getP c.guard ≠ c.sense) then some 0x01
        else dstFault m false d)
      d false [] (fun s k m c _ t =>
        let u := coreAt s m.core
        (∀ e rest, u.dq = e :: rest → e.held = false → u.dqWaiters = [] → m.fences = [] →
          SameMemory s t ∧ (coreAt t m.core).dq = rest ∧ (coreAt t m.core).dqWaiters = [] ∧
          ∃ v, memberAt t k.member = some v ∧ Wrote m v k.slot c.k d false ((e.value).zeroExtend 64)) ∧
        ((u.dq = [] ∨ (∃ e rest, u.dq = e :: rest ∧ e.held = true) ∨ u.dqWaiters ≠ []) →
          Leaves (updCore s m.core fun v => { v with dqWaiters := v.dqWaiters ++ [k.member] }) t k m (.dqpop d))) ∧
    ∀ s core,
      ((coreAt s core).dqWaiters = [] → ∃ t, exec (.dqEntryReleased core) s = .next t ∧
        OnlyCore s t core { coreAt s core with
          dq := (coreAt s core).dq.map fun e => if allPerformed s e.waits then { e with held := false, waits := [] } else e }) ∧
      ∀ w ws e m, (coreAt s core).dqWaiters = w :: ws → (coreAt s core).dq = [e] → allPerformed s e.waits = true →
        memberAt s w = some m → m.wait = .dqpop d → m.terminating = false →
        ∃ t, exec (.dqEntryReleased core) s = .next t ∧ SameMemory s t ∧ (coreAt t core).dq = [] ∧
          (coreAt t core).dqWaiters = ws ∧ ∃ v, memberAt t w = some v ∧ PassedSlot m v ∧
            v.r = afterResult m.r d false ((e.value).zeroExtend 64))

/-- R109, R110: MIGRATE answers 0 and moves nothing where the address lies in the cell's own field, on a peer, in a field that is not
online, or in one without a free annex slot; otherwise it answers 1 and the cell holds an annex slot of a core of that field until
it moves, at its clause's end.
A page that is not present keeps the member at its slot by the model's reading (log 24), and a field that is not online takes no cell (log
35).

R110, R111, R260: a cell that has drained and is in no open barrier of its core, quad or field leaves its slot, and goes on in its
annex slot with its registers and faces; it takes part in the barriers of its new units from its next arrival on.
Which annex slot is taken, and that a field that is not online takes no cell, are the model's readings (log 35).

R105, R106, R108, R204: PARK asks for a park at the clause's end and has no effect in an annex slot; the cell then parks if another
cell can take its slot, and otherwise goes on. The end of a transfer leaves the one parked and the other in the slot.
That the registers of a parked cell stay with it and no byte of memory changes with a park is the model's choice (log 29).

Constructors of `Instr` whose completion this states: migrate, park, migrateMove, parkSelf, parkTransferEnd, migrationResume. -/
def Obligations.MigrationAndParking : Prop :=
  (∀ (d : Dst) (a : Src),
    ProducerForm (.migrate · d a) (fun _ m => match faceUse m with | some x => some x | none => srcFault m .w64 a) d false [(.w64, a)]
      (fun s k m c vs t => ∀ x ctx r, vs = [x] → ctxAt s m.launch m.core = some ctx → m.moveTo = none →
        (migrateTarget s ctx m.core m.home x).1 = .ok r →
        let home := match r.tgt with | .loc pa => homeField s pa | .peer _ _ => none
        let open_ := fun f => f ≠ m.core / 64 ∧ isOnline s f = true ∧ (fieldAt s f).state ≠ .drainBlocked ∧ ∃ g, g / 64 = f ∧
          annexOpen s m.launch g = true
        SameMemory s t ∧ ∃ v, memberAt t k.member = some v ∧
          ((∀ f, home = some f → ¬ open_ f) → v.moveTo = none ∧ Wrote m v k.slot c.k d false 0) ∧
          (∀ f, home = some f → open_ f →
            (∃ g n, v.moveTo = some (g, n) ∧ g / 64 = f ∧ n < 8 ∧ annexOpen s m.launch g = true) ∧
            Wrote m v k.slot c.k d false 1))) ∧
  (∀ s id m, memberAt s id = some m →
    (∀ g n, m.wait = .drain (.migrate g n) → drained m = true → openBarrier s id m = false →
      ∃ t, exec (.migrateMove id) s = .next t ∧ OnlyMember s t id { m with place := .transit }) ∧
    (∀ g n, m.wait = .drain (.migrate g n) → drained m = false ∨ openBarrier s id m = true → Idle (.migrateMove id) s) ∧
    (∀ g n, m.place = .transit → m.moveTo = some (g, n) → ∃ t, exec (.migrationResume id) s = .next t ∧ SameMemory s t ∧
      (∀ x, x ≠ id → memberAt t x = memberAt s x) ∧
      ∃ v, memberAt t id = some v ∧ v.core = g ∧ v.home = m.home ∧ v.place = .annex n ∧ v.moveTo = none ∧ v.r = m.r ∧
        v.pc = m.pc ∧ v.done = m.done ∧ v.pub0 = m.pub0 ∧ v.pub1 = m.pub1 ∧ v.arrivals = m.arrivals ∧
        v.base0[1] = m.arrivals[1].toNat ∧ v.base0[2] = m.arrivals[2].toNat ∧ v.base0[3] = m.arrivals[3].toNat)) ∧
  (ActForm .park
      (fun _ m => if m.kind = .curator then some 0x01 else if m.kind = .tail ∨ m.rd ≠ 0 then some 0x0B else none) []
      (arg0 fun s k m t =>
        ((∃ n, m.place = .annex n) → t = s) ∧
        ((∀ n, m.place ≠ .annex n) → OnlyMember s t k.member { m with parkWish := true })) ∧
    (∀ s id m, memberAt s id = some m → m.wait = .drain .park → drained m = true →
      (openJoins s m ≠ [] → m.moveTo = none → ∃ t, exec (.parkSelf id) s = .next t ∧ OnlyMember s t id
        { m with wait := .frameJoin (openJoins s m), joinTails := openJoins s m, readySince := (coreAt s m.core).cyc }) ∧
      (openJoins s m = [] → m.moveTo = none → firstCandidate s m.launch m.core = none → ∃ t, exec (.parkSelf id) s = .next t ∧
        OnlyMember s t id { m with parkWish := false, wait := .ready, joinTails := [], readySince := (coreAt s m.core).cyc }) ∧
      (openJoins s m = [] → ∀ u c, firstCandidate s m.launch m.core = some (u, c) → u ≠ id → memberAt s u = some c →
        inTransfer s m.launch m.core = false → ∃ t, exec (.parkSelf id) s = .next t ∧ SameMemory s t ∧
          (∃ v, memberAt t id = some v ∧ v.place = .transit ∧ v.wait = .park ∧ v.r = m.r) ∧
          (∃ v, memberAt t u = some v ∧ v.place = .transit ∧ v.r = c.r) ∧
          (coreAt t m.core).transfers = (coreAt s m.core).transfers ++
            [{ launch := m.launch, parking := some id, unparking := u, slot := slotNumber m }])) ∧
    ∀ s core launch x p q m n, (coreAt s core).transfers = [x] → x.launch = launch → x.parking = some p → x.unparking = q →
      p ≠ q → memberAt s p = some m → memberAt s q = some n → (∀ sc u k, n.wait ≠ .barrier sc u k) →
      ∃ t, exec (.parkTransferEnd core launch) s = .next t ∧ SameButArchive s t ∧ (coreAt t core).transfers = [] ∧
        (∃ v, memberAt t p = some v ∧ v.place = .parked ∧ v.r = m.r ∧ v.wait = m.wait) ∧
        ∃ v, memberAt t q = some v ∧ v.place = .slot x.slot ∧ v.demanded = false ∧ v.r = n.r)

/-- R14, R20: what a neighbour operand gives at its slot: zero beyond an edge that reads as zero; the cell's own face of the step that
it has completed; and the face that a neighbour of the same core has published of that step, or its last where it has departed.

R20, R106, R350: a neighbour read arrives where the named cell is, and raises a demand on a parked cell that has not published the
step; once the step is published the value comes back, and its reader is ready at the slot that it left.

Constructors of `Instr` whose completion this states: neighbourReadArrival, neighbourReadResume. -/
def Obligations.Neighbours : Prop :=
  (∀ (s : State) (m : Member) (l : Launch) (d : Dir) (f : BitVec 3),
    launchAt s m.launch = some l → m.nbrVals = [] →
    (nbrLinear l m d = none → readSrc s m .w32 (.nbr d f) = .val 0) ∧
    (nbrLinear l m d = some m.linear →
      readSrc s m .w32 (.nbr d f) = if faceBad s m f then .away d f ((cellAt s m.launch m.linear).map (·.1)) true
        else .val ((pubAt m m.done f).zeroExtend 64)) ∧
    ∀ n id c, nbrLinear l m d = some n → n ≠ m.linear → cellAt s m.launch n = some (id, c) → c.home = m.core → c.core = c.home →
      (faceBad s c f = false → c.departed = false → m.done ≤ c.done →
        readSrc s m .w32 (.nbr d f) = .val ((pubAt c m.done f).zeroExtend 64)) ∧
      (faceBad s c f = false → c.departed = true →
        readSrc s m .w32 (.nbr d f) = .val ((pubAt c (min m.done c.done) f).zeroExtend 64)) ∧
      (faceBad s c f = true ∨ c.departed = false ∧ c.done < m.done → readSrc s m .w32 (.nbr d f) = .away d f (some id) true)) ∧
  (∀ s r (x : NbrRead) m c (v : Word), tabGet s.nbrs r = some x → ∀ n, x.target = some n →
    n ≠ x.reader → memberAt s n = some c → memberAt s x.reader = some m →
    (x.arrived = false → ∃ t, exec (.neighbourReadArrival r) s = .next t ∧ SameMemory s t ∧
      tabGet t.nbrs r = some { x with arrived := true } ∧
      memberAt t n = some (if c.place = .parked ∧ c.departed = false ∧ c.done < x.gen then { c with demanded := true } else c)) ∧
    (facePoisoned s x = true → Idle (.neighbourReadResume r v) s) ∧
    (x.arrived = true → (c.departed = true ∨ x.gen ≤ c.done) → facePoisoned s x = false → m.wait = .nbr x.dir x.face →
      seated m = true →
      ∃ t, exec (.neighbourReadResume r v) s = .next t ∧ SameMemory s t ∧
        memberAt t x.reader = some { m with
          wait := .ready, readySince := (coreAt s m.core).cyc,
          nbrVals := m.nbrVals ++ [(x.dir, x.face, pubAt c (if c.departed then min x.gen c.done else x.gen) x.face)] }))

/-- R171: the address of an element. Inside the view it follows the strides, column-sliced or not; outside, BOUNDS decides: a ViewBounds
fault, the nearest element, no element, or the index modulo the count.

R172, R185, R187, R189: LD and ST. The data register of ST is read at issue, and narrowed to the element; an 8-byte element needs an even
register. Outside a view that reads as zero LD writes zeros and ST is dropped.

R190: LDX and STX take a raw space address: its pair plus the displacement in bytes; they are aligned to the width that the instruction
states, and a reserved space raises SegmentLimit.

R181, R275: a held fault of such an access enters the operand log, and so does a failed check whose cause ROUTE sends to Sernus, as
0x80 + cause; any other failed check traps.

Constructors of `Instr` whose completion this states: ld, st, ldx, stx. -/
def Obligations.AccessIssue : Prop :=
  (∀ (v : ViewBits) (size : Nat) (e : Int),
    let n := View.dim0 v * View.dim1 v * View.dim2 v
    let at_ := fun i : Nat =>
      let i0 := i % View.dim0 v
      let i1 := i / View.dim0 v % View.dim1 v
      let i2 := i / (View.dim0 v * View.dim1 v)
      let off := View.base v % 2 ^ 60 + i0 * size + i2 * View.stride2 v +
        (if v.getLsbD 218 then i1 % 16 * 2 ^ 18 + i1 / 16 * View.stride1 v else i1 * View.stride1 v)
      if 2 ^ 60 ≤ off then Elem.bad 0x03 (View.base v / 2 ^ 60)
      else Elem.addr (BitVec.ofNat 64 (View.base v / 2 ^ 60 * 2 ^ 60 + off))
    (0 ≤ e → e < n → elementAddress v size e = at_ e.toNat) ∧
    (e < 0 ∨ n ≤ e →
      (View.bounds v = 0 → elementAddress v size e = .bad 0x04 (BitVec.ofInt 32 e).toNat) ∧
      (View.bounds v = 1 → elementAddress v size e = at_ (if e < 0 then 0 else n - 1)) ∧
      (View.bounds v = 2 → elementAddress v size e = .outside) ∧
      (View.bounds v = 3 → elementAddress v size e = at_ (e % (n : Int)).toNat))) ∧
  (∀ (d : Dst) (o : MemOp),
    let check := fun (m : Member) (v : ViewBits) => dstFault m (viewElemSize v == 8) d
    ViewAccess (.ld · d o) o o.disp.toInt .load check (fun _ => true) Need.load (fun n => (n, n)) (fun _ _ _ _ _ a => a.dest = d)
      (fun f r => afterResult r d (fmtSize f == 8) 0) ∧
    ViewAccess (.st · d o) o o.disp.toInt .store check (fun _ => true) Need.store (fun n => (n, n)) (fun _ m f _ _ a =>
      a.data.toNat = (dstValue m (fmtSize f == 8) d).toNat % 2 ^ (8 * fmtSize f)) (fun _ r => r)) ∧
  (∀ (d : Dst) (w : Fmt) (o : MemOp),
    let form := fun (mk : Common → Instr) (kind : AccKind) (need : Need) (want : Member → Access → Prop) =>
      ∀ (s : State) (k : Cur) (m : Member) (c : Common) (x : Word64) (ctx : Ctx), Issuing s k m → ctxAt s m.launch m.core = some ctx →
        let first := match srcFault m .w64 o.off with | some x => some x | none => dstFault m (fmtSize w == 8) d
        (∀ x, first = some x → CheckFails s s k m o.tok.toNat x (if x = 0x01 then k.slot else 0) 0 (exec (mk c) s)) ∧
        (first = none → Off m c → exec (mk c) s = .next s) ∧
        (first = none → Runs m c → readSrc s m .w64 o.off = .val x →
          let addr := x + o.disp.signExtend 64
          (addr.toNat % fmtSize w ≠ 0 → CheckFails s s k m o.tok.toNat 0x05 0 addr (exec (mk c) s)) ∧
          (addr.toNat % fmtSize w = 0 →
            (4 < addr.toNat / 2 ^ 60 → CheckFails s s k m o.tok.toNat 0x03 (addr.toNat / 2 ^ 60) addr (exec (mk c) s)) ∧
            Resolves s k m ctx o.tok.toNat need addr (fmtSize w) (exec (mk c) s) fun r t =>
              Enters s t k m o.tok.toNat (fun _ _ a => Aimed o addr r w (fmtSize w) kind a ∧ want m a)))
    form (.ldx · d w o) .load Need.load (fun _ a => a.dest = d) ∧
    form (.stx · d w o) .store Need.store (fun m a => a.data.toNat = (dstValue m (fmtSize w == 8) d).toNat % 2 ^ (8 * fmtSize w)))

/-- R193 to R201: the other instructions on one element of a view: atomics, keeper operations and sync words. Their operands are read at
issue; SWAIT leaves its group.

R171, R196: KCAS2 names two words of one 256-byte block; both element addresses are formed, each with its own faults; words of two
blocks raise Misaligned, either word outside a zero-filled view gives zeros, and otherwise one access on both words enters.

R181, R275: held faults and failed checks are as for loads and stores.

Constructors of `Instr` whose completion this states: atom, atomr, cas, kcas2, kenq, kdeq, kchase, kchunk, sarm, swait, sadd. -/
def Obligations.HomeOperationIssue : Prop :=
  (∀ (r : BitVec 6) (fn : AtomFn) (word : BitVec 4) (o : MemOp),
    let disp := (o.disp.extractLsb' 0 12).toInt
    let even := fun (_ : Member) (v : ViewBits) => if viewElemSize v = 8 ∧ r.getLsbD 0 = true then some 0x01 else none
    let block := fun (_ : Member) (v : ViewBits) =>
      if (viewElemSize v = 4 ∧ r.getLsbD 0 = true) ∨ (viewElemSize v = 8 ∧ r.toNat % 4 ≠ 0) then some 0x01 else none
    let none_ := fun (_ : Member) (_ : ViewBits) => (none : Option Nat)
    let data := fun (m : Member) (f : Fmt) (n : BitVec 6) => if fmtSize f = 8 then m.r.pair n else (m.r.getG n).zeroExtend 64
    let own := fun n : Nat => (n, n)
    let wide := fun n : Nat => fun _ : Nat => (n, n)
    let int4 := fun f : Fmt => f == .n32 || f == .i32
    let zeroPair := fun x : Regs => afterResult x (.g r) true 0
    ViewAccess (.atom · r fn o) o disp (.atom fn false) even (atomAccepts fn) Need.atom own
      (fun _ m f _ _ a => a.data = data m f r) (fun _ x => x) ∧
    ViewAccess (.atomr · r fn o) o disp (.atom fn true) even (atomAccepts fn) Need.atom own
      (fun _ m f _ _ a => a.data = data m f r ∧ a.dest = .g r) (fun f x => afterResult x (.g r) (fmtSize f == 8) 0) ∧
    ViewAccess (.cas · r o) o disp .cas block (fun f => 4 ≤ fmtSize f) Need.atom own
      (fun _ m f _ _ a => a.data = data m f r ∧ a.data2 = data m f (if fmtSize f = 8 then r + 2 else r + 1) ∧ a.dest = .g r)
      (fun f x => afterResult x (.g r) (fmtSize f == 8) 0) ∧
    ViewAccess (.kenq · r o) o disp .kenq none_ (fun f => fmtSize f == 8) Need.atom (wide 16)
      (fun _ m _ _ _ a => a.data = m.r.pair r ∧ a.dest = .g r) (fun _ => zeroPair) ∧
    ViewAccess (.kdeq · r o) o disp .kdeq none_ (fun f => fmtSize f == 8) Need.atom (wide 16) (fun _ _ _ _ _ a => a.dest = .g r)
      (fun _ => zeroPair) ∧
    ViewAccess (.kchase · r word o) o disp .kchase none_ (fun f => fmtSize f == 8) Need.atom (wide 8)
      (fun _ m _ _ _ a => lo32 a.data = m.r.getG r ∧ a.dest = .g r ∧ a.param = word.toNat)
      (fun _ x => afterResult (zeroPair x) (.g (r + 2)) true 0) ∧
    ViewAccess (.kchunk · r o) o disp .kchunk none_ int4 Need.atom (wide 16) (fun _ _ _ _ _ a => a.dest = .g r) (fun _ => zeroPair) ∧
    ViewAccess (.sarm · r o) o disp .sarm none_ int4 Need.atom (wide 16) (fun _ m _ _ _ a => lo32 a.data = m.r.getG r)
      (fun _ x => x) ∧
    ViewAccess (.sadd · r o) o disp .sadd none_ int4 Need.atom (wide 16) (fun _ m _ _ _ a => lo32 a.data = m.r.getG r)
      (fun _ x => x) ∧
    ViewAccess (.swait · r o) o disp .swait none_ int4 Need.swait (wide 16)
      (fun k m _ id v a => lo32 a.data = m.r.getG r ∧ a.dest = .g r ∧ v.wait = .swait id ∧ v.slot = k.slot)
      (fun _ x => afterResult x (.g r) false 0)) ∧
  (∀ (r : BitVec 6) (dist : BitVec 4) (o : MemOp) (s : State) (k : Cur) (m : Member)
      (c : Common) (x : Word64) (ctx : Ctx) (f : Fmt),
    Issuing s k m → srcFault m .w32 o.off = none → ctxAt s m.launch m.core = some ctx →
    let v := viewAt s m.core o.view.toNat
    let e := (lo32 x).toInt + (o.disp.extractLsb' 0 12).toInt
    View.valid v = true → fmtOfCode (View.fmt v) = some f → fmtSize f = 4 →
    (Off m c → exec (.kcas2 c r dist o) s = .next s) ∧
    (Runs m c → readSrc s m .w32 o.off = .val x →
      (∀ cause detail, elementAddress v 4 e = .bad cause detail ∨
          elementAddress v 4 (e + dist.toNat) = .bad cause detail ∧ (∀ x y, elementAddress v 4 e ≠ .bad x y) →
        CheckFails s s k m o.tok.toNat cause detail 0 (exec (.kcas2 c r dist o) s)) ∧
      (elementAddress v 4 e = .outside → (∀ x y, elementAddress v 4 (e + dist.toNat) ≠ .bad x y) →
        ∃ t, exec (.kcas2 c r dist o) s = .next t ∧ NoAccess s t k m fun x => afterResult x (.g r) true 0) ∧
      (elementAddress v 4 (e + dist.toNat) = .outside → (∀ x y, elementAddress v 4 e ≠ .bad x y) →
        ∃ t, exec (.kcas2 c r dist o) s = .next t ∧ NoAccess s t k m fun x => afterResult x (.g r) true 0) ∧
      (∀ a0 a1, elementAddress v 4 e = .addr a0 → elementAddress v 4 (e + dist.toNat) = .addr a1 →
        (a0.toNat / 256 ≠ a1.toNat / 256 → CheckFails s s k m o.tok.toNat 0x05 0 a0 (exec (.kcas2 c r dist o) s)) ∧
        (a0.toNat / 256 = a1.toNat / 256 → a0.toNat % 4 = 0 → a1.toNat % 4 = 0 → tokCount m o.tok.toNat < 255 →
          heldCount s k.member m < 8 →
          ∀ p0 p1 q0 q1 s1 attr0 attr1,
            resolve s ctx m.core m.home false Need.atom a0 4 = (.ok ⟨.loc p0, attr0, q0⟩, s1) →
            (resolve s1 ctx m.core m.home false Need.atom a1 4).1 = .ok ⟨.loc p1, attr1, q1⟩ →
            ctxAt s1 m.launch m.core = some ctx →
            ∃ t, exec (.kcas2 c r dist o) s = .next t ∧ Enters s t k m o.tok.toNat (fun _ _ a =>
              a.kind = .kcas2 ∧ a.dest = .g r ∧ a.data = m.r.pair r ∧ a.data2 = m.r.pair (r + 2) ∧ a.tgt = .loc (min p0 p1) ∧
              a.size = max p0 p1 + 4 - min p0 p1 ∧ a.param = (p0 - min p0 p1) * 256 + (p1 - min p0 p1))))))

/-- R86, R165, R192: VSET writes a view record from eight registers, and VGET reads one into eight; an entry outside the context's window
raises PrivilegeViolation.

R192: VLD reads four elements as four loads; once each has found its place they enter under one token.

R191: the access of PREF never faults, and it writes no register, no record and no entry of the operand log; a line that the core may
cache is asked for, and everything else is dropped. Its line arrives and its token counts down. That a face which its member may not
name traps here as in every instruction is the model's reading (log 64).

Constructors of `Instr` whose completion this states: pref, vset, vget, vld, prefLineArrival. -/
def Obligations.Views : Prop :=
  (∀ (base view : BitVec 6),
    let window := fun (s : State) (m : Member) => match ctxAt s m.launch m.core with
      | some c => if c.vwFirst ≤ view.toNat ∧ view.toNat < c.vwFirst + c.vwCount then none else some 0x02
      | none => some 0x02
    ActForm (.vset · base view) window [] (arg0 fun s _ m t =>
      t = { s with cores := t.cores } ∧ (∀ g, g ≠ m.core → coreAt t g = coreAt s g) ∧
      coreAt t m.core = { coreAt s m.core with views := (coreAt t m.core).views } ∧
      (∀ n, n ≠ view.toNat → viewAt t m.core n = viewAt s m.core n) ∧
      ∀ i, i < 8 → (viewAt t m.core view.toNat).extractLsb' (32 * i) 32 = m.r.getG (base + BitVec.ofNat 6 i)) ∧
    ActForm (.vget · base view) window [] (arg0 fun s k m t =>
      ∃ v, OnlyMember s t k.member v ∧ v = { m with r := v.r, joinTails := v.joinTails } ∧ v.r.f = m.r.f ∧ v.r.p = m.r.p ∧
      (∀ i, i < 8 → v.r.getG (base + BitVec.ofNat 6 i) = (viewAt s m.core view.toNat).extractLsb' (32 * i) 32) ∧
      ∀ n : BitVec 6, (∀ i, i < 8 → n ≠ base + BitVec.ofNat 6 i) → v.r.getG n = m.r.getG n)) ∧
  (∀ (entry : BitVec 6) (o : MemOp) (s : State) (k : Cur) (m : Member) (c : Common)
      (x : Word64) (ctx : Ctx) (f : Fmt) (addr : Nat → Word64) (pa : Nat → Nat),
    Issuing s k m → (∀ x, isRouted s m x = false) → srcFault m .w32 o.off = none → ctxAt s m.launch m.core = some ctx →
    (¬ (ctx.vwFirst ≤ entry.toNat ∧ entry.toNat < ctx.vwFirst + ctx.vwCount) →
      exec (.vld c entry o) s = .next (trap s k 0x02 0)) ∧
    (ctx.vwFirst ≤ entry.toNat → entry.toNat < ctx.vwFirst + ctx.vwCount →
      (Off m c → exec (.vld c entry o) s = .next s) ∧
      (Runs m c → readSrc s m .w32 o.off = .val x →
        let v := viewAt s m.core o.view.toNat
        let e := (lo32 x).toInt + o.disp.toInt
        View.valid v = true → fmtOfCode (View.fmt v) = some f →
        (fmtSize f ≠ 8 → exec (.vld c entry o) s = .next (trap s k 0x04 0)) ∧
        (fmtSize f = 8 → elementAddress v 8 e = .addr (addr 0) → (addr 0).toNat % 32 ≠ 0 →
          ∃ u, SameMemory s u ∧ exec (.vld c entry o) s = .next (trap u k 0x05 0 (addr 0))) ∧
        (fmtSize f = 8 → (addr 0).toNat % 32 = 0 → tokCount m o.tok.toNat < 255 → heldCount s k.member m = 0 →
          (∀ i, i < 4 → (addr i).toNat % 8 = 0 ∧ elementAddress v 8 (e + i) = .addr (addr i) ∧
            ∃ at_ q, resolve s ctx m.core m.home false Need.load (addr i) 8 = (.ok ⟨.loc (pa i), at_, q⟩, s)) →
          ∃ t w, exec (.vld c entry o) s = .next t ∧ SameMemory s t ∧ memberAt t k.member = some w ∧ w.r = m.r ∧
            tokCount w o.tok.toNat = tokCount m o.tok.toNat + 1 ∧
            ∀ i, i < 4 → ∃ id a, tabGet t.accs id = some a ∧ a.kind = .vld ∧ a.member = k.member ∧ a.size = 8 ∧
              a.tgt = .loc (pa i) ∧ a.param = 4 * entry.toNat + i ∧ a.phase = .issued)))) ∧
  (∀ (o : MemOp) (s : State) (k : Cur) (m : Member) (c : Common), Issuing s k m →
    (∀ x, srcFault m .w32 o.off = some x → exec (.pref c o) s = .next (trap s k x (if x = 0x01 then k.slot else 0))) ∧
    (srcFault m .w32 o.off = none → (∀ d f g a, readSrc s m .w32 o.off ≠ .away d f g a) →
      ∃ t, exec (.pref c o) s = .next t ∧ SameMemory s t ∧
      t.mod = s.mod ∧ (coreAt t m.core).log = (coreAt s m.core).log ∧
      ∃ v, memberAt t k.member = some v ∧ v.r = m.r ∧ v.lat = m.lat ∧ v.trapMode = m.trapMode) ∧
    (∀ x f addr ctx r, srcFault m .w32 o.off = none → Runs m c → readSrc s m .w32 o.off = .val x →
      let v := viewAt s m.core o.view.toNat
      View.valid v = true → fmtOfCode (View.fmt v) = some f →
      elementAddress v (fmtSize f) ((lo32 x).toInt + o.disp.toInt) = .addr addr → addr.toNat % fmtSize f = 0 →
      ctxAt s m.launch m.core = some ctx → (resolve s ctx m.core m.home false Need.load addr (fmtSize f)).1 = .ok r →
      cacheable m.core addr r.tgt = true → policyOf o.pol r.pol ≠ .bypass → tokCount m o.tok.toNat < 255 →
      heldCount s k.member m < 8 →
      ∃ t, exec (.pref c o) s = .next t ∧
        Enters s t k m o.tok.toNat (fun _ _ a => Aimed o addr r f (fmtSize f) .pref a)) ∧
    ∀ id a victim, tabGet s.accs id = some a → a.kind = .pref → a.phase = .issued →
      ∃ t, exec (.prefLineArrival id victim) s = .next t ∧ SameMemory s t ∧ Completed s t id a (fun r => r) ∧
        (cacheable a.core a.addr a.tgt = true → a.pol ≠ .bypass →
          ∃ l ∈ (coreAt t a.core).lines, l.1 = lineKey a.tgt))

/-- R186, R187: a store is performed where nothing before it holds it back, and then alone changes memory: its bytes, little-endian. It
completes, and until then nothing happens.

R35, R185 to R187: a load on this module takes its value in one step and completes with it in its data register, widened as its format
says; memory stays as it is, but for the archive log.
Data read below a frame that waits to be reclaimed are left open (log 6).

R193, R194: an atomic is one indivisible step at its home: memory takes the function of the old value and the operand, and a returning
form takes the old value. CAS writes where the old bits are those expected, and returns them. A value that came back from another field
is taken once the stamp of its response is decoded (R239).
Data read below a frame that waits to be reclaimed are left open (log 6).

Constructors of `Instr` whose completion this states: atomicAtHome, loadComplete, storePerformed. -/
def Obligations.AccessesPerformed : Prop :=
  (∀ s id a pa, tabGet s.accs id = some a → a.kind = .store → a.tgt = .loc pa →
    (mayPerform s id a = false → Idle (.storePerformed id) s) ∧
    (mayPerform s id a = true → InMemory s pa a.size → ∃ t, exec (.storePerformed id) s = .next t ∧
      memReadN t.mem (physOf s pa) a.size = bytesOf a.size a.data.toNat ∧ SameOutside s t (physOf s pa) a.size ∧
      Completed s t id a (fun r => r))) ∧
  (∀ s id a pa, tabGet s.accs id = some a → a.kind = .load → a.tgt = .loc pa →
    mayPerform s id a = true → InMemory s pa a.size → a.size = fmtSize a.fmt →
    ∃ t, exec (.loadComplete id) s = .next t ∧ SameButArchive s t ∧
      let x := memNat s (physOf s pa) a.size
      CompletedRead s t id a fun r => afterResult r a.dest (a.size == 8) (match a.fmt with
        | .i8 => ((BitVec.ofNat 8 x).signExtend 32).zeroExtend 64
        | .i16 => ((BitVec.ofNat 16 x).signExtend 32).zeroExtend 64
        | _ => BitVec.ofNat 64 x)) ∧
  (∀ s id a pa, tabGet s.accs id = some a → a.tgt = .loc pa →
    InMemory s pa a.size → a.size = fmtSize a.fmt →
    let p := physOf s pa
    let old := memNat s p a.size
    let v := a.data.toNat % 2 ^ (8 * a.size)
    let got := fun (b : Bool) (x : Word64) (r : Regs) => if b then afterResult r a.dest (a.size == 8) x else r
    (∀ fn ret, a.kind = .atom fn ret → a.phase ≠ .returning → mayPerform s id a = true → atomAccepts fn a.fmt = true →
      ∃ t, exec (.atomicAtHome id) s = .next t ∧ memReadN t.mem p a.size = bytesOf a.size (atomSpec fn a.fmt old v) ∧
        SameOutside s t p a.size ∧ CompletedRead s t id a (got ret (BitVec.ofNat 64 old))) ∧
    (a.kind = .cas → a.phase ≠ .returning → mayPerform s id a = true → ∃ t, exec (.atomicAtHome id) s = .next t ∧
      (old = v → memReadN t.mem p a.size = bytesOf a.size a.data2.toNat) ∧ (old ≠ v → SameButArchive s t) ∧
      SameOutside s t p a.size ∧ CompletedRead s t id a (got true (BitVec.ofNat 64 old))) ∧
    (∀ fn ret, (a.kind = .cas ∧ ret = true) ∨ a.kind = .atom fn ret → a.phase = .returning →
      (∀ u, takeResponse s id a = some u → ∃ t, exec (.atomicAtHome id) s = .next t ∧ SameMemory s t ∧
        CompletedRead s t id a (got ret a.value)) ∧
      (takeResponse s id a = none → Idle (.atomicAtHome id) s)))

/-- R196, R199: KCAS2 swaps two words where both are as expected, and returns them; KCHUNK hands out the next chunk of a range, never more
than is left.
Data read below a frame that waits to be reclaimed are left open (log 6).

R195, R197: KENQ appends a node to a list and returns the tail before it; KDEQ takes the first node and returns it; both return 0 of
an empty list. A node that fails its check leaves memory as it is, but for the archive log, and returns the status word. Stated where
the nodes have the list's home.
Data read below a frame that waits to be reclaimed are left open (log 6).

R198: a chase from a null start ends at once; otherwise each hop resolves the next node at the keeper where the chase stands and reads its
pointer, at once where its home is that keeper's field and in a node access where it is not, and the chase ends at a null pointer, at
the limit of hops, or with the status of a node that fails its check. Memory stays as it is, but for the archive log.

R235, R248, R308, R323: a word read in a field other than the chase's own adds its line's stamp to what goes back; a word that is poisoned, or
that the budget does not admit, is not read yet.
Data read below a frame that waits to be reclaimed are left open (log 6).

Constructors of `Instr` whose completion this states: kchaseHop, keeperOperation. -/
def Obligations.Keepers : Prop :=
  (∀ s id a pa b, tabGet s.accs id = some a → a.tgt = .loc pa → a.dest = .g b →
    a.phase = .issued → mayPerform s id a = true → InMemory s pa a.size →
    let p := physOf s pa
    (a.kind = .kcas2 → a.param / 256 + 4 ≤ a.size → a.param % 256 + 4 ≤ a.size →
      let p0 := p + a.param / 256
      let p1 := p + a.param % 256
      let hit := memNat s p0 4 = (lo32 a.data).toNat ∧ memNat s p1 4 = (a.data.extractLsb' 32 32).toNat
      ∃ t, exec (.keeperOperation id) s = .next t ∧ SameOutside s t p a.size ∧ (¬ hit → SameButArchive s t) ∧
        (hit → memReadN t.mem p1 4 = bytesOf 4 (a.data2.extractLsb' 32 32).toNat ∧
          (p0 + 4 ≤ p1 ∨ p1 + 4 ≤ p0 → NotArchived s t p0 4 → memReadN t.mem p0 4 = bytesOf 4 (lo32 a.data2).toNat)) ∧
        CompletedRead s t id a fun r => afterResult r (.g b) true (BitVec.ofNat 64 (memNat s p0 4 + memNat s p1 4 * 2 ^ 32))) ∧
    (a.kind = .kchunk → a.size = 16 →
      let next := memNat s p 4
      let left := memNat s (p + 4) 4 - next
      let div := max (memNat s (p + 12) 4) 1
      let c := min (max (memNat s (p + 8) 4) ((left + div - 1) / div)) left
      ∃ t, exec (.keeperOperation id) s = .next t ∧ memNat t p 4 = next + c ∧ SameOutside s t p 4 ∧
        CompletedRead s t id a fun r => afterResult r (.g b) true (BitVec.ofNat 64 (next + c * 2 ^ 32)))) ∧
  (∀ s id a pa b, tabGet s.accs id = some a → a.tgt = .loc pa → a.dest = .g b → a.size = 16 →
    a.phase = .issued → mayPerform s id a = true → InMemory s pa 16 →
    let p := physOf s pa
    let who := some (a.launch, a.core)
    let result := fun x : Word64 => fun r : Regs => afterResult r (.g b) true x
    let status := fun cc : Nat => (BitVec.ofNat 64 (0xF000000000000000 + cc) : Word64)
    (a.kind = .kdeq →
      let h := memNat s p 8
      (h = 0 → ∃ t, exec (.keeperOperation id) s = .next t ∧ SameButArchive s t ∧ CompletedRead s t id a (result 0)) ∧
      (∀ cc s1, h ≠ 0 → nodeAddr s who (keeperOf s pa) a.descs Need.load (BitVec.ofNat 64 h) = (.inr cc, s1) →
        ∃ t, exec (.keeperOperation id) s = .next t ∧ SameButArchive s t ∧ CompletedRead s t id a (result (status cc))) ∧
      (∀ q s1, h ≠ 0 → nodeAddr s who (keeperOf s pa) a.descs Need.load (BitVec.ofNat 64 h) = (.inl q, s1) → InMemory s q 8 →
        homeField s q = homeField s pa →
        let next := memNat s (physOf s q) 8
        ∃ t, exec (.keeperOperation id) s = .next t ∧ SameOutside s t p 16 ∧ CompletedRead s t id a (result (BitVec.ofNat 64 h)) ∧
          (NotArchived s t (physOf s q) 8 → (NotArchived s t p 8 → memNat t p 8 = next) ∧
            (next = 0 → memNat t (p + 8) 8 = 0) ∧ (next ≠ 0 → SameOutside s t p 8)))) ∧
    (a.kind = .kenq →
      let tail := memNat s (p + 8) 8
      (∀ q s1, tail = 0 → nodeAddr s who (keeperOf s pa) a.descs Need.atom a.data = (.inl q, s1) → InMemory s q 8 →
        homeField s q = homeField s pa → (physOf s q + 8 ≤ p ∨ p + 16 ≤ physOf s q) →
        ∃ t, exec (.keeperOperation id) s = .next t ∧ (NotArchived s t p 8 → memNat t p 8 = a.data.toNat) ∧
          memNat t (p + 8) 8 = a.data.toNat ∧ (NotArchived s t (physOf s q) 8 → memNat t (physOf s q) 8 = 0) ∧
          (∀ x, ¬ (p ≤ x ∧ x < p + 16) → ¬ (physOf s q ≤ x ∧ x < physOf s q + 8) → ¬ InArchive s t x →
            memRead t.mem x = memRead s.mem x) ∧
          CompletedRead s t id a (result 0)) ∧
      (∀ cc s1, nodeAddr s who (keeperOf s pa) a.descs Need.atom a.data = (.inr cc, s1) →
        ∃ t, exec (.keeperOperation id) s = .next t ∧ SameButArchive s t ∧ CompletedRead s t id a (result (status cc))) ∧
      (∀ q q' s1 s2, tail ≠ 0 → nodeAddr s who (keeperOf s pa) a.descs Need.atom a.data = (.inl q, s1) →
        nodeAddr s1 who (keeperOf s pa) a.descs Need.atom (BitVec.ofNat 64 tail) = (.inl q', s2) → InMemory s q 8 → InMemory s q' 8 →
        homeField s q = homeField s pa → homeField s q' = homeField s pa →
        (physOf s q + 8 ≤ p ∨ p + 16 ≤ physOf s q) → (physOf s q' + 8 ≤ p ∨ p + 16 ≤ physOf s q') →
        (physOf s q + 8 ≤ physOf s q' ∨ physOf s q' + 8 ≤ physOf s q) →
        ∃ t, exec (.keeperOperation id) s = .next t ∧ memNat t (p + 8) 8 = a.data.toNat ∧
          (NotArchived s t (physOf s q') 8 → memNat t (physOf s q') 8 = a.data.toNat) ∧
          (NotArchived s t (physOf s q) 8 → memNat t (physOf s q) 8 = 0) ∧
          (NotArchived s t p 8 → memNat t p 8 = memNat s p 8) ∧ CompletedRead s t id a (result (BitVec.ofNat 64 tail))))) ∧
  (∀ s id a pa b, tabGet s.accs id = some a → a.kind = .kchase → a.tgt = .loc pa →
    a.dest = .g b →
    let ends := fun (p : Word64) (hops why : Nat) (r : Regs) =>
      ((afterResult r (.g b) true p).setG (b + 2) (BitVec.ofNat 32 hops)).setG (b + 3) (BitVec.ofNat 32 why)
    let n := (lo32 a.data).toNat
    let limit := if n = 0 ∨ 16 < n then 16 else n
    let who := some (a.launch, a.core)
    let back := fun (t : State) (stamp : Vec) (home : Option Nat) (p : Word64) (hops why : Nat) =>
      GoesBack s t id { a with stamp := stamp } home p (BitVec.ofNat 64 (hops + why * 2 ^ 32)) (ends p hops why)
    let took := fun (t : State) (stamp : Vec) (q : Nat) (x : Word64) =>
      (x = 0 → back t stamp (homeField s q) a.value a.hops 1) ∧
      (x ≠ 0 → a.hops + 1 = limit → back t stamp (homeField s q) x limit 0) ∧
      (x ≠ 0 → a.hops + 1 < limit → ∃ c, tabGet t.accs id = some c ∧ (a.acq = false → c.met = a.met) ∧
        c = { a with value := x, hops := a.hops + 1, spot := q, fetched := none, stamp := stamp, met := c.met })
    let seen := fun q : Nat => match homeField s q with
      | some d => if a.sequencedKind = true ∧ d ≠ a.field then lineStamp s d q else []
      | none => []
    (a.phase = .issued → mayPerform s id a = true → InMemory s pa 8 →
      ∃ t, exec (.keeperOperation id) s = .next t ∧ SameButArchive s t ∧
        (memNat s (physOf s pa) 8 = 0 → CompletedRead s t id a (ends 0 0 1)) ∧
        (memNat s (physOf s pa) 8 ≠ 0 → ∃ c, tabGet t.accs id = some c ∧ (a.acq = false → c.met = a.met) ∧
          c = { a with phase := .spreading, value := BitVec.ofNat 64 (memNat s (physOf s pa) 8), hops := 0, spot := pa,
                       fetched := none, met := c.met })) ∧
    (a.phase = .spreading → nodeOpen s id = true → Idle (.kchaseHop id) s) ∧
    (a.phase = .spreading → nodeOpen s id = false → a.hops < limit → a.hops < 16 →
      (∀ x, a.fetched = some x → ∃ t, exec (.kchaseHop id) s = .next t ∧ SameMemory s t ∧ took t a.stamp a.spot x) ∧
      (a.fetched = none →
        let node := nodeAddr s who (keeperOf s a.spot) a.descs Need.load (a.value + BitVec.ofNat 64 (8 * a.param))
        ∃ t, exec (.kchaseHop id) s = .next t ∧ SameButArchive s t ∧
          (∀ cc, node.1 = .inr cc → back t a.stamp (homeField s a.spot) (BitVec.ofNat 64 (0xF000000000000000 + cc)) a.hops 2) ∧
          (∀ q, node.1 = .inl q → homeField s q = homeField s a.spot →
            (isPoisoned s q 8 = true ∨ budgetAdmits s a.core 8 q = false → t = s) ∧
            (isPoisoned s q 8 = false → budgetAdmits s a.core 8 q = true → InMemory s q 8 → NotArchived s t (physOf s q) 8 →
              took t (joinVec a.stamp (seen q)) q (BitVec.ofNat 64 (memNat s (physOf s q) 8)))) ∧
          (∀ q, node.1 = .inl q → homeField s q ≠ homeField s a.spot →
            ∃ n c, tabGet t.accs n = some c ∧ c.kind = .nodeRead id ∧ c.tgt = .loc q ∧ c.size = 8 ∧ c.phase = .issued ∧
              c.member = a.member ∧ c.origin = some ((homeField s a.spot).getD a.field)))))

/-- R201: the operations of a sync word, each one indivisible step: SARM sets TARGET and clears COUNT; SADD adds to COUNT, and where
TARGET is reached GEN rises by the generations completed, W clears and every waiter wakes with the new generation; SWAIT returns
GEN where it differs from its operand, and otherwise registers and sets W.

R104, R201, R239: a SWAIT that has its generation, and the stamp that came with it, writes it to its register and goes on behind it,
once its member is seated.
Data read below a frame that waits to be reclaimed are left open (log 6).

Constructors of `Instr` whose completion this states: syncWordOperation, swaitReturn. -/
def Obligations.SyncWords : Prop :=
  (∀ s id a pa, tabGet s.accs id = some a → a.tgt = .loc pa → a.size = 16 →
    a.phase = .issued → mayPerform s id a = true → InMemory s pa 16 →
    let p := physOf s pa
    let target := memNat s p 4
    let gen := memNat s (p + 8) 4
    let w := memNat s (p + 12) 4
    (a.kind = .sarm → ∃ t, exec (.syncWordOperation id) s = .next t ∧ memNat t p 4 = (lo32 a.data).toNat ∧
      memNat t (p + 4) 4 = 0 ∧ SameOutside s t p 8 ∧ Completed s t id a (fun r => r)) ∧
    (a.kind = .sadd →
      let c := memNat s (p + 4) 4 + (lo32 a.data).toNat
      ∃ t, exec (.syncWordOperation id) s = .next t ∧ Completed s t id a (fun r => r) ∧
        (target = 0 → memNat t (p + 4) 4 = c % 2 ^ 32 ∧ SameOutside s t (p + 4) 4) ∧
        (target ≠ 0 → c < target → memNat t (p + 4) 4 = c ∧ SameOutside s t (p + 4) 4) ∧
        (target ≠ 0 → target ≤ c → (NotArchived s t (p + 4) 4 → memNat t (p + 4) 4 = c % target) ∧
          memNat t (p + 8) 4 = (gen + c / target) % 2 ^ 32 ∧ memNat t (p + 12) 4 = w / 2 * 2 ∧ SameOutside s t (p + 4) 12 ∧
          ∀ j b, j ≠ id → tabGet s.accs j = some b → b.kind = .swait → b.phase = .registered → b.tgt = .loc pa →
            ∃ b', tabGet t.accs j = some b' ∧ b'.phase = .returning ∧
              b'.value = BitVec.ofNat 64 ((gen + c / target) % 2 ^ 32))) ∧
    (a.kind = .swait → ∀ m, memberAt s a.member = some m → m.wait = .swait id → ∃ t, exec (.syncWordOperation id) s = .next t ∧
      (gen ≠ (lo32 a.data).toNat → SameButArchive s t ∧
        ∃ b, tabGet t.accs id = some b ∧ b.phase = .returning ∧ b.value = BitVec.ofNat 64 gen) ∧
      (gen = (lo32 a.data).toNat → memNat t (p + 12) 4 = w / 2 * 2 + 1 ∧ SameOutside s t (p + 12) 4 ∧
        ∃ b, tabGet t.accs id = some b ∧ b.phase = .registered))) ∧
  (∀ s id m a x b, memberAt s id = some m → m.wait = .swait a → tabGet s.accs a = some x →
    x.kind = .swait → x.member = id → x.dest = .g b →
    (∀ u, seated m = true → x.phase = .returning → takeResponse s a x = some u → m.fences = [] → m.terminating = false →
      ∃ t, exec (.swaitReturn id) s = .next t ∧ SameMemory s t ∧ CompletedRead s t a x (fun r => r.setG b (lo32 x.value)) ∧
        ∃ v, memberAt t id = some v ∧ PassedSlot m v) ∧
    (seated m = false ∨ x.phase ≠ .returning ∨ takeResponse s a x = none → Idle (.swaitReturn id) s))

/-- R257, R259: FENCE covers what its member has issued and not performed at its scope, but for accesses whose token is outstanding, and a
release beside it the sequences that its context may have observed. With nothing to cover it ends at once; otherwise it stands open,
and its token counts it while accesses are open. Behind an open FENCE.AR no access of the member is performed.
That a release waits for the sequences that its context may have observed is the model's reading (log 67).

R260: barriers. BAR and BARA arrive: they count the member's arrival at the scope; BARA gives the instance's number, and BAR waits for
that instance, as BARW does for the one that its operand names, which must be one that the member has arrived at.

R31, R260: an instance of a unit completes when a cell has arrived at it and every cell of the unit that has not departed no longer
holds it back; a waiter that is seated then goes on behind its barrier.

Constructors of `Instr` whose completion this states: fence, bar, bara, barw, barrierInstanceComplete. -/
def Obligations.FencesAndBarriers : Prop :=
  (∀ (order : Order) (scope : MScope) (tok : BitVec 3),
    ActForm (.fence · order scope tok) (fun _ _ => none) [] (arg0 fun s k m t =>
      let named := tok.toNat < 6
      (named → 255 ≤ tokCount m tok.toNat → t = { s with sched := { s.sched with cur := some { k with hold := true } } }) ∧
      ((named → tokCount m tok.toNat < 255) → m.fences = [] → m.wait ≠ .drain .eret → SameMemory s t ∧
        (∀ n, n ≠ k.member → memberAt t n = memberAt s n) ∧ ∃ v, memberAt t k.member = some v ∧ v.r = m.r ∧ v.lat = m.lat ∧
          FenceLeft s k.member m v (order == .rel || order == .ar) (order == .acq || order == .ar) scope
            (if named then some tok.toNat else none))) ∧
    ∀ s id a m f, tabGet s.accs id = some a → memberAt s a.member = some m → f ∈ m.fences → f.rel = true → f.acq = true →
      f.waits ≠ [] → f.seq ≤ a.seq → a.kind.fenced = true → a.kind.isIo = false → mayPerform s id a = false) ∧
  (∀ (sc : Scope) (d : Option (BitVec 6)) (a : Src),
    let check := fun (m : Member) =>
      if m.kind = .curator then some 0x01 else if m.kind = .tail ∨ m.kind = .task ∨ m.rd ≠ 0 then some 0x0B else none
    let isDone := fun (s : State) (k : Cur) (m : Member) (n : Nat) =>
      sc = .cell ∨ ∃ l, launchAt s m.launch = some l ∧ n ≤ barDone l sc (scopeUnit s sc k.member m.core)
    let waits := fun (s : State) (k : Cur) (m : Member) (n : Nat) (v : Member) =>
      (isDone s k m n → v.wait = m.wait) ∧
      (¬ isDone s k m n → v.wait = .barrier sc (scopeUnit s sc k.member m.core) n ∧ v.slot = k.slot)
    let next := fun (m : Member) => m.arrivals[scopeIndex sc] + 1
    ActForm (.bar · sc) (fun _ m => check m) [] (arg0 fun s k m t => m.fences = [] → SameMemory s t ∧
      (∀ n, n ≠ k.member → memberAt t n = memberAt s n) ∧ ∃ v, memberAt t k.member = some v ∧ v.r = m.r ∧
        v.arrivals = m.arrivals.set (scopeIndex sc) (next m) ∧ waits s k m (next m).toNat v) ∧
    ActForm (.bara · d sc) (fun _ m => check m) [] (arg0 fun s k m t => m.fences = [] → SameMemory s t ∧
      (∀ n, n ≠ k.member → memberAt t n = memberAt s n) ∧ ∃ v, memberAt t k.member = some v ∧ v.wait = m.wait ∧
        v.arrivals = m.arrivals.set (scopeIndex sc) (next m) ∧ v.r = (d.map fun r => m.r.setG r (next m)).getD m.r) ∧
    ActForm (.barw · a sc) (fun _ m => match check m with | some x => some x | none => none) [(.w32, a)]
      (arg1 fun s k m x t =>
        let n := lo32 x
        (n = 0 ∨ m.arrivals[scopeIndex sc].toNat < n.toNat → t = trap s k 0x01 k.slot) ∧
        (n ≠ 0 → n.toNat ≤ m.arrivals[scopeIndex sc].toNat → m.fences = [] → SameMemory s t ∧
          (∀ n, n ≠ k.member → memberAt t n = memberAt s n) ∧
          ∃ v, memberAt t k.member = some v ∧ v.r = m.r ∧ v.arrivals = m.arrivals ∧ waits s k m n.toNat v))) ∧
  ((∀ s launch sc unit k l, launchAt s launch = some l → sc ≠ .pod →
      let cells := unitCells s launch sc unit
      let due := (∃ e ∈ cells, k ≤ e.2.arrivals[scopeIndex sc].toNat) ∧ (∀ e ∈ cells, hasArrived e.2 sc k = true) ∧
        barDone l sc unit < k
      (¬ due → Idle (.barrierInstanceComplete launch sc unit k) s) ∧
      (due → ∃ t v, exec (.barrierInstanceComplete launch sc unit k) s = .next t ∧ SameMemory s t ∧
        launchAt t launch = some v ∧ barDone v sc unit = k)) ∧
    ∀ s id m l sc unit n, memberAt s id = some m → launchAt s m.launch = some l → m.wait = .barrier sc unit n →
      m.fences = [] → m.terminating = false →
      (seated m = true → n ≤ barDone l sc unit → ∃ v, memberAt (passBarrier s id) id = some v ∧ PassedSlot m v ∧ v.r = m.r) ∧
      (seated m = false ∨ barDone l sc unit < n → passBarrier s id = s))

/-- R207 to R211: the commands of the copy engine, the array and the docent at issue, one per form.

R210, R211, R221: the checks of a command at issue, in their order: a view that is invalid or has the wrong shape raises ViewBounds;
registers beyond the views, and an array that another launch's context holds, raise EngineFault with details 1 and 2. Spelled
out for MMAB and for MZERO.

R231: ECAN takes effect at issue on the commands of its member on the units of its mask: they are struck off, but for the place in engine
order at which one that has not run empties its planes, and the ECAN stands in engine order until nothing of them will be performed
any more. That the issuing context of R231 is the issuing member is the model's reading (log 39).

Constructors of `Instr` whose completion this states: copy, copym, mmab, scacc, mload, mstore, mzero, tmma, drun, ecan. -/
def Obligations.EngineCommands : Prop :=
  (∀ (b v v' v'' : BitVec 6) (ob : Option (BitVec 6)) (part acc : BitVec 2) (entry : BitVec 9)
      (f : MatFmt) (rm : Rm) (fz sat : Bool) (tok : BitVec 3),
    CommandForm (.copy · ob v v' rm fz sat tok) .copy ob (some v) (some v') none rm fz sat tok ∧
    CommandForm (.copym · b v v' v'' f rm fz sat tok) (.copym f) (some b) (some v) (some v') (some v'') rm fz sat tok ∧
    CommandForm (.mmab · b v v' f tok) (.mmab f) (some b) (some v) (some v') none .rne false false tok ∧
    CommandForm (.scacc · ob v v' part acc tok) (.scacc part.toNat acc.toNat) ob (some v) (some v') none .rne false false tok ∧
    CommandForm (.mload · ob v acc tok) (.mload acc.toNat) ob (some v) none none .rne false false tok ∧
    CommandForm (.mstore · ob v acc rm fz sat tok) (.mstore acc.toNat) ob (some v) none none rm fz sat tok ∧
    CommandForm (.mzero · acc tok) (.mzero acc.toNat) none none none none .rne false false tok ∧
    CommandForm (.tmma · b v entry tok) (.tmma entry.toNat) (some b) (some v) none none .rne false false tok ∧
    CommandForm (.drun · b entry tok) (.drun entry.toNat) (some b) none none none .rne false false tok) ∧
  (∀ (s : State) (core : Nat) (x : Cmd),
    let claimed := ∃ l, (coreAt s core).eng.owner = some l ∧ l ≠ x.launch
    (∀ c, x.kind = .mzero c → (claimed → cmdFault s core x = some (0x0D, 2)) ∧ (¬ claimed → cmdFault s core x = none)) ∧
    ∀ f, x.kind = .mmab f →
      let valid := View.valid x.va = true ∧ View.valid x.vb = true
      let shape := (View.space x.va = 1 ∨ View.space x.va = 2) ∧ View.space x.vb = 3 ∧ View.colslice x.vb = true ∧
        View.dim0 x.va % 16 = 0 ∧ View.dim0 x.vb % 16 = 0 ∧
        (if f = .bf16 then View.fmt x.va = 9 ∧ View.fmt x.vb = 9 else scaleOk x.va x.sa = true ∧ scaleOk x.vb x.sb = true)
      let within := x.reg 0 < 4 ∧ (f = .se2 → x.reg 0 % 2 = 0) ∧ x.reg 1 < View.dim0 x.va / 16 ∧ x.reg 1 < View.dim0 x.vb / 16 ∧
        x.reg 2 < View.dim1 x.va ∧ x.reg 3 % 16 = 0 ∧ x.reg 3 < View.dim1 x.vb
      (¬ (valid ∧ shape) → cmdFault s core x = some (0x04, 0)) ∧
      (valid → shape → ¬ within → cmdFault s core x = some (0x0D, 1)) ∧
      (valid → shape → within → claimed → cmdFault s core x = some (0x0D, 2)) ∧
      (valid → shape → within → ¬ claimed → cmdFault s core x = none)) ∧
  (∀ (mask tok : BitVec 3),
    ActForm (.ecan · mask tok) (fun _ _ => none) [] (arg0 fun s k m t =>
      (tok.toNat < 6 → 255 ≤ tokCount m tok.toNat → t = { s with sched := { s.sched with cur := some { k with hold := true } } }) ∧
      ((tok.toNat < 6 → tokCount m tok.toNat < 255) → SameMemory s t ∧
        (∃ id y, tabGet (cmdsOf t m.core) id = some y ∧ y.kind = .ecan mask ∧ y.member = k.member ∧ y.phase = .running ∧
          y.tok = tok.toNat ∧ id = s.sched.nextId) ∧
        (∀ i y, Keyed (cmdsOf s m.core) → i ≠ s.sched.nextId → tabGet (cmdsOf s m.core) i = some y →
          isCancelled k.member mask y = true →
          let runs := planesLost y = [] ∨ (y.unread = false ∧ y.kind.unit = .array)
          (runs → tabGet (cmdsOf t m.core) i = none) ∧
          (¬ runs → ∃ z, tabGet (cmdsOf t m.core) i = some z ∧ z.kind = .voided (planesLost y) ∧ z.tok = 7 ∧ z.order = y.order ∧
            z.reads = [] ∧ z.writes = [] ∧ z.wplanes = planesLost y)) ∧
        ((∀ e ∈ cmdsOf s m.core, isCancelled k.member mask e.2 = false) →
          (∀ i, i ≠ s.sched.nextId → tabGet (cmdsOf t m.core) i = tabGet (cmdsOf s m.core) i) ∧
          ∃ v, memberAt t k.member = some v ∧ v.r = m.r ∧ (tok.toNat < 6 → tokCount v tok.toNat = tokCount m tok.toNat + 1)))))

/-- R212 to R218, R227, R323: a copy command whose turn has come reads its next segment and sends its writes; bytes of a peer that have not
come,
a budget that is spent, or a held step of its program before it, let it wait, a held fault leaves it where it stopped, and a failure
stops it. A segment that has landed is counted into the command's sync word, and the bytes of an engine's write go to memory.
That a segment is read and written in one step is the model's choice (log 37).

R208, R214, R219: a COPYM whose copy part has been performed puts its MMAB into the array's queue, directly behind itself in engine
order; a command whose work has been performed ends and its token counts down. Sernus's resumption lets a held command go on.

Constructors of `Instr` whose completion this states: copyCommandRun, copySegmentLanded, copymFollowOnPlace, engineCommandComplete,
engineHeldFaultResume, storePerformed. -/
def Obligations.EngineProgress : Prop :=
  ((∀ s core id x ext, cmdAt s core id = some x → x.kind.unit = .copy → x.unread = true →
      (x.phase = .queued ∧ cmdReady s core id x = true) ∨ (x.phase = .running ∧ heldBefore s core id x = false) →
      let e := segmentOf x x.segs.length
      let src := engineReads s core x ext (copyReads x e.1 e.2)
      (∀ s1, src = (.missing, s1) → Idle (.copyCommandRun core id ext) s) ∧
      (∀ c a s1, src = (.held c a, s1) → exec (.copyCommandRun core id ext) s = .next (holdCmd s1 core id c a)) ∧
      (∀ f s1, src = (.fail f, s1) → exec (.copyCommandRun core id ext) s = .next (stopCmd s1 core id f)) ∧
      (∀ r s1, src = (.ok r, s1) → overBudget s s1 core = true → Idle (.copyCommandRun core id ext) s) ∧
      (∀ r s1 l s2, src = (.ok r, s1) → overBudget s s1 core = false →
        engineStores s1 core id x.segs.length x (copyStores x e.1 e.2 r) = (.ok l, s2) →
        ∃ t y g, exec (.copyCommandRun core id ext) s = .next t ∧ SameButArchive s t ∧ cmdAt t core id = some y ∧
          y.phase = .running ∧ y.segs = x.segs ++ [g] ∧ g.landed = false ∧ g.accs.length = l.length)) ∧
    (∀ s core id x ext, cmdAt s core id = some x → x.kind.unit = .copy →
      (x.phase = .queued ∧ cmdReady s core id x = false) ∨ (x.phase = .running ∧ heldBefore s core id x = true) →
      Idle (.copyCommandRun core id ext) s) ∧
    (∀ s core id x i g, cmdAt s core id = some x → x.segs[i]? = some g → x.phase = .running → g.landed = false →
      (accsDone s g.accs = false → Idle (.copySegmentLanded core id i) s) ∧
      (accsDone s g.accs = true → x.sync = 0 → ∃ t y h, exec (.copySegmentLanded core id i) s = .next t ∧ SameMemory s t ∧
        cmdAt t core id = some y ∧ y.segs[i]? = some h ∧ h.landed = true ∧ h.bytes = g.bytes) ∧
      (accsDone s g.accs = true → x.sync ≠ 0 → x.sync.toNat % 16 ≠ 0 →
        exec (.copySegmentLanded core id i) s = .next (stopCmd s core id { detail := 8, addr := x.sync })) ∧
      (∀ r s1, accsDone s g.accs = true → x.sync ≠ 0 → x.sync.toNat % 16 = 0 →
        resolveIn s x.descs core (homeOf s x.member core) true Need.atom x.sync 16 = (.ok r, s1) →
        ∃ t y h n a, exec (.copySegmentLanded core id i) s = .next t ∧ SameMemory s t ∧ cmdAt t core id = some y ∧
          y.segs[i]? = some h ∧ h.landed = true ∧ h.accs = [n] ∧ tabGet t.accs n = some a ∧ a.kind = .advance id ∧ a.tgt = r.tgt ∧
          a.data = BitVec.ofNat 64 g.bytes)) ∧
    ∀ s id a pa c i, tabGet s.accs id = some a → a.kind = .engineWrite c i → a.tgt = .loc pa → a.bytes.length = a.size →
      mayPerform s id a = true → InMemory s pa a.size → 0 < a.size → ∃ t, exec (.storePerformed id) s = .next t ∧
        memReadN t.mem (physOf s pa) a.size = a.bytes.map (·.2) ∧ SameOutside s t (physOf s pa) a.size) ∧
  ((∀ s core id x f, cmdAt s core id = some x → x.kind = .copym f → x.followPlaced = false → copyDone s x = true →
      queueFull s core (.mmab f) = false → id ≠ s.sched.nextId →
      ∃ t y z, exec (.copymFollowOnPlace core id) s = .next t ∧ SameMemory s t ∧ cmdAt t core id = some y ∧
        y = { x with followPlaced := true } ∧ cmdAt t core s.sched.nextId = some z ∧ z.kind = .mmab f ∧ z.followOf = some id ∧
        z.order = x.order + 1 ∧ z.va = x.va ∧ z.vb = x.vc ∧ z.regs = x.regs ∧ z.phase = .queued) ∧
    (∀ s core id x, cmdAt s core id = some x →
      let ended : Prop := match x.kind with
        | .copy => copyDone s x = true
        | .copym _ => x.followPlaced = true ∧ ∀ e ∈ cmdsOf s core, e.2.followOf ≠ some id
        | .ecan _ => allPerformed s x.after = true
        | .tmma _ => False
        | .drun _ => False
        | _ => x.unread = false ∧ ∀ g ∈ x.segs, accsDone s g.accs = true
      (x.phase = .running → ended → ∃ t, exec (.engineCommandComplete core id) s = .next t ∧ SameMemory s t ∧
        (Keyed (cmdsOf s core) → cmdAt t core id = none) ∧
        (∀ m, memberAt s x.member = some m → m.wait ≠ .drain .eret → ∀ n, n ≠ x.member → memberAt t n = memberAt s n) ∧
        ∀ m, x.docent = false → x.tok < 6 → memberAt s x.member = some m →
          ∃ v, memberAt t x.member = some v ∧ tokCount v x.tok = tokCount m x.tok - 1 ∧ (m.wait ≠ .drain .eret → v.r = m.r)) ∧
      (x.phase ≠ .running ∨ ¬ ended → Idle (.engineCommandComplete core id) s)) ∧
    ∀ s core id x, cmdAt s core id = some x →
      (x.phase = .held → ∃ t y, exec (.engineHeldFaultResume core id) s = .next t ∧ SameMemory s t ∧ cmdAt t core id = some y ∧
        y = { x with phase := y.phase } ∧
        y.phase = if x.segs = [] ∧ (∀ p, (coreAt s core).eng.prog = some p → p.cmd ≠ id) then .queued else .running) ∧
      (x.phase ≠ .held → ∃ t, exec (.engineHeldFaultResume core id) s = .next t ∧ SameMemory s t ∧ cmdAt t core id = some x))

/-- R50, R51, R222 to R224: what the array's commands do to planes and accumulators. An SE MMAB overwrites its planes with the block
products of the rows and columns that lie inside; a BF16 MMAB adds to its accumulator inside; SCACC scales a full plane into an
accumulator and leaves the plane empty; MLOAD and MZERO write whole accumulators.

R213, R222 to R224, R231: an array command whose turn has come reads its operands and changes the planes and accumulators, and MSTORE
sends its tile; SCACC of a plane that is not full stops with detail 3; bytes of a peer that have not come, or a budget that is spent,
let it wait, a held fault leaves it where it stopped, and a failure stops it. A cancelled command empties its planes.
That an array command reads all its operands in one step is the model's choice (log 37).

Constructors of `Instr` whose completion this states: arrayCommandRun. -/
def Obligations.ArrayWork : Prop :=
  ((∀ (m : Nat) (a b : SeBlock), blockProduct m a b = ((List.range 16).map fun i => seTerm m a i * seTerm m b i).sum) ∧
    (∀ (f : MatFmt) (p : Nat) (as bs : List SeBlock) (e : Engines), (f = .se4 ∨ f = .se7) → p < 4 →
      let e' := mmabPlanesOf f p as bs e
      partStateOf e' p = .full f ∧ e'.accs = e.accs ∧ (∀ q, q < 4 → q ≠ p → partOf e' q = partOf e q) ∧
      ∀ r c, r < 16 → c < 16 → planeAt (partOf e' p) r c = match as[r]?, bs[c]? with
        | some a, some b => blockProduct (seBits f) a b
        | _, _ => 0) ∧
    (∀ (p : Nat) (as bs : List SeBlock) (e : Engines), p < 3 →
      let e' := mmabPlanesOf .se2 p as bs e
      partStateOf e' p = .full .se2 ∧ partStateOf e' (p + 1) = .full .se2 ∧
      ∀ q r c, q < 2 → r < 16 → c < 16 → planeAt (partOf e' (p + q)) r c = match as[r]?, bs[c + 16 * q]? with
        | some a, some b => blockProduct 2 a b
        | _, _ => 0) ∧
    (∀ (c : Nat) (as bs : List (List Nat)) (e : Engines), c < 4 →
      let e' := mmabAccum c as bs e
      e'.parts = e.parts ∧ (∀ d, d < 4 → d ≠ c → accumOf e' d = accumOf e d) ∧
      ∀ r k, r < 16 → k < 16 → accTileAt (accumOf e' c) r k = match as[r]?, bs[k]? with
        | some a, some b => BitVec.ofNat 32 (bf16Element (accTileAt (accumOf e c) r k).toNat a b)
        | _, _ => accTileAt (accumOf e c) r k) ∧
    ∀ (f : MatFmt) (p c : Nat) (ea eb : List Nat) (e : Engines), p < 4 → c < 4 →
      let e' := scaccApply f p c ea eb e
      partStateOf e' p = .empty ∧
      ∀ r k, r < 16 → k < 16 → accTileAt (accumOf e' c) r k = match ea[r]?, eb[k]? with
        | some x, some y => BitVec.ofNat 32 (scaledAdd (seBits f) (accTileAt (accumOf e c) r k).toNat (planeAt (partOf e p) r k) x y)
        | _, _ => accTileAt (accumOf e c) r k) ∧
  (∀ s core id x ext, cmdAt s core id = some x → x.phase = .queued →
    let e := (coreAt s core).eng
    let planes := fun (t : State) (e' : Engines) => SameButArchive s t ∧ (coreAt t core).eng.parts = e'.parts ∧
      (coreAt t core).eng.partState = e'.partState ∧ (coreAt t core).eng.accs = e'.accs
    (cmdReady s core id x = false → Idle (.arrayCommandRun core id ext) s) ∧
    (cmdReady s core id x = true → ∀ l, x.kind = .voided l → ∃ t, exec (.arrayCommandRun core id ext) s = .next t ∧
      planes t (emptyPlanes e l) ∧ (Keyed (cmdsOf s core) → cmdAt t core id = none)) ∧
    (cmdReady s core id x = true → x.kind.unit = .array →
      let src := engineReads s core x ext (arrayReads x)
      let done := fun (e' : Engines) => ∃ t y, exec (.arrayCommandRun core id ext) s = .next t ∧ planes t e' ∧
        cmdAt t core id = some y ∧ y.phase = .running ∧ y.unread = false
      let block := fun (f : MatFmt) (v : Nat) => seBlockOf (seBits f) (bytesOf (blockSize f) v)
      (∀ p c, x.kind = .scacc p c → (∀ f, partStateOf e p ≠ .full f) →
        exec (.arrayCommandRun core id ext) s = .next (stopCmd s core id { detail := 3 })) ∧
      (arrayBad e x = false →
        (∀ s1, src = (.missing, s1) → Idle (.arrayCommandRun core id ext) s) ∧
        (∀ c a s1, src = (.held c a, s1) → exec (.arrayCommandRun core id ext) s = .next (holdCmd s1 core id c a)) ∧
        (∀ f s1, src = (.fail f, s1) → exec (.arrayCommandRun core id ext) s = .next (stopCmd s1 core id f)) ∧
        (∀ vals s1, src = (.ok vals, s1) → overBudget s s1 core = true → Idle (.arrayCommandRun core id ext) s) ∧
        (∀ vals s1, src = (.ok vals, s1) → overBudget s s1 core = false →
          let as := vals.take (rowsA x).length
          let bs := vals.drop (rowsA x).length
          (∀ c, x.kind = .mzero c → done (setAccum e c (List.replicate 256 0))) ∧
          (x.kind = .mmab .bf16 → done (mmabAccum (x.reg 0) (as.map bf16Row) (bs.map bf16Row) e)) ∧
          (∀ f, x.kind = .mmab f → f ≠ .bf16 → done (mmabPlanesOf f (x.reg 0) (as.map (block f)) (bs.map (block f)) e)) ∧
          (∀ p c f, x.kind = .scacc p c → partStateOf e p = .full f → done (scaccApply f p c as bs e)) ∧
          (∀ c f, x.kind = .mload c → tileFmt x.va = some f →
            done (mloadApply c f ((tileElems x.va (x.reg 2) (x.reg 3)).zip vals) e)) ∧
          (∀ c l s2, x.kind = .mstore c → engineStores s1 core id 0 x (mstoreTile c x e) = (.ok l, s2) →
            ∃ t y, exec (.arrayCommandRun core id ext) s = .next t ∧ planes t e ∧ cmdAt t core id = some y ∧ y.phase = .running ∧
              (∀ g ∈ y.segs, g.accs.length = l.length))))))

/-- R226, R227: the step words MMAB, SCACC, MZERO, MLOAD, MSTORE and COPY, each with the fields of its word.
Detail 5 for a SIGNAL through an unusable view is the model's reading (log 32).

R225 to R229: a program starts, with its counters from the command's registers and its first step at the entry; it stands at a yield
point until every step that it has issued has completed; LOOP, SETL and SIGNAL; and END.
R307, R308: a step that holds a detected error stops the program.
SIGNAL's release covers what its member had issued before the command of the program.
A captured unit is written into the capture buffer at its end, and only then memory changes (R300, R301). That it stands behind the last
one written (log 31) and detail 5 for an unusable view (log 32) are the model's readings.

Constructors of `Instr` whose completion this states: docentProgramStart, docentYieldPoint, docentEnd, docentMmab, docentScacc, docentMzero,
docentMload, docentMstore, docentCopy, docentLoop, docentSetl, docentSignal. -/
def Obligations.Docents : Prop :=
  (
    let block := fun (plane : Nat → Nat) s core w =>
      let l := (coreAt s core).eng.loops
      [BitVec.ofNat 32 (plane w), exprValue l (natBits w 31 12), exprValue l (natBits w 19 12), exprValue l (natBits w 7 12)]
    StepCommand .docentMmab 1 (fun w => .mmab (MatFmt.ofCode (BitVec.ofNat 2 (natBits w 57 2)))) (block fun w => natBits w 55 2)
      (some 49) (some 43) ∧
    StepCommand .docentScacc 2 (fun w => .scacc (natBits w 55 2) (natBits w 57 2)) (block fun _ => 0) (some 49) (some 43) ∧
    StepCommand .docentMzero 3 (fun w => .mzero (natBits w 57 2)) (fun _ _ _ => [0, 0, 0, 0]) none none ∧
    StepCommand .docentMload 4 (fun w => .mload (natBits w 57 2)) (block fun _ => 0) (some 49) none ∧
    StepCommand .docentMstore 5 (fun w => .mstore (natBits w 57 2)) (block fun _ => 0) (some 49) none ∧
    StepCommand .docentCopy 6 (fun _ => .copy) (fun _ _ _ => [0, 0, 0, 0]) (some 49) (some 43)) ∧
  ((∀ s core ext id x, (coreAt s core).eng.prog = none → tabGet (cmdsOf s core) id = some x → x.phase = .queued →
      (∀ e ∈ cmdsOf s core, e.2.kind.unit = .docent → e.2.phase = .queued → e = (id, x) ∨ x.order < e.2.order) →
      let started := fun (t : State) (e : Nat) => SameButArchive s t ∧ (coreAt t core).eng.loops = x.regs.take 4 ∧
        ∃ p, (coreAt t core).eng.prog = some p ∧ p.cmd = id ∧ p.pc = e ∧ p.steps = [] ∧ p.yielded = false
      (x.kind.unit = .docent → cmdReady s core id x = false → Idle (.docentProgramStart core ext) s) ∧
      (∀ e, x.kind = .drun e → cmdReady s core id x = true →
        ((coreAt s core).eng.listLaunch = some x.launch → StepClean s core e →
          ∃ t, exec (.docentProgramStart core ext) s = .next t ∧ started t e ∧
            (coreAt t core).eng.docMem = (coreAt s core).eng.docMem) ∧
        ((coreAt s core).eng.listLaunch = some x.launch → ¬ StepClean s core e →
          ∃ t, exec (.docentProgramStart core ext) s = .next t ∧ SameMemory s t ∧ (coreAt t core).eng.prog = none ∧
            (Keyed (cmdsOf s core) → cmdAt t core id = none)) ∧
        ((coreAt s core).eng.listLaunch ≠ some x.launch →
          exec (.docentProgramStart core ext) s = .next (failCmd s core id x { detail := 5 }))) ∧
      (∀ e l s1, x.kind = .tmma e → cmdReady s core id x = true →
        engineReads s core x ext (plainElems 0 x.va 0 (View.count x.va)) = (.ok l, s1) → overBudget s s1 core = false →
        ∃ t, exec (.docentProgramStart core ext) s = .next t ∧ started t e ∧
          (coreAt t core).eng.docMem = l.map (BitVec.ofNat 64) ∧ (coreAt t core).eng.listLaunch = some x.launch)) ∧
    (∀ s core p x w, (coreAt s core).eng.prog = some p → tabGet (cmdsOf s core) p.cmd = some x → x.phase = .running →
      (coreAt s core).eng.docMem.getD p.pc 0 = w →
      (stepReserved w = true → exec (.docentEnd core) s = .next (stopProgram s core { detail := 5 } p.pc)) ∧
      (stepReserved w = false → stepY w = true → p.yielded = false → stepsDone s core p = true →
        ((∃ f, .full f ∈ (coreAt s core).eng.partState) → exec (.docentYieldPoint core) s = .next (stopProgram s core { detail := 4 } p.pc)) ∧
        ((∀ f, .full f ∉ (coreAt s core).eng.partState) → ∃ t, exec (.docentYieldPoint core) s = .next t ∧ SameMemory s t ∧
          (coreAt t core).eng.prog = some { p with yielded := true })) ∧
      (stepReserved w = false → stepKind w = 0 →
        (stepsDone s core p = false → Idle (.docentEnd core) s) ∧
        (stepsDone s core p = true → x.tok < 6 → x.docent = false → ∀ m, memberAt s x.member = some m →
          ∃ t v, exec (.docentEnd core) s = .next t ∧ (p.captured = false → SameMemory s t) ∧ (coreAt t core).eng.prog = none ∧
            (coreAt t core).eng.accs = (coreAt s core).eng.accs ∧ memberAt t x.member = some v ∧
            tokCount v x.tok = tokCount m x.tok - 1 ∧
            t.mod.units.length = s.mod.units.length + if p.captured then 1 else 0))) ∧
    ∀ s core p x w, Stepping s core p x w →
      let loops := (coreAt s core).eng.loops
      let i := natBits w.toNat 57 2
      let counter := fun (t : State) (v : Word) => SameMemory s t ∧
        ∀ j, j < 4 → (coreAt t core).eng.loops.getD j 0 = if j = i then v else loops.getD j 0
      (stepKind w = 7 →
        ((loops.getD i 0 + 1).toNat < natBits w.toNat 41 16 → StepClean s core (natBits w.toNat 32 9) →
          ∃ t, exec (.docentLoop core) s = .next t ∧
          counter t (loops.getD i 0 + 1) ∧ GoesTo t core p (natBits w.toNat 32 9)) ∧
        (natBits w.toNat 41 16 ≤ (loops.getD i 0 + 1).toNat → p.pc < 511 → StepClean s core (p.pc + 1) →
          ∃ t, exec (.docentLoop core) s = .next t ∧
          counter t 0 ∧ GoesTo t core p (p.pc + 1))) ∧
      (stepKind w = 8 → p.pc < 511 → StepClean s core (p.pc + 1) → ∃ t, exec (.docentSetl core) s = .next t ∧
        counter t (BitVec.ofNat 32 (natBits w.toNat 0 32)) ∧ GoesTo t core p (p.pc + 1)) ∧
      (stepKind w = 9 →
        let v := viewAt s core (natBits w.toNat 49 6)
        let sync := View.valid v = true ∧ (View.fmt v = 2 ∨ View.fmt v = 6)
        (stepsDone s core p = false → Idle (.docentSignal core) s) ∧
        (stepsDone s core p = true → ¬ sync → exec (.docentSignal core) s = .next (stopProgram s core { detail := 5 } p.pc)) ∧
        (∀ a, stepsDone s core p = true → sync → elementAddress v 4 (exprValue loops (natBits w.toNat 31 12)).toNat = .addr a →
          let u := captureViews s core [v]
          (a.toNat % 16 ≠ 0 → exec (.docentSignal core) s = .next (stopProgram u core { detail := 8, addr := a } p.pc)) ∧
          (a.toNat % 16 = 0 → p.pc < 511 → StepClean s core (p.pc + 1) → ∀ r s1,
            resolveIn u x.descs core (homeOf s x.member core) true Need.atom a 16 = (.ok r, s1) →
            ∃ t id b, exec (.docentSignal core) s = .next t ∧ SameMemory s t ∧ tabGet t.accs id = some b ∧
              b.kind = .advance p.cmd ∧ b.tgt = r.tgt ∧ b.data = BitVec.ofNat 64 (natBits w.toNat 15 16) ∧
              b.relSet = ((fenceSet s x.member .module).filter fun e => decide (e.2.seq < x.seq)).map (·.1) ∧ GoesTo t core p (p.pc + 1)))))

/-- R272, R273, R274: a delivered fault. In trap mode, or where the record has no room or cannot be written, the member stops with a
DoubleFault; a routed one stops it with a Routed record; otherwise the trap record is written below g63, the registers point at it,
and the member stands at the first slot of the handler in trap mode.
That a g63 below 128 counts as below the stack base is the model's reading (log 15).

R272, R276: what Sernus delivers goes to the handler without consulting ROUTE; without a handler the member stops, and the record's
detail has bit 8 set.

R212, R270, R276: a member takes its oldest asynchronous fault at its next clause boundary, where the token of a failed command clears and
the command retires (R297): one that Sernus delivered without consulting ROUTE, every other as a fault of its own.

Constructors of `Instr` whose completion this states: asyncFaultTake. -/
def Obligations.TrapEntry : Prop :=
  (∀ (s : State) (id : Nat) (m : Member) (c : Ctx) (fi : FaultInfo),
    memberAt s id = some m → ctxAt s m.launch m.core = some c →
    let t := takeFault s id fi
    let routed := c.route.getLsbD fi.cause = true ∨ c.trapEntry = 0xFFFFFFFF
    (m.trapMode = true → StopsWith s t id m fi 0x20 fi.cause) ∧
    (m.trapMode = false → routed → StopsWith s t id m fi 0x26 fi.cause) ∧
    (m.trapMode = false → ¬ routed → Delivered s t id m c fi)) ∧
  (∀ (s : State) (id : Nat) (m : Member) (c : Ctx) (fi : FaultInfo),
    memberAt s id = some m → ctxAt s m.launch m.core = some c →
    let t := deliverEntry s id fi
    (m.trapMode = true → StopsWith s t id m fi 0x20 fi.cause) ∧
    (m.trapMode = false → c.trapEntry = 0xFFFFFFFF → StopsWith s t id m fi 0x26 (fi.cause + 256)) ∧
    (m.trapMode = false → c.trapEntry ≠ 0xFFFFFFFF → Delivered s t id m c fi)) ∧
  (∀ s id m, memberAt s id = some m →
    let may := m.wait = .ready ∧ m.slot = 0 ∧ seated m = true ∧ inGroup s id m.core = false ∧
      ∃ c, ctxAt s m.launch m.core = some c ∧ c.switching = false ∧ c.isOut = false
    (m.async = [] ∨ ¬ may → Idle (.asyncFaultTake id) s) ∧
    (∀ fi rest, m.async = fi :: rest → may →
      let s0 := updMember s id fun w => { w with async := rest }
      let s1 := match fi.tok with | some n => clearFaultTok s0 id fi.word n | none => s0
      exec (.asyncFaultTake id) s =
        .next (if fi.direct = true then deliverEntry s1 id { fi with slot := 0 } else takeFault s1 id { fi with slot := 0 })))

/-- R286: the return from a trap restores g0 to g3, the predicates and g63 from the record, and goes on as RESUME says: again, behind the
slot, at TARGET, or not at all: then the member stops with a DoubleFault that names the ERET. Where the header cannot be read here, the slot
that follows is named, and the pick finds whether the clause has one (log 68). -/
def Obligations.TrapReturn : Prop := ∀ (s : State) (id : Nat) (m : Member), memberAt s id = some m →
  oneRun s (cellPa s m m.trapRec.toNat) 128 = true →
  let p := physOf s (cellPa s m m.trapRec.toNat)
  let t := returnFromTrap s id
  let pc := memNat s (p + 16) 4
  let slot := memNat s (p + 20) 1 % 16
  let flags := memNat s (p + 86) 1
  let resume := memNat s (p + 22) 1
  (resume = 0 → BackFromTrap s t id m p pc (if flags % 4 = 0 then slot else 0)) ∧
  (resume = 1 → flags % 2 = 1 → BackFromTrap s t id m p pc 0) ∧
  (resume = 1 → flags % 2 = 0 → ∀ c w, ctxAt s m.launch m.core = some c → codeWord s c m.core pc = some w →
    let n := (w.extractLsb' 56 4).toNat
    (slot < n → BackFromTrap s t id m p pc (slot + 1)) ∧
    (n ≤ slot → BackFromTrap s t id m p ((pc + n + 2) % 2 ^ 57) 0)) ∧
  (resume = 1 → flags % 2 = 0 → ((ctxAt s m.launch m.core).bind fun c => codeWord s c m.core pc) = none →
    BackFromTrap s t id m p pc (slot + 1)) ∧
  (resume = 2 → BackFromTrap s t id m p (memNat s (p + 28) 4) 0) ∧
  (resume = 3 → ∃ fi r, Restored s m p r ∧ fi.word = wordAtSlot s m ∧ fi.slot = m.slot ∧ StopsWith s t id { m with r := r } fi 0x20 0x01)

/-- R285, R286: TRAP takes cause 0x0E with its immediate; SVC acts as FENCE.AR at `.module` and waits; ERET asks for trap mode, drains,
and returns from the trap.
Where the record of SVC holds g4 and g5 is the model's reading (log 34); SVC waits for the fences that are open (log 40), and for the
sequences that its context may have observed (log 67).

R285: SVC's request goes to Sernus once its fence is over; when the service is done the member goes on behind its SVC. Services 1 and 2
write the trap entry and the route mask, the other services of the device return 0xFFFFFFFF in g0, and Sernus's own return what
Sernus writes.
Where the record of SVC holds g4 and g5 is the model's reading (log 34), as is what its fence waits for (log 67).

Constructors of `Instr` whose completion this states: trap, svc, eret, svcComplete. -/
def Obligations.TrapsAndServices : Prop :=
  (∀ imm : Word,
    ActForm (.trap · imm) (fun _ _ => none) [] (arg0 fun s k _ t => t = trap s k 0x0E imm.toNat) ∧
    ActForm (.svc · imm) (fun _ _ => none) [] (arg0 fun s k m t => m.fences = [] → SameMemory s t ∧
      (∀ n, n ≠ k.member → memberAt t n = memberAt s n) ∧ ∃ v, memberAt t k.member = some v ∧ v.wait = .svc imm false ∧
        v.slot = k.slot ∧ v.r = m.r ∧ FenceLeft s k.member m v true true .module none) ∧
    ActForm .eret (fun s m => if m.trapMode = true ∨ (launchAt s m.launch).map (·.system) = some true then none else some 0x02) []
      (arg0 fun s k m t =>
        (m.trapMode = false → t = trap s k 0x01 k.slot) ∧
        (m.trapMode = true → ∃ s1 v, s1.mem = s.mem ∧ memberAt s1 k.member = some v ∧
          v = { m with slot := k.slot, wait := .drain .eret, next := none, readySince := v.readySince } ∧
          (∀ n, n ≠ k.member → memberAt s1 n = memberAt s n) ∧
          ((∀ n, n ≤ 6 → tokCount m n = 0) → t = returnFromTrap s1 k.member) ∧
          (¬ (∀ n, n ≤ 6 → tokCount m n = 0) → t = s1)))) ∧
  (∀ (s : State) (id : Nat) (m : Member) (c : Ctx) (n : Word) (sent : Bool) (vals : List Word),
    memberAt s id = some m → m.wait = .svc n sent → ctxAt s m.launch m.core = some c →
    (seated m = false ∨ (∃ f ∈ m.fences, f.rel = true ∧ f.tok = none ∧ (f.acq = true ∨ f.need ≠ [])) →
      Idle (.svcComplete id vals) s) ∧
    (seated m = true → m.fences = [] → m.terminating = false →
      (sent = false → ∃ t r, exec (.svcComplete id vals) s = .next t ∧ SameMemory s t ∧
        memberAt t id = some { m with wait := .svc n true } ∧ t.mod.recBuf = s.mod.recBuf ++ [r] ∧ r.cause = 0x25 ∧
        r.detail = n ∧ r.gsave = [m.r.getG 0, m.r.getG 1, m.r.getG 2, m.r.getG 3] ∧
          r.extra = ((m.r.getG 5 ++ m.r.getG 4 : BitVec (32 + 32)) : Word64)) ∧
      (sent = true → ∃ t v c', exec (.svcComplete id vals) s = .next t ∧ SameMemory s t ∧ memberAt t id = some v ∧ PassedSlot m v ∧
        ctxAt t m.launch m.core = some c' ∧
        let g0 := m.r.getG 0
        let entryOk := g0 = 0xFFFFFFFF ∨ 8 * g0.toNat + 8 ≤ Desc.limit c.desc[5]
        (n = 1 → entryOk → v.r = m.r.setG 0 0 ∧ c'.trapEntry = g0 ∧ c'.route = c.route) ∧
        (n = 1 → ¬ entryOk → v.r = m.r.setG 0 1 ∧ c'.trapEntry = c.trapEntry ∧ c'.route = c.route) ∧
        (n = 2 → v.r = m.r.setG 0 0 ∧ c'.trapEntry = c.trapEntry ∧ c'.route = g0.extractLsb' 0 16 &&& 0x7FFE) ∧
        (n ≠ 1 → n ≠ 2 → n.toNat < 0x100 → v.r = m.r.setG 0 0xFFFFFFFF) ∧
        (n ≠ 1 → n ≠ 2 → c'.trapEntry = c.trapEntry ∧ c'.route = c.route) ∧
        (0x100 ≤ n.toNat → ∀ i : BitVec 6, v.r.getG i = if i.toNat < 6 then (vals[i.toNat]?).getD (m.r.getG i) else m.r.getG i))))

/-- R287: SEGSET writes one of the context's descriptors, on this core alone, where R164 admits it, and is illegal otherwise; SEGGET reads
one into a block of four registers, the low word first.

R288: TLBINV drops the matching entries of the issuing core's two TLBs and no others, and its walks begin again; SHOOT takes the next
sequence number and returns it, acts as FENCE.REL at `.module`, and its token counts it.

R180, R288: a shoot-down whose release is over drops every covered entry of every TLB of the module; when the accesses under way are
performed it ends and its token clears. A walk fills the TLB that it was for, unless a later shoot-down covers its page, or the leaf that
it found: then it begins again.

Constructors of `Instr` whose completion this states: segset, segget, tlbinv, shoot, shootdownComplete, tlbWalkFill. -/
def Obligations.TranslationControl : Prop :=
  (∀ (n : BitVec 3) (r : BitVec 6), n.toNat < 6 →
    ActForm (.segset · n r) (needsSystem fun _ => none) [] (arg0 fun s k m t =>
      let d : DescBits := m.r.getG (r + 3) ++ m.r.getG (r + 2) ++ m.r.getG (r + 1) ++ m.r.getG r
      (Desc.legal n.toNat d = false → t = trap s k 0x01 k.slot) ∧
      (Desc.legal n.toNat d = true → SameMemory s t ∧ t.members = s.members ∧
        (∀ x, x ≠ ctxKey m.launch m.core → tabGet t.ctxs x = tabGet s.ctxs x) ∧
        ∀ c, ctxAt s m.launch m.core = some c → ∃ c', ctxAt t m.launch m.core = some c' ∧ c' = { c with desc := c'.desc } ∧
          ∀ i, i < 6 → c'.desc[i]? = if i = n.toNat then some d else c.desc[i]?)) ∧
    ActForm (.segget · n r) (needsSystem fun _ => none) [] (arg0 fun s k m t =>
      ∀ c d, ctxAt s m.launch m.core = some c → c.desc[n.toNat]? = some d → ∃ m', OnlyMember s t k.member m' ∧
        m' = { m with r := m'.r, joinTails := m'.joinTails } ∧ m'.r.f = m.r.f ∧ m'.r.p = m.r.p ∧
        (∀ i : Fin 4, m'.r.getG (r + BitVec.ofNat 6 i) = d.extractLsb' (32 * i) 32) ∧
        (∀ j : BitVec 6, (∀ i : Fin 4, j ≠ r + BitVec.ofNat 6 i) → m'.r.getG j = m.r.getG j))) ∧
  (∀ (form : TlbinvForm) (a b : Src) (d : Dst) (x y z : Src) (g : Bool) (tok : BitVec 3),
    ActForm (.tlbinv · form a b) (needsSystem fun m => orElse (srcFault m .w64 a) (srcFault m .w32 b)) [(.w64, a), (.w32, b)]
      (arg2 fun s _ m u v t =>
        let va := u.toNat % 2 ^ 60
        let asn := v.toNat % 2 ^ 16
        let hit := fun e : TlbEntry => match form with
          | .addr => va / 2 ^ e.bits == e.va / 2 ^ e.bits && (e.asn == asn || e.leaf.getLsbD 5)
          | .asn => e.asn == asn && !e.leaf.getLsbD 5
          | .all => true
        SameMemory s t ∧ t.members = s.members ∧ (coreAt t m.core).tlb = (coreAt s m.core).tlb.filter (! hit ·) ∧
        (coreAt t m.core).ahead = (coreAt s m.core).ahead.filter (! hit ·) ∧
        (coreAt t m.core).walks.map (·.1) = (coreAt s m.core).walks.map (·.1) ∧
        (∀ w ∈ (coreAt t m.core).walks, w.2.tag = s.mod.shootSeq) ∧ ∀ c, c ≠ m.core → coreAt t c = coreAt s c) ∧
    ActFormK (.shoot · d x y z g tok)
      (needsSystem fun m => orElse (srcFault m .w64 x) (orElse (srcFault m .w32 y) (orElse (srcFault m .w32 z) (dstFault m false d))))
      [(.w64, x), (.w32, y), (.w32, z)] fun s k m kOnly vs t => match vs with
      | [u, v, w] =>
        (255 ≤ tokCount m tok.toNat → t = { s with sched := { s.sched with cur := some { k with hold := true } } }) ∧
        (tokCount m tok.toNat < 255 → m.fences = [] → SameMemory s t ∧ (∀ n, n ≠ k.member → memberAt t n = memberAt s n) ∧
          t.mod.shootSeq = (s.mod.shootSeq + 1) % 2 ^ 32 ∧
          (∃ sh, t.mod.shoots = s.mod.shoots ++ [sh] ∧ sh.seq = t.mod.shootSeq ∧ sh.lo = u.toNat % 2 ^ 60 / 4096 * 4096 ∧
            sh.pages = (lo32 v).toNat ∧ sh.asn = w.toNat % 2 ^ 16 ∧ sh.all = g ∧ sh.member = k.member ∧ sh.tok = tok.toNat ∧
            sh.waits = (fenceSet s k.member .module).map (·.1) ∧ sh.started = false) ∧
          ∃ v, memberAt t k.member = some v ∧ tokCount v tok.toNat = tokCount m tok.toNat + 1 ∧
            v.r = if kOnly then m.r else afterResult m.r d false (BitVec.ofNat 64 ((s.mod.shootSeq + 1) % 2 ^ 32)))
      | _ => False) ∧
  ((∀ (s : State) (seq : Nat) (x : Shoot), s.mod.shoots.find? (·.seq == seq) = some x →
      (allPerformed s x.waits = false → Idle (.shootdownComplete seq) s) ∧
      (allPerformed s x.waits = true → x.started = false → (∀ e ∈ s.accs, e.2.performed = true) →
        ∃ t, exec (.shootdownComplete seq) s = .next t ∧ SameMemory s t ∧ t.members = s.members ∧
          (∀ y ∈ t.mod.shoots, y.seq = seq → y.started = true ∧ y.waits = []) ∧
          ∀ c, (∀ e ∈ (coreAt t c).tlb, e ∈ (coreAt s c).tlb ∧ x.coversEntry e = false) ∧
            (∀ e ∈ (coreAt t c).ahead, e ∈ (coreAt s c).ahead ∧ x.coversEntry e = false) ∧
            (∀ e ∈ (coreAt s c).tlb, x.coversEntry e = false → e ∈ (coreAt t c).tlb)) ∧
      (allPerformed s x.waits = true → x.started = true → ∀ m, memberAt s x.member = some m → m.wait ≠ .drain .eret →
        ∃ t v, exec (.shootdownComplete seq) s = .next t ∧ SameMemory s t ∧ (∀ y ∈ t.mod.shoots, y.seq ≠ seq) ∧
          memberAt t x.member = some v ∧ v.r = m.r ∧ tokCount v x.tok = tokCount m x.tok - 1)) ∧
    ∀ (s : State) (core id victim : Nat) (w : Walk), tabGet (coreAt s core).walks id = some w →
      let later := ∃ x ∈ s.mod.shoots, w.tag ≠ x.seq ∧ (x.seq + 2 ^ 32 - w.tag) % 2 ^ 32 < 2 ^ 31 ∧
        (x.all = true ∨ x.covers w.va 12 w.asn false = true ∨ ∃ e, w.entry = some e ∧ x.coversEntry e = true)
      (later → ∃ t w', exec (.tlbWalkFill core id victim) s = .next t ∧ SameMemory s t ∧ tabGet (coreAt t core).walks id = some w' ∧
        w'.tag = s.mod.shootSeq ∧ (coreAt t core).tlb = (coreAt s core).tlb ∧ (coreAt t core).ahead = (coreAt s core).ahead) ∧
      (¬ later → ∃ t, exec (.tlbWalkFill core id victim) s = .next t ∧ SameButArchive s t ∧
        (Keyed (coreAt s core).walks → tabGet (coreAt t core).walks id = none) ∧
        (∀ e, w.entry = some e → e ∈ (if w.ahead then (coreAt t core).ahead else (coreAt t core).tlb)) ∧
        (∀ e ∈ (coreAt t core).tlb, e ∈ (coreAt s core).tlb ∨ (w.ahead = false ∧ w.entry = some e)) ∧
        (∀ e ∈ (coreAt t core).ahead, e ∈ (coreAt s core).ahead ∨ (w.ahead = true ∧ w.entry = some e)) ∧
        ((coreAt s core).tlb.length ≤ 512 → (coreAt t core).tlb.length ≤ 512) ∧
        ((coreAt s core).ahead.length ≤ 64 → (coreAt t core).ahead.length ≤ 64)))

/-- R289: LDIO and STIO at issue: the address must be aligned and name a present unit; the access then enters and its token counts it.

R289 and the register tables: a write of a register without behaviour of its own replaces the bits of its lanes.

R300, R302, R303, R315, R316: a write of a permitted range; the suspect is cleared and every quarantine lifted by a 1 to V; and a read
of the checkpoint-due register gives its oldest entry and pops it. That a 1 to V clears the whole suspect register is the model's choice
(log 62).

Constructors of `Instr` whose completion this states: ldio, stio, rangeEntryWrite, appraiserSuspectClear, checkpointDuePop,
ioRegisterWrite. -/
def Obligations.IoAccesses : Prop :=
  (∀ (d : Dst) (a b : Src) (wide : Bool) (tok : BitVec 3),
    let form := fun (s : State) (k : Cur) (m : Member) (x : Word64) (kind : AccKind) (d : Dst) (v : Word64) (t : State) =>
      let bytes := if wide then 8 else 4
      (x.toNat % 2 ^ 32 % bytes ≠ 0 → t = trap s k 0x05 0 x) ∧
      (x.toNat % 2 ^ 32 % bytes = 0 → ioUnitOf x = none → t = trap s k 0x06 1 x) ∧
      (x.toNat % 2 ^ 32 % bytes = 0 → ioUnitOf x ≠ none →
        (255 ≤ tokCount m tok.toNat → t = { s with sched := { s.sched with cur := some { k with hold := true } } }) ∧
        (tokCount m tok.toNat < 255 → Enters s t k m tok.toNat fun _ _ e =>
          e.kind = kind ∧ e.addr = x ∧ e.dest = d ∧ e.data = v ∧ e.phase = .issued))
    ActForm (.ldio · d a wide tok) (needsSystem fun m => orElse (srcFault m .w64 a) (dstFault m wide d)) [(.w64, a)]
      (arg1 fun s k m x t => form s k m x (.ioRead wide) d 0 t) ∧
    ActForm (.stio · a b wide tok) (needsSystem fun m => orElse (srcFault m .w64 a) (srcFault m (if wide then .w64 else .w32) b))
      [(.w64, a), (if wide then .w64 else .w32, b)] (arg2 fun s k m x y t => form s k m x (.ioWrite wide) .none y t)) ∧
  (IoEvent .ioRegisterWrite (fun u off l => actsItself u off l = false) (fun s u off l t =>
      (∀ f, u = .field f → off = 0x10 → (fieldAt t f).spare = (ioMerge (boolNat (fieldAt s f).spare) l).testBit 0) ∧
      (∀ g, u = .core g → off = 0x10 → l.2.testBit 0 = true → (coreAt t g).stopName = l.1 % 2 ^ 20) ∧
      (u = .module →
        let n := ioMerge (moduleReg s off) l
        (off = 0x000 → t.mod.wdPeriod = BitVec.ofNat 32 n) ∧
        (off = 0x008 → t.mod.rk = BitVec.ofNat 4 n ∧ t.mod.rbase = BitVec.ofNat 41 (n / 2 ^ 7)) ∧
        (off = 0x010 → t.mod.rd = BitVec.ofNat 32 (n / 2 ^ 32) ∧ t.mod.wr = s.mod.wr) ∧
        (off = 0x100 → t.mod.rate = BitVec.ofNat 4 n) ∧
        (off = 0x108 → t.mod.abuf = BitVec.ofNat 52 (n / 2 ^ 12)) ∧
        (off = 0x110 → t.mod.asize = BitVec.ofNat 32 n) ∧
        (∀ i, i < 16 → off = 0x200 + 8 * i → tabGet t.mod.archEn i = some (n.testBit 32, BitVec.ofNat 32 n)) ∧
        (off = 0x280 → t.mod.archBase = BitVec.ofNat 52 (n / 2 ^ 12)) ∧
        (off = 0x288 → t.mod.part = BitVec.ofNat 32 n) ∧
        (off = 0x290 → t.mod.period = BitVec.ofNat 32 n) ∧
        (off = 0x300 → ∀ i : Fin 8, t.mod.allow[i] = n / 2 ^ (3 * i.val) % 8) ∧
        (off = 0x310 → t.mod.capStep = n % 8) ∧
        (off = 0x380 → t.mod.evTarget = BitVec.ofNat 6 n) ∧
        (∀ i, 0 < i → i < 64 → off = 0x400 + 8 * i → ∃ x, tabGet t.mod.apertures i = some x ∧ x.v = n.testBit 31 ∧
          x.lost = n.testBit 30 ∧ x.keep = n.testBit 29 ∧ x.atom = n.testBit 28 ∧ x.module = BitVec.ofNat 6 n) ∧
        (∀ i, i < 128 → off = 0x1000 + 8 * i → ∀ j, j < 4 → tabGet t.mod.energyTab (4 * i + j) =
          some (BitVec.ofNat 16 (n / 2 ^ (16 * j)))) ∧
        (∀ q, q < 1024 → off = 0x2000 + 8 * q → (quadAt t q).budget =
          (if q / 16 = 0 ∨ q / 16 = 7 ∨ q / 16 = 56 ∨ q / 16 = 63 then (quadAt s q).budget else BitVec.ofNat 32 n)) ∧
        (∀ i, i < 256 → off = 0x8000 + 32 * i → ∃ x, tabGet t.mod.clients i = some x ∧ x.job = BitVec.ofNat 24 (n / 2 ^ 32) ∧
          x.ports = BitVec.ofNat 8 (n / 2 ^ 16) ∧ x.db = n.testBit 1 ∧ x.v = n.testBit 0) ∧
        ∀ i, i < 4096 → off = 0x10000 + 16 * i → ∃ x, tabGet t.mod.clientRanges i = some x ∧ x.base = BitVec.ofNat 36 (n / 2 ^ 12) ∧
          x.v = n.testBit 3 ∧ x.w = n.testBit 1 ∧ x.rd = n.testBit 0))) ∧
  (IoEvent .rangeEntryWrite (fun u off _ => u = .module ∧ 0x4000 ≤ off ∧ off < 0x8000) (fun s _ off l t =>
      let n := ioMerge (moduleReg s off) l
      ∃ x, tabGet t.mod.ranges ((off - 0x4000) / 16) = some x ∧
        (off % 16 = 0 → x.base = BitVec.ofNat 36 (n / 2 ^ 12) ∧ x.v = n.testBit 3 ∧ x.a = n.testBit 2 ∧ x.w = n.testBit 1 ∧
          x.rd = n.testBit 0) ∧
        (off % 16 = 8 → x.last = BitVec.ofNat 36 (n / 2 ^ 12))) ∧
    IoEvent .appraiserSuspectClear (fun u off l => u = .module ∧ off = 0x120 ∧ (l.1 &&& l.2).testBit 63 = true) (fun _ _ _ _ t =>
      t.mod.suspect = none ∧ ∀ c, (coreAt t c).quarantined = false) ∧
    ∀ s id a wide, tabGet s.accs id = some a → a.kind = .ioRead wide → ioUnitOf a.addr = some .module → ioReg a.addr = 0x298 →
      (ioReady s id a = false → Idle (.checkpointDuePop id) s) ∧
      (ioReady s id a = true → ∃ t, exec (.checkpointDuePop id) s = .next t ∧ SameMemory s t ∧ t.mod.due = s.mod.due.drop 1 ∧
        let v := match s.mod.due with | (core, ctx) :: _ => 2 ^ 63 + ctx * 2 ^ 12 + core | [] => 0
        Completed s t id a fun r => afterResult r a.dest wide (BitVec.ofNat 64
          (if wide then v else if a.addr.toNat % 8 = 4 then v / 2 ^ 32 % 2 ^ 32 else v % 2 ^ 32))))

/-- R291, R325: SETPERF asks for a performance step of its context: of an interval's requests the highest level stands, 7 being full speed;
IDLE leaves its group and waits for the events of Sernus: a record in the ring, its timeout in µs (4,800 ticks each, R120), an I/O event,
in this order.
R330: a bundle's event stands while its condition does, and IDLE consumes nothing; that the module unit's events are pulses, each of which
a member hears once, is the model's choice (log 68).

R273, R283: the oldest record of the module's buffer enters the ring where the ring has room, at the write index, which rises by one;
a full ring leaves it in the buffer.
That a member waits for room before the effect of its instruction is the model's reading (log 18).

Constructors of `Instr` whose completion this states: idle, setperf, idleWake, ringRecordWrite. -/
def Obligations.SernusWaitsAndRecords : Prop :=
  ((∀ a, ActForm (.setperf · a) (fun _ m => srcFault m .w32 a) [(.w32, a)] (arg1 fun s _ m x t =>
      OnlyCtx s t m.launch m.core fun c => { c with written := true, want := max c.want (min (lo32 x).toNat 7) })) ∧
    (∀ d a, ActForm (.idle · d a) (needsSystem fun m => orElse (srcFault m .w32 a) (dstFault m false d)) [(.w32, a)]
      (arg1 fun s k m x t => ∃ until_, Leaves s t k m (.idle d until_) ∧ (lo32 x = 0 → until_ = none) ∧
        (lo32 x ≠ 0 → until_ = some (ticksNow s m.core + 4800 * (lo32 x).toNat)))) ∧
    ∀ (s : State) (id : Nat) (m : Member) (d : Dst) (until_ : Option Nat) (timeout : Bool), memberAt s id = some m →
      m.wait = .idle d until_ →
      let record := s.mod.wr ≠ s.mod.rd
      let late := ∃ t, until_ = some t ∧ t ≤ ticksNow s m.core
      let event := m.heard < s.mod.events.length ∨
        ∃ b ∈ s.optics, (b.2.even = true ∧ b.2.thresh.toNat ≤ b.2.queued.length) ∨ b.2.state = 3
      (¬ (record ∨ late ∨ event) ∨ (timeout = true ∧ ¬ late) ∨ seated m = false → Idle (.idleWake id timeout) s) ∧
      (record ∨ late ∨ event → (timeout = true → late) → seated m = true → m.terminating = false →
        ∃ t v, exec (.idleWake id timeout) s = .next t ∧ SameMemory s t ∧ t.mod = s.mod ∧ t.optics = s.optics ∧
        memberAt t id = some v ∧ PassedSlot m v ∧
        ∃ n : Word64, v.r = afterResult m.r d false n ∧ (record → n = 1) ∧ (¬ record → late → n = 2) ∧
          (¬ record → ¬ late → n = 3 ∧ v.heard = s.mod.events.length))) ∧
  (∀ s,
    let n := 2 ^ (s.mod.rk.toNat + 4)
    (s.mod.recBuf = [] ∨ n ≤ (s.mod.wr - s.mod.rd).toNat → Idle .ringRecordWrite s) ∧
    ∀ r rest, s.mod.recBuf = r :: rest → (s.mod.wr - s.mod.rd).toNat < n →
      let pa := 128 * s.mod.rbase.toNat + 128 * (s.mod.wr.toNat % n)
      InMemory s pa 128 → r.gsave.length = 4 → r.lat.length = 4 →
      let p := physOf s pa
      ∃ t, exec .ringRecordWrite s = .next t ∧ t.mod.recBuf = rest ∧ t.mod.wr = s.mod.wr + 1 ∧ SameOutside s t p 128 ∧
        memNat t p 8 = r.word.toNat ∧ memNat t (p + 8) 8 = r.addr.toNat ∧ memNat t (p + 16) 4 = r.pc.toNat ∧
        memNat t (p + 20) 1 = r.slot % 16 ∧ memNat t (p + 21) 1 = r.cause % 2 ^ 8 ∧ memNat t (p + 23) 1 = r.pred.toNat ∧
        memNat t (p + 24) 4 = r.detail.toNat ∧ memNat t (p + 80) 6 = r.time % 2 ^ 48 ∧ memNat t (p + 88) 4 = r.from_.toNat ∧
        memNat t (p + 92) 4 = r.who.toNat)

/-- R182, R270, R276: the dispositions of an operand-log entry. Replay makes the checks again and lets the access go, as an
acquire (R294) whose entry stays until it has been performed, or keeps it with the cause that holds it now; delivery gives the access up and
queues its fault; abandoning only gives it up.

R276, R281: the dispositions of the member that a core's 0x0010 names: it is terminated; it goes on at its record's position; or its
fault, or the cause that holds its SPAWN or MIGRATE, is delivered at once at its slot (log 56). Where a record would find no room the
member waits for it (R283).

Constructors of `Instr` whose completion this states: actReplay, actDeliver, actAbandon, stopactTerminate, stopactResume,
stopactResumeDeliver. -/
def Obligations.Dispositions : Prop :=
  (IoEvent .actReplay (actCmd 8 0) (fun s u _ l t => ∀ g e a m, u = .core g → Waits s g (natBits l.1 0 6) e a m → a.bad = none →
      a.size ≠ 0 →
      let again := (resolveIn s a.descs a.core (homeOf s a.member a.core) false a.kind.need a.addr a.size).1
      (∀ r, again = .ok r → ∃ y, tabGet t.accs e.acc = some y ∧ y.phase = .issued ∧ y.tgt = r.tgt ∧ y.attr = r.attr ∧ y.data = a.data ∧
        y.dest = a.dest ∧ y.acq = true ∧ ∃ e', tabGet (coreAt t g).log (natBits l.1 0 6) = some e' ∧ e'.acc = e.acc ∧ e'.waiting = false) ∧
      (∀ c, again = .held c → ∃ y, tabGet t.accs e.acc = some y ∧ y.phase = .logged ∧ y.heldCause = c)) ∧
    IoEvent .actDeliver (actCmd 8 1) (fun s u _ l t => ∀ g e a m, u = .core g → Waits s g (natBits l.1 0 6) e a m →
      GivenUp t g e ∧ ∃ v fi, memberAt t e.member = some v ∧ v.r = m.r ∧ v.async = m.async ++ [fi] ∧ fi.direct = true ∧ fi.async = true ∧
        fi.addr = e.addr ∧ fi.word = a.word ∧ fi.cause = (if 0x80 ≤ e.cause then e.cause - 0x80 else e.cause + 0x0F)) ∧
    IoEvent .actAbandon (actCmd 8 2) (fun s u _ l t => ∀ g e a m, u = .core g → Waits s g (natBits l.1 0 6) e a m →
      GivenUp t g e ∧ ∃ v, memberAt t e.member = some v ∧ v.r = m.r ∧ v.async = m.async)) ∧
  (IoEvent .stopactTerminate (actCmd 0x18 0) (fun s u _ _ t => ∀ g id m, u = .core g → namedMember s g = some (id, m) → Keyed s.members →
      hasEnded m = false → ∃ v, memberAt t id = some v ∧ (if inGroup s id m.core = true then v.terminating = true else hasEnded v = true)) ∧
    IoEvent .stopactResume (actCmd 0x18 1) (fun s u _ _ t => ∀ g id m, u = .core g → namedMember s g = some (id, m) → Keyed s.members →
      m.joinTails = [] → m.fences = [] →
      (∀ fi, m.wait = .stopped → m.stopRec = some fi → ∃ v, memberAt t id = some v ∧ v.wait = .ready ∧ v.stopRec = none ∧ v.r = m.r ∧
        v.pc = m.pc ∧ v.slot = (if fi.fetchStage = true ∨ fi.async = true then 0 else m.slot)) ∧
      (∀ c va, m.wait = .heldSlot c va → ∃ v, memberAt t id = some v ∧ v.wait = .ready ∧ v.r = m.r ∧ v.pc = m.pc ∧ v.slot = m.slot)) ∧
    ∀ s a x wide u off l, IoWriting s a x wide u off l →
      (¬ actCmd 0x18 2 u off l → Idle (.stopactResumeDeliver a) s) ∧
      (actCmd 0x18 2 u off l → ∃ t, exec (.stopactResumeDeliver a) s = .next t ∧ (Keyed s.accs → tabGet t.accs a = none) ∧
        ∀ g id m fi, u = .core g → namedMember s g = some (id, m) → Keyed s.members → m.fences = [] →
          (m.wait = .stopped ∧ m.stopRec = some fi) ∨ (∃ c va, m.wait = .heldSlot c va ∧ fi = slotFault s m (c + 0x0F) c va) →
          let d := deliverEntry (updMember s id fun v => { v with stopRec := none }) id fi
          (recordRoom s d = true → SameMemory d t ∧
            ∀ v1, memberAt d id = some v1 → ∃ v, memberAt t id = some v ∧ v.r = v1.r ∧ v.trapMode = v1.trapMode ∧
              v.pc = v1.pc ∧ v.slot = v1.slot ∧ v.stopRec = v1.stopRec) ∧
          (recordRoom s d = false → SameMemory s t ∧
            ∃ v, memberAt t id = some v ∧ v.r = m.r ∧ v.wait = .recordFull ∧ v.stopRec = some fi)))

/-- R321, R322: a write of REQ begins a transition: rings that leave REQ park and those that enter it wake; 0 is ignored, and while a
transition runs the write waits. HEAT is taken where AUTO is 0 in the same write. EVEN and THRESH are plain.
A retry after a failed lock, and the merging of 32-bit writes, are the model's readings (logs 44, 45).

R321, R322, R330, R331: a waking ring locks within 10 µs (48,000 ticks) of the write, or fails then, and STATE is 3; a parked one ends its
park; the monitor takes its reading, and a heater is retuned where AUTO is set.

R311, R317, R322, R331: flits are queued on the bundle of their channel, start in order at a flit boundary against credit, once the flit
before has left and unless their link is dead, are striped across the wavelengths of ACT, and give their credit back; the receiver follows
the sender's changes of ACT one by one.
Where an injected flit carries its channel is the model's reading (log 44).

Constructors of `Instr` whose completion this states: reqWrite, heatWrite, evenThreshWrite, flitEnqueue, flitStart, ringLock, ringParkEnd,
ringLockTimeout, heaterRetune, flitCreditReturn, restripeMarkerArrival. -/
def Obligations.Optics : Prop :=
  (IoEvent .reqWrite (fun u off _ => ∃ k, bundleReg? u off = some (k, 0)) (fun s u off l t =>
      ∀ k, bundleReg? u off = some (k, 0) →
        let b := bundleAt s k
        let c := bundleAt t k
        let v := BitVec.ofNat 8 (ioMerge b.req.toNat l)
        OnlyBundle s t k ∧
        (l.2.testBit 0 = false ∨ v = 0 → c = b) ∧
        (l.2.testBit 0 = true → v ≠ 0 → b.state = 1 ∨ b.state = 2 → c = { b with waiting := some v }) ∧
        (l.2.testBit 0 = true → v ≠ 0 → b.state ≠ 1 → b.state ≠ 2 → c.req = v ∧ c.fail = 0 ∧ c.waiting = none ∧
          c.waking = v &&& ~~~b.act &&& ~~~b.joining ∧ c.parking = (b.parking ||| b.act ||| b.joining ||| b.waking) &&& ~~~v ∧
          c.wakeAt = s.mod.time ∧ c.lock = b.lock ∧ c.heat = b.heat ∧ c.queued = b.queued ∧
          (s.mod.time < b.busyUntil → c.act = b.act ∧ c.joining = b.joining &&& v) ∧
          (b.busyUntil ≤ s.mod.time → c.act = (b.act &&& ~~~c.parking) ||| (b.joining &&& v) ∧ c.joining = 0))) ∧
    IoEvent .heatWrite (fun u off _ => ∃ k o, bundleReg? u off = some (k, o) ∧ 0x40 ≤ o ∧ o < 0x80) (fun s u off l t =>
      ∀ k o, bundleReg? u off = some (k, o) →
        let b := bundleAt s k
        let w := (o - 0x40) / 8
        let n := ioMerge (bundleReg b o) l
        OnlyBundle s t k ∧ ∃ auto, bundleAt t k = { b with
          auto := auto, heat := if n.testBit 32 then b.heat else b.heat.set w (BitVec.ofNat 16 n) } ∧
          ∀ i, i < 8 → auto.getLsbD i = if i = w then n.testBit 32 else b.auto.getLsbD i) ∧
    IoEvent .evenThreshWrite (fun u off _ => ∃ k, bundleReg? u off = some (k, 0x18)) (fun s u off l t =>
      ∀ k, bundleReg? u off = some (k, 0x18) →
        let n := ioMerge (bundleReg (bundleAt s k) 0x18) l
        OnlyBundle s t k ∧ bundleAt t k = { bundleAt s k with even := n.testBit 16, thresh := BitVec.ofNat 13 n })) ∧
  (∀ (s : State) (fibre bundle wl : Nat), wl < 8 →
    let k := 8 * fibre + bundle
    let b := bundleAt s k
    let one := 1#8 <<< wl
    let there := fibre < 64 ∧ bundle < 8
    (¬ there ∨ b.waking.getLsbD wl = false → Idle (.ringLock fibre bundle wl) s ∧ Idle (.ringLockTimeout fibre bundle wl) s) ∧
    (there → b.waking.getLsbD wl = true →
      (s.mod.time < b.wakeAt + 48000 → Idle (.ringLockTimeout fibre bundle wl) s ∧
        (b.waiting = none → ∃ t, exec (.ringLock fibre bundle wl) s = .next t ∧ SameMemory s t ∧ OnlyBundle s t k ∧
          (bundleAt t k).waking = b.waking &&& ~~~one ∧ (bundleAt t k).lock = b.lock ||| one ∧ (bundleAt t k).fail = b.fail ∧
          (s.mod.time < b.busyUntil → (bundleAt t k).act = b.act ∧ (bundleAt t k).joining = b.joining ||| one) ∧
          (b.busyUntil ≤ s.mod.time → (bundleAt t k).act = (b.act &&& ~~~b.parking) ||| b.joining ||| one))) ∧
      (b.wakeAt + 48000 ≤ s.mod.time → Idle (.ringLock fibre bundle wl) s ∧
        ∃ t, exec (.ringLockTimeout fibre bundle wl) s = .next t ∧ SameMemory s t ∧ OnlyBundle s t k ∧ t.mod = s.mod ∧
          (bundleAt t k).waking = b.waking &&& ~~~one ∧ (bundleAt t k).lock = b.lock &&& ~~~one ∧
          (bundleAt t k).fail = b.fail ||| one ∧ (bundleAt t k).state = 3)) ∧
    (¬ there ∨ b.parking.getLsbD wl = false ∨ b.act.getLsbD wl = true → Idle (.ringParkEnd fibre bundle wl) s) ∧
    (there → b.parking.getLsbD wl = true → b.act.getLsbD wl = false → b.waiting = none →
      ∃ t, exec (.ringParkEnd fibre bundle wl) s = .next t ∧ SameMemory s t ∧ OnlyBundle s t k ∧
        (bundleAt t k).parking = b.parking &&& ~~~one ∧ (bundleAt t k).lock = b.lock &&& ~~~one) ∧
    ∀ heat mon : BitVec 16, there → ∃ t, exec (.heaterRetune fibre bundle wl heat mon) s = .next t ∧ SameMemory s t ∧ OnlyBundle s t k ∧
      bundleAt t k = { b with heat := if b.auto.getLsbD wl then b.heat.set wl heat else b.heat, mon := b.mon.set wl mon }) ∧
  (∀ (s : State) (fibre bundle : Nat),
    let k := 8 * fibre + bundle
    let b := bundleAt s k
    (∀ flit, fibre < 64 → bundle < 8 → linkDead s fibre = false → flit % 8 = bundle → b.queued.length < 8191 →
      ∃ t, exec (.flitEnqueue fibre bundle flit) s = .next t ∧ SameMemory s t ∧ OnlyBundle s t k ∧
        bundleAt t k = { b with queued := b.queued ++ [flit] }) ∧
    (b.queued = [] → Idle (.flitStart fibre bundle) s) ∧
    (∀ f rest, b.queued = f :: rest →
      let act := (b.act &&& ~~~b.parking) ||| b.joining
      let used := fun (u : State) (c : Nat) => (tabGet (portAt u fibre).pool c).getD 0
      let wls := (List.range 8).filter fun i => act.getLsbD i
      let n := wls.length
      (64 ≤ fibre ∨ 8 ≤ bundle ∨ s.mod.time < b.busyUntil ∨ linkDead s fibre = true ∨ act = 0 ∨
        hasCredit (portAt s fibre) (f % 64) = false → Idle (.flitStart fibre bundle) s) ∧
      (fibre < 64 → bundle < 8 → b.busyUntil ≤ s.mod.time → linkDead s fibre = false → act ≠ 0 →
        hasCredit (portAt s fibre) (f % 64) = true → ∃ t, exec (.flitStart fibre bundle) s = .next t ∧ SameMemory s t ∧
        OnlyBundle s t k ∧ (bundleAt t k).queued = rest ∧ (bundleAt t k).act = act ∧ (bundleAt t k).joining = 0 ∧
        (bundleAt t k).sent = b.sent ++ [(f, wls.zipIdx.map fun w => (w.1, 256 / n + if w.2 < 256 % n then 1 else 0))] ∧
        (bundleAt t k).busyUntil = s.mod.time + (((256 + n - 1) / n) * 3 + 19) / 20 ∧
        used t (f % 64) = used s (f % 64) + 1 ∧ ∀ c, c ≠ f % 64 → used t c = used s c)) ∧
    (∀ channel count, (linkDead s fibre = true → Idle (.flitCreditReturn fibre channel count) s) ∧
      (linkDead s fibre = false → ∃ t, exec (.flitCreditReturn fibre channel count) s = .next t ∧ SameMemory s t ∧
        (tabGet (portAt t fibre).pool channel).getD 0 = (tabGet (portAt s fibre).pool channel).getD 0 - count)) ∧
    (b.markers = [] ∨ linkDead s fibre = true → Idle (.restripeMarkerArrival fibre bundle) s) ∧
    ∀ a rest, b.markers = a :: rest → linkDead s fibre = false → ∃ t, exec (.restripeMarkerArrival fibre bundle) s = .next t ∧
      SameMemory s t ∧
      OnlyBundle s t k ∧ bundleAt t k = { b with rxAct := a, markers := rest })

/-- R290, R306: CTXSAVE, CTXLOAD, CKPT and CKPT.RB ask for a switch-out or a restore; a context that there is not gives 0xFFFFFFFF at once,
and CTXSAVE of the issuer's own context is illegal.
What counts as a bad image or as no room is the model's reading (log 30).

Constructors of `Instr` whose completion this states: ctxsave, ctxload, ckpt, ckptRb. -/
def Obligations.ContextInstructions : Prop := ∀ (d : Dst) (r : BitVec 6) (a b : Src) (tok : BitVec 3),
  ContextForm (.ctxsave · d a b tok) d a b tok (fun s k m _ core n t =>
    (Unnamed s core n → Answered s t k m d 0xFFFFFFFF) ∧
    ∀ l c, Named s core n l c →
      (l = m.launch ∧ core = m.core → t = trap s k 0x01 k.slot) ∧
      (¬ (l = m.launch ∧ core = m.core) → ∃ j, Requested s t k m tok.toNat j ∧ j.kind = .save ∧ j.launch = l ∧ j.core = core ∧
        j.dst = d ∧ j.restoring = false)) ∧
  ContextForm (.ctxload · d a b tok) d a b tok (fun s k m x core _ t =>
    ∃ j, Requested s t k m tok.toNat j ∧ j.kind = .load ∧ j.target = core ∧ j.dst = d ∧ j.restoring = true ∧
      j.launch = byteAt (imgRead s (imageAtOf s m x) 0 6).1 0 4) ∧
  ∀ (mk : Common → Instr) (kind : JobKind), (mk = (.ckpt · r a b tok) ∧ kind = .close) ∨ (mk = (.ckptRb · r a b tok) ∧ kind = .rollback) →
    ContextForm mk (.g r) a b tok (fun s k m _ core n t =>
      (∀ l c, Named s core n l c →
        (c.archived = false → Answered s t k m (.g r) 0xFFFFFFFF) ∧
        (c.archived = true → ∃ j, Requested s t k m tok.toNat j ∧ j.kind = kind ∧ j.launch = l ∧ j.core = core ∧ j.dst = .g r ∧
          j.restoring = false)) ∧
      (Unnamed s core n → (∀ e ∈ s.ctxs, e.1 % 4096 = core → e.2.isOut = true → e.2.archived = true → e.2.number ≠ n) →
        Answered s t k m (.g r) 0xFFFFFFFF))

/-- R277, R278, R290: a switch-out takes place when everything that it waits for has ended; the context is then out, its members hold no
slots and keep their registers, its image is kept and written, and CTXSAVE returns its size.
What of a context's held work is kept at its switch-out is the model's reading (log 20).

R278, R280, R327: a record gives its member back: registers, position, published faces, and the state of releases and traps. A restore that
finds its room seats the members, as `putBack` says, and ends the job that asked for it; one that does not leaves the context out, and
none takes place while an eviction is under way.
What is queued again at a restore is the model's reading (log 20), as are that a member keeps the fuller wait that it had, which its record
names by kind only (log 23), and what counts as a bad image or as no room (log 30).

Constructors of `Instr` whose completion this states: contextSwitchOut, contextRestore. -/
def Obligations.SwitchesAndRestores : Prop :=
  (∀ (s : State) (launch core : Nat) (j : Job) (c : Ctx),
    s.mod.jobs.find? (fun j => j.launch == launch && j.core == core && !j.restoring) = some j → ctxAt s launch core = some c →
    c.isOut = false →
    (c.switching = false ∨ switchReady s launch core = false → Idle (.contextSwitchOut launch core) s) ∧
    (c.switching = true → switchReady s launch core = true → j.kind = .save →
      let img := imageOf s launch core c
      img.length = 256 + 32 * c.vwCount + 512 * (occupants s launch core).length + 64 * (ctxLogs s launch core).length +
        (if hasDocentBlock s launch core = true then 4160 else 0) ∧
      byteAt img 0 4 = launch % 2 ^ 32 ∧ byteAt img 4 2 = core % 2 ^ 16 ∧ byteAt img 12 4 = c.trapEntry.toNat ∧
      byteAt img 16 2 = c.route.toNat ∧ (∀ i : Fin 6, byteAt img (32 + 16 * i) 16 = c.desc[i].toNat) ∧
      ∃ t s1 c', exec (.contextSwitchOut launch core) s = .next t ∧ s1.mem = s.mem ∧ t.mem = (imgWrite s1 j.image img).mem ∧
        ctxAt t launch core = some c' ∧ c'.isOut = true ∧ c'.switching = false ∧ c'.image = img ∧ c'.desc = c.desc ∧
        (∀ n m, memberAt s n = some m → n ≠ j.member → memberAt t n = some
          (if m.launch = launch ∧ m.core = core ∧ seated m = true then
            { m with place := .out (match m.place with | .annex _ => true | _ => false) } else m)) ∧
        ∀ m, memberAt s j.member = some m → m.wait ≠ .drain .eret → ∃ v, memberAt t j.member = some v ∧
          v.r = afterResult m.r j.dst false (BitVec.ofNat 64 (img.length % 2 ^ 32)))) ∧
  ((∀ (s : State) (m : Member) (free : Nat),
      let v := memberFromRecord m (recordOfMember s m free)
      v.r = m.r ∧ v.pc = m.pc % 2 ^ 32 ∧ v.slot = m.slot % 16 ∧ v.pub0 = m.pub0 ∧ v.pub1 = m.pub1 ∧ v.trapMode = m.trapMode ∧
      v.rp = m.rp ∧ v.rd = m.rd ∧ v.arrivals = m.arrivals ∧ v.wait = m.wait ∧ (m.kind = .tail → v.holdTop = m.holdTop) ∧
      (m.trapMode = true → v.trapRec = m.trapRec) ∧ (m.kind = .grid → v.done = m.done)) ∧
    ∀ (s : State) (launch core : Nat) (j : Job),
      s.mod.jobs.find? (fun j => j.launch == launch && j.restoring && (j.target == core || j.kind == .drain)) = some j →
      (evicting s = true → Idle (.contextRestore launch core) s) ∧
      (evicting s = false → j.kind ≠ .load → j.kind ≠ .drain → ∀ c, ctxAt s launch j.core = some c →
        (∀ s1, putBack s launch j.core core c.image = .ok s1 → exec (.contextRestore launch core) s = .next (endJob s1 j j.status)) ∧
        (∀ n, putBack s launch j.core core c.image = .no n → Idle (.contextRestore launch core) s)) ∧
      (evicting s = false → j.kind = .load → ∀ h s1, imgRead s j.image 0 256 = (h, s1) →
        (headerOk h = false → exec (.contextRestore launch core) s = .next (endJob s1 j 1)) ∧
        (headerOk h = true → (∀ l, launchAt s j.launch = some l → l.phase ≠ .running) →
          exec (.contextRestore launch core) s = .next (endJob s1 j 3)) ∧
        (headerOk h = true → (∃ l, launchAt s j.launch = some l ∧ l.phase = .running) →
          (∀ c, ctxAt s j.launch (byteAt h 4 2) = some c → c.isOut = false) →
          exec (.contextRestore launch core) s = .next (endJob s1 j 1))))

/-- R101, R277, R282, R283: the watchdog switches out a context that has made no progress, or has retired nothing, for its time, which
WDPERIOD gives in microseconds with 0 as 1; a docent that reaches no yield point in a switch is stopped.
That a context whose members have all ended is not reported is the model's reading (log 36).

R303, R307, R308: a read that meets an uncorrectable error poisons its granule and counts, and the reader's context is switched out with
its access in the operand log, or with its neighbour read waiting; PERIOD after its last close an archived context is due, be it in or
out, unless it is in interval 0.
How an access to poison is logged with the switch is the model's reading (log 52).

R302: the oldest captured unit is replayed on the unclaimed core of lowest number in another field; at its end it counts as sampled, and
where its signature disagrees the mismatch is counted, the suspect is named, and the core that ran it is quarantined with its contexts
to be switched out. Between sound arrays the signatures of the captured inputs decide; which array is sound the model leaves free.
That a capture is kept in the module unit is the model's choice (log 31).

Constructors of `Instr` whose completion this states: docentOverrunExpiry, watchdogNoProgress, watchdogNoRetire, poisonRead,
appraiserReplay, checkpointDue. -/
def Obligations.WatchdogsPoisonAndAudit : Prop :=
  ((∀ (s : State) (launch core image : Nat) (c : Ctx) (l : Launch), ctxAt s launch core = some c → launchAt s launch = some l →
      let out := fun (ev : Instr) (detail : Nat) => ∃ t c' j, exec ev s = .next t ∧ SameMemory s t ∧ t.members = s.members ∧
        ctxAt t launch core = some c' ∧ c'.switching = true ∧ t.mod.jobs = s.mod.jobs ++ [j] ∧ j.kind = .watchdog detail ∧
        j.launch = launch ∧ j.core = core
      let progress := l.pkt.persistent = true ∧ watched s launch core c = true ∧ c.lastMark + l.pkt.interval * 76800 ≤ s.mod.time
      let retire := l.pkt.persistent = false ∧ watched s launch core c = true ∧ c.lastRetire + watchdogTicks s ≤ s.mod.time
      (progress → out (.watchdogNoProgress launch core image) 1) ∧ (¬ progress → Idle (.watchdogNoProgress launch core image) s) ∧
      (retire → out (.watchdogNoRetire launch core image) 2) ∧ (¬ retire → Idle (.watchdogNoRetire launch core image) s)) ∧
    ∀ (s : State) (core : Nat) (p : Program) (x : Cmd) (c : Ctx), (coreAt s core).eng.prog = some p → cmdAt s core p.cmd = some x →
      ctxAt s x.launch core = some c →
      let due := c.switching = true ∧ docentYielded s x.launch core = false ∧ (∀ g ∈ (coreAt s core).issue, g.launch ≠ x.launch) ∧
        c.switchAt + 4800000 ≤ s.mod.time
      (¬ due → Idle (.docentOverrunExpiry core) s) ∧
      (due → x.kind.unit = .docent → x.docent = false → ∃ t, exec (.docentOverrunExpiry core) s = .next t ∧ SameMemory s t ∧
        (Keyed (cmdsOf s core) → (coreAt t core).eng.prog = none ∧ cmdAt t core p.cmd = none) ∧
        ∃ r, r ∈ t.mod.recBuf ∧ r.cause = 0x21 ∧ r.detail = 3)) ∧
  ((∀ (s : State) (granule : Nat) (reader : Origin), (∀ id, reader ≠ .access id) → (∀ r, reader ≠ .neighbour r) →
      ∃ t, exec (.poisonRead granule reader) s = .next t ∧ SameMemory s t ∧ t.mod.errCount = s.mod.errCount + 1 ∧
        physOf s (granule / 8 * 8) ∈ t.mod.poison ∧ (∀ g ∈ s.mod.poison, g ∈ t.mod.poison)) ∧
    (∀ (s : State) (granule id : Nat) (a : Access) (pa : Nat), tabGet s.accs id = some a → a.phase = .issued → a.tgt = .loc pa →
      a.kind = .load →
      crosses s a = false → orderPasses s id a = true → ∀ m, memberAt s a.member = some m →
      physOf s (granule / 8 * 8) < physOf s pa + a.size → physOf s pa < physOf s (granule / 8 * 8) + 8 →
      oneRun s pa a.size = true → firstFree (coreAt s a.core).log 64 0 < 64 →
      ∃ t b e j, exec (.poisonRead granule (.access id)) s = .next t ∧ SameMemory s t ∧ t.mod.errCount = s.mod.errCount + 1 ∧
        physOf s (granule / 8 * 8) ∈ t.mod.poison ∧ tabGet t.accs id = some b ∧ b.phase = .logged ∧ b.heldCause = 1 ∧
        tabGet (coreAt t a.core).log (firstFree (coreAt s a.core).log 64 0) = some e ∧ e.acc = id ∧ e.cause = 1 ∧
        t.mod.jobs = s.mod.jobs ++ [j] ∧ j.kind = .poison ∧ j.launch = a.launch ∧ j.core = a.core) ∧
    (∀ (s : State) (granule r : Nat) (x : NbrRead) (m : Member), tabGet s.nbrs r = some x → memberAt s x.reader = some m →
      x.arrived = true → readServed s x = true → m.wait = .nbr x.dir x.face → seated m = true →
      faceGranule s x = some (physOf s (granule / 8 * 8)) →
      ∃ t j, exec (.poisonRead granule (.neighbour r)) s = .next t ∧ SameMemory s t ∧ t.members = s.members ∧ t.nbrs = s.nbrs ∧
        t.mod.errCount = s.mod.errCount + 1 ∧ physOf s (granule / 8 * 8) ∈ t.mod.poison ∧
        t.mod.jobs = s.mod.jobs ++ [j] ∧ j.kind = .poison ∧ j.launch = m.launch ∧ j.core = m.core) ∧
    ∀ (s : State) (launch core : Nat) (c : Ctx), ctxAt s launch core = some c →
      let due := c.archived = true ∧ c.dueSent = false ∧ c.interval ≠ 0 ∧ c.lastClose + s.mod.period.toNat * 4800 ≤ s.mod.time
      (¬ due → Idle (.checkpointDue launch core) s) ∧
      (due → ∃ t c', exec (.checkpointDue launch core) s = .next t ∧ SameMemory s t ∧ t.mod.due = s.mod.due ++ [(core, c.number)] ∧
        t.mod.events ≠ [] ∧ ctxAt t launch core = some c' ∧ c'.dueSent = true)) ∧
  (∀ s,
    (s.mod.units = [] → Idle .appraiserReplay s) ∧
    ∀ u rest, s.mod.units = u :: rest →
      (s.mod.replay = none → replayCore s u.core = none → Idle .appraiserReplay s) ∧
      (∀ r, s.mod.replay = none → replayCore s u.core = some r →
        (fieldOf r ≠ fieldOf u.core ∧ (coreAt s r).eng.owner = none ∧
          ∀ g, g < r → coreExists g = true → fieldOf g ≠ fieldOf u.core → isOnline s (fieldOf g) = true → (coreAt s g).eng.owner ≠ none) ∧
        ∃ t, exec .appraiserReplay s = .next t ∧ OnlyMod s t { s.mod with replay := some r }) ∧
      ∀ r, s.mod.replay = some r →
        let sound := Config.arraySound u.core = true ∧ Config.arraySound r = true
        ∃ t, exec .appraiserReplay s = .next t ∧ SameMemory s t ∧ t.mod.units = rest ∧ t.mod.sampled = s.mod.sampled + 1 ∧
          t.mod.replay = none ∧
          (((sound → replaySignature u = u.signature) ∧
              t.mod.mismatch = s.mod.mismatch ∧ t.mod.suspect = s.mod.suspect ∧ t.cores = s.cores ∧ t.ctxs = s.ctxs) ∨
            ((sound → replaySignature u ≠ u.signature) ∧
              t.mod.mismatch = s.mod.mismatch + 1 ∧ t.mod.suspect = s.mod.suspect.or (some (u.core, r, u.launch)) ∧
              (coreAt t u.core).quarantined = true ∧
              (Keyed s.ctxs → ∀ e ∈ ctxsOf s u.core, ∃ c, tabGet t.ctxs e.1 = some c ∧ c.switching = true))))

/-- R323 to R326: at an interval's end unused budget is gone; every context's request is the highest level that was written in the interval,
or the one before where none was, under the ceiling of its priority, and its Want starts again at 0; every quad takes the step that its
requests and the cap give: a slower one at once, a faster one when it has settled.

R120, R123, R324: a cycle adds one to %cyc and, to %time, as many ticks as the highest class in E1 to E4 takes at the quad's performance
step; the instruction that enters E1 is first in the pipe.

R297, R299: a member that retires charges its core one entry of the energy table, of category 15 where it was guarded off, and counts
for the watchdog.

Constructors of `Instr` whose completion this states: byteBudgetInterval, perfIntervalBoundary, perfStepSettle. -/
def Obligations.Clocks : Prop :=
  (∀ s : State,
    (∃ t, exec .byteBudgetInterval s = .next t ∧ SameMemory s t ∧ ∀ q, quadAt t q = { quadAt s q with spent := 0 }) ∧
    (∃ t, exec .perfIntervalBoundary s = .next t ∧ SameMemory s t ∧ t.members = s.members ∧
      (∀ launch core c l, ctxAt s launch core = some c → launchAt s launch = some l → core < 4096 → c.isOut = false →
        ∃ c', ctxAt t launch core = some c' ∧ c'.written = false ∧ c'.want = 0 ∧
          c'.req = min (if c.written then c.want else c.req) (s.mod.allow.toList.getD l.pkt.prio 7)) ∧
      ∀ f i, fieldExists f = true → i < 16 →
        let q := f * 16 + i
        let reqs := (t.ctxs.filter fun e => e.1 % 4096 / 4 == q && !e.2.isOut).map fun e => e.2.req
        let n := max (7 - reqs.foldl max 0) s.mod.capStep
        ((quadAt s q).step ≤ n → (quadAt t q).step = n ∧ (quadAt t q).settling = none) ∧
        (n < (quadAt s q).step → (quadAt t q).step = (quadAt s q).step ∧ (quadAt t q).settling = some n)) ∧
    ∀ q, ((quadAt s q).settling = none → Idle (.perfStepSettle q) s) ∧
      ∀ n, (quadAt s q).settling = some n → ∃ t, exec (.perfStepSettle q) s = .next t ∧ SameMemory s t ∧
        (quadAt t q).step = n ∧ (quadAt t q).settling = none ∧ ∀ p, p ≠ q → quadAt t p = quadAt s p) ∧
  (∀ (u : CoreUnit) (n cls : Nat),
    let v := cycleCore n cls u
    v.cyc = u.cyc + 1 ∧ v.pipe = cls :: u.pipe.take 3 ∧
    (n < 8 → cls < 4 → (∀ c ∈ u.pipe, c < 4) → ∃ top, (top = cls ∨ top ∈ u.pipe.take 3) ∧ cls ≤ top ∧ (∀ c ∈ u.pipe.take 3, c ≤ top) ∧
      v.ticks = u.ticks + (ticksTable.getD n []).getD top 0)) ∧
  (∀ (s : State) (m : Member) (off : Bool) (i : Instr),
    let t := retire s m off i
    let cat := if off then 15 else i.energy.1
    let e := ((tabGet s.mod.energyTab (32 * cat + 8 * i.energy.2 + (quadAt s (m.core / 4)).step)).getD 0).toNat
    SameMemory s t ∧ t.members = s.members ∧
    (off = true ∨ i.chargedByUnit = false → (coreAt t m.core).energy = (coreAt s m.core).energy + BitVec.ofNat 64 e) ∧
    (off = false → i.chargedByUnit = true → (coreAt t m.core).energy = (coreAt s m.core).energy) ∧
    (∀ c, ctxAt s m.launch m.core = some c → ctxAt t m.launch m.core = some { c with lastRetire := s.mod.time }))

/-- R327: the eviction handshake: GO in state 0 quiesces, with every context switched out, those that come in later too; quiesced, it
transfers; transferred, it drains, with images and mapped pages sent to the target, the peers told, and its circuits torn down; ABORT and
the time limit fail it from states 1 to 3, and the next ABORT goes back to 0. That with its circuits every peer has left the connected
group, whose apertures are lost, is the model's reading (log 42).

R3, R311, R314, R317, R327, R328: LRP is set only where no circuit is up and no route is valid, and then releases a drained module; a
circuit comes up to a module of the pod that is not fenced, within a group of at most 9, and clears it; the latch opens on it alone, and
counts. That a circuit joins its module to the group, and that modules that no circuit reaches any more leave it with their apertures
lost, is the model's reading (log 42), as is that the store shows the latch's own count (log 68).

Constructors of `Instr` whose completion this states: evictionGo, evictionAbort, lrpWrite, evictionQuiesced, evictionTransferred,
evictionTimeout, circuitUp, latchOpen. -/
def Obligations.EvictionAndLatch : Prop :=
  (∀ s : State,
    (∀ target, s.mod.evict = .idle → ∃ t, exec (.evictionGo .management target) s = .next t ∧ SameMemory s t ∧
      t.mod.evict = .quiescing ∧ t.mod.evictAt = s.mod.time ∧ t.mod.evTarget = BitVec.ofNat 6 target ∧
      ∀ launch core c, core < 4096 → ctxAt s launch core = some c → c.isOut = false →
        (∃ c', ctxAt t launch core = some c' ∧ c'.switching = true) ∧
        ∃ j ∈ t.mod.jobs, j.kind = .evict ∧ j.launch = launch ∧ j.core = core) ∧
    (∀ target, s.mod.evict ≠ .idle → ∃ t, exec (.evictionGo .management target) s = .next t ∧ SameMemory s t ∧
      t.mod.evict = s.mod.evict ∧ t.ctxs = s.ctxs) ∧
    (let quiet := ∀ e ∈ s.ctxs, e.2.isOut = true
     (s.mod.evict ≠ .quiescing → Idle .evictionQuiesced s) ∧
     (s.mod.evict = .quiescing → quiet → ∃ t, exec .evictionQuiesced s = .next t ∧ OnlyMod s t { s.mod with evict := .transferring }) ∧
     (s.mod.evict = .quiescing → ¬ quiet → ∃ t, exec .evictionQuiesced s = .next t ∧ SameMemory s t ∧ t.mod.evict = .quiescing ∧
       ∀ launch core c, core < 4096 → ctxAt s launch core = some c → c.isOut = false → c.switching = false →
         (∃ c', ctxAt t launch core = some c' ∧ c'.switching = true) ∧
         ∃ j ∈ t.mod.jobs, j.kind = .evict ∧ j.launch = launch ∧ j.core = core)) ∧
    (s.mod.evict ≠ .transferring → Idle .evictionTransferred s) ∧
    (s.mod.evict = .transferring → ∃ t, exec .evictionTransferred s = .next t ∧ SameMemory s t ∧ t.mod.evict = .draining ∧
      (∀ p ∈ t.ports, p.2.circuit = none) ∧ t.mod.group = [] ∧
      (∀ x ∈ s.mod.group, ∀ e ∈ t.mod.apertures, e.2.module.toNat = x → e.2.lost = true) ∧
      (∀ e ∈ s.ctxs, e.2.outFor = .evict → ∃ parked, .moveImage s.mod.evTarget.toNat (e.1 / 4096) (e.1 % 4096) e.2.image parked ∈
        t.mod.answers) ∧
      (∃ cells, .movePages s.mod.evTarget.toNat cells ∈ t.mod.answers ∧ ∀ c ∈ s.mem, isMapped s c.1 = true → c ∈ cells) ∧
      ∀ m ∈ s.mod.group, .repoint m s.mod.evTarget.toNat ∈ t.mod.answers) ∧
    (let live := s.mod.evict = .quiescing ∨ s.mod.evict = .transferring ∨ s.mod.evict = .draining
     let failed := fun (ev : Instr) => ∃ t, exec ev s = .next t ∧ SameMemory s t ∧ t.mod.evict = .failed ∧ t.ctxs = s.ctxs ∧
       ∀ e ∈ s.ctxs, e.2.isOut = true → e.2.outFor = .evict → ∃ j ∈ t.mod.jobs, j.kind = .evict ∧ j.restoring = true ∧
         j.launch = e.1 / 4096 ∧ j.core = e.1 % 4096
     (live → failed (.evictionAbort .management)) ∧
     (live → s.mod.evictAt + 144000000000 ≤ s.mod.time → failed .evictionTimeout) ∧
     (¬ live ∨ s.mod.time < s.mod.evictAt + 144000000000 → Idle .evictionTimeout s) ∧
     (s.mod.evict = .failed → ∃ t, exec (.evictionAbort .management) s = .next t ∧ OnlyMod s t { s.mod with evict := .idle }) ∧
     (¬ live → s.mod.evict ≠ .failed → Idle (.evictionAbort .management) s)) ∧
    (∀ src, (∀ a, src ≠ .access a) → src ≠ .management → Idle (.evictionAbort src) s ∧ ∀ target, Idle (.evictionGo src target) s) ∧
    (∀ target, IoEvent (fun a => .evictionGo (.access a) target)
      (fun u off l => u = .module ∧ off = 0x380 ∧ (l.1 &&& l.2).testBit 8 = true ∧ (l.1 &&& l.2).testBit 9 = false)
      (fun s _ _ _ t => t.mod.evict = if s.mod.evict = .idle then .quiescing else s.mod.evict)) ∧
    IoEvent (fun a => .evictionAbort (.access a)) (fun u off l => u = .module ∧ off = 0x380 ∧ (l.1 &&& l.2).testBit 9 = true)
      (fun s _ _ _ t => t.mod.evict = match s.mod.evict with
        | .idle | .failed => .idle
        | .released => .released
        | _ => .failed)) ∧
  (IoEvent .lrpWrite (fun u off _ => u = .module ∧ off = 0x388) (fun s _ _ l t =>
      let busy := (∃ p ∈ s.ports, p.2.circuit.isSome = true) ∨ (∃ e ∈ s.mod.apertures, e.2.v = true) ∨
        ∃ e ∈ s.mod.ranges, e.2.v = true
      (l.2.testBit 4 = false → t.mod.lrp = s.mod.lrp ∧ t.mod.evict = s.mod.evict) ∧
      (l.2.testBit 4 = true → l.1.testBit 4 = false → t.mod.lrp = false ∧ t.mod.evict = s.mod.evict) ∧
      (l.2.testBit 4 = true → l.1.testBit 4 = true → busy → t.mod.lrp = s.mod.lrp ∧ t.mod.evict = s.mod.evict) ∧
      (l.2.testBit 4 = true → l.1.testBit 4 = true → ¬ busy → t.mod.lrp = true ∧
        t.mod.evict = if s.mod.evict = .draining then (if s.mod.evictAt + 144000000000 ≤ s.mod.time then .failed else .released)
          else s.mod.evict)) ∧
    (∀ (s : State) (port module : Nat),
      let rest := s.mod.group.filter fun x => (updPort s port fun p => { p with circuit := none }).ports.any fun p => p.2.circuit == some x
      let may := port < 64 ∧ module < 64 ∧ module ≠ s.mod.number ∧ module ∉ s.mod.fenced ∧ (module ∈ rest ∨ rest.length < 8)
      (¬ may → Idle (.circuitUp port module) s) ∧
      (may → ∃ t, exec (.circuitUp port module) s = .next t ∧ SameMemory s t ∧
        (portAt t port).circuit = some module ∧ t.mod.lrp = false ∧ (∀ x, x ∈ t.mod.group ↔ x = module ∨ x ∈ rest) ∧
        (portAt t port).pool = (portAt s port).pool ∧ (∀ p, p ≠ port → portAt t p = portAt s p) ∧
        ∀ x ∈ s.mod.group, x ≠ module → x ∉ rest → ∀ e ∈ t.mod.apertures, e.2.module.toNat = x → e.2.lost = true)) ∧
    ∀ s : State,
      (s.mod.lrp = false ∨ s.mod.latchOpen = true → Idle .latchOpen s) ∧
      (s.mod.lrp = true → s.mod.latchOpen = false → ∃ t, exec .latchOpen s = .next t ∧ SameMemory s t ∧ t.mod.latchOpen = true ∧
        storeNat t 36 4 = (storeNat s 36 4 + 1) % 2 ^ 32 ∧ ∀ i, i < 36 ∨ 40 ≤ i → storeByte t i = storeByte s i))

/-- R328, R329: an image is booted, or taken as an update, only if its signature verifies and its version is not below the fused minimum,
which it raises; a failed boot image leaves the module in recovery, and an update is the way out; the answers of the management bus
change nothing else.

R80, R123, R236, R283, R300, R303, R312, R316, R325, R327: a module reset: nothing runs, and every unit is as `State.reset` has it. Which
contents outlive it is the model's choice (log 2): memory with its poison, the module's number, the identity store, the latch's count and
the fused version. That the store shows the latch's own count in bytes 36 to 39 is the model's choice (log 68).

Constructors of `Instr` whose completion this states: moduleReset, bootImageVerify, pldmFirmwareUpdate, spdmGetCertificate, spdmChallenge,
spdmGetMeasurements. -/
def Obligations.BootAndReset : Prop :=
  (∀ (s : State) (image signature : List Byte) (version : Nat) (store : List (Nat × Byte)),
    let good := Config.signatureVerifies image signature = true ∧ s.mod.minVersion ≤ version
    let taken := fun t : State => t.mod.minVersion = version ∧ t.mod.measurements = s.mod.measurements ++ [Config.digest image]
    (s.mod.recovery = true ∨ 2 ≤ s.mod.booted → Idle (.bootImageVerify image signature version) s) ∧
    (s.mod.recovery = false → s.mod.booted < 2 → good → ∃ t, exec (.bootImageVerify image signature version) s = .next t ∧
      SameMemory s t ∧ taken t ∧ t.mod.booted = s.mod.booted + 1 ∧ t.mod.recovery = false) ∧
    (s.mod.recovery = false → s.mod.booted < 2 → ¬ good → ∃ t, exec (.bootImageVerify image signature version) s = .next t ∧
      OnlyMod s t { s.mod with recovery := true }) ∧
    (¬ good → Idle (.pldmFirmwareUpdate image signature version store) s) ∧
    (good → ∃ t, exec (.pldmFirmwareUpdate image signature version store) s = .next t ∧ SameMemory s t ∧ taken t ∧
      t.mod.recovery = false ∧ ∀ i, 4 ≤ i → i < 2632 → storeByte t i = storeByte s i) ∧
    (∃ t b, exec .spdmGetCertificate s = .next t ∧ OnlyMod s t { s.mod with answers := s.mod.answers ++ [.certificate b] } ∧
      b.length = min (storeNat s 2636 4) 65536 ∧ ∀ i, i < b.length → b.getD i 0 = storeByte s (storeNat s 2632 4 + i)) ∧
    (∀ nonce, ∃ t, exec (.spdmChallenge nonce) s = .next t ∧
      OnlyMod s t { s.mod with answers := s.mod.answers ++ [.challenge (Config.challengeAnswer nonce)] }) ∧
    ∃ t, exec .spdmGetMeasurements s = .next t ∧
      OnlyMod s t { s.mod with answers := s.mod.answers ++ [.measurements s.mod.measurements] }) ∧
  (∀ s : State, ∃ t, exec .moduleReset s = .next t ∧ SameMemory s t ∧
    t.queues = [] ∧ t.launches = [] ∧ t.ctxs = [] ∧ t.members = [] ∧ t.accs = [] ∧ t.nbrs = [] ∧ t.pkts = [] ∧
    t.keepers = State.reset.keepers ∧ t.optics = State.reset.optics ∧ t.ports = State.reset.ports ∧
    (∀ c, coreAt t c = CoreUnit.reset) ∧ (∀ f, fieldAt t f = FieldUnit.reset) ∧ (∀ q, quadAt t q = QuadUnit.reset) ∧
    (∀ b, bundleAt t b = Bundle.reset) ∧ (∀ p, portAt t p = portAt State.reset p) ∧
    t.mod = { State.reset.mod with
      number := s.mod.number, identity := s.mod.identity, latchCycles := s.mod.latchCycles, minVersion := s.mod.minVersion,
      poison := s.mod.poison } ∧
    t.mod.launchCount = 1 ∧ t.mod.wr = 0 ∧ t.mod.rd = 0 ∧ t.mod.rate = 10 ∧ t.mod.period = 20000 ∧ t.mod.wdPeriod = 100000 ∧
    t.mod.evict = .idle ∧ t.mod.lrp = false ∧ t.mod.ranges = [] ∧ t.mod.identity = s.mod.identity ∧ t.mod.minVersion = s.mod.minVersion)

/-- R78: a write of the notify register announces packets up to the index nearest at or above the read index; one not above the highest
announced is ignored, and one more than a ring ahead stops the queue with cause 11. A context's store reaches it at the doorbell
page, a client's write (R320) where its entry admits it, which is acknowledged, and otherwise refused and counted; Sernus restarts a
stopped queue.

R80, R81, R82, R87, R88, R348: the processor reads the next packet of a queue. A header of type 0 makes it wait for a notice; a check
that fails, in the order of the causes, stops the queue with its cause, and cause 6 waits for the segment block's page; a packet that passes
becomes a launch with the next identifier, its header is written
back and the read index advances.

Constructors of `Instr` whose completion this states: notifyRegisterWrite, packetAccept, processorPageServiced, queueRestart. -/
def Obligations.QueuesAndPackets : Prop :=
  ((∀ (s : State) (q : Nat) (u : Queue) (widx : Word) (i job src port : Nat), tabGet s.queues q = some u → q < 65536 →
      u.ridx ≤ i → i < u.ridx + 2 ^ 32 → i % 2 ^ 32 = widx.toNat →
      let ring := exec (.notifyRegisterWrite q widx (.client job src port)) s
      let admitted := clientAdmits s job src port (0x600000000 + 4096 * q) 4 true
      (admitted = false → ∃ t, ring = .next t ∧
        OnlyMod s t { s.mod with refused := s.mod.refused + 1, answers := s.mod.answers ++ [.clientError port] }) ∧
      (admitted = true → ∃ t, ring = .next t ∧ SameMemory s t ∧ t.members = s.members ∧ AnswersWith s t (.clientAck port) ∧
        (i ≤ u.notified → tabGet t.queues q = some { u with stall := false }) ∧
        (u.notified < i → i ≤ u.ridx + 2 ^ u.desc.k → tabGet t.queues q = some { u with stall := false, notified := i }) ∧
        (u.notified < i → u.ridx + 2 ^ u.desc.k < i → u.err = false →
          tabGet t.queues q = some { u with stall := false, err := true, cause := 11, failIdx := widx } ∧
          ∃ r, t.mod.recBuf = s.mod.recBuf ++ [r] ∧ r.cause = 0x22 ∧ r.detail = 11))) ∧
    (∀ (s : State) (q id : Nat) (a : Access) (widx : Word), q < 65536 → tabGet s.accs id = some a → a.kind = .store →
      a.tgt = .loc (0x600000000 + 4096 * q) → a.size = 4 → mayPerform s id a = true →
      ∃ t, exec (.notifyRegisterWrite q widx (.access id)) s = .next t ∧ SameMemory s t ∧ Completed s t id a (fun r => r) ∧
        (tabGet t.queues q).map (·.notified) = (tabGet (notifyQueue s q (lo32 a.data)).queues q).map (·.notified)) ∧
    ∀ (s : State) (q : Nat) (u : Queue), tabGet s.queues q = some u →
      (∃ t, exec (.queueRestart q) s = .next t ∧ t = { s with queues := t.queues } ∧
        tabGet t.queues q = some { u with err := false, cause := 0, failIdx := 0 }) ∧
      ∃ t, exec (.processorPageServiced q) s = .next t ∧ SameMemory s t ∧
        tabGet t.queues q = some { u with pageWait := false } ∧
        ∀ l x, launchAt s l = some x → x.queue = q → launchAt t l = some { x with blocked := false }) ∧
  (∀ (s : State) (n : Nat) (q : Queue), tabGet s.queues n = some q → q.desc.number = n →
    (queueLooks s q = false ∨ procAcquires s = false → Idle (.packetAccept n) s) ∧
    (queueLooks s q = true → procAcquires s = true →
      (∀ c s1, procRead s q.desc (packetAddr q.desc q.ridx) 64 = (.held c, s1) → ∃ t r, exec (.packetAccept n) s = .next t ∧
        SameButArchive s t ∧ (tabGet t.queues n).map (·.pageWait) = some true ∧ r ∈ t.mod.recBuf ∧ r.cause = c + 0x0F) ∧
      ∀ b s1, procRead s q.desc (packetAddr q.desc q.ridx) 64 = (.ok b, s1) →
        let ty := byteAt b 0 2 / 2 ^ 12 % 16
        let p := packetOf b q.ridx
        let first := packetCause b p q.ridx anyLimit
        (ty = 0 → ∃ t, exec (.packetAccept n) s = .next t ∧ SameButArchive s t ∧ tabGet t.queues n = some { q with stall := true }) ∧
        (ty ≠ 0 → servedBefore s n (byteAt b 0 2 / 2 ^ 7 % 8) = true → Idle (.packetAccept n) s) ∧
        (∀ c, ty ≠ 0 → servedBefore s n (byteAt b 0 2 / 2 ^ 7 % 8) = false → ¬ (1 ≤ first ∧ first ≤ 5) →
          codeLimit s1 q.desc p = .held c → ∃ t r, exec (.packetAccept n) s = .next t ∧ SameButArchive s t ∧
            (tabGet t.queues n).map (·.pageWait) = some true ∧ r ∈ t.mod.recBuf ∧ r.cause = c + 0x0F ∧ t.launches = s.launches) ∧
        (∀ lim, ty ≠ 0 → servedBefore s n (byteAt b 0 2 / 2 ^ 7 % 8) = false →
          (1 ≤ first ∧ first ≤ 5 ∧ lim = anyLimit ∨ ¬ (1 ≤ first ∧ first ≤ 5) ∧ codeLimit s1 q.desc p = .ok lim) →
          let cause := packetCause b p q.ridx lim
          (cause ≠ 0 → ∃ t q' r, exec (.packetAccept n) s = .next t ∧ SameButArchive s t ∧ tabGet t.queues n = some q' ∧ q'.err = true ∧
            q'.cause = cause ∧ q'.failIdx = BitVec.ofNat 32 q.ridx ∧ q'.ridx = q.ridx ∧ fateOf q' q.ridx = some .rejected ∧
            r ∈ t.mod.recBuf ∧ r.cause = 0x22 ∧ r.detail = BitVec.ofNat 32 cause ∧ t.launches = s.launches) ∧
          (∀ x c s2, cause = 0 → procUsable s1 q.desc (queueAddrs q.desc q.ridx) = .ok x →
            (if p.marker then (.ok markerCfg, s1) else readBlocksOf s1 q.desc p) = (.ok c, s2) →
            (∀ d, p.dep = some d → fateFails (fateOf q d) = false) →
            ∃ t l q' s3, exec (.packetAccept n) s = .next t ∧ launchAt t s.mod.launchCount = some l ∧ l.pkt = p ∧ l.queue = n ∧
              l.qindex = q.ridx ∧ l.phase = .accepted ∧ l.desc = c.cfg.desc ∧ l.argViews = c.views ∧
              t.mod.launchCount = (if 0xFFFFFFFF ≤ s.mod.launchCount then 1 else s.mod.launchCount + 1) ∧
              tabGet t.queues n = some q' ∧ q'.ridx = q.ridx + 1 ∧ fateOf q' q.ridx = some (.live s.mod.launchCount) ∧
              SameButArchive s s3 ∧ t.mem = (procWrite (procWrite s3 q.desc (packetAddr q.desc q.ridx) 2 (byteAt b 0 2 % 0x1000))
                q.desc q.desc.ridxAddr.toNat 8 (q.ridx + 1)).mem))))

/-- R84, R89, R97, R99, R102: a launch whose waits are over is placed whole or not at all: every cell of the blocks of this module gets a
member; one that no free module could place is killed; a placed launch starts, and its members are ready from then on.
When a waiting launch may be placed, and that the slots of a held gang are not free, are the model's readings (logs 17, 33), as is that
none is placed while an eviction is under way, which R327 says of packets (log 68).

R87, R89, R91, R177: a launch completes when nothing of it is left and its release has ended: its signal, if it has one, is an addition at
its sync word, and then it is finished and freed. A marker completes when its waits are over; a dependant of a launch that failed fails.
When a dependence ends is the model's reading (log 17), as is that the release waits until what the launch may have observed has been
applied (log 67).

Constructors of `Instr` whose completion this states: launchPlacement, launchStart, dependantFail, markerComplete, launchCompletion. -/
def Obligations.LaunchesPlacedAndEnded : Prop :=
  (∀ (s : State) (id : Nat) (x : Launch), launchAt s id = some x →
    (x.phase ≠ .accepted ∨ x.pkt.marker = true ∨ evicting s = true ∨ waitsOver s x = false ∨ holdsBack s id x = true →
      Idle (.launchPlacement id) s) ∧
    (x.phase = .accepted → x.pkt.marker = false → evicting s = false → waitsOver s x = true → holdsBack s id x = false →
      (∀ plan, assignBlocks s x (ownBlocks x) [] = some plan → ∃ t l, exec (.launchPlacement id) s = .next t ∧ SameMemory s t ∧
        launchAt t id = some l ∧ l.phase = .placed ∧
        ∀ b ∈ ownBlocks x, ∀ c ∈ blockCells x.pkt b, ∃ n m, memberAt t n = some m ∧ m.launch = id ∧ m.kind = .grid ∧ m.coord = c ∧
          m.wait = .inactive ∧ m.pc = x.pkt.entry) ∧
      (assignBlocks s x (ownBlocks x) [] = none → (assignBlocks (emptied s) x (ownBlocks x) []).isSome = true →
        Idle (.launchPlacement id) s) ∧
      (assignBlocks s x (ownBlocks x) [] = none → assignBlocks (emptied s) x (ownBlocks x) [] = none →
        ∃ t r, exec (.launchPlacement id) s = .next t ∧ SameMemory s t ∧ r ∈ t.mod.recBuf ∧ r.cause = 0x24 ∧
          (Keyed s.launches → launchAt t id = none) ∧
          ∀ q, tabGet s.queues x.queue = some q → ∃ q', tabGet t.queues x.queue = some q' ∧
            fateOf q' x.qindex = some (.killed id))) ∧
    (x.phase ≠ .placed ∨ waitsOver s x = false → Idle (.launchStart id) s) ∧
    (x.phase = .placed → waitsOver s x = true → ∃ t, exec (.launchStart id) s = .next t ∧ SameMemory s t ∧
      launchAt t id = some { x with phase := .running, startTime := s.mod.time } ∧
      (∀ n m, memberAt s n = some m → m.launch = id → ∃ v, memberAt t n = some v ∧ v.wait = .ready ∧ v.r = m.r ∧ v.pc = m.pc ∧
        v.place = m.place) ∧
      ∀ n m, memberAt s n = some m → m.launch ≠ id → memberAt t n = some m)) ∧
  (∀ (s : State) (id : Nat) (x : Launch) (q : Queue), launchAt s id = some x →
    tabGet s.queues x.queue = some q →
    let finished := fun (ev : Instr) (f : Fate) => ∃ t q', exec ev s = .next t ∧ SameMemory s t ∧ tabGet t.queues x.queue = some q' ∧
      fateOf q' x.qindex = some f ∧ (Keyed s.launches → launchAt t id = none) ∧ ∀ e ∈ t.members, e.2.launch ≠ id
    let signalled := fun (ev : Instr) (r : Resolved) => ∃ t n a, exec ev s = .next t ∧ SameMemory s t ∧ tabGet t.accs n = some a ∧
      a.kind = .completion id ∧ a.tgt = r.tgt ∧ a.addr = x.pkt.complAddr ∧ a.data = BitVec.ofNat 64 x.pkt.complVal ∧
      launchAt t id = some { x with phase := .completed }
    let sends := fun (ev : Instr) =>
      (x.pkt.complAddr = 0 → finished ev (.finished id)) ∧
      (∀ r, x.pkt.complAddr ≠ 0 → x.pkt.complAddr.toNat % 16 = 0 →
        procResolve s q.desc x.pkt.complAddr.toNat Need.procSignal = .ok r → signalled ev r) ∧
      (x.pkt.complAddr.toNat % 16 ≠ 0 → finished ev (.finished id))
    (x.pkt.marker = false →
      (x.phase = .completed → launchAccs s id = true → Idle (.launchCompletion id) s) ∧
      (x.phase = .completed → launchAccs s id = false → finished (.launchCompletion id) (.finished id)) ∧
      (x.phase = .running → x.blocked = false → launchEmpty s id = true → applied s (launchNeed s id) = true →
        sends (.launchCompletion id)) ∧
      (x.phase = .running → launchEmpty s id = false ∨ applied s (launchNeed s id) = false → Idle (.launchCompletion id) s)) ∧
    (x.pkt.marker = true → x.phase = .accepted → x.blocked = false →
      (waitsOver s x = true → sends (.markerComplete id)) ∧ (waitsOver s x = false → Idle (.markerComplete id) s)) ∧
    (∀ d, x.phase = .accepted ∨ x.phase = .placed → x.pkt.dep = some d →
      (fateFails (fateOf q d) = true → finished (.dependantFail id) .failed) ∧
      (fateFails (fateOf q d) = false → Idle (.dependantFail id) s)))

/-- R90, R95, R257: TRIG is a release at `.pod` that counts once when it ends; in other members than grid cells it has no effect. SPAWN
needs a valid translation of its target alone; its record takes an entry of the outbound buffer of 8, and its token counts it.
That a SPAWN record counts until it is accepted, also without a token, is the model's reading (log 40), as is what a release carries and
waits for beside its member's accesses (log 67).

R93, R94, R95, R282: a posted record whose release has ended enters the accession queue of its field, 256 deep, in the order of posts;
there the first of a launch starts a task cell where a slot is free, with the record's arguments and target; and a launch whose
records start no task for the watchdog period is reported.

Constructors of `Instr` whose completion this states: trig, spawn, continuationAccept, taskCellStart, accessionWatchdogExpiry. -/
def Obligations.TasksAndContinuations : Prop :=
  (∀ (r : BitVec 6) (o : MemOp),
    ActForm .trig (fun _ _ => none) [] (arg0 fun s k m t =>
      (m.kind ≠ .grid → t = s) ∧
      (m.kind = .grid → m.fences = [] → SameMemory s t ∧ (∀ n, n ≠ k.member → memberAt t n = memberAt s n) ∧
        ∃ v, memberAt t k.member = some v ∧ v.r = m.r ∧
          (fenceSet s k.member .pod = [] → releaseNeed s m .pod = [] → v.fences = [] ∧ v.triggered = true ∧
            ∀ l, launchAt s m.launch = some l →
            launchAt t m.launch = some { l with trigCount := l.trigCount + if m.triggered then 0 else 1 }) ∧
          (fenceSet s k.member .pod ≠ [] ∨ releaseNeed s m .pod ≠ [] → Keyed s.accs → v.triggered = m.triggered ∧ ∃ f, v.fences = [f] ∧
            f.rel = true ∧ f.trig = true ∧ f.waits = (fenceSet s k.member .pod).map (·.1) ∧ f.need = releaseNeed s m .pod))) ∧
    ActForm (.spawn · r o)
      (fun _ m => if m.kind = .curator then some 0x01 else if m.kind = .tail then some 0x0B else srcFault m .w32 o.off)
      [(.w32, o.off)] (arg1 fun s k m x t =>
        let v := viewAt s m.core o.view.toNat
        (View.valid v = false ∨ fmtOfCode (View.fmt v) = none → t = trap s k 0x04 0) ∧
        (∀ f, View.valid v = true → fmtOfCode (View.fmt v) = some f →
          let e := elementAddress v (fmtSize f) ((lo32 x).toInt + o.disp.toInt)
          (e = .outside → t = s) ∧
          (∀ c d, e = .bad c d → t = trap s k c d) ∧
          (∀ a, e = .addr a →
            (a.toNat % fmtSize f ≠ 0 → t = trap s k 0x05 0 a) ∧
            (a.toNat % fmtSize f = 0 → ∀ ctx, ctxAt s m.launch m.core = some ctx →
              let z := resolve s ctx m.core m.home false Need.none a (fmtSize f)
              (∀ c d, z.1 = .bad c d → t = trap z.2 k c d a) ∧
              (∀ c, z.1 = .held c → SameMemory s t ∧ ∃ w rec, memberAt t k.member = some w ∧ w.wait = .heldSlot c a ∧ w.slot = k.slot ∧
                t.mod.recBuf = s.mod.recBuf ++ [rec] ∧ rec.cause = c + 0x0F) ∧
              (∀ y ap pa, z.1 = .ok y → y.tgt = .peer ap pa → t = trap z.2 k 0x08 ap a) ∧
              (∀ y pa field, z.1 = .ok y → y.tgt = .loc pa → homeField s pa = some field →
                (255 ≤ tokCount m o.tok.toNat → t.sched.cur = some { k with hold := true }) ∧
                (tokCount m o.tok.toNat < 255 → 8 ≤ (coreAt s m.core).outbound.length →
                  ∃ w, memberAt t k.member = some w ∧ w.wait = .outbound ∧ w.slot = k.slot ∧ w.r = m.r) ∧
                (tokCount m o.tok.toNat < 255 → (coreAt s m.core).outbound.length < 8 → SameMemory s t ∧
                  (∀ n, n ≠ k.member → memberAt t n = memberAt s n) ∧
                  (∃ w, memberAt t k.member = some w ∧ w.r = m.r ∧ tokCount w o.tok.toNat = tokCount m o.tok.toNat + 1) ∧
                  ∃ n c, tabGet (coreAt t m.core).outbound n = some c ∧ c.target = a ∧ c.field = field ∧ c.entry = m.r.getG r ∧
                    c.source = m.core ∧ c.args = [m.r.getG (r + 1), m.r.getG (r + 2), m.r.getG (r + 3), m.r.getG (r + 4)] ∧
                    c.launch = m.launch ∧ c.member = k.member ∧ c.tok = o.tok.toNat ∧
                    (m.fences = [] → let rel := o.order == .rel || o.order == .ar
                      c.waits = (if rel then (fenceSet s k.member o.scope).map (·.1) else []) ∧
                      c.need = if rel then releaseNeed s m o.scope else [])))))))) ∧
  ((∀ (s : State) (core id : Nat) (x : Cont), tabGet (coreAt s core).outbound id = some x →
      let due := (fieldAt s x.field).accession.length < 256 ∧ allPerformed s x.waits = true ∧ applied s x.need = true ∧
        fieldGone s x.field = false ∧
        ∀ e ∈ (coreAt s core).outbound, e.1 < id → e.2.launch = x.launch → e.2.field ≠ x.field
      (¬ due → Idle (.continuationAccept core id) s) ∧
      (due → ∀ m, memberAt s x.member = some m → m.wait ≠ .drain .eret → m.wait ≠ .outbound → ∃ t v,
        exec (.continuationAccept core id) s = .next t ∧ SameMemory s t ∧
        (Keyed (coreAt s core).outbound → tabGet (coreAt t core).outbound id = none) ∧
        tabGet (fieldAt t x.field).accession id = some { x with postedAt := s.mod.time } ∧ memberAt t x.member = some v ∧
        v.r = m.r ∧ tokCount v x.tok = tokCount m x.tok - 1)) ∧
    (∀ (s s1 : State) (field id core : Nat) (x : Cont) (p : Place) (l : Launch) (c : Ctx),
      tabGet (fieldAt s field).accession id = some x →
      (firstOfLaunch (fieldAt s field) id x = false → Idle (.taskCellStart field id) s) ∧
      (firstOfLaunch (fieldAt s field) id x = true → taskPlace s field x = some (core, p, s1) → launchAt s x.launch = some l →
        ctxAt s x.launch core = some c → ∃ t n m, exec (.taskCellStart field id) s = .next t ∧ SameMemory s t ∧
          memberAt t n = some m ∧ m.kind = .task ∧ m.launch = x.launch ∧ m.core = core ∧ m.place = p ∧ m.pc = x.entry.toNat ∧
          m.slot = 0 ∧ m.wait = .ready ∧
          (∀ i, i < 4 → x.args.length = 4 → m.r.getG (BitVec.ofNat 6 i) = x.args.getD i 0) ∧
          (x.args.length = 4 → m.r.getG 5 ++ m.r.getG 4 = x.target) ∧
          (Keyed (fieldAt s field).accession → tabGet (fieldAt t field).accession id = none))) ∧
    ∀ (s : State) (field launch since : Nat), tabGet (fieldAt s field).accAge launch = some since →
      let late := (∃ e ∈ (fieldAt s field).accession, e.2.launch = launch) ∧ since + watchdogTicks s ≤ s.mod.time
      (¬ late → Idle (.accessionWatchdogExpiry field launch) s) ∧
      (late → ∃ t r, exec (.accessionWatchdogExpiry field launch) s = .next t ∧ SameMemory s t ∧
        t.mod.recBuf = s.mod.recBuf ++ [r] ∧ r.cause = 0x21 ∧ r.detail = 2))

/-- R112, R347: a core fetches a clause that a candidate stands at, or that follows the one that issues. What the checks find is what it
holds then: the words, or the fault that its members take, missing from the cache while a line is not there; a held fault leaves
the candidates waiting and sends one record. After the fill the clause is checked as its words then are. Memory stays as it is, but for the
marks of escape in the archive log
(R305).

R347: once Sernus has serviced the page of a held fetch, the members that waited at that header are candidates again; nothing else
changes.

R74, R347: the checks of a clause in their order: the header's address and permission, its marker, its length against the segment, each
further word's address and permission, and last the checks of the clause's words, each with its slot.
The order of the checks and what their record names are the model's readings (log 16).

Constructors of `Instr` whose completion this states: clauseFetch, clauseCacheFill, heldFetchServiced. -/
def Obligations.ClauseFetches : Prop :=
  (∀ s core launch h ctx, ctxAt s launch core = some ctx →
    (ctx.isOut = true ∨ ctx.switching = true ∨ (clauseOf (coreAt s core) launch h).isSome = true ∨ mayFetch s core launch h = false →
      Idle (.clauseFetch core launch h) s) ∧
    (ctx.isOut = false → ctx.switching = false → clauseOf (coreAt s core) launch h = none → mayFetch s core launch h = true →
      (∀ ws ls s1, loadClause s ctx launch core h = (.clause ws ls, s1) → ∃ t e, exec (.clauseFetch core launch h) s = .next t ∧
        SameButArchive s t ∧
        t.members = s.members ∧ clauseOf (coreAt t core) launch h = some e ∧ e.words = ws ∧ e.fault = none ∧
        (e.missing = true ↔ ∃ l ∈ ls, l ∉ (coreAt s core).codeLines)) ∧
      (∀ f ls s1, loadClause s ctx launch core h = (.bad f ls, s1) → standAt s core launch h ≠ [] →
        ∃ t e, exec (.clauseFetch core launch h) s = .next t ∧ SameButArchive s t ∧
        t.members = s.members ∧ clauseOf (coreAt t core) launch h = some e ∧ e.fault = some f) ∧
      (∀ c s1, loadClause s ctx launch core h = (.held c, s1) → Keyed s.members → ∃ t, exec (.clauseFetch core launch h) s = .next t ∧
        SameButArchive s t ∧
        clauseOf (coreAt t core) launch h = none ∧
        (∀ e ∈ standAt s core launch h, memberAt t e.1 = some { e.2 with wait := .heldFetch }) ∧
        ((∀ e ∈ s.members, ¬ (e.2.core = core ∧ e.2.launch = launch ∧ e.2.pc = h ∧ e.2.wait = .heldFetch)) → standAt s core launch h ≠ [] →
          ∃ r, t.mod.recBuf = s.mod.recBuf ++ [r] ∧ r.cause = c + 0x0F ∧ r.addr = codeAddr ctx h ∧ r.slot = 15))) ∧
    (∀ e, clauseOf (coreAt s core) launch h = some e →
      (e.missing = false → Idle (.clauseCacheFill core launch h) s) ∧
      (e.missing = true → ∀ ws ls s1, loadClause s ctx launch core h = (.clause ws ls, s1) → ∃ t v,
        exec (.clauseCacheFill core launch h) s = .next t ∧ SameButArchive s t ∧ t.members = s.members ∧
        clauseOf (coreAt t core) launch h = some v ∧ v.words = ws ∧ v.fault = none ∧ v.missing = false))) ∧
  (∀ s core launch h, Keyed s.members →
    ∃ t, exec (.heldFetchServiced core launch h) s = .next t ∧ t = { s with members := t.members } ∧
      ∀ id m, memberAt s id = some m →
        memberAt t id = some (if m.core = core ∧ m.launch = launch ∧ m.pc = h ∧ m.wait = .heldFetch
          then { m with wait := .ready, readySince := (coreAt s core).cyc } else m)) ∧
  (∀ s ctx launch core h,
    (∀ c d, (readCode s ctx launch core h).1 = .bad c d →
      (loadClause s ctx launch core h).1 = .bad (fetchFault c d 15 0 (codeAddr ctx h)) []) ∧
    (∀ c, (readCode s ctx launch core h).1 = .held c → (loadClause s ctx launch core h).1 = .held c) ∧
    (∀ hw ls, (readCode s ctx launch core h).1 = .ok hw ls →
      let n := (hw.extractLsb' 56 4).toNat
      let limit := Desc.limit ctx.desc[5]
      (hw.extractLsb' 60 4 ≠ 12#4 → (loadClause s ctx launch core h).1 = .bad (fetchFault 0x01 15 15 hw 0) ls) ∧
      (hw.extractLsb' 60 4 = 12#4 → limit < 8 * (h + n + 2) →
        (loadClause s ctx launch core h).1 = .bad (fetchFault 0x03 5 15 hw (codeAddr ctx h)) ls) ∧
      (hw.extractLsb' 60 4 = 12#4 → 8 * (h + n + 2) ≤ limit →
        let words := readCodeN (readCode s ctx launch core h).2 ctx launch core (n + 1) (h + 1) 0
        (∀ ws lines, words.1 = (ws, lines, none) → ws.length = n + 1 ∧ (loadClause s ctx launch core h).1 =
          match clauseFault hw ws with
          | some k => .bad (fetchFault 0x01 k k hw 0) (ls ++ lines)
          | none => .clause (hw :: ws) (ls ++ lines)) ∧
        (∀ ws lines k c d, words.1 = (ws, lines, some (k, .bad c d)) → ws.length = k ∧
          (loadClause s ctx launch core h).1 = .bad (fetchFault c d k hw (codeAddr ctx (h + 1 + k))) (ls ++ lines)))))

/-- R115, R117, R119: a pick is made where the issue port is free and a candidate is ready. It serves the context of a member in trap mode,
else the one with the highest credit; the position it takes ranks before every other of that context; the group are holders of
that position, at most 64, the curator alone. It takes the issue port with its clause, or its members take the clause's fault.
Where no candidate is ready only time passes.
That a curator may issue alone beside a cell of its position is the model's reading (log 55); that members whose slot lies behind their
clause's last go on at the fall-through, and that a clause's fault is taken through a pick that leaves affinity and credit alone, are the
model's choices (log 68).

Constructors of `Instr` whose completion this states: pick. -/
def Obligations.Picks : Prop := ∀ s core idle,
  (coreExists core = false ∨ (coreAt s core).issue ≠ none → Idle (.pick core idle) s) ∧
  (coreExists core = true → (coreAt s core).issue = none →
    let s0 := idleUntil s core idle
    let cands := readyList s0 core
    let credit := fun l => ((ctxAt s0 l core).map (·.credit)).getD 0
    (cands = [] → exec (.pick core idle) s = .next s0) ∧
    (cands ≠ [] → ∃ t x h slot ms e, exec (.pick core idle) s = .next t ∧
      ms ≠ [] ∧ ms.length ≤ 64 ∧ (∀ p ∈ ms, p ∈ cands ∧ p.2.launch = x ∧ p.2.pc = h ∧ p.2.slot = slot) ∧
      (∀ p ∈ ms, p.2.kind = .curator → ms = [p]) ∧
      ((∃ p ∈ cands, p.2.trapMode = true) → ∃ p ∈ cands, p.2.trapMode = true ∧ p.2.launch = x) ∧
      ((∀ p ∈ cands, p.2.trapMode = false) → ∀ p ∈ cands, credit p.2.launch ≤ credit x) ∧
      (let mine := cands.filter fun p => p.2.launch == x
       ∀ p ∈ mine, lexLt (rank s0 core x (holdersOf mine (p.2.pc, p.2.slot)) p.2.pc p.2.slot)
         (rank s0 core x (holdersOf mine (h, slot)) h slot) = false) ∧
      clauseOf (coreAt s0 core) x h = some e ∧
      let s1 := updCore s0 core fun u => { u with yielded := [], active := activeSet s0 core }
      (e.fault = none → e.words.length < slot + 2 → t = ms.foldl (fun u p => endClause u p.1 h (e.words.length - 2)) s0) ∧
      (e.fault = none → slot + 2 ≤ e.words.length → SameMemory s0 t ∧
        (coreAt t core).issue = some { launch := x, h := h, slot := slot, words := e.words, members := ms.map (·.1), todo := ms.map (·.1),
                                       entered := if slot = 0 then [] else ms.flatMap (·.2.entered), started := false,
                                       atPick := some (runnable s1 core) } ∧
        ∀ c, ctxAt s0 x core = some c → (ctxAt t x core).map (·.credit) = some (clampCredit (c.credit - (e.words.length - 1 - slot : Nat)))) ∧
      (∀ f, e.fault = some f → t = accrueStep s1 (faultGroup s1 core x h f ms) core)))

/-- R29, R114: a swap takes out an active gang all of whose cells wait on long events, the one that issued longest ago, and brings in a gang
outside the active set with a cell that is ready; while it runs neither issues, and at its end they have exchanged places.

Constructors of `Instr` whose completion this states: gangSwap, gangSwapEnd. -/
def Obligations.GangSwaps : Prop := ∀ s core,
  let u := coreAt s core
  let last := fun g => (tabGet u.lastIssued g).getD 0
  let leaves := fun g => g ∈ activeSet s core ∧ ∀ e ∈ cellsOfGang s core g, longWait s e.2 = true ∧ inGroup s e.1 core = false
  let comes := fun g => g ∈ heldGangs s core ∧ g ∉ activeSet s core ∧ ∃ e ∈ cellsOfGang s core g, readyApart s e.1 e.2 = true
  (u.swapping ≠ none → Idle (.gangSwap core) s) ∧
  (u.swapping = none → (∀ g, ¬ leaves g) ∨ (∀ g, ¬ comes g) → Idle (.gangSwap core) s) ∧
  (u.swapping = none → (∃ g, leaves g) → (∃ g, comes g) → ∃ t o i, exec (.gangSwap core) s = .next t ∧ leaves o ∧ comes i ∧
    (∀ g, leaves g → last o ≤ last g) ∧ OnlyCore s t core { u with swapping := some (o, i), active := activeSet s core } ∧
    o ∉ issuingGangs t core ∧ i ∉ issuingGangs t core) ∧
  (u.swapping = none → Idle (.gangSwapEnd core) s) ∧
  (∀ o i, u.swapping = some (o, i) → ∃ t, exec (.gangSwapEnd core) s = .next t ∧
    OnlyCore s t core { u with swapping := none, active := (u.active.filter (· != o)) ++ [i], swappedIn := tabPut u.swappedIn i u.cyc })

/-- R235, R238, R239, R244, R249: a sequenced packet takes the next sequence of its field when it leaves the causal port: its back-link is
the last sequence sent to that home, its vector the port's knowledge with that sequence as its own entry. While a NACK is
outstanding, the window is shut, or a stamp may not go, nothing leaves.

R238, R246: a read request leaves with the port's knowledge as its requirement, joined with the stamp of what its operation has read
already, and takes no sequence. An access homed in the field
itself sends nothing; what its port is short of it asks for.

Constructors of `Instr` whose completion this states: causalPacketSend. -/
def Obligations.CausalSends : Prop :=
  (∀ s a x d, tabGet s.accs a = some x → x.phase = .issued → x.sequencedKind = true →
    orderPasses s a x = true → accHome s x = some d → d ≠ x.field → budgetAdmits s x.core (homeBytes s x) x.pa = true →
    let f := x.field
    let p := pairAt s f d
    let w := ((fieldAt s f).w + 1) % 2 ^ 20
    (portOpen s f d = false → Idle (.causalPacketSend a) s) ∧
    (p.nacked ≠ [] → portOpen s f d = false) ∧
    (w % 2 ^ 16 = 0 → (∃ e ∈ fieldIds, e ≠ f ∧ fieldGone s e = false ∧
      serLe ((w + 2 ^ 20 - 2 ^ 18) % 2 ^ 20) (pairAt s f e).beaconAcked = false) → portOpen s f d = false) ∧
    (portOpen s f d = true →
      LeavesPort (.causalPacketSend a) s f d ((fieldAt s f).know.set f w) (.write a w p.lastSent (!p.sentAny)) fun t =>
        SameMemory s t ∧ (fieldAt t f).w = w ∧ (fieldAt t f).know = (fieldAt s f).know.set f w ∧
        (fieldAt t f).horizon = (fieldAt s f).horizon.set f w ∧ (pairAt t f d).lastSent = w ∧ (pairAt t f d).sentAny = true ∧
        tabGet t.accs a = some { x with phase := .sent } ∧
        (w % 2 ^ 16 = 0 → ∀ e ∈ fieldIds, e ≠ f → fieldGone s e = false →
          ∃ n k, tabGet t.pkts n = some k ∧ k.src = f ∧ k.dst = e ∧ k.body = .beacon w (pairAt t f e).lastSent))) ∧
  (∀ s a x d, tabGet s.accs a = some x → x.phase = .issued → x.onPeer = false →
    orderPasses s a x = true → accHome s x = some d →
    let f := x.field
    (x.sequencedKind = false → x.requires = true → d ≠ f → budgetAdmits s x.core (homeBytes s x) x.pa = true →
      (fieldGone s f = true ∨ (pairAt s d f).dead = true → Idle (.causalPacketSend a) s) ∧
      (fieldGone s f = false → (pairAt s d f).dead = false →
        LeavesPort (.causalPacketSend a) s f d (joinVec (fieldAt s f).know x.stamp) (.read a) fun t =>
          SameMemory s t ∧ (fieldAt t f).w = (fieldAt s f).w ∧ (fieldAt t f).know = (fieldAt s f).know ∧
          tabGet t.accs a = some { x with phase := .sent })) ∧
    (d = f → x.sequencedKind = true ∨ x.requires = true → lostEntry s f f (fieldAt s f).know = none →
      ∃ t, exec (.causalPacketSend a) s = .next t ∧ SameMemory s t ∧ t.accs = s.accs ∧ (fieldAt t f).w = (fieldAt s f).w ∧
        ∀ g ∈ fieldIds, g ≠ f → (pairAt s f g).queryOut = false → (pairAt s f g).frozen = false → (pairAt s f g).dead = false →
          fieldGone s g = false → (∀ w ∈ (fieldAt s f).early, w.src ≠ g) →
          (∀ p ∈ (fieldAt s f).undecoded, isWriteFrom s g p = false) → ∀ r, shortOf s f g = some r → NewPacket s t f g (.query r)))

/-- R239: a clock packet installs its vector as a base of the pair, and the base before it is retired and acknowledged once all its stamps
have come; an acknowledgement frees the base number at the sender.
Where the vectors of responses and of clock packets are kept is the model's reading (log 51).

R239, R244: a packet whose base has not come waits undecoded in its buffer; one that finds the buffer full goes back with a NACK, and
nothing else happens.
That a field's accesses to itself take entries of the same buffers is the model's reading (log 51).

Constructors of `Instr` whose completion this states: clockPacketArrival, baseAckArrival, sequencedPacketArrival, readRequestArrival,
nackReceipt, nackResend. -/
def Obligations.BasesAndBuffers : Prop :=
  (∀ s p g d,
    (∀ bn c v, bn < 4 → Arrives s p g d (.clock bn c v) →
      let q := pairAt s d g
      let old := (bn + 3) % 4
      let done := (tabGet q.rxBases old).isSome = true ∧ c ≤ (tabGet q.rxCount old).getD 0
      ∃ t, exec (.clockPacketArrival p) s = .next t ∧ SameMemory s t ∧ tabGet t.pkts p = none ∧
        tabGet (pairAt t d g).rxBases bn = some v ∧
        (done → Keyed q.rxBases → tabGet (pairAt t d g).rxBases old = none ∧ NewPacket s t d g (.baseAck old)) ∧
        (¬ done → tabGet (pairAt t d g).rxBases old = tabGet q.rxBases old ∧ tabGet (pairAt t d g).rxWant old = some c)) ∧
    (∀ bn, Arrives s p g d (.baseAck bn) → ∃ t, exec (.baseAckArrival p) s = .next t ∧ SameMemory s t ∧ tabGet t.pkts p = none ∧
      (pairAt t d g).unacked = (pairAt s d g).unacked.erase bn ∧ (pairAt t d g).txBases = tabDrop (pairAt s d g).txBases bn)) ∧
  (∀ s p g d st,
    (∀ a seq blink first, Arrives s p g d (.write a seq blink first st) → tabGet (pairAt s d g).rxBases st.bn = none →
      p ∉ (fieldAt s d).undecoded →
      ∃ t, exec (.sequencedPacketArrival p) s = .next t ∧ SameMemory s t ∧ t.accs = s.accs ∧
        (bufferUse s d true < 512 → tabGet t.pkts p = tabGet s.pkts p ∧ (fieldAt t d).undecoded = (fieldAt s d).undecoded ++ [p]) ∧
        (512 ≤ bufferUse s d true → tabGet t.pkts p = none ∧ (fieldAt t d).early = (fieldAt s d).early ∧
          NewPacket s t d g (.nack (.write a seq blink first st)))) ∧
    (∀ a, Arrives s p g d (.read a st) → tabGet (pairAt s d g).rxBases st.bn = none → p ∉ (fieldAt s d).undecoded →
      ∃ t, exec (.readRequestArrival p) s = .next t ∧ SameMemory s t ∧ t.accs = s.accs ∧
        (bufferUse s d false < 256 → tabGet t.pkts p = tabGet s.pkts p ∧ (fieldAt t d).undecoded = (fieldAt s d).undecoded ++ [p]) ∧
        (256 ≤ bufferUse s d false → tabGet t.pkts p = none ∧ (fieldAt t d).pending = (fieldAt s d).pending ∧
          NewPacket s t d g (.nack (.read a st)))) ∧
    (∀ b, Arrives s p g d (.nack b) → ∃ t, exec (.nackReceipt p) s = .next t ∧ SameMemory s t ∧ tabGet t.pkts p = none ∧
      (pairAt t d g).nacked = (pairAt s d g).nacked ++ [b]) ∧
    ((pairAt s g d).nacked = [] ∨ (fieldAt s g).state = .dead ∨ (pairAt s g d).dead = true → Idle (.nackResend g d) s) ∧
    ((pairAt s g d).nacked ≠ [] → (fieldAt s g).state ≠ .dead → (pairAt s g d).dead = false → ∃ t b, exec (.nackResend g d) s = .next t ∧
      SameMemory s t ∧ b ∈ (pairAt s g d).nacked ∧
      NewPacket s t g d b ∧ (pairAt t g d).nacked = (pairAt s g d).nacked.erase b))

/-- R241, R242: at a home whose buffers hold nothing, a packet is applied as one step once its back-link is applied and its requirement is
met: the write is performed, the home's knowledge merges the vector, the horizon rises to its sequence; a request is served once
its requirement is met, and its value goes back with a stamp. Until then each waits in its buffer.
That a field's accesses to itself wait by the same tests is the model's reading (log 51).

Constructors of `Instr` whose completion this states: sequencedPacketArrival, readRequestArrival. -/
def Obligations.HomesApplyAndServe : Prop := ∀ s p g d st base, d ≠ g → tabGet (pairAt s d g).rxBases st.bn = some base →
  (fieldAt s d).early = [] → (fieldAt s d).pending = [] → (fieldAt s d).undecoded = [] →
  localWaits s d true = [] → localWaits s d false = [] →
  let v := applyStamp base st
  (∀ a seq blink first x pa, Arrives s p g d (.write a seq blink first st) → tabGet s.accs a = some x → x.kind = .store →
    x.tgt = .loc pa → x.phase = .sent → nodeOpen s a = false → InMemory s pa x.size →
    let due := first = true ∨ blink = (pairAt s d g).rxLast
    (due → lostEntry s d g v = none → meets s d g v = true → ∃ t, exec (.sequencedPacketArrival p) s = .next t ∧
      memReadN t.mem (physOf s pa) x.size = bytesOf x.size x.data.toNat ∧ SameOutside s t (physOf s pa) x.size ∧
      (fieldAt t d).early = [] ∧
      (g < (fieldAt s d).horizon.length → (fieldAt t d).horizon.getD g 0 = serMax ((fieldAt s d).horizon.getD g 0) seq) ∧
      (v.length = 64 → (fieldAt s d).know.length = 64 → ∀ n, n < 64 → n ≠ d →
        (fieldAt t d).know.getD n 0 = serMax ((fieldAt s d).know.getD n 0) (v.getD n 0))) ∧
    (¬ due ∨ (lostEntry s d g v = none ∧ meets s d g v = false) → ∃ t, exec (.sequencedPacketArrival p) s = .next t ∧ SameMemory s t ∧
      tabGet t.accs a = some { x with phase := .buffered } ∧ tabGet t.pkts p = none ∧
      (fieldAt t d).early = [{ src := g, acc := a, seq := seq, blink := blink, first := first, vec := v }])) ∧
  (∀ a x pa, Arrives s p g d (.read a st) → tabGet s.accs a = some x → x.kind = .load → x.tgt = .loc pa →
    x.phase = .sent → nodeOpen s a = false → InMemory s pa x.size → isPoisoned s pa x.size = false →
    (lostEntry s d d v = none → meets s d d v = true → ∃ t y, exec (.readRequestArrival p) s = .next t ∧ SameButArchive s t ∧
      tabGet t.accs a = some y ∧ y.phase = .returning ∧ y.value = BitVec.ofNat 64 (memNat s (physOf s pa) x.size) ∧
      (∀ w, tabGet (fieldAt s d).stamps (pa / 256 * 256) = some w → y.stamp = w) ∧
      (tabGet (fieldAt s d).stamps (pa / 256 * 256) = none → drainedOf s pa = none →
        y.stamp = (fieldAt s d).horizon.set d (fieldAt s d).w)) ∧
    (lostEntry s d d v = none → meets s d d v = false → ∃ t, exec (.readRequestArrival p) s = .next t ∧ SameMemory s t ∧
      tabGet t.accs a = some { x with phase := .buffered } ∧ tabGet t.pkts p = none ∧
      (fieldAt t d).pending = [{ src := g, acc := a, seq := 0, blink := 0, first := true, vec := v }]))

/-- R243: a field answers a horizon query with the last sequence up to it that it sent, once none of these is held back; the asker's horizon
rises to what it asked for once everything up to that sequence is applied.

R249, R250: a beacon waits until the packet that its back-link names is the last applied, or it lies within what is applied; then every
entry about its field that the home holds rises to it, and it is acknowledged, at once where the home holds back no refused packet and no
response, else when what it holds back now has left;
a final horizon is taken the same way and freezes the entry, and the first beacon after a return unfreezes it.
The form of the vectors in packets is the model's (log 51).

R252: a causal reset empties every port: sequences, knowledge, horizons, bases, stamps and buffers are as after reset, the generation
has advanced, nothing is on its way, and no access waits for a port any more. Memory stays.
What completes at a causal reset, and that an access already performed keeps its effect, are the model's readings (log 51).

Constructors of `Instr` whose completion this states: horizonQueryAnswer, horizonAnswerArrival, beaconArrival, beaconAckArrival,
finalHorizonArrival, causalReset. -/
def Obligations.HorizonsAndBeacons : Prop :=
  (∀ s p g d,
    (∀ r, Arrives s p d g (.query r) →
      let early (b : Body) : Prop := ∃ n, b.seq = some n ∧ serLe n r = true
      ((∃ b ∈ (pairAt s g d).nacked, early b) → Idle (.horizonQueryAnswer p) s) ∧
      ((∀ b ∈ (pairAt s g d).nacked, ¬ early b) → ∃ t n, exec (.horizonQueryAnswer p) s = .next t ∧ SameMemory s t ∧
        tabGet t.pkts p = none ∧ NewPacket s t g d (.answer r n) ∧
        ((openSeqs s g d).filter (serLe · r) = [] → n = (fieldAt s d).horizon.getD g 0) ∧
        ((openSeqs s g d).filter (serLe · r) ≠ [] → n ∈ openSeqs s g d ∧ serLe n r = true))) ∧
    (∀ r n, Arrives s p g d (.answer r n) →
      (serLe n ((fieldAt s d).horizon.getD g 0) = false → Idle (.horizonAnswerArrival p) s) ∧
      (serLe n ((fieldAt s d).horizon.getD g 0) = true → (fieldAt s d).early = [] → (fieldAt s d).pending = [] →
        ∃ t, exec (.horizonAnswerArrival p) s = .next t ∧ SameMemory s t ∧ tabGet t.pkts p = none ∧
          (g < (fieldAt s d).horizon.length → (fieldAt t d).horizon.getD g 0 = serMax ((fieldAt s d).horizon.getD g 0) r)))) ∧
  (∀ s p g d, (fieldAt s d).early = [] → (fieldAt s d).pending = [] →
    let h := (fieldAt s d).horizon.getD g 0
    let k := (fieldAt s d).know.getD g 0
    let rises := fun (t : State) (b : Nat) => SameMemory s t ∧ tabGet t.pkts p = none ∧
      (g < (fieldAt s d).horizon.length → (fieldAt t d).horizon.getD g 0 = serMax h b) ∧
      (g < (fieldAt s d).know.length → (fieldAt t d).know.getD g 0 = serMax k b) ∧
      (∀ n, n ≠ g → (fieldAt t d).know.getD n 0 = (fieldAt s d).know.getD n 0 ∧
        (fieldAt t d).horizon.getD n 0 = (fieldAt s d).horizon.getD n 0) ∧
      (∀ line v, tabGet (fieldAt s d).stamps line = some v → tabGet (fieldAt t d).stamps line = some (v.set g (serMax (v.getD g 0) b)))
    let linked := fun (b blink : Nat) => blink = (pairAt s d g).rxLast ∨ serLe blink h = true ∨ serLe b h = true
    (∀ b blink, Arrives s p g d (.beacon b blink) →
      (¬ linked b blink → Idle (.beaconArrival p) s) ∧
      (linked b blink → ∃ t, exec (.beaconArrival p) s = .next t ∧ rises t b ∧
        let refused := (fieldAt s d).pairs.flatMap fun e => e.2.nacked
        ((pairAt s d g).acksDue = [] → refused = [] → unsentResponses s d = [] →
          NewPacket s t d g (.beaconAck b) ∧ (pairAt t d g).frozen = false ∧ (pairAt t d g).acksDue = []) ∧
        (Keyed (fieldAt s d).pairs → refused ≠ [] ∨ unsentResponses s d ≠ [] →
          { beacon := b, refused := refused, responses := unsentResponses s d } ∈ (pairAt t d g).acksDue))) ∧
    (∀ b, Arrives s p g d (.beaconAck b) → ∃ t, exec (.beaconAckArrival p) s = .next t ∧ SameMemory s t ∧ tabGet t.pkts p = none ∧
      (pairAt t d g).beaconAcked = serMax (pairAt s d g).beaconAcked b) ∧
    (∀ w blink, Arrives s p g d (.finalHorizon w blink) →
      (¬ linked w blink → Idle (.finalHorizonArrival p) s) ∧
      (linked w blink → ∃ t, exec (.finalHorizonArrival p) s = .next t ∧ rises t w ∧ (pairAt t d g).frozen = true))) ∧
  (∀ s, ∃ t, exec .causalReset s = .next t ∧ SameMemory s t ∧ t.pkts = [] ∧
    (Keyed s.accs → ∀ id e, tabGet t.accs id = some e → e.phase ≠ .sent ∧ e.phase ≠ .buffered ∧ e.stamp = [] ∧ e.need = []) ∧
    (∀ id m, memberAt t id = some m → m.owed = [] ∧ ∀ f ∈ m.fences, f.need = []) ∧
    (∀ f ∈ fieldIds, (fieldAt t f).w = 0 ∧ (fieldAt t f).know = Vec.zero ∧ (fieldAt t f).horizon = Vec.zero ∧ (fieldAt t f).stamps = [] ∧
      (fieldAt t f).early = [] ∧ (fieldAt t f).pending = [] ∧ (fieldAt t f).undecoded = [] ∧
      (fieldAt t f).gen = ((fieldAt s f).gen + 1) % 16 ∧ (fieldAt t f).state = (fieldAt s f).state ∧
      ∀ d, (fieldAt s d).state = .online → (pairAt t f d) = PairState.reset))

/-- R251, R310: the field timeout declares a field dead: running launches with a context there are killed, its members have ended, its
packets are discarded, accesses homed there end, and every other port's entry of it is dead.
What becomes of the accesses homed in a dead field is the model's reading (log 43).

R307, R310, R311, R314: a link that gets no acknowledgement replays: the first timeout starts the first replay, and the sixteenth failed
replay marks it dead; a corrected flit is counted; a silent module's apertures are lost, its circuits torn down, its ranges cleared
and itself fenced, and it leaves the connected group; a member that Sernus readmits is reset first.
The numbering of links as ports, the fall of the replay count, and that a module leaves the group with its last circuit, are the model's
readings (log 42).

Constructors of `Instr` whose completion this states: fieldDeath, linkAckTimeout, flitCrcFail, moduleTimeout, podTimeout, linkReadmit. -/
def Obligations.FieldsAndLinks : Prop :=
  (∀ s f,
    (fieldExists f = false ∨ (fieldAt s f).state = .dead → Idle (.fieldDeath f) s) ∧
    (fieldExists f = true → (fieldAt s f).state ≠ .dead → ∃ t, exec (.fieldDeath f) s = .next t ∧
      (fieldAt t f).state = .dead ∧ (∀ d ∈ fieldIds, d ≠ f → (pairAt t d f).dead = true) ∧
      (∀ e ∈ t.pkts, e.2.src ≠ f ∧ e.2.dst ≠ f) ∧
      (∀ l x, l ∈ launchesOn s f → launchAt s l = some x → x.phase = .running → (launchAt t l).map (·.phase) = some .killed) ∧
      (Keyed s.members → ∀ id m, memberAt s id = some m → fieldOf m.core = f → ∀ v, memberAt t id = some v → hasEnded v = true) ∧
      ((∀ d ∈ fieldIds, (fieldAt s d).early = []) → SameButArchive s t))) ∧
  (∀ s k module,
    let l := (tabGet s.mod.links k).getD Link.reset
    let isLost := fun (t : State) => ∀ ap a, tabGet s.mod.apertures ap = some a →
      ∃ b, tabGet t.mod.apertures ap = some b ∧ b = { a with lost := b.lost } ∧ (a.lost = true ∨ a.module.toNat = module → b.lost = true) ∧
        (b.lost = true → a.lost = true ∨ a.module.toNat = module ∨
          ∀ p ∈ t.ports, p.2.circuit = some a.module.toNat → linkDead s p.1 = true)
    let parted := fun (t : State) => (∀ x, x ∈ t.mod.group ↔ x ∈ s.mod.group ∧ x ≠ module ∧ ∃ p ∈ s.ports, p.2.circuit = some x) ∧
      ∀ p q, tabGet s.ports p = some q → (tabGet t.ports p).map (·.circuit) = some (if q.circuit = some module then none else q.circuit)
    let fenced := fun (t : State) => module ∈ t.mod.fenced ∧ ∀ n r, tabGet s.mod.ranges n = some r →
      tabGet t.mod.ranges n = some (if n / 16 = module then { r with v := false } else r)
    (l.dead = true → Idle (.linkAckTimeout k) s ∧ Idle (.flitCrcFail k) s) ∧
    (l.dead = false → (∃ t, exec (.linkAckTimeout k) s = .next t ∧ SameMemory s t ∧
        tabGet t.mod.links k = some { replays := l.replays + 1, dead := 17 ≤ l.replays + 1 } ∧
        (l.replays < 16 → OnlyMod s t { s.mod with links := t.mod.links }) ∧
        (16 ≤ l.replays → ∀ ap a, tabGet s.mod.apertures ap = some a → (∃ p ∈ s.ports, p.2.circuit = some a.module.toNat) →
          (∀ p ∈ s.ports, p.2.circuit = some a.module.toNat → linkDead t p.1 = true) →
          tabGet t.mod.apertures ap = some { a with lost := true })) ∧
      ∃ t, exec (.flitCrcFail k) s = .next t ∧ OnlyMod s t { s.mod with corrected := s.mod.corrected + 1 }) ∧
    (∃ t, exec (.moduleTimeout module) s = .next t ∧ SameMemory s t ∧ isLost t ∧ fenced t ∧ parted t) ∧
    (∃ t, exec (.podTimeout module) s = .next t ∧ SameMemory s t ∧ isLost t ∧ fenced t ∧ parted t) ∧
    (k < 65536 → (∃ t, exec (.linkReadmit k) s = .next t ∧ OnlyMod s t { s.mod with links := tabPut s.mod.links k Link.reset }) ∧
      ((fieldAt s k).state ≠ .dead → Idle (.linkReadmit (65536 + k)) s) ∧
      ((fieldAt s k).state = .dead → ∃ t, exec (.linkReadmit (65536 + k)) s = .next t ∧
        t = { s with cores := t.cores, fields := t.fields } ∧
        fieldAt t k = { fieldAt s k with state := .online, spare := false, noRoom := false, accession := [], accAge := [] } ∧
        (∀ f, f ≠ k → fieldAt t f = fieldAt s f) ∧ ∀ c, coreAt t c = (if fieldOf c = k
          then { CoreUnit.reset with cyc := (coreAt s c).cyc, ticks := (coreAt s c).ticks } else coreAt s c))) ∧
    ∃ t, exec (.linkReadmit (131072 + k)) s = .next t ∧ OnlyMod s t { s.mod with fenced := s.mod.fenced.filter (· != k) })

/-- R250, R312, R313: a drain command switches the contexts of an online field out, or, where the
free slices of SPARE fields do not hold it, may be refused with NOROOM; a forced offline ends what is
there and publishes the final horizon; a return brings an offline field back.
The forced offline, with the final horizon it publishes, follows the model's reading (log 43).

R250, R313: when its contexts are out and nothing of it waits, the memory of a draining field is copied, piece by piece, to the free
slices of fields with SPARE set and then to free HBM4, its addresses are served from the copy with the values that they had, its final
horizon goes to every live field, and it is offline.
The form of the copy and the choice whether HBM4 has room are the model's (log 10).

Constructors of `Instr` whose completion this states: fieldDrainCommand, fieldForcedOffline, fieldReturnOnline, fieldDrainComplete. -/
def Obligations.FieldCommandsAndDrains : Prop :=
  (IoEvent .fieldDrainCommand (fieldCmd 1) (fun s u _ _ t => ∀ f, u = .field f →
      (isOnline s f = false → (fieldAt t f).state = (fieldAt s f).state ∧ t.mod.jobs = s.mod.jobs) ∧
      (isOnline s f = true →
        (isMoved s f = false ∧ overflow s f ≠ 0 ∧ (fieldAt t f).state = .drainBlocked ∧ (fieldAt t f).noRoom = true ∧
          t.mod.jobs = s.mod.jobs) ∨
        ((fieldAt t f).state = .draining ∧ (fieldAt t f).noRoom = false ∧
          (Keyed s.ctxs → ∀ e ∈ ctxsOnField s f, ∃ c, tabGet t.ctxs e.1 = some c ∧ c.switching = true ∧
            ∃ j ∈ t.mod.jobs, j.kind = .drain ∧ j.launch = e.1 / 4096 ∧ j.core = e.1 % 4096)))) ∧
    IoEvent .fieldForcedOffline (fieldCmd 2) (fun s u _ _ t => ∀ f, u = .field f →
      (fieldGone s f = true → (fieldAt t f).state = (fieldAt s f).state ∧
        ∀ l, (launchAt t l).map (·.phase) = (launchAt s l).map (·.phase)) ∧
      (fieldGone s f = false → (fieldAt t f).state = .offline ∧
        (∀ l x, l ∈ launchesOn s f → launchAt s l = some x → x.phase = .running → (launchAt t l).map (·.phase) = some .killed) ∧
        (Keyed s.members → ∀ id m, memberAt s id = some m → fieldOf m.core = f → ∀ v, memberAt t id = some v → hasEnded v = true) ∧
        ∀ d ∈ fieldIds, d ≠ f → fieldGone s d = false → NewPacket s t f d (.finalHorizon (fieldAt s f).w (pairAt s f d).lastSent))) ∧
    IoEvent .fieldReturnOnline (fieldCmd 3) (fun s u _ _ t => ∀ f, u = .field f →
      (fieldAt t f).state = (if (fieldAt s f).state = .offline then .online else (fieldAt s f).state) ∧
      t.mod.redirect = s.mod.redirect)) ∧
  (∀ s f base,
    ((fieldAt s f).state ≠ .draining ∨ drainDone s f = false ∨ (isMoved s f = false ∧ copyFits s f base = false) →
      Idle (.fieldDrainComplete f base) s) ∧
    ((fieldAt s f).state = .draining → drainDone s f = true → copyFits s f base = true →
      (∀ n ∈ fieldPieces f, tabGet s.mod.redirect n = none) →
      ∃ t, exec (.fieldDrainComplete f base) s = .next t ∧ (fieldAt t f).state = .offline ∧
        (∀ p ∈ copyPlan s f base, tabGet t.mod.redirect p.1 = some p.2) ∧
        (∀ d ∈ fieldIds, d ≠ f → fieldGone s d = false → NewPacket s t f d (.finalHorizon (fieldAt s f).w (pairAt s f d).lastSent)) ∧
        (MemOk s →
          (∀ pa, (∃ c, (regionOf pa = .slice c ∨ regionOf pa = .bdie c) ∧ fieldOf c = f) → readByte t pa = readByte s pa) ∧
          ∀ x, (∀ p ∈ copyPlan s f base, x < p.2 ∨ p.2 + pieceSize ≤ x) → memRead t.mem x = memRead s.mem x)))

/-- R315: a peer's request is performed where one entry of its source covers it and grants its bit, and is answered on its channel with
what it returns;
any other is answered with PeerReject and performs nothing.
A SWAIT of a peer that finds its generation unchanged is registered.
What answers at an address that a range covers but no memory holds is the model's reading (log 41).

R177, R314, R318: an access to a peer completes with the peer's acknowledgement and its values; a rejected one raises PeerReject and a
lost one, as any through an aperture that is lost or leads outside the connected group, PeerLost, each as an asynchronous fault with the
aperture as its detail.

Constructors of `Instr` whose completion this states: peerRequestArrival, peerAckArrival. -/
def Obligations.Peers : Prop :=
  (∀ s module channel pa,
    (∀ n, ¬ (n ≠ 0 ∧ Admitted s module pa n (·.rd)) → ∃ t, exec (.peerRequestArrival ⟨module, channel⟩ pa (.read n)) s = .next t ∧
      t = { s with mod := t.mod } ∧ AnswersWith s t (.peer module channel .reject [])) ∧
    (∀ b : List Byte, ¬ (b ≠ [] ∧ Admitted s module pa b.length (·.w)) → ∃ t,
      exec (.peerRequestArrival ⟨module, channel⟩ pa (.write b)) s = .next t ∧ t = { s with mod := t.mod } ∧
      AnswersWith s t (.peer module channel .reject [])) ∧
    (∀ fn f v, ¬ Admitted s module pa (fmtSize f) (·.a) → ∃ t, exec (.peerRequestArrival ⟨module, channel⟩ pa (.atomic fn f v)) s = .next t ∧
      t = { s with mod := t.mod } ∧ AnswersWith s t (.peer module channel .reject [])) ∧
    (∀ n, n ≠ 0 → Admitted s module pa n (·.rd) → hasHome s pa n = true → InMemory s pa n → ∃ t,
      exec (.peerRequestArrival ⟨module, channel⟩ pa (.read n)) s = .next t ∧ SameButArchive s t ∧
      AnswersWith s t (.peer module channel (.done 0 0) (memReadN s.mem (physOf s pa) n))) ∧
    (∀ b : List Byte, b ≠ [] → Admitted s module pa b.length (·.w) → hasHome s pa b.length = true → InMemory s pa b.length → ∃ t,
      exec (.peerRequestArrival ⟨module, channel⟩ pa (.write b)) s = .next t ∧ memReadN t.mem (physOf s pa) b.length = b ∧
      SameOutside s t (physOf s pa) b.length ∧ AnswersWith s t (.peer module channel (.done 0 0) [])) ∧
    (∀ fn f v, Admitted s module pa (fmtSize f) (·.a) → hasHome s pa (fmtSize f) = true → InMemory s pa (fmtSize f) →
      atomAccepts fn f = true →
      let n := fmtSize f
      let old := memNat s (physOf s pa) n
      ∃ t, exec (.peerRequestArrival ⟨module, channel⟩ pa (.atomic fn f v)) s = .next t ∧
        memReadN t.mem (physOf s pa) n = bytesOf n (atomSpec fn f old (v.toNat % 2 ^ (8 * n))) ∧ SameOutside s t (physOf s pa) n ∧
        AnswersWith s t (.peer module channel (.done (BitVec.ofNat 64 old) 0) [])) ∧
    (∀ v : Word, Admitted s module pa 16 (·.a) → hasHome s pa 16 = true → InMemory s pa 16 →
      let p := physOf s pa
      let gen := memNat s (p + 8) 4
      let w := memNat s (p + 12) 4
      ∃ t, exec (.peerRequestArrival ⟨module, channel⟩ pa (.swait v)) s = .next t ∧
        (gen ≠ v.toNat → SameButArchive s t ∧ AnswersWith s t (.peer module channel (.done (BitVec.ofNat 64 gen) 0) [])) ∧
        (gen = v.toNat → memNat t (p + 12) 4 = w / 2 * 2 + 1 ∧ SameOutside s t (p + 12) 4 ∧ t.mod.answers = s.mod.answers ∧
          ∃ j b, tabGet t.accs j = some b ∧ b.kind = .swait ∧ b.phase = .registered ∧ b.tgt = .loc pa ∧ b.param = module ∧
            b.seq = channel))) ∧
  (∀ s a x ap pa, tabGet s.accs a = some x → x.tgt = .peer ap pa → x.phase = .issued →
    orderPasses s a x = true →
    (isLost s ap = false → ∀ v v2, x.kind = .store → ∃ t, exec (.peerAckArrival a (.done v v2)) s = .next t ∧ SameMemory s t ∧
      Completed s t a x (fun r => r)) ∧
    (isLost s ap = false → ∀ v v2, x.kind = .load → x.size = fmtSize x.fmt → ∃ t, exec (.peerAckArrival a (.done v v2)) s = .next t ∧
      SameMemory s t ∧
      let n := v.toNat % 2 ^ (8 * x.size)
      Completed s t a x fun r => afterResult r x.dest (x.size == 8) (match x.fmt with
        | .i8 => ((BitVec.ofNat 8 n).signExtend 32).zeroExtend 64
        | .i16 => ((BitVec.ofNat 16 n).signExtend 32).zeroExtend 64
        | _ => BitVec.ofNat 64 n)) ∧
    (isLost s ap = false → ∀ fn ret v v2, x.kind = .atom fn ret → ∃ t, exec (.peerAckArrival a (.done v v2)) s = .next t ∧ SameMemory s t ∧
      Completed s t a x fun r => if ret then afterResult r x.dest (x.size == 8) v else r) ∧
    ∀ ans cause, (isLost s ap = false ∧ ans = .reject ∧ cause = 0x08) ∨ ((isLost s ap = true ∨ ans = .lost) ∧ cause = 0x09) →
      (x.kind = .load ∨ x.kind = .store) →
      ∃ t, exec (.peerAckArrival a ans) s = .next t ∧ SameMemory s t ∧
        ∀ m, memberAt s x.member = some m → m.trapMode = false → isRouted s m cause = false → m.place ≠ .gone → m.wait = .ready →
          m.fences = [] → ∃ v fi, memberAt t x.member = some v ∧ v.async = m.async ++ [fi] ∧ fi.cause = cause ∧ fi.detail = ap ∧
            fi.addr = x.addr ∧ fi.async = true ∧ v.r = m.r ∧ tokCount v x.tok = tokCount m x.tok - 1 ∧
            (Keyed s.accs → tabGet t.accs a = none))

/-- R23, R311, R319: a fenced module is not heard. A read from another module of a cell's face is answered, on its channel, with its
generation once that is published, and waits until then; a STEP wait is answered with the steps that the cell has completed, beyond
every step where it has departed, also once its launch has completed here (log 22); reports raise what this module knows of other
modules' cells.

R317, R320: a client's request is performed where an entry of its job and source on its port has a range that covers it and grants its
bit, and is then acknowledged; any other is refused and counted. A message of the Sernus of a peer that is not fenced (R311) comes in on
the service channel.
What answers at an address that a range covers but no memory holds is the model's reading (log 41).

Constructors of `Instr` whose completion this states: spanNeighbourRead, spanStepReport, podBarrierCount, clientRmaWrite, clientRmaRead,
serviceChannelMessage. -/
def Obligations.SpansAndClients : Prop :=
  (∀ s span module channel idx face gen, Keyed s.launches →
    let asks : Bool → Instr := .spanNeighbourRead span ⟨module, channel⟩ idx face gen
    let waits (isStep : Bool) : SpanWait :=
      { module := module, channel := channel, span := span, linear := idx, face := face, gen := gen, isStep := isStep }
    (isFenced s module = true → (∀ isStep, Idle (asks isStep) s) ∧
      Idle (.podBarrierCount span module gen) s ∧ Idle (.serviceChannelMessage module idx gen) s) ∧
    (isFenced s module = false → spanLaunch s span = none →
      (pastCell s span idx = none → ∀ isStep, ∃ t, exec (asks isStep) s = .next t ∧
        OnlyMod s t { s.mod with spanWaits := s.mod.spanWaits ++ [waits isStep] }) ∧
      (∀ d, pastCell s span idx = some d → d.departed = true → span ≠ 0 → (∀ w ∈ s.mod.spanWaits, w.span ≠ span) →
        (∃ t, exec (asks false) s = .next t ∧ SameMemory s t ∧
          AnswersWith s t (.spanRead module channel span idx (pubAt d (min gen d.done) face)) ∧ waits false ∉ t.mod.spanWaits) ∧
        ∃ t, exec (asks true) s = .next t ∧ SameMemory s t ∧ AnswersWith s t (.spanStep module span idx departedSteps)) ∧
      Idle (.spanStepReport span idx gen) s ∧ Idle (.podBarrierCount span module gen) s) ∧
    ∀ id l, isFenced s module = false → spanLaunch s span = some (id, l) →
      (∀ k d, cellAt s id idx = some (k, d) →
        (∃ t, exec (asks false) s = .next t ∧ SameMemory s t ∧
          (d.departed = true ∨ gen ≤ d.done →
            Answer.spanRead module channel span idx (pubAt d (if d.departed then min gen d.done else gen) face) ∈ t.mod.answers) ∧
          (d.departed = false → d.done < gen → waits false ∈ t.mod.spanWaits ∧ (Keyed s.members → d.place = .parked →
            (memberAt t k).map (·.demanded) = some true))) ∧
        ∃ t, exec (asks true) s = .next t ∧ SameMemory s t ∧
          (∃ v, launchAt t id = some v ∧ (module, idx) ∈ v.stepWatchers) ∧
          (d.departed = true → AnswersWith s t (.spanStep module span idx departedSteps)) ∧
          (d.departed = false → d.done ≠ 0 → AnswersWith s t (.spanStep module span idx d.done)) ∧
          (d.departed = false → d.done = 0 → t.mod = s.mod)) ∧
      (farFenced s l idx = true → Idle (.spanStepReport span idx gen) s) ∧
      (farFenced s l idx = false → ∃ t v, exec (.spanStepReport span idx gen) s = .next t ∧ t = { s with launches := t.launches } ∧
        launchAt t id = some v ∧ remoteDone v idx = max gen (remoteDone l idx) ∧ ∀ n, n ≠ idx → remoteDone v n = remoteDone l n) ∧
      (let reached := fun n => if n = module then max gen (podReached l module) else podReached l n
       let whole := barDone l .pod 0 < gen ∧ l.span ≠ [] ∧ ∀ r ∈ l.span, gen ≤ reached r.module
       ∃ t v, exec (.podBarrierCount span module gen) s = .next t ∧ SameMemory s t ∧ launchAt t id = some v ∧
        (∀ n, podReached v n = reached n) ∧ (whole → barDone v .pod 0 = gen) ∧
        (¬ whole → barDone v .pod 0 = barDone l .pod 0 ∧ t.members = s.members))) ∧
  (∀ s job src port pa,
    (∀ n, ¬ (n ≠ 0 ∧ ClientAdmitted s job src port pa n (·.rd)) → ∃ t, exec (.clientRmaRead job src port pa n) s = .next t ∧
      OnlyMod s t { s.mod with refused := s.mod.refused + 1, answers := s.mod.answers ++ [.clientError port] }) ∧
    (∀ b : List Byte, ¬ (b ≠ [] ∧ ClientAdmitted s job src port pa b.length (·.w)) → ∃ t,
      exec (.clientRmaWrite job src port pa b) s = .next t ∧
      OnlyMod s t { s.mod with refused := s.mod.refused + 1, answers := s.mod.answers ++ [.clientError port] }) ∧
    (∀ n, n ≠ 0 → ClientAdmitted s job src port pa n (·.rd) → hasHome s pa n = true → InMemory s pa n → ∃ t,
      exec (.clientRmaRead job src port pa n) s = .next t ∧ SameButArchive s t ∧
      AnswersWith s t (.clientData port (memReadN s.mem (physOf s pa) n))) ∧
    (∀ b : List Byte, b ≠ [] → ClientAdmitted s job src port pa b.length (·.w) → hasHome s pa b.length = true → InMemory s pa b.length →
      ∃ t, exec (.clientRmaWrite job src port pa b) s = .next t ∧ memReadN t.mem (physOf s pa) b.length = b ∧
        SameOutside s t (physOf s pa) b.length ∧ AnswersWith s t (.clientAck port)) ∧
    ∀ module kind value, isFenced s module = false → ∃ t, exec (.serviceChannelMessage module kind value) s = .next t ∧
      OnlyMod s t { s.mod with service := s.mod.service ++ [(module, kind, value)] })

/-- Decode and encode agree: for every instruction, every operand at every value that its encoding admits, the word of a well-formed
instruction decodes to it. -/
def Obligations.DecodeEncode : Prop := ∀ i, Laws.RoundTrip.Statement i

/-- R58: every header that is encoded decodes to itself, and only words with the marker and zero reserved bits decode.

R128, R130, R132, R134, R135: words written out in the manual decode to the instructions that it writes beside them. -/
def Obligations.WordsAndHeaders : Prop :=
  (∀ (h : Header) (w : Word64),
    Header.decode h.encode = some h ∧
    ((Header.decode w).isSome = true ↔ w.extractLsb' 60 4 = 0b1100#4 ∧ w.extractLsb' 0 45 = 0#45)) ∧
  (
    let c : Common := { t := 0, k := false, guard := 7, sense := false }
    decodeWord 0x044706003FC00000 = .ok (.ldi c (.g 6) false 0x3FC00000) ∧
    decodeWord 0x14470301000000FF = .ok (.andi c (.g 3) 1 0xFF) ∧
    decodeWord 0x008709008100004A = .ok (.addc c (.g 9) (.g 1) (.g 4) 2 1 true) ∧
    decodeWord 0x20074B00C280000A = .ok (.cmp c 3 (.g 1) (.imm 10) .lt true false) ∧
    decodeWord 0x2087050080800003 = .ok (.sel c (.g 5) (.g 1) (.g 2) 3 false false) ∧
    decodeWord 0x2107010000000000 = .ok (.movs c (.g 1) .cellx false) ∧
    decodeWord 0x70077F0000000005 = .ok (.step c 5) ∧
    decodeWord 0x61077F1F00000000 = .ok (.ret c (.g 62)) ∧
    decodeWord 0x61473C1F00000000 = .ok (.relcall c (some 60) (.g 62)) ∧
    decodeWord 0x60077F007FFFFFFD = .ok (.bra c (BitVec.ofInt 31 (-3))) ∧
    decodeWord 0xD0477F0000000001 = .ok (.svc c 1) ∧
    decodeWord 0xD0877F0000000000 = .ok (.eret c) ∧
    decodeWord 0xD2C703B200000000 = .ok (.idle c (.g 3) (.imm 100)))

/-- R66: an immediate is converted exactly to the type that its position reads: sign-extended to 32 or to 64 bits, or the equal FP32 value,
or the equal FP16 or BF16 value in both elements. -/
def Obligations.ImmediateOperands : Prop := ∀ (s : State) (m : Member) (i : BitVec 8),
  readSrc s m .w32 (.imm i) = .val ((i.signExtend 32).zeroExtend 64) ∧
  readSrc s m .w64 (.imm i) = .val (i.signExtend 64) ∧
  (∃ x, readSrc s m .f32 (.imm i) = .val (BitVec.ofNat 64 x) ∧ IsSmall 8 23 x i.toInt) ∧
  (∃ x, readSrc s m (.packed false) (.imm i) = .val (BitVec.ofNat 64 (x + 2 ^ 16 * x)) ∧ IsSmall 5 10 x i.toInt) ∧
  (∃ x, readSrc s m (.packed true) (.imm i) = .val (BitVec.ofNat 64 (x + 2 ^ 16 * x)) ∧ IsSmall 8 7 x i.toInt)

/-- R63, R74: a clause with a transfer instruction before its last slot is illegal: an instruction of the control group, TRAP, SVC or ERET.
The fault names that slot, or an earlier one or the header that offends too. -/
def Obligations.TransfersStandLast : Prop := ∀ (hw : Word64) (ws : List Word64) (k : Nat) (w : Word64) (i : Instr),
  ws[k]? = some w → k + 1 < ws.length → decodeWord w = .ok i →
  (w.extractLsb' 60 4 = 6#4 ∨ (∃ c n, i = .trap c n) ∨ (∃ c n, i = .svc c n) ∨ ∃ c, i = .eret c) →
  ∃ j, clauseFault hw ws = some j ∧ (j ≤ k ∨ j = 15)

/-- R117 (a step runs the decoded instruction): where a core's turn to issue comes, the next member of its group takes the word at the
group's slot; the step is `exec` of the instruction that this word decodes to, and then what follows a member's turn and a turn of
the machine. A record that finds no room makes the member wait instead. It is the turn of another core whose clock is further behind,
if there is one.

The other turns of the machine, which are the model's (log 4): a step of the table runs `exec` of its row, Sernus acts with no
instruction, a link is acknowledged, an error is corrected (R307), a docent memory meets an error, a clause line is dropped for a parity
error, a client's request of a kind without an effect is refused (R320), the identity store is read (R328), and where nothing waits a core
whose pick is due makes it, else the core with a group whose clock is furthest behind issues, or the turns that come next are drawn. -/
def Obligations.StepRunsTheTurn : Prop :=
  (∀ (s : State) (named : Nat) (rest : List Turn),
    s.sched.turns = .issue named :: rest →
    let s0 : State := { s with sched := { s.sched with turns := rest } }
    let core := dueCore s0 named
    ((∀ e ∈ s.cores, e.2.issue ≠ none → (coreAt s named).ticks ≤ (coreAt s e.1).ticks) → core = named) ∧
    (∀ g id todo, (coreAt s0 core).issue = some g → g.todo = id :: todo → g.started = true → ∃ s1 k, beginMember s0 core = some s1 ∧
      s1.sched.cur = some k ∧ k.core = core ∧ k.member = id ∧ k.h = g.h ∧ k.slot = g.slot ∧ k.word = g.words.getD (g.slot + 1) 0 ∧
      s1.members = s.members ∧ s1.mem = s.mem) ∧
    ∀ s1 k i, beginMember s0 core = some s1 → s1.sched.cur = some k → decodeWord k.word = .ok i →
      (∀ t, exec i s1 = .next t →
        step s = .next (afterTurn (accrueStep s0 (endMember i (if recordRoom s1 t then t else waitForRecord s1)) core))) ∧
      (∀ f, exec i s1 = .fault f → step s = .fault f) ∧ (∀ f, exec i s1 = .refused f → step s = .refused f)) ∧
  (∀ (s : State) (rest : List Turn),
    let s0 : State := { s with sched := { s.sched with turns := rest } }
    (∀ i t, s.sched.turns = .happen i :: rest → exec i s0 = .next t →
      step s = .next (afterTurn (if writesForMember i && !recordRoom s0 t then s0 else t))) ∧
    (∀ q, s.sched.turns = .createQueue q :: rest → step s = .next (afterTurn (createQueue s0 q))) ∧
    (∀ l, s.sched.turns = .kill l :: rest → step s = .next (afterTurn (killLaunch s0 l))) ∧
    (∀ f, s.sched.turns = .clearRedirect f :: rest → step s = .next (afterTurn (clearRedirect s0 f))) ∧
    (∀ l, s.sched.turns = .linkAck l :: rest → step s = .next (afterTurn (linkAcked s0 l))) ∧
    (s.sched.turns = .corrected :: rest → step s = .next (afterTurn { s0 with mod := { s0.mod with corrected := s0.mod.corrected + 1 } })) ∧
    (∀ core line, s.sched.turns = .clauseParity core line :: rest →
      step s = .next (afterTurn (updCore s0 core (dropClauses (line * 64) 64)))) ∧
    (∀ port, s.sched.turns = .clientOther port :: rest → step s = .next (afterTurn (refuseClient s0 port))) ∧
    (∀ core g, s.sched.turns = .docError core g :: rest → step s = .next (afterTurn (docentError s0 core g))) ∧
    (∀ i n, s.sched.turns = .readStore i n :: rest → step s = .next (afterTurn (readStore s0 i n))) ∧
    (s.sched.turns = [] → ∀ core t, pickDue s = some core → exec (.pick core 0) s = .next t → recordRoom s t = true →
      step s = .next (afterTurn t)) ∧
    (s.sched.turns = [] → pickDue s = none → ∀ core, issuingCore s = some core → step s = mapNext afterTurn (issueOne s core)) ∧
    (s.sched.turns = [] → pickDue s = none → issuingCore s = none →
      step s = .next { s with sched := { s.sched with turns := nextTurns s.sched.drawn, drawn := s.sched.drawn + 1 } }))

/-- R11: p7 reads true and discards what is written to it; every other predicate, register and face reads as written.

R59, R60, R110, R118, R143: a member that ends a clause stands at its branch target or behind the clause, with empty latches; it waits
first for a move, then for the tails of a frame join, then for a park that it asked for.
That a park waits behind a frame join (log 46) and that the next index is taken modulo 2^57 (log 11) are the model's readings. -/
def Obligations.RegistersAndClauseEnds : Prop :=
  (∀ (r : Regs) (b : Bool) (v : Word),
    r.getP 7 = true ∧ r.setP 7 b = r ∧
    (∀ p q : BitVec 3, p ≠ 7 → (r.setP p b).getP q = if q = p then b else r.getP q) ∧
    (∀ n k : BitVec 6, (r.setG n v).getG k = if k = n then v else r.getG k) ∧
    (∀ n k : BitVec 3, (r.setF n v).getF k = if k = n then v else r.getF k)) ∧
  (∀ (s : State) (id : Nat) (m : Member) (h count : Nat),
    memberAt s id = some m → m.terminating = false →
    let t := endClause s id h count
    let joins := m.joinTails.filter fun n => match memberAt s n with | some v => v.place != .gone | none => false
    t = { s with members := t.members } ∧ (∀ n, n ≠ id → memberAt t n = memberAt s n) ∧
    memberAt t id = some { m with
      pc := m.next.getD ((h + count + 2) % 2 ^ 57), slot := 0, next := none, cameFrom := some h, lat := Vector.replicate 4 0,
      nbrVals := [], joinTails := joins, readySince := (coreAt s m.core).cyc, entered := [],
      clear := (m.entered.map fun e => e.2 + 4).foldl max m.clear, parkWish := m.parkWish && m.rd == 0,
      wait := match m.moveTo with
        | some (c, a) => .drain (.migrate c a)
        | none => if joins ≠ [] then .frameJoin joins else if m.parkWish && m.rd == 0 then .drain .park else .ready })

/-- R77, R236, R239, R283, R300, R303, R312, R321, R325, R327: the state after reset. There is no queue, launch, context, member or access;
a causal port
is empty; the module unit's registers hold the values that the manual gives; and memory has its canonical form. That unlisted
memory reads 0 is the model's choice (log 1). -/
def Obligations.ResetState : Prop := let s := State.reset
  MemOk s ∧ s.queues = [] ∧ s.launches = [] ∧ s.ctxs = [] ∧ s.members = [] ∧ s.accs = [] ∧ s.pkts = [] ∧
  (∀ f, (fieldAt s f).w = 0 ∧ (fieldAt s f).know = List.replicate 64 0 ∧ (fieldAt s f).horizon = List.replicate 64 0 ∧
    (fieldAt s f).gen = 0 ∧ (fieldAt s f).stamps = [] ∧ (fieldAt s f).early = [] ∧ (fieldAt s f).pending = [] ∧
    (fieldAt s f).state = .online ∧ (fieldAt s f).spare = false ∧ (fieldAt s f).noRoom = false ∧
    ∀ d, (pairAt s f d).txBases = [(0, List.replicate 64 0)] ∧ (pairAt s f d).rxBases = [(0, List.replicate 64 0)] ∧
      (pairAt s f d).lastSent = 0) ∧
  s.mod.wdPeriod = 100000 ∧ s.mod.rbase = 0 ∧ s.mod.rk = 0 ∧ s.mod.rd = 0 ∧ s.mod.wr = 0 ∧ s.mod.recBuf = [] ∧
  s.mod.rate = 10 ∧ s.mod.abuf = 0 ∧ s.mod.asize = 0 ∧ s.mod.mismatch = 0 ∧ s.mod.suspect = none ∧
  s.mod.period = 20000 ∧ s.mod.archBase = 0 ∧ s.mod.part = 0 ∧ s.mod.apertures = [] ∧ s.mod.ranges = [] ∧ s.mod.clients = [] ∧
  s.mod.refused = 0 ∧ s.mod.lrp = false ∧
  s.mod.allow = Vector.replicate 8 7 ∧ s.mod.capStep = 0 ∧ s.mod.evTarget = 0 ∧ s.mod.evict = .idle ∧
  ∀ b, (bundleAt s b).req = 0xFF ∧ (bundleAt s b).state = 0 ∧ (bundleAt s b).fail = 0 ∧ (bundleAt s b).lock = 0xFF ∧
    (bundleAt s b).act = 0xFF ∧ (bundleAt s b).even = false ∧ (bundleAt s b).thresh = 0 ∧ (bundleAt s b).auto = 0xFF

/-- Every step keeps memory in its canonical form, from every state that has it. -/
def Obligations.MemOkStep : Prop := ∀ s t : State, MemOk s → step s = .next t → MemOk t
end

