-- ==== Sys2Proof/Laws/Memory.lean ====
section
/-!
SUPPORT. Memory: what a byte reads as after a write, and that every operation keeps the canonical form.
-/
namespace Sys2Proof.Machine

/-- A lower bound of the addresses may be lowered. -/
theorem memWfFrom_mono {m : Memory} {lo lo' : Nat} (h : lo' ≤ lo) (hm : memWfFrom lo m = true) : memWfFrom lo' m = true := by
  cases m with
  | nil => rfl
  | cons e r =>
    obtain ⟨a, b⟩ := e
    simp only [memWfFrom, Bool.and_eq_true, decide_eq_true_eq] at hm ⊢
    exact ⟨⟨Nat.le_trans h hm.1.1, hm.1.2⟩, hm.2⟩

/-- A listed byte keeps the canonical form, where it is not the byte that unlisted addresses read as. -/
theorem memWfFrom_memPut {m : Memory} {lo x : Nat} {v : Byte} (hm : memWfFrom lo m = true) (hx : lo ≤ x) (hv : v ≠ unlistedByte) :
    memWfFrom lo (memPut m x v) = true := by
  induction m generalizing lo with
  | nil => simp [memPut, memWfFrom, hx, hv]
  | cons e r ih =>
    obtain ⟨a, b⟩ := e
    simp only [memWfFrom, Bool.and_eq_true, decide_eq_true_eq, bne_iff_ne] at hm
    simp only [memPut]
    split
    · next hxa =>
      have : x + 1 ≤ a := hxa
      simp [memWfFrom, hx, hv, hm, this]
    · split
      · next hxa => subst hxa; simp [memWfFrom, hx, hv, hm]
      · next h1 h2 =>
        have : a + 1 ≤ x := by omega
        simp [memWfFrom, hm, ih hm.2 this]

/-- An address struck off keeps the canonical form. -/
theorem memWfFrom_memErase {m : Memory} {lo : Nat} (x : Nat) (hm : memWfFrom lo m = true) : memWfFrom lo (memErase m x) = true := by
  induction m generalizing lo with
  | nil => rfl
  | cons e r ih =>
    obtain ⟨a, b⟩ := e
    simp only [memWfFrom, Bool.and_eq_true, decide_eq_true_eq] at hm
    simp only [memErase]
    split
    · exact memWfFrom_mono (by omega) (ih hm.2)
    · simp [memWfFrom, hm, ih hm.2]

@[simp] theorem wf_memWrite {m : Memory} (x : Nat) (v : Byte) (hm : m.wf = true) : Memory.wf (memWrite m x v) = true := by
  unfold memWrite
  split
  · exact memWfFrom_memErase x hm
  · next hv => exact memWfFrom_memPut hm (Nat.zero_le x) hv

@[simp] theorem wf_memWriteN {m : Memory} (a : Nat) (l : List Byte) (hm : m.wf = true) :
    Memory.wf (memWriteN m a l) = true := by
  induction l generalizing m a with
  | nil => exact hm
  | cons b r ih => exact ih (a + 1) (wf_memWrite a b hm)

theorem memRead_memPut (m : Memory) (x y : Nat) (v : Byte) : memRead (memPut m x v) y = if y = x then v else memRead m y := by
  induction m with
  | nil => simp [memPut, memRead]
  | cons e r ih =>
    obtain ⟨a, b⟩ := e
    simp only [memPut]
    by_cases hy : y = x <;> split <;> (try split) <;> simp_all [memRead]

theorem memRead_memErase (m : Memory) (x y : Nat) :
    memRead (memErase m x) y = if y = x then unlistedByte else memRead m y := by
  induction m with
  | nil => simp [memErase, memRead]
  | cons e r ih =>
    obtain ⟨a, b⟩ := e
    simp only [memErase]
    by_cases hy : y = x <;> split <;> simp_all [memRead]

/-- A byte reads as it was written, and every other byte as before; memory need not be in canonical form. -/
theorem memRead_memWrite (m : Memory) (x y : Nat) (v : Byte) :
    memRead (memWrite m x v) y = if y = x then v else memRead m y := by
  unfold memWrite
  split
  · next hv => rw [memRead_memErase, hv]
  · exact memRead_memPut m x y v

/-- After a run of bytes is written, each of them reads as written and every other byte as before. -/
theorem memRead_memWriteN (m : Memory) (a y : Nat) (l : List Byte) :
    memRead (memWriteN m a l) y = if a ≤ y ∧ y < a + l.length then l.getD (y - a) 0 else memRead m y := by
  induction l generalizing m a with
  | nil =>
    have h : ¬ (a ≤ y ∧ y < a + ([] : List Byte).length) := by simp only [List.length_nil]; omega
    rw [if_neg h]
    rfl
  | cons b r ih =>
    rw [memWriteN, ih, memRead_memWrite]
    by_cases h1 : a + 1 ≤ y ∧ y < a + 1 + r.length
    · have h2 : a ≤ y ∧ y < a + (b :: r).length := by simp only [List.length_cons]; omega
      obtain ⟨n, hn⟩ : ∃ n, y - a = n + 1 := ⟨y - (a + 1), by omega⟩
      have h3 : y - (a + 1) = n := by omega
      rw [if_pos h1, if_pos h2, hn, h3]
      simp
    · rw [if_neg h1]
      by_cases hy : y = a
      · subst hy
        have h2 : y ≤ y ∧ y < y + (b :: r).length := by simp only [List.length_cons]; omega
        rw [if_pos rfl, if_pos h2]
        simp
      · have h2 : ¬ (a ≤ y ∧ y < a + (b :: r).length) := by simp only [List.length_cons]; omega
        rw [if_neg hy, if_neg h2]

/-- The bytes of a number and the number of bytes. -/
theorem bytesOf_length (n v : Nat) : (bytesOf n v).length = n := by
  induction n generalizing v with
  | zero => rfl
  | succ n ih => simp [bytesOf, ih]

theorem natOfBytes_bytesOf (n v : Nat) : natOfBytes (bytesOf n v) = v % 256 ^ n := by
  induction n generalizing v with
  | zero => simp [bytesOf, natOfBytes, Nat.mod_one]
  | succ n ih =>
    rw [bytesOf, natOfBytes, ih, Nat.pow_succ, Nat.mul_comm (256 ^ n), Nat.mod_mul]
    simp

end Sys2Proof.Machine
end

