-- ==== Sys2Proof/Laws/Tables.lean ====
section
/-!
SUPPORT. What a table answers after an entry is put, dropped or changed. None of these laws asks that the keys rise.
-/
namespace Sys2Proof.Machine

@[simp] theorem tabGet_nil {α : Type} (k : Nat) : tabGet ([] : Tab α) k = none := rfl

@[simp] theorem tabGet_tabPut_same {α : Type} (t : Tab α) (k : Nat) (v : α) : tabGet (tabPut t k v) k = some v := by
  induction t with
  | nil => simp [tabPut, tabGet]
  | cons e r ih =>
    obtain ⟨j, w⟩ := e
    unfold tabPut
    split
    · simp [tabGet]
    · split
      · simp [tabGet]
      · have : j ≠ k := fun h => by simp_all
        simp [tabGet, this, ih]

theorem tabGet_tabPut_other {α : Type} (t : Tab α) {k n : Nat} (v : α) (h : n ≠ k) :
    tabGet (tabPut t k v) n = tabGet t n := by
  have h' : k ≠ n := h.symm
  induction t with
  | nil => simp [tabPut, tabGet, h']
  | cons e r ih =>
    obtain ⟨j, w⟩ := e
    unfold tabPut
    split
    · simp [tabGet, h']
    · split
      · next hj => subst hj; simp [tabGet, h']
      · simp [tabGet, ih]

theorem tabGet_tabPut {α : Type} (t : Tab α) (k n : Nat) (v : α) :
    tabGet (tabPut t k v) n = if n = k then some v else tabGet t n := by
  split
  · next h => subst h; simp
  · next h => exact tabGet_tabPut_other t v h

theorem tabGet_tabUpd {α : Type} (t : Tab α) (k n : Nat) (f : α → α) :
    tabGet (tabUpd t k f) n = if n = k then (tabGet t k).map f else tabGet t n := by
  by_cases hn : n = k
  · subst hn
    simp only [tabUpd]
    split <;> simp_all
  · simp only [tabUpd, hn, if_false]
    split
    · exact tabGet_tabPut_other t _ hn
    · rfl

@[simp] theorem tabGet_tabUpd_same {α : Type} (t : Tab α) (k : Nat) (f : α → α) :
    tabGet (tabUpd t k f) k = (tabGet t k).map f := by simp [tabGet_tabUpd]

theorem tabGet_tabUpd_other {α : Type} (t : Tab α) {k n : Nat} (f : α → α) (h : n ≠ k) :
    tabGet (tabUpd t k f) n = tabGet t n := by simp [tabGet_tabUpd, h]

theorem tabGet_tabDrop_other {α : Type} (t : Tab α) {k n : Nat} (h : n ≠ k) : tabGet (tabDrop t k) n = tabGet t n := by
  induction t with
  | nil => rfl
  | cons e r ih =>
    obtain ⟨j, w⟩ := e
    unfold tabDrop
    split
    · next hj =>
      subst hj
      have : j ≠ n := h.symm
      simp [tabGet, this]
    · simp [tabGet, ih]

/-- Every entry of a table changed by one function. -/
theorem tabGet_map {α : Type} (t : Tab α) (k : Nat) (f : α → α) :
    tabGet (t.map fun e => (e.1, f e.2)) k = (tabGet t k).map f := by
  induction t with
  | nil => rfl
  | cons e r ih =>
    obtain ⟨j, w⟩ := e
    simp only [List.map_cons, tabGet]
    split <;> simp_all

/-- What a function of key and value makes of every entry. -/
theorem tabGet_mapKeys {α : Type} (t : Tab α) (k : Nat) (f : Nat → α → α) :
    tabGet (t.map fun e => (e.1, f e.1 e.2)) k = (tabGet t k).map (f k) := by
  induction t with
  | nil => rfl
  | cons e r ih =>
    obtain ⟨j, w⟩ := e
    simp only [List.map_cons, tabGet]
    split
    · next h => subst h; rfl
    · exact ih

end Sys2Proof.Machine
end

