-- ==== Sys2Proof/Laws/State.lean ====
section
/-!
SUPPORT. What each update of the state leaves: one law per field and update, true by rfl, and what a unit reads as after its own
update and after another unit's.
-/
namespace Sys2Proof.Machine
set_option linter.unusedVariables false
set_option linter.unusedSimpArgs false

@[simp] theorem setCore_mem (s : State) (g : Nat) (u : CoreUnit) : (setCore s g u).mem = s.mem := rfl
@[simp] theorem setCore_mod (s : State) (g : Nat) (u : CoreUnit) : (setCore s g u).mod = s.mod := rfl
@[simp] theorem setCore_queues (s : State) (g : Nat) (u : CoreUnit) : (setCore s g u).queues = s.queues := rfl
@[simp] theorem setCore_launches (s : State) (g : Nat) (u : CoreUnit) : (setCore s g u).launches = s.launches := rfl
@[simp] theorem setCore_ctxs (s : State) (g : Nat) (u : CoreUnit) : (setCore s g u).ctxs = s.ctxs := rfl
@[simp] theorem setCore_members (s : State) (g : Nat) (u : CoreUnit) : (setCore s g u).members = s.members := rfl
@[simp] theorem setCore_fields (s : State) (g : Nat) (u : CoreUnit) : (setCore s g u).fields = s.fields := rfl
@[simp] theorem setCore_quads (s : State) (g : Nat) (u : CoreUnit) : (setCore s g u).quads = s.quads := rfl
@[simp] theorem setCore_accs (s : State) (g : Nat) (u : CoreUnit) : (setCore s g u).accs = s.accs := rfl
@[simp] theorem setCore_nbrs (s : State) (g : Nat) (u : CoreUnit) : (setCore s g u).nbrs = s.nbrs := rfl
@[simp] theorem setCore_pkts (s : State) (g : Nat) (u : CoreUnit) : (setCore s g u).pkts = s.pkts := rfl
@[simp] theorem setCore_optics (s : State) (g : Nat) (u : CoreUnit) : (setCore s g u).optics = s.optics := rfl
@[simp] theorem setCore_ports (s : State) (g : Nat) (u : CoreUnit) : (setCore s g u).ports = s.ports := rfl
@[simp] theorem setCore_keepers (s : State) (g : Nat) (u : CoreUnit) : (setCore s g u).keepers = s.keepers := rfl
@[simp] theorem setCore_sched (s : State) (g : Nat) (u : CoreUnit) : (setCore s g u).sched = s.sched := rfl

@[simp] theorem updCore_mem (s : State) (g : Nat) (f : CoreUnit → CoreUnit) : (updCore s g f).mem = s.mem := rfl
@[simp] theorem updCore_mod (s : State) (g : Nat) (f : CoreUnit → CoreUnit) : (updCore s g f).mod = s.mod := rfl
@[simp] theorem updCore_queues (s : State) (g : Nat) (f : CoreUnit → CoreUnit) : (updCore s g f).queues = s.queues := rfl
@[simp] theorem updCore_launches (s : State) (g : Nat) (f : CoreUnit → CoreUnit) : (updCore s g f).launches = s.launches := rfl
@[simp] theorem updCore_ctxs (s : State) (g : Nat) (f : CoreUnit → CoreUnit) : (updCore s g f).ctxs = s.ctxs := rfl
@[simp] theorem updCore_members (s : State) (g : Nat) (f : CoreUnit → CoreUnit) : (updCore s g f).members = s.members := rfl
@[simp] theorem updCore_fields (s : State) (g : Nat) (f : CoreUnit → CoreUnit) : (updCore s g f).fields = s.fields := rfl
@[simp] theorem updCore_quads (s : State) (g : Nat) (f : CoreUnit → CoreUnit) : (updCore s g f).quads = s.quads := rfl
@[simp] theorem updCore_accs (s : State) (g : Nat) (f : CoreUnit → CoreUnit) : (updCore s g f).accs = s.accs := rfl
@[simp] theorem updCore_nbrs (s : State) (g : Nat) (f : CoreUnit → CoreUnit) : (updCore s g f).nbrs = s.nbrs := rfl
@[simp] theorem updCore_pkts (s : State) (g : Nat) (f : CoreUnit → CoreUnit) : (updCore s g f).pkts = s.pkts := rfl
@[simp] theorem updCore_optics (s : State) (g : Nat) (f : CoreUnit → CoreUnit) : (updCore s g f).optics = s.optics := rfl
@[simp] theorem updCore_ports (s : State) (g : Nat) (f : CoreUnit → CoreUnit) : (updCore s g f).ports = s.ports := rfl
@[simp] theorem updCore_keepers (s : State) (g : Nat) (f : CoreUnit → CoreUnit) : (updCore s g f).keepers = s.keepers := rfl
@[simp] theorem updCore_sched (s : State) (g : Nat) (f : CoreUnit → CoreUnit) : (updCore s g f).sched = s.sched := rfl

@[simp] theorem updField_mem (s : State) (g : Nat) (f : FieldUnit → FieldUnit) : (updField s g f).mem = s.mem := rfl
@[simp] theorem updField_mod (s : State) (g : Nat) (f : FieldUnit → FieldUnit) : (updField s g f).mod = s.mod := rfl
@[simp] theorem updField_queues (s : State) (g : Nat) (f : FieldUnit → FieldUnit) : (updField s g f).queues = s.queues := rfl
@[simp] theorem updField_launches (s : State) (g : Nat) (f : FieldUnit → FieldUnit) : (updField s g f).launches = s.launches := rfl
@[simp] theorem updField_ctxs (s : State) (g : Nat) (f : FieldUnit → FieldUnit) : (updField s g f).ctxs = s.ctxs := rfl
@[simp] theorem updField_members (s : State) (g : Nat) (f : FieldUnit → FieldUnit) : (updField s g f).members = s.members := rfl
@[simp] theorem updField_cores (s : State) (g : Nat) (f : FieldUnit → FieldUnit) : (updField s g f).cores = s.cores := rfl
@[simp] theorem updField_quads (s : State) (g : Nat) (f : FieldUnit → FieldUnit) : (updField s g f).quads = s.quads := rfl
@[simp] theorem updField_accs (s : State) (g : Nat) (f : FieldUnit → FieldUnit) : (updField s g f).accs = s.accs := rfl
@[simp] theorem updField_nbrs (s : State) (g : Nat) (f : FieldUnit → FieldUnit) : (updField s g f).nbrs = s.nbrs := rfl
@[simp] theorem updField_pkts (s : State) (g : Nat) (f : FieldUnit → FieldUnit) : (updField s g f).pkts = s.pkts := rfl
@[simp] theorem updField_optics (s : State) (g : Nat) (f : FieldUnit → FieldUnit) : (updField s g f).optics = s.optics := rfl
@[simp] theorem updField_ports (s : State) (g : Nat) (f : FieldUnit → FieldUnit) : (updField s g f).ports = s.ports := rfl
@[simp] theorem updField_keepers (s : State) (g : Nat) (f : FieldUnit → FieldUnit) : (updField s g f).keepers = s.keepers := rfl
@[simp] theorem updField_sched (s : State) (g : Nat) (f : FieldUnit → FieldUnit) : (updField s g f).sched = s.sched := rfl

@[simp] theorem updPair_mem (s : State) (g d : Nat) (f : PairState → PairState) : (updPair s g d f).mem = s.mem := rfl
@[simp] theorem updPair_mod (s : State) (g d : Nat) (f : PairState → PairState) : (updPair s g d f).mod = s.mod := rfl
@[simp] theorem updPair_queues (s : State) (g d : Nat) (f : PairState → PairState) : (updPair s g d f).queues = s.queues := rfl
@[simp] theorem updPair_launches (s : State) (g d : Nat) (f : PairState → PairState) : (updPair s g d f).launches = s.launches := rfl
@[simp] theorem updPair_ctxs (s : State) (g d : Nat) (f : PairState → PairState) : (updPair s g d f).ctxs = s.ctxs := rfl
@[simp] theorem updPair_members (s : State) (g d : Nat) (f : PairState → PairState) : (updPair s g d f).members = s.members := rfl
@[simp] theorem updPair_cores (s : State) (g d : Nat) (f : PairState → PairState) : (updPair s g d f).cores = s.cores := rfl
@[simp] theorem updPair_quads (s : State) (g d : Nat) (f : PairState → PairState) : (updPair s g d f).quads = s.quads := rfl
@[simp] theorem updPair_accs (s : State) (g d : Nat) (f : PairState → PairState) : (updPair s g d f).accs = s.accs := rfl
@[simp] theorem updPair_nbrs (s : State) (g d : Nat) (f : PairState → PairState) : (updPair s g d f).nbrs = s.nbrs := rfl
@[simp] theorem updPair_pkts (s : State) (g d : Nat) (f : PairState → PairState) : (updPair s g d f).pkts = s.pkts := rfl
@[simp] theorem updPair_optics (s : State) (g d : Nat) (f : PairState → PairState) : (updPair s g d f).optics = s.optics := rfl
@[simp] theorem updPair_ports (s : State) (g d : Nat) (f : PairState → PairState) : (updPair s g d f).ports = s.ports := rfl
@[simp] theorem updPair_keepers (s : State) (g d : Nat) (f : PairState → PairState) : (updPair s g d f).keepers = s.keepers := rfl
@[simp] theorem updPair_sched (s : State) (g d : Nat) (f : PairState → PairState) : (updPair s g d f).sched = s.sched := rfl

@[simp] theorem updQuad_mem (s : State) (g : Nat) (f : QuadUnit → QuadUnit) : (updQuad s g f).mem = s.mem := rfl
@[simp] theorem updQuad_mod (s : State) (g : Nat) (f : QuadUnit → QuadUnit) : (updQuad s g f).mod = s.mod := rfl
@[simp] theorem updQuad_queues (s : State) (g : Nat) (f : QuadUnit → QuadUnit) : (updQuad s g f).queues = s.queues := rfl
@[simp] theorem updQuad_launches (s : State) (g : Nat) (f : QuadUnit → QuadUnit) : (updQuad s g f).launches = s.launches := rfl
@[simp] theorem updQuad_ctxs (s : State) (g : Nat) (f : QuadUnit → QuadUnit) : (updQuad s g f).ctxs = s.ctxs := rfl
@[simp] theorem updQuad_members (s : State) (g : Nat) (f : QuadUnit → QuadUnit) : (updQuad s g f).members = s.members := rfl
@[simp] theorem updQuad_cores (s : State) (g : Nat) (f : QuadUnit → QuadUnit) : (updQuad s g f).cores = s.cores := rfl
@[simp] theorem updQuad_fields (s : State) (g : Nat) (f : QuadUnit → QuadUnit) : (updQuad s g f).fields = s.fields := rfl
@[simp] theorem updQuad_accs (s : State) (g : Nat) (f : QuadUnit → QuadUnit) : (updQuad s g f).accs = s.accs := rfl
@[simp] theorem updQuad_nbrs (s : State) (g : Nat) (f : QuadUnit → QuadUnit) : (updQuad s g f).nbrs = s.nbrs := rfl
@[simp] theorem updQuad_pkts (s : State) (g : Nat) (f : QuadUnit → QuadUnit) : (updQuad s g f).pkts = s.pkts := rfl
@[simp] theorem updQuad_optics (s : State) (g : Nat) (f : QuadUnit → QuadUnit) : (updQuad s g f).optics = s.optics := rfl
@[simp] theorem updQuad_ports (s : State) (g : Nat) (f : QuadUnit → QuadUnit) : (updQuad s g f).ports = s.ports := rfl
@[simp] theorem updQuad_keepers (s : State) (g : Nat) (f : QuadUnit → QuadUnit) : (updQuad s g f).keepers = s.keepers := rfl
@[simp] theorem updQuad_sched (s : State) (g : Nat) (f : QuadUnit → QuadUnit) : (updQuad s g f).sched = s.sched := rfl

@[simp] theorem updMod_mem (s : State) (f : ModuleUnit → ModuleUnit) : (updMod s f).mem = s.mem := rfl
@[simp] theorem updMod_queues (s : State) (f : ModuleUnit → ModuleUnit) : (updMod s f).queues = s.queues := rfl
@[simp] theorem updMod_launches (s : State) (f : ModuleUnit → ModuleUnit) : (updMod s f).launches = s.launches := rfl
@[simp] theorem updMod_ctxs (s : State) (f : ModuleUnit → ModuleUnit) : (updMod s f).ctxs = s.ctxs := rfl
@[simp] theorem updMod_members (s : State) (f : ModuleUnit → ModuleUnit) : (updMod s f).members = s.members := rfl
@[simp] theorem updMod_cores (s : State) (f : ModuleUnit → ModuleUnit) : (updMod s f).cores = s.cores := rfl
@[simp] theorem updMod_fields (s : State) (f : ModuleUnit → ModuleUnit) : (updMod s f).fields = s.fields := rfl
@[simp] theorem updMod_quads (s : State) (f : ModuleUnit → ModuleUnit) : (updMod s f).quads = s.quads := rfl
@[simp] theorem updMod_accs (s : State) (f : ModuleUnit → ModuleUnit) : (updMod s f).accs = s.accs := rfl
@[simp] theorem updMod_nbrs (s : State) (f : ModuleUnit → ModuleUnit) : (updMod s f).nbrs = s.nbrs := rfl
@[simp] theorem updMod_pkts (s : State) (f : ModuleUnit → ModuleUnit) : (updMod s f).pkts = s.pkts := rfl
@[simp] theorem updMod_optics (s : State) (f : ModuleUnit → ModuleUnit) : (updMod s f).optics = s.optics := rfl
@[simp] theorem updMod_ports (s : State) (f : ModuleUnit → ModuleUnit) : (updMod s f).ports = s.ports := rfl
@[simp] theorem updMod_keepers (s : State) (f : ModuleUnit → ModuleUnit) : (updMod s f).keepers = s.keepers := rfl
@[simp] theorem updMod_sched (s : State) (f : ModuleUnit → ModuleUnit) : (updMod s f).sched = s.sched := rfl

@[simp] theorem updMember_mem (s : State) (g : Nat) (f : Member → Member) : (updMember s g f).mem = s.mem := rfl
@[simp] theorem updMember_mod (s : State) (g : Nat) (f : Member → Member) : (updMember s g f).mod = s.mod := rfl
@[simp] theorem updMember_queues (s : State) (g : Nat) (f : Member → Member) : (updMember s g f).queues = s.queues := rfl
@[simp] theorem updMember_launches (s : State) (g : Nat) (f : Member → Member) : (updMember s g f).launches = s.launches := rfl
@[simp] theorem updMember_ctxs (s : State) (g : Nat) (f : Member → Member) : (updMember s g f).ctxs = s.ctxs := rfl
@[simp] theorem updMember_cores (s : State) (g : Nat) (f : Member → Member) : (updMember s g f).cores = s.cores := rfl
@[simp] theorem updMember_fields (s : State) (g : Nat) (f : Member → Member) : (updMember s g f).fields = s.fields := rfl
@[simp] theorem updMember_quads (s : State) (g : Nat) (f : Member → Member) : (updMember s g f).quads = s.quads := rfl
@[simp] theorem updMember_accs (s : State) (g : Nat) (f : Member → Member) : (updMember s g f).accs = s.accs := rfl
@[simp] theorem updMember_nbrs (s : State) (g : Nat) (f : Member → Member) : (updMember s g f).nbrs = s.nbrs := rfl
@[simp] theorem updMember_pkts (s : State) (g : Nat) (f : Member → Member) : (updMember s g f).pkts = s.pkts := rfl
@[simp] theorem updMember_optics (s : State) (g : Nat) (f : Member → Member) : (updMember s g f).optics = s.optics := rfl
@[simp] theorem updMember_ports (s : State) (g : Nat) (f : Member → Member) : (updMember s g f).ports = s.ports := rfl
@[simp] theorem updMember_keepers (s : State) (g : Nat) (f : Member → Member) : (updMember s g f).keepers = s.keepers := rfl
@[simp] theorem updMember_sched (s : State) (g : Nat) (f : Member → Member) : (updMember s g f).sched = s.sched := rfl

@[simp] theorem updCtx_mem (s : State) (l c : Nat) (f : Ctx → Ctx) : (updCtx s l c f).mem = s.mem := rfl
@[simp] theorem updCtx_mod (s : State) (l c : Nat) (f : Ctx → Ctx) : (updCtx s l c f).mod = s.mod := rfl
@[simp] theorem updCtx_queues (s : State) (l c : Nat) (f : Ctx → Ctx) : (updCtx s l c f).queues = s.queues := rfl
@[simp] theorem updCtx_launches (s : State) (l c : Nat) (f : Ctx → Ctx) : (updCtx s l c f).launches = s.launches := rfl
@[simp] theorem updCtx_members (s : State) (l c : Nat) (f : Ctx → Ctx) : (updCtx s l c f).members = s.members := rfl
@[simp] theorem updCtx_cores (s : State) (l c : Nat) (f : Ctx → Ctx) : (updCtx s l c f).cores = s.cores := rfl
@[simp] theorem updCtx_fields (s : State) (l c : Nat) (f : Ctx → Ctx) : (updCtx s l c f).fields = s.fields := rfl
@[simp] theorem updCtx_quads (s : State) (l c : Nat) (f : Ctx → Ctx) : (updCtx s l c f).quads = s.quads := rfl
@[simp] theorem updCtx_accs (s : State) (l c : Nat) (f : Ctx → Ctx) : (updCtx s l c f).accs = s.accs := rfl
@[simp] theorem updCtx_nbrs (s : State) (l c : Nat) (f : Ctx → Ctx) : (updCtx s l c f).nbrs = s.nbrs := rfl
@[simp] theorem updCtx_pkts (s : State) (l c : Nat) (f : Ctx → Ctx) : (updCtx s l c f).pkts = s.pkts := rfl
@[simp] theorem updCtx_optics (s : State) (l c : Nat) (f : Ctx → Ctx) : (updCtx s l c f).optics = s.optics := rfl
@[simp] theorem updCtx_ports (s : State) (l c : Nat) (f : Ctx → Ctx) : (updCtx s l c f).ports = s.ports := rfl
@[simp] theorem updCtx_keepers (s : State) (l c : Nat) (f : Ctx → Ctx) : (updCtx s l c f).keepers = s.keepers := rfl
@[simp] theorem updCtx_sched (s : State) (l c : Nat) (f : Ctx → Ctx) : (updCtx s l c f).sched = s.sched := rfl

@[simp] theorem updLaunch_mem (s : State) (g : Nat) (f : Launch → Launch) : (updLaunch s g f).mem = s.mem := rfl
@[simp] theorem updLaunch_mod (s : State) (g : Nat) (f : Launch → Launch) : (updLaunch s g f).mod = s.mod := rfl
@[simp] theorem updLaunch_queues (s : State) (g : Nat) (f : Launch → Launch) : (updLaunch s g f).queues = s.queues := rfl
@[simp] theorem updLaunch_ctxs (s : State) (g : Nat) (f : Launch → Launch) : (updLaunch s g f).ctxs = s.ctxs := rfl
@[simp] theorem updLaunch_members (s : State) (g : Nat) (f : Launch → Launch) : (updLaunch s g f).members = s.members := rfl
@[simp] theorem updLaunch_cores (s : State) (g : Nat) (f : Launch → Launch) : (updLaunch s g f).cores = s.cores := rfl
@[simp] theorem updLaunch_fields (s : State) (g : Nat) (f : Launch → Launch) : (updLaunch s g f).fields = s.fields := rfl
@[simp] theorem updLaunch_quads (s : State) (g : Nat) (f : Launch → Launch) : (updLaunch s g f).quads = s.quads := rfl
@[simp] theorem updLaunch_accs (s : State) (g : Nat) (f : Launch → Launch) : (updLaunch s g f).accs = s.accs := rfl
@[simp] theorem updLaunch_nbrs (s : State) (g : Nat) (f : Launch → Launch) : (updLaunch s g f).nbrs = s.nbrs := rfl
@[simp] theorem updLaunch_pkts (s : State) (g : Nat) (f : Launch → Launch) : (updLaunch s g f).pkts = s.pkts := rfl
@[simp] theorem updLaunch_optics (s : State) (g : Nat) (f : Launch → Launch) : (updLaunch s g f).optics = s.optics := rfl
@[simp] theorem updLaunch_ports (s : State) (g : Nat) (f : Launch → Launch) : (updLaunch s g f).ports = s.ports := rfl
@[simp] theorem updLaunch_keepers (s : State) (g : Nat) (f : Launch → Launch) : (updLaunch s g f).keepers = s.keepers := rfl
@[simp] theorem updLaunch_sched (s : State) (g : Nat) (f : Launch → Launch) : (updLaunch s g f).sched = s.sched := rfl

@[simp] theorem updQueue_mem (s : State) (g : Nat) (f : Queue → Queue) : (updQueue s g f).mem = s.mem := rfl
@[simp] theorem updQueue_mod (s : State) (g : Nat) (f : Queue → Queue) : (updQueue s g f).mod = s.mod := rfl
@[simp] theorem updQueue_launches (s : State) (g : Nat) (f : Queue → Queue) : (updQueue s g f).launches = s.launches := rfl
@[simp] theorem updQueue_ctxs (s : State) (g : Nat) (f : Queue → Queue) : (updQueue s g f).ctxs = s.ctxs := rfl
@[simp] theorem updQueue_members (s : State) (g : Nat) (f : Queue → Queue) : (updQueue s g f).members = s.members := rfl
@[simp] theorem updQueue_cores (s : State) (g : Nat) (f : Queue → Queue) : (updQueue s g f).cores = s.cores := rfl
@[simp] theorem updQueue_fields (s : State) (g : Nat) (f : Queue → Queue) : (updQueue s g f).fields = s.fields := rfl
@[simp] theorem updQueue_quads (s : State) (g : Nat) (f : Queue → Queue) : (updQueue s g f).quads = s.quads := rfl
@[simp] theorem updQueue_accs (s : State) (g : Nat) (f : Queue → Queue) : (updQueue s g f).accs = s.accs := rfl
@[simp] theorem updQueue_nbrs (s : State) (g : Nat) (f : Queue → Queue) : (updQueue s g f).nbrs = s.nbrs := rfl
@[simp] theorem updQueue_pkts (s : State) (g : Nat) (f : Queue → Queue) : (updQueue s g f).pkts = s.pkts := rfl
@[simp] theorem updQueue_optics (s : State) (g : Nat) (f : Queue → Queue) : (updQueue s g f).optics = s.optics := rfl
@[simp] theorem updQueue_ports (s : State) (g : Nat) (f : Queue → Queue) : (updQueue s g f).ports = s.ports := rfl
@[simp] theorem updQueue_keepers (s : State) (g : Nat) (f : Queue → Queue) : (updQueue s g f).keepers = s.keepers := rfl
@[simp] theorem updQueue_sched (s : State) (g : Nat) (f : Queue → Queue) : (updQueue s g f).sched = s.sched := rfl

@[simp] theorem updAcc_mem (s : State) (g : Nat) (f : Access → Access) : (updAcc s g f).mem = s.mem := rfl
@[simp] theorem updAcc_mod (s : State) (g : Nat) (f : Access → Access) : (updAcc s g f).mod = s.mod := rfl
@[simp] theorem updAcc_queues (s : State) (g : Nat) (f : Access → Access) : (updAcc s g f).queues = s.queues := rfl
@[simp] theorem updAcc_launches (s : State) (g : Nat) (f : Access → Access) : (updAcc s g f).launches = s.launches := rfl
@[simp] theorem updAcc_ctxs (s : State) (g : Nat) (f : Access → Access) : (updAcc s g f).ctxs = s.ctxs := rfl
@[simp] theorem updAcc_members (s : State) (g : Nat) (f : Access → Access) : (updAcc s g f).members = s.members := rfl
@[simp] theorem updAcc_cores (s : State) (g : Nat) (f : Access → Access) : (updAcc s g f).cores = s.cores := rfl
@[simp] theorem updAcc_fields (s : State) (g : Nat) (f : Access → Access) : (updAcc s g f).fields = s.fields := rfl
@[simp] theorem updAcc_quads (s : State) (g : Nat) (f : Access → Access) : (updAcc s g f).quads = s.quads := rfl
@[simp] theorem updAcc_nbrs (s : State) (g : Nat) (f : Access → Access) : (updAcc s g f).nbrs = s.nbrs := rfl
@[simp] theorem updAcc_pkts (s : State) (g : Nat) (f : Access → Access) : (updAcc s g f).pkts = s.pkts := rfl
@[simp] theorem updAcc_optics (s : State) (g : Nat) (f : Access → Access) : (updAcc s g f).optics = s.optics := rfl
@[simp] theorem updAcc_ports (s : State) (g : Nat) (f : Access → Access) : (updAcc s g f).ports = s.ports := rfl
@[simp] theorem updAcc_keepers (s : State) (g : Nat) (f : Access → Access) : (updAcc s g f).keepers = s.keepers := rfl
@[simp] theorem updAcc_sched (s : State) (g : Nat) (f : Access → Access) : (updAcc s g f).sched = s.sched := rfl

@[simp] theorem freshId_mem (s : State) : ((freshId s).2).mem = s.mem := rfl
@[simp] theorem freshId_mod (s : State) : ((freshId s).2).mod = s.mod := rfl
@[simp] theorem freshId_queues (s : State) : ((freshId s).2).queues = s.queues := rfl
@[simp] theorem freshId_launches (s : State) : ((freshId s).2).launches = s.launches := rfl
@[simp] theorem freshId_ctxs (s : State) : ((freshId s).2).ctxs = s.ctxs := rfl
@[simp] theorem freshId_members (s : State) : ((freshId s).2).members = s.members := rfl
@[simp] theorem freshId_cores (s : State) : ((freshId s).2).cores = s.cores := rfl
@[simp] theorem freshId_fields (s : State) : ((freshId s).2).fields = s.fields := rfl
@[simp] theorem freshId_quads (s : State) : ((freshId s).2).quads = s.quads := rfl
@[simp] theorem freshId_accs (s : State) : ((freshId s).2).accs = s.accs := rfl
@[simp] theorem freshId_nbrs (s : State) : ((freshId s).2).nbrs = s.nbrs := rfl
@[simp] theorem freshId_pkts (s : State) : ((freshId s).2).pkts = s.pkts := rfl
@[simp] theorem freshId_optics (s : State) : ((freshId s).2).optics = s.optics := rfl
@[simp] theorem freshId_ports (s : State) : ((freshId s).2).ports = s.ports := rfl
@[simp] theorem freshId_keepers (s : State) : ((freshId s).2).keepers = s.keepers := rfl

@[simp] theorem drawFree_mem (s : State) : ((drawFree s).2).mem = s.mem := rfl
@[simp] theorem drawFree_mod (s : State) : ((drawFree s).2).mod = s.mod := rfl
@[simp] theorem drawFree_queues (s : State) : ((drawFree s).2).queues = s.queues := rfl
@[simp] theorem drawFree_launches (s : State) : ((drawFree s).2).launches = s.launches := rfl
@[simp] theorem drawFree_ctxs (s : State) : ((drawFree s).2).ctxs = s.ctxs := rfl
@[simp] theorem drawFree_members (s : State) : ((drawFree s).2).members = s.members := rfl
@[simp] theorem drawFree_cores (s : State) : ((drawFree s).2).cores = s.cores := rfl
@[simp] theorem drawFree_fields (s : State) : ((drawFree s).2).fields = s.fields := rfl
@[simp] theorem drawFree_quads (s : State) : ((drawFree s).2).quads = s.quads := rfl
@[simp] theorem drawFree_accs (s : State) : ((drawFree s).2).accs = s.accs := rfl
@[simp] theorem drawFree_nbrs (s : State) : ((drawFree s).2).nbrs = s.nbrs := rfl
@[simp] theorem drawFree_pkts (s : State) : ((drawFree s).2).pkts = s.pkts := rfl
@[simp] theorem drawFree_optics (s : State) : ((drawFree s).2).optics = s.optics := rfl
@[simp] theorem drawFree_ports (s : State) : ((drawFree s).2).ports = s.ports := rfl
@[simp] theorem drawFree_keepers (s : State) : ((drawFree s).2).keepers = s.keepers := rfl

@[simp] theorem writeBytes_queues (s : State) (a : Nat) (l : List Byte) : (writeBytes s a l).queues = s.queues := rfl
@[simp] theorem writeBytes_launches (s : State) (a : Nat) (l : List Byte) : (writeBytes s a l).launches = s.launches := rfl
@[simp] theorem writeBytes_ctxs (s : State) (a : Nat) (l : List Byte) : (writeBytes s a l).ctxs = s.ctxs := rfl
@[simp] theorem writeBytes_members (s : State) (a : Nat) (l : List Byte) : (writeBytes s a l).members = s.members := rfl
@[simp] theorem writeBytes_fields (s : State) (a : Nat) (l : List Byte) : (writeBytes s a l).fields = s.fields := rfl
@[simp] theorem writeBytes_quads (s : State) (a : Nat) (l : List Byte) : (writeBytes s a l).quads = s.quads := rfl
@[simp] theorem writeBytes_accs (s : State) (a : Nat) (l : List Byte) : (writeBytes s a l).accs = s.accs := rfl
@[simp] theorem writeBytes_nbrs (s : State) (a : Nat) (l : List Byte) : (writeBytes s a l).nbrs = s.nbrs := rfl
@[simp] theorem writeBytes_pkts (s : State) (a : Nat) (l : List Byte) : (writeBytes s a l).pkts = s.pkts := rfl
@[simp] theorem writeBytes_optics (s : State) (a : Nat) (l : List Byte) : (writeBytes s a l).optics = s.optics := rfl
@[simp] theorem writeBytes_ports (s : State) (a : Nat) (l : List Byte) : (writeBytes s a l).ports = s.ports := rfl
@[simp] theorem writeBytes_keepers (s : State) (a : Nat) (l : List Byte) : (writeBytes s a l).keepers = s.keepers := rfl
@[simp] theorem writeBytes_sched (s : State) (a : Nat) (l : List Byte) : (writeBytes s a l).sched = s.sched := rfl

@[simp] theorem sendRecord_mem (s : State) (r : Record) : (sendRecord s r).mem = s.mem := rfl
@[simp] theorem sendRecord_queues (s : State) (r : Record) : (sendRecord s r).queues = s.queues := rfl
@[simp] theorem sendRecord_launches (s : State) (r : Record) : (sendRecord s r).launches = s.launches := rfl
@[simp] theorem sendRecord_ctxs (s : State) (r : Record) : (sendRecord s r).ctxs = s.ctxs := rfl
@[simp] theorem sendRecord_members (s : State) (r : Record) : (sendRecord s r).members = s.members := rfl
@[simp] theorem sendRecord_cores (s : State) (r : Record) : (sendRecord s r).cores = s.cores := rfl
@[simp] theorem sendRecord_fields (s : State) (r : Record) : (sendRecord s r).fields = s.fields := rfl
@[simp] theorem sendRecord_quads (s : State) (r : Record) : (sendRecord s r).quads = s.quads := rfl
@[simp] theorem sendRecord_accs (s : State) (r : Record) : (sendRecord s r).accs = s.accs := rfl
@[simp] theorem sendRecord_nbrs (s : State) (r : Record) : (sendRecord s r).nbrs = s.nbrs := rfl
@[simp] theorem sendRecord_pkts (s : State) (r : Record) : (sendRecord s r).pkts = s.pkts := rfl
@[simp] theorem sendRecord_optics (s : State) (r : Record) : (sendRecord s r).optics = s.optics := rfl
@[simp] theorem sendRecord_ports (s : State) (r : Record) : (sendRecord s r).ports = s.ports := rfl
@[simp] theorem sendRecord_keepers (s : State) (r : Record) : (sendRecord s r).keepers = s.keepers := rfl
@[simp] theorem sendRecord_sched (s : State) (r : Record) : (sendRecord s r).sched = s.sched := rfl

@[simp] theorem setLatch_mem (s : State) (k : Cur) (v : Word64) : (setLatch s k v).mem = s.mem := rfl
@[simp] theorem setLatch_mod (s : State) (k : Cur) (v : Word64) : (setLatch s k v).mod = s.mod := rfl
@[simp] theorem setLatch_queues (s : State) (k : Cur) (v : Word64) : (setLatch s k v).queues = s.queues := rfl
@[simp] theorem setLatch_launches (s : State) (k : Cur) (v : Word64) : (setLatch s k v).launches = s.launches := rfl
@[simp] theorem setLatch_ctxs (s : State) (k : Cur) (v : Word64) : (setLatch s k v).ctxs = s.ctxs := rfl
@[simp] theorem setLatch_cores (s : State) (k : Cur) (v : Word64) : (setLatch s k v).cores = s.cores := rfl
@[simp] theorem setLatch_fields (s : State) (k : Cur) (v : Word64) : (setLatch s k v).fields = s.fields := rfl
@[simp] theorem setLatch_quads (s : State) (k : Cur) (v : Word64) : (setLatch s k v).quads = s.quads := rfl
@[simp] theorem setLatch_accs (s : State) (k : Cur) (v : Word64) : (setLatch s k v).accs = s.accs := rfl
@[simp] theorem setLatch_nbrs (s : State) (k : Cur) (v : Word64) : (setLatch s k v).nbrs = s.nbrs := rfl
@[simp] theorem setLatch_pkts (s : State) (k : Cur) (v : Word64) : (setLatch s k v).pkts = s.pkts := rfl
@[simp] theorem setLatch_optics (s : State) (k : Cur) (v : Word64) : (setLatch s k v).optics = s.optics := rfl
@[simp] theorem setLatch_ports (s : State) (k : Cur) (v : Word64) : (setLatch s k v).ports = s.ports := rfl
@[simp] theorem setLatch_keepers (s : State) (k : Cur) (v : Word64) : (setLatch s k v).keepers = s.keepers := rfl
@[simp] theorem setLatch_sched (s : State) (k : Cur) (v : Word64) : (setLatch s k v).sched = s.sched := rfl

@[simp] theorem setPred_mem (s : State) (i : Nat) (p : BitVec 3) (v : Bool) : (setPred s i p v).mem = s.mem := rfl
@[simp] theorem setPred_mod (s : State) (i : Nat) (p : BitVec 3) (v : Bool) : (setPred s i p v).mod = s.mod := rfl
@[simp] theorem setPred_queues (s : State) (i : Nat) (p : BitVec 3) (v : Bool) : (setPred s i p v).queues = s.queues := rfl
@[simp] theorem setPred_launches (s : State) (i : Nat) (p : BitVec 3) (v : Bool) : (setPred s i p v).launches = s.launches := rfl
@[simp] theorem setPred_ctxs (s : State) (i : Nat) (p : BitVec 3) (v : Bool) : (setPred s i p v).ctxs = s.ctxs := rfl
@[simp] theorem setPred_cores (s : State) (i : Nat) (p : BitVec 3) (v : Bool) : (setPred s i p v).cores = s.cores := rfl
@[simp] theorem setPred_fields (s : State) (i : Nat) (p : BitVec 3) (v : Bool) : (setPred s i p v).fields = s.fields := rfl
@[simp] theorem setPred_quads (s : State) (i : Nat) (p : BitVec 3) (v : Bool) : (setPred s i p v).quads = s.quads := rfl
@[simp] theorem setPred_accs (s : State) (i : Nat) (p : BitVec 3) (v : Bool) : (setPred s i p v).accs = s.accs := rfl
@[simp] theorem setPred_nbrs (s : State) (i : Nat) (p : BitVec 3) (v : Bool) : (setPred s i p v).nbrs = s.nbrs := rfl
@[simp] theorem setPred_pkts (s : State) (i : Nat) (p : BitVec 3) (v : Bool) : (setPred s i p v).pkts = s.pkts := rfl
@[simp] theorem setPred_optics (s : State) (i : Nat) (p : BitVec 3) (v : Bool) : (setPred s i p v).optics = s.optics := rfl
@[simp] theorem setPred_ports (s : State) (i : Nat) (p : BitVec 3) (v : Bool) : (setPred s i p v).ports = s.ports := rfl
@[simp] theorem setPred_keepers (s : State) (i : Nat) (p : BitVec 3) (v : Bool) : (setPred s i p v).keepers = s.keepers := rfl
@[simp] theorem setPred_sched (s : State) (i : Nat) (p : BitVec 3) (v : Bool) : (setPred s i p v).sched = s.sched := rfl

@[simp] theorem writeG_mem (s : State) (i : Nat) (n : BitVec 6) (v : Word) : (writeG s i n v).mem = s.mem := rfl
@[simp] theorem writeG_mod (s : State) (i : Nat) (n : BitVec 6) (v : Word) : (writeG s i n v).mod = s.mod := rfl
@[simp] theorem writeG_queues (s : State) (i : Nat) (n : BitVec 6) (v : Word) : (writeG s i n v).queues = s.queues := rfl
@[simp] theorem writeG_launches (s : State) (i : Nat) (n : BitVec 6) (v : Word) : (writeG s i n v).launches = s.launches := rfl
@[simp] theorem writeG_ctxs (s : State) (i : Nat) (n : BitVec 6) (v : Word) : (writeG s i n v).ctxs = s.ctxs := rfl
@[simp] theorem writeG_cores (s : State) (i : Nat) (n : BitVec 6) (v : Word) : (writeG s i n v).cores = s.cores := rfl
@[simp] theorem writeG_fields (s : State) (i : Nat) (n : BitVec 6) (v : Word) : (writeG s i n v).fields = s.fields := rfl
@[simp] theorem writeG_quads (s : State) (i : Nat) (n : BitVec 6) (v : Word) : (writeG s i n v).quads = s.quads := rfl
@[simp] theorem writeG_accs (s : State) (i : Nat) (n : BitVec 6) (v : Word) : (writeG s i n v).accs = s.accs := rfl
@[simp] theorem writeG_nbrs (s : State) (i : Nat) (n : BitVec 6) (v : Word) : (writeG s i n v).nbrs = s.nbrs := rfl
@[simp] theorem writeG_pkts (s : State) (i : Nat) (n : BitVec 6) (v : Word) : (writeG s i n v).pkts = s.pkts := rfl
@[simp] theorem writeG_optics (s : State) (i : Nat) (n : BitVec 6) (v : Word) : (writeG s i n v).optics = s.optics := rfl
@[simp] theorem writeG_ports (s : State) (i : Nat) (n : BitVec 6) (v : Word) : (writeG s i n v).ports = s.ports := rfl
@[simp] theorem writeG_keepers (s : State) (i : Nat) (n : BitVec 6) (v : Word) : (writeG s i n v).keepers = s.keepers := rfl
@[simp] theorem writeG_sched (s : State) (i : Nat) (n : BitVec 6) (v : Word) : (writeG s i n v).sched = s.sched := rfl

@[simp] theorem writePair_mem (s : State) (i : Nat) (n : BitVec 6) (v : Word64) : (writePair s i n v).mem = s.mem := rfl
@[simp] theorem writePair_mod (s : State) (i : Nat) (n : BitVec 6) (v : Word64) : (writePair s i n v).mod = s.mod := rfl
@[simp] theorem writePair_queues (s : State) (i : Nat) (n : BitVec 6) (v : Word64) : (writePair s i n v).queues = s.queues := rfl
@[simp] theorem writePair_launches (s : State) (i : Nat) (n : BitVec 6) (v : Word64) : (writePair s i n v).launches = s.launches := rfl
@[simp] theorem writePair_ctxs (s : State) (i : Nat) (n : BitVec 6) (v : Word64) : (writePair s i n v).ctxs = s.ctxs := rfl
@[simp] theorem writePair_cores (s : State) (i : Nat) (n : BitVec 6) (v : Word64) : (writePair s i n v).cores = s.cores := rfl
@[simp] theorem writePair_fields (s : State) (i : Nat) (n : BitVec 6) (v : Word64) : (writePair s i n v).fields = s.fields := rfl
@[simp] theorem writePair_quads (s : State) (i : Nat) (n : BitVec 6) (v : Word64) : (writePair s i n v).quads = s.quads := rfl
@[simp] theorem writePair_accs (s : State) (i : Nat) (n : BitVec 6) (v : Word64) : (writePair s i n v).accs = s.accs := rfl
@[simp] theorem writePair_nbrs (s : State) (i : Nat) (n : BitVec 6) (v : Word64) : (writePair s i n v).nbrs = s.nbrs := rfl
@[simp] theorem writePair_pkts (s : State) (i : Nat) (n : BitVec 6) (v : Word64) : (writePair s i n v).pkts = s.pkts := rfl
@[simp] theorem writePair_optics (s : State) (i : Nat) (n : BitVec 6) (v : Word64) : (writePair s i n v).optics = s.optics := rfl
@[simp] theorem writePair_ports (s : State) (i : Nat) (n : BitVec 6) (v : Word64) : (writePair s i n v).ports = s.ports := rfl
@[simp] theorem writePair_keepers (s : State) (i : Nat) (n : BitVec 6) (v : Word64) : (writePair s i n v).keepers = s.keepers := rfl
@[simp] theorem writePair_sched (s : State) (i : Nat) (n : BitVec 6) (v : Word64) : (writePair s i n v).sched = s.sched := rfl

@[simp] theorem writeDst_mem (s : State) (i : Nat) (w : Bool) (v : Word64) (d : Dst) : (writeDst s i w v d).mem = s.mem := by
  cases d <;> cases w <;> rfl
@[simp] theorem writeDst_mod (s : State) (i : Nat) (w : Bool) (v : Word64) (d : Dst) : (writeDst s i w v d).mod = s.mod := by
  cases d <;> cases w <;> rfl
@[simp] theorem writeDst_queues (s : State) (i : Nat) (w : Bool) (v : Word64) (d : Dst) : (writeDst s i w v d).queues = s.queues := by
  cases d <;> cases w <;> rfl
@[simp] theorem writeDst_launches (s : State) (i : Nat) (w : Bool) (v : Word64) (d : Dst) : (writeDst s i w v d).launches = s.launches := by
  cases d <;> cases w <;> rfl
@[simp] theorem writeDst_ctxs (s : State) (i : Nat) (w : Bool) (v : Word64) (d : Dst) : (writeDst s i w v d).ctxs = s.ctxs := by
  cases d <;> cases w <;> rfl
@[simp] theorem writeDst_cores (s : State) (i : Nat) (w : Bool) (v : Word64) (d : Dst) : (writeDst s i w v d).cores = s.cores := by
  cases d <;> cases w <;> rfl
@[simp] theorem writeDst_fields (s : State) (i : Nat) (w : Bool) (v : Word64) (d : Dst) : (writeDst s i w v d).fields = s.fields := by
  cases d <;> cases w <;> rfl
@[simp] theorem writeDst_quads (s : State) (i : Nat) (w : Bool) (v : Word64) (d : Dst) : (writeDst s i w v d).quads = s.quads := by
  cases d <;> cases w <;> rfl
@[simp] theorem writeDst_accs (s : State) (i : Nat) (w : Bool) (v : Word64) (d : Dst) : (writeDst s i w v d).accs = s.accs := by
  cases d <;> cases w <;> rfl
@[simp] theorem writeDst_nbrs (s : State) (i : Nat) (w : Bool) (v : Word64) (d : Dst) : (writeDst s i w v d).nbrs = s.nbrs := by
  cases d <;> cases w <;> rfl
@[simp] theorem writeDst_pkts (s : State) (i : Nat) (w : Bool) (v : Word64) (d : Dst) : (writeDst s i w v d).pkts = s.pkts := by
  cases d <;> cases w <;> rfl
@[simp] theorem writeDst_optics (s : State) (i : Nat) (w : Bool) (v : Word64) (d : Dst) : (writeDst s i w v d).optics = s.optics := by
  cases d <;> cases w <;> rfl
@[simp] theorem writeDst_ports (s : State) (i : Nat) (w : Bool) (v : Word64) (d : Dst) : (writeDst s i w v d).ports = s.ports := by
  cases d <;> cases w <;> rfl
@[simp] theorem writeDst_keepers (s : State) (i : Nat) (w : Bool) (v : Word64) (d : Dst) : (writeDst s i w v d).keepers = s.keepers := by
  cases d <;> cases w <;> rfl
@[simp] theorem writeDst_sched (s : State) (i : Nat) (w : Bool) (v : Word64) (d : Dst) : (writeDst s i w v d).sched = s.sched := by
  cases d <;> cases w <;> rfl

@[simp] theorem result_mem (s : State) (k : Cur) (c : Common) (d : Dst) (w : Bool) (v : Word64) :
    (result s k c d w v).mem = s.mem := by
  unfold result
  split <;> simp
@[simp] theorem result_mod (s : State) (k : Cur) (c : Common) (d : Dst) (w : Bool) (v : Word64) :
    (result s k c d w v).mod = s.mod := by
  unfold result
  split <;> simp
@[simp] theorem result_queues (s : State) (k : Cur) (c : Common) (d : Dst) (w : Bool) (v : Word64) :
    (result s k c d w v).queues = s.queues := by
  unfold result
  split <;> simp
@[simp] theorem result_launches (s : State) (k : Cur) (c : Common) (d : Dst) (w : Bool) (v : Word64) :
    (result s k c d w v).launches = s.launches := by
  unfold result
  split <;> simp
@[simp] theorem result_ctxs (s : State) (k : Cur) (c : Common) (d : Dst) (w : Bool) (v : Word64) :
    (result s k c d w v).ctxs = s.ctxs := by
  unfold result
  split <;> simp
@[simp] theorem result_cores (s : State) (k : Cur) (c : Common) (d : Dst) (w : Bool) (v : Word64) :
    (result s k c d w v).cores = s.cores := by
  unfold result
  split <;> simp
@[simp] theorem result_fields (s : State) (k : Cur) (c : Common) (d : Dst) (w : Bool) (v : Word64) :
    (result s k c d w v).fields = s.fields := by
  unfold result
  split <;> simp
@[simp] theorem result_quads (s : State) (k : Cur) (c : Common) (d : Dst) (w : Bool) (v : Word64) :
    (result s k c d w v).quads = s.quads := by
  unfold result
  split <;> simp
@[simp] theorem result_accs (s : State) (k : Cur) (c : Common) (d : Dst) (w : Bool) (v : Word64) :
    (result s k c d w v).accs = s.accs := by
  unfold result
  split <;> simp
@[simp] theorem result_nbrs (s : State) (k : Cur) (c : Common) (d : Dst) (w : Bool) (v : Word64) :
    (result s k c d w v).nbrs = s.nbrs := by
  unfold result
  split <;> simp
@[simp] theorem result_pkts (s : State) (k : Cur) (c : Common) (d : Dst) (w : Bool) (v : Word64) :
    (result s k c d w v).pkts = s.pkts := by
  unfold result
  split <;> simp
@[simp] theorem result_optics (s : State) (k : Cur) (c : Common) (d : Dst) (w : Bool) (v : Word64) :
    (result s k c d w v).optics = s.optics := by
  unfold result
  split <;> simp
@[simp] theorem result_ports (s : State) (k : Cur) (c : Common) (d : Dst) (w : Bool) (v : Word64) :
    (result s k c d w v).ports = s.ports := by
  unfold result
  split <;> simp
@[simp] theorem result_keepers (s : State) (k : Cur) (c : Common) (d : Dst) (w : Bool) (v : Word64) :
    (result s k c d w v).keepers = s.keepers := by
  unfold result
  split <;> simp
@[simp] theorem result_sched (s : State) (k : Cur) (c : Common) (d : Dst) (w : Bool) (v : Word64) :
    (result s k c d w v).sched = s.sched := by
  unfold result
  split <;> simp
@[simp] theorem leaveGroup_mem (s : State) (i n : Nat) (w : Wait) : (leaveGroup s i n w).mem = s.mem := by
  unfold leaveGroup
  split <;> rfl
@[simp] theorem leaveGroup_mod (s : State) (i n : Nat) (w : Wait) : (leaveGroup s i n w).mod = s.mod := by
  unfold leaveGroup
  split <;> rfl
@[simp] theorem leaveGroup_queues (s : State) (i n : Nat) (w : Wait) : (leaveGroup s i n w).queues = s.queues := by
  unfold leaveGroup
  split <;> rfl
@[simp] theorem leaveGroup_launches (s : State) (i n : Nat) (w : Wait) : (leaveGroup s i n w).launches = s.launches := by
  unfold leaveGroup
  split <;> rfl
@[simp] theorem leaveGroup_ctxs (s : State) (i n : Nat) (w : Wait) : (leaveGroup s i n w).ctxs = s.ctxs := by
  unfold leaveGroup
  split <;> rfl
@[simp] theorem leaveGroup_fields (s : State) (i n : Nat) (w : Wait) : (leaveGroup s i n w).fields = s.fields := by
  unfold leaveGroup
  split <;> rfl
@[simp] theorem leaveGroup_quads (s : State) (i n : Nat) (w : Wait) : (leaveGroup s i n w).quads = s.quads := by
  unfold leaveGroup
  split <;> rfl
@[simp] theorem leaveGroup_accs (s : State) (i n : Nat) (w : Wait) : (leaveGroup s i n w).accs = s.accs := by
  unfold leaveGroup
  split <;> rfl
@[simp] theorem leaveGroup_nbrs (s : State) (i n : Nat) (w : Wait) : (leaveGroup s i n w).nbrs = s.nbrs := by
  unfold leaveGroup
  split <;> rfl
@[simp] theorem leaveGroup_pkts (s : State) (i n : Nat) (w : Wait) : (leaveGroup s i n w).pkts = s.pkts := by
  unfold leaveGroup
  split <;> rfl
@[simp] theorem leaveGroup_optics (s : State) (i n : Nat) (w : Wait) : (leaveGroup s i n w).optics = s.optics := by
  unfold leaveGroup
  split <;> rfl
@[simp] theorem leaveGroup_ports (s : State) (i n : Nat) (w : Wait) : (leaveGroup s i n w).ports = s.ports := by
  unfold leaveGroup
  split <;> rfl
@[simp] theorem leaveGroup_keepers (s : State) (i n : Nat) (w : Wait) : (leaveGroup s i n w).keepers = s.keepers := by
  unfold leaveGroup
  split <;> rfl
@[simp] theorem leaveGroup_sched (s : State) (i n : Nat) (w : Wait) : (leaveGroup s i n w).sched = s.sched := by
  unfold leaveGroup
  split <;> rfl
@[simp] theorem wake_mem (s : State) (i : Nat) : (wake s i).mem = s.mem := by
  unfold wake
  split <;> rfl
@[simp] theorem wake_mod (s : State) (i : Nat) : (wake s i).mod = s.mod := by
  unfold wake
  split <;> rfl
@[simp] theorem wake_queues (s : State) (i : Nat) : (wake s i).queues = s.queues := by
  unfold wake
  split <;> rfl
@[simp] theorem wake_launches (s : State) (i : Nat) : (wake s i).launches = s.launches := by
  unfold wake
  split <;> rfl
@[simp] theorem wake_ctxs (s : State) (i : Nat) : (wake s i).ctxs = s.ctxs := by
  unfold wake
  split <;> rfl
@[simp] theorem wake_cores (s : State) (i : Nat) : (wake s i).cores = s.cores := by
  unfold wake
  split <;> rfl
@[simp] theorem wake_fields (s : State) (i : Nat) : (wake s i).fields = s.fields := by
  unfold wake
  split <;> rfl
@[simp] theorem wake_quads (s : State) (i : Nat) : (wake s i).quads = s.quads := by
  unfold wake
  split <;> rfl
@[simp] theorem wake_accs (s : State) (i : Nat) : (wake s i).accs = s.accs := by
  unfold wake
  split <;> rfl
@[simp] theorem wake_nbrs (s : State) (i : Nat) : (wake s i).nbrs = s.nbrs := by
  unfold wake
  split <;> rfl
@[simp] theorem wake_pkts (s : State) (i : Nat) : (wake s i).pkts = s.pkts := by
  unfold wake
  split <;> rfl
@[simp] theorem wake_optics (s : State) (i : Nat) : (wake s i).optics = s.optics := by
  unfold wake
  split <;> rfl
@[simp] theorem wake_ports (s : State) (i : Nat) : (wake s i).ports = s.ports := by
  unfold wake
  split <;> rfl
@[simp] theorem wake_keepers (s : State) (i : Nat) : (wake s i).keepers = s.keepers := by
  unfold wake
  split <;> rfl
@[simp] theorem wake_sched (s : State) (i : Nat) : (wake s i).sched = s.sched := by
  unfold wake
  split <;> rfl

/-! ## Units read after an update -/

@[simp] theorem coreAt_setCore_same (s : State) (g : Nat) (u : CoreUnit) : coreAt (setCore s g u) g = u := by
  simp [coreAt, setCore]
theorem coreAt_setCore_other (s : State) {g n : Nat} (u : CoreUnit) (h : n ≠ g) : coreAt (setCore s g u) n = coreAt s n := by
  simp [coreAt, idleCore, quadAt, setCore, tabGet_tabPut_other _ _ h]
@[simp] theorem coreAt_updCore_same (s : State) (g : Nat) (f : CoreUnit → CoreUnit) :
    coreAt (updCore s g f) g = f (coreAt s g) := by simp [updCore]
theorem coreAt_updCore_other (s : State) {g n : Nat} (f : CoreUnit → CoreUnit) (h : n ≠ g) :
    coreAt (updCore s g f) n = coreAt s n := coreAt_setCore_other s _ h
@[simp] theorem fieldAt_updField_same (s : State) (g : Nat) (f : FieldUnit → FieldUnit) :
    fieldAt (updField s g f) g = f (fieldAt s g) := by simp [fieldAt, updField]
theorem fieldAt_updField_other (s : State) {g n : Nat} (f : FieldUnit → FieldUnit) (h : n ≠ g) :
    fieldAt (updField s g f) n = fieldAt s n := by simp [fieldAt, updField, tabGet_tabPut_other _ _ h]
@[simp] theorem pairAt_updPair_same (s : State) (g d : Nat) (f : PairState → PairState) :
    pairAt (updPair s g d f) g d = f (pairAt s g d) := by simp [pairAt, updPair]
@[simp] theorem quadAt_updQuad_same (s : State) (g : Nat) (f : QuadUnit → QuadUnit) :
    quadAt (updQuad s g f) g = f (quadAt s g) := by simp [quadAt, updQuad]
theorem quadAt_updQuad_other (s : State) {g n : Nat} (f : QuadUnit → QuadUnit) (h : n ≠ g) :
    quadAt (updQuad s g f) n = quadAt s n := by simp [quadAt, updQuad, tabGet_tabPut_other _ _ h]
@[simp] theorem updMod_mod (s : State) (f : ModuleUnit → ModuleUnit) : (updMod s f).mod = f s.mod := rfl
@[simp] theorem memberAt_updMember_same (s : State) (g : Nat) (f : Member → Member) :
    memberAt (updMember s g f) g = (memberAt s g).map f := by simp [memberAt, updMember]
theorem memberAt_updMember_other (s : State) {g n : Nat} (f : Member → Member) (h : n ≠ g) :
    memberAt (updMember s g f) n = memberAt s n := by simp [memberAt, updMember, tabGet_tabUpd_other _ _ h]
@[simp] theorem ctxAt_updCtx_same (s : State) (l c : Nat) (f : Ctx → Ctx) :
    ctxAt (updCtx s l c f) l c = (ctxAt s l c).map f := by simp [ctxAt, updCtx]
@[simp] theorem launchAt_updLaunch_same (s : State) (g : Nat) (f : Launch → Launch) :
    launchAt (updLaunch s g f) g = (launchAt s g).map f := by simp [launchAt, updLaunch]
theorem launchAt_updLaunch_other (s : State) {g n : Nat} (f : Launch → Launch) (h : n ≠ g) :
    launchAt (updLaunch s g f) n = launchAt s n := by simp [launchAt, updLaunch, tabGet_tabUpd_other _ _ h]
@[simp] theorem queues_updQueue_same (s : State) (g : Nat) (f : Queue → Queue) :
    tabGet (updQueue s g f).queues g = (tabGet s.queues g).map f := by simp [updQueue]
@[simp] theorem accs_updAcc_same (s : State) (g : Nat) (f : Access → Access) :
    tabGet (updAcc s g f).accs g = (tabGet s.accs g).map f := by simp [updAcc]

/-! Units of other kinds read as before. -/

@[simp] theorem fieldAt_setCore (s : State) (g : Nat) (u : CoreUnit) (n : Nat) : fieldAt (setCore s g u) n = fieldAt s n := rfl
@[simp] theorem quadAt_setCore (s : State) (g : Nat) (u : CoreUnit) (n : Nat) : quadAt (setCore s g u) n = quadAt s n := rfl
@[simp] theorem memberAt_setCore (s : State) (g : Nat) (u : CoreUnit) (n : Nat) : memberAt (setCore s g u) n = memberAt s n := rfl
@[simp] theorem ctxAt_setCore (s : State) (g : Nat) (u : CoreUnit) (n m : Nat) : ctxAt (setCore s g u) n m = ctxAt s n m := rfl
@[simp] theorem launchAt_setCore (s : State) (g : Nat) (u : CoreUnit) (n : Nat) : launchAt (setCore s g u) n = launchAt s n := rfl
@[simp] theorem fieldAt_updCore (s : State) (g : Nat) (f : CoreUnit → CoreUnit) (n : Nat) : fieldAt (updCore s g f) n = fieldAt s n := rfl
@[simp] theorem quadAt_updCore (s : State) (g : Nat) (f : CoreUnit → CoreUnit) (n : Nat) : quadAt (updCore s g f) n = quadAt s n := rfl
@[simp] theorem memberAt_updCore (s : State) (g : Nat) (f : CoreUnit → CoreUnit) (n : Nat) : memberAt (updCore s g f) n = memberAt s n := rfl
@[simp] theorem ctxAt_updCore (s : State) (g : Nat) (f : CoreUnit → CoreUnit) (n m : Nat) : ctxAt (updCore s g f) n m = ctxAt s n m := rfl
@[simp] theorem launchAt_updCore (s : State) (g : Nat) (f : CoreUnit → CoreUnit) (n : Nat) : launchAt (updCore s g f) n = launchAt s n := rfl
@[simp] theorem coreAt_updField (s : State) (g : Nat) (f : FieldUnit → FieldUnit) (n : Nat) : coreAt (updField s g f) n = coreAt s n := rfl
@[simp] theorem quadAt_updField (s : State) (g : Nat) (f : FieldUnit → FieldUnit) (n : Nat) : quadAt (updField s g f) n = quadAt s n := rfl
@[simp] theorem memberAt_updField (s : State) (g : Nat) (f : FieldUnit → FieldUnit) (n : Nat) : memberAt (updField s g f) n = memberAt s n := rfl
@[simp] theorem ctxAt_updField (s : State) (g : Nat) (f : FieldUnit → FieldUnit) (n m : Nat) : ctxAt (updField s g f) n m = ctxAt s n m := rfl
@[simp] theorem launchAt_updField (s : State) (g : Nat) (f : FieldUnit → FieldUnit) (n : Nat) : launchAt (updField s g f) n = launchAt s n := rfl
@[simp] theorem coreAt_updPair (s : State) (g d : Nat) (f : PairState → PairState) (n : Nat) : coreAt (updPair s g d f) n = coreAt s n := rfl
@[simp] theorem quadAt_updPair (s : State) (g d : Nat) (f : PairState → PairState) (n : Nat) : quadAt (updPair s g d f) n = quadAt s n := rfl
@[simp] theorem memberAt_updPair (s : State) (g d : Nat) (f : PairState → PairState) (n : Nat) : memberAt (updPair s g d f) n = memberAt s n := rfl
@[simp] theorem ctxAt_updPair (s : State) (g d : Nat) (f : PairState → PairState) (n m : Nat) : ctxAt (updPair s g d f) n m = ctxAt s n m := rfl
@[simp] theorem launchAt_updPair (s : State) (g d : Nat) (f : PairState → PairState) (n : Nat) : launchAt (updPair s g d f) n = launchAt s n := rfl
@[simp] theorem fieldAt_updQuad (s : State) (g : Nat) (f : QuadUnit → QuadUnit) (n : Nat) : fieldAt (updQuad s g f) n = fieldAt s n := rfl
@[simp] theorem memberAt_updQuad (s : State) (g : Nat) (f : QuadUnit → QuadUnit) (n : Nat) : memberAt (updQuad s g f) n = memberAt s n := rfl
@[simp] theorem ctxAt_updQuad (s : State) (g : Nat) (f : QuadUnit → QuadUnit) (n m : Nat) : ctxAt (updQuad s g f) n m = ctxAt s n m := rfl
@[simp] theorem launchAt_updQuad (s : State) (g : Nat) (f : QuadUnit → QuadUnit) (n : Nat) : launchAt (updQuad s g f) n = launchAt s n := rfl
@[simp] theorem coreAt_updMod (s : State) (f : ModuleUnit → ModuleUnit) (n : Nat) : coreAt (updMod s f) n = coreAt s n := rfl
@[simp] theorem fieldAt_updMod (s : State) (f : ModuleUnit → ModuleUnit) (n : Nat) : fieldAt (updMod s f) n = fieldAt s n := rfl
@[simp] theorem quadAt_updMod (s : State) (f : ModuleUnit → ModuleUnit) (n : Nat) : quadAt (updMod s f) n = quadAt s n := rfl
@[simp] theorem memberAt_updMod (s : State) (f : ModuleUnit → ModuleUnit) (n : Nat) : memberAt (updMod s f) n = memberAt s n := rfl
@[simp] theorem ctxAt_updMod (s : State) (f : ModuleUnit → ModuleUnit) (n m : Nat) : ctxAt (updMod s f) n m = ctxAt s n m := rfl
@[simp] theorem launchAt_updMod (s : State) (f : ModuleUnit → ModuleUnit) (n : Nat) : launchAt (updMod s f) n = launchAt s n := rfl
@[simp] theorem coreAt_updMember (s : State) (g : Nat) (f : Member → Member) (n : Nat) : coreAt (updMember s g f) n = coreAt s n := rfl
@[simp] theorem fieldAt_updMember (s : State) (g : Nat) (f : Member → Member) (n : Nat) : fieldAt (updMember s g f) n = fieldAt s n := rfl
@[simp] theorem quadAt_updMember (s : State) (g : Nat) (f : Member → Member) (n : Nat) : quadAt (updMember s g f) n = quadAt s n := rfl
@[simp] theorem ctxAt_updMember (s : State) (g : Nat) (f : Member → Member) (n m : Nat) : ctxAt (updMember s g f) n m = ctxAt s n m := rfl
@[simp] theorem launchAt_updMember (s : State) (g : Nat) (f : Member → Member) (n : Nat) : launchAt (updMember s g f) n = launchAt s n := rfl
@[simp] theorem coreAt_updCtx (s : State) (l c : Nat) (f : Ctx → Ctx) (n : Nat) : coreAt (updCtx s l c f) n = coreAt s n := rfl
@[simp] theorem fieldAt_updCtx (s : State) (l c : Nat) (f : Ctx → Ctx) (n : Nat) : fieldAt (updCtx s l c f) n = fieldAt s n := rfl
@[simp] theorem quadAt_updCtx (s : State) (l c : Nat) (f : Ctx → Ctx) (n : Nat) : quadAt (updCtx s l c f) n = quadAt s n := rfl
@[simp] theorem memberAt_updCtx (s : State) (l c : Nat) (f : Ctx → Ctx) (n : Nat) : memberAt (updCtx s l c f) n = memberAt s n := rfl
@[simp] theorem launchAt_updCtx (s : State) (l c : Nat) (f : Ctx → Ctx) (n : Nat) : launchAt (updCtx s l c f) n = launchAt s n := rfl
@[simp] theorem coreAt_updLaunch (s : State) (g : Nat) (f : Launch → Launch) (n : Nat) : coreAt (updLaunch s g f) n = coreAt s n := rfl
@[simp] theorem fieldAt_updLaunch (s : State) (g : Nat) (f : Launch → Launch) (n : Nat) : fieldAt (updLaunch s g f) n = fieldAt s n := rfl
@[simp] theorem quadAt_updLaunch (s : State) (g : Nat) (f : Launch → Launch) (n : Nat) : quadAt (updLaunch s g f) n = quadAt s n := rfl
@[simp] theorem memberAt_updLaunch (s : State) (g : Nat) (f : Launch → Launch) (n : Nat) : memberAt (updLaunch s g f) n = memberAt s n := rfl
@[simp] theorem ctxAt_updLaunch (s : State) (g : Nat) (f : Launch → Launch) (n m : Nat) : ctxAt (updLaunch s g f) n m = ctxAt s n m := rfl
@[simp] theorem coreAt_updQueue (s : State) (g : Nat) (f : Queue → Queue) (n : Nat) : coreAt (updQueue s g f) n = coreAt s n := rfl
@[simp] theorem fieldAt_updQueue (s : State) (g : Nat) (f : Queue → Queue) (n : Nat) : fieldAt (updQueue s g f) n = fieldAt s n := rfl
@[simp] theorem quadAt_updQueue (s : State) (g : Nat) (f : Queue → Queue) (n : Nat) : quadAt (updQueue s g f) n = quadAt s n := rfl
@[simp] theorem memberAt_updQueue (s : State) (g : Nat) (f : Queue → Queue) (n : Nat) : memberAt (updQueue s g f) n = memberAt s n := rfl
@[simp] theorem ctxAt_updQueue (s : State) (g : Nat) (f : Queue → Queue) (n m : Nat) : ctxAt (updQueue s g f) n m = ctxAt s n m := rfl
@[simp] theorem launchAt_updQueue (s : State) (g : Nat) (f : Queue → Queue) (n : Nat) : launchAt (updQueue s g f) n = launchAt s n := rfl
@[simp] theorem coreAt_updAcc (s : State) (g : Nat) (f : Access → Access) (n : Nat) : coreAt (updAcc s g f) n = coreAt s n := rfl
@[simp] theorem fieldAt_updAcc (s : State) (g : Nat) (f : Access → Access) (n : Nat) : fieldAt (updAcc s g f) n = fieldAt s n := rfl
@[simp] theorem quadAt_updAcc (s : State) (g : Nat) (f : Access → Access) (n : Nat) : quadAt (updAcc s g f) n = quadAt s n := rfl
@[simp] theorem memberAt_updAcc (s : State) (g : Nat) (f : Access → Access) (n : Nat) : memberAt (updAcc s g f) n = memberAt s n := rfl
@[simp] theorem ctxAt_updAcc (s : State) (g : Nat) (f : Access → Access) (n m : Nat) : ctxAt (updAcc s g f) n m = ctxAt s n m := rfl
@[simp] theorem launchAt_updAcc (s : State) (g : Nat) (f : Access → Access) (n : Nat) : launchAt (updAcc s g f) n = launchAt s n := rfl
@[simp] theorem coreAt_freshId (s : State) (n : Nat) : coreAt ((freshId s).2) n = coreAt s n := rfl
@[simp] theorem fieldAt_freshId (s : State) (n : Nat) : fieldAt ((freshId s).2) n = fieldAt s n := rfl
@[simp] theorem quadAt_freshId (s : State) (n : Nat) : quadAt ((freshId s).2) n = quadAt s n := rfl
@[simp] theorem memberAt_freshId (s : State) (n : Nat) : memberAt ((freshId s).2) n = memberAt s n := rfl
@[simp] theorem ctxAt_freshId (s : State) (n m : Nat) : ctxAt ((freshId s).2) n m = ctxAt s n m := rfl
@[simp] theorem launchAt_freshId (s : State) (n : Nat) : launchAt ((freshId s).2) n = launchAt s n := rfl
@[simp] theorem coreAt_drawFree (s : State) (n : Nat) : coreAt ((drawFree s).2) n = coreAt s n := rfl
@[simp] theorem fieldAt_drawFree (s : State) (n : Nat) : fieldAt ((drawFree s).2) n = fieldAt s n := rfl
@[simp] theorem quadAt_drawFree (s : State) (n : Nat) : quadAt ((drawFree s).2) n = quadAt s n := rfl
@[simp] theorem memberAt_drawFree (s : State) (n : Nat) : memberAt ((drawFree s).2) n = memberAt s n := rfl
@[simp] theorem ctxAt_drawFree (s : State) (n m : Nat) : ctxAt ((drawFree s).2) n m = ctxAt s n m := rfl
@[simp] theorem launchAt_drawFree (s : State) (n : Nat) : launchAt ((drawFree s).2) n = launchAt s n := rfl
@[simp] theorem fieldAt_writeBytes (s : State) (a : Nat) (l : List Byte) (n : Nat) : fieldAt (writeBytes s a l) n = fieldAt s n := rfl
@[simp] theorem quadAt_writeBytes (s : State) (a : Nat) (l : List Byte) (n : Nat) : quadAt (writeBytes s a l) n = quadAt s n := rfl
@[simp] theorem memberAt_writeBytes (s : State) (a : Nat) (l : List Byte) (n : Nat) : memberAt (writeBytes s a l) n = memberAt s n := rfl
@[simp] theorem ctxAt_writeBytes (s : State) (a : Nat) (l : List Byte) (n m : Nat) : ctxAt (writeBytes s a l) n m = ctxAt s n m := rfl
@[simp] theorem launchAt_writeBytes (s : State) (a : Nat) (l : List Byte) (n : Nat) : launchAt (writeBytes s a l) n = launchAt s n := rfl
@[simp] theorem coreAt_sendRecord (s : State) (r : Record) (n : Nat) : coreAt (sendRecord s r) n = coreAt s n := rfl
@[simp] theorem fieldAt_sendRecord (s : State) (r : Record) (n : Nat) : fieldAt (sendRecord s r) n = fieldAt s n := rfl
@[simp] theorem quadAt_sendRecord (s : State) (r : Record) (n : Nat) : quadAt (sendRecord s r) n = quadAt s n := rfl
@[simp] theorem memberAt_sendRecord (s : State) (r : Record) (n : Nat) : memberAt (sendRecord s r) n = memberAt s n := rfl
@[simp] theorem ctxAt_sendRecord (s : State) (r : Record) (n m : Nat) : ctxAt (sendRecord s r) n m = ctxAt s n m := rfl
@[simp] theorem launchAt_sendRecord (s : State) (r : Record) (n : Nat) : launchAt (sendRecord s r) n = launchAt s n := rfl
@[simp] theorem coreAt_setLatch (s : State) (k : Cur) (v : Word64) (n : Nat) : coreAt (setLatch s k v) n = coreAt s n := rfl
@[simp] theorem fieldAt_setLatch (s : State) (k : Cur) (v : Word64) (n : Nat) : fieldAt (setLatch s k v) n = fieldAt s n := rfl
@[simp] theorem quadAt_setLatch (s : State) (k : Cur) (v : Word64) (n : Nat) : quadAt (setLatch s k v) n = quadAt s n := rfl
@[simp] theorem ctxAt_setLatch (s : State) (k : Cur) (v : Word64) (n m : Nat) : ctxAt (setLatch s k v) n m = ctxAt s n m := rfl
@[simp] theorem launchAt_setLatch (s : State) (k : Cur) (v : Word64) (n : Nat) : launchAt (setLatch s k v) n = launchAt s n := rfl
@[simp] theorem coreAt_setPred (s : State) (i : Nat) (p : BitVec 3) (v : Bool) (n : Nat) : coreAt (setPred s i p v) n = coreAt s n := rfl
@[simp] theorem fieldAt_setPred (s : State) (i : Nat) (p : BitVec 3) (v : Bool) (n : Nat) : fieldAt (setPred s i p v) n = fieldAt s n := rfl
@[simp] theorem quadAt_setPred (s : State) (i : Nat) (p : BitVec 3) (v : Bool) (n : Nat) : quadAt (setPred s i p v) n = quadAt s n := rfl
@[simp] theorem ctxAt_setPred (s : State) (i : Nat) (p : BitVec 3) (v : Bool) (n m : Nat) : ctxAt (setPred s i p v) n m = ctxAt s n m := rfl
@[simp] theorem launchAt_setPred (s : State) (i : Nat) (p : BitVec 3) (v : Bool) (n : Nat) : launchAt (setPred s i p v) n = launchAt s n := rfl
@[simp] theorem coreAt_writeG (s : State) (i : Nat) (n : BitVec 6) (v : Word) (n : Nat) : coreAt (writeG s i n v) n = coreAt s n := rfl
@[simp] theorem fieldAt_writeG (s : State) (i : Nat) (n : BitVec 6) (v : Word) (n : Nat) : fieldAt (writeG s i n v) n = fieldAt s n := rfl
@[simp] theorem quadAt_writeG (s : State) (i : Nat) (n : BitVec 6) (v : Word) (n : Nat) : quadAt (writeG s i n v) n = quadAt s n := rfl
@[simp] theorem ctxAt_writeG (s : State) (i : Nat) (n : BitVec 6) (v : Word) (n m : Nat) : ctxAt (writeG s i n v) n m = ctxAt s n m := rfl
@[simp] theorem launchAt_writeG (s : State) (i : Nat) (n : BitVec 6) (v : Word) (n : Nat) : launchAt (writeG s i n v) n = launchAt s n := rfl
@[simp] theorem coreAt_writePair (s : State) (i : Nat) (n : BitVec 6) (v : Word64) (n : Nat) : coreAt (writePair s i n v) n = coreAt s n := rfl
@[simp] theorem fieldAt_writePair (s : State) (i : Nat) (n : BitVec 6) (v : Word64) (n : Nat) : fieldAt (writePair s i n v) n = fieldAt s n := rfl
@[simp] theorem quadAt_writePair (s : State) (i : Nat) (n : BitVec 6) (v : Word64) (n : Nat) : quadAt (writePair s i n v) n = quadAt s n := rfl
@[simp] theorem ctxAt_writePair (s : State) (i : Nat) (n : BitVec 6) (v : Word64) (n m : Nat) : ctxAt (writePair s i n v) n m = ctxAt s n m := rfl
@[simp] theorem launchAt_writePair (s : State) (i : Nat) (n : BitVec 6) (v : Word64) (n : Nat) : launchAt (writePair s i n v) n = launchAt s n := rfl
@[simp] theorem coreAt_result (s : State) (k : Cur) (c : Common) (d : Dst) (w : Bool) (v : Word64) (n : Nat) : coreAt (result s k c d w v) n = coreAt s n := by
  simp [coreAt, idleCore, quadAt]
@[simp] theorem fieldAt_result (s : State) (k : Cur) (c : Common) (d : Dst) (w : Bool) (v : Word64) (n : Nat) : fieldAt (result s k c d w v) n = fieldAt s n := by
  simp [fieldAt]
@[simp] theorem quadAt_result (s : State) (k : Cur) (c : Common) (d : Dst) (w : Bool) (v : Word64) (n : Nat) : quadAt (result s k c d w v) n = quadAt s n := by
  simp [quadAt]
@[simp] theorem ctxAt_result (s : State) (k : Cur) (c : Common) (d : Dst) (w : Bool) (v : Word64) (n m : Nat) : ctxAt (result s k c d w v) n m = ctxAt s n m := by
  simp [ctxAt]
@[simp] theorem launchAt_result (s : State) (k : Cur) (c : Common) (d : Dst) (w : Bool) (v : Word64) (n : Nat) : launchAt (result s k c d w v) n = launchAt s n := by
  simp [launchAt]
@[simp] theorem coreAt_writeDst (s : State) (i : Nat) (w : Bool) (v : Word64) (d : Dst) (n : Nat) : coreAt (writeDst s i w v d) n = coreAt s n := by
  simp [coreAt, idleCore, quadAt]
@[simp] theorem fieldAt_writeDst (s : State) (i : Nat) (w : Bool) (v : Word64) (d : Dst) (n : Nat) : fieldAt (writeDst s i w v d) n = fieldAt s n := by
  simp [fieldAt]
@[simp] theorem quadAt_writeDst (s : State) (i : Nat) (w : Bool) (v : Word64) (d : Dst) (n : Nat) : quadAt (writeDst s i w v d) n = quadAt s n := by
  simp [quadAt]
@[simp] theorem ctxAt_writeDst (s : State) (i : Nat) (w : Bool) (v : Word64) (d : Dst) (n m : Nat) : ctxAt (writeDst s i w v d) n m = ctxAt s n m := by
  simp [ctxAt]
@[simp] theorem launchAt_writeDst (s : State) (i : Nat) (w : Bool) (v : Word64) (d : Dst) (n : Nat) : launchAt (writeDst s i w v d) n = launchAt s n := by
  simp [launchAt]

/-! ## Registers -/

@[simp] theorem getG_setG_same (r : Regs) (n : BitVec 6) (v : Word) : (r.setG n v).getG n = v := by
  simp [Regs.getG, Regs.setG]
theorem getG_setG_other (r : Regs) {n i : BitVec 6} (v : Word) (h : i ≠ n) : (r.setG n v).getG i = r.getG i := by
  have : n.toNat ≠ i.toNat := fun e => h (BitVec.eq_of_toNat_eq e.symm)
  simp [Regs.getG, Regs.setG, Vector.getElem_set, this]
@[simp] theorem setG_f (r : Regs) (n : BitVec 6) (v : Word) : (r.setG n v).f = r.f := rfl
@[simp] theorem setG_p (r : Regs) (n : BitVec 6) (v : Word) : (r.setG n v).p = r.p := rfl
@[simp] theorem getF_setF_same (r : Regs) (n : BitVec 3) (v : Word) : (r.setF n v).getF n = v := by
  simp [Regs.getF, Regs.setF]
theorem getF_setF_other (r : Regs) {n i : BitVec 3} (v : Word) (h : i ≠ n) : (r.setF n v).getF i = r.getF i := by
  have : n.toNat ≠ i.toNat := fun e => h (BitVec.eq_of_toNat_eq e.symm)
  simp [Regs.getF, Regs.setF, Vector.getElem_set, this]
@[simp] theorem setF_g (r : Regs) (n : BitVec 3) (v : Word) : (r.setF n v).g = r.g := rfl
@[simp] theorem setF_p (r : Regs) (n : BitVec 3) (v : Word) : (r.setF n v).p = r.p := rfl
/-- p7 reads true, whatever is written to it (R11). -/
@[simp] theorem getP_seven (r : Regs) : r.getP 7 = true := rfl
@[simp] theorem setP_seven (r : Regs) (v : Bool) : r.setP 7 v = r := rfl
@[simp] theorem setP_g (r : Regs) (n : BitVec 3) (v : Bool) : (r.setP n v).g = r.g := by
  unfold Regs.setP
  split <;> rfl
@[simp] theorem setP_f (r : Regs) (n : BitVec 3) (v : Bool) : (r.setP n v).f = r.f := by
  unfold Regs.setP
  split <;> rfl
theorem getP_setP (r : Regs) (n i : BitVec 3) (v : Bool) (hn : n ≠ 7) :
    (r.setP n v).getP i = if i = n then v else r.getP i := by
  have hl : n.toNat < 7 := by
    have h := n.isLt
    have h7 : n.toNat ≠ 7 := fun e => hn (BitVec.eq_of_toNat_eq e)
    omega
  have hn' : ¬ n = 7#3 := hn
  by_cases hi : i = n
  · subst hi
    have h1 : ∀ k : Nat, k < 7 → (1#7 <<< k).getLsbD k = true := by decide
    cases v <;> simp [Regs.setP, Regs.getP, hn', hl, h1]
  · have hne : i.toNat ≠ n.toNat := fun e => hi (BitVec.eq_of_toNat_eq e)
    have h6 : i.toNat < 7 ∨ i = 7 := by
      rcases Nat.lt_or_ge i.toNat 7 with h | h
      · exact .inl h
      · exact .inr (BitVec.eq_of_toNat_eq (by have := i.isLt; show i.toNat = 7; omega))
    rcases h6 with h | h
    · rcases Nat.lt_or_gt_of_ne hne with g | g
      · cases v <;> simp [Regs.setP, Regs.getP, hn', hi, h, g]
      · have g1 : ¬ i.toNat < n.toNat := by omega
        have g2 : ¬ i.toNat - n.toNat = 0 := by omega
        cases v <;> simp [Regs.setP, Regs.getP, hn', hi, h, g1, g2]
    · subst h
      rw [getP_seven, getP_seven, if_neg (Ne.symm hn)]

end Sys2Proof.Machine
end

