-- ==== Sys2Proof/Laws/Archive.lean ====
section
/-!
SUPPORT. What a write to physical memory changes, and what the log of archived contexts changes: bytes of the log alone, and what
stands beside memory (R304, R305).
-/
namespace Sys2Proof.Machine
open Sys2Proof.Safety

/-- Within a piece, bytes that follow one another are served by bytes that follow one another (R313). -/
theorem physOf_add {s : State} {a j : Nat} (h : a % pieceSize + j < pieceSize) : physOf s (a + j) = physOf s a + j := by
  unfold physOf
  have hd : (a + j) / pieceSize = a / pieceSize := by simp only [pieceSize] at *; omega
  have hm : (a + j) % pieceSize = a % pieceSize + j := by simp only [pieceSize] at *; omega
  rw [hd]
  split
  · omega
  · rfl

/-- A run of a write serves bytes of the range, each from the byte of memory that serves it. -/
theorem runsOf_spec {s : State} {pa n : Nat} {r : Nat × Nat × Nat} (hr : r ∈ runsOf s pa n) {j : Nat} (hj : j < r.2.2) :
    r.2.1 + j < n ∧ r.1 + j = physOf s (pa + (r.2.1 + j)) := by
  unfold runsOf at hr
  split at hr
  · next h1 =>
    simp only [List.mem_singleton] at hr
    subst hr
    refine ⟨by simpa using hj, ?_⟩
    simp only [Nat.zero_add] at hj ⊢
    simp only [oneRun, Bool.or_eq_true, decide_eq_true_eq, List.isEmpty_iff] at h1
    rcases h1 with h | h
    · exact (physOf_add (by omega)).symm
    · simp [physOf, h]
  · simp only [List.mem_map, List.mem_range] at hr
    obtain ⟨i, _, rfl⟩ := hr
    simp only at hj ⊢
    generalize hlo : max pa ((pa / pieceSize + i) * pieceSize) = lo at hj ⊢
    generalize hhi : min (pa + n) ((pa / pieceSize + i + 1) * pieceSize) = hi at hj ⊢
    have h1 : pa ≤ lo := hlo ▸ Nat.le_max_left ..
    have h2 : hi ≤ pa + n := hhi ▸ Nat.min_le_left ..
    refine ⟨by omega, ?_⟩
    have h3 : pa + (lo - pa + j) = lo + j := by omega
    rw [h3]
    refine (physOf_add ?_).symm
    simp only [pieceSize] at *
    omega

/-- A write leaves every byte that serves none of its addresses (R313). -/
theorem memRead_writeBytes_other {s : State} {pa x : Nat} {l : List Byte} (h : ∀ i, i < l.length → x ≠ physOf s (pa + i)) :
    memRead (writeBytes s pa l).mem x = memRead s.mem x := by
  have key : ∀ (rs : List (Nat × Nat × Nat)) (m : Memory), (∀ r ∈ rs, ∀ j, j < r.2.2 → r.2.1 + j < l.length → x ≠ r.1 + j) →
      memRead (rs.foldl (fun m r => memWriteN m r.1 ((l.drop r.2.1).take r.2.2)) m) x = memRead m x := by
    intro rs
    induction rs with
    | nil => intros; rfl
    | cons r t ih =>
      intro m hm
      rw [List.foldl_cons, ih _ fun q hq => hm q (List.mem_cons_of_mem _ hq), memRead_memWriteN, if_neg]
      rintro ⟨h1, h2⟩
      simp only [List.length_take, List.length_drop] at h2
      exact hm r List.mem_cons_self (x - r.1) (by omega) (by omega) (by omega)
  refine key _ _ fun r hr j hj _ hx => ?_
  obtain ⟨h1, h2⟩ := runsOf_spec hr hj
  exact h _ h1 (hx.trans h2)

/-- Every address of a range stands in one of its runs. -/
theorem runsOf_covers {s : State} {pa n i : Nat} (hi : i < n) : ∃ r ∈ runsOf s pa n, r.2.1 ≤ i ∧ i < r.2.1 + r.2.2 := by
  unfold runsOf
  split
  · exact ⟨_, List.mem_singleton.mpr rfl, Nat.zero_le i, by simpa using hi⟩
  · refine ⟨_, List.mem_map.mpr ⟨(pa + i) / pieceSize - pa / pieceSize, List.mem_range.mpr ?_, rfl⟩, ?_, ?_⟩ <;>
      simp only [pieceSize] <;> omega

/-- Where memory serves a range in order, it reads after a write as it was written (R167). -/
theorem memRead_writeBytes {s : State} {pa i : Nat} {l : List Byte} (h : ∀ i, i < l.length → physOf s (pa + i) = physOf s pa + i)
    (hi : i < l.length) : memRead (writeBytes s pa l).mem (physOf s pa + i) = l.getD i 0 := by
  have key : ∀ (rs : List (Nat × Nat × Nat)) (m : Memory),
      (∀ r ∈ rs, ∀ j, j < r.2.2 → r.2.1 + j < l.length ∧ r.1 + j = physOf s pa + (r.2.1 + j)) →
      (memRead m (physOf s pa + i) = l.getD i 0 ∨ ∃ r ∈ rs, r.2.1 ≤ i ∧ i < r.2.1 + r.2.2) →
      memRead (rs.foldl (fun m r => memWriteN m r.1 ((l.drop r.2.1).take r.2.2)) m) (physOf s pa + i) = l.getD i 0 := by
    intro rs
    induction rs with
    | nil => intro m _ hm; simpa using hm
    | cons r t ih =>
      intro m hr hm
      rw [List.foldl_cons]
      refine ih _ (fun q hq => hr q (List.mem_cons_of_mem _ hq)) ?_
      by_cases hc : r.2.1 ≤ i ∧ i < r.2.1 + r.2.2
      · left
        have h0 := (hr r List.mem_cons_self 0 (by omega)).2
        have hlen : ((l.drop r.2.1).take r.2.2).length = min r.2.2 (l.length - r.2.1) := by simp
        rw [memRead_memWriteN, if_pos (by omega)]
        have hk : physOf s pa + i - r.1 = i - r.2.1 := by omega
        rw [hk, List.getD_eq_getElem?_getD, List.getD_eq_getElem?_getD, List.getElem?_take_of_lt (by omega), List.getElem?_drop]
        congr 3; omega
      · rcases hm with hm | ⟨q, hq, h1⟩
        · left
          by_cases hz : r.2.2 = 0
          · simp [hz, memWriteN, hm]
          · have h0 := (hr r List.mem_cons_self 0 (by omega)).2
            have hlen : ((l.drop r.2.1).take r.2.2).length = min r.2.2 (l.length - r.2.1) := by simp
            rw [memRead_memWriteN, if_neg (by omega), hm]
        · rcases List.mem_cons.mp hq with rfl | hq
          · exact absurd h1 hc
          · exact .inr ⟨q, hq, h1⟩
  refine key _ _ (fun r hr j hj => ?_) (.inr (runsOf_covers hi))
  obtain ⟨h1, h2⟩ := runsOf_spec hr hj
  exact ⟨h1, by rw [h2, h _ h1]⟩

/-- What stands beside memory, the log, contexts and cores stays, no entry of the log leaves its place, and memory changes in bytes of
the log alone. -/
structure LogsOnly (s t : State) : Prop where
  rest : t = { s with mem := t.mem, mod := t.mod, ctxs := t.ctxs, cores := t.cores }
  mod : t.mod = { s.mod with archive := t.mod.archive, poison := t.mod.poison, events := t.mod.events }
  kept : ∀ e ∈ s.mod.archive, ∃ e' ∈ t.mod.archive, e'.field = e.field ∧ e'.pos = e.pos
  memory : SameButArchive s t

theorem LogsOnly.archAddr_eq {s t : State} (h : LogsOnly s t) (f p : Nat) : archAddr t f p = archAddr s f p := by
  unfold archAddr; rw [h.mod]

theorem LogsOnly.physOf_eq {s t : State} (h : LogsOnly s t) (a : Nat) : physOf t a = physOf s a := by
  unfold physOf; rw [h.mod]

theorem LogsOnly.memberAt_eq {s t : State} (h : LogsOnly s t) (n : Nat) : memberAt t n = memberAt s n := by
  unfold memberAt; rw [h.rest]

theorem LogsOnly.refl (s : State) : LogsOnly s s := ⟨rfl, rfl, fun e he => ⟨e, he, rfl, rfl⟩, fun _ _ => rfl⟩

theorem LogsOnly.trans {s t u : State} (h : LogsOnly s t) (g : LogsOnly t u) : LogsOnly s u where
  rest := by rw [g.rest, h.rest]
  mod := by rw [g.mod, h.mod]
  kept := fun e he => by
    obtain ⟨e1, h1, h2, h3⟩ := h.kept e he
    obtain ⟨e2, g1, g2, g3⟩ := g.kept e1 h1
    exact ⟨e2, g1, g2.trans h2, g3.trans h3⟩
  memory := fun x hx => by
    rw [g.memory x, h.memory x]
    · rintro ⟨e, he, i, hi, rfl⟩
      obtain ⟨e2, g1, g2, g3⟩ := g.kept e he
      exact hx ⟨e2, g1, i, hi, by rw [g2, g3]⟩
    · rintro ⟨e, he, i, hi, rfl⟩
      exact hx ⟨e, he, i, hi, by rw [h.archAddr_eq, h.physOf_eq]⟩

/-- A context changes and nothing else. -/
theorem logsOnly_updCtx (s : State) (l c : Nat) (f : Ctx → Ctx) : LogsOnly s (updCtx s l c f) :=
  ⟨rfl, rfl, fun e he => ⟨e, he, rfl, rfl⟩, fun _ _ => rfl⟩

theorem logsOnly_raiseEvent (s : State) (u : Nat) : LogsOnly s (raiseEvent s u) :=
  ⟨rfl, rfl, fun e he => ⟨e, he, rfl, rfl⟩, fun _ _ => rfl⟩

theorem logsOnly_foldl {α : Type} {f : State → α → State} (h : ∀ t a, LogsOnly t (f t a)) (l : List α) (s : State) :
    LogsOnly s (l.foldl f s) := by
  induction l generalizing s with
  | nil => exact .refl s
  | cons a r ih => exact (h s a).trans (ih _)

theorem archBytes_length (e : ArchEntry) : (archBytes e).length = 32 + e.old.length := by
  simp only [archBytes, List.length_append, bytesOf_length]

theorem memReadN_length (m : Memory) (a n : Nat) : (memReadN m a n).length = n := by
  induction n generalizing a with
  | zero => rfl
  | succ n ih => simp [memReadN, ih]

/-- A run of a line's bytes is as long as was asked for: a line lies in one piece. -/
theorem readBytes_line_length {s : State} {x : Nat} (h : x % 256 = 0) : (readBytes s x 256).length = 256 := by
  have h1 : x % pieceSize + 256 ≤ pieceSize := by unfold pieceSize; omega
  simp [readBytes, oneRun, h1, memReadN_length]

/-- A write beside memory changes poison and clause lines alone. -/
theorem writeBytes_rest (s : State) (pa : Nat) (l : List Byte) :
    writeBytes s pa l = { s with mem := (writeBytes s pa l).mem, mod := (writeBytes s pa l).mod, ctxs := (writeBytes s pa l).ctxs,
                                 cores := (writeBytes s pa l).cores } := rfl
theorem writeBytes_mod (s : State) (pa : Nat) (l : List Byte) :
    (writeBytes s pa l).mod = { s.mod with poison := (writeBytes s pa l).mod.poison } := rfl

/-- An entry joins the log of a state that differs in its bytes alone. -/
theorem logsOnly_append {s w : State} (e : ArchEntry) (h1 : w = { s with mem := w.mem, mod := w.mod, ctxs := w.ctxs, cores := w.cores })
    (h2 : w.mod = { s.mod with poison := w.mod.poison })
    (h3 : ∀ y, (∀ i, i < 288 → y ≠ physOf s (archAddr s e.field e.pos + i)) → memRead w.mem y = memRead s.mem y) :
    LogsOnly s (updMod w fun m => { m with archive := m.archive ++ [e] }) := by
  have ha : w.mod.archive = s.mod.archive := by rw [h2]
  refine ⟨?_, ?_, fun x hx => ⟨x, ?_, rfl, rfl⟩, fun y hy => h3 y fun i hi hyi => hy ⟨e, ?_, i, hi, hyi⟩⟩
  · conv_lhs => rw [h1]
    rfl
  · generalize w.mod.poison = p at h2
    simp only [updMod, h2]
  · simp [updMod, ha, hx]
  · simp [updMod]

/-- An archived context's first write of an interval to a line writes an entry of the log, and nothing else of memory (R304). -/
theorem logsOnly_logLine {s : State} {l c x : Nat} (hx : x % 256 = 0) : LogsOnly s (logLine s l c x) := by
  unfold logLine
  split
  · exact .refl s
  · next ctx _ =>
    simp only
    split
    · exact .refl s
    · split
      · refine logsOnly_append _ (writeBytes_rest ..) (writeBytes_mod ..) fun y hy => memRead_writeBytes_other fun i hi => hy i ?_
        rw [archBytes_length] at hi
        simp only [readBytes_line_length hx] at hi
        exact hi
      · exact (logsOnly_updCtx ..).trans (logsOnly_raiseEvent ..)

/-- Every line of a run starts at a multiple of 256. -/
theorem linesOf_aligned {pa n x : Nat} (h : x ∈ linesOf pa n) : x % 256 = 0 := by
  simp only [linesOf, List.mem_map] at h
  obtain ⟨i, _, rfl⟩ := h
  omega

/-- The lines that a context writes are logged, and nothing else changes (R304). -/
theorem logsOnly_logRun (s : State) (l c pa n : Nat) : LogsOnly s (logRun s l c pa n) := by
  have : ∀ (ls : List Nat) (t : State), (∀ x ∈ ls, x % 256 = 0) → LogsOnly t (ls.foldl (fun t x => logLine t l c x) t) := by
    intro ls
    induction ls with
    | nil => exact fun t _ => .refl t
    | cons a r ih =>
      exact fun t h => (logsOnly_logLine (h a List.mem_cons_self)).trans (ih _ fun x hx => h x (List.mem_cons_of_mem _ hx))
  exact this _ _ fun x hx => linesOf_aligned hx

/-- A touch by another party marks entries of the log, and nothing else of memory changes (R305). -/
theorem logsOnly_touchLines (s : State) (who : Option (Nat × Nat)) (pa n : Nat) : LogsOnly s (touchLines s who pa n) := by
  unfold touchLines
  simp only
  generalize hq : s.mod.archive.filter (fun e => who != some (e.launch, e.core) && (linesOf pa n).contains e.line) = q
  have hsub : ∀ e ∈ q, e ∈ s.mod.archive := fun e he => (List.mem_filter.mp (hq ▸ he)).1
  have h1 := logsOnly_foldl (fun t (e : ArchEntry) => logsOnly_updCtx t e.launch e.core
    fun c => if c.interval == e.interval then { c with escaped := true } else c) q s
  generalize q.foldl _ s = s1 at h1
  have h2 : ∀ (ls : List ArchEntry) (t : State), (∀ e ∈ ls, ∃ e' ∈ t.mod.archive, e'.field = e.field ∧ e'.pos = e.pos) →
      LogsOnly t (ls.foldl (fun t e => writeBytes t (archAddr t e.field e.pos + 17) (bytesOf 1 1)) t) := by
    intro ls
    induction ls with
    | nil => exact fun t _ => .refl t
    | cons a r ih =>
      intro t h
      have hw : LogsOnly t (writeBytes t (archAddr t a.field a.pos + 17) (bytesOf 1 1)) := by
        refine ⟨rfl, rfl, fun e he => ⟨e, he, rfl, rfl⟩, fun y hy => memRead_writeBytes_other fun i hi hyi => hy ?_⟩
        obtain ⟨e', he', hf, hp⟩ := h a List.mem_cons_self
        rw [bytesOf_length] at hi
        exact ⟨e', he', 17 + i, by omega, by rw [hyi, hf, hp, Nat.add_assoc]⟩
      exact hw.trans (ih _ fun e he => h e (List.mem_cons_of_mem _ he))
  have h3 := h1.trans (h2 q s1 fun e he => h1.kept e (hsub e he))
  refine h3.trans ⟨rfl, rfl, fun e he => ?_, fun _ _ => rfl⟩
  simp only [updMod, List.mem_map]
  exact ⟨_, ⟨e, he, rfl⟩, by split <;> rfl, by split <;> rfl⟩

/-- Copies withdrawn from line caches (R188). -/
theorem logsOnly_withdrawLines (s : State) (who : Option (Nat × Nat)) (pa n : Nat) : LogsOnly s (withdrawLines s who pa n) :=
  ⟨rfl, rfl, fun e he => ⟨e, he, rfl, rfl⟩, fun _ _ => rfl⟩

/-- A store at its home is a write of its bytes, after what the log and the line caches take from it (R112, R188, R304, R305). -/
theorem storeAt_eq (s : State) (who : Option (Nat × Nat)) (pa : Nat) (l : List Byte) :
    ∃ u, LogsOnly s u ∧ storeAt s who pa l = writeBytes u pa l := by
  refine ⟨_, ?_, rfl⟩
  have h := (logsOnly_touchLines s who pa l.length).trans (logsOnly_withdrawLines _ who pa l.length)
  split
  · exact h.trans (logsOnly_logRun ..)
  · exact h

/-- A store at its home changes the bytes that it names and bytes of the log alone. -/
theorem sameOutside_storeAt {s : State} {who : Option (Nat × Nat)} {pa : Nat} {l : List Byte}
    (h : ∀ i, i < l.length → physOf s (pa + i) = physOf s pa + i) : SameOutside s (storeAt s who pa l) (physOf s pa) l.length := by
  obtain ⟨u, hu, he⟩ := storeAt_eq s who pa l
  intro x hx ha
  rw [he] at ha ⊢
  rw [memRead_writeBytes_other, hu.memory]
  · exact fun ⟨e, h1, i, h2⟩ => ha ⟨e, by rw [writeBytes_mod]; exact h1, i, h2⟩
  · intro i hi hxi
    rw [hu.physOf_eq, h i hi] at hxi
    exact hx (by omega)

/-- A store at its home reads back. -/
theorem memRead_storeAt {s : State} {who : Option (Nat × Nat)} {pa i : Nat} {l : List Byte}
    (h : ∀ i, i < l.length → physOf s (pa + i) = physOf s pa + i) (hi : i < l.length) :
    memRead (storeAt s who pa l).mem (physOf s pa + i) = l.getD i 0 := by
  obtain ⟨u, hu, he⟩ := storeAt_eq s who pa l
  rw [he, ← hu.physOf_eq]
  exact memRead_writeBytes (fun i hi => by rw [hu.physOf_eq, hu.physOf_eq, h i hi]) hi

end Sys2Proof.Machine
end

