-- ==== Sys2Proof/Laws/Arith.lean ====
section
/-!
SUPPORT. The integer readings of registers agree with those of the bit vectors that hold them, and wrapping an exact result is the
bit vector of that integer (R126).
-/
namespace Sys2Proof.Safety
open Sys2Proof.Machine

theorem natBit_eq (n i : Nat) : natBit n i = n.testBit i := by
  rw [natBit, Nat.testBit_eq_decide_div_mod_eq, Bool.eq_iff_iff]
  simp

theorem signedOf_lo32 (x : Word64) : signedOf 32 x.toNat = (lo32 x).toInt := by
  have h : (lo32 x).toNat = x.toNat % 2 ^ 32 := by simp [lo32, BitVec.extractLsb'_toNat]
  simp only [signedOf, BitVec.toInt_eq_msb_cond, BitVec.msb_eq_decide, h]
  have : natBit (x.toNat % 2 ^ 32) (32 - 1) = decide (2 ^ (32 - 1) ≤ x.toNat % 2 ^ 32) := by
    simp only [natBit]
    rw [Bool.eq_iff_iff]
    simp
    omega
  rw [this]

theorem asType_lo32 (sg : Bool) (x : Word64) : asType sg 32 x.toNat = read32 sg (lo32 x) := by
  cases sg
  · simp [asType, read32, lo32, BitVec.extractLsb'_toNat]
  · simp [asType, read32, signedOf_lo32]

theorem asType_word (sg : Bool) (x : Word) : asType sg 32 x.toNat = read32 sg x := by
  have h := asType_lo32 sg (x.zeroExtend 64)
  have e : lo32 (x.zeroExtend 64) = x := by
    apply BitVec.eq_of_toNat_eq
    simp only [lo32, BitVec.extractLsb'_toNat, BitVec.truncate_eq_setWidth, BitVec.toNat_setWidth]
    have := x.isLt
    omega
  rw [e] at h
  rw [← h]
  congr 1

theorem signedOf64 (x : Word64) : signedOf 64 x.toNat = x.toInt := by
  have h : x.toNat % 2 ^ 64 = x.toNat := Nat.mod_eq_of_lt x.isLt
  simp only [signedOf, BitVec.toInt_eq_msb_cond, BitVec.msb_eq_decide, h]
  have : natBit x.toNat (64 - 1) = decide (2 ^ (64 - 1) ≤ x.toNat) := by
    simp only [natBit]
    rw [Bool.eq_iff_iff]
    have := x.isLt
    simp
    omega
  rw [this]

theorem asType64 (sg : Bool) (x : Word64) : asType sg 64 x.toNat = read64 sg x := by
  cases sg
  · have h : x.toNat % 2 ^ 64 = x.toNat := Nat.mod_eq_of_lt x.isLt
    simp only [asType, read64, h]
    rfl
  · simp [asType, read64, signedOf64]

theorem ofNat_wrapInt32 (v : Int) : BitVec.ofNat 64 (wrapInt 32 v) = ext (BitVec.ofInt 32 v) := by
  apply BitVec.eq_of_toNat_eq
  simp [wrapInt, ext, BitVec.toNat_ofInt]


theorem ofNat_wrapInt64 (v : Int) : BitVec.ofNat 64 (wrapInt 64 v) = BitVec.ofInt 64 v := by
  apply BitVec.eq_of_toNat_eq
  simp only [wrapInt, BitVec.toNat_ofInt, BitVec.toNat_ofNat]
  exact Nat.mod_eq_of_lt (by omega)

theorem clampInt32 (sg : Bool) (v : Int) : BitVec.ofInt 32 (clampInt sg 32 v) = clamp32 sg v := by
  cases sg <;> simp [clampInt, clamp32, intMin, intMax]

theorem clampInt64 (sg : Bool) (v : Int) : BitVec.ofInt 64 (clampInt sg 64 v) = clamp64 sg v := by
  cases sg <;> simp [clampInt, clamp64, intMin, intMax]

theorem read32_emod (sg : Bool) (x : Word) : BitVec.ofInt 32 (read32 sg x) = x := by
  cases sg <;> simp [read32]
theorem read64_emod (sg : Bool) (x : Word64) : BitVec.ofInt 64 (read64 sg x) = x := by
  cases sg <;> simp [read64]

theorem ofInt_add_read32 (sg : Bool) (x y : Word) : BitVec.ofInt 32 (read32 sg x + read32 sg y) = x + y := by
  rw [BitVec.ofInt_add, read32_emod, read32_emod]
theorem ofInt_sub_read32 (sg : Bool) (x y : Word) : BitVec.ofInt 32 (read32 sg x - read32 sg y) = x - y := by
  rw [sub_eq_add_neg, BitVec.ofInt_add, BitVec.ofInt_neg, read32_emod, read32_emod, BitVec.sub_eq_add_neg]
theorem ofInt_add_read64 (sg : Bool) (x y : Word64) : BitVec.ofInt 64 (read64 sg x + read64 sg y) = x + y := by
  rw [BitVec.ofInt_add, read64_emod, read64_emod]
theorem ofInt_sub_read64 (sg : Bool) (x y : Word64) : BitVec.ofInt 64 (read64 sg x - read64 sg y) = x - y := by
  rw [sub_eq_add_neg, BitVec.ofInt_add, BitVec.ofInt_neg, read64_emod, read64_emod, BitVec.sub_eq_add_neg]

end Sys2Proof.Safety
end

