-- ==== Sys2Proof/Laws/Values.lean ====
section
/-!
SUPPORT. What the shared operations of the arithmetic groups do: a result, a guarded-off result, and the shape of every instruction
with one result.
-/
namespace Sys2Proof.Safety
open Sys2Proof.Machine

theorem SameMemory.refl (s : State) : SameMemory s s := fun _ => rfl

/-- Two changes of one member are one. -/
theorem OnlyMember.trans {s t u : State} {id : Nat} {m n : Member} (h : OnlyMember s t id m) (g : OnlyMember t u id n) :
    OnlyMember s u id n where
  rest := by rw [g.rest, h.rest]
  member := g.member
  others x hx := by rw [g.others x hx, h.others x hx]
  memory a := by rw [g.memory a, h.memory a]

theorem OnlyMember.same {s : State} {id : Nat} {m : Member} (h : memberAt s id = some m) : OnlyMember s s id m where
  rest := rfl
  member := h
  others _ _ := rfl
  memory _ := rfl

theorem onlyMember_updMember {s : State} {id : Nat} {m : Member} (h : memberAt s id = some m) (f : Member → Member) :
    OnlyMember s (updMember s id f) id (f m) where
  rest := rfl
  member := by simp [h]
  others _ hx := memberAt_updMember_other s f hx
  memory _ := rfl

/-- A write of a register changes the register, and the frame join where it is g63. -/
theorem onlyMember_writeG {s : State} {id : Nat} {m : Member} (h : memberAt s id = some m) (n : BitVec 6) (v : Word) :
    OnlyMember s (writeG s id n v) id
      { m with r := m.r.setG n v, joinTails := m.joinTails ++ if n == 63 then joinSet s id v else [] } :=
  onlyMember_updMember h _

theorem onlyMember_writeDst {s : State} {id : Nat} {m : Member} (h : memberAt s id = some m) (wide : Bool) (v : Word64) (d : Dst) :
    ∃ m' : Member, OnlyMember s (writeDst s id wide v d) id m' ∧ m' = { m with r := m'.r, joinTails := m'.joinTails } ∧
      m'.r = afterResult m.r d wide v ∧
      ((∀ n, d = .g n → n ≠ 63 ∧ (wide = true → n + 1 ≠ 63)) → m'.joinTails = m.joinTails) := by
  cases d with
  | g n =>
    cases wide with
    | false =>
      refine ⟨_, onlyMember_writeG h n _, rfl, rfl, fun hd => ?_⟩
      have a : (n == 63) = false := beq_false_of_ne (hd n rfl).1
      show m.joinTails ++ (if n == 63 then _ else []) = m.joinTails
      rw [a, if_neg Bool.false_ne_true, List.append_nil]
    | true =>
      have h1 := onlyMember_writeG h n (v.extractLsb' 0 32)
      have h2 := onlyMember_writeG h1.member (n + 1) (v.extractLsb' 32 32)
      refine ⟨_, h1.trans h2, rfl, rfl, fun hd => ?_⟩
      have a : (n == 63) = false := beq_false_of_ne (hd n rfl).1
      have b : (n + 1 == 63) = false := beq_false_of_ne ((hd n rfl).2 rfl)
      show (m.joinTails ++ (if n == 63 then _ else [])) ++ (if n + 1 == 63 then _ else []) = m.joinTails
      rw [a, b, if_neg Bool.false_ne_true, if_neg Bool.false_ne_true, List.append_nil, List.append_nil]
  | face f => exact ⟨_, onlyMember_updMember h _, rfl, rfl, fun _ => rfl⟩
  | pred p =>
    refine ⟨_, onlyMember_updMember h _, rfl, ?_, fun _ => rfl⟩
    simp only [afterResult]
    split
    · next hp => subst hp; rfl
    · rfl
  | none => exact ⟨m, OnlyMember.same h, rfl, rfl, fun _ => rfl⟩

theorem onlyMember_setLatch {s : State} {k : Cur} {m : Member} (h : memberAt s k.member = some m) (v : Word64) :
    OnlyMember s (setLatch s k v) k.member { m with lat := m.lat.set (k.slot % 4) v (Nat.mod_lt _ (by decide)) } :=
  onlyMember_updMember h _

/-- A result (R56, R60, R67). -/
theorem writes_result {s : State} {k : Cur} {m : Member} (h : memberAt s k.member = some m) (c : Common) (d : Dst) (wide : Bool)
    (v : Word64) : Writes s (result s k c d wide v) k m c.k d wide v := by
  unfold result
  cases hk : c.k with
  | true =>
    refine ⟨_, onlyMember_setLatch h v, rfl, ?_, rfl, fun _ => rfl⟩
    simp
  | false =>
    obtain ⟨m1, h1, e1, r1, j1⟩ := onlyMember_writeDst h wide v d
    refine ⟨_, h1.trans (onlyMember_setLatch h1.member v), ?_, ?_, ?_, ?_⟩
    · rw [e1]
    · simp [r1]
    · rw [e1]
    · intro hd
      simp only [Bool.false_eq_true, false_or] at hd
      exact j1 hd

/-- A guarded-off result (R60). -/
theorem writes_guardedOff {s : State} {k : Cur} {m : Member} (h : memberAt s k.member = some m) (d : Dst) (wide : Bool) :
    Writes s (guardedOff s d wide k m) k m true d wide (dstValue m wide d) := by
  refine ⟨_, onlyMember_setLatch h _, rfl, ?_, rfl, fun _ => rfl⟩
  simp

theorem readAll_length (s : State) (m : Member) (ops : List (Ty × Src)) (acc vs : List Word64)
    (h : readAll s m ops acc = .inr vs) : vs.length = acc.length + ops.length := by
  induction ops generalizing acc with
  | nil => simp only [readAll, Sum.inr.injEq] at h; subst h; simp
  | cons o r ih =>
    obtain ⟨t, x⟩ := o
    simp only [readAll] at h
    split at h
    · have := ih _ h
      simp only [List.length_cons] at this ⊢
      omega
    · simp at h

/-- A form whose meaning is `runForm` with the checks of its operands and destination. -/
theorem valueFormAlso_of {mk : Common → Instr} {d : Dst} {wide : Bool} {ops : List (Ty × Src)}
    {f : State → Member → List Word64 → Word64} {also : Bool → Member → List Word64 → Regs → Regs}
    {run : State → Common → Cur → Member → List Word64 → State}
    (hx : ∀ s c, exec (mk c) s = runForm s c (fun m => formFault m d wide ops) ops (guardedOff s d wide) (run s c))
    (hr : ∀ s c k m vs, memberAt s k.member = some m → vs.length = ops.length →
      Writes s (run s c k m vs) k m c.k d wide (f s m vs) (also c.k m vs)) : ValueFormAlso mk d wide ops f also := by
  intro s k m c h
  rw [hx]
  simp only [runForm, onIssuing, h.cur, h.member]
  refine ⟨fun x hf => by simp [hf], fun hf => ⟨fun ho => ?_, fun hr' => ⟨fun vs hv => ?_, fun e g tg a ha => ?_⟩⟩⟩
  · refine ⟨_, ?_, writes_guardedOff h.member d wide⟩
    simp [hf, show m.r.getP c.guard = c.sense from ho]
  · refine ⟨_, ?_, hr s c k m vs h.member ?_⟩
    · simp [hf, show ¬ m.r.getP c.guard = c.sense from hr', hv]
    · simpa using readAll_length s m ops [] vs hv
  · simp [hf, show ¬ m.r.getP c.guard = c.sense from hr', ha]

/-- A form whose meaning is `valueInstr`. -/
theorem valueForm_of {mk : Common → Instr} {d : Dst} {wide : Bool} {ops : List (Ty × Src)}
    {f : State → Member → List Word64 → Word64} {g : List Word64 → Word64}
    (hx : ∀ s c, exec (mk c) s = valueInstr s c d wide ops g)
    (hf : ∀ s m vs, vs.length = ops.length → g vs = f s m vs) : ValueForm mk d wide ops f := by
  refine valueFormAlso_of (run := fun s c k _ vs => result s k c d wide (g vs)) hx fun s c k m vs hm hl => ?_
  rw [hf s m vs hl]
  exact writes_result hm c d wide _

end Sys2Proof.Safety
end

