-- ==== Sys2Proof/Laws/Forms.lean ====
section
/-!
SUPPORT. What the operations shared by the other groups do: leaving a group, one core, one context, and the shapes of instructions that
are no producers.
-/
namespace Sys2Proof.Safety
open Sys2Proof.Machine

/-- Leaving a group (R117). -/
theorem leaves_leaveGroup {s : State} {k : Cur} {m : Member} (h : memberAt s k.member = some m) (w : Wait) :
    Leaves s (leaveGroup s k.member k.slot w) k m w := by
  unfold leaveGroup
  rw [h]
  refine ⟨rfl, ?_, fun n hn => ?_, ?_, fun g hg => ?_⟩
  · simp [h]
  · simp [memberAt_updMember_other _ _ hn]
  · simp
  · simp [coreAt_setCore_other _ _ hg]

theorem Leaves.memory {s t : State} {k : Cur} {m : Member} {w : Wait} (h : Leaves s t k m w) : SameMemory s t := by
  intro a
  rw [h.rest]

theorem onlyCore_updCore (s : State) (g : Nat) (f : CoreUnit → CoreUnit) : OnlyCore s (updCore s g f) g (f (coreAt s g)) where
  rest := rfl
  core := by simp
  others h hh := coreAt_updCore_other s f hh

theorem onlyField_updField (s : State) (g : Nat) (f : FieldUnit → FieldUnit) :
    OnlyField s (updField s g f) g (f (fieldAt s g)) where
  rest := rfl
  field := by simp
  others h hh := fieldAt_updField_other s f hh

theorem onlyCtx_updCtx (s : State) (l g : Nat) (f : Ctx → Ctx) : OnlyCtx s (updCtx s l g f) l g f where
  rest := rfl
  ctx := by simp [ctxAt, updCtx]
  others n hn := by simp [updCtx, tabGet_tabUpd_other _ _ hn]

theorem onlyMod_updMod (s : State) (f : ModuleUnit → ModuleUnit) : OnlyMod s (updMod s f) (f s.mod) := rfl

/-- A form whose meaning is `runForm` and whose guarded-off effect is none. -/
theorem actForm_of {mk : Common → Instr} {check : State → Member → Option Nat} {ops : List (Ty × Src)}
    {P : State → Cur → Member → List Word64 → State → Prop} {run : State → Common → Cur → Member → List Word64 → State}
    (hx : ∀ s c, exec (mk c) s = runForm s c (check s) ops (fun _ _ => s) (run s c))
    (hr : ∀ s c k m vs, Issuing s k m → check s m = none → vs.length = ops.length → P s k m vs (run s c k m vs)) :
    ActForm mk check ops P := by
  intro s k m c h
  rw [hx]
  simp only [runForm, onIssuing, h.cur, h.member]
  refine ⟨fun x hf => by simp [hf], fun hf => ⟨fun ho => ?_, fun hr' => ⟨fun vs hv => ?_, fun d g tg a ha => ?_⟩⟩⟩
  · simp [hf, show m.r.getP c.guard = c.sense from ho]
  · refine ⟨_, ?_, hr s c k m vs h hf ?_⟩
    · simp [hf, show ¬ m.r.getP c.guard = c.sense from hr', hv]
    · simpa using readAll_length s m ops [] vs hv
  · simp [hf, show ¬ m.r.getP c.guard = c.sense from hr', ha]

/-- A form whose meaning is `runForm` and which keeps its destination's value in the latch where it is guarded off. -/
theorem producerForm_of {mk : Common → Instr} {check : State → Member → Option Nat} {d : Dst} {wide : Bool}
    {ops : List (Ty × Src)} {P : State → Cur → Member → Common → List Word64 → State → Prop}
    {run : State → Common → Cur → Member → List Word64 → State}
    (hx : ∀ s c, exec (mk c) s = runForm s c (check s) ops (guardedOff s d wide) (run s c))
    (hr : ∀ s c k m vs, Issuing s k m → check s m = none → vs.length = ops.length → P s k m c vs (run s c k m vs)) :
    ProducerForm mk check d wide ops P := by
  intro s k m c h
  rw [hx]
  simp only [runForm, onIssuing, h.cur, h.member]
  refine ⟨fun x hf => by simp [hf], fun hf => ⟨fun ho => ?_, fun hr' => ⟨fun vs hv => ?_, fun d g tg a ha => ?_⟩⟩⟩
  · exact ⟨_, by simp [hf, show m.r.getP c.guard = c.sense from ho], writes_guardedOff h.member d wide⟩
  · refine ⟨_, ?_, hr s c k m vs h hf ?_⟩
    · simp [hf, show ¬ m.r.getP c.guard = c.sense from hr', hv]
    · simpa using readAll_length s m ops [] vs hv
  · simp [hf, show ¬ m.r.getP c.guard = c.sense from hr', ha]

/-- Lists of a known length. -/
theorem eq_nil_of_len {l : List Word64} (h : l.length = 0) : l = [] := List.eq_nil_of_length_eq_zero h
theorem eq_one_of_len {l : List Word64} (h : l.length = 1) : ∃ x, l = [x] := List.length_eq_one_iff.mp h
theorem eq_two_of_len {l : List Word64} (h : l.length = 2) : ∃ x y, l = [x, y] := List.length_eq_two.mp h

/-- A control form without operands. -/
theorem actForm_control {mk : Common → Instr} {check : Member → Option Nat} {P : State → Cur → Member → State → Prop}
    {run : State → Cur → Member → State} (hx : ∀ s c, exec (mk c) s = controlInstr s c check (run s))
    (hr : ∀ s k m, Issuing s k m → check m = none → P s k m (run s k m)) :
    ActForm mk (fun _ => check) [] (arg0 P) := by
  refine actForm_of (run := fun s _ k m _ => run s k m) hx fun s c k m vs hi hc hl => ?_
  rw [eq_nil_of_len hl]
  exact hr s k m hi hc

/-- A form of one operand. -/
theorem actForm_one {mk : Common → Instr} {check : State → Member → Option Nat} {o : Ty × Src}
    {P : State → Cur → Member → Word64 → State → Prop} {run : State → Common → Cur → Member → List Word64 → State}
    (hx : ∀ s c, exec (mk c) s = runForm s c (check s) [o] (fun _ _ => s) (run s c))
    (hr : ∀ s c k m x, Issuing s k m → check s m = none → P s k m x (run s c k m [x])) :
    ActForm mk check [o] (arg1 P) := by
  refine actForm_of hx fun s c k m vs hi hc hl => ?_
  obtain ⟨x, rfl⟩ := eq_one_of_len hl
  exact hr s c k m x hi hc

/-- A form of two operands. -/
theorem actForm_two {mk : Common → Instr} {check : State → Member → Option Nat} {o p : Ty × Src}
    {P : State → Cur → Member → Word64 → Word64 → State → Prop} {run : State → Common → Cur → Member → List Word64 → State}
    (hx : ∀ s c, exec (mk c) s = runForm s c (check s) [o, p] (fun _ _ => s) (run s c))
    (hr : ∀ s c k m x y, Issuing s k m → check s m = none → P s k m x y (run s c k m [x, y])) :
    ActForm mk check [o, p] (arg2 P) := by
  refine actForm_of hx fun s c k m vs hi hc hl => ?_
  obtain ⟨x, y, rfl⟩ := eq_two_of_len hl
  exact hr s c k m x y hi hc

end Sys2Proof.Safety
end

