-- ==== Sys2Proof/Laws/Members.lean ====
section
/-!
SUPPORT. What happens to a member at a clause boundary and when it leaves.
-/
namespace Sys2Proof.Safety
open Sys2Proof.Machine

@[simp] theorem memberAt_retireEntry (s : State) (g l : Nat) (c : Option Nat) (w n : Nat) :
    memberAt (retireEntry s g l c w) n = memberAt s n := by cases c <;> rfl
@[simp] theorem mem_retireEntry (s : State) (g l : Nat) (c : Option Nat) (w : Nat) : (retireEntry s g l c w).mem = s.mem := by
  cases c <;> rfl
@[simp] theorem memberAt_retireLater (s : State) (g l : Nat) (c : Option Nat) (w n : Nat) :
    memberAt (retireLater s g l c w) n = memberAt s n := rfl
@[simp] theorem mem_retireLater (s : State) (g l : Nat) (c : Option Nat) (w : Nat) : (retireLater s g l c w).mem = s.mem := rfl

@[simp] theorem memberAt_retireAs (s : State) (id cat w n : Nat) : memberAt (retireAs s id cat w) n = memberAt s n := by
  unfold retireAs
  split
  · rfl
  · split <;> simp

@[simp] theorem mem_retireAs (s : State) (id cat w : Nat) : (retireAs s id cat w).mem = s.mem := by
  unfold retireAs
  split
  · rfl
  · split <;> simp

@[simp] theorem mem_settle (s : State) (id : Nat) : (settle s id).mem = s.mem := by
  unfold settle
  split <;> simp

theorem memberAt_settle_other (s : State) {id n : Nat} (h : n ≠ id) : memberAt (settle s id) n = memberAt s n := by
  unfold settle
  split
  · rfl
  · exact memberAt_updMember_other _ _ h

/-- A clause boundary (R113, R143). -/
theorem memberAt_settle {s : State} {id : Nat} {m : Member} (h : memberAt s id = some m) :
    memberAt (settle s id) id = some { m with wait := m.boundaryWait (openJoins s m), joinTails := openJoins s m,
                                              readySince := (coreAt s m.core).cyc } := by
  unfold settle
  rw [h]
  simp [h]

/-- The end of a clause (R59, R60). -/
theorem memberAt_endClause {s : State} {id : Nat} {m : Member} (h : memberAt s id = some m) (ht : m.terminating = false)
    (pc n : Nat) : ∃ v, memberAt (endClause s id pc n) id = some v ∧
      v = { m.afterClause pc n with wait := v.wait, joinTails := v.joinTails, readySince := v.readySince } := by
  unfold endClause
  rw [h]
  simp only [ht, Bool.false_eq_true, if_false]
  have h1 : memberAt (updMember s id fun v => v.afterClause pc n) id = some (m.afterClause pc n) := by simp [h]
  exact ⟨_, memberAt_settle h1, rfl⟩

theorem mem_endClause {s : State} {id : Nat} {m : Member} (h : memberAt s id = some m) (ht : m.terminating = false)
    (pc n : Nat) : (endClause s id pc n).mem = s.mem := by
  unfold endClause
  rw [h]
  simp [ht]

theorem memberAt_endClause_other {s : State} {id : Nat} {m : Member} (h : memberAt s id = some m) (ht : m.terminating = false)
    (pc n : Nat) {x : Nat} (hx : x ≠ id) : memberAt (endClause s id pc n) x = memberAt s x := by
  unfold endClause
  rw [h]
  simp only [ht, Bool.false_eq_true, if_false]
  rw [memberAt_settle_other _ hx, memberAt_updMember_other _ _ hx]

@[simp] theorem mem_strandFaults (s : State) (id : Nat) (m : Member) : (strandFaults s id m).mem = s.mem := by
  unfold strandFaults
  simp only [updMember_mem]
  generalize m.async = l
  induction l generalizing s with
  | nil => rfl
  | cons x r ih => rw [List.foldl_cons, ih]; rfl

theorem memberAt_strandFaults (s : State) (id : Nat) (m : Member) (n : Nat) :
    memberAt (strandFaults s id m) n = (if n = id then (memberAt s n).map fun v => { v with async := [] } else memberAt s n) := by
  unfold strandFaults
  have : ∀ (l : List FaultInfo) (t : State),
      memberAt (l.foldl (fun t fi => sendRecord t (faultRecord t m fi fi.cause fi.detail)) t) n = memberAt t n := by
    intro l
    induction l with
    | nil => intro t; rfl
    | cons x r ih => intro t; rw [List.foldl_cons, ih]; rfl
  split
  · next h => subst h; simp [this]
  · next h => rw [memberAt_updMember_other _ _ h, this]

@[simp] theorem mem_endTrapTime (s : State) (m : Member) : (endTrapTime s m).mem = s.mem := by
  unfold endTrapTime
  split <;> simp
@[simp] theorem memberAt_endTrapTime (s : State) (m : Member) (n : Nat) : memberAt (endTrapTime s m) n = memberAt s n := by
  unfold endTrapTime
  split <;> simp

@[simp] theorem mem_escapeFace (s : State) (m : Member) (g : Nat) : (escapeFace s m g).mem = s.mem := rfl
@[simp] theorem memberAt_escapeFace (s : State) (m : Member) (g n : Nat) : memberAt (escapeFace s m g) n = memberAt s n := rfl

theorem mem_foldl_escape (m : Member) (f : SpanWait → Nat) (l : List SpanWait) (s : State) :
    (l.foldl (fun t w => escapeFace t m (f w)) s).mem = s.mem := by
  induction l generalizing s with
  | nil => rfl
  | cons x r ih => rw [List.foldl_cons, ih]; rfl
theorem memberAt_foldl_escape (m : Member) (f : SpanWait → Nat) (n : Nat) (l : List SpanWait) (s : State) :
    memberAt (l.foldl (fun t w => escapeFace t m (f w)) s) n = memberAt s n := by
  induction l generalizing s with
  | nil => rfl
  | cons x r ih => rw [List.foldl_cons, ih]; rfl

@[simp] theorem mem_answerSpan (s : State) (n : Nat) (m : Member) : (answerSpan s n m).mem = s.mem := by
  simp [answerSpan, mem_foldl_escape]
@[simp] theorem memberAt_answerSpan (s : State) (k : Nat) (m : Member) (n : Nat) : memberAt (answerSpan s k m) n = memberAt s n := by
  simp [answerSpan, memberAt_foldl_escape]
@[simp] theorem mem_serveSpanReads (s : State) (m : Member) : (serveSpanReads s m).mem = s.mem := by
  unfold serveSpanReads
  split <;> simp
@[simp] theorem memberAt_serveSpanReads (s : State) (m : Member) (n : Nat) : memberAt (serveSpanReads s m) n = memberAt s n := by
  unfold serveSpanReads
  split <;> simp
@[simp] theorem mem_reportSteps (s : State) (m : Member) (k : Nat) : (reportSteps s m k).mem = s.mem := by
  unfold reportSteps
  split <;> simp
@[simp] theorem memberAt_reportSteps (s : State) (m : Member) (k n : Nat) : memberAt (reportSteps s m k) n = memberAt s n := by
  unfold reportSteps
  split <;> simp
/-- The end of a fence changes nothing of a member that has left but its tokens, what it is owed and its fences, and whether it has
triggered, and nothing of memory and of the other members. -/
structure FenceQuiet (s t : State) (id : Nat) : Prop where
  quiet : ∀ v, memberAt s id = some v → v.wait = .inactive → t.mem = s.mem ∧ (∀ n, n ≠ id → memberAt t n = memberAt s n) ∧
    ∃ v', memberAt t id = some v' ∧ v'.wait = .inactive ∧ v'.kind = v.kind ∧ v'.r = v.r ∧ v'.pub0 = v.pub0 ∧ v'.pub1 = v.pub1 ∧
      v'.done = v.done ∧ v'.place = v.place ∧ v'.departed = v.departed ∧ (v.triggered = true → v'.triggered = true)

theorem FenceQuiet.refl (s : State) (id : Nat) : FenceQuiet s s id :=
  ⟨fun v h hw => ⟨rfl, fun _ _ => rfl, v, h, hw, rfl, rfl, rfl, rfl, rfl, rfl, rfl, fun h => h⟩⟩

theorem FenceQuiet.trans {s t u : State} {id : Nat} (h : FenceQuiet s t id) (g : FenceQuiet t u id) : FenceQuiet s u id := by
  refine ⟨fun v hv hw => ?_⟩
  obtain ⟨a1, a2, w, b0, b1, b2, b3, b4, b5, b6, b7, b8, b9⟩ := h.quiet v hv hw
  obtain ⟨c1, c2, x, d0, d1, d2, d3, d4, d5, d6, d7, d8, d9⟩ := g.quiet w b0 b1
  exact ⟨c1.trans a1, fun n hn => (c2 n hn).trans (a2 n hn), x, d0, d1, d2.trans b2, d3.trans b3, d4.trans b4, d5.trans b5,
    d6.trans b6, d7.trans b7, d8.trans b8, d9 ∘ b9⟩

theorem FenceQuiet.foldl {α : Type} {id : Nat} {f : State → α → State} (h : ∀ s a, FenceQuiet s (f s a) id) (l : List α) (s : State) :
    FenceQuiet s (l.foldl f s) id := by
  induction l generalizing s with
  | nil => exact .refl ..
  | cons a r ih => exact (h s a).trans (ih _)

/-- A change of the member alone that keeps these fields. -/
theorem FenceQuiet.ofMember {s : State} {id : Nat} {f : Member → Member}
    (h : ∀ v, (f v).wait = v.wait ∧ (f v).kind = v.kind ∧ (f v).r = v.r ∧ (f v).pub0 = v.pub0 ∧ (f v).pub1 = v.pub1 ∧
      (f v).done = v.done ∧ (f v).place = v.place ∧ (f v).departed = v.departed ∧ (v.triggered = true → (f v).triggered = true)) :
    FenceQuiet s (updMember s id f) id := by
  refine ⟨fun v hv hw => ?_⟩
  obtain ⟨a0, a1, a2, a3, a4, a5, a6, a7, a8⟩ := h v
  exact ⟨rfl, fun n hn => memberAt_updMember_other _ _ hn, f v, by simp [hv], a0.trans hw, a1, a2, a3, a4, a5, a6, a7, a8⟩

theorem setTok_kept (v : Member) (c n : Nat) : (v.setTok c n).wait = v.wait ∧ (v.setTok c n).kind = v.kind ∧ (v.setTok c n).r = v.r ∧
    (v.setTok c n).pub0 = v.pub0 ∧ (v.setTok c n).pub1 = v.pub1 ∧ (v.setTok c n).done = v.done ∧ (v.setTok c n).place = v.place ∧
    (v.setTok c n).departed = v.departed ∧ (v.triggered = true → (v.setTok c n).triggered = true) := by
  unfold Member.setTok
  split <;> simp

theorem quiet_tokDec (s : State) (id c : Nat) : FenceQuiet s (tokDec s id c) id := by
  refine ⟨fun v hv hw => ?_⟩
  have e : tokDec s id c = updMember s id fun m => m.setTok c (tokCount m c - 1) := by
    unfold tokDec
    have hk := (setTok_kept v c (tokCount v c - 1)).1
    simp [hv, maskClears, hk, hw]
  rw [e]
  exact (FenceQuiet.ofMember fun v => setTok_kept v c _).quiet v hv hw

theorem quiet_retireAs (s : State) (id cat w : Nat) : FenceQuiet s (retireAs s id cat w) id :=
  ⟨fun v h hw => ⟨by simp, fun _ _ => by simp, v, by simp [h], hw, rfl, rfl, rfl, rfl, rfl, rfl, rfl, fun h => h⟩⟩

theorem quiet_clearFence (s : State) (id : Nat) (f : FenceRec) : FenceQuiet s (clearFence s id f) id := by
  have h1 : FenceQuiet s (match f.tok with | some t => tokDec (retireAs s id 7 1) id t | none => s) id := by
    cases f.tok with
    | none => exact .refl ..
    | some t => exact (quiet_retireAs ..).trans (quiet_tokDec ..)
  unfold clearFence
  cases f.acq with
  | false => exact h1
  | true => exact h1.trans (.ofMember fun v => ⟨rfl, rfl, rfl, rfl, rfl, rfl, rfl, rfl, fun h => h⟩)

theorem quiet_countTrig (s : State) (id : Nat) : FenceQuiet s (countTrig s id) id := by
  refine ⟨fun v hv hw => ?_⟩
  unfold countTrig
  rw [hv]
  simp only
  by_cases ht : v.triggered = true
  · rw [if_pos ht]
    exact (FenceQuiet.refl s id).quiet v hv hw
  · rw [if_neg ht]
    refine ⟨rfl, fun n hn => by simp [memberAt_updMember_other _ _ hn], { v with triggered := true }, by simp [hv], hw, ?_⟩
    simp

theorem quiet_endFence (s : State) (id : Nat) (f : FenceRec) : FenceQuiet s (endFence s id f) id := by
  unfold endFence
  cases f.trig with
  | false => exact quiet_clearFence ..
  | true => exact (quiet_clearFence ..).trans (quiet_countTrig ..)

theorem quiet_fences (s : State) (id : Nat) (l : Member → List FenceRec) :
    FenceQuiet s (updMember s id fun v => { v with fences := l v }) id :=
  .ofMember fun _ => ⟨rfl, rfl, rfl, rfl, rfl, rfl, rfl, rfl, fun h => h⟩

theorem quiet_settleFences (s : State) (id : Nat) : FenceQuiet s (settleFences s id) id := by
  unfold settleFences
  split
  · exact .refl ..
  · refine FenceQuiet.trans (quiet_fences s id fun _ => _) (FenceQuiet.foldl (fun t f => ?_) _ _)
    split
    · exact quiet_endFence ..
    · exact quiet_clearFence ..

theorem quiet_countDeparture (s : State) (id : Nat) (m : Member) : FenceQuiet s (countDeparture s id m) id := by
  unfold countDeparture fence
  split
  · exact .refl ..
  · split
    · exact .refl ..
    · exact FenceQuiet.trans (quiet_fences s id fun v => v.fences ++ _) (quiet_settleFences ..)

@[simp] theorem applied_nil (s : State) : applied s [] = true := rfl

/-- The one fence of a member, with nothing to wait for, ends and counts its TRIG at once. -/
theorem settleFences_trig {s : State} {id : Nat} {v : Member} {f : FenceRec} (h : memberAt s id = some v) (hf : v.fences = [f])
    (hw : f.waits = []) (hr : f.reads = []) (hn : f.need = []) (ht : f.tok = none) (ha : f.acq = false) (hg : f.trig = true) :
    settleFences s id = countTrig (updMember s id fun v => { v with fences := [] }) id := by
  simp [settleFences, h, hf, hw, hr, hn, endFence, clearFence, ht, ha, hg]

/-- A departure with nothing to release counts at once (R89, R90). -/
theorem triggered_countDeparture {s : State} {id : Nat} {m v : Member} (h : memberAt s id = some v) (hm : m.triggered = false)
    (hf : v.fences = []) (hs : fenceSet s id .pod = []) (hn : releaseNeed s v .pod = []) :
    ∃ w, memberAt (countDeparture s id m) id = some w ∧ w.triggered = true := by
  have hk (f : FenceRec) : memberAt (updMember s id fun v => { v with fences := v.fences ++ [f] }) id = some { v with fences := [f] } := by
    simp [h, hf]
  unfold countDeparture fence
  simp only [hm, h, Bool.false_eq_true, if_false]
  rw [settleFences_trig (hk _) rfl (by simp [hs, hf]) rfl (by simp [hn, hf]) rfl rfl rfl]
  simp only [countTrig, memberAt_updMember_same, h, Option.map_some]
  cases ht : v.triggered <;> simp [h, ht]

@[simp] theorem mem_dropSwait (s : State) (id : Nat) : (dropSwait s id).mem = s.mem := rfl
@[simp] theorem memberAt_dropSwait (s : State) (id n : Nat) : memberAt (dropSwait s id) n = memberAt s n := rfl

end Sys2Proof.Safety
end

