-- ==== Sys2Proof/Laws/Steps.lean ====
section
/-!
SUPPORT. What the shared operations behind STEP, EXIT and the leaving of a group do, said once: a step that is due, its commit, and
the departure of a member.
-/
set_option linter.constructorNameAsVariable false
namespace Sys2Proof.Machine
open Sys2Proof.Safety

/-- `stepReady` decides whether a step may commit. -/
theorem stepReady_iff (s : State) (id : Nat) (m : Member) : stepReady s id m = true ↔ StepDue s id m := by
  unfold stepReady StepDue
  cases h : launchAt s m.launch with
  | none => simp
  | some l =>
    simp only [Option.some.injEq, forall_eq', Bool.and_eq_true, List.all_eq_true, Bool.not_eq_true', ← Bool.not_eq_true, List.any_eq_true, not_exists, not_and]
    refine and_congr (forall₂_congr fun n hn => ?_) ?_
    · unfold neighbourDone
      cases cellAt s m.launch n <;> simp [published]
    · simp only [ownAccs, List.mem_filter, beq_iff_eq, and_imp]
      refine forall₂_congr fun e he => forall_congr' fun hm => ?_
      unfold writesFace
      cases hd : e.2.dest <;> simp

theorem logsOnly_logVitrine (s : State) (m : Member) : LogsOnly s (logVitrine s m) := by
  unfold logVitrine
  split
  · exact logsOnly_logRun ..
  · exact .refl s

@[simp] theorem archive_reportSteps (s : State) (m : Member) (k : Nat) : (reportSteps s m k).mod.archive = s.mod.archive := by
  unfold reportSteps
  split <;> rfl
theorem archive_foldl_escape (m : Member) (f : SpanWait → Nat) (l : List SpanWait) (s : State) :
    (l.foldl (fun t w => escapeFace t m (f w)) s).mod.archive = s.mod.archive := by
  induction l generalizing s with
  | nil => rfl
  | cons x r ih => rw [List.foldl_cons, ih]; rfl
@[simp] theorem archive_serveSpanReads (s : State) (m : Member) : (serveSpanReads s m).mod.archive = s.mod.archive := by
  unfold serveSpanReads
  split
  · rfl
  · exact (archive_foldl_escape ..)

/-- The commit of a step. -/
theorem committed_commitStep {s : State} {id : Nat} {m : Member} (h : memberAt s id = some m) (mask : BitVec 8) :
    Committed s (commitStep s id mask) id m mask := by
  have hl := logsOnly_logVitrine s m
  unfold commitStep
  rw [h]
  refine ⟨fun a ha => ?_, fun n hn => by simp [markProgress, memberAt_updMember_other _ _ hn, hl.memberAt_eq],
    ⟨m.commit mask (archInterval s m), by simp [markProgress, h, hl.memberAt_eq], ?_⟩⟩
  · have := hl.memory a fun ⟨e, he, i, hi⟩ => ha ⟨e, by simpa [markProgress] using he, i, hi⟩
    simpa [markProgress] using this
  unfold Member.commit
  by_cases hp : (m.done + 1) % 2 = 0
  · have h2 : ¬ m.done % 2 = 0 := by omega
    simp [hp, h2, pubAt, publish, Regs.getF, Vector.getElem_ofFn]
    exact fun f => rfl
  · have h2 : m.done % 2 = 0 := by omega
    simp [hp, h2, pubAt, publish, Regs.getF, Vector.getElem_ofFn]
    exact fun f => rfl

/-- A member asks other modules for their steps and leaves its group. -/
theorem leaves_ask {s : State} {k : Cur} {m : Member} (h : memberAt s k.member = some m) (w : Wait) :
    Leaves { s with mod := (leaveGroup (askRemoteSteps s m) k.member k.slot w).mod } (leaveGroup (askRemoteSteps s m) k.member k.slot w) k m w := by
  have e : ∃ u, askRemoteSteps s m = { s with mod := u } := by
    unfold askRemoteSteps
    split
    · exact ⟨s.mod, rfl⟩
    · exact ⟨_, rfl⟩
  obtain ⟨u, e⟩ := e
  rw [e, leaveGroup_mod]
  exact leaves_leaveGroup (s := { s with mod := u }) h w

theorem memberAt_of_members {s t : State} (h : s.members = t.members) (n : Nat) : memberAt s n = memberAt t n := by
  unfold memberAt; rw [h]

/-- A member about to leave stands in no group and no queue, and reads no face. -/
def detached (s : State) (id : Nat) (m : Member) : State :=
  let s1 := updCore (dropSwait s id) m.core fun u => { dropFromGroup id u with dqWaiters := u.dqWaiters.filter (· != id) }
  { s1 with nbrs := s1.nbrs.filter fun e => e.2.reader != id }

@[simp] theorem mem_detached (s : State) (id : Nat) (m : Member) : (detached s id m).mem = s.mem := rfl
@[simp] theorem memberAt_detached (s : State) (id : Nat) (m : Member) (n : Nat) : memberAt (detached s id m) n = memberAt s n := rfl

/-- Its faults have no handler to go to, and a trap it was in ends. -/
def leaving (s : State) (id : Nat) (m : Member) : State :=
  let s2 := strandFaults (detached s id m) id m
  if m.trapMode then endTrapTime (updMember s2 id fun v => { v with trapMode := false }) m else s2

theorem leaveMember_grid {s : State} {id : Nat} {m : Member} (h : memberAt s id = some m) (hk : m.kind = .grid) :
    leaveMember s id = serveSpanReads (reportSteps (countDeparture (updMember (leaving s id m) id fun m =>
      { m with departed := true, place := .gone, wait := .inactive, terminating := false, moveTo := none, put := {} }) id m) m departedSteps)
      { m with departed := true } := by
  unfold leaveMember
  rw [h]
  simp only [hk]
  rfl
theorem leaveMember_task {s : State} {id : Nat} {m : Member} (h : memberAt s id = some m) (hk : m.kind = .task) :
    leaveMember s id = updMember (leaving s id m) id fun m =>
      { m with place := .gone, wait := .inactive, terminating := false, moveTo := none, put := {} } := by
  unfold leaveMember
  rw [h]
  simp only [hk]
  rfl
theorem leaveMember_curator {s : State} {id : Nat} {m : Member} (h : memberAt s id = some m) (hk : m.kind = .curator) :
    leaveMember s id = updMember (leaving s id m) id fun m =>
      { m with wait := .inactive, terminating := false, moveTo := none, put := {} } := by
  unfold leaveMember
  rw [h]
  simp only [hk]
  rfl

@[simp] theorem mem_leaving (s : State) (id : Nat) (m : Member) : (leaving s id m).mem = s.mem := by
  unfold leaving
  by_cases ht : m.trapMode = true <;> simp [ht]
theorem memberAt_leaving_other (s : State) {id n : Nat} (m : Member) (h : n ≠ id) : memberAt (leaving s id m) n = memberAt s n := by
  unfold leaving
  by_cases ht : m.trapMode = true <;> simp [ht, h, memberAt_strandFaults, memberAt_updMember_other]
theorem memberAt_leaving {s : State} {id : Nat} {m : Member} (h : memberAt s id = some m) :
    memberAt (leaving s id m) id = some { m with async := [], trapMode := false } := by
  unfold leaving
  by_cases ht : m.trapMode = true
  · simp [ht, memberAt_strandFaults, h]
  · simp only [Bool.not_eq_true] at ht
    have e : { m with async := [], trapMode := false } = { m with async := [] } := by rw [← ht]
    simp [ht, memberAt_strandFaults, h, e]

/-- Where there is nothing that a fence covers, there is nothing after accesses have gone. -/
theorem fenceSet_mono {s t : State} (ha : ∀ e ∈ t.accs, e ∈ s.accs) (hl : ∀ n, (coreAt t n).log = (coreAt s n).log) {id : Nat}
    {scope : MScope} (h : fenceSet s id scope = []) : fenceSet t id scope = [] := by
  unfold fenceSet fenceAll ownAccs isHeld at h ⊢
  simp only [List.filter_filter, List.filter_eq_nil_iff, hl] at h ⊢
  exact fun e he => h e (ha e he)

theorem releaseNeed_congr {s t : State} (hf : t.fields = s.fields) (hp : t.pkts = s.pkts) {m v : Member} (hs : v.seq = m.seq)
    (ho : v.owed = m.owed) (hc : v.core = m.core) (scope : MScope) : releaseNeed t v scope = releaseNeed s m scope := by
  have e : openPackets t = openPackets s := by unfold openPackets; rw [hf, hp]
  unfold releaseNeed applied fieldAt
  rw [e, hf, hs, ho, hc]

/-- A leaving member touches its context's clock, the records, and no other unit than its core. -/
theorem leaving_units (s : State) (id : Nat) (m : Member) : (leaving s id m).accs = (dropSwait s id).accs ∧
    (leaving s id m).fields = s.fields ∧ (leaving s id m).pkts = s.pkts ∧
    (leaving s id m).cores = (detached s id m).cores ∧ (leaving s id m).quads = s.quads := by
  have hf : ∀ (l : List FaultInfo) (t : State),
      let u := l.foldl (fun t fi => sendRecord t (faultRecord t m fi fi.cause fi.detail)) t
      u.accs = t.accs ∧ u.fields = t.fields ∧ u.pkts = t.pkts ∧ u.cores = t.cores ∧ u.quads = t.quads := by
    intro l
    induction l with
    | nil => intro t; exact ⟨rfl, rfl, rfl, rfl, rfl⟩
    | cons x r ih => intro t; exact ih _
  have h := hf m.async (detached s id m)
  have he : ∀ t : State, (endTrapTime t m).accs = t.accs ∧ (endTrapTime t m).fields = t.fields ∧ (endTrapTime t m).pkts = t.pkts ∧
      (endTrapTime t m).cores = t.cores ∧ (endTrapTime t m).quads = t.quads := by
    intro t
    unfold endTrapTime
    split <;> exact ⟨rfl, rfl, rfl, rfl, rfl⟩
  unfold leaving
  split
  · simp only [he]
    exact h
  · exact h

theorem log_leaving (s : State) (id : Nat) (m : Member) (n : Nat) : (coreAt (leaving s id m) n).log = (coreAt s n).log := by
  obtain ⟨_, _, _, hc, hq⟩ := leaving_units s id m
  have e : coreAt (leaving s id m) n = coreAt (detached s id m) n := by
    unfold coreAt idleCore quadAt
    rw [hc, hq]
    rfl
  have e2 : coreAt (detached s id m) n =
      coreAt (updCore (dropSwait s id) m.core fun u => { dropFromGroup id u with dqWaiters := u.dqWaiters.filter (· != id) }) n := rfl
  rw [e, e2]
  by_cases hn : n = m.core
  · rw [hn, coreAt_updCore_same]
    rfl
  · rw [coreAt_updCore_other _ _ hn]
    rfl

/-- The departure or end of a member that is no tail. -/
theorem left_leaveMember {s : State} {id : Nat} {m : Member} (h : memberAt s id = some m) (hk : m.kind ≠ .tail) :
    Left s (leaveMember s id) id m := by
  have hl := memberAt_leaving h
  cases hq : m.kind with
  | tail => exact absurd hq hk
  | task =>
    rw [leaveMember_task h hq]
    exact ⟨fun a => by simp, fun n hn => by simp [memberAt_updMember_other, memberAt_leaving_other, hn], _, by rw [memberAt_updMember_same, hl]; rfl,
      by simp [hq]⟩
  | curator =>
    rw [leaveMember_curator h hq]
    exact ⟨fun a => by simp, fun n hn => by simp [memberAt_updMember_other, memberAt_leaving_other, hn], _, by rw [memberAt_updMember_same, hl]; rfl,
      by simp [hq]⟩
  | grid =>
    rw [leaveMember_grid h hq]
    generalize hu : updMember (leaving s id m) id (fun m =>
      { m with departed := true, place := .gone, wait := .inactive, terminating := false, moveTo := none, put := {} }) = u
    have hm : memberAt u id = some
        { m with async := [], trapMode := false, departed := true, place := .gone, wait := .inactive, terminating := false,
                 moveTo := none, put := {} } := by
      rw [← hu, memberAt_updMember_same, hl]; rfl
    obtain ⟨h1, h2, v, h3, h4⟩ := (quiet_countDeparture u id m).quiet _ hm rfl
    refine ⟨fun a => ?_, fun n hn => ?_, v, by simpa using h3, h4.1, h4.2.1, ?_⟩
    · rw [mem_serveSpanReads, mem_reportSteps, h1, ← hu]
      simp
    · rw [memberAt_serveSpanReads, memberAt_reportSteps, h2 n hn, ← hu, memberAt_updMember_other _ _ hn, memberAt_leaving_other _ _ hn]
    · obtain ⟨g1, g2, g3, g4, g5, g6, g7, g8⟩ := h4.2
      refine ⟨g2, g3, g4, g5, by simp [g6, hq], fun _ => ⟨g7, fun ht => ?_⟩⟩
      by_cases hm' : m.triggered = true
      · exact g8 hm'
      · obtain ⟨r1, r2, r3⟩ := ht.resolve_left hm'
        obtain ⟨w, w1, w2⟩ := triggered_countDeparture (m := m) hm (by simpa using hm') r1
          (fenceSet_mono (by rw [← hu, updMember_accs, (leaving_units s id m).1]; exact fun e he => List.mem_of_mem_filter he) (fun n => by simp [← hu, log_leaving]) r2)
          ((releaseNeed_congr (by rw [← hu]; exact (leaving_units s id m).2.1) (by rw [← hu]; exact (leaving_units s id m).2.2.1) rfl rfl rfl
            .pod).trans r3)
        rw [h3] at w1
        cases w1
        exact w2

end Sys2Proof.Machine
end

