-- ==== Sys2Proof/Laws/Translate.lean ====
section
/-!
SUPPORT. What a translation can change: walks in flight, and the counters of free values and keys. It changes nothing else.
-/
namespace Sys2Proof.Safety
open Sys2Proof.Machine

/-- Two states that differ in walks in flight and in the model's counters alone. -/
def WalksOnly (s t : State) : Prop :=
  ∃ cs sc, t = { s with cores := cs, sched := sc } ∧
    ∀ g, (tabGet cs g).getD (idleCore s g) = { coreAt s g with walks := ((tabGet cs g).getD (idleCore s g)).walks }

theorem WalksOnly.refl (s : State) : WalksOnly s s := ⟨s.cores, s.sched, rfl, fun _ => rfl⟩

theorem WalksOnly.members {s t : State} (h : WalksOnly s t) : t.members = s.members := by
  obtain ⟨_, _, rfl, -⟩ := h
  rfl
theorem WalksOnly.mem {s t : State} (h : WalksOnly s t) : t.mem = s.mem := by
  obtain ⟨_, _, rfl, -⟩ := h
  rfl
theorem WalksOnly.mod {s t : State} (h : WalksOnly s t) : t.mod = s.mod := by
  obtain ⟨_, _, rfl, -⟩ := h
  rfl
theorem WalksOnly.accs {s t : State} (h : WalksOnly s t) : t.accs = s.accs := by
  obtain ⟨_, _, rfl, -⟩ := h
  rfl
theorem WalksOnly.ctxs {s t : State} (h : WalksOnly s t) : t.ctxs = s.ctxs := by
  obtain ⟨_, _, rfl, -⟩ := h
  rfl
theorem WalksOnly.core {s t : State} (h : WalksOnly s t) (g : Nat) :
    coreAt t g = { coreAt s g with walks := (coreAt t g).walks } := by
  obtain ⟨_, _, rfl, hg⟩ := h
  exact hg g

theorem walksOnly_translateVirt (s : State) (core : Nat) (ah : Bool) (root asn : Nat) (need : Need) (va : Nat) :
    WalksOnly s (translateVirt s core ah root asn need va).2 := by
  unfold translateVirt
  simp only
  split
  · exact .refl s
  · split
    · exact .refl s
    · exact .refl s
    · simp only [drawFree, freshId]
      split
      · refine ⟨_, _, rfl, fun g => ?_⟩
        simp only [updCore]
        rw [tabGet_tabPut]
        split
        · next h => subst h; rfl
        · rfl
      · exact ⟨s.cores, _, rfl, fun g => rfl⟩

theorem walksOnly_resolveIn (s : State) (descs : Vector DescBits 6) (core home : Nat) (ah : Bool) (need : Need) (a : Word64)
    (n : Nat) : WalksOnly s (resolveIn s descs core home ah need a n).2 := by
  unfold resolveIn
  simp only
  split
  · exact .refl s
  · split
    · exact .refl s
    · split
      · exact .refl s
      · split
        · exact walksOnly_translateVirt _ _ _ _ _ _ _
        · repeat' split
          all_goals exact .refl s

theorem walksOnly_resolve (s : State) (ctx : Ctx) (core home : Nat) (ah : Bool) (need : Need) (a : Word64) (n : Nat) :
    WalksOnly s (resolve s ctx core home ah need a n).2 := walksOnly_resolveIn _ _ _ _ _ _ _ _

end Sys2Proof.Safety
end

