-- ==== Sys2Proof/Tests/Slice0.lean ====
section
/-!
SUPPORT. Tests: words that the manual writes out and words built from its tables, decoded; ill-formed terms, refused; for every statement
states and operands that meet its hypotheses; and results that the manual works out.
-/
namespace Sys2Proof.Tests
open Sys2Proof Sys2Proof.Machine Sys2Proof.Safety
set_option Elab.async false
set_option linter.constructorNameAsVariable false
set_option linter.unusedVariables false

/-- An unguarded instruction of class 0. -/
def c0 : Common := { t := 0, k := false, guard := 7, sense := false }

/-! ## Words written out from the formats of R68 to R72 and the tables of the groups -/

theorem test_words_integer_1 :
    decodeWord 0x0007042440400000 = .ok (.add c0 (.g 4) (.latch 0) (.imm 1) false false) ∧
    decodeWord 0x0007022022000201 = .ok (.add c0 (.g 2) (.face 0) (.nbr .e 0) true true) ∧
    decodeWord 0x0077090414800200 = .ok (.sub { c0 with t := 3 } (.g 9) (.g 8) (.const 2) true false) ∧
    decodeWord 0x00C7090081000007 = .ok (.subb c0 (.g 9) (.g 1) (.g 4) 7 0 false) ∧
    decodeWord 0x011F050301C00000 = .ok (.mul { c0 with t := 1, k := true } (.g 5) (.g 6) (.g 7)) ∧
    decodeWord 0x01574A0301C00001 = .ok (.mulh { c0 with t := 1 } (.pred 2) (.g 6) (.g 7) true) ∧
    decodeWord 0x0193C30301C10000 = .ok (.mad { t := 1, k := false, guard := 3, sense := true } (.face 3) (.g 6) (.g 7) (.g 8)) ∧
    decodeWord 0x01C7010100000201 = .ok (.neg c0 (.g 1) (.g 2) true true) ∧
    decodeWord 0x0207010100000000 = .ok (.abs c0 (.g 1) (.g 2) false false) ∧
    decodeWord 0x0247010100C00001 = .ok (.min c0 (.g 1) (.g 2) (.g 3) true) := by decide

theorem test_words_integer_2 :
    decodeWord 0x0287010100C00000 = .ok (.max c0 (.g 1) (.g 2) (.g 3) false) ∧
    decodeWord 0x02C7020201800000 = .ok (.addd c0 (.g 2) (.g 4) (.g 6) false false) ∧
    decodeWord 0x0307020201800201 = .ok (.subd c0 (.g 2) (.g 4) (.g 6) true true) ∧
    decodeWord 0x0357020281C00000 = .ok (.mulw { c0 with t := 1 } (.g 2) (.g 5) (.g 7) false) ∧
    decodeWord 0x03873F0281C7C000 = .ok (.sad c0 (.g 63) (.g 5) (.g 7) (.g 62)) ∧
    decodeWord 0x03D7020281C12202 = .ok (.dot4 { c0 with t := 1 } (.g 2) (.g 5) (.g 7) (.g 9) false true true) ∧
    decodeWord 0x04070244FFFFFFFE = .ok (.addi c0 (.g 2) true 4 0xFFFFFFFE) ∧
    decodeWord 0x044746003FC00000 = .ok (.ldi c0 (.face 6) false 0x3FC00000) := by decide

theorem test_words_logic_1 :
    decodeWord 0x1007010100C00000 = .ok (.and c0 (.g 1) (.g 2) (.g 3)) ∧
    decodeWord 0x1047010100C00000 = .ok (.or c0 (.g 1) (.g 2) (.g 3)) ∧
    decodeWord 0x1087010100C00000 = .ok (.xor c0 (.g 1) (.g 2) (.g 3)) ∧
    decodeWord 0x10C7010100C00000 = .ok (.andn c0 (.g 1) (.g 2) (.g 3)) ∧
    decodeWord 0x1107010100000000 = .ok (.not c0 (.g 1) (.g 2)) ∧
    decodeWord 0x1147010147C00000 = .ok (.shl c0 (.g 1) (.g 2) (.imm 31)) ∧
    decodeWord 0x1187010147C00000 = .ok (.shr c0 (.g 1) (.g 2) (.imm 31)) ∧
    decodeWord 0x11C7010147C00000 = .ok (.sar c0 (.g 1) (.g 2) (.imm 31)) ∧
    decodeWord 0x1207010147C00000 = .ok (.rol c0 (.g 1) (.g 2) (.imm 31)) ∧
    decodeWord 0x1247010100FFE000 = .ok (.shld c0 (.g 1) (.g 2) (.g 3) (.imm 255)) := by decide

theorem test_words_logic_2 :
    decodeWord 0x1287010100FFE000 = .ok (.shrd c0 (.g 1) (.g 2) (.g 3) (.imm 255)) ∧
    decodeWord 0x12C7010100000000 = .ok (.clz c0 (.g 1) (.g 2)) ∧
    decodeWord 0x1307010100000000 = .ok (.popc c0 (.g 1) (.g 2)) ∧
    decodeWord 0x1347010100000000 = .ok (.brev c0 (.g 1) (.g 2)) ∧
    decodeWord 0x1387010100C00001 = .ok (.bfx c0 (.g 1) (.g 2) (.g 3) true) ∧
    decodeWord 0x13C7010100C08000 = .ok (.bfi c0 (.g 1) (.g 2) (.g 3) (.g 4)) ∧
    decodeWord 0x1407010100C08000 = .ok (.perm c0 (.g 1) (.g 2) (.g 3) (.g 4)) ∧
    decodeWord 0x14470301000000FF = .ok (.andi c0 (.g 3) 1 0xFF) ∧
    decodeWord 0x14870301000000FF = .ok (.ori c0 (.g 3) 1 0xFF) ∧
    decodeWord 0x14C70301000000FF = .ok (.xori c0 (.g 3) 1 0xFF) := by decide

theorem test_words_move_1 :
    decodeWord 0x20074B010100001D = .ok (.cmp c0 3 (.g 2) (.g 4) .ge true true) ∧
    decodeWord 0x2047050101000001 = .ok (.cmps c0 (.g 5) (.g 2) (.g 4) .ne false false) ∧
    decodeWord 0x208706010100001B = .ok (.sel c0 (.g 6) (.g 2) (.g 4) 3 true true) ∧
    decodeWord 0x20C7060100000001 = .ok (.mov c0 (.g 6) (.g 2) true) ∧
    decodeWord 0x210706000000004E = .ok (.movs c0 (.g 6) .cyc true) ∧
    decodeWord 0x21477F0280000010 = .ok (.sets c0 (.g 5) .energy false) ∧
    decodeWord 0x218749000000005A = .ok (.pand c0 1 2 3 true false) ∧
    decodeWord 0x21C749000000009A = .ok (.por c0 1 2 3 false true) ∧
    decodeWord 0x220749000000001A = .ok (.pxor c0 1 2 3 false false) ∧
    decodeWord 0x2247490000000002 = .ok (.pnot c0 1 2) := by decide

theorem test_words_move_2 :
    decodeWord 0x2287490280000000 = .ok (.pset c0 1 (.g 5)) ∧
    decodeWord 0x22C7050000000000 = .ok (.pmov c0 (.g 5) (.g 0) false) ∧
    decodeWord 0x22C77F0280000001 = .ok (.pmov c0 .none (.g 5) true) := by decide

theorem test_words_fp32_1 :
    decodeWord 0x3017030301C00801 = .ok (.fadd { c0 with t := 1 } (.g 3) (.g 6) (.g 7) { rm := .rz, fz := false, mods := { negA := true, absA := false, negB := false, absB := false, negC := false, absC := false } }) ∧
    decodeWord 0x3057030301C01002 = .ok (.fsub { c0 with t := 1 } (.g 3) (.g 6) (.g 7) { rm := .rd, fz := false, mods := { negA := false, absA := true, negB := false, absB := false, negC := false, absC := false } }) ∧
    decodeWord 0x3097030301C01804 = .ok (.fmul { c0 with t := 1 } (.g 3) (.g 6) (.g 7) { rm := .ru, fz := false, mods := { negA := false, absA := false, negB := true, absB := false, negC := false, absC := false } }) ∧
    decodeWord 0x30D7030301C10430 = .ok (.ffma { c0 with t := 1 } (.g 3) (.g 6) (.g 7) (.g 8) { rm := .rne, fz := true, mods := { negA := false, absA := false, negB := false, absB := false, negC := true, absC := true } }) ∧
    decodeWord 0x3117030301C00008 = .ok (.fmin { c0 with t := 1 } (.g 3) (.g 6) (.g 7) false { negA := false, absA := false, negB := false, absB := true, negC := false, absC := false }) ∧
    decodeWord 0x3157030301C00008 = .ok (.fmax { c0 with t := 1 } (.g 3) (.g 6) (.g 7) false { negA := false, absA := false, negB := false, absB := true, negC := false, absC := false }) ∧
    decodeWord 0x31974B0301C00580 = .ok (.fcmp { c0 with t := 1 } (.pred 3) (.g 6) (.g 7) .un true { negA := false, absA := false, negB := false, absB := false, negC := false, absC := false }) ∧
    decodeWord 0x31D7030300000000 = .ok (.fclass { c0 with t := 1 } (.g 3) (.g 6)) ∧
    decodeWord 0x3227030300000002 = .ok (.frcp { c0 with t := 2 } (.g 3) (.g 6) false { negA := false, absA := true, negB := false, absB := false, negC := false, absC := false }) ∧
    decodeWord 0x3267030300000002 = .ok (.frsq { c0 with t := 2 } (.g 3) (.g 6) false { negA := false, absA := true, negB := false, absB := false, negC := false, absC := false }) := by decide

theorem test_words_fp32_2 :
    decodeWord 0x32B7030300001800 = .ok (.fsqrt { c0 with t := 3 } (.g 3) (.g 6) { rm := .ru, fz := false, mods := { negA := false, absA := false, negB := false, absB := false, negC := false, absC := false } }) ∧
    decodeWord 0x32F7030301C01800 = .ok (.fdiv { c0 with t := 3 } (.g 3) (.g 6) (.g 7) { rm := .ru, fz := false, mods := { negA := false, absA := false, negB := false, absB := false, negC := false, absC := false } }) ∧
    decodeWord 0x3327030300000400 = .ok (.fexp2 { c0 with t := 2 } (.g 3) (.g 6) true { negA := false, absA := false, negB := false, absB := false, negC := false, absC := false }) ∧
    decodeWord 0x3367030300000400 = .ok (.flog2 { c0 with t := 2 } (.g 3) (.g 6) true { negA := false, absA := false, negB := false, absB := false, negC := false, absC := false }) ∧
    decodeWord 0x33A7030300000400 = .ok (.fsin { c0 with t := 2 } (.g 3) (.g 6) true { negA := false, absA := false, negB := false, absB := false, negC := false, absC := false }) ∧
    decodeWord 0x33E7030300000400 = .ok (.fcos { c0 with t := 2 } (.g 3) (.g 6) true { negA := false, absA := false, negB := false, absB := false, negC := false, absC := false }) ∧
    decodeWord 0x3427030300000400 = .ok (.ftanh { c0 with t := 2 } (.g 3) (.g 6) true { negA := false, absA := false, negB := false, absB := false, negC := false, absC := false }) ∧
    decodeWord 0x3457030301C01001 = .ok (.fscale { c0 with t := 1 } (.g 3) (.g 6) (.g 7) { rm := .rd, fz := false, mods := { negA := true, absA := false, negB := false, absB := false, negC := false, absC := false } }) ∧
    decodeWord 0x3497030300000001 = .ok (.ffrac { c0 with t := 1 } (.g 3) (.g 6) false { negA := true, absA := false, negB := false, absB := false, negC := false, absC := false }) ∧
    decodeWord 0x34D7030300000C00 = .ok (.frnd { c0 with t := 1 } (.g 3) (.g 6) { rm := .rz, fz := true, mods := { negA := false, absA := false, negB := false, absB := false, negC := false, absC := false } }) := by decide

theorem test_words_packed_and_convert_1 :
    decodeWord 0x4017030301C00000 = .ok (.hadd2 { c0 with t := 1 } (.g 3) (.g 6) (.g 7) false { rm := .rne, fz := false, mods := { negA := false, absA := false, negB := false, absB := false, negC := false, absC := false } }) ∧
    decodeWord 0x4057030301C00100 = .ok (.hmul2 { c0 with t := 1 } (.g 3) (.g 6) (.g 7) true { rm := .rne, fz := false, mods := { negA := false, absA := false, negB := false, absB := false, negC := false, absC := false } }) ∧
    decodeWord 0x4097030301C10910 = .ok (.hfma2 { c0 with t := 1 } (.g 3) (.g 6) (.g 7) (.g 8) true { rm := .rz, fz := false, mods := { negA := false, absA := false, negB := false, absB := false, negC := true, absC := false } }) ∧
    decodeWord 0x40D7030301C00400 = .ok (.hmin2 { c0 with t := 1 } (.g 3) (.g 6) (.g 7) false true { negA := false, absA := false, negB := false, absB := false, negC := false, absC := false }) ∧
    decodeWord 0x4117030301C00400 = .ok (.hmax2 { c0 with t := 1 } (.g 3) (.g 6) (.g 7) false true { negA := false, absA := false, negB := false, absB := false, negC := false, absC := false }) ∧
    decodeWord 0x4157030301C10000 = .ok (.hdot2 { c0 with t := 1 } (.g 3) (.g 6) (.g 7) (.g 8) false { rm := .rne, fz := false, mods := { negA := false, absA := false, negB := false, absB := false, negC := false, absC := false } }) ∧
    decodeWord 0x5017030300000AA5 = .ok (.cvt { c0 with t := 1 } (.g 3) (.g 6) .i16 .fp32 .rz false true) ∧
    decodeWord 0x5057050080800000 = .ok (.pack2 { c0 with t := 1 } (.g 5) (.g 1) (.g 2) .fp16 false .rne false false) ∧
    decodeWord 0x5057050080800206 = .ok (.pack2 { c0 with t := 1 } (.g 5) (.g 1) (.g 2) .i16 true .rne false true) ∧
    decodeWord 0x5097060280000401 = .ok (.split2 { c0 with t := 1 } (.g 6) (.g 5) .bf16 true) := by decide

theorem test_words_packed_and_convert_2 :
    decodeWord 0x50D7050101000203 = .ok (.pack4 { c0 with t := 1 } (.g 5) (.g 2) (.g 4) true true true) ∧
    decodeWord 0x5117060280000001 = .ok (.split4 { c0 with t := 1 } (.g 6) (.g 5) true false) := by decide

theorem test_words_control_1 :
    decodeWord 0x60077F007FFFFFFD = .ok (.bra c0 0x7FFFFFFD) ∧
    decodeWord 0x60477F0200000000 = .ok (.jmpi c0 (.g 4)) ∧
    decodeWord 0x60873E0000000007 = .ok (.call c0 62 7) ∧
    decodeWord 0x60C73E0200000000 = .ok (.calli c0 62 (.g 4)) ∧
    decodeWord 0x61077F1F00000000 = .ok (.ret c0 (.g 62)) ∧
    decodeWord 0x61477F1F00000000 = .ok (.relcall c0 none (.g 62)) ∧
    decodeWord 0x61877F0000000000 = .ok (.tjoin c0) ∧
    decodeWord 0x61C77F0000000000 = .ok (.tend c0) ∧
    decodeWord 0x62077F0000000000 = .ok (.exit c0) ∧
    decodeWord 0x62477F0000000000 = .ok (.nop c0) := by decide

theorem test_words_control_2 :
    decodeWord 0x62877F0000000000 = .ok (.yieldI c0) ∧
    decodeWord 0x62C77F0000000000 = .ok (.progress c0) := by decide

theorem test_words_cell_and_grid :
    decodeWord 0x70077F0000000001 = .ok (.step c0 1) ∧
    decodeWord 0x7047490200000000 = .ok (.migrate c0 (.pred 1) (.g 4)) ∧
    decodeWord 0x70877F0280000000 = .ok (.dqpush c0 (.g 5)) ∧
    decodeWord 0x70C7070000000000 = .ok (.dqpop c0 (.g 7)) ∧
    decodeWord 0x71077F0000000000 = .ok (.park c0) := by decide

theorem test_words_memory :
    decodeWord 0x8007030402000002 = .ok (.ld c0 (.g 3) { view := 1, off := .g 1, order := .plain, scope := .core, pol := .default, tok := 0, disp := 2 }) ∧
    decodeWord 0x8007040C04B10000 = .ok (.ld c0 (.g 4) { view := 3, off := .g 2, order := .acq, scope := .field, pol := .keep, tok := 1, disp := 0 }) ∧
    decodeWord 0x804745FFFF7EFFFD = .ok (.st c0 (.face 5) { view := 63, off := .imm 255, order := .rel, scope := .pod, pol := .bypass, tok := 6, disp := 65533 }) ∧
    decodeWord 0x80870404040D0004 = .ok (.ldx c0 (.g 4) .n16 { view := 0, off := .g 2, order := .plain, scope := .core, pol := .stream, tok := 5, disp := 4 }) ∧
    decodeWord 0x80C7042804060004 = .ok (.stx c0 (.g 4) .fp32 { view := 0, off := .g 2, order := .plain, scope := .core, pol := .default, tok := 6, disp := 4 }) ∧
    decodeWord 0x81077F1C04060004 = .ok (.pref c0 { view := 7, off := .g 2, order := .plain, scope := .core, pol := .default, tok := 6, disp := 4 }) ∧
    decodeWord 0x8147081C00060000 = .ok (.vset c0 8 7) ∧
    decodeWord 0x8187381C00060000 = .ok (.vget c0 56 7) ∧
    decodeWord 0x81C7091C04030001 = .ok (.vld c0 9 { view := 7, off := .g 2, order := .plain, scope := .core, pol := .default, tok := 3, disp := 1 }) := by decide

theorem test_words_atomics_and_sync_1 :
    decodeWord 0x9007030803C67FFF = .ok (.atom c0 3 .fadd { view := 2, off := .g 1, order := .ar, scope := .module, pol := .default, tok := 6, disp := 65535 }) ∧
    decodeWord 0x9047030802029005 = .ok (.atomr c0 3 .fmax { view := 2, off := .g 1, order := .plain, scope := .core, pol := .default, tok := 2, disp := 5 }) ∧
    decodeWord 0x9087040803020000 = .ok (.cas c0 4 { view := 2, off := .g 1, order := .rel, scope := .core, pol := .default, tok := 2, disp := 0 }) ∧
    decodeWord 0x90C704080202F001 = .ok (.kcas2 c0 4 15 { view := 2, off := .g 1, order := .plain, scope := .core, pol := .default, tok := 2, disp := 1 }) ∧
    decodeWord 0x9107040802020000 = .ok (.kenq c0 4 { view := 2, off := .g 1, order := .plain, scope := .core, pol := .default, tok := 2, disp := 0 }) ∧
    decodeWord 0x9147040802020000 = .ok (.kdeq c0 4 { view := 2, off := .g 1, order := .plain, scope := .core, pol := .default, tok := 2, disp := 0 }) ∧
    decodeWord 0x918704080202B000 = .ok (.kchase c0 4 11 { view := 2, off := .g 1, order := .plain, scope := .core, pol := .default, tok := 2, disp := 0 }) ∧
    decodeWord 0x91C7040802020000 = .ok (.kchunk c0 4 { view := 2, off := .g 1, order := .plain, scope := .core, pol := .default, tok := 2, disp := 0 }) ∧
    decodeWord 0xA0077F0000C60000 = .ok (.fence c0 .acq .module 6) ∧
    decodeWord 0xA0077F0001460000 = .ok (.fence c0 .rel .module 6) := by decide

theorem test_words_atomics_and_sync_2 :
    decodeWord 0xA0077F0001E60000 = .ok (.fence c0 .ar .pod 6) ∧
    decodeWord 0xA0077F0001620000 = .ok (.fence c0 .rel .pod 2) ∧
    decodeWord 0xA0477F0000000004 = .ok (.bar c0 .module) ∧
    decodeWord 0xA087050000000003 = .ok (.bara c0 (some 5) .field) ∧
    decodeWord 0xA0C77F0280000003 = .ok (.barw c0 (.g 5) .field) ∧
    decodeWord 0xA107030803260000 = .ok (.sarm c0 3 { view := 2, off := .g 1, order := .rel, scope := .field, pol := .default, tok := 6, disp := 0 }) ∧
    decodeWord 0xA147030802A60000 = .ok (.swait c0 3 { view := 2, off := .g 1, order := .acq, scope := .field, pol := .default, tok := 6, disp := 0 }) ∧
    decodeWord 0xA187030802000FFF = .ok (.sadd c0 3 { view := 2, off := .g 1, order := .plain, scope := .core, pol := .default, tok := 0, disp := 65535 }) := by decide

theorem test_words_engines_1 :
    decodeWord 0xB00700042000C000 = .ok (.copy c0 none 1 2 .rne false false 6) ∧
    decodeWord 0xB007080420003F00 = .ok (.copy c0 (some 8) 1 2 .ru true true 1) ∧
    decodeWord 0xB047080420D02002 = .ok (.copym c0 8 1 2 3 .se7 .rne false false 1) ∧
    decodeWord 0xB0873C0420002003 = .ok (.mmab c0 60 1 2 .bf16 1) ∧
    decodeWord 0xB0C70004200B2000 = .ok (.scacc c0 none 1 2 3 2 1) ∧
    decodeWord 0xB107040400082100 = .ok (.mload c0 (some 4) 1 2 1) ∧
    decodeWord 0xB147000400043200 = .ok (.mstore c0 none 1 1 .rd false true 1) ∧
    decodeWord 0xB1870000000CC000 = .ok (.mzero c0 3 6) ∧
    decodeWord 0xB1C704240000A1FF = .ok (.tmma c0 4 9 511 5) ∧
    decodeWord 0xB20704000000A011 = .ok (.drun c0 4 17 5) := by decide

theorem test_words_engines_2 :
    decodeWord 0xB24700000005C000 = .ok (.ecan c0 5 6) := by decide

theorem test_words_launch_and_system_1 :
    decodeWord 0xC0077F0000000000 = .ok (.trig c0) ∧
    decodeWord 0xC0473B0C0360FFFE = .ok (.spawn c0 59 { view := 3, off := .g 1, order := .rel, scope := .pod, pol := .default, tok := 0, disp := 65534 }) ∧
    decodeWord 0xD0077F0000000005 = .ok (.trap c0 5) ∧
    decodeWord 0xD0477F0000000001 = .ok (.svc c0 1) ∧
    decodeWord 0xD0877F0000000000 = .ok (.eret c0) ∧
    decodeWord 0xD0C77F0400000004 = .ok (.segset c0 4 8) ∧
    decodeWord 0xD107080000000004 = .ok (.segget c0 4 8) ∧
    decodeWord 0xD1477F0201800000 = .ok (.tlbinv c0 .addr (.g 4) (.g 6)) ∧
    decodeWord 0xD1477F0000000002 = .ok (.tlbinv c0 .all (.g 0) (.g 0)) ∧
    decodeWord 0xD1870A020180E003 = .ok (.shoot c0 (.g 10) (.g 4) (.g 6) (.g 7) false 3) := by decide

theorem test_words_launch_and_system_2 :
    decodeWord 0xD1C7020200000001 = .ok (.ldio c0 (.g 2) (.g 4) true 0) ∧
    decodeWord 0xD2077F020180000C = .ok (.stio c0 (.g 4) (.g 6) false 6) ∧
    decodeWord 0xD247020201800001 = .ok (.ctxsave c0 (.g 2) (.g 4) (.g 6) 1) ∧
    decodeWord 0xD287020201800001 = .ok (.ctxload c0 (.g 2) (.g 4) (.g 6) 1) ∧
    decodeWord 0xD2C703B200000000 = .ok (.idle c0 (.g 3) (.imm 100)) ∧
    decodeWord 0xD307020201800001 = .ok (.ckpt c0 2 (.g 4) (.g 6) 1) ∧
    decodeWord 0xD307020201800009 = .ok (.ckptRb c0 2 (.g 4) (.g 6) 1) ∧
    decodeWord 0xD3477F0280000000 = .ok (.setperf c0 (.g 5)) ∧
    decodeWord 0xD3477F8180000000 = .ok (.setperf c0 (.imm 3)) := by decide

/-! ## Terms that are not words: each check refuses one -/

/-- An address part with nothing unusual: view 1, offset g1, plain, token d0. -/
def op0 : MemOp := { view := 1, off := .g 1, order := .plain, scope := .core, pol := .default, tok := 0, disp := 0 }
def noMods : Mods := { negA := false, absA := false, negB := false, absB := false, negC := false, absC := false }
def rne : FRnd := { rm := .rne, fz := false, mods := noMods }

theorem test_wf_common :
    (Instr.add { c0 with guard := 7, sense := true } (.g 1) (.g 2) (.g 3) false false).reject = some .guardSense ∧
    (Instr.mul c0 (.g 1) (.g 2) (.g 3)).reject = some .belowClass ∧
    (Instr.frcp { c0 with t := 1 } (.g 1) (.g 2) false noMods).reject = some .belowClass ∧
    (Instr.fdiv { c0 with t := 2 } (.g 1) (.g 2) (.g 3) rne).reject = some .belowClass ∧
    (Instr.bra { c0 with k := true } 1).reject = some .latchOnly ∧
    (Instr.sets { c0 with k := true } (.g 1) .energy false).reject = some .latchOnly ∧
    (Instr.mul { c0 with t := 1 } (.g 1) (.g 2) (.g 3)).reject = none := by decide

theorem test_wf_destinations :
    (Instr.add c0 .none (.g 2) (.g 3) false false).reject = some .destination ∧
    (Instr.cmps c0 (.pred 1) (.g 2) (.g 3) .eq false false).reject = some .destination ∧
    (Instr.ld c0 (.pred 1) op0).reject = some .destination ∧
    (Instr.idle c0 (.face 1) (.g 2)).reject = some .destination ∧
    (Instr.shoot c0 (.face 1) (.g 2) (.g 3) (.g 4) false 0).reject = some .destination ∧
    (Instr.migrate c0 (.g 1) (.g 2)).reject = some .column ∧
    (Instr.pmov c0 (.g 1) (.g 2) true).reject = some .column ∧
    (Instr.pmov c0 (.g 1) (.g 2) false).reject = some .column := by decide

theorem test_wf_columns :
    (Instr.add c0 (.g 1) (.g 2) (.g 3) false true).reject = some .column ∧
    (Instr.neg c0 (.g 1) (.g 2) true false).reject = some .column ∧
    (Instr.addc c0 (.g 1) (.g 2) (.g 3) 0 1 false).reject = some .column ∧
    (Instr.subb c0 (.g 1) (.g 2) (.g 3) 0 7 false).reject = some .column ∧
    (Instr.fsqrt { c0 with t := 3 } (.g 1) (.g 2) { rne with mods := { noMods with negB := true } }).reject = some .column ∧
    (Instr.fadd { c0 with t := 1 } (.g 1) (.g 2) (.g 3) { rne with mods := { noMods with absC := true } }).reject = some .column ∧
    (Instr.cvt { c0 with t := 1 } (.g 1) (.g 2) .fp32 .i16 .rne false false).reject = some .column ∧
    (Instr.pack2 { c0 with t := 1 } (.g 1) (.g 2) (.g 3) .i16 true .rz false false).reject = some .column ∧
    (Instr.pack2 { c0 with t := 1 } (.g 1) (.g 2) (.g 3) .fp16 true .rne false false).reject = some .column ∧
    (Instr.split2 { c0 with t := 1 } (.g 2) (.g 3) .n16 true).reject = some .column ∧
    (Instr.dqpush c0 (.face 0)).reject = some .column ∧
    (Instr.barw c0 (.latch 0) .core).reject = some .column ∧
    (Instr.fence c0 .plain .core 6).reject = some .column ∧
    (Instr.ecan c0 0 6).reject = some .column ∧
    (Instr.segset c0 6 4).reject = some .column ∧
    (Instr.tlbinv c0 .asn (.g 2) (.g 3)).reject = some .column ∧
    (Instr.tlbinv c0 .all (.g 0) (.g 3)).reject = some .column := by decide

theorem test_wf_constants :
    (Instr.addd c0 (.g 2) (.const 4) (.g 4) false false).reject = some .wideConstant ∧
    (Instr.addd c0 (.g 2) (.const 3) (.g 4) false false).reject = none ∧
    (Instr.cmp c0 1 (.g 2) (.const 15) .eq false true).reject = some .wideConstant ∧
    (Instr.ldx c0 (.g 2) .n32 { op0 with view := 0, off := .const 5 }).reject = some .wideConstant ∧
    (Instr.stio c0 (.g 2) (.const 5) true 6).reject = some .wideConstant ∧
    (Instr.ckpt c0 2 (.const 5) (.g 4) 6).reject = some .wideConstant := by decide

theorem test_wf_memory :
    (Instr.ld c0 (.g 1) { op0 with tok := 7 }).reject = some .token ∧
    (Instr.ld c0 (.g 1) { op0 with tok := 6 }).reject = some .token ∧
    (Instr.ld c0 (.g 1) { op0 with scope := .pod }).reject = some .column ∧
    (Instr.ld c0 (.g 1) { op0 with order := .rel }).reject = some .column ∧
    (Instr.st c0 (.g 1) { op0 with order := .acq }).reject = some .column ∧
    (Instr.pref c0 { op0 with order := .ar }).reject = some .column ∧
    (Instr.ldx c0 (.g 1) .n32 { op0 with view := 1 }).reject = some .column ∧
    (Instr.atom c0 1 .add { op0 with disp := 0x0800 }).reject = some .column ∧
    (Instr.atom c0 1 .add { op0 with disp := 0xF800 }).reject = none ∧
    (Instr.swait c0 1 op0).reject = some .token ∧
    (Instr.kcas2 c0 4 0 op0).reject = some .column ∧
    (Instr.spawn c0 60 op0).reject = some .column ∧
    (Instr.spawn c0 59 { op0 with pol := .keep }).reject = some .column ∧
    (Instr.ldio c0 (.g 1) (.g 2) false 6).reject = some .column := by decide

theorem test_wf_blocks :
    (Instr.vset c0 4 1).reject = some .block ∧ (Instr.kenq c0 3 op0).reject = some .block ∧
    (Instr.kchase c0 2 0 op0).reject = some .block ∧ (Instr.copy c0 (some 2) 1 2 .rne false false 6).reject = some .block ∧
    (Instr.mmab c0 6 1 2 .se4 6).reject = some .block ∧ (Instr.segget c0 1 6).reject = some .block ∧
    (Instr.exitDrainEnd 0).reject = some .notAWord := by decide

/-- Words that R64, R67, R70 and R73 keep: an unassigned opcode, a reserved specifier, a reserved destination, an unused field that
is not zero. -/
theorem test_words_refused :
    decodeWord 0x0487000000000000 = .error .unassigned ∧
    decodeWord 0x0007042640400000 = .error .specifier ∧
    decodeWord 0x0007504040400000 = .error .destination ∧
    decodeWord 0x0007040040402000 = .error .reserved ∧
    decodeWord 0xE007040040400000 = .error .unassigned ∧
    decodeWord 0x1447038100000000 = .error .reserved := by decide

/-! ## A small machine: one launch of one grid cell on core 64, and the member that issues -/

def m0 : Member := newCell fetchLaunch 1 64 0 0 (0, 0, 0) (.slot 0)
def k0 : Cur := { core := 64, member := 0, h := 0, slot := 0, word := 0, count := 0, off := false, hold := false }
/-- The guard of `cOff` is p0 with sense 0, which reads false in `m0`. -/
def cOff : Common := { c0 with guard := 0 }
def s0 : State :=
  { State.reset with
    launches := [(1, fetchLaunch)], ctxs := [(ctxKey 1 64, fetchCtx)], members := [(0, m0)]
    sched := { Sched.reset with nextId := 1, cur := some k0 } }

/-- `s0` with another issuing member. -/
def sAs (m : Member) : State := { s0 with members := [(0, m)] }
/-- `m0` with some registers. -/
def mG (l : List (BitVec 6 × Word)) : Member := { m0 with r := l.foldl (fun r e => r.setG e.1 e.2) m0.r }
/-- The state that a step answers. -/
def got (r : Result) : State := match r with | .next t => t | _ => State.reset
/-- The step answers a next state. -/
def goesOn (r : Result) : Bool := match r with | .next _ => true | _ => false
/-- Register `n` of the issuing member after an instruction. -/
def gAfter (r : Result) (n : BitVec 6) : Option Word := (memberAt (got r) 0).map (·.r.getG n)
def pairAfter (r : Result) (n : BitVec 6) : Option Word64 := (memberAt (got r) 0).map (·.r.pair n)
/-- The wait of a member after a step. -/
def waitAfter (r : Result) (id : Nat) : Option Wait := (memberAt (got r) id).map (·.wait)

/-- A core of a launch of two cells in x; cell 1 stands one step behind or not. -/
def launch2 : Launch := { fetchLaunch with pkt := { fetchPacket with grid := (2, 1, 1), block := (2, 1, 1), slots := 2 } }
def cell2 (done : Nat) : Member := { newCell launch2 1 64 1 1 (1, 0, 0) (.slot 1) with done := done }
def m2 (done : Nat) : Member := { newCell launch2 1 64 0 0 (0, 0, 0) (.slot 0) with done := done }
def s2 (mine its : Nat) : State := { s0 with launches := [(1, launch2)], members := [(0, m2 mine), (1, cell2 its)] }

theorem inMemory_of (s : State) (pa n : Nat)
    (h : (List.range n).all (fun i => physOf s (pa + i) == physOf s pa + i &&
      (match regionOf (pa + i) with | .doorbell _ => false | _ => true)) = true) : InMemory s pa n := by
  intro i hi
  have := List.all_eq_true.1 h i (List.mem_range.2 hi)
  simp only [Bool.and_eq_true, beq_iff_eq] at this
  exact ⟨this.1, fun q hq => by simp [hq] at this⟩

/-! ## Witnesses: states and operands that meet the hypotheses of the statements -/

theorem witness_issuing : Issuing s0 k0 m0 ∧ Issuing (s2 1 0) k0 (m2 1) := ⟨⟨rfl, rfl⟩, ⟨rfl, rfl⟩⟩

/-- The forms of the arithmetic groups: they run, are guarded off, trap on an odd pair, and leave at a neighbour that lags. -/
theorem witness_value_forms :
    Runs m0 c0 ∧ Off m0 cOff ∧
    formFault m0 (.g 4) false [(.w32, .g 1), (.w32, .imm 3)] = none ∧
    formFault m0 (.g 5) true [(.w64, .g 2)] = some 0x01 ∧
    formFault m0 (.g 4) true [(.w64, .g 3)] = some 0x01 ∧
    formFault { m0 with kind := .tail } (.g 4) false [(.w32, .face 0)] = some 0x0B ∧
    readAll s0 m0 [(.w32, .g 1), (.w32, .imm 255)] [] = .inr [0, 0xFFFFFFFF] ∧
    readAll (s2 1 0) (m2 1) [(.w32, .g 1), (.w32, .nbr .e 0)] [] = .inl (.away .e 0 (some 1) true) := by decide +kernel

/-- Every kind of check of the forms that are no producers, and one that passes. -/
theorem witness_act_forms :
    srcFault m0 .w32 (.g 1) = none ∧ srcFault m0 .w64 (.g 1) = some 0x01 ∧
    faceUse { m0 with kind := .tail } = some 0x0B ∧ faceUse { m0 with kind := .curator } = some 0x01 ∧
    readAll s0 m0 [] [] = .inr [] ∧ readAll s0 m0 [(.w64, .imm 128)] [] = .inr [BitVec.ofInt 64 (-128)] := by decide +kernel

theorem witness_transfers : ((k0.h : Int) + (BitVec.ofInt 31 (-3)).toInt) % 2 ^ 57 = 2 ^ 57 - 3 ∧ (62 : BitVec 6) ≠ 63 := by decide

def mExit : Member := { m0 with wait := .drain .exit }
theorem witness_exits :
    memberAt (sAs mExit) 0 = some mExit ∧ mExit.kind ≠ .tail ∧ drained mExit = true ∧ drained { mExit with drain := 1 } = false ∧
    (sAs { m0 with kind := .tail }).members ≠ [] := by decide +kernel

/-- A release to a tail, one in place in a tail, one refused by the stack; TEND of a tail and of a context in released mode. -/
def mRel : Member := mG [(63, 1024), (62, 9)]
def mDrainRel : Member := { mRel with wait := .drain (.relcall 9 none) }
def mTail : Member := { mRel with kind := .tail, place := .tailSlot 0, releaser := some 5 }
def mReleased : Member := { mRel with rd := 1, rp := 752, wait := .drain .tend }
theorem witness_releases :
    srcFault mRel .w32 (.g 62) = none ∧ ¬ (mRel.r.getG 63).toNat < mRel.stackBase + 272 ∧
    (m0.r.getG 63).toNat < 512 ∧ drained mRel = true ∧ drained { mRel with drain := 1 } = false ∧ mRel.terminating = false ∧
    memberAt (sAs mDrainRel) 0 = some mDrainRel ∧ mDrainRel.next = none ∧
    freeTailSlots (sAs mDrainRel) 64 ≠ [] ∧ memberAt (sAs mDrainRel) (sAs mDrainRel).sched.nextId = none ∧
    memberAt (sAs mTail) 0 = some mTail ∧ mTail.kind = .tail ∧ mTail.rd = 0 ∧
    memberAt (sAs mReleased) 0 = some mReleased ∧ mReleased.rd ≠ 0 := by decide +kernel
theorem witness_cell_allows :
    CellAllows (sAs mReleased) mReleased mReleased.rp.toNat 272 true false ∧
    CellAllows (sAs mTail) mTail (mTail.r.getG 63 - 272).toNat 272 false true :=
  ⟨⟨fetchCtx, by decide +kernel⟩, ⟨fetchCtx, by decide +kernel⟩⟩

/-- STEP: a lone cell may commit; a cell whose neighbour is one step behind may not; one that waits commits when it may. -/
def mStep : Member := { m0 with wait := .step 5 }
theorem witness_step :
    StepDue s0 0 m0 ∧ ¬ StepDue (s2 1 0) 0 (m2 1) ∧ StepDue (sAs mStep) 0 mStep ∧ seated mStep = true ∧
    seated { mStep with place := .parked } = false ∧ mStep.terminating = false ∧ memberAt (sAs mStep) 0 = some mStep := by
  refine ⟨(stepReady_iff _ _ _).1 (by decide +kernel), fun h => absurd ((stepReady_iff _ _ _).2 h) (by decide +kernel),
    (stepReady_iff _ _ _).1 (by decide +kernel), by decide +kernel⟩

def entry (v : Word) (held : Bool) : DqEntry := { value := v, held := held, pusher := 9, waits := [] }
def sDq (dq : List DqEntry) (waiters : List Nat) (m : Member) : State :=
  { sAs m with cores := [(64, { CoreUnit.reset with dq := dq, dqWaiters := waiters, curatorOf := some 1 })] }
def mCurator : Member := { m0 with kind := .curator, place := .curatorSlot }
def mPop : Member := { m0 with wait := .dqpop (.g 7) }
/-- The decision queue with no entry, a held one, 15 and 16 entries; and with a member that waits for an entry. -/
theorem witness_decision_queue :
    (coreAt (sDq (List.replicate 16 (entry 1 false)) [] mCurator) 64).dq.length = 16 ∧
    (coreAt (sDq (List.replicate 15 (entry 1 false)) [] mCurator) 64).dq.length < 16 ∧
    mCurator.kind = .curator ∧ mCurator.fences = [] ∧ srcFault mCurator .w32 (.g 1) = none ∧
    (coreAt (sDq [entry 1 false] [] m0) 64).curatorOf = some m0.launch ∧ m0.kind ≠ .curator ∧
    dstFault m0 false (.g 7) = none ∧
    (coreAt (sDq [entry 3 false] [] m0) 64).dq = [entry 3 false] ∧ (coreAt (sDq [entry 3 true] [] m0) 64).dq = [entry 3 true] ∧
    (coreAt (sDq [entry 3 true] [0] mPop) 64).dqWaiters = [0] ∧ allPerformed (sDq [entry 3 true] [0] mPop) [] = true ∧
    memberAt (sDq [entry 3 true] [0] mPop) 0 = some mPop := by decide +kernel

/-- Migration: an address of another field that is online and has room, one of the own field; a cell that has drained and moves; one
that resumes. -/
def bigDesc : Vector DescBits 6 :=
  #v[fetchDesc[0], fetchDesc[1], BitVec.ofNat 128 (7 * 2 ^ 100 + 2 * 2 ^ 96 + 0xFFFFFFFF * 2 ^ 64), fetchDesc[3],
     BitVec.ofNat 128 (7 * 2 ^ 100 + 4 * 2 ^ 96 + 0x800000000000), fetchDesc[5]]
/-- A context that sees every slice and an empty page table, and takes its traps itself. -/
def ctxBig : Ctx := { fetchCtx with desc := bigDesc, trapEntry := 0 }
def sBig (m : Member) : State := { sAs m with ctxs := [(ctxKey 1 64, ctxBig)] }
def farAddr : Word64 := 0x2000000008000000
def mMove : Member := { m0 with wait := .drain (.migrate 128 0), moveTo := some (128, 0) }
def mTransit : Member := { mMove with place := .transit, wait := .ready }
theorem witness_migration :
    faceUse m0 = none ∧ ctxAt (sBig m0) 1 64 = some ctxBig ∧ m0.moveTo = none ∧
    (migrateTarget (sBig m0) ctxBig 64 64 farAddr).1 = .ok ⟨.loc 0x8000000, .strong, 0⟩ ∧
    homeField (sBig m0) 0x8000000 = some 2 ∧ isOnline (sBig m0) 2 = true ∧ 128 / 64 = 2 ∧ annexOpen (sBig m0) 1 128 = true ∧
    (migrateTarget (sBig m0) ctxBig 64 64 0x2000000004000000).1 = .ok ⟨.loc 0x4000000, .strong, 0⟩ ∧
    homeField (sBig m0) 0x4000000 = some 1 ∧
    drained mMove = true ∧ openBarrier (sAs mMove) 0 mMove = false ∧ memberAt (sAs mMove) 0 = some mMove ∧
    openBarrier (sAs mMove) 0 { mMove with arrivals := mMove.arrivals.set 1 1 } = true ∧
    mTransit.place = .transit ∧ mTransit.moveTo = some (128, 0) := by decide +kernel

def mPark : Member := { m2 0 with wait := .drain .park }
def parked1 : Member := { cell2 0 with place := .parked, demanded := true }
def sPark : State := { s2 0 0 with members := [(0, mPark), (1, parked1)] }
def sTransfer : State :=
  { s2 0 0 with
    members := [(0, { mPark with place := .transit, wait := .park }), (1, { parked1 with place := .transit })]
    cores := [(64, { CoreUnit.reset with transfers := [{ launch := 1, parking := some 0, unparking := 1, slot := 0 }] })] }
theorem witness_parking :
    firstCandidate sPark 1 64 = some (1, parked1) ∧ firstCandidate (s2 0 0) 1 64 = none ∧ drained mPark = true ∧
    memberAt sPark 1 = some parked1 ∧ inTransfer sPark 1 64 = false ∧ (coreAt sTransfer 64).transfers.length = 1 ∧
    (memberAt sTransfer 1).map (·.wait) = some .ready ∧ m0.place ≠ .annex 0 ∧ m0.kind ≠ .tail := by decide +kernel

/-- Neighbours: beyond the edge, the cell itself (by wrap), a neighbour level with the reader, one behind, one that has departed; a read
that travels, and one whose generation is published. -/
def launchWrap : Launch := { fetchLaunch with pkt := { fetchPacket with edges := 1 } }
def nbr0 (arrived : Bool) : NbrRead :=
  { reader := 0, dir := .e, face := 0, target := some 1, gen := 1, arrived := arrived, value := none }
def mNbr : Member := { m2 1 with wait := .nbr .e 0 }
def sNbr (arrived : Bool) (its : Nat) : State :=
  { s2 1 its with members := [(0, mNbr), (1, { cell2 its with place := .parked })], nbrs := [(0, nbr0 arrived)] }
theorem witness_neighbours :
    launchAt s0 1 = some fetchLaunch ∧ nbrLinear fetchLaunch m0 .e = none ∧ nbrLinear launchWrap m0 .e = some m0.linear ∧
    nbrLinear launch2 (m2 1) .e = some 1 ∧ cellAt (s2 1 1) 1 1 = some (1, cell2 1) ∧ (cell2 1).home = 64 ∧ m0.nbrVals = [] ∧
    (cell2 1).departed = false ∧ (m2 1).done ≤ (cell2 1).done ∧ (cell2 0).done < (m2 1).done ∧
    tabGet (sNbr false 0).nbrs 0 = some (nbr0 false) ∧ tabGet (sNbr true 1).nbrs 0 = some (nbr0 true) ∧
    memberAt (sNbr true 1) 0 = some mNbr ∧ seated mNbr = true ∧ mNbr.wait = .nbr .e 0 ∧ (nbr0 true).gen ≤ (cell2 1).done := by
  decide +kernel

/-! ### Accesses -/

/-- A view record of R169: format, bounds code, base, extents, rows of 256 bytes. -/
def mkView (fmt bounds base d0 d1 : Nat) : ViewBits :=
  BitVec.ofNat 256 (base + d0 * 2 ^ 64 + d1 * 2 ^ 96 + 256 * 2 ^ 128 + 2 ^ 192 + fmt * 2 ^ 208 + bounds * 2 ^ 216 +
    0xFFFF * 2 ^ 224)
def wafer : Nat := 2 * 2 ^ 60 + 0x4040000
def virt : Nat := 4 * 2 ^ 60
/-- Words, double words, zero-filled words and words of a page that is not present. -/
def sView (m : Member) : State :=
  { sBig m with
    cores := [(64, { CoreUnit.reset with
      views := [(1, mkView 2 0 wafer 16 2), (2, mkView 3 0 wafer 16 2), (3, mkView 2 2 wafer 16 2), (4, mkView 2 0 virt 16 2),
        (5, mkView 2 0 (wafer + 2) 4 1), (6, mkView 2 0 (5 * 2 ^ 60) 4 1)] })] }

/-- The four edges of a view: in range, below, and above, at each bounds code. -/
theorem witness_elements :
    elementAddress (mkView 2 0 wafer 16 2) 4 31 = .addr (BitVec.ofNat 64 (wafer + 256 + 60)) ∧
    elementAddress (mkView 2 0 wafer 16 2) 4 32 = .bad 0x04 32 ∧
    elementAddress (mkView 2 0 wafer 16 2) 4 (-1) = .bad 0x04 0xFFFFFFFF ∧
    elementAddress (mkView 2 1 wafer 16 2) 4 32 = .addr (BitVec.ofNat 64 (wafer + 256 + 60)) ∧
    elementAddress (mkView 2 1 wafer 16 2) 4 (-1) = .addr (BitVec.ofNat 64 wafer) ∧
    elementAddress (mkView 2 2 wafer 16 2) 4 32 = .outside ∧
    elementAddress (mkView 2 3 wafer 16 2) 4 (-1) = .addr (BitVec.ofNat 64 (wafer + 256 + 60)) := by decide +kernel

theorem witness_not_routed : ∀ x, isRouted (sView m0) m0 x = false := by
  intro x
  simp [isRouted, trapEntryOf, ctxAt, sView, sBig, sAs, s0, m0, newCell, newMember, tabGet, ctxKey, ctxBig, fetchCtx, newCtx]

/-- LD, ST and the others on one element: invalid, outside, misaligned, of a missing space, of a page that is not present, allowed. -/
theorem witness_view_access :
    ctxAt (sView m0) 1 64 = some ctxBig ∧ readSrc (sView m0) m0 .w32 (.g 1) = .val 0 ∧
    View.valid (viewAt (sView m0) 64 1) = true ∧ fmtOfCode (View.fmt (viewAt (sView m0) 64 1)) = some .n32 ∧
    View.valid (viewAt (sView m0) 64 9) = false ∧ View.valid (viewAt (sView m0) 64 6) = false ∧
    elementAddress (viewAt (sView m0) 64 5) 4 0 = .addr (BitVec.ofNat 64 (wafer + 2)) ∧ (wafer + 2) % 4 ≠ 0 ∧
    (resolve (sView m0) ctxBig 64 64 false Need.load (BitVec.ofNat 64 wafer) 4) = (.ok ⟨.loc 0x4040000, .strong, 0⟩, sView m0) ∧
    (resolve (sView m0) ctxBig 64 64 false Need.atom (BitVec.ofNat 64 wafer) 4) = (.ok ⟨.loc 0x4040000, .strong, 0⟩, sView m0) ∧
    (resolve (sView m0) ctxBig 64 64 false Need.load (BitVec.ofNat 64 virt) 4).1 = .held 1 ∧
    (resolve (sView m0) ctxBig 64 64 false Need.load 0x0000000000010000 4).1 = .bad 0x03 0 ∧
    tokCount m0 0 < 255 ∧ heldCount (sView m0) 0 m0 < 8 ∧ firstFree (coreAt (sView m0) 64).log 64 0 < 64 ∧
    atomAccepts .add .n32 = true ∧ atomAccepts .fadd .n32 = false ∧
    elementAddress (viewAt (sView m0) 64 3) 4 40 = .outside ∧
    (5 * 2 ^ 60 : Nat) / 2 ^ 60 > 4 := by decide +kernel

theorem witness_kcas2 :
    elementAddress (viewAt (sView m0) 64 1) 4 0 = .addr (BitVec.ofNat 64 wafer) ∧
    elementAddress (viewAt (sView m0) 64 1) 4 (0 + 1) = .addr (BitVec.ofNat 64 (wafer + 4)) ∧
    wafer / 256 = (wafer + 4) / 256 ∧
    elementAddress (viewAt (sView m0) 64 1) 4 (15 + 1) = .addr (BitVec.ofNat 64 (wafer + 256)) ∧
    (wafer + 60) / 256 ≠ (wafer + 256) / 256 ∧
    (resolve (sView m0) ctxBig 64 64 false Need.atom (BitVec.ofNat 64 (wafer + 4)) 4).1 = .ok ⟨.loc 0x4040004, .strong, 0⟩ := by
  decide +kernel

/-- The view table: an entry of the window, one outside a narrower window; the four words of a VLD; a line that may be cached. -/
theorem witness_views :
    fetchCtx.vwFirst ≤ 63 ∧ 63 < fetchCtx.vwFirst + fetchCtx.vwCount ∧ ¬ 63 < 0 + ({ fetchCtx with vwCount := 63 } : Ctx).vwCount ∧
    (∀ i : Nat, i < 4 → elementAddress (viewAt (sView m0) 64 2) 8 (0 + (i : Int)) = .addr (BitVec.ofNat 64 (wafer + 8 * i)) ∧
      resolve (sView m0) ctxBig 64 64 false Need.load (BitVec.ofNat 64 (wafer + 8 * i)) 8 =
        (.ok ⟨.loc (0x4040000 + 8 * i), .strong, 0⟩, sView m0)) ∧
    wafer % 32 = 0 ∧ (wafer + 8) % 32 ≠ 0 ∧ heldCount (sView m0) 0 m0 = 0 ∧
    cacheable 64 farAddr (.loc 0x8000000) = true ∧ policyOf .default 0 ≠ .bypass := by decide +kernel

/-- An access of `m0` to a word of the slice of core 64. -/
def acc0 : Access :=
  { kind := .load, member := 0, launch := 1, core := 64, seq := 0, word := 0, addr := BitVec.ofNat 64 wafer, tgt := .loc 0x4040000,
    size := 4, fmt := .n32, data := 0, data2 := 0, bytes := [], dest := .g 5, attr := .strong, acq := false, rel := false,
    scope := .core, pol := .default, relSet := [], tok := 0, pc := 0, slot := 0, phase := .issued, value := 0, value2 := 0,
    hops := 0, param := 0, stamp := [], heldCause := 0, bad := none, descs := bigDesc }
def mTok : Member := m0.setTok 0 1
/-- A machine with some accesses and some bytes of memory. -/
def sAcc (l : List (Nat × Access)) (mem : Memory := []) : State := { sBig mTok with accs := l, mem := mem }

theorem witness_in_memory : InMemory (sAcc []) 0x4040000 16 ∧ InMemory (sAcc []) 0x4040100 8 ∧ InMemory (sAcc []) 0x4040200 8 :=
  ⟨inMemory_of _ _ _ (by decide +kernel), inMemory_of _ _ _ (by decide +kernel), inMemory_of _ _ _ (by decide +kernel)⟩

/-- Loads, stores and atomics that may be performed, one that an earlier store holds back, and values on their way back. -/
theorem witness_accesses :
    mayPerform (sAcc [(1, acc0)]) 1 acc0 = true ∧
    mayPerform (sAcc [(1, { acc0 with kind := .store })]) 1 { acc0 with kind := .store } = true ∧
    mayPerform (sAcc [(1, { acc0 with kind := .store }), (2, { acc0 with seq := 1 })]) 2 { acc0 with seq := 1 } = false ∧
    mayPerform (sAcc [(1, { acc0 with kind := .atom .fadd true, fmt := .fp32 })]) 1 { acc0 with kind := .atom .fadd true, fmt := .fp32 } = true ∧
    mayPerform (sAcc [(1, { acc0 with kind := .cas, size := 8, fmt := .n64 })]) 1 { acc0 with kind := .cas, size := 8, fmt := .n64 } = true ∧
    acc0.size = fmtSize acc0.fmt ∧ atomAccepts .fadd .fp32 = true ∧ Keyed (sAcc [(1, acc0)]).accs ∧
    memberAt (sAcc [(1, acc0)]) 0 = some mTok ∧ mTok.fences = [] ∧ mTok.wait ≠ .drain .eret := by decide +kernel

/-- The operations of the keepers: two words, a range, a list with one node, one with a bad node, a chase of one hop. -/
def keep (k : AccKind) (size : Nat) (data : Word64) : Access :=
  { acc0 with kind := k, size := size, fmt := .n64, data := data, dest := .g 4 }
/-- A node at the byte 0x40100 of the slice. -/
def node : Word64 := 0x2000000004040100
def nodeBytes : List Byte := bytesOf 8 node.toNat
def withCells (p : Nat) (b : List Byte) (m : Memory) : Memory := memWriteN m p b
theorem witness_keepers :
    mayPerform (sAcc [(1, keep .kcas2 8 0)]) 1 (keep .kcas2 8 0) = true ∧ 4 * 256 / 256 + 4 ≤ 8 ∧ 4 * 256 % 256 + 4 ≤ 8 ∧
    mayPerform (sAcc [(1, keep .kchunk 16 0)]) 1 (keep .kchunk 16 0) = true ∧
    memNat (sAcc [(1, keep .kdeq 16 0)] (withCells 0x4040000 nodeBytes [])) 0x4040000 8 = node.toNat ∧
    nodeAddr (sAcc []) (some (1, 64)) (keeperOf (sAcc []) 0x4040000) bigDesc Need.load node = (.inl 0x4040100, sAcc []) ∧
    nodeAddr (sAcc []) (some (1, 64)) (keeperOf (sAcc []) 0x4040000) bigDesc Need.atom node = (.inl 0x4040100, sAcc []) ∧
    nodeAddr (sAcc []) (some (1, 64)) (keeperOf (sAcc []) 0x4040000) bigDesc Need.load 0x2000000004040104 = (.inr 2, sAcc []) ∧
    nodeAddr (sAcc []) (some (1, 64)) (keeperOf (sAcc []) 0x4040000) bigDesc Need.atom 0x1000000000000000 = (.inr 1, sAcc []) ∧
    nodeAddr (sAcc []) (some (1, 64)) (keeperOf (sAcc []) 0x4040000) bigDesc Need.atom 0x2000000004040200 = (.inl 0x4040200, sAcc []) ∧
    homeField (sAcc []) 0x4040100 = homeField (sAcc []) 0x4040000 ∧
    (0x4040100 + 8 ≤ 0x4040000 ∨ 0x4040000 + 16 ≤ physOf (sAcc []) 0x4040100) ∧
    mayPerform (sAcc [(1, keep .kchase 8 1)]) 1 (keep .kchase 8 1) = true ∧
    nodeAddr (sAcc []) (some (1, 64)) (keeperOf (sAcc []) 0x4040000) bigDesc Need.load (node + BitVec.ofNat 64 (8 * 15)) =
      (.inl 0x4040178, sAcc []) := by decide +kernel

/-- Sync words: an arming, counts below and at the target, a waiter that registers, one whose generation differs, one that returns. -/
def mSwait : Member := { mTok with wait := .swait 1 }
def sSwait (a : Access) : State := { sAcc [(1, a)] with members := [(0, mSwait)] }
theorem witness_sync_words :
    mayPerform (sAcc [(1, keep .sarm 16 3)]) 1 (keep .sarm 16 3) = true ∧
    mayPerform (sAcc [(1, keep .sadd 16 3)]) 1 (keep .sadd 16 3) = true ∧
    memNat (sAcc [] (withCells 0x4040000 [3] [])) 0x4040000 4 = 3 ∧ memNat (sAcc []) 0x4040000 4 = 0 ∧
    mayPerform (sSwait (keep .swait 16 0)) 1 (keep .swait 16 0) = true ∧ memberAt (sSwait (keep .swait 16 0)) 0 = some mSwait ∧
    memNat (sSwait (keep .swait 16 7)) 0x4040008 4 ≠ (lo32 (keep .swait 16 7).data).toNat ∧
    memNat (sSwait (keep .swait 16 0)) 0x4040008 4 = (lo32 (keep .swait 16 0).data).toNat ∧
    seated mSwait = true ∧ mSwait.fences = [] ∧ mSwait.terminating = false ∧
    tabGet (sAcc [(1, keep .sadd 16 3), (2, { keep .swait 16 0 with phase := .registered })]).accs 2 =
      some { keep .swait 16 0 with phase := .registered } := by decide +kernel

/-- Fences with nothing to cover and with one access; a release that holds a later access back; the token's limit. -/
def fence1 : FenceRec := { seq := 1, rel := true, acq := true, waits := [1], reads := [], tok := none, trig := false, io := false, bar := none }
def sFence : State :=
  { sAcc [(1, { acc0 with kind := .store, tok := 6 }), (2, { acc0 with seq := 1 })] with members := [(0, { mTok with fences := [fence1] })] }
theorem witness_fences :
    fenceSet s0 0 .module = [] ∧ (fenceSet (sAcc [(1, { acc0 with kind := .store, tok := 6 })]) 0 .core).map (·.1) = [1] ∧
    fenceSet (sAcc [(1, acc0)]) 0 .pod = [] ∧ Keyed (sAcc [(1, acc0)]).accs ∧ tokCount m0 5 < 255 ∧ tokCount (m0.setTok 5 255) 5 = 255 ∧
    fence1 ∈ ({ mTok with fences := [fence1] } : Member).fences ∧ fence1.waits ≠ [] ∧ fence1.seq ≤ ({ acc0 with seq := 1 } : Access).seq ∧
    acc0.kind.fenced = true ∧ acc0.kind.isIo = false ∧ m0.fences = [] ∧ m0.wait ≠ .drain .eret := by decide +kernel

/-- Barriers: the first arrival and the 2^32nd; a wait for an instance that is done, one that is not, one never arrived at; an instance
that is due and one that is not; a waiter that may go on. -/
def mArrived : Member := { m0 with arrivals := m0.arrivals.set 1 1 }
def launchBar : Launch := { fetchLaunch with barriers := [(.core, 64, 1)] }
def mBar : Member := { mArrived with wait := .barrier .core 64 1 }
theorem witness_barriers :
    scopeIndex .core = 1 ∧ m0.arrivals[scopeIndex .core] + 1 = 1 ∧ mArrived.arrivals[scopeIndex .core].toNat = 1 ∧
    (1 : Nat) ≤ barDone launchBar .core (scopeUnit s0 .core 0 64) ∧ barDone fetchLaunch .core 64 < 1 ∧
    launchAt s0 1 = some fetchLaunch ∧
    (∃ e ∈ unitCells (sAs mArrived) 1 .core 64, 1 ≤ e.2.arrivals[scopeIndex .core].toNat) ∧
    (∀ e ∈ unitCells (sAs mArrived) 1 .core 64, hasArrived e.2 .core 1 = true) ∧
    unitCells s0 1 .core 64 ≠ [] ∧ hasArrived m0 .core 1 = false ∧
    launchAt { sAs mBar with launches := [(1, launchBar)] } 1 = some launchBar ∧ seated mBar = true ∧ mBar.terminating = false := by
  decide +kernel

/-! ### Engines -/

def cmd0 : Cmd :=
  { kind := .copy, order := 0, member := 0, launch := 1, word := 0, regs := [0, 0, 0, 0], va := mkView 2 0 wafer 4 1,
    vb := mkView 2 0 (wafer + 64) 4 1, vc := 0, sa := 0, sb := 0, rm := .rne, fz := false, sat := false, tok := 0, docent := false,
    followOf := none, e0 := 0, count := 4, sync := 0, reads := [], writes := [], rplanes := [], wplanes := [], unread := true,
    after := [], descs := bigDesc, phase := .queued, segs := [], followPlaced := false }
def seg0 : Segment := { bytes := 16, accs := [], landed := false, counted := false }
def sEng (e : Engines) : State := { sBig mTok with cores := [(64, { CoreUnit.reset with eng := e })] }
def sCmd (x : Cmd) : State := sEng { Engines.reset with cmds := [(1, x)] }
def noExt : PeerBytes := []

/-- A block that passes every check, one of a bad shape, one beyond its views, and an array that another launch holds. -/
def viewA : ViewBits := mkView 9 0 wafer 32 16
def viewB : ViewBits := mkView 9 0 (3 * 2 ^ 60) 32 16 ||| (1#256 <<< 218)
def mm0 (r2 : Word) (b : ViewBits) : Cmd := { cmd0 with kind := .mmab .bf16, regs := [3, 1, r2, 0], va := viewA, vb := b }
theorem witness_commands :
    cmdFault (sCmd cmd0) 64 (mm0 15 viewB) = none ∧ cmdFault (sCmd cmd0) 64 (mm0 15 viewA) = some (0x04, 0) ∧
    cmdFault (sCmd cmd0) 64 (mm0 16 viewB) = some (0x0D, 1) ∧
    cmdFault (sEng { Engines.reset with owner := some 2 }) 64 (mm0 15 viewB) = some (0x0D, 2) ∧
    cmdFault (sEng { Engines.reset with owner := some 2 }) 64 { cmd0 with kind := .mzero 3 } = some (0x0D, 2) ∧
    queueFull (sCmd cmd0) 64 .copy = false ∧
    queueFull (sEng { Engines.reset with cmds := (List.range 16).map fun i => (i, cmd0) }) 64 .copy = true ∧
    cmdFault (sCmd cmd0) 64 { cmd0 with kind := .copy } = none ∧
    isCancelled 0 1 cmd0 = true ∧ isCancelled 1 7 cmd0 = false ∧ Keyed (cmdsOf (sCmd cmd0) 64) := by decide +kernel

/-- A copy that may run, one that waits, one whose write is outside its source; a segment that lands; a follow-on; an end. -/
def runs0 : Cmd := { cmd0 with phase := .running, unread := false, segs := [{ seg0 with landed := true }] }
def copyVirt : Cmd := { cmd0 with vb := mkView 2 0 virt 4 1 }
def copyBeyond : Cmd := { cmd0 with vb := mkView 2 0 (2 ^ 60) 0x100000 1 }
theorem witness_copies :
    cmdAt (sCmd cmd0) 64 1 = some cmd0 ∧ cmd0.kind.unit = .copy ∧ cmdReady (sCmd cmd0) 64 1 cmd0 = true ∧
    cmdReady (sCmd { cmd0 with after := [9] }) 64 1 { cmd0 with after := [9] } = true ∧
    cmdReady { sCmd cmd0 with accs := [(9, acc0)] } 64 1 { cmd0 with after := [9] } = false ∧
    (match engineReads (sCmd cmd0) 64 cmd0 noExt (copyReads cmd0 (segmentOf cmd0 0).1 (segmentOf cmd0 0).2) with
      | (.ok r, s1) => match engineStores s1 64 1 0 cmd0 (copyStores cmd0 (segmentOf cmd0 0).1 (segmentOf cmd0 0).2 r) with
        | (.ok l, s2) => decide (cmdAt s2 64 1 = some cmd0 ∧ l ≠ [] ∧ overBudget (sCmd cmd0) s1 64 = false)
        | _ => false
      | _ => false) = true ∧
    (match engineReads (sCmd copyVirt) 64 copyVirt noExt (copyReads copyVirt 0 4) with
      | (.held _ _, _) => true | _ => false) = true ∧
    (match engineReads (sCmd copyBeyond) 64 copyBeyond noExt (copyReads copyBeyond 0xFFFFC 4) with
      | (.fail _, _) => true | _ => false) = true ∧
    accsDone (sCmd runs0) [] = true ∧ accsDone { sCmd runs0 with accs := [(9, acc0)] } [9] = false ∧
    copyDone (sCmd runs0) runs0 = true ∧ queueFull (sCmd runs0) 64 (.mmab .se4) = false ∧ (1 : Nat) ≠ (sCmd runs0).sched.nextId + 5 ∧
    ({ cmd0 with phase := .held } : Cmd).phase = .held ∧ (coreAt (sCmd cmd0) 64).eng.prog = none ∧
    mayPerform (sAcc [(1, { acc0 with kind := .engineWrite 1 0, bytes := [(0x4040000, 1), (0x4040001, 2)], size := 2 })]) 1
      { acc0 with kind := .engineWrite 1 0, bytes := [(0x4040000, 1), (0x4040001, 2)], size := 2 } = true := by decide +kernel

/-- The array: planes at the edges of their range, commands of each kind that may run, and one whose plane is not full. -/
def arr (k : CmdKind) (va vb : ViewBits) (regs : List Word) : Cmd := { cmd0 with kind := k, va := va, vb := vb, regs := regs }
def mmSe : Cmd := arr (.mmab .se4) (mkView 0x11 0 wafer 16 16) (mkView 0x11 0 (wafer + 0x1000) 16 16) [0, 0, 0, 0]
def mload0 : Cmd := arr (.mload 3) (mkView 10 0 wafer 16 16) 0 [0, 0, 0, 0]
theorem witness_array :
    (3 : Nat) < 4 ∧ (2 : Nat) < 3 ∧ (mm0 0 viewB).kind.unit = .array ∧
    cmdReady (sCmd (arr (.mzero 3) 0 0 [])) 64 1 (arr (.mzero 3) 0 0 []) = true ∧
    (∀ f, partStateOf Engines.reset 0 ≠ .full f) ∧
    arrayBad Engines.reset mmSe = false ∧
    (match engineReads (sCmd mmSe) 64 mmSe noExt (arrayReads mmSe) with
      | (.ok l, s1) => decide (cmdAt s1 64 1 = some mmSe ∧ l.length = 32 ∧ overBudget (sCmd mmSe) s1 64 = false)
      | _ => false) = true ∧
    tileFmt mload0.va = some .fp32 ∧
    (match engineReads (sCmd mload0) 64 mload0 noExt (arrayReads mload0) with
      | (.ok l, s1) => decide (cmdAt s1 64 1 = some mload0 ∧ l.length = 256)
      | _ => false) = true := by
  refine ⟨by decide, by decide, by decide +kernel, by decide +kernel, fun f => ?_, by decide, by decide +kernel⟩
  simp [partStateOf, Engines.reset]

/-- The docent: steps of every kind that a program can stand at, a reserved one, and a yield point. -/
def drun0 : Cmd := { cmd0 with kind := .drun 0, phase := .running }
def prog0 (pc : Nat) : Program :=
  { cmd := 1, pc := pc, ending := false, yielded := false, steps := [], captured := false, room := 0, written := [], start := ([], []) }
def sDoc (steps : List Word64) (pc : Nat) : State :=
  { sEng { Engines.reset with cmds := [(1, drun0)], prog := some (prog0 pc), docMem := steps, loops := [0, 0, 0, 0], listLaunch := some 1 } with
    members := [(0, mTok)] }
def loopStep : Word64 := 0x7000040000000000
def setlStep : Word64 := 0x8000000000000005
theorem witness_docent :
    stepReserved 0 = false ∧ stepKind 0 = 0 ∧ stepReserved 1 = true ∧
    stepReserved 0x0800000000000000 = true ∧ stepReserved 0x8800000000000005 = false ∧ stepY 0x8800000000000005 = true ∧
    stepsDone (sDoc [0] 0) 64 (prog0 0) = true ∧ stepsDone (sDoc [0] 0) 64 { prog0 0 with steps := [1] } = false ∧
    stepKind loopStep = 7 ∧ stepReserved loopStep = false ∧ stepKind setlStep = 8 ∧ stepReserved setlStep = false ∧
    stepKind 0x9000000000000000 = 9 ∧ stepReserved 0x9000000000000000 = false ∧ (510 : Nat) < 511 ∧
    ((0 : Word) + 1).toNat < natBits loopStep.toNat 41 16 ∧ natBits 0x7000020000000000 41 16 ≤ ((0 : Word) + 1).toNat ∧
    drun0.kind.unit = .docent ∧ cmdReady (sCmd { drun0 with phase := .queued }) 64 1 { drun0 with phase := .queued } = true ∧
    (coreAt (sCmd drun0) 64).eng.listLaunch = none ∧ (coreAt (sDoc [] 0) 64).eng.listLaunch = some 1 ∧
    [1, 2, 3, 4, 5, 6].map (fun n => stepKind (BitVec.ofNat 64 (n * 2 ^ 60))) = [1, 2, 3, 4, 5, 6] ∧
    [1, 2, 3, 4, 5, 6].map (fun n => stepReserved (BitVec.ofNat 64 (n * 2 ^ 60))) = [false, false, false, false, false, false] := by
  decide +kernel
/-- A program that stands at its first step. -/
theorem stepping_of {w : Word64} (hl : stepReserved w = false) (hy : stepY w = false) : Stepping (sDoc [w] 0) 64 (prog0 0) drun0 w :=
  ⟨rfl, rfl, rfl, rfl, hl, fun h => absurd (hy.symm.trans h) (by decide)⟩
theorem witness_stepping :
    Stepping (sDoc [loopStep] 0) 64 (prog0 0) drun0 loopStep ∧ Stepping (sDoc [0x3000000000000000] 0) 64 (prog0 0) drun0 0x3000000000000000 :=
  ⟨stepping_of (by decide +kernel) (by decide +kernel), stepping_of (by decide +kernel) (by decide +kernel)⟩
/-- A word of the list of a TMMA and a SIGNAL whose sync word has its place. -/
def tmma0 : Cmd := { cmd0 with kind := .tmma 511, va := mkView 3 0 wafer 4 1 }
theorem witness_docent_reads :
    (match engineReads (sCmd tmma0) 64 tmma0 noExt (plainElems 0 tmma0.va 0 (View.count tmma0.va)) with
      | (.ok l, _) => decide (l.length = 4) | _ => false) = true ∧
    View.valid (mkView 2 0 wafer 4 1) = true ∧ View.fmt (mkView 2 0 wafer 4 1) = 2 ∧
    elementAddress (mkView 2 0 wafer 4 1) 4 (exprValue [0, 0, 0, 0] 0).toNat = .addr (BitVec.ofNat 64 wafer) ∧ wafer % 16 = 0 ∧
    elementAddress (mkView 2 0 wafer 4 1) 4 (exprValue [0, 0, 0, 0] 1).toNat = .addr (BitVec.ofNat 64 (wafer + 4)) ∧
    (resolveIn (sCmd tmma0) bigDesc 64 64 true Need.atom (BitVec.ofNat 64 wafer) 16) = (.ok ⟨.loc 0x4040000, .strong, 0⟩, sCmd tmma0) := by
  decide +kernel

/-! ### Exceptions -/

def fault0 : FaultInfo :=
  { cause := 0x0E, detail := 5, word := 0xD007, addr := 0, fetchStage := false, async := false, slot := 0, from_ := none, direct := false }
def mHigh : Member := mG [(63, 1024)]
def mLow (n : Word) : Member := mG [(63, n)]
/-- A fault routed, in trap mode, with no room (g63 below 128, and one byte more), without a segment, without W, and taken. -/
theorem witness_trap_entry :
    memberAt (sBig mHigh) 0 = some mHigh ∧ ctxAt (sBig mHigh) 1 64 = some ctxBig ∧ mHigh.trapMode = false ∧
    ({ mHigh with trapMode := true } : Member).trapMode = true ∧ ctxBig.trapEntry ≠ 0xFFFFFFFF ∧ ctxBig.route.getLsbD 0x0E = false ∧
    fetchCtx.trapEntry = 0xFFFFFFFF ∧ ((mLow 127).r.getG 63).toNat < 128 ∧ 128 ≤ ((mLow 128).r.getG 63).toNat ∧
    (mLow 128).stackBase ≤ (((mLow 128).r.getG 63 - 128) &&& ~~~(0xF : Word)).toNat ∧
    Desc.v bigDesc[0] = true ∧ Desc.w bigDesc[0] = true ∧ ((1024 - 128 : Word) &&& ~~~(0xF : Word)).toNat + 128 ≤ Desc.limit bigDesc[0] ∧
    holdsMemory (sBig mHigh) (mHigh.home * 0x100000 + Desc.base bigDesc[0] + 896) = true ∧
    Desc.v (0 : DescBits) = false ∧ Desc.w (BitVec.ofNat 128 (3 * 2 ^ 100 + 0x10000 * 2 ^ 64)) = false := by decide +kernel

def mAsync : Member := { m0 with async := [{ fault0 with async := true }], wait := .ready }
theorem witness_async :
    memberAt (sBig mAsync) 0 = some mAsync ∧ mAsync.slot = 0 ∧ seated mAsync = true ∧ inGroup (sBig mAsync) 0 64 = false ∧
    ctxBig.switching = false ∧ ctxBig.isOut = false ∧ m0.async = [] := by decide +kernel

/-- A trap record in memory with each value of RESUME, and the clause that it names. -/
def mInTrap : Member := { mG [(63, 896)] with trapMode := true, trapRec := 896 }
def recordBytes (slot resume flags : Nat) : List Byte :=
  List.replicate 16 0 ++ bytesOf 4 0 ++ [BitVec.ofNat 8 slot, 0x0E, BitVec.ofNat 8 resume, 0] ++ List.replicate 62 0 ++ [BitVec.ofNat 8 flags]
def sInTrap (slot resume flags : Nat) : State :=
  { sBig mInTrap with
    mem := memWriteN (memWriteN [] (sliceBase 64 + 0x20000 + 896) (recordBytes slot resume flags)) (sliceBase 64)
      (bytesOf 8 0xC100000000000000) }
theorem witness_trap_return :
    let p := fun s => physOf s (cellPa s mInTrap mInTrap.trapRec.toNat)
    memNat (sInTrap 1 0 0) (p (sInTrap 1 0 0) + 22) 1 = 0 ∧ memNat (sInTrap 1 1 1) (p (sInTrap 1 1 1) + 22) 1 = 1 ∧
    memNat (sInTrap 1 1 1) (p (sInTrap 1 1 1) + 86) 1 = 1 ∧ memNat (sInTrap 1 1 0) (p (sInTrap 1 1 0) + 86) 1 = 0 ∧
    memNat (sInTrap 0 1 0) (p (sInTrap 0 1 0) + 20) 1 % 16 = 0 ∧ memNat (sInTrap 1 2 0) (p (sInTrap 1 2 0) + 22) 1 = 2 ∧
    memNat (sInTrap 1 3 0) (p (sInTrap 1 3 0) + 22) 1 = 3 ∧
    codeWord (sInTrap 0 1 0) ctxBig 64 0 = some 0xC100000000000000 ∧ ((0xC100000000000000 : Word64).extractLsb' 56 4).toNat = 1 := by
  decide +kernel

def mSvc (sent : Bool) : Member := { mG [(0, 0xFFFFFFFF)] with wait := .svc 1 sent }
theorem witness_services :
    memberAt (sBig (mSvc true)) 0 = some (mSvc true) ∧ seated (mSvc true) = true ∧ (mSvc true).fences = [] ∧
    (mSvc true).terminating = false ∧ (mSvc true).r.getG 0 = 0xFFFFFFFF ∧ ctxAt (sBig (mSvc false)) 1 64 = some ctxBig ∧
    ¬ ((0x7FF : Word) = 0xFFFFFFFF ∨ 8 * (0x7FFF : Word).toNat + 8 ≤ Desc.limit bigDesc[5]) ∧
    8 * (0x7FE : Word).toNat + 8 ≤ Desc.limit bigDesc[5] ∧ (0xFF : Word).toNat < 0x100 ∧ 0x100 ≤ (0x100 : Word).toNat ∧
    (∀ n, n ≤ 6 → tokCount mInTrap n = 0) ∧ mInTrap.trapMode = true := by decide +kernel

/-! ### Privileged instructions -/

def sSys (m : Member) : State := { sBig m with launches := [(1, { fetchLaunch with system := true })] }
theorem witness_privilege :
    needsSystem (fun _ => none) (sSys m0) m0 = none ∧ needsSystem (fun _ => none) s0 m0 = some 0x02 ∧
    needsSystem (fun m => srcFault m .w64 (.g 3)) (sSys m0) m0 = some 0x01 := by decide +kernel
theorem witness_segments :
    Desc.legal 0 bigDesc[0] = true ∧ Desc.legal 5 fetchDesc[5] = true ∧ Desc.legal 1 bigDesc[0] = false ∧ (5 : BitVec 3).toNat < 6 ∧
    (bigDesc : Vector DescBits 6)[(5 : BitVec 3).toNat]? = some bigDesc[5] := by decide +kernel
def shoot0 (started : Bool) (waits : List Nat) : Shoot :=
  { seq := 1, lo := 0x1000, pages := 1, asn := 7, all := false, member := 0, tok := 0, waits := waits, started := started }
def sShoot (x : Shoot) : State := { sBig mTok with mod := { ModuleUnit.reset with shoots := [x], shootSeq := 1 } }
def walk0 (tag va : Nat) : Walk := { ahead := false, tag := tag, root := 0, asn := 7, va := va, entry := none }
theorem witness_translation :
    tokCount m0 0 < 255 ∧ (sShoot (shoot0 false [])).mod.shoots.find? (·.seq == 1) = some (shoot0 false []) ∧
    allPerformed (sShoot (shoot0 false [])) [] = true ∧
    allPerformed { sShoot (shoot0 false [9]) with accs := [(9, acc0)] } [9] = false ∧
    memberAt (sShoot (shoot0 true [])) 0 = some mTok ∧ mTok.wait ≠ .drain .eret ∧ (∀ e ∈ (sShoot (shoot0 false [])).accs, e.2.performed = true) ∧
    (shoot0 true []).covers 0x1FFF 12 7 false = true ∧ (shoot0 true []).covers 0x2000 12 7 false = false ∧
    (walk0 0 0x1FFF).tag ≠ 1 ∧ (1 + 2 ^ 32 - (walk0 0 0).tag) % 2 ^ 32 < 2 ^ 31 ∧
    ¬ (1 + 2 ^ 32 - (walk0 2 0).tag) % 2 ^ 32 < 2 ^ 31 := by decide +kernel

/-! ### Registers of units -/

/-- An STIO of 64 bits to a register that stands at its unit. -/
def ioAcc (addr data : Word64) : Access := { acc0 with kind := .ioWrite true, addr := addr, data := data, size := 8 }
def sIo (addr data : Word64) : State := sAcc [(1, ioAcc addr data)]
/-- Every register that has an event of its own, and one that has none. -/
theorem witness_io_writing (addr data : Word64) (u : IoUnit) (h : ioUnitOf addr = some u) :
    IoWriting (sIo addr data) 1 (ioAcc addr data) true u (ioReg addr) (ioLanes addr true data) :=
  ⟨rfl, rfl, h, rfl, rfl, rfl⟩

/-- The registers: of a field and a core, the module's lowest and last of each table, the ranges, the suspect, the optics and REQ; an
address of no unit; and a read of the checkpoint-due register. -/
def modAddr (off : Nat) : Word64 := BitVec.ofNat 64 (4 * 2 ^ 44 + off)
theorem witness_registers :
    ioUnitOf 0x0000100100000010 = some (.field 1) ∧ actsItself (.field 1) 0x10 (1, 2 ^ 64 - 1) = false ∧
    ioUnitOf 0x0000004000000010 = some (.core 64) ∧ actsItself (.core 64) 0x10 (1, 1) = false ∧
    ioUnitOf (modAddr 0) = some .module ∧
    ([0x000, 0x008, 0x010, 0x100, 0x108, 0x110, 0x200, 0x278, 0x280, 0x288, 0x290, 0x300, 0x310, 0x408, 0x5F8, 0x1000, 0x13F8,
      0x2000, 0x3FF8, 0x8000, 0x9FE0, 0x10000, 0x1FFF0].all fun off => !actsItself .module off (0, 2 ^ 64 - 1)) = true ∧
    actsItself .module 0x380 (0, 2 ^ 64 - 1) = false ∧
    actsItself .module 0x4000 (0, 0) = true ∧ actsItself .module 0x120 (2 ^ 63, 2 ^ 63) = true ∧
    ioUnitOf 0x0001400000000000 = none ∧ ioUnitOf 0x0000600000000000 = none ∧
    bundleReg? (.optics 63) 0x7000 = some (511, 0) ∧ bundleReg? (.optics 0) 0x78 = some (0, 0x78) ∧
    bundleReg? (.optics 0) 0x18 = some (0, 0x18) ∧ bundleReg? .module 0 = none ∧
    ioReg (modAddr 0x298) = 0x298 ∧
    ioReady (sAcc [(1, { acc0 with kind := .ioRead true, addr := modAddr 0x298 })]) 1
      { acc0 with kind := .ioRead true, addr := modAddr 0x298 } = true ∧
    (modAddr 4).toNat % 2 ^ 32 % 8 ≠ 0 ∧ (modAddr 8).toNat % 2 ^ 32 % 8 = 0 := by decide +kernel

/-- The lanes of the writes that have an event of their own. -/
theorem witness_commands_of_units :
    natBit (ioLanes 0x0000004000000008 true 0x40).2 0 = true ∧ natBits (ioLanes 0x0000004000000008 true 0x40).1 6 2 = 1 ∧
    natBits (ioLanes 0x0000004000000008 true 0x80).1 6 2 = 2 ∧ natBits (ioLanes 0x0000004000000018 true 2).1 0 2 = 2 ∧
    natBit (ioLanes 0x000000400000000C false 0).2 0 = false ∧
    natBits (ioLanes 0x0000100100000008 true 3).1 0 2 = 3 ∧ actsItself (.field 1) 8 (3, 2 ^ 64 - 1) = true ∧
    ((ioLanes (modAddr 0x380) true 0x100).1 &&& (ioLanes (modAddr 0x380) true 0x100).2).testBit 8 = true ∧
    (ioLanes (modAddr 0x388) true 16).2.testBit 4 = true ∧ (ioLanes (modAddr 0x38C) false 16).2.testBit 4 = false := by decide +kernel

/-- IDLE: no event, a record, a timeout, an I/O event, a bundle that has failed, one at its threshold. -/
def mIdle : Member := { m0 with wait := .idle (.g 3) (some 4800000) }
theorem witness_idle :
    memberAt (sAs mIdle) 0 = some mIdle ∧ seated mIdle = true ∧ mIdle.terminating = false ∧
    s0.mod.wr = s0.mod.rd ∧ s0.mod.events = [] ∧ s0.optics = [] ∧ ({ ModuleUnit.reset with wr := 1 } : ModuleUnit).rd ≠ 1 ∧
    ({ Bundle.reset with even := true, thresh := 1, queued := [3] } : Bundle).thresh.toNat ≤ 1 := by decide +kernel

def record0 : Record :=
  { word := 0, addr := 0, pc := 0, slot := 0, cause := 0x10, pred := 0, detail := 0, gsave := [0, 0, 0, 0], lat := [0, 0, 0, 0],
    time := 0, flags := 0, from_ := 0, who := 0, extra := 0 }
/-- The ring lies in the slice of core 64; it has room for its last record, and it is full one later. -/
def sRing (wr : Word) : State := { s0 with mod := { ModuleUnit.reset with recBuf := [record0], rbase := 0x82000, wr := wr } }
theorem witness_ring :
    InMemory (sRing 15) (128 * (sRing 15).mod.rbase.toNat + 128 * ((sRing 15).mod.wr.toNat % 16)) 128 ∧
    ((sRing 15).mod.wr - (sRing 15).mod.rd).toNat < 2 ^ ((sRing 15).mod.rk.toNat + 4) ∧
    2 ^ ((sRing 16).mod.rk.toNat + 4) ≤ ((sRing 16).mod.wr - (sRing 16).mod.rd).toNat ∧ record0.gsave.length = 4 ∧ record0.lat.length = 4 :=
  ⟨inMemory_of _ _ _ (by decide +kernel), by decide +kernel⟩

/-- An operand-log entry that waits, at the ends of the log; a member that stopped, one whose SPAWN is held. -/
def logged : Access := { acc0 with phase := .logged, heldCause := 1, addr := BitVec.ofNat 64 virt }
def logEntry : LogEntry :=
  { acc := 1, member := 0, word := 0, addr := BitVec.ofNat 64 virt, data := 0, data2 := 0, pc := 0, slot := 0, token := 0, cause := 1,
    who := 0, time := 0, waiting := true, disposed := none, detail := 0 }
def sLog (i : Nat) : State := { sAcc [(1, logged)] with cores := [(64, { CoreUnit.reset with log := [(i, logEntry)] })] }
theorem witness_waits (i : Nat) : Waits (sLog i) 64 i logEntry logged mTok :=
  ⟨by simp [coreAt, sLog, tabGet], ⟨by simp [coreAt, sLog, tabGet, Keyed], by simp [sLog, sAcc, Keyed]⟩, rfl, rfl, .inl rfl, ⟨rfl, rfl, rfl⟩, rfl,
    by decide +kernel⟩
def mStopped : Member := { mHigh with wait := .stopped, stopRec := some fault0 }
def mHeldSlot : Member := { mHigh with wait := .heldSlot 1 (BitVec.ofNat 64 virt) }
theorem witness_dispositions :
    (resolveIn (sLog 63) bigDesc 64 64 false Need.load (BitVec.ofNat 64 virt) 4).1 = .held 1 ∧
    (resolveIn (sLog 0) bigDesc 64 64 false Need.load (BitVec.ofNat 64 wafer) 4).1 = .ok ⟨.loc 0x4040000, .strong, 0⟩ ∧
    logged.bad = none ∧ logged.size ≠ 0 ∧ natBits 63 0 6 = 63 ∧
    namedMember (sBig mStopped) 64 = some (0, mStopped) ∧ hasEnded mStopped = false ∧ Keyed (sBig mStopped).members ∧
    mStopped.joinTails = [] ∧ mStopped.fences = [] ∧ namedMember (sBig mHeldSlot) 64 = some (0, mHeldSlot) := by decide +kernel

/-! ### Optics -/

def sOptics (b : Bundle) : State := { s0 with optics := [(0, b)] }
theorem witness_optics :
    (bundleAt (sOptics { Bundle.reset with waking := 1 }) 0).waking.getLsbD 0 = true ∧
    (bundleAt s0 0).waking.getLsbD 0 = false ∧ (bundleAt s0 0).waiting = none ∧ (bundleAt s0 0).auto.getLsbD 7 = true ∧
    (bundleAt (sOptics { Bundle.reset with auto := 0x7F }) 0).auto.getLsbD 7 = false ∧
    (bundleAt (sOptics { Bundle.reset with parking := 0x80, act := 0x7F }) 0).parking.getLsbD 7 = true ∧
    (bundleAt (sOptics { Bundle.reset with parking := 0x80, act := 0x7F }) 0).act.getLsbD 7 = false ∧
    (bundleAt (sOptics { Bundle.reset with state := 2 }) 0).state = 2 ∧ s0.mod.time < ({ Bundle.reset with busyUntil := 1 } : Bundle).busyUntil ∧
    (bundleAt s0 0).busyUntil ≤ s0.mod.time ∧ (bundleAt s0 0).queued.length < 8191 ∧ 7 % 8 = 7 ∧
    (bundleAt (sOptics { Bundle.reset with queued := [8] }) 0).queued = [8] ∧ hasCredit (portAt s0 0) 8 = true ∧
    hasCredit { Port.reset with pool := [(1, 4000), (8, 34)] } 8 = false ∧
    hasCredit { Port.reset with pool := [(1, 4000), (8, 33)] } 8 = true ∧
    (({ Bundle.reset with act := 0x0F, parking := 0x0F } : Bundle).act &&& ~~~(0x0F : BitVec 8)) ||| 0 = 0 ∧
    (bundleAt (sOptics { Bundle.reset with markers := [3] }) 0).markers = [3] := by decide +kernel

/-! ### Contexts that switch -/

def ctxOther : Ctx := { ctxBig with number := 1, switching := true, archived := true }
def sOther (c : Ctx) : State :=
  { sSys m0 with
    launches := [(1, { fetchLaunch with system := true }), (2, fetchLaunch)], ctxs := [(ctxKey 1 64, ctxBig), (ctxKey 2 64, c)] }
theorem witness_named :
    Named (sOther ctxOther) 64 1 2 ctxOther ∧ Named (sOther ctxOther) 64 0 1 ctxBig ∧ Unnamed (sOther ctxOther) 64 2 ∧
    Unnamed (sOther ctxOther) 65 0 ∧ ctxOther.archived = true ∧ ctxBig.archived = false := by
  unfold Unnamed
  exact ⟨⟨rfl, rfl, rfl, by decide +kernel⟩, ⟨rfl, rfl, rfl, by decide +kernel⟩, by decide +kernel, by decide +kernel, rfl, rfl⟩

def job0 (kind : JobKind) (restoring : Bool) : Job :=
  { kind := kind, launch := 2, core := 64, target := 64, image := { phys := true, addr := 0x4050000, descs := bigDesc, core := 64, home := 64 },
    member := 0, tok := 0, dst := .g 2, word := 0, restoring := restoring, status := 0 }
def sJob (c : Ctx) (j : Job) : State := { sOther c with mod := { ModuleUnit.reset with jobs := [j] } }
/-- The header of an image without members, with a window of one view. -/
def header0 : List Byte :=
  List.replicate 11 0 ++ [1] ++ List.replicate 20 0 ++
    ([0, 1, 2, 3, 4, 2] : List Byte).flatMap (fun sp => List.replicate 12 0 ++ [sp, 0, 0, 0]) ++ List.replicate 160 0
/-- A switch-out that may take place and one whose members have not drained; a restore that finds its room and one that does not; headers
that are well formed and not. -/
theorem witness_switches :
    switchReady (sJob ctxOther (job0 .save false)) 2 64 = true ∧ (sJob ctxOther (job0 .save false)).mod.jobs ≠ [] ∧
    switchReady { sJob ctxOther (job0 .save false) with members := [(0, m0), (1, { m0 with launch := 2, drain := 1 })] } 2 64 = false ∧
    headerOk [] = false ∧ m0.kind = .grid ∧ m0.done + 1 < 2 ^ 32 ∧
    (match putBack (sJob { ctxOther with isOut := true } (job0 .rollback true)) 2 64 64 header0 with
      | .ok _ => true | _ => false) = true ∧
    (match putBack (sJob { ctxOther with isOut := true } (job0 .rollback true)) 2 64 64 ([0, 0, 0, 0, 0, 0, 0, 0, 1] ++ header0.drop 9) with
      | .no _ => true | _ => false) = true ∧
    headerOk header0 = true ∧
    launchAt (sOther ctxOther) 2 = some fetchLaunch ∧ fetchLaunch.phase = .running := by decide +kernel

/-- The watchdog at its limit and one tick before; a docent that overran; a poisoned load; a context that is due; a unit to replay. -/
def sWatch (time : Nat) : State := { s0 with mod := { ModuleUnit.reset with time := time } }
def unit0 : Unit301 := { core := 64, launch := 1, steps := [], loops := [], accs := [], size := 0, signature := 0 }
theorem witness_watchdog :
    watched s0 1 64 fetchCtx = true ∧ watchdogTicks s0 ≤ (sWatch (watchdogTicks s0)).mod.time ∧
    ¬ watchdogTicks s0 ≤ (sWatch (watchdogTicks s0 - 1)).mod.time ∧ fetchLaunch.pkt.persistent = false ∧
    ({ fetchPacket with persistent := true, interval := 3 } : LaunchPkt).interval * 76800 = 230400 ∧
    (4800000 : Nat) ≤ (sWatch 4800000).mod.time ∧ drun0.kind.unit = .docent ∧ drun0.docent = false ∧
    crosses (sAcc [(1, acc0)]) acc0 = false ∧ orderPasses (sAcc [(1, acc0)]) 1 acc0 = true ∧
    physOf (sAcc []) (0x4040002 / 8 * 8) < physOf (sAcc []) 0x4040000 + acc0.size ∧
    physOf (sAcc []) 0x4040000 < physOf (sAcc []) (0x4040002 / 8 * 8) + 8 ∧
    s0.mod.period.toNat * 4800 ≤ (sWatch 96000000).mod.time ∧ s0.mod.units = [] ∧ replayCore s0 64 = some 128 ∧
    (3 : Nat) ≤ 7 ∧ Keyed s0.ctxs := by decide +kernel

/-! ### Clocks, power and service -/

theorem witness_clocks :
    fieldExists 1 = true ∧ fieldExists 62 = true ∧ (15 : Nat) < 16 ∧
    (quadAt { s0 with quads := [(16, { QuadUnit.reset with settling := some 3 })] } 16).settling = some 3 ∧
    (quadAt s0 16).settling = none ∧ (7 : Nat) < 8 ∧ (3 : Nat) < 4 ∧ (∀ c ∈ CoreUnit.reset.pipe, c < 4) ∧ fetchCtx.isOut = false := by
  decide +kernel

def sEvict (e : Evict) (time : Nat) : State := { s0 with mod := { ModuleUnit.reset with evict := e, time := time } }
theorem witness_eviction :
    s0.mod.evict = .idle ∧ (sEvict .quiescing 0).mod.evict = .quiescing ∧
    (∀ e ∈ ({ sEvict .quiescing 0 with ctxs := [(ctxKey 1 64, { fetchCtx with isOut := true })] } : State).ctxs, e.2.isOut = true) ∧
    ¬ (∀ e ∈ (sEvict .quiescing 0).ctxs, e.2.isOut = true) ∧
    (sEvict .draining 0).mod.evictAt + 144000000000 ≤ (sEvict .draining 144000000000).mod.time ∧
    (sEvict .draining 143999999999).mod.time < 144000000000 ∧
    s0.mod.lrp = false ∧ ({ ModuleUnit.reset with lrp := true } : ModuleUnit).latchOpen = false ∧ s0.ports = [] ∧ (63 : Nat) < 64 := by
  decide +kernel

/-- Whether a signature verifies is the implementation's: the version alone may decide. -/
theorem witness_boot :
    s0.mod.recovery = false ∧ s0.mod.booted < 2 ∧ (2 : Nat) ≤ ({ ModuleUnit.reset with booted := 2 } : ModuleUnit).booted ∧
    (∀ image signature, ¬ (Config.signatureVerifies image signature = true ∧ ({ ModuleUnit.reset with minVersion := 1 } : ModuleUnit).minVersion ≤ 0)) :=
  ⟨by decide, by decide, by decide, fun _ _ h => by simp at h⟩

/-! ### Queues, packets and launches -/

def qDesc0 : QueueDesc :=
  { number := 0, ring := BitVec.ofNat 64 (2 * 2 ^ 60 + 0x4060000), k := 6, widxAddr := BitVec.ofNat 64 (2 * 2 ^ 60 + 0x4061000),
    ridxAddr := BitVec.ofNat 64 (2 * 2 ^ 60 + 0x4061008), page := 0, root := 0, asn := 7, system := false }
def queue0 : Queue :=
  { desc := qDesc0, notified := 1, ridx := 0, err := false, cause := 0, failIdx := 0, fates := [], pageWait := false, stall := false }
def sQueue (u : Queue) (mem : Memory := []) : State := { s0 with queues := [(0, u)], mem := mem }
/-- The header of a MARKER, one of a reserved type, and a packet that waits for no other. -/
def packetBytes (ty : Byte) : List Byte := [0, ty] ++ List.replicate 26 0 ++ [255, 255, 255, 255] ++ List.replicate 32 0
def sPacket (ty : Byte) : State := sQueue queue0 (memWriteN [] 0x4060000 (packetBytes ty))
/-- Notifies: of an index already announced, of the next, of one a ring ahead and of one farther; packets: none, a MARKER, a reserved type. -/
theorem witness_queues :
    tabGet (sQueue queue0).queues 0 = some queue0 ∧ (1 : Nat) ≤ queue0.notified ∧ queue0.notified < 64 ∧ (64 : Nat) ≤ 0 + 2 ^ queue0.desc.k ∧
    0 + 2 ^ queue0.desc.k < 65 ∧ queue0.err = false ∧ clientAdmits (sQueue queue0) 1 5 0 0x600000000 4 true = false ∧ qDesc0.number = 0 ∧
    clientAdmits { sQueue queue0 with mod := { ModuleUnit.reset with
      clients := [(0, { job := 1, ports := 1, db := true, v := true, src := 5 })]
      clientRanges := [(3, { base := 0x600000, v := true, a := false, w := true, rd := false, last := 0x600000 })] } } 1 5 0 0x600000000 4 true = true ∧
    mayPerform { sAcc [(1, { acc0 with kind := .store, core := 192, tgt := .loc 0x600000000 })] with queues := [(0, queue0)] } 1
      { acc0 with kind := .store, core := 192, tgt := .loc 0x600000000 } = true ∧
    queueLooks (sQueue queue0) queue0 = true ∧ queueLooks (sQueue queue0) { queue0 with ridx := 1 } = false := by decide +kernel
theorem witness_packets :
    (match procRead (sPacket 0x20) qDesc0 (packetAddr qDesc0 0) 64 with
      | (.ok b, s1) => decide (b = packetBytes 0x20 ∧ s1 = sPacket 0x20) | _ => false) = true ∧
    (match procRead (sPacket 0x20) qDesc0 virt 64 with | (.held 1, _) => true | _ => false) = true ∧
    packetAddr { qDesc0 with ring := BitVec.ofNat 64 virt } 0 = virt ∧
    byteAt (packetBytes 0) 0 2 / 2 ^ 12 % 16 = 0 ∧ byteAt (packetBytes 0x20) 0 2 / 2 ^ 12 % 16 = 2 ∧
    servedBefore (sPacket 0x20) 0 0 = false ∧
    servedBefore { sPacket 0x20 with queues := [(0, queue0), (1, { queue0 with desc := { qDesc0 with number := 1 } })] } 0 0 = true ∧
    packetCause (packetBytes 0x30) (packetOf (packetBytes 0x30) 0) 0 0 = 1 ∧
    packetCause (packetBytes 0x20) (packetOf (packetBytes 0x20) 0) 0 (2 ^ 40) = 0 ∧ (packetOf (packetBytes 0x20) 0).marker = true ∧
    (match procUsable (sPacket 0x20) qDesc0 (queueAddrs qDesc0 0) with | .ok _ => true | _ => false) = true ∧ (packetOf (packetBytes 0x20) 0).dep = none := by decide +kernel

/-- Launches to place: one whose cells fit, one that would fit on an empty module, one that never does; to start; to end. -/
def launchAt0 (ph : LaunchPhase) : Launch := { fetchLaunch with phase := ph }
/-- Only field 3 is online. -/
def sLaunch (x : Launch) : State :=
  { sQueue queue0 with
    launches := [(1, x)], members := [], ctxs := []
    fields := (fieldIds.filter (· != 3)).map fun f => (f, { FieldUnit.reset with state := .offline }) }
/-- The whole slice for the CELL space leaves no room for what placement carves. -/
def launchWhole : Launch := { launchAt0 .accepted with desc := fetchDesc.set 0 (BitVec.ofNat 128 (7 * 2 ^ 100 + 0x100000 * 2 ^ 64)) }
/-- A launch of Sernus's, and a machine whose cores have no gang free. -/
def launchSys : Launch := { launchAt0 .accepted with system := true }
def sFull : State :=
  { sLaunch launchSys with
    ctxs := (coresOf 3).map fun c => (ctxKey 2 c, { fetchCtx with gangs := List.range 16 }) }
theorem witness_launches :
    waitsOver (sLaunch (launchAt0 .accepted)) (launchAt0 .accepted) = true ∧ holdsBack (sLaunch (launchAt0 .accepted)) 1 (launchAt0 .accepted) = false ∧
    (assignBlocks (sLaunch (launchAt0 .accepted)) (launchAt0 .accepted) (ownBlocks (launchAt0 .accepted)) []).isSome = true ∧
    ownBlocks (launchAt0 .accepted) ≠ [] ∧ fetchPacket.marker = false ∧ waitsOver (sLaunch (launchAt0 .placed)) (launchAt0 .placed) = true ∧
    assignBlocks (sLaunch launchWhole) launchWhole (ownBlocks launchWhole) [] = none ∧
    assignBlocks (emptied (sLaunch launchWhole)) launchWhole (ownBlocks launchWhole) [] = none ∧
    assignBlocks sFull launchSys (ownBlocks launchSys) [] = none ∧
    (assignBlocks (emptied sFull) launchSys (ownBlocks launchSys) []).isSome = true ∧
    Keyed (sLaunch (launchAt0 .placed)).launches ∧ tabGet (sLaunch (launchAt0 .placed)).queues fetchLaunch.queue = some queue0 := by
  decide +kernel
def depDone (f : Fate) : Queue := { queue0 with fates := [(0, f)] }
theorem witness_endings :
    launchEmpty (sLaunch (launchAt0 .running)) 1 = true ∧ launchEmpty s0 1 = false ∧ launchAccs (sLaunch (launchAt0 .completed)) 1 = false ∧
    launchAccs { sLaunch (launchAt0 .completed) with accs := [(1, acc0)] } 1 = true ∧ fetchPacket.complAddr = 0 ∧
    procResolve (sQueue queue0) qDesc0 (wafer) Need.procWrite = .ok ⟨.loc 0x4040000, .strong, 0⟩ ∧ wafer % 16 = 0 ∧ wafer ≠ 0 ∧
    fateFails (fateOf (depDone (.killed 7)) 0) = true ∧ fateFails (fateOf (depDone (.finished 7)) 0) = false ∧
    fetchLaunch.blocked = false := by decide +kernel

/-! ### Tasks, fetch and picks -/

def cont0 : Cont :=
  { target := farAddr, field := 1, core := some 64, entry := 4, source := 64, args := [1, 2, 3, 4], launch := 1, member := 0, tok := 2,
    waits := [], postedAt := 0 }
def sCont (acc : Tab Cont) (out : Tab Cont) : State :=
  { sBig { mTok with tok := mTok.tok.set 2 1 } with
    fields := [(1, { FieldUnit.reset with accession := acc, accAge := [(1, 0)] })]
    cores := [(64, { CoreUnit.reset with outbound := out, views := [(1, mkView 2 0 wafer 16 2)] })] }
theorem witness_tasks :
    ({ m0 with kind := .tail } : Member).kind ≠ .grid ∧ m0.kind = .grid ∧ fenceSet s0 0 .pod = [] ∧ Keyed s0.accs ∧
    fenceSet (sAcc [(1, { acc0 with tok := 6 })]) 0 .pod ≠ [] ∧
    (let s := sCont [] []
     View.valid (viewAt s 64 1) = true ∧ fmtOfCode (View.fmt (viewAt s 64 1)) = some .n32 ∧
     elementAddress (viewAt s 64 1) 4 0 = .addr (BitVec.ofNat 64 wafer) ∧
     (resolve s ctxBig 64 64 false Need.none (BitVec.ofNat 64 wafer) 4).1 = .ok ⟨.loc 0x4040000, .strong, 0⟩ ∧
     homeField s 0x4040000 = some 1 ∧ tokCount m0 2 < 255) ∧
    (coreAt (sCont [] []) 64).outbound.length < 8 ∧
    8 ≤ (coreAt (sCont [] ((List.range 8).map fun i => (i, cont0))) 64).outbound.length := by decide +kernel
theorem witness_continuations :
    tabGet (coreAt (sCont [] [(5, cont0)]) 64).outbound 5 = some cont0 ∧ (fieldAt (sCont [] [(5, cont0)]) 1).accession.length < 256 ∧
    allPerformed (sCont [] [(5, cont0)]) [] = true ∧ fieldGone (sCont [] [(5, cont0)]) 1 = false ∧
    ¬ (fieldAt (sCont ((List.range 256).map fun i => (i, cont0)) [(5, cont0)]) 1).accession.length < 256 ∧
    tabGet (fieldAt (sCont [(5, cont0)] []) 1).accession 5 = some cont0 ∧
    firstOfLaunch (fieldAt (sCont [(5, cont0)] []) 1) 5 cont0 = true ∧
    firstOfLaunch (fieldAt (sCont [(5, cont0), (6, cont0)] []) 1) 6 cont0 = false ∧
    launchAt (sCont [(5, cont0)] []) 1 = some fetchLaunch ∧ ctxAt (sCont [(5, cont0)] []) 1 64 = some ctxBig ∧
    tabGet (fieldAt (sCont [(5, cont0)] []) 1).accAge 1 = some 0 ∧
    ¬ 0 + watchdogTicks (sCont [(5, cont0)] []) ≤ (sCont [(5, cont0)] []).mod.time ∧
    (let s : State := { sCont [(5, cont0)] [] with mod := { ModuleUnit.reset with time := 480000000000 } }
     0 + watchdogTicks s ≤ s.mod.time) := by decide +kernel
/-- Which free slot a task cell takes is left open: there is one. -/
theorem witness_task_place : ∃ p, taskPlace (sCont [(5, cont0)] []) 1 cont0 = some p := by
  refine ⟨_, rfl⟩

/-- A clause of one NOP at the header 0 of core 64, with its words in memory. -/
def nopWord : Word64 := ((Instr.nop c0).encode).getD 0
def clauseBytes (hw w : Word64) : Memory := memWriteN [] (sliceBase 64) (bytesOf 8 hw.toNat ++ bytesOf 8 w.toNat)
def sCode (mem : Memory) : State := { s0 with mem := mem }
def sFetch : State := sCode (clauseBytes (headerFor nopWord) nopWord)
def entry0 (missing : Bool) : ClauseEntry :=
  { launch := 1, h := 0, words := [headerFor nopWord, nopWord], fault := none, missing := missing, lines := [sliceBase 64 / 64] }
def sClause (e : ClauseEntry) : State := { sFetch with cores := [(64, { CoreUnit.reset with clauses := [e] })] }
theorem witness_fetches :
    clauseOf (coreAt sFetch 64) 1 0 = none ∧ mayFetch sFetch 64 1 0 = true ∧ mayFetch sFetch 64 1 9 = false ∧
    fetchCtx.isOut = false ∧ fetchCtx.switching = false ∧ standAt sFetch 64 1 0 ≠ [] ∧
    loadClause sFetch fetchCtx 1 64 0 = (.clause [headerFor nopWord, nopWord] [sliceBase 64 / 64, sliceBase 64 / 64,
      sliceBase 64 / 64, sliceBase 64 / 64], sFetch) ∧
    (match loadClause (sCode []) fetchCtx 1 64 0 with | (.bad f _, _) => decide (f.cause = 1 ∧ f.detail = 15 ∧ f.slot = 15) | _ => false) = true ∧
    (match loadClause sFetch { fetchCtx with desc := (bigDesc.set 4 (BitVec.ofNat 128 (11 * 2 ^ 100 + 4 * 2 ^ 96 + 0x800000000000))).set 5 (BitVec.ofNat 128 (9 * 2 ^ 100 + 4 * 2 ^ 96 + 0x4000 * 2 ^ 64)) } 1 64 0 with
      | (.held 1, _) => true | _ => false) = true ∧
    (match loadClause sFetch fetchCtx 1 64 0x800 with | (.bad f _, _) => decide (f.cause = 3) | _ => false) = true ∧
    clauseOf (coreAt (sClause (entry0 true)) 64) 1 0 = some (entry0 true) ∧ (entry0 true).missing = true ∧ Keyed sFetch.members := by
  decide +kernel
/-- A clause that does not end in a transfer has none before its last slot; one with two branches does. -/
def braWord : Word64 := ((Instr.bra c0 2).encode).getD 0
theorem witness_transfers_last :
    [braWord, braWord][0]? = some braWord ∧ 0 + 1 < [braWord, braWord].length ∧ decodeWord braWord = .ok (.bra c0 2) ∧
    braWord.extractLsb' 60 4 = 6#4 ∧ decodeWord 0xD0077F0000000001 = .ok (.trap c0 1) ∧
    decodeWord 0xD0477F0000000001 = .ok (.svc c0 1) ∧ decodeWord 0xD0877F0000000000 = .ok (.eret c0) := by decide +kernel

/-- A candidate, one in trap mode, and a core with none; a clause whose fault they take. -/
def sPick (m : Member) (e : ClauseEntry) : State := { sClause e with members := [(0, m)] }
theorem witness_picks :
    coreExists 64 = true ∧ coreExists 0 = false ∧ (coreAt (sClause (entry0 false)) 64).issue = none ∧
    readyList (idleUntil (sClause (entry0 false)) 64 0) 64 ≠ [] ∧ readyList (idleUntil s0 64 0) 64 = [] ∧
    readyList (idleUntil (sPick { m0 with trapMode := true } (entry0 false)) 64 0) 64 ≠ [] ∧
    readyList (idleUntil (sPick m0 { entry0 false with fault := some (fetchFault 1 15 15 0 0) }) 64 0) 64 ≠ [] := by decide +kernel

/-- A gang whose cell waits at a STEP, and one outside the active set with a cell that is ready. -/
def sGangs (swap : Option (Nat × Nat)) : State :=
  { sClause (entry0 false) with
    ctxs := [(ctxKey 1 64, { fetchCtx with gangs := List.range 9 })]
    members := (List.range 8).map (fun i => (i, { m0 with place := .slot (64 * i), wait := .step 5 })) ++ [(8, { m0 with place := .slot 512 })]
    cores := [(64, { CoreUnit.reset with clauses := [entry0 false], active := List.range 8, swapping := swap })] }
theorem witness_gangs :
    (coreAt (sGangs none) 64).swapping = none ∧ (coreAt (sGangs (some (0, 8))) 64).swapping = some (0, 8) ∧
    0 ∈ activeSet (sGangs none) 64 ∧
    (∀ e ∈ cellsOfGang (sGangs none) 64 0, longWait (sGangs none) e.2 = true ∧ inGroup (sGangs none) e.1 64 = false) ∧
    8 ∈ heldGangs (sGangs none) 64 ∧ 8 ∉ activeSet (sGangs none) 64 ∧
    (∃ e ∈ cellsOfGang (sGangs none) 64 8, readyApart (sGangs none) e.1 e.2 = true) := by decide +kernel

/-! ### The causal ports -/

/-- A store and a load of `m0` at a word of the slice of core 128, whose home is field 2. -/
def farStore : Access := { acc0 with kind := .store, addr := farAddr, tgt := .loc 0x8000000 }
def farLoad : Access := { acc0 with addr := farAddr, tgt := .loc 0x8000000 }
/-- Knowledge that differs from the first base in the first `n` entries. -/
def knows (n : Nat) : Vec := List.replicate n 1 ++ List.replicate (64 - n) 0
def sPort (a : Access) (u : FieldUnit) : State := { sAcc [(1, a)] with fields := [(1, u)] }
def pairUnit (p : PairState) (d : Nat := 2) : FieldUnit := { FieldUnit.reset with pairs := [(d, p)] }
theorem witness_causal_sends :
    tabGet (sPort farStore FieldUnit.reset).accs 1 = some farStore ∧ farStore.sequencedKind = true ∧ farStore.onPeer = false ∧
    orderPasses (sPort farStore FieldUnit.reset) 1 farStore = true ∧ accHome (sPort farStore FieldUnit.reset) farStore = some 2 ∧
    farStore.field = 1 ∧ budgetAdmits (sPort farStore FieldUnit.reset) 64 4 0x8000000 = true ∧
    portOpen (sPort farStore FieldUnit.reset) 1 2 = true ∧
    (pairAt (sPort farStore (pairUnit { PairState.reset with nacked := [.read 7 { bn := 0, entries := [] }] })) 1 2).nacked ≠ [] ∧
    portOpen (sPort farStore { FieldUnit.reset with w := 2 ^ 18 + 2 ^ 16 - 1 }) 1 2 = false ∧
    portOpen (sPort farStore { FieldUnit.reset with w := 2 ^ 16 - 1 }) 1 2 = true ∧
    (differing Vec.zero ((knows 6).set 1 1)).length ≤ 6 ∧ 6 < (differing Vec.zero ((knows 7).set 1 1)).length ∧
    Vec.zero.length = 64 ∧ ((knows 7).set 1 1).length = 64 ∧
    (1 : Nat) ∈ ({ PairState.reset with unacked := [1] } : PairState).unacked ∧ (1 : Nat) ∉ PairState.reset.unacked := by decide +kernel
theorem witness_causal_requests :
    farLoad.sequencedKind = false ∧ farLoad.requires = true ∧ accHome (sPort farLoad FieldUnit.reset) farLoad = some 2 ∧
    orderPasses (sPort farLoad FieldUnit.reset) 1 farLoad = true ∧ fieldGone (sPort farLoad FieldUnit.reset) 1 = false ∧
    fieldGone (sPort farLoad { FieldUnit.reset with state := .offline }) 1 = true ∧
    (pairAt (sPort farLoad FieldUnit.reset) 1 2).dead = false ∧ accHome (sPort acc0 FieldUnit.reset) acc0 = some 1 ∧
    orderPasses (sPort acc0 FieldUnit.reset) 1 acc0 = true ∧
    lostEntry (sPort acc0 { FieldUnit.reset with know := knows 3 }) 1 1 (knows 3) = none ∧
    (localWaits (sPort acc0 { FieldUnit.reset with know := knows 3 }) 1 false).length = 1 ∧
    shortOf (sPort acc0 { FieldUnit.reset with know := knows 3 }) 1 2 = some 1 ∧ (2 : Nat) ∈ fieldIds := by decide +kernel

/-- A packet from field 1 that has come to field 2, with the accesses it is for. -/
def sPkt (b : Body) (u : FieldUnit := FieldUnit.reset) (l : List (Nat × Access) := []) : State :=
  { sAcc l with
    pkts := [(5, { src := 1, dst := 2, gen := 0, body := b })], fields := [(2, u)]
    sched := { Sched.reset with nextId := 10 } }
theorem arrives (b : Body) (u : FieldUnit) (l : List (Nat × Access)) (h : u.gen = 0) : Arrives (sPkt b u l) 5 1 2 b := by
  refine ⟨?_, by simp [sPkt, sAcc, Keyed], by simp [sPkt]⟩
  simp [sPkt, tabGet, fieldAt, h]
def stamp0 : Stamp := { bn := 0, entries := [(1, 1)] }
/-- A pair whose base 3 is complete when the clock packet of base 0 comes, and one whose base is not. -/
def pairFull (n : Nat) : PairState := { PairState.reset with rxBases := [(3, Vec.zero)], rxCount := [(3, n)] }
theorem witness_bases :
    (tabGet (pairAt (sPkt (.clock 0 4 Vec.zero) (pairUnit (pairFull 4) 1)) 2 1).rxBases 3).isSome = true ∧
    4 ≤ (tabGet (pairAt (sPkt (.clock 0 4 Vec.zero) (pairUnit (pairFull 4) 1)) 2 1).rxCount 3).getD 0 ∧
    ¬ 4 ≤ (tabGet (pairAt (sPkt (.clock 0 4 Vec.zero) (pairUnit (pairFull 3) 1)) 2 1).rxCount 3).getD 0 ∧
    Keyed (pairFull 4).rxBases ∧ (0 : Nat) < 4 ∧
    tabGet (pairAt (sPkt (.write 1 1 0 true { stamp0 with bn := 2 })) 2 1).rxBases 2 = none ∧
    5 ∉ (fieldAt (sPkt (.write 1 1 0 true stamp0)) 2).undecoded ∧
    bufferUse (sPkt (.write 1 1 0 true stamp0)) 2 true < 512 ∧
    bufferUse (sPkt (.read 1 stamp0)) 2 false < 256 ∧
    (let w : Waiting := { src := 3, acc := 99, seq := 1, blink := 0, first := true, vec := Vec.zero }
     512 ≤ bufferUse (sPkt (.write 1 1 0 true stamp0) { FieldUnit.reset with early := List.replicate 512 w }) 2 true ∧
     256 ≤ bufferUse (sPkt (.read 1 stamp0) { FieldUnit.reset with pending := List.replicate 256 w }) 2 false) ∧
    (pairAt (sPkt (.baseAck 1)) 1 2).nacked = [] ∧
    (pairAt (sPkt (.baseAck 1) (pairUnit { PairState.reset with nacked := [.read 7 stamp0] } 1)) 2 1).nacked ≠ [] := by decide +kernel

/-- A packet that may be applied at once, one whose back-link has not come, one whose requirement is not met; and requests. -/
def sent (a : Access) : Access := { a with phase := .sent }
def sHome (b : Body) (u : FieldUnit := FieldUnit.reset) (a : Access := farStore) : State := sPkt b u [(1, sent a)]
theorem witness_homes :
    (let s := sHome (.write 1 1 0 true stamp0)
     tabGet (pairAt s 2 1).rxBases stamp0.bn = some Vec.zero ∧ (fieldAt s 2).early = [] ∧ localWaits s 2 true = [] ∧
     localWaits s 2 false = [] ∧ tabGet s.accs 1 = some (sent farStore) ∧ (sent farStore).kind = .store ∧
     lostEntry s 2 1 (applyStamp Vec.zero stamp0) = none ∧ meets s 2 1 (applyStamp Vec.zero stamp0) = true ∧
     (pairAt s 2 1).rxLast = 0 ∧
     meets s 2 1 (applyStamp Vec.zero { bn := 0, entries := [(4, 1)] }) = false ∧
     (applyStamp Vec.zero stamp0).length = 64 ∧ 1 < (fieldAt s 2).horizon.length) ∧
    (let s := sHome (.read 1 { bn := 0, entries := [] }) FieldUnit.reset farLoad
     tabGet s.accs 1 = some (sent farLoad) ∧ isPoisoned s 0x8000000 4 = false ∧ meets s 2 2 Vec.zero = true ∧
     lostEntry s 2 2 Vec.zero = none ∧ meets s 2 2 (applyStamp Vec.zero stamp0) = false ∧
     tabGet (fieldAt s 2).stamps 0x8000000 = none ∧ drainedOf s 0x8000000 = none) ∧
    tabGet (fieldAt (sHome (.read 1 stamp0) { FieldUnit.reset with stamps := [(0x8000000, knows 2)] } farLoad) 2).stamps
      (0x8000000 / 256 * 256) = some (knows 2) := by decide +kernel
theorem witness_home_memory : InMemory (sHome (.write 1 1 0 true stamp0)) 0x8000000 4 ∧
    InMemory (sHome (.read 1 stamp0) FieldUnit.reset farLoad) 0x8000000 4 :=
  ⟨inMemory_of _ _ _ (by decide +kernel), inMemory_of _ _ _ (by decide +kernel)⟩

/-- A query that finds nothing open, one that finds a packet refused; answers and beacons at, below and above the horizon. -/
theorem witness_horizons :
    (∀ b ∈ (pairAt (sPkt (.query 3)) 2 1).nacked, ¬ ∃ n, b.seq = some n ∧ serLe n 3 = true) ∧
    (∃ b ∈ (pairAt (sPkt (.query 3) (pairUnit { PairState.reset with nacked := [.write 1 2 0 true stamp0] } 1)) 2 1).nacked,
      ∃ n, b.seq = some n ∧ serLe n 3 = true) ∧
    (openSeqs (sPkt (.query 3)) 2 1).filter (serLe · 3) = [] ∧
    (openSeqs { sPkt (.query 3) with pkts := [(5, { src := 1, dst := 2, gen := 0, body := .query 3 }),
      (6, { src := 2, dst := 1, gen := 0, body := .write 1 2 0 true stamp0 })] } 2 1).filter (serLe · 3) ≠ [] ∧
    serLe 0 ((fieldAt (sPkt (.answer 3 0)) 2).horizon.getD 1 0) = true ∧ serLe 1 ((fieldAt (sPkt (.answer 3 1)) 2).horizon.getD 1 0) = false ∧
    (fieldAt (sPkt (.beacon 0x10000 0)) 2).early = [] ∧ (fieldAt (sPkt (.beacon 0x10000 0)) 2).pending = [] ∧
    1 < (fieldAt (sPkt (.beacon 0x10000 0)) 2).know.length ∧
    tabGet (fieldAt (sPkt (.beacon 0x10000 0) { FieldUnit.reset with stamps := [(0x8000000, knows 2)] }) 2).stamps 0x8000000 = some (knows 2) ∧
    Keyed (sPkt (.beacon 0 0)).accs ∧ (1 : Nat) ∈ fieldIds ∧ (fieldAt (sPkt (.beacon 0 0)) 1).state = .online := by
  refine ⟨fun b h => ?_, ?_, ?_⟩
  · simp [pairAt, fieldAt, sPkt, tabGet, FieldUnit.reset, PairState.reset] at h
  · exact ⟨_, List.mem_cons_self .., 2, rfl, by decide⟩
  · decide +kernel

/-! ### Fields, links, peers and clients -/

def sField (u : FieldUnit) : State := { s0 with fields := [(1, u)], accs := [], pkts := [] }
def aper0 : Aperture := { v := true, lost := false, keep := false, atom := true, module := 3 }
def rangeAll : Range := { base := 0, v := true, a := true, w := true, rd := true, last := 0xFFFFFF }
def sLink (l : Link) : State :=
  { s0 with
    mod := { ModuleUnit.reset with links := [(5, l)], apertures := [(2, aper0)], group := [3, 4], ranges := [(48, rangeAll)] }
    ports := [(5, { Port.reset with circuit := some 3 })] }
theorem witness_fields :
    fieldExists 1 = true ∧ fieldExists 0 = false ∧ (fieldAt s0 1).state ≠ .dead ∧
    (fieldAt (sField { FieldUnit.reset with state := .dead }) 1).state = .dead ∧ 1 ∈ launchesOn s0 1 ∧ launchAt s0 1 = some fetchLaunch ∧
    fetchLaunch.phase = .running ∧ fieldOf m0.core = 1 ∧ (∀ d ∈ fieldIds, (fieldAt s0 d).early = []) ∧ Keyed s0.members ∧
    ((tabGet (sLink { replays := 15, dead := false }).mod.links 5).getD Link.reset).replays < 16 ∧
    16 ≤ ((tabGet (sLink { replays := 16, dead := false }).mod.links 5).getD Link.reset).replays ∧
    ((tabGet (sLink { replays := 17, dead := true }).mod.links 5).getD Link.reset).dead = true ∧
    tabGet (sLink Link.reset).mod.apertures 2 = some aper0 ∧
    (∃ p ∈ (sLink Link.reset).ports, p.2.circuit = some aper0.module.toNat) ∧
    48 / 16 = 3 ∧ (fieldAt (sField { FieldUnit.reset with state := .dead }) 1).state = .dead := by decide +kernel
theorem witness_drains :
    isOnline s0 1 = true ∧ isOnline (sField { FieldUnit.reset with state := .draining }) 1 = false ∧ Keyed s0.ctxs ∧
    ctxsOnField s0 1 ≠ [] ∧ fieldGone s0 1 = false ∧ fieldGone (sField { FieldUnit.reset with state := .offline }) 1 = true ∧
    (let s := { sField { FieldUnit.reset with state := .draining } with ctxs := [], members := [], launches := [] }
     (fieldAt s 1).state = .draining ∧ drainDone s 1 = true ∧ (∀ n, tabGet s.mod.redirect n = none) ∧ copyFits s 1 0x800000000000 = true ∧ MemOk s) ∧
    drainDone (sField { FieldUnit.reset with state := .draining }) 1 = false ∧ copyFits s0 1 1 = false ∧
    regionOf 0x4000000 = .slice 64 ∧ fieldOf 64 = 1 := by
  refine ⟨?_, ?_, ?_, ?_, ?_, ?_, ⟨?_, ?_, fun _ => rfl, ?_, ?_⟩, ?_⟩ <;> decide +kernel

/-- Requests that a range covers with its bit, that run past it, whose bit is not granted, and of no bytes. -/
def sPeer (r : Range) : State := { sAcc [] with mod := { ModuleUnit.reset with ranges := [(16 * 3 + 15, r)] } }
def range0 : Range := { base := 0x4040, v := true, a := true, w := true, rd := true, last := 0x4040 }
theorem witness_admitted :
    Admitted (sPeer range0) 3 0x4040000 4096 (·.rd) ∧ Admitted (sPeer range0) 3 0x4040000 4 (·.a) ∧
    Admitted (sPeer range0) 3 0x4040000 4 (·.w) ∧ ¬ Admitted (sPeer range0) 3 0x4040001 4096 (·.rd) ∧
    ¬ Admitted (sPeer { range0 with w := false }) 3 0x4040000 4 (·.w) ∧ ¬ Admitted (sPeer range0) 4 0x4040000 4 (·.rd) := by
  have none (s : State) (m pa n : Nat) (bit : Range → Bool)
      (h : (List.range 16).all (fun i => let r := rangeAt s.mod.ranges (16 * m + i)
        !(r.v && decide (r.base.toNat ≤ pa / 4096) && decide ((pa + n - 1) / 4096 ≤ r.last.toNat) && bit r)) = true) :
      ¬ Admitted s m pa n bit := by
    rintro ⟨i, hi, ⟨h1, h2, _, _, h5⟩, h6⟩
    have := List.all_eq_true.1 h i (List.mem_range.2 hi)
    simp [h1, h2, h5, h6] at this
  unfold Admitted CoversRun at *
  refine ⟨⟨15, ?_⟩, ⟨15, ?_⟩, ⟨15, ?_⟩, none _ _ _ _ _ ?_, none _ _ _ _ _ ?_, none _ _ _ _ _ ?_⟩ <;> decide +kernel
/-- Accesses to a peer that have been answered: done, rejected and lost. -/
def peerAcc (k : AccKind) : Access := { acc0 with kind := k, tgt := .peer 2 0x1000 }
theorem witness_peers :
    hasHome (sPeer range0) 0x4040000 16 = true ∧ atomAccepts .add .n32 = true ∧
    tabGet (sAcc [(1, peerAcc .load)]).accs 1 = some (peerAcc .load) ∧ orderPasses (sAcc [(1, peerAcc .load)]) 1 (peerAcc .load) = true ∧
    (peerAcc .load).size = fmtSize (peerAcc .load).fmt ∧
    orderPasses (sAcc [(1, peerAcc .store)]) 1 (peerAcc .store) = true ∧
    orderPasses (sAcc [(1, peerAcc (.atom .add true))]) 1 (peerAcc (.atom .add true)) = true ∧
    memberAt (sAcc [(1, peerAcc .load)]) 0 = some mTok ∧ mTok.trapMode = false ∧ mTok.place ≠ .gone ∧ mTok.wait = .ready ∧
    mTok.fences = [] := by decide +kernel
theorem witness_peer_swait :
    Admitted (sPeer range0) 3 0x4040000 16 (·.a) ∧ hasHome (sPeer range0) 0x4040000 16 = true ∧
    memNat (sPeer range0) (physOf (sPeer range0) 0x4040000 + 8) 4 = (0 : Word).toNat ∧
    memNat (sPeer range0) (physOf (sPeer range0) 0x4040000 + 8) 4 ≠ (1 : Word).toNat :=
  ⟨⟨15, by unfold CoversRun; decide +kernel⟩, by decide +kernel⟩
/-- R201, R315: a peer that waits at a generation is answered with the next one once an Advance has woken it. -/
def peerWaiter : Access := { acc0 with kind := .swait, tok := 7, phase := .returning, value := 5, param := 3, seq := 2 }
theorem test_peer_swait_answered :
    (answerPeers (sAcc [(1, peerWaiter)])).mod.answers = [.peer 3 2 (.done 5 0) []] ∧ (answerPeers (sAcc [(1, peerWaiter)])).accs = [] := by
  decide +kernel
theorem witness_peer_faults (c : Nat) : isRouted (sAcc [(1, peerAcc .load)]) mTok c = false := by
  simp [isRouted, trapEntryOf, ctxAt, sAcc, mTok, Member.setTok, sBig, sAs, s0, m0, newCell, newMember, tabGet, ctxKey, ctxBig, fetchCtx, newCtx]

/-- A launch of a span of three modules, its cell and its pod barrier; and no launch of the span. -/
def launchSpan : Launch :=
  { fetchLaunch with
    spanId := 7, bCount := 1
    span := [{ first := 0, count := 1, module := 0 }, { first := 1, count := 1, module := 3 }, { first := 2, count := 1, module := 4 }]
    remoteArrivals := [(0, 2), (4, 2)] }
def sSpan (m : Member) : State := { s0 with launches := [(1, launchSpan)], members := [(0, m)] }
theorem witness_spans :
    Keyed (sSpan m0).launches ∧ spanLaunch (sSpan m0) 8 = none ∧ spanLaunch (sSpan m0) 7 = some (1, launchSpan) ∧
    cellAt (sSpan m0) 1 0 = some (0, m0) ∧ m0.departed = false ∧ m0.done = 0 ∧
    cellAt (sSpan { m0 with done := 2 }) 1 0 = some (0, { m0 with done := 2 }) ∧
    cellAt (sSpan { m0 with departed := true }) 1 0 = some (0, { m0 with departed := true }) ∧ Keyed (sSpan m0).members ∧
    barDone launchSpan .pod 0 < 2 ∧ launchSpan.span ≠ [] ∧
    (∀ r ∈ launchSpan.span, 2 ≤ if r.module = 3 then max 2 (podReached launchSpan 3) else podReached launchSpan r.module) ∧
    ¬ (∀ r ∈ launchSpan.span, 3 ≤ if r.module = 3 then max 3 (podReached launchSpan 3) else podReached launchSpan r.module) := by
  decide +kernel
def client0 : Client := { job := 9, ports := 0x80, db := false, v := true, src := 5 }
def sClient : State :=
  { sAcc [] with mod := { ModuleUnit.reset with clients := [(2, client0)], clientRanges := [(16 * 2 + 15, range0)] } }
theorem witness_clients :
    ClientAdmitted sClient 9 5 7 0x4040000 4096 (·.rd) ∧ ClientAdmitted sClient 9 5 7 0x4040000 16 (·.w) ∧
    ¬ ClientAdmitted sClient 9 5 6 0x4040000 16 (·.rd) ∧ ¬ ClientAdmitted sClient 8 5 7 0x4040000 16 (·.w) ∧
    hasHome sClient 0x4040000 16 = true := by
  unfold ClientAdmitted CoversRun
  refine ⟨⟨(2, client0), ?_⟩, ⟨(2, client0), ?_⟩, ?_, ?_, ?_⟩
  · exact ⟨by decide, rfl, rfl, rfl, by decide, rfl, 15, by decide +kernel⟩
  · exact ⟨by decide, rfl, rfl, rfl, by decide, rfl, 15, by decide +kernel⟩
  · rintro ⟨c, h, _, _, _, _, hp, _⟩
    simp [sClient] at h
    subst h
    exact absurd hp (by decide)
  · rintro ⟨c, h, _, hj, _⟩
    simp [sClient] at h
    subst h
    exact absurd hj (by decide)
  · decide +kernel

/-! ### Words, turns and steps -/

/-- What withFetchWord places is the next to be run: the step finds its turn, its group and its word. -/
def sWord (w : Word64) : State := State.reset.withFetchWord 64 w.toNat
theorem witness_turns :
    (sWord nopWord).sched.turns = [.issue 64] ∧
    (coreAt { sWord nopWord with sched := { (sWord nopWord).sched with turns := [] } } 64).issue =
      some { launch := 1, h := 0, slot := 0, words := [headerFor nopWord, nopWord], members := [0], todo := [0], entered := [],
             started := false } ∧
    ((beginMember { sWord nopWord with sched := { (sWord nopWord).sched with turns := [] } } 64).bind (·.sched.cur)).map (·.word) =
      some nopWord ∧
    decodeWord nopWord = .ok (.nop c0) ∧ goesOn (exec (.pick 64 0) State.reset) = true ∧ State.reset.sched.turns = [] ∧
    issuingCore State.reset = none ∧
    issuingCore { sWord nopWord with sched := { (sWord nopWord).sched with turns := [] } } = some 64 := by decide +kernel
def group0 : Issue :=
  { launch := 1, h := 0, slot := 0, words := [headerFor nopWord, nopWord], members := [0], todo := [0], entered := [], started := true }
theorem witness_next_slot :
    (coreAt { sFetch with cores := [(64, { CoreUnit.reset with issue := some group0 })] } 64).issue = some group0 ∧ group0.started = true ∧
    group0.todo = [0] := by decide +kernel
theorem witness_steps : MemOk (sWord nopWord) ∧ goesOn (step (sWord nopWord)) = true := by decide +kernel
theorem witness_clause_ends :
    memberAt s0 0 = some m0 ∧ m0.terminating = false ∧ m0.moveTo = none ∧ m0.parkWish = false ∧
    memberAt (sAs { m0 with parkWish := true }) 0 = some { m0 with parkWish := true } ∧
    memberAt (sAs { m0 with moveTo := some (128, 0) }) 0 = some { m0 with moveTo := some (128, 0) } ∧
    (memberAt { sAs { m0 with joinTails := [5] } with members := [(0, { m0 with joinTails := [5] }), (5, { m0 with kind := .tail })] } 5).map
      (·.place != .gone) = some true := by decide +kernel
/-- A well-formed word instruction of the round trip, at the edges of its immediates. -/
theorem witness_round_trip :
    (Instr.bra c0 (BitVec.ofInt 31 (-2 ^ 30))).wf = true ∧ (Instr.andi c0 (.g 63) 1 0xFFFFFFFF).wf = true ∧
    (Instr.addc c0 (.g 9) (.g 1) (.imm 128) 2 1 true).wf = true := by decide

/-! ## Results that the manual works out -/

/-- The step of a word of the manual for a member with some registers. -/
def runs (w : Word64) (l : List (BitVec 6 × Word)) : Result :=
  match decodeWord w with
  | .ok i => exec i (sAs (mG l))
  | .error _ => .fault .notAnInstruction
def does (i : Instr) (l : List (BitVec 6 × Word)) : Result := exec i (sAs (mG l))
def predAfter (r : Result) (p : BitVec 3) : Option Bool := (memberAt (got r) 0).map (·.r.getP p)
def latchAfter (r : Result) (n : Nat) : Option Word64 := (memberAt (got r) 0).map fun m => m.lat.toList.getD n 0

/-- R129: the middle of the worked carry chain: g1 = 0xFFFFFFFF, g4 = 0, carry in. -/
theorem test_addc :
    let s := sAs { mG [(1, 0xFFFFFFFF)] with r := (mG [(1, 0xFFFFFFFF)]).r.setP 1 true }
    gAfter (exec (.addc c0 (.g 9) (.g 1) (.g 4) 2 1 true) s) 9 = some 0 ∧
    predAfter (exec (.addc c0 (.g 9) (.g 1) (.g 4) 2 1 true) s) 2 = some true := by decide +kernel
/-- R129: the carry of the last of the chain is discarded by p7. -/
theorem test_addc_p7 :
    predAfter (does (.addc c0 (.g 10) (.g 2) (.g 5) 7 2 true) [(2, 0xFFFFFFFF), (5, 0xFFFFFFFF)]) 7 = some true := by decide +kernel
theorem test_add_wraps : gAfter (does (.add c0 (.g 3) (.g 1) (.imm 255) false false) [(1, 0)]) 3 = some 0xFFFFFFFF := by decide +kernel
/-- R129: a sum that ADD.SAT.I32 clamps. -/
theorem test_add_sat :
    gAfter (does (.add c0 (.g 3) (.g 1) (.g 2) true true) [(1, 0x80000000), (2, 0xFFFFFFFF)]) 3 = some 0x80000000 := by decide +kernel
/-- R129: SUB.SAT.N32 of 3 and 5. -/
theorem test_sub_sat : gAfter (does (.sub c0 (.g 3) (.imm 3) (.imm 5) true false) []) 3 = some 0 := by decide +kernel
theorem test_subb_borrow :
    let r := does (.subb c0 (.g 3) (.g 1) (.g 2) 4 0 false) [(1, 3), (2, 5)]
    gAfter r 3 = some 0xFFFFFFFE ∧ predAfter r 4 = some true := by decide +kernel
theorem test_mulh_signed : gAfter (does (.mulh c0 (.g 3) (.g 1) (.imm 2) true) [(1, 0x80000000)]) 3 = some 0xFFFFFFFF := by decide +kernel
theorem test_mulw : pairAfter (does (.mulw c0 (.g 4) (.g 1) (.g 1) false) [(1, 0xFFFFFFFF)]) 4 = some 0xFFFFFFFE00000001 := by decide +kernel
/-- R129: NEG and ABS of the lowest integer, with SAT and without. -/
theorem test_neg_sat :
    gAfter (does (.neg c0 (.g 3) (.g 1) false false) [(1, 0x80000000)]) 3 = some 0x80000000 ∧
    gAfter (does (.neg c0 (.g 3) (.g 1) true true) [(1, 0x80000000)]) 3 = some 0x7FFFFFFF := by decide +kernel
theorem test_abs_sat :
    gAfter (does (.abs c0 (.g 3) (.g 1) true true) [(1, 0x80000000)]) 3 = some 0x7FFFFFFF := by decide +kernel
theorem test_addd_carries : pairAfter (does (.addd c0 (.g 4) (.g 0) (.imm 1) false false) [(0, 0xFFFFFFFF)]) 4 = some 0x100000000 := by
  decide +kernel
theorem test_addi_wide : pairAfter (does (.addi c0 (.g 4) true 0 0xFFFFFFFF) [(0, 0), (1, 1)]) 4 = some 0xFFFFFFFF := by decide +kernel
theorem test_sad : gAfter (does (.sad c0 (.g 3) (.g 1) (.g 2) (.imm 1)) [(1, 0xFF000001), (2, 0x00FF0003)]) 3 = some 513 := by decide +kernel
theorem test_dot4_mixed :
    gAfter (does (.dot4 c0 (.g 3) (.g 1) (.g 2) (.imm 0) true false false) [(1, 0xFF), (2, 0xFF)]) 3 = some (BitVec.ofInt 32 (-255)) := by
  decide +kernel
/-- R131: the descriptor 0x080C of 0x000FF000, signed and not. -/
theorem test_bfx :
    gAfter (does (.bfx c0 (.g 3) (.g 1) (.g 2) true) [(1, 0x000FF000), (2, 0x080C)]) 3 = some 0xFFFFFFFF ∧
    gAfter (does (.bfx c0 (.g 3) (.g 1) (.g 2) false) [(1, 0x000FF000), (2, 0x080C)]) 3 = some 0xFF := by decide +kernel
theorem test_bfi_clips :
    gAfter (does (.bfi c0 (.g 3) (.g 1) (.imm 0) (.g 2)) [(1, 0xFF), (2, 0x201C)]) 3 = some 0xF0000000 := by decide +kernel
theorem test_shifts_beyond :
    gAfter (does (.shl c0 (.g 3) (.g 1) (.imm 32)) [(1, 5)]) 3 = some 0 ∧
    gAfter (does (.sar c0 (.g 3) (.g 1) (.imm 40)) [(1, 0x80000000)]) 3 = some 0xFFFFFFFF := by decide +kernel
theorem test_rotates :
    gAfter (does (.rol c0 (.g 3) (.g 1) (.imm 36)) [(1, 0x80000001)]) 3 = some 0x18 ∧
    gAfter (does (.shrd c0 (.g 3) (.g 1) (.g 2) (.imm 4)) [(1, 0xA), (2, 0x12345678)]) 3 = some 0xA1234567 := by decide +kernel
theorem test_perm : gAfter (does (.perm c0 (.g 3) (.g 1) (.g 2) (.g 4)) [(1, 0x80000000), (2, 0x11223344), (4, 0x7B40)]) 3 = some 0x11FF4400 := by
  decide +kernel
theorem test_counts :
    gAfter (does (.clz c0 (.g 3) (.g 1)) [(1, 0)]) 3 = some 32 ∧ gAfter (does (.popc c0 (.g 3) (.g 1)) [(1, 0xF00F)]) 3 = some 8 ∧
    gAfter (does (.brev c0 (.g 3) (.g 1)) [(1, 1)]) 3 = some 0x80000000 := by decide +kernel
/-- R133, with the manual's words of CMP.LT.I32 and SEL. -/
theorem test_cmp_word : predAfter (runs 0x20074B00C280000A [(1, 0xFFFFFFFF)]) 3 = some true := by decide +kernel
theorem test_sel_word : gAfter (runs 0x2087050080800003 [(1, 7), (2, 9)]) 5 = some 9 := by decide +kernel
theorem test_pmov : gAfter (does (.pmov c0 (.g 3) (.imm 0) false) []) 3 = some 0x80 := by decide +kernel
/-- R56: with K set the latch alone takes the result. -/
theorem test_latch_only :
    let r := does (.mov { c0 with k := true } (.g 3) (.imm 5) false) []
    gAfter r 3 = some 0 ∧ latchAfter r 0 = some 5 := by decide +kernel
/-- R60: guarded off, the latch takes the old value of the destination. -/
theorem test_guarded_off :
    let r := does (.mov cOff (.g 3) (.imm 5) false) [(3, 9)]
    gAfter r 3 = some 9 ∧ latchAfter r 0 = some 9 := by decide +kernel
/-- R134: %core is the global core number. -/
theorem test_movs_core : gAfter (does (.movs c0 (.g 3) .core false) []) 3 = some 64 := by decide +kernel

/-- R154: one rounding against two. -/
theorem test_fmul : gAfter (does (.fmul c0 (.g 3) (.g 1) (.g 1) rne) [(1, 0x3F800800)]) 3 = some 0x3F801000 := by decide +kernel
theorem test_ffma : gAfter (does (.ffma c0 (.g 5) (.g 1) (.g 1) (.g 2) rne) [(1, 0x3F800800), (2, 0xBF801000)]) 5 = some 0x33800000 := by
  decide +kernel
/-- R151: an exact zero sum, and an invalid one. -/
theorem test_fadd_zero :
    gAfter (does (.fadd c0 (.g 4) (.g 1) (.g 2) rne) [(1, 0x3F801000), (2, 0xBF801000)]) 4 = some 0 ∧
    gAfter (does (.fadd c0 (.g 4) (.g 1) (.g 2) rne) [(1, 0x7F800000), (2, 0xFF800000)]) 4 = some 0x7FC00000 := by decide +kernel
/-- R151: FFMA(−0, 1.0, +0) in RNE. -/
theorem test_ffma_zero : gAfter (does (.ffma c0 (.g 5) (.g 1) (.imm 1) (.imm 0) rne) [(1, 0x80000000)]) 5 = some 0 := by decide +kernel
theorem test_fdiv_by_zero : gAfter (does (.fdiv c0 (.g 3) (.imm 255) (.imm 0) rne) []) 3 = some 0xFF800000 := by decide +kernel
theorem test_fsqrt : gAfter (does (.fsqrt c0 (.g 3) (.imm 9) rne) []) 3 = some 0x40400000 := by decide +kernel
/-- R152: −0 counts as less than +0; a NaN gives way. -/
theorem test_fmin_zero :
    gAfter (does (.fmin c0 (.g 3) (.imm 0) (.g 1) false noMods) [(1, 0x80000000)]) 3 = some 0x80000000 ∧
    gAfter (does (.fmax c0 (.g 3) (.g 1) (.imm 2) false noMods) [(1, 0x7F800001)]) 3 = some 0x40000000 := by decide +kernel
theorem test_fclass : gAfter (does (.fclass c0 (.g 3) (.g 1)) [(1, 0x7F800001)]) 3 = some 0x100 := by decide +kernel
/-- R154: FFRAC and FRND.RD of −2.75. -/
theorem test_ffrac : gAfter (does (.ffrac c0 (.g 3) (.g 1) false noMods) [(1, 0xC0300000)]) 3 = some 0xBF400000 := by decide +kernel
theorem test_frnd_down : gAfter (does (.frnd c0 (.g 3) (.g 1) { rne with rm := .rd }) [(1, 0xC0300000)]) 3 = some 0xC0400000 := by
  decide +kernel
/-- R159: 1.5 and −2.0 as packed FP16, and back. -/
theorem test_pack2_word : gAfter (runs 0x5057050080800000 [(1, 0x3FC00000), (2, 0xC0000000)]) 5 = some 0xC0003E00 := by decide +kernel
theorem test_split2 : pairAfter (does (.split2 c0 (.g 6) (.g 5) .fp16 false) [(5, 0xC0003E00)]) 6 = some 0xC00000003FC00000 := by decide +kernel
/-- R158: the manual's table of CVT results. -/
theorem test_cvt_to_integer :
    gAfter (does (.cvt c0 (.g 3) (.g 1) .i32 .fp32 .rne false false) [(1, 0xC0300000)]) 3 = some 0xFFFFFFFD ∧
    gAfter (runs 0x50170300800008A6 [(1, 0xC0300000)]) 3 = some 0xFFFFFFFE ∧
    gAfter (does (.cvt c0 (.g 3) (.g 1) .n32 .fp32 .rne false false) [(1, 0xBF800000)]) 3 = some 0 ∧
    gAfter (does (.cvt c0 (.g 3) (.g 1) .i8 .i32 .rne false false) [(1, 300)]) 3 = some 44 ∧
    gAfter (does (.cvt c0 (.g 3) (.g 1) .i8 .i32 .rne false true) [(1, 300)]) 3 = some 0x7F := by decide +kernel
theorem test_cvt_to_float :
    gAfter (does (.cvt c0 (.g 3) (.g 1) .fp16 .fp32 .rne false false) [(1, 0x4788B800)]) 3 = some 0x7C00 ∧
    gAfter (does (.cvt c0 (.g 3) (.g 1) .fp16 .fp32 .rne false true) [(1, 0x4788B800)]) 3 = some 0x7BFF ∧
    gAfter (does (.cvt c0 (.g 3) (.g 1) .fp32 .i32 .rne false false) [(1, 16777217)]) 3 = some 0x4B800000 ∧
    gAfter (does (.cvt c0 (.g 3) (.g 1) .fp32 .i32 .ru false false) [(1, 16777217)]) 3 = some 0x4B800001 ∧
    gAfter (does (.cvt c0 (.g 3) (.g 1) .fp32 .fp16 .rne true false) [(1, 1)]) 3 = some 0 := by decide +kernel
theorem test_pack4 : gAfter (does (.pack4 c0 (.g 4) (.g 0) (.g 2) true true true) [(0, 300), (1, 1), (2, 2), (3, 0xFFFFFF00)]) 4 = some 0x8002017F := by
  decide +kernel
theorem test_split4 : pairAfter (does (.split4 c0 (.g 4) (.g 0) true true) [(0, 0x80010000)]) 4 = some 0xFFFFFF8000000001 := by decide +kernel

/-- R49: the manual's SE4 block, and R51: its product with sixteen ones and the addition to an accumulator of 0. -/
def seInputs : List Nat := [0x40400000, 0xBF400000, 0, 0, 0x3DCCCCCD] ++ List.replicate 11 0
def seOnes : SeBlock := { groups := [3, 3, 3, 3], codes := List.replicate 16 8 }
theorem test_se4_block :
    seEncode 4 .rne false false seInputs =
      (0x80, { groups := [3, 0, 0, 0], codes := [0x0C, 0x13, 0, 0, 0x03] ++ List.replicate 11 0 }) ∧
    seBytes 4 (seEncode 4 .rne false false seInputs).2 = [0x03, 0x6C, 0x02, 0x30, 0, 0, 0, 0, 0, 0, 0] ∧
    blockProduct 4 (seEncode 4 .rne false false seInputs).2 seOnes = 4800 ∧
    scaledAdd 4 0 4800 128 127 = 0x40160000 := by decide +kernel

/-- R136: the word of BRA with the offset −3, at header 0. -/
theorem test_bra : ((memberAt (got (runs 0x60077F007FFFFFFD [])) 0).map (·.next)) = some (some (2 ^ 57 - 3)) := by decide +kernel
/-- R272: a TRAP of a member whose context has no handler stops it; SVC waits for Sernus; LDIO is privileged (R284). -/
theorem test_trap : waitAfter (does (.trap c0 1) []) 0 = some .stopped := by decide +kernel
theorem test_service_waits : waitAfter (does (.svc c0 1) []) 0 = some (.svc 1 false) := by decide +kernel
theorem test_privileged : waitAfter (does (.ldio c0 (.g 2) (.g 4) false 0) []) 0 = some .stopped := by decide +kernel
/-- R117: the placed word runs as the first step. -/
theorem test_step_runs :
    (memberAt (got (step (sWord 0x044706003FC00000))) 0).map (·.r.getG 6) = some 0x3FC00000 := by decide +kernel

/-! ## Boundaries of the statements' clauses -/

/-- A wait that ends at its tick and one a tick before; a lock that has taken 10 µs and one a tick less; a link that is dead. -/
def sTicks (n : Nat) : State := { sAs mIdle with cores := [(64, { CoreUnit.reset with ticks := n })] }
theorem witness_idle_times :
    4800000 ≤ ticksNow (sTicks 4800000) 64 ∧ ¬ 4800000 ≤ ticksNow (sTicks 4799999) 64 ∧
    memberAt (sTicks 0) 0 = some mIdle ∧ mIdle.wait = .idle (.g 3) (some 4800000) := by decide +kernel
def sLock (time : Nat) : State := { sOptics { Bundle.reset with waking := 0x80 } with mod := { ModuleUnit.reset with time := time } }
theorem witness_lock_times :
    (bundleAt (sLock 48000) 0).wakeAt + 48000 ≤ (sLock 48000).mod.time ∧ (sLock 47999).mod.time < (bundleAt (sLock 47999) 0).wakeAt + 48000 ∧
    (bundleAt (sLock 0) 0).waking.getLsbD 7 = true ∧ (bundleAt (sLock 0) 0).waiting = none ∧
    linkDead s0 0 = false ∧ linkDead (sLink { replays := 17, dead := true }) 5 = true ∧
    ((Bundle.reset.act &&& ~~~Bundle.reset.parking) ||| Bundle.reset.joining) ≠ 0 := by decide +kernel

/-- A poisoned face: its granule in the vitrine, a read that would be served, its reader; and one that nothing has poisoned. -/
def sFace : State :=
  { sNbr true 1 with members := [(0, mNbr), (1, cell2 1)], ctxs := [(ctxKey 1 64, { fetchCtx with carved := [(false, 0x60000, 128)] })] }
theorem witness_poisoned_faces :
    (faceGranule sFace (nbr0 true)).isSome = true ∧ facePoisoned sFace (nbr0 true) = false ∧ readServed sFace (nbr0 true) = true ∧
    (nbr0 true).arrived = true ∧ memberAt sFace 0 = some mNbr ∧ mNbr.wait = .nbr .e 0 ∧ seated mNbr = true ∧
    (faceGranule sFace (nbr0 true)).map (fun g => decide (physOf sFace (g / 8 * 8) = g)) = some true ∧
    (faceGranule sFace (nbr0 true)).map (fun g =>
      facePoisoned { sFace with mod := { ModuleUnit.reset with poison := [g] } } (nbr0 true)) = some true := by decide +kernel

/-- A walk of a page that a later shoot-down covers, one whose 2 MiB leaf it covers, and one that none covers. -/
def tlb0 : TlbEntry := { va := 0, bits := 21, asn := 7, leaf := 0 }
theorem witness_walks :
    ((shoot0 false []).coversEntry tlb0 = true ∧ (shoot0 false []).covers 0x5000 12 7 false = false) ∧
    (let w := walk0 0 0x1FFF
     ∃ x ∈ (sShoot (shoot0 false [])).mod.shoots, w.tag ≠ x.seq ∧ (x.seq + 2 ^ 32 - w.tag) % 2 ^ 32 < 2 ^ 31 ∧
       (x.all = true ∨ x.covers w.va 12 w.asn false = true ∨ ∃ e, w.entry = some e ∧ x.coversEntry e = true)) ∧
    ¬ (∃ x ∈ (sShoot (shoot0 false [])).mod.shoots, (walk0 0 0x2000).tag ≠ x.seq ∧
       (x.seq + 2 ^ 32 - (walk0 0 0x2000).tag) % 2 ^ 32 < 2 ^ 31 ∧
       (x.all = true ∨ x.covers (walk0 0 0x2000).va 12 (walk0 0 0x2000).asn false = true ∨
         ∃ e, (walk0 0 0x2000).entry = some e ∧ x.coversEntry e = true)) := by
  refine ⟨by decide +kernel, ⟨shoot0 false [], by simp [sShoot], by decide, by decide, .inr (.inl (by decide +kernel))⟩, ?_⟩
  rintro ⟨x, hx, _, _, h⟩
  simp [sShoot] at hx
  subst hx
  revert h
  simp [walk0, shoot0]
  decide

/-- A docent that has overrun its switch by 1 ms, a tick before, and one that has yielded. -/
def sOverrun (time : Nat) (yielded : Bool) : State :=
  { sDoc [0x0800000000000000] 0 with
    cores := [(64, { CoreUnit.reset with eng := { Engines.reset with
      cmds := [(1, drun0)], prog := some { prog0 0 with yielded := yielded }, docMem := [0x0800000000000000], listLaunch := some 1 } })]
    ctxs := [(ctxKey 1 64, { ctxBig with switching := true, switchAt := 0 })]
    mod := { ModuleUnit.reset with time := time } }
theorem witness_overruns :
    docentYielded (sOverrun 0 false) 1 64 = false ∧ docentYielded (sOverrun 0 true) 1 64 = true ∧
    (∀ g ∈ (coreAt (sOverrun 0 false) 64).issue, g.launch ≠ 1) ∧ 0 + 4800000 ≤ (sOverrun 4800000 false).mod.time ∧
    ¬ 0 + 4800000 ≤ (sOverrun 4799999 false).mod.time ∧ cmdAt (sOverrun 0 false) 64 1 = some drun0 := by decide +kernel

/-- Commands of each kind that may end, and that may not. -/
def sFollow (follow : Option Nat) : State :=
  sEng { Engines.reset with cmds := [(1, { cmd0 with kind := .copym .se4, followPlaced := true, phase := .running }),
    (2, { cmd0 with kind := .mmab .se4, followOf := follow })] }
theorem witness_command_ends :
    copyDone (sCmd runs0) runs0 = true ∧ copyDone (sCmd cmd0) cmd0 = false ∧
    (∀ e ∈ cmdsOf (sFollow none) 64, e.2.followOf ≠ some 1) ∧ ¬ (∀ e ∈ cmdsOf (sFollow (some 1)) 64, e.2.followOf ≠ some 1) ∧
    allPerformed (sCmd { cmd0 with kind := .ecan 7 }) [] = true ∧
    allPerformed { sCmd { cmd0 with kind := .ecan 7 } with accs := [(9, acc0)] } [9] = false ∧
    (∀ g ∈ ({ mm0 0 viewB with unread := false } : Cmd).segs, accsDone (sCmd cmd0) g.accs = true) := by decide +kernel

/-- A step word that is a command: it passes, its queue has room, and the program is not at its last step. -/
def mzeroStep : Word64 := 0x3000000000000000
theorem witness_step_commands :
    let s := sDoc [mzeroStep] 0
    let y := stepCmd s 64 (prog0 0) drun0 mzeroStep (.mzero 0) [0, 0, 0, 0] none none
    stepKind mzeroStep = 3 ∧ cmdFault s 64 y = none ∧ queueFull s 64 y.kind = false ∧ (prog0 0).pc < 511 ∧
    cmdFault s 64 (stepCmd s 64 (prog0 0) drun0 0x6000000000000000 .copy [0, 0, 0, 0] (some 49) (some 43)) ≠ none ∧
    queueFull { s with cores := [(64, { CoreUnit.reset with eng := { Engines.reset with
      cmds := (List.range 33).map fun i => (i, if i = 1 then drun0 else arr (.mzero 0) 0 0 []) } })] } 64 (.mzero 0) = true := by
  decide +kernel

/-- Evictions with images to send, circuits that may come up, and modules that are fenced, that stand alone, or that fill the group. -/
def ctxEvict : Ctx := { ctxOther with isOut := true, outFor := .evict, image := [1, 2] }
def sGroup (n : Nat) : State :=
  { s0 with
    mod := { ModuleUnit.reset with group := (List.range n).map (· + 10), fenced := [5] }
    ports := (List.range n).map fun i => (i, { Port.reset with circuit := some (i + 10) }) }
def restOf (s : State) (port : Nat) : List Nat :=
  s.mod.group.filter fun x => (updPort s port fun p => { p with circuit := none }).ports.any fun p => p.2.circuit == some x
theorem witness_circuits :
    ctxEvict.outFor = .evict ∧ isMapped sFace (sliceBase 64 + 0x60000 + 127) = true ∧ isMapped sFace (sliceBase 64 + 0x60000 + 128) = false ∧
    (restOf (sGroup 8) 63).length = 8 ∧ (restOf (sGroup 8) 0).length = 7 ∧ 10 ∉ restOf (sGroup 8) 0 ∧
    (11 : Nat) ∈ restOf (sGroup 8) 63 ∧ (3 : Nat) ∉ (sGroup 7).mod.fenced ∧ (5 : Nat) ∈ (sGroup 7).mod.fenced ∧
    (restOf (sGroup 7) 63).length < 8 ∧ (3 : Nat) ≠ (sGroup 7).mod.number := by decide +kernel

/-- Signals and records: a sync word that may be signalled, a launch whose knowledge is applied; a record whose stamps are. -/
theorem witness_signals :
    procResolve (sQueue queue0) qDesc0 wafer Need.procSignal = .ok ⟨.loc 0x4040000, .strong, 0⟩ ∧
    applied (sLaunch (launchAt0 .running)) (launchNeed (sLaunch (launchAt0 .running)) 1) = true ∧
    applied s0 [] = true ∧ cont0.need = [] ∧ releaseNeed s0 m0 .pod = [] := by decide +kernel

/-- Beacons whose back-link is the last packet applied, and one whose is neither that nor covered. -/
theorem witness_beacon_links :
    (let s := sPkt (.beacon 0x20000 5) (pairUnit { PairState.reset with rxLast := 5 } 1)
     (pairAt s 2 1).rxLast = 5) ∧
    (let s := sPkt (.beacon 0x20000 7)
     ¬ (7 = (pairAt s 2 1).rxLast ∨ serLe 7 ((fieldAt s 2).horizon.getD 1 0) = true ∨
       serLe 0x20000 ((fieldAt s 2).horizon.getD 1 0) = true)) ∧
    isWriteFrom (sPkt (.write 1 1 0 true stamp0)) 1 5 = true ∧ isWriteFrom (sPkt (.read 1 stamp0)) 1 5 = false := by decide +kernel

/-- An aperture that is lost and one that is not; modules that are fenced or not, of a launch's span and of none. -/
theorem witness_lost_and_fenced :
    isLost { s0 with mod := { ModuleUnit.reset with apertures := [(2, { aper0 with lost := true })] } } 2 = true ∧
    isLost (sAcc [(1, peerAcc .load)]) 2 = false ∧ isFenced (sGroup 1) 5 = true ∧ isFenced (sSpan m0) 3 = false ∧
    farFenced { sSpan m0 with mod := { ModuleUnit.reset with fenced := [3] } } launchSpan 1 = true ∧
    farFenced (sSpan m0) launchSpan 1 = false := by decide +kernel

/-- A drain whose pieces the free slices of SPARE fields hold, and one that they do not; a field that has been moved already. -/
theorem witness_drain_room :
    overflow s0 1 ≠ 0 ∧ isMoved s0 1 = false ∧ isMoved { s0 with mod := { ModuleUnit.reset with redirect := [(64, 0x900000000000)] } } 1 = true ∧
    (let sp (f : Nat) : Nat × FieldUnit := (f, { FieldUnit.reset with spare := true })
     overflow { s0 with fields := (fieldIds.filter (· != 1)).map sp } 1 = 0) := by decide +kernel

/-- The other turns of the machine. -/
theorem witness_other_turns :
    ({ s0 with sched := { s0.sched with turns := [.clauseParity 64 3, .linkAck 5] } } : State).sched.turns = .clauseParity 64 3 :: [.linkAck 5] ∧
    dueCore { sWord nopWord with sched := { (sWord nopWord).sched with turns := [] } } 64 = 64 ∧
    MemOk s0 := by decide +kernel

/-! ## Boundaries: checks, routed faults, poison, budgets, evictions and channels -/

/-- A member whose faults ROUTE sends to Sernus, with the elements of `sView`. -/
def sRouted (m : Member) : State := { sView m with ctxs := [(ctxKey 1 64, { ctxBig with route := 0xFFFF })] }
theorem witness_checks :
    isRouted (sRouted m0) m0 0x04 = true ∧ m0.trapMode = false ∧ tokCount m0 6 < 255 ∧ firstFree (coreAt (sRouted m0) 64).log 64 0 < 64 ∧
    isRouted (sView m0) m0 0x04 = false ∧ isRouted (sRouted { m0 with trapMode := true }) { m0 with trapMode := true } 0x04 = true ∧
    elementAddress (viewAt (sView m0) 64 3) 4 (-1) = .outside ∧ elementAddress (viewAt (sView m0) 64 1) 4 32 = .bad 0x04 32 ∧
    (resolve (sView m0) ctxBig 64 64 false Need.load (BitVec.ofNat 64 virt) 4).1 = .held 1 ∧
    (resolve (sView m0) ctxBig 64 64 false Need.store 0x0000000000010000 4).1 = .bad 0x03 0 ∧
    (match srcFault { m0 with kind := .tail } .w32 (.face 0) with | some x => x == 0x0B | none => false) = true := by decide +kernel

/-- KCAS2: the first word outside, the second outside, and the second at an offset that has no element address. -/
theorem witness_kcas2_edges :
    elementAddress (viewAt (sView m0) 64 3) 4 32 = .outside ∧ elementAddress (viewAt (sView m0) 64 3) 4 (31 + 1) = .outside ∧
    elementAddress (viewAt (sView m0) 64 3) 4 31 = .addr (BitVec.ofNat 64 (wafer + 256 + 60)) ∧
    elementAddress (mkView 2 2 (2 ^ 60 + 2 ^ 60 - 4) 2 1) 4 1 = .bad 0x03 1 ∧
    elementAddress (mkView 2 2 (2 ^ 60 + 2 ^ 60 - 4) 2 1) 4 0 = .addr (BitVec.ofNat 64 (2 ^ 60 + 2 ^ 60 - 4)) := by decide +kernel

/-- R55: guarded off, DQPUSH has no effect in a member that is no curator; not guarded off it is illegal there. -/
theorem test_dqpush_off : exec (.dqpush cOff (.g 1)) s0 = .next s0 ∧ exec (.dqpush c0 (.g 1)) s0 = .next (trap s0 k0 0x01 0) :=
  ⟨rfl, rfl⟩
theorem witness_pop_off : (coreAt s0 64).curatorOf ≠ some m0.launch ∧ Off m0 cOff ∧ Runs m0 c0 ∧ dstFault m0 false (.g 7) = none := by
  decide +kernel

/-- A cell that has drained to park while a tail of its lowered frame runs, and one with no tail left. -/
def tailOf0 : Member := { m0 with kind := .tail, place := .tailSlot 0, releaser := some 0, index := 0, holdTop := 1024 }
def mParkJoin : Member := { mPark with joinTails := [5] }
def sParkJoin : State := { s2 0 0 with members := [(0, mParkJoin), (5, tailOf0)] }
theorem witness_park_joins :
    openJoins sParkJoin mParkJoin ≠ [] ∧ mParkJoin.moveTo = none ∧ drained mParkJoin = true ∧ memberAt sParkJoin 0 = some mParkJoin ∧
    openJoins sPark mPark = [] ∧ mPark.moveTo = none ∧ mPark.wait = .drain .park := by decide +kernel

/-- Faces without poison, and one whose granule is poisoned. -/
theorem witness_face_poison :
    faceBad (s2 1 1) (cell2 1) 0 = false ∧
    (faceSlot sFace (cell2 1) 0).isSome = true ∧
    (faceSlot sFace (cell2 1) 0).map (fun g => faceBad { sFace with mod := { ModuleUnit.reset with poison := [g] } } (cell2 1) 0) =
      some true := by decide +kernel

/-- Chases: at the own home of the word with and without poison, within the budget and beyond it; and a node access under way. -/
def chase0 : Access := { keep .kchase 8 3 with phase := .spreading, value := node, spot := 0x4040000, fetched := none }
def sSpent (n : Nat) : State :=
  { sAcc [(1, chase0)] with quads := [(quadOf 64, { QuadUnit.reset with spent := n, budget := 16 })] }
theorem witness_chases :
    nodeOpen (sAcc [(1, chase0)]) 1 = false ∧ nodeOpen (sAcc [(1, chase0), (2, { acc0 with kind := .nodeRead 1 })]) 1 = true ∧
    isPoisoned (sAcc [(1, chase0)]) 0x4040100 8 = false ∧ budgetAdmits (sAcc [(1, chase0)]) 64 8 0x4040100 = true ∧
    isPoisoned { sAcc [(1, chase0)] with mod := { ModuleUnit.reset with poison := [0x4040100] } } 0x4040100 8 = true ∧
    chase0.hops < 3 ∧ chase0.hops < 16 ∧ homeField (sAcc [(1, chase0)]) 0x4040000 = some 1 ∧ chase0.field = 1 := by decide +kernel

/-- A copy step of a running program behind a held one of its unit. -/
def copyStep0 (ph : CmdPhase) (order : Nat) : Cmd := { cmd0 with docent := true, phase := ph, order := order }
def sHeldStep : State :=
  { sDoc [0] 0 with
    cores := [(64, { CoreUnit.reset with eng := { Engines.reset with
      cmds := [(1, drun0), (2, copyStep0 .held 1), (3, copyStep0 .running 2)], prog := some { prog0 0 with steps := [2, 3] } } })] }
theorem witness_held_steps :
    cmdAt sHeldStep 64 3 = some (copyStep0 .running 2) ∧ heldBefore sHeldStep 64 3 (copyStep0 .running 2) = true ∧
    heldBefore (sCmd { cmd0 with phase := .running }) 64 1 { cmd0 with phase := .running } = false ∧ (copyStep0 .running 2).unread = true := by
  decide +kernel

/-- Docent steps that hold an error, and steps that hold none. -/
def sDocBad : State :=
  { sDoc [loopStep] 0 with
    cores := [(64, { CoreUnit.reset with eng := { Engines.reset with
      cmds := [(1, { drun0 with phase := .queued })], docMem := [loopStep], listLaunch := some 1, docPoison := [0] } })] }
theorem witness_docent_errors :
    StepClean (sDoc [loopStep] 0) 64 0 ∧ StepClean (sDoc [loopStep] 0) 64 511 ∧ ¬ StepClean sDocBad 64 0 ∧ StepClean sDocBad 64 1 ∧
    (coreAt sDocBad 64).eng.listLaunch = some drun0.launch ∧
    cmdReady sDocBad 64 1 { drun0 with phase := .queued } = true ∧ Keyed (cmdsOf sDocBad 64) ∧
    ((fenceSet (sAcc [(1, { acc0 with kind := .store, tok := 6, seq := 3 })]) 0 .module).filter fun e => decide (e.2.seq < 4)) ≠ [] := by
  unfold StepClean
  decide +kernel

/-- A header that cannot be read here: the code segment of the member's context is not valid. -/
theorem witness_unread_header :
    codeWord (sInTrap 1 1 0) { ctxBig with desc := bigDesc.set 5 0 } 64 0 = none ∧ Desc.v bigDesc[5] = true := by decide +kernel

/-- IDLE: an event that the member has heard, one that it has not; a member that holds no slot. -/
def sEvents (heard : Nat) : State :=
  { sAs { mIdle with heard := heard } with mod := { ModuleUnit.reset with events := [3, 4] } }
theorem witness_events :
    (sEvents 1).mod.events.length = 2 ∧ memberAt (sEvents 1) 0 = some { mIdle with heard := 1 } ∧
    memberAt (sEvents 2) 0 = some { mIdle with heard := 2 } ∧ ¬ 2 < (sEvents 2).mod.events.length ∧
    seated { mIdle with place := .parked } = false ∧ ¬ 4800000 ≤ ticksNow (sEvents 1) 64 := by decide +kernel

/-- STOPACT 2 where the record of a DoubleFault finds no room, and where it finds it. -/
def mStopTrap : Member := { mStopped with trapMode := true }
def sBuf (n : Nat) : State := { sBig mStopTrap with mod := { ModuleUnit.reset with recBuf := List.replicate n record0 } }
theorem witness_delivery_room :
    (let d (n : Nat) := deliverEntry (updMember (sBuf n) 0 fun v => { v with stopRec := none }) 0 fault0
     recordRoom (sBuf 16) (d 16) = false ∧ recordRoom (sBuf 15) (d 15) = true) ∧
    mStopTrap.wait = .stopped ∧ mStopTrap.stopRec = some fault0 ∧ mStopTrap.fences = [] := by decide +kernel

/-- Bundles of a fibre, and numbers of none; links that are dead. -/
theorem witness_fibres :
    ((63 : Nat) < 64 ∧ (7 : Nat) < 8) ∧ ¬ ((64 : Nat) < 64) ∧ ¬ ((8 : Nat) < 8) ∧
    (bundleAt (sOptics { Bundle.reset with parking := 0x80, act := 0x7F }) 0).waiting = none ∧
    linkDead (sLink { replays := 17, dead := true }) 5 = true ∧ linkDead (sLink Link.reset) 5 = false := by decide +kernel
/-- R331: three wavelengths carry 86, 85 and 85 of the 256 bits. -/
theorem test_stripes :
    (bundleAt (got (exec (.flitStart 0 0) (sOptics { Bundle.reset with act := 0x29, queued := [8] }))) 0).sent =
      [(8, [(0, 86), (3, 85), (5, 85)])] := by decide +kernel

/-- An eviction under way, and one that has failed: only the first holds packets, placements and restores back. -/
theorem witness_evicting :
    evicting (sEvict .quiescing 0) = true ∧ evicting (sEvict .draining 0) = true ∧ evicting s0 = false ∧
    evicting (sEvict .failed 0) = false ∧ procAcquires (sQueue queue0) = true ∧
    procAcquires { sQueue queue0 with
      fields := [(3, { FieldUnit.reset with know := knows 2 })]
      pkts := [(5, { src := 1, dst := 3, gen := 0, body := .write 1 1 0 true stamp0 })] } = false ∧
    (sEvict .draining 143999999999).mod.evictAt + 144000000000 > (sEvict .draining 143999999999).mod.time := by decide +kernel

/-- A member that stands behind the last slot of its clause. -/
def sBehind : State := sPick { m0 with slot := 1 } (entry0 false)
theorem witness_behind_clause :
    readyList (idleUntil sBehind 64 0) 64 ≠ [] ∧ (entry0 false).words.length < 1 + 2 ∧ 0 + 2 ≤ (entry0 false).words.length ∧
    goesOn (exec (.pick 64 0) sBehind) = true := by decide +kernel

/-- An access whose own bytes alone move, and a KENQ with its node's word. -/
theorem witness_home_bytes :
    homeBytes (sPort farStore FieldUnit.reset) farStore = 4 ∧ budgetAdmits (sPort farStore FieldUnit.reset) 64 (homeBytes (sPort farStore FieldUnit.reset) farStore) 0x8000000 = true ∧
    homeBytes (sAcc [(1, keep .kenq 16 node)]) (keep .kenq 16 node) = 24 ∧ (pairAt (sPort farLoad FieldUnit.reset) 2 1).dead = false ∧
    nodeOpen (sHome (.write 1 1 0 true stamp0)) 1 = false := by decide +kernel

/-- Refused packets that may be sent again, and of a dead field; what a port holds back as a beacon comes. -/
theorem witness_refusals :
    (let u := pairUnit { PairState.reset with nacked := [.read 7 stamp0] } 1
     let s := sPkt (.beacon 0x10000 0) u
     (pairAt s 2 1).nacked ≠ [] ∧ (fieldAt s 2).state ≠ .dead ∧ (pairAt s 2 1).dead = false ∧
     ((fieldAt s 2).pairs.flatMap fun e => e.2.nacked) ≠ [] ∧ Keyed (fieldAt s 2).pairs) ∧
    (let s := sPkt (.beacon 0x10000 0)
     (pairAt s 2 1).acksDue = [] ∧ ((fieldAt s 2).pairs.flatMap fun e => e.2.nacked) = [] ∧ unsentResponses s 2 = []) ∧
    unsentResponses (sPkt (.beacon 0x10000 0) FieldUnit.reset [(1, { farLoad with phase := .returning, stamp := knows 1 })]) 2 = [1] ∧
    (fieldAt (sField { FieldUnit.reset with state := .dead }) 1).state = .dead ∧
    (pairAt { s0 with fields := [(2, pairUnit { PairState.reset with dead := true } 1)] } 2 1).dead = true := by decide +kernel

/-- A module of the group with a circuit, and one that has lost its own; apertures outside the group. -/
theorem witness_groups :
    (3 ∈ (sLink Link.reset).mod.group ∧ ∃ p ∈ (sLink Link.reset).ports, p.2.circuit = some 3) ∧
    (4 ∈ (sLink Link.reset).mod.group ∧ ¬ ∃ p ∈ (sLink Link.reset).ports, p.2.circuit = some 4) ∧
    isLost (sLink Link.reset) 2 = false ∧
    isLost { sLink Link.reset with mod := { (sLink Link.reset).mod with group := [4] } } 2 = true ∧
    (let s := { sAcc [(1, peerAcc .load)] with mod := (sLink Link.reset).mod }
     isLost s 2 = false ∧ orderPasses s 1 (peerAcc .load) = true) := by decide +kernel

/-- A cell of a span whose part has completed here. -/
def sPast : State := { sSpan m0 with launches := [], mod := { ModuleUnit.reset with spanPast := [(7, { m0 with departed := true, done := 2 })] } }
theorem witness_past_cells :
    spanLaunch sPast 7 = none ∧ pastCell sPast 7 0 = some { m0 with departed := true, done := 2 } ∧ pastCell sPast 7 1 = none ∧
    pastCell (sSpan m0) 8 0 = none ∧ (∀ w ∈ sPast.mod.spanWaits, w.span ≠ 7) ∧ isFenced sPast 3 = false ∧ Keyed sPast.launches := by
  decide +kernel

/-- Picks that are due, and errors of docent memory and reads of the store among the turns. -/
def sDuePick : State := { sClause (entry0 false) with mod := { ModuleUnit.reset with time := 5 } }
theorem witness_due_picks :
    pickDue sDuePick = some 64 ∧ pickDue State.reset = none ∧
    (match exec (.pick 64 0) sDuePick with | .next t => recordRoom sDuePick t | _ => false) = true ∧
    pickDue { sWord nopWord with sched := { (sWord nopWord).sched with turns := [] } } = none ∧
    ({ s0 with sched := { s0.sched with turns := [.docError 64 3, .readStore 0 4] } } : State).sched.turns =
      .docError 64 3 :: [.readStore 0 4] := by decide +kernel

end Sys2Proof.Tests
end

section
/-!
PROOF. What the shared operations of this part leave as it was: a member that goes on changes members alone, one that retires changes
the units of its core.
-/
set_option linter.constructorNameAsVariable false
namespace Sys2Proof.Proofs
open Sys2Proof.Machine Sys2Proof.Safety

/-- From `s` to `t` members alone change. -/
def MembersOnly (s t : State) : Prop := t = { s with members := t.members }

theorem MembersOnly.trans {s t u : State} (h : MembersOnly s t) (g : MembersOnly t u) : MembersOnly s u := by
  unfold MembersOnly at *
  rw [g, h]

theorem membersOnly_updMember (s : State) (id : Nat) (f : Member → Member) : MembersOnly s (updMember s id f) := rfl

theorem membersOnly_wake (s : State) (id : Nat) : MembersOnly s (wake s id) := by
  unfold wake
  split <;> rfl

/-- A member that waits no more (R115). -/
theorem memberAt_wake {s : State} {id : Nat} {m : Member} (h : memberAt s id = some m) :
    memberAt (wake s id) id = some { m with wait := .ready, readySince := (coreAt s m.core).cyc } := by
  unfold wake
  rw [h]
  simp [h]

theorem memberAt_wake_other (s : State) {id n : Nat} (h : n ≠ id) : memberAt (wake s id) n = memberAt s n := by
  unfold wake
  split
  · rfl
  · exact memberAt_updMember_other _ _ h

theorem membersOnly_settle (s : State) (id : Nat) : MembersOnly s (settle s id) := by
  unfold settle
  split <;> rfl

theorem membersOnly_endClause (s : State) (id h count : Nat) : MembersOnly s (endClause s id h count) := by
  unfold endClause
  split
  · rfl
  · split
    · rfl
    · exact (membersOnly_updMember ..).trans (membersOnly_settle ..)

theorem membersOnly_passSlot (s : State) (id : Nat) : MembersOnly s (passSlot s id) := by
  unfold passSlot
  split
  · rfl
  · split
    · exact membersOnly_endClause ..
    · exact (membersOnly_updMember ..).trans (membersOnly_wake ..)

theorem MembersOnly.mem {s t : State} (h : MembersOnly s t) : t.mem = s.mem := by rw [h]
theorem MembersOnly.mod {s t : State} (h : MembersOnly s t) : t.mod = s.mod := by rw [h]
theorem MembersOnly.launches {s t : State} (h : MembersOnly s t) : t.launches = s.launches := by rw [h]

@[simp] theorem mod_retireAs (s : State) (id cat w : Nat) : (retireAs s id cat w).mod = s.mod := by
  unfold retireAs
  split
  · rfl
  · split <;> rfl

@[simp] theorem launches_retireAs (s : State) (id cat w : Nat) : (retireAs s id cat w).launches = s.launches := by
  unfold retireAs
  split
  · rfl
  · split <;> rfl

end Sys2Proof.Proofs
end

section
/-!
PROOF. The register file and the ends of clauses (R11, R59, R60, R110, R118, R143).
-/
set_option linter.constructorNameAsVariable false
namespace Sys2Proof.Proofs
open Sys2Proof.Machine Sys2Proof.Safety

theorem getG_setG (r : Regs) (n i : BitVec 6) (v : Word) : (r.setG n v).getG i = if i = n then v else r.getG i := by
  split
  · next h => rw [h, getG_setG_same]
  · next h => exact getG_setG_other r v h

theorem getF_setF (r : Regs) (n i : BitVec 3) (v : Word) : (r.setF n v).getF i = if i = n then v else r.getF i := by
  split
  · next h => rw [h, getF_setF_same]
  · next h => exact getF_setF_other r v h

/-- A join that is open stays open over a change of a member that leaves it where it is. -/
theorem openJoins_updMember (s : State) (id : Nat) (m : Member) {f : Member → Member} (hf : ∀ v, (f v).place = v.place) :
    openJoins (updMember s id f) m = openJoins s m := by
  unfold openJoins
  refine List.filter_congr fun t _ => ?_
  by_cases ht : t = id
  · subst ht
    cases h : memberAt s t <;> simp [h, isLive, hf]
  · rw [memberAt_updMember_other _ _ ht]

/-- The live tails of a frame join, by any predicate that tells which members have not gone. -/
theorem filter_eq_openJoins {s : State} {m : Member} {p : Nat → Bool} (hp : ∀ n, p n = ((memberAt s n).map isLive).getD false) :
    m.joinTails.filter p = openJoins s m :=
  List.filter_congr fun n _ => hp n

/-- A move comes first at a clause's end (R110). -/
theorem boundaryWait_move {m : Member} {x : Nat × Nat} (h : m.moveTo = some x) (tails : List Nat) :
    m.boundaryWait tails = .drain (.migrate x.1 x.2) := by
  simp [Member.boundaryWait, h]

/-- Without a move the frame join comes, and then the park (R118, R143; log 46). -/
theorem boundaryWait_stay {m : Member} (h : m.moveTo = none) (tails : List Nat) :
    m.boundaryWait tails =
      if tails ≠ [] then .frameJoin tails else if m.parkWish && m.rd == 0 then .drain .park else .ready := by
  cases tails <;> simp [Member.boundaryWait, h, releasedMode, bne]

/-- What a member has asked for at its clause's end it still asks for behind the clause. -/
theorem boundaryWait_afterClause (m : Member) (h count : Nat) (tails : List Nat) :
    (m.afterClause h count).boundaryWait tails = m.boundaryWait tails := by
  cases hv : m.moveTo with
  | some x => rw [boundaryWait_move hv, boundaryWait_move (show (m.afterClause h count).moveTo = some x from hv)]
  | none =>
    rw [boundaryWait_stay hv, boundaryWait_stay (show (m.afterClause h count).moveTo = none from hv)]
    simp [Member.afterClause, Member.leftClause, releasedMode]

/-- A member at the end of its clause (R59, R60, R110, R118, R143). -/
theorem memberAt_endClause_eq {s : State} {id : Nat} {m : Member} (h : memberAt s id = some m) (ht : m.terminating = false)
    (pc n : Nat) : memberAt (endClause s id pc n) id = some { m.afterClause pc n with
      wait := m.boundaryWait (openJoins s m), joinTails := openJoins s m, readySince := (coreAt s m.core).cyc } := by
  have h1 : memberAt (updMember s id fun v => v.afterClause pc n) id = some (m.afterClause pc n) := by simp [h]
  have hj : openJoins (updMember s id fun v => v.afterClause pc n) (m.afterClause pc n) = openJoins s m :=
    openJoins_updMember s id _ fun _ => rfl
  unfold endClause
  simp only [h, ht, Bool.false_eq_true, if_false]
  rw [memberAt_settle h1, hj, boundaryWait_afterClause]
  rfl

/-- The code position behind a clause: a word index modulo 2^57 (R11; log 11). -/
theorem wrapIdx_natCast (n : Nat) : wrapIdx (n : Int) = n % 2 ^ 57 := by
  unfold wrapIdx
  rw [← Int.natCast_emod, Int.toNat_natCast]

/-- Settles O58: the register file's laws, and the member's state at the end of a clause read off `endClause`. -/
theorem registersAndClauseEnds : Obligations.RegistersAndClauseEnds := by
  refine ⟨fun r b v => ⟨getP_seven r, setP_seven r b, fun p q hp => getP_setP r p q b hp, fun n k => getG_setG r n k v,
    fun n k => getF_setF r n k v⟩, fun s id m h count hm ht => ⟨membersOnly_endClause s id h count,
    fun n hn => memberAt_endClause_other hm ht h count hn, ?_⟩⟩
  have hw : wrapIdx (h + count + 2) = (h + count + 2) % 2 ^ 57 := wrapIdx_natCast (h + count + 2)
  have hr : (!releasedMode m) = (m.rd == 0) := by simp [releasedMode, bne]
  rw [memberAt_endClause_eq hm ht, filter_eq_openJoins fun n => by cases memberAt s n <;> rfl]
  cases hv : m.moveTo with
  | some x =>
    rw [boundaryWait_move (x := x) hv]
    simp only [Member.afterClause, Member.leftClause, Member.leavesE4, hw, hr, hv]
  | none =>
    rw [boundaryWait_stay hv]
    simp only [Member.afterClause, Member.leftClause, Member.leavesE4, hw, hr, hv]

end Sys2Proof.Proofs
end

section
/-!
PROOF. Special registers (R12, R119, R123, R134).
-/
set_option linter.constructorNameAsVariable false
namespace Sys2Proof.Proofs
open Sys2Proof.Machine Sys2Proof.Safety

/-- %tok is the sum of the bits of the tokens that are outstanding (R134). -/
theorem tokBits_eq_sum (m : Member) :
    tokBits m = ((List.range 6).map fun i => if tokCount m i ≠ 0 then 2 ^ i else 0).sum := by
  have hb : ∀ i, boolNat (tokCount m i != 0) * 2 ^ i = if tokCount m i ≠ 0 then 2 ^ i else 0 := by
    intro i
    by_cases h : tokCount m i = 0 <;> simp [h, boolNat]
  simp only [tokBits, hb, List.sum_eq_foldl, List.foldl_map]

/-- SETS reads an operand of the width that W gives, where it may write the register at all (R134). -/
theorem setsFault_eq (s : State) (m : Member) (a : Src) (r : SReg) (wide : Bool) :
    setsFault s m a r wide = if r ≠ .energy then some 0x01
      else if (launchAt s m.launch).map (·.system) ≠ some true then some 0x02
      else srcFault m (if wide then .w64 else .w32) a := by
  have hp : privileged s m = true ↔ (launchAt s m.launch).map (·.system) = some true := by
    unfold privileged
    cases launchAt s m.launch <;> simp
  have hf : formFault m .none false [(tyOf wide, a)] = srcFault m (if wide then .w64 else .w32) a := by
    unfold formFault tyOf
    cases hs : srcFault m (if wide = true then Ty.w64 else .w32) a <;> simp [hs, dstFault]
  unfold setsFault
  by_cases hr : r = .energy
  · by_cases hs : privileged s m = true
    · simp [hr, hs, hp.mp hs, hf]
    · simp [hr, hs, mt hp.mpr hs]
  · simp [hr]

/-- A write of %energy (R134): the accumulator takes all of the operand, or its low word beneath a free value (log 12). -/
theorem writeEnergy_spec (s : State) (core : Nat) (wide : Bool) (x : Word64) :
    ∃ v : Word64, OnlyCore { s with sched := (writeEnergy s core wide x).sched } (writeEnergy s core wide x) core
        { coreAt s core with energy := v } ∧
      (writeEnergy s core wide x).sched = { s.sched with free := (writeEnergy s core wide x).sched.free } ∧
      lo32 v = lo32 x ∧ (wide = true → v = x) := by
  cases wide with
  | true => exact ⟨x, onlyCore_updCore s core fun u => { u with energy := x }, rfl, rfl, fun _ => rfl⟩
  | false =>
    refine ⟨Config.freeWord s.sched.free ++ lo32 x, onlyCore_updCore (drawFree s).2 core fun u => { u with energy := _ }, rfl, ?_,
      fun h => nomatch h⟩
    unfold lo32
    exact BitVec.extractLsb'_append_eq_right

/-- %step is the step that a grid cell is in, modulo 2^32, and zero in every other member (R134). -/
theorem sregValue_step (s : State) (m : Member) :
    sregValue s m .step = if m.kind = .grid then BitVec.ofNat 64 ((m.done + 1) % 2 ^ 32) else 0 := by
  by_cases h : m.kind = .grid <;> simp [sregValue, h]

theorem sregValue_tok (s : State) (m : Member) : sregValue s m .tok =
    BitVec.ofNat 64 ((List.range 6).map fun i => if tokCount m i ≠ 0 then 2 ^ i else 0).sum :=
  congrArg (BitVec.ofNat 64) (tokBits_eq_sum m)

/-- Settles O6: MOVS by the table of `sregValue`, row by row, and SETS by its check and the write of the accumulator. -/
theorem specialRegisters : Obligations.SpecialRegisters := by
  refine ⟨fun d r wide => ?_, fun a r wide => ?_⟩
  · refine valueFormAlso_of (run := fun s c k m _ =>
      result s k c d wide (if wide then sregValue s m r else ext (lo32 (sregValue s m r)))) (fun _ _ => rfl) fun s c k m vs hm _ => ?_
    have hw := writes_result (s := s) hm c d wide (if wide then sregValue s m r else ext (lo32 (sregValue s m r)))
    cases r
    case step => rwa [sregValue_step] at hw ⊢
    case tok => rwa [sregValue_tok] at hw ⊢
    case slot =>
      simp only [sregValue, slotCode] at hw ⊢
      cases hp : m.place <;> (rw [hp] at hw; exact hw)
    all_goals exact hw
  · simp only [← setsFault_eq]
    exact actForm_one (fun _ _ => rfl) fun s _ _ m x _ _ => writeEnergy_spec s m.core wide x

end Sys2Proof.Proofs
end

section
/-!
PROOF. STEP and its commit (R19, R27, R146).
-/
set_option linter.constructorNameAsVariable false
namespace Sys2Proof.Proofs
open Sys2Proof.Machine Sys2Proof.Safety

/-- The position that a member has passed (R104, R117). -/
theorem passedSlot_passSlot {s : State} {id : Nat} {m : Member} (h : memberAt s id = some m) (ht : m.terminating = false) :
    ∃ v, memberAt (passSlot s id) id = some v ∧ PassedSlot m v ∧
      v.done = m.done ∧ v.r = m.r ∧ v.pub0 = m.pub0 ∧ v.pub1 = m.pub1 := by
  unfold passSlot
  rw [h]
  by_cases hc : m.slot ≥ m.count
  · obtain ⟨v, hv, he⟩ := memberAt_endClause h ht m.pc m.count
    simp only [hc, if_true]
    refine ⟨v, hv, ⟨fun hlt => absurd hlt (by omega), fun _ => ?_⟩, ?_⟩
    · rw [he]
      exact ⟨congrArg m.next.getD (wrapIdx_natCast (m.pc + m.count + 2)), rfl, rfl⟩
    · rw [he]
      exact ⟨rfl, rfl, rfl, rfl⟩
  · have h1 : memberAt (updMember s id fun v => { v with slot := v.slot + 1, nbrVals := [] }) id =
        some { m with slot := m.slot + 1, nbrVals := [] } := by simp [h]
    simp only [hc, if_false]
    exact ⟨_, memberAt_wake h1, ⟨fun _ => ⟨rfl, rfl, rfl⟩, fun hle => absurd hle hc⟩, rfl, rfl, rfl, rfl⟩

theorem memberAt_passSlot_other {s : State} {id n : Nat} (h : n ≠ id) : memberAt (passSlot s id) n = memberAt s n := by
  unfold passSlot
  cases hm : memberAt s id with
  | none => rfl
  | some m =>
    simp only
    split
    · by_cases ht : m.terminating = true
      · simp [endClause, hm, ht]
      · exact memberAt_endClause_other hm (by simpa using ht) _ _ h
    · rw [memberAt_wake_other _ h, memberAt_updMember_other _ _ h]

/-- The member behind its commit (R19). -/
theorem memberAt_commitStep {s : State} {id : Nat} {m : Member} (h : memberAt s id = some m) (mask : BitVec 8) :
    memberAt (commitStep s id mask) id = some (m.commit mask (archInterval s m)) := by
  unfold commitStep
  rw [h]
  simp [markProgress, h, (logsOnly_logVitrine s m).memberAt_eq]

/-- A commit leaves the member at its slot. -/
theorem passedSlot_commit {m v : Member} {mask : BitVec 8} {i : Option Nat} (h : PassedSlot (m.commit mask i) v) : PassedSlot m v := by
  unfold Member.commit at h
  split at h <;> exact h

theorem terminating_commit (m : Member) (mask : BitVec 8) (i : Option Nat) : (m.commit mask i).terminating = m.terminating := by
  unfold Member.commit
  split <;> rfl

/-- A commit stays one where the cell then goes on: memory, the archive log, other members and published faces stay. -/
theorem committed_goOn {s t u : State} {id : Nat} {m v w : Member} {mask : BitVec 8} (h : Committed s t id m mask)
    (hmem : u.mem = t.mem) (hlog : u.mod.archive = t.mod.archive) (ho : ∀ n, n ≠ id → memberAt u n = memberAt t n)
    (hv : memberAt t id = some v) (hw : memberAt u id = some w)
    (hk : w.done = v.done ∧ w.r = v.r ∧ w.pub0 = v.pub0 ∧ w.pub1 = v.pub1) : Committed s u id m mask := by
  obtain ⟨v', hv', hdone, hr, hnew, hold⟩ := h.member
  obtain rfl : v = v' := by rwa [hv, Option.some.injEq] at hv'
  obtain ⟨kd, kr, k0, k1⟩ := hk
  have hp : ∀ g f, pubAt w g f = pubAt v g f := fun g f => by unfold pubAt; rw [k0, k1]
  refine ⟨fun x hx => ?_, fun n hn => (ho n hn).trans (h.others n hn), w, hw, kd.trans hdone, kr.trans hr,
    fun f => (hp ..).trans (hnew f), fun f => (hp ..).trans (hold f)⟩
  rw [hmem]
  refine h.memory x fun ⟨e, he, hi⟩ => hx ⟨e, ?_, hi⟩
  rwa [hlog]

/-- Who may not use faces and STEP (R25, R27, R94, R140). -/
theorem faceUse_eq (m : Member) : faceUse m =
    if m.kind = .curator then some 0x01 else if m.kind = .tail ∨ m.kind = .task ∨ m.rd ≠ 0 then some 0x0B else none := by
  unfold faceUse isCurator noGrid releasedMode
  cases m.kind <;> simp

/-- Settles O10: `stepReady` decides whether the step is due; then it commits, and otherwise the member waits at its slot. -/
theorem stepEffects : Obligations.StepEffects := by
  refine fun mask => ⟨?_, fun s id m hm hw => ⟨fun hs hd ht => ?_, fun hn => ?_⟩⟩
  · simp only [← faceUse_eq]
    refine actForm_control (run := fun s k m => if stepReady s k.member m then commitStep s k.member mask
      else leaveGroup (askRemoteSteps s m) k.member k.slot (.step mask)) (fun _ _ => rfl) fun s k m hi _ => ⟨fun hd => ?_, fun hd => ?_⟩
    · simp only [(stepReady_iff ..).mpr hd, if_true]
      exact committed_commitStep hi.member mask
    · simp only [mt (stepReady_iff ..).mp hd]
      exact leaves_ask hi.member _
  · have hc := memberAt_commitStep hm mask
    have hr : memberAt (retireAs (commitStep s id mask) id 7 1) id = _ := (memberAt_retireAs ..).trans hc
    obtain ⟨v, hv, hp, hk⟩ := passedSlot_passSlot hr ((terminating_commit ..).trans ht)
    have hmo := membersOnly_passSlot (retireAs (commitStep s id mask) id 7 1) id
    refine ⟨_, ?_, committed_goOn (committed_commitStep hm mask) (by rw [hmo.mem, mem_retireAs]) (by rw [hmo.mod, mod_retireAs])
      (fun n hn => (memberAt_passSlot_other hn).trans (memberAt_retireAs ..)) hc hv hk, v, hv, passedSlot_commit hp⟩
    simp [exec, execStepCommit, hm, hw, hs, (stepReady_iff ..).mpr hd]
  · have hb : ¬ ((seated m && stepReady s id m) = true) := by
      rw [Bool.and_eq_true, stepReady_iff]
      rintro ⟨h1, h2⟩
      rcases hn with h | h
      · rw [h] at h1; exact Bool.false_ne_true h1
      · exact h h2
    simp only [Idle, exec, execStepCommit, hm, hw, hb, Bool.false_eq_true, if_false]

end Sys2Proof.Proofs
end

section
/-!
PROOF. Gang swaps (R29, R114).
-/
set_option linter.constructorNameAsVariable false
namespace Sys2Proof.Proofs
open Sys2Proof.Machine Sys2Proof.Safety

theorem bestBy_eq_none {α : Type} {lt : α → α → Bool} {l : List α} : bestBy lt l = none ↔ l = [] := by
  cases l with
  | nil => simp [bestBy]
  | cons x r =>
    unfold bestBy
    split
    · simp
    · split <;> simp

theorem mem_of_bestBy {α : Type} {lt : α → α → Bool} {l : List α} {x : α} (h : bestBy lt l = some x) : x ∈ l := by
  induction l generalizing x with
  | nil => cases h
  | cons y r ih =>
    unfold bestBy at h
    split at h
    · cases h; exact List.mem_cons_self
    · next z hz =>
      split at h
      · cases h; exact List.mem_cons_of_mem _ (ih hz)
      · cases h; exact List.mem_cons_self

/-- The best of a list under an order that goes by a number first has the least number. -/
theorem bestBy_least {α : Type} {lt : α → α → Bool} {key : α → Nat} (h1 : ∀ a b, lt a b = true → key a ≤ key b)
    (h2 : ∀ a b, lt a b = false → key b ≤ key a) {l : List α} {x : α} (h : bestBy lt l = some x) : ∀ y ∈ l, key x ≤ key y := by
  induction l generalizing x with
  | nil => cases h
  | cons y r ih =>
    unfold bestBy at h
    split at h
    · next hn =>
      rw [bestBy_eq_none] at hn
      subst hn
      cases h
      simp
    · next z hz =>
      have hr := ih hz
      split at h
      · next hlt =>
        cases h
        exact List.forall_mem_cons.mpr ⟨h1 _ _ hlt, hr⟩
      · next hlt =>
        cases h
        exact List.forall_mem_cons.mpr ⟨Nat.le_refl _, fun w hw => (h2 _ _ (by simpa using hlt)).trans (hr w hw)⟩

/-- A gang that may leave: active, and each of its cells waits on a long event and stands in no group (R29, R114). -/
def MayLeave (s : State) (core g : Nat) : Prop :=
  g ∈ activeSet s core ∧ ∀ e ∈ cellsOfGang s core g, longWait s e.2 = true ∧ inGroup s e.1 core = false

/-- A gang that may come in: held, not active, with a cell that is ready (R114). -/
def MayCome (s : State) (core g : Nat) : Prop :=
  g ∈ heldGangs s core ∧ g ∉ activeSet s core ∧ ∃ e ∈ cellsOfGang s core g, readyApart s e.1 e.2 = true

/-- When a gang last issued (R114). -/
def lastIssue (s : State) (core g : Nat) : Nat := (tabGet (coreAt s core).lastIssued g).getD 0

theorem mem_leaving (s : State) (core g : Nat) :
    g ∈ (activeSet s core).filter (fun g => (cellsOfGang s core g).all fun e => longWait s e.2 && !inGroup s e.1 core) ↔
      MayLeave s core g := by
  simp [MayLeave]

theorem gangOut_eq_none {s : State} {core : Nat} : gangOut s core = none ↔ ∀ g, ¬ MayLeave s core g := by
  simp only [gangOut, bestBy_eq_none, List.eq_nil_iff_forall_not_mem, mem_leaving]

theorem gangIn_eq_none {s : State} {core : Nat} : gangIn s core = none ↔ ∀ g, ¬ MayCome s core g := by
  simp [gangIn, bestBy_eq_none, List.filter_eq_nil_iff, MayCome]

/-- The gang that leaves may leave, and none of those has issued longer ago. -/
theorem gangOut_spec {s : State} {core o : Nat} (h : gangOut s core = some o) :
    MayLeave s core o ∧ ∀ g, MayLeave s core g → lastIssue s core o ≤ lastIssue s core g := by
  refine ⟨(mem_leaving ..).mp (mem_of_bestBy h), fun g hg => ?_⟩
  refine bestBy_least (key := lastIssue s core) (fun a b => ?_) (fun a b => ?_) h g ((mem_leaving ..).mpr hg)
  · simp only [lastIssue, Bool.or_eq_true, Bool.and_eq_true, decide_eq_true_eq, beq_iff_eq]
    omega
  · simp only [lastIssue, Bool.or_eq_false_iff, decide_eq_false_iff_not]
    omega

theorem gangIn_spec {s : State} {core i : Nat} (h : gangIn s core = some i) : MayCome s core i := by
  simpa [MayCome] using mem_of_bestBy h

/-- While a swap runs neither of its gangs issues (R114). -/
theorem not_mem_issuingGangs {s : State} {core o i : Nat} (h : (coreAt s core).swapping = some (o, i)) :
    o ∉ issuingGangs s core ∧ i ∉ issuingGangs s core := by
  simp [issuingGangs, h]

/-- Settles O44: GANG_SWAP by what `gangOut` and `gangIn` find, and GANG_SWAP_END by the exchange in the active set. -/
theorem gangSwaps : Obligations.GangSwaps := by
  intro s core u last leaves comes
  refine ⟨fun hs => ?_, fun hs hn => ?_, fun hs hl hc => ?_, fun hs => ?_, fun o i hs => ?_⟩
  · have hs' : (coreAt s core).swapping.isSome = true := Option.isSome_iff_ne_none.mpr hs
    simp only [Idle, exec, execGangSwap, hs', if_true]
  · rcases hn with h | h
    · simp [Idle, exec, execGangSwap, gangOut_eq_none.mpr h]
    · have hi := gangIn_eq_none.mpr h
      cases ho : gangOut s core <;> simp [Idle, exec, execGangSwap, ho, hi]
  · obtain ⟨o, ho⟩ := Option.ne_none_iff_exists'.mp (mt gangOut_eq_none.mp (not_forall_not.mpr hl))
    obtain ⟨i, hi⟩ := Option.ne_none_iff_exists'.mp (mt gangIn_eq_none.mp (not_forall_not.mpr hc))
    have hoc := onlyCore_updCore s core fun u => { u with swapping := some (o, i), active := activeSet s core }
    refine ⟨_, o, i, ?_, (gangOut_spec ho).1, gangIn_spec hi, (gangOut_spec ho).2, hoc,
      not_mem_issuingGangs (congrArg CoreUnit.swapping hoc.core)⟩
    have hs' : (coreAt s core).swapping = none := hs
    simp [exec, execGangSwap, hs', ho, hi]
  · have hs' : (coreAt s core).swapping = none := hs
    simp [Idle, exec, execGangSwapEnd, hs']
  · have hs' : (coreAt s core).swapping = some (o, i) := hs
    refine ⟨_, ?_, onlyCore_updCore s core fun u =>
      { u with swapping := none, active := (u.active.filter (· != o)) ++ [i], swappedIn := tabPut u.swappedIn i u.cyc }⟩
    simp [exec, execGangSwapEnd, hs']

end Sys2Proof.Proofs
end

section
/-!
PROOF. Neighbour operands and neighbour reads (R14, R20, R106, R350).
-/
set_option linter.constructorNameAsVariable false
namespace Sys2Proof.Proofs
open Sys2Proof.Machine Sys2Proof.Safety

/-- A neighbour operand beyond an edge that reads as zero (R14). -/
theorem nbrNow_edge {s : State} {m : Member} {l : Launch} {d : Dir} {f : BitVec 3} (hl : launchAt s m.launch = some l)
    (hv : m.nbrVals = []) (hn : nbrLinear l m d = none) : nbrNow s m d f = .value 0 := by
  simp [nbrNow, hl, hv, hn]

/-- A neighbour operand that names the cell itself (R14, R20). -/
theorem nbrNow_self {s : State} {m : Member} {l : Launch} {d : Dir} {f : BitVec 3} (hl : launchAt s m.launch = some l)
    (hv : m.nbrVals = []) (hn : nbrLinear l m d = some m.linear) : nbrNow s m d f =
      if faceBad s m f then .waits ((cellAt s m.launch m.linear).map (·.1)) true else .value (pubAt m m.done f) := by
  simp [nbrNow, hl, hv, hn]

/-- A neighbour operand that names another cell of the core (R20). -/
theorem nbrNow_here {s : State} {m c : Member} {l : Launch} {d : Dir} {f : BitVec 3} {n id : Nat}
    (hl : launchAt s m.launch = some l) (hv : m.nbrVals = []) (hn : nbrLinear l m d = some n) (hne : n ≠ m.linear)
    (hc : cellAt s m.launch n = some (id, c)) (hh : c.home = m.core) (hcore : c.core = c.home) : nbrNow s m d f =
      if published c m.done && !faceBad s c f then .value (pubAt c (readGen c m.done) f) else .waits (some id) true := by
  have hcm : c.core = m.core := hcore.trans hh
  simp [nbrNow, hl, hv, hn, hne, hc, hh, hcm]

/-- A neighbour operand of what `nbrNow` gives. -/
theorem readSrc_value {s : State} {m : Member} {d : Dir} {f : BitVec 3} {v : Word} (h : nbrNow s m d f = .value v) (t : Ty) :
    readSrc s m t (.nbr d f) = .val (v.zeroExtend 64) := by
  simp [readSrc, h]
theorem readSrc_waits {s : State} {m : Member} {d : Dir} {f : BitVec 3} {tg : Option Nat} {a : Bool}
    (h : nbrNow s m d f = .waits tg a) (t : Ty) : readSrc s m t (.nbr d f) = .away d f tg a := by
  simp [readSrc, h]

theorem published_iff (c : Member) (g : Nat) : published c g = true ↔ c.departed = true ∨ g ≤ c.done := by
  simp [published]

theorem not_published_iff (c : Member) (g : Nat) : published c g = false ↔ c.departed = false ∧ c.done < g := by
  simp [published]

/-- A neighbour read on its way that names a cell here arrives: its cell is demanded where it is parked and has not published (R106). -/
theorem exec_neighbourReadArrival {s : State} {r n : Nat} {x : NbrRead} (hx : tabGet s.nbrs r = some x)
    (ht : x.target = some n) (ha : x.arrived = false) :
    exec (.neighbourReadArrival r) s = .next (updMember { s with nbrs := tabPut s.nbrs r { x with arrived := true } } n fun d =>
      if d.place == .parked && !published d x.gen then { d with demanded := true } else d) := by
  simp [exec, execNeighbourReadArrival, hx, ha, ht]

/-- A read that meets poison gives nothing (R308). -/
theorem idle_neighbourReadResume_poisoned {s : State} {r : Nat} {x : NbrRead} (hx : tabGet s.nbrs r = some x)
    (hp : facePoisoned s x = true) (v : Word) : Idle (.neighbourReadResume r v) s := by
  simp only [Idle, exec, execNeighbourReadResume, hx]
  cases memberAt s x.reader <;> simp [hp]

/-- The value that a served read of a cell here brings, and the escape of the face that it takes (R20, R305). -/
theorem readValue_here {s : State} {m c : Member} {x : NbrRead} {n : Nat} (ht : x.target = some n) (hc : memberAt s n = some c)
    (v : Word) : ∃ u, readValue s m x v = (pubAt c (readGen c x.gen) x.face, u) ∧ u = { s with ctxs := u.ctxs } := by
  unfold readValue
  simp only [ht, hc]
  refine ⟨_, rfl, ?_⟩
  split <;> rfl

/-- A read that is served comes back, and its reader goes on at the slot that it left (R20, R117, R350). -/
theorem exec_neighbourReadResume {s : State} {r n : Nat} {x : NbrRead} {m c : Member} (hx : tabGet s.nbrs r = some x)
    (ht : x.target = some n) (hc : memberAt s n = some c) (hm : memberAt s x.reader = some m) (ha : x.arrived = true)
    (hp : published c x.gen = true) (hb : facePoisoned s x = false) (hw : m.wait = .nbr x.dir x.face) (hs : seated m = true)
    (v : Word) : ∃ t, exec (.neighbourReadResume r v) s = .next t ∧ t.mem = s.mem ∧
      memberAt t x.reader = some { m with
        wait := .ready, readySince := (coreAt s m.core).cyc,
        nbrVals := m.nbrVals ++ [(x.dir, x.face, pubAt c (readGen c x.gen) x.face)] } := by
  obtain ⟨u, hv, hu⟩ := readValue_here (m := m) ht hc (x.value.getD v)
  have hserved : readServed s x = true := by simp [readServed, ht, hc, hp]
  have hread : memberAt { u with nbrs := tabDrop u.nbrs r } x.reader = some m := by rw [hu]; exact hm
  have hmu : memberAt (updMember { u with nbrs := tabDrop u.nbrs r } x.reader fun n =>
      { n with nbrVals := n.nbrVals ++ [(x.dir, x.face, pubAt c (readGen c x.gen) x.face)] }) x.reader =
      some { m with nbrVals := m.nbrVals ++ [(x.dir, x.face, pubAt c (readGen c x.gen) x.face)] } := by
    rw [memberAt_updMember_same, hread]
    rfl
  refine ⟨wake (updMember { u with nbrs := tabDrop u.nbrs r } x.reader fun n =>
      { n with nbrVals := n.nbrVals ++ [(x.dir, x.face, pubAt c (readGen c x.gen) x.face)] }) x.reader, ?_, ?_, ?_⟩
  · simp only [exec, execNeighbourReadResume, hx, hm]
    simp [ha, ht, hserved, hb, hw, hs, hv]
  · rw [(membersOnly_wake ..).mem, updMember_mem]
    rw [hu]
  · rw [memberAt_wake hmu]
    rw [hu]
    rfl

/-- Settles O13: a neighbour operand by `nbrNow`'s cases, and the two ends of a neighbour read. -/
theorem neighbours : Obligations.Neighbours := by
  refine ⟨fun s m l d f hl hv => ⟨fun hn => readSrc_value (nbrNow_edge hl hv hn) _, fun hn => ?_,
    fun n id c hn hne hc hh hcore => ?_⟩, fun s r x m c v hx n ht hne hc hm => ⟨fun ha => ?_,
    fun hp => idle_neighbourReadResume_poisoned hx hp v, fun ha hp hb hw hs => ?_⟩⟩
  · have hnow := nbrNow_self (f := f) hl hv hn
    cases hb : faceBad s m f with
    | true => exact readSrc_waits (by simpa [hb] using hnow) _
    | false => exact readSrc_value (by simpa [hb] using hnow) _
  · have hnow := nbrNow_here (f := f) hl hv hn hne hc hh hcore
    refine ⟨fun hb hd hg => readSrc_value ?_ _, fun hb hd => readSrc_value ?_ _, fun hw => readSrc_waits ?_ _⟩
    · simpa [hb, (published_iff c m.done).mpr (.inr hg), readGen, hd] using hnow
    · simpa [hb, (published_iff c m.done).mpr (.inl hd), readGen, hd] using hnow
    · rcases hw with hb | hu
      · simpa [hb] using hnow
      · simpa [(not_published_iff c m.done).mpr hu] using hnow
  · refine ⟨_, exec_neighbourReadArrival hx ht ha, SameMemory.refl s, tabGet_tabPut_same .., ?_⟩
    have hm' : memberAt { s with nbrs := tabPut s.nbrs r { x with arrived := true } } n = some c := hc
    rw [memberAt_updMember_same, hm']
    simp [not_published_iff]
  · obtain ⟨t, he, hmem, hr⟩ := exec_neighbourReadResume hx ht hc hm ha ((published_iff ..).mpr hp) hb hw hs v
    exact ⟨t, he, fun a => by rw [hmem], hr⟩

end Sys2Proof.Proofs
end

section
/-!
PROOF. Tables: an entry that is put in another's place, and a table whose keys rise.
-/
set_option linter.constructorNameAsVariable false
namespace Sys2Proof.Proofs
open Sys2Proof.Machine Sys2Proof.Safety

/-- The entry that has taken the place of those that `p` finds is found. -/
theorem find?_replaced {α : Type} {p : α → Bool} (l : List α) {x : α} (hx : p x = true) :
    ((l.filter fun e => !p e) ++ [x]).find? p = some x := by
  have hn : (l.filter fun e => !p e).find? p = none := by simp [List.find?_eq_none]
  simp [List.find?_append, hn, hx]

/-- What another search finds stays. -/
theorem find?_replaced_other {α : Type} {p q : α → Bool} (l : List α) {x : α} (hq : ∀ e, q e = true → p e = false) (hx : q x = false) :
    ((l.filter fun e => !p e) ++ [x]).find? q = l.find? q := by
  have hf : (l.filter fun e => !p e).find? q = l.find? q := by
    rw [List.find?_filter]
    refine congrArg (List.find? · l) (funext fun e => ?_)
    cases he : q e with
    | true => simp [hq e he]
    | false => simp
  cases h : l.find? q <;> simp [List.find?_append, hf, h, hx]

/-- In a table whose keys rise every entry is the one under its key. -/
theorem tabGet_of_mem {α : Type} {t : Tab α} (hk : Keyed t) {k : Nat} {v : α} (h : (k, v) ∈ t) : tabGet t k = some v := by
  induction t with
  | nil => cases h
  | cons e r ih =>
    obtain ⟨j, w⟩ := e
    simp only [Keyed, List.map_cons, List.pairwise_cons] at hk
    rcases List.mem_cons.mp h with he | hr
    · cases he
      simp [tabGet]
    · have hj : j < k := hk.1 k (List.mem_map.mpr ⟨_, hr, rfl⟩)
      simp [tabGet, Nat.ne_of_lt hj, ih hk.2 hr]

/-- A list of pairs in which the entry of one key has been replaced. -/
theorem lookup_replaced {α : Type} (l : List (Nat × α)) (k n : Nat) (v : α) :
    (((l.filter fun e => e.1 != k) ++ [(k, v)]).find? fun e => e.1 == n).map (·.2) =
      if n = k then some v else (l.find? fun e => e.1 == n).map (·.2) := by
  split
  · next h =>
    subst h
    exact congrArg (Option.map (·.2)) (find?_replaced (p := fun e => e.1 == n) l (x := (n, v)) (by simp))
  · next h =>
    have hk : ∀ e : Nat × α, (e.1 == n) = true → (e.1 == k) = false := fun e he =>
      beq_false_of_ne (beq_iff_eq.mp he ▸ h)
    have hn : (k == n) = false := beq_false_of_ne (Ne.symm h)
    exact congrArg (Option.map (·.2)) (find?_replaced_other (p := fun e => e.1 == k) l (x := (k, v)) hk hn)

/-- What a report of steps makes known (R319). -/
theorem remoteDone_replaced (l : Launch) (idx k n : Nat) :
    remoteDone { l with remoteSteps := (l.remoteSteps.filter fun e => e.1 != idx) ++ [(idx, k)] } n =
      if n = idx then k else remoteDone l n := by
  simp only [remoteDone, lookup_replaced]
  split <;> rfl

/-- What a report of pod arrivals makes known (R260, R319). -/
theorem podReached_setPodReached (l : Launch) (module k n : Nat) :
    podReached (setPodReached l module k) n = if n = module then max k (podReached l module) else podReached l n := by
  simp only [podReached, setPodReached, lookup_replaced]
  split <;> rfl

end Sys2Proof.Proofs
end
section
/-!
PROOF. The completion of a barrier (R260): members go on, and of all launches' barriers and pod reports its own entry alone changes.
-/
set_option linter.constructorNameAsVariable false
namespace Sys2Proof.Proofs
open Sys2Proof.Machine Sys2Proof.Safety

/-- Memory stays, and so do the barriers that every launch has completed and what modules have reported to it. -/
structure BarriersKept (s t : State) : Prop where
  mem : t.mem = s.mem
  launch : ∀ n l, launchAt s n = some l → ∃ v, launchAt t n = some v ∧ v.remoteArrivals = l.remoteArrivals ∧ v.barriers = l.barriers

theorem BarriersKept.ofLaunches {s t : State} (hm : t.mem = s.mem) (hl : t.launches = s.launches) : BarriersKept s t :=
  ⟨hm, fun n l h => ⟨l, by unfold launchAt at *; rw [hl, h], rfl, rfl⟩⟩

theorem BarriersKept.refl (s : State) : BarriersKept s s := .ofLaunches rfl rfl

theorem BarriersKept.trans {s t u : State} (h : BarriersKept s t) (g : BarriersKept t u) : BarriersKept s u := by
  refine ⟨g.mem.trans h.mem, fun n l hl => ?_⟩
  obtain ⟨v, hv, ha, hb⟩ := h.launch n l hl
  obtain ⟨w, hw, hc, hd⟩ := g.launch n v hv
  exact ⟨w, hw, hc.trans ha, hd.trans hb⟩

theorem BarriersKept.foldl {α : Type} {f : State → α → State} (h : ∀ s a, BarriersKept s (f s a)) (l : List α) (s : State) :
    BarriersKept s (l.foldl f s) := by
  induction l generalizing s with
  | nil => exact .refl s
  | cons a r ih => exact (h s a).trans (ih _)

theorem MembersOnly.barriersKept {s t : State} (h : MembersOnly s t) : BarriersKept s t := .ofLaunches h.mem h.launches

theorem barriersKept_updMember (s : State) (id : Nat) (f : Member → Member) : BarriersKept s (updMember s id f) :=
  (membersOnly_updMember s id f).barriersKept

theorem barriersKept_endTrapTime (s : State) (m : Member) : BarriersKept s (endTrapTime s m) := by
  unfold endTrapTime
  split
  · exact .refl s
  · exact .ofLaunches rfl rfl

theorem barriersKept_stopWithRecord (s : State) (id : Nat) (m : Member) (fi : FaultInfo) (cause detail : Nat) :
    BarriersKept s (stopWithRecord s id m fi cause detail) :=
  .ofLaunches (by simp [stopWithRecord, stopMember]) (by simp [stopWithRecord, stopMember])

theorem barriersKept_settleOrWake (s : State) (id : Nat) (c : Bool) :
    BarriersKept s (if c then settle s id else wake s id) := by
  cases c with
  | true => exact (membersOnly_settle s id).barriersKept
  | false => exact (membersOnly_wake s id).barriersKept

theorem barriersKept_returnFromTrap (s : State) (id : Nat) : BarriersKept s (returnFromTrap s id) := by
  unfold returnFromTrap
  split
  · exact .refl s
  · simp only
    split
    · exact (barriersKept_updMember ..).trans (barriersKept_stopWithRecord ..)
    · exact ((barriersKept_updMember ..).trans (barriersKept_settleOrWake ..)).trans (barriersKept_endTrapTime ..)

theorem barriersKept_tokDec (s : State) (id code : Nat) : BarriersKept s (tokDec s id code) := by
  unfold tokDec
  refine (barriersKept_updMember s id fun m => m.setTok code (tokCount m code - 1)).trans ?_
  simp only
  split
  · split
    · unfold endEret
      simp only
      split
      · exact barriersKept_returnFromTrap ..
      · exact .refl _
    · split
      · exact (membersOnly_wake ..).barriersKept
      · exact .refl _
  · exact .refl _

theorem barriersKept_retireAs (s : State) (id cat w : Nat) : BarriersKept s (retireAs s id cat w) :=
  .ofLaunches (mem_retireAs ..) (launches_retireAs ..)

theorem barriersKept_clearFence (s : State) (id : Nat) (f : FenceRec) : BarriersKept s (clearFence s id f) := by
  have h1 : BarriersKept s (match f.tok with | some t => tokDec (retireAs s id 7 1) id t | none => s) := by
    cases f.tok with
    | none => exact .refl s
    | some t => exact (barriersKept_retireAs ..).trans (barriersKept_tokDec ..)
  unfold clearFence
  cases f.acq with
  | false => exact h1
  | true => exact h1.trans (barriersKept_updMember ..)

/-- A TRIG counts in its launch beside the barriers (R90). -/
theorem barriersKept_countTrig (s : State) (id : Nat) : BarriersKept s (countTrig s id) := by
  unfold countTrig
  split
  · exact .refl s
  · split
    · exact .refl s
    · next m _ _ =>
      have h1 : BarriersKept s (updLaunch s m.launch fun l => { l with trigCount := l.trigCount + 1 }) := by
        refine ⟨rfl, fun n l hl => ?_⟩
        by_cases hn : n = m.launch
        · subst hn
          exact ⟨{ l with trigCount := l.trigCount + 1 }, by rw [launchAt_updLaunch_same, hl]; rfl, rfl, rfl⟩
        · exact ⟨l, by rw [launchAt_updLaunch_other _ _ hn, hl], rfl, rfl⟩
      exact h1.trans (barriersKept_updMember ..)

theorem barriersKept_settleFences (s : State) (id : Nat) : BarriersKept s (settleFences s id) := by
  unfold settleFences
  split
  · exact .refl s
  · refine BarriersKept.trans (barriersKept_updMember ..) (BarriersKept.foldl (fun t f => ?_) _ _)
    split
    · unfold endFence
      cases f.trig with
      | false => exact barriersKept_clearFence ..
      | true => exact (barriersKept_clearFence ..).trans (barriersKept_countTrig ..)
    · exact barriersKept_clearFence ..

theorem barriersKept_acquireFence (s : State) (id : Nat) (scope : MScope) : BarriersKept s (acquireFence s id scope) := by
  unfold acquireFence fence
  split
  · exact .refl s
  · exact (barriersKept_updMember ..).trans (barriersKept_settleFences ..)

theorem barriersKept_passBarrier (s : State) (id : Nat) : BarriersKept s (passBarrier s id) := by
  unfold passBarrier
  split
  · exact .refl s
  · split
    · split
      · exact ((barriersKept_retireAs ..).trans (barriersKept_acquireFence ..)).trans (membersOnly_passSlot ..).barriersKept
      · exact .refl s
    · exact .refl s

/-- What completes becomes the highest that its unit has completed, and what modules have reported stays (R260). -/
theorem completeInstance_spec {s : State} {id : Nat} {l : Launch} (h : launchAt s id = some l) (sc : Scope) (unit k : Nat) :
    (completeInstance s id sc unit k).mem = s.mem ∧ ∃ v, launchAt (completeInstance s id sc unit k) id = some v ∧
      barDone v sc unit = k ∧ ∀ n, podReached v n = podReached l n := by
  unfold completeInstance
  generalize hs1 : updLaunch s id (fun l =>
    { l with barriers := (l.barriers.filter fun b => !(b.1 == sc && b.2.1 == unit)) ++ [(sc, unit, k)] }) = s1
  have h1 : launchAt s1 id = some
      { l with barriers := (l.barriers.filter fun b => !(b.1 == sc && b.2.1 == unit)) ++ [(sc, unit, k)] } := by
    rw [← hs1, launchAt_updLaunch_same, h]
    rfl
  have hk := BarriersKept.foldl (f := fun t (e : Nat × Member) => passBarrier t e.1) (fun t e => barriersKept_passBarrier t e.1)
    (s1.members.filter fun e => e.2.launch == id) s1
  obtain ⟨v, hv, ha, hb⟩ := hk.launch id _ h1
  refine ⟨hk.mem.trans (by rw [← hs1]; rfl), v, hv, ?_, fun n => by unfold podReached; rw [ha]⟩
  unfold barDone
  rw [hb, find?_replaced (p := fun b : Scope × Nat × Nat => b.1 == sc && b.2.1 == unit) l.barriers (x := (sc, unit, k)) (by simp)]
  rfl

end Sys2Proof.Proofs
end

section
/-!
PROOF. Grids across modules (R23, R311, R319): what the reads, STEP waits and reports of other modules find and leave.
-/
set_option linter.constructorNameAsVariable false
namespace Sys2Proof.Proofs
open Sys2Proof.Machine Sys2Proof.Safety

/-- What a search for a cell of a launch finds (R23). -/
theorem cellAt_spec {s : State} {launch lin k : Nat} {d : Member} (h : cellAt s launch lin = some (k, d)) :
    (k, d) ∈ s.members ∧ d.launch = launch ∧ d.linear = lin := by
  refine ⟨List.mem_of_find?_eq_some h, ?_⟩
  have hp := List.find?_some h
  simp only [Bool.and_eq_true, beq_iff_eq] at hp
  exact ⟨hp.1.2, hp.2⟩

/-- What a search for the launch of a span finds (R319). -/
theorem spanLaunch_spec {s : State} {span id : Nat} {l : Launch} (hk : Keyed s.launches) (h : spanLaunch s span = some (id, l)) :
    launchAt s id = some l ∧ l.spanId = span ∧ span ≠ 0 := by
  refine ⟨tabGet_of_mem hk (List.mem_of_find?_eq_some h), ?_⟩
  have hp := List.find?_some h
  simp only [Bool.and_eq_true, beq_iff_eq, bne_iff_ne] at hp
  exact hp.1

theorem pastCell_linear {s : State} {span lin : Nat} {d : Member} (h : pastCell s span lin = some d) : d.linear = lin := by
  obtain ⟨e, he, rfl⟩ := Option.map_eq_some_iff.mp h
  have hp := List.find?_some he
  simp only [Bool.and_eq_true, beq_iff_eq] at hp
  exact hp.2

/-- A read or a STEP wait of another module, as it waits here (R319). -/
abbrev spanAsk (module channel span idx : Nat) (face : BitVec 3) (gen : Nat) (isStep : Bool) : SpanWait :=
  { module := module, channel := channel, span := span, linear := idx, face := face, gen := gen, isStep := isStep }

/-- Whether a cell answers a read that waits on a span: the read names the cell, whose face is published (R20, R319). -/
def answersRead (span : Nat) (m : Member) (w : SpanWait) : Bool :=
  !w.isStep && w.span == span && span != 0 && w.linear == m.linear && (m.departed || w.gen ≤ m.done)

/-- The answer to such a read (R20). -/
def faceAnswer (m : Member) (w : SpanWait) : Answer :=
  .spanRead w.module w.channel w.span w.linear (pubAt m (if m.departed then min w.gen m.done else w.gen) w.face)

theorem answersRead_iff (span : Nat) (m : Member) (w : SpanWait) : answersRead span m w = true ↔
    w.isStep = false ∧ w.span = span ∧ span ≠ 0 ∧ w.linear = m.linear ∧ (m.departed = true ∨ w.gen ≤ m.done) := by
  simp [answersRead, and_assoc]

theorem mod_foldl_escape (m : Member) (f : SpanWait → Nat) (l : List SpanWait) (s : State) :
    (l.foldl (fun t w => escapeFace t m (f w)) s).mod = s.mod := by
  induction l generalizing s with
  | nil => rfl
  | cons x r ih => rw [List.foldl_cons, ih]; rfl

/-- The reads that a cell answers wait no more (R319). -/
theorem mod_answerSpan (s : State) (span : Nat) (m : Member) : (answerSpan s span m).mod = { s.mod with
    answers := s.mod.answers ++ (s.mod.spanWaits.filter (answersRead span m)).map (faceAnswer m)
    spanWaits := s.mod.spanWaits.filter fun w => !answersRead span m w } := by
  unfold answerSpan
  simp only [updMod, mod_foldl_escape]
  rfl

/-- A read that no wait of the same span stands before is answered alone. -/
theorem filter_answersRead_append {span : Nat} {m : Member} {l : List SpanWait} {w : SpanWait} (hl : ∀ x ∈ l, x.span ≠ span)
    (hw : answersRead span m w = true) : (l ++ [w]).filter (answersRead span m) = [w] := by
  have hn : l.filter (answersRead span m) = [] := by
    simp only [List.filter_eq_nil_iff, answersRead_iff]
    exact fun x hx h => hl x hx h.2.1
  simp [List.filter_append, hn, hw]

/-- A request for a span that has not come here waits. -/
theorem servePast_unknown {s : State} {w : SpanWait} (h : pastCell s w.span w.linear = none) : servePast s w = s := by
  simp [servePast, h]

/-- A read of a cell of a part that has completed here is answered at once (R23). -/
theorem servePast_read {s : State} {w : SpanWait} {d : Member} (h : pastCell s w.span w.linear = some d) (hw : w.isStep = false) :
    servePast s w = answerSpan s w.span d := by
  simp [servePast, h, hw]

/-- A STEP wait on a cell of a part that has completed here ends at once (R19, R23; log 22). -/
theorem servePast_step {s : State} {w : SpanWait} {d : Member} (h : pastCell s w.span w.linear = some d) (hw : w.isStep = true) :
    servePast s w = addAnswer (updMod s fun m => { m with spanWaits := m.spanWaits.filter (· != w) })
      (.spanStep w.module w.span w.linear departedSteps) := by
  simp [servePast, h, hw]

/-- The steps that a cell counts as having completed (R19, R23; log 22). -/
def stepsTold (d : Member) : Nat := if d.departed then departedSteps else d.done

/-- The launch of a cell notes who waits for its steps (R319). -/
def noteWatcher (s : State) (id : Nat) (w : SpanWait) : State :=
  updLaunch s id fun l =>
    { l with stepWatchers :=
        if l.stepWatchers.contains (w.module, w.linear) then l.stepWatchers else l.stepWatchers ++ [(w.module, w.linear)] }

/-- A module that waits for steps of a cell here is noted, and told of those that the cell has completed (R319). -/
theorem watchSteps_cell {s : State} {id k : Nat} {w : SpanWait} {d : Member} (h : cellAt s id w.linear = some (k, d)) :
    watchSteps s id w = if stepsTold d = 0 then noteWatcher s id w
      else addAnswer (noteWatcher s id w) (.spanStep w.module w.span w.linear (stepsTold d)) := by
  unfold watchSteps
  rw [h]
  show (if stepsTold d == 0 then noteWatcher s id w
    else addAnswer (noteWatcher s id w) (.spanStep w.module w.span w.linear (stepsTold d))) = _
  by_cases h0 : stepsTold d = 0 <;> simp [h0]

theorem launchAt_noteWatcher {s : State} {id : Nat} {l : Launch} (h : launchAt s id = some l) (w : SpanWait) :
    ∃ v, launchAt (noteWatcher s id w) id = some v ∧ (w.module, w.linear) ∈ v.stepWatchers := by
  refine ⟨_, by rw [noteWatcher, launchAt_updLaunch_same, h, Option.map_some], ?_⟩
  simp only
  split
  · next hc => exact List.contains_iff_mem.mp hc
  · exact List.mem_append_right _ (List.mem_singleton.mpr rfl)

theorem watchSteps_spec {s : State} {id k : Nat} {l : Launch} {w : SpanWait} {d : Member} (hl : launchAt s id = some l)
    (h : cellAt s id w.linear = some (k, d)) :
    (watchSteps s id w).mem = s.mem ∧ (∃ v, launchAt (watchSteps s id w) id = some v ∧ (w.module, w.linear) ∈ v.stepWatchers) ∧
    (stepsTold d = 0 → (watchSteps s id w).mod = s.mod) ∧
    (stepsTold d ≠ 0 → AnswersWith s (watchSteps s id w) (.spanStep w.module w.span w.linear (stepsTold d))) := by
  have hn := launchAt_noteWatcher hl w
  rw [watchSteps_cell h]
  by_cases h0 : stepsTold d = 0
  · simp only [h0, if_true]
    exact ⟨rfl, hn, fun _ => rfl, fun hne => absurd rfl hne⟩
  · simp only [h0, if_false]
    exact ⟨rfl, hn, fun h => absurd h (by simp), fun _ => rfl⟩

/-- A fenced module is not heard (R311). -/
theorem idle_spanNeighbourRead_fenced {s : State} {module : Nat} (h : isFenced s module = true) (span channel idx gen : Nat)
    (face : BitVec 3) (isStep : Bool) : Idle (.spanNeighbourRead span ⟨module, channel⟩ idx face gen isStep) s := by
  simp [Idle, exec, execSpanNeighbourRead, h]

/-- The requests of other modules, as a span's launch is listed here or not (R319). -/
theorem exec_spanNeighbourRead_unplaced {s : State} {span module channel idx gen : Nat} {face : BitVec 3} {isStep : Bool}
    (hf : isFenced s module = false) (hl : spanLaunch s span = none) :
    let w := spanAsk module channel span idx face gen isStep
    exec (.spanNeighbourRead span ⟨module, channel⟩ idx face gen isStep) s =
      .next (servePast (updMod s fun m => { m with spanWaits := m.spanWaits ++ [w] }) w) := by
  simp [exec, execSpanNeighbourRead, hf, hl]

theorem exec_spanNeighbourRead_step {s : State} {span module channel idx gen id : Nat} {face : BitVec 3} {l : Launch}
    (hf : isFenced s module = false) (hl : spanLaunch s span = some (id, l)) :
    exec (.spanNeighbourRead span ⟨module, channel⟩ idx face gen true) s =
      .next (watchSteps s id (spanAsk module channel span idx face gen true)) := by
  simp [exec, execSpanNeighbourRead, hf, hl]

/-- A read of a cell here joins the waits, demands a parked cell that has not published, and is answered as far as the cell allows. -/
theorem exec_spanNeighbourRead_read {s : State} {span module channel idx gen id k : Nat} {face : BitVec 3} {l : Launch} {d : Member}
    (hk : Keyed s.launches) (hf : isFenced s module = false) (hl : spanLaunch s span = some (id, l)) (hc : cellAt s id idx = some (k, d)) :
    exec (.spanNeighbourRead span ⟨module, channel⟩ idx face gen false) s = .next (answerSpan
      (updMember (updMod s fun m => { m with spanWaits := m.spanWaits ++ [spanAsk module channel span idx face gen false] }) k
        fun v => if v.place == .parked && !published v gen then { v with demanded := true } else v) span d) := by
  obtain ⟨hla, hsp, -⟩ := spanLaunch_spec hk hl
  obtain ⟨-, hdl, -⟩ := cellAt_spec hc
  simp [exec, execSpanNeighbourRead, hf, hl, hc, serveSpanReads, hdl, hla, hsp]

theorem exec_spanStepReport {s : State} {span idx step id : Nat} {l : Launch} (hl : spanLaunch s span = some (id, l)) :
    exec (.spanStepReport span idx step) s = .next (if farFenced s l idx then s else updLaunch s id fun l =>
      { l with remoteSteps := (l.remoteSteps.filter fun e => e.1 != idx) ++ [(idx, max step (remoteDone l idx))] }) := by
  simp only [exec, execSpanStepReport, hl]
  split <;> rfl

end Sys2Proof.Proofs
end

section
/-!
PROOF. Client ports (R320): what an entry admits, and the bytes of a run that memory serves in order.
-/
set_option linter.constructorNameAsVariable false
namespace Sys2Proof.Proofs
open Sys2Proof.Machine Sys2Proof.Safety

/-- A valid range that covers a run names its first and its last byte's page (R315). -/
theorem coversRun_iff {r : Range} {pa n : Nat} (hn : n ≠ 0) : CoversRun r pa n ↔ r.v = true ∧ r.covers pa n = true := by
  have hlast : pa + n - 1 = pa + (n - 1) := by omega
  simp [CoversRun, Range.covers, hlast, and_assoc]

/-- What a client's request needs (R320): an entry for its job, source and port, and one of its ranges; a write of a doorbell needs
the entry's bit for it too. -/
theorem clientAdmits_iff (s : State) (job src port pa n : Nat) (write : Bool) :
    clientAdmits s job src port pa n write = true ↔ n ≠ 0 ∧ ∃ c ∈ s.mod.clients,
      c.2.v = true ∧ c.2.job.toNat = job ∧ c.2.src.toNat = src ∧ port < 8 ∧ c.2.ports.getLsbD port = true ∧
      (write = true → c.2.db = true ∨ ∀ q, regionOf pa ≠ .doorbell q) ∧
      ∃ i, i < 16 ∧ CoversRun (rangeAt s.mod.clientRanges (16 * c.1 + i)) pa n ∧
        (if write then (rangeAt s.mod.clientRanges (16 * c.1 + i)).w else (rangeAt s.mod.clientRanges (16 * c.1 + i)).rd) = true := by
  unfold clientAdmits
  simp only [Bool.and_eq_true, bne_iff_ne, List.any_eq_true, beq_iff_eq, decide_eq_true_eq, List.mem_range]
  refine and_congr_right fun hn => exists_congr fun c => and_congr_right fun _ => ?_
  simp only [and_assoc, coversRun_iff hn]
  refine and_congr_right fun _ => and_congr_right fun _ => and_congr_right fun _ => and_congr_right fun _ => and_congr_right fun _ =>
    and_congr ?_ (exists_congr fun i => and_congr_right fun _ => and_congr_right fun _ => and_comm)
  cases write <;> cases c.2.db <;> cases regionOf pa <;> simp

/-- A read is admitted by an entry whose range grants RD (R320). -/
theorem clientAdmits_read (s : State) (job src port pa n : Nat) :
    clientAdmits s job src port pa n false = true ↔ n ≠ 0 ∧ ClientAdmitted s job src port pa n (·.rd) := by
  simp [clientAdmits_iff, ClientAdmitted]

/-- A write that is admitted is so by an entry whose range grants W (R320). -/
theorem clientAdmitted_of_admits {s : State} {job src port pa n : Nat} (h : clientAdmits s job src port pa n true = true) :
    n ≠ 0 ∧ ClientAdmitted s job src port pa n (·.w) := by
  obtain ⟨hn, c, hc, hv, hj, hs, hp, hb, -, hi⟩ := (clientAdmits_iff ..).mp h
  exact ⟨hn, c, hc, hv, hj, hs, hp, hb, hi⟩

/-- Off the doorbell pages every such write is admitted. -/
theorem clientAdmits_write {s : State} {job src port pa n : Nat} (hn : n ≠ 0) (h : ClientAdmitted s job src port pa n (·.w))
    (hd : ∀ q, regionOf pa ≠ .doorbell q) : clientAdmits s job src port pa n true = true := by
  obtain ⟨c, hc, hv, hj, hs, hp, hb, hi⟩ := h
  exact (clientAdmits_iff ..).mpr ⟨hn, c, hc, hv, hj, hs, hp, hb, fun _ => .inr hd, hi⟩

theorem memReadN_append (m : Memory) (a j k : Nat) : memReadN m a (j + k) = memReadN m a j ++ memReadN m (a + j) k := by
  induction j generalizing a with
  | zero => simp [memReadN]
  | succ j ih =>
    rw [Nat.add_right_comm, memReadN, ih, memReadN, List.cons_append, Nat.add_right_comm a 1 j]
    rfl

/-- A run of bytes that read as a list does. -/
theorem memReadN_eq {m : Memory} {a : Nat} {l : List Byte} (h : ∀ i, i < l.length → memRead m (a + i) = l.getD i 0) :
    memReadN m a l.length = l := by
  induction l generalizing a with
  | nil => rfl
  | cons b r ih =>
    have h0 : memRead m a = b := h 0 (Nat.zero_lt_succ _)
    have hr : memReadN m (a + 1) r.length = r := ih fun i hi => by
      have := h (i + 1) (Nat.succ_lt_succ hi)
      rwa [← Nat.add_assoc, Nat.add_right_comm] at this
    rw [List.length_cons, memReadN, h0, hr]

/-- The first `j` pieces of a run, where memory serves it in order, are read as one (R313). -/
theorem memReadN_pieces {s : State} {pa n : Nat} (hn : 0 < n) (h : ∀ i, i < n → physOf s (pa + i) = physOf s pa + i) (j : Nat)
    (hj : j ≤ (pa + n - 1) / pieceSize + 1 - pa / pieceSize) :
    ((List.range j).map fun i =>
      let lo := max pa ((pa / pieceSize + i) * pieceSize)
      let hi := min (pa + n) ((pa / pieceSize + i + 1) * pieceSize)
      (physOf s lo, lo - pa, hi - lo)).flatMap (fun r : Nat × Nat × Nat => memReadN s.mem r.1 r.2.2) =
    memReadN s.mem (physOf s pa) (min n ((pa / pieceSize + j) * pieceSize - pa)) := by
  induction j with
  | zero =>
    have h0 : (pa / pieceSize + 0) * pieceSize - pa = 0 := by simp only [pieceSize]; omega
    simp only [List.range_zero, List.map_nil, List.flatMap_nil, h0, Nat.min_zero, memReadN]
  | succ j ih =>
    rw [List.range_succ, List.map_append, List.flatMap_append, ih (by omega)]
    generalize hlo : max pa ((pa / pieceSize + j) * pieceSize) = lo
    generalize hhi : min (pa + n) ((pa / pieceSize + j + 1) * pieceSize) = hi
    have hstart : lo = pa + min n ((pa / pieceSize + j) * pieceSize - pa) := by simp only [pieceSize] at *; omega
    have hend : min n ((pa / pieceSize + (j + 1)) * pieceSize - pa) =
        min n ((pa / pieceSize + j) * pieceSize - pa) + (hi - lo) := by simp only [pieceSize] at *; omega
    have hlt : min n ((pa / pieceSize + j) * pieceSize - pa) < n := by simp only [pieceSize] at *; omega
    rw [hend, memReadN_append, ← h _ hlt, ← hstart]
    simp [hlo, hhi]

/-- Where memory serves a run in order it is read in order (R167, R313). -/
theorem readBytes_eq {s : State} {pa n : Nat} (h : ∀ i, i < n → physOf s (pa + i) = physOf s pa + i) :
    readBytes s pa n = memReadN s.mem (physOf s pa) n := by
  unfold readBytes
  split
  · rfl
  · next h1 =>
    have hn : 0 < n := by
      refine Nat.pos_of_ne_zero fun h0 => h1 ?_
      have hlt : pa % pieceSize < pieceSize := Nat.mod_lt _ (by decide)
      simp [oneRun, h0, hlt.le]
    rw [runsOf, if_neg h1, memReadN_pieces hn h _ (Nat.le_refl _)]
    congr 1
    simp only [pieceSize]
    omega

/-- A read off the doorbell pages, of a run that memory serves in order. -/
theorem homeRead_eq {s : State} {pa n : Nat} (hd : ∀ q, regionOf pa ≠ .doorbell q)
    (h : ∀ i, i < n → physOf s (pa + i) = physOf s pa + i) : homeRead s pa n = memReadN s.mem (physOf s pa) n := by
  rw [← readBytes_eq h]
  unfold homeRead
  split
  · next q hq => exact absurd hq (hd q)
  · rfl

/-- A write off the doorbell pages is a store at its home. -/
theorem homeWrite_eq {pa : Nat} (hd : ∀ q, regionOf pa ≠ .doorbell q) (s : State) (who : Option (Nat × Nat)) (l : List Byte) :
    homeWrite s who pa l = storeAt s who pa l := by
  unfold homeWrite
  split
  · next q hq => exact absurd hq (hd q)
  · rfl

/-- What a store leaves of the module's answers. -/
theorem answers_storeAt (s : State) (who : Option (Nat × Nat)) (pa : Nat) (l : List Byte) :
    (storeAt s who pa l).mod.answers = s.mod.answers := by
  obtain ⟨u, hu, he⟩ := storeAt_eq s who pa l
  rw [he, writeBytes_mod, hu.mod]

/-- A request that is not performed is refused and counted (R320). -/
theorem exec_clientRmaRead_refused {s : State} {job src port pa n : Nat}
    (h : ¬ (n ≠ 0 ∧ ClientAdmitted s job src port pa n (·.rd))) :
    exec (.clientRmaRead job src port pa n) s = .next (refuseClient s port) := by
  have ha : clientAdmits s job src port pa n false = false := by
    rw [← Bool.not_eq_true, clientAdmits_read]
    exact h
  simp [exec, execClientRmaRead, ha]

theorem exec_clientRmaWrite_refused {s : State} {job src port pa : Nat} {b : List Byte}
    (h : ¬ (b ≠ [] ∧ ClientAdmitted s job src port pa b.length (·.w))) :
    exec (.clientRmaWrite job src port pa b) s = .next (refuseClient s port) := by
  have ha : clientAdmits s job src port pa b.length true = false := by
    rw [← Bool.not_eq_true]
    exact fun hb => h ((clientAdmitted_of_admits hb).imp_left (mt List.length_eq_zero_iff.mpr))
  simp [exec, execClientRmaWrite, ha]

theorem exec_clientRmaRead_admitted {s : State} {job src port pa n : Nat} (hn : n ≠ 0)
    (h : ClientAdmitted s job src port pa n (·.rd)) (hh : hasHome s pa n = true) :
    exec (.clientRmaRead job src port pa n) s =
      .next (addAnswer (touchLines s none pa n) (.clientData port (homeRead s pa n))) := by
  simp [exec, execClientRmaRead, (clientAdmits_read ..).mpr ⟨hn, h⟩, hh]

theorem exec_clientRmaWrite_admitted {s : State} {job src port pa : Nat} {b : List Byte} (hb : b ≠ [])
    (h : ClientAdmitted s job src port pa b.length (·.w)) (hh : hasHome s pa b.length = true) (hd : ∀ q, regionOf pa ≠ .doorbell q) :
    exec (.clientRmaWrite job src port pa b) s = .next (addAnswer (storeAt s none pa b) (.clientAck port)) := by
  simp [exec, execClientRmaWrite, clientAdmits_write (mt List.length_eq_zero_iff.mp hb) h hd, hh, homeWrite_eq hd]

/-- A run that memory serves in order is not on a doorbell page, unless it is empty. -/
theorem inMemory_region {s : State} {pa n : Nat} (h : InMemory s pa n) (hn : n ≠ 0) : ∀ q, regionOf pa ≠ .doorbell q :=
  (h 0 (Nat.pos_of_ne_zero hn)).2

/-- An admitted read is performed, and its client gets the bytes (R320). -/
theorem clientRmaRead_performed {s : State} {job src port pa n : Nat} (hn : n ≠ 0) (h : ClientAdmitted s job src port pa n (·.rd))
    (hh : hasHome s pa n = true) (hm : InMemory s pa n) : ∃ t, exec (.clientRmaRead job src port pa n) s = .next t ∧
      SameButArchive s t ∧ AnswersWith s t (.clientData port (memReadN s.mem (physOf s pa) n)) := by
  have ht := logsOnly_touchLines s none pa n
  have hans : (touchLines s none pa n).mod.answers = s.mod.answers := by rw [ht.mod]
  refine ⟨_, exec_clientRmaRead_admitted hn h hh, ht.memory, ?_⟩
  rw [← homeRead_eq (inMemory_region hm hn) fun i hi => (hm i hi).1]
  exact congrArg (· ++ _) hans

/-- An admitted write is performed, and its client gets an acknowledgement (R320). -/
theorem clientRmaWrite_performed {s : State} {job src port pa : Nat} {b : List Byte} (hb : b ≠ [])
    (h : ClientAdmitted s job src port pa b.length (·.w)) (hh : hasHome s pa b.length = true) (hm : InMemory s pa b.length) :
    ∃ t, exec (.clientRmaWrite job src port pa b) s = .next t ∧ memReadN t.mem (physOf s pa) b.length = b ∧
      SameOutside s t (physOf s pa) b.length ∧ AnswersWith s t (.clientAck port) := by
  have hd := inMemory_region hm (mt List.length_eq_zero_iff.mp hb)
  have hp : ∀ i, i < b.length → physOf s (pa + i) = physOf s pa + i := fun i hi => (hm i hi).1
  refine ⟨_, exec_clientRmaWrite_admitted hb h hh hd, memReadN_eq fun i hi => memRead_storeAt (who := none) hp hi,
    sameOutside_storeAt (who := none) hp, ?_⟩
  exact congrArg (· ++ _) (answers_storeAt s none pa b)

end Sys2Proof.Proofs
end

section
/-!
PROOF. Grids across modules, client ports and the service channel (R23, R311, R317, R319, R320): the statement's parts.
-/
set_option linter.constructorNameAsVariable false
namespace Sys2Proof.Proofs
open Sys2Proof.Machine Sys2Proof.Safety

theorem idle_podBarrierCount_unplaced {s : State} {span : Nat} (h : spanLaunch s span = none) (module k : Nat) :
    Idle (.podBarrierCount span module k) s := by
  simp [Idle, exec, execPodBarrierCount, h]

theorem idle_podBarrierCount_fenced {s : State} {module : Nat} (h : isFenced s module = true) (span k : Nat) :
    Idle (.podBarrierCount span module k) s := by
  simp only [Idle, exec, execPodBarrierCount]
  split
  · rfl
  · simp only [h, if_true]

/-- Pod arrivals of a module that is heard (R260, R319): its report, and with the last one the barrier's completion. -/
theorem exec_podBarrierCount {s : State} {span module k id : Nat} {l : Launch} (hf : isFenced s module = false)
    (hl : spanLaunch s span = some (id, l)) :
    exec (.podBarrierCount span module k) s = .next (
      let s1 := updLaunch s id fun _ => setPodReached l module k
      if k > barDone l .pod 0 ∧ l.span ≠ [] ∧ ∀ r ∈ l.span, k ≤ podReached (setPodReached l module k) r.module
      then completeInstance s1 id .pod 0 k else s1) := by
  have hb : ((k > barDone (setPodReached l module k) .pod 0 && !(setPodReached l module k).span.isEmpty &&
      (setPodReached l module k).span.all fun r => k ≤ podReached (setPodReached l module k) r.module) = true) ↔
      (k > barDone l .pod 0 ∧ l.span ≠ [] ∧ ∀ r ∈ l.span, k ≤ podReached (setPodReached l module k) r.module) := by
    simp [show barDone (setPodReached l module k) = barDone l from rfl, show (setPodReached l module k).span = l.span from rfl, and_assoc]
  simp only [exec, execPodBarrierCount, hl, hf, Bool.false_eq_true, if_false]
  exact congrArg Host.Outcome.next (if_congr hb rfl rfl)

/-- A read of a face of a part that has completed here (R20, R23). -/
theorem spanRead_past {s : State} {span module channel idx gen : Nat} {face : BitVec 3} {d : Member} (hf : isFenced s module = false)
    (hl : spanLaunch s span = none) (hp : pastCell s span idx = some d) (hd : d.departed = true) (h0 : span ≠ 0)
    (hw : ∀ w ∈ s.mod.spanWaits, w.span ≠ span) :
    ∃ t, exec (.spanNeighbourRead span ⟨module, channel⟩ idx face gen false) s = .next t ∧ SameMemory s t ∧
      AnswersWith s t (.spanRead module channel span idx (pubAt d (min gen d.done) face)) ∧
      spanAsk module channel span idx face gen false ∉ t.mod.spanWaits := by
  generalize hx : spanAsk module channel span idx face gen false = w
  generalize hs1 : updMod s (fun m => { m with spanWaits := m.spanWaits ++ [w] }) = s1
  have hserve : servePast s1 w = answerSpan s1 span d := by
    rw [← hs1, ← hx]
    exact servePast_read hp rfl
  have hans : answersRead span d w = true := by
    rw [← hx]
    exact (answersRead_iff ..).mpr ⟨rfl, rfl, h0, (pastCell_linear hp).symm, .inl hd⟩
  have hmod : s1.mod = { s.mod with spanWaits := s.mod.spanWaits ++ [w] } := by rw [← hs1]; rfl
  have hface : faceAnswer d w = .spanRead module channel span idx (pubAt d (min gen d.done) face) := by
    rw [← hx]
    simp [faceAnswer, hd]
  refine ⟨answerSpan s1 span d, ?_, fun a => ?_, ?_, fun hin => ?_⟩
  · rw [exec_spanNeighbourRead_unplaced hf hl, ← hserve, ← hs1, ← hx]
  · rw [mem_answerSpan, ← hs1]
    rfl
  · simp only [AnswersWith, mod_answerSpan, hmod, filter_answersRead_append hw hans, List.map_singleton, hface]
  · simp only [mod_answerSpan, List.mem_filter, hans] at hin
    exact Bool.false_ne_true hin.2

/-- A STEP wait on a cell of a part that has completed here (R19, R23; log 22). -/
theorem spanStep_past {s : State} {span module channel idx gen : Nat} {face : BitVec 3} {d : Member} (hf : isFenced s module = false)
    (hl : spanLaunch s span = none) (hp : pastCell s span idx = some d) :
    ∃ t, exec (.spanNeighbourRead span ⟨module, channel⟩ idx face gen true) s = .next t ∧ SameMemory s t ∧
      AnswersWith s t (.spanStep module span idx departedSteps) := by
  refine ⟨_, (exec_spanNeighbourRead_unplaced hf hl).trans (congrArg Host.Outcome.next (servePast_step (d := d) hp rfl)), fun a => ?_, ?_⟩
  · rfl
  · simp only [AnswersWith, addAnswer, updMod]

/-- A read of a cell here (R20, R106, R319). -/
theorem spanRead_here {s : State} {span module channel idx gen id k : Nat} {face : BitVec 3} {l : Launch} {d : Member}
    (hk : Keyed s.launches) (hf : isFenced s module = false) (hl : spanLaunch s span = some (id, l)) (hc : cellAt s id idx = some (k, d)) :
    ∃ t, exec (.spanNeighbourRead span ⟨module, channel⟩ idx face gen false) s = .next t ∧ SameMemory s t ∧
      (d.departed = true ∨ gen ≤ d.done →
        Answer.spanRead module channel span idx (pubAt d (if d.departed then min gen d.done else gen) face) ∈ t.mod.answers) ∧
      (d.departed = false → d.done < gen →
        spanAsk module channel span idx face gen false ∈ t.mod.spanWaits ∧
        (Keyed s.members → d.place = .parked → (memberAt t k).map (·.demanded) = some true)) := by
  have hjoins : spanAsk module channel span idx face gen false ∈ s.mod.spanWaits ++ [spanAsk module channel span idx face gen false] :=
    List.mem_append_right _ (List.mem_singleton.mpr rfl)
  refine ⟨_, exec_spanNeighbourRead_read hk hf hl hc, fun a => by rw [mem_answerSpan]; rfl, fun hp => ?_,
    fun hd hg => ⟨?_, fun hm hpl => ?_⟩⟩
  · simp only [mod_answerSpan, updMember_mod, updMod]
    refine List.mem_append_right _ (List.mem_map.mpr ⟨_, List.mem_filter.mpr ⟨hjoins, ?_⟩, rfl⟩)
    obtain ⟨-, -, h0⟩ := spanLaunch_spec hk hl
    obtain ⟨-, -, hlin⟩ := cellAt_spec hc
    exact (answersRead_iff ..).mpr ⟨rfl, rfl, h0, hlin.symm, hp⟩
  · simp only [mod_answerSpan, updMember_mod, updMod]
    refine List.mem_filter.mpr ⟨hjoins, ?_⟩
    simp [answersRead, hd, hg]
  · have hmk : memberAt s k = some d := tabGet_of_mem hm (cellAt_spec hc).1
    simp [hmk, hpl, (not_published_iff d gen).mpr ⟨hd, hg⟩]

/-- A STEP wait on a cell here (R19, R319). -/
theorem spanStep_here {s : State} {span module channel idx gen id k : Nat} {face : BitVec 3} {l : Launch} {d : Member}
    (hk : Keyed s.launches) (hf : isFenced s module = false) (hl : spanLaunch s span = some (id, l)) (hc : cellAt s id idx = some (k, d)) :
    ∃ t, exec (.spanNeighbourRead span ⟨module, channel⟩ idx face gen true) s = .next t ∧ SameMemory s t ∧
      (∃ v, launchAt t id = some v ∧ (module, idx) ∈ v.stepWatchers) ∧
      (d.departed = true → AnswersWith s t (.spanStep module span idx departedSteps)) ∧
      (d.departed = false → d.done ≠ 0 → AnswersWith s t (.spanStep module span idx d.done)) ∧
      (d.departed = false → d.done = 0 → t.mod = s.mod) := by
  obtain ⟨hmem, hv, hno, hyes⟩ := watchSteps_spec (w := spanAsk module channel span idx face gen true) (spanLaunch_spec hk hl).1 hc
  refine ⟨_, exec_spanNeighbourRead_step hf hl, fun a => by rw [hmem], hv, fun hd => ?_, fun hd h0 => ?_, fun hd h0 => hno ?_⟩
  · have ht : stepsTold d = departedSteps := by simp [stepsTold, hd]
    rw [← ht]
    exact hyes (by rw [ht]; decide)
  · have ht : stepsTold d = d.done := by simp [stepsTold, hd]
    rw [← ht]
    exact hyes (by rwa [ht])
  · simp [stepsTold, hd, h0]

/-- A report of steps raises what this module knows of one cell (R319). -/
theorem spanStepReport_heard {s : State} {span idx step id : Nat} {l : Launch} (hk : Keyed s.launches)
    (hl : spanLaunch s span = some (id, l)) (hf : farFenced s l idx = false) :
    ∃ t v, exec (.spanStepReport span idx step) s = .next t ∧ t = { s with launches := t.launches } ∧ launchAt t id = some v ∧
      remoteDone v idx = max step (remoteDone l idx) ∧ ∀ n, n ≠ idx → remoteDone v n = remoteDone l n := by
  have hv := remoteDone_replaced l idx (max step (remoteDone l idx))
  refine ⟨_, { l with remoteSteps := (l.remoteSteps.filter fun e => e.1 != idx) ++ [(idx, max step (remoteDone l idx))] },
    exec_spanStepReport hl, ?_, ?_, ?_, fun n hn => ?_⟩
  · simp only [hf, Bool.false_eq_true, if_false]
    rfl
  · simp only [hf, Bool.false_eq_true, if_false]
    rw [launchAt_updLaunch_same, (spanLaunch_spec hk hl).1]
    rfl
  · rw [hv, if_pos rfl]
  · rw [hv, if_neg hn]

/-- Arrivals that another module reports raise its count, and complete the barrier with the last module's (R260, R319). -/
theorem podBarrierCount_heard {s : State} {span module k id : Nat} {l : Launch} (hk : Keyed s.launches)
    (hf : isFenced s module = false) (hl : spanLaunch s span = some (id, l)) :
    let reached := fun n => if n = module then max k (podReached l module) else podReached l n
    let whole := barDone l .pod 0 < k ∧ l.span ≠ [] ∧ ∀ r ∈ l.span, k ≤ reached r.module
    ∃ t v, exec (.podBarrierCount span module k) s = .next t ∧ SameMemory s t ∧ launchAt t id = some v ∧
      (∀ n, podReached v n = reached n) ∧ (whole → barDone v .pod 0 = k) ∧
      (¬ whole → barDone v .pod 0 = barDone l .pod 0 ∧ t.members = s.members) := by
  intro reached whole
  have hr : ∀ n, podReached (setPodReached l module k) n = reached n := podReached_setPodReached l module k
  have hw : (k > barDone l .pod 0 ∧ l.span ≠ [] ∧ ∀ r ∈ l.span, k ≤ podReached (setPodReached l module k) r.module) ↔ whole := by
    simp only [hr]
    exact Iff.rfl
  have h1 : launchAt (updLaunch s id fun _ => setPodReached l module k) id = some (setPodReached l module k) := by
    rw [launchAt_updLaunch_same, (spanLaunch_spec hk hl).1]
    rfl
  by_cases hc : whole
  · obtain ⟨hmem, v, hv, hdone, hpod⟩ := completeInstance_spec h1 .pod 0 k
    refine ⟨_, v, exec_podBarrierCount hf hl, fun a => ?_, ?_, fun n => (hpod n).trans (hr n), fun _ => hdone, fun hn => absurd hc hn⟩
    · simp only [hw, hc, if_true, hmem]
      rfl
    · simpa only [hw, hc, if_true] using hv
  · refine ⟨_, _, exec_podBarrierCount hf hl, fun a => ?_, ?_, hr, fun h => absurd h hc, fun _ => ⟨rfl, ?_⟩⟩
    · simp only [hw, hc, if_false]
      rfl
    · simpa only [hw, hc, if_false] using h1
    · simp only [hw, hc, if_false]
      rfl

/-- A message on the service channel (R317). -/
theorem exec_serviceChannelMessage {s : State} {module : Nat} (hf : isFenced s module = false) (kind value : Nat) :
    exec (.serviceChannelMessage module kind value) s =
      .next (updMod s fun m => { m with service := m.service ++ [(module, kind, value)] }) := by
  simp [exec, execServiceChannelMessage, hf]

theorem idle_serviceChannelMessage_fenced {s : State} {module : Nat} (hf : isFenced s module = true) (kind value : Nat) :
    Idle (.serviceChannelMessage module kind value) s := by
  simp [Idle, exec, execServiceChannelMessage, hf]

/-- A request for a span that has neither come nor been here joins the waits (R319). -/
theorem spanNeighbourRead_unknown {s : State} {span module channel idx gen : Nat} {face : BitVec 3} (hf : isFenced s module = false)
    (hl : spanLaunch s span = none) (hp : pastCell s span idx = none) (isStep : Bool) :
    ∃ t, exec (.spanNeighbourRead span ⟨module, channel⟩ idx face gen isStep) s = .next t ∧
      OnlyMod s t { s.mod with spanWaits := s.mod.spanWaits ++ [spanAsk module channel span idx face gen isStep] } :=
  ⟨_, (exec_spanNeighbourRead_unplaced hf hl).trans (congrArg Host.Outcome.next (servePast_unknown hp)), rfl⟩

/-- Settles O52: each request is heard or not, as its module is fenced and its span's launch is here, and each has its lemma above. -/
theorem spansAndClients : Obligations.SpansAndClients := by
  refine ⟨fun s span module channel idx face gen hk => ⟨fun hf => ?fenced, fun hf hl => ?unplaced, fun id l hf hl => ?placed⟩,
    fun s job src port pa => ⟨fun n hn => ⟨_, exec_clientRmaRead_refused hn, rfl⟩, fun b hb => ⟨_, exec_clientRmaWrite_refused hb, rfl⟩,
      fun n hn ha hh hm => clientRmaRead_performed hn ha hh hm, fun b hb ha hh hm => clientRmaWrite_performed hb ha hh hm,
      fun module kind value hf => ⟨_, exec_serviceChannelMessage hf kind value, rfl⟩⟩⟩
  case fenced =>
    exact ⟨idle_spanNeighbourRead_fenced hf span channel idx gen face, idle_podBarrierCount_fenced hf span gen,
      idle_serviceChannelMessage_fenced hf idx gen⟩
  case unplaced =>
    refine ⟨spanNeighbourRead_unknown hf hl, fun d hp hd h0 hw => ⟨spanRead_past hf hl hp hd h0 hw, spanStep_past hf hl hp⟩, ?_,
      idle_podBarrierCount_unplaced hl module gen⟩
    simp [Idle, exec, execSpanStepReport, hl]
  case placed =>
    refine ⟨fun k d hc => ⟨spanRead_here hk hf hl hc, spanStep_here hk hf hl hc⟩, fun hff => ?_,
      fun hff => spanStepReport_heard hk hl hff, podBarrierCount_heard hk hf hl⟩
    rw [Idle, exec_spanStepReport hl, if_pos hff]

end Sys2Proof.Proofs
end

section
/-!
PROOF. Planes and accumulators as the array's commands leave them (R50, R51, R222 to R224): what a list, a plane and an accumulator read
as after one of them is set, then what each product puts there.
-/
set_option linter.constructorNameAsVariable false
namespace Sys2Proof.Proofs
open Sys2Proof.Machine Sys2Proof.Safety

theorem getD_listPut {α : Type} (d v : α) (l : List α) (i : Nat) {n j : Nat} (hj : j < n) :
    (listPut d n l i v).getD j d = if j = i then v else l.getD j d := by
  simp [listPut, List.getD_eq_getElem?_getD, hj]

theorem planeAt_planeOf (f : Nat → Nat → Int) {r c : Nat} (hr : r < 16) (hc : c < 16) : planeAt (planeOf f) r c = f r c := by
  have hi : 16 * r + c < 256 := by omega
  have hd : (16 * r + c) / 16 = r := by omega
  have hm : (16 * r + c) % 16 = c := by omega
  simp [planeAt, planeOf, List.getD_eq_getElem?_getD, hi, hd, hm]

theorem accTileAt_accOf (f : Nat → Nat → Word) {r c : Nat} (hr : r < 16) (hc : c < 16) : accTileAt (accOf f) r c = f r c := by
  have hi : 16 * r + c < 256 := by omega
  have hd : (16 * r + c) / 16 = r := by omega
  have hm : (16 * r + c) % 16 = c := by omega
  simp [accTileAt, accOf, List.getD_eq_getElem?_getD, hi, hd, hm]

theorem partOf_setPart (e : Engines) (p : Nat) (v : Plane) (st : PlaneState) {q : Nat} (hq : q < 4) :
    partOf (setPart e p v st) q = if q = p then v else partOf e q := getD_listPut [] v e.parts p hq

theorem partStateOf_setPart (e : Engines) (p : Nat) (v : Plane) (st : PlaneState) {q : Nat} (hq : q < 4) :
    partStateOf (setPart e p v st) q = if q = p then st else partStateOf e q := getD_listPut PlaneState.empty st e.partState p hq

theorem accumOf_setAccum (e : Engines) (c : Nat) (v : List Word) {d : Nat} (hd : d < 4) :
    accumOf (setAccum e c v) d = if d = c then v else accumOf e d := getD_listPut [] v e.accs c hd

@[simp] theorem accumOf_setPart (e : Engines) (p : Nat) (v : Plane) (st : PlaneState) (c : Nat) :
    accumOf (setPart e p v st) c = accumOf e c := rfl

theorem blockProduct_eq_sum (m : Nat) (a b : SeBlock) :
    blockProduct m a b = ((List.range 16).map fun i => seTerm m a i * seTerm m b i).sum := by
  rw [blockProduct, List.sum_eq_foldl, List.foldl_map]

/-- What an SE MMAB writes in its plane `j`: 0 outside the rows and columns that it has read (R222). -/
def planeProduct (f : MatFmt) (as bs : List SeBlock) (j r c : Nat) : Int :=
  match as[r]?, bs[c + 16 * j]? with
  | some a, some b => blockProduct (seBits f) a b
  | _, _ => 0

theorem mmabPlanesOf_one {f : MatFmt} (hf : f = .se4 ∨ f = .se7) (p : Nat) (as bs : List SeBlock) (e : Engines) :
    mmabPlanesOf f p as bs e = setPart e p (planeOf (planeProduct f as bs 0)) (.full f) := by
  rcases hf with rfl | rfl <;> rfl

theorem mmabPlanesOf_two (p : Nat) (as bs : List SeBlock) (e : Engines) :
    mmabPlanesOf .se2 p as bs e =
      setPart (setPart e p (planeOf (planeProduct .se2 as bs 0)) (.full .se2)) (p + 1) (planeOf (planeProduct .se2 as bs 1)) (.full .se2) :=
  rfl

/-- SE4 and SE7 overwrite one plane with products. -/
theorem mmabPlanesOf_one_spec {f : MatFmt} (hf : f = .se4 ∨ f = .se7) {p : Nat} (hp : p < 4) (as bs : List SeBlock) (e : Engines) :
    let e' := mmabPlanesOf f p as bs e
    partStateOf e' p = .full f ∧ e'.accs = e.accs ∧ (∀ q, q < 4 → q ≠ p → partOf e' q = partOf e q) ∧
    ∀ r c, r < 16 → c < 16 → planeAt (partOf e' p) r c = planeProduct f as bs 0 r c := by
  rw [mmabPlanesOf_one hf]
  refine ⟨?_, rfl, fun q hq hne => ?_, fun r c hr hc => ?_⟩
  · rw [partStateOf_setPart _ _ _ _ hp, if_pos rfl]
  · rw [partOf_setPart _ _ _ _ hq, if_neg hne]
  · rw [partOf_setPart _ _ _ _ hp, if_pos rfl, planeAt_planeOf _ hr hc]

/-- SE2 overwrites two planes, the second with the products of columns 16 to 31. -/
theorem mmabPlanesOf_two_spec {p : Nat} (hp : p < 3) (as bs : List SeBlock) (e : Engines) :
    let e' := mmabPlanesOf .se2 p as bs e
    partStateOf e' p = .full .se2 ∧ partStateOf e' (p + 1) = .full .se2 ∧
    ∀ q r c, q < 2 → r < 16 → c < 16 → planeAt (partOf e' (p + q)) r c = planeProduct .se2 as bs q r c := by
  have h0 : p < 4 := by omega
  have h1 : p + 1 < 4 := by omega
  have hne : p ≠ p + 1 := by omega
  rw [mmabPlanesOf_two]
  refine ⟨?_, ?_, fun q r c hq hr hc => ?_⟩
  · rw [partStateOf_setPart _ _ _ _ h0, if_neg hne, partStateOf_setPart _ _ _ _ h0, if_pos rfl]
  · rw [partStateOf_setPart _ _ _ _ h1, if_pos rfl]
  · obtain rfl | rfl : q = 0 ∨ q = 1 := by omega
    · rw [Nat.add_zero p, partOf_setPart _ _ _ _ h0, if_neg hne, partOf_setPart _ _ _ _ h0, if_pos rfl, planeAt_planeOf _ hr hc]
    · rw [partOf_setPart _ _ _ _ h1, if_pos rfl, planeAt_planeOf _ hr hc]

/-- What a BF16 MMAB leaves in an element of its accumulator (R222). -/
def accumSum (as bs : List (List Nat)) (old : List Word) (r k : Nat) : Word :=
  match as[r]?, bs[k]? with
  | some a, some b => BitVec.ofNat 32 (bf16Element (accTileAt old r k).toNat a b)
  | _, _ => accTileAt old r k

theorem mmabAccum_spec {c : Nat} (hc : c < 4) (as bs : List (List Nat)) (e : Engines) :
    let e' := mmabAccum c as bs e
    e'.parts = e.parts ∧ (∀ d, d < 4 → d ≠ c → accumOf e' d = accumOf e d) ∧
    ∀ r k, r < 16 → k < 16 → accTileAt (accumOf e' c) r k = accumSum as bs (accumOf e c) r k := by
  have he : mmabAccum c as bs e = setAccum e c (accOf (accumSum as bs (accumOf e c))) := rfl
  rw [he]
  refine ⟨rfl, fun d hd hne => ?_, fun r k hr hk => ?_⟩
  · rw [accumOf_setAccum _ _ _ hd, if_neg hne]
  · rw [accumOf_setAccum _ _ _ hc, if_pos rfl, accTileAt_accOf _ hr hk]

/-- What SCACC leaves in an element of its accumulator (R223). -/
def accumScaled (f : MatFmt) (ea eb : List Nat) (old : List Word) (p : Plane) (r k : Nat) : Word :=
  match ea[r]?, eb[k]? with
  | some x, some y => BitVec.ofNat 32 (scaledAdd (seBits f) (accTileAt old r k).toNat (planeAt p r k) x y)
  | _, _ => accTileAt old r k

theorem scaccApply_spec (f : MatFmt) {p c : Nat} (hp : p < 4) (hc : c < 4) (ea eb : List Nat) (e : Engines) :
    let e' := scaccApply f p c ea eb e
    partStateOf e' p = .empty ∧
    ∀ r k, r < 16 → k < 16 → accTileAt (accumOf e' c) r k = accumScaled f ea eb (accumOf e c) (partOf e p) r k := by
  have he : scaccApply f p c ea eb e =
      setPart (setAccum e c (accOf (accumScaled f ea eb (accumOf e c) (partOf e p)))) p (partOf e p) .empty := rfl
  rw [he]
  refine ⟨?_, fun r k hr hk => ?_⟩
  · rw [partStateOf_setPart _ _ _ _ hp, if_pos rfl]
  · rw [accumOf_setPart, accumOf_setAccum _ _ _ hc, if_pos rfl, accTileAt_accOf _ hr hk]

end Sys2Proof.Proofs
end

section
/-!
PROOF. What the accesses of an engine leave as it was (R179, R212, R305): reads touch the log and budgets, and neither reads nor the
aiming of writes touch what the engines hold.
-/
set_option linter.constructorNameAsVariable false
namespace Sys2Proof.Proofs
open Sys2Proof.Machine Sys2Proof.Safety

/-- What every step of a fold keeps, the fold keeps. -/
theorem foldl_keeps {σ α β : Type} {f : σ → α → σ} (q : σ → β) (h : ∀ t a, q (f t a) = q t) (l : List α) (s : σ) :
    q (l.foldl f s) = q s := by
  induction l generalizing s with
  | nil => rfl
  | cons a r ih => exact (ih _).trans (h s a)

/-- From `s` to `t` memory changes in bytes of the archive log alone, no entry of the log leaves its place, and the engines hold what they
held. -/
structure EnginesKept (s t : State) : Prop where
  redirect : t.mod.redirect = s.mod.redirect
  archBase : t.mod.archBase = s.mod.archBase
  part : t.mod.part = s.mod.part
  kept : ∀ e ∈ s.mod.archive, ∃ e' ∈ t.mod.archive, e'.field = e.field ∧ e'.pos = e.pos
  memory : SameButArchive s t
  eng : ∀ g, (coreAt t g).eng = (coreAt s g).eng

theorem EnginesKept.inArchive {s t u : State} (h : EnginesKept s t) {x : Nat} (hx : InArchive t u x) : InArchive s u x := by
  obtain ⟨e, he, i, hi, rfl⟩ := hx
  refine ⟨e, he, i, hi, ?_⟩
  simp only [physOf, archAddr, h.redirect, h.archBase, h.part]

theorem EnginesKept.trans {s t u : State} (h : EnginesKept s t) (g : EnginesKept t u) : EnginesKept s u where
  redirect := g.redirect.trans h.redirect
  archBase := g.archBase.trans h.archBase
  part := g.part.trans h.part
  kept := fun e he => by
    obtain ⟨e1, h1, h2, h3⟩ := h.kept e he
    obtain ⟨e2, g1, g2, g3⟩ := g.kept e1 h1
    exact ⟨e2, g1, g2.trans h2, g3.trans h3⟩
  memory := fun x hx => by
    rw [g.memory x fun hin => hx (h.inArchive hin), h.memory x]
    rintro ⟨e, he, i, hi, rfl⟩
    obtain ⟨e2, g1, g2, g3⟩ := g.kept e he
    exact hx ⟨e2, g1, i, hi, by rw [g2, g3]⟩
  eng := fun n => (g.eng n).trans (h.eng n)

/-- A step that leaves memory, the log and the engines. -/
theorem enginesKept_of_eq {s t : State} (hm : t.mem = s.mem) (hr : t.mod.redirect = s.mod.redirect)
    (hb : t.mod.archBase = s.mod.archBase) (hp : t.mod.part = s.mod.part) (ha : t.mod.archive = s.mod.archive)
    (he : ∀ g, (coreAt t g).eng = (coreAt s g).eng) : EnginesKept s t :=
  ⟨hr, hb, hp, fun e h => ⟨e, ha ▸ h, rfl, rfl⟩, fun _ _ => by rw [hm], he⟩

theorem EnginesKept.refl (s : State) : EnginesKept s s := enginesKept_of_eq rfl rfl rfl rfl rfl fun _ => rfl

theorem enginesKept_of_logsOnly {s t : State} (h : LogsOnly s t) (he : ∀ g, (coreAt t g).eng = (coreAt s g).eng) : EnginesKept s t :=
  ⟨by rw [h.mod], by rw [h.mod], by rw [h.mod], h.kept, h.memory, he⟩

theorem enginesKept_of_walksOnly {s t : State} (h : WalksOnly s t) : EnginesKept s t :=
  enginesKept_of_eq h.mem (by rw [h.mod]) (by rw [h.mod]) (by rw [h.mod]) (by rw [h.mod]) fun g => by rw [h.core]

@[simp] theorem eng_dropClauses (lo n : Nat) (u : CoreUnit) : (dropClauses lo n u).eng = u.eng := by
  unfold dropClauses
  split <;> rfl

/-- A core as a write leaves it: the covered clause lines are dropped (R112). -/
def afterWrite (s : State) (pa n : Nat) (u : CoreUnit) : CoreUnit :=
  (runsOf s pa n).foldl (fun u r => dropClauses r.1 r.2.2 u) u

theorem eng_afterWrite (s : State) (pa n : Nat) (u : CoreUnit) : (afterWrite s pa n u).eng = u.eng :=
  foldl_keeps CoreUnit.eng (fun u (r : Nat × Nat × Nat) => eng_dropClauses r.1 r.2.2 u) _ u

theorem coreAt_writeBytes (s : State) (pa : Nat) (l : List Byte) (g : Nat) :
    coreAt (writeBytes s pa l) g = ((tabGet s.cores g).map (afterWrite s pa l.length)).getD (idleCore s g) :=
  congrArg (·.getD (idleCore s g)) (tabGet_map s.cores g (afterWrite s pa l.length))

theorem eng_writeBytes (s : State) (pa : Nat) (l : List Byte) (g : Nat) : (coreAt (writeBytes s pa l) g).eng = (coreAt s g).eng := by
  rw [coreAt_writeBytes, coreAt]
  cases tabGet s.cores g with
  | none => rfl
  | some u => exact eng_afterWrite s pa l.length u

theorem eng_touchLines (s : State) (who : Option (Nat × Nat)) (pa n g : Nat) :
    (coreAt (touchLines s who pa n) g).eng = (coreAt s g).eng := by
  unfold touchLines
  simp only [coreAt_updMod]
  rw [foldl_keeps (fun t => (coreAt t g).eng) (fun t e => eng_writeBytes t _ _ g),
    foldl_keeps (fun t => (coreAt t g).eng) fun t e => by rw [coreAt_updCtx]]

/-- A read of lines marks entries of the log (R305). -/
theorem enginesKept_touchLines (s : State) (who : Option (Nat × Nat)) (pa n : Nat) : EnginesKept s (touchLines s who pa n) :=
  enginesKept_of_logsOnly (logsOnly_touchLines s who pa n) (eng_touchLines s who pa n)

theorem eng_updQuad (s : State) (q : Nat) (f : QuadUnit → QuadUnit) (g : Nat) : (coreAt (updQuad s q f) g).eng = (coreAt s g).eng := by
  unfold coreAt updQuad
  cases tabGet s.cores g <;> rfl

theorem enginesKept_spendBudget (s : State) (core size pa : Nat) : EnginesKept s (spendBudget s core size pa) := by
  have h := enginesKept_of_eq (s := s) (t := updQuad s (globalQuad core) fun q => { q with spent := q.spent + size })
    rfl rfl rfl rfl rfl (eng_updQuad s _ _)
  unfold spendBudget
  split
  · exact h
  · exact h
  · exact .refl s

theorem enginesKept_countError (s : State) : EnginesKept s (countError s) := enginesKept_of_eq rfl rfl rfl rfl rfl fun _ => rfl

/-- What the first accesses keep and the later ones keep, both keep. -/
theorem then_keeps {α β : Type} {P : State → Prop} {p : EngRes α × State} {f : α → State → EngRes β × State} (h : P p.2)
    (hf : ∀ v t, P t → P (f v t).2) : P (EngRes.then p f).2 := by
  unfold EngRes.then
  split
  · exact hf _ _ h
  · exact h
  · exact h
  · exact h

theorem walksOnly_trans {s t u : State} (h : WalksOnly s t) (g : WalksOnly t u) : WalksOnly s u := by
  have hc := h.core
  obtain ⟨cs, sc, rfl, -⟩ := h
  obtain ⟨cs', sc', rfl, hg⟩ := g
  refine ⟨cs', sc', rfl, fun n => ?_⟩
  have hn := hg n
  rw [hc n] at hn
  exact hn

/-- The walk-ahead TLB translates the pieces of a run (R178, R179). -/
theorem walksOnly_engineAims (s : State) (core : Nat) (x : Cmd) (need : Need) (view index : Nat) (l : List (Word64 × Nat)) :
    WalksOnly s (engineAims s core x need view index l).2 := by
  induction l generalizing s with
  | nil => exact .refl s
  | cons p r ih =>
    obtain ⟨w, n⟩ := p
    have hw := walksOnly_resolveIn s x.descs core (homeOf s x.member core) true need w n
    unfold engineAims
    split
    · next h => rwa [h] at hw
    · next h => rwa [h] at hw
    · next h =>
      rw [h] at hw
      exact then_keeps (walksOnly_trans hw (ih _)) fun _ _ ht => ht

/-- Writes are aimed before any is sent (R215). -/
theorem walksOnly_engineStores (s : State) (core cmd seg : Nat) (x : Cmd) (l : List EngineStore) :
    WalksOnly s (engineStores s core cmd seg x l).2 := by
  induction l generalizing s with
  | nil => exact .refl s
  | cons e r ih =>
    unfold engineStores
    split
    · exact .refl s
    · exact .refl s
    · exact then_keeps (walksOnly_engineAims ..) fun _ t ht => then_keeps (walksOnly_trans ht (ih t)) fun _ _ hu => hu

theorem enginesKept_readPiece (s : State) (core : Nat) (x : Cmd) (ext : PeerBytes) (e : EngElem) (p : Resolved × Word64 × Nat) :
    EnginesKept s (readPiece s core x ext e p).2 := by
  unfold readPiece
  split
  · split
    · exact enginesKept_countError s
    · exact (enginesKept_spendBudget ..).trans (enginesKept_touchLines ..)
  · exact .refl s

theorem enginesKept_readPieces (s : State) (core : Nat) (x : Cmd) (ext : PeerBytes) (e : EngElem) (l : List (Resolved × Word64 × Nat)) :
    EnginesKept s (readPieces s core x ext e l).2 := by
  induction l generalizing s with
  | nil => exact .refl s
  | cons p r ih =>
    exact then_keeps (enginesKept_readPiece s core x ext e p) fun _ t ht => then_keeps (ht.trans (ih t)) fun _ _ hu => hu

theorem enginesKept_engineRead (s : State) (core : Nat) (x : Cmd) (ext : PeerBytes) (e : EngElem) :
    EnginesKept s (engineRead s core x ext e).2 := by
  unfold engineRead
  split
  · exact .refl s
  · exact .refl s
  · exact then_keeps (enginesKept_of_walksOnly (walksOnly_engineAims ..)) fun _ _ ht => ht.trans (enginesKept_readPieces ..)

/-- An engine's reads change neither memory beside the log nor the engines (R212, R305). -/
theorem enginesKept_engineReads (s : State) (core : Nat) (x : Cmd) (ext : PeerBytes) (l : List EngElem) :
    EnginesKept s (engineReads s core x ext l).2 := by
  induction l generalizing s with
  | nil => exact .refl s
  | cons a r ih =>
    exact then_keeps (enginesKept_engineRead s core x ext a) fun _ t ht => then_keeps (ht.trans (ih t)) fun _ _ hu => hu

/-- The aiming of writes spends no budget (R323). -/
theorem overBudget_engineStores {s s1 s2 : State} {core cmd seg : Nat} {x : Cmd} {w : List EngineStore} {l : List Access}
    (h : engineStores s1 core cmd seg x w = (.ok l, s2)) : overBudget s s2 core = overBudget s s1 core := by
  have hw := walksOnly_engineStores s1 core cmd seg x w
  rw [h] at hw
  obtain ⟨cs, sc, rfl, -⟩ := hw
  rfl

/-- One access enters under a fresh key. -/
def enterAcc (p : List Nat × State) (a : Access) : List Nat × State :=
  (p.1 ++ [(freshId p.2).1], { (freshId p.2).2 with accs := tabPut p.2.accs (freshId p.2).1 a })

theorem addAccs_eq_foldl (s : State) (l : List Access) : addAccs s l = l.foldl enterAcc ([], s) := rfl

theorem addAccs_length (s : State) (l : List Access) : (addAccs s l).1.length = l.length := by
  have h : ∀ (l : List Access) (p : List Nat × State), (l.foldl enterAcc p).1.length = p.1.length + l.length := by
    intro l
    induction l with
    | nil => exact fun p => rfl
    | cons a r ih =>
      intro p
      rw [List.foldl_cons, ih, enterAcc, List.length_append, List.length_singleton, List.length_cons]
      omega
  rw [addAccs_eq_foldl, h, List.length_nil, Nat.zero_add]

/-- What an access that enters keeps, all keep. -/
theorem addAccs_keeps {β : Type} (q : State → β) (h : ∀ p a, q (enterAcc p a).2 = q p.2) (s : State) (l : List Access) :
    q (addAccs s l).2 = q s := foldl_keeps (fun p : List Nat × State => q p.2) h l ([], s)

theorem addAccs_mem (s : State) (l : List Access) : (addAccs s l).2.mem = s.mem := addAccs_keeps State.mem (fun _ _ => rfl) s l
theorem addAccs_mod (s : State) (l : List Access) : (addAccs s l).2.mod = s.mod := addAccs_keeps State.mod (fun _ _ => rfl) s l
theorem coreAt_addAccs (s : State) (l : List Access) (g : Nat) : coreAt (addAccs s l).2 g = coreAt s g :=
  addAccs_keeps (coreAt · g) (fun _ _ => rfl) s l

/-- What a captured unit keeps stands in its program (R301). -/
theorem captureGrow_spec (s : State) (core n : Nat) (f : Program → Program) : (captureGrow s core n f).mem = s.mem ∧
    (captureGrow s core n f).mod.archive = s.mod.archive ∧ cmdsOf (captureGrow s core n f) core = cmdsOf s core := by
  unfold captureGrow
  split
  · exact ⟨rfl, rfl, rfl⟩
  · split
    · exact ⟨rfl, rfl, rfl⟩
    · refine ⟨rfl, ?_, by simp [cmdsOf]⟩
      simp only [updMod_mod]
      split <;> rfl

theorem captureRun_spec (s : State) (core : Nat) (x : Cmd) (e0 n : Nat) (reads : List EngElem) (vals : List Nat) (w : List EngineStore) :
    let t := captureRun s core x e0 n reads vals w
    t.mem = s.mem ∧ t.mod.archive = s.mod.archive ∧ cmdsOf t core = cmdsOf s core := by
  unfold captureRun
  split
  · exact ⟨rfl, rfl, rfl⟩
  · exact captureGrow_spec ..

end Sys2Proof.Proofs
end

section
/-!
PROOF. The steps of the array's commands (R213, R222 to R224, R231): a command waits, empties its planes, stops, is held, or does its
work.
-/
set_option linter.constructorNameAsVariable false
namespace Sys2Proof.Proofs
open Sys2Proof.Machine Sys2Proof.Safety

theorem tabGet_eq_none {α : Type} {t : Tab α} {k : Nat} (h : ∀ e ∈ t, e.1 ≠ k) : tabGet t k = none := by
  induction t with
  | nil => rfl
  | cons e r ih =>
    rw [tabGet, if_neg (h e List.mem_cons_self), ih fun e he => h e (List.mem_cons_of_mem _ he)]

/-- In a table whose keys rise no second entry stands under a dropped key. -/
theorem tabGet_tabDrop_same {α : Type} {t : Tab α} (hk : Keyed t) (k : Nat) : tabGet (tabDrop t k) k = none := by
  induction t with
  | nil => rfl
  | cons e r ih =>
    obtain ⟨j, w⟩ := e
    simp only [Keyed, List.map_cons, List.pairwise_cons] at hk
    unfold tabDrop
    split
    · next hj => exact tabGet_eq_none fun e he => Nat.ne_of_gt (hj ▸ hk.1 e.1 (List.mem_map_of_mem he))
    · next hj => rw [tabGet, if_neg hj, ih hk.2]

@[simp] theorem cmds_emptyPlanes (e : Engines) (l : List Nat) : (emptyPlanes e l).cmds = e.cmds :=
  foldl_keeps (f := fun t p => setPart t p [] .empty) Engines.cmds (fun _ _ => rfl) l e

@[simp] theorem coreAt_dropWrites (s : State) (cmd n : Nat) : coreAt (dropWrites s cmd) n = coreAt s n := rfl

theorem cmdAt_updCmd_same (s : State) (core id : Nat) (f : Cmd → Cmd) : cmdAt (updCmd s core id f) core id = (cmdAt s core id).map f := by
  simp [cmdAt, updCmd]

/-- From `s` to `t` memory changes in bytes of the archive log alone, and the planes and accumulators of a core are those of `e`. -/
def PlanesAre (s t : State) (core : Nat) (e : Engines) : Prop :=
  SameButArchive s t ∧ (coreAt t core).eng.parts = e.parts ∧ (coreAt t core).eng.partState = e.partState ∧
    (coreAt t core).eng.accs = e.accs

/-- A command that halts has emptied the planes that it loses. -/
def planesEmptied (s : State) (core : Nat) (x : Cmd) : State :=
  updCore s core fun u => { u with eng := emptyPlanes u.eng (planesLost x) }

@[simp] theorem eng_planesEmptied (s : State) (core : Nat) (x : Cmd) :
    (coreAt (planesEmptied s core x) core).eng = emptyPlanes (coreAt s core).eng (planesLost x) := by
  rw [planesEmptied, coreAt_updCore_same]

theorem haltCmd_eq {s : State} {core id : Nat} {x : Cmd} (hx : cmdAt s core id = some x) : haltCmd s core id false =
    updCore (dropWrites (planesEmptied s core x) id) core fun u => { u with eng := { u.eng with cmds := tabDrop u.eng.cmds id } } := by
  have hx' : tabGet (coreAt s core).eng.cmds id = some x := hx
  have hy : tabGet (coreAt (dropWrites (planesEmptied s core x) id) core).eng.cmds id = some x := by simpa using hx'
  have hs : haltCmd s core id false = strikeCmd (dropWrites (planesEmptied s core x) id) core id false := by
    rw [haltCmd, hx']
    rfl
  rw [hs, strikeCmd, hy]
  rfl

/-- A command that halts empties the planes that it loses, and is struck off (R231). -/
theorem haltCmd_spec {s : State} {core id : Nat} {x : Cmd} (hx : cmdAt s core id = some x) :
    PlanesAre s (haltCmd s core id false) core (emptyPlanes (coreAt s core).eng (planesLost x)) ∧
    (Keyed (cmdsOf s core) → cmdAt (haltCmd s core id false) core id = none) := by
  rw [haltCmd_eq hx]
  refine ⟨⟨fun _ _ => rfl, ?_, ?_, ?_⟩, fun hk => ?_⟩
  · simp
  · simp
  · simp
  · simpa [cmdAt, cmdsOf] using tabGet_tabDrop_same hk id

section
variable {s : State} {core id : Nat} {x : Cmd} (hx : cmdAt s core id = some x) (hq : x.phase = .queued) (ext : PeerBytes)
include hx hq

/-- A command whose turn has not come waits (R213). -/
theorem idle_arrayCommandRun (hr : cmdReady s core id x = false) : Idle (.arrayCommandRun core id ext) s := by
  simp [Idle, exec, execArrayCommandRun, hx, hq, hr]

theorem exec_arrayCommandRun_voided (hr : cmdReady s core id x = true) {l : List Nat} (hk : x.kind = .voided l) :
    exec (.arrayCommandRun core id ext) s = .next (haltCmd s core id false) := by
  simp [exec, execArrayCommandRun, hx, hq, hr, hk]

theorem exec_arrayCommandRun_array (hr : cmdReady s core id x = true) (hu : x.kind.unit = .array) :
    exec (.arrayCommandRun core id ext) s = .next (runArray s core id x ext) := by
  have hc : (x.phase != .queued || !cmdReady s core id x) = false := by simp [hq, hr]
  simp only [exec, execArrayCommandRun, hx, hc, hu, beq_self_eq_true, Bool.false_eq_true, if_false, if_true]
  split
  · next l hl => simp [hl, CmdKind.unit] at hu
  · rfl

end

/-! What the work does with what its reads find (R212, R323). -/

section
variable {s s1 : State} {core id : Nat} {x : Cmd} {ext : PeerBytes}

theorem runArray_bad (hb : arrayBad (coreAt s core).eng x = true) : runArray s core id x ext = stopCmd s core id { detail := 3 } := by
  rw [runArray, if_pos hb]

theorem runArray_missing (hb : arrayBad (coreAt s core).eng x = false)
    (h : engineReads s core x ext (arrayReads x) = (.missing, s1)) : runArray s core id x ext = s := by
  simp [runArray, hb, settleCmd, h]

theorem runArray_held (hb : arrayBad (coreAt s core).eng x = false) {c : Nat} {a : Word64}
    (h : engineReads s core x ext (arrayReads x) = (.held c a, s1)) : runArray s core id x ext = holdCmd s1 core id c a := by
  simp [runArray, hb, settleCmd, h]

theorem runArray_fail (hb : arrayBad (coreAt s core).eng x = false) {f : EngFail}
    (h : engineReads s core x ext (arrayReads x) = (.fail f, s1)) : runArray s core id x ext = stopCmd s1 core id f := by
  simp [runArray, hb, settleCmd, h]

theorem runArray_overBudget (hb : arrayBad (coreAt s core).eng x = false) {vals : List Nat}
    (h : engineReads s core x ext (arrayReads x) = (.ok vals, s1)) (ho : overBudget s s1 core = true) : runArray s core id x ext = s := by
  simp [runArray, hb, settleCmd, h, ho]

end

/-- SCACC of a plane that is not full is bad (R223). -/
theorem arrayBad_of_not_full {e : Engines} {x : Cmd} {p c : Nat} (hk : x.kind = .scacc p c) (hf : ∀ f, partStateOf e p ≠ .full f) :
    arrayBad e x = true := by
  cases h : partStateOf e p with
  | full f => exact absurd h (hf f)
  | empty => simp [arrayBad, hk, h]
  | lost => simp [arrayBad, hk, h]

/-- An array command that has run, with the writes that it has sent. -/
def ranCmd (ids : List Nat) (x : Cmd) : Cmd :=
  { x with phase := .running, unread := false,
           segs := if ids.isEmpty then [] else [{ bytes := 0, accs := ids, landed := true, counted := true }] }

theorem accs_of_ranCmd {ids : List Nat} {x : Cmd} {g : Segment} (h : g ∈ (ranCmd ids x).segs) : g.accs = ids := by
  simp only [ranCmd] at h
  split at h
  · cases h
  · rw [List.mem_singleton.mp h]

/-- The state in which the work of a command leaves the machine: the writes are sent, the planes and accumulators changed. -/
def afterWork (s s2 : State) (core id : Nat) (x : Cmd) (vals : List Nat) (e : Engines) (w : List EngineStore) (l : List Access) : State :=
  let p := addAccs (captureRun s2 core x 0 0 (arrayReads x) vals w) l
  let t := updCore p.2 core fun u => { u with eng := { u.eng with parts := e.parts, partState := e.partState, accs := e.accs } }
  updCmd (chargeEnergy t core 13 (arrayWidth (coreAt s core).eng x) 1) core id (ranCmd p.1)

/-- An array command has done its work: its planes and accumulators are those of `e`, and each of its segments has sent `n` writes. -/
def WorkDone (s : State) (core id : Nat) (ext : PeerBytes) (e : Engines) (n : Nat) : Prop :=
  ∃ t y, exec (.arrayCommandRun core id ext) s = .next t ∧ PlanesAre s t core e ∧ cmdAt t core id = some y ∧ y.phase = .running ∧
    y.unread = false ∧ ∀ g ∈ y.segs, g.accs.length = n

/-- After the work of a command that has read and aimed its writes. -/
theorem afterWork_spec {s s2 : State} (h : EnginesKept s s2) {core id : Nat} {x : Cmd} (hx : cmdAt s core id = some x) (vals : List Nat)
    (e : Engines) (w : List EngineStore) (l : List Access) :
    let t := afterWork s s2 core id x vals e w l
    PlanesAre s t core e ∧
    ∃ y, cmdAt t core id = some y ∧ y.phase = .running ∧ y.unread = false ∧ ∀ g ∈ y.segs, g.accs.length = l.length := by
  obtain ⟨hm, ha, hc⟩ := captureRun_spec s2 core x 0 0 (arrayReads x) vals w
  have hcmd : tabGet (coreAt (captureRun s2 core x 0 0 (arrayReads x) vals w) core).eng.cmds id = some x := by
    rw [← hx, ← cmdsOf, hc, cmdsOf, h.eng]
    rfl
  have hy : cmdAt (afterWork s s2 core id x vals e w l) core id =
      some (ranCmd (addAccs (captureRun s2 core x 0 0 (arrayReads x) vals w) l).1 x) := by
    rw [afterWork, cmdAt_updCmd_same, cmdAt, chargeEnergy, coreAt_updCore_same, coreAt_updCore_same, coreAt_addAccs, hcmd]
    rfl
  have hmem : (afterWork s s2 core id x vals e w l).mem = s2.mem := (addAccs_mem ..).trans hm
  have harch : (afterWork s s2 core id x vals e w l).mod.archive = s2.mod.archive :=
    (congrArg ModuleUnit.archive (addAccs_mod ..)).trans ha
  refine ⟨⟨fun a hin => ?_, ?_, ?_, ?_⟩, _, hy, rfl, rfl, fun g hg => ?_⟩
  · rw [hmem]
    exact h.memory a fun ⟨e, he, hi⟩ => hin ⟨e, harch ▸ he, hi⟩
  · simp [afterWork, updCmd, chargeEnergy]
  · simp [afterWork, updCmd, chargeEnergy]
  · simp [afterWork, updCmd, chargeEnergy]
  · rw [accs_of_ranCmd hg, addAccs_length]

section
variable {s s1 : State} {core id : Nat} {x : Cmd} {ext : PeerBytes} {vals : List Nat}
  (hx : cmdAt s core id = some x) (hq : x.phase = .queued) (hr : cmdReady s core id x = true) (hu : x.kind.unit = .array)
  (hb : arrayBad (coreAt s core).eng x = false) (h : engineReads s core x ext (arrayReads x) = (.ok vals, s1))
  (ho : overBudget s s1 core = false) {e : Engines}
include hx hq hr hu hb h ho

/-- A command whose reads have come within the budget, and whose writes have their places, does its work (R213, R222 to R224). -/
theorem workDone_of_stores {w : List EngineStore} {l : List Access} {s2 : State} (ha : arrayApply x vals (coreAt s core).eng = (e, w))
    (hs : engineStores s1 core id 0 x w = (.ok l, s2)) : WorkDone s core id ext e l.length := by
  have hreads : EnginesKept s s1 := by
    have := enginesKept_engineReads s core x ext (arrayReads x)
    rwa [h] at this
  have haims : EnginesKept s1 s2 := by
    have := enginesKept_of_walksOnly (walksOnly_engineStores s1 core id 0 x w)
    rwa [hs] at this
  have hrun : runArray s core id x ext = afterWork s s2 core id x vals e w l := by
    have ho2 : overBudget s s2 core = false := (overBudget_engineStores hs).trans ho
    simp only [runArray, hb, settleCmd, h, ho, hreads.eng, ha, hs, ho2, Bool.false_eq_true, if_false]
    rfl
  obtain ⟨hp, y, hy⟩ := afterWork_spec (hreads.trans haims) hx vals e w l
  exact ⟨_, y, (exec_arrayCommandRun_array hx hq ext hr hu).trans (congrArg Host.Outcome.next hrun), hp, hy⟩

/-- A command that writes nothing to memory does its work once its reads have come. -/
theorem workDone_of_apply (ha : arrayApply x vals (coreAt s core).eng = (e, [])) : WorkDone s core id ext e 0 :=
  workDone_of_stores hx hq hr hu hb h ho ha rfl

end

/-! The work of each command (R222 to R224). -/

section
variable {x : Cmd} (vals : List Nat) (e : Engines)

/-- A block as its bytes were read (R49). -/
def readBlock (f : MatFmt) (v : Nat) : SeBlock := seBlockOf (seBits f) (bytesOf (blockSize f) v)

theorem arrayApply_mzero {c : Nat} (hk : x.kind = .mzero c) : arrayApply x vals e = (setAccum e c (List.replicate 256 0), []) := by
  simp only [arrayApply, hk]

theorem arrayApply_bf16 (hk : x.kind = .mmab .bf16) : arrayApply x vals e =
    (mmabAccum (x.reg 0) ((vals.take (rowsA x).length).map bf16Row) ((vals.drop (rowsA x).length).map bf16Row) e, []) := by
  simp [arrayApply, hk]

theorem arrayApply_mmab {f : MatFmt} (hk : x.kind = .mmab f) (hf : f ≠ .bf16) : arrayApply x vals e =
    (mmabPlanesOf f (x.reg 0) ((vals.take (rowsA x).length).map (readBlock f)) ((vals.drop (rowsA x).length).map (readBlock f)) e, []) := by
  cases f with
  | bf16 => exact absurd rfl hf
  | se2 => simp only [arrayApply, hk]; rfl
  | se4 => simp only [arrayApply, hk]; rfl
  | se7 => simp only [arrayApply, hk]; rfl

theorem arrayApply_scacc {p c : Nat} {f : MatFmt} (hk : x.kind = .scacc p c) (hf : partStateOf e p = .full f) : arrayApply x vals e =
    (scaccApply f p c (vals.take (rowsA x).length) (vals.drop (rowsA x).length) e, []) := by
  simp [arrayApply, hk, hf]

theorem arrayApply_mload {c : Nat} {f : Fmt} (hk : x.kind = .mload c) (hf : tileFmt x.va = some f) : arrayApply x vals e =
    (mloadApply c f ((tileElems x.va (x.reg 2) (x.reg 3)).zip vals) e, []) := by
  simp [arrayApply, hk, hf]

theorem arrayApply_mstore {c : Nat} (hk : x.kind = .mstore c) : arrayApply x vals e = (e, mstoreTile c x e) := by
  simp [arrayApply, hk]

end

/-- Settles O23: planes and accumulators by the lemma of each product; a command by what its turn and its reads find, and where they have
come by the work of its kind. -/
theorem arrayWork : Obligations.ArrayWork := by
  refine ⟨⟨blockProduct_eq_sum, fun f p as bs e hf hp => mmabPlanesOf_one_spec hf hp as bs e,
    fun p as bs e hp => mmabPlanesOf_two_spec hp as bs e, fun c as bs e hc => mmabAccum_spec hc as bs e,
    fun f p c ea eb e hp hc => scaccApply_spec f hp hc ea eb e⟩, fun s core id x ext hx hq => ?_⟩
  refine ⟨idle_arrayCommandRun hx hq ext, fun hr l hk => ?voided, fun hr hu => ?array⟩
  case voided =>
    have hl : planesLost x = l := by simp [planesLost, hk]
    exact ⟨_, exec_arrayCommandRun_voided hx hq ext hr hk, hl ▸ haltCmd_spec hx⟩
  case array =>
    have hrun := exec_arrayCommandRun_array hx hq ext hr hu
    refine ⟨fun p c hk hf => by rw [hrun, runArray_bad (arrayBad_of_not_full hk hf)],
      fun hb => ⟨?missing, ?held, ?fail, ?spent, ?done⟩⟩
    case missing => exact fun s1 h => by rw [Idle, hrun, runArray_missing hb h]
    case held => exact fun c a s1 h => by rw [hrun, runArray_held hb h]
    case fail => exact fun f s1 h => by rw [hrun, runArray_fail hb h]
    case spent => exact fun vals s1 h ho => by rw [Idle, hrun, runArray_overBudget hb h ho]
    case done =>
      intro vals s1 h ho
      have work : ∀ e, arrayApply x vals (coreAt s core).eng = (e, []) → ∃ t y, exec (.arrayCommandRun core id ext) s = .next t ∧
          PlanesAre s t core e ∧ cmdAt t core id = some y ∧ y.phase = .running ∧ y.unread = false := fun e ha => by
        obtain ⟨t, y, ht, hp, hy, hph, hun, -⟩ := workDone_of_apply hx hq hr hu hb h ho ha
        exact ⟨t, y, ht, hp, hy, hph, hun⟩
      refine ⟨fun c hk => work _ (arrayApply_mzero vals _ hk), fun hk => work _ (arrayApply_bf16 vals _ hk),
        fun f hk hf => work _ (arrayApply_mmab vals _ hk hf), fun p c f hk hf => work _ (arrayApply_scacc vals _ hk hf),
        fun c f hk hf => work _ (arrayApply_mload vals _ hk hf), fun c l s2 hk hs => ?_⟩
      obtain ⟨t, y, ht, hp, hy, hph, -, hn⟩ := workDone_of_stores hx hq hr hu hb h ho (arrayApply_mstore vals _ hk) hs
      exact ⟨t, y, ht, hp, hy, hph, hn⟩

end Sys2Proof.Proofs
end

section
/-!
PROOF. Instruction words: what a word decodes to, and the round trip of every instruction (R58, R64, R67 to R71, R74).
-/
set_option linter.constructorNameAsVariable false
namespace Sys2Proof.Proofs
open Sys2Proof.Machine Sys2Proof.Safety Sys2Proof.Laws

/-- What a word decodes to (R74): the candidate that its fields name, well-formed, whose word it is. -/
theorem decodeWord_eq_ok {w : Word64} {i : Instr} :
    decodeWord w = .ok i ↔ candidate w = .ok i ∧ i.wf = true ∧ i.encode = some w := by
  refine ⟨fun h => ?_, fun ⟨hc, hw, he⟩ => decode_of_candidate hc hw he⟩
  unfold decodeWord at h
  split at h
  · cases h
  · next x hx =>
    split at h
    · cases h
    · next hr =>
      split at h
      · next he =>
        cases h
        exact ⟨hx, by simp [Instr.wf, hr], he⟩
      · cases h

/-- Settles O53, by the round trip of each instruction, group by group in the order of the opcode map. -/
theorem decodeEncode : Obligations.DecodeEncode := fun i => i.casesOn (motive := RoundTrip.Statement)
  -- 0x0 integer (R128, R129)
  RoundTrip.add RoundTrip.sub RoundTrip.addc RoundTrip.subb RoundTrip.mul RoundTrip.mulh RoundTrip.mad RoundTrip.neg RoundTrip.abs
  RoundTrip.min RoundTrip.max RoundTrip.addd RoundTrip.subd RoundTrip.mulw RoundTrip.sad RoundTrip.dot4 RoundTrip.addi RoundTrip.ldi
  -- 0x1 logic, shift, bit (R130, R131)
  RoundTrip.and RoundTrip.or RoundTrip.xor RoundTrip.andn RoundTrip.not RoundTrip.shl RoundTrip.shr RoundTrip.sar RoundTrip.rol
  RoundTrip.shld RoundTrip.shrd RoundTrip.clz RoundTrip.popc RoundTrip.brev RoundTrip.bfx RoundTrip.bfi RoundTrip.perm RoundTrip.andi
  RoundTrip.ori RoundTrip.xori
  -- 0x2 compare, select, move (R132, R133, R134)
  RoundTrip.cmp RoundTrip.cmps RoundTrip.sel RoundTrip.mov RoundTrip.movs RoundTrip.sets RoundTrip.pand RoundTrip.por RoundTrip.pxor
  RoundTrip.pnot RoundTrip.pset RoundTrip.pmov
  -- 0x3 FP32 (R150 to R154)
  RoundTrip.fadd RoundTrip.fsub RoundTrip.fmul RoundTrip.ffma RoundTrip.fmin RoundTrip.fmax RoundTrip.fcmp RoundTrip.fclass RoundTrip.frcp
  RoundTrip.frsq RoundTrip.fsqrt RoundTrip.fdiv RoundTrip.fexp2 RoundTrip.flog2 RoundTrip.fsin RoundTrip.fcos RoundTrip.ftanh
  RoundTrip.fscale RoundTrip.ffrac RoundTrip.frnd
  -- 0x4 packed (R155, R156)
  RoundTrip.hadd2 RoundTrip.hmul2 RoundTrip.hfma2 RoundTrip.hmin2 RoundTrip.hmax2 RoundTrip.hdot2
  -- 0x5 convert (R157 to R160)
  RoundTrip.cvt RoundTrip.pack2 RoundTrip.split2 RoundTrip.pack4 RoundTrip.split4
  -- 0x6 control (R135 to R143)
  RoundTrip.bra RoundTrip.jmpi RoundTrip.call RoundTrip.calli RoundTrip.ret RoundTrip.relcall RoundTrip.tjoin RoundTrip.tend
  RoundTrip.exit RoundTrip.nop RoundTrip.yieldI RoundTrip.progress
  -- 0x7 cell and grid (R146, R110, R125, R108)
  RoundTrip.step RoundTrip.migrate RoundTrip.dqpush RoundTrip.dqpop RoundTrip.park
  -- 0x8 memory (R189 to R192)
  RoundTrip.ld RoundTrip.st RoundTrip.ldx RoundTrip.stx RoundTrip.pref RoundTrip.vset RoundTrip.vget RoundTrip.vld
  -- 0x9 atomics, keeper (R193 to R199)
  RoundTrip.atom RoundTrip.atomr RoundTrip.cas RoundTrip.kcas2 RoundTrip.kenq RoundTrip.kdeq RoundTrip.kchase RoundTrip.kchunk
  -- 0xA synchronisation (R259, R260, R201)
  RoundTrip.fence RoundTrip.bar RoundTrip.bara RoundTrip.barw RoundTrip.sarm RoundTrip.swait RoundTrip.sadd
  -- 0xB engines (R209 to R231)
  RoundTrip.copy RoundTrip.copym RoundTrip.mmab RoundTrip.scacc RoundTrip.mload RoundTrip.mstore RoundTrip.mzero RoundTrip.tmma
  RoundTrip.drun RoundTrip.ecan
  -- 0xC launch, task (R90, R95)
  RoundTrip.trig RoundTrip.spawn
  -- 0xD system (R284 to R292, R306, R325)
  RoundTrip.trap RoundTrip.svc RoundTrip.eret RoundTrip.segset RoundTrip.segget RoundTrip.tlbinv RoundTrip.shoot RoundTrip.ldio
  RoundTrip.stio RoundTrip.ctxsave RoundTrip.ctxload RoundTrip.idle RoundTrip.ckpt RoundTrip.ckptRb RoundTrip.setperf
  -- the steps of the machine, which have no word
  RoundTrip.relcallRelease RoundTrip.tendComplete RoundTrip.exitDrainEnd RoundTrip.stepCommit RoundTrip.migrateMove
  RoundTrip.dqEntryReleased RoundTrip.parkSelf RoundTrip.kchaseHop RoundTrip.keeperOperation RoundTrip.atomicAtHome
  RoundTrip.barrierInstanceComplete RoundTrip.syncWordOperation RoundTrip.swaitReturn RoundTrip.copyCommandRun RoundTrip.copySegmentLanded
  RoundTrip.copymFollowOnPlace RoundTrip.arrayCommandRun RoundTrip.engineCommandComplete RoundTrip.engineHeldFaultResume
  RoundTrip.docentProgramStart RoundTrip.docentYieldPoint RoundTrip.docentEnd RoundTrip.docentMmab RoundTrip.docentScacc
  RoundTrip.docentMzero RoundTrip.docentMload RoundTrip.docentMstore RoundTrip.docentCopy RoundTrip.docentLoop RoundTrip.docentSetl
  RoundTrip.docentSignal RoundTrip.continuationAccept RoundTrip.taskCellStart RoundTrip.accessionWatchdogExpiry RoundTrip.svcComplete
  RoundTrip.shootdownComplete RoundTrip.idleWake RoundTrip.clauseFetch RoundTrip.clauseCacheFill RoundTrip.pick RoundTrip.gangSwap
  RoundTrip.neighbourReadArrival RoundTrip.neighbourReadResume RoundTrip.parkTransferEnd RoundTrip.loadComplete RoundTrip.storePerformed
  RoundTrip.prefLineArrival RoundTrip.tlbWalkFill RoundTrip.asyncFaultTake RoundTrip.ringRecordWrite RoundTrip.actReplay
  RoundTrip.actDeliver RoundTrip.actAbandon RoundTrip.stopactTerminate RoundTrip.stopactResume RoundTrip.stopactResumeDeliver
  RoundTrip.contextSwitchOut RoundTrip.contextRestore RoundTrip.docentOverrunExpiry RoundTrip.watchdogNoProgress
  RoundTrip.watchdogNoRetire RoundTrip.notifyRegisterWrite RoundTrip.packetAccept RoundTrip.launchPlacement RoundTrip.launchStart
  RoundTrip.dependantFail RoundTrip.markerComplete RoundTrip.launchCompletion RoundTrip.causalPacketSend RoundTrip.clockPacketArrival
  RoundTrip.baseAckArrival RoundTrip.sequencedPacketArrival RoundTrip.readRequestArrival RoundTrip.horizonQueryAnswer
  RoundTrip.horizonAnswerArrival RoundTrip.nackReceipt RoundTrip.nackResend RoundTrip.beaconArrival RoundTrip.beaconAckArrival
  RoundTrip.finalHorizonArrival RoundTrip.fieldDeath RoundTrip.causalReset RoundTrip.linkAckTimeout RoundTrip.flitCrcFail
  RoundTrip.moduleTimeout RoundTrip.podTimeout RoundTrip.poisonRead RoundTrip.peerRequestArrival RoundTrip.peerAckArrival
  RoundTrip.rangeEntryWrite RoundTrip.spanNeighbourRead RoundTrip.spanStepReport RoundTrip.podBarrierCount RoundTrip.clientRmaWrite
  RoundTrip.clientRmaRead RoundTrip.reqWrite RoundTrip.heatWrite RoundTrip.evenThreshWrite RoundTrip.flitEnqueue RoundTrip.flitStart
  RoundTrip.ringLock RoundTrip.ringParkEnd RoundTrip.ringLockTimeout RoundTrip.heaterRetune RoundTrip.byteBudgetInterval
  RoundTrip.perfIntervalBoundary RoundTrip.perfStepSettle RoundTrip.evictionGo RoundTrip.evictionAbort RoundTrip.lrpWrite
  RoundTrip.evictionQuiesced RoundTrip.evictionTransferred RoundTrip.evictionTimeout RoundTrip.circuitUp RoundTrip.fieldDrainCommand
  RoundTrip.fieldForcedOffline RoundTrip.fieldReturnOnline RoundTrip.fieldDrainComplete RoundTrip.appraiserReplay
  RoundTrip.appraiserSuspectClear RoundTrip.checkpointDue RoundTrip.checkpointDuePop RoundTrip.ioRegisterWrite RoundTrip.moduleReset
  RoundTrip.bootImageVerify RoundTrip.pldmFirmwareUpdate RoundTrip.spdmGetCertificate RoundTrip.spdmChallenge
  RoundTrip.spdmGetMeasurements RoundTrip.gangSwapEnd RoundTrip.migrationResume RoundTrip.heldFetchServiced
  RoundTrip.processorPageServiced RoundTrip.queueRestart RoundTrip.serviceChannelMessage RoundTrip.flitCreditReturn
  RoundTrip.restripeMarkerArrival RoundTrip.latchOpen RoundTrip.linkReadmit

end Sys2Proof.Proofs
end

section
/-!
PROOF. Clauses: where a transfer instruction may stand, and the slot that a fault of a clause names (R63, R74).
-/
set_option linter.constructorNameAsVariable false
namespace Sys2Proof.Proofs
open Sys2Proof.Machine Sys2Proof.Safety Sys2Proof.Laws

/-- A computation answers where its first part does and the rest answers for what that gave. -/
theorem bind_eq_ok {ε α β : Type} {x : Except ε α} {f : α → Except ε β} {b : β} :
    x >>= f = .ok b ↔ ∃ a, x = .ok a ∧ f a = .ok b := by
  cases x <;> simp [bind, Except.bind]

/-- The candidates of the control group are transfer instructions (R63, R135). -/
theorem isTransfer_of_candControl {w : Word64} {c : Common} {n : Nat} {i : Instr} (h : candControl w c n = .ok i) :
    i.isTransfer = true := by
  unfold candControl at h
  split at h
  all_goals simp only [bind_eq_ok, pure, Except.pure, Except.ok.injEq, reduceCtorEq] at h
  case h_1 | h_7 | h_8 | h_9 | h_10 | h_11 | h_12 => subst h; rfl
  case h_2 | h_3 | h_5 => obtain ⟨_, -, rfl⟩ := h; rfl
  case h_4 | h_6 => obtain ⟨_, -, _, -, rfl⟩ := h; rfl

/-- A word of the control group decodes to a transfer instruction (R63). -/
theorem isTransfer_of_control {w : Word64} {i : Instr} (hg : w.extractLsb' 60 4 = 6#4) (h : decodeWord w = .ok i) :
    i.isTransfer = true := by
  obtain ⟨hc, -, -⟩ := decodeWord_eq_ok.1 h
  unfold candidate at hc
  rw [hg] at hc
  exact isTransfer_of_candControl hc

/-- A transfer instruction before the last slot breaks R63. -/
theorem slotBad_of_transfer {x : Instr} (hx : x.isTransfer = true) (h : Header) {n i : Nat} (is : List Instr) (hi : i + 1 < n) :
    slotBad h n is i x = true := by
  have hn : i + 1 ≠ n := by omega
  simp [slotBad, hx, hn]

/-- A word that decodes is among the decoded slots, unless decoding ended before it. -/
theorem decodeSlots_get {ws : List Word64} {k : Nat} {w : Word64} {i : Instr} (hk : ws[k]? = some w) (hw : decodeWord w = .ok i) :
    (decodeSlots ws).1[k]? = some i ∨ ((decodeSlots ws).2 = false ∧ (decodeSlots ws).1.length ≤ k) := by
  induction ws generalizing k with
  | nil => simp at hk
  | cons x r ih =>
    cases hx : decodeWord x with
    | error e => exact .inr (by simp [decodeSlots, hx])
    | ok y =>
      cases k with
      | zero =>
        obtain rfl : x = w := by simpa using hk
        exact .inl (by simpa [decodeSlots, hx] using hw)
      | succ k => simpa [decodeSlots, hx] using ih (k := k) (by simpa using hk)

/-- A search for the first index that meets `p` ends at an index that meets it, or before. -/
theorem findSome?_zipIdx_le {α : Type} {p : Nat → α → Bool} {l : List α} {k n : Nat} {x : α} (hk : l[k]? = some x)
    (hp : p (n + k) x = true) :
    ∃ j, ((l.zipIdx n).findSome? fun e => if p e.2 e.1 then some e.2 else none) = some j ∧ j ≤ n + k := by
  induction l generalizing k n with
  | nil => simp at hk
  | cons a r ih =>
    by_cases ha : p n a = true
    · exact ⟨n, by simp [ha], by omega⟩
    · cases k with
      | zero =>
        obtain rfl : a = x := by simpa using hk
        exact absurd hp ha
      | succ k =>
        obtain ⟨j, hj, hle⟩ := ih (n := n + 1) (k := k) (by simpa using hk) (by rwa [show n + 1 + k = n + (k + 1) by omega])
        exact ⟨j, by simp [ha, hj], by omega⟩

/-- A slot that breaks a check makes its clause illegal, at that slot or an earlier one (R74). -/
theorem clauseFault_of_slotBad {hw : Word64} {ws : List Word64} {h : Header} {k : Nat} {x : Instr} (hh : Header.decode hw = some h)
    (hk : (decodeSlots ws).1[k]? = some x) (hb : slotBad h ws.length (decodeSlots ws).1 k x = true) :
    ∃ j, clauseFault hw ws = some j ∧ j ≤ k := by
  obtain ⟨j, hj, hle⟩ := findSome?_zipIdx_le (p := slotBad h ws.length (decodeSlots ws).1) (n := 0) hk (by simpa using hb)
  exact ⟨j, by simp only [clauseFault, hh, hj], by omega⟩

/-- A word that is no instruction makes its clause illegal, at its slot or an earlier one (R74). -/
theorem clauseFault_of_undecoded {hw : Word64} {ws : List Word64} {h : Header} (hh : Header.decode hw = some h)
    (hs : (decodeSlots ws).2 = false) : ∃ j, clauseFault hw ws = some j ∧ j ≤ (decodeSlots ws).1.length := by
  unfold clauseFault
  simp only [hh, hs]
  split
  · next j hj =>
    obtain ⟨⟨x, n⟩, hm, hn⟩ := List.exists_of_findSome?_eq_some hj
    have hlt := List.snd_lt_of_mem_zipIdx hm
    obtain ⟨-, rfl⟩ : _ ∧ n = j := by simpa using hn
    exact ⟨n, rfl, by simpa using hlt.le⟩
  · exact ⟨_, rfl, le_rfl⟩

/-- Settles O56: the group's candidates are transfer instructions, and one before the last slot breaks R63; where decoding ended before
it, the slot of the word that is no instruction comes first. -/
theorem transfersStandLast : Obligations.TransfersStandLast := by
  intro hw ws k w i hk hlast hdec hkind
  have hx : i.isTransfer = true := by
    obtain hg | ⟨c, n, rfl⟩ | ⟨c, n, rfl⟩ | ⟨c, rfl⟩ := hkind
    · exact isTransfer_of_control hg hdec
    · rfl
    · rfl
    · rfl
  cases hh : Header.decode hw with
  | none => exact ⟨15, by simp [clauseFault, hh], .inr rfl⟩
  | some h =>
    obtain hs | ⟨hs, hle⟩ := decodeSlots_get hk hdec
    · obtain ⟨j, hj, hjk⟩ := clauseFault_of_slotBad hh hs (slotBad_of_transfer hx h _ hlast)
      exact ⟨j, hj, .inl hjk⟩
    · obtain ⟨j, hj, hjk⟩ := clauseFault_of_undecoded hh hs
      exact ⟨j, hj, .inl (hjk.trans hle)⟩

end Sys2Proof.Proofs
end

section
/-!
PROOF. Headers, and words of the manual (R58, R128, R130, R132, R134, R135).
-/
set_option linter.constructorNameAsVariable false
namespace Sys2Proof.Proofs
open Sys2Proof.Machine Sys2Proof.Safety Sys2Proof.Laws

@[simp] theorem eclass_ofCode_code (e : EClass) : EClass.ofCode e.code = e := by cases e <;> rfl

theorem header_field (h : Header) (lo n : Nat) : h.encode.extractLsb' lo n = BitVec.extractLsb' (n := 4 + 4 + 2 + 2 + 6 + 1 + 45) lo n
    (12#4 ++ h.count ++ h.cls ++ h.eng.code ++ h.wait ++ BitVec.ofBool h.yield ++ 0#45) := rfl

/-- A header is read back from its word (R58). -/
theorem header_decode_encode (h : Header) : Header.decode h.encode = some h := by
  obtain ⟨count, cls, eng, wait, yield⟩ := h
  simp only [Header.decode, f2, f4, f6, bit_eq, header_field]
  simp (disch := omega) only [extract_low, extract_high, extract_all, -Nat.reduceAdd, Nat.reduceSub]
  simp

/-- The words that are headers: those with the marker and zero reserved bits (R58). -/
theorem header_decode_isSome (w : Word64) :
    (Header.decode w).isSome = true ↔ w.extractLsb' 60 4 = 12#4 ∧ w.extractLsb' 0 45 = 0#45 := by
  unfold Header.decode
  split <;> simp_all

/-- Settles O54: headers field by field; the words of the manual by running the decoder. -/
theorem wordsAndHeaders : Obligations.WordsAndHeaders :=
  ⟨fun h w => ⟨header_decode_encode h, header_decode_isSome w⟩, by decide⟩

end Sys2Proof.Proofs
end

section
/-!
PROOF. Immediates: a small integer is rounded to itself in every floating format (R40, R66).
-/
set_option linter.constructorNameAsVariable false
namespace Sys2Proof.Proofs
open Sys2Proof.Machine Sys2Proof.Safety Sys2Proof.Laws

@[simp] theorem bitLenAux_zero (fuel : Nat) : bitLenAux fuel 0 = 0 := by cases fuel <;> rfl

/-- A number from 2^k to 2^(k+1) has k + 1 bits. -/
theorem bitLenAux_eq {fuel k m : Nat} (hf : k < fuel) (hlo : 2 ^ k ≤ m) (hhi : m < 2 ^ (k + 1)) : bitLenAux fuel m = k + 1 := by
  induction fuel generalizing k m with
  | zero => omega
  | succ fuel ih =>
    have hm : m ≠ 0 := by have := Nat.two_pow_pos k; omega
    cases k with
    | zero =>
      obtain rfl : m = 1 := by simp at hlo hhi; omega
      simp [bitLenAux]
    | succ k =>
      rw [pow_succ] at hlo hhi
      rw [bitLenAux, if_neg (by simpa using hm), ih (k := k) (by omega) (by omega) (by omega), Nat.add_comm]

/-- The significand of a number from 2^k to 2^(k+1), shifted so that its leading one is the hidden bit above fb fraction bits. -/
theorem hiddenBit_bounds {k m fb : Nat} (hk : k ≤ fb) (hlo : 2 ^ k ≤ m) (hhi : m < 2 ^ (k + 1)) :
    2 ^ fb ≤ m * 2 ^ (fb - k) ∧ m * 2 ^ (fb - k) < 2 ^ (fb + 1) := by
  have hpos := Nat.two_pow_pos (fb - k)
  constructor
  · calc 2 ^ fb = 2 ^ k * 2 ^ (fb - k) := by rw [← pow_add]; congr 1; omega
      _ ≤ m * 2 ^ (fb - k) := Nat.mul_le_mul_right _ hlo
  · calc m * 2 ^ (fb - k) < 2 ^ (k + 1) * 2 ^ (fb - k) := Nat.mul_lt_mul_of_pos_right hhi hpos
      _ = 2 ^ (fb + 1) := by rw [← pow_add]; congr 1; omega

/-- An integer of at most fb + 1 bits, within the exponent range, is rounded to itself (R40). -/
theorem round_exact (f : FFmt) (rm : Rm) (neg : Bool) {m k : Nat} (hlo : 2 ^ k ≤ m) (hhi : m < 2 ^ (k + 1)) (hk : k ≤ f.fb)
    (hf : k < 1024) (hb : 1 ≤ f.bias) (he : f.bias + k < 2 ^ f.eb - 1) :
    f.round rm neg m 0 = f.signed neg ((f.bias + k) * 2 ^ f.fb + (m * 2 ^ (f.fb - k) - 2 ^ f.fb)) := by
  obtain ⟨h1, h2⟩ := hiddenBit_bounds hk hlo hhi
  have hm : (m == 0) = false := by have := Nat.two_pow_pos k; simp; omega
  have hq : max ((0 : Int) + (k + 1 : Nat) - (f.fb + 1)) f.emin = (k : Int) - f.fb := by simp only [FFmt.emin]; omega
  have hs : ((0 : Int) - (k - f.fb)).toNat = f.fb - k := by omega
  have hx : ((k : Int) - f.fb - f.emin + 1).toNat = f.bias + k := by simp only [FFmt.emin]; omega
  unfold FFmt.round
  simp only [hm, bitLen, bitLenAux_eq hf hlo hhi, hq, hs]
  rw [if_pos (show (k : Int) - f.fb ≤ 0 by omega)]
  simp [h2.ne, Nat.not_lt.2 h1, hx, Nat.not_le.2 he]

/-- A pattern put together of a sign, an exponent and a fraction that fit their fields fits the format (R37, R42). -/
theorem pattern_lt {eb fb e fr : Nat} (neg : Prop) [Decidable neg] (he : e < 2 ^ eb) (hf : fr < 2 ^ fb) :
    (if neg then 2 ^ (eb + fb) else 0) + e * 2 ^ fb + fr < 2 ^ (1 + eb + fb) := by
  have hle : (e + 1) * 2 ^ fb ≤ 2 ^ eb * 2 ^ fb := Nat.mul_le_mul_right _ he
  have hw : 2 ^ (1 + eb + fb) = 2 ^ (eb + fb) + 2 ^ (eb + fb) := by rw [← Nat.two_mul, ← pow_succ']; congr 1; omega
  rw [← pow_add, Nat.succ_mul] at hle
  rw [hw]
  split <;> omega

/-- The exponent of a number below 2^8 is within a format of at least 5 exponent bits. -/
theorem exponent_lt {eb k : Nat} (heb : 5 ≤ eb) (hk : k < 8) : 1 ≤ 2 ^ (eb - 1) - 1 ∧ 2 ^ (eb - 1) - 1 + k < 2 ^ eb - 1 := by
  have hexp : 2 ^ eb = 2 * 2 ^ (eb - 1) := by rw [← pow_succ']; congr 1; omega
  have hbig : 2 ^ 4 ≤ 2 ^ (eb - 1) := Nat.pow_le_pow_right (by omega) (by omega)
  omega

/-- The pattern of an immediate: sign, exponent of its leading one, and the bits below it (R66). -/
theorem immFloat_eq {f : FFmt} {i : BitVec 8} {k : Nat} (hfb : 7 ≤ f.fb) (heb : 5 ≤ f.eb) (hk : k < 8)
    (hlo : 2 ^ k ≤ i.toInt.natAbs) (hhi : i.toInt.natAbs < 2 ^ (k + 1)) :
    immFloat f i = (if i.toInt < 0 then 2 ^ (f.eb + f.fb) else 0) + (2 ^ (f.eb - 1) - 1 + k) * 2 ^ f.fb +
      (i.toInt.natAbs * 2 ^ (f.fb - k) - 2 ^ f.fb) := by
  obtain ⟨hb, he⟩ := exponent_lt heb hk
  rw [immFloat, round_exact f .rne i.msb hlo hhi (by omega) (by omega) hb he, BitVec.msb_eq_toInt]
  simp [FFmt.signed, FFmt.signBit, FFmt.bias, Nat.add_assoc]

/-- An immediate is exact in every format with at least 7 fraction and 5 exponent bits (R66). -/
theorem isSmall_imm (f : FFmt) (hfb : 7 ≤ f.fb) (heb : 5 ≤ f.eb) (i : BitVec 8) :
    IsSmall f.eb f.fb (if i == 0 then 0 else immFloat f i) i.toInt := by
  by_cases hi : i = 0#8
  · subst hi; exact ⟨fun _ => rfl, fun h => absurd rfl h⟩
  have h0 : i.toInt ≠ 0 := fun h => hi (BitVec.eq_of_toInt_eq h)
  have hm : i.toInt.natAbs ≠ 0 := by omega
  have hk : i.toInt.natAbs.log2 < 8 := (Nat.log2_lt hm).2 (by have := i.le_toInt; have := i.toInt_lt; omega)
  have hlo := Nat.log2_self_le hm
  have hhi := Nat.lt_log2_self (n := i.toInt.natAbs)
  obtain ⟨h1, h2⟩ := hiddenBit_bounds (fb := f.fb) (by omega) hlo hhi
  have hfr : i.toInt.natAbs * 2 ^ (f.fb - i.toInt.natAbs.log2) - 2 ^ f.fb < 2 ^ f.fb := by rw [pow_succ] at h2; omega
  have hx := immFloat_eq hfb heb hk hlo hhi
  rw [if_neg (by simpa using hi)]
  refine ⟨fun h => absurd h h0, fun _ => ⟨?_, _, _, hfr, ?_, hx⟩⟩
  · rw [hx]
    exact pattern_lt _ (by have := (exponent_lt heb hk).2; omega) hfr
  · rw [Nat.add_sub_cancel' h1, Nat.mul_assoc, ← pow_add, Nat.sub_add_cancel (by omega)]

/-- A packed position reads the value of an immediate in both elements (R66). -/
theorem readSrc_imm_packed (s : State) (m : Member) (bf : Bool) (i : BitVec 8) :
    let x := if i == 0 then 0 else immFloat (.packed bf) i
    readSrc s m (.packed bf) (.imm i) = .val (BitVec.ofNat 64 (x + 2 ^ 16 * x)) := by
  show Rd.val (BitVec.ofNat 64 (if i == 0 then 0 else immFloat (.packed bf) i * 65537)) = _
  congr 2
  split <;> omega

/-- Settles O55: the integer types by sign extension, the floating ones by exact rounding. -/
theorem immediateOperands : Obligations.ImmediateOperands := fun s m i =>
  ⟨rfl, rfl, ⟨_, rfl, isSmall_imm .fp32 (by decide) (by decide) i⟩,
    ⟨_, readSrc_imm_packed s m false i, isSmall_imm .fp16 (by decide) (by decide) i⟩,
    ⟨_, readSrc_imm_packed s m true i, isSmall_imm .bf16 (by decide) (by decide) i⟩⟩

end Sys2Proof.Proofs
end

section
/-!
PROOF. MIGRATE (R109, R110): the field that an address asks for, and the annex slot that is reserved there.
-/
set_option linter.constructorNameAsVariable false
namespace Sys2Proof.Proofs
open Sys2Proof.Machine Sys2Proof.Safety

theorem mem_of_tabGet {α : Type} {t : Tab α} {k : Nat} {v : α} (h : tabGet t k = some v) : (k, v) ∈ t := by
  induction t with
  | nil => cases h
  | cons e r ih =>
    unfold tabGet at h
    split at h
    · next hk => cases h; subst hk; exact List.mem_cons_self
    · exact List.mem_cons_of_mem _ (ih h)

/-- What is put again where it stands brings no entry and takes none. -/
theorem mem_tabPut_of_tabGet {α : Type} {t : Tab α} {k : Nat} {v : α} (h : tabGet t k = some v) (e : Nat × α) :
    e ∈ tabPut t k v ↔ e ∈ t := by
  induction t with
  | nil => cases h
  | cons a r ih =>
    have hm := mem_of_tabGet h
    unfold tabGet at h
    unfold tabPut
    split
    · rw [List.mem_cons, or_iff_right_of_imp fun he => he ▸ hm]
    · split
      · next hk =>
        rw [if_pos hk.symm] at h
        cases h
        rw [hk]
      · next hk =>
        rw [if_neg (Ne.symm hk)] at h
        rw [List.mem_cons, List.mem_cons, ih h]

/-- A change of a member to what it is brings no member and takes none. -/
theorem mem_members_updMember {s : State} {id : Nat} {m : Member} {f : Member → Member} (h : memberAt s id = some m) (hf : f m = m)
    (e : Nat × Member) : e ∈ (updMember s id f).members ↔ e ∈ s.members := by
  have h' : tabGet s.members id = some m := h
  simp only [updMember, tabUpd, h', hf]
  exact mem_tabPut_of_tabGet h' e

/-- Two states that have the same members, contexts and launches: annex slots and context numbers are open in one as in the other. -/
structure SameOccupants (s t : State) : Prop where
  members : ∀ e, e ∈ t.members ↔ e ∈ s.members
  ctxs : t.ctxs = s.ctxs
  launches : t.launches = s.launches

theorem any_congr_mem {α : Type} {l r : List α} (h : ∀ e, e ∈ l ↔ e ∈ r) (p : α → Bool) : l.any p = r.any p := by
  rw [Bool.eq_iff_iff, List.any_eq_true, List.any_eq_true]
  exact exists_congr fun e => and_congr_left fun _ => h e

theorem SameOccupants.freeAnnex_eq {s t : State} (h : SameOccupants s t) (core : Nat) : freeAnnex t core = freeAnnex s core :=
  List.filter_congr fun _ _ => congrArg not (any_congr_mem h.members _)

theorem SameOccupants.comingTo_perm {s t : State} (h : SameOccupants s t) (core : Nat) : (comingTo t core).Perm (comingTo s core) := by
  refine (List.perm_ext_iff_of_nodup ((List.nodup_dedup _).filter _) ((List.nodup_dedup _).filter _)).mpr fun l => ?_
  simp only [List.mem_filter, List.mem_dedup, List.mem_map, h.members, ctxAt, h.ctxs]

theorem SameOccupants.numberOpen_eq {s t : State} (h : SameOccupants s t) (launch core : Nat) :
    numberOpen t launch core = numberOpen s launch core := by
  have hc : ctxsOf t core = ctxsOf s core := by simp only [ctxsOf, h.ctxs]
  unfold numberOpen
  rw [((h.comingTo_perm core).filter _).length_eq, hc]

theorem SameOccupants.annexOpen_eq {s t : State} (h : SameOccupants s t) (launch core : Nat) :
    annexOpen t launch core = annexOpen s launch core := by
  unfold annexOpen
  rw [h.freeAnnex_eq, h.numberOpen_eq]
  simp only [ctxAt, launchAt, h.ctxs, h.launches]

/-- A field takes a cell that migrates (R109 to R111): another field than its own, online and not blocked by a drain, with a core that has
an annex slot for its launch. -/
def TakesCell (s : State) (m : Member) (f : Nat) : Prop :=
  f ≠ m.core / 64 ∧ isOnline s f = true ∧ (fieldAt s f).state ≠ .drainBlocked ∧ ∃ g, g / 64 = f ∧ annexOpen s m.launch g = true

theorem mem_coresOf (f g : Nat) : g ∈ coresOf f ↔ g / 64 = f := by
  simp only [coresOf, List.mem_map, List.mem_range]
  refine ⟨?_, fun h => ⟨g % 64, by omega, by omega⟩⟩
  rintro ⟨i, hi, rfl⟩
  omega

/-- The core that is chosen in a field lies there and has an annex slot to give (R93, R110). -/
theorem annexCore_eq_some {s : State} {launch f pa g : Nat} (h : annexCore s launch f pa = some g) :
    g / 64 = f ∧ annexOpen s launch g = true := by
  unfold annexCore at h
  simp only at h
  split at h
  · next c hc =>
    cases h
    split at hc
    · split at hc
      · next ho => simpa [fieldOf, Option.some.inj hc] using ho
      · cases hc
    · cases hc
  · simpa [mem_coresOf] using mem_of_bestBy h

/-- A field in which a core has an annex slot to give has one to choose (R110). -/
theorem annexCore_isSome {s : State} {launch f g : Nat} (pa : Nat) (hg : g / 64 = f) (ho : annexOpen s launch g = true) :
    ∃ c, annexCore s launch f pa = some c := by
  refine Option.ne_none_iff_exists'.mp fun h => ?_
  unfold annexCore at h
  simp only at h
  split at h
  · cases h
  · have hm : g ∈ (coresOf f).filter (annexOpen s launch) := List.mem_filter.mpr ⟨(mem_coresOf f g).mpr hg, ho⟩
    rw [bestBy_eq_none.mp h] at hm
    cases hm

/-- One of a list that is not empty is chosen (log 6). -/
theorem chooseFrom_mem (s : State) {l : List Nat} (h : l ≠ []) : ∃ n ∈ l, chooseFrom s l = some (n, (drawFree s).2) := by
  have hi : Config.freeChoice s.sched.free % l.length < l.length := Nat.mod_lt _ (List.length_pos_iff.mpr h)
  refine ⟨l[Config.freeChoice s.sched.free % l.length], List.getElem_mem hi, ?_⟩
  simp [chooseFrom, h, drawFree, List.getElem?_eq_getElem hi]

/-- The field of a target: the home of an address of this module, and none of a peer's (R96, R109). -/
def targetField (s : State) (tg : Target) : Option Nat :=
  match tg with
  | .loc pa => homeField s pa
  | .peer _ _ => none

theorem takesCells_iff (s : State) (f : Nat) : takesCells s f = true ↔ isOnline s f = true ∧ (fieldAt s f).state ≠ .drainBlocked := by
  simp [takesCells]

/-- An address whose field takes no cell brings no reservation (R109, R110). -/
theorem reserveAnnex_none {s : State} {m : Member} {tg : Target}
    (h : ∀ f, targetField s tg = some f → ¬ TakesCell s m f) :
    reserveAnnex s m tg = none := by
  unfold reserveAnnex
  cases tg with
  | peer => rfl
  | loc pa =>
    cases hf : homeField s pa with
    | none => simp [hf]
    | some f =>
      by_cases hb : (f == fieldOf m.core || !takesCells s f) = true
      · simp only [hf, hb, if_true]
      · have hn : annexCore s m.launch f (physOf s pa) = none := by
          refine Option.eq_none_iff_forall_ne_some.mpr fun g hg => h f hf ?_
          simp only [Bool.or_eq_true, beq_iff_eq, Bool.not_eq_true', not_or, Bool.not_eq_false, takesCells_iff] at hb
          exact ⟨hb.1, hb.2.1, hb.2.2, g, annexCore_eq_some hg⟩
        simp only [hf, hb, hn]
        rfl

/-- An address whose field takes the cell brings it an annex slot of a core there (R110). -/
theorem reserveAnnex_some {s : State} {m : Member} {pa f : Nat} (hf : homeField s pa = some f) (h : TakesCell s m f) :
    ∃ g n, reserveAnnex s m (.loc pa) = some (g, n, (drawFree s).2) ∧ g / 64 = f ∧ n < 8 ∧ annexOpen s m.launch g = true := by
  obtain ⟨hne, hon, hdr, g, hg, ho⟩ := h
  obtain ⟨c, hc⟩ := annexCore_isSome (physOf s pa) hg ho
  obtain ⟨hcf, hco⟩ := annexCore_eq_some hc
  have hfree : freeAnnex s c ≠ [] := by
    intro he
    simp [annexOpen, he] at hco
  obtain ⟨n, hn, hch⟩ := chooseFrom_mem s hfree
  have hn8 : n < 8 := List.mem_range.mp (List.mem_of_mem_filter hn)
  have hb : (f == fieldOf m.core || !takesCells s f) = false := by
    simp [fieldOf, hne, (takesCells_iff s f).mpr ⟨hon, hdr⟩]
  refine ⟨c, n, ?_, hcf, hn8, hco⟩
  simp [reserveAnnex, hf, hb, hc, hch]

/-- The translation of MIGRATE makes walks and nothing else (R110). -/
theorem walksOnly_migrateTarget (s : State) (ctx : Ctx) (core home : Nat) (a : Word64) :
    WalksOnly s (migrateTarget s ctx core home a).2 := by
  obtain ⟨cs, sc, h, hg⟩ := walksOnly_resolve { s with fields := [] } ctx core home false Need.none a 1
  refine ⟨cs, sc, ?_, hg⟩
  simp only [migrateTarget, h]

/-- The state in which MIGRATE decides: the address is translated, and an earlier reservation of the clause is given up (R110). -/
def migrateFrom (s : State) (k : Cur) (m : Member) (ctx : Ctx) (a : Word64) : State :=
  updMember (migrateTarget s ctx m.core m.home a).2 k.member fun v => { v with moveTo := none }

section
variable {s : State} {k : Cur} {m : Member} (hm : memberAt s k.member = some m) (hv : m.moveTo = none) (ctx : Ctx) (a : Word64)
include hm

theorem memberAt_migrateFrom : memberAt (migrateFrom s k m ctx a) k.member = some { m with moveTo := none } := by
  have h : memberAt (migrateTarget s ctx m.core m.home a).2 k.member = some m := by
    rw [memberAt, (walksOnly_migrateTarget ..).members]
    exact hm
  simp [migrateFrom, h]

include hv

/-- Where the cell had no reservation none is given up. -/
theorem sameOccupants_migrateFrom : SameOccupants s (migrateFrom s k m ctx a) := by
  obtain ⟨cs, sc, hw, -⟩ := walksOnly_migrateTarget s ctx m.core m.home a
  unfold migrateFrom
  rw [hw]
  exact ⟨mem_members_updMember (s := { s with cores := cs, sched := sc }) hm (by rw [← hv]), rfl, rfl⟩

theorem takesCell_migrateFrom (f : Nat) : TakesCell (migrateFrom s k m ctx a) m f ↔ TakesCell s m f := by
  obtain ⟨cs, sc, hw, -⟩ := walksOnly_migrateTarget s ctx m.core m.home a
  have hf : ∀ f, fieldAt (migrateFrom s k m ctx a) f = fieldAt s f := fun f => by
    simp only [migrateFrom, hw, fieldAt_updMember]
    rfl
  simp only [TakesCell, isOnline, hf, (sameOccupants_migrateFrom hm hv ctx a).annexOpen_eq]

end

theorem targetField_migrateFrom (s : State) (k : Cur) (m : Member) (ctx : Ctx) (a : Word64) (tg : Target) :
    targetField (migrateFrom s k m ctx a) tg = targetField s tg := by
  simp only [targetField, homeField, physOf, migrateFrom, updMember_mod, (walksOnly_migrateTarget ..).mod]

/-- MIGRATE of an address that resolves (R110). -/
theorem migrateDecide_ok {s : State} {k : Cur} {m : Member} {ctx : Ctx} {a : Word64} {r : Resolved} (hc : ctxAt s m.launch m.core = some ctx)
    (hr : (migrateTarget s ctx m.core m.home a).1 = .ok r) (c : Common) (d : Dst) :
    migrateDecide s k m c d a =
      match reserveAnnex (migrateFrom s k m ctx a) m r.tgt with
      | none => result (migrateFrom s k m ctx a) k c d false 0
      | some (g, n, s2) => result (updMember s2 k.member fun v => { v with moveTo := some (g, n) }) k c d false 1 := by
  unfold migrateDecide migrateFrom
  simp only [hc]
  generalize migrateTarget s ctx m.core m.home a = p at hr
  obtain ⟨t, s1⟩ := p
  cases hr
  rfl

/-- A result after a change of the cell that leaves its registers and latches. -/
theorem wrote_result {s t : State} {k : Cur} {m m' : Member} (hm : memberAt t k.member = some m') (hr : m'.r = m.r) (hl : m'.lat = m.lat)
    (ht : t.mem = s.mem) (c : Common) (d : Dst) (wide : Bool) (x : Word64) :
    SameMemory s (result t k c d wide x) ∧ ∃ v, memberAt (result t k c d wide x) k.member = some v ∧ v.moveTo = m'.moveTo ∧
      Wrote m v k.slot c.k d wide x := by
  obtain ⟨v, ho, hv, hvr, hvl, -⟩ := writes_result hm c d wide x
  refine ⟨fun b => by rw [ho.memory b, ht], v, ho.member, by rw [hv], ?_, ?_⟩
  · rw [hvr, hr, id]
  · rw [hvl, hl]

/-- What MIGRATE leaves of its cell where the address resolves: no move and 0, or the move to an annex slot of the address's field and 1
(R109, R110). -/
theorem migrate_spec {s : State} {k : Cur} {m : Member} {ctx : Ctx} {x : Word64} {r : Resolved} (hm : memberAt s k.member = some m)
    (hc : ctxAt s m.launch m.core = some ctx) (hv : m.moveTo = none) (hr : (migrateTarget s ctx m.core m.home x).1 = .ok r)
    (c : Common) (d : Dst) :
    let t := migrateDecide s k m c d x
    SameMemory s t ∧ ∃ v, memberAt t k.member = some v ∧
      ((∀ f, targetField s r.tgt = some f → ¬ TakesCell s m f) → v.moveTo = none ∧ Wrote m v k.slot c.k d false 0) ∧
      (∀ f, targetField s r.tgt = some f → TakesCell s m f →
        (∃ g n, v.moveTo = some (g, n) ∧ g / 64 = f ∧ n < 8 ∧ annexOpen s m.launch g = true) ∧ Wrote m v k.slot c.k d false 1) := by
  intro t
  have ht : t = _ := migrateDecide_ok hc hr c d
  have hfrom := memberAt_migrateFrom hm ctx x
  have hmem : (migrateFrom s k m ctx x).mem = s.mem := (walksOnly_migrateTarget ..).mem
  have hfield := targetField_migrateFrom s k m ctx x r.tgt
  have htakes := takesCell_migrateFrom hm hv ctx x
  by_cases hno : ∀ f, targetField s r.tgt = some f → ¬ TakesCell s m f
  · have hres : reserveAnnex (migrateFrom s k m ctx x) m r.tgt = none :=
      reserveAnnex_none fun f hf htk => hno f (hfield ▸ hf) ((htakes f).mp htk)
    rw [ht, hres]
    obtain ⟨hsame, v, hvm, hvt, hw⟩ := wrote_result (m := m) hfrom rfl rfl hmem c d false 0
    exact ⟨hsame, v, hvm, fun _ => ⟨hvt, hw⟩, fun f hf htk => absurd htk (hno f hf)⟩
  · obtain ⟨f, hf, htk⟩ : ∃ f, targetField s r.tgt = some f ∧ TakesCell s m f := by simpa using hno
    obtain ⟨pa, hpa, hpf⟩ : ∃ pa, r.tgt = .loc pa ∧ homeField (migrateFrom s k m ctx x) pa = some f := by
      rw [← hfield] at hf
      cases hg : r.tgt with
      | loc pa => exact ⟨pa, rfl, by rwa [hg] at hf⟩
      | peer => rw [hg] at hf; cases hf
    obtain ⟨g, n, hres, hgf, hn, ho⟩ := reserveAnnex_some hpf ((htakes f).mpr htk)
    rw [(sameOccupants_migrateFrom hm hv ctx x).annexOpen_eq] at ho
    have hput : memberAt (updMember (drawFree (migrateFrom s k m ctx x)).2 k.member fun v => { v with moveTo := some (g, n) }) k.member =
        some { m with moveTo := some (g, n) } := by
      rw [memberAt_updMember_same, memberAt_drawFree, hfrom]
      rfl
    rw [← hpa] at hres
    rw [ht, hres]
    obtain ⟨hsame, v, hvm, hvt, hw⟩ := wrote_result (m := m) hput rfl rfl hmem c d false 1
    refine ⟨hsame, v, hvm, fun h => absurd htk (h f hf), fun f' hf' _ => ?_⟩
    cases hf.symm.trans hf'
    exact ⟨⟨g, n, hvt, hgf, hn, ho⟩, hw⟩

end Sys2Proof.Proofs
end

section
/-!
PROOF. The move of a cell, and its return in its annex slot (R110, R111, R260).
-/
set_option linter.constructorNameAsVariable false
namespace Sys2Proof.Proofs
open Sys2Proof.Machine Sys2Proof.Safety

section
variable {s : State} {id g n : Nat} {m : Member} (hm : memberAt s id = some m)
include hm

/-- A cell that has drained, and for which no barrier is open, leaves its slot (R110). -/
theorem exec_migrateMove (hw : m.wait = .drain (.migrate g n)) : exec (.migrateMove id) s =
    .next (if drained m && !openBarrier s id m then updMember s id fun w => { w with place := .transit } else s) := by
  simp [exec, execMigrateMove, hm, hw]

theorem idle_migrateMove (hw : m.wait = .drain (.migrate g n)) (h : drained m = false ∨ openBarrier s id m = true) :
    Idle (.migrateMove id) s := by
  have hn : (drained m && !openBarrier s id m) = false := by
    rcases h with h | h <;> simp [h]
  rw [Idle, exec_migrateMove hm hw, hn]
  rfl

theorem exec_migrationResume (hp : m.place = .transit) (hv : m.moveTo = some (g, n)) :
    exec (.migrationResume id) s = .next (resumeMigrated s id g n m) := by
  simp [exec, execMigrationResume, hm, hp, hv]

end

/-- A context that is formed changes contexts and views alone. -/
theorem ensureCtx_rest (s : State) (launch core : Nat) :
    ensureCtx s launch core = { s with ctxs := (ensureCtx s launch core).ctxs, cores := (ensureCtx s launch core).cores } := by
  unfold ensureCtx
  split <;> rfl

/-- A migrated cell goes on in its annex slot (R110, R111, R260). -/
theorem resumeMigrated_spec {s : State} {id : Nat} {m : Member} (hm : memberAt s id = some m) (g n : Nat) :
    let t := resumeMigrated s id g n m
    SameMemory s t ∧ (∀ x, x ≠ id → memberAt t x = memberAt s x) ∧
      ∃ v, memberAt t id = some v ∧ v.core = g ∧ v.home = m.home ∧ v.place = .annex n ∧ v.moveTo = none ∧ v.r = m.r ∧
        v.pc = m.pc ∧ v.done = m.done ∧ v.pub0 = m.pub0 ∧ v.pub1 = m.pub1 ∧ v.arrivals = m.arrivals ∧
        v.base0[1] = m.arrivals[1].toNat ∧ v.base0[2] = m.arrivals[2].toNat ∧ v.base0[3] = m.arrivals[3].toNat := by
  have hc : ∀ x, memberAt (ensureCtx s m.launch g) x = memberAt s x := fun x => by rw [ensureCtx_rest]; rfl
  have hmem : (ensureCtx s m.launch g).mem = s.mem := by rw [ensureCtx_rest]
  refine ⟨fun a => ?_, fun x hx => ?_, _, memberAt_settle (by rw [memberAt_updMember_same, hc, hm]; rfl), ?_⟩
  · rw [resumeMigrated, mem_settle, updMember_mem, hmem]
  · rw [resumeMigrated, memberAt_settle_other _ hx, memberAt_updMember_other _ _ hx, hc]
  · simp

end Sys2Proof.Proofs
end

section
/-!
PROOF. PARK, the park that follows it, and the end of a transfer (R105, R106, R108, R204).
-/
set_option linter.constructorNameAsVariable false
namespace Sys2Proof.Proofs
open Sys2Proof.Machine Sys2Proof.Safety

/-- PARK is open to the cells that the manual names (R108, R140). -/
theorem notInTail_eq (m : Member) : notInTail m =
    if m.kind = .curator then some 0x01 else if m.kind = .tail ∨ m.rd ≠ 0 then some 0x0B else none := by
  simp [notInTail, isCurator, isTail, releasedMode]

/-- What PARK asks for: a park at the clause's end, but in an annex slot (R108). -/
def askPark (s : State) (k : Cur) (m : Member) : State :=
  match m.place with
  | .annex _ => s
  | _ => updMember s k.member fun v => { v with parkWish := true }

theorem askPark_annex (s : State) (k : Cur) {m : Member} (h : ∃ n, m.place = .annex n) : askPark s k m = s := by
  obtain ⟨n, hp⟩ := h
  simp [askPark, hp]

theorem onlyMember_askPark {s : State} {k : Cur} {m : Member} (hm : memberAt s k.member = some m) (h : ∀ n, m.place ≠ .annex n) :
    OnlyMember s (askPark s k m) k.member { m with parkWish := true } := by
  unfold askPark
  split
  · next n hp => exact absurd hp (h n)
  · exact onlyMember_updMember hm fun v => { v with parkWish := true }

section
variable {s : State} {id : Nat} {m : Member} (hm : memberAt s id = some m)
include hm

/-- A member that stands at a clause's end with no wish but what `settle` finds (R113, R143). -/
theorem onlyMember_settle : OnlyMember s (settle s id) id
    { m with wait := m.boundaryWait (openJoins s m), joinTails := openJoins s m, readySince := (coreAt s m.core).cyc } where
  rest := membersOnly_settle s id
  member := memberAt_settle hm
  others _ hx := memberAt_settle_other s hx
  memory a := by rw [mem_settle]

variable (hw : m.wait = .drain .park) (hd : drained m = true)
include hw hd

/-- A frame join that a load has brought comes before the park (R143; log 46). -/
theorem parkSelf_joins (hj : openJoins s m ≠ []) (hv : m.moveTo = none) : ∃ t, exec (.parkSelf id) s = .next t ∧ OnlyMember s t id
    { m with wait := .frameJoin (openJoins s m), joinTails := openJoins s m, readySince := (coreAt s m.core).cyc } := by
  refine ⟨settle s id, by simp [exec, execParkSelf, hm, hw, hd, hj], ?_⟩
  have hb : m.boundaryWait (openJoins s m) = .frameJoin (openJoins s m) := by rw [boundaryWait_stay hv, if_pos hj]
  exact hb ▸ onlyMember_settle hm

/-- A cell for whose slot there is no other goes on (R108). -/
theorem parkSelf_alone (hj : openJoins s m = []) (hv : m.moveTo = none) (hc : firstCandidate s m.launch m.core = none) :
    ∃ t, exec (.parkSelf id) s = .next t ∧ OnlyMember s t id
      { m with parkWish := false, wait := .ready, joinTails := [], readySince := (coreAt s m.core).cyc } := by
  refine ⟨settle (updMember s id fun w => { w with parkWish := false }) id, by simp [exec, execParkSelf, hm, hw, hd, hj, hc], ?_⟩
  have h1 := onlyMember_updMember hm fun w => { w with parkWish := false }
  have h2 := onlyMember_settle h1.member
  have hj' : openJoins (updMember s id fun w => { w with parkWish := false }) { m with parkWish := false } = [] :=
    (openJoins_updMember s id m (f := fun w => { w with parkWish := false }) fun _ => rfl).trans hj
  rw [hj', boundaryWait_stay (m := { m with parkWish := false }) hv] at h2
  exact h1.trans h2

/-- A cell parks for another one of its launch that can take its slot (R106, R108, R204). -/
theorem parkSelf_transfer (hj : openJoins s m = []) {u : Nat} {c : Member} (hc : firstCandidate s m.launch m.core = some (u, c))
    (hu : u ≠ id) (hcm : memberAt s u = some c) (ht : inTransfer s m.launch m.core = false) :
    ∃ t, exec (.parkSelf id) s = .next t ∧ SameMemory s t ∧
      (∃ v, memberAt t id = some v ∧ v.place = .transit ∧ v.wait = .park ∧ v.r = m.r) ∧
      (∃ v, memberAt t u = some v ∧ v.place = .transit ∧ v.r = c.r) ∧
      (coreAt t m.core).transfers = (coreAt s m.core).transfers ++
        [{ launch := m.launch, parking := some id, unparking := u, slot := slotNumber m }] := by
  refine ⟨startTransfer (updMember s id fun w => { w with parkWish := false, wait := .park }) m.core
    { launch := m.launch, parking := some id, unparking := u, slot := slotNumber m },
    by simp [exec, execParkSelf, hm, hw, hd, hj, hc, ht], fun _ => rfl, ?_, ?_, ?_⟩
  · simp [startTransfer, memberAt_updMember_other, hu.symm, hm, parkedWait]
  · simp [startTransfer, memberAt_updMember_other, hu, hcm]
  · simp [startTransfer]

end

theorem transfers_dropClauses (lo n : Nat) (u : CoreUnit) : (dropClauses lo n u).transfers = u.transfers := by
  unfold dropClauses
  split <;> rfl

/-- A write drops clause lines of cores, and no transfer (R112). -/
theorem transfers_writeBytes (s : State) (pa : Nat) (l : List Byte) (g : Nat) :
    (coreAt (writeBytes s pa l) g).transfers = (coreAt s g).transfers := by
  rw [coreAt_writeBytes, coreAt]
  cases tabGet s.cores g with
  | none => rfl
  | some u => exact foldl_keeps CoreUnit.transfers (fun u (r : Nat × Nat × Nat) => transfers_dropClauses r.1 r.2.2 u) _ u

theorem transfers_logLine (s : State) (l c x g : Nat) : (coreAt (logLine s l c x) g).transfers = (coreAt s g).transfers := by
  unfold logLine
  split
  · rfl
  · simp only
    split
    · rfl
    · split
      · rw [coreAt_updMod, transfers_writeBytes]
      · rfl

/-- What the log takes from a park frame that is written: bytes of the log alone, and no transfer (R304; log 29). -/
theorem logsOnly_logFrame (s : State) (m : Member) : LogsOnly s (logFrame s m) := by
  unfold logFrame
  split
  · exact logsOnly_logRun ..
  · exact .refl s

theorem transfers_logFrame (s : State) (m : Member) (g : Nat) : (coreAt (logFrame s m) g).transfers = (coreAt s g).transfers := by
  unfold logFrame
  split
  · exact foldl_keeps (fun t => (coreAt t g).transfers) (fun t x => transfers_logLine t _ _ x g) _ s
  · rfl

/-- The park of a cell ends: it is parked, with its registers and its wait, and memory changes in bytes of the log alone (R204, R304). -/
theorem endPark_spec {s : State} {p : Nat} {m : Member} (hm : memberAt s p = some m) (frame : Nat) :
    SameButArchive s (endPark s p frame) ∧ (∀ g, (coreAt (endPark s p frame) g).transfers = (coreAt s g).transfers) ∧
      (∀ n, n ≠ p → memberAt (endPark s p frame) n = memberAt s n) ∧
      ∃ v, memberAt (endPark s p frame) p = some v ∧ v.place = .parked ∧ v.r = m.r ∧ v.wait = m.wait := by
  have hl := logsOnly_logFrame s { m with frame := frame }
  unfold endPark
  simp only [hm]
  refine ⟨fun b hb => hl.memory b hb, fun g => ?_, fun n hn => ?_, ?_⟩
  · rw [coreAt_updMember, transfers_logFrame]
  · rw [memberAt_updMember_other _ _ hn, hl.memberAt_eq]
  · rw [memberAt_updMember_same, hl.memberAt_eq, hm]
    exact ⟨_, rfl, rfl, rfl, rfl⟩

/-- A member seated again that waits for no barrier keeps its place, its demand and its registers, and members alone change (R106, R280). -/
theorem reevaluate_spec {s : State} {id : Nat} {m : Member} (hm : memberAt s id = some m) (hb : ∀ sc u k, m.wait ≠ .barrier sc u k) :
    MembersOnly s (reevaluate s id) ∧ (∀ n, n ≠ id → memberAt (reevaluate s id) n = memberAt s n) ∧
      ∃ v, memberAt (reevaluate s id) id = some v ∧ v.place = m.place ∧ v.demanded = m.demanded ∧ v.r = m.r := by
  have hwake : MembersOnly s (wake s id) ∧ (∀ n, n ≠ id → memberAt (wake s id) n = memberAt s n) ∧
      ∃ v, memberAt (wake s id) id = some v ∧ v.place = m.place ∧ v.demanded = m.demanded ∧ v.r = m.r :=
    ⟨membersOnly_wake s id, fun _ hn => memberAt_wake_other s hn, _, memberAt_wake hm, rfl, rfl, rfl⟩
  unfold reevaluate
  simp only [hm]
  split
  · exact hwake
  · exact hwake
  · next hw => exact absurd hw (hb _ _ _)
  · exact ⟨rfl, fun _ _ => rfl, m, hm, rfl, rfl, rfl⟩

/-- The unpark of a cell ends: it has its slot, and members alone change (R106, R204). -/
theorem endUnpark_spec {s : State} {q : Nat} {n : Member} (hn : memberAt s q = some n) (hb : ∀ sc u k, n.wait ≠ .barrier sc u k)
    (slot : Nat) : MembersOnly s (endUnpark s q slot) ∧ (∀ x, x ≠ q → memberAt (endUnpark s q slot) x = memberAt s x) ∧
      ∃ v, memberAt (endUnpark s q slot) q = some v ∧ v.place = .slot slot ∧ v.demanded = false ∧ v.r = n.r := by
  unfold endUnpark
  simp only [hn]
  have hq : memberAt (updMember s q fun v =>
      { v with place := .slot slot, demanded := false, unparkTime := (coreAt s n.core).ticks }) q =
      some { n with place := .slot slot, demanded := false, unparkTime := (coreAt s n.core).ticks } := by
    rw [memberAt_updMember_same, hn]
    rfl
  obtain ⟨hr, ho, hv⟩ := reevaluate_spec hq hb
  exact ⟨(membersOnly_updMember ..).trans hr, fun x hx => (ho x hx).trans (memberAt_updMember_other _ _ hx), hv⟩

/-- The end of a transfer leaves the one cell parked and the other in the slot (R106, R204). -/
theorem parkTransferEnd_spec {s : State} {core p : Nat} {x : Transfer} {m n : Member} (hx : (coreAt s core).transfers = [x])
    (hp : x.parking = some p) (hpq : p ≠ x.unparking) (hm : memberAt s p = some m) (hn : memberAt s x.unparking = some n)
    (hb : ∀ sc u k, n.wait ≠ .barrier sc u k) :
    ∃ t, exec (.parkTransferEnd core x.launch) s = .next t ∧ SameButArchive s t ∧ (coreAt t core).transfers = [] ∧
      (∃ v, memberAt t p = some v ∧ v.place = .parked ∧ v.r = m.r ∧ v.wait = m.wait) ∧
      ∃ v, memberAt t x.unparking = some v ∧ v.place = .slot x.slot ∧ v.demanded = false ∧ v.r = n.r := by
  let s1 := updCore s core fun u => { u with transfers := u.transfers.filter fun y => y.launch != x.launch }
  obtain ⟨hsame, htr, hoth, hpv⟩ := endPark_spec (s := s1) (p := p) hm n.frame
  have hq : memberAt (endPark s1 p n.frame) x.unparking = some n := (hoth _ hpq.symm).trans hn
  obtain ⟨honly, hkeep, hqv⟩ := endUnpark_spec hq hb x.slot
  refine ⟨endUnpark (endPark s1 p n.frame) x.unparking x.slot, ?_, fun b hnot => ?_, ?_, ?_, hqv⟩
  · simp [exec, execParkTransferEnd, hx, hp, hn, s1]
  · rw [honly.mem]
    refine hsame b fun hin => hnot ?_
    rw [InArchive, honly.mod]
    exact hin
  · have hc : coreAt (endUnpark (endPark s1 p n.frame) x.unparking x.slot) core = coreAt (endPark s1 p n.frame) core := by
      rw [honly]
      rfl
    rw [hc, htr]
    simp [s1, hx]
  · rw [hkeep p hpq]
    exact hpv

/-- Settles O12: MIGRATE by the field of its address, and each step of a move and of a park by the state that it finds. -/
theorem migrationAndParking : Obligations.MigrationAndParking := by
  refine ⟨fun d a => ?_, fun s id m hm => ⟨fun g n hw hd hb => ?_, fun g n hw h => idle_migrateMove hm hw h, fun g n hp hv => ?_⟩,
    ?_, fun s id m hm hw hd => ⟨parkSelf_joins hm hw hd, parkSelf_alone hm hw hd, fun hj u c hc hu hcm ht =>
      parkSelf_transfer hm hw hd hj hc hu hcm ht⟩, ?_⟩
  · refine producerForm_of (fun _ _ => rfl) fun s c k m vs hi hf hl x ctx r hvs hc hv hr => ?_
    subst hvs
    exact migrate_spec hi.member hc hv hr c d
  · exact ⟨_, by rw [exec_migrateMove hm hw, hd, hb, Bool.not_false, Bool.and_self, if_pos rfl], onlyMember_updMember hm _⟩
  · exact ⟨_, exec_migrationResume hm hp hv, resumeMigrated_spec hm g n⟩
  · simp only [← notInTail_eq]
    exact actForm_control (run := askPark) (fun _ _ => rfl) fun s k m hi _ => ⟨askPark_annex s k, onlyMember_askPark hi.member⟩
  · rintro s core launch x p q m n hx rfl hp rfl hpq hm hn hb
    exact parkTransferEnd_spec hx hp hpq hm hn hb

end Sys2Proof.Proofs
end

section
/-!
PROOF. Contexts that are switched out for the module's own reasons (R277), and the watchdog (R101, R282).
-/
set_option linter.constructorNameAsVariable false
namespace Sys2Proof.Proofs
open Sys2Proof.Machine Sys2Proof.Safety

/-- The job of a switch-out for the module's own reasons (R277). -/
def switchJob (kind : JobKind) (launch core : Nat) (image : ImgAt) : Job :=
  { kind := kind, launch := launch, core := core, target := core, image := image, member := 0, tok := 7, dst := .none, word := 0,
    restoring := false, status := 0 }

/-! A switch-out that begins adds its job and changes its context, and nothing else. -/

section
variable (s : State) (kind : JobKind) (launch core : Nat) (image : ImgAt)

@[simp] theorem switchFor_mem : (switchFor s kind launch core image).mem = s.mem := by simp [switchFor, addJob, beginSwitch]
@[simp] theorem switchFor_members : (switchFor s kind launch core image).members = s.members := by simp [switchFor, addJob, beginSwitch]
@[simp] theorem switchFor_nbrs : (switchFor s kind launch core image).nbrs = s.nbrs := by simp [switchFor, addJob, beginSwitch]
@[simp] theorem switchFor_accs : (switchFor s kind launch core image).accs = s.accs := by simp [switchFor, addJob, beginSwitch]
@[simp] theorem switchFor_ctxs : (switchFor s kind launch core image).ctxs = (beginSwitch s launch core).ctxs := by
  simp [switchFor, addJob]
@[simp] theorem switchFor_mod : (switchFor s kind launch core image).mod =
    { s.mod with jobs := s.mod.jobs ++ [switchJob kind launch core image] } := rfl
@[simp] theorem coreAt_switchFor (g : Nat) : coreAt (switchFor s kind launch core image) g = coreAt s g := by
  simp [switchFor, addJob, beginSwitch]

end

/-- A context as a switch-out that begins leaves it (R277). -/
def begunSwitch (now : Nat) (c : Ctx) : Ctx := if c.isOut || c.switching then c else { c with switching := true, switchAt := now }

theorem switching_begunSwitch (now : Nat) {c : Ctx} (h : c.isOut = false ∨ c.switching = true) : (begunSwitch now c).switching = true := by
  unfold begunSwitch
  split
  · next hs =>
    rcases h with h | h
    · simpa [h] using hs
    · exact h
  · rfl

theorem tabGet_beginSwitch (s : State) (launch core n : Nat) : tabGet (beginSwitch s launch core).ctxs n =
    if n = ctxKey launch core then (tabGet s.ctxs n).map (begunSwitch s.mod.time) else tabGet s.ctxs n := by
  simp only [beginSwitch, updCtx, tabGet_tabUpd]
  split
  · next h => rw [h]; rfl
  · rfl

theorem ctxAt_switchFor {s : State} {launch core : Nat} {c : Ctx} (h : ctxAt s launch core = some c) (kind : JobKind) (image : ImgAt) :
    ctxAt (switchFor s kind launch core image) launch core = some (begunSwitch s.mod.time c) := by
  have h' : tabGet s.ctxs (ctxKey launch core) = some c := h
  rw [ctxAt, switchFor_ctxs, tabGet_beginSwitch, if_pos rfl, h']
  rfl

section
variable {s : State} {launch core : Nat} {c : Ctx} {l : Launch} (hc : ctxAt s launch core = some c) (hl : launchAt s launch = some l)
  (image : Nat)
include hc

/-- The watchdog switches a context out (R277, R282). -/
theorem watchdogOut_spec (hw : watched s launch core c = true) (detail : Nat) :
    let t := watchdogOut s launch core detail image
    ∃ c' j, SameMemory s t ∧ t.members = s.members ∧ ctxAt t launch core = some c' ∧ c'.switching = true ∧
      t.mod.jobs = s.mod.jobs ++ [j] ∧ j.kind = .watchdog detail ∧ j.launch = launch ∧ j.core = core := by
  have ho : c.isOut = false := by
    simp only [watched, Bool.and_eq_true, Bool.not_eq_true'] at hw
    exact hw.1.1.1.1
  unfold watchdogOut
  exact ⟨_, switchJob (.watchdog detail) launch core (physImage (image / 64 * 64)), fun a => by rw [switchFor_mem],
    switchFor_members .., ctxAt_switchFor hc _ _, switching_begunSwitch _ (.inl ho), by rw [switchFor_mod], rfl, rfl, rfl⟩

include hl

/-- A persistent launch's context that has made no progress for its interval, in units of 16 µs, is switched out (R101, R282). -/
theorem exec_watchdogNoProgress (h : l.pkt.persistent = true ∧ watched s launch core c = true ∧
    c.lastMark + l.pkt.interval * 76800 ≤ s.mod.time) :
    exec (.watchdogNoProgress launch core image) s = .next (watchdogOut s launch core 1 image) := by
  simp [exec, execWatchdogNoProgress, hc, hl, h, Nat.mul_assoc]

theorem idle_watchdogNoProgress (h : ¬ (l.pkt.persistent = true ∧ watched s launch core c = true ∧
    c.lastMark + l.pkt.interval * 76800 ≤ s.mod.time)) : Idle (.watchdogNoProgress launch core image) s := by
  have hn : (l.pkt.persistent && watched s launch core c && decide (c.lastMark + l.pkt.interval * 16 * 4800 ≤ s.mod.time)) = false := by
    simpa [Nat.mul_assoc] using h
  simp only [Idle, exec, execWatchdogNoProgress, hc, hl, hn]
  rfl

/-- A context of any other launch that has retired nothing for the watchdog's period is switched out (R282). -/
theorem exec_watchdogNoRetire (h : l.pkt.persistent = false ∧ watched s launch core c = true ∧
    c.lastRetire + watchdogTicks s ≤ s.mod.time) :
    exec (.watchdogNoRetire launch core image) s = .next (watchdogOut s launch core 2 image) := by
  simp [exec, execWatchdogNoRetire, hc, hl, h]

theorem idle_watchdogNoRetire (h : ¬ (l.pkt.persistent = false ∧ watched s launch core c = true ∧
    c.lastRetire + watchdogTicks s ≤ s.mod.time)) : Idle (.watchdogNoRetire launch core image) s := by
  have hn : (!l.pkt.persistent && watched s launch core c && decide (c.lastRetire + watchdogTicks s ≤ s.mod.time)) = false := by
    simpa using h
  simp only [Idle, exec, execWatchdogNoRetire, hc, hl, hn]
  rfl

end

end Sys2Proof.Proofs
end

section
/-!
PROOF. A docent that reaches no yield point in a switch (R230, R231, R277): what the end of its program's commands leaves.
-/
set_option linter.constructorNameAsVariable false
namespace Sys2Proof.Proofs
open Sys2Proof.Machine Sys2Proof.Safety

theorem keyed_tabDrop {α : Type} {t : Tab α} (h : Keyed t) (k : Nat) : Keyed (tabDrop t k) := by
  refine List.Pairwise.sublist (List.Sublist.map _ ?_) h
  clear h
  induction t with
  | nil => exact List.Sublist.refl _
  | cons e r ih =>
    unfold tabDrop
    split
    · exact List.sublist_cons_self ..
    · exact ih.cons_cons _

theorem key_of_mem_tabPut {α : Type} {t : Tab α} {k : Nat} {v : α} {e : Nat × α} (h : e ∈ tabPut t k v) : e.1 = k ∨ e ∈ t := by
  induction t with
  | nil => exact .inl (by simpa [tabPut] using congrArg Prod.fst (List.mem_singleton.mp h))
  | cons a r ih =>
    unfold tabPut at h
    split at h
    · rcases List.mem_cons.mp h with h | h
      · exact .inl (congrArg Prod.fst h)
      · exact .inr h
    · split at h
      · rcases List.mem_cons.mp h with h | h
        · exact .inl (congrArg Prod.fst h)
        · exact .inr (List.mem_cons_of_mem _ h)
      · rcases List.mem_cons.mp h with h | h
        · exact .inr (h ▸ List.mem_cons_self)
        · exact (ih h).imp_right (List.mem_cons_of_mem _)

theorem keyed_tabPut {α : Type} {t : Tab α} (h : Keyed t) (k : Nat) (v : α) : Keyed (tabPut t k v) := by
  induction t with
  | nil => simp [tabPut, Keyed]
  | cons a r ih =>
    simp only [Keyed, List.map_cons, List.pairwise_cons, List.forall_mem_map] at h
    unfold tabPut
    split
    · next hk =>
      simp only [Keyed, List.map_cons, List.pairwise_cons, List.forall_mem_map, List.forall_mem_cons]
      exact ⟨⟨hk, fun e he => hk.trans (h.1 e he)⟩, h⟩
    · split
      · next hk =>
        simp only [Keyed, List.map_cons, List.pairwise_cons, List.forall_mem_map]
        exact ⟨hk ▸ h.1, h.2⟩
      · next hlt hne =>
        simp only [Keyed, List.map_cons, List.pairwise_cons, List.forall_mem_map]
        refine ⟨fun e he => ?_, ih h.2⟩
        rcases key_of_mem_tabPut he with he | he
        · show a.1 < e.1
          omega
        · exact h.1 e he

/-- From `s` to `t` memory and what the engines hold stay. -/
structure EngMemKept (s t : State) : Prop where
  mem : t.mem = s.mem
  eng : ∀ g, (coreAt t g).eng = (coreAt s g).eng

theorem EngMemKept.refl (s : State) : EngMemKept s s := ⟨rfl, fun _ => rfl⟩

theorem EngMemKept.trans {s t u : State} (h : EngMemKept s t) (g : EngMemKept t u) : EngMemKept s u :=
  ⟨g.mem.trans h.mem, fun n => (g.eng n).trans (h.eng n)⟩

theorem MembersOnly.engMemKept {s t : State} (h : MembersOnly s t) : EngMemKept s t := by
  rw [h]
  exact ⟨rfl, fun _ => rfl⟩

theorem engMemKept_updCtx (s : State) (l c : Nat) (f : Ctx → Ctx) : EngMemKept s (updCtx s l c f) := ⟨rfl, fun _ => rfl⟩
theorem engMemKept_updMod (s : State) (f : ModuleUnit → ModuleUnit) : EngMemKept s (updMod s f) := ⟨rfl, fun _ => rfl⟩

/-- A core changes beside its engines. -/
theorem engMemKept_updCore {s : State} {core : Nat} {f : CoreUnit → CoreUnit} (h : (f (coreAt s core)).eng = (coreAt s core).eng) :
    EngMemKept s (updCore s core f) := by
  refine ⟨rfl, fun g => ?_⟩
  by_cases hg : g = core
  · rw [hg, coreAt_updCore_same, h]
  · rw [coreAt_updCore_other _ _ hg]

theorem engMemKept_leaveGroup (s : State) (id slot : Nat) (w : Wait) : EngMemKept s (leaveGroup s id slot w) := by
  unfold leaveGroup
  split
  · exact .refl s
  · next m _ => exact (engMemKept_updCore (core := m.core) (f := dropFromGroup id) rfl).trans (membersOnly_updMember ..).engMemKept

theorem engMemKept_endTrapTime (s : State) (m : Member) : EngMemKept s (endTrapTime s m) := by
  unfold endTrapTime
  split
  · exact .refl s
  · exact engMemKept_updCtx ..

theorem engMemKept_stopWithRecord (s : State) (id : Nat) (m : Member) (fi : FaultInfo) (cause detail : Nat) :
    EngMemKept s (stopWithRecord s id m fi cause detail) :=
  ((engMemKept_updMod s _).trans (engMemKept_leaveGroup ..)).trans (membersOnly_updMember ..).engMemKept

theorem engMemKept_settleOrWake (s : State) (id : Nat) (c : Bool) : EngMemKept s (if c then settle s id else wake s id) := by
  cases c with
  | true => exact (membersOnly_settle s id).engMemKept
  | false => exact (membersOnly_wake s id).engMemKept

theorem engMemKept_returnFromTrap (s : State) (id : Nat) : EngMemKept s (returnFromTrap s id) := by
  unfold returnFromTrap
  split
  · exact .refl s
  · simp only
    split
    · exact (membersOnly_updMember ..).engMemKept.trans (engMemKept_stopWithRecord ..)
    · exact ((membersOnly_updMember ..).engMemKept.trans (engMemKept_settleOrWake ..)).trans (engMemKept_endTrapTime ..)

/-- A token that counts down changes members, and at most ends the trap of one (R185, R286). -/
theorem engMemKept_tokDec (s : State) (id code : Nat) : EngMemKept s (tokDec s id code) := by
  unfold tokDec
  refine (membersOnly_updMember s id fun m => m.setTok code (tokCount m code - 1)).engMemKept.trans ?_
  simp only
  split
  · split
    · unfold endEret
      simp only
      split
      · exact engMemKept_returnFromTrap ..
      · exact .refl _
    · split
      · exact (membersOnly_wake ..).engMemKept
      · exact .refl _
  · exact .refl _

theorem engMemKept_chargeEnergy (s : State) (core cat width n : Nat) : EngMemKept s (chargeEnergy s core cat width n) := by
  unfold chargeEnergy
  exact engMemKept_updCore rfl

theorem engMemKept_retireCmd (s : State) (core launch : Nat) (word : Word64) : EngMemKept s (retireCmd s core launch word) := by
  unfold retireCmd retireEntry
  refine EngMemKept.trans ?_ (engMemKept_updCtx ..)
  split
  · exact engMemKept_chargeEnergy ..
  · exact .refl s

/-- The fault of a command reaches its member or its record Sernus (R212). -/
theorem engMemKept_engineFault (s : State) (member : Nat) (word : Word64) (f : EngFail) (tok : Option Nat) :
    EngMemKept s (engineFault s member word f tok) := by
  unfold engineFault queueFault
  split
  · exact .refl s
  · split
    · exact engMemKept_updMod ..
    · exact (membersOnly_updMember ..).engMemKept

/-- From `s` to `t` memory stays, and the keys of a core's commands still rise where they rose. -/
structure CmdsOrdered (core : Nat) (s t : State) : Prop where
  mem : t.mem = s.mem
  keyed : Keyed (cmdsOf s core) → Keyed (cmdsOf t core)

theorem CmdsOrdered.refl (core : Nat) (s : State) : CmdsOrdered core s s := ⟨rfl, fun h => h⟩

theorem CmdsOrdered.trans {core : Nat} {s t u : State} (h : CmdsOrdered core s t) (g : CmdsOrdered core t u) : CmdsOrdered core s u :=
  ⟨g.mem.trans h.mem, fun hk => g.keyed (h.keyed hk)⟩

theorem EngMemKept.cmdsOrdered {s t : State} (h : EngMemKept s t) (core : Nat) : CmdsOrdered core s t :=
  ⟨h.mem, fun hk => by rwa [cmdsOf, h.eng]⟩

/-- A change of a core's engines that keeps the order of its commands. -/
theorem cmdsOrdered_updCore {s : State} {core : Nat} {f : CoreUnit → CoreUnit}
    (h : Keyed (cmdsOf s core) → Keyed (f (coreAt s core)).eng.cmds) : CmdsOrdered core s (updCore s core f) :=
  ⟨rfl, fun hk => by rw [cmdsOf, coreAt_updCore_same]; exact h hk⟩

theorem cmdsOrdered_dropWrites (core : Nat) (s : State) (cmd : Nat) : CmdsOrdered core s (dropWrites s cmd) := ⟨rfl, fun h => h⟩

theorem cmdsOrdered_strikeCmd (s : State) (core id : Nat) (clears : Bool) : CmdsOrdered core s (strikeCmd s core id clears) := by
  unfold strikeCmd
  split
  · exact .refl core s
  · next x _ =>
    have hd := cmdsOrdered_updCore (s := s) (core := core)
      (f := fun u => { u with eng := { u.eng with cmds := tabDrop u.eng.cmds id } }) fun hk => keyed_tabDrop hk id
    simp only
    split
    · exact hd.trans (((engMemKept_retireCmd ..).trans (engMemKept_tokDec ..)).cmdsOrdered core)
    · exact hd

theorem cmdsOrdered_haltCmd (s : State) (core id : Nat) (clears : Bool) : CmdsOrdered core s (haltCmd s core id clears) := by
  unfold haltCmd
  split
  · exact .refl core s
  · next x _ =>
    have hp := cmdsOrdered_updCore (s := s) (core := core) (f := fun u => { u with eng := emptyPlanes u.eng (planesLost x) })
      fun hk => by rw [cmds_emptyPlanes]; exact hk
    exact (hp.trans (cmdsOrdered_dropWrites ..)).trans (cmdsOrdered_strikeCmd ..)

theorem cmdsOrdered_voidCmd (s : State) (core id : Nat) (clears : Bool) : CmdsOrdered core s (voidCmd s core id clears) := by
  unfold voidCmd
  split
  · exact .refl core s
  · exact ((cmdsOrdered_dropWrites core s id).trans (cmdsOrdered_strikeCmd ..)).trans
      (cmdsOrdered_updCore fun hk => keyed_tabPut hk id _)

theorem cmdsOrdered_cancelCmd (s : State) (core id : Nat) : CmdsOrdered core s (cancelCmd s core id) := by
  unfold cancelCmd endEarly
  split
  · exact .refl core s
  · split
    · exact cmdsOrdered_haltCmd ..
    · exact cmdsOrdered_voidCmd ..

theorem cmdsOrdered_cancelAll (core : Nat) (l : List Nat) (s : State) : CmdsOrdered core s (l.foldl (fun t i => cancelCmd t core i) s) := by
  induction l generalizing s with
  | nil => exact .refl core s
  | cons a r ih => exact (cmdsOrdered_cancelCmd s core a).trans (ih _)

/-- A command that halts is struck off, where there is one (R231). -/
theorem cmdAt_haltCmd (s : State) (core id : Nat) (hk : Keyed (cmdsOf s core)) : cmdAt (haltCmd s core id false) core id = none := by
  cases hx : cmdAt s core id with
  | some x => exact (haltCmd_spec hx).2 hk
  | none =>
    have hx' : tabGet (coreAt s core).eng.cmds id = none := hx
    rw [haltCmd, hx']
    exact hx

/-- A stopped program is gone with its command, and memory stays (R231, R277). -/
theorem stopOverrun_spec (s : State) (core : Nat) (p : Program) (x : Cmd) :
    (stopOverrun s core p x).mem = s.mem ∧
    (Keyed (cmdsOf s core) → (coreAt (stopOverrun s core p x) core).eng.prog = none ∧ cmdAt (stopOverrun s core p x) core p.cmd = none) := by
  unfold stopOverrun
  simp only
  generalize hl : p.steps.filter _ = l
  have hc := cmdsOrdered_cancelAll core l s
  have hh := hc.trans (cmdsOrdered_haltCmd (l.foldl (fun t i => cancelCmd t core i) s) core p.cmd false)
  have hnone := fun hk => cmdAt_haltCmd (l.foldl (fun t i => cancelCmd t core i) s) core p.cmd (hc.keyed hk)
  generalize haltCmd (l.foldl (fun t i => cancelCmd t core i) s) core p.cmd false = s1 at hh hnone
  generalize hs2 : updCore s1 core (fun u => { u with eng := { u.eng with prog := none } }) = s2
  have h2 : (coreAt s2 core).eng = { (coreAt s1 core).eng with prog := none } := by rw [← hs2, coreAt_updCore_same]
  have hm2 : s2.mem = s.mem := by rw [← hs2]; exact hh.mem
  have hskip : EngMemKept s2 (if p.captured then updMod s2 fun m => { m with skipped := m.skipped + 1 } else s2) := by
    split
    · exact engMemKept_updMod ..
    · exact .refl s2
  have hend := hskip.trans (engMemKept_engineFault _ x.member x.word { detail := 5 + 512 * 2 ^ 16 } x.faultTok)
  refine ⟨hend.mem.trans hm2, fun hk => ⟨by rw [hend.eng, h2], ?_⟩⟩
  rw [cmdAt, hend.eng, h2]
  exact hnone hk

/-- When a docent's overrun is due: 1 ms after the drains of a switch began it stands at no yield point (R277). -/
def OverrunDue (s : State) (core : Nat) (x : Cmd) (c : Ctx) : Prop :=
  c.switching = true ∧ docentYielded s x.launch core = false ∧ (∀ g ∈ (coreAt s core).issue, g.launch ≠ x.launch) ∧
    c.switchAt + 4800000 ≤ s.mod.time

theorem overrunDue_iff (s : State) (core : Nat) (x : Cmd) (c : Ctx) : OverrunDue s core x c ↔
    (!c.switching || docentYielded s x.launch core || (coreAt s core).issue.any (fun g => g.launch == x.launch) ||
      decide (s.mod.time < c.switchAt + 4800000)) = false := by
  cases hg : (coreAt s core).issue <;> simp [OverrunDue, hg, and_assoc]

section
variable {s : State} {core : Nat} {p : Program} {x : Cmd} {c : Ctx} (hp : (coreAt s core).eng.prog = some p)
  (hx : cmdAt s core p.cmd = some x) (hc : ctxAt s x.launch core = some c)
include hp hx hc

theorem exec_docentOverrunExpiry (h : OverrunDue s core x c) : exec (.docentOverrunExpiry core) s =
    .next (sendRecord (stopOverrun s core p x) (plainRecord 0x21 3 0 s.mod.time)) := by
  simp only [exec, execDocentOverrunExpiry, hp, hx, hc, (overrunDue_iff ..).mp h, Bool.false_eq_true, if_false]

theorem idle_docentOverrunExpiry (h : ¬ OverrunDue s core x c) : Idle (.docentOverrunExpiry core) s := by
  rw [overrunDue_iff, Bool.not_eq_false] at h
  simp only [Idle, exec, execDocentOverrunExpiry, hp, hx, hc, h, if_true]

/-- A docent whose overrun is due is stopped, and its record goes to Sernus (R277, R283). -/
theorem docentOverrun_spec (h : OverrunDue s core x c) : ∃ t, exec (.docentOverrunExpiry core) s = .next t ∧ SameMemory s t ∧
    (Keyed (cmdsOf s core) → (coreAt t core).eng.prog = none ∧ cmdAt t core p.cmd = none) ∧
    ∃ r, r ∈ t.mod.recBuf ∧ r.cause = 0x21 ∧ r.detail = 3 := by
  obtain ⟨hmem, hgone⟩ := stopOverrun_spec s core p x
  refine ⟨_, exec_docentOverrunExpiry hp hx hc h, fun a => ?_, hgone, plainRecord 0x21 3 0 s.mod.time, ?_, rfl, rfl⟩
  · rw [show (sendRecord (stopOverrun s core p x) (plainRecord 0x21 3 0 s.mod.time)).mem = s.mem from hmem]
  · simp [sendRecord, updMod]

end

end Sys2Proof.Proofs
end

section
/-!
PROOF. Reads that meet poison, and checkpoints that are due (R303, R307, R308).
-/
set_option linter.constructorNameAsVariable false
namespace Sys2Proof.Proofs
open Sys2Proof.Machine Sys2Proof.Safety

/-- A granule is poisoned from the read on that meets its error (R307, R308). -/
def markPoison (s : State) (g : Nat) : State :=
  updMod s fun m => { m with poison := if m.poison.contains g then m.poison else m.poison ++ [g] }

theorem mem_poison_markPoison (s : State) (g x : Nat) : x ∈ (markPoison s g).mod.poison ↔ x = g ∨ x ∈ s.mod.poison := by
  simp only [markPoison, updMod]
  split
  · next h =>
    have hg : g ∈ s.mod.poison := by simpa using h
    exact ⟨.inr, fun h => h.elim (fun e => e ▸ hg) id⟩
  · simp [or_comm]

/-- A run that memory serves in order meets a granule that has been poisoned (R308). -/
theorem isPoisoned_markPoison {s : State} {g pa n : Nat} (ho : oneRun s pa n = true) (hlo : g < physOf s pa + n)
    (hhi : physOf s pa < g + 8) : isPoisoned (markPoison s g) pa n = true := by
  have hr : runsOf (markPoison s g) pa n = [(physOf s pa, 0, n)] := by
    rw [runsOf, if_pos (show oneRun (markPoison s g) pa n = true from ho)]
    rfl
  simp only [isPoisoned, hr, List.any_cons, List.any_nil, Bool.or_false, List.any_eq_true, Bool.and_eq_true, decide_eq_true_eq]
  exact ⟨g, (mem_poison_markPoison s g g).mpr (.inl rfl), hlo, hhi⟩

/-- A read of neither an access nor a neighbour counts its error and leaves the granule poisoned (R308). -/
theorem exec_poisonRead_other (s : State) (granule : Nat) {reader : Origin} (ha : ∀ id, reader ≠ .access id)
    (hn : ∀ r, reader ≠ .neighbour r) :
    exec (.poisonRead granule reader) s = .next (countError (markPoison s (physOf s (granule / 8 * 8)))) := by
  cases reader with
  | access id => exact absurd rfl (ha id)
  | neighbour r => exact absurd rfl (hn r)
  | client => rfl
  | management => rfl

section
variable (s : State)

@[simp] theorem countError_mem : (countError s).mem = s.mem := by simp [countError, raiseEvent]
@[simp] theorem countError_members : (countError s).members = s.members := by simp [countError, raiseEvent]
@[simp] theorem countError_nbrs : (countError s).nbrs = s.nbrs := by simp [countError, raiseEvent]
@[simp] theorem countError_accs : (countError s).accs = s.accs := by simp [countError, raiseEvent]
@[simp] theorem countError_mod : (countError s).mod =
    { s.mod with errCount := s.mod.errCount + 1, events := s.mod.events ++ [moduleEvent] } := rfl
@[simp] theorem coreAt_countError (g : Nat) : coreAt (countError s) g = coreAt s g := by simp [countError, raiseEvent]

end

/-- A place for an image is drawn, and nothing else changes (log 6). -/
theorem exists_freeImage (s : State) : ∃ img, freeImage s = (img, (drawFree s).2) := ⟨_, rfl⟩

/-- A read of a context has met poison: its error is counted, and the context is on its way out to an image (R308). -/
def poisonOut (s : State) (launch core : Nat) (img : ImgAt) : State :=
  switchFor (drawFree (countError s)).2 .poison launch core img

/-- What a context that goes out for poison leaves as it was, and its job (R308). -/
theorem poisonOut_spec (s : State) (launch core : Nat) (img : ImgAt) : let t := poisonOut s launch core img
    t.mem = s.mem ∧ t.members = s.members ∧ t.nbrs = s.nbrs ∧ t.accs = s.accs ∧ (∀ g, coreAt t g = coreAt s g) ∧
      t.mod.errCount = s.mod.errCount + 1 ∧ t.mod.poison = s.mod.poison ∧
      ∃ j, t.mod.jobs = s.mod.jobs ++ [j] ∧ j.kind = .poison ∧ j.launch = launch ∧ j.core = core := by
  simp [poisonOut, switchJob]

/-- The operand log's entry of a load that met poison, which stands as an access that the log keeps (R181, R308; log 52). -/
def poisonLogged (s : State) (id : Nat) (a : Access) (m : Member) : State :=
  let e := logEntryOf s m id { a with heldCause := 1 } 0
  updAcc (updAcc (updCore s a.core fun u => { u with log := tabPut u.log (firstFree (coreAt s a.core).log 64 0) e }) id
    fun _ => { a with heldCause := 1 }) id fun x => { x with phase := .logged, fetched := none }

/-- A load that meets poison enters the operand log where it has room, and its context goes out (R308; log 52). -/
theorem poisonAccess_load {s : State} {id : Nat} {a : Access} {m : Member} (ha : tabGet s.accs id = some a) (hk : a.kind = .load)
    (hm : memberAt s a.member = some m) (hf : firstFree (coreAt s a.core).log 64 0 < 64) :
    ∃ img, poisonAccess s id a = poisonOut (poisonLogged s id a m) a.launch a.core img := by
  have hb : blamed s id = (id, s) := by simp [blamed, ha, hk]
  have hi : ¬ firstFree (coreAt s a.core).log Config.logDepth 0 ≥ Config.logDepth := Nat.not_le.mpr hf
  have hl : logPoisoned s id a = some (poisonLogged s id a m) := by
    have hg : accGroup s id a = [(id, a)] := by simp [accGroup, hk]
    simp only [logPoisoned, hm, hi, if_false, hg]
    rfl
  obtain ⟨img, hi⟩ := exists_freeImage (countError (poisonLogged s id a m))
  refine ⟨img, ?_⟩
  simp only [poisonAccess, hb, ha, Option.getD_some, hl, hi]
  rfl

theorem acc_poisonLogged {s : State} {id : Nat} {a : Access} (ha : tabGet s.accs id = some a) (m : Member) :
    tabGet (poisonLogged s id a m).accs id = some { a with heldCause := 1, phase := .logged, fetched := none } := by
  simp [poisonLogged, updAcc, ha]

theorem log_poisonLogged (s : State) (id : Nat) (a : Access) (m : Member) :
    tabGet (coreAt (poisonLogged s id a m) a.core).log (firstFree (coreAt s a.core).log 64 0) =
      some (logEntryOf s m id { a with heldCause := 1 } 0) := by
  simp [poisonLogged]

/-- What a read of poison by an access does (R307, R308). -/
theorem exec_poisonRead_access {s : State} {id : Nat} {a : Access} (ha : tabGet s.accs id = some a) (granule : Nat) :
    exec (.poisonRead granule (.access id)) s =
      (let s1 := markPoison s (physOf s (granule / 8 * 8))
       if a.phase == .buffered && readsPoison s1 a then .next s1
       else if (hopWord s1 id a).any fun pa => isPoisoned s1 pa 8 then .next (poisonAccess s1 id a)
       else if a.phase != .issued || a.onPeer || crosses s a || !readsPoison s1 a || !orderPasses s id a then .next s
       else .next (meetPoison s1 id a)) := by
  simp only [exec, execPoisonRead, ha]
  rfl

/-- A load at its home that meets the poisoned granule (R307, R308). -/
theorem exec_poisonRead_load {s : State} {granule id pa : Nat} {a : Access} (ha : tabGet s.accs id = some a) (hp : a.phase = .issued)
    (ht : a.tgt = .loc pa) (hk : a.kind = .load) (hc : crosses s a = false) (ho : orderPasses s id a = true)
    (hlo : physOf s (granule / 8 * 8) < physOf s pa + a.size) (hhi : physOf s pa < physOf s (granule / 8 * 8) + 8)
    (hr : oneRun s pa a.size = true) : exec (.poisonRead granule (.access id)) s =
      .next (poisonAccess (markPoison s (physOf s (granule / 8 * 8))) id a) := by
  have hpa : a.pa = pa := by simp [Access.pa, ht]
  have hreads : readsPoison (markPoison s (physOf s (granule / 8 * 8))) a = true := by
    simp [readsPoison, hk, AccKind.meetsPoison, AccKind.reads, hpa, isPoisoned_markPoison hr hlo hhi]
  have hhop : hopWord (markPoison s (physOf s (granule / 8 * 8))) id a = none := by simp [hopWord, hk]
  have hpeer : a.onPeer = false := by simp [Access.onPeer, ht]
  simp [exec_poisonRead_access ha, hp, hreads, hhop, hpeer, hc, ho, meetPoison, hk]

/-- A neighbour read that meets the poisoned granule: its reader's context goes out, and the read waits (R308). -/
theorem exec_poisonRead_neighbour {s : State} {granule r : Nat} {x : NbrRead} {m : Member} (hx : tabGet s.nbrs r = some x)
    (hm : memberAt s x.reader = some m) (ha : x.arrived = true) (hs : readServed s x = true) (hw : m.wait = .nbr x.dir x.face)
    (hseat : seated m = true) (hg : faceGranule s x = some (physOf s (granule / 8 * 8))) :
    ∃ img, exec (.poisonRead granule (.neighbour r)) s =
      .next (poisonOut (markPoison s (physOf s (granule / 8 * 8))) m.launch m.core img) := by
  generalize hgr : physOf s (granule / 8 * 8) = g at hg
  have hexec : exec (.poisonRead granule (.neighbour r)) s = .next (poisonFace (markPoison s g) g r) := hgr ▸ rfl
  have hx' : tabGet (markPoison s g).nbrs r = some x := hx
  have hm' : memberAt (markPoison s g) x.reader = some m := hm
  have hs' : readServed (markPoison s g) x = true := hs
  have hg' : faceGranule (markPoison s g) x = some g := hg
  have hpois : facePoisoned (markPoison s g) x = true := by
    unfold faceGranule at hg'
    unfold facePoisoned faceBad
    obtain ⟨c, hc, hslot⟩ := Option.bind_eq_some_iff.mp hg'
    simp [hc, hslot, mem_poison_markPoison]
  obtain ⟨img, hi⟩ := exists_freeImage (countError (markPoison s g))
  refine ⟨img, hexec.trans ?_⟩
  simp only [poisonFace, hi, hx', hm', ha, hs', hw, hseat, hpois, hg', Bool.not_true, bne_self_eq_false, Bool.or_self, Bool.false_eq_true, if_false]
  rfl

/-- What a read of neither an access nor a neighbour leaves (R308). -/
theorem poisonRead_other_spec (s : State) (granule : Nat) {reader : Origin} (ha : ∀ id, reader ≠ .access id)
    (hn : ∀ r, reader ≠ .neighbour r) :
    ∃ t, exec (.poisonRead granule reader) s = .next t ∧ SameMemory s t ∧ t.mod.errCount = s.mod.errCount + 1 ∧
      physOf s (granule / 8 * 8) ∈ t.mod.poison ∧ ∀ g ∈ s.mod.poison, g ∈ t.mod.poison := by
  have hexec := exec_poisonRead_other s granule ha hn
  generalize physOf s (granule / 8 * 8) = g at hexec
  refine ⟨_, hexec, fun a => by rw [countError_mem, markPoison, updMod_mem], ?_⟩
  rw [countError_mod]
  exact ⟨rfl, (mem_poison_markPoison ..).mpr (.inl rfl), fun x hx => (mem_poison_markPoison ..).mpr (.inr hx)⟩

section
variable {s : State} {granule : Nat}

/-- What a load that meets the poisoned granule leaves (R307, R308; log 52). -/
theorem poisonRead_load_spec {id pa : Nat} {a : Access} {m : Member} (ha : tabGet s.accs id = some a) (hp : a.phase = .issued)
    (ht : a.tgt = .loc pa) (hk : a.kind = .load) (hc : crosses s a = false) (ho : orderPasses s id a = true)
    (hm : memberAt s a.member = some m) (hlo : physOf s (granule / 8 * 8) < physOf s pa + a.size)
    (hhi : physOf s pa < physOf s (granule / 8 * 8) + 8) (hr : oneRun s pa a.size = true)
    (hf : firstFree (coreAt s a.core).log 64 0 < 64) :
    ∃ t b e j, exec (.poisonRead granule (.access id)) s = .next t ∧ SameMemory s t ∧ t.mod.errCount = s.mod.errCount + 1 ∧
      physOf s (granule / 8 * 8) ∈ t.mod.poison ∧ tabGet t.accs id = some b ∧ b.phase = .logged ∧ b.heldCause = 1 ∧
      tabGet (coreAt t a.core).log (firstFree (coreAt s a.core).log 64 0) = some e ∧ e.acc = id ∧ e.cause = 1 ∧
      t.mod.jobs = s.mod.jobs ++ [j] ∧ j.kind = .poison ∧ j.launch = a.launch ∧ j.core = a.core := by
  have hexec := exec_poisonRead_load ha hp ht hk hc ho hlo hhi hr
  generalize physOf s (granule / 8 * 8) = g at hexec
  obtain ⟨img, hout⟩ := poisonAccess_load (s := markPoison s g) ha hk hm hf
  obtain ⟨hmem, -, -, haccs, hcores, herr, hpois, j, hjobs, hj⟩ := poisonOut_spec (poisonLogged (markPoison s g) id a m) a.launch a.core img
  have hlog := log_poisonLogged (markPoison s g) id a m
  refine ⟨_, { a with heldCause := 1, phase := .logged, fetched := none }, logEntryOf (markPoison s g) m id { a with heldCause := 1 } 0, j,
    hexec.trans (congrArg _ hout), fun x => by rw [hmem]; rfl, herr, ?_, ?_, rfl, rfl,
    ?_, rfl, rfl, hjobs, hj⟩
  · rw [hpois]
    exact (mem_poison_markPoison ..).mpr (.inl rfl)
  · rw [haccs]
    exact acc_poisonLogged ha m
  · rw [hcores]
    exact hlog

/-- What a neighbour read that meets the poisoned granule leaves (R308). -/
theorem poisonRead_neighbour_spec {r : Nat} {x : NbrRead} {m : Member} (hx : tabGet s.nbrs r = some x)
    (hm : memberAt s x.reader = some m) (ha : x.arrived = true) (hs : readServed s x = true) (hw : m.wait = .nbr x.dir x.face)
    (hseat : seated m = true) (hg : faceGranule s x = some (physOf s (granule / 8 * 8))) :
    ∃ t j, exec (.poisonRead granule (.neighbour r)) s = .next t ∧ SameMemory s t ∧ t.members = s.members ∧ t.nbrs = s.nbrs ∧
      t.mod.errCount = s.mod.errCount + 1 ∧ physOf s (granule / 8 * 8) ∈ t.mod.poison ∧
      t.mod.jobs = s.mod.jobs ++ [j] ∧ j.kind = .poison ∧ j.launch = m.launch ∧ j.core = m.core := by
  obtain ⟨img, hexec⟩ := exec_poisonRead_neighbour hx hm ha hs hw hseat hg
  generalize physOf s (granule / 8 * 8) = g at hexec
  obtain ⟨hmem, hmembers, hnbrs, -, -, herr, hpois, j, hjobs, hj⟩ := poisonOut_spec (markPoison s g) m.launch m.core img
  refine ⟨_, j, hexec, fun x => by rw [hmem]; rfl, hmembers, hnbrs, herr, ?_, hjobs, hj⟩
  rw [hpois]
  exact (mem_poison_markPoison ..).mpr (.inl rfl)

end

/-- A checkpoint of an archived context is due PERIOD after its last close, but in interval 0 (R303). -/
def CheckpointOwed (s : State) (c : Ctx) : Prop :=
  c.archived = true ∧ c.dueSent = false ∧ c.interval ≠ 0 ∧ c.lastClose + s.mod.period.toNat * 4800 ≤ s.mod.time

/-- A context's checkpoint is due: its entry is pushed and an I/O event raised (R303). -/
def pushDue (s : State) (launch core : Nat) (c : Ctx) : State :=
  raiseEvent (updMod (updCtx s launch core fun x => { x with dueSent := true }) fun m => { m with due := m.due ++ [(core, c.number)] })
    moduleEvent

theorem checkpointOwed_iff (s : State) (c : Ctx) : CheckpointOwed s c ↔
    (!c.archived || c.dueSent || c.interval == 0 || decide (s.mod.time < c.lastClose + s.mod.period.toNat * 4800)) = false := by
  simp [CheckpointOwed, and_assoc]

section
variable {s : State} {launch core : Nat} {c : Ctx} (hc : ctxAt s launch core = some c)
include hc

theorem exec_checkpointDue : exec (.checkpointDue launch core) s =
    .next (if !c.archived || c.dueSent || c.interval == 0 || decide (s.mod.time < c.lastClose + s.mod.period.toNat * 4800) then s
      else pushDue s launch core c) := by
  simp only [exec, execCheckpointDue, hc]
  split <;> rfl

theorem idle_checkpointDue (h : ¬ CheckpointOwed s c) : Idle (.checkpointDue launch core) s := by
  rw [checkpointOwed_iff, Bool.not_eq_false] at h
  rw [Idle, exec_checkpointDue hc, if_pos h]

theorem checkpointDue_spec (h : CheckpointOwed s c) : ∃ t c', exec (.checkpointDue launch core) s = .next t ∧ SameMemory s t ∧
    t.mod.due = s.mod.due ++ [(core, c.number)] ∧ t.mod.events ≠ [] ∧ ctxAt t launch core = some c' ∧ c'.dueSent = true := by
  have hput := (onlyCtx_updCtx s launch core fun x => { x with dueSent := true }).ctx
  rw [hc] at hput
  refine ⟨pushDue s launch core c, { c with dueSent := true }, ?_, fun _ => rfl, rfl, ?_, hput, rfl⟩
  · rw [exec_checkpointDue hc, (checkpointOwed_iff ..).mp h, if_neg Bool.false_ne_true]
  · simp [pushDue, raiseEvent, updMod]

end

end Sys2Proof.Proofs
end

section
/-!
PROOF. The appraiser (R302): the core that replays a unit, and what the end of a replay leaves.
-/
set_option linter.constructorNameAsVariable false
namespace Sys2Proof.Proofs
open Sys2Proof.Machine Sys2Proof.Safety

/-- The cores that exist, in rising order (R2). -/
theorem coresInOrder : (fieldIds.flatMap coresOf).Pairwise (· < ·) := by
  rw [List.pairwise_flatMap]
  refine ⟨fun f _ => ?_, ?_⟩
  · exact List.pairwise_map.mpr (List.pairwise_lt_range.imp fun h => by omega)
  · refine (List.Pairwise.filter _ List.pairwise_lt_range).imp fun {f g} h => ?_
    intro a ha b hb
    rw [mem_coresOf] at ha hb
    omega

theorem mem_cores {g : Nat} (h : coreExists g = true) : g ∈ fieldIds.flatMap coresOf := by
  simp only [coreExists, Bool.and_eq_true, decide_eq_true_eq] at h
  exact List.mem_flatMap.mpr ⟨g / 64, List.mem_filter.mpr ⟨List.mem_range.mpr (by omega), h.2⟩, (mem_coresOf ..).mpr rfl⟩

/-- Of a list in rising order the first that is found is the least. -/
theorem find?_least {l : List Nat} {p : Nat → Bool} {r : Nat} (hl : l.Pairwise (· < ·)) (h : l.find? p = some r) {g : Nat}
    (hg : g ∈ l) (hlt : g < r) : p g = false := by
  obtain ⟨hr, as, bs, rfl, has⟩ := List.find?_eq_some_iff_append.mp h
  rcases List.mem_append.mp hg with hg | hg
  · simpa using has g hg
  · have hle : r ≤ g := by
      rcases List.mem_cons.mp hg with rfl | hg
      · exact Nat.le_refl _
      · exact Nat.le_of_lt ((List.pairwise_cons.mp (List.pairwise_append.mp hl).2.1).1 g hg)
    omega

/-- The core that replays a unit is the unclaimed one of lowest number in another field (R302). -/
theorem replayCore_eq_some {s : State} {origin r : Nat} (h : replayCore s origin = some r) :
    fieldOf r ≠ fieldOf origin ∧ (coreAt s r).eng.owner = none ∧
      ∀ g, g < r → coreExists g = true → fieldOf g ≠ fieldOf origin → isOnline s (fieldOf g) = true → (coreAt s g).eng.owner ≠ none := by
  have hr := List.find?_some h
  simp only [Bool.and_eq_true, bne_iff_ne, ne_eq, Option.isNone_iff_eq_none] at hr
  refine ⟨hr.1.1, hr.2, fun g hlt he hf ho hn => ?_⟩
  have hp := find?_least coresInOrder h (mem_cores he) hlt
  simp [hf, ho, hn] at hp

/-- Contexts are switched out one by one, each with its own image (R302). -/
def switchOutAll (core : Nat) (l : List (Nat × Ctx)) (s : State) : State :=
  l.foldl (fun t e => switchFor (freeImage t).2 .quarantine (e.1 / 4096) core (freeImage t).1) s

theorem quarantine_eq (s : State) (core : Nat) :
    quarantine s core = switchOutAll core (ctxsOf s core) (updCore s core fun u => { u with quarantined := true }) := rfl

/-- Switch-outs that begin add jobs and change contexts, and nothing else (R277). -/
theorem switchOutAll_rest (core : Nat) (l : List (Nat × Ctx)) (s : State) : ∃ js, switchOutAll core l s =
    { s with ctxs := (switchOutAll core l s).ctxs, sched := (switchOutAll core l s).sched, mod := { s.mod with jobs := js } } := by
  induction l generalizing s with
  | nil => exact ⟨s.mod.jobs, rfl⟩
  | cons e r ih =>
    obtain ⟨js, h⟩ := ih (switchFor (freeImage s).2 .quarantine (e.1 / 4096) core (freeImage s).1)
    exact ⟨js, h⟩

/-- A step of the switch-outs leaves a context as it was, or with its switch-out begun. -/
theorem tabGet_switchStep (core : Nat) (e : Nat × Ctx) (s : State) (n : Nat) :
    tabGet (switchFor (freeImage s).2 .quarantine (e.1 / 4096) core (freeImage s).1).ctxs n =
      if n = ctxKey (e.1 / 4096) core then (tabGet s.ctxs n).map (begunSwitch s.mod.time) else tabGet s.ctxs n :=
  tabGet_beginSwitch (freeImage s).2 (e.1 / 4096) core n

/-- A context that is switching goes on switching. -/
theorem switching_switchOutAll (core : Nat) (l : List (Nat × Ctx)) {s : State} {n : Nat} {c : Ctx} (h : tabGet s.ctxs n = some c)
    (hs : c.switching = true) : ∃ v, tabGet (switchOutAll core l s).ctxs n = some v ∧ v.switching = true := by
  induction l generalizing s c with
  | nil => exact ⟨c, h, hs⟩
  | cons e r ih =>
    have hstep := tabGet_switchStep core e s n
    rw [h] at hstep
    split at hstep
    · exact ih hstep (switching_begunSwitch _ (.inr hs))
    · exact ih hstep hs

/-- Every context of the list that is in comes to be switching. -/
theorem switchOutAll_switching {core : Nat} {l : List (Nat × Ctx)} {s : State} {e : Nat × Ctx} {c : Ctx} (he : e ∈ l)
    (hcore : e.1 % 4096 = core) (h : tabGet s.ctxs e.1 = some c) (ho : c.isOut = false) :
    ∃ v, tabGet (switchOutAll core l s).ctxs e.1 = some v ∧ v.switching = true := by
  induction l generalizing s c with
  | nil => cases he
  | cons a r ih =>
    have hstep := tabGet_switchStep core a s e.1
    rw [h] at hstep
    split at hstep
    · exact switching_switchOutAll core r hstep (switching_begunSwitch _ (.inl ho))
    · next hne =>
      rcases List.mem_cons.mp he with rfl | hr
      · exact absurd (by unfold ctxKey; omega) hne
      · exact ih hr hstep ho

/-- A core that is quarantined, with its contexts on their way out (R302). -/
theorem quarantine_spec (s : State) (core : Nat) : let t := quarantine s core
    (∃ js, t.mod = { s.mod with jobs := js }) ∧ t.mem = s.mem ∧ (coreAt t core).quarantined = true ∧
      (Keyed s.ctxs → ∀ e ∈ ctxsOf s core, ∃ c, tabGet t.ctxs e.1 = some c ∧ c.switching = true) := by
  obtain ⟨js, h⟩ := switchOutAll_rest core (ctxsOf s core) (updCore s core fun u => { u with quarantined := true })
  rw [← quarantine_eq] at h
  refine ⟨⟨js, by rw [h]; rfl⟩, by rw [h]; rfl, ?_, fun hk e he => ?_⟩
  · have hc : coreAt (quarantine s core) core = coreAt (updCore s core fun u => { u with quarantined := true }) core := by rw [h]; rfl
    rw [hc, coreAt_updCore_same]
  · have hm := he
    simp only [ctxsOf, List.mem_filter, Bool.and_eq_true, beq_iff_eq, Bool.not_eq_true'] at hm
    obtain ⟨hmem, hcore, hout⟩ := hm
    rw [quarantine_eq]
    exact switchOutAll_switching he hcore (tabGet_of_mem hk hmem) hout

/-- The appraiser once a unit's replay has ended and counts as sampled (R302). -/
def replayed (s : State) (rest : List Unit301) : State :=
  (drawFree (updMod s fun m => { m with units := rest, sampled := m.sampled + 1, replay := none })).2

section
variable (s : State) (rest : List Unit301)

theorem replayed_mem : (replayed s rest).mem = s.mem := by simp [replayed]
theorem replayed_cores : (replayed s rest).cores = s.cores := by simp [replayed]
theorem replayed_ctxs : (replayed s rest).ctxs = s.ctxs := by simp [replayed]
theorem replayed_mod : (replayed s rest).mod = { s.mod with units := rest, sampled := s.mod.sampled + 1, replay := none } := rfl

end

/-- The mismatch of a unit's signatures, with the suspect that it names (R302). -/
def mismatched (s : State) (u : Unit301) (r : Nat) : State :=
  raiseEvent (updMod s fun m => { m with mismatch := m.mismatch + 1, suspect := m.suspect.or (some (u.core, r, u.launch)) }) moduleEvent

section
variable (s : State) (u : Unit301) (r : Nat)

theorem mismatched_mem : (mismatched s u r).mem = s.mem := by simp [mismatched, raiseEvent]
theorem mismatched_ctxs : (mismatched s u r).ctxs = s.ctxs := by simp [mismatched, raiseEvent]
theorem mismatched_mod : (mismatched s u r).mod = { s.mod with
    mismatch := s.mod.mismatch + 1, suspect := s.mod.suspect.or (some (u.core, r, u.launch)),
    events := s.mod.events ++ [moduleEvent] } := rfl

end

/-- The end of a replay: agreement or mismatch, which between sound arrays the signature of the captured inputs decides (R302). -/
theorem endReplay_cases (s : State) (u : Unit301) (rest : List Unit301) (r : Nat) :
    let sound := Config.arraySound u.core = true ∧ Config.arraySound r = true
    ((sound → replaySignature u = u.signature) ∧ endReplay s u rest r = replayed s rest) ∨
    ((sound → replaySignature u ≠ u.signature) ∧ endReplay s u rest r = quarantine (mismatched (replayed s rest) u r) u.core) := by
  intro sound
  generalize hagrees : (if Config.arraySound u.core && Config.arraySound r then replaySignature u == u.signature
    else Config.freeChoice s.sched.free % 2 == 0) = agrees
  have hend : endReplay s u rest r =
      if agrees then replayed s rest else quarantine (mismatched (replayed s rest) u r) u.core := by
    rw [← hagrees]
    rfl
  have hsound : sound → (replaySignature u == u.signature) = agrees := fun h => by simpa [h.1, h.2] using hagrees
  rw [hend]
  cases agrees with
  | true => exact .inl ⟨fun h => by simpa using hsound h, rfl⟩
  | false => exact .inr ⟨fun h => by simpa using hsound h, rfl⟩

/-- What the end of a replay leaves (R302). -/
theorem endReplay_spec (s : State) (u : Unit301) (rest : List Unit301) (r : Nat) :
    let t := endReplay s u rest r
    let sound := Config.arraySound u.core = true ∧ Config.arraySound r = true
    SameMemory s t ∧ t.mod.units = rest ∧ t.mod.sampled = s.mod.sampled + 1 ∧ t.mod.replay = none ∧
      (((sound → replaySignature u = u.signature) ∧
          t.mod.mismatch = s.mod.mismatch ∧ t.mod.suspect = s.mod.suspect ∧ t.cores = s.cores ∧ t.ctxs = s.ctxs) ∨
        ((sound → replaySignature u ≠ u.signature) ∧
          t.mod.mismatch = s.mod.mismatch + 1 ∧ t.mod.suspect = s.mod.suspect.or (some (u.core, r, u.launch)) ∧
          (coreAt t u.core).quarantined = true ∧
          (Keyed s.ctxs → ∀ e ∈ ctxsOf s u.core, ∃ c, tabGet t.ctxs e.1 = some c ∧ c.switching = true))) := by
  rcases endReplay_cases s u rest r with ⟨hsig, he⟩ | ⟨hsig, he⟩
  · rw [he]
    exact ⟨fun a => by rw [replayed_mem], by rw [replayed_mod], by rw [replayed_mod], by rw [replayed_mod],
      .inl ⟨hsig, by rw [replayed_mod], by rw [replayed_mod], replayed_cores .., replayed_ctxs ..⟩⟩
  · obtain ⟨⟨js, hmod⟩, hmem, hq, hout⟩ := quarantine_spec (mismatched (replayed s rest) u r) u.core
    have hctxs : (mismatched (replayed s rest) u r).ctxs = s.ctxs := by rw [mismatched_ctxs, replayed_ctxs]
    rw [mismatched_mod, replayed_mod] at hmod
    rw [mismatched_mem, replayed_mem] at hmem
    rw [hctxs, ctxsOf, hctxs] at hout
    rw [he]
    exact ⟨fun a => by rw [hmem], by rw [hmod], by rw [hmod], by rw [hmod], .inr ⟨hsig, by rw [hmod], by rw [hmod], hq, hout⟩⟩

/-- Settles O35: each step by the state that it finds due, and what it leaves by the rule of the switch-out, the log or the replay that it
begins. -/
theorem watchdogsPoisonAndAudit : Obligations.WatchdogsPoisonAndAudit := by
  refine ⟨⟨fun s launch core image c l hc hl => ⟨fun h => ?_, fun h => idle_watchdogNoProgress hc hl image h, fun h => ?_,
      fun h => idle_watchdogNoRetire hc hl image h⟩, fun s core p x c hp hx hc => ⟨fun h => idle_docentOverrunExpiry hp hx hc h,
      fun h _ _ => docentOverrun_spec hp hx hc h⟩⟩,
    ⟨fun s granule reader ha hn => ?_, fun s granule id a pa ha hp ht hk hc ho m hm hlo hhi hr hf => ?_,
      fun s granule r x m hx hm ha hs hw hseat hg => ?_, fun s launch core c hc =>
      ⟨fun h => idle_checkpointDue hc h, fun h => checkpointDue_spec hc h⟩⟩,
    fun s => ⟨fun hu => ?_, fun u rest hu => ⟨fun hr hn => ?_, fun r hr hc => ⟨replayCore_eq_some hc, ?_⟩, fun r hr => ?_⟩⟩⟩
  · obtain ⟨c', j, h'⟩ := watchdogOut_spec hc image h.2.1 1
    exact ⟨_, c', j, exec_watchdogNoProgress hc hl image h, h'⟩
  · obtain ⟨c', j, h'⟩ := watchdogOut_spec hc image h.2.1 2
    exact ⟨_, c', j, exec_watchdogNoRetire hc hl image h, h'⟩
  · exact poisonRead_other_spec s granule ha hn
  · exact poisonRead_load_spec ha hp ht hk hc ho hm hlo hhi hr hf
  · exact poisonRead_neighbour_spec hx hm ha hs hw hseat hg
  · simp [Idle, exec, execAppraiserReplay, hu]
  · simp [Idle, exec, execAppraiserReplay, hu, hr, hn]
  · exact ⟨updMod s fun m => { m with replay := some r }, by simp only [exec, execAppraiserReplay, hu, hr, hc], rfl⟩
  · exact ⟨_, by simp only [exec, execAppraiserReplay, hu, hr], endReplay_spec s u rest r⟩

end Sys2Proof.Proofs
end

section
/-!
PROOF. The turns of the machine (R117, R123, R283; log 4).
-/
set_option linter.constructorNameAsVariable false
namespace Sys2Proof.Proofs
open Sys2Proof.Machine Sys2Proof.Safety

/-- The core that issues next has a group. -/
theorem issuingCore_spec {s : State} {c : Nat} (h : issuingCore s = some c) : ∃ e ∈ s.cores, e.1 = c ∧ e.2.issue ≠ none := by
  simp only [issuingCore, Option.map_eq_some_iff] at h
  obtain ⟨e, he, hc⟩ := h
  obtain ⟨hm, hi⟩ := List.mem_filter.mp (mem_of_bestBy he)
  exact ⟨e, hm, hc, Option.isSome_iff_ne_none.mp hi⟩

/-- No other core's turn comes where the named one is not ahead of a core that has a group (R123). -/
theorem dueCore_eq_self {s : State} {core : Nat}
    (h : ∀ e ∈ s.cores, e.2.issue ≠ none → (coreAt s core).ticks ≤ (coreAt s e.1).ticks) : dueCore s core = core := by
  unfold dueCore
  cases hc : issuingCore s with
  | none => rfl
  | some c =>
    obtain ⟨e, he, rfl, hi⟩ := issuingCore_spec hc
    exact if_neg (Nat.not_lt.mpr (h e he hi))

theorem noteGang_rest (s : State) (core id : Nat) : noteGang s core id = { s with cores := (noteGang s core id).cores } := by
  unfold noteGang
  split <;> rfl

/-- The next member of a slot that has begun takes the word at the slot (R117). -/
theorem beginMember_started {s : State} {core id : Nat} {g : Issue} {todo : List Nat} (hi : (coreAt s core).issue = some g)
    (ht : g.todo = id :: todo) (hs : g.started = true) : ∃ s1 k, beginMember s core = some s1 ∧
      s1.sched.cur = some k ∧ k.core = core ∧ k.member = id ∧ k.h = g.h ∧ k.slot = g.slot ∧
      k.word = g.words.getD (g.slot + 1) 0 ∧ s1.members = s.members ∧ s1.mem = s.mem := by
  have hslot : startSlot s core g = (s, g) := if_pos hs
  have hn := noteGang_rest s core id
  unfold beginMember
  simp only [hi, hslot, ht]
  refine ⟨_, _, rfl, rfl, rfl, rfl, rfl, rfl, rfl, ?_, ?_⟩
  · show (noteGang s core id).members = _
    rw [hn]
  · show (noteGang s core id).mem = _
    rw [hn]

/-- A step takes the turn that waits first. -/
theorem step_turn {s : State} {t : Turn} {rest : List Turn} (h : s.sched.turns = t :: rest) :
    step s = mapNext afterTurn (takeTurn { s with sched := { s.sched with turns := rest } } t) := by
  simp only [step, nextTurn, h]

/-- A member's turn runs the instruction that its word decodes to; one whose record finds no room waits (R117, R283). -/
theorem issueOne_decoded {s s1 : State} {core : Nat} {k : Cur} {i : Instr} (hb : beginMember s core = some s1)
    (hk : s1.sched.cur = some k) (hd : decodeWord k.word = .ok i) : issueOne s core =
      mapNext (fun t => accrueStep s (endMember i (if recordRoom s1 t then t else waitForRecord s1)) core) (exec i s1) := by
  simp only [issueOne, hb, hk, issueWord, hd]
  cases exec i s1 <;> rfl

/-- A turn that leaves the state `t` is followed by what follows every turn. -/
theorem step_next {s t : State} {a : Turn} {rest : List Turn} (h : s.sched.turns = a :: rest)
    (ht : takeTurn { s with sched := { s.sched with turns := rest } } a = .next t) : step s = .next (afterTurn t) := by
  rw [step_turn h, ht]
  rfl

/-- A step of the table runs its row, unless a member's record finds no room (R283). -/
theorem happen_next {s t : State} {i : Instr} (h : exec i s = .next t) :
    happen i s = .next (if writesForMember i && !recordRoom s t then s else t) := by
  simp only [happen, h]

section
variable {s : State} (h : s.sched.turns = [])
include h

/-- With no turn waiting, a pick that is due comes first (log 4). -/
theorem step_pick {t : State} (hp : pickNow s = some t) : step s = .next (afterTurn t) := by
  simp only [step, nextTurn, h, hp]

/-- Without a pick, the core that issues next does (log 4). -/
theorem step_issue {core : Nat} (hp : pickNow s = none) (hc : issuingCore s = some core) :
    step s = mapNext afterTurn (issueOne s core) := by
  simp only [step, nextTurn, h, hp, hc]

/-- Where no core issues either, the turns that come next are drawn (log 4). -/
theorem step_draw (hp : pickNow s = none) (hc : issuingCore s = none) :
    step s = .next { s with sched := { s.sched with turns := nextTurns s.sched.drawn, drawn := s.sched.drawn + 1 } } := by
  simp only [step, nextTurn, h, hp, hc]

end

theorem pickNow_due {s t : State} {core : Nat} (hp : pickDue s = some core) (he : exec (.pick core 0) s = .next t)
    (hr : recordRoom s t = true) : pickNow s = some t := by
  have he' : execPick core 0 s = .next t := he
  simp [pickNow, hp, he', hr]

theorem pickNow_none {s : State} (hp : pickDue s = none) : pickNow s = none := by
  simp [pickNow, hp]

/-- Settles O57: a step takes the turn that waits first, each kind of turn by its own rule, and with no turn waiting goes on by
what is due. -/
theorem stepRunsTheTurn : Obligations.StepRunsTheTurn := by
  refine ⟨fun s named rest hs => ⟨dueCore_eq_self, fun g id todo => beginMember_started, fun s1 k i hb hk hd => ?_⟩, fun s rest =>
    ⟨fun i t hs he => step_next hs (happen_next he), fun q hs => step_next hs rfl, fun l hs => step_next hs rfl,
      fun f hs => step_next hs rfl, fun l hs => step_next hs rfl, fun hs => step_next hs rfl, fun core line hs => step_next hs rfl,
      fun port hs => step_next hs rfl, fun core g hs => step_next hs rfl, fun i n hs => step_next hs rfl,
      fun hs core t hp he hr => step_pick hs (pickNow_due hp he hr), fun hs hp core => step_issue hs (pickNow_none hp),
      fun hs hp => step_draw hs (pickNow_none hp)⟩⟩
  have hstep := (step_turn hs).trans (congrArg (mapNext afterTurn) (issueOne_decoded hb hk hd))
  exact ⟨fun t ht => by rw [hstep, ht]; rfl, fun f hf => by rw [hstep, hf]; rfl, fun f hf => by rw [hstep, hf]; rfl⟩

end Sys2Proof.Proofs
end

section
/-!
PROOF. The decision queue (R124, R125): what fences and pops leave of it and of its members.
-/
set_option linter.constructorNameAsVariable false
namespace Sys2Proof.Proofs
open Sys2Proof.Machine Sys2Proof.Safety

/-- A form whose check asks for the guard and whose guarded-off effect is none (R55, R74). -/
theorem actFormOff_one {mk : Common → Instr} {check : State → Member → Common → Option Nat} {o : Ty × Src}
    {P : State → Cur → Member → Word64 → State → Prop} {run : State → Common → Cur → Member → List Word64 → State}
    (hx : ∀ s c, exec (mk c) s = runForm s c (check s · c) [o] (fun _ _ => s) (run s c))
    (hr : ∀ s c k m x, Issuing s k m → P s k m x (run s c k m [x])) : ActFormOff mk check [o] (arg1 P) := by
  intro s k m c h
  rw [hx]
  simp only [runForm, onIssuing, h.cur, h.member]
  refine ⟨fun x hf => by simp [hf], fun hf => ⟨fun ho => ?_, fun hr' => ⟨fun vs hv => ?_, fun d g tg a ha => ?_⟩⟩⟩
  · simp [hf, show m.r.getP c.guard = c.sense from ho]
  · obtain ⟨x, rfl⟩ := eq_one_of_len (readAll_length s m [o] [] vs hv)
    exact ⟨_, by simp [hf, show ¬ m.r.getP c.guard = c.sense from hr', hv], hr s c k m x h⟩
  · simp [hf, show ¬ m.r.getP c.guard = c.sense from hr', ha]

/-- A producer without operands whose check asks for the guard (R55, R60, R74). -/
theorem producerFormOff_none {mk : Common → Instr} {check : State → Member → Common → Option Nat} {d : Dst} {wide : Bool}
    {P : State → Cur → Member → Common → List Word64 → State → Prop}
    {run : State → Common → Cur → Member → List Word64 → State}
    (hx : ∀ s c, exec (mk c) s = runForm s c (check s · c) [] (guardedOff s d wide) (run s c))
    (hr : ∀ s c k m, Issuing s k m → P s k m c [] (run s c k m [])) : ProducerFormOff mk check d wide [] P := by
  intro s k m c h
  rw [hx]
  simp only [runForm, onIssuing, h.cur, h.member]
  refine ⟨fun x hf => by simp [hf], fun hf => ⟨fun ho => ?_, fun hr' => ⟨fun vs hv => ?_, fun d g tg a ha => nomatch ha⟩⟩⟩
  · exact ⟨_, by simp [hf, show m.r.getP c.guard = c.sense from ho], writes_guardedOff h.member d wide⟩
  · cases hv
    exact ⟨_, by simp [hf, show ¬ m.r.getP c.guard = c.sense from hr', readAll], hr s c k m h⟩

/-! ## The fence of a member that has none open -/

/-- A fence without a token that has nothing to wait for changes what its member is owed alone (R257, R259). -/
theorem onlyMember_clearFence {s : State} {id : Nat} {m : Member} {f : FenceRec} (hm : memberAt s id = some m) (ht : f.tok = none) :
    ∃ v, OnlyMember s (clearFence s id f) id v ∧ v = { m with owed := v.owed, seen := v.seen } := by
  unfold clearFence
  rw [ht]
  cases f.acq with
  | false => exact ⟨m, .same hm, rfl⟩
  | true => exact ⟨_, onlyMember_updMember hm _, rfl⟩

/-- One fence without a token and without a TRIG, as it is settled (R259). -/
theorem onlyMember_settleFences {s : State} {id : Nat} {m : Member} {f : FenceRec} (hm : memberAt s id = some m) (hf : m.fences = [f])
    (ht : f.tok = none) (hg : f.trig = false) :
    ∃ v, OnlyMember s (settleFences s id) id v ∧ v = { m with fences := v.fences, owed := v.owed, seen := v.seen } := by
  unfold settleFences
  simp only [hm, hf, List.map_cons, List.map_nil]
  generalize hfs : { f with waits := _, reads := _, need := _ } = f'
  have ht' : f'.tok = none := by rw [← hfs]; exact ht
  have hg' : f'.trig = false := by rw [← hfs]; exact hg
  generalize List.map _ (List.filter _ [f']) = kept
  have h1 := onlyMember_updMember hm fun v => { v with fences := kept }
  obtain ⟨v, h2, hv⟩ := onlyMember_clearFence (f := f') h1.member ht'
  cases hown : f'.waits.isEmpty && f'.reads.isEmpty with
  | false =>
    simp only [List.filter_cons, hown, List.filter_nil, Bool.false_eq_true, if_false, List.foldl_nil]
    exact ⟨_, h1, rfl⟩
  | true =>
    refine ⟨v, ?_, by rw [hv]⟩
    have he : endFence (updMember s id fun v => { v with fences := kept }) id f' =
        clearFence (updMember s id fun v => { v with fences := kept }) id f' := by
      unfold endFence
      rw [hg']
      rfl
    simp only [List.filter_cons, hown, if_true, List.filter_nil, List.foldl_cons, List.foldl_nil, he, ite_self]
    exact h1.trans h2

/-- A fence without a token and without a TRIG, of a member with no fence open: the member alone changes, in its fences and in what it is
owed (R259). -/
theorem onlyMember_fence {s : State} {id : Nat} {m : Member} (hm : memberAt s id = some m) (hf : m.fences = []) (rel acq : Bool)
    (scope : MScope) : ∃ v, OnlyMember s (fence s id rel acq scope none false) id v ∧
      v = { m with fences := v.fences, owed := v.owed, seen := v.seen } := by
  unfold fence
  simp only [hm]
  generalize hF : FenceRec.mk _ _ _ _ _ _ _ _ _ _ = f
  have ht : f.tok = none := by rw [← hF]
  have hg : f.trig = false := by rw [← hF]
  have h1 := onlyMember_updMember hm fun v => { v with fences := v.fences ++ [f] }
  obtain ⟨v, h2, hv⟩ := onlyMember_settleFences h1.member (by rw [hf]; rfl) ht hg
  exact ⟨v, h1.trans h2, by rw [hv]⟩

/-! ## Waiting pushers and waiters -/

theorem membersOnly_wakePusher (s : State) (core : Nat) : MembersOnly s (wakePusher s core) := by
  unfold wakePusher
  split
  · exact membersOnly_wake ..
  · rfl

/-- A member keeps all but its wait as a pusher is woken (R125). -/
theorem memberAt_wakePusher {s : State} {id : Nat} {m : Member} (hm : memberAt s id = some m) (core : Nat) :
    ∃ v, memberAt (wakePusher s core) id = some v ∧ v = { m with wait := v.wait, readySince := v.readySince } ∧
      (m.wait = .ready → v.wait = .ready) := by
  unfold wakePusher
  split
  · next e _ =>
    by_cases he : id = e.1
    · rw [← he]
      exact ⟨_, memberAt_wake hm, rfl, fun _ => rfl⟩
    · exact ⟨m, (memberAt_wake_other s he).trans hm, rfl, fun h => h⟩
  · exact ⟨m, hm, rfl, fun h => h⟩

/-- Entries that nobody waits for stay in the queue. -/
theorem serveDq_noWaiters {s : State} {core : Nat} (h : (coreAt s core).dqWaiters = []) (n : Nat) : serveDq s core n = s := by
  cases n with
  | zero => rfl
  | succ n =>
    unfold serveDq
    simp only [h]
    split
    · next hw => exact nomatch hw
    · rfl

theorem serveDq_empty {s : State} {core : Nat} (h : (coreAt s core).dq = []) (n : Nat) : serveDq s core n = s := by
  cases n with
  | zero => rfl
  | succ n =>
    unfold serveDq
    simp only [h]

/-! ## DQPUSH -/

/-- The entry that a push appends (R125). -/
def pushedEntry (s : State) (k : Cur) (x : Word64) : DqEntry :=
  { value := lo32 x, held := !((fenceSet s k.member .core).map (·.1)).isEmpty, pusher := k.member,
    waits := (fenceSet s k.member .core).map (·.1) }

/-- DQPUSH of a value (R125). -/
def pushDq (s : State) (k : Cur) (m : Member) (x : Word64) : State :=
  if (coreAt s m.core).dq.length ≥ Config.dqDepth then leaveGroup s k.member k.slot .dqpush
  else serveDq (updCore (releaseFence s k.member .core) m.core fun u => { u with dq := u.dq ++ [pushedEntry s k x] }) m.core Config.dqDepth

theorem pushDq_full {s : State} {k : Cur} {m : Member} (hm : memberAt s k.member = some m) (x : Word64)
    (hl : 16 ≤ (coreAt s m.core).dq.length) : Leaves s (pushDq s k m x) k m .dqpush := by
  rw [pushDq, if_pos (show _ ≥ Config.dqDepth from hl)]
  exact leaves_leaveGroup hm .dqpush

/-- A push that nobody waits for (R125). -/
theorem pushDq_spec {s : State} {k : Cur} {m : Member} (hm : memberAt s k.member = some m) (x : Word64)
    (hl : (coreAt s m.core).dq.length < 16) (hw : (coreAt s m.core).dqWaiters = []) (hf : m.fences = []) :
    SameMemory s (pushDq s k m x) ∧
    OnlyCore { s with members := (pushDq s k m x).members } (pushDq s k m x) m.core
      { coreAt s m.core with dq := (coreAt s m.core).dq ++ [pushedEntry s k x] } ∧
    (∃ v, memberAt (pushDq s k m x) k.member = some v ∧ v.r = m.r ∧ v.lat = m.lat ∧ v.wait = m.wait) ∧
    ∀ n, n ≠ k.member → memberAt (pushDq s k m x) n = memberAt s n := by
  obtain ⟨v, ho, hv⟩ := onlyMember_fence hm hf true false .core
  obtain ⟨ms, hms⟩ : ∃ ms, releaseFence s k.member .core = { s with members := ms } := ⟨_, ho.rest⟩
  have h1 := onlyCore_updCore { s with members := ms } m.core fun u => { u with dq := u.dq ++ [pushedEntry s k x] }
  have hpush : pushDq s k m x =
      updCore { s with members := ms } m.core fun u => { u with dq := u.dq ++ [pushedEntry s k x] } := by
    rw [pushDq, if_neg (show ¬ _ ≥ Config.dqDepth from Nat.not_le.mpr hl), hms, serveDq_noWaiters]
    rw [h1.core]
    exact hw
  have hmember : memberAt { s with members := ms } = memberAt (fence s k.member true false .core none false) := by
    rw [← hms]
    rfl
  rw [hpush]
  refine ⟨fun _ => rfl, h1, ⟨v, (congrFun hmember _).trans ho.member, by rw [hv], by rw [hv], by rw [hv]⟩, fun n hn => ?_⟩
  exact (congrFun hmember n).trans (ho.others n hn)

/-! ## DQPOP -/

/-- DQPOP (R125). -/
def popDq (s : State) (c : Common) (d : Dst) (k : Cur) (m : Member) : State :=
  match (coreAt s m.core).dq, (coreAt s m.core).dqWaiters with
  | e :: rest, [] =>
    if e.held then leaveGroup (updCore s m.core fun u => { u with dqWaiters := [k.member] }) k.member k.slot (.dqpop d)
    else
      wakePusher (acquireFence (result (updCore s m.core fun u => { u with dq := rest }) k c d false (ext e.value)) k.member .core) m.core
  | _, ws => leaveGroup (updCore s m.core fun u => { u with dqWaiters := ws ++ [k.member] }) k.member k.slot (.dqpop d)

/-- A member that finds nothing to take joins the waiters behind those that are there (R125). -/
theorem popDq_waits {s : State} {k : Cur} {m : Member} (hm : memberAt s k.member = some m) (c : Common) (d : Dst)
    (h : (coreAt s m.core).dq = [] ∨ (∃ e rest, (coreAt s m.core).dq = e :: rest ∧ e.held = true) ∨
      (coreAt s m.core).dqWaiters ≠ []) :
    Leaves (updCore s m.core fun v => { v with dqWaiters := v.dqWaiters ++ [k.member] }) (popDq s c d k m) k m (.dqpop d) := by
  have hj : popDq s c d k m =
      leaveGroup (updCore s m.core fun v => { v with dqWaiters := v.dqWaiters ++ [k.member] }) k.member k.slot (.dqpop d) := by
    unfold popDq
    split
    · next e rest hq hws =>
      have hh : e.held = true := by
        rcases h with h | ⟨e', rest', h, hh⟩ | h
        · exact nomatch hq.symm.trans h
        · cases hq.symm.trans h
          exact hh
        · exact absurd hws h
      rw [if_pos hh]
      simp only [updCore, hws, List.nil_append]
    · rfl
  rw [hj]
  exact leaves_leaveGroup (by exact hm) _

/-- A pop of the oldest entry, which is not held and which nobody waits for (R125). -/
theorem popDq_takes {s : State} {k : Cur} {m : Member} {e : DqEntry} {rest : List DqEntry} (hm : memberAt s k.member = some m)
    (c : Common) (d : Dst) (hq : (coreAt s m.core).dq = e :: rest) (hh : e.held = false) (hw : (coreAt s m.core).dqWaiters = [])
    (hf : m.fences = []) :
    SameMemory s (popDq s c d k m) ∧ (coreAt (popDq s c d k m) m.core).dq = rest ∧ (coreAt (popDq s c d k m) m.core).dqWaiters = [] ∧
      ∃ v, memberAt (popDq s c d k m) k.member = some v ∧ Wrote m v k.slot c.k d false ((e.value).zeroExtend 64) := by
  have h0 := onlyCore_updCore s m.core fun u => { u with dq := rest }
  have hm0 : memberAt (updCore s m.core fun u => { u with dq := rest }) k.member = some m := hm
  obtain ⟨v1, h1, e1, r1, l1, -⟩ := writes_result hm0 c d false (ext e.value)
  have hf1 : v1.fences = [] := by rw [e1]; exact hf
  obtain ⟨v2, h2, e2⟩ := onlyMember_fence h1.member hf1 false true .core
  have h12 := h1.trans h2
  obtain ⟨v3, h3, e3, -⟩ := memberAt_wakePusher h2.member m.core
  have hp : popDq s c d k m = wakePusher (acquireFence
      (result (updCore s m.core fun u => { u with dq := rest }) k c d false (ext e.value)) k.member .core) m.core := by
    unfold popDq
    simp [hq, hw, hh]
  have hcore : coreAt (popDq s c d k m) m.core = { coreAt s m.core with dq := rest } := by
    rw [hp, membersOnly_wakePusher, ← h0.core]
    show coreAt (acquireFence _ _ _) m.core = _
    rw [show acquireFence _ _ _ = _ from h12.rest]
    rfl
  refine ⟨fun a => ?_, by rw [hcore], by rw [hcore]; exact hw, v3, by rw [hp]; exact h3, ?_, ?_⟩
  · rw [hp, (membersOnly_wakePusher ..).mem]
    exact h12.memory a
  · rw [e3, e2]
    exact r1
  · rw [e3, e2]
    exact l1

/-! ## The release of an entry -/

/-- The decision queue of a core and its waiters. -/
def queueOf (s : State) (g : Nat) : List DqEntry × List Nat := ((coreAt s g).dq, (coreAt s g).dqWaiters)

theorem queueOf_updCore {f : CoreUnit → CoreUnit} (h : ∀ u, ((f u).dq, (f u).dqWaiters) = (u.dq, u.dqWaiters)) (s : State) (c g : Nat) :
    queueOf (updCore s c f) g = queueOf s g := by
  unfold queueOf
  by_cases hg : g = c
  · rw [hg, coreAt_updCore_same, h]
  · rw [coreAt_updCore_other _ _ hg]

theorem queueOf_retireAs (s : State) (id cat w g : Nat) : queueOf (retireAs s id cat w) g = queueOf s g := by
  unfold retireAs
  split
  · rfl
  · split
    · rw [retireLater, queueOf_updCore]
      exact fun _ => rfl
    · next m _ _ =>
      rw [show queueOf (retireEntry s m.core m.launch (some cat) w) g = queueOf (chargeEnergy s m.core cat w 1) g from rfl,
        chargeEnergy, queueOf_updCore]
      exact fun _ => rfl

theorem MembersOnly.queueOf_eq {s t : State} (h : MembersOnly s t) (g : Nat) : queueOf t g = queueOf s g := by
  rw [h]
  rfl

/-- `v` is `m` but for its tokens, its fences, its TRIG and what it is owed. -/
abbrev SameButFences (m v : Member) : Prop :=
  v = { m with tok := v.tok, drain := v.drain, fences := v.fences, owed := v.owed, seen := v.seen, triggered := v.triggered }

/-- While a member waits for the decision queue, `t` differs from `s` in nothing that its pop meets: memory, the queues and the member's
registers and position stay. -/
structure WaiterKept (s t : State) (id : Nat) : Prop where
  kept : ∀ m d, memberAt s id = some m → m.wait = .dqpop d →
    t.mem = s.mem ∧ (∀ g, queueOf t g = queueOf s g) ∧ ∃ v, memberAt t id = some v ∧ SameButFences m v

theorem WaiterKept.refl (s : State) (id : Nat) : WaiterKept s s id := ⟨fun m _ hm _ => ⟨rfl, fun _ => rfl, m, hm, rfl⟩⟩

theorem WaiterKept.trans {s t u : State} {id : Nat} (h : WaiterKept s t id) (g : WaiterKept t u id) : WaiterKept s u id := by
  refine ⟨fun m d hm hw => ?_⟩
  obtain ⟨a1, a2, v, hv, ev⟩ := h.kept m d hm hw
  obtain ⟨b1, b2, w, hw', ew⟩ := g.kept v d hv (by rw [ev]; exact hw)
  exact ⟨b1.trans a1, fun n => (b2 n).trans (a2 n), w, hw', by rw [SameButFences, ew, ev]⟩

theorem WaiterKept.foldl {α : Type} {id : Nat} {f : State → α → State} (h : ∀ s a, WaiterKept s (f s a) id) (l : List α)
    (s : State) : WaiterKept s (l.foldl f s) id := by
  induction l generalizing s with
  | nil => exact .refl ..
  | cons a r ih => exact (h s a).trans (ih _)

theorem WaiterKept.ofMember {s : State} {id : Nat} {f : Member → Member} (h : ∀ m, SameButFences m (f m)) :
    WaiterKept s (updMember s id f) id :=
  ⟨fun m _ hm _ => ⟨rfl, fun _ => rfl, f m, by rw [memberAt_updMember_same, hm]; rfl, h m⟩⟩

theorem sameButFences_setTok (m : Member) (code n : Nat) : SameButFences m (m.setTok code n) := by
  unfold SameButFences Member.setTok
  split <;> rfl

theorem waiterKept_retireAs (s : State) (id cat w : Nat) : WaiterKept s (retireAs s id cat w) id :=
  ⟨fun m _ hm _ => ⟨mem_retireAs .., queueOf_retireAs s id cat w, m, by rw [memberAt_retireAs, hm], rfl⟩⟩

/-- A token of a member that waits for the queue ends no other wait (R118, R286). -/
theorem waiterKept_tokDec (s : State) (id code : Nat) : WaiterKept s (tokDec s id code) id := by
  refine ⟨fun m d hm hw => ?_⟩
  have hwait : (m.setTok code (tokCount m code - 1)).wait = .dqpop d := by rw [sameButFences_setTok]; exact hw
  have he : tokDec s id code = updMember s id fun m => m.setTok code (tokCount m code - 1) := by
    unfold tokDec
    simp [hm, maskClears, hwait]
  rw [he]
  exact (WaiterKept.ofMember (f := fun m => m.setTok code _) fun v => sameButFences_setTok v code _).kept m d hm hw

theorem waiterKept_clearFence (s : State) (id : Nat) (f : FenceRec) : WaiterKept s (clearFence s id f) id := by
  have h1 : WaiterKept s (match f.tok with | some t => tokDec (retireAs s id 7 1) id t | none => s) id := by
    cases f.tok with
    | none => exact .refl ..
    | some t => exact (waiterKept_retireAs ..).trans (waiterKept_tokDec ..)
  unfold clearFence
  cases f.acq with
  | false => exact h1
  | true => exact h1.trans (.ofMember fun _ => rfl)

theorem waiterKept_countTrig (s : State) (id : Nat) : WaiterKept s (countTrig s id) id := by
  unfold countTrig
  split
  · exact .refl ..
  · split
    · exact .refl ..
    · exact ⟨fun m _ hm _ => ⟨rfl, fun _ => rfl, { m with triggered := true }, by simp [hm], rfl⟩⟩

theorem waiterKept_settleFences (s : State) (id : Nat) : WaiterKept s (settleFences s id) id := by
  unfold settleFences
  split
  · exact .refl ..
  · refine WaiterKept.trans (.ofMember fun _ => rfl) (WaiterKept.foldl (fun t f => ?_) _ _)
    split
    · unfold endFence
      cases f.trig with
      | false => exact waiterKept_clearFence ..
      | true => exact (waiterKept_clearFence ..).trans (waiterKept_countTrig ..)
    · exact waiterKept_clearFence ..

theorem waiterKept_acquireFence (s : State) (id : Nat) (scope : MScope) : WaiterKept s (acquireFence s id scope) id := by
  unfold acquireFence fence
  split
  · exact .refl ..
  · exact WaiterKept.trans (.ofMember fun _ => rfl) (waiterKept_settleFences ..)

/-- A member that has passed its slot has passed it also where its wait ends. -/
theorem passedSlot_woken {m v w : Member} (h : PassedSlot m v) (hw : w = { v with wait := w.wait, readySince := w.readySince })
    (hr : v.wait = .ready → w.wait = .ready) : PassedSlot m w := by
  refine ⟨fun hlt => ?_, fun hle => ?_⟩
  · obtain ⟨hpc, hslot, hwait⟩ := h.1 hlt
    exact ⟨by rw [hw]; exact hpc, by rw [hw]; exact hslot, hr hwait⟩
  · rw [hw]
    exact h.2 hle

/-- A value reaches a waiter, which goes on behind its DQPOP (R125). -/
theorem deliverDq_spec {s : State} {id : Nat} {m : Member} {d : Dst} (hm : memberAt s id = some m) (hw : m.wait = .dqpop d)
    (ht : m.terminating = false) (x : Word) :
    (deliverDq s id x).mem = s.mem ∧ (∀ g, queueOf (deliverDq s id x) g = queueOf s g) ∧
      ∃ v, memberAt (deliverDq s id x) id = some v ∧ PassedSlot m v ∧ v.r = afterResult m.r d false (ext x) := by
  obtain ⟨v1, h1, e1, r1, -⟩ := onlyMember_writeDst hm false (ext x) d
  have h2 := h1.trans (onlyMember_updMember h1.member fun w =>
    { w with lat := w.lat.set (w.slot % 4) (ext x) (Nat.mod_lt _ (by decide)) })
  obtain ⟨hmem, hqueue, v, hv, ev⟩ := ((waiterKept_retireAs _ id 7 1).trans (waiterKept_acquireFence _ id .core)).kept _ d h2.member
    (by rw [e1]; exact hw)
  obtain ⟨w, hwm, hp, -, hr, -⟩ := passedSlot_passSlot hv (by rw [ev, e1]; exact ht)
  have hrest := membersOnly_passSlot (acquireFence (retireAs (updMember (writeDst s id false (ext x) d) id fun w =>
    { w with lat := w.lat.set (w.slot % 4) (ext x) (Nat.mod_lt _ (by decide)) }) id 7 1) id .core) id
  unfold deliverDq
  simp only [hm, hw]
  refine ⟨?_, fun g => ?_, w, hwm, ?_, ?_⟩
  · rw [hrest.mem, hmem, h2.rest]
  · rw [hrest.queueOf_eq, hqueue, h2.rest]
    rfl
  · rw [ev, e1] at hp
    exact hp
  · rw [hr, ev]
    exact r1

/-- The released entries of a core's queue are held no longer (R125). -/
def releasedDq (s : State) (core : Nat) : State :=
  updCore s core fun u => { u with dq := u.dq.map fun e => if allPerformed s e.waits then { e with held := false, waits := [] } else e }

/-- The one entry of a queue, once it is released, reaches the first waiter (R125). -/
theorem dqEntryReleased_delivers {s : State} {core w : Nat} {ws : List Nat} {e : DqEntry} {m : Member} {d : Dst}
    (hws : (coreAt s core).dqWaiters = w :: ws) (hq : (coreAt s core).dq = [e]) (he : allPerformed s e.waits = true)
    (hm : memberAt s w = some m) (hw : m.wait = .dqpop d) (ht : m.terminating = false) :
    ∃ t, exec (.dqEntryReleased core) s = .next t ∧ SameMemory s t ∧ (coreAt t core).dq = [] ∧ (coreAt t core).dqWaiters = ws ∧
      ∃ v, memberAt t w = some v ∧ PassedSlot m v ∧ v.r = afterResult m.r d false ((e.value).zeroExtend 64) := by
  have h1 := onlyCore_updCore (releasedDq s core) core fun u => { u with dq := [], dqWaiters := ws }
  have hrel : coreAt (releasedDq s core) core = { coreAt s core with dq := [{ e with held := false, waits := [] }] } := by
    rw [releasedDq, coreAt_updCore_same, hq]
    simp [he]
  generalize hs1 : updCore (releasedDq s core) core (fun u => { u with dq := [], dqWaiters := ws }) = s1 at h1
  have hm1 : memberAt s1 w = some m := by rw [← hs1]; exact hm
  obtain ⟨hmem, hqueue, v, hv, hp, hr⟩ := deliverDq_spec hm1 hw ht e.value
  obtain ⟨v', hv', ev, hready⟩ := memberAt_wakePusher hv core
  have hwake := membersOnly_wakePusher (deliverDq s1 w e.value) core
  have hq2 : queueOf (wakePusher (deliverDq s1 w e.value) core) core = ([], ws) := by
    rw [hwake.queueOf_eq, hqueue, queueOf, h1.core]
  obtain ⟨hdq, hdw⟩ := Prod.mk.inj hq2
  refine ⟨wakePusher (deliverDq s1 w e.value) core, ?_, fun a => ?_, hdq, hdw, v', hv', passedSlot_woken hp ev hready, ?_⟩
  · show Host.Outcome.next (serveDq (releasedDq s core) core (15 + 1)) = _
    unfold serveDq
    simp only [hrel, hws, Bool.false_eq_true, if_false, hs1]
    rw [serveDq_empty hdq]
  · rw [hwake.mem, hmem, ← hs1]
    rfl
  · rw [ev]
    exact hr

/-- Who may push: the curator alone, but for a guarded-off DQPUSH (R55, R74, R125). -/
theorem dqpushCheck_eq (c : Common) (a : Src) (m : Member) :
    (if isCurator m then srcFault m .w32 a else if isOff c m then none else some 0x01) =
      if m.kind = .curator then srcFault m .w32 a else if m.r.getP c.guard = c.sense then none else some 0x01 := by
  simp [isCurator, isOff]

/-- Who may pop: members of the launch that owns the core's curator, but for the curator itself (R28, R74, R124). -/
theorem dqpopCheck_eq (s : State) (c : Common) (d : Dst) (m : Member) :
    (if isCurator m || (!dqLaunch s m && !isOff c m) then some 0x01 else dstFault m false d) =
      if m.kind = .curator ∨ ((coreAt s m.core).curatorOf ≠ some m.launch ∧ m.r.getP c.guard ≠ c.sense) then some 0x01
      else dstFault m false d := by
  simp [isCurator, isOff, dqLaunch]

/-- Settles O11: DQPUSH and DQPOP by what they find in the queue, and the release of an entry by who waits for it. -/
theorem decisionQueue : Obligations.DecisionQueue := by
  refine ⟨fun a => ?_, fun d => ⟨?_, fun s core => ⟨fun hw => ?_, fun w ws e m => dqEntryReleased_delivers⟩⟩⟩
  · simp only [← dqpushCheck_eq]
    refine actFormOff_one (fun _ _ => rfl) fun s c k m x hi => ⟨pushDq_full hi.member x, pushDq_spec hi.member x⟩
  · simp only [← dqpopCheck_eq]
    refine producerFormOff_none (run := fun s c k m _ => popDq s c d k m) (fun _ _ => rfl) fun s c k m hi =>
      ⟨fun e rest => popDq_takes hi.member c d, popDq_waits hi.member c d⟩
  · refine ⟨releasedDq s core, ?_, onlyCore_updCore s core _⟩
    have hs : serveDq (releasedDq s core) core Config.dqDepth = releasedDq s core :=
      serveDq_noWaiters (by rw [releasedDq, coreAt_updCore_same]; exact hw) _
    exact congrArg Host.Outcome.next hs

end Sys2Proof.Proofs
end

section
/-!
PROOF. What the fetch of a clause leaves as it was (R112, R305, R347): members, groups and records, memory but for the marks in the
archive log, and of the clauses that a core holds it adds none.
-/
set_option linter.constructorNameAsVariable false
namespace Sys2Proof.Proofs
open Sys2Proof.Machine Sys2Proof.Safety

/-- A core that goes on with its group and holds no clause more. -/
def HoldsNoMore (u v : CoreUnit) : Prop := v.issue = u.issue ∧ v.clauses ⊆ u.clauses

theorem HoldsNoMore.refl (u : CoreUnit) : HoldsNoMore u u := ⟨rfl, fun _ h => h⟩

theorem HoldsNoMore.trans {u v w : CoreUnit} (h : HoldsNoMore u v) (g : HoldsNoMore v w) : HoldsNoMore u w :=
  ⟨g.1.trans h.1, fun _ he => h.2 (g.2 he)⟩

theorem holdsNoMore_dropClauses (lo n : Nat) (u : CoreUnit) : HoldsNoMore u (dropClauses lo n u) := by
  unfold dropClauses
  split
  · exact ⟨rfl, List.filter_subset_self _⟩
  · exact .refl u

theorem holdsNoMore_afterWrite (s : State) (pa n : Nat) (u : CoreUnit) : HoldsNoMore u (afterWrite s pa n u) := by
  unfold afterWrite
  generalize runsOf s pa n = rs
  induction rs generalizing u with
  | nil => exact .refl u
  | cons r rs ih => exact (holdsNoMore_dropClauses r.1 r.2.2 u).trans (ih _)

theorem holdsNoMore_writeBytes (s : State) (pa : Nat) (l : List Byte) (g : Nat) :
    HoldsNoMore (coreAt s g) (coreAt (writeBytes s pa l) g) := by
  rw [coreAt_writeBytes, coreAt]
  cases tabGet s.cores g with
  | none => exact .refl _
  | some u => exact holdsNoMore_afterWrite s pa l.length u

theorem holdsNoMore_foldl {α : Type} {f : State → α → State} (h : ∀ t a g, HoldsNoMore (coreAt t g) (coreAt (f t a) g))
    (l : List α) (s : State) (g : Nat) : HoldsNoMore (coreAt s g) (coreAt (l.foldl f s) g) := by
  induction l generalizing s with
  | nil => exact .refl _
  | cons a r ih => exact (h s a g).trans (ih _)

theorem holdsNoMore_touchLines (s : State) (who : Option (Nat × Nat)) (pa n g : Nat) :
    HoldsNoMore (coreAt s g) (coreAt (touchLines s who pa n) g) := by
  unfold touchLines
  simp only [coreAt_updMod]
  exact (holdsNoMore_foldl (fun t e g => by rw [coreAt_updCtx]; exact .refl _) _ s g).trans
    (holdsNoMore_foldl (fun t e g => holdsNoMore_writeBytes t _ _ g) _ _ g)

/-- From `s` to `t` a fetch has read words of code. -/
structure FetchKept (s t : State) : Prop where
  engines : EnginesKept s t
  members : t.members = s.members
  recBuf : t.mod.recBuf = s.mod.recBuf
  cores : ∀ g, HoldsNoMore (coreAt s g) (coreAt t g)

theorem FetchKept.refl (s : State) : FetchKept s s := ⟨.refl s, rfl, rfl, fun _ => .refl _⟩

theorem FetchKept.trans {s t u : State} (h : FetchKept s t) (g : FetchKept t u) : FetchKept s u :=
  ⟨h.engines.trans g.engines, g.members.trans h.members, g.recBuf.trans h.recBuf, fun n => (h.cores n).trans (g.cores n)⟩

theorem fetchKept_of_walksOnly {s t : State} (h : WalksOnly s t) : FetchKept s t :=
  ⟨enginesKept_of_walksOnly h, h.members, by rw [h.mod], fun g => by rw [h.core g]; exact ⟨rfl, fun _ he => he⟩⟩

theorem fetchKept_touchLines (s : State) (who : Option (Nat × Nat)) (pa n : Nat) : FetchKept s (touchLines s who pa n) :=
  ⟨enginesKept_touchLines s who pa n, by rw [(logsOnly_touchLines s who pa n).rest], by rw [(logsOnly_touchLines s who pa n).mod],
    holdsNoMore_touchLines s who pa n⟩

theorem walksOnly_resolveCode (s : State) (ctx : Ctx) (core i : Nat) : WalksOnly s (resolveCode s ctx core i).2 := by
  unfold resolveCode
  simp only
  split
  · exact .refl s
  · split
    · exact .refl s
    · split
      · split
        · exact .refl s
        · exact walksOnly_translateVirt ..
      · repeat' split
        all_goals exact .refl s

theorem fetchKept_readCode (s : State) (ctx : Ctx) (launch core i : Nat) : FetchKept s (readCode s ctx launch core i).2 := by
  have hw := walksOnly_resolveCode s ctx core i
  unfold readCode
  split
  · next r s1 h =>
    rw [h] at hw
    have h1 := fetchKept_of_walksOnly hw
    split
    · exact h1.trans (fetchKept_touchLines ..)
    · exact h1.trans ⟨enginesKept_of_eq rfl rfl rfl rfl rfl fun _ => rfl, rfl, rfl, fun _ => .refl _⟩
  · next h =>
    rw [h] at hw
    exact fetchKept_of_walksOnly hw
  · next h =>
    rw [h] at hw
    exact fetchKept_of_walksOnly hw

theorem fetchKept_readCodeN (s : State) (ctx : Ctx) (launch core n i slot : Nat) :
    FetchKept s (readCodeN s ctx launch core n i slot).2 := by
  induction n generalizing s i slot with
  | zero => exact .refl s
  | succ n ih =>
    have hr := fetchKept_readCode s ctx launch core i
    unfold readCodeN
    split
    · next h =>
      rw [h] at hr
      exact hr.trans (ih _ (i + 1) (slot + 1))
    · next h =>
      rw [h] at hr
      exact hr

theorem fetchKept_loadClause (s : State) (ctx : Ctx) (launch core h : Nat) : FetchKept s (loadClause s ctx launch core h).2 := by
  have hr := fetchKept_readCode s ctx launch core h
  unfold loadClause
  split
  · next hq => rwa [hq] at hr
  · next hq => rwa [hq] at hr
  · next hw ls s1 hq =>
    rw [hq] at hr
    have hn := hr.trans (fetchKept_readCodeN s1 ctx launch core ((f4 hw 56).toNat + 1) (h + 1) 0)
    simp only
    split
    · exact hr
    · split
      · exact hr
      · split
        · next hq2 =>
          rw [hq2] at hn
          split <;> exact hn
        · next hq2 => rwa [hq2] at hn
        · next hq2 => rwa [hq2] at hn
        · next hq2 => rwa [hq2] at hn

/-- Memory after a fetch that has then changed neither memory nor the log. -/
theorem FetchKept.sameButArchive {s t u : State} (h : FetchKept s t) (hm : u.mem = t.mem) (ha : u.mod.archive = t.mod.archive) :
    SameButArchive s u := fun x hx => by
  rw [hm]
  exact h.engines.memory x fun ⟨e, he, i⟩ => hx ⟨e, ha ▸ he, i⟩

theorem FetchKept.standAt_eq {s t : State} (h : FetchKept s t) (core launch n : Nat) :
    standAt t core launch n = standAt s core launch n := by
  simp only [standAt, inGroup, h.members, (h.cores core).1]

/-- A clause that a core does not hold it does not hold after a fetch's reads. -/
theorem FetchKept.clauseOf_none {s t : State} (h : FetchKept s t) {core launch n : Nat} (hc : clauseOf (coreAt s core) launch n = none) :
    clauseOf (coreAt t core) launch n = none :=
  List.find?_eq_none.mpr fun e he => List.find?_eq_none.mp hc e ((h.cores core).2 he)

end Sys2Proof.Proofs
end

section
/-!
PROOF. Members that a step changes one after another, each in the same way.
-/
set_option linter.constructorNameAsVariable false
namespace Sys2Proof.Proofs
open Sys2Proof.Machine Sys2Proof.Safety

/-- The keys of the entries that `p` finds, in a table whose keys rise. -/
theorem mem_keys_filter {α : Type} {t : Tab α} (hk : Keyed t) {k : Nat} {v : α} (h : tabGet t k = some v) (p : Nat × α → Bool) :
    k ∈ (t.filter p).map (·.1) ↔ p (k, v) = true := by
  refine ⟨fun hm => ?_, fun hp => List.mem_map.mpr ⟨_, List.mem_filter.mpr ⟨mem_of_tabGet h, hp⟩, rfl⟩⟩
  obtain ⟨⟨j, w⟩, he, rfl⟩ := List.mem_map.mp hm
  obtain ⟨hmem, hp⟩ := List.mem_filter.mp he
  cases h.symm.trans (tabGet_of_mem hk hmem)
  exact hp

/-- An operation that changes one member by `f`, done to the members of a list. -/
theorem memberAt_foldl {α : Type} {op : State → Nat → State} {f : State → Member → Member}
    (ho : ∀ s k n, memberAt (op s k) n = if n = k then (memberAt s n).map (f s) else memberAt s n) (hf : ∀ s k, f (op s k) = f s)
    (hi : ∀ s m, f s (f s m) = f s m) (l : List (Nat × α)) (s : State) (n : Nat) :
    memberAt (l.foldl (fun t e => op t e.1) s) n = if n ∈ l.map (·.1) then (memberAt s n).map (f s) else memberAt s n := by
  induction l generalizing s with
  | nil => rfl
  | cons e r ih =>
    rw [List.foldl_cons, ih, ho, hf]
    by_cases hn : n = e.1
    · subst hn
      have hd : ((memberAt s e.1).map (f s)).map (f s) = (memberAt s e.1).map (f s) := by
        rw [Option.map_map]
        exact congrArg (Option.map · _) (funext (hi s))
      simp only [if_true, List.map_cons, List.mem_cons, true_or, hd, ite_self]
    · simp only [hn, if_false, List.map_cons, List.mem_cons, false_or]

theorem memberAt_updMember (f : Member → Member) (s : State) (k n : Nat) :
    memberAt (updMember s k f) n = if n = k then (memberAt s n).map f else memberAt s n := by
  split
  · next h => rw [h, memberAt_updMember_same]
  · next h => exact memberAt_updMember_other s f h

/-- A member whose wait has ended (R115). -/
def woken (s : State) (m : Member) : Member := { m with wait := .ready, readySince := (coreAt s m.core).cyc }

theorem memberAt_wake_eq (s : State) (k n : Nat) :
    memberAt (wake s k) n = if n = k then (memberAt s n).map (woken s) else memberAt s n := by
  split
  · next h =>
    subst h
    cases hm : memberAt s n with
    | none => simp [wake, hm]
    | some m => exact memberAt_wake hm
  · next h => exact memberAt_wake_other s h

theorem membersOnly_foldl {α : Type} {f : State → α → State} (h : ∀ t a, MembersOnly t (f t a)) (l : List α) (s : State) :
    MembersOnly s (l.foldl f s) := by
  induction l generalizing s with
  | nil => rfl
  | cons a r ih => exact (h s a).trans (ih _)

theorem woken_wake (s : State) (k : Nat) : woken (wake s k) = woken s := by
  rw [membersOnly_wake s k]
  rfl

end Sys2Proof.Proofs
end

section
/-!
PROOF. The fetch of a clause, its fill, and the service of a held fetch (R74, R112, R305, R347).
-/
set_option linter.constructorNameAsVariable false
namespace Sys2Proof.Proofs
open Sys2Proof.Machine Sys2Proof.Safety

/-! ## What the checks find -/

/-- The words that are read: all of them, or those before the first that does not resolve, whose slot is named (R347). -/
theorem readCodeN_length {s : State} {ctx : Ctx} {launch core n i slot : Nat} {ws : List Word64} {lines : List Nat}
    {e : Option (Nat × CodeRead)} (h : (readCodeN s ctx launch core n i slot).1 = (ws, lines, e)) :
    (e = none → ws.length = n) ∧ ∀ k r, e = some (k, r) → k = slot + ws.length := by
  induction n generalizing s i slot ws lines e with
  | zero =>
    cases h
    exact ⟨fun _ => rfl, fun _ _ he => nomatch he⟩
  | succ n ih =>
    unfold readCodeN at h
    split at h
    · next w ls s1 _ =>
      generalize hq : readCodeN s1 ctx launch core n (i + 1) (slot + 1) = q at h
      obtain ⟨⟨ws', lines', e'⟩, s2⟩ := q
      cases h
      obtain ⟨h1, h2⟩ := ih (congrArg Prod.fst hq)
      refine ⟨fun he => by rw [List.length_cons, h1 he], fun k r he => ?_⟩
      rw [h2 k r he, List.length_cons]
      exact Nat.add_right_comm ..
    · cases h
      refine ⟨fun he => (nomatch he), fun k r he => ?_⟩
      cases he
      rfl

/-- What the checks behind a header find (R74, R347), `q` being what is read behind it. -/
def behindHeader (ctx : Ctx) (h : Nat) (hw : Word64) (ls : List Nat) (q : List Word64 × List Nat × Option (Nat × CodeRead)) : Loaded :=
  if hw.extractLsb' 60 4 ≠ 12#4 then .bad (fetchFault 0x01 15 15 hw 0) ls
  else if Desc.limit ctx.desc[5] < 8 * (h + (hw.extractLsb' 56 4).toNat + 2) then .bad (fetchFault 0x03 5 15 hw (codeAddr ctx h)) ls
  else
    match q with
    | (ws, lines, none) =>
      (match clauseFault hw ws with
        | some k => .bad (fetchFault 0x01 k k hw 0) (ls ++ lines)
        | none => .clause (hw :: ws) (ls ++ lines))
    | (_, _, some (_, .held c)) => .held c
    | (_, lines, some (k, .bad c d)) => .bad (fetchFault c d k hw (codeAddr ctx (h + 1 + k))) (ls ++ lines)
    | (_, lines, some (_, .ok _ _)) => .clause [hw] (ls ++ lines)

theorem codeDesc_eq (ctx : Ctx) : ctx.desc.toList.getD 5 0 = ctx.desc[5] := by
  simp [List.getD_eq_getElem?_getD]

section
variable {s : State} {ctx : Ctx} {launch core h : Nat}

/-- A header whose address or permission fails (R347). -/
theorem loadClause_bad {c d : Nat} (hr : (readCode s ctx launch core h).1 = .bad c d) :
    (loadClause s ctx launch core h).1 = .bad (fetchFault c d 15 0 (codeAddr ctx h)) [] := by
  unfold loadClause
  generalize readCode s ctx launch core h = q at hr
  obtain ⟨r, s1⟩ := q
  cases hr
  rfl

theorem loadClause_held {c : Nat} (hr : (readCode s ctx launch core h).1 = .held c) : (loadClause s ctx launch core h).1 = .held c := by
  unfold loadClause
  generalize readCode s ctx launch core h = q at hr
  obtain ⟨r, s1⟩ := q
  cases hr
  rfl

/-- A header that is there: what the checks behind it find (R74, R347). -/
theorem loadClause_ok {hw : Word64} {ls : List Nat} (hr : (readCode s ctx launch core h).1 = .ok hw ls) :
    (loadClause s ctx launch core h).1 = behindHeader ctx h hw ls
      (readCodeN (readCode s ctx launch core h).2 ctx launch core ((hw.extractLsb' 56 4).toNat + 1) (h + 1) 0).1 := by
  unfold loadClause behindHeader
  generalize readCode s ctx launch core h = q at hr
  obtain ⟨r, s1⟩ := q
  cases hr
  simp only [codeDesc_eq, f4, bne_iff_ne, gt_iff_lt]
  split
  · rfl
  · split
    · rfl
    · generalize readCodeN s1 ctx launch core _ _ _ = q
      obtain ⟨⟨ws, lines, e⟩, s2⟩ := q
      rcases e with - | ⟨k, - | - | -⟩
      · simp only
        cases clauseFault hw ws <;> rfl
      all_goals rfl

end

/-! ## What is kept -/

/-- A clause without a fault, or with one that a member takes, is what the core then holds there (R75, R112). -/
theorem keepClause_spec {s : State} {core launch h : Nat} {fault : Option FaultInfo}
    (hf : fault = none ∨ standAt s core launch h ≠ []) (missing : Bool) (words : List Word64) (lines : List Nat) :
    ∃ t e, keepClause s core launch h missing words lines fault = t ∧ t = { s with cores := t.cores } ∧
      clauseOf (coreAt t core) launch h = some e ∧ e.words = words ∧ e.fault = fault ∧ e.missing = missing := by
  have hn : (fault.isSome && (standAt s core launch h).isEmpty) = false := by
    rcases hf with rfl | hf
    · rfl
    · simp [hf]
  unfold keepClause
  rw [hn, if_neg Bool.false_ne_true]
  have hfound := find?_replaced (p := fun e : ClauseEntry => e.launch == launch && e.h == h)
    (if missing then coreAt s core else addLines lines (coreAt s core)).clauses
    (x :=
      { launch := launch, h := h, words := words, fault := fault, missing := missing, lines := lines,
        at_ := (if missing then coreAt s core else addLines lines (coreAt s core)).cyc })
    (by simp)
  exact ⟨_, _, rfl, rfl, (congrArg (clauseOf · launch h) (coreAt_updCore_same ..)).trans hfound, rfl, rfl, rfl⟩

/-- The fault that the record of a held fetch names (R347; log 16). -/
def heldFault (ctx : Ctx) (h c : Nat) (m : Member) : FaultInfo :=
  { fetchFault (c + 0x0F) c 15 0 (codeAddr ctx h) with from_ := m.cameFrom }

/-- Sernus has one record of the fetches that are held at a header (R347). -/
def recordHeld (s : State) (ctx : Ctx) (core launch h c : Nat) (m : Member) : State :=
  if s.members.any fun e => e.2.core == core && e.2.launch == launch && e.2.pc == h && e.2.wait == .heldFetch then s
  else sendRecord s (faultRecord s m (heldFault ctx h c m) (c + 0x0F) c)

theorem recordHeld_rest (s : State) (ctx : Ctx) (core launch h c : Nat) (m : Member) :
    recordHeld s ctx core launch h c m =
      { s with mod := { s.mod with recBuf := (recordHeld s ctx core launch h c m).mod.recBuf } } := by
  unfold recordHeld
  split <;> rfl

/-- Where candidates stand at the header they wait, behind the record (R347). -/
theorem holdFetch_eq (s : State) (ctx : Ctx) (core launch h c : Nat) :
    (standAt s core launch h = [] ∧ holdFetch s ctx core launch h c = s) ∨ ∃ m, holdFetch s ctx core launch h c =
      (standAt s core launch h).foldl (fun t e => updMember t e.1 fun v => { v with wait := .heldFetch })
        (recordHeld s ctx core launch h c m) := by
  unfold holdFetch
  simp only
  split
  · next hn => exact .inl ⟨bestBy_eq_none.mp hn, rfl⟩
  · next m _ => exact .inr ⟨m, rfl⟩

/-- A held fault on a fetch: the candidates at the header wait, and Sernus has one record (R347). -/
theorem holdFetch_spec (s : State) (ctx : Ctx) (core launch h c : Nat) :
    let t := holdFetch s ctx core launch h c
    t.mem = s.mem ∧ t.mod.archive = s.mod.archive ∧ (∀ g, coreAt t g = coreAt s g) ∧
    (Keyed s.members → ∀ e ∈ standAt s core launch h, memberAt t e.1 = some { e.2 with wait := .heldFetch }) ∧
    ((∀ e ∈ s.members, ¬ (e.2.core = core ∧ e.2.launch = launch ∧ e.2.pc = h ∧ e.2.wait = .heldFetch)) →
      standAt s core launch h ≠ [] →
      ∃ r, t.mod.recBuf = s.mod.recBuf ++ [r] ∧ r.cause = c + 0x0F ∧ r.addr = codeAddr ctx h ∧ r.slot = 15) := by
  intro t
  rcases holdFetch_eq s ctx core launch h c with ⟨hnil, he⟩ | ⟨m, he⟩
  · rw [show t = s from he]
    exact ⟨rfl, rfl, fun _ => rfl, fun _ e hm => by simp [hnil] at hm, fun _ hs => absurd hnil hs⟩
  · have h1 := recordHeld_rest s ctx core launch h c m
    have hf : MembersOnly (recordHeld s ctx core launch h c m) t := by
      rw [show t = _ from he]
      exact membersOnly_foldl (fun t (e : Nat × Member) => membersOnly_updMember t e.1 _) _ _
    refine ⟨by rw [hf, h1], by rw [hf, h1], fun g => by rw [hf, h1]; rfl, fun hk e hm => ?_, fun hno _ => ?_⟩
    · have hget : memberAt s e.1 = some e.2 := tabGet_of_mem hk (List.mem_filter.mp hm).1
      have hget1 : memberAt (recordHeld s ctx core launch h c m) e.1 = some e.2 := by rw [h1]; exact hget
      rw [show t = _ from he, memberAt_foldl (memberAt_updMember fun v => { v with wait := .heldFetch }) (fun _ _ => rfl)
        fun _ _ => rfl, if_pos (List.mem_map_of_mem hm), hget1]
      rfl
    · have hknown : (s.members.any fun e => e.2.core == core && e.2.launch == launch && e.2.pc == h && e.2.wait == .heldFetch) = false :=
        List.any_eq_false.mpr fun e hm => by simpa [and_assoc] using hno e hm
      have hrec : recordHeld s ctx core launch h c m = sendRecord s (faultRecord s m (heldFault ctx h c m) (c + 0x0F) c) := by
        rw [recordHeld, hknown, if_neg Bool.false_ne_true]
      refine ⟨faultRecord s m (heldFault ctx h c m) (c + 0x0F) c, ?_, rfl, rfl, rfl⟩
      rw [hf.mod, hrec]
      rfl

/-! ## The steps -/

/-- What a fetch leaves by what its checks find, `u` being the core as it was before it (R112, R347). -/
def fetched (ctx : Ctx) (core launch h : Nat) (u : CoreUnit) : Loaded × State → State
  | (.held c, s) => holdFetch s ctx core launch h c
  | (.bad f lines, s) => keepClause s core launch h (lines.any fun l => !u.codeLines.contains l) [f.word] lines (some f)
  | (.clause ws lines, s) => keepClause s core launch h (lines.any fun l => !u.codeLines.contains l) ws lines none

section
variable {s : State} {core launch h : Nat} {ctx : Ctx} (hc : ctxAt s launch core = some ctx)
include hc

/-- A fetch that is not due changes nothing (R112). -/
theorem idle_clauseFetch (hn : ctx.isOut = true ∨ ctx.switching = true ∨ (clauseOf (coreAt s core) launch h).isSome = true ∨
    mayFetch s core launch h = false) : Idle (.clauseFetch core launch h) s := by
  have hn' : (ctx.isOut || ctx.switching || (clauseOf (coreAt s core) launch h).isSome || !mayFetch s core launch h) = true := by
    simpa [or_assoc] using hn
  simp only [Idle, exec, execClauseFetch, hc, hn', if_true]

theorem idle_clauseCacheFill {e : ClauseEntry} (he : clauseOf (coreAt s core) launch h = some e) (hm : e.missing = false) :
    Idle (.clauseCacheFill core launch h) s := by
  simp only [Idle, exec, execClauseCacheFill, hc, he, hm, Bool.not_false, if_true]

/-- The words of a clause whose lines have come (R76, R112). -/
theorem clauseCacheFill_spec {e : ClauseEntry} (he : clauseOf (coreAt s core) launch h = some e) (hm : e.missing = true)
    {ws : List Word64} {ls : List Nat} {s1 : State} (hl : loadClause s ctx launch core h = (.clause ws ls, s1)) :
    ∃ t v, exec (.clauseCacheFill core launch h) s = .next t ∧ SameButArchive s t ∧ t.members = s.members ∧
      clauseOf (coreAt t core) launch h = some v ∧ v.words = ws ∧ v.fault = none ∧ v.missing = false := by
  have hk := fetchKept_loadClause s ctx launch core h
  rw [hl] at hk
  obtain ⟨t, v, ht, hrest, hv, hws, hf, hmiss⟩ := keepClause_spec (s := s1) (core := core) (launch := launch) (h := h) (.inl rfl)
    false ws ls
  refine ⟨t, v, ?_, hk.sameButArchive (by rw [hrest]) (by rw [hrest]), ?_, hv, hws, hf, hmiss⟩
  · simp only [exec, execClauseCacheFill, hc, he, hm, Bool.not_true, Bool.false_eq_true, if_false, hl, ht]
  · rw [hrest]
    exact hk.members

variable (ho : ctx.isOut = false) (hs : ctx.switching = false) (hn : clauseOf (coreAt s core) launch h = none)
  (hf : mayFetch s core launch h = true)
include ho hs hn hf

/-- A fetch that is due, by what the checks find (R112, R347). -/
theorem exec_clauseFetch :
    exec (.clauseFetch core launch h) s = .next (fetched ctx core launch h (coreAt s core) (loadClause s ctx launch core h)) := by
  simp only [exec, execClauseFetch, hc, ho, hs, hn, hf, Option.isSome_none, Bool.not_true, Bool.or_false, Bool.false_eq_true, if_false]
  obtain ⟨- | - | -, s1⟩ := loadClause s ctx launch core h <;> rfl

theorem clauseFetch_clause {ws : List Word64} {ls : List Nat} {s1 : State} (hl : loadClause s ctx launch core h = (.clause ws ls, s1)) :
    ∃ t e, exec (.clauseFetch core launch h) s = .next t ∧ SameButArchive s t ∧ t.members = s.members ∧
      clauseOf (coreAt t core) launch h = some e ∧ e.words = ws ∧ e.fault = none ∧
      (e.missing = true ↔ ∃ l ∈ ls, l ∉ (coreAt s core).codeLines) := by
  have hk := fetchKept_loadClause s ctx launch core h
  rw [hl] at hk
  obtain ⟨t, e, ht, hrest, he, hws, hfault, hmiss⟩ := keepClause_spec (s := s1) (core := core) (launch := launch) (h := h) (.inl rfl)
    (ls.any fun l => !(coreAt s core).codeLines.contains l) ws ls
  refine ⟨t, e, ?_, hk.sameButArchive (by rw [hrest]) (by rw [hrest]), ?_, he, hws, hfault, by simp [hmiss]⟩
  · rw [exec_clauseFetch hc ho hs hn hf, hl, ← ht, fetched]
  · rw [hrest]
    exact hk.members

theorem clauseFetch_bad {f : FaultInfo} {ls : List Nat} {s1 : State} (hl : loadClause s ctx launch core h = (.bad f ls, s1))
    (hstand : standAt s core launch h ≠ []) :
    ∃ t e, exec (.clauseFetch core launch h) s = .next t ∧ SameButArchive s t ∧ t.members = s.members ∧
      clauseOf (coreAt t core) launch h = some e ∧ e.fault = some f := by
  have hk := fetchKept_loadClause s ctx launch core h
  rw [hl] at hk
  obtain ⟨t, e, ht, hrest, he, -, hfault, -⟩ := keepClause_spec (fault := some f) (.inr ((hk.standAt_eq core launch h).symm ▸ hstand))
    (ls.any fun l => !(coreAt s core).codeLines.contains l) [f.word] ls
  refine ⟨t, e, ?_, hk.sameButArchive (by rw [hrest]) (by rw [hrest]), ?_, he, hfault⟩
  · rw [exec_clauseFetch hc ho hs hn hf, hl, ← ht, fetched]
  · rw [hrest]
    exact hk.members

theorem clauseFetch_held {c : Nat} {s1 : State} (hl : loadClause s ctx launch core h = (.held c, s1)) (hkeys : Keyed s.members) :
    ∃ t, exec (.clauseFetch core launch h) s = .next t ∧ SameButArchive s t ∧ clauseOf (coreAt t core) launch h = none ∧
      (∀ e ∈ standAt s core launch h, memberAt t e.1 = some { e.2 with wait := .heldFetch }) ∧
      ((∀ e ∈ s.members, ¬ (e.2.core = core ∧ e.2.launch = launch ∧ e.2.pc = h ∧ e.2.wait = .heldFetch)) →
        standAt s core launch h ≠ [] →
        ∃ r, t.mod.recBuf = s.mod.recBuf ++ [r] ∧ r.cause = c + 0x0F ∧ r.addr = codeAddr ctx h ∧ r.slot = 15) := by
  have hk := fetchKept_loadClause s ctx launch core h
  rw [hl] at hk
  obtain ⟨hmem, harch, hcore, hwait, hrec⟩ := holdFetch_spec s1 ctx core launch h c
  rw [hk.members, hk.standAt_eq] at hwait hrec
  rw [hk.recBuf] at hrec
  refine ⟨_, by rw [exec_clauseFetch hc ho hs hn hf, hl, fetched], hk.sameButArchive hmem harch, ?_, hwait hkeys, hrec⟩
  rw [hcore core]
  exact hk.clauseOf_none hn

end

/-- The members that waited at a header whose page has been serviced are candidates again (R347). -/
theorem heldFetchServiced_spec (s : State) (core launch h : Nat) (hk : Keyed s.members) :
    ∃ t, exec (.heldFetchServiced core launch h) s = .next t ∧ t = { s with members := t.members } ∧
      ∀ id m, memberAt s id = some m →
        memberAt t id = some (if m.core = core ∧ m.launch = launch ∧ m.pc = h ∧ m.wait = .heldFetch
          then { m with wait := .ready, readySince := (coreAt s core).cyc } else m) := by
  refine ⟨_, rfl, membersOnly_foldl (fun t (e : Nat × Member) => membersOnly_wake t e.1) _ s, fun id m hm => ?_⟩
  rw [memberAt_foldl memberAt_wake_eq woken_wake fun _ _ => rfl]
  have hwaits := mem_keys_filter hk hm fun e => e.2.core == core && e.2.launch == launch && e.2.pc == h && e.2.wait == .heldFetch
  simp only [Bool.and_eq_true, beq_iff_eq, and_assoc] at hwaits
  by_cases hp : m.core = core ∧ m.launch = launch ∧ m.pc = h ∧ m.wait = .heldFetch
  · rw [if_pos (hwaits.mpr hp), if_pos hp, hm, Option.map_some, woken, hp.1]
  · rw [if_neg (mt hwaits.mp hp), if_neg hp, hm]

/-- Settles O42: a fetch by what the checks of `loadClause` find, the checks by what is read of the header and behind it. -/
theorem clauseFetches : Obligations.ClauseFetches := by
  refine ⟨fun s core launch h ctx hc => ⟨idle_clauseFetch hc, fun ho hs hn hf => ⟨fun ws ls s1 => clauseFetch_clause hc ho hs hn hf,
    fun f ls s1 => clauseFetch_bad hc ho hs hn hf, fun c s1 => clauseFetch_held hc ho hs hn hf⟩, fun e he =>
      ⟨idle_clauseCacheFill hc he, fun hm ws ls s1 => clauseCacheFill_spec hc he hm⟩⟩, heldFetchServiced_spec,
    fun s ctx launch core h => ⟨fun c d => loadClause_bad, fun c => loadClause_held, fun hw ls hr => ⟨fun hm => ?_, fun hm hl => ?_,
      fun hm hl => ⟨fun ws lines hq => ⟨(readCodeN_length hq).1 rfl, ?_⟩, fun ws lines k c d hq => ⟨?_, ?_⟩⟩⟩⟩⟩
  · simp [loadClause_ok hr, behindHeader, hm]
  · simp only [loadClause_ok hr, behindHeader, hm, ne_eq, not_true_eq_false, if_false, if_pos hl]
  · cases hcf : clauseFault hw ws <;>
      simp only [loadClause_ok hr, hq, behindHeader, hm, ne_eq, not_true_eq_false, if_false, Nat.not_lt.mpr hl, hcf]
  · have hk := (readCodeN_length hq).2 k _ rfl
    rw [hk, Nat.zero_add]
  · simp only [loadClause_ok hr, hq, behindHeader, hm, ne_eq, not_true_eq_false, if_false, Nat.not_lt.mpr hl]

end Sys2Proof.Proofs
end

section
/-!
PROOF. Orders by which the picker chooses (R115, R119): the best of a list, and the lists that it sorts.
-/
set_option linter.constructorNameAsVariable false
namespace Sys2Proof.Proofs
open Sys2Proof.Machine Sys2Proof.Safety

/-- What comes first under an order stands before all the others in a preorder that the order decides. -/
theorem bestBy_first {α : Type} {lt : α → α → Bool} {le : α → α → Prop} (hrefl : ∀ a, le a a)
    (htrans : ∀ a b c, le a b → le b c → le a c) (h1 : ∀ a b, lt a b = true → le a b) (h2 : ∀ a b, lt a b = false → le b a)
    {l : List α} {x : α} (h : bestBy lt l = some x) : ∀ y ∈ l, le x y := by
  induction l generalizing x with
  | nil => cases h
  | cons y r ih =>
    unfold bestBy at h
    split at h
    · next hn =>
      rw [bestBy_eq_none] at hn
      subst hn
      cases h
      exact List.forall_mem_cons.mpr ⟨hrefl _, fun _ hw => nomatch hw⟩
    · next z hz =>
      split at h
      · next hlt =>
        cases h
        exact List.forall_mem_cons.mpr ⟨h1 _ _ hlt, ih hz⟩
      · next hlt =>
        cases h
        have hzy := h2 _ _ (Bool.eq_false_of_not_eq_true hlt)
        exact List.forall_mem_cons.mpr ⟨hrefl _, fun w hw => htrans _ _ _ hzy (ih hz w hw)⟩

theorem lexLt_cons (a b : Int) (r t : List Int) : lexLt (a :: r) (b :: t) = if a = b then lexLt r t else decide (a < b) := rfl

theorem lexLt_asymm : ∀ a b : List Int, lexLt a b = true → lexLt b a = false
  | [], [], _ => rfl
  | [], _ :: _, _ => rfl
  | x :: r, y :: t, h => by
    rw [lexLt_cons] at h ⊢
    split at h
    · next he =>
      rw [if_pos he.symm]
      exact lexLt_asymm r t h
    · next hne =>
      rw [if_neg (Ne.symm hne)]
      simp only [decide_eq_true_eq, decide_eq_false_iff_not] at h ⊢
      omega

theorem lexLt_irrefl (a : List Int) : lexLt a a = false := by
  cases h : lexLt a a with
  | false => rfl
  | true => exact (lexLt_asymm a a h).symm.trans h ▸ rfl

/-- Not to stand before is transitive. -/
theorem not_lexLt_trans : ∀ a b c : List Int, lexLt a b = false → lexLt b c = false → lexLt a c = false
  | [], [], _, _, h => h
  | [], _ :: _, _, h, _ => nomatch h
  | _ :: _, _, [], _, _ => rfl
  | _ :: _, [], _ :: _, _, h => nomatch h
  | x :: r, y :: t, z :: u, h, g => by
    rw [lexLt_cons] at h g ⊢
    by_cases hxy : x = y
    · subst hxy
      rw [if_pos rfl] at h
      by_cases hxz : x = z
      · rw [if_pos hxz] at g ⊢
        exact not_lexLt_trans r t u h g
      · rwa [if_neg hxz] at g ⊢
    · rw [if_neg hxy] at h
      by_cases hyz : y = z
      · subst hyz
        rwa [if_neg hxy]
      · rw [if_neg hyz] at g
        simp only [decide_eq_false_iff_not] at h g
        have hxz : x ≠ z := by omega
        rw [if_neg hxz, decide_eq_false_iff_not]
        omega

/-- What is chosen by rank no other of the list ranks before. -/
theorem bestBy_lexLt {α : Type} {f : α → List Int} {l : List α} {x : α} (h : bestBy (fun a b => lexLt (f a) (f b)) l = some x) :
    ∀ y ∈ l, lexLt (f y) (f x) = false :=
  bestBy_first (le := fun a b => lexLt (f b) (f a) = false) (fun _ => lexLt_irrefl _)
    (fun _ _ _ hab hbc => not_lexLt_trans _ _ _ hbc hab) (fun _ _ => lexLt_asymm _ _) (fun _ _ h => h) h

theorem insertBy_perm {α : Type} (lt : α → α → Bool) (x : α) (l : List α) : (insertBy lt x l).Perm (x :: l) := by
  induction l with
  | nil => exact .refl _
  | cons y r ih =>
    unfold insertBy
    split
    · exact .refl _
    · exact (ih.cons y).trans (.swap x y r)

theorem sortBy_perm {α : Type} (lt : α → α → Bool) (l : List α) : (sortBy lt l).Perm l := by
  have key : ∀ (l acc : List α), (l.foldl (fun acc x => insertBy lt x acc) acc).Perm (l ++ acc) := by
    intro l
    induction l with
    | nil => exact fun acc => .refl acc
    | cons x r ih => exact fun acc => (ih _).trans (((insertBy_perm lt x acc).append_left r).trans List.perm_middle)
  exact (key l []).trans (.of_eq (List.append_nil l))

end Sys2Proof.Proofs
end

section
/-!
PROOF. The pick of an issue group (R113, R115, R117, R119; log 55, 68).
-/
set_option linter.constructorNameAsVariable false
namespace Sys2Proof.Proofs
open Sys2Proof.Machine Sys2Proof.Safety

/-- A candidate that is ready stands at a clause that its core holds (R113). -/
theorem clauseOf_of_ready {s : State} {core : Nat} {p : Nat × Member} (h : p ∈ readyList s core) :
    ∃ e, clauseOf (coreAt s core) p.2.launch p.2.pc = some e := by
  simp only [readyList, nearlyReady, List.mem_filter, Bool.and_eq_true, beq_iff_eq, readyBut] at h
  obtain ⟨⟨-, ⟨hcore, -⟩, -, hready⟩, -⟩ := h
  cases he : clauseOf (coreAt s core) p.2.launch p.2.pc with
  | some e => exact ⟨e, rfl⟩
  | none =>
    rw [clauseReady, hcore, he] at hready
    exact nomatch hready

/-- The credit of a launch's context on a core (R119). -/
def creditOf (s : State) (core launch : Nat) : Rat := ((ctxAt s launch core).map (·.credit)).getD 0

/-- The context that a pick serves: that of a candidate in trap mode, else one of the highest credit (R115, R119). -/
theorem chooseContext_spec (s : State) (core : Nat) {cands : List (Nat × Member)} (h : cands ≠ []) :
    ∃ x, chooseContext s core cands = some x ∧ (∃ p ∈ cands, p.2.launch = x) ∧
      ((∃ p ∈ cands, p.2.trapMode = true) → ∃ p ∈ cands, p.2.trapMode = true ∧ p.2.launch = x) ∧
      ((∀ p ∈ cands, p.2.trapMode = false) → ∀ p ∈ cands, creditOf s core p.2.launch ≤ creditOf s core x) := by
  unfold chooseContext
  split
  · next e hb =>
    obtain ⟨hm, ht⟩ := List.mem_filter.mp (mem_of_bestBy hb)
    exact ⟨_, rfl, ⟨e, hm, rfl⟩, fun _ => ⟨e, hm, ht, rfl⟩, fun hn => absurd ht (by simp [hn e hm])⟩
  · next hb =>
    have hnone : ∀ p ∈ cands, p.2.trapMode = false := fun p hp => by
      simpa using List.filter_eq_nil_iff.mp (bestBy_eq_none.mp hb) p hp
    simp only
    generalize hx : bestBy _ (cands.map fun e => e.2.launch).dedup = b
    obtain - | x := b
    · exact absurd (bestBy_eq_none.mp hx) (by simpa using h)
    have hmem := mem_of_bestBy hx
    rw [List.mem_dedup, List.mem_map] at hmem
    refine ⟨x, rfl, hmem, fun ⟨p, hp, ht⟩ => absurd ht (by simp [hnone p hp]), fun _ p hp => ?_⟩
    refine bestBy_first (le := fun a b => creditOf s core b ≤ creditOf s core a) (fun _ => le_refl _)
      (fun _ _ _ hab hbc => le_trans hbc hab) (fun a b hab => ?_) (fun a b hab => ?_) hx p.2.launch
      (List.mem_dedup.mpr (List.mem_map_of_mem hp))
    · simp only [Bool.or_eq_true, Bool.and_eq_true, decide_eq_true_eq, beq_iff_eq] at hab
      rcases hab with hlt | ⟨heq, -⟩
      · exact le_of_lt hlt
      · exact ge_of_eq heq
    · simp only [Bool.or_eq_false_iff, decide_eq_false_iff_not] at hab
      exact not_lt.mp hab.1

/-- The position that a pick takes among a context's candidates ranks before every other (R115). -/
theorem choosePosition_spec (s : State) (core launch : Nat) {mine : List (Nat × Member)} (h : mine ≠ []) :
    ∃ pc slot, choosePosition s core launch mine = some (pc, slot) ∧ holdersOf mine (pc, slot) ≠ [] ∧
      ∀ p ∈ mine, lexLt (rank s core launch (holdersOf mine (p.2.pc, p.2.slot)) p.2.pc p.2.slot)
        (rank s core launch (holdersOf mine (pc, slot)) pc slot) = false := by
  unfold choosePosition
  generalize hx : bestBy _ (mine.map fun e => (e.2.pc, e.2.slot)).dedup = b
  obtain - | ⟨pc, slot⟩ := b
  · exact absurd (bestBy_eq_none.mp hx) (by simpa using h)
  obtain ⟨q, hq, he⟩ := List.mem_map.mp (List.mem_dedup.mp (mem_of_bestBy hx))
  obtain ⟨rfl, rfl⟩ := Prod.mk.inj he
  refine ⟨_, _, rfl, List.ne_nil_of_mem (a := q) (List.mem_filter.mpr ⟨hq, by simp⟩), fun p hp => ?_⟩
  exact bestBy_lexLt (f := fun a : Nat × Nat => rank s core launch (holdersOf mine a) a.1 a.2) hx (p.2.pc, p.2.slot)
    (List.mem_dedup.mpr (List.mem_map_of_mem hp))

/-- The group at a position: some of its holders, at most 64, the curator alone (R115, R117; log 55). -/
theorem groupAt_spec (s : State) {ms : List (Nat × Member)} (h : ms ≠ []) :
    groupAt s ms ≠ [] ∧ (groupAt s ms).length ≤ 64 ∧ (∀ p ∈ groupAt s ms, p ∈ ms) ∧
      ∀ p ∈ groupAt s ms, p.2.kind = .curator → groupAt s ms = [p] := by
  have hsort := sortBy_perm (waitsLonger s) ms
  unfold groupAt
  split
  · next hn =>
    rw [hn] at hsort
    exact absurd hsort.symm.eq_nil h
  · next e r hs =>
    rw [hs] at hsort
    split
    · refine ⟨by simp, by simp, fun p hp => ?_, fun p hp _ => ?_⟩
      · rw [List.mem_singleton.mp hp]
        exact hsort.mem_iff.mp List.mem_cons_self
      · rw [List.mem_singleton.mp hp]
    · next hc =>
      have hperm := sortBy_perm (fun a b : Nat × Member => slotCode a.2 < slotCode b.2) ((e :: r.filter fun x => !isCurator x.2).take 64)
      have hsub : ∀ p ∈ sortBy (fun a b : Nat × Member => slotCode a.2 < slotCode b.2) ((e :: r.filter fun x => !isCurator x.2).take 64),
          p = e ∨ p ∈ r ∧ isCurator p.2 = false := fun p hp => by
        simpa using List.mem_of_mem_take (hperm.mem_iff.mp hp)
      refine ⟨fun hn => ?_, ?_, fun p hp => ?_, fun p hp hk => ?_⟩
      · rw [hn] at hperm
        exact absurd hperm.symm.eq_nil (by simp)
      · rw [hperm.length_eq]
        exact List.length_take_le ..
      · refine hsort.mem_iff.mp ?_
        rcases hsub p hp with rfl | ⟨hr, -⟩
        · exact List.mem_cons_self
        · exact List.mem_cons_of_mem _ hr
      · have hcur : isCurator p.2 = true := by simp [isCurator, hk]
        rcases hsub p hp with rfl | ⟨-, hn⟩
        · exact absurd hcur hc
        · exact absurd hcur (by simp [hn])

/-- What a pick makes of the group that it has chosen: the clause's fault, the fall-through, or the issue port (R75, R115, R286; log 68). -/
def pickMade (s : State) (core launch h slot : Nat) (e : ClauseEntry) (ms : List (Nat × Member)) : State :=
  let s1 := updCore s core fun u => { u with yielded := [], active := activeSet s core }
  match e.fault with
  | some f => accrueStep s1 (faultGroup s1 core launch h f ms) core
  | none =>
    if e.words.length < slot + 2 then ms.foldl (fun t v => endClause t v.1 h (e.words.length - 2)) s
    else startGroup s1 core launch h slot e.words ms

section
variable {s : State} {core launch h slot : Nat} {e : ClauseEntry} {ms : List (Nat × Member)}

/-- The members of a group take the fault of the clause that they stand at (R75; log 68). -/
theorem pickMade_fault {f : FaultInfo} (hf : e.fault = some f) : pickMade s core launch h slot e ms =
    accrueStep (updCore s core fun u => { u with yielded := [], active := activeSet s core })
      (faultGroup (updCore s core fun u => { u with yielded := [], active := activeSet s core }) core launch h f ms) core := by
  simp only [pickMade, hf]

variable (hf : e.fault = none)
include hf

/-- Members whose slot lies behind their clause's last go on at the fall-through (R286; log 68). -/
theorem pickMade_past (hs : e.words.length < slot + 2) :
    pickMade s core launch h slot e ms = ms.foldl (fun t v => endClause t v.1 h (e.words.length - 2)) s := by
  simp only [pickMade, hf, if_pos hs]

theorem pickMade_starts (hs : slot + 2 ≤ e.words.length) : pickMade s core launch h slot e ms =
    startGroup (updCore s core fun u => { u with yielded := [], active := activeSet s core }) core launch h slot e.words ms := by
  simp only [pickMade, hf, if_neg (Nat.not_lt.mpr hs)]

end

/-- A group that takes the issue port (R115, R117, R119). -/
theorem startGroup_spec (s : State) (core launch h slot : Nat) (words : List Word64) (ms : List (Nat × Member)) :
    let t := startGroup s core launch h slot words ms
    SameMemory s t ∧
    (coreAt t core).issue = some { launch := launch, h := h, slot := slot, words := words, members := ms.map (·.1), todo := ms.map (·.1),
                                   entered := if slot = 0 then [] else ms.flatMap (·.2.entered), started := false,
                                   atPick := some (runnable s core) } ∧
    ∀ c, ctxAt s launch core = some c →
      (ctxAt t launch core).map (·.credit) = some (clampCredit (c.credit - (words.length - 1 - slot : Nat))) := by
  have hm := membersOnly_foldl (fun t i => membersOnly_updMember t i fun m => { m with count := words.length - 2 }) (ms.map (·.1)) s
  unfold startGroup
  simp only
  refine ⟨fun a => ?_, ?_, fun c hc => ?_⟩
  · rw [updCore_mem, updCtx_mem, hm.mem]
  · rw [coreAt_updCore_same]
    simp only [beq_iff_eq]
  · rw [ctxAt_updCore, ctxAt_updCtx_same, hm]
    show Option.map _ (Option.map _ (ctxAt s launch core)) = _
    rw [hc]
    rfl

section
variable {s : State} {core : Nat} (idle : Nat)

theorem idle_pick (h : coreExists core = false ∨ (coreAt s core).issue ≠ none) : Idle (.pick core idle) s := by
  have h' : (!coreExists core || (coreAt s core).issue.isSome) = true := by
    simpa [Option.isSome_iff_ne_none] using h
  simp only [Idle, exec, execPick, h', if_true]

variable (hx : coreExists core = true) (hi : (coreAt s core).issue = none)
include hx hi

/-- Where no candidate becomes ready only time passes (R115). -/
theorem pick_none (hn : readyList (idleUntil s core idle) core = []) : exec (.pick core idle) s = .next (idleUntil s core idle) := by
  simp [exec, execPick, hx, hi, hn, chooseContext, bestBy]

/-- A pick of the context and the position that are chosen (R115). -/
theorem pick_made {x h slot : Nat} {e : ClauseEntry}
    (hc : chooseContext (idleUntil s core idle) core (readyList (idleUntil s core idle) core) = some x)
    (hp : choosePosition (idleUntil s core idle) core x ((readyList (idleUntil s core idle) core).filter fun p => p.2.launch == x) =
      some (h, slot))
    (he : clauseOf (coreAt (idleUntil s core idle) core) x h = some e) :
    exec (.pick core idle) s = .next (pickMade (idleUntil s core idle) core x h slot e (groupAt (idleUntil s core idle)
      (holdersOf ((readyList (idleUntil s core idle) core).filter fun p => p.2.launch == x) (h, slot)))) := by
  simp only [exec, execPick, hx, hi, hc, hp, he, Bool.not_true, Option.isSome_none, Bool.or_self, Bool.false_eq_true, if_false, pickMade]
  cases e.fault with
  | some f => rfl
  | none => exact (apply_ite Host.Outcome.next ..).symm

end

/-- Settles O43: the context, the position and the group by what each choice is best by, and the pick by the clause that stands there. -/
theorem picks : Obligations.Picks := by
  refine fun s core idle => ⟨idle_pick idle, fun hx hi => ?_⟩
  intro s0 cands credit
  refine ⟨pick_none idle hx hi, fun hne => ?_⟩
  obtain ⟨x, hc, ⟨q, hq, hqx⟩, htrap, hcredit⟩ := chooseContext_spec s0 core hne
  have hmine : (cands.filter fun p => p.2.launch == x) ≠ [] :=
    List.ne_nil_of_mem (List.mem_filter.mpr ⟨hq, beq_iff_eq.mpr hqx⟩)
  obtain ⟨h, slot, hp, hhold, hrank⟩ := choosePosition_spec s0 core x hmine
  obtain ⟨hgne, hlen, hsub, hcur⟩ := groupAt_spec s0 hhold
  have hgroup : ∀ p ∈ groupAt s0 (holdersOf (cands.filter fun p => p.2.launch == x) (h, slot)),
      p ∈ cands ∧ p.2.launch = x ∧ p.2.pc = h ∧ p.2.slot = slot := fun p hpm => by
    have hin := hsub p hpm
    simp only [holdersOf, List.mem_filter, Bool.and_eq_true, beq_iff_eq] at hin
    obtain ⟨⟨hcand, hlaunch⟩, hpc, hslot⟩ := hin
    exact ⟨hcand, hlaunch, hpc, hslot⟩
  obtain ⟨p, hpm⟩ := List.exists_mem_of_ne_nil _ hgne
  obtain ⟨hpc, rfl, rfl, -⟩ := hgroup p hpm
  obtain ⟨e, he⟩ := clauseOf_of_ready hpc
  refine ⟨_, _, _, slot, _, e, pick_made idle hx hi hc hp he, hgne, hlen, hgroup, hcur, htrap, hcredit, hrank, he, pickMade_past,
    fun hf hs => ?_, fun f => pickMade_fault⟩
  rw [pickMade_starts hf hs]
  exact startGroup_spec ..

end Sys2Proof.Proofs
end

section
/-!
PROOF. The integer group (R126, R129): the exact result of each instruction, wrapped or clamped.
-/
set_option linter.constructorNameAsVariable false
namespace Sys2Proof.Proofs
open Sys2Proof.Machine Sys2Proof.Safety

/-! ## The forms of one, two and three operands -/

section
variable {mk : Common → Instr} {d : Dst} {wide : Bool} {o p q : Ty × Src} {g : List Word64 → Word64}

theorem valueForm_one {f : Word64 → Word64} (hx : ∀ s c, exec (mk c) s = valueInstr s c d wide [o] g)
    (hf : ∀ x, g [x] = f x) : ValueForm mk d wide [o] (of1 f) :=
  valueForm_of hx fun _ _ vs hl => by
    obtain ⟨x, rfl⟩ := List.length_eq_one_iff.mp hl
    exact hf x

theorem valueForm_two {f : Word64 → Word64 → Word64} (hx : ∀ s c, exec (mk c) s = valueInstr s c d wide [o, p] g)
    (hf : ∀ x y, g [x, y] = f x y) : ValueForm mk d wide [o, p] (of2 f) :=
  valueForm_of hx fun _ _ vs hl => by
    obtain ⟨x, y, rfl⟩ := List.length_eq_two.mp hl
    exact hf x y

theorem valueForm_three {f : Word64 → Word64 → Word64 → Word64} (hx : ∀ s c, exec (mk c) s = valueInstr s c d wide [o, p, q] g)
    (hf : ∀ x y z, g [x, y, z] = f x y z) : ValueForm mk d wide [o, p, q] (of3 f) :=
  valueForm_of hx fun _ _ vs hl => by
    obtain ⟨x, y, z, rfl⟩ := List.length_eq_three.mp hl
    exact hf x y z

/-- The results of a form of Format I with a g source (R128, R130). -/
theorem valueForm_imm {r : BitVec 6} {f : Word64 → Word64} (hx : ∀ s c, exec (mk c) s = immInstr c d wide r f s) :
    ValueForm mk d wide [(tyOf wide, .g r)] (of1 f) :=
  valueForm_one hx fun _ => rfl

end

/-! ## Sums and differences -/

theorem addSub_add32 (sat sg : Bool) (x y : Word64) : BitVec.ofNat 64 (addSub 32 false sat sg x.toNat y.toNat) =
    ext (if sat then clamp32 sg (read32 sg (lo32 x) + read32 sg (lo32 y)) else lo32 x + lo32 y) := by
  rw [addSub, ofNat_wrapInt32, asType_lo32, asType_lo32]
  cases sat with
  | true => exact congrArg ext (clampInt32 ..)
  | false => exact congrArg ext (ofInt_add_read32 ..)

theorem addSub_sub32 (sat sg : Bool) (x y : Word64) : BitVec.ofNat 64 (addSub 32 true sat sg x.toNat y.toNat) =
    ext (if sat then clamp32 sg (read32 sg (lo32 x) - read32 sg (lo32 y)) else lo32 x - lo32 y) := by
  rw [addSub, ofNat_wrapInt32, asType_lo32, asType_lo32]
  cases sat with
  | true => exact congrArg ext (clampInt32 ..)
  | false => exact congrArg ext (ofInt_sub_read32 ..)

theorem addSub_add64 (sat sg : Bool) (x y : Word64) : BitVec.ofNat 64 (addSub 64 false sat sg x.toNat y.toNat) =
    if sat then clamp64 sg (read64 sg x + read64 sg y) else x + y := by
  rw [addSub, ofNat_wrapInt64, asType64, asType64]
  cases sat with
  | true => exact clampInt64 ..
  | false => exact ofInt_add_read64 ..

theorem addSub_sub64 (sat sg : Bool) (x y : Word64) : BitVec.ofNat 64 (addSub 64 true sat sg x.toNat y.toNat) =
    if sat then clamp64 sg (read64 sg x - read64 sg y) else x - y := by
  rw [addSub, ofNat_wrapInt64, asType64, asType64]
  cases sat with
  | true => exact clampInt64 ..
  | false => exact ofInt_sub_read64 ..

theorem ofInt_boolNat (b : Bool) : BitVec.ofInt 32 (boolNat b) = if b then 1 else 0 := by
  cases b <;> rfl

theorem ofNat_carrySum (x y : Word) (b : Bool) :
    BitVec.ofNat 64 (wrapInt 32 (x.toNat + y.toNat + (boolNat b : Int))) = ext (x + y + if b then 1 else 0) := by
  rw [ofNat_wrapInt32, BitVec.ofInt_add, BitVec.ofInt_add, ofInt_boolNat, BitVec.ofInt_natCast, BitVec.ofInt_natCast,
    BitVec.ofNat_toNat, BitVec.ofNat_toNat, BitVec.setWidth_eq, BitVec.setWidth_eq]

theorem ofNat_borrowDifference (x y : Word) (b : Bool) :
    BitVec.ofNat 64 (wrapInt 32 (x.toNat - y.toNat - (boolNat b : Int))) = ext (x - y - if b then 1 else 0) := by
  rw [ofNat_wrapInt32, sub_eq_add_neg, sub_eq_add_neg, BitVec.ofInt_add, BitVec.ofInt_add, BitVec.ofInt_neg, BitVec.ofInt_neg,
    ofInt_boolNat, BitVec.ofInt_natCast, BitVec.ofInt_natCast, BitVec.ofNat_toNat, BitVec.ofNat_toNat, BitVec.setWidth_eq,
    BitVec.setWidth_eq, BitVec.sub_eq_add_neg, BitVec.sub_eq_add_neg]

/-! ## Products, magnitudes and the lesser of two -/

theorem product_eq (sg : Bool) (x y : Word) : product sg x y = BitVec.ofInt 64 (read32 sg x * read32 sg y) := by
  rw [product, asType_word, asType_word]

/-- The high half of a wrapped product is its quotient by 2^32, rounded down (R129). -/
theorem highHalf_ofInt (v : Int) : (BitVec.ofInt 64 v).extractLsb' 32 32 = BitVec.ofInt 32 (v / 2 ^ 32) := by
  apply BitVec.eq_of_toNat_eq
  rw [BitVec.extractLsb'_toNat, BitVec.toNat_ofInt, BitVec.toNat_ofInt, Nat.shiftRight_eq_div_pow]
  omega

theorem negInt_eq (sat : Bool) (x : Word) : negInt sat x = if sat then clamp32 true (-x.toInt) else -x := by
  cases sat with
  | true => exact clampInt32 ..
  | false => exact (BitVec.ofInt_neg ..).trans (congrArg _ (BitVec.ofInt_toInt ..))

theorem absInt_eq (sat : Bool) (x : Word) :
    absInt sat x = if sat then clamp32 true |x.toInt| else BitVec.ofInt 32 |x.toInt| := by
  rw [← Int.natCast_natAbs]
  cases sat with
  | false => rfl
  | true =>
    refine congrArg (BitVec.ofInt 32) ?_
    simp only [if_true]
    omega

/-- The source that is chosen is the one whose reading is the lesser, or the greater (R129). -/
theorem minMaxInt_min (sg : Bool) (x y : Word) : minMaxInt false sg x y = BitVec.ofInt 32 (min (read32 sg x) (read32 sg y)) := by
  simp only [minMaxInt, asType_word, Bool.false_eq_true, if_false]
  split
  · next h => rw [min_eq_left h, read32_emod]
  · next h => rw [min_eq_right (le_of_not_ge h), read32_emod]

theorem minMaxInt_max (sg : Bool) (x y : Word) : minMaxInt true sg x y = BitVec.ofInt 32 (max (read32 sg x) (read32 sg y)) := by
  simp only [minMaxInt, asType_word, if_true]
  split
  · next h => rw [max_eq_right h, read32_emod]
  · next h => rw [max_eq_left (le_of_not_ge h), read32_emod]

/-! ## Sums over bytes -/

theorem natBits_eq {w : Nat} (x : BitVec w) (pos len : Nat) : natBits x.toNat pos len = (x.extractLsb' pos len).toNat := by
  rw [natBits, BitVec.extractLsb'_toNat, Nat.shiftRight_eq_div_pow]

/-- A field is read with a sign as the bit vector that holds it is. -/
theorem signedOf_toNat {w : Nat} (x : BitVec w) : signedOf w x.toNat = x.toInt := by
  rw [signedOf, BitVec.toInt_eq_msb_cond, Nat.mod_eq_of_lt x.isLt, natBit_eq, BitVec.testBit_toNat, BitVec.msb_eq_getLsbD_last]

theorem asType_toNat {w : Nat} (sg : Bool) (x : BitVec w) : asType sg w x.toNat = if sg then x.toInt else (x.toNat : Int) := by
  rw [asType, signedOf_toNat, Nat.mod_eq_of_lt x.isLt]

theorem asType_byte (sg : Bool) (x : Word) (i : Nat) : asType sg 8 (byteOf x i) = byteAs sg x i := by
  rw [byteOf, natBits_eq, asType_toNat]
  rfl

theorem sadSum_eq (x y z : Word) :
    sadSum x y z = BitVec.ofInt 32 (z.toNat + sum4 fun i => |byteAs false x i - byteAs false y i|) := by
  have hb : ∀ (w : Word) i, byteAs false w i = byteOf w i := fun w i => by rw [byteOf, natBits_eq]; rfl
  have hsum : ((z.toNat + ((List.range 4).map fun i => ((byteOf x i : Int) - byteOf y i).natAbs).foldl (· + ·) 0 : Nat) : Int) =
      z.toNat + sum4 fun i => |byteAs false x i - byteAs false y i| := by
    simp [sum4, hb, List.range_succ]
  rw [sadSum, ← BitVec.ofInt_natCast, hsum]

theorem dot4Sum_eq (sa sb sat : Bool) (x y z : Word) :
    dot4Sum sa sb sat x y z = if sat then clamp32 true (z.toInt + sum4 fun i => byteAs sa x i * byteAs sb y i)
      else BitVec.ofInt 32 (z.toInt + sum4 fun i => byteAs sa x i * byteAs sb y i) := by
  have hsum : ((List.range 4).map fun i => asType sa 8 (byteOf x i) * asType sb 8 (byteOf y i)).foldl (· + ·) 0 =
      sum4 fun i => byteAs sa x i * byteAs sb y i := by
    simp [sum4, asType_byte, List.range_succ]
  rw [dot4Sum, hsum]
  cases sat with
  | true => exact clampInt32 ..
  | false => rfl

/-! ## The carry forms -/

/-- A predicate is written after a result, whatever K (R56, R129). -/
theorem writes_setPred {s t : State} {k : Cur} {m : Member} {kOnly wide : Bool} {d : Dst} {v : Word64}
    (h : Writes s t k m kOnly d wide v) (p : BitVec 3) (b : Bool) :
    Writes s (setPred t k.member p b) k m kOnly d wide v fun r => if p = 7 then r else r.setP p b := by
  obtain ⟨v', ho, he, hr, hl, hj⟩ := h
  refine ⟨_, ho.trans (onlyMember_updMember ho.member fun m => { m with r := m.r.setP p b }), ?_, ?_, hl, hj⟩
  · rw [he]
  · show v'.r.setP p b = if p = 7 then _ else _
    rw [hr, id]
    by_cases hp : p = 7
    · rw [hp, if_pos rfl, setP_seven]
    · rw [if_neg hp]

/-- ADDC and SUBB by the sum or difference and the predicate that they compute. -/
theorem valueFormAlso_carry {mk : Common → Instr} {d : Dst} {a b : Src} {isSub : Bool} {pOut pIn : BitVec 3} {cin : Bool}
    {f : State → Member → List Word64 → Word64} {also : Bool → Member → List Word64 → Regs → Regs}
    (hx : ∀ s c, exec (mk c) s = carryInstr isSub c d a b pOut pIn cin s)
    (hf : ∀ s m x y, f s m [x, y] = BitVec.ofNat 64 (wrapInt 32 (
      if isSub then (lo32 x).toNat - (lo32 y).toNat - (boolNat (cin && m.r.getP pIn) : Int)
      else (lo32 x).toNat + (lo32 y).toNat + (boolNat (cin && m.r.getP pIn) : Int))))
    (ha : ∀ kOnly m x y r, also kOnly m [x, y] r = if pOut = 7 then r else r.setP pOut (
      if isSub then borrowOut (lo32 x) (lo32 y) (cin && m.r.getP pIn) else carryOut (lo32 x) (lo32 y) (cin && m.r.getP pIn))) :
    ValueFormAlso mk d false [(.w32, a), (.w32, b)] f also := by
  refine valueFormAlso_of hx fun s c k m vs hm hl => ?_
  obtain ⟨x, y, rfl⟩ := List.length_eq_two.mp hl
  rw [funext (ha c.k m x y), hf]
  exact writes_setPred (writes_result hm c d false _) pOut _

/-- Settles O1: each instruction by its operands' count and the law of the result that it computes. -/
theorem integerResults : Obligations.IntegerResults := by
  refine ⟨fun d a b e sg sat sa sb => ⟨?_, ?_, ?_, ?_, ?_, ?_, ?_, ?_, ?_, ?_, ?_, ?_, ?_, ?_, fun r imm => ⟨?_, ?_, ?_, ?_⟩⟩,
    fun d a b pOut pIn cin => ⟨?_, ?_⟩⟩
  · exact valueForm_two (fun _ _ => rfl) (addSub_add32 sat sg)
  · exact valueForm_two (fun _ _ => rfl) (addSub_sub32 sat sg)
  · exact valueForm_two (fun _ _ => rfl) (addSub_add64 sat sg)
  · exact valueForm_two (fun _ _ => rfl) (addSub_sub64 sat sg)
  · exact valueForm_two (fun _ _ => rfl) fun _ _ => rfl
  · exact valueForm_two (fun _ _ => rfl) fun _ _ => congrArg ext ((congrArg _ (product_eq ..)).trans (highHalf_ofInt _))
  · exact valueForm_two (fun _ _ => rfl) fun _ _ => product_eq ..
  · exact valueForm_three (fun _ _ => rfl) fun _ _ _ => rfl
  · exact valueForm_one (fun _ _ => rfl) fun _ => congrArg ext (negInt_eq ..)
  · exact valueForm_one (fun _ _ => rfl) fun _ => congrArg ext (absInt_eq ..)
  · exact valueForm_two (fun _ _ => rfl) fun _ _ => congrArg ext (minMaxInt_min ..)
  · exact valueForm_two (fun _ _ => rfl) fun _ _ => congrArg ext (minMaxInt_max ..)
  · exact valueForm_three (fun _ _ => rfl) fun _ _ _ => congrArg ext (sadSum_eq ..)
  · exact valueForm_three (fun _ _ => rfl) fun _ _ _ => congrArg ext (dot4Sum_eq ..)
  · exact valueForm_imm (wide := false) (f := fun x => ext (lo32 x + imm)) fun _ _ => rfl
  · exact valueForm_imm (wide := true) (f := fun x => x + imm.signExtend 64) fun _ _ => rfl
  · exact valueForm_of (g := fun _ => ext imm) (fun _ _ => rfl) fun _ _ _ _ => rfl
  · exact valueForm_of (g := fun _ => imm.signExtend 64) (fun _ _ => rfl) fun _ _ _ _ => rfl
  · exact valueFormAlso_carry (fun _ _ => rfl) (fun _ _ _ _ => (ofNat_carrySum ..).symm) fun _ _ _ _ _ => rfl
  · exact valueFormAlso_carry (fun _ _ => rfl) (fun _ _ _ _ => (ofNat_borrowDifference ..).symm) fun _ _ _ _ _ => rfl

end Sys2Proof.Proofs
end

section
/-!
PROOF. The logic, shift and bit group (R130, R131): what each operation computes, as the manual writes it.
-/
set_option linter.constructorNameAsVariable false
namespace Sys2Proof.Proofs
open Sys2Proof.Machine Sys2Proof.Safety

/-! ## Shifts -/

/-- A shift by 32 or more leaves no bit (R131). -/
theorem shlW_eq (x n : Word) : shlW x n = x <<< n.toNat := by
  unfold shlW
  split
  · next h => exact (BitVec.shiftLeft_eq_zero h).symm
  · rfl

theorem shrW_eq (x n : Word) : shrW x n = x >>> n.toNat := by
  unfold shrW
  split
  · next h => exact (BitVec.ushiftRight_eq_zero h).symm
  · rfl

/-- An arithmetic shift by 32 or more leaves the sign alone (R131). -/
theorem sarW_eq (x n : Word) : sarW x n = x.sshiftRight n.toNat := by
  unfold sarW
  split
  · next h =>
    apply BitVec.eq_of_getLsbD_eq
    intro i hi
    have hout : ¬ n.toNat + i < 32 := by omega
    have hin : ¬ 32 ≤ i := by omega
    rw [BitVec.getLsbD_sshiftRight, if_neg hout, decide_eq_false hin, Bool.not_false, Bool.true_and]
    cases x.msb with
    | false => exact BitVec.getLsbD_zero (w := 32)
    | true => exact (BitVec.getLsbD_allOnes (v := 32)).trans (decide_eq_true hi)
  · rfl

theorem rolW_eq (x n : Word) : rolW x n = (x <<< (n.toNat % 32)) ||| (x >>> (32 - n.toNat % 32)) := by
  rw [rolW, BitVec.rotateLeft_def, Nat.mod_mod]

/-- The high word of a funnel shifted left, bit by bit (R131). -/
theorem shldW_eq (hi lo n : Word) : shldW hi lo n = (hi <<< (n.toNat % 32)) ||| (lo >>> (32 - n.toNat % 32)) := by
  unfold shldW
  have hk : n.toNat % 32 < 32 := Nat.mod_lt _ (by decide)
  generalize n.toNat % 32 = k at hk
  apply BitVec.eq_of_getLsbD_eq
  intro i h
  simp only [BitVec.getLsbD_extractLsb', BitVec.getLsbD_or, BitVec.getLsbD_shiftLeft, BitVec.getLsbD_ushiftRight, BitVec.getLsbD_append]
  by_cases hik : i < k
  · simp [h, hik, show 32 + i < 64 by omega, show ¬ 32 + i < k by omega, show 32 + i - k < 32 by omega,
      show 32 - k + i = 32 + i - k by omega]
  · simp [h, hik, show 32 + i < 64 by omega, show ¬ 32 + i < k by omega, show ¬ 32 + i - k < 32 by omega,
      show 32 + i - k - 32 = i - k by omega, BitVec.getLsbD_of_ge lo (32 - k + i) (by omega)]

/-- The low word of a funnel shifted right, bit by bit (R131). -/
theorem shrdW_eq (hi lo n : Word) : shrdW hi lo n = (lo >>> (n.toNat % 32)) ||| (hi <<< (32 - n.toNat % 32)) := by
  unfold shrdW
  have hk : n.toNat % 32 < 32 := Nat.mod_lt _ (by decide)
  generalize n.toNat % 32 = k at hk
  apply BitVec.eq_of_getLsbD_eq
  intro i h
  simp only [BitVec.getLsbD_extractLsb', BitVec.getLsbD_or, BitVec.getLsbD_shiftLeft, BitVec.getLsbD_ushiftRight, BitVec.getLsbD_append]
  by_cases hik : k + i < 32
  · simp [h, hik, show i < 32 - k by omega]
  · simp [h, hik, show ¬ i < 32 - k by omega, show k + i - 32 = i - (32 - k) by omega, BitVec.getLsbD_of_ge lo (k + i) (by omega)]

/-! ## Counts -/

theorem clzW_eq (x : Word) : clzW x = if x = 0 then 32 else BitVec.ofNat 32 (31 - x.toNat.log2) := by
  unfold clzW bitLen
  split
  · next h =>
    rw [h, show (0 : Word).toNat = 0 from rfl, bitLenAux_zero]
    rfl
  · next h =>
    have h0 : x.toNat ≠ 0 := fun e => h (BitVec.eq_of_toNat_eq e)
    have hlog : x.toNat.log2 < 32 := (Nat.log2_lt h0).mpr x.isLt
    rw [bitLenAux_eq (by omega) (Nat.log2_self_le h0) Nat.lt_log2_self, Nat.add_comm, Nat.sub_add_eq]

theorem sum_boolNat (p : Nat → Bool) (l : List Nat) : (l.map fun i => boolNat (p i)).sum = (l.filter p).length := by
  induction l with
  | nil => rfl
  | cons a r ih =>
    rw [List.map_cons, List.sum_cons, ih]
    cases h : p a <;> simp [h, boolNat, Nat.add_comm]

theorem popcW_eq (x : Word) : popcW x = BitVec.ofNat 32 (((List.range 32).filter fun i => x.getLsbD i).length) := by
  rw [popcW, sum_boolNat]

/-! ## Fields -/

/-- A field descriptor selects no bit, or a field that lies in the word (R131). -/
theorem fieldOfDesc_cases (desc : Word) :
    (fieldOfDesc desc = none ∧ ∀ none_ f, fieldSpec desc none_ f = none_) ∨
      ∃ pos len, pos + len ≤ 32 ∧ fieldOfDesc desc = some (pos, len) ∧ ∀ none_ f, fieldSpec desc none_ f = f pos len := by
  unfold fieldOfDesc fieldSpec
  simp only [natBits_eq, Bool.or_eq_true, decide_eq_true_eq, beq_iff_eq]
  generalize (desc.extractLsb' 0 8).toNat = pos
  generalize (desc.extractLsb' 8 8).toNat = len
  by_cases hn : pos ≥ 32 ∨ len = 0
  · exact .inl ⟨if_pos hn, fun _ _ => if_pos hn⟩
  · exact .inr ⟨pos, min len (32 - pos), by omega, if_neg hn, fun _ _ => if_neg hn⟩

theorem bfxW_unsigned (x desc : Word) :
    bfxW false x desc = fieldSpec desc 0 fun pos len => (x.extractLsb' pos len).zeroExtend 32 := by
  unfold bfxW
  rcases fieldOfDesc_cases desc with ⟨hd, hs⟩ | ⟨pos, len, -, hd, hs⟩
  · rw [hd, hs]
  · rw [hd, hs]
    simp only [natBits_eq, asType_toNat, Bool.false_eq_true, if_false, BitVec.ofInt_natCast, BitVec.ofNat_toNat]

theorem bfxW_signed (x desc : Word) :
    bfxW true x desc = fieldSpec desc 0 fun pos len => (x.extractLsb' pos len).signExtend 32 := by
  unfold bfxW
  rcases fieldOfDesc_cases desc with ⟨hd, hs⟩ | ⟨pos, len, -, hd, hs⟩
  · rw [hd, hs]
  · rw [hd, hs]
    simp only [natBits_eq, asType_toNat, if_true, BitVec.signExtend]

/-- The mask of a field's bits, in place (R131). -/
theorem fieldMask_eq {pos len : Nat} (h : len ≤ 32) :
    BitVec.ofNat 32 ((2 ^ len - 1) * 2 ^ pos) = (BitVec.allOnes 32 >>> (32 - len)) <<< pos := by
  have hones : (2 ^ 32 - 1) / 2 ^ (32 - len) = 2 ^ len - 1 := by
    have hsplit : 2 ^ 32 = 2 ^ len * 2 ^ (32 - len) := by rw [← pow_add, Nat.add_sub_cancel' h]
    have hlo := Nat.two_pow_pos (32 - len)
    have hhi := Nat.two_pow_pos len
    rw [hsplit, Nat.div_eq_iff hlo, Nat.sub_mul]
    have hle := Nat.mul_le_mul_right (2 ^ (32 - len)) hhi
    omega
  apply BitVec.eq_of_toNat_eq
  rw [BitVec.toNat_ofNat, BitVec.toNat_shiftLeft, BitVec.toNat_ushiftRight, BitVec.toNat_allOnes, Nat.shiftRight_eq_div_pow,
    hones, Nat.shiftLeft_eq]

theorem bfiW_eq (x base desc : Word) : bfiW x base desc = fieldSpec desc base fun pos len =>
    (base &&& ~~~((BitVec.allOnes 32 >>> (32 - len)) <<< pos)) ||| ((x &&& (BitVec.allOnes 32 >>> (32 - len))) <<< pos) := by
  unfold bfiW
  rcases fieldOfDesc_cases desc with ⟨hd, hs⟩ | ⟨pos, len, hin, hd, hs⟩
  · rw [hd, hs]
  · have hlen : len ≤ 32 := by omega
    rw [hd, hs]
    simp only [fieldMask_eq hlen, BitVec.shiftLeft_and_distrib]

/-! ## Bytes -/

/-- Byte `i` of the pair b:a (R131). -/
theorem byte_append (a b : Word) {i : Nat} (h : i < 8) :
    ((b ++ a).extractLsb' (8 * i) 8).toNat = if i < 4 then byteOf a (i % 4) else byteOf b (i % 4) := by
  have ha := a.isLt
  have hb := b.isLt
  rw [← natBits_eq, BitVec.toNat_append, ← Nat.shiftLeft_add_eq_or_of_lt ha, Nat.shiftLeft_eq, byteOf, byteOf, natBits, natBits,
    natBits]
  interval_cases i <;> simp only [Nat.reduceMul, Nat.reduceMod, Nat.reduceLT, if_true, if_false, Nat.reducePow] <;> omega

theorem permByte_eq (a b sel : Word) (i : Nat) : permByte a b sel i = (permByteSpec a b sel i).toNat := by
  unfold permByte permByteSpec
  simp only [natBits_eq]
  generalize sel.extractLsb' (4 * i) 4 = n
  have hbyte := byte_append a b (Nat.mod_lt n.toNat (by decide : 8 > 0))
  rw [Nat.mod_mod_of_dvd n.toNat (by decide : 4 ∣ 8)] at hbyte
  have hsign : n.getLsbD 3 = decide (n.toNat ≥ 8) := (BitVec.msb_eq_getLsbD_last n).symm.trans (BitVec.msb_eq_decide n)
  rw [← hbyte, hsign, BitVec.msb_eq_decide]
  simp only [decide_eq_true_eq, apply_ite BitVec.toNat]
  rfl

theorem toNat_append_byte {w : Nat} (x : BitVec w) (b : Byte) : (x ++ b).toNat = x.toNat * 256 + b.toNat := by
  rw [BitVec.toNat_append, ← Nat.shiftLeft_add_eq_or_of_lt b.isLt, Nat.shiftLeft_eq]

/-- The number that four bytes make. -/
theorem toNat_bytes (b3 b2 b1 b0 : Byte) :
    (b3 ++ b2 ++ b1 ++ b0).toNat = b0.toNat + 256 * b1.toNat + 65536 * b2.toNat + 16777216 * b3.toNat := by
  simp only [toNat_append_byte]
  omega

theorem permW_eq (a b sel : Word) : permW a b sel =
    permByteSpec a b sel 3 ++ permByteSpec a b sel 2 ++ permByteSpec a b sel 1 ++ permByteSpec a b sel 0 := by
  simp only [permW, permByte_eq, ← toNat_bytes, BitVec.ofNat_toNat, BitVec.setWidth_eq]

/-- Settles O2: each instruction by its operands' count and the law of the result that it computes. -/
theorem logicResults : Obligations.LogicResults := by
  refine fun d a b e => ⟨?_, ?_, ?_, ?_, ?_, ?_, ?_, ?_, ?_, ?_, ?_, ?_, ?_, ?_, ?_, ?_, ?_, ?_, fun r imm => ⟨?_, ?_, ?_⟩⟩
  · exact valueForm_two (fun _ _ => rfl) fun _ _ => rfl
  · exact valueForm_two (fun _ _ => rfl) fun _ _ => rfl
  · exact valueForm_two (fun _ _ => rfl) fun _ _ => rfl
  · exact valueForm_two (fun _ _ => rfl) fun _ _ => rfl
  · exact valueForm_one (fun _ _ => rfl) fun _ => rfl
  · exact valueForm_two (fun _ _ => rfl) fun _ _ => congrArg ext (shlW_eq ..)
  · exact valueForm_two (fun _ _ => rfl) fun _ _ => congrArg ext (shrW_eq ..)
  · exact valueForm_two (fun _ _ => rfl) fun _ _ => congrArg ext (sarW_eq ..)
  · exact valueForm_two (fun _ _ => rfl) fun _ _ => congrArg ext (rolW_eq ..)
  · exact valueForm_three (fun _ _ => rfl) fun _ _ _ => congrArg ext (shldW_eq ..)
  · exact valueForm_three (fun _ _ => rfl) fun _ _ _ => congrArg ext (shrdW_eq ..)
  · exact valueForm_one (fun _ _ => rfl) fun _ => congrArg ext (clzW_eq ..)
  · exact valueForm_one (fun _ _ => rfl) fun _ => congrArg ext (popcW_eq ..)
  · exact valueForm_one (fun _ _ => rfl) fun _ => rfl
  · exact valueForm_two (fun _ _ => rfl) fun _ _ => congrArg ext (bfxW_unsigned ..)
  · exact valueForm_two (fun _ _ => rfl) fun _ _ => congrArg ext (bfxW_signed ..)
  · exact valueForm_three (fun _ _ => rfl) fun _ _ _ => congrArg ext (bfiW_eq ..)
  · exact valueForm_three (fun _ _ => rfl) fun _ _ _ => congrArg ext (permW_eq ..)
  · exact valueForm_imm (wide := false) (f := fun x => ext (lo32 x &&& imm)) fun _ _ => rfl
  · exact valueForm_imm (wide := false) (f := fun x => ext (lo32 x ||| imm)) fun _ _ => rfl
  · exact valueForm_imm (wide := false) (f := fun x => ext (lo32 x ^^^ imm)) fun _ _ => rfl

end Sys2Proof.Proofs
end

section
/-!
PROOF. Compares, selects, moves and predicate instructions (R132, R133).
-/
set_option linter.constructorNameAsVariable false
namespace Sys2Proof.Proofs
open Sys2Proof.Machine Sys2Proof.Safety

/-- A condition holds of two operands as it holds of the integers that they are read as (R133). -/
theorem condHolds_eq (cc : Cond) (sg : Bool) (w : Nat) (x y : Word64) :
    condHolds cc sg w x y = condSpec cc (asType sg w x.toNat) (asType sg w y.toNat) := by
  cases cc
  case eq => exact beq_eq_decide ..
  case ne => exact (congrArg not (beq_eq_decide ..)).trans (decide_not ..).symm
  all_goals rfl

theorem condHolds32 (cc : Cond) (sg : Bool) (x y : Word64) :
    condHolds cc sg 32 x y = condSpec cc (read32 sg (lo32 x)) (read32 sg (lo32 y)) := by
  rw [condHolds_eq, asType_lo32, asType_lo32]

theorem condHolds64 (cc : Cond) (sg : Bool) (x y : Word64) :
    condHolds cc sg 64 x y = condSpec cc (read64 sg x) (read64 sg y) := by
  rw [condHolds_eq, asType64, asType64]

/-- SEL by the operand that its predicate chooses (R133). -/
theorem valueForm_sel (d : Dst) (a b : Src) (q : BitVec 3) (neg wide : Bool) :
    ValueForm (.sel · d a b q neg wide) d wide [(tyOf wide, a), (tyOf wide, b)]
      (fun s m => of2 (fun x y => if m.r.getP q != neg then x else y) s m) := by
  refine valueFormAlso_of (run := fun s c k m vs =>
    match vs with | [x, y] => result s k c d wide (if predSrc m q neg then x else y) | _ => s) (fun _ _ => rfl) fun s c k m vs hm hl => ?_
  obtain ⟨x, y, rfl⟩ := List.length_eq_two.mp hl
  exact writes_result hm c d wide _

/-- A predicate instruction without operands, by the predicate that it computes (R132). -/
theorem valueForm_pred {mk : Common → Instr} {p : BitVec 3} {f : Member → Bool} (hx : ∀ s c, exec (mk c) s = predInstr s c p f) :
    ValueForm mk (.pred p) false [] fun _ m _ => bitWord (f m) :=
  valueFormAlso_of (run := fun s c k m _ => result s k c (.pred p) false (if f m then 1 else 0)) hx
    fun _ c _ m _ hm _ => writes_result hm c (.pred p) false (bitWord (f m))

/-- The predicate set that PMOV reads has p7 as bit 7 (R133). -/
theorem predSet_eq (m : Member) : predSet m = BitVec.ofNat 64 (128 + m.r.p.toNat) := by
  have hset : (1#1 ++ m.r.p).toNat = 128 + m.r.p.toNat := by
    rw [BitVec.toNat_append, ← Nat.shiftLeft_add_eq_or_of_lt m.r.p.isLt]
    rfl
  rw [predSet, ← hset, BitVec.ofNat_toNat]

/-- PMOV's write of p0 to p6, and the latch that holds them (R133; log 13). -/
def writePreds (s : State) (c : Common) (k : Cur) (x : Word64) : State :=
  let p : BitVec 7 := x.extractLsb' 0 7
  setLatch (if c.k then s else updMember s k.member fun m => { m with r := { m.r with p := p } }) k (p.zeroExtend 64)

theorem writes_writePreds {s : State} {k : Cur} {m : Member} (hm : memberAt s k.member = some m) (c : Common) (x : Word64) :
    Writes s (writePreds s c k x) k m c.k .none false ((x.extractLsb' 0 7).zeroExtend 64)
      fun r => if c.k then r else { r with p := x.extractLsb' 0 7 } := by
  unfold writePreds
  cases hk : c.k with
  | true => exact ⟨_, onlyMember_setLatch hm _, rfl, by simp, rfl, fun _ => rfl⟩
  | false =>
    have h1 := onlyMember_updMember hm fun m => { m with r := { m.r with p := x.extractLsb' 0 7 } }
    exact ⟨_, h1.trans (onlyMember_setLatch h1.member _), rfl, by simp [afterResult], rfl, fun _ => rfl⟩

/-- Settles O3: each instruction by its operands' count and the value that it computes; PMOV's write by what becomes of the set. -/
theorem compareAndPredicateResults : Obligations.CompareAndPredicateResults := by
  refine ⟨fun p q d a b cc sg neg => ⟨?_, ?_, ?_, ?_, valueForm_sel d a b q neg false, valueForm_sel d a b q neg true, ?_, ?_⟩,
    fun p pa pb na nb d a => ⟨?_, ?_, ?_, ?_, ?_, ?_, ?_⟩⟩
  · exact valueForm_two (fun _ _ => rfl) fun x y => congrArg bitWord (condHolds32 cc sg x y)
  · exact valueForm_two (fun _ _ => rfl) fun x y => congrArg bitWord (condHolds64 cc sg x y)
  · exact valueForm_two (fun _ _ => rfl) fun x y => congrArg bitWord (condHolds32 cc sg x y)
  · exact valueForm_two (fun _ _ => rfl) fun x y => congrArg bitWord (condHolds64 cc sg x y)
  · exact valueForm_one (fun _ _ => rfl) fun _ => rfl
  · exact valueForm_one (fun _ _ => rfl) fun _ => rfl
  · exact valueForm_pred fun _ _ => rfl
  · exact valueForm_pred fun _ _ => rfl
  · exact valueForm_pred fun _ _ => rfl
  · exact valueForm_pred fun _ _ => rfl
  · exact valueForm_one (fun _ _ => rfl) fun _ => rfl
  · refine valueFormAlso_of (run := fun s c k m _ => result s k c d false (predSet m)) (fun _ _ => rfl) fun s c k m vs hm _ => ?_
    rw [← predSet_eq]
    exact writes_result hm c d false _
  · refine valueFormAlso_of (run := fun s c k _ vs => match vs with | [x] => writePreds s c k x | _ => s) (fun _ _ => rfl)
      fun s c k m vs hm hl => ?_
    obtain ⟨x, rfl⟩ := List.length_eq_one_iff.mp hl
    exact writes_writePreds hm c x

end Sys2Proof.Proofs
end

section
/-!
PROOF. Transfers, NOP, YIELD and PROGRESS (R136, R137).
-/
set_option linter.constructorNameAsVariable false
namespace Sys2Proof.Proofs
open Sys2Proof.Machine Sys2Proof.Safety

/-- The return index is the word behind the clause: the code position's modulus leaves the low 32 bits (R136; log 11). -/
theorem returnIndex_eq (k : Cur) : returnIndex k = BitVec.ofNat 32 (k.h + k.count + 2) := by
  have hw : wrapIdx ((k.h : Int) + k.count + 2) = (k.h + k.count + 2) % 2 ^ 57 := wrapIdx_natCast (k.h + k.count + 2)
  apply BitVec.eq_of_toNat_eq
  rw [returnIndex, hw, BitVec.toNat_ofNat, BitVec.toNat_ofNat, Nat.mod_mod_of_dvd _ (by decide)]

section
variable {s : State} {id : Nat} {m : Member} (hm : memberAt s id = some m)
include hm

theorem onlyMember_jumpTo (target : Nat) : OnlyMember s (jumpTo s id target) id { m with next := some target } :=
  onlyMember_updMember hm _

/-- A call links and goes to its target; a link in g63 may bring a frame join (R136, R143). -/
theorem linked_spec (link : BitVec 6) (v : Word) (target : Nat) : ∃ m', OnlyMember s (jumpTo (writeG s id link v) id target) id m' ∧
    m' = { m with next := some target, r := m.r.setG link v, joinTails := m'.joinTails } ∧
    (link ≠ 63 → m'.joinTails = m.joinTails) := by
  have h1 := onlyMember_writeG hm link v
  refine ⟨_, h1.trans (onlyMember_jumpTo h1.member target), rfl, fun hl => ?_⟩
  show m.joinTails ++ (if link == 63 then _ else []) = m.joinTails
  rw [beq_false_of_ne hl, if_neg Bool.false_ne_true, List.append_nil]

end

/-- A transfer to a word index that an operand gives (R136). -/
theorem actForm_index {mk : Common → Instr} {a : Src} {P : State → Cur → Member → Word64 → State → Prop}
    {run : State → Cur → Member → Word → State} (hx : ∀ s c, exec (mk c) s = indexInstr s c a (run s))
    (hr : ∀ s k m x, Issuing s k m → P s k m x (run s k m (lo32 x))) :
    ActForm mk (fun _ m => srcFault m .w32 a) [(.w32, a)] (arg1 P) :=
  actForm_one hx fun s _ k m x hi _ => hr s k m x hi

/-- Settles O7: a transfer by the member's next position and its link, a hint by the core's list or the context's mark. -/
theorem transfersAndHints : Obligations.TransfersAndHints := by
  refine ⟨fun off link a => ?_, ?_, ?_, ?_⟩
  · intro near linked at_
    refine ⟨?_, ?_, ?_, ?_, ?_⟩
    · exact actForm_control (fun _ _ => rfl) fun s k m hi _ => onlyMember_jumpTo hi.member _
    · exact actForm_index (run := fun s k _ t => jumpTo s k.member t.toNat) (fun _ _ => rfl) fun s k m x hi =>
        onlyMember_jumpTo hi.member _
    · exact actForm_index (run := fun s k _ t => jumpTo s k.member t.toNat) (fun _ _ => rfl) fun s k m x hi =>
        onlyMember_jumpTo hi.member _
    · refine actForm_control (fun _ _ => rfl) fun s k m hi _ => ?_
      rw [returnIndex_eq]
      exact linked_spec hi.member link _ _
    · refine actForm_index (run := fun s k _ t => jumpTo (writeG s k.member link (returnIndex k)) k.member t.toNat) (fun _ _ => rfl)
        fun s k m x hi => ?_
      rw [returnIndex_eq]
      exact linked_spec hi.member link _ _
  · exact actForm_control (fun _ _ => rfl) fun s k m _ _ => rfl
  · exact actForm_control (fun _ _ => rfl) fun s k m _ _ => onlyCore_updCore s m.core _
  · exact actForm_control (fun _ _ => rfl) fun s k m _ _ => onlyCtx_updCtx s m.launch m.core _

end Sys2Proof.Proofs
end

section
/-!
PROOF. Members that stand at a slot (R117, R118): what a member's leaving of its group and the retirement of its instruction keep of the
machine, and what is said of it from there.
-/
set_option linter.constructorNameAsVariable false
namespace Sys2Proof.Proofs
open Sys2Proof.Machine Sys2Proof.Safety

/-- From `s` to `t` the member `m` has come to stand at a slot as `m1`, and its instruction may have retired: clocks, groups and energy
of cores and the retirement marks of contexts apart, all else stays. -/
structure Stands (s t : State) (id : Nat) (m m1 : Member) : Prop where
  before : memberAt s id = some m
  rest : t = { s with members := t.members, cores := t.cores, ctxs := t.ctxs }
  log : ∀ g, (coreAt t g).log = (coreAt s g).log
  desc : ∀ l c, (ctxAt t l c).map (·.desc) = (ctxAt s l c).map (·.desc)
  tails : ∀ g, freeTailSlots t g = freeTailSlots s g
  member : memberAt t id = some m1
  same : m1 = { m with slot := m1.slot, wait := m1.wait, next := m1.next, readySince := m1.readySince }
  others : ∀ n, n ≠ id → memberAt t n = memberAt s n

theorem Stands.refl {s : State} {id : Nat} {m : Member} (h : memberAt s id = some m) : Stands s s id m m :=
  ⟨h, rfl, fun _ => rfl, fun _ _ => rfl, fun _ => rfl, h, rfl, fun _ _ => rfl⟩

/-- An entry that a predicate does not tell from the one in whose place it comes changes no answer about the table. -/
theorem any_tabPut {α : Type} {t : Tab α} {k : Nat} {v w : α} {p : α → Bool} (h : tabGet t k = some v) (hp : p w = p v) :
    ((tabPut t k w).any fun e => p e.2) = t.any fun e => p e.2 := by
  induction t with
  | nil => cases h
  | cons e r ih =>
    have hmem := mem_of_tabGet h
    unfold tabGet at h
    unfold tabPut
    split
    · rw [List.any_cons, hp]
      cases hv : p v with
      | false => exact Bool.false_or _
      | true => exact (List.any_eq_true.mpr ⟨(k, v), hmem, hv⟩).symm
    · split
      · next hk =>
        rw [if_pos hk.symm] at h
        cases h
        rw [List.any_cons, List.any_cons, hp]
      · next hk =>
        rw [if_neg (Ne.symm hk)] at h
        rw [List.any_cons, List.any_cons, ih h]

/-- A member that keeps its core and its place frees no tail slot and takes none (R24). -/
theorem freeTailSlots_updMember {s : State} {id : Nat} {f : Member → Member} (h : ∀ v, (f v).core = v.core ∧ (f v).place = v.place)
    (g : Nat) : freeTailSlots (updMember s id f) g = freeTailSlots s g := by
  refine List.filter_congr fun n _ => congrArg not ?_
  show (tabUpd s.members id f).any _ = _
  unfold tabUpd
  split
  · next v hv =>
    obtain ⟨hc, hp⟩ := h v
    refine any_tabPut (p := fun m => m.core == g && m.place == .tailSlot n) hv ?_
    rw [hc, hp]
  · rfl

theorem coreLog_updCore {f : CoreUnit → CoreUnit} (h : ∀ u, (f u).log = u.log) (s : State) (c g : Nat) :
    (coreAt (updCore s c f) g).log = (coreAt s g).log := by
  by_cases hg : g = c
  · rw [hg, coreAt_updCore_same, h]
  · rw [coreAt_updCore_other _ _ hg]

theorem ctxDesc_updCtx {f : Ctx → Ctx} (h : ∀ c, (f c).desc = c.desc) (s : State) (l c l' c' : Nat) :
    (ctxAt (updCtx s l c f) l' c').map (·.desc) = (ctxAt s l' c').map (·.desc) := by
  unfold ctxAt updCtx
  rw [tabGet_tabUpd]
  split
  · next hk =>
    have hd : (fun c : Ctx => c.desc) ∘ f = fun c => c.desc := funext h
    rw [Option.map_map, hd, hk]
  · rfl

theorem stands_leaveGroup {s : State} {id : Nat} {m : Member} (h : memberAt s id = some m) (slot : Nat) (w : Wait) :
    Stands s (leaveGroup s id slot w) id m { m with slot := slot, wait := w, next := none, readySince := (coreAt s m.core).cyc } := by
  unfold leaveGroup
  simp only [h]
  have hlog := coreLog_updCore (f := dropFromGroup id) (fun _ => rfl) s m.core
  refine ⟨h, rfl, hlog, fun _ _ => rfl, freeTailSlots_updMember (s := updCore s m.core (dropFromGroup id)) fun _ => ⟨rfl, rfl⟩, ?_, rfl,
    fun n hn => memberAt_updMember_other _ _ hn⟩
  rw [memberAt_updMember_same]
  exact congrArg (Option.map _) h

/-- Retirement touches clocks and energy of cores and the marks of contexts (R282, R297, R299). -/
theorem retireAs_units (s : State) (id cat w : Nat) :
    retireAs s id cat w = { s with cores := (retireAs s id cat w).cores, ctxs := (retireAs s id cat w).ctxs } ∧
      (∀ g, (coreAt (retireAs s id cat w) g).log = (coreAt s g).log) ∧
      ∀ l c, (ctxAt (retireAs s id cat w) l c).map (·.desc) = (ctxAt s l c).map (·.desc) := by
  unfold retireAs
  split
  · exact ⟨rfl, fun _ => rfl, fun _ _ => rfl⟩
  · next m _ =>
    split
    · refine ⟨rfl, fun g => ?_, fun _ _ => rfl⟩
      rw [retireLater, coreLog_updCore]
      exact fun _ => rfl
    · refine ⟨rfl, fun g => ?_, fun l c => ?_⟩
      · show (coreAt (chargeEnergy s m.core cat w 1) g).log = _
        rw [chargeEnergy, coreLog_updCore]
        exact fun _ => rfl
      · rw [retireEntry, ctxDesc_updCtx]
        · rfl
        · exact fun _ => rfl

/-- An instruction that retires leaves its member standing (R297). -/
theorem Stands.retire {s t : State} {id : Nat} {m m1 : Member} (h : Stands s t id m m1) (cat w : Nat) :
    Stands s (retireAs t id cat w) id m m1 := by
  obtain ⟨hrest, hlog, hdesc⟩ := retireAs_units t id cat w
  exact ⟨h.before, by rw [hrest, h.rest], fun g => (hlog g).trans (h.log g), fun l c => (hdesc l c).trans (h.desc l c),
    fun g => by rw [hrest]; exact h.tails g, by rw [memberAt_retireAs, h.member], h.same,
    fun n hn => by rw [memberAt_retireAs, h.others n hn]⟩

section
variable {s t : State} {id : Nat} {m m1 : Member} (h : Stands s t id m m1)
include h

theorem Stands.mem : t.mem = s.mem := by rw [h.rest]
theorem Stands.mod : t.mod = s.mod := by rw [h.rest]

theorem Stands.physOf_eq (pa : Nat) : physOf t pa = physOf s pa := by rw [h.rest]; rfl

theorem Stands.inArchive {u : State} {x : Nat} (hx : InArchive t u x) : InArchive s u x := by
  rw [h.rest] at hx
  exact hx

/-- What a departure would release it would release from the slot too (R89, R90). -/
theorem Stands.nothingToRelease (hn : NothingToRelease s id m) : NothingToRelease t id m1 := by
  obtain ⟨hf, hs, hr⟩ := hn
  refine ⟨by rw [h.same]; exact hf, fenceSet_mono (by rw [h.rest]; exact fun _ he => he) h.log hs, ?_⟩
  exact (releaseNeed_congr (by rw [h.rest]) (by rw [h.rest]) (by rw [h.same]) (by rw [h.same]) (by rw [h.same]) .pod).trans hr

/-- Who departs from a slot departs (R23, R94, R138). -/
theorem Stands.left {u : State} (hl : Left t u id m1) : Left s u id m := by
  obtain ⟨v, hv, hw, hkind, hr, h0, h1, hdone, hplace, hgrid⟩ := hl.member
  have hk : m1.kind = m.kind := by rw [h.same]
  have hp : m1.place = m.place := by rw [h.same]
  have ht : m1.triggered = m.triggered := by rw [h.same]
  rw [hk, hp] at hplace
  rw [hk, ht] at hgrid
  exact ⟨fun a => by rw [hl.memory, h.mem], fun n hn => (hl.others n hn).trans (h.others n hn), v, hv, hw, hkind.trans hk,
    hr.trans (by rw [h.same]), h0.trans (by rw [h.same]), h1.trans (by rw [h.same]), hdone.trans (by rw [h.same]), hplace,
    fun hg => ⟨(hgrid hg).1, fun hn => (hgrid hg).2 (hn.imp_right h.nothingToRelease)⟩⟩

end

end Sys2Proof.Proofs
end

section
/-!
PROOF. EXIT and TJOIN (R138, R142).
-/
set_option linter.constructorNameAsVariable false
namespace Sys2Proof.Proofs
open Sys2Proof.Machine Sys2Proof.Safety

/-- A member that is no tail departs as its EXIT retires (R138). -/
theorem left_exitNow {s t : State} {id : Nat} {m m1 : Member} (h : Stands s t id m m1) (hk : m.kind ≠ .tail) :
    Left s (exitNow t id) id m := by
  have hr := h.retire 7 1
  exact hr.left (left_leaveMember hr.member (by rw [h.same]; exact hk))

/-- EXIT is for members that have neither released nor been released (R138). -/
theorem exitCheck_eq (m : Member) :
    (if isTail m || releasedMode m then some 0x0B else none) = if m.kind = .tail ∨ m.rd ≠ 0 then some 0x0B else none := by
  simp [isTail, releasedMode]

/-- The drain of an EXIT ends where its member has drained, and only there (R138). -/
theorem exec_exitDrainEnd {s : State} {id : Nat} {m : Member} (hm : memberAt s id = some m) :
    exec (.exitDrainEnd id) s = .next (if m.wait = .drain .exit ∧ drained m = true then exitNow s id else s) := by
  simp only [exec, execExitDrainEnd, hm, Bool.and_eq_true, beq_iff_eq]

/-- Settles O8: EXIT and its drain by whether the member has drained, TJOIN by whether tails of the member live. -/
theorem exitsAndJoins : Obligations.ExitsAndJoins := by
  refine ⟨⟨?_, fun s id m hm hk => ⟨fun hw hd => ⟨_, exec_exitDrainEnd hm, ?_⟩, fun hn => ?_⟩⟩, ?_⟩
  · simp only [← exitCheck_eq]
    refine actForm_control (fun _ _ => rfl) fun s k m hi hc => ?_
    split
    · have hk : m.kind ≠ .tail := fun hk => by simp [isTail, hk] at hc
      exact left_exitNow (stands_leaveGroup hi.member ..) hk
    · exact leaves_leaveGroup hi.member _
  · rw [if_pos ⟨hw, hd⟩]
    exact left_exitNow (.refl hm) hk
  · have hn' : ¬ (m.wait = .drain .exit ∧ drained m = true) := fun h => hn.elim (· h.1) (by simp [h.2])
    exact (exec_exitDrainEnd hm).trans (by rw [if_neg hn'])
  · simp only [← notInTail_eq]
    refine actForm_control (fun _ _ => rfl) fun s k m hi _ => ?_
    show if liveTails s k.member = [] then _ else _
    simp only [List.isEmpty_iff]
    split
    · rfl
    · exact leaves_leaveGroup hi.member _

end Sys2Proof.Proofs
end

section
/-!
PROOF. A member's own accesses to its CELL space (R139 to R141, R164, R172): what the checks let pass, a record that is written there, and
one that is read back.
-/
set_option linter.constructorNameAsVariable false
namespace Sys2Proof.Proofs
open Sys2Proof.Machine Sys2Proof.Safety

/-- Within a run of memory each byte is served by the one that follows (R313). -/
theorem physOf_run {s : State} {pa n : Nat} (h : oneRun s pa n = true) {i : Nat} (hi : i < n) :
    physOf s (pa + i) = physOf s pa + i := by
  simp only [oneRun, Bool.or_eq_true, decide_eq_true_eq, List.isEmpty_iff] at h
  rcases h with h | h
  · exact physOf_add (by omega)
  · simp [physOf, h]

/-- An access to CELL space that is allowed has its place (R164, R172). -/
theorem cellCheck_ok {s : State} {m : Member} {off size : Nat} {r w : Bool} (h : CellAllows s m off size r w) (ho : off < 2 ^ 60)
    {need : Need} (hr : need.r = r) (hw : need.w = w) :
    ∃ attr pol, cellCheck s m off size need = .ok { tgt := .loc (cellPa s m off), attr := attr, pol := pol } := by
  obtain ⟨c, hc, hv, hl, hdr, hdw, hm, -⟩ := h
  have hoff : (BitVec.ofNat 64 off).toNat = off := by rw [BitVec.toNat_ofNat]; omega
  have hsp : off / 2 ^ 60 = 0 := Nat.div_eq_of_lt ho
  have hd : c.desc.toList.getD 0 0 = c.desc[0] := by simp [List.getD_eq_getElem?_getD]
  have hpa : sliceBase m.home + Desc.base c.desc[0] + off = cellPa s m off := by
    rw [cellPa, hc, Option.map_some, Option.getD_some, hd]
  have hperm : ((need.r && !Desc.r c.desc[0]) || (need.w && !Desc.w c.desc[0])) = false := by
    have himp : ∀ a b : Bool, (a = true → b = true) → (a && !b) = false := by decide
    rw [hr, hw, himp _ _ hdr, himp _ _ hdw]
    rfl
  refine ⟨orderAttr (Desc.o c.desc[0]), Desc.pol c.desc[0], ?_⟩
  simp only [cellCheck, hc, resolve, resolveIn, hoff, hsp, Nat.mod_eq_of_lt ho, hd, hv, hperm, hpa]
  simp [Nat.not_lt.mpr hl, hm]

/-- The stamps of lines lie in a field's unit (R236, R246). -/
theorem putStamps_rest (s : State) (f pa n : Nat) (v : Vec) :
    putStamps s f pa n v = { s with fields := (putStamps s f pa n v).fields, sched := (putStamps s f pa n v).sched } := by
  unfold putStamps
  generalize linesOf pa n = ls
  induction ls generalizing s with
  | nil => rfl
  | cons l r ih =>
    have h1 : putStamp s f l v = { s with fields := (putStamp s f l v).fields, sched := (putStamp s f l v).sched } := by
      unfold putStamp
      simp only
      split <;> rfl
    rw [List.foldl_cons, ih, h1]

/-- A member's own store is a store at its home, with stamps beside it (R140, R246, R272). -/
theorem memberStore_rest (s : State) (m : Member) (pa : Nat) (l : List Byte) :
    ∃ fs sc, memberStore s m pa l = { storeAt s (some (m.launch, m.core)) pa l with fields := fs, sched := sc } := by
  unfold memberStore
  simp only
  split
  · split
    · exact ⟨_, _, putStamps_rest ..⟩
    · exact ⟨_, _, rfl⟩
  · exact ⟨_, _, rfl⟩

/-- What a member's own store leaves: its bytes, other memory but the log, and all members (R140, R304). -/
theorem memberStore_spec {s : State} {m : Member} {pa : Nat} {l : List Byte} (h : oneRun s pa l.length = true) :
    memReadN (memberStore s m pa l).mem (physOf s pa) l.length = l ∧ SameOutside s (memberStore s m pa l) (physOf s pa) l.length ∧
      (memberStore s m pa l).members = s.members := by
  have hrun : ∀ i, i < l.length → physOf s (pa + i) = physOf s pa + i := fun i => physOf_run h
  obtain ⟨fs, sc, he⟩ := memberStore_rest s m pa l
  obtain ⟨u, hu, hs⟩ := storeAt_eq s (some (m.launch, m.core)) pa l
  rw [he]
  refine ⟨memReadN_eq fun i hi => memRead_storeAt (who := some (m.launch, m.core)) hrun hi,
    fun x hx ha => sameOutside_storeAt (who := some (m.launch, m.core)) hrun x hx ha, ?_⟩
  show (storeAt s (some (m.launch, m.core)) pa l).members = _
  rw [hs, writeBytes_members, hu.rest]

/-- A part of a run of bytes is the run that begins there. -/
theorem take_drop_memReadN (m : Memory) (a : Nat) {j k n : Nat} (h : j + k ≤ n) :
    ((memReadN m a n).drop j).take k = memReadN m (a + j) k := by
  obtain ⟨r, rfl⟩ := Nat.exists_eq_add_of_le h
  rw [Nat.add_assoc, memReadN_append, List.drop_left' (memReadN_length ..), memReadN_append, List.take_left' (memReadN_length ..)]

/-- A number in a run that memory serves in order is read where it lies. -/
theorem natOfBytes_readBytes {s : State} {pa n j k : Nat} (h : oneRun s pa n = true) (hjk : j + k ≤ n) :
    natOfBytes (((readBytes s pa n).drop j).take k) = memNat s (physOf s pa + j) k := by
  rw [readBytes_eq fun i hi => physOf_run h hi, take_drop_memReadN _ _ hjk]
  rfl

/-! ## Behind the clause -/

theorem membersOnly_passClause (s : State) (id : Nat) : MembersOnly s (passClause s id) := by
  unfold passClause
  split
  · rfl
  · exact membersOnly_endClause ..

theorem memberAt_passClause_other (s : State) {id n : Nat} (h : n ≠ id) : memberAt (passClause s id) n = memberAt s n := by
  unfold passClause
  split
  · rfl
  · next m hm =>
    by_cases ht : m.terminating = true
    · rw [endClause, hm]
      simp only [ht, if_true]
    · exact memberAt_endClause_other hm (Bool.eq_false_of_not_eq_true ht) _ _ h

/-- A member behind its clause: where it was sent, or at the word that follows (R59, R118). -/
theorem memberAt_passClause {s : State} {id : Nat} {m : Member} (h : memberAt s id = some m) (ht : m.terminating = false) :
    ∃ v, memberAt (passClause s id) id = some v ∧ v.pc = m.next.getD ((m.pc + m.count + 2) % 2 ^ 57) ∧ v.slot = 0 ∧ v.r = m.r ∧
      v.rp = m.rp ∧ v.rd = m.rd := by
  have hw : wrapIdx (m.pc + m.count + 2) = (m.pc + m.count + 2) % 2 ^ 57 := wrapIdx_natCast (m.pc + m.count + 2)
  rw [passClause, h]
  refine ⟨_, memberAt_endClause_eq h ht m.pc m.count, ?_, rfl, rfl, rfl, rfl⟩
  show m.next.getD (wrapIdx (m.pc + m.count + 2)) = _
  rw [hw]

/-! ## From the slot -/

section
variable {s t : State} {id : Nat} {m m1 : Member} (h : Stands s t id m m1)
include h

theorem Stands.cellPa_eq (off : Nat) : cellPa t m1 off = cellPa s m off := by
  have hd : ∀ o : Option Ctx, o.map (·.desc.toList.getD 0 0) = (o.map (·.desc)).map fun d => d.toList.getD 0 0 := fun o => by
    rw [Option.map_map]
    rfl
  have hl : m1.launch = m.launch := by rw [h.same]
  have hc : m1.core = m.core := by rw [h.same]
  have hh : m1.home = m.home := by rw [h.same]
  unfold cellPa
  rw [hd, hd, h.desc, hl, hc, hh]

theorem Stands.cellAllows {off size : Nat} {r w : Bool} (ha : CellAllows s m off size r w) : CellAllows t m1 off size r w := by
  obtain ⟨c, hc, hv, hlim, hr, hw, hm, ho⟩ := ha
  have hl : m1.launch = m.launch := by rw [h.same]
  have hcore : m1.core = m.core := by rw [h.same]
  have hd := h.desc m.launch m.core
  rw [hc, Option.map_some, Option.map_eq_some_iff] at hd
  obtain ⟨c', hc', he⟩ := hd
  unfold CellAllows
  rw [h.cellPa_eq, hl, hcore]
  refine ⟨c', hc', by rw [he]; exact hv, by rw [he]; exact hlim, by rw [he]; exact hr, by rw [he]; exact hw, ?_, ?_⟩
  · rw [h.rest]
    exact hm
  · rw [h.rest]
    exact ho

end

end Sys2Proof.Proofs
end

section
/-!
PROOF. RELCALL (R139, R140): a release to a tail, and a release in place.
-/
set_option linter.constructorNameAsVariable false
namespace Sys2Proof.Proofs
open Sys2Proof.Machine Sys2Proof.Safety

theorem resumeBytes_eq (r : Regs) (ret prior : Word) : resumeBytes r ret prior =
    r.g.toList.flatMap (fun w => bytesOf 4 w.toNat) ++ [r.p.zeroExtend 8, 0, 0, 0] ++ bytesOf 4 ret.toNat ++ bytesOf 4 prior.toNat ++
      [0, 0, 0, 0] := by
  have hp : bytesOf 1 r.p.toNat = [r.p.zeroExtend 8] := by
    have := r.p.isLt
    rw [bytesOf, bytesOf, Nat.mod_eq_of_lt (by omega), BitVec.ofNat_toNat]
  rw [resumeBytes, hp, ← List.flatMap_def]
  simp only [List.append_assoc]
  rfl

/-- A resume record has 272 bytes (R140). -/
theorem resumeBytes_length (r : Regs) (ret prior : Word) : (resumeBytes r ret prior).length = 272 := by
  have hg : (r.g.toList.flatMap fun w => bytesOf 4 w.toNat).length = 256 := by
    simp [List.length_flatMap, bytesOf_length]
  rw [resumeBytes, ← List.flatMap_def]
  simp only [List.length_append, hg, bytesOf_length]

section
variable {s t : State} {id : Nat} {m m1 : Member} (h : Stands s t id m m1) (ht : m.terminating = false)
include h ht

/-- The release to a tail slot (R139, R145). -/
theorem releasedToTail_spec (slot : Nat) (ret top : Word) (hf : memberAt s s.sched.nextId = none) :
    ReleasedToTail s (releaseToTail (drawFree t).2 id slot m1 ret top) id m ret top := by
  have hid : t.sched.nextId = s.sched.nextId := by rw [h.rest]
  have hne : s.sched.nextId ≠ id := fun e => by rw [e, h.before] at hf; cases hf
  generalize hx : newTail m1 id slot (coreAt (freshId (drawFree t).2).2 m1.core).cyc top = x
  generalize hu : { (freshId (drawFree t).2).2 with members := tabPut t.members s.sched.nextId x } = u
  have hmem : u.mem = s.mem := by rw [← hu]; exact h.mem
  have hm1 : memberAt u id = some m1 := by rw [← hu]; exact (tabGet_tabPut_other _ _ hne.symm).trans h.member
  have hmx : memberAt u s.sched.nextId = some x := by rw [← hu]; exact tabGet_tabPut_same ..
  have h2 := onlyMember_writeG hm1 63 top
  have h3 := h2.trans (onlyMember_jumpTo h2.member ret.toNat)
  have he : releaseToTail (drawFree t).2 id slot m1 ret top = passClause (jumpTo (writeG u id 63 top) id ret.toNat) id := by
    rw [← hu, ← hx, ← hid]
    rfl
  obtain ⟨v, hv, hpc, hslot, hr, hrp, hrd⟩ := memberAt_passClause h3.member (by rw [h.same]; exact ht)
  have hw : wrapIdx (m.pc + m.count + 2) = (m.pc + m.count + 2) % 2 ^ 57 := wrapIdx_natCast (m.pc + m.count + 2)
  rw [he]
  refine ⟨fun a => ?_, ⟨x, slot, ?_, ?_⟩, v, hv, hr.trans (by rw [h.same]), hpc, hslot, hrd.trans (by rw [h.same]),
    hrp.trans (by rw [h.same])⟩
  · rw [(membersOnly_passClause ..).mem, h3.memory a, hmem]
  · rw [memberAt_passClause_other _ hne, h3.others _ hne, hmx]
  · rw [← hx, h.same]
    exact ⟨rfl, rfl, rfl, rfl, rfl, rfl, hw, rfl, rfl, rfl⟩

/-- The release in the member's own space (R139, R140). -/
theorem releasedInPlace_spec (hn : m1.next = none) (ret top : Word) (ha : CellAllows s m (m.r.getG 63 - 272).toNat 272 false true) :
    ReleasedInPlace s (releaseInPlace t id m1 ret top) id m ret top := by
  have hr : m1.r = m.r := by rw [h.same]
  generalize hg : m.r.getG 63 - 272 = g at ha
  have ho : g.toNat < 2 ^ 60 := g.isLt.trans (by decide)
  obtain ⟨attr, pol, hcheck⟩ := cellCheck_ok (need := Need.store) (h.cellAllows ha) ho rfl rfl
  obtain ⟨-, -, -, -, -, -, -, hone⟩ := h.cellAllows ha
  rw [h.cellPa_eq] at hcheck hone
  generalize hl : resumeBytes (m.r.setG 63 top) ret m.rp = l
  have hlen : l.length = 272 := by rw [← hl]; exact resumeBytes_length ..
  rw [← hlen] at hone
  obtain ⟨hread, hout, hmembers⟩ := memberStore_spec (m := m1) hone
  generalize hu : memberStore t m1 (cellPa s m g.toNat) l = u at hread hout hmembers
  have hm1 : memberAt u id = some m1 := (congrArg (tabGet · id) hmembers).trans h.member
  have h2 := onlyMember_writeG hm1 63 g
  have h3 := h2.trans (onlyMember_updMember h2.member fun v => { v with rp := g, rd := v.rd + 1 })
  have he : releaseInPlace t id m1 ret top =
      passClause (updMember (writeG u id 63 g) id fun v => { v with rp := g, rd := v.rd + 1 }) id := by
    have hrp : m1.rp = m.rp := by rw [h.same]
    simp only [releaseInPlace, hr, hg, hcheck, hrp, hl, hu]
  obtain ⟨v, hv, hpc, hslot, hvr, hvrp, hvrd⟩ := memberAt_passClause h3.member (by rw [h.same]; exact ht)
  have hrest := membersOnly_passClause (updMember (writeG u id 63 g) id fun v => { v with rp := g, rd := v.rd + 1 }) id
  rw [h.physOf_eq, hlen] at hread hout
  rw [he]
  have hnext : m1.next.getD ((m1.pc + m1.count + 2) % 2 ^ 57) = (m.pc + m.count + 2) % 2 ^ 57 := by rw [hn, h.same]; rfl
  refine ⟨?_, fun x hx hna => ?_, v, hv, ?_, ?_, ?_, hpc.trans hnext, hslot⟩
  · rw [hg, hrest.mem]
    exact hread.trans (hl.symm.trans (resumeBytes_eq ..))
  · rw [hg] at hx
    rw [hrest.mem]
    exact (hout x hx fun hin => hna (by rw [InArchive, hrest.mod]; exact h.inArchive hin)).trans (by rw [h.mem])
  · rw [hvr, hg]
    exact congrArg (·.setG 63 g) hr
  · rw [hvrp, hg]
  · rw [hvrd, h.same]

end

theorem chooseFrom_nonempty {s : State} {l : List Nat} (h : l ≠ []) : ∃ n, chooseFrom s l = some (n, (drawFree s).2) := by
  unfold chooseFrom
  rw [if_neg (by simpa using h)]
  exact ⟨_, rfl⟩

/-- A release finds a free tail slot for a cell that has released none before, or takes place in the member's own space (R139). -/
theorem release_eq {s : State} {id : Nat} {m : Member} (h : memberAt s id = some m) (ret : Word) (top : Option Word) :
    let toTail := (m.kind = .grid ∨ m.kind = .task) ∧ m.rd = 0 ∧ freeTailSlots s m.core ≠ []
    (toTail → ∃ n, release s id ret top = releaseToTail (drawFree (retireAs s id 7 1)).2 id n m ret (top.getD (m.r.getG 63))) ∧
      (¬ toTail → release s id ret top = releaseInPlace (retireAs s id 7 1) id m ret (top.getD (m.r.getG 63))) := by
  have hcell : (isCell m && !releasedMode m) = true ↔ (m.kind = .grid ∨ m.kind = .task) ∧ m.rd = 0 := by
    simp [isCell, releasedMode]
  unfold release
  simp only [h]
  refine ⟨fun ⟨hk, hrd, hne⟩ => ?_, fun hto => ?_⟩
  · obtain ⟨n, hn⟩ := chooseFrom_nonempty (s := retireAs s id 7 1) hne
    exact ⟨n, by rw [if_pos (hcell.mpr ⟨hk, hrd⟩), hn]⟩
  · by_cases hc : (isCell m && !releasedMode m) = true
    · have hnil : freeTailSlots s m.core = [] := by
        by_contra hne
        exact hto ⟨(hcell.mp hc).1, (hcell.mp hc).2, hne⟩
      rw [if_pos hc, hnil]
      rfl
    · rw [if_neg hc]

/-- What the release of a member that stands at its RELCALL leaves (R139). -/
theorem released_release {s t : State} {id : Nat} {m m1 : Member} (h : Stands s t id m m1) (hn : m1.next = none)
    (ht : m.terminating = false) (ret : Word) (top : Option Word) :
    Released s (release t id ret top) id m ret (top.getD (m.r.getG 63)) := by
  have h1 := h.retire 7 1
  have hr : m1.r = m.r := by rw [h.same]
  have hk : m1.kind = m.kind := by rw [h.same]
  have hrd : m1.rd = m.rd := by rw [h.same]
  have hc : m1.core = m.core := by rw [h.same]
  obtain ⟨htail, hplace⟩ := release_eq h.member ret top
  rw [hk, hrd, hc, hr, h.tails] at htail hplace
  refine ⟨fun hto hf => ?_, fun hto ha => ?_⟩
  · obtain ⟨n, he⟩ := htail hto
    rw [he]
    exact releasedToTail_spec h1 ht n ret _ hf
  · rw [hplace hto]
    exact releasedInPlace_spec h1 ht hn ret _ ha

end Sys2Proof.Proofs
end

section
/-!
PROOF. TEND (R141, R142): the end of a tail, and the return of a release in place; RELCALL and TEND with what ends their waits.
-/
set_option linter.constructorNameAsVariable false
namespace Sys2Proof.Proofs
open Sys2Proof.Machine Sys2Proof.Safety

/-! ## The end of a tail -/

theorem mem_releaseJoins (s : State) (rel : Nat) : (releaseJoins s rel).mem = s.mem := by
  unfold releaseJoins
  split
  · rfl
  · split
    · split
      · rw [mem_settle, updMember_mem, mem_retireAs]
      · rfl
    · split
      · rfl
      · exact mem_settle ..
    · rfl

theorem memberAt_releaseJoins_other (s : State) {rel n : Nat} (h : n ≠ rel) : memberAt (releaseJoins s rel) n = memberAt s n := by
  unfold releaseJoins
  split
  · rfl
  · split
    · split
      · rw [memberAt_settle_other _ h, memberAt_updMember_other _ _ h, memberAt_retireAs]
      · rfl
    · split
      · rfl
      · exact memberAt_settle_other _ h
    · rfl

/-- A member that has ended waits for no tail. -/
theorem releaseJoins_inactive {s : State} {rel : Nat} {m : Member} (h : memberAt s rel = some m) (hw : m.wait = .inactive) :
    releaseJoins s rel = s := by
  simp only [releaseJoins, h, hw]

/-- A tail that ends frees its slot, and its releaser may go on (R141, R142, R143). -/
theorem leaveMember_tail {s : State} {id : Nat} {m : Member} (h : memberAt s id = some m) (hk : m.kind = .tail) :
    leaveMember s id = releaseJoins (updMember (leaving s id m) id fun m =>
      { m with place := .gone, wait := .inactive, terminating := false, moveTo := none, put := {} }) (m.releaser.getD id) := by
  unfold leaveMember
  rw [h]
  simp only [hk]
  rfl

theorem tailEnded_leaveMember {s : State} {id : Nat} {m : Member} (h : memberAt s id = some m) (hk : m.kind = .tail) :
    TailEnded s (leaveMember s id) id m := by
  rw [leaveMember_tail h hk]
  generalize hu : updMember (leaving s id m) id _ = u
  obtain ⟨v, hm, hw, hp, hv⟩ : ∃ v, memberAt u id = some v ∧ v.wait = .inactive ∧ v.place = .gone ∧ v.r = m.r := by
    rw [← hu, memberAt_updMember_same, memberAt_leaving h]
    exact ⟨_, rfl, rfl, rfl, rfl⟩
  have ho : ∀ n, n ≠ id → memberAt u n = memberAt s n := fun n hn => by
    rw [← hu, memberAt_updMember_other _ _ hn, memberAt_leaving_other _ _ hn]
  refine ⟨fun a => ?_, fun n hn hr => ?_, v, ?_, hw, hp, hv⟩
  · rw [mem_releaseJoins, ← hu, updMember_mem, Machine.mem_leaving]
  · rw [memberAt_releaseJoins_other, ho n hn]
    intro e
    cases hrel : m.releaser with
    | none => exact hn (by rw [e, hrel]; rfl)
    | some r => exact hr (by rw [hrel, e, hrel]; rfl)
  · by_cases e : id = m.releaser.getD id
    · rw [← e, releaseJoins_inactive hm hw, hm]
    · rw [memberAt_releaseJoins_other _ e, hm]

/-! ## The return of a release in place -/

/-- A caller with what the bytes of its resume record hold (R140, R141). -/
def resumedFrom (s : State) (id : Nat) (r : Regs) (b : List Byte) (v : Member) : Member :=
  { v with r := resumeRegs r b, rp := BitVec.ofNat 32 (natOfBytes ((b.drop 264).take 4)), rd := v.rd - 1,
           next := some (natOfBytes ((b.drop 260).take 4)), joinTails := v.joinTails ++ joinSet s id ((resumeRegs r b).getG 63) }

section
variable {s t : State} {id : Nat} {m m1 : Member} (h : Stands s t id m m1)
include h

theorem Stands.tailEnded {u : State} (he : TailEnded t u id m1) : TailEnded s u id m := by
  obtain ⟨v, hv, hw, hp, hr⟩ := he.member
  have hrel : m1.releaser = m.releaser := by rw [h.same]
  exact ⟨fun a => by rw [he.memory, h.mem], fun n hn hn' => (he.others n hn (by rw [hrel]; exact hn')).trans (h.others n hn), v, hv, hw, hp,
    hr.trans (by rw [h.same])⟩

/-- The caller resumes from its resume record (R140, R141). -/
theorem resumed_resumeCaller (ht : m.terminating = false) (ha : CellAllows s m m.rp.toNat 272 true false) :
    Resumed s (resumeCaller t id m1) id m (physOf s (cellPa s m m.rp.toNat)) := by
  have hr : m1.r = m.r := by rw [h.same]
  have hrp : m1.rp = m.rp := by rw [h.same]
  have ho : m.rp.toNat < 2 ^ 60 := m.rp.isLt.trans (by decide)
  obtain ⟨attr, pol, hcheck⟩ := cellCheck_ok (need := Need.load) (h.cellAllows ha) ho rfl rfl
  obtain ⟨-, -, -, -, -, -, -, hone⟩ := h.cellAllows ha
  rw [h.cellPa_eq] at hcheck hone
  have hpart : ∀ j k, j + k ≤ 272 →
      natOfBytes (((readBytes t (cellPa s m m.rp.toNat) 272).drop j).take k) = memNat s (physOf s (cellPa s m m.rp.toNat) + j) k :=
    fun j k hjk => by rw [natOfBytes_readBytes hone hjk, h.physOf_eq, memNat, memNat, h.mem]
  generalize hb : readBytes t (cellPa s m m.rp.toNat) 272 = b at hpart
  generalize physOf s (cellPa s m m.rp.toNat) = p at hpart
  have he : resumeCaller t id m1 = passClause (updMember t id (resumedFrom t id m.r b)) id := by
    simp only [resumeCaller, hrp, hr, hcheck, hb]
    rfl
  have h1 := onlyMember_updMember h.member (resumedFrom t id m.r b)
  obtain ⟨v, hv, hpc, hslot, hvr, hvrp, hvrd⟩ := memberAt_passClause h1.member (by rw [h.same]; exact ht)
  rw [he]
  refine ⟨fun a => ?_, fun n hn => ?_, v, hv, ?_, ?_, ?_, hslot, ?_, fun i => ?_, ?_⟩
  · rw [(membersOnly_passClause ..).mem, updMember_mem, h.mem]
  · rw [memberAt_passClause_other _ hn, memberAt_updMember_other _ _ hn, h.others n hn]
  · rw [hvrd, resumedFrom, h.same]
  · rw [hvrp, resumedFrom, hpart 264 4 (by decide)]
  · rw [hpc, resumedFrom, Option.getD_some, hpart 260 4 (by decide)]
  · rw [hvr, resumedFrom, resumeRegs, hpart 256 1 (by decide)]
  · have hi := i.isLt
    rw [hvr, resumedFrom, resumeRegs, Regs.getG, Vector.getElem_ofFn, hpart (4 * i.toNat) 4 (by omega)]
  · rw [hvr, resumedFrom, resumeRegs]

/-- A tail ends, or a context in released mode returns, as its TEND retires (R141, R298). -/
theorem tendNow_spec : (m.kind = .tail → m.rd = 0 → TailEnded s (tendNow t id) id m) ∧
    (m.rd ≠ 0 → m.terminating = false → CellAllows s m m.rp.toNat 272 true false →
      Resumed s (tendNow t id) id m (physOf s (cellPa s m m.rp.toNat))) := by
  have hr := h.retire 7 1
  have hrd : m1.rd = m.rd := by rw [h.same]
  unfold tendNow
  simp only [h.member, releasedMode, hrd, bne_iff_ne]
  refine ⟨fun hk h0 => ?_, fun h0 ht ha => ?_⟩
  · rw [if_neg (not_not.mpr h0)]
    exact hr.tailEnded (tailEnded_leaveMember hr.member (by rw [h.same]; exact hk))
  · rw [if_pos h0]
    exact resumed_resumeCaller hr ht ha

end

/-! ## The instructions and their events -/

theorem relcallCheck_eq (m : Member) (a : Src) :
    (if isCurator m then some 0x01 else srcFault m .w32 a) = if m.kind = .curator then some 0x01 else srcFault m .w32 a := by
  simp [isCurator]

/-- TEND is for tails and for contexts in released mode (R141). -/
theorem tendCheck_eq (m : Member) : (if isCurator m then some 0x01 else if isTail m || releasedMode m then none else some 0x0B) =
    if m.kind = .curator then some 0x01 else if m.kind = .tail ∨ m.rd ≠ 0 then none else some 0x0B := by
  simp [isCurator, isTail, releasedMode]

/-- RELCALL of a return index and a frame top (R139). -/
def callRelease (s : State) (k : Cur) (m : Member) (ret : Word) (top : Option Word) : State :=
  if (m.r.getG 63).toNat < m.stackBase + 272 then trap s k 0x0C 0
  else if drained m then release (leaveGroup s k.member k.slot (.drain (.relcall ret top))) k.member ret top
  else leaveGroup s k.member k.slot (.drain (.relcall ret top))

/-- The drain of a RELCALL ends where its member has drained (R118, R139). -/
theorem exec_relcallRelease {s : State} {id : Nat} {m : Member} {ret : Word} {top : Option Word} (hm : memberAt s id = some m)
    (hw : m.wait = .drain (.relcall ret top)) :
    exec (.relcallRelease id) s = .next (if drained m then release s id ret top else s) := by
  simp only [exec, execRelcallRelease, hm, hw]

theorem exec_tendComplete {s : State} {id : Nat} {m : Member} (hm : memberAt s id = some m) :
    exec (.tendComplete id) s = .next (if m.wait = .drain .tend ∧ drained m = true then tendNow s id else s) := by
  simp only [exec, execTendComplete, hm, Bool.and_eq_true, beq_iff_eq]

/-- Settles O9: RELCALL and TEND by whether the member has drained, and the events that end their drains by the same. -/
theorem releases : Obligations.Releases := by
  refine ⟨fun frame a => ⟨?_, fun s id m ret top hm hw hn ht => ⟨fun hd => ?_, fun hd => ⟨_, exec_relcallRelease hm hw, ?_⟩⟩⟩,
    ?_, fun s id m hm => ⟨fun hn => ?_, fun hw hd => ⟨_, exec_tendComplete hm, ?_⟩⟩⟩
  · simp only [← relcallCheck_eq]
    refine actForm_one (run := fun s _ k m vs =>
      match vs with | [x] => callRelease s k m (lo32 x) (frame.map m.r.getG) | _ => s) (fun _ _ => rfl) fun s c k m x hi _ => ?_
    show if _ then callRelease s k m (lo32 x) (frame.map m.r.getG) = _ else _
    unfold callRelease
    split
    · rfl
    · split
      · exact fun ht => released_release (stands_leaveGroup hi.member ..) rfl ht _ _
      · exact leaves_leaveGroup hi.member _
  · exact (exec_relcallRelease hm hw).trans (by rw [hd]; rfl)
  · rw [if_pos hd]
    exact released_release (.refl hm) hn ht ret top
  · simp only [← tendCheck_eq]
    refine actForm_control (fun _ _ => rfl) fun s k m hi _ => ?_
    have hl := stands_leaveGroup hi.member k.slot (.drain .tend)
    obtain ⟨htail, hrelease⟩ := tendNow_spec hl
    refine ⟨fun hd => ?_, fun hd => ?_, fun hd => ?_⟩
    · rw [if_neg (by rw [hd]; exact Bool.false_ne_true)]
      exact leaves_leaveGroup hi.member _
    · rw [if_pos hd]
      exact htail
    · rw [if_pos hd]
      exact hrelease
  · have hn' : ¬ (m.wait = .drain .tend ∧ drained m = true) := fun h => hn.elim (· h.1) (by simp [h.2])
    exact (exec_tendComplete hm).trans (by rw [if_neg hn'])
  · rw [if_pos ⟨hw, hd⟩]
    exact tendNow_spec (.refl hm)

end Sys2Proof.Proofs
end

section
/-!
PROOF. Rounding a value of a format gives a pattern of the target format (R37, R40, R44).
-/
set_option linter.constructorNameAsVariable false
namespace Sys2Proof.Proofs
open Sys2Proof.Machine

theorem lt_two_pow_bitLen {m w : Nat} (h0 : m ≠ 0) (h : m < 2 ^ w) (hw : w ≤ 1024) : m < 2 ^ bitLen m := by
  have hlog : m.log2 < w := (Nat.log2_lt h0).mpr h
  rw [bitLen, bitLenAux_eq (hlog.trans_le hw) (Nat.log2_self_le h0) Nat.lt_log2_self]
  exact Nat.lt_log2_self

/-- Rounding adds at most one to the quotient (R40). -/
theorem roundShift_le (rm : Rm) (neg : Bool) (m k : Nat) : roundShift rm neg m k ≤ m / 2 ^ k + 1 := by
  unfold roundShift
  split
  · next h => rw [beq_iff_eq.mp h, pow_zero, Nat.div_one]; exact Nat.le_succ m
  · dsimp only
    split
    · exact le_rfl
    · exact Nat.le_succ _

/-- The significand that `FFmt.round` keeps, before it is renormalised, has at most one bit more than the format's (R40). -/
theorem roundedSignificand_le {len m fb : Nat} (rm : Rm) (neg : Bool) {e q : Int} (hm : m < 2 ^ len)
    (hq : e + len - (fb + 1) ≤ q) :
    (if q ≤ e then m * 2 ^ (e - q).toNat else roundShift rm neg m (min (q - e).toNat (len + 2))) ≤ 2 ^ (fb + 1) := by
  split
  · calc m * 2 ^ (e - q).toNat ≤ 2 ^ len * 2 ^ (e - q).toNat := Nat.mul_le_mul_right _ hm.le
      _ = 2 ^ (len + (e - q).toNat) := (pow_add ..).symm
      _ ≤ 2 ^ (fb + 1) := Nat.pow_le_pow_right (by decide) (by omega)
  · have hdiv : m / 2 ^ min (q - e).toNat (len + 2) < 2 ^ (fb + 1) := by
      rw [Nat.div_lt_iff_lt_mul (Nat.two_pow_pos _), ← pow_add]
      exact hm.trans_le (Nat.pow_le_pow_right (by decide) (by omega))
    exact (roundShift_le ..).trans hdiv

theorem signed_lt {f : FFmt} {x : Nat} (neg : Bool) (h : x < f.signBit) : f.signed neg x < 2 ^ f.width := by
  have hw : 2 ^ f.width = f.signBit + f.signBit := by
    rw [FFmt.width, FFmt.signBit, ← Nat.two_mul, ← pow_succ']; congr 1; omega
  rw [FFmt.signed, hw]
  split <;> omega

/-- An exponent and a fraction that fit their fields fit below the sign. -/
theorem magnitude_lt {f : FFmt} {ex fr : Nat} (he : ex < 2 ^ f.eb) (hf : fr < 2 ^ f.fb) : ex * 2 ^ f.fb + fr < f.signBit := by
  have hle : (ex + 1) * 2 ^ f.fb ≤ 2 ^ f.eb * 2 ^ f.fb := Nat.mul_le_mul_right _ he
  rw [← pow_add, Nat.succ_mul] at hle
  rw [FFmt.signBit]
  omega

theorem infBits_lt (f : FFmt) : f.infBits < f.signBit :=
  magnitude_lt (f := f) (ex := 2 ^ f.eb - 1) (Nat.sub_one_lt (Nat.two_pow_pos _).ne') (Nat.two_pow_pos _)

theorem maxBits_lt (f : FFmt) : f.maxBits < f.signBit := (Nat.sub_le ..).trans_lt (infBits_lt f)

theorem nanBits_lt {f : FFmt} (hfb : 1 ≤ f.fb) : f.nanBits < 2 ^ f.width := by
  have hfr : 2 ^ (f.fb - 1) < 2 ^ f.fb := Nat.pow_lt_pow_right (by decide) (by omega)
  exact (magnitude_lt (f := f) (Nat.sub_one_lt (Nat.two_pow_pos _).ne') hfr).trans
    (Nat.pow_lt_pow_right (by decide) (by rw [FFmt.width]; omega))

theorem overflow_lt (f : FFmt) (rm : Rm) (neg sat : Bool) : f.overflow rm neg sat < 2 ^ f.width := by
  have hmag (toMax : Bool) : (if toMax then f.maxBits else f.infBits) < f.signBit := by
    split
    · exact maxBits_lt f
    · exact infBits_lt f
  exact signed_lt neg (hmag _)

/-- A significand that rounding carried beyond its format is halved, and its exponent goes up by one (R40). -/
theorem renormalised_lt {fb r : Nat} {q : Int} (h : r ≤ 2 ^ (fb + 1)) :
    (if r == 2 ^ (fb + 1) then (2 ^ fb, q + 1) else (r, q)).1 < 2 ^ (fb + 1) := by
  split
  · exact Nat.pow_lt_pow_right (by decide) (Nat.lt_succ_self _)
  · next hne => exact lt_of_le_of_ne h (by simpa using hne)

/-- A renormalised significand is encoded as a denormal, an overflow or a normal number, each a pattern of the format (R40). -/
theorem encoded_lt (f : FFmt) (rm : Rm) (neg sat : Bool) {mant : Nat} (q : Int) (h : mant < 2 ^ (f.fb + 1)) :
    (if mant < 2 ^ f.fb then f.signed neg mant
      else if (q - f.emin + 1).toNat ≥ 2 ^ f.eb - 1 then f.overflow rm neg sat
      else f.signed neg ((q - f.emin + 1).toNat * 2 ^ f.fb + (mant - 2 ^ f.fb))) < 2 ^ f.width := by
  split
  · next hsub => exact signed_lt neg (hsub.trans_le (Nat.pow_le_pow_right (by decide) (Nat.le_add_left ..)))
  · split
    · exact overflow_lt ..
    · exact signed_lt neg (magnitude_lt (by omega) (by rw [pow_succ] at h; omega))

/-- One rounding answers a pattern of the format (R40). -/
theorem round_lt (f : FFmt) (rm : Rm) (neg : Bool) {m w : Nat} (hm : m < 2 ^ w) (hw : w ≤ 1024) (e : Int) (sat : Bool) :
    f.round rm neg m e sat < 2 ^ f.width := by
  unfold FFmt.round
  split
  · exact signed_lt neg (Nat.two_pow_pos _)
  · next h0 =>
    exact encoded_lt f rm neg sat _ (renormalised_lt (roundedSignificand_le rm neg
      (lt_two_pow_bitLen (by simpa using h0) hm hw) (le_max_left ..)))

/-- The value of a pattern has at most one bit more than the format's fraction (R37, R42). -/
theorem significand_lt {f : FFmt} {x m : Nat} {n : Bool} {e : Int} (h : f.value x = .fin n m e) : m < 2 ^ (f.fb + 1) := by
  have hfr : natBits x 0 f.fb < 2 ^ f.fb := Nat.mod_lt _ (Nat.two_pow_pos _)
  have hp := pow_succ 2 f.fb
  unfold FFmt.value at h
  dsimp only at h
  split at h
  · split at h <;> exact absurd h (by simp)
  · split at h
    · obtain ⟨-, rfl, -⟩ := FVal.fin.inj h
      omega
    · obtain ⟨-, rfl, -⟩ := FVal.fin.inj h
      omega

theorem flush_lt {f : FFmt} {x : Nat} (fz : Bool) (h : x < 2 ^ f.width) : f.flush fz x < 2 ^ f.width := by
  unfold FFmt.flush
  split
  · split
    · exact Nat.pow_lt_pow_right (by decide) (by rw [FFmt.width]; omega)
    · exact Nat.two_pow_pos _
  · exact h

/-- A value of one format rounded to another is a pattern of the other (R44). -/
theorem roundVal_value_lt {f g : FFmt} (hf : f.fb < 1024) (hg : 1 ≤ g.fb) (rm : Rm) (sat : Bool) (x : Nat) :
    g.roundVal rm sat (f.value x) < 2 ^ g.width := by
  cases hv : f.value x with
  | nan => exact nanBits_lt hg
  | inf neg =>
    refine signed_lt neg ?_
    split
    · exact maxBits_lt g
    · exact infBits_lt g
  | fin neg m e => exact round_lt g rm neg (significand_lt hv) hf e sat

end Sys2Proof.Proofs
end

section
/-!
PROOF. The FP32 group, the packed group and the convert group (R147 to R160): every element of a result by the operation of its
instruction on the elements of the operands, and the elements put together.
-/
set_option linter.constructorNameAsVariable false
namespace Sys2Proof.Proofs
open Sys2Proof.Machine Sys2Proof.Safety

/-! ## Elements put together -/

theorem toNat_append_mul {v w : Nat} (x : BitVec v) (y : BitVec w) : (x ++ y).toNat = x.toNat * 2 ^ w + y.toNat := by
  rw [BitVec.toNat_append, ← Nat.shiftLeft_add_eq_or_of_lt y.isLt, Nat.shiftLeft_eq]

/-- Element `i` of a packed operand, as the statements write it (R43). -/
def element (x : Word64) (i : Nat) : Nat := (x.extractLsb' (16 * i) 16).toNat

/-- A packed result from its two elements, the first one lowest, as the statements write it (R156). -/
def elements (g : Nat → Nat) : Word64 := 0#32 ++ BitVec.ofNat 16 (g 1) ++ BitVec.ofNat 16 (g 0)

theorem elem16_eq (x : Word64) {i : Nat} (hi : i < 2) : elem16 (fpBits x) i = element x i := by
  rw [elem16, fpBits, natBits_eq, element, lo32]
  congr 1
  apply BitVec.eq_of_getLsbD_eq
  intro j hj
  simp [hj, show 16 * i + j < 32 by omega]

theorem pack16_eq {g h : Nat → Nat} (hgh : ∀ i < 2, g i = h i) : pack16 g = elements h := by
  apply BitVec.eq_of_toNat_eq
  rw [pack16, elements, hgh 0 (by decide), hgh 1 (by decide), toNat_append_mul, toNat_append_mul]
  simp only [BitVec.toNat_ofNat]
  omega

/-- Two words of a pair, the low one first (R36). -/
theorem ofNat_pair {lo : Nat} (hi : Nat) (h : lo < 2 ^ 32) :
    BitVec.ofNat 64 (lo + 2 ^ 32 * hi) = BitVec.ofNat 32 hi ++ BitVec.ofNat 32 lo := by
  apply BitVec.eq_of_toNat_eq
  rw [toNat_append_mul]
  simp only [BitVec.toNat_ofNat]
  omega

/-- Four bytes in a word, element 0 lowest (R160). -/
theorem ofNat_bytes (b3 b2 b1 b0 : Byte) :
    BitVec.ofNat 64 (b0.toNat + 2 ^ 8 * b1.toNat + 2 ^ 16 * b2.toNat + 2 ^ 24 * b3.toNat) = 0#32 ++ b3 ++ b2 ++ b1 ++ b0 := by
  apply BitVec.eq_of_toNat_eq
  simp only [toNat_append_byte, BitVec.toNat_ofNat]
  omega

theorem wrapInt_eq (w : Nat) (v : Int) : wrapInt w v = (BitVec.ofInt w v).toNat := (BitVec.toNat_ofInt ..).symm

/-! ## The forms of the FP32 and packed groups -/

section
variable {mk : Common → Instr} {d : Dst} {a b : Src} {q : Mods}

theorem valueForm_fp1 {f : Nat → Nat} (hx : ∀ s c, exec (mk c) s = fp1 c d a q f s) :
    ValueForm mk d false [(.f32, a)] (of1 fun x => BitVec.ofNat 64 (f (Mods.a .fp32 q (lo32 x).toNat))) :=
  valueForm_one hx fun _ => rfl

theorem valueForm_fp2 {f : Nat → Nat → Nat} (hx : ∀ s c, exec (mk c) s = fp2 c d a b q f s) :
    ValueForm mk d false [(.f32, a), (.f32, b)]
      (of2 fun x y => BitVec.ofNat 64 (f (Mods.a .fp32 q (lo32 x).toNat) (Mods.b .fp32 q (lo32 y).toNat))) :=
  valueForm_two hx fun _ _ => rfl

theorem valueForm_packed2 {bf : Bool} {f : FFmt → Nat → Nat → Nat} (hx : ∀ s c, exec (mk c) s = packed2 c d a b bf q f s) :
    ValueForm mk d false [(.packed bf, a), (.packed bf, b)] (of2 fun x y => elements fun i =>
      f (.packed bf) (Mods.a (.packed bf) q (element x i)) (Mods.b (.packed bf) q (element y i))) :=
  valueForm_two hx fun x y => pack16_eq fun i hi => by rw [elem16_eq x hi, elem16_eq y hi]

end

/-! ## The packed group -/

theorem valueForm_hfma2 (d : Dst) (a b e : Src) (bf : Bool) (r : FRnd) :
    ValueForm (.hfma2 · d a b e bf r) d false [(.packed bf, a), (.packed bf, b), (.packed bf, e)] (of3 fun x y z => elements fun i =>
      (FFmt.packed bf).ffma r.rm r.fz (Mods.a (.packed bf) r.mods (element x i)) (Mods.b (.packed bf) r.mods (element y i))
        (Mods.c (.packed bf) r.mods (element z i))) :=
  valueForm_three (fun _ _ => rfl) fun x y z => pack16_eq fun i hi => by rw [elem16_eq x hi, elem16_eq y hi, elem16_eq z hi]

theorem dotTerm_eq (f : FFmt) (q : Mods) (fz : Bool) (x y : Word64) {i : Nat} (hi : i < 2) :
    dotTerm f q fz (fpBits x) (fpBits y) i =
      mulVal (f.value (f.flush fz (Mods.a f q (element x i)))) (f.value (f.flush fz (Mods.b f q (element y i)))) := by
  rw [dotTerm, elem16_eq x hi, elem16_eq y hi]

/-- Settles O5: the forms of two sources element by element, HFMA2 likewise, and HDOT2 by its two exact products. -/
theorem packedResults : Obligations.PackedResults := by
  refine fun d a b e bf fz r q => ⟨?_, ?_, ?_, ?_, valueForm_hfma2 d a b e bf r, ?_⟩
  · exact valueForm_packed2 (f := fun F => F.fadd r.rm r.fz) fun _ _ => rfl
  · exact valueForm_packed2 (f := fun F => F.fmul r.rm r.fz) fun _ _ => rfl
  · exact valueForm_packed2 (f := fun F => F.fminmax false fz) fun _ _ => rfl
  · exact valueForm_packed2 (f := fun F => F.fminmax true fz) fun _ _ => rfl
  · refine valueForm_three (fun _ _ => rfl) fun x y z => ?_
    dsimp only
    rw [dotTerm_eq _ _ _ x y (by decide : 0 < 2), dotTerm_eq _ _ _ x y (by decide : 1 < 2)]
    rfl

/-! ## The convert group -/

/-- A floating element of SPLIT2 is a pattern of FP32 (R159). -/
theorem cvtBits_fp32_lt {src : CvtTy} (hi : CvtTyInt src = none) (hf : (CvtTyFloat src).fb < 1024) (rm : Rm) (fz sat : Bool)
    (x : Nat) : cvtBits .fp32 src rm fz sat x < 2 ^ 32 := by
  unfold cvtBits
  rw [hi]
  exact flush_lt (f := .fp32) fz (roundVal_value_lt hf (by decide) ..)

theorem split2Elem_lt (ty : Half) (fz : Bool) (x : Nat) : split2Elem ty fz x < 2 ^ 32 := by
  cases ty with
  | fp16 => exact cvtBits_fp32_lt (src := .fp16) rfl (by decide) ..
  | bf16 => exact cvtBits_fp32_lt (src := .bf16) rfl (by decide) ..
  | i16 => exact (wrapInt_eq ..).trans_lt (BitVec.isLt _)
  | n16 => exact (Nat.mod_lt x (Nat.two_pow_pos 16)).trans (by decide)

theorem splitTy_eq (ty : Half) : splitTy ty = if ty.isFloat then .packed (ty == .bf16) else .w32 := by
  cases ty <;> rfl

/-- A byte of PACK4: its element clamped to the named type, or wrapped (R160). -/
theorem pack4Byte_eq (i8 sg sat : Bool) (w : Word) : pack4Byte i8 sg sat w.toNat =
    (BitVec.ofInt 8 (if sat then (if i8 then max (-128) (min 127 (read32 sg w)) else max 0 (min 255 (read32 sg w)))
      else read32 sg w)).toNat := by
  have hclamp : clampInt i8 8 (read32 sg w) =
      if i8 then max (-128) (min 127 (read32 sg w)) else max 0 (min 255 (read32 sg w)) := by
    cases i8 <;> rfl
  rw [pack4Byte, wrapInt_eq, asType_word, hclamp]

theorem split4Elem_eq (signed hi : Bool) (w : Word) (i : Nat) :
    wrapInt 32 (asType signed 8 (byteOf w (2 * boolNat hi + i))) =
      (BitVec.ofInt 32 (byteAs signed w (2 * (if hi then 1 else 0) + i))).toNat := by
  rw [asType_byte, wrapInt_eq]
  rfl

theorem valueForm_pack2 (d : Dst) (a b : Src) (ty : Half) (sg : Bool) (rm : Rm) (fz sat : Bool) :
    ValueForm (.pack2 · d a b ty sg rm fz sat) d false
      [(if ty.isFloat then .f32 else .w32, a), (if ty.isFloat then .f32 else .w32, b)]
      (of2 fun x y => elements fun i => pack2Elem ty sg rm fz sat (if i == 0 then fpBits x else fpBits y)) :=
  valueForm_two (fun _ _ => rfl) fun _ _ => pack16_eq fun _ _ => rfl

theorem valueForm_split2 (d : Dst) (a : Src) (ty : Half) (fz : Bool) :
    ValueForm (.split2 · d a ty fz) d true [(if ty.isFloat then .packed (ty == .bf16) else .w32, a)] (of1 fun x =>
      BitVec.ofNat 32 (split2Elem ty fz (element x 1)) ++ BitVec.ofNat 32 (split2Elem ty fz (element x 0))) := by
  rw [← splitTy_eq]
  refine valueForm_one (fun _ _ => rfl) fun x => ?_
  dsimp only
  rw [ofNat_pair _ (split2Elem_lt ..), elem16_eq x (by decide : 0 < 2), elem16_eq x (by decide : 1 < 2)]

/-- Settles O4: the FP32 group by the forms of one and two sources; the convert group by the elements that it reads and puts together. -/
theorem fp32AndConvertResults : Obligations.Fp32AndConvertResults := by
  refine ⟨fun d a b e r fz q cc => ⟨?_, ?_, ?_, ?_, ?_, ?_, ?_, ?_, ?_, ?_, ?_, ?_, ?_, ?_, ?_, ?_, ?_, ?_, ?_, ?_⟩,
    fun d a b dst src ty rm fz sat i8 sg hi signed => ⟨?_, valueForm_pack2 d a b ty sg rm fz sat, valueForm_split2 d a ty fz, ?_, ?_⟩⟩
  · exact valueForm_fp2 fun _ _ => rfl
  · exact valueForm_fp2 fun _ _ => rfl
  · exact valueForm_fp2 fun _ _ => rfl
  · exact valueForm_fp2 fun _ _ => rfl
  · exact valueForm_three (fun _ _ => rfl) fun _ _ _ => rfl
  · exact valueForm_fp2 fun _ _ => rfl
  · exact valueForm_fp2 fun _ _ => rfl
  · exact valueForm_fp2 (f := fun x y => boolNat (FFmt.fp32.fcmp cc fz x y)) fun _ _ => rfl
  · exact valueForm_one (fun _ _ => rfl) fun _ => rfl
  · exact valueForm_fp1 fun _ _ => rfl
  · exact valueForm_fp1 fun _ _ => rfl
  · exact valueForm_two (fun _ _ => rfl) fun _ _ => rfl
  · exact valueForm_fp1 fun _ _ => rfl
  · exact valueForm_fp1 fun _ _ => rfl
  · exact valueForm_fp1 fun _ _ => rfl
  · exact valueForm_fp1 fun _ _ => rfl
  · exact valueForm_fp1 fun _ _ => rfl
  · exact valueForm_fp1 fun _ _ => rfl
  · exact valueForm_fp1 fun _ _ => rfl
  · exact valueForm_fp1 fun _ _ => rfl
  · exact valueForm_one (fun _ _ => rfl) fun _ => rfl
  · refine valueForm_two (fun _ _ => rfl) fun x y => ?_
    simp only [natBits_eq, pack4Byte_eq, ofNat_bytes]
  · refine valueForm_one (fun _ _ => rfl) fun x => ?_
    dsimp only
    rw [ofNat_pair _ ((split4Elem_eq ..).trans_lt (BitVec.isLt _)), split4Elem_eq, split4Elem_eq]
    simp only [BitVec.ofNat_toNat, BitVec.setWidth_eq]

end Sys2Proof.Proofs
end

section
/-!
PROOF. The functions of the model that leave memory (R4, R167) the list that it was: for each one that a turn runs and that stores
nothing, an equation in the order of the model.
-/
set_option linter.constructorNameAsVariable false
namespace Sys2Proof.Proofs
open Sys2Proof.Machine Sys2Proof.Safety

/-- Memory after either branch. -/
@[simp] theorem mem_ite (c : Prop) [Decidable c] (s t : State) : (if c then s else t).mem = if c then s.mem else t.mem :=
  apply_ite ..

theorem mem_getD {o : Option State} {d : State} {m : Memory} (h : ∀ t, o = some t → t.mem = m) (hd : d.mem = m) : (o.getD d).mem = m := by
  cases o with
  | none => exact hd
  | some t => exact h t rfl

/-- From `s` to `t` memory stays the list that it was. -/
def MemStays (s t : State) : Prop := t.mem = s.mem

@[simp] theorem memStays_iff {s t : State} : MemStays s t ↔ t.mem = s.mem := ⟨id, id⟩

/-- Operations that each leave memory as it was leave it so together. -/
@[simp] theorem mem_foldl {α : Type} {f : State → α → State} (h : ∀ t a, MemStays t (f t a)) (l : List α) (s : State) :
    (l.foldl f s).mem = s.mem := foldl_keeps State.mem h l s

/-- Operations that each leave memory as it was, of a state that stands beside what they collect. -/
theorem mem_foldl_fst {α β : Type} {f : State × β → α → State × β} (h : ∀ p a, (f p a).1.mem = p.1.mem) {l : List α} {p : State × β} :
    (l.foldl f p).1.mem = p.1.mem := foldl_keeps (fun p : State × β => p.1.mem) h l p
theorem mem_foldl_snd {α β : Type} {f : β × State → α → β × State} (h : ∀ p a, (f p a).2.mem = p.2.mem) {l : List α} {p : β × State} :
    (l.foldl f p).2.mem = p.2.mem := foldl_keeps (fun p : β × State => p.2.mem) h l p

/-! ## Ops -/

@[simp] theorem mem_translateVirt (s : State) (core : Nat) (ahead : Bool) (root asn : Nat) (need : Need) (va : Nat) :
    (translateVirt s core ahead root asn need va).2.mem = s.mem :=
  (walksOnly_translateVirt ..).mem
@[simp] theorem mem_resolveIn (s : State) (descs : Vector DescBits 6) (core home : Nat) (ahead : Bool) (need : Need) (addr : Word64)
    (size : Nat) :
    (resolveIn s descs core home ahead need addr size).2.mem = s.mem :=
  (walksOnly_resolveIn ..).mem
@[simp] theorem mem_resolve (s : State) (ctx : Ctx) (core home : Nat) (ahead : Bool) (need : Need) (addr : Word64) (size : Nat) :
    (resolve s ctx core home ahead need addr size).2.mem = s.mem := by simp [resolve]
@[simp] theorem mem_raiseEvent (s : State) (unit : Nat) : (raiseEvent s unit).mem = s.mem := rfl
@[simp] theorem mem_withdrawLines (s : State) (who : Option (Nat × Nat)) (pa n : Nat) : (withdrawLines s who pa n).mem = s.mem := rfl
@[simp] theorem mem_putStamp (s : State) (f line : Nat) (v : Vec) : (putStamp s f line v).mem = s.mem := by simp [putStamp]
@[simp] theorem mem_putStamps (s : State) (f pa n : Nat) (v : Vec) : (putStamps s f pa n v).mem = s.mem := by simp [putStamps]
@[simp] theorem mem_resolveCode (s : State) (ctx : Ctx) (core i : Nat) : (resolveCode s ctx core i).2.mem = s.mem := by
  unfold resolveCode
  simp only
  split
  · rfl
  · split
    · rfl
    · split
      · split <;> simp
      · (repeat' split) <;> rfl
@[simp] theorem mem_queueFault (s : State) (id : Nat) (fi : FaultInfo) : (queueFault s id fi).mem = s.mem := by
  unfold queueFault
  split <;> simp
@[simp] theorem mem_loseLatches (s : State) (id : Nat) : (loseLatches s id).mem = s.mem := rfl
@[simp] theorem mem_stopMember (s : State) (id : Nat) (fi : FaultInfo) : (stopMember s id fi).mem = s.mem := by simp [stopMember]
@[simp] theorem mem_stopWithRecord (s : State) (id : Nat) (m : Member) (fi : FaultInfo) (cause detail : Nat) :
    (stopWithRecord s id m fi cause detail).mem = s.mem := by simp [stopWithRecord]
@[simp] theorem mem_beginTrapTime (s : State) (m : Member) : (beginTrapTime s m).mem = s.mem := by simp [beginTrapTime]
@[simp] theorem mem_returnFromTrap (s : State) (id : Nat) : (returnFromTrap s id).mem = s.mem := by
  unfold returnFromTrap
  split
  · rfl
  · simp only [mem_ite, mem_stopWithRecord, mem_endTrapTime, mem_settle, wake_mem, updMember_mem, ite_self]
@[simp] theorem mem_endEret (s : State) (id : Nat) : (endEret s id).mem = s.mem := by simp [endEret]
@[simp] theorem mem_tokInc (s : State) (id code : Nat) : (tokInc s id code).mem = s.mem := rfl
@[simp] theorem mem_tokDec (s : State) (id code : Nat) : (tokDec s id code).mem = s.mem := by
  unfold tokDec
  simp only
  split <;> simp

/-! ## Operands -/

@[simp] theorem mem_leaveForNbr (s : State) (k : Cur) (m : Member) (d : Dir) (f : BitVec 3) (target : Option Nat) (arrived : Bool) :
    (leaveForNbr s k m d f target arrived).mem = s.mem := by
  unfold leaveForNbr freshId
  simp only [leaveGroup_mem]
  split <;> rfl

/-! ## Flags -/

@[simp] theorem mem_guardedOff (s : State) (d : Dst) (wide : Bool) (k : Cur) (m : Member) : (guardedOff s d wide k m).mem = s.mem := rfl

/-! ## Issue -/

@[simp] theorem mem_syncTime (s : State) (core : Nat) : (syncTime s core).mem = s.mem := rfl
@[simp] theorem mem_chargeEnergy (s : State) (core cat width n : Nat) : (chargeEnergy s core cat width n).mem = s.mem := rfl
@[simp] theorem mem_flushRetired (s : State) (core : Nat) : (flushRetired s core).mem = s.mem := by simp [flushRetired]
@[simp] theorem mem_runIdle (s : State) (core n : Nat) : (runIdle s core n).mem = s.mem := by simp [runIdle]
@[simp] theorem mem_runCycle (s : State) (core cls : Nat) : (runCycle s core cls).mem = s.mem := by simp [runCycle]
@[simp] theorem mem_startSlot (s : State) (core : Nat) (g : Issue) : (startSlot s core g).1.mem = s.mem := by
  unfold startSlot
  split
  · rfl
  · simp only [mem_foldl fun t id => updMember_mem .., mem_runIdle]
@[simp] theorem mem_noteGang (s : State) (core id : Nat) : (noteGang s core id).mem = s.mem := by
  unfold noteGang
  split <;> simp
theorem mem_beginMember {s t : State} {core : Nat} (h : beginMember s core = some t) : t.mem = s.mem := by
  unfold beginMember at h
  split at h
  · cases h
  · next g _ =>
    simp only at h
    split at h
    · cases h
    · cases h; simp
@[simp] theorem mem_countTrig (s : State) (id : Nat) : (countTrig s id).mem = s.mem := by
  unfold countTrig
  split <;> simp
@[simp] theorem mem_clearFence (s : State) (id : Nat) (f : FenceRec) : (clearFence s id f).mem = s.mem := by
  unfold clearFence
  split <;> simp
@[simp] theorem mem_endFence (s : State) (id : Nat) (f : FenceRec) : (endFence s id f).mem = s.mem := by simp [endFence]
@[simp] theorem mem_settleFences (s : State) (id : Nat) : (settleFences s id).mem = s.mem := by
  unfold settleFences
  split <;> simp
@[simp] theorem mem_settleNeeds (s : State) : (settleNeeds s).mem = s.mem := by simp [settleNeeds]
@[simp] theorem mem_fence (s : State) (id : Nat) (rel acq : Bool) (scope : MScope) (tok : Option Nat) (trig : Bool)
    (bar : Option (Scope × Nat)) :
    (fence s id rel acq scope tok trig bar).mem = s.mem := by
  unfold fence
  (repeat' split) <;> simp
@[simp] theorem mem_releaseFence (s : State) (id : Nat) (scope : MScope) : (releaseFence s id scope).mem = s.mem := by simp [releaseFence]
@[simp] theorem mem_acquireFence (s : State) (id : Nat) (scope : MScope) : (acquireFence s id scope).mem = s.mem := by simp [acquireFence]
@[simp] theorem mem_countDeparture (s : State) (id : Nat) (m : Member) : (countDeparture s id m).mem = s.mem := by simp [countDeparture]
@[simp] theorem mem_leaveMember (s : State) (id : Nat) : (leaveMember s id).mem = s.mem := by
  unfold leaveMember
  split
  · rfl
  · simp only
    split <;> simp [mem_releaseJoins]
@[simp] theorem mem_endClause (s : State) (id h count : Nat) : (endClause s id h count).mem = s.mem := by
  unfold endClause
  split <;> simp
@[simp] theorem mem_passSlot (s : State) (id : Nat) : (passSlot s id).mem = s.mem := by
  unfold passSlot
  split <;> simp
@[simp] theorem mem_endSlot (s : State) (k : Cur) (g : Issue) : (endSlot s k g).mem = s.mem := by simp [endSlot]
@[simp] theorem mem_endMember (i : Instr) (s : State) : (endMember i s).mem = s.mem := by
  unfold endMember
  split
  · rfl
  · simp only
    split
    · rfl
    · split
      · simp
      · simp only [mem_ite, mem_endSlot, ite_self]
        split <;> simp

/-! ## Units -/

@[simp] theorem mem_loadViews (s : State) (l : Launch) (core : Nat) : (loadViews s l core).mem = s.mem := rfl
@[simp] theorem mem_createQueue (s : State) (q : QueueDesc) : (createQueue s q).mem = s.mem := by simp [createQueue]

/-! ## Control -/

@[simp] theorem mem_jumpTo (s : State) (id target : Nat) : (jumpTo s id target).mem = s.mem := rfl
@[simp] theorem mem_passClause (s : State) (id : Nat) : (passClause s id).mem = s.mem := by
  unfold passClause
  split <;> simp
theorem mem_chooseFrom {s t : State} {l : List Nat} {n : Nat} (h : chooseFrom s l = some (n, t)) : t.mem = s.mem := by
  unfold chooseFrom at h
  split at h
  · cases h
  · cases h; rfl
@[simp] theorem mem_releaseToTail (s : State) (id slot : Nat) (m : Member) (ret top : Word) :
    (releaseToTail s id slot m ret top).mem = s.mem := by simp [releaseToTail]
@[simp] theorem mem_exitNow (s : State) (id : Nat) : (exitNow s id).mem = s.mem := by simp [exitNow]
@[simp] theorem mem_markProgress (s : State) (m : Member) : (markProgress s m).mem = s.mem := rfl

/-! ## Cell -/

@[simp] theorem mem_askRemoteSteps (s : State) (m : Member) : (askRemoteSteps s m).mem = s.mem := by
  unfold askRemoteSteps
  split <;> simp
@[simp] theorem mem_deliverDq (s : State) (id : Nat) (v : Word) : (deliverDq s id v).mem = s.mem := by
  unfold deliverDq
  (repeat' split) <;> simp
@[simp] theorem mem_wakePusher (s : State) (core : Nat) : (wakePusher s core).mem = s.mem := by
  unfold wakePusher
  split <;> simp
@[simp] theorem mem_serveDq (s : State) (core n : Nat) : (serveDq s core n).mem = s.mem := by
  induction n generalizing s with
  | zero => rfl
  | succ n ih =>
    simp only [serveDq]
    split
    · split
      · rfl
      · simp [ih]
    · rfl
theorem mem_reserveAnnex {s t : State} {m : Member} {tg : Target} {c n : Nat} (h : reserveAnnex s m tg = some (c, n, t)) :
    t.mem = s.mem := by
  unfold reserveAnnex at h
  split at h
  · cases h
  · split at h
    · cases h
    · split at h
      · cases h
      · split at h
        · cases h
        · obtain ⟨p, hp, he⟩ := Option.map_eq_some_iff.mp h
          cases he
          exact mem_chooseFrom hp
@[simp] theorem mem_holdAtSlot (s : State) (k : Cur) (m : Member) (cause : Nat) (va : Word64) :
    (holdAtSlot s k m cause va).mem = s.mem := by simp [holdAtSlot]
@[simp] theorem mem_migrateTarget (s : State) (ctx : Ctx) (core home : Nat) (a : Word64) :
    (migrateTarget s ctx core home a).2.mem = s.mem := by simp [migrateTarget]
@[simp] theorem mem_ensureCtx (s : State) (launch core : Nat) : (ensureCtx s launch core).mem = s.mem := by
  unfold ensureCtx
  split <;> simp
@[simp] theorem mem_resumeMigrated (s : State) (id core slot : Nat) (m : Member) :
    (resumeMigrated s id core slot m).mem = s.mem := by simp [resumeMigrated]

/-! ## Queues -/

@[simp] theorem mem_stopQueue (s : State) (q cause failIdx : Nat) (addr : Nat) : (stopQueue s q cause failIdx addr).mem = s.mem := rfl
@[simp] theorem mem_notifyQueue (s : State) (q : Nat) (widx : Word) : (notifyQueue s q widx).mem = s.mem := by
  unfold notifyQueue
  split <;> simp
@[simp] theorem mem_doorbellWrite (s : State) (q off : Nat) (bytes : List Byte) :
    (doorbellWrite s q off bytes).mem = s.mem := by simp [doorbellWrite]

/-! ## Access -/

@[simp] theorem mem_mergeVec (s : State) (f : Nat) (v : Vec) : (mergeVec s f v).mem = s.mem := rfl
@[simp] theorem mem_sendPkt (s : State) (src dst : Nat) (b : Body) : (sendPkt s src dst b).mem = s.mem := rfl
@[simp] theorem mem_dropPkt (s : State) (p : Nat) : (dropPkt s p).mem = s.mem := rfl
theorem mem_stampFor {s t : State} {f d : Nat} {v : Vec} {st : Stamp} (h : stampFor s f d v = some (st, t)) : t.mem = s.mem := by
  unfold stampFor at h
  simp only at h
  split at h
  · cases h; rfl
  · split at h
    · cases h
    · cases h; rfl
@[simp] theorem mem_countStamp (s : State) (d g bn : Nat) : (countStamp s d g bn).mem = s.mem := rfl
@[simp] theorem mem_retireBase (s : State) (d g bn : Nat) : (retireBase s d g bn).mem = s.mem := by
  unfold retireBase
  simp only
  split <;> simp
@[simp] theorem mem_spendBudget (s : State) (core size pa : Nat) : (spendBudget s core size pa).mem = s.mem := by
  unfold spendBudget
  split <;> simp
@[simp] theorem mem_wakeAll (s : State) (pa : Nat) (gen : Nat) (stamp : Vec) : (wakeAll s pa gen stamp).mem = s.mem := rfl
@[simp] theorem mem_AtHome_done (s : State) (v : Word64) (v2 : Word64) : (AtHome.done s v v2).st.mem = s.mem := rfl
@[simp] theorem mem_writeBack (s : State) (a : Access) : (writeBack s a).mem = s.mem := by
  unfold writeBack
  split <;> simp
@[simp] theorem mem_lateJoin (s : State) (id : Nat) : (lateJoin s id).mem = s.mem := by
  unfold lateJoin
  split <;> simp
@[simp] theorem mem_wakeLogWaiters (s : State) (core : Nat) : (wakeLogWaiters s core).mem = s.mem := by simp [wakeLogWaiters]
@[simp] theorem mem_carryNeeds (s : State) (id : Nat) (a : Access) : (carryNeeds s id a).mem = s.mem := by simp [carryNeeds]
@[simp] theorem mem_finishAcc (s : State) (id : Nat) : (finishAcc s id).mem = s.mem := by
  unfold finishAcc
  split
  · rfl
  · simp only
    split <;> (simp only [mem_ite, wake_mem, mem_settleFences, mem_carryNeeds, ite_self]; split <;> simp)
@[simp] theorem mem_markPerformed (s : State) (id : Nat) (f : Access → Access) : (markPerformed s id f).mem = s.mem := by
  unfold markPerformed
  split <;> simp
@[simp] theorem mem_retireAcc (s : State) (a : Access) : (retireAcc s a).mem = s.mem := by
  unfold retireAcc
  (repeat' split) <;> simp
@[simp] theorem mem_allocLine (s : State) (a : Access) (victim : Nat) : (allocLine s a victim).mem = s.mem := by simp [allocLine]
@[simp] theorem mem_sendLine (s : State) (id : Nat) (a : Access) : (sendLine s id a).mem = s.mem := by simp [sendLine]
@[simp] theorem mem_cacheLoad (s : State) (id : Nat) (a : Access) : (cacheLoad s id a).mem = s.mem := by simp [cacheLoad]
@[simp] theorem mem_finishVld (s : State) (id : Nat) (a : Access) (v : Word64) : (finishVld s id a v).mem = s.mem := by simp [finishVld]
@[simp] theorem mem_mergeStamp (s : State) (a : Access) : (mergeStamp s a).mem = s.mem := by simp [mergeStamp]
@[simp] theorem mem_freeRead (s : State) (a : Access) : (freeRead s a).2.mem = s.mem := by
  unfold freeRead
  split <;> simp
@[simp] theorem mem_respond (s : State) (id : Nat) : (respond s id).mem = s.mem := by
  unfold respond
  split
  · rfl
  · split
    · rfl
    · split
      · rfl
      · split
        · rfl
        · split
          · rfl
          · next h => simp [mem_stampFor h]
@[simp] theorem mem_respondAll (s : State) : (respondAll s).mem = s.mem := by simp [respondAll]
theorem mem_takeResponse {s t : State} {id : Nat} {a : Access} (h : takeResponse s id a = some t) : t.mem = s.mem := by
  unfold takeResponse at h
  split at h
  · cases h; rfl
  · split at h
    · cases h
    · split at h
      · split at h
        · cases h
        · cases h; simp
      · cases h
@[simp] theorem mem_blamed (s : State) (id : Nat) : (blamed s id).2.mem = s.mem := by
  unfold blamed
  (repeat' split) <;> simp
@[simp] theorem mem_deliverNode (s : State) (op : Nat) (a : Access) : (deliverNode s op a).mem = s.mem := rfl
@[simp] theorem mem_takeMet (s : State) (id : Nat) (a : Access) : (takeMet s id a).mem = s.mem := by
  unfold takeMet
  simp only
  split <;> simp
@[simp] theorem mem_completeAcc (s : State) (id : Nat) : (completeAcc s id).mem = s.mem := by
  unfold completeAcc
  split
  · rfl
  · simp only
    split <;> simp
@[simp] theorem mem_completeReturned (s : State) (id : Nat) : (completeReturned s id).mem = s.mem := by
  unfold completeReturned
  split
  · rfl
  · refine mem_getD (fun t h => ?_) rfl
    obtain ⟨u, hu, rfl⟩ := Option.map_eq_some_iff.mp h
    rw [mem_completeAcc, mem_takeResponse hu]
@[simp] theorem mem_noteMet (s : State) (id : Nat) (a : Access) (pa : Nat) : (noteMet s id a pa).mem = s.mem := by simp [noteMet]
@[simp] theorem mem_afterHome (id : Nat) (a : Access) (o : AtHome) (returns : Bool) : (afterHome id a o returns).mem = o.st.mem := by
  simp [afterHome]
@[simp] theorem mem_spawnNode (s : State) (a : Access) (kind : AccKind) (from_ pa : Nat) (addr data : Word64) :
    (spawnNode s a kind from_ pa addr data).mem = s.mem := rfl
@[simp] theorem mem_stampAccess (s : State) (f : Nat) (a : Access) (nodes : List Nat) (v : Vec) :
    (stampAccess s f a nodes v).mem = s.mem := by simp [stampAccess]
@[simp] theorem mem_noteSeen (s : State) (a : Access) : (noteSeen s a).mem = s.mem := by
  unfold noteSeen
  (repeat' split) <;> simp

/-! ## Memory -/

@[simp] theorem mem_holdGroup (s : State) : (holdGroup s).mem = s.mem := rfl
@[simp] theorem mem_enterAccs (s : State) (k : Cur) (tok : Nat) (l : List (Nat × Access)) : (enterAccs s k tok l).mem = s.mem := by
  unfold enterAccs
  (repeat' split) <;> simp
@[simp] theorem mem_issueAccs (s : State) (k : Cur) (l : List Access) : (issueAccs s k l).mem = s.mem := by
  unfold issueAccs
  split
  · split
    · rfl
    · split
      · simp
      · rw [mem_enterAccs]
        refine (mem_foldl_fst fun p a => ?_).trans ?_ <;> rfl
  · rfl
@[simp] theorem mem_issueAcc (s : State) (k : Cur) (a : Access) : (issueAcc s k a).mem = s.mem := by simp [issueAcc]
@[simp] theorem mem_logAccess (s : State) (k : Cur) (a : Access) (rest : List Access) (addr : Word64) (cause detail own : Nat) :
    (logAccess s k a rest addr cause detail own).mem = s.mem := by
  unfold logAccess
  split
  · rfl
  · simp only
    split
    · rfl
    · split
      · simp
      · rw [mem_enterAccs]
        refine (mem_foldl_fst fun p a => ?_).trans ?_ <;> rfl
@[simp] theorem mem_holdAccess (s : State) (k : Cur) (a : Access) (rest : List Access) (c : Nat) (addr : Word64) :
    (holdAccess s k a rest c addr).mem = s.mem := by simp [holdAccess]
@[simp] theorem mem_aimAt (s : State) (m : Member) (need : Need) (size align : Nat) (addr : Word64) :
    (aimAt s m need size align addr).2.mem = s.mem := by
  unfold aimAt
  split
  · rfl
  · split
    · rfl
    · next c _ =>
      rw [← mem_resolve s c m.core m.home false need addr size]
      split <;> next h => rw [h]
@[simp] theorem mem_aimElement (s : State) (m : Member) (v : ViewBits) (need : Need) (esz size align : Nat) (e : Int) :
    (aimElement s m v need esz size align e).2.mem = s.mem := by
  unfold aimElement
  split <;> simp
@[simp] theorem mem_vldAims (s : State) (m : Member) (v : ViewBits) (a : Access) (e : Int) (n : Nat)
    (p : State × List Access × Option Aim) : (vldAims s m v a e n p).1.mem = p.1.mem := by
  induction n generalizing p with
  | zero => rfl
  | succ n ih =>
    simp only [vldAims, ih]
    split <;> simp

/-! ## Atomics -/

@[simp] theorem mem_endSpread (s : State) (id : Nat) : (endSpread s id).mem = s.mem := by
  unfold endSpread
  split <;> simp
@[simp] theorem mem_spreadNext (s : State) (id : Nat) (a : Access) : (spreadNext s id a).mem = s.mem := by
  unfold spreadNext
  split
  · rfl
  · split <;> simp
@[simp] theorem mem_endChase (s : State) (id : Nat) (p : Word64) (hops why : Nat) :
    (endChase s id p hops why).mem = s.mem := by simp [endChase]
@[simp] theorem mem_chaseOn (s : State) (id : Nat) (x : Access) (pa : Nat) (q : Word64) :
    (chaseOn s id x pa q).mem = s.mem := by simp [chaseOn]

/-! ## Sync -/

@[simp] theorem mem_arrive (s : State) (id : Nat) (sc : Scope) : (arrive s id sc).mem = s.mem := by
  unfold arrive
  split <;> simp
@[simp] theorem mem_waitInstance (s : State) (k : Cur) (sc : Scope) (n : Nat) : (waitInstance s k sc n).mem = s.mem := by
  unfold waitInstance
  split <;> simp
@[simp] theorem mem_passBarrier (s : State) (id : Nat) : (passBarrier s id).mem = s.mem := by
  unfold passBarrier
  (repeat' split) <;> simp
@[simp] theorem mem_completeInstance (s : State) (launch : Nat) (sc : Scope) (unit k : Nat) :
    (completeInstance s launch sc unit k).mem = s.mem := by simp [completeInstance]

/-! ## Parking -/

@[simp] theorem mem_startTransfer (s : State) (core : Nat) (t : Transfer) : (startTransfer s core t).mem = s.mem := by
  unfold startTransfer
  split <;> simp
@[simp] theorem mem_decideTransfer (s : State) (launch core : Nat) : (decideTransfer s launch core).mem = s.mem := by
  unfold decideTransfer
  split
  · rfl
  · split
    · rfl
    · split
      · rfl
      · split
        · next h => rw [mem_startTransfer, mem_chooseFrom h]
        · split <;> simp
@[simp] theorem mem_decideParking (s : State) : (decideParking s).mem = s.mem := by
  unfold decideParking
  split
  · exact mem_foldl (fun t e => by simp) _ _
  · rfl
@[simp] theorem mem_reevaluate (s : State) (id : Nat) : (reevaluate s id).mem = s.mem := by
  unfold reevaluate
  (repeat' split) <;> simp
@[simp] theorem mem_endUnpark (s : State) (id slot : Nat) : (endUnpark s id slot).mem = s.mem := by
  unfold endUnpark
  split <;> simp
@[simp] theorem mem_readValue (s : State) (m : Member) (x : NbrRead) (v : Word) : (readValue s m x v).2.mem = s.mem := by
  unfold readValue
  (repeat' split) <;> simp

/-! ## Engines -/

@[simp] theorem mem_acceptCmd (s : State) (core : Nat) (x : Cmd) : (acceptCmd s core x).2.mem = s.mem := rfl
@[simp] theorem mem_retireCmd (s : State) (core launch : Nat) (word : Word64) :
    (retireCmd s core launch word).mem = s.mem := by simp [retireCmd]
@[simp] theorem mem_strikeCmd (s : State) (core id : Nat) (clears : Bool) : (strikeCmd s core id clears).mem = s.mem := by
  unfold strikeCmd
  split <;> simp
@[simp] theorem mem_dropCmd (s : State) (core id : Nat) : (dropCmd s core id).mem = s.mem := by simp [dropCmd]
@[simp] theorem mem_dropWrites (s : State) (cmd : Nat) : (dropWrites s cmd).mem = s.mem := rfl
@[simp] theorem mem_haltCmd (s : State) (core id : Nat) (clears : Bool) : (haltCmd s core id clears).mem = s.mem := by
  unfold haltCmd
  split <;> simp
@[simp] theorem mem_voidCmd (s : State) (core id : Nat) (clears : Bool) : (voidCmd s core id clears).mem = s.mem := by
  unfold voidCmd
  split <;> simp
@[simp] theorem mem_endEarly (s : State) (core id : Nat) (atPlace : Cmd → Bool) (clears : Bool) :
    (endEarly s core id atPlace clears).mem = s.mem := by
  unfold endEarly
  split <;> simp
@[simp] theorem mem_cancelCmd (s : State) (core id : Nat) : (cancelCmd s core id).mem = s.mem := by simp [cancelCmd]
@[simp] theorem mem_cancelWork (s : State) (core member : Nat) (mask : BitVec 3) :
    (cancelWork s core member mask).1.mem = s.mem := by simp [cancelWork]

/-! ## EngineRun -/

theorem mem_then {α β : Type} {p : EngRes α × State} {f : α → State → EngRes β × State} (hf : ∀ v t, (f v t).2.mem = t.mem) :
    (EngRes.then p f).2.mem = p.2.mem := by
  unfold EngRes.then
  split <;> simp [hf]
@[simp] theorem mem_engineAims (s : State) (core : Nat) (x : Cmd) (need : Need) (view index : Nat) (l : List (Word64 × Nat)) :
    (engineAims s core x need view index l).2.mem = s.mem := by
  induction l generalizing s with
  | nil => rfl
  | cons p r ih =>
    rw [engineAims, ← mem_resolveIn s x.descs core (homeOf s x.member core) true need p.1 p.2]
    split
    · next h => rw [h]
    · next h => rw [h]
    · next h => rw [h, mem_then fun _ _ => rfl, ih]
@[simp] theorem mem_engineStores (s : State) (core cmd seg : Nat) (x : Cmd) (l : List EngineStore) :
    (engineStores s core cmd seg x l).2.mem = s.mem := by
  induction l generalizing s with
  | nil => rfl
  | cons e r ih =>
    simp only [engineStores]
    split
    · rfl
    · rfl
    · rw [mem_then fun _ t => (mem_then fun _ _ => rfl).trans (ih t), mem_engineAims]
@[simp] theorem mem_updCmd (s : State) (core id : Nat) (f : Cmd → Cmd) : (updCmd s core id f).mem = s.mem := rfl
@[simp] theorem mem_engineFault (s : State) (member : Nat) (word : Word64) (f : EngFail) (tok : Option Nat) :
    (engineFault s member word f tok).mem = s.mem := by simp [engineFault]
@[simp] theorem mem_clearFaultTok (s : State) (id : Nat) (word : Word64) (tok : Nat) : (clearFaultTok s id word tok).mem = s.mem := by
  unfold clearFaultTok
  split <;> simp
@[simp] theorem mem_failCmd (s : State) (core id : Nat) (x : Cmd) (f : EngFail) : (failCmd s core id x f).mem = s.mem := by simp [failCmd]
@[simp] theorem mem_stopProgram (s : State) (core : Nat) (f : EngFail) (step : Nat) : (stopProgram s core f step).mem = s.mem := by
  unfold stopProgram
  simp only
  split
  · rfl
  · split <;> split <;> simp
@[simp] theorem mem_stopCmd (s : State) (core id : Nat) (f : EngFail) : (stopCmd s core id f).mem = s.mem := by
  unfold stopCmd
  (repeat' split) <;> simp
@[simp] theorem mem_holdCmd (s : State) (core id c : Nat) (addr : Word64) : (holdCmd s core id c addr).mem = s.mem := by
  unfold holdCmd
  (repeat' split) <;> simp
@[simp] theorem mem_freeOverlap (s : State) (core : Nat) (x : Cmd) (l : List Access) : (freeOverlap s core x l).2.mem = s.mem := by
  unfold freeOverlap
  split
  · rfl
  · refine (mem_foldl_snd fun p a => ?_).trans ?_
    · refine (mem_foldl_snd fun q b => ?_).trans ?_
      · simp only
        (repeat' split) <;> rfl
      · rfl
    · rfl
@[simp] theorem mem_captureGrow (s : State) (core n : Nat) (f : Program → Program) : (captureGrow s core n f).mem = s.mem := by
  unfold captureGrow
  split <;> simp
@[simp] theorem mem_captureRun (s : State) (core : Nat) (x : Cmd) (e0 n : Nat) (reads : List EngElem) (vals : List Nat)
    (w : List EngineStore) :
    (captureRun s core x e0 n reads vals w).mem = s.mem := by simp [captureRun]
@[simp] theorem mem_walkAhead (s : State) (core : Nat) (x : Cmd) (l : List (Elem × Need)) :
    (walkAhead s core x l).mem = s.mem := by simp [walkAhead]
@[simp] theorem mem_countSegment (s : State) (core id seg : Nat) (x : Cmd) (g : Segment) :
    (countSegment s core id seg x g).mem = s.mem := by
  unfold countSegment
  split
  · simp
  · split
    · simp
    · rw [← mem_resolveIn s x.descs core (homeOf s x.member core) true Need.atom x.sync 16]
      split
      · next h => rw [h]; simp
      · next h => rw [h]; simp
      · next h => rw [h]; simp [addAccs_mem]

/-! ## Docent -/

@[simp] theorem mem_readStep (s : State) (core pc : Nat) : (readStep s core pc).mem = s.mem := by simp [readStep]
@[simp] theorem mem_startProgram (s : State) (core id : Nat) (x : Cmd) : (startProgram s core id x).mem = s.mem := by simp [startProgram]
@[simp] theorem mem_docentError (s : State) (core g : Nat) : (docentError s core g).mem = s.mem := by
  unfold docentError
  split <;> simp
@[simp] theorem mem_goToStep (s : State) (core pc : Nat) : (goToStep s core pc).mem = s.mem := by simp [goToStep]
@[simp] theorem mem_nextStep (s : State) (core : Nat) (p : Program) : (nextStep s core p).mem = s.mem := by simp [nextStep]
@[simp] theorem mem_captureViews (s : State) (core : Nat) (l : List ViewBits) :
    (captureViews s core l).mem = s.mem := by simp [captureViews]
@[simp] theorem mem_issueStep (s : State) (core : Nat) (p : Program) (x : Cmd) (kind : CmdKind) (regs : List Word)
    (va vb : Option Nat) (w : Word64) :
    (issueStep s core p x kind regs va vb w).mem = s.mem := by simp [issueStep]
@[simp] theorem mem_setLoop (s : State) (core i : Nat) (v : Word) : (setLoop s core i v).mem = s.mem := rfl
@[simp] theorem mem_signalAt (s : State) (core : Nat) (p : Program) (x : Cmd) (a : Word64) (amount : Nat) :
    (signalAt s core p x a amount).mem = s.mem := by
  unfold signalAt
  split
  · simp
  · rw [← mem_resolveIn s x.descs core (homeOf s x.member core) true Need.atom a 16]
    split
    · next h => rw [h]; simp
    · next h => rw [h]; simp
    · next h => rw [h]; simp [addAccs_mem]

/-! ## Launch -/

@[simp] theorem mem_freeBytes (s : State) (n : Nat) : (freeBytes s n).2.mem = s.mem := by
  induction n generalizing s with
  | zero => rfl
  | succ n ih => simp [freeBytes, ih]
@[simp] theorem mem_setFate (s : State) (queue i : Nat) (f : Fate) : (setFate s queue i f).mem = s.mem := rfl
@[simp] theorem mem_rejectPacket (s : State) (q : Queue) (i cause : Nat) : (rejectPacket s q i cause).mem = s.mem := rfl
@[simp] theorem mem_waitForPage (s : State) (q : Queue) (c addr : Nat) : (waitForPage s q c addr).mem = s.mem := rfl
@[simp] theorem mem_freeLaunch (s : State) (l : Nat) : (freeLaunch s l).mem = s.mem := rfl
@[simp] theorem mem_dropUnstarted (s : State) (l : Nat) : (dropUnstarted s l).mem = s.mem := rfl
@[simp] theorem mem_abandonAcc (s : State) (id : Nat) : (abandonAcc s id).mem = s.mem := by
  unfold abandonAcc
  split <;> simp
@[simp] theorem mem_abandonLogs (s : State) (id : Nat) : (abandonLogs s id).mem = s.mem := by simp [abandonLogs]
@[simp] theorem mem_terminate (s : State) (id : Nat) : (terminate s id).mem = s.mem := by
  unfold terminate
  split <;> simp
@[simp] theorem mem_dropConts (s : State) (l : Nat) : (dropConts s l).mem = s.mem := rfl
@[simp] theorem mem_writeLate (s : State) (id : Nat) (d : Dst) (v : Word) : (writeLate s id d v).mem = s.mem := by simp [writeLate]
@[simp] theorem mem_endJob (s : State) (j : Job) (v : Word) : (endJob s j v).mem = s.mem := by
  unfold endJob
  split <;> simp
@[simp] theorem mem_endJobs (s : State) (l : Nat) : (endJobs s l).mem = s.mem := by simp [endJobs]
@[simp] theorem mem_killLaunch (s : State) (l : Nat) : (killLaunch s l).mem = s.mem := by
  unfold killLaunch
  split <;> simp
@[simp] theorem mem_sweepKilled (s : State) : (sweepKilled s).mem = s.mem := by simp [sweepKilled]
@[simp] theorem mem_finishLaunch (s : State) (l : Nat) (x : Launch) : (finishLaunch s l x).mem = s.mem := by simp [finishLaunch]
@[simp] theorem mem_completionFault (s : State) (a : Word64) (cause detail : Nat) : (completionFault s a cause detail).mem = s.mem := rfl
@[simp] theorem mem_signalLaunch (s : State) (l : Nat) (x : Launch) (q : Queue) : (signalLaunch s l x q).mem = s.mem := by
  unfold signalLaunch
  simp only
  split
  · simp
  · split
    · simp
    · split <;> simp

/-! ## Move -/

@[simp] theorem mem_writeEnergy (s : State) (core : Nat) (wide : Bool) (v : Word64) :
    (writeEnergy s core wide v).mem = s.mem := by simp [writeEnergy]

/-! ## Place -/

@[simp] theorem mem_emptied (s : State) : (emptied s).mem = s.mem := rfl
@[simp] theorem mem_placeCells (s : State) (id : Nat) (l : Launch) (core : Nat) (gangs : List Nat) (cells : List (Nat × Nat × Nat)) :
    (placeCells s id l core gangs cells).mem = s.mem := by simp [placeCells]
@[simp] theorem mem_placeCurator (s : State) (id : Nat) (l : Launch) (core c : Nat) : (placeCurator s id l core c).mem = s.mem := by
  unfold placeCurator
  split <;> simp
@[simp] theorem mem_placeOn (s : State) (id : Nat) (l : Launch) (core : Nat) (cells : List (Nat × Nat × Nat)) :
    (placeOn s id l core cells).mem = s.mem := by simp [placeOn]
@[simp] theorem mem_postCont (s : State) (k : Cur) (m : Member) (x : Cont) : (postCont s k m x).mem = s.mem := by simp [postCont]
@[simp] theorem mem_wakeOutbound (s : State) (core : Nat) : (wakeOutbound s core).mem = s.mem := by simp [wakeOutbound]
theorem mem_taskPlace {s t : State} {field : Nat} {x : Cont} {c : Nat} {p : Place} (h : taskPlace s field x = some (c, p, t)) :
    t.mem = s.mem := by
  have key : ∀ {l : List Nat} {f : Nat × State → Nat × Place × State}, (∀ q, (f q).2.2 = q.2) → (chooseFrom s l).map f = some (c, p, t) →
      t.mem = s.mem := by
    intro l f hf hm
    obtain ⟨q, hq, he⟩ := Option.map_eq_some_iff.mp hm
    have ht : q.2 = t := by rw [← hf q, he]
    exact ht ▸ mem_chooseFrom hq
  unfold taskPlace at h
  simp only at h
  split at h
  · split at h
    · exact key (fun _ => rfl) h
    · cases h
  · split at h
    · exact key (fun _ => rfl) h
    · cases h

/-! ## Io -/

@[simp] theorem mem_updBundle (s : State) (k : Nat) (f : Bundle → Bundle) : (updBundle s k f).mem = s.mem := rfl
@[simp] theorem mem_moduleWrite (s : State) (off n : Nat) : (moduleWrite s off n).mem = s.mem := by simp [moduleWrite]
@[simp] theorem mem_plainWrite (s : State) (u : IoUnit) (off : Nat) (l : Nat × Nat) : (plainWrite s u off l).mem = s.mem := by
  unfold plainWrite
  split <;> simp

/-! ## Service -/

@[simp] theorem mem_releaseSwait (s : State) (id : Nat) (a : Access) : (releaseSwait s id a).mem = s.mem := by
  unfold releaseSwait
  split <;> simp
@[simp] theorem mem_dropAccess (s : State) (id : Nat) (a : Access) : (dropAccess s id a).mem = s.mem := by simp [dropAccess]
theorem mem_logIssued {s t : State} {id held cause detail own : Nat} {a : Access} {addr : Word64}
    (h : logIssued s id a held cause detail own addr = some t) : t.mem = s.mem := by
  unfold logIssued at h
  split at h
  · cases h
  · simp only at h
    split at h
    · cases h
    · cases h; simp
@[simp] theorem mem_dropPref (s : State) (id : Nat) (a : Access) : (dropPref s id a).mem = s.mem := by simp [dropPref]
@[simp] theorem mem_failIssued (s : State) (id cause detail : Nat) (addr : Word64) : (failIssued s id cause detail addr).mem = s.mem := by
  unfold failIssued
  rw [← mem_blamed s id]
  simp only
  split
  · rfl
  · split
    · simp
    · split
      · simp
      · split
        · exact mem_getD (fun t h => mem_logIssued h) (by simp)
        · simp
@[simp] theorem mem_deviceService (s : State) (m : Member) (n : Nat) : (deviceService s m n).1.mem = s.mem := by
  unfold deviceService
  simp only
  (repeat' split) <;> simp
@[simp] theorem mem_writeService (s : State) (id : Nat) (vals : List Word) : (writeService s id vals).mem = s.mem := by
  unfold writeService
  exact mem_foldl (fun t e => by simp) _ _
@[simp] theorem mem_refetchCode (s : State) (launch core : Nat) : (refetchCode s launch core).mem = s.mem := rfl
@[simp] theorem mem_refetchVirt (s : State) (core : Nat) : (refetchVirt s core).mem = s.mem := rfl
@[simp] theorem mem_againAt (s : State) (a : Access) (addr : Word64) (size : Nat) :
    (againAt s a addr size).2.mem = s.mem := by simp [againAt]
@[simp] theorem mem_again (s : State) (a : Access) : (again s a).2.mem = s.mem := by
  unfold again
  split
  · rfl
  · split
    · rw [← mem_againAt s a a.value 4]
      split
      · next h => rw [h]
      · next h => rw [h]
      · next s1 h =>
        rw [h, ← mem_againAt s1 a a.value2 4]
        split <;> next h => rw [h]
    · rw [← mem_againAt s a a.addr (if a.kind == .kcas2 then 4 else a.size)]
      split <;> next h => rw [h]
@[simp] theorem mem_retranslate (s : State) (id : Nat) : (retranslate s id).mem = s.mem := by
  unfold retranslate
  split
  · rfl
  · next a _ =>
    split
    · rfl
    · rw [← mem_again s a]
      split
      · next h => rw [h]; rfl
      · next h =>
        rw [h]
        split
        · simp
        · exact mem_getD (fun t h => mem_logIssued h) (by simp)
      · next h => rw [h]; simp
@[simp] theorem mem_retranslateStale (s : State) : (retranslateStale s).mem = s.mem := by simp [retranslateStale]
@[simp] theorem mem_dropCovered (s : State) (x : Shoot) : (dropCovered s x).mem = s.mem := by simp [dropCovered]
@[simp] theorem mem_startShoot (s : State) (x : Shoot) : (startShoot s x).mem = s.mem := by
  simp [startShoot]
@[simp] theorem mem_endShoot (s : State) (x : Shoot) : (endShoot s x).mem = s.mem := by simp [endShoot]
@[simp] theorem mem_freeEntry (s : State) (core i : Nat) : (freeEntry s core i).mem = s.mem := by simp [freeEntry]
@[simp] theorem mem_againAll (s : State) (l : List (Nat × Access)) : (againAll s l).1.mem = s.mem := by
  induction l generalizing s with
  | nil => rfl
  | cons e r ih =>
    rw [againAll, ← mem_again s e.2]
    split
    · next h => rw [h]; exact ih _
    · next h => rw [h]
@[simp] theorem mem_replayEntry (s : State) (core i : Nat) (e : LogEntry) (a : Access) : (replayEntry s core i e a).mem = s.mem := by
  unfold replayEntry
  split
  · simp
  · have ha := mem_againAll s (accGroup s e.acc a)
    split
    · next h => rw [h] at ha; simp [← ha]
    · next h =>
      rw [h] at ha
      exact mem_getD (fun t ht => by rw [mem_logIssued ht, mem_freeEntry, ha]) rfl
    · next h => rw [h] at ha; simp [← ha]
    · next h => rw [h] at ha; simp [← ha]
@[simp] theorem mem_deliverLog (s : State) (e : LogEntry) (a : Access) : (deliverLog s e a).mem = s.mem := by simp [deliverLog]
@[simp] theorem mem_applyAct (s : State) (core i act : Nat) : (applyAct s core i act).mem = s.mem := by
  unfold applyAct
  split
  · rfl
  · split <;> simp
@[simp] theorem mem_disposeEntry (s : State) (from_ core i act : Nat) :
    (disposeEntry s from_ core i act).mem = s.mem := by
  unfold disposeEntry
  split <;> simp

/-! ## Switch -/

@[simp] theorem mem_imgReadPieces (s : State) (l : List (Option Target × Nat)) : (imgReadPieces s l).2.mem = s.mem := by
  induction l generalizing s with
  | nil => rfl
  | cons p r ih =>
    simp only [imgReadPieces, ih]
    split <;> simp
@[simp] theorem mem_imgRead (s : State) (i : ImgAt) (off n : Nat) : (imgRead s i off n).2.mem = s.mem := by simp [imgRead]
@[simp] theorem mem_freeImage (s : State) : (freeImage s).2.mem = s.mem := rfl
@[simp] theorem mem_beginSwitch (s : State) (launch core : Nat) : (beginSwitch s launch core).mem = s.mem := rfl
@[simp] theorem mem_addJob (s : State) (j : Job) : (addJob s j).mem = s.mem := rfl
@[simp] theorem mem_restoreHere (s : State) (launch core : Nat) : (restoreHere s launch core).mem = s.mem := rfl
@[simp] theorem mem_skipCaptured (s : State) (launch core : Nat) : (skipCaptured s launch core).mem = s.mem := by
  unfold skipCaptured
  split <;> simp
@[simp] theorem mem_takeOut (s : State) (launch core : Nat) (c : Ctx) (why : OutFor) :
    (takeOut s launch core c why).mem = s.mem := by simp [takeOut]
@[simp] theorem mem_detachResponse (s : State) (a : Nat) : (detachResponse s a).mem = s.mem := rfl
@[simp] theorem mem_rewait (s : State) (m : Member) : (rewait s m).mem = s.mem := by
  unfold rewait
  split <;> simp
@[simp] theorem mem_rekeyCtx (s : State) (launch src dst : Nat) : (rekeyCtx s launch src dst).mem = s.mem := by
  unfold rekeyCtx
  (repeat' split) <;> simp
@[simp] theorem mem_enginesBack (s : State) (launch core : Nat) (c : Ctx) (b : List Byte) :
    (enginesBack s launch core c b).mem = s.mem := by
  rw [enginesBack]
  split
  next h => exact (congrArg (·.2.mem) h).symm.trans (mem_imgRead ..)
@[simp] theorem mem_dqBack (s : State) (core : Nat) (saved : List DqEntry) (b : List Byte) (ms : List (Nat × Member)) :
    (dqBack s core saved b ms).mem = s.mem := by simp [dqBack]
@[simp] theorem mem_rejoin (s : State) (ids : List Nat) : (rejoin s ids).mem = s.mem := by
  simp [rejoin, mem_releaseJoins]
@[simp] theorem mem_takeDispositions (s : State) (launch core : Nat) : (takeDispositions s launch core).mem = s.mem := by
  refine mem_foldl (fun t e => ?_) _ _
  split <;> simp
@[simp] theorem mem_viewsBack (s : State) (core : Nat) (b : List Byte) : (viewsBack s core b).mem = s.mem := rfl
theorem mem_putBack {s t : State} {launch src dst : Nat} {b : List Byte} (h : putBack s launch src dst b = .ok t) : t.mem = s.mem := by
  unfold putBack at h
  split at h
  · simp only at h
    split at h
    · cases h
    · cases h
    · split at h
      · cases h
      · split at h
        · cases h
        · split at h
          · cases h
          · cases h; simp
  · cases h
@[simp] theorem mem_resultNow (s : State) (k : Cur) (d : Dst) (tok : Nat) (v : Word) :
    (resultNow s k d tok v).mem = s.mem := by simp [resultNow]
@[simp] theorem mem_setJob (s : State) (j j' : Job) : (setJob s j j').mem = s.mem := rfl
@[simp] theorem mem_discardEntries (s : State) (launch core interval : Nat) : (discardEntries s launch core interval).mem = s.mem := rfl
@[simp] theorem mem_membersBack (s : State) (launch core : Nat) (c : Ctx) :
    (membersBack s launch core c).mem = s.mem := by simp [membersBack]
@[simp] theorem mem_loadJob (s : State) (j : Job) : (loadJob s j).mem = s.mem := by
  unfold loadJob
  simp only
  split
  · simp
  · split
    · simp
    · split
      · simp
      · split
        · simp
        · split
          · simp
          · split
            · next h => simp [mem_putBack h]
            · simp
            · rfl
@[simp] theorem mem_stopOverrun (s : State) (core : Nat) (p : Program) (x : Cmd) :
    (stopOverrun s core p x).mem = s.mem := by simp [stopOverrun]
@[simp] theorem mem_watchdogOut (s : State) (launch core detail image : Nat) : (watchdogOut s launch core detail image).mem = s.mem := rfl
theorem mem_logPoisoned {s t : State} {id : Nat} {a : Access} (h : logPoisoned s id a = some t) : t.mem = s.mem := by
  unfold logPoisoned at h
  split at h
  · cases h
  · simp only [Option.ite_none_left_eq_some, Option.some.injEq] at h
    obtain ⟨-, rfl⟩ := h
    simp
@[simp] theorem mem_poisonAccess (s : State) (id : Nat) (a : Access) : (poisonAccess s id a).mem = s.mem := by
  unfold poisonAccess
  rw [← mem_blamed s id]
  simp only
  split
  · simp
  · next h => simp [mem_logPoisoned h]
@[simp] theorem mem_meetPoison (s : State) (id : Nat) (a : Access) : (meetPoison s id a).mem = s.mem := by
  unfold meetPoison
  split <;> simp
@[simp] theorem mem_poisonFace (s : State) (g r : Nat) : (poisonFace s g r).mem = s.mem := by
  unfold poisonFace
  split
  · rfl
  · split <;> simp

/-! ## Fetch -/

@[simp] theorem mem_holdFetch (s : State) (ctx : Ctx) (core launch h c : Nat) : (holdFetch s ctx core launch h c).mem = s.mem := by
  unfold holdFetch
  simp only
  split <;> simp
@[simp] theorem mem_keepClause (s : State) (core launch h : Nat) (missing : Bool) (words : List Word64) (lines : List Nat)
    (fault : Option FaultInfo) :
    (keepClause s core launch h missing words lines fault).mem = s.mem := by simp [keepClause]
@[simp] theorem mem_accrue (s : State) (core n : Nat) (run : List Nat) : (accrue s core n run).mem = s.mem := by simp [accrue]
@[simp] theorem mem_accrueCycles (s : State) (core : Nat) (near : List (Nat × Member)) (f n cyc : Nat) :
    (accrueCycles s core near f n cyc).mem = s.mem := by
  induction f generalizing s n cyc with
  | zero => simp [accrueCycles]
  | succ f ih => simp [accrueCycles, ih]
@[simp] theorem mem_accrueStep (old new : State) (core : Nat) : (accrueStep old new core).mem = new.mem := by
  unfold accrueStep
  simp only
  split
  · rfl
  · split <;> simp
@[simp] theorem mem_emptyCycle (s : State) (core : Nat) : (emptyCycle s core).mem = s.mem := by simp [emptyCycle]
@[simp] theorem mem_catchUp (s : State) (core : Nat) : (catchUp s core).mem = s.mem := by simp [catchUp]
@[simp] theorem mem_catchUpAll (s : State) : (catchUpAll s).mem = s.mem := by simp [catchUpAll]
@[simp] theorem mem_idleUntil (s : State) (core n : Nat) : (idleUntil s core n).mem = s.mem := by
  induction n generalizing s with
  | zero => rfl
  | succ n ih => simp [idleUntil, ih]
@[simp] theorem mem_startGroup (s : State) (core launch h slot : Nat) (words : List Word64) (ms : List (Nat × Member)) :
    (startGroup s core launch h slot words ms).mem = s.mem := by
  unfold startGroup
  exact mem_foldl (fun t e => by simp) _ _

/-! ## Causal -/

@[simp] theorem mem_sendBeacons (s : State) (f : Nat) : (sendBeacons s f).mem = s.mem := by simp [sendBeacons]
theorem mem_sendSequenced {s t : State} {f d acc : Nat} (h : sendSequenced s f d acc = some t) : t.mem = s.mem := by
  unfold sendSequenced at h
  simp only at h
  split at h
  · cases h
  · next hs => cases h; simp [mem_stampFor hs]
theorem mem_sendRequest {s t : State} {f d acc : Nat} (h : sendRequest s f d acc = some t) : t.mem = s.mem := by
  unfold sendRequest at h
  split at h
  · cases h
  · next hs => cases h; simp [mem_stampFor hs]
@[simp] theorem mem_raiseHorizon (s : State) (d g v : Nat) : (raiseHorizon s d g v).mem = s.mem := rfl
@[simp] theorem mem_closePlace (s : State) (d : Nat) (w : Waiting) : (closePlace s d w).mem = s.mem := rfl
@[simp] theorem mem_releaseLost (s : State) (acc f : Nat) : (releaseLost s acc f).mem = s.mem := by
  unfold releaseLost
  split <;> simp
@[simp] theorem mem_sendQueries (s : State) (d : Nat) : (sendQueries s d).mem = s.mem := by
  unfold sendQueries
  exact mem_foldl (fun t e => by (repeat' split) <;> simp) _ _
@[simp] theorem mem_refuse (s : State) (p : Nat) (x : Pkt) : (refuse s p x).mem = s.mem := rfl
@[simp] theorem mem_takeBeacon (s : State) (d f b : Nat) : (takeBeacon s d f b).mem = s.mem := rfl
@[simp] theorem mem_ackBeacons (s : State) (d g : Nat) : (ackBeacons s d g).mem = s.mem := by
  unfold ackBeacons
  simp only
  split <;> simp
@[simp] theorem mem_ackAll (s : State) : (ackAll s).mem = s.mem := by simp [ackAll]
@[simp] theorem mem_sweepResponses (s : State) : (sweepResponses s).mem = s.mem := by
  unfold sweepResponses
  exact mem_foldl (fun t e => by (repeat' split) <;> simp) _ _

/-! ## Fields -/

@[simp] theorem mem_failAny (s : State) (id cause detail : Nat) : (failAny s id cause detail).mem = s.mem := by
  unfold failAny
  split
  · rfl
  · split <;> simp
@[simp] theorem mem_purgePackets (s : State) (f : Nat) : (purgePackets s f).mem = s.mem := rfl
@[simp] theorem mem_haltField (s : State) (f : Nat) : (haltField s f).mem = s.mem := by simp [haltField]
@[simp] theorem mem_updLink (s : State) (k : Nat) (f : Link → Link) : (updLink s k f).mem = s.mem := rfl
@[simp] theorem mem_loseModule (s : State) (module : Nat) : (loseModule s module).mem = s.mem := rfl
@[simp] theorem mem_checkRoutes (s : State) : (checkRoutes s).mem = s.mem := by simp [checkRoutes]
@[simp] theorem mem_regroup (s : State) : (regroup s).mem = s.mem := by simp [regroup]
@[simp] theorem mem_fenceModule (s : State) (module : Nat) : (fenceModule s module).mem = s.mem := rfl
@[simp] theorem mem_dropCircuits (s : State) (module : Nat) : (dropCircuits s module).mem = s.mem := rfl
@[simp] theorem mem_linkAcked (s : State) (link : Nat) : (linkAcked s link).mem = s.mem := by simp [linkAcked]
@[simp] theorem mem_resetField (s : State) (f : Nat) : (resetField s f).mem = s.mem := rfl
@[simp] theorem mem_sendFinal (s : State) (f : Nat) : (sendFinal s f).mem = s.mem := by simp [sendFinal]
@[simp] theorem mem_restoreDrained (s : State) (f : Nat) : (restoreDrained s f).mem = s.mem := by simp [restoreDrained]
@[simp] theorem mem_clearRedirect (s : State) (f : Nat) : (clearRedirect s f).mem = s.mem := rfl
@[simp] theorem mem_quarantine (s : State) (core : Nat) : (quarantine s core).mem = s.mem := by simp [quarantine]
@[simp] theorem mem_endReplay (s : State) (u : Unit301) (rest : List Unit301) (r : Nat) :
    (endReplay s u rest r).mem = s.mem := by simp [endReplay]

/-! ## Peers -/

@[simp] theorem mem_addAnswer (s : State) (a : Answer) : (addAnswer s a).mem = s.mem := rfl
@[simp] theorem mem_answerPeers (s : State) : (answerPeers s).mem = s.mem := by simp [answerPeers]
@[simp] theorem mem_escapePeer (s : State) (a : Access) : (escapePeer s a).mem = s.mem := by simp [escapePeer]
@[simp] theorem mem_watchSteps (s : State) (id : Nat) (w : SpanWait) : (watchSteps s id w).mem = s.mem := by
  unfold watchSteps
  split <;> simp
@[simp] theorem mem_servePast (s : State) (w : SpanWait) : (servePast s w).mem = s.mem := by
  unfold servePast
  split <;> simp
@[simp] theorem mem_serveSpans (s : State) : (serveSpans s).mem = s.mem := by
  unfold serveSpans
  exact mem_foldl (fun t e => by (repeat' split) <;> simp) _ _
@[simp] theorem mem_refuseClient (s : State) (port : Nat) : (refuseClient s port).mem = s.mem := rfl
@[simp] theorem mem_updPort (s : State) (p : Nat) (f : Port → Port) : (updPort s p f).mem = s.mem := rfl

/-! ## Optics -/

@[simp] theorem mem_changeBundle (s : State) (k : Nat) (f : Bundle → Bundle) : (changeBundle s k f).mem = s.mem := rfl
@[simp] theorem mem_settleBundles (s : State) : (settleBundles s).mem = s.mem := by simp [settleBundles]

/-! ## Power -/

@[simp] theorem mem_evictCtxs (s : State) (l : List (Nat × Ctx)) : (evictCtxs s l).mem = s.mem := by simp [evictCtxs]
@[simp] theorem mem_startEviction (s : State) : (startEviction s).mem = s.mem := by simp [startEviction]
@[simp] theorem mem_failEviction (s : State) : (failEviction s).mem = s.mem := by simp [failEviction]
@[simp] theorem mem_abortEviction (s : State) : (abortEviction s).mem = s.mem := by
  unfold abortEviction
  split <;> simp
@[simp] theorem mem_readStore (s : State) (i n : Nat) : (readStore s i n).mem = s.mem := rfl
@[simp] theorem mem_acceptImage (s : State) (image : List Byte) (version : Nat) : (acceptImage s image version).mem = s.mem := rfl

/-! ## Turn -/

@[simp] theorem mem_waitForRecord (s : State) : (waitForRecord s).mem = s.mem := by
  unfold waitForRecord
  split <;> simp
@[simp] theorem mem_sweepTerminated (s : State) : (sweepTerminated s).mem = s.mem := by simp [sweepTerminated]
@[simp] theorem mem_wakeHeldWaiters (s : State) : (wakeHeldWaiters s).mem = s.mem := by simp [wakeHeldWaiters]
@[simp] theorem mem_settleOwed (s : State) : (settleOwed s).mem = s.mem := by simp [settleOwed]
@[simp] theorem mem_beginDrains (s : State) : (beginDrains s).mem = s.mem := rfl

end Sys2Proof.Proofs
end

section
/-!
PROOF. What a store keeps (R4, R167): every function of the model that writes memory does so byte by byte through `memWrite`, or by
`copyPieces`, and leaves it in canonical form.
-/
set_option linter.constructorNameAsVariable false
namespace Sys2Proof.Proofs
open Sys2Proof.Machine Sys2Proof.Safety

/-! ## Writes to memory (R4, R167) -/

/-- Memory after either of two branches. -/
@[simp] theorem wf_ite (c : Prop) [Decidable c] (m n : Memory) : Memory.wf (if c then m else n) = if c then m.wf else n.wf :=
  apply_ite ..

/-- Operations that each keep the canonical form keep it together. -/
theorem memOk_foldl {α : Type} {f : State → α → State} (h : ∀ t a, t.mem.wf = true → (f t a).mem.wf = true) {l : List α} {s : State}
    (hs : s.mem.wf = true) :
    (l.foldl f s).mem.wf = true := by
  induction l generalizing s with
  | nil => exact hs
  | cons a r ih => exact ih (h s a hs)

/-- So do writes to a memory that stand in a list. -/
theorem wf_foldl {α : Type} {f : Memory → α → Memory} (h : ∀ m a, m.wf = true → (f m a).wf = true) {l : List α} {m : Memory}
    (hm : m.wf = true) : (l.foldl f m).wf = true := by
  induction l generalizing m with
  | nil => exact hm
  | cons a r ih => exact ih (h m a hm)

/-- Entries struck off leave the canonical form. -/
theorem memWfFrom_filter {m : Memory} {lo : Nat} (p : Nat × Byte → Bool) (hm : memWfFrom lo m = true) :
    memWfFrom lo (m.filter p) = true := by
  induction m generalizing lo with
  | nil => rfl
  | cons e r ih =>
    obtain ⟨a, b⟩ := e
    simp only [memWfFrom, Bool.and_eq_true, decide_eq_true_eq] at hm
    rw [List.filter_cons]
    split
    · simp [memWfFrom, hm, ih hm.2]
    · exact memWfFrom_mono (by omega) (ih hm.2)

/-- The copy of a drained field's pieces keeps the canonical form (R313). -/
theorem wf_copyPieces {m : Memory} (plan : List (Nat × Nat)) (hm : m.wf = true) : (copyPieces m plan).wf = true := by
  unfold copyPieces
  refine wf_foldl (fun n c hn => ?_) (memWfFrom_filter _ hm)
  split
  · exact wf_memWrite _ _ hn
  · exact hn

section
variable {s : State} (hs : s.mem.wf = true)
include hs

@[simp] theorem memOk_writeBytes (pa : Nat) (l : List Byte) : (writeBytes s pa l).mem.wf = true :=
  wf_foldl (fun _ _ hm => wf_memWriteN _ _ hm) hs

/-! ## The archive log and stores at their home (R304, R305) -/

@[simp] theorem memOk_touchLines (who : Option (Nat × Nat)) (pa n : Nat) : (touchLines s who pa n).mem.wf = true := by
  unfold touchLines
  simp only [updMod_mem]
  exact memOk_foldl (fun t e ht => memOk_writeBytes ht ..) (by simp [hs])

@[simp] theorem memOk_logLine (l c x : Nat) : (logLine s l c x).mem.wf = true := by
  unfold logLine
  split
  · exact hs
  · simp only
    split
    · exact hs
    · split <;> simp [hs]

@[simp] theorem memOk_logRun (l c pa n : Nat) : (logRun s l c pa n).mem.wf = true :=
  memOk_foldl (fun _ _ ht => memOk_logLine ht ..) hs

@[simp] theorem memOk_storeAt (who : Option (Nat × Nat)) (pa : Nat) (l : List Byte) : (storeAt s who pa l).mem.wf = true := by
  have h := memOk_touchLines hs who pa l.length
  unfold storeAt
  split <;> simp [h]

@[simp] theorem memOk_homeWrite (who : Option (Nat × Nat)) (pa : Nat) (l : List Byte) : (homeWrite s who pa l).mem.wf = true := by
  unfold homeWrite
  split <;> simp [hs]

@[simp] theorem memOk_memberStore (m : Member) (pa : Nat) (l : List Byte) : (memberStore s m pa l).mem.wf = true := by
  unfold memberStore
  simp only
  split <;> simp [hs]

/-! ## Exceptions (R272 to R276) -/

@[simp] theorem memOk_deliverFault (id : Nat) (m : Member) (fi : FaultInfo) : (deliverFault s id m fi).mem.wf = true := by
  unfold deliverFault
  split
  · simp [hs]
  · split
    · simp [hs]
    · split <;> simp [enterHandler, hs]

@[simp] theorem memOk_takeFault (id : Nat) (fi : FaultInfo) : (takeFault s id fi).mem.wf = true := by
  unfold takeFault
  split <;> simp [hs]

@[simp] theorem memOk_deliverEntry (id : Nat) (fi : FaultInfo) : (deliverEntry s id fi).mem.wf = true := by
  unfold deliverEntry
  split <;> simp [hs]

@[simp] theorem memOk_trap (k : Cur) (cause detail : Nat) (addr : Word64) : (trap s k cause detail addr).mem.wf = true := by
  simp [trap, hs]

@[simp] theorem memOk_deliverStopped (id : Nat) (fi : FaultInfo) : (deliverStopped s id fi).mem.wf = true := by
  simp [deliverStopped, hs]

/-! ## Releases, joins and steps -/

@[simp] theorem memOk_releaseInPlace (id : Nat) (m : Member) (ret top : Word) : (releaseInPlace s id m ret top).mem.wf = true := by
  unfold releaseInPlace
  simp only
  split <;> simp [hs]

@[simp] theorem memOk_release (id : Nat) (ret : Word) (top : Option Word) : (release s id ret top).mem.wf = true := by
  unfold release
  split
  · exact hs
  · simp only
    split
    · split
      · next h => simp [mem_chooseFrom h, hs]
      · simp [hs]
    · simp [hs]

@[simp] theorem memOk_resumeCaller (id : Nat) (m : Member) : (resumeCaller s id m).mem.wf = true := by
  unfold resumeCaller
  split <;> simp [hs]

@[simp] theorem memOk_tendNow (id : Nat) : (tendNow s id).mem.wf = true := by
  unfold tendNow
  split <;> simp [hs]

@[simp] theorem memOk_logVitrine (m : Member) : (logVitrine s m).mem.wf = true := by
  unfold logVitrine
  split <;> simp [hs]

@[simp] theorem memOk_commitStep (id : Nat) (mask : BitVec 8) : (commitStep s id mask).mem.wf = true := by
  unfold commitStep
  split <;> simp [hs]

@[simp] theorem memOk_logFrame (m : Member) : (logFrame s m).mem.wf = true := by
  unfold logFrame
  split <;> simp [hs]

@[simp] theorem memOk_endPark (id frame : Nat) : (endPark s id frame).mem.wf = true := by
  unfold endPark
  split <;> simp [hs]

/-! ## Keepers (R195 to R201) -/

@[simp] theorem memOk_keeperWalk (who : Option (Nat × Nat)) (keeper root asn : Nat) (need : Need) (va : Nat) :
    (keeperWalk s who keeper root asn need va).2.mem.wf = true := by
  have ht : ((walkPath s false va 6 0 root).foldl (fun t a => touchLines t who a 8) s).mem.wf = true :=
    memOk_foldl (fun _ _ ht => memOk_touchLines ht ..) hs
  unfold keeperWalk
  simp only
  split
  · exact hs
  · split <;> simp [ht]

@[simp] theorem memOk_nodeAddr (who : Option (Nat × Nat)) (keeper : Nat) (descs : Vector DescBits 6) (need : Need) (p : Word64) :
    (nodeAddr s who keeper descs need p).2.mem.wf = true := by
  have ht := memOk_keeperWalk hs who keeper (Desc.base (descs.toList.getD 4 0)) (Desc.asn (descs.toList.getD 4 0)) need (p.toNat % 2 ^ 60)
  unfold nodeAddr
  simp only
  split
  · exact hs
  · split
    · exact hs
    · split
      · exact hs
      · split <;> (next h => rw [h] at ht; exact ht)

@[simp] theorem memOk_nodeStores (who : Option (Nat × Nat)) (home : Option Nat) (l : List (Nat × Word64)) :
    (nodeStores s who home l).1.mem.wf = true := by
  have h : ∀ (l : List (Nat × Word64)) (p : State × List (Nat × Byte)), p.1.mem.wf = true → (l.foldl (fun acc x =>
      if homeField acc.1 x.1 == home then (homeWrite acc.1 who x.1 (bytesOf 8 x.2.toNat), acc.2)
      else (acc.1, acc.2 ++ wordCells x.1 x.2)) p).1.mem.wf = true := by
    intro l
    induction l with
    | nil => exact fun p hp => hp
    | cons x r ih =>
      intro p hp
      refine ih _ ?_
      beta_reduce
      split
      · exact memOk_homeWrite hp ..
      · exact hp
  exact h l (s, []) hs

@[simp] theorem memOk_kdeqTake (who : Option (Nat × Nat)) (pa n : Nat) : (kdeqTake s who pa n).mem.wf = true := by
  simp [kdeqTake, hs]

theorem memOk_kcas2At (who : Option (Nat × Nat)) (pa pb : Nat) (old new : Word64) : (kcas2At s who pa pb old new).st.mem.wf = true := by
  rw [kcas2At]
  split
  · exact memOk_homeWrite (memOk_homeWrite hs ..) ..
  · exact memOk_touchLines (memOk_touchLines hs ..) ..

theorem memOk_kenqAt (who : Option (Nat × Nat)) {node : State → Word64 → (Nat ⊕ Nat) × State}
    (hn : ∀ t p, t.mem.wf = true → (node t p).2.mem.wf = true)
    (pa : Nat) (p : Word64) : (kenqAt s who node pa p).st.mem.wf = true := by
  unfold kenqAt
  simp only
  have ha := hn s p hs
  generalize node s p = q at ha
  have hb : (if (BitVec.ofNat 64 (homeNat s (pa + 8) 8) == 0) = true then ((.inl 0, q.2) : (Nat ⊕ Nat) × State)
      else node q.2 (BitVec.ofNat 64 (homeNat s (pa + 8) 8))).2.mem.wf = true := by
    split
    · exact ha
    · exact hn _ _ ha
  generalize (if (BitVec.ofNat 64 (homeNat s (pa + 8) 8) == 0) = true then ((.inl 0, q.2) : (Nat ⊕ Nat) × State)
      else node q.2 (BitVec.ofNat 64 (homeNat s (pa + 8) 8))) = u at hb
  have hc := memOk_nodeStores hb who (homeField u.2 pa)
  split
  · simp [AtHome.done, hb]
  · simp [AtHome.done, hb]
  · simp [AtHome.done, hc]

theorem memOk_kdeqAt (who : Option (Nat × Nat)) {node : State → Word64 → (Nat ⊕ Nat) × State}
    (hn : ∀ t p, t.mem.wf = true → (node t p).2.mem.wf = true)
    (pa : Nat) (fetched : Option (Nat × Word64)) : (kdeqAt s who node pa fetched).st.mem.wf = true := by
  have ha := hn s (BitVec.ofNat 64 (homeNat s pa 8)) hs
  unfold kdeqAt
  simp only
  split
  · simp [AtHome.done, hs]
  · split
    · next h => rw [h] at ha; simp [AtHome.done, ha]
    · next h =>
      rw [h] at ha
      split
      · simp [AtHome.done, ha]
      · split
        · split <;> simp [AtHome.done, ha]
        · exact ha

@[simp] theorem memOk_advanceBy (who : Option (Nat × Nat)) (pa amount : Nat) (stamp : Vec) :
    (advanceBy s who pa amount stamp).mem.wf = true := by
  simp [advanceBy, advanceTo, hs]

theorem memOk_swaitAt (who : Option (Nat × Nat)) (pa : Nat) (x : Word64) : (swaitAt s who pa x).st.mem.wf = true := by
  unfold swaitAt
  simp only
  split <;> simp [AtHome.done, hs]

theorem memOk_kchunkAt (who : Option (Nat × Nat)) (pa : Nat) : (kchunkAt s who pa).st.mem.wf = true :=
  memOk_homeWrite hs ..

/-- What an access does at its home keeps the canonical form (R187, R193 to R201). -/
@[simp] theorem memOk_atHome (a : Access) (stamp : Vec) (who : Option (Nat × Nat)) : (atHome s a stamp who).st.mem.wf = true := by
  have hw : ∀ pa l, (homeWrite s who pa l).mem.wf = true := memOk_homeWrite hs who
  have ht : ∀ pa n, (touchLines s who pa n).mem.wf = true := memOk_touchLines hs who
  have hn : ∀ keeper descs need t p, t.mem.wf = true → (nodeAddr t who keeper descs need p).2.mem.wf = true :=
    fun keeper descs need t p h => memOk_nodeAddr h who keeper descs need p
  rw [atHome]
  split
  case h_6 =>
    dsimp only
    split
    · exact hw ..
    · exact ht ..
  case h_7 => exact memOk_kcas2At hs ..
  case h_8 => exact memOk_kenqAt hs who (hn _ _ _) ..
  case h_9 => exact memOk_kdeqAt hs who (hn _ _ _) ..
  case h_10 =>
    dsimp only
    split
    · exact ht ..
    · exact ht ..
  case h_11 => exact memOk_kchunkAt hs ..
  case h_13 | h_14 | h_15 => exact memOk_advanceBy hs ..
  case h_16 => exact memOk_swaitAt hs ..
  case h_1 | h_2 | h_18 => exact ht ..
  case h_3 | h_4 | h_5 | h_12 | h_17 => exact hw ..
  case h_19 | h_20 | h_21 => exact hs

end

@[simp] theorem mem_addAccs (s : State) (l : List Access) : (addAccs s l).2.mem = s.mem := addAccs_mem s l

@[simp] theorem mem_startReads (d : Nat) : (startReads s d).mem = s.mem := by
  unfold startReads
  refine mem_foldl (fun t w => ?_) ..
  simp only [memStays_iff]
  (repeat' split) <;> simp

section
variable {s : State} (hs : s.mem.wf = true)
include hs

/-! ## Homes (R235 to R249) -/

@[simp] theorem memOk_applyPacket (d : Nat) (w : Waiting) : (applyPacket s d w).mem.wf = true := by
  unfold applyPacket
  (repeat' split) <;> simp [hs]

@[simp] theorem memOk_serveRequest (d : Nat) (w : Waiting) : (serveRequest s d w).mem.wf = true := by
  unfold serveRequest
  (repeat' split) <;> simp [hs]

theorem memOk_takeWaiting {d : Nat} {w : Waiting} {write : Bool} {t : State} (h : takeWaiting s d w write = some t) :
    t.mem.wf = true := by
  unfold takeWaiting at h
  grind [mem_releaseLost, mem_closePlace, memOk_applyPacket, memOk_serveRequest]

theorem memOk_firstGo {d : Nat} {write : Bool} {l : List Waiting} {t : State} {w : Waiting} (h : firstGo s d write l = some (t, w)) :
    t.mem.wf = true := by
  induction l with
  | nil => simp [firstGo] at h
  | cons x r ih =>
    rw [firstGo] at h
    split at h
    · next u hu =>
      cases h
      exact memOk_takeWaiting hs hu
    · exact ih h

@[simp] theorem memOk_pump (d n : Nat) : (pump d n s).mem.wf = true := by
  induction n generalizing s with
  | zero => exact hs
  | succ n ih =>
    unfold pump
    split
    · next h => exact ih (by simp [memOk_firstGo hs h])
    · split
      · next h => exact ih (by simp [memOk_firstGo hs h])
      · exact hs

@[simp] theorem memOk_reexamine (d : Nat) : (reexamine s d).mem.wf = true := by
  simp [reexamine, mem_startReads, hs]

@[simp] theorem memOk_reexamineAll : (reexamineAll s).mem.wf = true :=
  memOk_foldl (fun _ e ht => memOk_reexamine ht e.1) hs

@[simp] theorem memOk_settleHomes : (settleHomes s).mem.wf = true := by
  simp [settleHomes, hs]

/-! ## What follows each turn -/

@[simp] theorem memOk_retryRecord (id : Nat) (m : Member) : (retryRecord s id m).mem.wf = true := by
  unfold retryRecord
  (repeat' split) <;> simp [hs]

@[simp] theorem memOk_wakeRecordWaiters : (wakeRecordWaiters s).mem.wf = true := by
  unfold wakeRecordWaiters
  split
  · exact memOk_foldl (fun _ e ht => memOk_retryRecord ht e.1 e.2) hs
  · exact hs

@[simp] theorem memOk_settleMembers : (settleMembers s).mem.wf = true := by
  have h := memOk_wakeRecordWaiters (s := wakeHeldWaiters (retranslateStale (sweepKilled (sweepTerminated s)))) (by simp [hs])
  simp [settleMembers, h]

@[simp] theorem memOk_afterTurn : (afterTurn s).mem.wf = true := by
  have h := memOk_settleHomes (memOk_settleMembers hs)
  simp [afterTurn, h]

/-! ## Accesses at issue -/

@[simp] theorem memOk_migrateDecide (k : Cur) (m : Member) (c : Common) (d : Dst) (a : Word64) :
    (migrateDecide s k m c d a).mem.wf = true := by
  unfold migrateDecide
  split
  · exact hs
  · next ctx _ =>
    have h : (migrateTarget s ctx m.core m.home a).2.mem.wf = true := by simp [hs]
    split
    · next hm => simp_all
    · next hm => simp_all
    · next hm =>
      rw [hm] at h
      split
      · simp_all
      · next hr => simp_all [mem_reserveAnnex hr]

@[simp] theorem memOk_failAccess (k : Cur) (a : Access) (rest : List Access) (cause detail : Nat) (addr : Word64) (early : Bool) :
    (failAccess s k a rest cause detail addr early).mem.wf = true := by
  unfold failAccess
  (repeat' split) <;> simp [hs]

@[simp] theorem memOk_accessElement (k : Cur) (m : Member) (v : ViewBits) (accepts : Fmt → Bool) (need : Need)
    (span : Nat → Nat × Nat) (e : Int) (a : Access) (fill : Access → Access) :
    (accessElement s k m v accepts need span e a fill).mem.wf = true := by
  unfold accessElement
  split
  · simp [hs]
  · next f _ =>
    have h : (aimElement s m v need (fmtSize f) (span (fmtSize f)).1 (span (fmtSize f)).2 e).2.mem.wf = true := by simp [hs]
    dsimp only
    split <;> (next ha => simp_all)

@[simp] theorem memOk_kcas2Second (k : Cur) (m : Member) (v : ViewBits) (e1 : Int) (a : Access) (a0 : Word64) (r0 : Resolved) :
    (kcas2Second s k m v e1 a a0 r0).mem.wf = true := by
  unfold kcas2Second
  split
  · simp [hs]
  · simp [hs]
  · split
    · simp [hs]
    · next a1 _ _ =>
      have h : (aimAt s m Need.atom 4 4 a1).2.mem.wf = true := by simp [hs]
      split <;> (next ha => simp_all)

@[simp] theorem memOk_issueCmd (k : Cur) (m : Member) (x : Cmd) : (issueCmd s k m x).mem.wf = true := by
  unfold issueCmd
  dsimp only
  (repeat' split) <;> simp [hs]

@[simp] theorem memOk_spawnAt (k : Cur) (m : Member) (o : MemOp) (r : BitVec 6) (size : Nat) (a : Word64) :
    (spawnAt s k m o r size a).mem.wf = true := by
  unfold spawnAt
  split
  · simp [hs]
  · split
    · simp [hs]
    · next ctx _ =>
      have h : (resolve s ctx m.core m.home false Need.none a size).2.mem.wf = true := by simp [hs]
      split
      · next hr => simp_all
      · next hr => simp_all
      · next hr =>
        rw [hr] at h
        split
        · simp_all
        · split <;> simp_all

@[simp] theorem memOk_ioAccess (k : Cur) (m : Member) (kind : AccKind) (a : Word64) (tok : Nat) (d : Dst) (v : Word64) :
    (ioAccess s k m kind a tok d v).mem.wf = true := by
  unfold ioAccess
  split <;> simp [hs]

/-! ## Accesses at their home -/

@[simp] theorem memOk_chaseHere (id : Nat) (x : Access) (pa : Nat) : (chaseHere s id x pa).mem.wf = true := by
  simp [chaseHere, hs]

@[simp] theorem memOk_performHere (id : Nat) (a : Access) : (performHere s id a).mem.wf = true := by
  simp [performHere, hs]

@[simp] theorem memOk_performOrRead (id : Nat) (a : Access) : (performOrRead s id a).mem.wf = true := by
  unfold performOrRead
  split <;> simp [hs]

/-! ## Engines (R205 to R229) -/

theorem memOk_settleCmd {α : Type} {core id : Nat} {p : EngRes α × State} {go : α → State → State} (hp : p.2.mem.wf = true)
    (hgo : ∀ v, (go v p.2).mem.wf = true) : (settleCmd s core id p go).mem.wf = true := by
  unfold settleCmd
  split
  · exact hs
  · simp [hp]
  · simp [hp]
  · split
    · exact hs
    · exact hgo _

end

/-- The state that stands in a pair, once the pair is known. -/
theorem memOk_snd {α : Type} {x : α × State} {r : α} {t : State} (h : x = (r, t)) (hx : x.2.mem.wf = true) : t.mem.wf = true := by
  rw [h] at hx
  exact hx

theorem memOk_then {α β : Type} {p : EngRes α × State} {f : α → State → EngRes β × State} (hp : p.2.mem.wf = true)
    (hf : ∀ v t, t.mem.wf = true → (f v t).2.mem.wf = true) : (EngRes.then p f).2.mem.wf = true := by
  unfold EngRes.then
  split
  · exact hf _ _ hp
  · exact hp
  · exact hp
  · exact hp

section
variable {s : State} (hs : s.mem.wf = true)
include hs

theorem memOk_readPiece (core : Nat) (x : Cmd) (ext : PeerBytes) (e : EngElem) (p : Resolved × Word64 × Nat) :
    (readPiece s core x ext e p).2.mem.wf = true := by
  unfold readPiece
  (repeat' split) <;> simp [hs]

theorem memOk_readPieces (core : Nat) (x : Cmd) (ext : PeerBytes) (e : EngElem) (l : List (Resolved × Word64 × Nat)) :
    (readPieces s core x ext e l).2.mem.wf = true := by
  induction l generalizing s with
  | nil => exact hs
  | cons p r ih => exact memOk_then (memOk_readPiece hs ..) fun _ _ ht => memOk_then (ih ht) fun _ _ hu => hu

theorem memOk_engineRead (core : Nat) (x : Cmd) (ext : PeerBytes) (e : EngElem) : (engineRead s core x ext e).2.mem.wf = true := by
  unfold engineRead
  split
  · exact hs
  · exact hs
  · exact memOk_then (by simp [hs]) fun _ _ ht => memOk_readPieces ht ..

@[simp] theorem memOk_engineReads (core : Nat) (x : Cmd) (ext : PeerBytes) (l : List EngElem) :
    (engineReads s core x ext l).2.mem.wf = true := by
  induction l generalizing s with
  | nil => exact hs
  | cons p r ih => exact memOk_then (memOk_engineRead hs ..) fun _ _ ht => memOk_then (ih ht) fun _ _ hu => hu

@[simp] theorem memOk_copySegment (core id : Nat) (x : Cmd) (ext : PeerBytes) : (copySegment s core id x ext).mem.wf = true := by
  refine memOk_settleCmd hs (memOk_engineReads hs ..) fun vals => ?_
  have hr := memOk_engineReads hs core x ext (copyReads x (segmentOf x x.segs.length).1 (segmentOf x x.segs.length).2)
  refine memOk_settleCmd hs ?_ fun l => ?_
  · simp only [mem_engineStores]
    exact hr
  · simp only [mem_updCmd, mem_ite, mem_walkAhead, mem_chargeEnergy, mem_addAccs, mem_captureRun, mem_freeOverlap, mem_engineStores,
      ite_self]
    exact hr

@[simp] theorem memOk_runArray (core id : Nat) (x : Cmd) (ext : PeerBytes) : (runArray s core id x ext).mem.wf = true := by
  unfold runArray
  split
  · simp [hs]
  · have hr := memOk_engineReads hs core x ext (arrayReads x)
    refine memOk_settleCmd hs hr fun vals => memOk_settleCmd hs ?_ fun l => ?_
    · simp only [mem_engineStores]
      exact hr
    · simp only [mem_updCmd, mem_chargeEnergy, updCore_mem, mem_addAccs, mem_captureRun, mem_engineStores]
      exact hr

@[simp] theorem memOk_loadList (core id : Nat) (x : Cmd) (ext : PeerBytes) : (loadList s core id x ext).mem.wf = true := by
  have hr := memOk_engineReads hs core x ext (plainElems 0 x.va 0 (View.count x.va))
  exact memOk_settleCmd hs hr fun l => by simp [hr]

/-! ## Docent programs (R301 to R303) -/

@[simp] theorem memOk_storeUnit (u : Unit301) : (storeUnit s u).mem.wf = true := by
  have hput : ∀ (t : State) (pa : Nat) (l : List Byte), t.mem.wf = true →
      (if l.isEmpty || !holdsMemory t pa || !holdsMemory t (pa + l.length - 1) then t
        else writeBytes (withdrawLines t none pa l.length) pa l).mem.wf = true := by
    intro t pa l ht
    split
    · exact ht
    · simp [ht]
  exact hput _ _ _ (hput _ _ _ hs)

@[simp] theorem memOk_finishProgram (core : Nat) (p : Program) (x : Cmd) : (finishProgram s core p x).mem.wf = true := by
  unfold finishProgram
  dsimp only
  split <;> simp [hs]

/-! ## Code (R107, R119) -/

theorem memOk_readCode (ctx : Ctx) (launch core i : Nat) : (readCode s ctx launch core i).2.mem.wf = true := by
  have h : (resolveCode s ctx core i).2.mem.wf = true := by simp [hs]
  unfold readCode
  split
  · next hr =>
    rw [hr] at h
    dsimp only
    split <;> simp_all
  · next hr => simp_all
  · next hr => simp_all

theorem memOk_readCodeN (ctx : Ctx) (launch core n i slot : Nat) : (readCodeN s ctx launch core n i slot).2.mem.wf = true := by
  induction n generalizing s i slot with
  | zero => exact hs
  | succ n ih =>
    have h := memOk_readCode hs ctx launch core i
    unfold readCodeN
    split
    · next hr =>
      rw [hr] at h
      exact ih h ..
    · next hr =>
      rw [hr] at h
      exact h

@[simp] theorem memOk_loadClause (ctx : Ctx) (launch core h : Nat) : (loadClause s ctx launch core h).2.mem.wf = true := by
  have hr := memOk_readCode hs ctx launch core h
  unfold loadClause
  split <;> rename_i hc <;> rw [hc] at hr
  · exact hr
  · exact hr
  · next hw ls s1 =>
    have hn := memOk_readCodeN hr ctx launch core ((f4 hw 56).toNat + 1) (h + 1) 0
    dsimp only
    split
    · exact hr
    · split
      · exact hr
      · split <;> rename_i hc <;> rw [hc] at hn
        · split <;> exact hn
        · exact hn
        · exact hn
        · exact hn

@[simp] theorem memOk_faultGroup (core launch h : Nat) (f : FaultInfo) (ms : List (Nat × Member)) :
    (faultGroup s core launch h f ms).mem.wf = true := by
  have hf := memOk_foldl (f := fun t (e : Nat × Member) => takeFault t e.1 { f with from_ := e.2.cameFrom })
    (fun _ _ ht => memOk_takeFault ht ..) (l := ms) (s := updCore s core (dropClause launch h)) (by simp [hs])
  simp [faultGroup, hf]

theorem memOk_execPick (core idle : Nat) {t : State} (h : execPick core idle s = .next t) : t.mem.wf = true := by
  unfold execPick at h
  dsimp only at h
  split at h
  · cases h; exact hs
  · split at h
    · cases h; simp [hs]
    · split at h
      · cases h; simp [hs]
      · split at h
        · cases h; simp [hs]
        · split at h
          · cases h; simp [hs]
          · split at h
            · cases h; simp [hs]
            · cases h; simp [hs]

theorem memOk_pickNow {t : State} (h : pickNow s = some t) : t.mem.wf = true := by
  unfold pickNow at h
  split at h
  · next hp =>
    obtain ⟨core, -, hc⟩ := Option.map_eq_some_iff.mp hp
    split at h
    · cases h
      exact memOk_execPick hs core 0 hc
    · cases h
  · cases h

/-! ## Walks and images -/

@[simp] theorem memOk_touchWalk (core : Nat) (w : Walk) : (touchWalk s core w).mem.wf = true :=
  memOk_foldl (fun _ _ ht => memOk_touchLines ht ..) hs

@[simp] theorem memOk_rawWrite (pa : Nat) (b : List Byte) : (rawWrite s pa b).mem.wf = true := by
  unfold rawWrite
  split <;> simp [hs]

@[simp] theorem memOk_imgWritePieces (l : List (Option Target × Nat)) (b : List Byte) : (imgWritePieces s l b).mem.wf = true := by
  induction l generalizing s b with
  | nil => exact hs
  | cons p r ih =>
    unfold imgWritePieces
    split
    · exact hs
    · next h => cases h; exact ih (memOk_rawWrite hs ..) _
    · next h => cases h; exact ih hs _

@[simp] theorem memOk_imgWrite (i : ImgAt) (b : List Byte) : (imgWrite s i b).mem.wf = true := memOk_imgWritePieces hs ..

@[simp] theorem memOk_closeInterval (j : Job) (c : Ctx) : (closeInterval s j c).mem.wf = true := by
  simp [closeInterval, hs]

@[simp] theorem memOk_undoLines (launch core interval : Nat) : (undoLines s launch core interval).mem.wf = true :=
  memOk_foldl (fun _ _ ht => memOk_rawWrite ht ..) hs

@[simp] theorem memOk_rollBack (j : Job) (c : Ctx) : (rollBack s j c).mem.wf = true := by
  unfold rollBack
  dsimp only
  (repeat' split) <;> simp [hs]

@[simp] theorem memOk_afterOut (j : Job) (c : Ctx) : (afterOut s j c).mem.wf = true := by
  unfold afterOut
  dsimp only
  (repeat' split) <;> simp [hs]

/-! ## Queue processors (R84 to R102) -/

theorem memOk_procReads (q : QueueDesc) (l : List (Nat × Nat)) : (procReads s q l).2.mem.wf = true := by
  induction l generalizing s with
  | nil => exact hs
  | cons p r ih =>
    have hb : ∀ t : Target, (match t with
        | .loc pa => (readBytes s pa p.2, touchLines s none pa p.2)
        | .peer .. => freeBytes s p.2).2.mem.wf = true := by
      intro t
      split <;> simp [hs]
    unfold procReads
    split
    · exact hs
    · exact hs
    · next t _ =>
      have h := ih (hb t.tgt)
      dsimp only
      split
      · next hc =>
        exact (congrArg (·.2.mem.wf) hc).symm.trans h
      · exact h

@[simp] theorem memOk_procRead (q : QueueDesc) (addr n : Nat) : (procRead s q addr n).2.mem.wf = true := memOk_procReads hs ..

@[simp] theorem memOk_readSpan (q : QueueDesc) (p : LaunchPkt) (c : SegCfg) : (readSpan s q p c).2.mem.wf = true := by
  have h := memOk_procRead hs q c.span 160
  unfold readSpan
  split
  · exact hs
  · split
    · exact hs
    · split <;> rename_i hc <;> rw [hc] at h
      · split <;> exact h
      · exact h
      · exact h

@[simp] theorem memOk_readArgs (q : QueueDesc) (p : LaunchPkt) : (readArgs s q p).2.mem.wf = true := by
  have h := memOk_procRead hs q p.arg.toNat 32
  rw [readArgs]
  split <;> rename_i hc <;> rw [hc] at h
  · exact h
  · exact h
  · dsimp only
    split
    · exact h
    · have hv := memOk_procRead h q
      split <;> (next hc => exact (congrArg (·.2.mem.wf) hc).symm.trans (hv ..))

set_option maxRecDepth 1000 in
@[simp] theorem memOk_readBlocksOf (q : QueueDesc) (p : LaunchPkt) : (readBlocksOf s q p).2.mem.wf = true := by
  rw [readBlocksOf]
  split
  · exact hs
  · split
    · next hb => exact memOk_snd hb (memOk_procRead hs ..)
    · next hb => exact memOk_snd hb (memOk_procRead hs ..)
    · next hb =>
      have h1 := memOk_snd hb (memOk_procRead hs ..)
      split
      · exact h1
      · split
        · next hp => exact memOk_snd hp (memOk_readSpan h1 ..)
        · next hp => exact memOk_snd hp (memOk_readSpan h1 ..)
        · next hp =>
          have h2 := memOk_snd hp (memOk_readSpan h1 ..)
          split <;> (next ha => exact memOk_snd ha (memOk_readArgs h2 ..))

@[simp] theorem memOk_procWrite (q : QueueDesc) (addr n v : Nat) : (procWrite s q addr n v).mem.wf = true := by
  unfold procWrite
  split
  · simp [hs]
  · exact hs
  · exact hs

@[simp] theorem memOk_acceptPacket (q : Queue) (i : Nat) (b : List Byte) (p : LaunchPkt) (c : PktCfg) :
    (acceptPacket s q i b p c).mem.wf = true := by
  simp [acceptPacket, hs]

@[simp] theorem memOk_takeChecked (q : Queue) (i : Nat) (b : List Byte) (p : LaunchPkt) (lim : Nat) :
    (takeChecked s q i b p lim).mem.wf = true := by
  have hb : (if p.marker then (.ok markerCfg, s) else readBlocksOf s q.desc p).2.mem.wf = true := by
    split
    · exact hs
    · simp [hs]
  unfold takeChecked
  dsimp only
  split
  · simp [hs]
  · split
    · simp [hs]
    · simp [hs]
    · split <;> rename_i hc <;> rw [hc] at hb
      · simp [hb]
      · simp [hb]
      · (repeat' split) <;> simp [hb]

@[simp] theorem memOk_takePacket (q : Queue) (i : Nat) (b : List Byte) : (takePacket s q i b).mem.wf = true := by
  unfold takePacket
  dsimp only
  (repeat' split) <;> simp [hs]

/-! ## Packets and peers -/

@[simp] theorem memOk_letIn (p : Nat) (x : Pkt) (write : Bool) (st : Stamp) (w : Waiting) : (letIn s p x write st w).mem.wf = true := by
  unfold letIn
  dsimp only
  (repeat' split) <;> simp [hs]

@[simp] theorem memOk_peerSwait (module channel : Nat) (a : Access) : (peerSwait s module channel a).mem.wf = true := by
  unfold peerSwait
  dsimp only
  split <;> simp [hs]

@[simp] theorem memOk_peerChase (a : Access) (spot n h : Nat) (p : Word64) : (peerChase s a spot n h p).2.mem.wf = true := by
  induction n generalizing s spot h p with
  | zero => exact hs
  | succ n ih =>
    have hn := memOk_nodeAddr hs none (keeperOf s spot) a.descs Need.load (p + BitVec.ofNat 64 (8 * a.param))
    unfold peerChase
    split <;> rename_i hc <;> rw [hc] at hn
    · exact hn
    · dsimp only
      split
      · simp [hn]
      · exact ih (by simp [hn]) ..

@[simp] theorem memOk_performPeer (a : Access) : (performPeer s a).1.mem.wf = true := by
  have ha := memOk_atHome hs a [] none
  unfold performPeer
  dsimp only
  split
  · simp [ha]
  · split
    · simp [ha]
    · exact memOk_foldl (fun _ _ ht => memOk_homeWrite ht ..) ha

end

end Sys2Proof.Proofs
end

section
/-!
PROOF. Every step keeps memory in canonical form (R4, R167): the shared forms of the instructions, then each instruction and each step of
the table, then the turn.
-/
set_option linter.constructorNameAsVariable false
namespace Sys2Proof.Proofs
open Sys2Proof.Machine Sys2Proof.Safety

/-- An outcome whose next state, if it has one, has memory in canonical form. -/
def NextOk (r : Result) : Prop := ∀ t, r = .next t → t.mem.wf = true

@[simp] theorem nextOk_next {t : State} : NextOk (.next t) ↔ t.mem.wf = true :=
  ⟨fun h => h t rfl, fun h _ ht => by cases ht; exact h⟩
@[simp] theorem nextOk_fault {f : Fault} : NextOk (.fault f) := fun _ h => by cases h
@[simp] theorem nextOk_refused {r : Refusal} : NextOk (.refused r) := fun _ h => by cases h

section
variable {s : State} (hs : s.mem.wf = true)
include hs

/-! ## The shared forms of the instructions -/

omit hs in
theorem nextOk_onIssuing {s : State} {f : Cur → Member → Result} (h : ∀ k m, NextOk (f k m)) : NextOk (onIssuing s f) := by
  unfold onIssuing
  split
  · simp
  · split
    · simp
    · exact h _ _

theorem nextOk_runForm {c : Common} {checks : Member → Option Nat} {ops : List (Ty × Src)} {off : Cur → Member → State}
    {run : Cur → Member → List Word64 → State} (hoff : ∀ k m, (off k m).mem.wf = true) (hrun : ∀ k m vs, (run k m vs).mem.wf = true) :
    NextOk (runForm s c checks ops off run) := by
  refine nextOk_onIssuing fun k m => ?_
  split
  · simp [hs]
  · split
    · simp [hoff]
    · split
      · simp [hs]
      · simp [hs]
      · simp [hrun]

theorem nextOk_valueInstr {c : Common} {d : Dst} {wide : Bool} {ops : List (Ty × Src)} {f : List Word64 → Word64} :
    NextOk (valueInstr s c d wide ops f) :=
  nextOk_runForm hs (fun _ _ => by simp [hs]) fun _ _ _ => by simp [hs]

theorem nextOk_carryInstr (isSub : Bool) (c : Common) (d : Dst) (a b : Src) (pOut pIn : BitVec 3) (cin : Bool) :
    NextOk (carryInstr isSub c d a b pOut pIn cin s) :=
  nextOk_runForm hs (fun _ _ => by simp [hs]) fun _ _ _ => by
    dsimp only
    split <;> simp [hs]

theorem nextOk_predInstr {c : Common} {p : BitVec 3} {f : Member → Bool} : NextOk (predInstr s c p f) :=
  nextOk_runForm hs (fun _ _ => by simp [hs]) fun _ _ _ => by simp [hs]

theorem nextOk_controlInstr {c : Common} {checks : Member → Option Nat} {run : Cur → Member → State}
    (hrun : ∀ k m, (run k m).mem.wf = true) : NextOk (controlInstr s c checks run) :=
  nextOk_runForm hs (fun _ _ => hs) fun k m _ => hrun k m

theorem nextOk_indexInstr {c : Common} {a : Src} {run : Cur → Member → Word → State}
    (hrun : ∀ k m x, (run k m x).mem.wf = true) : NextOk (indexInstr s c a run) :=
  nextOk_runForm hs (fun _ _ => hs) fun k m vs => by
    split
    · exact hrun ..
    · exact hs

theorem nextOk_accessForm {c : Common} {ty : Ty} {off : Src} {checks : Member → Option Nat} {draft : Cur → Member → Access}
    {run : Cur → Member → Access → Word64 → State} (hrun : ∀ k m a x, (run k m a x).mem.wf = true) :
    NextOk (accessForm s c ty off checks draft run) := by
  refine nextOk_onIssuing fun k m => ?_
  split
  · simp [hs]
  · split
    · simp [hs]
    · split
      · simp [hs]
      · simp [hrun]

theorem nextOk_viewForm {c : Common} {o : MemOp} {disp : Int} {kind : AccKind} {checks : Member → ViewBits → Option Nat}
    {accepts : Fmt → Bool} {need : Need} {span : Nat → Nat × Nat} {fill : Member → Access → Access} :
    NextOk (viewForm s c o disp kind checks accepts need span fill) :=
  nextOk_accessForm hs fun _ _ _ _ => by simp [hs]

theorem nextOk_keeperForm {c : Common} {o : MemOp} {kind : AccKind} {accepts : Fmt → Bool} {size : Nat} {fill : Member → Access → Access} :
    NextOk (keeperForm s c o kind accepts size fill) := nextOk_viewForm hs

theorem nextOk_syncForm {c : Common} {o : MemOp} {kind : AccKind} {need : Need} {fill : Member → Access → Access} :
    NextOk (syncForm s c o kind need fill) := nextOk_viewForm hs

theorem nextOk_rawForm {c : Common} {w : Fmt} {d : Dst} {o : MemOp} {kind : AccKind} {need : Need} {fill : Member → Access → Access} :
    NextOk (rawForm s c w d o kind need fill) :=
  nextOk_accessForm hs fun k m a x => by
    have h : (aimAt s m need (fmtSize w) (fmtSize w) (x + o.disp.signExtend 64)).2.mem.wf = true := by simp [hs]
    split <;> (next ha => simp [memOk_snd ha h])

theorem nextOk_cmdForm {c : Common} {kind : CmdKind} {block va vb vc : Option (BitVec 6)} {rm : Rm} {fz sat : Bool} {tok : BitVec 3} :
    NextOk (cmdForm s c kind block va vb vc rm fz sat tok) :=
  nextOk_runForm hs (fun _ _ => hs) fun _ _ _ => by simp [hs]

theorem nextOk_ctxForm {c : Common} {d : Dst} {a b : Src} {tok : Nat} {run : Cur → Member → Word64 → Word → State}
    (hrun : ∀ k m x y, (run k m x y).mem.wf = true) : NextOk (ctxForm s c d a b tok run) :=
  nextOk_runForm hs (fun _ _ => hs) fun _ _ _ => by
    (repeat' split) <;> simp [hs, hrun]

@[simp] theorem nextOk_performEvent {id : Nat} {kinds : AccKind → Bool} : NextOk (performEvent s id kinds) := by
  unfold performEvent
  split <;> simp [hs]

theorem nextOk_commandStep {core kind : Nat} {run : Program → Cmd → Word64 → State} (hrun : ∀ p x w, (run p x w).mem.wf = true) :
    NextOk (commandStep core kind s run) := by
  unfold commandStep
  split <;> simp [hs, hrun]

/-! ## Writes to I/O registers -/

theorem nextOk_ioStep {id : Nat} {act : IoUnit → Nat → Nat × Nat → Option State} (h : ∀ u off l t, act u off l = some t → t.mem.wf = true) :
    NextOk (ioStep s id act) := by
  unfold ioStep
  split
  · simp [hs]
  · split
    · next ht => simp [h _ _ _ _ ht]
    · simp [hs]

theorem nextOk_actWrite {a act : Nat} : NextOk (actWrite s a act) :=
  nextOk_ioStep hs fun u off l t h => by
    split at h
    · split at h
      · cases h; simp [hs]
      · cases h
    · cases h

theorem nextOk_stopWrite {a act : Nat} {run : Nat → Member → State} (hrun : ∀ id m, (run id m).mem.wf = true) :
    NextOk (stopWrite s a act run) :=
  nextOk_ioStep hs fun u off l t h => by
    split at h
    · split at h
      · cases h
        split
        · exact hrun ..
        · exact hs
      · cases h
    · cases h

theorem nextOk_bundleWrite {a : Nat} {act : Nat → Nat → Nat × Nat → Option State} (h : ∀ k o l t, act k o l = some t → t.mem.wf = true) :
    NextOk (bundleWrite s a act) :=
  nextOk_ioStep hs fun u off l t ht => by
    split at ht
    · split at ht
      · exact h _ _ _ _ ht
      · cases ht
    · cases ht

theorem nextOk_evictWrite {a : Nat} {abort : Bool} {run : State → State} (hrun : ∀ t, t.mem.wf = true → (run t).mem.wf = true) :
    NextOk (evictWrite s a abort run) :=
  nextOk_ioStep hs fun u off l t ht => by
    dsimp only at ht
    rw [Option.ite_none_right_eq_some] at ht
    cases ht.2
    exact hrun _ (by simp [hs])

theorem nextOk_fieldCommand {a cmd : Nat} {run : Nat → State} (hrun : ∀ f, (run f).mem.wf = true) : NextOk (fieldCommand s a cmd run) :=
  nextOk_ioStep hs fun u off l t ht => by
    split at ht
    · split at ht
      · cases ht; exact hrun ..
      · cases ht
    · cases ht

/-! ## Instructions that write one value (R129 to R160) -/

theorem nextOk_compareInstr (c : Common) (d : Dst) (a b : Src) (cc : Cond) (sg wide : Bool) :
    NextOk (compareInstr c d a b cc sg wide s) := nextOk_valueInstr hs
theorem nextOk_execCmp (c : Common) (p : BitVec 3) (a b : Src) (cc : Cond) (sg wide : Bool) :
    NextOk (execCmp c p a b cc sg wide s) := nextOk_compareInstr hs _ _ _ _ _ _ _
theorem nextOk_execCmps (c : Common) (d : Dst) (a b : Src) (cc : Cond) (sg wide : Bool) :
    NextOk (execCmps c d a b cc sg wide s) := nextOk_compareInstr hs _ _ _ _ _ _ _
theorem nextOk_execMov (c : Common) (d : Dst) (a : Src) (wide : Bool) : NextOk (execMov c d a wide s) := nextOk_valueInstr hs
theorem nextOk_execPand (c : Common) (p pa pb : BitVec 3) (na nb : Bool) : NextOk (execPand c p pa pb na nb s) :=
  nextOk_predInstr hs
theorem nextOk_execPor (c : Common) (p pa pb : BitVec 3) (na nb : Bool) : NextOk (execPor c p pa pb na nb s) :=
  nextOk_predInstr hs
theorem nextOk_execPxor (c : Common) (p pa pb : BitVec 3) (na nb : Bool) : NextOk (execPxor c p pa pb na nb s) :=
  nextOk_predInstr hs
theorem nextOk_execPnot (c : Common) (p pa : BitVec 3) : NextOk (execPnot c p pa s) := nextOk_predInstr hs
theorem nextOk_execPset (c : Common) (p : BitVec 3) (a : Src) : NextOk (execPset c p a s) := nextOk_valueInstr hs
theorem nextOk_fp1 (c : Common) (d : Dst) (a : Src) (m : Mods) (f : Nat → Nat) : NextOk (fp1 c d a m f s) := nextOk_valueInstr hs
theorem nextOk_fp2 (c : Common) (d : Dst) (a b : Src) (m : Mods) (f : Nat → Nat → Nat) : NextOk (fp2 c d a b m f s) :=
  nextOk_valueInstr hs
theorem nextOk_execFadd (c : Common) (d : Dst) (a b : Src) (r : FRnd) : NextOk (execFadd c d a b r s) := nextOk_fp2 hs _ _ _ _ _ _
theorem nextOk_execFsub (c : Common) (d : Dst) (a b : Src) (r : FRnd) : NextOk (execFsub c d a b r s) := nextOk_fp2 hs _ _ _ _ _ _
theorem nextOk_execFmul (c : Common) (d : Dst) (a b : Src) (r : FRnd) : NextOk (execFmul c d a b r s) := nextOk_fp2 hs _ _ _ _ _ _
theorem nextOk_execFdiv (c : Common) (d : Dst) (a b : Src) (r : FRnd) : NextOk (execFdiv c d a b r s) := nextOk_fp2 hs _ _ _ _ _ _
theorem nextOk_execFfma (c : Common) (d : Dst) (a b e : Src) (r : FRnd) : NextOk (execFfma c d a b e r s) := nextOk_valueInstr hs
theorem nextOk_execFmin (c : Common) (d : Dst) (a b : Src) (fz : Bool) (m : Mods) : NextOk (execFmin c d a b fz m s) :=
  nextOk_fp2 hs _ _ _ _ _ _
theorem nextOk_execFmax (c : Common) (d : Dst) (a b : Src) (fz : Bool) (m : Mods) : NextOk (execFmax c d a b fz m s) :=
  nextOk_fp2 hs _ _ _ _ _ _
theorem nextOk_execFcmp (c : Common) (d : Dst) (a b : Src) (cc : FCond) (fz : Bool) (m : Mods) :
    NextOk (execFcmp c d a b cc fz m s) := nextOk_fp2 hs _ _ _ _ _ _
theorem nextOk_execFclass (c : Common) (d : Dst) (a : Src) : NextOk (execFclass c d a s) := nextOk_valueInstr hs
theorem nextOk_execFrcp (c : Common) (d : Dst) (a : Src) (fz : Bool) (m : Mods) : NextOk (execFrcp c d a fz m s) :=
  nextOk_fp1 hs _ _ _ _ _
theorem nextOk_execFrsq (c : Common) (d : Dst) (a : Src) (fz : Bool) (m : Mods) : NextOk (execFrsq c d a fz m s) :=
  nextOk_fp1 hs _ _ _ _ _
theorem nextOk_execFexp2 (c : Common) (d : Dst) (a : Src) (fz : Bool) (m : Mods) : NextOk (execFexp2 c d a fz m s) :=
  nextOk_fp1 hs _ _ _ _ _
theorem nextOk_execFlog2 (c : Common) (d : Dst) (a : Src) (fz : Bool) (m : Mods) : NextOk (execFlog2 c d a fz m s) :=
  nextOk_fp1 hs _ _ _ _ _
theorem nextOk_execFsin (c : Common) (d : Dst) (a : Src) (fz : Bool) (m : Mods) : NextOk (execFsin c d a fz m s) :=
  nextOk_fp1 hs _ _ _ _ _
theorem nextOk_execFcos (c : Common) (d : Dst) (a : Src) (fz : Bool) (m : Mods) : NextOk (execFcos c d a fz m s) :=
  nextOk_fp1 hs _ _ _ _ _
theorem nextOk_execFtanh (c : Common) (d : Dst) (a : Src) (fz : Bool) (m : Mods) : NextOk (execFtanh c d a fz m s) :=
  nextOk_fp1 hs _ _ _ _ _
theorem nextOk_execFfrac (c : Common) (d : Dst) (a : Src) (fz : Bool) (m : Mods) : NextOk (execFfrac c d a fz m s) :=
  nextOk_fp1 hs _ _ _ _ _
theorem nextOk_execFsqrt (c : Common) (d : Dst) (a : Src) (r : FRnd) : NextOk (execFsqrt c d a r s) := nextOk_fp1 hs _ _ _ _ _
theorem nextOk_execFrnd (c : Common) (d : Dst) (a : Src) (r : FRnd) : NextOk (execFrnd c d a r s) := nextOk_fp1 hs _ _ _ _ _
theorem nextOk_execFscale (c : Common) (d : Dst) (a b : Src) (r : FRnd) : NextOk (execFscale c d a b r s) := nextOk_valueInstr hs
theorem nextOk_addSubInstr (wide isSub : Bool) (c : Common) (d : Dst) (a b : Src) (sat sg : Bool) :
    NextOk (addSubInstr wide isSub c d a b sat sg s) := nextOk_valueInstr hs
theorem nextOk_immInstr (c : Common) (d : Dst) (wide : Bool) (r : BitVec 6) (f : Word64 → Word64) :
    NextOk (immInstr c d wide r f s) := nextOk_valueInstr hs
theorem nextOk_execAdd (c : Common) (d : Dst) (a b : Src) (sat sg : Bool) : NextOk (execAdd c d a b sat sg s) :=
  nextOk_addSubInstr hs _ _ _ _ _ _ _ _
theorem nextOk_execSub (c : Common) (d : Dst) (a b : Src) (sat sg : Bool) : NextOk (execSub c d a b sat sg s) :=
  nextOk_addSubInstr hs _ _ _ _ _ _ _ _
theorem nextOk_execAddc (c : Common) (d : Dst) (a b : Src) (pOut pIn : BitVec 3) (cin : Bool) :
    NextOk (execAddc c d a b pOut pIn cin s) := nextOk_carryInstr hs _ _ _ _ _ _ _ _
theorem nextOk_execSubb (c : Common) (d : Dst) (a b : Src) (pOut pIn : BitVec 3) (cin : Bool) :
    NextOk (execSubb c d a b pOut pIn cin s) := nextOk_carryInstr hs _ _ _ _ _ _ _ _
theorem nextOk_execMul (c : Common) (d : Dst) (a b : Src) : NextOk (execMul c d a b s) := nextOk_valueInstr hs
theorem nextOk_execMulh (c : Common) (d : Dst) (a b : Src) (sg : Bool) : NextOk (execMulh c d a b sg s) := nextOk_valueInstr hs
theorem nextOk_execMad (c : Common) (d : Dst) (a b e : Src) : NextOk (execMad c d a b e s) := nextOk_valueInstr hs
theorem nextOk_execNeg (c : Common) (d : Dst) (a : Src) (sat _sg : Bool) : NextOk (execNeg c d a sat _sg s) :=
  nextOk_valueInstr hs
theorem nextOk_execAbs (c : Common) (d : Dst) (a : Src) (sat _sg : Bool) : NextOk (execAbs c d a sat _sg s) :=
  nextOk_valueInstr hs
theorem nextOk_execMin (c : Common) (d : Dst) (a b : Src) (sg : Bool) : NextOk (execMin c d a b sg s) := nextOk_valueInstr hs
theorem nextOk_execMax (c : Common) (d : Dst) (a b : Src) (sg : Bool) : NextOk (execMax c d a b sg s) := nextOk_valueInstr hs
theorem nextOk_execAddd (c : Common) (d : Dst) (a b : Src) (sat sg : Bool) : NextOk (execAddd c d a b sat sg s) :=
  nextOk_addSubInstr hs _ _ _ _ _ _ _ _
theorem nextOk_execSubd (c : Common) (d : Dst) (a b : Src) (sat sg : Bool) : NextOk (execSubd c d a b sat sg s) :=
  nextOk_addSubInstr hs _ _ _ _ _ _ _ _
theorem nextOk_execMulw (c : Common) (d : Dst) (a b : Src) (sg : Bool) : NextOk (execMulw c d a b sg s) := nextOk_valueInstr hs
theorem nextOk_execSad (c : Common) (d : Dst) (a b e : Src) : NextOk (execSad c d a b e s) := nextOk_valueInstr hs
theorem nextOk_execDot4 (c : Common) (d : Dst) (a b e : Src) (sa sb sat : Bool) : NextOk (execDot4 c d a b e sa sb sat s) :=
  nextOk_valueInstr hs
theorem nextOk_execAddi (c : Common) (d : Dst) (wide : Bool) (r : BitVec 6) (imm : Word) : NextOk (execAddi c d wide r imm s) :=
  nextOk_immInstr hs _ _ _ _ _
theorem nextOk_execLdi (c : Common) (d : Dst) (wide : Bool) (imm : Word) : NextOk (execLdi c d wide imm s) := nextOk_valueInstr hs
theorem nextOk_execAnd (c : Common) (d : Dst) (a b : Src) : NextOk (execAnd c d a b s) := nextOk_valueInstr hs
theorem nextOk_execOr (c : Common) (d : Dst) (a b : Src) : NextOk (execOr c d a b s) := nextOk_valueInstr hs
theorem nextOk_execXor (c : Common) (d : Dst) (a b : Src) : NextOk (execXor c d a b s) := nextOk_valueInstr hs
theorem nextOk_execAndn (c : Common) (d : Dst) (a b : Src) : NextOk (execAndn c d a b s) := nextOk_valueInstr hs
theorem nextOk_execNot (c : Common) (d : Dst) (a : Src) : NextOk (execNot c d a s) := nextOk_valueInstr hs
theorem nextOk_execShl (c : Common) (d : Dst) (a b : Src) : NextOk (execShl c d a b s) := nextOk_valueInstr hs
theorem nextOk_execShr (c : Common) (d : Dst) (a b : Src) : NextOk (execShr c d a b s) := nextOk_valueInstr hs
theorem nextOk_execSar (c : Common) (d : Dst) (a b : Src) : NextOk (execSar c d a b s) := nextOk_valueInstr hs
theorem nextOk_execRol (c : Common) (d : Dst) (a b : Src) : NextOk (execRol c d a b s) := nextOk_valueInstr hs
theorem nextOk_execShld (c : Common) (d : Dst) (a b e : Src) : NextOk (execShld c d a b e s) := nextOk_valueInstr hs
theorem nextOk_execShrd (c : Common) (d : Dst) (a b e : Src) : NextOk (execShrd c d a b e s) := nextOk_valueInstr hs
theorem nextOk_execClz (c : Common) (d : Dst) (a : Src) : NextOk (execClz c d a s) := nextOk_valueInstr hs
theorem nextOk_execPopc (c : Common) (d : Dst) (a : Src) : NextOk (execPopc c d a s) := nextOk_valueInstr hs
theorem nextOk_execBrev (c : Common) (d : Dst) (a : Src) : NextOk (execBrev c d a s) := nextOk_valueInstr hs
theorem nextOk_execBfx (c : Common) (d : Dst) (a b : Src) (sg : Bool) : NextOk (execBfx c d a b sg s) := nextOk_valueInstr hs
theorem nextOk_execBfi (c : Common) (d : Dst) (a b e : Src) : NextOk (execBfi c d a b e s) := nextOk_valueInstr hs
theorem nextOk_execPerm (c : Common) (d : Dst) (a b e : Src) : NextOk (execPerm c d a b e s) := nextOk_valueInstr hs
theorem nextOk_execAndi (c : Common) (d : Dst) (r : BitVec 6) (imm : Word) : NextOk (execAndi c d r imm s) :=
  nextOk_immInstr hs _ _ _ _ _
theorem nextOk_execOri (c : Common) (d : Dst) (r : BitVec 6) (imm : Word) : NextOk (execOri c d r imm s) :=
  nextOk_immInstr hs _ _ _ _ _
theorem nextOk_execXori (c : Common) (d : Dst) (r : BitVec 6) (imm : Word) : NextOk (execXori c d r imm s) :=
  nextOk_immInstr hs _ _ _ _ _
theorem nextOk_packed2 (c : Common) (d : Dst) (a b : Src) (bf : Bool) (m : Mods) (g : FFmt → Nat → Nat → Nat) :
    NextOk (packed2 c d a b bf m g s) := nextOk_valueInstr hs
theorem nextOk_execHadd2 (c : Common) (d : Dst) (a b : Src) (bf : Bool) (r : FRnd) : NextOk (execHadd2 c d a b bf r s) :=
  nextOk_packed2 hs _ _ _ _ _ _ _
theorem nextOk_execHmul2 (c : Common) (d : Dst) (a b : Src) (bf : Bool) (r : FRnd) : NextOk (execHmul2 c d a b bf r s) :=
  nextOk_packed2 hs _ _ _ _ _ _ _
theorem nextOk_execHmin2 (c : Common) (d : Dst) (a b : Src) (bf fz : Bool) (m : Mods) : NextOk (execHmin2 c d a b bf fz m s) :=
  nextOk_packed2 hs _ _ _ _ _ _ _
theorem nextOk_execHmax2 (c : Common) (d : Dst) (a b : Src) (bf fz : Bool) (m : Mods) : NextOk (execHmax2 c d a b bf fz m s) :=
  nextOk_packed2 hs _ _ _ _ _ _ _
theorem nextOk_execHfma2 (c : Common) (d : Dst) (a b e : Src) (bf : Bool) (r : FRnd) : NextOk (execHfma2 c d a b e bf r s) :=
  nextOk_valueInstr hs
theorem nextOk_execHdot2 (c : Common) (d : Dst) (a b e : Src) (bf : Bool) (r : FRnd) : NextOk (execHdot2 c d a b e bf r s) :=
  nextOk_valueInstr hs
theorem nextOk_execCvt (c : Common) (d : Dst) (a : Src) (dst src : CvtTy) (rm : Rm) (fz sat : Bool) :
    NextOk (execCvt c d a dst src rm fz sat s) := nextOk_valueInstr hs
theorem nextOk_execPack2 (c : Common) (d : Dst) (a b : Src) (ty : Half) (sg : Bool) (rm : Rm) (fz sat : Bool) :
    NextOk (execPack2 c d a b ty sg rm fz sat s) := nextOk_valueInstr hs
theorem nextOk_execSplit2 (c : Common) (d : Dst) (a : Src) (ty : Half) (fz : Bool) : NextOk (execSplit2 c d a ty fz s) :=
  nextOk_valueInstr hs
theorem nextOk_execPack4 (c : Common) (d : Dst) (a b : Src) (i8 sg sat : Bool) : NextOk (execPack4 c d a b i8 sg sat s) :=
  nextOk_valueInstr hs
theorem nextOk_execSplit4 (c : Common) (d : Dst) (a : Src) (hi signed : Bool) : NextOk (execSplit4 c d a hi signed s) :=
  nextOk_valueInstr hs

/-! ## The other instructions and the steps of the table -/

omit hs in
/-- The state that stands first in a tuple, once the tuple is known. -/
theorem memOk_fst {β : Type} {x : State × β} {t : State} {r : β} (h : x = (t, r)) (hx : x.1.mem.wf = true) : t.mem.wf = true := by
  rw [h] at hx
  exact hx

theorem nextOk_execBra (c : Common) (off : BitVec 31) : NextOk (execBra c off s) :=
  nextOk_controlInstr hs fun _ _ => by simp [hs]
theorem nextOk_execJmpi (c : Common) (a : Src) : NextOk (execJmpi c a s) :=
  nextOk_indexInstr hs fun _ _ _ => by simp [hs]
theorem nextOk_execCall (c : Common) (link : BitVec 6) (off : BitVec 31) : NextOk (execCall c link off s) :=
  nextOk_controlInstr hs fun _ _ => by simp [hs]
theorem nextOk_execCalli (c : Common) (link : BitVec 6) (a : Src) : NextOk (execCalli c link a s) :=
  nextOk_indexInstr hs fun _ _ _ => by simp [hs]
theorem nextOk_execRet (c : Common) (a : Src) : NextOk (execRet c a s) :=
  nextOk_indexInstr hs fun _ _ _ => by simp [hs]
theorem nextOk_execRelcall (c : Common) (frame : Option (BitVec 6)) (a : Src) : NextOk (execRelcall c frame a s) :=
  nextOk_runForm hs (fun _ _ => by simp [hs]) fun _ _ _ => by (repeat' split) <;> simp [hs]
theorem nextOk_execRelcallRelease (m : Nat) : NextOk (execRelcallRelease m s) := by
  unfold execRelcallRelease
  (repeat' split) <;> simp [hs]
theorem nextOk_execTjoin (c : Common) : NextOk (execTjoin c s) :=
  nextOk_controlInstr hs fun _ _ => by (repeat' split) <;> simp [hs]
theorem nextOk_execTend (c : Common) : NextOk (execTend c s) :=
  nextOk_controlInstr hs fun _ _ => by (repeat' split) <;> simp [hs]
theorem nextOk_execTendComplete (m : Nat) : NextOk (execTendComplete m s) := by
  unfold execTendComplete
  (repeat' split) <;> simp [hs]
theorem nextOk_execExit (c : Common) : NextOk (execExit c s) :=
  nextOk_controlInstr hs fun _ _ => by (repeat' split) <;> simp [hs]
theorem nextOk_execExitDrainEnd (m : Nat) : NextOk (execExitDrainEnd m s) := by
  unfold execExitDrainEnd
  (repeat' split) <;> simp [hs]
theorem nextOk_execNop (c : Common) : NextOk (execNop c s) :=
  nextOk_controlInstr hs fun _ _ => by simp [hs]
theorem nextOk_execYieldI (c : Common) : NextOk (execYieldI c s) :=
  nextOk_controlInstr hs fun _ _ => by simp [hs]
theorem nextOk_execProgress (c : Common) : NextOk (execProgress c s) :=
  nextOk_controlInstr hs fun _ _ => by simp [hs]
theorem nextOk_execStep (c : Common) (mask : BitVec 8) : NextOk (execStep c mask s) :=
  nextOk_runForm hs (fun _ _ => by simp [hs]) fun _ _ _ => by (repeat' split) <;> simp [hs]
theorem nextOk_execStepCommit (m : Nat) : NextOk (execStepCommit m s) := by
  unfold execStepCommit
  (repeat' split) <;> simp [hs]
theorem nextOk_execDqpush (c : Common) (a : Src) : NextOk (execDqpush c a s) :=
  nextOk_runForm hs (fun _ _ => by simp [hs]) fun _ _ _ => by (repeat' split) <;> simp [hs]
theorem nextOk_execDqEntryReleased (core : Nat) : NextOk (execDqEntryReleased core s) := by simp [execDqEntryReleased, hs]
theorem nextOk_execDqpop (c : Common) (d : Dst) : NextOk (execDqpop c d s) := 
  nextOk_runForm hs (fun _ _ => by simp [hs]) fun _ _ _ => by
    dsimp only
    (repeat' split) <;> simp [hs]
theorem nextOk_execMigrate (c : Common) (d : Dst) (a : Src) : NextOk (execMigrate c d a s) :=
  nextOk_runForm hs (fun _ _ => by simp [hs]) fun _ _ _ => by (repeat' split) <;> simp [hs]
theorem nextOk_execMigrateMove (m : Nat) : NextOk (execMigrateMove m s) := by
  unfold execMigrateMove
  (repeat' split) <;> simp [hs]
theorem nextOk_execMigrationResume (m : Nat) : NextOk (execMigrationResume m s) := by
  unfold execMigrationResume
  (repeat' split) <;> simp [hs]
theorem nextOk_execPark (c : Common) : NextOk (execPark c s) :=
  nextOk_runForm hs (fun _ _ => by simp [hs]) fun _ _ _ => by (repeat' split) <;> simp [hs]
theorem nextOk_execQueueRestart (queue : Nat) : NextOk (execQueueRestart queue s) := by simp [execQueueRestart, hs]
theorem nextOk_execLd (c : Common) (d : Dst) (o : MemOp) : NextOk (execLd c d o s) := nextOk_viewForm hs
theorem nextOk_execSt (c : Common) (d : Dst) (o : MemOp) : NextOk (execSt c d o s) := nextOk_viewForm hs
theorem nextOk_execLdx (c : Common) (d : Dst) (w : Fmt) (o : MemOp) : NextOk (execLdx c d w o s) := nextOk_rawForm hs
theorem nextOk_execStx (c : Common) (d : Dst) (w : Fmt) (o : MemOp) : NextOk (execStx c d w o s) := nextOk_rawForm hs
theorem nextOk_execPref (c : Common) (o : MemOp) : NextOk (execPref c o s) := by
  refine nextOk_onIssuing fun k m => ?_
  split
  · simp [hs]
  · split
    · simp [hs]
    · split
      · simp [hs]
      · dsimp only
        split
        · simp [hs]
        · next f _ =>
          have h := fun e => mem_aimElement s m (viewAt s m.core o.view.toNat) Need.load (fmtSize f) (fmtSize f) (fmtSize f) e
          split
          · next ha =>
            have ht := memOk_snd ha (by simp [hs])
            simp [ht]
          · next ha =>
            have ht := memOk_snd ha (by simp [hs])
            simp [ht]
theorem nextOk_execVset (c : Common) (base view : BitVec 6) : NextOk (execVset c base view s) :=
  nextOk_runForm hs (fun _ _ => by simp [hs]) fun _ _ _ => by simp [hs]
theorem nextOk_execVget (c : Common) (base view : BitVec 6) : NextOk (execVget c base view s) :=
  nextOk_runForm hs (fun _ _ => by simp [hs]) fun _ _ _ => by simp [hs]
theorem nextOk_execVld (c : Common) (entry : BitVec 6) (o : MemOp) : NextOk (execVld c entry o s) :=
  nextOk_accessForm hs fun k m a x => by
    dsimp only
    split
    · simp [hs]
    · next f _ =>
      have h := fun e => mem_vldAims s m (viewAt s m.core o.view.toNat) { a with fmt := f } e 4 (s, [], none)
      split <;> rename_i ha <;> have ht := memOk_fst ha (by simp [hs])
      · split <;> simp [ht]
      · simp [ht]
      · simp [ht]
      · exact ht
theorem nextOk_execStorePerformed (a : Nat) : NextOk (execStorePerformed a s) := nextOk_performEvent hs
theorem nextOk_execPrefLineArrival (a victim : Nat) : NextOk (execPrefLineArrival a victim s) := by
  unfold execPrefLineArrival
  dsimp only
  (repeat' split) <;> simp [hs]
theorem nextOk_execAtom (c : Common) (r : BitVec 6) (fn : AtomFn) (o : MemOp) : NextOk (execAtom c r fn o s) := nextOk_viewForm hs
theorem nextOk_execAtomr (c : Common) (r : BitVec 6) (fn : AtomFn) (o : MemOp) : NextOk (execAtomr c r fn o s) := nextOk_viewForm hs
theorem nextOk_execCas (c : Common) (r : BitVec 6) (o : MemOp) : NextOk (execCas c r o s) := nextOk_viewForm hs
theorem nextOk_execKcas2 (c : Common) (r : BitVec 6) (dist : BitVec 4) (o : MemOp) : NextOk (execKcas2 c r dist o s) :=
  nextOk_accessForm hs fun k m a x => by
    dsimp only
    split
    · simp [hs]
    · split
      · simp [hs]
      · simp [hs]
      · simp [hs]
      · split
        · simp [hs]
        · next a0 _ _ _ _ =>
          have h : (aimAt s m Need.atom 4 4 a0).2.mem.wf = true := by simp [hs]
          split <;> rename_i ha <;> simp [memOk_snd ha h]
      · simp [hs]
theorem nextOk_execKenq (c : Common) (r : BitVec 6) (o : MemOp) : NextOk (execKenq c r o s) := nextOk_keeperForm hs
theorem nextOk_execKdeq (c : Common) (r : BitVec 6) (o : MemOp) : NextOk (execKdeq c r o s) := nextOk_keeperForm hs
theorem nextOk_execKchase (c : Common) (r : BitVec 6) (word : BitVec 4) (o : MemOp) :
    NextOk (execKchase c r word o s) := nextOk_keeperForm hs
theorem nextOk_execKchunk (c : Common) (r : BitVec 6) (o : MemOp) : NextOk (execKchunk c r o s) := nextOk_keeperForm hs
theorem nextOk_execAtomicAtHome (a : Nat) : NextOk (execAtomicAtHome a s) := by
  unfold execAtomicAtHome
  (repeat' split) <;> simp [hs]
theorem nextOk_execKeeperOperation (a : Nat) : NextOk (execKeeperOperation a s) := by
  unfold execKeeperOperation
  (repeat' split) <;> simp [hs]
theorem nextOk_execKchaseHop (a : Nat) : NextOk (execKchaseHop a s) := by
  unfold execKchaseHop
  dsimp only
  (repeat' split) <;> simp [hs]
theorem nextOk_execFence (c : Common) (order : Order) (scope : MScope) (tok : BitVec 3) : NextOk (execFence c order scope tok s) :=
  nextOk_runForm hs (fun _ _ => by simp [hs]) fun _ _ _ => by (repeat' split) <;> simp [hs]
theorem nextOk_execBar (c : Common) (sc : Scope) : NextOk (execBar c sc s) :=
  nextOk_runForm hs (fun _ _ => by simp [hs]) fun _ _ _ => by simp [hs]
theorem nextOk_execBara (c : Common) (d : Option (BitVec 6)) (sc : Scope) : NextOk (execBara c d sc s) :=
  nextOk_runForm hs (fun _ _ => by simp [hs]) fun _ _ _ => by (repeat' split) <;> simp [hs]
theorem nextOk_execBarw (c : Common) (a : Src) (sc : Scope) : NextOk (execBarw c a sc s) :=
  nextOk_runForm hs (fun _ _ => by simp [hs]) fun _ _ _ => by (repeat' split) <;> simp [hs]
theorem nextOk_execBarrierInstanceComplete (launch : Nat) (sc : Scope) (unit k : Nat) :
    NextOk (execBarrierInstanceComplete launch sc unit k s) := by
  unfold execBarrierInstanceComplete
  dsimp only
  (repeat' split) <;> simp [hs]
theorem nextOk_execSarm (c : Common) (r : BitVec 6) (o : MemOp) : NextOk (execSarm c r o s) := nextOk_syncForm hs
theorem nextOk_execSadd (c : Common) (r : BitVec 6) (o : MemOp) : NextOk (execSadd c r o s) := nextOk_syncForm hs
theorem nextOk_execSwait (c : Common) (r : BitVec 6) (o : MemOp) : NextOk (execSwait c r o s) := nextOk_syncForm hs
theorem nextOk_execSyncWordOperation (a : Nat) : NextOk (execSyncWordOperation a s) := by
  unfold execSyncWordOperation
  (repeat' split) <;> simp [hs]
theorem nextOk_execSwaitReturn (m : Nat) : NextOk (execSwaitReturn m s) := by
  have hp : ∀ a x, (((takeResponse s a x).map fun t => passSlot (completeAcc t a) m).getD s).mem.wf = true := by
    intro a x
    cases h : takeResponse s a x with
    | none => simp [hs]
    | some t => simp [mem_takeResponse h, hs]
  unfold execSwaitReturn
  (repeat' split) <;> simp [hs, hp]
theorem nextOk_execParkTransferEnd (core launch : Nat) : NextOk (execParkTransferEnd core launch s) := by
  unfold execParkTransferEnd
  dsimp only
  (repeat' split) <;> simp [hs]
theorem nextOk_execParkSelf (m : Nat) : NextOk (execParkSelf m s) := by
  unfold execParkSelf
  (repeat' split) <;> simp [hs]
theorem nextOk_execNeighbourReadArrival (r : Nat) : NextOk (execNeighbourReadArrival r s) := by
  unfold execNeighbourReadArrival
  dsimp only
  (repeat' split) <;> simp [hs]
theorem nextOk_execNeighbourReadResume (r : Nat) (v : Word) : NextOk (execNeighbourReadResume r v s) := by
  unfold execNeighbourReadResume
  dsimp only
  (repeat' split) <;> simp [hs]
theorem nextOk_execCopy (c : Common) (block : Option (BitVec 6)) (vd vs : BitVec 6) (rm : Rm) (fz sat : Bool) (tok : BitVec 3) :
    NextOk (execCopy c block vd vs rm fz sat tok s) := nextOk_cmdForm hs
theorem nextOk_execCopym (c : Common) (block : BitVec 6) (vd vs vb : BitVec 6) (fmt : MatFmt) (rm : Rm) (fz sat : Bool) (tok : BitVec 3) :
    NextOk (execCopym c block vd vs vb fmt rm fz sat tok s) := nextOk_cmdForm hs
theorem nextOk_execMmab (c : Common) (block : BitVec 6) (va vb : BitVec 6) (fmt : MatFmt) (tok : BitVec 3) :
    NextOk (execMmab c block va vb fmt tok s) := nextOk_cmdForm hs
theorem nextOk_execScacc (c : Common) (block : Option (BitVec 6)) (va vb : BitVec 6) (part acc : BitVec 2) (tok : BitVec 3) :
    NextOk (execScacc c block va vb part acc tok s) := nextOk_cmdForm hs
theorem nextOk_execMload (c : Common) (block : Option (BitVec 6)) (v : BitVec 6) (acc : BitVec 2) (tok : BitVec 3) :
    NextOk (execMload c block v acc tok s) := nextOk_cmdForm hs
theorem nextOk_execMstore (c : Common) (block : Option (BitVec 6)) (v : BitVec 6) (acc : BitVec 2) (rm : Rm) (fz sat : Bool)
    (tok : BitVec 3) :
    NextOk (execMstore c block v acc rm fz sat tok s) := nextOk_cmdForm hs
theorem nextOk_execMzero (c : Common) (acc : BitVec 2) (tok : BitVec 3) : NextOk (execMzero c acc tok s) := nextOk_cmdForm hs
theorem nextOk_execTmma (c : Common) (block : BitVec 6) (v : BitVec 6) (entry : BitVec 9) (tok : BitVec 3) :
    NextOk (execTmma c block v entry tok s) := nextOk_cmdForm hs
theorem nextOk_execDrun (c : Common) (block : BitVec 6) (entry : BitVec 9) (tok : BitVec 3) :
    NextOk (execDrun c block entry tok s) := nextOk_cmdForm hs
theorem nextOk_execEcan (c : Common) (mask : BitVec 3) (tok : BitVec 3) : NextOk (execEcan c mask tok s) := 
  nextOk_runForm hs (fun _ _ => by simp [hs]) fun _ _ _ => by
    split <;> simp [hs]
theorem nextOk_execCopyCommandRun (core cmd : Nat) (ext : PeerBytes) : NextOk (execCopyCommandRun core cmd ext s) := by
  unfold execCopyCommandRun
  (repeat' split) <;> simp [hs]
theorem nextOk_execCopySegmentLanded (core cmd seg : Nat) : NextOk (execCopySegmentLanded core cmd seg s) := by
  unfold execCopySegmentLanded
  (repeat' split) <;> simp [hs]
theorem nextOk_execCopymFollowOnPlace (core cmd : Nat) : NextOk (execCopymFollowOnPlace core cmd s) := by
  unfold execCopymFollowOnPlace
  dsimp only
  (repeat' split) <;> simp [hs]
theorem nextOk_execArrayCommandRun (core cmd : Nat) (ext : PeerBytes) : NextOk (execArrayCommandRun core cmd ext s) := by
  unfold execArrayCommandRun
  (repeat' split) <;> simp [hs]
theorem nextOk_execEngineCommandComplete (core cmd : Nat) : NextOk (execEngineCommandComplete core cmd s) := by
  unfold execEngineCommandComplete
  dsimp only
  (repeat' split) <;> simp [hs]
theorem nextOk_execEngineHeldFaultResume (core cmd : Nat) : NextOk (execEngineHeldFaultResume core cmd s) := by
  unfold execEngineHeldFaultResume
  simp [hs]
theorem nextOk_execDocentProgramStart (core : Nat) (ext : PeerBytes) : NextOk (execDocentProgramStart core ext s) := by
  unfold execDocentProgramStart
  dsimp only
  (repeat' split) <;> simp [hs]
theorem nextOk_execDocentYieldPoint (core : Nat) : NextOk (execDocentYieldPoint core s) := by
  unfold execDocentYieldPoint
  dsimp only
  (repeat' split) <;> simp [hs]
theorem nextOk_execDocentEnd (core : Nat) : NextOk (execDocentEnd core s) := by
  unfold execDocentEnd
  dsimp only
  (repeat' split) <;> simp [hs]
theorem nextOk_execDocentMmab (core : Nat) : NextOk (execDocentMmab core s) :=
  nextOk_commandStep hs fun _ _ _ => by simp [hs]
theorem nextOk_execDocentScacc (core : Nat) : NextOk (execDocentScacc core s) :=
  nextOk_commandStep hs fun _ _ _ => by simp [hs]
theorem nextOk_execDocentMzero (core : Nat) : NextOk (execDocentMzero core s) :=
  nextOk_commandStep hs fun _ _ _ => by simp [hs]
theorem nextOk_execDocentMload (core : Nat) : NextOk (execDocentMload core s) :=
  nextOk_commandStep hs fun _ _ _ => by simp [hs]
theorem nextOk_execDocentMstore (core : Nat) : NextOk (execDocentMstore core s) :=
  nextOk_commandStep hs fun _ _ _ => by simp [hs]
theorem nextOk_execDocentCopy (core : Nat) : NextOk (execDocentCopy core s) :=
  nextOk_commandStep hs fun _ _ _ => by simp [hs]
theorem nextOk_execDocentLoop (core : Nat) : NextOk (execDocentLoop core s) :=
  nextOk_commandStep hs fun _ _ _ => by simp [hs]
theorem nextOk_execDocentSetl (core : Nat) : NextOk (execDocentSetl core s) :=
  nextOk_commandStep hs fun _ _ _ => by simp [hs]
theorem nextOk_execDocentSignal (core : Nat) : NextOk (execDocentSignal core s) := 
  nextOk_commandStep hs fun _ _ _ => by
    dsimp only
    (repeat' split) <;> simp [hs]
theorem nextOk_execPacketAccept (queue : Nat) : NextOk (execPacketAccept queue s) := by
  unfold execPacketAccept
  split
  · simp [hs]
  · next q _ =>
    have h := memOk_procRead hs q.desc (packetAddr q.desc q.ridx) 64
    split
    · simp [hs]
    · split
      · next hr => simp [memOk_snd hr h]
      · next hr => simp [memOk_snd hr h]
      · next hr =>
        have ht := memOk_snd hr h
        dsimp only
        (repeat' split) <;> simp [hs, ht]
theorem nextOk_execProcessorPageServiced (queue : Nat) :
    NextOk (execProcessorPageServiced queue s) := by simp [execProcessorPageServiced, hs]
theorem nextOk_execLaunchCompletion (launch : Nat) : NextOk (execLaunchCompletion launch s) := by
  unfold execLaunchCompletion
  (repeat' split) <;> simp [hs]
theorem nextOk_execMarkerComplete (launch : Nat) : NextOk (execMarkerComplete launch s) := by
  unfold execMarkerComplete
  (repeat' split) <;> simp [hs]
theorem nextOk_execDependantFail (launch : Nat) : NextOk (execDependantFail launch s) := by
  unfold execDependantFail
  dsimp only
  (repeat' split) <;> simp [hs]
theorem nextOk_execSel (c : Common) (d : Dst) (a b : Src) (p : BitVec 3) (negate wide : Bool) : NextOk (execSel c d a b p negate wide s) := 
  nextOk_runForm hs (fun _ _ => by simp [hs]) fun _ _ _ => by
    split <;> simp [hs]
theorem nextOk_execMovs (c : Common) (d : Dst) (r : SReg) (wide : Bool) : NextOk (execMovs c d r wide s) :=
  nextOk_runForm hs (fun _ _ => by simp [hs]) fun _ _ _ => by (repeat' split) <;> simp [hs]
theorem nextOk_execSets (c : Common) (a : Src) (r : SReg) (wide : Bool) : NextOk (execSets c a r wide s) :=
  nextOk_runForm hs (fun _ _ => by simp [hs]) fun _ _ _ => by (repeat' split) <;> simp [hs]
theorem nextOk_execPmov (c : Common) (d : Dst) (a : Src) (write : Bool) : NextOk (execPmov c d a write s) := by
  unfold execPmov
  split
  · refine nextOk_runForm hs (fun _ _ => by simp [hs]) fun _ _ _ => ?_
    split <;> simp [hs]
  · exact nextOk_runForm hs (fun _ _ => by simp [hs]) fun _ _ _ => by simp [hs]
theorem nextOk_execLaunchPlacement (launch : Nat) : NextOk (execLaunchPlacement launch s) := by
  unfold execLaunchPlacement
  (repeat' split) <;> simp [hs]
theorem nextOk_execLaunchStart (launch : Nat) : NextOk (execLaunchStart launch s) := by
  unfold execLaunchStart
  dsimp only
  (repeat' split) <;> simp [hs]
theorem nextOk_execTrig (c : Common) : NextOk (execTrig c s) :=
  nextOk_controlInstr hs fun _ _ => by (repeat' split) <;> simp [hs]
theorem nextOk_execSpawn (c : Common) (r : BitVec 6) (o : MemOp) : NextOk (execSpawn c r o s) := 
  nextOk_runForm hs (fun _ _ => by simp [hs]) fun _ _ _ => by
    dsimp only
    (repeat' split) <;> simp [hs]
theorem nextOk_execContinuationAccept (core rec : Nat) : NextOk (execContinuationAccept core rec s) := by
  unfold execContinuationAccept
  dsimp only
  (repeat' split) <;> simp [hs]
theorem nextOk_execTaskCellStart (field rec : Nat) : NextOk (execTaskCellStart field rec s) := by
  unfold execTaskCellStart
  dsimp only
  split
  · simp [hs]
  · split
    · simp [hs]
    · split
      · next hp _ =>
        have ht := (congrArg Memory.wf (mem_taskPlace hp)).trans hs
        split <;> simp [hs, ht]
      · simp [hs]
theorem nextOk_execAccessionWatchdogExpiry (field launch : Nat) : NextOk (execAccessionWatchdogExpiry field launch s) := by
  unfold execAccessionWatchdogExpiry
  dsimp only
  (repeat' split) <;> simp [hs]
theorem nextOk_execLdio (c : Common) (d : Dst) (a : Src) (wide : Bool) (tok : BitVec 3) : NextOk (execLdio c d a wide tok s) :=
  nextOk_runForm hs (fun _ _ => by simp [hs]) fun _ _ _ => by (repeat' split) <;> simp [hs]
theorem nextOk_execStio (c : Common) (a b : Src) (wide : Bool) (tok : BitVec 3) : NextOk (execStio c a b wide tok s) :=
  nextOk_runForm hs (fun _ _ => by simp [hs]) fun _ _ _ => by (repeat' split) <;> simp [hs]
theorem nextOk_execIoRegisterWrite (a : Nat) : NextOk (execIoRegisterWrite a s) :=
  nextOk_ioStep hs fun _ _ _ _ h => by
    (repeat' split at h) <;> cases h
    simp [hs]
theorem nextOk_execRangeEntryWrite (a : Nat) : NextOk (execRangeEntryWrite a s) :=
  nextOk_ioStep hs fun _ _ _ _ h => by
    (repeat' split at h) <;> cases h
    simp [hs]
theorem nextOk_execAppraiserSuspectClear (a : Nat) : NextOk (execAppraiserSuspectClear a s) :=
  nextOk_ioStep hs fun _ _ _ _ h => by
    (repeat' split at h) <;> cases h
    simp [hs]
theorem nextOk_execCheckpointDuePop (a : Nat) : NextOk (execCheckpointDuePop a s) := by
  unfold execCheckpointDuePop
  dsimp only
  (repeat' split) <;> simp [hs]
theorem nextOk_execLoadComplete (a : Nat) : NextOk (execLoadComplete a s) := by
  unfold execLoadComplete
  (repeat' split) <;> simp [hs]
theorem nextOk_execAsyncFaultTake (m : Nat) : NextOk (execAsyncFaultTake m s) := by
  unfold execAsyncFaultTake
  dsimp only
  (repeat' split) <;> simp [hs]
theorem nextOk_execTrap (c : Common) (imm : Word) : NextOk (execTrap c imm s) :=
  nextOk_controlInstr hs fun _ _ => by simp [hs]
theorem nextOk_execSvc (c : Common) (imm : Word) : NextOk (execSvc c imm s) :=
  nextOk_controlInstr hs fun _ _ => by simp [hs]
theorem nextOk_execSvcComplete (m : Nat) (vals : List Word) : NextOk (execSvcComplete m vals s) := by
  unfold execSvcComplete
  dsimp only
  (repeat' split) <;> simp [hs]
theorem nextOk_execEret (c : Common) : NextOk (execEret c s) :=
  nextOk_controlInstr hs fun _ _ => by (repeat' split) <;> simp [hs]
theorem nextOk_execSegset (c : Common) (n : BitVec 3) (r : BitVec 6) : NextOk (execSegset c n r s) :=
  nextOk_runForm hs (fun _ _ => by simp [hs]) fun _ _ _ => by (repeat' split) <;> simp [hs]
theorem nextOk_execSegget (c : Common) (n : BitVec 3) (r : BitVec 6) : NextOk (execSegget c n r s) :=
  nextOk_runForm hs (fun _ _ => by simp [hs]) fun _ _ _ => by simp [hs]
theorem nextOk_execTlbinv (c : Common) (form : TlbinvForm) (a b : Src) : NextOk (execTlbinv c form a b s) :=
  nextOk_runForm hs (fun _ _ => by simp [hs]) fun _ _ _ => by (repeat' split) <;> simp [hs]
theorem nextOk_execShoot (c : Common) (d : Dst) (a b e : Src) (g : Bool) (tok : BitVec 3) : NextOk (execShoot c d a b e g tok s) :=
  nextOk_runForm hs (fun _ _ => by simp [hs]) fun _ _ _ => by (repeat' split) <;> simp [hs]
theorem nextOk_execShootdownComplete (seq : Nat) : NextOk (execShootdownComplete seq s) := by
  unfold execShootdownComplete
  (repeat' split) <;> simp [hs]
theorem nextOk_execTlbWalkFill (core walk victim : Nat) : NextOk (execTlbWalkFill core walk victim s) := by
  unfold execTlbWalkFill
  dsimp only
  (repeat' split) <;> simp [hs]
theorem nextOk_execIdle (c : Common) (d : Dst) (a : Src) : NextOk (execIdle c d a s) :=
  nextOk_runForm hs (fun _ _ => by simp [hs]) fun _ _ _ => by (repeat' split) <;> simp [hs]
theorem nextOk_execIdleWake (m : Nat) (timeout : Bool) : NextOk (execIdleWake m timeout s) := by
  unfold execIdleWake
  dsimp only
  (repeat' split) <;> simp [hs]
theorem nextOk_execSetperf (c : Common) (a : Src) : NextOk (execSetperf c a s) :=
  nextOk_runForm hs (fun _ _ => by simp [hs]) fun _ _ _ => by (repeat' split) <;> simp [hs]
theorem nextOk_execRingRecordWrite  : NextOk (execRingRecordWrite s) := by
  unfold execRingRecordWrite
  dsimp only
  (repeat' split) <;> simp [hs]
theorem nextOk_execActReplay (a : Nat) : NextOk (execActReplay a s) := nextOk_actWrite hs
theorem nextOk_execActDeliver (a : Nat) : NextOk (execActDeliver a s) := nextOk_actWrite hs
theorem nextOk_execActAbandon (a : Nat) : NextOk (execActAbandon a s) := nextOk_actWrite hs
theorem nextOk_execStopactTerminate (a : Nat) : NextOk (execStopactTerminate a s) :=
  nextOk_stopWrite hs fun _ _ => by simp [hs]
theorem nextOk_execStopactResume (a : Nat) : NextOk (execStopactResume a s) :=
  nextOk_stopWrite hs fun _ _ => by (repeat' split) <;> simp [hs]
theorem nextOk_execStopactResumeDeliver (a : Nat) : NextOk (execStopactResumeDeliver a s) :=
  nextOk_stopWrite hs fun _ _ => by (repeat' split) <;> simp [hs]
theorem nextOk_execCtxsave (c : Common) (d : Dst) (a b : Src) (tok : BitVec 3) : NextOk (execCtxsave c d a b tok s) := 
  nextOk_ctxForm hs fun _ _ _ _ => by
    dsimp only
    (repeat' split) <;> simp [hs]
theorem nextOk_execCtxload (c : Common) (d : Dst) (a b : Src) (tok : BitVec 3) : NextOk (execCtxload c d a b tok s) := 
  nextOk_ctxForm hs fun k m img _ => by
    split
    next hi =>
      have ht := memOk_snd hi (by simp [hs])
      rw [mem_addJob, mem_tokInc]
      exact ht
theorem nextOk_ckptForm (c : Common) (d : BitVec 6) (a b : Src) (tok : BitVec 3) (kind : JobKind) : NextOk (ckptForm s c d a b tok kind) := 
  nextOk_ctxForm hs fun _ _ _ _ => by
    dsimp only
    split <;> simp [hs]
theorem nextOk_execCkpt (c : Common) (d : BitVec 6) (a b : Src) (tok : BitVec 3) :
    NextOk (execCkpt c d a b tok s) := nextOk_ckptForm hs c d a b tok _
theorem nextOk_execCkptRb (c : Common) (d : BitVec 6) (a b : Src) (tok : BitVec 3) :
    NextOk (execCkptRb c d a b tok s) := nextOk_ckptForm hs c d a b tok _
theorem nextOk_execContextSwitchOut (launch core : Nat) : NextOk (execContextSwitchOut launch core s) := by
  unfold execContextSwitchOut
  dsimp only
  (repeat' split) <;> simp [hs]
theorem nextOk_execContextRestore (launch core : Nat) : NextOk (execContextRestore launch core s) := by
  unfold execContextRestore
  split
  · simp [hs]
  · split
    · simp [hs]
    · split
      · simp [hs]
      · split
        · simp [hs]
        · split
          · simp [hs]
          · split
            · next hp => simp [mem_putBack hp, hs]
            · simp [hs]
theorem nextOk_execDocentOverrunExpiry (core : Nat) : NextOk (execDocentOverrunExpiry core s) := by
  unfold execDocentOverrunExpiry
  (repeat' split) <;> simp [hs]
theorem nextOk_execWatchdogNoProgress (launch core image : Nat) : NextOk (execWatchdogNoProgress launch core image s) := by
  unfold execWatchdogNoProgress
  (repeat' split) <;> simp [hs]
theorem nextOk_execWatchdogNoRetire (launch core image : Nat) : NextOk (execWatchdogNoRetire launch core image s) := by
  unfold execWatchdogNoRetire
  (repeat' split) <;> simp [hs]
theorem nextOk_execPoisonRead (granule : Nat) (reader : Origin) : NextOk (execPoisonRead granule reader s) := by
  unfold execPoisonRead
  dsimp only
  (repeat' split) <;> simp [hs]
theorem nextOk_execCheckpointDue (launch core : Nat) : NextOk (execCheckpointDue launch core s) := by
  unfold execCheckpointDue
  dsimp only
  (repeat' split) <;> simp [hs]
theorem nextOk_execClauseFetch (core launch h : Nat) : NextOk (execClauseFetch core launch h s) := by
  unfold execClauseFetch
  split
  · simp [hs]
  · next ctx _ =>
    have h := memOk_loadClause hs ctx launch core h
    split
    · simp [hs]
    · split <;> (next hl => simp [memOk_snd hl h])
theorem nextOk_execClauseCacheFill (core launch h : Nat) : NextOk (execClauseCacheFill core launch h s) := by
  unfold execClauseCacheFill
  split
  · next ctx _ _ _ =>
    have h := memOk_loadClause hs ctx launch core h
    split
    · simp [hs]
    · split <;> (next hl => simp [memOk_snd hl h])
  · simp [hs]
theorem nextOk_execHeldFetchServiced (core launch h : Nat) :
    NextOk (execHeldFetchServiced core launch h s) := by simp [execHeldFetchServiced, hs]
theorem nextOk_execGangSwap (core : Nat) : NextOk (execGangSwap core s) := by
  unfold execGangSwap
  (repeat' split) <;> simp [hs]
theorem nextOk_execGangSwapEnd (core : Nat) : NextOk (execGangSwapEnd core s) := by
  unfold execGangSwapEnd
  split <;> simp [hs]
theorem nextOk_execCausalPacketSend (a : Nat) : NextOk (execCausalPacketSend a s) := by
  have hq : ∀ {u : State} {f d : Nat}, u.mem.wf = true → ((sendSequenced u f d a).getD s).mem.wf = true := by
    intro u f d hu
    cases h : sendSequenced u f d a with
    | none => simp [hs]
    | some t => simp [mem_sendSequenced h, hu]
  have hr : ∀ {u : State} {f d : Nat}, u.mem.wf = true → ((sendRequest u f d a).getD s).mem.wf = true := by
    intro u f d hu
    cases h : sendRequest u f d a with
    | none => simp [hs]
    | some t => simp [mem_sendRequest h, hu]
  unfold execCausalPacketSend
  dsimp only
  (repeat' split) <;> simp [hs, hq, hr]
theorem nextOk_execSequencedPacketArrival (p : Nat) : NextOk (execSequencedPacketArrival p s) := by
  unfold execSequencedPacketArrival
  (repeat' split) <;> simp [hs]
theorem nextOk_execReadRequestArrival (p : Nat) : NextOk (execReadRequestArrival p s) := by
  unfold execReadRequestArrival
  (repeat' split) <;> simp [hs]
theorem nextOk_execClockPacketArrival (p : Nat) : NextOk (execClockPacketArrival p s) := by
  unfold execClockPacketArrival
  dsimp only
  (repeat' split) <;> simp [hs]
theorem nextOk_execBaseAckArrival (p : Nat) : NextOk (execBaseAckArrival p s) := by
  unfold execBaseAckArrival
  (repeat' split) <;> simp [hs]
theorem nextOk_execHorizonQueryAnswer (p : Nat) : NextOk (execHorizonQueryAnswer p s) := by
  unfold execHorizonQueryAnswer
  dsimp only
  (repeat' split) <;> simp [hs]
theorem nextOk_execHorizonAnswerArrival (p : Nat) : NextOk (execHorizonAnswerArrival p s) := by
  unfold execHorizonAnswerArrival
  dsimp only
  (repeat' split) <;> simp [hs]
theorem nextOk_execNackReceipt (p : Nat) : NextOk (execNackReceipt p s) := by
  unfold execNackReceipt
  (repeat' split) <;> simp [hs]
theorem nextOk_execNackResend (field dest : Nat) : NextOk (execNackResend field dest s) := by
  unfold execNackResend
  (repeat' split) <;> simp [hs]
theorem nextOk_execBeaconArrival (p : Nat) : NextOk (execBeaconArrival p s) := by
  unfold execBeaconArrival
  dsimp only
  (repeat' split) <;> simp [hs]
theorem nextOk_execBeaconAckArrival (p : Nat) : NextOk (execBeaconAckArrival p s) := by
  unfold execBeaconAckArrival
  (repeat' split) <;> simp [hs]
theorem nextOk_execFinalHorizonArrival (p : Nat) : NextOk (execFinalHorizonArrival p s) := by
  unfold execFinalHorizonArrival
  dsimp only
  (repeat' split) <;> simp [hs]
theorem nextOk_execCausalReset  : NextOk (execCausalReset s) := by simp [execCausalReset, hs]
theorem nextOk_execFieldDeath (field : Nat) : NextOk (execFieldDeath field s) := by
  have hr : ∀ (l : List Nat) {u : State}, u.mem.wf = true → (l.foldl reexamine u).mem.wf = true :=
    fun l _ hu => memOk_foldl (fun _ _ ht => memOk_reexamine ht _) hu
  unfold execFieldDeath
  dsimp only
  split <;> simp [hs, hr]
theorem nextOk_execLinkAckTimeout (link : Nat) : NextOk (execLinkAckTimeout link s) := by
  unfold execLinkAckTimeout
  dsimp only
  (repeat' split) <;> simp [hs]
theorem nextOk_execFlitCrcFail (link : Nat) : NextOk (execFlitCrcFail link s) := by
  unfold execFlitCrcFail
  split <;> simp [hs]
theorem nextOk_execModuleTimeout (module : Nat) : NextOk (execModuleTimeout module s) := by simp [execModuleTimeout, hs]
theorem nextOk_execPodTimeout (module : Nat) : NextOk (execPodTimeout module s) := by simp [execPodTimeout, hs]
theorem nextOk_execLinkReadmit (member : Nat) : NextOk (execLinkReadmit member s) := by
  unfold execLinkReadmit
  (repeat' split) <;> simp [hs]
theorem nextOk_execFieldDrainCommand (a : Nat) : NextOk (execFieldDrainCommand a s) := 
  nextOk_fieldCommand hs fun f => by
    split
    · exact hs
    · dsimp only
      have h : (drawFree s).2.mem.wf = true := by simp [hs]
      split
      · simp [hs]
      · simp [hs]
theorem nextOk_execFieldDrainComplete (field copyBase : Nat) : NextOk (execFieldDrainComplete field copyBase s) := by
  unfold execFieldDrainComplete
  dsimp only
  (repeat' split) <;> simp [hs, wf_copyPieces]
theorem nextOk_execFieldForcedOffline (a : Nat) : NextOk (execFieldForcedOffline a s) :=
  nextOk_fieldCommand hs fun _ => by (repeat' split) <;> simp [hs]
theorem nextOk_execFieldReturnOnline (a : Nat) : NextOk (execFieldReturnOnline a s) :=
  nextOk_fieldCommand hs fun _ => by (repeat' split) <;> simp [hs]
theorem nextOk_execAppraiserReplay  : NextOk (execAppraiserReplay s) := by
  unfold execAppraiserReplay
  (repeat' split) <;> simp [hs]
theorem nextOk_execPeerRequestArrival (peer : PeerChannel) (pa : Nat) (req : PeerKind) : NextOk (execPeerRequestArrival peer pa req s) := by
  unfold execPeerRequestArrival
  dsimp only
  (repeat' split) <;> simp [hs]
theorem nextOk_execPeerAckArrival (a : Nat) (ans : PeerAnswer) : NextOk (execPeerAckArrival a ans s) := by
  unfold execPeerAckArrival
  dsimp only
  (repeat' split) <;> simp [hs]
theorem nextOk_execSpanNeighbourRead (span : Nat) (peer : PeerChannel) (idx : Nat) (face : BitVec 3) (gen : Nat) (isStep : Bool) :
    NextOk (execSpanNeighbourRead span peer idx face gen isStep s) := by
  unfold execSpanNeighbourRead
  dsimp only
  (repeat' split) <;> simp [hs]
theorem nextOk_execSpanStepReport (span idx step : Nat) : NextOk (execSpanStepReport span idx step s) := by
  unfold execSpanStepReport
  (repeat' split) <;> simp [hs]
theorem nextOk_execPodBarrierCount (span module k : Nat) : NextOk (execPodBarrierCount span module k s) := by
  unfold execPodBarrierCount
  dsimp only
  (repeat' split) <;> simp [hs]
theorem nextOk_execClientRmaWrite (job srcAddr port pa : Nat) (bytes : List Byte) :
    NextOk (execClientRmaWrite job srcAddr port pa bytes s) := by
  unfold execClientRmaWrite
  split <;> simp [hs]
theorem nextOk_execClientRmaRead (job srcAddr port pa size : Nat) : NextOk (execClientRmaRead job srcAddr port pa size s) := by
  unfold execClientRmaRead
  split <;> simp [hs]
theorem nextOk_execNotifyRegisterWrite (queue : Nat) (widx : Word) (src : Origin) : NextOk (execNotifyRegisterWrite queue widx src s) := by
  unfold execNotifyRegisterWrite
  dsimp only
  (repeat' split) <;> simp [hs]
theorem nextOk_execServiceChannelMessage (module kind value : Nat) : NextOk (execServiceChannelMessage module kind value s) := by
  unfold execServiceChannelMessage
  split <;> simp [hs]
theorem nextOk_execFlitCreditReturn (port channel count : Nat) : NextOk (execFlitCreditReturn port channel count s) := by
  unfold execFlitCreditReturn
  split <;> simp [hs]
theorem nextOk_execReqWrite (a : Nat) : NextOk (execReqWrite a s) := 
  nextOk_bundleWrite hs fun _ _ _ _ h => by
    dsimp only at h
    split at h
    · cases h
    · split at h
      · cases h; exact hs
      · split at h <;> cases h <;> simp [hs]
theorem nextOk_execHeatWrite (a : Nat) : NextOk (execHeatWrite a s) :=
  nextOk_bundleWrite hs fun _ _ _ _ h => by
    (repeat' split at h) <;> cases h
    simp [hs]
theorem nextOk_execEvenThreshWrite (a : Nat) : NextOk (execEvenThreshWrite a s) :=
  nextOk_bundleWrite hs fun _ _ _ _ h => by
    (repeat' split at h) <;> cases h
    simp [hs]
theorem nextOk_execRingLock (fibre bundle wl : Nat) : NextOk (execRingLock fibre bundle wl s) := by
  unfold execRingLock
  dsimp only
  split <;> simp [hs]
theorem nextOk_execRingParkEnd (fibre bundle wl : Nat) : NextOk (execRingParkEnd fibre bundle wl s) := by
  unfold execRingParkEnd
  dsimp only
  split <;> simp [hs]
theorem nextOk_execRingLockTimeout (fibre bundle wl : Nat) : NextOk (execRingLockTimeout fibre bundle wl s) := by
  unfold execRingLockTimeout
  dsimp only
  split <;> simp [hs]
theorem nextOk_execHeaterRetune (fibre bundle wl : Nat) (heat mon : BitVec 16) : NextOk (execHeaterRetune fibre bundle wl heat mon s) := by
  unfold execHeaterRetune
  dsimp only
  (repeat' split) <;> simp [hs]
theorem nextOk_execFlitEnqueue (fibre bundle flit : Nat) : NextOk (execFlitEnqueue fibre bundle flit s) := by
  unfold execFlitEnqueue
  dsimp only
  split <;> simp [hs]
theorem nextOk_execFlitStart (fibre bundle : Nat) : NextOk (execFlitStart fibre bundle s) := by
  unfold execFlitStart
  dsimp only
  (repeat' split) <;> simp [hs]
theorem nextOk_execRestripeMarkerArrival (fibre bundle : Nat) : NextOk (execRestripeMarkerArrival fibre bundle s) := by
  unfold execRestripeMarkerArrival
  dsimp only
  (repeat' split) <;> simp [hs]
theorem nextOk_execByteBudgetInterval  : NextOk (execByteBudgetInterval s) := by simp [execByteBudgetInterval, hs]
theorem nextOk_execPerfIntervalBoundary  : NextOk (execPerfIntervalBoundary s) := by simp [execPerfIntervalBoundary, hs]
theorem nextOk_execPerfStepSettle (quad : Nat) : NextOk (execPerfStepSettle quad s) := by
  unfold execPerfStepSettle
  split <;> simp [hs]
theorem nextOk_execEvictionGo (src : Origin) (target : Nat) : NextOk (execEvictionGo src target s) := by
  unfold execEvictionGo
  split
  · exact nextOk_evictWrite hs fun _ ht => by simp [ht]
  · simp [hs]
  · simp [hs]
  · simp [hs]
theorem nextOk_execEvictionAbort (src : Origin) : NextOk (execEvictionAbort src s) := by
  unfold execEvictionAbort
  split
  · exact nextOk_evictWrite hs fun _ ht => by simp [ht]
  · simp [hs]
  · simp [hs]
  · simp [hs]
theorem nextOk_execLrpWrite (a : Nat) : NextOk (execLrpWrite a s) :=
  nextOk_ioStep hs fun _ _ _ _ h => by
    (repeat' split at h) <;> cases h <;> simp [hs]
theorem nextOk_execEvictionQuiesced  : NextOk (execEvictionQuiesced s) := by
  unfold execEvictionQuiesced
  dsimp only
  (repeat' split) <;> simp [hs]
theorem nextOk_execEvictionTransferred  : NextOk (execEvictionTransferred s) := by
  unfold execEvictionTransferred
  (repeat' split) <;> simp [hs]
theorem nextOk_execEvictionTimeout  : NextOk (execEvictionTimeout s) := by
  unfold execEvictionTimeout
  (repeat' split) <;> simp [hs]
theorem nextOk_execCircuitUp (port module : Nat) : NextOk (execCircuitUp port module s) := by
  unfold execCircuitUp
  dsimp only
  (repeat' split) <;> simp [hs]
theorem nextOk_execLatchOpen  : NextOk (execLatchOpen s) := by
  unfold execLatchOpen
  split <;> simp [hs]
theorem nextOk_execSpdmGetCertificate  : NextOk (execSpdmGetCertificate s) := by simp [execSpdmGetCertificate, hs]
theorem nextOk_execSpdmChallenge (nonce : List Byte) : NextOk (execSpdmChallenge nonce s) := by simp [execSpdmChallenge, hs]
theorem nextOk_execSpdmGetMeasurements  : NextOk (execSpdmGetMeasurements s) := by simp [execSpdmGetMeasurements, hs]
theorem nextOk_execBootImageVerify (image signature : List Byte) (version : Nat) :
    NextOk (execBootImageVerify image signature version s) := by
  unfold execBootImageVerify
  (repeat' split) <;> simp [hs]
theorem nextOk_execPldmFirmwareUpdate (image signature : List Byte) (version : Nat) (store : List (Nat × Byte)) :
    NextOk (execPldmFirmwareUpdate image signature version store s) := by
  unfold execPldmFirmwareUpdate
  split <;> simp [hs]
theorem nextOk_execModuleReset  : NextOk (execModuleReset s) := by simp [execModuleReset, hs]

end

/-- Every instruction and every step of the table keeps memory in canonical form. -/
theorem nextOk_exec {s : State} (hs : s.mem.wf = true) (i : Instr) : NextOk (exec i s) := by
  cases i with
  | add => exact nextOk_execAdd hs _ _ _ _ _ _
  | sub => exact nextOk_execSub hs _ _ _ _ _ _
  | addc => exact nextOk_execAddc hs _ _ _ _ _ _ _
  | subb => exact nextOk_execSubb hs _ _ _ _ _ _ _
  | mul => exact nextOk_execMul hs _ _ _ _
  | mulh => exact nextOk_execMulh hs _ _ _ _ _
  | mad => exact nextOk_execMad hs _ _ _ _ _
  | neg c d a sat sg => exact nextOk_execNeg hs c d a sat sg
  | abs c d a sat sg => exact nextOk_execAbs hs c d a sat sg
  | min => exact nextOk_execMin hs _ _ _ _ _
  | max => exact nextOk_execMax hs _ _ _ _ _
  | addd => exact nextOk_execAddd hs _ _ _ _ _ _
  | subd => exact nextOk_execSubd hs _ _ _ _ _ _
  | mulw => exact nextOk_execMulw hs _ _ _ _ _
  | sad => exact nextOk_execSad hs _ _ _ _ _
  | dot4 => exact nextOk_execDot4 hs _ _ _ _ _ _ _ _
  | addi => exact nextOk_execAddi hs _ _ _ _ _
  | ldi => exact nextOk_execLdi hs _ _ _ _
  | and => exact nextOk_execAnd hs _ _ _ _
  | or => exact nextOk_execOr hs _ _ _ _
  | xor => exact nextOk_execXor hs _ _ _ _
  | andn => exact nextOk_execAndn hs _ _ _ _
  | not => exact nextOk_execNot hs _ _ _
  | shl => exact nextOk_execShl hs _ _ _ _
  | shr => exact nextOk_execShr hs _ _ _ _
  | sar => exact nextOk_execSar hs _ _ _ _
  | rol => exact nextOk_execRol hs _ _ _ _
  | shld => exact nextOk_execShld hs _ _ _ _ _
  | shrd => exact nextOk_execShrd hs _ _ _ _ _
  | clz => exact nextOk_execClz hs _ _ _
  | popc => exact nextOk_execPopc hs _ _ _
  | brev => exact nextOk_execBrev hs _ _ _
  | bfx => exact nextOk_execBfx hs _ _ _ _ _
  | bfi => exact nextOk_execBfi hs _ _ _ _ _
  | perm => exact nextOk_execPerm hs _ _ _ _ _
  | andi => exact nextOk_execAndi hs _ _ _ _
  | ori => exact nextOk_execOri hs _ _ _ _
  | xori => exact nextOk_execXori hs _ _ _ _
  | cmp => exact nextOk_execCmp hs _ _ _ _ _ _ _
  | cmps => exact nextOk_execCmps hs _ _ _ _ _ _ _
  | sel => exact nextOk_execSel hs _ _ _ _ _ _ _
  | mov => exact nextOk_execMov hs _ _ _ _
  | movs => exact nextOk_execMovs hs _ _ _ _
  | sets => exact nextOk_execSets hs _ _ _ _
  | pand => exact nextOk_execPand hs _ _ _ _ _ _
  | por => exact nextOk_execPor hs _ _ _ _ _ _
  | pxor => exact nextOk_execPxor hs _ _ _ _ _ _
  | pnot => exact nextOk_execPnot hs _ _ _
  | pset => exact nextOk_execPset hs _ _ _
  | pmov => exact nextOk_execPmov hs _ _ _ _
  | fadd => exact nextOk_execFadd hs _ _ _ _ _
  | fsub => exact nextOk_execFsub hs _ _ _ _ _
  | fmul => exact nextOk_execFmul hs _ _ _ _ _
  | ffma => exact nextOk_execFfma hs _ _ _ _ _ _
  | fmin => exact nextOk_execFmin hs _ _ _ _ _ _
  | fmax => exact nextOk_execFmax hs _ _ _ _ _ _
  | fcmp => exact nextOk_execFcmp hs _ _ _ _ _ _ _
  | fclass => exact nextOk_execFclass hs _ _ _
  | frcp => exact nextOk_execFrcp hs _ _ _ _ _
  | frsq => exact nextOk_execFrsq hs _ _ _ _ _
  | fsqrt => exact nextOk_execFsqrt hs _ _ _ _
  | fdiv => exact nextOk_execFdiv hs _ _ _ _ _
  | fexp2 => exact nextOk_execFexp2 hs _ _ _ _ _
  | flog2 => exact nextOk_execFlog2 hs _ _ _ _ _
  | fsin => exact nextOk_execFsin hs _ _ _ _ _
  | fcos => exact nextOk_execFcos hs _ _ _ _ _
  | ftanh => exact nextOk_execFtanh hs _ _ _ _ _
  | fscale => exact nextOk_execFscale hs _ _ _ _ _
  | ffrac => exact nextOk_execFfrac hs _ _ _ _ _
  | frnd => exact nextOk_execFrnd hs _ _ _ _
  | hadd2 => exact nextOk_execHadd2 hs _ _ _ _ _ _
  | hmul2 => exact nextOk_execHmul2 hs _ _ _ _ _ _
  | hfma2 => exact nextOk_execHfma2 hs _ _ _ _ _ _ _
  | hmin2 => exact nextOk_execHmin2 hs _ _ _ _ _ _ _
  | hmax2 => exact nextOk_execHmax2 hs _ _ _ _ _ _ _
  | hdot2 => exact nextOk_execHdot2 hs _ _ _ _ _ _ _
  | cvt => exact nextOk_execCvt hs _ _ _ _ _ _ _ _
  | pack2 => exact nextOk_execPack2 hs _ _ _ _ _ _ _ _ _
  | split2 => exact nextOk_execSplit2 hs _ _ _ _ _
  | pack4 => exact nextOk_execPack4 hs _ _ _ _ _ _ _
  | split4 => exact nextOk_execSplit4 hs _ _ _ _ _
  | bra => exact nextOk_execBra hs _ _
  | jmpi => exact nextOk_execJmpi hs _ _
  | call => exact nextOk_execCall hs _ _ _
  | calli => exact nextOk_execCalli hs _ _ _
  | ret => exact nextOk_execRet hs _ _
  | relcall => exact nextOk_execRelcall hs _ _ _
  | tjoin => exact nextOk_execTjoin hs _
  | tend => exact nextOk_execTend hs _
  | exit => exact nextOk_execExit hs _
  | nop => exact nextOk_execNop hs _
  | yieldI => exact nextOk_execYieldI hs _
  | progress => exact nextOk_execProgress hs _
  | step => exact nextOk_execStep hs _ _
  | migrate => exact nextOk_execMigrate hs _ _ _
  | dqpush => exact nextOk_execDqpush hs _ _
  | dqpop => exact nextOk_execDqpop hs _ _
  | park => exact nextOk_execPark hs _
  | ld => exact nextOk_execLd hs _ _ _
  | st => exact nextOk_execSt hs _ _ _
  | ldx => exact nextOk_execLdx hs _ _ _ _
  | stx => exact nextOk_execStx hs _ _ _ _
  | pref => exact nextOk_execPref hs _ _
  | vset => exact nextOk_execVset hs _ _ _
  | vget => exact nextOk_execVget hs _ _ _
  | vld => exact nextOk_execVld hs _ _ _
  | atom => exact nextOk_execAtom hs _ _ _ _
  | atomr => exact nextOk_execAtomr hs _ _ _ _
  | cas => exact nextOk_execCas hs _ _ _
  | kcas2 => exact nextOk_execKcas2 hs _ _ _ _
  | kenq => exact nextOk_execKenq hs _ _ _
  | kdeq => exact nextOk_execKdeq hs _ _ _
  | kchase => exact nextOk_execKchase hs _ _ _ _
  | kchunk => exact nextOk_execKchunk hs _ _ _
  | fence => exact nextOk_execFence hs _ _ _ _
  | bar => exact nextOk_execBar hs _ _
  | bara => exact nextOk_execBara hs _ _ _
  | barw => exact nextOk_execBarw hs _ _ _
  | sarm => exact nextOk_execSarm hs _ _ _
  | swait => exact nextOk_execSwait hs _ _ _
  | sadd => exact nextOk_execSadd hs _ _ _
  | copy => exact nextOk_execCopy hs _ _ _ _ _ _ _ _
  | copym => exact nextOk_execCopym hs _ _ _ _ _ _ _ _ _ _
  | mmab => exact nextOk_execMmab hs _ _ _ _ _ _
  | scacc => exact nextOk_execScacc hs _ _ _ _ _ _ _
  | mload => exact nextOk_execMload hs _ _ _ _ _
  | mstore => exact nextOk_execMstore hs _ _ _ _ _ _ _ _
  | mzero => exact nextOk_execMzero hs _ _ _
  | tmma => exact nextOk_execTmma hs _ _ _ _ _
  | drun => exact nextOk_execDrun hs _ _ _ _
  | ecan => exact nextOk_execEcan hs _ _ _
  | trig => exact nextOk_execTrig hs _
  | spawn => exact nextOk_execSpawn hs _ _ _
  | trap => exact nextOk_execTrap hs _ _
  | svc => exact nextOk_execSvc hs _ _
  | eret => exact nextOk_execEret hs _
  | segset => exact nextOk_execSegset hs _ _ _
  | segget => exact nextOk_execSegget hs _ _ _
  | tlbinv => exact nextOk_execTlbinv hs _ _ _ _
  | shoot => exact nextOk_execShoot hs _ _ _ _ _ _ _
  | ldio => exact nextOk_execLdio hs _ _ _ _ _
  | stio => exact nextOk_execStio hs _ _ _ _ _
  | ctxsave => exact nextOk_execCtxsave hs _ _ _ _ _
  | ctxload => exact nextOk_execCtxload hs _ _ _ _ _
  | idle => exact nextOk_execIdle hs _ _ _
  | ckpt => exact nextOk_execCkpt hs _ _ _ _ _
  | ckptRb => exact nextOk_execCkptRb hs _ _ _ _ _
  | setperf => exact nextOk_execSetperf hs _ _
  | relcallRelease => exact nextOk_execRelcallRelease hs _
  | tendComplete => exact nextOk_execTendComplete hs _
  | exitDrainEnd => exact nextOk_execExitDrainEnd hs _
  | stepCommit => exact nextOk_execStepCommit hs _
  | migrateMove => exact nextOk_execMigrateMove hs _
  | dqEntryReleased => exact nextOk_execDqEntryReleased hs _
  | parkSelf => exact nextOk_execParkSelf hs _
  | kchaseHop => exact nextOk_execKchaseHop hs _
  | keeperOperation => exact nextOk_execKeeperOperation hs _
  | atomicAtHome => exact nextOk_execAtomicAtHome hs _
  | barrierInstanceComplete => exact nextOk_execBarrierInstanceComplete hs _ _ _ _
  | syncWordOperation => exact nextOk_execSyncWordOperation hs _
  | swaitReturn => exact nextOk_execSwaitReturn hs _
  | copyCommandRun => exact nextOk_execCopyCommandRun hs _ _ _
  | copySegmentLanded => exact nextOk_execCopySegmentLanded hs _ _ _
  | copymFollowOnPlace => exact nextOk_execCopymFollowOnPlace hs _ _
  | arrayCommandRun => exact nextOk_execArrayCommandRun hs _ _ _
  | engineCommandComplete => exact nextOk_execEngineCommandComplete hs _ _
  | engineHeldFaultResume => exact nextOk_execEngineHeldFaultResume hs _ _
  | docentProgramStart => exact nextOk_execDocentProgramStart hs _ _
  | docentYieldPoint => exact nextOk_execDocentYieldPoint hs _
  | docentEnd => exact nextOk_execDocentEnd hs _
  | docentMmab => exact nextOk_execDocentMmab hs _
  | docentScacc => exact nextOk_execDocentScacc hs _
  | docentMzero => exact nextOk_execDocentMzero hs _
  | docentMload => exact nextOk_execDocentMload hs _
  | docentMstore => exact nextOk_execDocentMstore hs _
  | docentCopy => exact nextOk_execDocentCopy hs _
  | docentLoop => exact nextOk_execDocentLoop hs _
  | docentSetl => exact nextOk_execDocentSetl hs _
  | docentSignal => exact nextOk_execDocentSignal hs _
  | continuationAccept => exact nextOk_execContinuationAccept hs _ _
  | taskCellStart => exact nextOk_execTaskCellStart hs _ _
  | accessionWatchdogExpiry => exact nextOk_execAccessionWatchdogExpiry hs _ _
  | svcComplete => exact nextOk_execSvcComplete hs _ _
  | shootdownComplete => exact nextOk_execShootdownComplete hs _
  | idleWake => exact nextOk_execIdleWake hs _ _
  | clauseFetch => exact nextOk_execClauseFetch hs _ _ _
  | clauseCacheFill => exact nextOk_execClauseCacheFill hs _ _ _
  | pick => exact fun _ ht => memOk_execPick hs _ _ ht
  | gangSwap => exact nextOk_execGangSwap hs _
  | neighbourReadArrival => exact nextOk_execNeighbourReadArrival hs _
  | neighbourReadResume => exact nextOk_execNeighbourReadResume hs _ _
  | parkTransferEnd => exact nextOk_execParkTransferEnd hs _ _
  | loadComplete => exact nextOk_execLoadComplete hs _
  | storePerformed => exact nextOk_execStorePerformed hs _
  | prefLineArrival => exact nextOk_execPrefLineArrival hs _ _
  | tlbWalkFill => exact nextOk_execTlbWalkFill hs _ _ _
  | asyncFaultTake => exact nextOk_execAsyncFaultTake hs _
  | ringRecordWrite => exact nextOk_execRingRecordWrite hs
  | actReplay => exact nextOk_execActReplay hs _
  | actDeliver => exact nextOk_execActDeliver hs _
  | actAbandon => exact nextOk_execActAbandon hs _
  | stopactTerminate => exact nextOk_execStopactTerminate hs _
  | stopactResume => exact nextOk_execStopactResume hs _
  | stopactResumeDeliver => exact nextOk_execStopactResumeDeliver hs _
  | contextSwitchOut => exact nextOk_execContextSwitchOut hs _ _
  | contextRestore => exact nextOk_execContextRestore hs _ _
  | docentOverrunExpiry => exact nextOk_execDocentOverrunExpiry hs _
  | watchdogNoProgress => exact nextOk_execWatchdogNoProgress hs _ _ _
  | watchdogNoRetire => exact nextOk_execWatchdogNoRetire hs _ _ _
  | notifyRegisterWrite => exact nextOk_execNotifyRegisterWrite hs _ _ _
  | packetAccept => exact nextOk_execPacketAccept hs _
  | launchPlacement => exact nextOk_execLaunchPlacement hs _
  | launchStart => exact nextOk_execLaunchStart hs _
  | dependantFail => exact nextOk_execDependantFail hs _
  | markerComplete => exact nextOk_execMarkerComplete hs _
  | launchCompletion => exact nextOk_execLaunchCompletion hs _
  | causalPacketSend => exact nextOk_execCausalPacketSend hs _
  | clockPacketArrival => exact nextOk_execClockPacketArrival hs _
  | baseAckArrival => exact nextOk_execBaseAckArrival hs _
  | sequencedPacketArrival => exact nextOk_execSequencedPacketArrival hs _
  | readRequestArrival => exact nextOk_execReadRequestArrival hs _
  | horizonQueryAnswer => exact nextOk_execHorizonQueryAnswer hs _
  | horizonAnswerArrival => exact nextOk_execHorizonAnswerArrival hs _
  | nackReceipt => exact nextOk_execNackReceipt hs _
  | nackResend => exact nextOk_execNackResend hs _ _
  | beaconArrival => exact nextOk_execBeaconArrival hs _
  | beaconAckArrival => exact nextOk_execBeaconAckArrival hs _
  | finalHorizonArrival => exact nextOk_execFinalHorizonArrival hs _
  | fieldDeath => exact nextOk_execFieldDeath hs _
  | causalReset => exact nextOk_execCausalReset hs
  | linkAckTimeout => exact nextOk_execLinkAckTimeout hs _
  | flitCrcFail => exact nextOk_execFlitCrcFail hs _
  | moduleTimeout => exact nextOk_execModuleTimeout hs _
  | podTimeout => exact nextOk_execPodTimeout hs _
  | poisonRead => exact nextOk_execPoisonRead hs _ _
  | peerRequestArrival => exact nextOk_execPeerRequestArrival hs _ _ _
  | peerAckArrival => exact nextOk_execPeerAckArrival hs _ _
  | rangeEntryWrite => exact nextOk_execRangeEntryWrite hs _
  | spanNeighbourRead => exact nextOk_execSpanNeighbourRead hs _ _ _ _ _ _
  | spanStepReport => exact nextOk_execSpanStepReport hs _ _ _
  | podBarrierCount => exact nextOk_execPodBarrierCount hs _ _ _
  | clientRmaWrite => exact nextOk_execClientRmaWrite hs _ _ _ _ _
  | clientRmaRead => exact nextOk_execClientRmaRead hs _ _ _ _ _
  | reqWrite => exact nextOk_execReqWrite hs _
  | heatWrite => exact nextOk_execHeatWrite hs _
  | evenThreshWrite => exact nextOk_execEvenThreshWrite hs _
  | flitEnqueue => exact nextOk_execFlitEnqueue hs _ _ _
  | flitStart => exact nextOk_execFlitStart hs _ _
  | ringLock => exact nextOk_execRingLock hs _ _ _
  | ringParkEnd => exact nextOk_execRingParkEnd hs _ _ _
  | ringLockTimeout => exact nextOk_execRingLockTimeout hs _ _ _
  | heaterRetune => exact nextOk_execHeaterRetune hs _ _ _ _ _
  | byteBudgetInterval => exact nextOk_execByteBudgetInterval hs
  | perfIntervalBoundary => exact nextOk_execPerfIntervalBoundary hs
  | perfStepSettle => exact nextOk_execPerfStepSettle hs _
  | evictionGo => exact nextOk_execEvictionGo hs _ _
  | evictionAbort => exact nextOk_execEvictionAbort hs _
  | lrpWrite => exact nextOk_execLrpWrite hs _
  | evictionQuiesced => exact nextOk_execEvictionQuiesced hs
  | evictionTransferred => exact nextOk_execEvictionTransferred hs
  | evictionTimeout => exact nextOk_execEvictionTimeout hs
  | circuitUp => exact nextOk_execCircuitUp hs _ _
  | fieldDrainCommand => exact nextOk_execFieldDrainCommand hs _
  | fieldForcedOffline => exact nextOk_execFieldForcedOffline hs _
  | fieldReturnOnline => exact nextOk_execFieldReturnOnline hs _
  | fieldDrainComplete => exact nextOk_execFieldDrainComplete hs _ _
  | appraiserReplay => exact nextOk_execAppraiserReplay hs
  | appraiserSuspectClear => exact nextOk_execAppraiserSuspectClear hs _
  | checkpointDue => exact nextOk_execCheckpointDue hs _ _
  | checkpointDuePop => exact nextOk_execCheckpointDuePop hs _
  | ioRegisterWrite => exact nextOk_execIoRegisterWrite hs _
  | moduleReset => exact nextOk_execModuleReset hs
  | bootImageVerify => exact nextOk_execBootImageVerify hs _ _ _
  | pldmFirmwareUpdate => exact nextOk_execPldmFirmwareUpdate hs _ _ _ _
  | spdmGetCertificate => exact nextOk_execSpdmGetCertificate hs
  | spdmChallenge => exact nextOk_execSpdmChallenge hs _
  | spdmGetMeasurements => exact nextOk_execSpdmGetMeasurements hs
  | gangSwapEnd => exact nextOk_execGangSwapEnd hs _
  | migrationResume => exact nextOk_execMigrationResume hs _
  | heldFetchServiced => exact nextOk_execHeldFetchServiced hs _ _ _
  | processorPageServiced => exact nextOk_execProcessorPageServiced hs _
  | queueRestart => exact nextOk_execQueueRestart hs _
  | serviceChannelMessage => exact nextOk_execServiceChannelMessage hs _ _ _
  | flitCreditReturn => exact nextOk_execFlitCreditReturn hs _ _ _
  | restripeMarkerArrival => exact nextOk_execRestripeMarkerArrival hs _ _
  | latchOpen => exact nextOk_execLatchOpen hs
  | linkReadmit => exact nextOk_execLinkReadmit hs _

/-! ## Turns -/

section
variable {s : State} (hs : s.mem.wf = true)
include hs

theorem nextOk_issueWord (w : Word64) : NextOk (issueWord s w) := by
  unfold issueWord
  split
  · next i _ =>
    have h := nextOk_exec hs i
    split
    · next ht =>
      rw [ht, nextOk_next] at h
      simp [h, hs]
    · simp
    · simp
  · simp

omit hs in
theorem nextOk_mapNext {f : State → State} {r : Result} (hf : ∀ t, t.mem.wf = true → (f t).mem.wf = true) (hr : NextOk r) :
    NextOk (mapNext f r) := by
  cases r with
  | next t => simpa [mapNext] using hf t (hr t rfl)
  | fault f => exact nextOk_fault
  | refused r => exact nextOk_refused

theorem nextOk_issueOne (core : Nat) : NextOk (issueOne s core) := by
  unfold issueOne
  split
  · simp [hs]
  · next s1 hb =>
    have h1 : s1.mem.wf = true := by rw [mem_beginMember hb, hs]
    split
    · simp
    · exact nextOk_mapNext (fun t ht => by simp [ht]) (nextOk_issueWord h1 _)

theorem nextOk_happen (i : Instr) : NextOk (happen i s) := by
  have h := nextOk_exec hs i
  unfold happen
  split
  · next ht =>
    rw [ht, nextOk_next] at h
    simp [hs, h]
  · simp
  · simp

theorem nextOk_takeTurn (t : Turn) : NextOk (takeTurn s t) := by
  cases t with
  | issue core => exact nextOk_issueOne hs _
  | happen i => exact nextOk_happen hs i
  | _ => simp [takeTurn, hs]

theorem nextOk_step : NextOk (step s) := by
  have ha : ∀ t : State, t.mem.wf = true → (afterTurn t).mem.wf = true := fun t ht => memOk_afterTurn ht
  unfold step nextTurn
  split
  · exact nextOk_mapNext ha (nextOk_takeTurn (by exact hs) _)
  · split
    · next t _ hp => simp [memOk_afterTurn (memOk_pickNow hs hp)]
    · exact nextOk_mapNext ha (nextOk_issueOne hs _)
    · simp [hs]

end

/-- Settles O60: no step writes memory but through `memWrite`, `memWriteN` and `copyPieces`, which keep the canonical form. -/
theorem memOkStep : Obligations.MemOkStep := fun _ t hs ht => nextOk_step hs t ht

end Sys2Proof.Proofs
end

section
/-!
PROOF. Accesses at issue (R171, R172, R181, R185, R189, R190, R275): element addresses, what enters, what the operand log takes, and the
forms of the instructions on an element of a view and on a raw address.
-/
set_option linter.constructorNameAsVariable false
namespace Sys2Proof.Proofs
open Sys2Proof.Machine Sys2Proof.Safety

/-! ## Element addresses (R171) -/

theorem elementAddress_inside {v : ViewBits} {size : Nat} {e : Int} (h : 0 ≤ e) (hn : e < View.count v) :
    elementAddress v size e = elementAt v size e.toNat := by
  unfold elementAddress
  rw [if_neg (by simp; omega)]

section
variable {v : ViewBits} {size : Nat} {e : Int} (h : e < 0 ∨ (View.count v : Int) ≤ e)
include h

theorem elementAddress_outside : elementAddress v size e =
    if View.bounds v == 0 then .bad 0x04 (BitVec.ofInt 32 e).toNat
    else if View.bounds v == 1 then elementAt v size (if e < 0 then 0 else View.count v - 1)
    else if View.bounds v == 2 then .outside
    else elementAt v size (e % (View.count v : Int)).toNat := by
  unfold elementAddress
  rw [if_pos (by simp; omega)]

end

/-! ## Tokens and what enters (R185) -/

theorem tokCount_setTok (m : Member) {code : Nat} (n : Nat) : tokCount (m.setTok code n) code = n := by
  unfold tokCount Member.setTok
  split
  · simp
  · rfl

theorem tokCount_setTok_other (m : Member) {code c : Nat} (n : Nat) (hc : c < 6) (h : c ≠ code) :
    tokCount (m.setTok code n) c = tokCount m c := by
  unfold tokCount Member.setTok
  rw [if_pos hc, if_pos hc]
  split
  · simp [List.getD_eq_getElem?_getD, Ne.symm h]
  · rfl

/-- An access of the issuing member that leaves it in its group, as every draft but SWAIT's is (R185). -/
structure OwnAccess (k : Cur) (m : Member) (tok : Nat) (a : Access) : Prop where
  member : a.member = k.member
  launch : a.launch = m.launch
  core : a.core = m.core
  tok : a.tok = tok
  slot : a.slot = k.slot
  stays : a.kind ≠ .swait

/-- A member once an access of it has entered. -/
def entered (m : Member) (tok : Nat) : Member := { m.setTok tok (tokCount m tok + 1) with seq := m.seq + 1 }

theorem entered_kept (m : Member) (tok : Nat) : (entered m tok).r = m.r ∧ (entered m tok).lat = m.lat ∧
    (entered m tok).seq = m.seq + 1 := by
  unfold entered Member.setTok
  split <;> exact ⟨rfl, rfl, rfl⟩

theorem tokCount_entered (m : Member) (tok : Nat) : tokCount (entered m tok) tok = tokCount m tok + 1 := tokCount_setTok ..

theorem tokCount_entered_other (m : Member) {tok n : Nat} (hn : n < 6) (h : n ≠ tok) : tokCount (entered m tok) n = tokCount m n :=
  tokCount_setTok_other _ _ hn h

theorem enterAccs_one {u : State} {k : Cur} {tok id : Nat} {a : Access} (h : a.kind ≠ .swait) :
    enterAccs u k tok [(id, a)] =
      updMember (tokInc { u with accs := tabPut u.accs id a } k.member tok) k.member fun m => { m with seq := m.seq + 1 } := by
  simp only [enterAccs, List.foldl_cons, List.foldl_nil]
  exact if_neg (by simpa using h)

section
variable {s u : State} {k : Cur} {m : Member} {tok : Nat} (hm : memberAt s k.member = some m)
include hm

theorem memberAt_enterAccs (hu : u.members = s.members) {id : Nat} {a : Access} (h : a.kind ≠ .swait) :
    memberAt (enterAccs u k tok [(id, a)]) k.member = some (entered m tok) := by
  have hk : memberAt { u with accs := tabPut u.accs id a } k.member = some m := by
    rw [← hm]
    exact congrArg (tabGet · k.member) hu
  rw [enterAccs_one h, memberAt_updMember_same, tokInc, memberAt_updMember_same, hk]
  simp only [Option.map_some, entered]
  unfold Member.setTok
  split <;> rfl

theorem enters_enterAccs (hmem : u.mem = s.mem) (hu : u.members = s.members) (ha : u.accs = s.accs) {a : Access} (ho : OwnAccess k m tok a)
    {id : Nat} {want : Nat → Member → Access → Prop} (hw : want id (entered m tok) a) :
    Enters s (enterAccs u k tok [(id, a)]) k m tok want := by
  obtain ⟨hr, hlat, hseq⟩ := entered_kept m tok
  have hput : (enterAccs u k tok [(id, a)]).accs = tabPut s.accs id a := by
    rw [enterAccs_one ho.stays, ← ha]
    rfl
  refine ⟨fun p => by rw [mem_enterAccs, hmem], fun n hn => ?_, id, a, entered m tok, ?_, fun n hn => ?_, ho.member, ho.launch, ho.core,
    ho.tok, ho.slot, memberAt_enterAccs hm hu ho.stays, hr, hlat, hseq, tokCount_entered ..,
    fun n hn h => tokCount_entered_other m hn h, hw⟩
  · rw [enterAccs_one ho.stays, memberAt_updMember_other _ _ hn, tokInc, memberAt_updMember_other _ _ hn]
    exact congrArg (tabGet · n) hu
  · rw [hput, tabGet_tabPut_same]
  · rw [hput, tabGet_tabPut_other _ _ hn]

end

/-! ## What a check of an address leaves (R172) -/

section
variable {s u : State} (hw : WalksOnly s u)
include hw

theorem memberAt_of_walks (n : Nat) : memberAt u n = memberAt s n := congrArg (tabGet · n) hw.members

theorem ctxAt_of_walks (l c : Nat) : ctxAt u l c = ctxAt s l c := congrArg (tabGet · _) hw.ctxs

theorem log_of_walks (g : Nat) : (coreAt u g).log = (coreAt s g).log := by rw [hw.core]

theorem isRouted_of_walks (m : Member) (cause : Nat) : isRouted u m cause = isRouted s m cause := by
  simp only [isRouted, trapEntryOf, ctxAt_of_walks hw]

theorem isHeldBehind_of_walks (m : Member) (a : Access) : isHeldBehind u m a = isHeldBehind s m a := by
  simp only [isHeldBehind, ownAccs, isHeld, hw.accs, log_of_walks hw]

theorem heldCount_of_walks (id : Nat) (m : Member) : heldCount u id m = heldCount s id m := by
  simp only [heldCount, ownAccs, hw.accs, isHeldBehind_of_walks hw]

/-! ## Accesses and faults at issue (R181, R185, R275) -/

variable {k : Cur} {m : Member} {tok : Nat} (hm : memberAt s k.member = some m) {a : Access} (ho : OwnAccess k m tok a)
include hm ho

/-- An access for which there is room enters. -/
theorem enters_issueAcc (ht : tokCount m tok < 255) (hh : heldCount s k.member m < 8) {want : Nat → Member → Access → Prop}
    (hwant : ∀ id v, want id v (a.withNeed u m)) : Enters s (issueAcc u k a) k m tok want := by
  have hissue : issueAcc u k a = enterAccs (freshId u).2 k a.tok [(u.sched.nextId, a.withNeed u m)] := by
    have h1 : ¬ tokCount m a.tok ≥ Config.tokenMax := by
      rw [ho.tok]
      exact Nat.not_le.mpr ht
    have h2 : ¬ heldCount u k.member m ≥ 8 := by
      rw [heldCount_of_walks hw]
      omega
    unfold issueAcc issueAccs
    simp only [(memberAt_of_walks hw k.member).trans hm, if_neg h1, h2, decide_false, Bool.and_false]
    rfl
  have hn : (a.withNeed u m).tok = a.tok ∧ OwnAccess k m tok (a.withNeed u m) := by
    unfold Access.withNeed
    split
    · exact ⟨rfl, ho.member, ho.launch, ho.core, ho.tok, ho.slot, ho.stays⟩
    · exact ⟨rfl, ho⟩
  rw [hissue, ho.tok]
  exact enters_enterAccs (u := (freshId u).2) hm hw.mem hw.members hw.accs hn.2 (hwant ..)

/-- A fault that the operand log takes. -/
theorem loggedAs_logAccess {cause rec_ detail own : Nat} {addr : Word64} (hc : a.heldCause = cause) (ha : a.addr = addr)
    (ht : tokCount m tok < 255) (hf : firstFree (coreAt s m.core).log 64 0 < 64) :
    LoggedAs s (logAccess u k a [] addr rec_ detail own) k m tok cause rec_ detail addr := by
  have h1 : ¬ tokCount m a.tok ≥ Config.tokenMax := by
    rw [ho.tok]
    exact Nat.not_le.mpr ht
  have hlog := log_of_walks hw m.core
  have h2 : ¬ firstFree (coreAt u m.core).log Config.logDepth 0 ≥ Config.logDepth := by
    rw [hlog]
    exact Nat.not_le.mpr hf
  have hout : logAccess u k a [] addr rec_ detail own =
      enterAccs (updCore (sendRecord (freshId u).2 (faultRecord u m (issueFault k rec_ detail addr) rec_ detail)) m.core fun v =>
        { v with log := tabPut v.log (firstFree (coreAt s m.core).log 64 0) (logEntryOf u m u.sched.nextId { a with addr := addr } own) })
        k tok [(u.sched.nextId, { a with phase := .logged })] := by
    unfold logAccess
    simp only [(memberAt_of_walks hw k.member).trans hm, if_neg h1, if_neg h2, List.foldl_nil]
    rw [ho.tok, hlog]
    rfl
  have hcore : ∀ (v : State) (e : Nat × Access), e.2.kind ≠ .swait → (coreAt (enterAccs v k tok [e]) m.core).log = (coreAt v m.core).log ∧
      (enterAccs v k tok [e]).mod = v.mod := by
    intro v e he
    rw [enterAccs_one he]
    exact ⟨rfl, rfl⟩
  have ho' : OwnAccess k m tok { a with phase := .logged } := ⟨ho.member, ho.launch, ho.core, ho.tok, ho.slot, ho.stays⟩
  rw [hout]
  refine ⟨enters_enterAccs hm (by simpa using hw.mem) (by exact hw.members) (by exact hw.accs) ho' ⟨rfl, hc, ha,
    logEntryOf u m u.sched.nextId { a with addr := addr } own, ?_, rfl, ho.member, rfl, hc, rfl⟩, ?_⟩
  · rw [(hcore _ _ ho'.stays).1, coreAt_updCore_same]
    exact congrArg (tabPut · _ _) hlog
  · refine ⟨faultRecord u m (issueFault k rec_ detail addr) rec_ detail, ?_, rfl, rfl, rfl, rfl⟩
    rw [(hcore _ _ ho'.stays).2]
    exact congrArg (·.recBuf ++ _) hw.mod

theorem logged_holdAccess {cause : Nat} {addr : Word64} (ht : tokCount m tok < 255) (hf : firstFree (coreAt s m.core).log 64 0 < 64) :
    Logged s (holdAccess u k a [] cause addr) k m tok cause addr :=
  loggedAs_logAccess hw hm (a := { a with addr := addr, heldCause := cause })
    ⟨ho.member, ho.launch, ho.core, ho.tok, ho.slot, ho.stays⟩ rfl rfl ht hf

/-- A check that has failed is routed or taken. -/
theorem checkFails_failAccess {cause detail : Nat} {addr : Word64} {early : Bool} {out : Host.Outcome State Fault Refusal}
    (hout : out = .next (failAccess u k a [] cause detail addr early)) : CheckFails s u k m tok cause detail addr out := by
  have hu := (memberAt_of_walks hw k.member).trans hm
  refine ⟨fun h => ?_, fun htrap hr ht hf => ⟨_, hout, ?_⟩⟩
  · have hn : ¬ (!m.trapMode && isRouted u m cause) = true := by
      rw [isRouted_of_walks hw]
      rcases h with h | h <;> simp [h]
    rw [hout, failAccess]
    simp only [hu, if_neg hn]
  · rw [failAccess]
    simp only [hu, htrap, isRouted_of_walks hw, hr, Bool.not_false, Bool.and_self, if_true]
    exact loggedAs_logAccess hw hm
      (a := { a with addr := addr, heldCause := 0x80 + cause, bad := if early then some (cause, detail) else none })
      ⟨ho.member, ho.launch, ho.core, ho.tok, ho.slot, ho.stays⟩ rfl rfl ht hf

end

/-! ## Where an access goes (R172) -/

section
variable {s : State} {m : Member} {need : Need} {size align : Nat} {addr : Word64}

theorem aimAt_misaligned (h : addr.toNat % align ≠ 0) : aimAt s m need size align addr = (.bad 0x05 0 addr true, s) := by
  unfold aimAt
  rw [if_pos (by simpa using h)]

variable {ctx : Ctx} (ha : addr.toNat % align = 0) (hc : ctxAt s m.launch m.core = some ctx)
include ha hc

theorem aimAt_found {r : Resolved} (h : (resolve s ctx m.core m.home false need addr size).1 = .ok r) :
    aimAt s m need size align addr = (.to addr r, (resolve s ctx m.core m.home false need addr size).2) := by
  unfold aimAt
  rw [if_neg (by simpa using ha)]
  simp only [hc]
  rcases hr : resolve s ctx m.core m.home false need addr size with ⟨tr, u⟩
  rw [hr] at h
  cases h
  rfl

theorem aimAt_held {cause : Nat} (h : (resolve s ctx m.core m.home false need addr size).1 = .held cause) :
    aimAt s m need size align addr = (.held cause addr, (resolve s ctx m.core m.home false need addr size).2) := by
  unfold aimAt
  rw [if_neg (by simpa using ha)]
  simp only [hc]
  rcases hr : resolve s ctx m.core m.home false need addr size with ⟨tr, u⟩
  rw [hr] at h
  cases h
  rfl

theorem aimAt_bad {cause detail : Nat} (h : (resolve s ctx m.core m.home false need addr size).1 = .bad cause detail) :
    aimAt s m need size align addr = (.bad cause detail addr false, (resolve s ctx m.core m.home false need addr size).2) := by
  unfold aimAt
  rw [if_neg (by simpa using ha)]
  simp only [hc]
  rcases hr : resolve s ctx m.core m.home false need addr size with ⟨tr, u⟩
  rw [hr] at h
  cases h
  rfl

end

/-- What an access does with what the checks of its address find; `outside` is what an element outside a view gives. -/
def onAim (k : Cur) (b : Access) (outside : State → State) (p : Aim × State) : State :=
  match p with
  | (.to addr r, s1) => issueAcc s1 k (b.aimed addr r)
  | (.outside, s1) => outside s1
  | (.held c addr, s1) => holdAccess s1 k b [] c addr
  | (.bad x d addr early, s1) => failAccess s1 k b [] x d addr early

section
variable {s : State} {k : Cur} {m : Member} (hm : memberAt s k.member = some m) {tok : Nat} {b : Access} (ho : OwnAccess k m tok b)
  {need : Need} {size align : Nat} {addr : Word64} {outside : State → State} {out : Host.Outcome State Fault Refusal}
  (hout : out = .next (onAim k b outside (aimAt s m need size align addr)))
include hm ho hout

/-- An address that is not aligned (R172). -/
theorem checkFails_onAim (h : addr.toNat % align ≠ 0) : CheckFails s s k m tok 0x05 0 addr out := by
  rw [aimAt_misaligned h] at hout
  exact checkFails_failAccess (.refl s) hm ho hout

/-- An aligned address by what its translation finds (R172, R173, R181). -/
theorem resolves_onAim {ctx : Ctx} (ha : addr.toNat % align = 0) (hc : ctxAt s m.launch m.core = some ctx)
    {want : Resolved → Nat → Member → Access → Prop}
    (hwant : ∀ r id v need', want r id v { b.aimed addr r with need := need' }) :
    Resolves s k m ctx tok need addr size out fun r t => Enters s t k m tok (want r) where
  bad cause detail h := by
    rw [aimAt_bad ha hc h] at hout
    exact checkFails_failAccess (walksOnly_resolve ..) hm ho hout
  held cause h ht hf := by
    rw [aimAt_held ha hc h] at hout
    exact ⟨_, hout, logged_holdAccess (walksOnly_resolve ..) hm ho ht hf⟩
  found r h ht hh := by
    rw [aimAt_found ha hc h] at hout
    have ho' : OwnAccess k m tok (b.aimed addr r) := ⟨ho.member, ho.launch, ho.core, ho.tok, ho.slot, ho.stays⟩
    refine ⟨_, hout, enters_issueAcc (walksOnly_resolve ..) hm ho' ht hh fun id v => ?_⟩
    unfold Access.withNeed
    split
    · exact hwant ..
    · exact hwant r id v b.need

end

/-! ## The form of the memory instructions (R55, R172, R275) -/

/-- The first of two checks that fails. -/
def firstOf (a b : Option Nat) : Option Nat :=
  match a with
  | some x => some x
  | none => b

section
variable {s : State} {k : Cur} {m : Member} (hi : Issuing s k m) {c : Common} {ty : Ty} {off : Src} {checks : Member → Option Nat}
  {draft : Cur → Member → Access} {run : Cur → Member → Access → Word64 → State}
include hi

theorem accessForm_eq : accessForm s c ty off checks draft run =
    match firstOf (srcFault m ty off) (checks m) with
    | some cause => .next (failAccess s k (draft k m) [] cause (if cause == 0x01 then k.slot else 0) 0 true)
    | none =>
      if m.r.getP c.guard == c.sense then .next s
      else
        match readSrc s m ty off with
        | .away d f t a => .next (leaveForNbr s k m d f t a)
        | .val v => .next (run k m (draft k m) v) := by
  simp only [accessForm, onIssuing, hi.cur, hi.member]
  rfl

theorem accessForm_fails {x : Nat} (h : firstOf (srcFault m ty off) (checks m) = some x) :
    accessForm s c ty off checks draft run = .next (failAccess s k (draft k m) [] x (if x = 0x01 then k.slot else 0) 0 true) := by
  simp only [accessForm_eq hi, h, beq_iff_eq]

theorem accessForm_off (h : firstOf (srcFault m ty off) (checks m) = none) (hoff : Off m c) :
    accessForm s c ty off checks draft run = .next s := by
  simp only [accessForm_eq hi, h]
  exact if_pos (by simpa using hoff)

theorem accessForm_runs (h : firstOf (srcFault m ty off) (checks m) = none) (hr : Runs m c) {x : Word64}
    (hx : readSrc s m ty off = .val x) : accessForm s c ty off checks draft run = .next (run k m (draft k m) x) := by
  simp only [accessForm_eq hi, h, hx]
  exact if_neg (by simpa using hr)

end

/-! ## Access to one element of a view (R171, R172) -/

/-- A form fills operands into its access: data, destination and parameter. -/
def FillsOperands (fill : Member → Access → Access) : Prop :=
  ∀ m a, fill m a =
    { a with data := (fill m a).data, data2 := (fill m a).data2, dest := (fill m a).dest, param := (fill m a).param }

/-- The operands of two accesses agree. -/
def SameOperands (a b : Access) : Prop := a.data = b.data ∧ a.data2 = b.data2 ∧ a.dest = b.dest ∧ a.param = b.param

/-- An access of the issuing member before its address is known: what its instruction's word gives it. -/
structure Drafted (k : Cur) (m : Member) (kind : AccKind) (o : MemOp) (a : Access) : Prop where
  own : OwnAccess k m o.tok.toNat a
  kind : a.kind = kind
  phase : a.phase = .issued
  acq : a.acq = (o.order == .acq || o.order == .ar)
  rel : a.rel = (o.order == .rel || o.order == .ar)
  scope : a.scope = o.scope
  value : a.value = 0

section
variable {k : Cur} {m : Member} {kind : AccKind} {o : MemOp}

theorem drafted_draftM (s : State) (h : kind ≠ .swait) (f : Fmt) : Drafted k m kind o { draftM s k m kind o with fmt := f } :=
  ⟨⟨rfl, rfl, rfl, rfl, rfl, h⟩, rfl, rfl, rfl, rfl, rfl, rfl⟩

theorem drafted_as {a : Access} (h : Drafted k m kind o a) (f : Fmt) (n : Nat) : Drafted k m kind o { a with fmt := f, size := n } :=
  ⟨⟨h.own.member, h.own.launch, h.own.core, h.own.tok, h.own.slot, h.own.stays⟩, h.kind, h.phase, h.acq, h.rel, h.scope, h.value⟩

theorem drafted_fill {fill : Member → Access → Access} (hf : FillsOperands fill) {a : Access} (h : Drafted k m kind o a) (m' : Member) :
    Drafted k m kind o (fill m' a) := by
  rw [hf]
  exact ⟨⟨h.own.member, h.own.launch, h.own.core, h.own.tok, h.own.slot, h.own.stays⟩, h.kind, h.phase, h.acq, h.rel, h.scope, h.value⟩

theorem aimed_of_drafted {a : Access} (h : Drafted k m kind o a) (addr : Word64) (r : Resolved) (need : List Nat) {f : Fmt} {n : Nat}
    (hf : a.fmt = f) (hn : a.size = n) : Aimed o addr r f n kind { a.aimed addr r with need := need } :=
  ⟨h.kind, rfl, rfl, rfl, hf, hn, h.phase, h.acq, h.rel, h.scope⟩

end

theorem viewFmt_eq_none {v : ViewBits} {accepts : Fmt → Bool}
    (h : ∀ f, View.valid v = true → fmtOfCode (View.fmt v) = some f → accepts f = false) : viewFmt v accepts = none := by
  unfold viewFmt
  split
  · next hv =>
    split
    · next f hf => rw [h f hv hf]; rfl
    · rfl
  · rfl

theorem viewFmt_eq_some {v : ViewBits} {accepts : Fmt → Bool} {f : Fmt} (hv : View.valid v = true)
    (hf : fmtOfCode (View.fmt v) = some f) (ha : accepts f = true) : viewFmt v accepts = some f := by
  simp [viewFmt, hv, hf, ha]

theorem accessElement_eq {s : State} {k : Cur} {m : Member} {v : ViewBits} {accepts : Fmt → Bool} {need : Need} {span : Nat → Nat × Nat}
    {e : Int} {a : Access} {fill : Access → Access} {f : Fmt} (h : viewFmt v accepts = some f) :
    accessElement s k m v accepts need span e a fill =
      onAim k (fill { a with fmt := f, size := (span (fmtSize f)).1 })
        (fun t => retireAcc (writeBack t (fill { a with fmt := f, size := (span (fmtSize f)).1 }))
          (fill { a with fmt := f, size := (span (fmtSize f)).1 }))
        (aimElement s m v need (fmtSize f) (span (fmtSize f)).1 (span (fmtSize f)).2 e) := by
  unfold accessElement
  simp only [h]
  rfl

theorem memberAt_retireAcc (s : State) (a : Access) (n : Nat) : memberAt (retireAcc s a) n = memberAt s n := by
  unfold retireAcc
  (repeat' split) <;> simp

theorem accs_retireAcc (s : State) (a : Access) : (retireAcc s a).accs = s.accs := by
  have h : ∀ id cat w, (retireAs s id cat w).accs = s.accs := fun id cat w => by rw [(retireAs_units s id cat w).1]
  unfold retireAcc
  (repeat' split) <;> simp [h]

/-- An instruction that writes its member's registers back and retires has made no access (R171). -/
theorem noAccess_retireAcc {s u : State} {k : Cur} {m v : Member} {a : Access} (h : OnlyMember s u k.member v) {regs : Regs → Regs}
    (hr : v.r = regs m.r) (ht : v.tok = m.tok) (hw : v.wait = m.wait) : NoAccess s (retireAcc u a) k m regs := by
  refine ⟨fun p => ?_, ?_, fun n hn => ?_, v, ?_, hr, ht, hw⟩
  · rw [mem_retireAcc]
    exact h.memory p
  · rw [accs_retireAcc, h.rest]
  · rw [memberAt_retireAcc, h.others n hn]
  · rw [memberAt_retireAcc, h.member]

/-- The form of an instruction on one element of a view, other than SWAIT's. `hzeros` says what its access gives where it is not made. -/
theorem viewAccess_viewForm {mk : Common → Instr} {o : MemOp} {disp : Int} {kind : AccKind} {check : Member → ViewBits → Option Nat}
    {accepts : Fmt → Bool} {need : Need} {span : Nat → Nat × Nat} {fill : Member → Access → Access}
    {want : Cur → Member → Fmt → Nat → Member → Access → Prop} {zeros : Fmt → Regs → Regs}
    (hexec : ∀ c s, exec (mk c) s = viewForm s c o disp kind check accepts need span fill) (hk : kind ≠ .swait) (hfill : FillsOperands fill)
    (hwant : ∀ k m f id v (a b : Access), a.fmt = f → SameOperands b (fill m a) → want k m f id v b)
    (hzeros : ∀ (s : State) (m : Member) (f : Fmt) (a : Access), memberAt s a.member = some m → a.kind = kind → a.fmt = f →
      a.size = (span (fmtSize f)).1 → a.value = 0 → ∃ v, OnlyMember s (writeBack s (fill m a)) a.member v ∧ v.r = zeros f m.r ∧
        v.tok = m.tok ∧ v.wait = m.wait) :
    ViewAccess mk o disp kind check accepts need span want zeros := by
  intro s k m c hi
  dsimp only
  have hdraft := drafted_fill hfill (drafted_draftM (k := k) (m := m) (o := o) s hk (draftFmt (viewAt s m.core o.view.toNat))) m
  refine ⟨fun x hx => ?_, fun h hoff => ?_, fun h hr x hx => ?_⟩
  · exact checkFails_failAccess (.refl s) hi.member hdraft.own ((hexec c s).trans (accessForm_fails hi hx))
  · exact (hexec c s).trans (accessForm_off hi (checks := fun m => check m (viewAt s m.core o.view.toNat)) h hoff)
  have hrun := (hexec c s).trans (accessForm_runs hi (checks := fun m => check m (viewAt s m.core o.view.toNat)) h hr hx)
  refine ⟨fun hf => ?_, fun f hv hf ha => ?_⟩
  · rw [accessElement] at hrun
    simp only [viewFmt_eq_none hf] at hrun
    exact checkFails_failAccess (.refl s) hi.member hdraft.own hrun
  rw [accessElement_eq (viewFmt_eq_some hv hf ha), aimElement, elementIndex] at hrun
  have ha := drafted_as hdraft f (span (fmtSize f)).1
  generalize hx : ({ fill m { draftM s k m kind o with fmt := draftFmt (viewAt s m.core o.view.toNat) } with
    fmt := f, size := (span (fmtSize f)).1 } : Access) = a at ha hrun
  have hfs : a.fmt = f ∧ a.size = (span (fmtSize f)).1 := by rw [← hx]; exact ⟨rfl, rfl⟩
  have hbs : (fill m a).fmt = f ∧ (fill m a).size = (span (fmtSize f)).1 := by rw [hfill]; exact hfs
  have hb := drafted_fill hfill ha m
  refine ⟨fun he => ?_, fun cause detail he => ?_, fun addr he => ?_⟩ <;> simp only [he] at hrun
  · obtain ⟨v, hv, hregs, htok, hwait⟩ := hzeros s m f a (ha.own.member ▸ hi.member) ha.kind hfs.1 hfs.2 ha.value
    rw [ha.own.member] at hv
    exact ⟨_, hrun, noAccess_retireAcc hv hregs htok hwait⟩
  · exact checkFails_failAccess (.refl s) hi.member hb.own hrun
  · exact ⟨fun hal => checkFails_onAim hi.member hb.own hrun hal, fun hal ctx hc => resolves_onAim hi.member hb.own hrun hal hc
      fun r id v need' => ⟨aimed_of_drafted hb addr r need' hbs.1 hbs.2, hwant k m f id v a _ hfs.1 ⟨rfl, rfl, rfl, rfl⟩⟩⟩

/-! ## Raw addresses (R190) -/

/-- An access to a raw space address, as the obligation says it. -/
def RawAccess (mk : Common → Instr) (d : Dst) (w : Fmt) (o : MemOp) (kind : AccKind) (need : Need) (want : Member → Access → Prop) : Prop :=
  ∀ (s : State) (k : Cur) (m : Member) (c : Common) (x : Word64) (ctx : Ctx), Issuing s k m → ctxAt s m.launch m.core = some ctx →
    let first := firstOf (srcFault m .w64 o.off) (dstFault m (fmtSize w == 8) d)
    (∀ x, first = some x → CheckFails s s k m o.tok.toNat x (if x = 0x01 then k.slot else 0) 0 (exec (mk c) s)) ∧
    (first = none → Off m c → exec (mk c) s = .next s) ∧
    (first = none → Runs m c → readSrc s m .w64 o.off = .val x →
      let addr := x + o.disp.signExtend 64
      (addr.toNat % fmtSize w ≠ 0 → CheckFails s s k m o.tok.toNat 0x05 0 addr (exec (mk c) s)) ∧
      (addr.toNat % fmtSize w = 0 →
        (4 < addr.toNat / 2 ^ 60 → CheckFails s s k m o.tok.toNat 0x03 (addr.toNat / 2 ^ 60) addr (exec (mk c) s)) ∧
        Resolves s k m ctx o.tok.toNat need addr (fmtSize w) (exec (mk c) s) fun r t =>
          Enters s t k m o.tok.toNat (fun _ _ a => Aimed o addr r w (fmtSize w) kind a ∧ want m a)))

/-- A space number that R167 reserves fails the check of the segment. -/
theorem resolve_reserved (s : State) (ctx : Ctx) (core home : Nat) (ahead : Bool) (need : Need) {addr : Word64} (size : Nat)
    (h : 4 < addr.toNat / 2 ^ 60) : resolve s ctx core home ahead need addr size = (.bad 0x03 (addr.toNat / 2 ^ 60), s) := by
  unfold resolve resolveIn
  exact if_pos h

theorem rawAccess_rawForm {mk : Common → Instr} {d : Dst} {w : Fmt} {o : MemOp} {kind : AccKind} {need : Need}
    {fill : Member → Access → Access} {want : Member → Access → Prop} (hexec : ∀ c s, exec (mk c) s = rawForm s c w d o kind need fill)
    (hk : kind ≠ .swait) (hfill : FillsOperands fill)
    (hwant : ∀ m (a b : Access), a.fmt = w → SameOperands b (fill m a) → want m b) : RawAccess mk d w o kind need want := by
  intro s k m c x ctx hi hctx
  dsimp only
  have ha : Drafted k m kind o { draftM s k m kind o with fmt := w, size := fmtSize w } := drafted_as (drafted_draftM s hk w) w (fmtSize w)
  have hb := drafted_fill hfill ha m
  refine ⟨fun x hx => ?_, fun h hoff => ?_, fun h hr hx => ?_⟩
  · exact checkFails_failAccess (.refl s) hi.member hb.own ((hexec c s).trans (accessForm_fails hi hx))
  · exact (hexec c s).trans (accessForm_off hi (checks := fun m => dstFault m (fmtSize w == 8) d) h hoff)
  have hrun : exec (mk c) s = .next (onAim k (fill m { draftM s k m kind o with fmt := w, size := fmtSize w }) id
      (aimAt s m need (fmtSize w) (fmtSize w) (x + o.disp.signExtend 64))) :=
    (hexec c s).trans (accessForm_runs hi (checks := fun m => dstFault m (fmtSize w == 8) d) h hr hx)
  refine ⟨fun hal => checkFails_onAim hi.member hb.own hrun hal, fun hal => ⟨fun hsp => ?_, ?_⟩⟩
  · have hres := resolve_reserved s ctx m.core m.home false need (fmtSize w) hsp
    have hbad := (resolves_onAim hi.member hb.own hrun hal hctx (want := fun _ _ _ _ => True) fun _ _ _ _ => trivial).bad 0x03
      ((x + o.disp.signExtend 64).toNat / 2 ^ 60) (by rw [hres])
    rwa [hres] at hbad
  · have hfs : (fill m { draftM s k m kind o with fmt := w, size := fmtSize w }).fmt = w ∧
        (fill m { draftM s k m kind o with fmt := w, size := fmtSize w }).size = fmtSize w := by
      rw [hfill]
      exact ⟨rfl, rfl⟩
    exact resolves_onAim hi.member hb.own hrun hal hctx fun r id v need' =>
      ⟨aimed_of_drafted hb _ r need' hfs.1 hfs.2, hwant m
    { draftM s k m kind o with fmt := w, size := fmtSize w } _ rfl ⟨rfl, rfl, rfl, rfl⟩⟩

/-! ## LD, ST, LDX and STX -/

/-- The data of a store is its register narrowed to the element (R189). -/
theorem storeData_toNat (m : Member) (f : Fmt) (d : Dst) :
    (storeData m f d).toNat = (dstValue m (fmtSize f == 8) d).toNat % 2 ^ (8 * fmtSize f) := by
  rw [storeData, narrow, BitVec.toNat_ofNat]
  exact Nat.mod_eq_of_lt ((Nat.mod_le _ _).trans_lt (BitVec.isLt _))

theorem widen_zero (f : Fmt) : widen f 0 = 0 := by cases f <;> rfl

theorem writeBack_load {s : State} {a : Access} (h : a.kind = .load) :
    writeBack s a = writeDst s a.member (a.size == 8) (widen a.fmt a.value.toNat) a.dest := by
  unfold writeBack
  rw [h]

theorem writeBack_store {s : State} {a : Access} (h : a.kind = .store) : writeBack s a = s := by
  unfold writeBack
  rw [h]

theorem viewAccess_ld (d : Dst) (o : MemOp) :
    ViewAccess (.ld · d o) o o.disp.toInt .load (fun m v => dstFault m (viewElemSize v == 8) d) (fun _ => true) Need.load
      (fun n => (n, n)) (fun _ _ _ _ _ a => a.dest = d) (fun f r => afterResult r d (fmtSize f == 8) 0) := by
  refine viewAccess_viewForm (fill := fun _ a => { a with dest := d }) (fun _ _ => rfl) (by decide) (fun _ _ => rfl)
    (fun _ _ _ _ _ _ _ _ h => h.2.2.1) fun s m f a hm hk hf hn hv => ?_
  obtain ⟨v, hv1, hv2, hv3, -⟩ := onlyMember_writeDst hm (a.size == 8) 0 d
  refine ⟨v, ?_, ?_, by rw [hv2], by rw [hv2]⟩
  · have hw : writeBack s { a with dest := d } = writeDst s a.member (a.size == 8) 0 d := by
      refine (writeBack_load (a := { a with dest := d }) hk).trans ?_
      exact congrArg (writeDst s a.member (a.size == 8) · d) (by rw [hv]; exact widen_zero a.fmt)
    rwa [hw]
  · rw [hv3, hn]

theorem viewAccess_st (d : Dst) (o : MemOp) :
    ViewAccess (.st · d o) o o.disp.toInt .store (fun m v => dstFault m (viewElemSize v == 8) d) (fun _ => true) Need.store
      (fun n => (n, n)) (fun _ m f _ _ a => a.data.toNat = (dstValue m (fmtSize f == 8) d).toNat % 2 ^ (8 * fmtSize f)) (fun _ r => r) := by
  refine viewAccess_viewForm (fill := fun m a => { a with data := storeData m a.fmt d }) (fun _ _ => rfl) (by decide) (fun _ _ => rfl)
    (fun _ m f _ _ a b ha h => ?_) fun s m f a hm hk hf hn hv => ⟨m, ?_, rfl, rfl, rfl⟩
  · rw [h.1, ← ha]
    exact storeData_toNat ..
  · rw [writeBack_store (a := { a with data := storeData m a.fmt d }) hk]
    exact .same hm

/-- Settles O14: element addresses by the cases of `elementAddress`; a form by its checks, its guard and what the checks of its address
find. -/
theorem accessIssue : Obligations.AccessIssue := by
  refine ⟨fun v size e => ⟨fun h hn => elementAddress_inside h hn, fun h => ?_⟩, fun d o => ⟨viewAccess_ld d o, viewAccess_st d o⟩,
    fun d w o => ⟨?_, ?_⟩⟩
  · have he := elementAddress_outside (size := size) h
    exact ⟨fun hb => by rw [he, hb]; rfl, fun hb => by rw [he, hb]; rfl, fun hb => by rw [he, hb]; rfl, fun hb => by rw [he, hb]; rfl⟩
  · exact rawAccess_rawForm (fill := fun _ a => { a with dest := d }) (fun _ _ => rfl) (by decide) (fun _ _ => rfl) fun _ _ _ _ h => h.2.2.1
  · exact rawAccess_rawForm (fill := fun m a => { a with data := storeData m a.fmt d }) (fun _ _ => rfl) (by decide) (fun _ _ => rfl)
      fun m a b ha h => by rw [h.1, ← ha]; exact storeData_toNat ..

end Sys2Proof.Proofs
end

section
/-!
PROOF. The end of an access (R143, R182, R185, R245): what it leaves of accesses, operand logs and members, and the completion of a register
write.
-/
set_option linter.constructorNameAsVariable false
namespace Sys2Proof.Proofs
open Sys2Proof.Machine Sys2Proof.Safety

/-! ## What the end of an access does to members -/

/-- The waits that a clause boundary gives (R110, R118, R143). -/
def AtBoundary (w : Wait) : Prop := w = .ready ∨ (∃ ts, w = .frameJoin ts) ∨ (∃ c a, w = .drain (.migrate c a)) ∨ w = .drain .park

theorem atBoundary_boundaryWait (m : Member) (ts : List Nat) : AtBoundary (m.boundaryWait ts) := by
  unfold Member.boundaryWait
  split
  · exact .inr (.inr (.inl ⟨_, _, rfl⟩))
  · split
    · exact .inr (.inl ⟨_, rfl⟩)
    · split
      · exact .inr (.inr (.inr rfl))
      · exact .inl rfl

theorem AtBoundary.ne_eret {w : Wait} (h : AtBoundary w) : w ≠ .drain .eret := by
  rcases h with rfl | ⟨_, rfl⟩ | ⟨_, _, rfl⟩ | rfl <;> nofun

theorem AtBoundary.ne_inactive {w : Wait} (h : AtBoundary w) : w ≠ .inactive := by
  rcases h with rfl | ⟨_, rfl⟩ | ⟨_, _, rfl⟩ | rfl <;> nofun

theorem AtBoundary.ne_swait {w : Wait} (h : AtBoundary w) (id : Nat) : w ≠ .swait id := by
  rcases h with rfl | ⟨_, rfl⟩ | ⟨_, _, rfl⟩ | rfl <;> nofun

/-- The members whose wait the end of an access may change: they wait for a log entry or behind a full buffer, or tails stand open before
their next clause (R143, R182). -/
def MayWake (m : Member) : Prop := m.wait = .logFull ∨ m.wait = .behindFull ∨ (m.wait = .ready ∧ m.joinTails ≠ [])

/-- `v` is `m` but for tokens, fences, what it is owed, its TRIG and its wait, which only a boundary changes; where the table of members is
kept (`k`), only that of a member that may wake. -/
structure Calmly (k : Prop) (m v : Member) : Prop where
  same : v = { m with tok := v.tok, drain := v.drain, fences := v.fences, owed := v.owed, seen := v.seen, triggered := v.triggered,
                      wait := v.wait, joinTails := v.joinTails, readySince := v.readySince }
  wait : v.wait = m.wait ∨ AtBoundary v.wait
  still : k → ¬ MayWake m → v.wait = m.wait
  joins : m.joinTails = [] → v.joinTails = []

theorem Calmly.refl (k : Prop) (m : Member) : Calmly k m m := ⟨rfl, .inl rfl, fun _ _ => rfl, fun h => h⟩

theorem Calmly.mayWake {k : Prop} {m v : Member} (h : Calmly k m v) (hk : k) (hm : ¬ MayWake m) : ¬ MayWake v := by
  have hw := h.still hk hm
  rintro (hv | hv | ⟨hv, hj⟩)
  · exact hm (.inl (hw ▸ hv))
  · exact hm (.inr (.inl (hw ▸ hv)))
  · exact hm (.inr (.inr ⟨hw ▸ hv, fun hn => hj (h.joins hn)⟩))

theorem Calmly.trans {k l : Prop} {m v w : Member} (hkl : k → l) (h : Calmly k m v) (g : Calmly l v w) : Calmly k m w where
  same := by rw [g.same, h.same]
  wait := g.wait.elim (fun e => e ▸ h.wait) .inr
  still := fun hk hm => (g.still (hkl hk) (h.mayWake hk hm)).trans (h.still hk hm)
  joins := g.joins ∘ h.joins

/-- What the end of an access leaves of a member: one that drains to return from its handler may return, and stays terminating if it was;
every other changes calmly. -/
structure Settles (k : Prop) (m v : Member) : Prop where
  terminating : m.terminating = true → v.terminating = true
  calm : m.wait ≠ .drain .eret → Calmly k m v

theorem Calmly.settles {k : Prop} {m v : Member} (h : Calmly k m v) : Settles k m v :=
  ⟨fun ht => by rw [h.same]; exact ht, fun _ => h⟩

theorem Calmly.ne_eret {k : Prop} {m v : Member} (h : Calmly k m v) (hm : m.wait ≠ .drain .eret) : v.wait ≠ .drain .eret :=
  h.wait.elim (fun e => e ▸ hm) AtBoundary.ne_eret

theorem Settles.trans {k l : Prop} {m v w : Member} (hkl : k → l) (h : Settles k m v) (g : Settles l v w) : Settles k m w :=
  ⟨g.terminating ∘ h.terminating, fun hm => .trans hkl (h.calm hm) (g.calm ((h.calm hm).ne_eret hm))⟩

theorem calmly_setTok (k : Prop) (m : Member) (code n : Nat) : Calmly k m (m.setTok code n) := by
  unfold Member.setTok
  split <;> exact ⟨rfl, .inl rfl, fun _ _ => rfl, fun h => h⟩

/-- A member woken, where its wait may end. -/
theorem calmly_woken {k : Prop} {m : Member} (h : k → m.wait = .ready ∨ m.wait = .logFull ∨ m.wait = .behindFull) (t : Nat) :
    Calmly k m { m with wait := .ready, readySince := t } where
  same := rfl
  wait := .inr (.inl rfl)
  still := fun hk hm => by
    rcases h hk with h | h | h
    · exact h.symm
    · exact absurd (.inl h) hm
    · exact absurd (.inr (.inl h)) hm
  joins := id

/-! ## The states that the end of an access passes through -/

theorem keyed_updMember {s : State} (h : Keyed s.members) (id : Nat) (f : Member → Member) : Keyed (updMember s id f).members := by
  show Keyed (tabUpd s.members id f)
  unfold tabUpd
  split
  · exact keyed_tabPut h ..
  · exact h

/-- Every member stays, as `Settles` says. -/
structure MembersSettle (s t : State) : Prop where
  keyed : Keyed s.members → Keyed t.members
  member : ∀ n m, memberAt s n = some m → ∃ v, memberAt t n = some v ∧ Settles (Keyed s.members) m v

theorem MembersSettle.ofMembers {s t : State} (h : t.members = s.members) : MembersSettle s t where
  keyed := fun hk => h ▸ hk
  member := fun n m hm => ⟨m, by unfold memberAt at *; rw [h, hm], (Calmly.refl _ m).settles⟩

theorem MembersSettle.refl (s : State) : MembersSettle s s := .ofMembers rfl

theorem MembersSettle.trans {s t u : State} (h : MembersSettle s t) (g : MembersSettle t u) : MembersSettle s u where
  keyed := g.keyed ∘ h.keyed
  member := fun n m hm => by
    obtain ⟨v, hv, h1⟩ := h.member n m hm
    obtain ⟨w, hw, h2⟩ := g.member n v hv
    exact ⟨w, hw, h1.trans h.keyed h2⟩

theorem MembersSettle.foldl {α : Type} {f : State → α → State} (h : ∀ s a, MembersSettle s (f s a)) (l : List α) (s : State) :
    MembersSettle s (l.foldl f s) := by
  induction l generalizing s with
  | nil => exact .refl s
  | cons a r ih => exact (h s a).trans (ih _)

theorem membersSettle_updMember {s : State} {id : Nat} {f : Member → Member}
    (h : ∀ m, memberAt s id = some m → Calmly (Keyed s.members) m (f m)) : MembersSettle s (updMember s id f) where
  keyed := fun hk => keyed_updMember hk id f
  member := fun n m hm => by
    by_cases hn : n = id
    · subst hn
      exact ⟨f m, by rw [memberAt_updMember_same, hm]; rfl, (h m hm).settles⟩
    · exact ⟨m, by rw [memberAt_updMember_other _ _ hn, hm], (Calmly.refl _ m).settles⟩

/-- Accesses and operand logs stay, and members settle. -/
structure Aside (s t : State) : Prop where
  accs : t.accs = s.accs
  logs : ∀ g, (coreAt t g).log = (coreAt s g).log
  members : MembersSettle s t

theorem Aside.refl (s : State) : Aside s s := ⟨rfl, fun _ => rfl, .refl s⟩

theorem Aside.trans {s t u : State} (h : Aside s t) (g : Aside t u) : Aside s u :=
  ⟨g.accs.trans h.accs, fun n => (g.logs n).trans (h.logs n), h.members.trans g.members⟩

theorem Aside.foldl {α : Type} {f : State → α → State} (h : ∀ s a, Aside s (f s a)) (l : List α) (s : State) : Aside s (l.foldl f s) := by
  induction l generalizing s with
  | nil => exact .refl s
  | cons a r ih => exact (h s a).trans (ih _)

theorem Aside.ofLogs {s t : State} (ha : t.accs = s.accs) (hl : ∀ g, (coreAt t g).log = (coreAt s g).log) (hm : t.members = s.members) :
    Aside s t := ⟨ha, hl, .ofMembers hm⟩

theorem aside_updCore {s : State} {c : Nat} {f : CoreUnit → CoreUnit} (h : ∀ u, (f u).log = u.log) : Aside s (updCore s c f) :=
  .ofLogs rfl (coreLog_updCore h s c) rfl

theorem aside_updMember {s : State} {id : Nat} {f : Member → Member}
    (h : ∀ m, memberAt s id = some m → Calmly (Keyed s.members) m (f m)) : Aside s (updMember s id f) :=
  ⟨rfl, fun _ => rfl, membersSettle_updMember h⟩

theorem aside_retireAs (s : State) (id cat w : Nat) : Aside s (retireAs s id cat w) := by
  obtain ⟨hr, hl, -⟩ := retireAs_units s id cat w
  exact .ofLogs (by rw [hr]) hl (by rw [hr])

theorem aside_retireAcc (s : State) (a : Access) : Aside s (retireAcc s a) := by
  unfold retireAcc
  split
  · exact .refl s
  · split
    · exact aside_retireAs ..
    · exact aside_retireAs ..
    · exact aside_retireAs ..
    · exact aside_retireAs ..
    · exact aside_retireAs ..
    · exact .refl s
    · exact .refl s
    · exact .refl s
    · exact .refl s
    · exact .refl s
    · split
      · exact aside_retireAs ..
      · exact .refl s

theorem aside_wake {s : State} {id : Nat}
    (h : ∀ m, memberAt s id = some m → Keyed s.members → m.wait = .ready ∨ m.wait = .logFull ∨ m.wait = .behindFull) :
    Aside s (wake s id) := by
  unfold wake
  split
  · exact .refl s
  · exact aside_updMember fun m hm => calmly_woken (h m hm) _

theorem keyed_wake {s : State} (h : Keyed s.members) (id : Nat) : Keyed (wake s id).members := by
  unfold wake
  split
  · exact h
  · exact keyed_updMember h ..

theorem keyed_foldl_wake {s : State} (h : Keyed s.members) (l : List (Nat × Member)) :
    Keyed (l.foldl (fun t e => wake t e.1) s).members := by
  induction l generalizing s with
  | nil => exact h
  | cons e r ih => exact ih (keyed_wake h e.1)

/-- The members that wait for a log entry wake (R182). -/
theorem aside_wakeLogWaiters (s : State) (core : Nat) : Aside s (wakeLogWaiters s core) := by
  unfold wakeLogWaiters
  generalize hl : s.members.filter _ = l
  have hr : MembersOnly s (l.foldl (fun t e => wake t e.1) s) := membersOnly_foldl (fun t e => membersOnly_wake t e.1) l s
  refine ⟨by rw [hr], fun g => by rw [hr]; rfl, fun hk => keyed_foldl_wake hk l, fun n m hm => ?_⟩
  have hw := memberAt_foldl (op := wake) (f := woken) memberAt_wake_eq (fun t k => woken_wake t k) (fun _ _ => rfl) l s n
  split at hw
  · next hn =>
    refine ⟨woken s m, by rw [hw, hm]; rfl, (calmly_woken (fun hk => .inr (.inl ?_)) _).settles⟩
    rw [← hl, mem_keys_filter hk hm] at hn
    simp only [Bool.and_eq_true, beq_iff_eq] at hn
    exact hn.2
  · exact ⟨m, by rw [hw, hm], (Calmly.refl _ m).settles⟩

/-! ## The end of a return from a handler -/

/-- From `s` to `t` one member changes, and stays terminating if it was; accesses, logs and other members stay. -/
structure TrapEnds (s t : State) (id : Nat) : Prop where
  accs : t.accs = s.accs
  logs : ∀ g, (coreAt t g).log = (coreAt s g).log
  keyed : Keyed s.members → Keyed t.members
  others : ∀ n, n ≠ id → memberAt t n = memberAt s n
  member : ∀ m, memberAt s id = some m → ∃ v, memberAt t id = some v ∧ (m.terminating = true → v.terminating = true)

theorem TrapEnds.trans {s t u : State} {id : Nat} (h : TrapEnds s t id) (g : TrapEnds t u id) : TrapEnds s u id where
  accs := g.accs.trans h.accs
  logs := fun n => (g.logs n).trans (h.logs n)
  keyed := g.keyed ∘ h.keyed
  others := fun n hn => (g.others n hn).trans (h.others n hn)
  member := fun m hm => by
    obtain ⟨v, hv, h1⟩ := h.member m hm
    obtain ⟨w, hw, h2⟩ := g.member v hv
    exact ⟨w, hw, h2 ∘ h1⟩

theorem TrapEnds.ofMembers {s t : State} {id : Nat} (ha : t.accs = s.accs) (hl : ∀ g, (coreAt t g).log = (coreAt s g).log)
    (hm : t.members = s.members) : TrapEnds s t id :=
  ⟨ha, hl, fun hk => hm ▸ hk, fun n _ => memberAt_of_members hm n, fun m h => ⟨m, by rw [memberAt_of_members hm, h], fun ht => ht⟩⟩

theorem TrapEnds.refl (s : State) (id : Nat) : TrapEnds s s id := .ofMembers rfl (fun _ => rfl) rfl

theorem trapEnds_updMember (s : State) {id : Nat} {f : Member → Member} (h : ∀ m, (f m).terminating = m.terminating) :
    TrapEnds s (updMember s id f) id where
  accs := rfl
  logs := fun _ => rfl
  keyed := fun hk => keyed_updMember hk id f
  others := fun n hn => memberAt_updMember_other s f hn
  member := fun m hm => ⟨f m, by rw [memberAt_updMember_same, hm]; rfl, fun ht => (h m).trans ht⟩

theorem trapEnds_leaveGroup (s : State) (id slot : Nat) (w : Wait) : TrapEnds s (leaveGroup s id slot w) id := by
  unfold leaveGroup
  split
  · exact .refl s id
  · next m _ =>
    have hl := coreLog_updCore (f := dropFromGroup id) (fun _ => rfl) s m.core
    have h1 : TrapEnds s (updCore s m.core (dropFromGroup id)) id := .ofMembers rfl hl rfl
    exact h1.trans (trapEnds_updMember _ fun _ => rfl)

theorem trapEnds_stopWithRecord (s : State) (id : Nat) (m : Member) (fi : FaultInfo) (cause detail : Nat) :
    TrapEnds s (stopWithRecord s id m fi cause detail) id := by
  have h1 : TrapEnds s (sendRecord s (faultRecord s m fi cause detail)) id := .ofMembers rfl (fun _ => rfl) rfl
  unfold stopWithRecord stopMember
  exact h1.trans (TrapEnds.trans (trapEnds_leaveGroup ..) (trapEnds_updMember _ fun _ => rfl))

theorem trapEnds_settle (s : State) (id : Nat) : TrapEnds s (settle s id) id := by
  unfold settle
  split
  · exact .refl s id
  · exact trapEnds_updMember s fun _ => rfl

theorem trapEnds_wake (s : State) (id : Nat) : TrapEnds s (wake s id) id := by
  unfold wake
  split
  · exact .refl s id
  · exact trapEnds_updMember s fun _ => rfl

theorem trapEnds_settleOrWake (s : State) (id : Nat) (c : Bool) : TrapEnds s (if c then settle s id else wake s id) id := by
  cases c with
  | true => exact trapEnds_settle ..
  | false => exact trapEnds_wake ..

theorem trapEnds_endTrapTime (s : State) (id : Nat) (m : Member) : TrapEnds s (endTrapTime s m) id := by
  unfold endTrapTime
  split
  · exact .refl s id
  · exact .ofMembers rfl (fun _ => rfl) rfl

theorem trapEnds_returnFromTrap (s : State) (id : Nat) : TrapEnds s (returnFromTrap s id) id := by
  unfold returnFromTrap
  split
  · exact .refl s id
  · simp only
    split
    · refine TrapEnds.trans ?_ (trapEnds_stopWithRecord ..)
      exact trapEnds_updMember s fun _ => rfl
    · refine TrapEnds.trans ?_ (trapEnds_endTrapTime ..)
      refine TrapEnds.trans ?_ (trapEnds_settleOrWake ..)
      exact trapEnds_updMember s fun _ => rfl

theorem trapEnds_endEret (s : State) (id : Nat) : TrapEnds s (endEret s id) id := by
  unfold endEret
  simp only
  split
  · exact trapEnds_returnFromTrap ..
  · exact .refl s id

/-- A return from a handler concerns a member that drains for it (R286). -/
theorem TrapEnds.aside {s t : State} {id : Nat} {m : Member} (h : TrapEnds s t id) (hm : memberAt s id = some m)
    (hw : m.wait = .drain .eret) : Aside s t where
  accs := h.accs
  logs := h.logs
  members := {
    keyed := h.keyed
    member := fun n v hv => by
      by_cases hn : n = id
      · subst hn
        cases hm.symm.trans hv
        obtain ⟨w, hw', ht⟩ := h.member m hm
        exact ⟨w, hw', ht, fun hne => absurd hw hne⟩
      · exact ⟨v, (h.others n hn).trans hv, (Calmly.refl _ v).settles⟩ }

/-! ## Tokens and fences -/

theorem aside_tokDec (s : State) (id code : Nat) : Aside s (tokDec s id code) := by
  have h1 : Aside s (updMember s id fun m => m.setTok code (tokCount m code - 1)) := aside_updMember fun m _ => calmly_setTok ..
  unfold tokDec
  refine h1.trans ?_
  simp only
  split
  · next m hm =>
    split
    · next he =>
      simp only [Bool.and_eq_true, beq_iff_eq] at he
      exact (trapEnds_endEret ..).aside hm he.1
    · split
      · next hc =>
        simp only [maskClears, Bool.and_eq_true, beq_iff_eq] at hc
        obtain ⟨⟨⟨⟨hw, -⟩, -⟩, -⟩, -⟩ := hc
        exact aside_wake fun v hv _ => .inl (by cases hm.symm.trans hv; exact hw)
      · exact .refl _
  · exact .refl _

theorem aside_clearFence (s : State) (id : Nat) (f : FenceRec) : Aside s (clearFence s id f) := by
  have h1 : Aside s (match f.tok with | some t => tokDec (retireAs s id 7 1) id t | none => s) := by
    cases f.tok with
    | none => exact .refl s
    | some t => exact (aside_retireAs ..).trans (aside_tokDec ..)
  unfold clearFence
  cases f.acq with
  | false => exact h1
  | true => exact h1.trans (aside_updMember fun m _ => ⟨rfl, .inl rfl, fun _ _ => rfl, fun h => h⟩)

theorem aside_countTrig (s : State) (id : Nat) : Aside s (countTrig s id) := by
  unfold countTrig
  split
  · exact .refl s
  · next m _ =>
    split
    · exact .refl s
    · have h1 : Aside s (updLaunch s m.launch fun l => { l with trigCount := l.trigCount + 1 }) := .ofLogs rfl (fun _ => rfl) rfl
      exact h1.trans (aside_updMember fun m _ => ⟨rfl, .inl rfl, fun _ _ => rfl, fun h => h⟩)

theorem aside_endFence (s : State) (id : Nat) (f : FenceRec) : Aside s (endFence s id f) := by
  unfold endFence
  cases f.trig with
  | false => exact aside_clearFence ..
  | true => exact (aside_clearFence ..).trans (aside_countTrig ..)

theorem aside_settleFences (s : State) (id : Nat) : Aside s (settleFences s id) := by
  unfold settleFences
  split
  · exact .refl s
  · refine Aside.trans ?_ (Aside.foldl (fun t f => ?_) _ _)
    · exact aside_updMember fun m _ => ⟨rfl, .inl rfl, fun _ _ => rfl, fun h => h⟩
    split
    · exact aside_endFence ..
    · exact aside_clearFence ..

/-- The next clause of a member waits for tails that have come to stand open (R143). -/
theorem aside_lateJoin (s : State) (id : Nat) : Aside s (lateJoin s id) := by
  unfold lateJoin
  split
  · exact .refl s
  · next m hm =>
    split
    · next h =>
      simp only [Bool.and_eq_true, beq_iff_eq, Bool.not_eq_true', List.isEmpty_eq_false_iff] at h
      obtain ⟨⟨⟨hw, -⟩, hj⟩, -⟩ := h
      unfold settle
      rw [hm]
      refine aside_updMember fun v hv => ?_
      cases hm.symm.trans hv
      exact ⟨rfl, .inr (atBoundary_boundaryWait ..), fun _ h => absurd (.inr (.inr ⟨hw, hj⟩)) h, fun h => absurd h hj⟩
    · exact .refl s

/-! ## The accesses and the logs that stay -/

/-- Where keys rise, they rise after, every access in `t` was there before, and its kind is what it was. -/
structure AccsFrom (l t : Tab Access) : Prop where
  kept : Keyed l → Keyed t ∧ ∀ x ∈ t, ∃ y ∈ l, y.1 = x.1 ∧ y.2.kind = x.2.kind

theorem AccsFrom.refl (l : Tab Access) : AccsFrom l l := ⟨fun hk => ⟨hk, fun x hx => ⟨x, hx, rfl, rfl⟩⟩⟩

theorem AccsFrom.trans {l t u : Tab Access} (h : AccsFrom l t) (g : AccsFrom t u) : AccsFrom l u := by
  refine ⟨fun hk => ?_⟩
  obtain ⟨ht, h1⟩ := h.kept hk
  obtain ⟨hu, g1⟩ := g.kept ht
  refine ⟨hu, fun x hx => ?_⟩
  obtain ⟨y, hy, e1, e2⟩ := g1 x hx
  obtain ⟨z, hz, d1, d2⟩ := h1 y hy
  exact ⟨z, hz, d1.trans e1, d2.trans e2⟩

theorem AccsFrom.foldl {α : Type} {f : State → α → State} (h : ∀ s a, AccsFrom s.accs (f s a).accs) (l : List α) (s : State) :
    AccsFrom s.accs (l.foldl f s).accs := by
  induction l generalizing s with
  | nil => exact .refl _
  | cons a r ih => exact (h s a).trans (ih _)

theorem AccsFrom.ofEq {l t : Tab Access} (h : t = l) : AccsFrom l t := h ▸ .refl l

theorem accsFrom_sublist {l t : Tab Access} (h : t.Sublist l) : AccsFrom l t :=
  ⟨fun hk => ⟨List.Pairwise.sublist (h.map _) hk, fun x hx => ⟨x, h.subset hx, rfl, rfl⟩⟩⟩

theorem sublist_tabDrop (l : Tab Access) (k : Nat) : (tabDrop l k).Sublist l := by
  induction l with
  | nil => exact .refl _
  | cons e r ih =>
    unfold tabDrop
    split
    · exact List.sublist_cons_self ..
    · exact ih.cons_cons _

theorem accsFrom_map {l : Tab Access} {f : Nat × Access → Nat × Access} (h : ∀ e, (f e).1 = e.1 ∧ (f e).2.kind = e.2.kind) :
    AccsFrom l (l.map f) := by
  refine ⟨fun hk => ⟨?_, fun x hx => ?_⟩⟩
  · have hkeys : (l.map f).map (·.1) = l.map (·.1) := by
      rw [List.map_map]
      exact List.map_congr_left fun e _ => (h e).1
    unfold Keyed
    rw [hkeys]
    exact hk
  · obtain ⟨y, hy, rfl⟩ := List.mem_map.mp hx
    exact ⟨y, hy, (h y).1.symm, (h y).2.symm⟩

theorem mem_tabPut {α : Type} {t : Tab α} {k : Nat} {v : α} {e : Nat × α} (h : e ∈ tabPut t k v) : e = (k, v) ∨ e ∈ t := by
  induction t with
  | nil => exact .inl (List.mem_singleton.mp h)
  | cons a r ih =>
    unfold tabPut at h
    split at h
    · exact (List.mem_cons.mp h).imp_right id
    · split at h
      · exact (List.mem_cons.mp h).imp_right (List.mem_cons_of_mem _)
      · rcases List.mem_cons.mp h with h | h
        · exact .inr (h ▸ List.mem_cons_self)
        · exact (ih h).imp_right (List.mem_cons_of_mem _)

/-- An access that keeps its kind. -/
theorem accsFrom_tabUpd {l : Tab Access} {k : Nat} {f : Access → Access} (h : ∀ v, tabGet l k = some v → (f v).kind = v.kind) :
    AccsFrom l (tabUpd l k f) := by
  unfold tabUpd
  split
  · next v hv =>
    refine ⟨fun hk => ⟨keyed_tabPut hk .., fun x hx => ?_⟩⟩
    rcases mem_tabPut hx with rfl | hx
    · exact ⟨(k, v), mem_of_tabGet hv, rfl, (h v hv).symm⟩
    · exact ⟨x, hx, rfl, rfl⟩
  · exact .refl l

/-- What stood nowhere stands nowhere after. -/
theorem AccsFrom.absent {l t : Tab Access} (h : AccsFrom l t) (hk : Keyed l) {k : Nat} (hn : tabGet l k = none) : tabGet t k = none := by
  cases he : tabGet t k with
  | none => rfl
  | some v =>
    obtain ⟨⟨j, y⟩, hy, hkey, -⟩ := (h.kept hk).2 _ (mem_of_tabGet he)
    obtain rfl : j = k := hkey
    exact absurd (hn.symm.trans (tabGet_of_mem hk hy)) nofun

theorem AccsFrom.kind {l t : Tab Access} (h : AccsFrom l t) (hk : Keyed l) {k : Nat} {a v : Access} (ha : tabGet l k = some a)
    (hv : tabGet t k = some v) : v.kind = a.kind := by
  obtain ⟨⟨j, y⟩, hy, hkey, hkind⟩ := (h.kept hk).2 _ (mem_of_tabGet hv)
  obtain rfl : j = k := hkey
  cases ha.symm.trans (tabGet_of_mem hk hy)
  exact hkind.symm

/-- The log of a core without the entries of an access. -/
def logWithout (s : State) (core id g : Nat) : Tab LogEntry :=
  if g = core then (coreAt s g).log.filter fun e => e.2.acc != id else (coreAt s g).log

theorem logWithout_subset {s : State} {core id g : Nat} {x : Nat × LogEntry} (h : x ∈ logWithout s core id g) : x ∈ (coreAt s g).log := by
  unfold logWithout at h
  split at h
  · exact List.mem_of_mem_filter h
  · exact h

theorem mem_logWithout {s : State} {core id g : Nat} {x : Nat × LogEntry} (h : x ∈ (coreAt s g).log) (hx : x.2.acc ≠ id) :
    x ∈ logWithout s core id g := by
  unfold logWithout
  split
  · exact List.mem_filter.mpr ⟨h, by simpa using hx⟩
  · exact h

theorem keyed_logWithout {s : State} {g : Nat} (h : Keyed (coreAt s g).log) (core id : Nat) : Keyed (logWithout s core id g) := by
  unfold logWithout
  split
  · exact List.Pairwise.sublist ((List.filter_sublist).map _) h
  · exact h

/-! ## The end of an access -/

/-- The access leaves, and its entry of the operand log frees (R182). -/
def unlogged (s : State) (id : Nat) (a : Access) : State :=
  let s1 : State := { s with accs := tabDrop s.accs id }
  if (coreAt s1 a.core).log.any fun e => e.2.acc == id then
    wakeLogWaiters (updCore s1 a.core fun u => { u with log := u.log.filter fun e => e.2.acc != id }) a.core
  else s1

/-- The token of an access counts down (R185). -/
def freeToken (s : State) (a : Access) : State :=
  match accToken a with
  | some t => tokDec s a.member t
  | none => s

/-- A member that waits behind a full buffer goes on (R245). -/
def passBuffer (s : State) (id : Nat) : State :=
  match memberAt s id with
  | some m => if m.wait == .behindFull then wake s id else s
  | none => s

theorem finishAcc_eq {s : State} {id : Nat} {a : Access} (h : tabGet s.accs id = some a) :
    finishAcc s id = passBuffer (settleFences (carryNeeds (freeToken (unlogged s id a) a) id a) a.member) a.member := by
  unfold finishAcc
  rw [h]
  rfl

theorem accs_unlogged (s : State) (id : Nat) (a : Access) : (unlogged s id a).accs = tabDrop s.accs id := by
  unfold unlogged
  simp only
  split
  · exact (aside_wakeLogWaiters ..).accs
  · rfl

theorem log_unlogged (s : State) (id : Nat) (a : Access) (g : Nat) : (coreAt (unlogged s id a) g).log = logWithout s a.core id g := by
  unfold unlogged logWithout
  simp only
  split
  · rw [(aside_wakeLogWaiters ..).logs]
    split
    · next hg =>
      rw [hg, coreAt_updCore_same]
      rfl
    · next hg =>
      rw [coreAt_updCore_other _ _ hg]
      rfl
  · next hno =>
    split
    · next hg =>
      rw [hg]
      refine (List.filter_eq_self.mpr fun e he => ?_).symm
      simp only [Bool.not_eq_true, List.any_eq_false] at hno
      simpa using hno e he
    · rfl

theorem membersSettle_unlogged (s : State) (id : Nat) (a : Access) : MembersSettle s (unlogged s id a) := by
  unfold unlogged
  simp only
  split
  · refine MembersSettle.trans ?_ (aside_wakeLogWaiters ..).members
    exact .ofMembers rfl
  · exact .ofMembers rfl

theorem aside_freeToken (s : State) (a : Access) : Aside s (freeToken s a) := by
  unfold freeToken
  split
  · exact aside_tokDec ..
  · exact .refl s

theorem aside_passBuffer (s : State) (id : Nat) : Aside s (passBuffer s id) := by
  unfold passBuffer
  split
  · next m hm =>
    split
    · next hw => exact aside_wake fun v hv _ => .inr (.inr (by cases hm.symm.trans hv; exact beq_iff_eq.mp hw))
    · exact .refl s
  · exact .refl s

theorem carryNeeds_of_noValue (s : State) (id : Nat) {a : Access} (h : a.kind.returnsValue = false) : carryNeeds s id a = s := by
  unfold carryNeeds
  rw [if_pos (by simp [h])]

theorem membersSettle_carryNeeds (s : State) (id : Nat) (a : Access) : MembersSettle s (carryNeeds s id a) := by
  unfold carryNeeds
  split
  · exact .refl s
  · refine MembersSettle.trans (membersSettle_updMember (id := a.member) fun m _ => ?_) (.ofMembers rfl)
    exact ⟨rfl, .inl rfl, fun _ _ => rfl, fun h => h⟩

theorem accsFrom_carryNeeds (s : State) (id : Nat) (a : Access) : AccsFrom s.accs (carryNeeds s id a).accs := by
  unfold carryNeeds
  split
  · exact .refl _
  · refine accsFrom_map fun e => ?_
    split <;> exact ⟨rfl, rfl⟩

theorem coreAt_carryNeeds (s : State) (id : Nat) (a : Access) (g : Nat) : coreAt (carryNeeds s id a) g = coreAt s g := by
  unfold carryNeeds
  split <;> rfl

section
variable {s : State} {id : Nat} {a : Access} (h : tabGet s.accs id = some a)
include h

theorem membersSettle_finishAcc : MembersSettle s (finishAcc s id) := by
  rw [finishAcc_eq h]
  exact ((((membersSettle_unlogged ..).trans (aside_freeToken ..).members).trans (membersSettle_carryNeeds ..)).trans
    (aside_settleFences ..).members).trans (aside_passBuffer ..).members

theorem log_finishAcc (g : Nat) : (coreAt (finishAcc s id) g).log = logWithout s a.core id g := by
  rw [finishAcc_eq h, (aside_passBuffer ..).logs, (aside_settleFences ..).logs, coreAt_carryNeeds, (aside_freeToken ..).logs, log_unlogged]

/-- The access of an id leaves, and none comes. -/
theorem accsFrom_drop_finishAcc : AccsFrom (tabDrop s.accs id) (finishAcc s id).accs := by
  rw [finishAcc_eq h, (aside_passBuffer ..).accs, (aside_settleFences ..).accs]
  rw [← accs_unlogged s id a, ← (aside_freeToken (unlogged s id a) a).accs]
  exact accsFrom_carryNeeds _ _ _

theorem accs_finishAcc_of_noValue (hv : a.kind.returnsValue = false) : (finishAcc s id).accs = tabDrop s.accs id := by
  rw [finishAcc_eq h, (aside_passBuffer ..).accs, (aside_settleFences ..).accs, carryNeeds_of_noValue _ _ hv, (aside_freeToken ..).accs,
    accs_unlogged]

end

theorem accsFrom_finishAcc (s : State) (id : Nat) : AccsFrom s.accs (finishAcc s id).accs := by
  cases h : tabGet s.accs id with
  | none => simp only [finishAcc, h]; exact .refl _
  | some a => exact (accsFrom_sublist (sublist_tabDrop _ _)).trans (accsFrom_drop_finishAcc h)

/-! ## The completion of a register write -/

theorem aside_mergeStamp (s : State) (a : Access) : Aside s (mergeStamp s a) := by
  unfold mergeStamp
  split
  · exact .refl s
  · exact .ofLogs rfl (fun _ => rfl) rfl

theorem aside_freeRead (s : State) (a : Access) : Aside s (freeRead s a).2 := by
  unfold freeRead
  split
  · exact .ofLogs rfl (fun _ => rfl) rfl
  · exact .refl s

theorem kind_freeRead (s : State) (a : Access) : (freeRead s a).1.kind = a.kind := by
  unfold freeRead
  split <;> rfl

theorem aside_cacheLoad {a : Access} {w : Bool} (hk : a.kind = .ioWrite w) (s : State) (id : Nat) : Aside s (cacheLoad s id a) := by
  unfold cacheLoad
  simp only [hk]
  rw [if_neg (by simp)]
  split
  · exact aside_updCore fun _ => rfl
  · exact .refl s

theorem aside_takeMet (s : State) (id : Nat) (a : Access) : Aside s (takeMet s id a) := by
  have h1 : Aside s (if applied s a.met then s else updMember s a.member fun m => { m with owed := joinVec m.owed a.met }) := by
    split
    · exact .refl s
    · exact aside_updMember fun m _ => ⟨rfl, .inl rfl, fun _ _ => rfl, fun h => h⟩
  unfold takeMet
  simp only
  generalize (if applied s a.met = true then s else _) = s1 at h1 ⊢
  refine h1.trans ?_
  split
  · split
    · exact .refl _
    · exact aside_updCore fun _ => rfl
  · exact .refl _

theorem writeBack_ioWrite (s : State) {x : Access} {w : Bool} (hk : x.kind = .ioWrite w) : writeBack s x = s := by
  simp only [writeBack, hk]

/-- A write of a register has been performed: its access and its log entries are gone, and members have settled. -/
structure Performed (s t : State) (id : Nat) : Prop where
  accs : t.accs = tabDrop s.accs id
  subset : ∀ g, ∀ x ∈ (coreAt t g).log, x ∈ (coreAt s g).log
  kept : ∀ g, ∀ x ∈ (coreAt s g).log, x.2.acc ≠ id → x ∈ (coreAt t g).log
  keyed : ∀ g, Keyed (coreAt s g).log → Keyed (coreAt t g).log
  members : MembersSettle s t

theorem tabDrop_of_none {α : Type} {t : Tab α} {k : Nat} (h : tabGet t k = none) : tabDrop t k = t := by
  induction t with
  | nil => rfl
  | cons e r ih =>
    unfold tabGet at h
    split at h
    · exact absurd h nofun
    · next hk => rw [tabDrop, if_neg hk, ih h]

theorem performed_completeAcc {s : State} {id : Nat} (h : ∀ a, tabGet s.accs id = some a → ∃ w, a.kind = .ioWrite w) :
    Performed s (completeAcc s id) id := by
  cases ha : tabGet s.accs id with
  | none =>
    have e : completeAcc s id = s := by simp only [completeAcc, ha]
    rw [e]
    exact ⟨(tabDrop_of_none ha).symm, fun _ _ hx => hx, fun _ _ hx _ => hx, fun _ hk => hk, .refl s⟩
  | some a =>
    obtain ⟨w, hk⟩ := h a ha
    obtain ⟨u, hu, he⟩ : ∃ u, Aside s u ∧ completeAcc s id = lateJoin (finishAcc u id) a.member := by
      refine ⟨retireAcc (takeMet (cacheLoad (freeRead (mergeStamp s a) a).2 id a) id a) a, ?_, ?_⟩
      · exact ((((aside_mergeStamp ..).trans (aside_freeRead ..)).trans (aside_cacheLoad hk ..)).trans (aside_takeMet ..)).trans
          (aside_retireAcc ..)
      · unfold completeAcc
        rw [ha]
        simp only [hk]
        rw [writeBack_ioWrite _ ((kind_freeRead ..).trans hk)]
    have hua : tabGet u.accs id = some a := by rw [hu.accs, ha]
    have hv : a.kind.returnsValue = false := by rw [hk]; rfl
    have hlog (g : Nat) : (coreAt (completeAcc s id) g).log = logWithout u a.core id g := by
      rw [he, (aside_lateJoin ..).logs, log_finishAcc hua]
    refine ⟨?_, fun g x hx => ?_, fun g x hx hn => ?_, fun g hg => ?_, ?_⟩
    · rw [he, (aside_lateJoin ..).accs, accs_finishAcc_of_noValue hua hv, hu.accs]
    · rw [hlog] at hx
      rw [← hu.logs]
      exact logWithout_subset hx
    · rw [hlog]
      rw [← hu.logs] at hx
      exact mem_logWithout hx hn
    · rw [hlog]
      exact keyed_logWithout (by rw [hu.logs]; exact hg) ..
    · rw [he]
      exact (hu.members.trans (membersSettle_finishAcc hua)).trans (aside_lateJoin ..).members

end Sys2Proof.Proofs
end


section
/-!
PROOF. Dispositions of operand-log entries (R182, R270, R276): no disposition issues an access; replay, delivery and abandoning of an entry.
-/
set_option linter.constructorNameAsVariable false
namespace Sys2Proof.Proofs
open Sys2Proof.Machine Sys2Proof.Safety

/-! ## No disposition issues an access -/

theorem accs_wakeLogWaiters (s : State) (core : Nat) : (wakeLogWaiters s core).accs = s.accs := (aside_wakeLogWaiters s core).accs

theorem accs_freeEntry (s : State) (core i : Nat) : (freeEntry s core i).accs = s.accs := accs_wakeLogWaiters ..

theorem accs_queueFault (s : State) (id : Nat) (fi : FaultInfo) : (queueFault s id fi).accs = s.accs := by
  unfold queueFault
  split
  · rfl
  · split <;> rfl

theorem accs_releaseSwait (s : State) (id : Nat) (a : Access) : (releaseSwait s id a).accs = s.accs := by
  unfold releaseSwait
  split
  · split
    · rw [membersOnly_passSlot s a.member]
    · rfl
  · rfl

theorem accsFrom_filter (l : Tab Access) (p : Nat × Access → Bool) : AccsFrom l (l.filter p) := accsFrom_sublist List.filter_sublist

theorem accsFrom_abandonAcc (s : State) (id : Nat) : AccsFrom s.accs (abandonAcc s id).accs := by
  unfold abandonAcc
  split
  · exact .refl _
  · next a _ =>
    refine AccsFrom.trans ?_ (accsFrom_finishAcc _ id)
    rw [accs_retireAcc]
    split
    · exact accsFrom_filter _ _
    · exact .refl _

theorem accsFrom_dropAccess (s : State) (id : Nat) (a : Access) : AccsFrom s.accs (dropAccess s id a).accs := by
  unfold dropAccess
  rw [accs_releaseSwait]
  exact accsFrom_abandonAcc s id

/-- An access that enters an operand log keeps its kind (R181). -/
theorem accsFrom_logIssued {s t : State} {id : Nat} {a : Access} {held cause detail own : Nat} {addr : Word64}
    (ha : ∀ v, tabGet s.accs id = some v → v.kind = a.kind) (h : logIssued s id a held cause detail own addr = some t) :
    AccsFrom s.accs t.accs := by
  unfold logIssued at h
  split at h
  · cases h
  · simp only at h
    split at h
    · cases h
    · cases h
      refine AccsFrom.trans ?_ (AccsFrom.foldl (fun t e => ?_) _ _)
      · exact accsFrom_tabUpd fun v hv => (ha v hv).symm
      · exact accsFrom_tabUpd fun _ _ => rfl

theorem accsFrom_failIssued (s : State) (id cause detail : Nat) (addr : Word64) :
    AccsFrom s.accs (failIssued s id cause detail addr).accs := by
  have hb : AccsFrom s.accs (blamed s id).2.accs := by
    unfold blamed
    split
    · split
      · exact accsFrom_sublist (sublist_tabDrop _ _)
      · exact accsFrom_sublist (sublist_tabDrop _ _)
      · exact .refl _
    · exact .refl _
  unfold failIssued
  simp only
  generalize blamed s id = p at hb ⊢
  refine hb.trans ?_
  split
  · exact .refl _
  · next a ha =>
    have hd := accsFrom_dropAccess p.2 p.1 a
    have hplain := hd.trans (.ofEq (accs_queueFault (dropAccess p.2 p.1 a) a.member (accFault a cause detail addr)))
    split
    · rw [dropPref, ← accs_retireAcc p.2 a]
      exact accsFrom_finishAcc _ _
    · split
      · exact hd
      · split
        · cases hl : logIssued p.2 p.1 a (0x80 + cause) 0x26 cause detail addr with
          | none => exact hplain
          | some t => exact accsFrom_logIssued (fun v hv => by cases ha.symm.trans hv; rfl) hl
        · exact hplain

theorem accs_againAt (s : State) (a : Access) (addr : Word64) (n : Nat) : (againAt s a addr n).2.accs = s.accs :=
  (walksOnly_resolveIn ..).accs

/-- A check made again changes no access, and the access that passes it keeps its kind. -/
theorem again_kept (s : State) (a : Access) : (again s a).2.accs = s.accs ∧ ∀ b, (again s a).1 = .ok b → b.kind = a.kind := by
  unfold again
  split
  · exact ⟨rfl, fun b hb => Again.ok.inj hb ▸ rfl⟩
  · split
    · have h1 := accs_againAt s a a.value 4
      generalize againAt s a a.value 4 = p at h1 ⊢
      obtain ⟨r, s1⟩ := p
      cases r with
      | held _ => exact ⟨h1, fun b hb => absurd hb Again.noConfusion⟩
      | bad _ _ => exact ⟨h1, fun b hb => absurd hb Again.noConfusion⟩
      | ok r0 =>
        have h2 := (accs_againAt s1 a a.value2 4).trans h1
        simp only
        generalize againAt s1 a a.value2 4 = q at h2 ⊢
        obtain ⟨r, s2⟩ := q
        cases r with
        | held _ => exact ⟨h2, fun b hb => absurd hb Again.noConfusion⟩
        | bad _ _ => exact ⟨h2, fun b hb => absurd hb Again.noConfusion⟩
        | ok r1 => exact ⟨h2, fun b hb => Again.ok.inj hb ▸ rfl⟩
    · have h1 := accs_againAt s a a.addr (if a.kind == .kcas2 then 4 else a.size)
      generalize againAt s a a.addr _ = p at h1 ⊢
      obtain ⟨r, s1⟩ := p
      cases r with
      | held _ => exact ⟨h1, fun b hb => absurd hb Again.noConfusion⟩
      | bad _ _ => exact ⟨h1, fun b hb => absurd hb Again.noConfusion⟩
      | ok r0 => exact ⟨h1, fun b hb => Again.ok.inj hb ▸ rfl⟩

/-- The checks of a group made again change no access; what passes them are the accesses of the group, with their kinds. -/
theorem againAll_kept (s : State) (l : List (Nat × Access)) : (againAll s l).1.accs = s.accs ∧
    ∀ p ∈ (againAll s l).2.1, ∃ q ∈ l, q.1 = p.1 ∧ q.2.kind = p.2.kind := by
  induction l generalizing s with
  | nil => exact ⟨rfl, fun _ hp => absurd hp List.not_mem_nil⟩
  | cons e r ih =>
    have h := again_kept s e.2
    rw [againAll]
    generalize again s e.2 = p at h ⊢
    obtain ⟨f, s1⟩ := p
    cases f with
    | held _ _ => exact ⟨h.1, fun _ hp => absurd hp List.not_mem_nil⟩
    | bad _ _ _ => exact ⟨h.1, fun _ hp => absurd hp List.not_mem_nil⟩
    | ok b =>
      obtain ⟨h3, h4⟩ := ih s1
      refine ⟨h3.trans h.1, fun p hp => ?_⟩
      rcases List.mem_cons.mp hp with rfl | hp
      · exact ⟨e, List.mem_cons_self, rfl, (h.2 b rfl).symm⟩
      · obtain ⟨q, hq, hk⟩ := h4 p hp
        exact ⟨q, List.mem_cons_of_mem _ hq, hk⟩

/-- Accesses written anew, each under its key and with its kind. -/
theorem accsFrom_foldl_updAcc (f : Nat × Access → Access) (hf : ∀ p, (f p).kind = p.2.kind) (l : List (Nat × Access)) (s : State)
    (h : ∀ p ∈ l, ∀ v, tabGet s.accs p.1 = some v → v.kind = p.2.kind) :
    AccsFrom s.accs (l.foldl (fun t p => updAcc t p.1 fun _ => f p) s).accs := by
  induction l generalizing s with
  | nil => exact .refl _
  | cons p r ih =>
    have hp := h p List.mem_cons_self
    rw [List.foldl_cons]
    refine AccsFrom.trans ?_ (ih _ fun q hq v hv => ?_)
    · exact accsFrom_tabUpd fun v hv => (hf p).trans (hp v hv).symm
    have hq := h q (List.mem_cons_of_mem _ hq)
    have hv : tabGet (tabUpd s.accs p.1 fun _ => f p) q.1 = some v := hv
    rw [tabGet_tabUpd] at hv
    split at hv
    · next hk =>
      obtain ⟨w, hw, rfl⟩ := Option.map_eq_some_iff.mp hv
      rw [hf, ← hp w hw]
      exact hq w (hk ▸ hw)
    · exact hq v hv

/-- The accesses of a group stand under their keys. -/
theorem accGroup_kind {s : State} {id : Nat} {a : Access} (hk : Keyed s.accs) (ha : tabGet s.accs id = some a) :
    ∀ p ∈ accGroup s id a, tabGet s.accs p.1 = some p.2 := by
  unfold accGroup
  split
  · exact fun p hp => tabGet_of_mem hk (List.mem_of_mem_filter hp)
  · exact fun p hp => by rw [List.mem_singleton.mp hp, ha]

theorem accsFrom_replayEntry {s : State} {core i : Nat} {e : LogEntry} {a : Access} (ha : tabGet s.accs e.acc = some a) :
    AccsFrom s.accs (replayEntry s core i e a).accs := by
  refine ⟨fun hk => AccsFrom.kept ?_ hk⟩
  unfold replayEntry
  split
  · rw [← accs_freeEntry s core i]
    exact accsFrom_failIssued ..
  · obtain ⟨h1, h2⟩ := againAll_kept s (accGroup s e.acc a)
    split
    · next s1 l he =>
      rw [he] at h1 h2
      rw [← h1]
      refine accsFrom_foldl_updAcc (fun p => { p.2 with heldCause := 0, acq := true, need := joinVec p.2.need e.need }) (fun _ => rfl) l
        (updCore s1 core fun u => { u with log := tabPut u.log i { e with waiting := false } }) fun p hp v hv => ?_
      obtain ⟨q, hq, hqk, hkind⟩ := h2 p hp
      have hv : tabGet s1.accs p.1 = some v := hv
      rw [h1, ← hqk, accGroup_kind hk ha q hq] at hv
      cases hv
      exact hkind
    · next s1 l c addr he =>
      rw [he] at h1
      have h3 : (freeEntry s1 core i).accs = s.accs := (accs_freeEntry ..).trans h1
      cases hl : logIssued (freeEntry s1 core i) e.acc a c (c + 0x0F) c 0 addr with
      | none => exact .refl _
      | some t =>
        rw [Option.getD_some, ← h3]
        exact accsFrom_logIssued (fun v hv => by rw [h3, ha] at hv; cases hv; rfl) hl
    · next s1 l x d addr he =>
      rw [he] at h1
      rw [← h1, ← accs_freeEntry s1 core i]
      exact accsFrom_failIssued ..
    · next he =>
      rw [he] at h1
      rw [accs_freeEntry]
      exact .ofEq h1

theorem accsFrom_applyAct (s : State) (core i act : Nat) : AccsFrom s.accs (applyAct s core i act).accs := by
  unfold applyAct
  split
  · exact .refl _
  · split
    · exact .ofEq (accs_freeEntry ..)
    · next a ha =>
      split
      · exact accsFrom_replayEntry ha
      · split
        · rw [deliverLog, accs_queueFault]
          exact accsFrom_dropAccess ..
        · exact accsFrom_dropAccess ..

theorem accsFrom_disposeEntry (s : State) (from_ core i act : Nat) : AccsFrom s.accs (disposeEntry s from_ core i act).accs := by
  unfold disposeEntry
  split
  · exact .refl _
  · split
    · exact .refl _
    · simp only
      split
      · exact .refl _
      · refine AccsFrom.trans ?_ (accsFrom_applyAct ..)
        exact .refl _

theorem accs_storeAt (s : State) (who : Option (Nat × Nat)) (pa : Nat) (l : List Byte) : (storeAt s who pa l).accs = s.accs := by
  obtain ⟨u, hu, he⟩ := storeAt_eq s who pa l
  rw [he, hu.rest]
  rfl

theorem accs_memberStore (s : State) (m : Member) (pa : Nat) (l : List Byte) : (memberStore s m pa l).accs = s.accs := by
  obtain ⟨fs, sc, he⟩ := memberStore_rest s m pa l
  rw [he]
  exact accs_storeAt s (some (m.launch, m.core)) pa l

theorem accs_stopWithRecord (s : State) (id : Nat) (m : Member) (fi : FaultInfo) (cause detail : Nat) :
    (stopWithRecord s id m fi cause detail).accs = s.accs := (trapEnds_stopWithRecord ..).accs

theorem accs_enterHandler (s : State) (id : Nat) (m : Member) (fi : FaultInfo) : (enterHandler s id m fi).accs = s.accs := by
  unfold enterHandler
  simp only [updMember_accs, leaveGroup_accs, accs_memberStore]
  unfold beginTrapTime
  split <;> rfl

theorem accs_deliverEntry (s : State) (id : Nat) (fi : FaultInfo) : (deliverEntry s id fi).accs = s.accs := by
  unfold deliverEntry
  split
  · rfl
  · split
    · exact accs_stopWithRecord ..
    · unfold deliverFault
      split
      · exact accs_stopWithRecord ..
      · split
        · exact accs_stopWithRecord ..
        · split
          · exact accs_stopWithRecord ..
          · exact accs_enterHandler ..

theorem accs_deliverStopped (s : State) (id : Nat) (fi : FaultInfo) : (deliverStopped s id fi).accs = s.accs := by
  unfold deliverStopped
  simp only
  split
  · exact accs_deliverEntry ..
  · rfl

/-! ## The end of a member -/

theorem accs_releaseJoins (s : State) (rel : Nat) : (releaseJoins s rel).accs = s.accs := by
  have hs (t : State) : (settle t rel).accs = t.accs := by rw [membersOnly_settle]
  unfold releaseJoins
  split
  · rfl
  · split
    · split
      · rw [hs]
        exact (aside_retireAs ..).accs
      · rfl
    · split
      · rfl
      · exact hs s
    · rfl

theorem accs_countDeparture (s : State) (id : Nat) (m : Member) : (countDeparture s id m).accs = s.accs := by
  unfold countDeparture fence
  split
  · rfl
  · split
    · rfl
    · exact (aside_settleFences ..).accs

theorem accs_reportSteps (s : State) (m : Member) (k : Nat) : (reportSteps s m k).accs = s.accs := by
  unfold reportSteps
  split <;> rfl

theorem accs_serveSpanReads (s : State) (m : Member) : (serveSpanReads s m).accs = s.accs := by
  have hf : ∀ (f : SpanWait → Nat) (l : List SpanWait) (t : State), (l.foldl (fun t w => escapeFace t m (f w)) t).accs = t.accs := by
    intro f l
    induction l with
    | nil => exact fun _ => rfl
    | cons w r ih => exact fun t => ih _
  unfold serveSpanReads
  split
  · rfl
  · exact hf _ _ s

theorem accsFrom_leaveMember (s : State) (id : Nat) : AccsFrom s.accs (leaveMember s id).accs := by
  cases hm : memberAt s id with
  | none => simp only [leaveMember, hm]; exact .refl _
  | some m =>
    have hl : AccsFrom s.accs (leaving s id m).accs := by
      rw [(leaving_units s id m).1]
      exact accsFrom_filter _ _
    refine hl.trans (.ofEq ?_)
    cases hk : m.kind with
    | grid => rw [leaveMember_grid hm hk, accs_serveSpanReads, accs_reportSteps, accs_countDeparture, updMember_accs]
    | curator => rw [leaveMember_curator hm hk, updMember_accs]
    | task => rw [leaveMember_task hm hk, updMember_accs]
    | tail => rw [leaveMember_tail hm hk, accs_releaseJoins, updMember_accs]

theorem accsFrom_terminate (s : State) (id : Nat) : AccsFrom s.accs (terminate s id).accs := by
  unfold terminate
  split
  · exact .refl _
  · split
    · exact .refl _
    · split
      · exact .refl _
      · exact (AccsFrom.foldl accsFrom_abandonAcc _ s).trans (accsFrom_leaveMember _ _)

theorem membersSettle_abandonAcc (s : State) (id : Nat) : MembersSettle s (abandonAcc s id) := by
  unfold abandonAcc
  split
  · exact .refl s
  · next a ha =>
    simp only
    generalize hs1 : (if a.kind == .vld then _ else s) = s1
    have h1 : MembersSettle s s1 := by
      rw [← hs1]
      split <;> exact .ofMembers rfl
    have h2 := h1.trans (aside_retireAcc s1 a).members
    cases h : tabGet (retireAcc s1 a).accs id with
    | none => simp only [finishAcc, h]; exact h2
    | some b => exact h2.trans (membersSettle_finishAcc h)

theorem membersSettle_abandonLogs (s : State) (id : Nat) : MembersSettle s (abandonLogs s id) :=
  MembersSettle.foldl membersSettle_abandonAcc _ s

/-- A member that leaves has ended. -/
theorem hasEnded_leaveMember {s : State} {id : Nat} {m : Member} (h : memberAt s id = some m) :
    ∃ v, memberAt (leaveMember s id) id = some v ∧ v.wait = .inactive ∧ (v.place = .gone ∨ v.kind = .curator) := by
  by_cases hk : m.kind = .tail
  · obtain ⟨v, hv, hw, hp, -⟩ := (tailEnded_leaveMember h hk).member
    exact ⟨v, hv, hw, .inl hp⟩
  · obtain ⟨v, hv, hw, hkind, -, -, -, -, hplace, -⟩ := (left_leaveMember h hk).member
    refine ⟨v, hv, hw, ?_⟩
    by_cases hc : m.kind = .curator
    · exact .inr (hkind.trans hc)
    · exact .inl (by simpa [hc] using hplace)

/-! ## Writes of registers with behaviour of their own -/

theorem ioStep_of_writing {s : State} {id : Nat} {a : Access} {wide : Bool} {u : IoUnit} {off : Nat} {l : Nat × Nat}
    (h : IoWriting s id a wide u off l) (act : IoUnit → Nat → Nat × Nat → Option State) :
    ioStep s id act = match act u off l with | some s1 => .next (completeAcc s1 id) | none => .next s := by
  have hw : ioWriteOf s id = some (a, u, off, l.1, l.2) := by
    simp only [ioWriteOf, h.acc, h.kind, h.unit, h.ready, if_true, h.off, h.lanes]
  unfold ioStep
  rw [hw] <;> rfl

/-- Where no access came and kinds stayed, the access that completes is the write itself. -/
theorem performed_of_writing {s s1 : State} {id : Nat} {a : Access} {wide : Bool} {u : IoUnit} {off : Nat} {l : Nat × Nat}
    (h : IoWriting s id a wide u off l) (hk : Keyed s.accs) (hf : AccsFrom s.accs s1.accs) : Performed s1 (completeAcc s1 id) id :=
  performed_completeAcc fun _ hb => ⟨wide, (hf.kind hk h.acc hb).trans h.kind⟩

theorem performed_of_accs {s s1 : State} {id : Nat} {a : Access} {wide : Bool} {u : IoUnit} {off : Nat} {l : Nat × Nat}
    (h : IoWriting s id a wide u off l) (he : s1.accs = s.accs) : Performed s1 (completeAcc s1 id) id :=
  performed_completeAcc fun b hb => ⟨wide, by rw [he, h.acc] at hb; cases hb; exact h.kind⟩

/-- An access that completes is gone. -/
theorem absent_completeAcc {s s1 : State} {id : Nat} {a : Access} {wide : Bool} {u : IoUnit} {off : Nat} {l : Nat × Nat}
    (h : IoWriting s id a wide u off l) (hk : Keyed s.accs) (hf : AccsFrom s.accs s1.accs) :
    tabGet (completeAcc s1 id).accs id = none := by
  rw [(performed_of_writing h hk hf).accs]
  exact tabGet_tabDrop_same (hf.kept hk).1 id

/-- An event of a register write: what it makes of the state before the write completes keeps memory and issues no access. -/
theorem ioEvent_of_act {ev : Nat → Instr} {isFor : IoUnit → Nat → Nat × Nat → Prop} {P : State → IoUnit → Nat → Nat × Nat → State → Prop}
    (act : State → Nat → IoUnit → Nat → Nat × Nat → Option State) (hexec : ∀ s id, exec (ev id) s = ioStep s id (act s id))
    (hno : ∀ s id u off l, ¬ isFor u off l → act s id u off l = none)
    (hyes : ∀ s id a wide u off l, IoWriting s id a wide u off l → isFor u off l → ∃ s1, act s id u off l = some s1 ∧ s1.mem = s.mem ∧
      AccsFrom s.accs s1.accs ∧ P s u off l (completeAcc s1 id)) : IoEvent ev isFor P := by
  intro s id a wide u off l h
  have he := (hexec s id).trans (ioStep_of_writing h (act s id))
  refine ⟨fun hn => ?_, fun hy => ?_⟩
  · rw [hno s id u off l hn] at he
    exact he
  · obtain ⟨s1, h1, hm, hf, hp⟩ := hyes s id a wide u off l h hy
    rw [h1] at he
    exact ⟨_, he, fun x => by rw [mem_completeAcc, hm], fun hk => absent_completeAcc h hk hf, hp⟩

/-- The effect of a write of ACT with a code. -/
def actEffect (act : Nat) (s : State) (id : Nat) (u : IoUnit) (off : Nat) (l : Nat × Nat) : Option State :=
  match u with
  | .core g =>
    if off == 8 && natBit l.2 0 && natBits l.1 6 2 == act then some (disposeEntry s (ioField s id) g (natBits l.1 0 6) act) else none
  | _ => none

theorem actEffect_none {act : Nat} {s : State} {id : Nat} {u : IoUnit} {off : Nat} {l : Nat × Nat} (h : ¬ actCmd 8 act u off l) :
    actEffect act s id u off l = none := by
  unfold actEffect
  split
  · next g =>
    refine if_neg fun hc => h ?_
    simp only [Bool.and_eq_true, beq_iff_eq] at hc
    exact ⟨⟨g, rfl⟩, hc.1.1, hc.1.2, hc.2⟩
  · rfl

theorem actEffect_some {act : Nat} {s : State} {id : Nat} {u : IoUnit} {off : Nat} {l : Nat × Nat} (h : actCmd 8 act u off l) :
    ∃ g, u = .core g ∧ actEffect act s id u off l = some (disposeEntry s (ioField s id) g (natBits l.1 0 6) act) := by
  obtain ⟨⟨g, rfl⟩, rfl, hb, hcode⟩ := h
  rw [if_pos rfl] at hcode
  exact ⟨g, rfl, by simp [actEffect, hb, hcode]⟩

/-- A write of ACT with a code: the disposition of the entry, and the end of the write. -/
theorem ioEvent_act {ev : Nat → Instr} {act : Nat} {P : State → IoUnit → Nat → Nat × Nat → State → Prop}
    (hexec : ∀ s id, exec (ev id) s = ioStep s id (actEffect act s id))
    (hP : ∀ s id a wide g off l, IoWriting s id a wide (.core g) off l →
      P s (.core g) off l (completeAcc (disposeEntry s (ioField s id) g (natBits l.1 0 6) act) id)) : IoEvent ev (actCmd 8 act) P := by
  refine ioEvent_of_act (actEffect act) hexec (fun _ _ _ _ _ => actEffect_none) fun s id a wide u off l h hf => ?_
  obtain ⟨g, rfl, he⟩ := actEffect_some (s := s) (id := id) hf
  exact ⟨_, he, mem_disposeEntry .., accsFrom_disposeEntry .., hP s id a wide g off l h⟩

/-- The effect of a write of STOPACT with a code. -/
def stopEffect (act : Nat) (run : State → Nat → Member → State) (s : State) (u : IoUnit) (off : Nat) (l : Nat × Nat) : Option State :=
  match u with
  | .core g =>
    if off == 0x18 && natBit l.2 0 && natBits l.1 0 2 == act then
      some (match namedMember s g with | some (id, m) => run s id m | none => s)
    else none
  | _ => none

theorem stopEffect_none {act : Nat} {run : State → Nat → Member → State} {s : State} {u : IoUnit} {off : Nat} {l : Nat × Nat}
    (h : ¬ actCmd 0x18 act u off l) : stopEffect act run s u off l = none := by
  unfold stopEffect
  split
  · next g =>
    refine if_neg fun hc => h ?_
    simp only [Bool.and_eq_true, beq_iff_eq] at hc
    exact ⟨⟨g, rfl⟩, hc.1.1, hc.1.2, hc.2⟩
  · rfl

theorem stopEffect_some {act : Nat} {run : State → Nat → Member → State} {s : State} {u : IoUnit} {off : Nat} {l : Nat × Nat}
    (h : actCmd 0x18 act u off l) : ∃ g, u = .core g ∧
      stopEffect act run s u off l = some (match namedMember s g with | some (id, m) => run s id m | none => s) := by
  obtain ⟨⟨g, rfl⟩, rfl, hb, hcode⟩ := h
  rw [if_neg (by decide)] at hcode
  exact ⟨g, rfl, by simp [stopEffect, hb, hcode]⟩

/-- The member that a core's 0x0010 names is one of the machine. -/
theorem memberAt_namedMember {s : State} {g id : Nat} {m : Member} (h : namedMember s g = some (id, m)) (hk : Keyed s.members) :
    memberAt s id = some m := tabGet_of_mem hk (List.mem_of_find?_eq_some h)

/-- What a STOPACT makes of the named member, if one is named: accesses and memory. -/
theorem stopped_kept {R : State → State → Prop} {run : State → Nat → Member → State} (s : State) (hrefl : R s s)
    (hrun : ∀ id m, R s (run s id m)) (g : Nat) : R s (match namedMember s g with | some (id, m) => run s id m | none => s) := by
  split
  · exact hrun _ _
  · exact hrefl

/-- A write of STOPACT with a code: what becomes of the named member, and the end of the write. -/
theorem ioEvent_stop {ev : Nat → Instr} {act : Nat} {run : State → Nat → Member → State}
    {P : State → IoUnit → Nat → Nat × Nat → State → Prop}
    (hexec : ∀ s id, exec (ev id) s = ioStep s id (stopEffect act run s)) (hmem : ∀ s id m, (run s id m).mem = s.mem)
    (haccs : ∀ s id m, AccsFrom s.accs (run s id m).accs)
    (hP : ∀ s x a wide g off l, IoWriting s x a wide (.core g) off l →
      P s (.core g) off l (completeAcc (match namedMember s g with | some (id, m) => run s id m | none => s) x)) :
    IoEvent ev (actCmd 0x18 act) P := by
  refine ioEvent_of_act (fun s _ => stopEffect act run s) hexec (fun _ _ _ _ _ => stopEffect_none) fun s x a wide u off l h hf => ?_
  obtain ⟨g, rfl, he⟩ := stopEffect_some (run := run) (s := s) hf
  exact ⟨_, he, stopped_kept (R := fun s t => t.mem = s.mem) s rfl (hmem s) g,
    stopped_kept (R := fun s t => AccsFrom s.accs t.accs) s (.refl _) (haccs s) g, hP s x a wide g off l h⟩

/-! ## An entry given up (R182, R270, R276) -/

/-- The log entry as its disposition finds it: an acquire of what the writing field knows (R294). -/
def releasedEntry (s : State) (from_ : Nat) (e : LogEntry) : LogEntry := { e with need := (fieldAt s from_).know, waiting := true }

/-- The state in which a disposition takes effect. -/
def disposing (s : State) (from_ g i : Nat) (e : LogEntry) : State :=
  updCore s g fun u => { u with log := tabPut u.log i (releasedEntry s from_ e) }

section
variable {s : State} {g i : Nat} {e : LogEntry} {a : Access} {m : Member} (h : Waits s g i e a m)
include h

/-- The disposition of an entry that keeps an access of a member that is in takes effect at once. -/
theorem disposeEntry_of_waits (from_ act : Nat) : disposeEntry s from_ g i act = applyAct (disposing s from_ g i e) g i act := by
  have hout : ((memberAt s e.member).map isOutMember).getD false = false := by rw [h.member]; exact h.inside.1
  unfold disposeEntry
  simp only [h.entry, h.waiting, hout]
  rfl

theorem applyAct_disposing (from_ act : Nat) : applyAct (disposing s from_ g i e) g i act =
    (if act == 0 then replayEntry (disposing s from_ g i e) g i (releasedEntry s from_ e) a
     else if act == 1 then deliverLog (disposing s from_ g i e) (releasedEntry s from_ e) a
     else dropAccess (disposing s from_ g i e) e.acc a) := by
  have hlog : tabGet (coreAt (disposing s from_ g i e) g).log i = some (releasedEntry s from_ e) := by
    rw [disposing, coreAt_updCore_same]
    exact tabGet_tabPut_same ..
  have hacc : tabGet (disposing s from_ g i e).accs (releasedEntry s from_ e).acc = some a := h.acc
  unfold applyAct
  simp only [hlog, hacc]
  rfl

theorem kind_ne_ioWrite_of_waits (w : Bool) : a.kind ≠ .ioWrite w := by
  rcases h.kind with hk | hk <;> rw [hk] <;> nofun

theorem not_vld_of_waits : (a.kind == .vld) = false := by
  rcases h.kind with hk | hk <;> rw [hk] <;> rfl

/-- The access of the entry is gone, its entry is free, and its member stands as it did. -/
theorem gaveUp_dropAccess {s1 : State} (ha : s1.accs = s.accs) (hm : s1.members = s.members) :
    GivenUp (dropAccess s1 e.acc a) g e ∧
      ∃ v, memberAt (dropAccess s1 e.acc a) e.member = some v ∧ Calmly (Keyed s1.members) m v := by
  obtain ⟨hcore, hmember, -⟩ := h.here
  have hacc : tabGet s1.accs e.acc = some a := by rw [ha, h.acc]
  have hret : tabGet (retireAcc s1 a).accs e.acc = some a := by rw [accs_retireAcc, hacc]
  have he : abandonAcc s1 e.acc = finishAcc (retireAcc s1 a) e.acc := by
    simp only [abandonAcc, hacc, not_vld_of_waits h]
    rfl
  obtain ⟨v, hv, hset⟩ := ((aside_retireAcc s1 a).members.trans (membersSettle_finishAcc hret)).member e.member m
    (by rw [memberAt_of_members hm, h.member])
  have hcalm := hset.calm (by rw [h.inside.2.2.1]; nofun)
  have hswait : (v.wait == .swait e.acc) = false := by
    rw [beq_eq_false_iff_ne]
    refine hcalm.wait.elim (fun e' => ?_) fun hb => hb.ne_swait _
    rw [e', h.inside.2.2.1]
    nofun
  have hd : dropAccess s1 e.acc a = finishAcc (retireAcc s1 a) e.acc := by
    unfold dropAccess releaseSwait
    rw [he, hmember]
    simp only [hv, hswait]
    rfl
  rw [hd]
  refine ⟨⟨?_, fun x hx => ?_⟩, v, hv, hcalm⟩
  · have hk : Keyed (retireAcc s1 a).accs := by rw [accs_retireAcc, ha]; exact h.keyed.2
    exact (accsFrom_drop_finishAcc hret).absent (keyed_tabDrop hk _) (tabGet_tabDrop_same hk _)
  · rw [log_finishAcc hret, logWithout, if_pos hcore.symm] at hx
    simpa using (List.mem_filter.mp hx).2

end

/-- What has been given up stays so, and a member that stands stays, while a register write completes. -/
theorem gaveUp_performed {u t : State} {id g : Nat} {e : LogEntry} (h : Performed u t id) (hid : e.acc ≠ id) (hg : GivenUp u g e) :
    GivenUp t g e :=
  ⟨by rw [h.accs, tabGet_tabDrop_other _ hid, hg.1], fun x hx => hg.2 x (h.subset g x hx)⟩

theorem calm_performed {u t : State} {id n : Nat} {v : Member} (h : Performed u t id) (hv : memberAt u n = some v)
    (hw : v.wait ≠ .drain .eret) : ∃ w, memberAt t n = some w ∧ Calmly (Keyed u.members) v w := by
  obtain ⟨w, hw', hs⟩ := h.members.member n v hv
  exact ⟨w, hw', hs.calm hw⟩

section
variable {s : State} {g i : Nat} {e : LogEntry} {a : Access} {m : Member} (h : Waits s g i e a m)
include h

/-- The write of a register is no access that an operand log keeps. -/
theorem acc_ne_of_waits {id : Nat} {x : Access} {wide : Bool} {u : IoUnit} {off : Nat} {l : Nat × Nat}
    (hw : IoWriting s id x wide u off l) : e.acc ≠ id := by
  intro he
  have hx := hw.acc
  rw [← he, h.acc] at hx
  cases hx
  exact kind_ne_ioWrite_of_waits h wide hw.kind

/-- The fault that an entry delivers joins those that wait for its member (R270, R276). -/
theorem deliverLog_of_waits (from_ : Nat) {v : Member} (hv : memberAt (dropAccess (disposing s from_ g i e) e.acc a) e.member = some v)
    (hc : Calmly (Keyed s.members) m v) : ∃ fi : FaultInfo, (fi.direct = true ∧ fi.async = true ∧ fi.addr = e.addr ∧ fi.word = a.word ∧
      fi.cause = if 0x80 ≤ e.cause then e.cause - 0x80 else e.cause + 0x0F) ∧
    deliverLog (disposing s from_ g i e) (releasedEntry s from_ e) a =
      updMember (dropAccess (disposing s from_ g i e) e.acc a) e.member fun v => { v with async := v.async ++ [fi] } := by
  obtain ⟨-, hplace, hwait, -⟩ := h.inside
  have hno : ¬ (v.place == .gone || v.wait == .inactive) = true := by
    have hw : v.wait ≠ .inactive := hc.wait.elim (fun e' => by rw [e', hwait]; nofun) AtBoundary.ne_inactive
    have hp : v.place ≠ .gone := by rw [hc.same]; exact hplace
    simp [hp, hw]
  refine ⟨{ accFault a (entryCause (releasedEntry s from_ e)) (if e.cause ≥ 0x80 then e.detail else e.cause) e.addr with direct := true },
    ⟨rfl, rfl, rfl, rfl, rfl⟩, ?_⟩
  unfold deliverLog queueFault
  change (match memberAt (dropAccess (disposing s from_ g i e) e.acc a) e.member with | none => _ | some m => _) = _
  rw [hv]
  exact if_neg hno

/-- ACT 1 queues the fault of an entry whose access it gives up (R270, R276). -/
theorem delivered_of_waits {id : Nat} {x : Access} {wide : Bool} {off : Nat} {l : Nat × Nat} (hw : IoWriting s id x wide (.core g) off l)
    (from_ : Nat) {t : State} (ht : t = completeAcc (disposeEntry s from_ g i 1) id) :
    GivenUp t g e ∧ ∃ v fi, memberAt t e.member = some v ∧ v.r = m.r ∧ v.async = m.async ++ [fi] ∧ fi.direct = true ∧ fi.async = true ∧
      fi.addr = e.addr ∧ fi.word = a.word ∧ fi.cause = (if 0x80 ≤ e.cause then e.cause - 0x80 else e.cause + 0x0F) := by
  obtain ⟨hg, v, hv, hc⟩ := gaveUp_dropAccess h (s1 := disposing s from_ g i e) rfl rfl
  obtain ⟨fi, hfi, hd⟩ := deliverLog_of_waits h from_ hv hc
  have hp : Performed (deliverLog (disposing s from_ g i e) (releasedEntry s from_ e) a) t id := by
    have hp := performed_of_writing hw h.keyed.2 (accsFrom_disposeEntry s from_ g i 1)
    rw [← ht, disposeEntry_of_waits h, applyAct_disposing h] at hp
    exact hp
  rw [hd] at hp
  obtain ⟨w, hw', hcalm⟩ := calm_performed (n := e.member) (v := { v with async := v.async ++ [fi] }) hp
    (by rw [memberAt_updMember_same, hv]; rfl) (hc.ne_eret (by rw [h.inside.2.2.1]; nofun))
  exact ⟨gaveUp_performed hp (acc_ne_of_waits h hw) ⟨hg.1, hg.2⟩, w, fi, hw', by rw [hcalm.same, hc.same], by rw [hcalm.same, hc.same], hfi⟩

/-- ACT 2 gives the access of an entry up, and nothing else (R276). -/
theorem abandoned_of_waits {id : Nat} {x : Access} {wide : Bool} {off : Nat} {l : Nat × Nat} (hw : IoWriting s id x wide (.core g) off l)
    (from_ : Nat) {t : State} (ht : t = completeAcc (disposeEntry s from_ g i 2) id) :
    GivenUp t g e ∧ ∃ v, memberAt t e.member = some v ∧ v.r = m.r ∧ v.async = m.async := by
  obtain ⟨hg, v, hv, hc⟩ := gaveUp_dropAccess h (s1 := disposing s from_ g i e) rfl rfl
  have hp : Performed (dropAccess (disposing s from_ g i e) e.acc a) t id := by
    have hp := performed_of_writing hw h.keyed.2 (accsFrom_disposeEntry s from_ g i 2)
    rw [← ht, disposeEntry_of_waits h, applyAct_disposing h] at hp
    exact hp
  obtain ⟨w, hw', hcalm⟩ := calm_performed (n := e.member) hp hv (hc.ne_eret (by rw [h.inside.2.2.1]; nofun))
  exact ⟨gaveUp_performed hp (acc_ne_of_waits h hw) hg, w, hw', by rw [hcalm.same, hc.same], by rw [hcalm.same, hc.same]⟩

end

/-! ## Replay (R182, R276) -/

/-- A walk reads memory alone. -/
theorem walkFrom_updCore (s : State) (g : Nat) (f : CoreUnit → CoreUnit) (svc : Bool) (choice va : Nat) (fuel level table : Nat) :
    walkFrom (updCore s g f) svc choice va fuel level table = walkFrom s svc choice va fuel level table := by
  induction fuel generalizing level table with
  | zero => rfl
  | succ n ih =>
    rw [walkFrom, walkFrom]
    simp only [ih]
    rfl

section
variable (s : State) (g : Nat) {f : CoreUnit → CoreUnit} (ht : ∀ u, (f u).tlb = u.tlb) (ha : ∀ u, (f u).ahead = u.ahead)
include ht ha

theorem translateVirt_updCore (core : Nat) (ahead : Bool) (root asn : Nat) (need : Need) (va : Nat) :
    (translateVirt (updCore s g f) core ahead root asn need va).1 = (translateVirt s core ahead root asn need va).1 := by
  have htlb : (coreAt (updCore s g f) core).tlb = (coreAt s core).tlb ∧ (coreAt (updCore s g f) core).ahead = (coreAt s core).ahead := by
    by_cases hg : core = g
    · rw [hg, coreAt_updCore_same]
      exact ⟨ht _, ha _⟩
    · rw [coreAt_updCore_other _ _ hg]
      exact ⟨rfl, rfl⟩
  have hwalk : walkTables (updCore s g f) (isService core) root va = walkTables s (isService core) root va := walkFrom_updCore ..
  unfold translateVirt
  simp only [htlb.1, htlb.2, hwalk]
  split
  · rfl
  · split <;> rfl

/-- What a core's operand log holds decides no check of an address. -/
theorem resolveIn_updCore (descs : Vector DescBits 6) (core home : Nat) (ahead : Bool) (need : Need) (addr : Word64) (size : Nat) :
    (resolveIn (updCore s g f) descs core home ahead need addr size).1 = (resolveIn s descs core home ahead need addr size).1 := by
  unfold resolveIn
  simp only [apply_ite Prod.fst, translateVirt_updCore s g ht ha]
  rfl

end

theorem firstFree_le {α : Type} {t : Tab α} {j : Nat} (hj : tabGet t j = none) :
    ∀ n k, k ≤ j → j < k + n → firstFree t n k ≤ j := by
  intro n
  induction n with
  | zero => exact fun k _ _ => by omega
  | succ n ih =>
    intro k hk hn
    rw [firstFree]
    split
    · next hs =>
      have : k ≠ j := fun e => by rw [e, hj] at hs; cases hs
      exact ih (k + 1) (by omega) (by omega)
    · exact hk

theorem at_pa (t : Target) : t.at t.pa = t := by cases t <;> rfl

/-- An access that the checks let go. -/
def resolvedAgain (a : Access) (r : Resolved) : Access :=
  { a with tgt := r.tgt, attr := r.attr, pol := policyOf (wordPolicy a) r.pol, phase := .issued }

/-- The checks of a load or a store made again. -/
theorem again_plain {a : Access} (hk : a.kind = .load ∨ a.kind = .store) (hs : a.size ≠ 0) (s : State) :
    (∀ r, (againAt s a a.addr a.size).1 = .ok r → again s a = (.ok (resolvedAgain a r), (againAt s a a.addr a.size).2)) ∧
    ∀ c, (againAt s a a.addr a.size).1 = .held c → again s a = (.held c a.addr, (againAt s a a.addr a.size).2) := by
  have hcas : (a.kind == .kcas2) = false := by rcases hk with hk | hk <;> rw [hk] <;> rfl
  have hsize : (a.size == 0) = false := by simpa using hs
  unfold again
  simp only [hcas, hsize, Bool.false_eq_true, if_false, Bool.false_and, Nat.sub_zero]
  generalize againAt s a a.addr a.size = p
  obtain ⟨q, s1⟩ := p
  refine ⟨fun r hr => ?_, fun c hc => ?_⟩
  · cases (show q = .ok r from hr)
    exact congrArg (fun t => (Again.ok { a with tgt := t, attr := r.attr, pol := policyOf (wordPolicy a) r.pol, phase := .issued }, s1))
      (at_pa r.tgt)
  · cases (show q = .held c from hc)
    rfl

/-- The checks that a replay makes are those of the state before (R182). -/
theorem againAt_disposing (s : State) (from_ g i : Nat) (e : LogEntry) (a : Access) :
    (againAt (disposing s from_ g i e) a a.addr a.size).1 =
    (resolveIn s a.descs a.core (homeOf s a.member a.core) false a.kind.need a.addr a.size).1 :=
  resolveIn_updCore s g (f := fun u => { u with log := tabPut u.log i (releasedEntry s from_ e) }) (fun _ => rfl) (fun _ => rfl) ..

section
variable {s : State} {g i : Nat} {e : LogEntry} {a : Access} {m : Member} (h : Waits s g i e a m)
include h

theorem accGroup_of_waits (u : State) (k : Nat) : accGroup u k a = [(k, a)] := by
  simp only [accGroup, not_vld_of_waits h]
  rfl

/-- An access that the checks let go is on its way, and its entry waits for no disposition (R182, R294). -/
theorem replayEntry_ok (hb : a.bad = none) (hs : a.size ≠ 0) (from_ : Nat) {r : Resolved}
    (hr : (resolveIn s a.descs a.core (homeOf s a.member a.core) false a.kind.need a.addr a.size).1 = .ok r) :
    ∃ s2, WalksOnly (disposing s from_ g i e) s2 ∧ replayEntry (disposing s from_ g i e) g i (releasedEntry s from_ e) a =
      updAcc (updCore s2 g fun u => { u with log := tabPut u.log i { releasedEntry s from_ e with waiting := false } }) e.acc
        fun _ => { resolvedAgain a r with heldCause := 0, acq := true, need := joinVec a.need (fieldAt s from_).know } := by
  have hag := (again_plain h.kind hs (disposing s from_ g i e)).1 r ((againAt_disposing ..).trans hr)
  refine ⟨(againAt (disposing s from_ g i e) a a.addr a.size).2, walksOnly_resolveIn .., ?_⟩
  unfold replayEntry
  simp only [hb, accGroup_of_waits h, againAll, hag]
  rfl

/-- An access that a cause holds again enters the log again (R181, R182). -/
theorem replayEntry_held (hb : a.bad = none) (hs : a.size ≠ 0) (from_ : Nat) {c : Nat}
    (hr : (resolveIn s a.descs a.core (homeOf s a.member a.core) false a.kind.need a.addr a.size).1 = .held c) :
    ∃ s2, WalksOnly (disposing s from_ g i e) s2 ∧ replayEntry (disposing s from_ g i e) g i (releasedEntry s from_ e) a =
      (logIssued (freeEntry s2 g i) e.acc a c (c + 0x0F) c 0 a.addr).getD (disposing s from_ g i e) := by
  have hag := (again_plain h.kind hs (disposing s from_ g i e)).2 c ((againAt_disposing ..).trans hr)
  refine ⟨(againAt (disposing s from_ g i e) a a.addr a.size).2, walksOnly_resolveIn .., ?_⟩
  unfold replayEntry
  simp only [hb, accGroup_of_waits h, againAll, hag]
  rfl

/-- The log that a freed entry leaves has room, and keeps the access with the cause that holds it. -/
theorem logged_again (hi : i < 64) (from_ : Nat) {s2 : State} (hw : WalksOnly (disposing s from_ g i e) s2) (c : Nat) :
    ∃ t, logIssued (freeEntry s2 g i) e.acc a c (c + 0x0F) c 0 a.addr = some t ∧
      ∃ y, tabGet t.accs e.acc = some y ∧ y.phase = .logged ∧ y.heldCause = c := by
  obtain ⟨hcore, hmember, -⟩ := h.here
  obtain ⟨v, hv, -⟩ : ∃ v, memberAt (freeEntry s2 g i) a.member = some v ∧ _ := by
    refine (MembersSettle.trans ?_ (aside_wakeLogWaiters (updCore s2 g fun u => { u with log := tabDrop u.log i }) g).members).member _ m
      (by rw [hmember, h.member])
    exact .ofMembers hw.members
  have hlog : (coreAt (freeEntry s2 g i) a.core).log = tabDrop (tabPut (coreAt s g).log i (releasedEntry s from_ e)) i := by
    rw [hcore, freeEntry, (aside_wakeLogWaiters ..).logs, coreAt_updCore_same]
    show tabDrop (coreAt s2 g).log i = _
    rw [hw.core, disposing, coreAt_updCore_same]
  have hfree : firstFree (coreAt (freeEntry s2 g i) a.core).log 64 0 < 64 := by
    refine Nat.lt_of_le_of_lt (firstFree_le ?_ 64 0 (Nat.zero_le i) (by omega)) hi
    rw [hlog]
    exact tabGet_tabDrop_same (keyed_tabPut h.keyed.1 ..) i
  have hacc : tabGet (freeEntry s2 g i).accs e.acc = some a := by
    rw [accs_freeEntry, hw.accs]
    exact h.acc
  have hdepth : ¬ firstFree (coreAt (freeEntry s2 g i) a.core).log Config.logDepth 0 ≥ Config.logDepth := Nat.not_le.mpr hfree
  unfold logIssued
  simp only [hv, if_neg hdepth, accGroup_of_waits h, not_vld_of_waits h]
  refine ⟨_, rfl, { a with heldCause := c, phase := .logged, fetched := none }, ?_, rfl, rfl⟩
  simp [updAcc, sendRecord, updMod, hacc]

/-- ACT 0 replays an entry (R182, R276). -/
theorem replayed_of_waits {id : Nat} {x : Access} {wide : Bool} {off : Nat} {l : Nat × Nat} (hw : IoWriting s id x wide (.core g) off l)
    (hi : i < 64) (from_ : Nat) (hb : a.bad = none) (hs : a.size ≠ 0) {t : State} (ht : t = completeAcc (disposeEntry s from_ g i 0) id) :
    let again := (resolveIn s a.descs a.core (homeOf s a.member a.core) false a.kind.need a.addr a.size).1
    (∀ r, again = .ok r → ∃ y, tabGet t.accs e.acc = some y ∧ y.phase = .issued ∧ y.tgt = r.tgt ∧ y.attr = r.attr ∧ y.data = a.data ∧
      y.dest = a.dest ∧ y.acq = true ∧ ∃ e', tabGet (coreAt t g).log i = some e' ∧ e'.acc = e.acc ∧ e'.waiting = false) ∧
    (∀ c, again = .held c → ∃ y, tabGet t.accs e.acc = some y ∧ y.phase = .logged ∧ y.heldCause = c) := by
  have hp := performed_of_writing hw h.keyed.2 (accsFrom_disposeEntry s from_ g i 0)
  have hne := acc_ne_of_waits h hw
  have hd : disposeEntry s from_ g i 0 = replayEntry (disposing s from_ g i e) g i (releasedEntry s from_ e) a := by
    rw [disposeEntry_of_waits h, applyAct_disposing h]
    rfl
  rw [← ht, hd] at hp
  have haccs : tabGet t.accs e.acc = tabGet (replayEntry (disposing s from_ g i e) g i (releasedEntry s from_ e) a).accs e.acc := by
    rw [hp.accs, tabGet_tabDrop_other _ hne]
  refine ⟨fun r hr => ?_, fun c hc => ?_⟩
  · obtain ⟨s2, hw2, he⟩ := replayEntry_ok h hb hs from_ hr
    rw [he] at hp haccs
    have hacc2 : tabGet s2.accs e.acc = some a := by rw [hw2.accs]; exact h.acc
    refine ⟨{ resolvedAgain a r with heldCause := 0, acq := true, need := joinVec a.need (fieldAt s from_).know }, haccs.trans ?_,
      rfl, rfl, rfl, rfl, rfl, rfl, { releasedEntry s from_ e with waiting := false }, ?_, rfl, rfl⟩
    · show tabGet (tabUpd s2.accs e.acc _) e.acc = _
      rw [tabGet_tabUpd_same, hacc2]
      rfl
    · have hlog2 : Keyed (coreAt s2 g).log := by
        rw [hw2.core, disposing, coreAt_updCore_same]
        exact keyed_tabPut h.keyed.1 ..
      refine tabGet_of_mem (hp.keyed g ?_) (hp.kept g _ (mem_of_tabGet ?_) hne)
      · rw [coreAt_updAcc, coreAt_updCore_same]
        exact keyed_tabPut hlog2 ..
      · rw [coreAt_updAcc, coreAt_updCore_same]
        exact tabGet_tabPut_same ..
  · obtain ⟨s2, hw2, he⟩ := replayEntry_held h hb hs from_ hc
    obtain ⟨u, hu, y, hy, h1, h2⟩ := logged_again h hi from_ hw2 c
    rw [he, hu] at haccs
    exact ⟨y, haccs.trans hy, h1, h2⟩

end

end Sys2Proof.Proofs
end


section
/-!
PROOF. Dispositions of stopped members (R276, R281, R283), and the obligation about dispositions.
-/
set_option linter.constructorNameAsVariable false
namespace Sys2Proof.Proofs
open Sys2Proof.Machine Sys2Proof.Safety

/-! ## Members that have ended stay so -/

/-- Where the table of members is kept, a member that is inactive stays inactive, at its place. -/
structure EndedStay (s t : State) : Prop where
  kept : Keyed s.members → Keyed t.members ∧ ∀ n m, memberAt s n = some m → m.wait = .inactive →
    ∃ v, memberAt t n = some v ∧ v.wait = .inactive ∧ v.place = m.place ∧ v.kind = m.kind

theorem EndedStay.trans {s t u : State} (h : EndedStay s t) (g : EndedStay t u) : EndedStay s u := by
  refine ⟨fun hk => ?_⟩
  obtain ⟨ht, h1⟩ := h.kept hk
  obtain ⟨hu, g1⟩ := g.kept ht
  refine ⟨hu, fun n m hm hw => ?_⟩
  obtain ⟨v, hv, a1, a2, a3⟩ := h1 n m hm hw
  obtain ⟨w, hw', b1, b2, b3⟩ := g1 n v hv a1
  exact ⟨w, hw', b1, b2.trans a2, b3.trans a3⟩

theorem MembersSettle.endedStay {s t : State} (h : MembersSettle s t) : EndedStay s t := by
  refine ⟨fun hk => ⟨h.keyed hk, fun n m hm hw => ?_⟩⟩
  obtain ⟨v, hv, hs⟩ := h.member n m hm
  have hc := hs.calm (by rw [hw]; nofun)
  have hno : ¬ MayWake m := by
    rintro (hm | hm | ⟨hm, -⟩) <;> rw [hw] at hm <;> cases hm
  exact ⟨v, hv, (hc.still hk hno).trans hw, by rw [hc.same], by rw [hc.same]⟩

theorem endedStay_updMember (s : State) (id : Nat) {f : Member → Member}
    (h : ∀ m, (f m).wait = m.wait ∧ (f m).place = m.place ∧ (f m).kind = m.kind) : EndedStay s (updMember s id f) := by
  refine ⟨fun hk => ⟨keyed_updMember hk id f, fun n m hm hw => ?_⟩⟩
  by_cases hn : n = id
  · obtain ⟨h1, h2, h3⟩ := h m
    exact ⟨f m, by rw [← hn, memberAt_updMember_same, hm]; rfl, h1.trans hw, h2, h3⟩
  · exact ⟨m, by rw [memberAt_updMember_other _ _ hn, hm], hw, rfl, rfl⟩

theorem EndedStay.refl (s : State) : EndedStay s s := (MembersSettle.refl s).endedStay

theorem EndedStay.ofMembers {s t : State} (h : t.members = s.members) : EndedStay s t := (MembersSettle.ofMembers h).endedStay

theorem Aside.endedStay {s t : State} (h : Aside s t) : EndedStay s t := h.members.endedStay

theorem endedStay_finishAcc (s : State) (id : Nat) : EndedStay s (finishAcc s id) := by
  cases h : tabGet s.accs id with
  | none => simp only [finishAcc, h]; exact .refl s
  | some a => exact (membersSettle_finishAcc h).endedStay

theorem endedStay_writeG (s : State) (id : Nat) (n : BitVec 6) (v : Word) : EndedStay s (writeG s id n v) :=
  endedStay_updMember s id fun _ => ⟨rfl, rfl, rfl⟩

theorem endedStay_writeDst (s : State) (id : Nat) (wide : Bool) (v : Word64) (d : Dst) : EndedStay s (writeDst s id wide v d) := by
  cases d with
  | g n =>
    cases wide with
    | true => exact (endedStay_writeG ..).trans (endedStay_writeG ..)
    | false => exact endedStay_writeG ..
  | face f => exact endedStay_updMember s id fun _ => ⟨rfl, rfl, rfl⟩
  | pred p => exact endedStay_updMember s id fun _ => ⟨rfl, rfl, rfl⟩
  | none => exact .refl s

theorem endedStay_writeBack (s : State) (a : Access) : EndedStay s (writeBack s a) := by
  have hpair (b : BitVec 6) (x y : Word) : EndedStay s (writeG (writeG s a.member b x) a.member (b + 1) y) :=
    (endedStay_writeG ..).trans (endedStay_writeG ..)
  unfold writeBack
  simp only
  split
  · exact endedStay_writeDst ..
  · exact endedStay_writeDst ..
  · exact endedStay_writeDst ..
  · exact hpair ..
  · exact hpair ..
  · exact hpair ..
  · exact hpair ..
  · exact ((hpair ..).trans (endedStay_writeG ..)).trans (endedStay_writeG ..)
  · exact endedStay_writeG ..
  · exact endedStay_writeDst ..
  · exact .refl s

theorem members_cacheLoad (s : State) (id : Nat) (a : Access) : (cacheLoad s id a).members = s.members := by
  have halloc (t : State) (n : Nat) : (allocLine t a n).members = t.members := by
    unfold allocLine
    split <;> rfl
  have hfill : (if (coreAt s a.core).filling.contains (lineKey a.tgt, id) = true then
      updCore s a.core fun u => { u with filling := u.filling.filter fun l => l.2 != id } else s).members = s.members := by
    split <;> rfl
  unfold cacheLoad
  simp only
  generalize (if (coreAt s a.core).filling.contains (lineKey a.tgt, id) = true then _ else s) = s0 at hfill ⊢
  split
  · exact (halloc ..).trans hfill
  · exact hfill

theorem endedStay_finishVld (s : State) (id : Nat) (a : Access) (v : Word64) : EndedStay s (finishVld s id a v) := by
  have hmark (f : Access → Access) : EndedStay s (markPerformed s id f) := by
    unfold markPerformed
    split
    · exact .refl s
    · refine EndedStay.trans ?_ (aside_settleFences ..).endedStay
      refine EndedStay.trans ?_ (membersSettle_carryNeeds ..).endedStay
      exact .ofMembers rfl
  unfold finishVld
  simp only
  refine (hmark fun x => { x with phase := .performed, value := v }).trans ?_
  split
  · refine EndedStay.trans ?_ (endedStay_finishAcc ..)
    refine EndedStay.trans ?_ (aside_retireAcc ..).endedStay
    exact .ofMembers rfl
  · exact .refl _

/-- The completion of an access brings no member back. -/
theorem endedStay_completeAcc (s : State) (id : Nat) : EndedStay s (completeAcc s id) := by
  unfold completeAcc
  split
  · exact .refl s
  · next a _ =>
    have h0 := ((aside_mergeStamp s a).trans (aside_freeRead _ a)).endedStay
    have h1 := (h0.trans (.ofMembers (members_cacheLoad _ id a))).trans (aside_takeMet _ id a).endedStay
    simp only
    split
    · refine EndedStay.trans ?_ (endedStay_finishAcc ..)
      exact h0.trans (.ofMembers rfl)
    · exact h1.trans (endedStay_finishVld ..)
    · exact (((h1.trans (endedStay_writeBack ..)).trans (aside_retireAcc ..).endedStay).trans (endedStay_finishAcc ..)).trans
        (aside_lateJoin ..).endedStay

/-! ## Stopped members (R276, R281) -/

theorem members_strandFaults (s : State) (m : Member) (l : List FaultInfo) :
    (l.foldl (fun t fi => sendRecord t (faultRecord t m fi fi.cause fi.detail)) s).members = s.members := by
  induction l generalizing s with
  | nil => rfl
  | cons fi r ih => exact ih _

theorem keyed_leaving {s : State} (hk : Keyed s.members) (id : Nat) (m : Member) : Keyed (leaving s id m).members := by
  have h1 : Keyed (strandFaults (detached s id m) id m).members := by
    refine keyed_updMember ?_ ..
    rw [members_strandFaults]
    exact hk
  unfold leaving
  simp only
  split
  · unfold endTrapTime
    split
    · exact keyed_updMember h1 ..
    · exact keyed_updMember h1 ..
  · exact h1

theorem members_reportSteps (s : State) (m : Member) (k : Nat) : (reportSteps s m k).members = s.members := by
  unfold reportSteps
  split <;> rfl

theorem members_serveSpanReads (s : State) (m : Member) : (serveSpanReads s m).members = s.members := by
  have hf : ∀ (f : SpanWait → Nat) (l : List SpanWait) (t : State), (l.foldl (fun t w => escapeFace t m (f w)) t).members = t.members := by
    intro f l
    induction l with
    | nil => exact fun _ => rfl
    | cons w r ih => exact fun t => ih _
  unfold serveSpanReads
  split
  · rfl
  · exact hf _ _ s

theorem keyed_settle {s : State} (hk : Keyed s.members) (id : Nat) : Keyed (settle s id).members := (trapEnds_settle s id).keyed hk

theorem keyed_countDeparture {s : State} (hk : Keyed s.members) (id : Nat) (m : Member) : Keyed (countDeparture s id m).members := by
  unfold countDeparture fence
  split
  · exact hk
  · split
    · exact hk
    · exact (aside_settleFences ..).members.keyed (keyed_updMember hk ..)

theorem keyed_releaseJoins {s : State} (hk : Keyed s.members) (rel : Nat) : Keyed (releaseJoins s rel).members := by
  unfold releaseJoins
  split
  · exact hk
  · split
    · split
      · exact keyed_settle (keyed_updMember ((aside_retireAs ..).members.keyed hk) ..) rel
      · exact hk
    · split
      · exact hk
      · exact keyed_settle hk rel
    · exact hk

theorem keyed_leaveMember {s : State} (hk : Keyed s.members) (id : Nat) : Keyed (leaveMember s id).members := by
  cases hm : memberAt s id with
  | none => simp only [leaveMember, hm]; exact hk
  | some m =>
    have hl := keyed_leaving hk id m
    cases hkind : m.kind with
    | grid =>
      rw [leaveMember_grid hm hkind, members_serveSpanReads, members_reportSteps]
      exact keyed_countDeparture (keyed_updMember hl ..) id m
    | curator => rw [leaveMember_curator hm hkind]; exact keyed_updMember hl ..
    | task => rw [leaveMember_task hm hkind]; exact keyed_updMember hl ..
    | tail => rw [leaveMember_tail hm hkind]; exact keyed_releaseJoins (keyed_updMember hl ..) _

/-- STOPACT 0 ends the named member, or marks it while it issues (R281). -/
theorem terminated_stopact {s : State} {x : Nat} {a : Access} {wide : Bool} {u : IoUnit} {off : Nat} {l : Nat × Nat}
    (hw : IoWriting s x a wide u off l) {id : Nat} {m : Member} (hm : memberAt s id = some m) (hk : Keyed s.members)
    (he : hasEnded m = false) : ∃ v, memberAt (completeAcc (terminate s id) x) id = some v ∧
      (if inGroup s id m.core = true then v.terminating = true else hasEnded v = true) := by
  unfold terminate
  simp only [hm, he, Bool.false_eq_true, if_false]
  by_cases hg : inGroup s id m.core = true
  · simp only [if_pos hg]
    have hp := performed_of_accs (s1 := updMember s id fun v => { v with terminating := true }) hw rfl
    obtain ⟨v, hv, hs⟩ := hp.members.member id { m with terminating := true } (by rw [memberAt_updMember_same, hm]; rfl)
    exact ⟨v, hv, hs.terminating rfl⟩
  · simp only [if_neg hg]
    have ha := membersSettle_abandonLogs s id
    obtain ⟨m1, hm1, -⟩ := ha.member id m hm
    obtain ⟨v, hv, hwait, hplace⟩ := hasEnded_leaveMember hm1
    have hkl : Keyed (leaveMember (abandonLogs s id) id).members := keyed_leaveMember (ha.keyed hk) id
    obtain ⟨w, hw', hwait', hp, hkind⟩ := ((endedStay_completeAcc _ x).kept hkl).2 id v hv hwait
    refine ⟨w, hw', ?_⟩
    rcases hplace with h | h
    · simp [hasEnded, hp, h]
    · simp [hasEnded, hkind, h, hwait']

/-- A member that has been woken stands as it stood when a register write completes, where no tail stands open. -/
theorem ready_performed {s1 t : State} {x id : Nat} {v : Member} (hp : Performed s1 t x) (hk : Keyed s1.members)
    (hm : memberAt s1 id = some v) (hw : v.wait = .ready) (hj : v.joinTails = []) :
    ∃ w, memberAt t id = some w ∧ w.wait = .ready ∧ w.stopRec = v.stopRec ∧ w.r = v.r ∧ w.pc = v.pc ∧ w.slot = v.slot := by
  obtain ⟨w, hw', hc⟩ := calm_performed hp hm (by rw [hw]; nofun)
  have hno : ¬ MayWake v := by
    rintro (h | h | ⟨-, h⟩)
    · rw [hw] at h; cases h
    · rw [hw] at h; cases h
    · exact h hj
  exact ⟨w, hw', (hc.still hk hno).trans hw, by rw [hc.same], by rw [hc.same], by rw [hc.same], by rw [hc.same]⟩

/-- What STOPACT 1 makes of the named member (R75, R276). -/
def resumeStopped (s : State) (id : Nat) (m : Member) : State :=
  match m.wait with
  | .stopped =>
    let first := (m.stopRec.map fun f => f.fetchStage || f.async).getD false
    wake (updMember (loseLatches s id) id fun v => { v with stopRec := none, slot := if first then 0 else v.slot }) id
  | .heldSlot _ _ => wake s id
  | _ => s

theorem resumeStopped_rest (s : State) (id : Nat) (m : Member) : (resumeStopped s id m).mem = s.mem ∧
    (resumeStopped s id m).accs = s.accs := by
  unfold resumeStopped
  split
  · exact ⟨by rw [wake_mem]; rfl, by rw [wake_accs]; rfl⟩
  · exact ⟨wake_mem .., wake_accs ..⟩
  · exact ⟨rfl, rfl⟩

theorem keyed_resumeStopped {s : State} (hk : Keyed s.members) (id : Nat) (m : Member) : Keyed (resumeStopped s id m).members := by
  unfold resumeStopped
  split
  · refine keyed_wake (keyed_updMember ?_ ..) id
    exact keyed_updMember (s := { s with sched := { s.sched with free := s.sched.free + 8 } }) hk ..
  · exact keyed_wake hk id
  · exact hk

/-- A stopped member goes on at its record's position (R276). -/
theorem resumed_stopped {s : State} {id : Nat} {m : Member} {fi : FaultInfo} (hm : memberAt s id = some m) (hw : m.wait = .stopped)
    (hr : m.stopRec = some fi) : ∃ v, memberAt (resumeStopped s id m) id = some v ∧ v.wait = .ready ∧ v.joinTails = m.joinTails ∧
      v.stopRec = none ∧ v.r = m.r ∧ v.pc = m.pc ∧ v.slot = (if fi.fetchStage = true ∨ fi.async = true then 0 else m.slot) := by
  obtain ⟨v1, hl, he⟩ : ∃ v1, memberAt (loseLatches s id) id = some v1 ∧ v1 = { m with lat := v1.lat } := by
    unfold loseLatches
    simp only
    rw [memberAt_updMember_same]
    show ∃ v1, (memberAt s id).map _ = some v1 ∧ _
    rw [hm]
    exact ⟨_, rfl, rfl⟩
  have hu (first : Bool) := memberAt_wake (id := id) (m := { v1 with stopRec := none, slot := if first then 0 else v1.slot })
    (s := updMember (loseLatches s id) id fun v => { v with stopRec := none, slot := if first then 0 else v.slot })
    (by rw [memberAt_updMember_same, hl]; rfl)
  unfold resumeStopped
  simp only [hw, hr]
  refine ⟨_, hu _, rfl, by rw [he], rfl, by rw [he], by rw [he], ?_⟩
  rw [he]
  simp

/-- A member that waits at its slot issues it again (R276). -/
theorem resumed_heldSlot {s : State} {id : Nat} {m : Member} {c : Nat} {va : Word64} (hm : memberAt s id = some m)
    (hw : m.wait = .heldSlot c va) : ∃ v, memberAt (resumeStopped s id m) id = some v ∧ v.wait = .ready ∧ v.joinTails = m.joinTails ∧
      v.r = m.r ∧ v.pc = m.pc ∧ v.slot = m.slot := by
  unfold resumeStopped
  simp only [hw]
  exact ⟨_, memberAt_wake hm, rfl, rfl, rfl, rfl, rfl⟩

/-- STOPACT 1: the named member goes on (R276). -/
theorem resumed_stopact {s : State} {x : Nat} {a : Access} {wide : Bool} {u : IoUnit} {off : Nat} {l : Nat × Nat}
    (hw : IoWriting s x a wide u off l) {id : Nat} {m : Member} (hm : memberAt s id = some m) (hk : Keyed s.members)
    (hj : m.joinTails = []) :
    let t := completeAcc (resumeStopped s id m) x
    (∀ fi, m.wait = .stopped → m.stopRec = some fi → ∃ v, memberAt t id = some v ∧ v.wait = .ready ∧ v.stopRec = none ∧ v.r = m.r ∧
      v.pc = m.pc ∧ v.slot = (if fi.fetchStage = true ∨ fi.async = true then 0 else m.slot)) ∧
    (∀ c va, m.wait = .heldSlot c va → ∃ v, memberAt t id = some v ∧ v.wait = .ready ∧ v.r = m.r ∧ v.pc = m.pc ∧ v.slot = m.slot) := by
  intro t
  have hp : Performed (resumeStopped s id m) t x := performed_of_accs hw (resumeStopped_rest s id m).2
  have hk' := keyed_resumeStopped hk id m
  refine ⟨fun fi hwait hrec => ?_, fun c va hwait => ?_⟩
  · obtain ⟨v, hv, h1, h2, h3, h4, h5, h6⟩ := resumed_stopped hm hwait hrec
    obtain ⟨w, hw', g1, g2, g3, g4, g5⟩ := ready_performed hp hk' hv h1 (h2.trans hj)
    exact ⟨w, hw', g1, g2.trans h3, g3.trans h4, g4.trans h5, g5.trans h6⟩
  · obtain ⟨v, hv, h1, h2, h4, h5, h6⟩ := resumed_heldSlot hm hwait
    obtain ⟨w, hw', g1, g2, g3, g4, g5⟩ := ready_performed hp hk' hv h1 (h2.trans hj)
    exact ⟨w, hw', g1, g3.trans h4, g4.trans h5, g5.trans h6⟩

/-! ## The delivery to a stopped member -/

/-- A member to which a fault is delivered goes on in its handler or stops. -/
theorem wait_deliverEntry {s : State} {id : Nat} {fi : FaultInfo} {v : Member} (h : memberAt (deliverEntry s id fi) id = some v)
    {m : Member} (hm : memberAt s id = some m) : v.wait = .ready ∨ v.wait = .stopped := by
  have hleave (t : State) (slot : Nat) (w : Wait) (y : Member) (hy : memberAt (leaveGroup t id slot w) id = some y) : y.wait = w := by
    cases ht : memberAt t id with
    | none => simp [leaveGroup, ht] at hy
    | some z =>
      have := (stands_leaveGroup ht slot w).member
      rw [hy] at this
      cases this
      rfl
  have hstop (cause detail : Nat) (hv : memberAt (stopWithRecord s id m fi cause detail) id = some v) : v.wait = .stopped := by
    unfold stopWithRecord stopMember at hv
    rw [memberAt_updMember_same] at hv
    obtain ⟨y, hy, rfl⟩ := Option.map_eq_some_iff.mp hv
    exact hleave _ _ _ y hy
  unfold deliverEntry at h
  simp only [hm] at h
  split at h
  · exact .inr (hstop _ _ h)
  · unfold deliverFault at h
    split at h
    · exact .inr (hstop _ _ h)
    · split at h
      · exact .inr (hstop _ _ h)
      · split at h
        · exact .inr (hstop _ _ h)
        · unfold enterHandler at h
          simp only [memberAt_updMember_same] at h
          obtain ⟨y, hy, rfl⟩ := Option.map_eq_some_iff.mp h
          exact .inl (hleave _ _ _ y hy)

/-- What STOPACT 2 makes of the named member (R276). -/
def deliverToStopped (s : State) (id : Nat) (m : Member) : State :=
  match m.wait, m.stopRec with
  | .stopped, some fi => deliverStopped s id fi
  | .heldSlot c va, _ => deliverStopped s id (slotFault s m (c + 0x0F) c va)
  | _, _ => s

theorem accs_deliverToStopped (s : State) (id : Nat) (m : Member) : (deliverToStopped s id m).accs = s.accs := by
  unfold deliverToStopped
  split
  · exact accs_deliverStopped ..
  · exact accs_deliverStopped ..
  · rfl

theorem deliverToStopped_eq {s : State} {id : Nat} {m : Member} {fi : FaultInfo} (h : (m.wait = .stopped ∧ m.stopRec = some fi) ∨
    ∃ c va, m.wait = .heldSlot c va ∧ fi = slotFault s m (c + 0x0F) c va) : deliverToStopped s id m = deliverStopped s id fi := by
  unfold deliverToStopped
  rcases h with ⟨hw, hr⟩ | ⟨c, va, hw, rfl⟩
  · simp only [hw, hr]
  · simp only [hw]

/-- STOPACT 2 delivers at once, or the member waits for room for its record (R276, R283). -/
theorem delivered_stopact {s : State} {x : Nat} {a : Access} {wide : Bool} {u : IoUnit} {off : Nat} {l : Nat × Nat}
    (hw : IoWriting s x a wide u off l) {id : Nat} {m : Member} (hm : memberAt s id = some m) (hk : Keyed s.members) (fi : FaultInfo) :
    let d := deliverEntry (updMember s id fun v => { v with stopRec := none }) id fi
    let t := completeAcc (deliverStopped s id fi) x
    (recordRoom s d = true → SameMemory d t ∧ ∀ v1, memberAt d id = some v1 → ∃ v, memberAt t id = some v ∧ v.r = v1.r ∧
      v.trapMode = v1.trapMode ∧ v.pc = v1.pc ∧ v.slot = v1.slot ∧ v.stopRec = v1.stopRec) ∧
    (recordRoom s d = false → SameMemory s t ∧
      ∃ v, memberAt t id = some v ∧ v.r = m.r ∧ v.wait = .recordFull ∧ v.stopRec = some fi) := by
  intro d t
  have hp : Performed (deliverStopped s id fi) t x := performed_of_accs hw (accs_deliverStopped ..)
  refine ⟨fun hroom => ?_, fun hroom => ?_⟩
  · have hd : deliverStopped s id fi = d := if_pos hroom
    rw [hd] at hp
    refine ⟨fun y => by rw [show t.mem = (deliverStopped s id fi).mem from mem_completeAcc .., hd], fun v1 hv1 => ?_⟩
    have hwait := wait_deliverEntry (m := { m with stopRec := none }) hv1 (by rw [memberAt_updMember_same, hm]; rfl)
    obtain ⟨v, hv, hc⟩ := calm_performed hp hv1 (by rcases hwait with h | h <;> rw [h] <;> nofun)
    exact ⟨v, hv, by rw [hc.same], by rw [hc.same], by rw [hc.same], by rw [hc.same], by rw [hc.same]⟩
  · have hd : deliverStopped s id fi = updMember s id fun v => { v with wait := .recordFull, stopRec := some fi } :=
      if_neg (by rw [hroom]; exact Bool.false_ne_true)
    rw [hd] at hp
    refine ⟨fun y => by rw [show t.mem = (deliverStopped s id fi).mem from mem_completeAcc .., hd, updMember_mem], ?_⟩
    obtain ⟨v, hv, hc⟩ := calm_performed (n := id) (v := { m with wait := .recordFull, stopRec := some fi }) hp
      (by rw [memberAt_updMember_same, hm]; rfl) nofun
    have hno : ¬ MayWake { m with wait := .recordFull, stopRec := some fi } := by
      rintro (h | h | ⟨h, -⟩) <;> cases h
    exact ⟨v, hv, by rw [hc.same], hc.still (keyed_updMember hk ..) hno, by rw [hc.same]⟩

theorem exec_stopactResumeDeliver (s : State) (x : Nat) :
    exec (.stopactResumeDeliver x) s = ioStep s x (stopEffect 2 deliverToStopped s) := rfl

/-- Settles O31: every disposition acts before the write of its register completes, and the completion of a register write leaves the
accesses, the log entries and the members that a disposition has settled. -/
theorem dispositions : Obligations.Dispositions := by
  unfold Obligations.Dispositions
  refine ⟨⟨ioEvent_act (fun _ _ => rfl) ?_, ioEvent_act (fun _ _ => rfl) ?_, ioEvent_act (fun _ _ => rfl) ?_⟩,
    ioEvent_stop (run := fun s id _ => terminate s id) (fun _ _ => rfl) (fun s id _ => mem_terminate s id)
      (fun s id _ => accsFrom_terminate s id) ?_,
    ioEvent_stop (run := resumeStopped) (fun _ _ => rfl) (fun s id m => (resumeStopped_rest s id m).1)
      (fun s id m => .ofEq (resumeStopped_rest s id m).2) ?_, fun s x a wide u off l hw => ?_⟩
  · rintro s id x wide g off l hw _ e a m ⟨⟩ h hb hs
    exact replayed_of_waits h hw (Nat.mod_lt _ (by decide)) _ hb hs rfl
  · rintro s id x wide g off l hw _ e a m ⟨⟩ h
    exact delivered_of_waits h hw _ rfl
  · rintro s id x wide g off l hw _ e a m ⟨⟩ h
    exact abandoned_of_waits h hw _ rfl
  · rintro s x a wide g off l hw _ id m ⟨⟩ hn hk he
    rw [hn]
    exact terminated_stopact hw (memberAt_namedMember hn hk) hk he
  · rintro s x a wide g off l hw _ id m ⟨⟩ hn hk hj -
    rw [hn]
    exact resumed_stopact hw (memberAt_namedMember hn hk) hk hj
  · have he := (exec_stopactResumeDeliver s x).trans (ioStep_of_writing hw (stopEffect 2 deliverToStopped s))
    refine ⟨fun hn => ?_, fun hy => ?_⟩
    · rw [stopEffect_none hn] at he
      exact he
    obtain ⟨g, rfl, h1⟩ := stopEffect_some (run := deliverToStopped) (s := s) hy
    rw [h1] at he
    refine ⟨_, he, fun hk => absent_completeAcc hw hk ?_, ?_⟩
    · exact stopped_kept (R := fun s t => AccsFrom s.accs t.accs) s (.refl _) (fun id m => .ofEq (accs_deliverToStopped s id m)) g
    · rintro _ id m fi ⟨⟩ hn hk - hfi
      rw [hn]
      simp only [deliverToStopped_eq hfi]
      exact delivered_stopact hw (memberAt_namedMember hn hk) hk fi

end Sys2Proof.Proofs
end
